-- ==== Sys2Proof/Word.lean ====
section
/-! DEFINITION. The word types of the Q8 and the plainest arithmetic over them: the types of bytes, register words and
64-bit registers (R9), and the pairing of unit numbers into one key of sparse storage. -/

namespace Sys2Proof

/-- A byte. -/
abbrev Byte := BitVec 8

/-- A register word as BAR0 sees it. -/
abbrev Word := BitVec 32

/-- A 64-bit register, and the widest field this part has. -/
abbrev DWord := BitVec 64

/-- Two unit numbers as one key: the pairs whose larger number is `r` take the keys from `r²` to `r² + 2r`. -/
def key2 (a b : Nat) : Nat := if a < b then b * b + a else a * a + a + b

/-- Three unit numbers as one key. -/
def key3 (a b c : Nat) : Nat := key2 a (key2 b c)

/-- Four unit numbers as one key. -/
def key4 (a b c d : Nat) : Nat := key2 a (key3 b c d)

/-- Six unit numbers as one key. -/
def key6 (a b c d e f : Nat) : Nat := key3 a b (key4 c d e f)

theorem key2_inj {a b c d : Nat} (h : key2 a b = key2 c d) : a = c ∧ b = d := by
  have lt_sq : ∀ {r s : Nat}, r < s → r * r + 2 * r < s * s := by
    intro r s h
    have h1 : (r + 1) * (r + 1) ≤ s * s := Nat.mul_self_le_mul_self h
    have h2 : (r + 1) * (r + 1) = r * r + 2 * r + 1 := by
      simp only [Nat.add_mul, Nat.mul_add]; omega
    omega
  unfold key2 at h
  split at h <;> split at h
  · have hbd : b = d := by
      rcases Nat.lt_trichotomy b d with hl | he | hg
      · have := lt_sq hl; omega
      · exact he
      · have := lt_sq hg; omega
    subst hbd; omega
  · rcases Nat.lt_trichotomy b c with hl | he | hg
    · have := lt_sq hl; omega
    · subst he; omega
    · have := lt_sq hg; omega
  · rcases Nat.lt_trichotomy a d with hl | he | hg
    · have := lt_sq hl; omega
    · subst he; omega
    · have := lt_sq hg; omega
  · have hac : a = c := by
      rcases Nat.lt_trichotomy a c with hl | he | hg
      · have := lt_sq hl; omega
      · exact he
      · have := lt_sq hg; omega
    subst hac; omega

@[simp] theorem key2_eq_iff {a b c d : Nat} : key2 a b = key2 c d ↔ a = c ∧ b = d :=
  ⟨key2_inj, fun ⟨h, k⟩ => by rw [h, k]⟩

@[simp] theorem key3_eq_iff {a b c a' b' c' : Nat} :
    key3 a b c = key3 a' b' c' ↔ a = a' ∧ b = b' ∧ c = c' := by
  simp [key3]

@[simp] theorem key4_eq_iff {a b c d a' b' c' d' : Nat} :
    key4 a b c d = key4 a' b' c' d' ↔ a = a' ∧ b = b' ∧ c = c' ∧ d = d' := by
  simp [key4]

@[simp] theorem key6_eq_iff {a b c d e f a' b' c' d' e' f' : Nat} :
    key6 a b c d e f = key6 a' b' c' d' e' f' ↔
      a = a' ∧ b = b' ∧ c = c' ∧ d = d' ∧ e = e' ∧ f = f' := by
  simp [key6]

end Sys2Proof
end

