-- ==== Sys2Proof/Syntax.lean ====
section
/-! DEFINITION. The commands of the Q8, one constructor of `Instr` per row of spec/opcode_table.json, in the table's
order. A command is one indivisible step of the part (95_what_each_step_holds.md): a Fenja instruction of one program,
a request at a mailbox, a register access, an event on a ball, a packet, or the completion of something in flight.
The table gives no operands: each constructor carries what the spec's text of that step names. -/

namespace Sys2Proof

/-- R15: the requesters that reach registers, each with its own latches and holding registers. -/
inductive Requester where
  | host | mp | sp | tp
  /-- the supervisor of mast `m` -/
  | ms (m : Nat)
  deriving DecidableEq, Repr

/-- R187: the predicate of an instruction and its inversion. -/
structure Guard where
  pd : BitVec 3
  neg : Bool
  deriving DecidableEq, Repr

/-- R187: the second operand of a scalar or branch instruction: a register, or the immediate of word B. -/
inductive Operand where
  | reg (r : BitVec 5)
  | imm (v : BitVec 32)
  deriving DecidableEq, Repr

/-- R188: a tensor operand: the tid and the address register of its slice offset. -/
structure TOp where
  tid : BitVec 12
  ad : BitVec 4
  deriving DecidableEq, Repr

/-- Table 7.14. -/
inductive Cond where
  | eq | ne | lt | ge | ltu | geu | flt | fge
  deriving DecidableEq, Repr

/-- R189: where a branch goes, the path expected of it, and its bound (R190). -/
structure BrTail where
  disp : BitVec 20
  expect : Bool
  bound : BitVec 16
  deriving DecidableEq, Repr

/-- Table 7.15a: the operand words of a matrix or convolution instruction; `bias` is ctl [0]. -/
structure MatOps where
  dst : TOp
  a : TOp
  b : TOp
  c : TOp
  bias : Bool
  count : BitVec 16
  record : BitVec 16
  deriving DecidableEq, Repr

/-- R194: the destination of a reduction. -/
inductive RedDest where
  | tensor
  | scalar (rd : BitVec 5)
  | scale
  deriving DecidableEq, Repr

/-- R194: the operand words and ctl fields of a reduction. `group` is 0 for whole axes, else 1, 2, 3 for G = 32, 64,
128; `axes` is the axis mask; `valueOut` is ctl [8]. -/
structure RedOps where
  dst : TOp
  a : TOp
  b : TOp
  dest : RedDest
  group : BitVec 2
  axes : BitVec 4
  valueOut : Bool
  count : BitVec 16
  deriving DecidableEq, Repr

/-- Table 7.15a and R195: the operand words of a vector instruction; `imm` is word B in place of b and c. -/
structure VecOps where
  dst : TOp
  a : TOp
  b : TOp
  c : TOp
  imm : Option (BitVec 32)
  count : BitVec 16
  record : BitVec 16
  deriving DecidableEq, Repr

/-- R199: the sail or boom of a virtual yard that an engine command names. -/
structure EngAt where
  vyard : BitVec 6
  sail : BitVec 2
  deriving DecidableEq, Repr

/-- Table 3.2: the modes of a sail. -/
inductive Mode where
  | i8 | w4a8 | c4
  deriving DecidableEq, Repr

/-- Table 8.1: the engine queues of one yard. -/
inductive UnitQ where
  | sail (s : Nat) | boom (s : Nat) | reef | vu | strm
  deriving DecidableEq, Repr

/-- R347: where a downhaul comes from is said by its command; this names the four host-side happenings and others
where one step serves several. Table 10.11 (part): how a stream read-back or access ended. -/
inductive XferEnd where
  | done | poisoned | windowFault | hostError
  deriving DecidableEq, Repr

/-- R297: what became of a camera frame. -/
inductive FrameEnd where
  | complete
  /-- complete, a header having been corrected -/
  | corrected
  /-- header ECC error uncorrectable -/
  | eccUncorr
  /-- a CRC failed -/
  | crc
  /-- a frame-start before the previous frame-end -/
  | early
  /-- the line count or line length differs -/
  | shape
  /-- a packet of an unsupported type or unnamed virtual channel (R295), discarded -/
  | discard
  deriving DecidableEq, Repr

/-- R306: what an encoder does with the picture in hand. -/
inductive PicKind where
  | idr | p | b | jpeg
  deriving DecidableEq, Repr

/-- R351: the speed the PHY negotiated. -/
inductive EthSpeed where
  | down | m10 | m100 | m1000
  deriving DecidableEq, Repr

/-- R353: the source of a Halyard datagram. -/
structure NetAddr where
  ip : Nat
  port : BitVec 16
  deriving DecidableEq, Repr

/-- R352: why an incoming Ethernet frame is discarded. -/
inductive EthDrop where
  | vlan | jumbo | fragment | tcp | otherProto | rateLimit
  deriving DecidableEq, Repr

/-- R316 of NDP, R352: the NDP messages the stack handles. -/
inductive NdpMsg where
  /-- neighbour solicitation of an address -/
  | solicit (target : Nat)
  /-- router advertisement of a /64 prefix -/
  | routerAdv (pfx : Nat)
  deriving DecidableEq, Repr

/-- R352: what the DHCPv4 server says. -/
inductive DhcpMsg where
  | ack (addr : BitVec 32)
  | nak
  deriving DecidableEq, Repr

/-- The commands, one constructor per row of the opcode table. -/
inductive Instr where
  -- tick, timebase and launch
  | timebaseLock
  | gcntSaturated
  | counterAlignment (m : Nat) (value loadAt : BitVec 64)
  | tickStart
  | tickOutPulse
  | fsyncPulse (n : Nat)
  | guardStart
  | tickInEdge (falling : Bool)
  | tickInLost
  | holdoverRelock
  | tickRunSet
  | tickRunClear
  | gcntCapture (value : BitVec 32)
  | lowWordRead (rq : Requester) (off : Nat)
  | lowWordWrite (rq : Requester) (off : Nat) (value : BitVec 32)
  | highWordWrite (rq : Requester) (off : Nat) (value : BitVec 32)
  | registerWrite (rq : Requester) (off : Nat) (value : BitVec 32)
  -- mailboxes, rigs and admission
  | launch (mbox : Nat)
  | restart (mbox : Nat)
  | launchArmed (mbox : Nat)
  | loadRig (mbox : Nat)
  | loadProg (mbox : Nat)
  | unload (mbox : Nat)
  | progRemoved (p : Nat)
  | revert (mbox : Nat)
  | rigApplied
  | rigReverted
  | imemCopyDone (p : Nat)
  -- scalar class
  | nop (p : Nat) (g : Guard)
  | li (p : Nat) (g : Guard) (rd : BitVec 5) (imm : BitVec 32)
  | mov (p : Nat) (g : Guard) (rd ra : BitVec 5)
  | add (p : Nat) (g : Guard) (rd ra : BitVec 5) (b : Operand)
  | sub (p : Nat) (g : Guard) (rd ra : BitVec 5) (b : Operand)
  | mul (p : Nat) (g : Guard) (rd ra : BitVec 5) (b : Operand)
  | and (p : Nat) (g : Guard) (rd ra : BitVec 5) (b : Operand)
  | or (p : Nat) (g : Guard) (rd ra : BitVec 5) (b : Operand)
  | xor (p : Nat) (g : Guard) (rd ra : BitVec 5) (b : Operand)
  | shl (p : Nat) (g : Guard) (rd ra : BitVec 5) (b : Operand)
  | shr (p : Nat) (g : Guard) (rd ra : BitVec 5) (b : Operand)
  | sra (p : Nat) (g : Guard) (rd ra : BitVec 5) (b : Operand)
  | min (p : Nat) (g : Guard) (rd ra : BitVec 5) (b : Operand)
  | max (p : Nat) (g : Guard) (rd ra : BitVec 5) (b : Operand)
  | fAdd (p : Nat) (g : Guard) (rd ra : BitVec 5) (b : Operand)
  | fMul (p : Nat) (g : Guard) (rd ra : BitVec 5) (b : Operand)
  | fCvtI (p : Nat) (g : Guard) (rd ra : BitVec 5)
  | fCvtF (p : Nat) (g : Guard) (rd ra : BitVec 5)
  | cmp (p : Nat) (g : Guard) (rd : BitVec 3) (cond : Cond) (ra : BitVec 5) (b : Operand)
  | pAnd (p : Nat) (g : Guard) (rd ra rb : BitVec 3)
  | pOr (p : Nat) (g : Guard) (rd ra rb : BitVec 3)
  | pNot (p : Nat) (g : Guard) (rd ra : BitVec 3)
  | adLi (p : Nat) (g : Guard) (rd : BitVec 4) (imm : BitVec 32)
  | adMov (p : Nat) (g : Guard) (rd : BitVec 4) (ra : BitVec 5)
  | adAdd (p : Nat) (g : Guard) (rd ra : BitVec 4) (imm : BitVec 32)
  | spRd (p : Nat) (g : Guard) (rd : BitVec 5) (imm : BitVec 32)
  | scAge (p : Nat) (g : Guard) (rd : BitVec 5) (input : TOp)
  -- branch class
  | br (p : Nat) (g : Guard) (t : BrTail)
  | brEq (p : Nat) (g : Guard) (ra : BitVec 5) (b : Operand) (t : BrTail)
  | brNe (p : Nat) (g : Guard) (ra : BitVec 5) (b : Operand) (t : BrTail)
  | brLt (p : Nat) (g : Guard) (ra : BitVec 5) (b : Operand) (t : BrTail)
  | brGe (p : Nat) (g : Guard) (ra : BitVec 5) (b : Operand) (t : BrTail)
  | brLtu (p : Nat) (g : Guard) (ra : BitVec 5) (b : Operand) (t : BrTail)
  | brGeu (p : Nat) (g : Guard) (ra : BitVec 5) (b : Operand) (t : BrTail)
  | brFlt (p : Nat) (g : Guard) (ra : BitVec 5) (b : Operand) (t : BrTail)
  | brFge (p : Nat) (g : Guard) (ra : BitVec 5) (b : Operand) (t : BrTail)
  | brP (p : Nat) (g : Guard) (pr : BitVec 3) (t : BrTail)
  -- matrix, convolution
  | mmI8 (p : Nat) (g : Guard) (o : MatOps)
  | mmW4a8 (p : Nat) (g : Guard) (o : MatOps)
  | mmC4 (p : Nat) (g : Guard) (o : MatOps)
  | conv (p : Nat) (g : Guard) (o : MatOps)
  | tconv (p : Nat) (g : Guard) (o : MatOps)
  -- reductions
  | redSum (p : Nat) (g : Guard) (o : RedOps)
  | redSumsq (p : Nat) (g : Guard) (o : RedOps)
  | redMax (p : Nat) (g : Guard) (o : RedOps)
  | redMin (p : Nat) (g : Guard) (o : RedOps)
  | redMaxabs (p : Nat) (g : Guard) (o : RedOps)
  | redNz (p : Nat) (g : Guard) (o : RedOps)
  | argmaxC (p : Nat) (g : Guard) (o : RedOps)
  | argminC (p : Nat) (g : Guard) (o : RedOps)
  -- vector
  | vopAdd (p : Nat) (g : Guard) (o : VecOps)
  | vopSub (p : Nat) (g : Guard) (o : VecOps)
  | vopMul (p : Nat) (g : Guard) (o : VecOps)
  | vopMax (p : Nat) (g : Guard) (o : VecOps)
  | vopMin (p : Nat) (g : Guard) (o : VecOps)
  | vopAbs (p : Nat) (g : Guard) (o : VecOps)
  | vopNeg (p : Nat) (g : Guard) (o : VecOps)
  | vopSel (p : Nat) (g : Guard) (cond : Cond) (o : VecOps)
  | vopFma (p : Nat) (g : Guard) (o : VecOps)
  | vopCvt (p : Nat) (g : Guard) (o : VecOps)
  | vopRcp (p : Nat) (g : Guard) (o : VecOps)
  | vopSqrt (p : Nat) (g : Guard) (o : VecOps)
  | vopFtab (p : Nat) (g : Guard) (o : VecOps)
  | vopSoftmax (p : Nat) (g : Guard) (o : VecOps)
  | vopLnorm (p : Nat) (g : Guard) (o : VecOps)
  | vopRmsnorm (p : Nat) (g : Guard) (o : VecOps)
  | vopMaxpool (p : Nat) (g : Guard) (o : VecOps)
  | vopAvgpool (p : Nat) (g : Guard) (o : VecOps)
  | vopRszNear (p : Nat) (g : Guard) (o : VecOps)
  | vopRszBil (p : Nat) (g : Guard) (o : VecOps)
  | vopGather (p : Nat) (g : Guard) (o : VecOps)
  -- stream, flag, tick
  | mvStrm (p : Nat) (g : Guard) (dst a : TOp) (count : BitVec 16) (xform : BitVec 3) (chansM1 : BitVec 6)
      (tap : Bool) (flag : BitVec 10)
  | flagSet (p : Nat) (g : Guard) (pkg : Bool) (flag : BitVec 10) (count : BitVec 16)
  | flagWait (p : Nat) (g : Guard) (pkg : Bool) (flag : BitVec 10) (count : BitVec 16) (bound : BitVec 32)
  | hubFlagOperation
  | flagWaitSatisfied (p : Nat)
  | waitTimeout (p : Nat)
  | tickEnd (p : Nat) (g : Guard)
  -- engine class
  | sailRun (p : Nat) (g : Guard) (e : EngAt) (mode : Mode) (atype : BitVec 2) (flip bcast first : Bool)
      (act : TOp) (countM1 : BitVec 16) (entry : BitVec 9)
  | sailLoad (p : Nat) (g : Guard) (e : EngAt) (c4 : Bool) (wt : TOp)
  | sailTld (p : Nat) (g : Guard) (e : EngAt) (weight : Bool) (cbk : BitVec 16)
  | sailTcp (p : Nat) (g : Guard) (e : EngAt) (weight : Bool)
  | boomEpi (p : Nat) (g : Guard) (e : EngAt) (bias : Bool) (dst : TOp) (entry countM1 : BitVec 9)
      (biasTid : BitVec 12) (record : BitVec 16)
  | boomChout (p : Nat) (g : Guard) (e : EngAt) (entry : BitVec 9)
  | boomChin (p : Nat) (g : Guard) (e : EngAt) (entry : BitVec 9)
  | boomPre (p : Nat) (g : Guard) (e : EngAt) (src : TOp) (entry countM1 : BitVec 9)
  | boomCnt (p : Nat) (g : Guard) (rtz : Bool) (rd : BitVec 5) (t : TOp)
  -- control-core machinery
  | engineQueueStall (p : Nat)
  | engineCommandStart (m y : Nat) (q : UnitQ)
  | sailLoadComplete (m y s : Nat)
  | scalarDelivery (p : Nat)
  | epochResolve (p : Nat)
  | squashPenaltyEnd (p : Nat)
  | commandCompletionSet (p : Nat)
  -- crosstree, ratlines, yard
  | xtreeFlitArrival (inPort outPort : Nat)
  | linkReplay (port : Nat) (away : Bool)
  | xtreeLinkRetrained (port : Nat) (ok : Bool)
  | ratlineErr (m : Nat) (fromHub : Bool)
  | landingCycle (m y bank : Nat)
  | yardInit (m y : Nat)
  | yardInitDone (m y : Nat)
  | yardPerfClr (rq : Requester) (m y : Nat)
  | reefStatusClr (rq : Requester) (m y : Nat)
  | vuStatusClr (rq : Requester) (m y : Nat)
  | strmPeakClr (rq : Requester) (engine : Nat)
  -- streams
  | bulkDescriptorStart (ch : Nat)
  | streamCompletion (ch : Nat) (rb : XferEnd)
  | bulkRecordWaitEnd (ch : Nat)
  | strmResume (rq : Requester) (ch : Nat)
  | strmAbort (rq : Requester) (ch : Nat)
  | peripheralRequest (line : Nat) (data : List (BitVec 8))
  | dattUpdate (rq : Requester) (high : BitVec 32)
  -- media
  | cameraFrame (stream : Nat) (fin : FrameEnd) (data : List (BitVec 8))
  | vdecWpWrite (n : Nat) (off : BitVec 32)
  | vdecFrameDecoded (n : Nat) (damaged : Bool) (pic : PicKind) (used : BitVec 32)
  | vencAccessUnit (n : Nat)
  | vencRpWrite (n : Nat) (off : BitVec 32)
  | vencJpgTrig (n : Nat)
  | jpegImageDone (n : Nat)
  | vencJpgRpWrite (n : Nat) (off : BitVec 32)
  | audioBlock (line : Nat) (samples : List (BitVec 32))
  | tdmOutputFrame (o : Nat)
  | gpioEdge (ball : Nat) (level : Bool)
  | timedOutputDue
  | timedPulseEnd (ball : Nat)
  | gpioOutWrite (value : BitVec 32)
  -- host link, queues, events
  | usb4Disconnect
  | pcieTunnelLoss
  | hotReset
  | functionLevelReset
  | hostLinkUp (gen3 : Bool)
  | d3hotEntry
  | d0Return
  | bar2Access (off : Nat) (write : Option (BitVec 32))
  | queueEnable (q : Nat) (irqEn : Bool)
  | queueDisable (q : Nat) (irqEn : Bool)
  | irqEnableChange (q : Nat) (irqEn : Bool)
  | doorbell (q : Nat) (value : BitVec 64)
  | resultPublish
  | irqTimeThreshold (q : Nat)
  | eventTaken
  | evtLost (die group : Nat)
  | qmDownhaul (rq : Requester) (value : BitVec 32)
  | downhaulN
  | usb2GetStatus
  | usb2InterruptPoll
  -- management port
  | ethLink (speed : EthSpeed)
  | arpRequest (target : BitVec 32)
  | icmpv4Echo (target : BitVec 32) (payload : List (BitVec 8))
  | icmpv6Echo (target : Nat) (payload : List (BitVec 8))
  | ndpMessage (msg : NdpMsg)
  | dhcpv4Message (msg : DhcpMsg)
  | hmpHello (src : NetAddr) (rid : BitVec 32)
  | hmpStatus (src : NetAddr) (rid : BitVec 32)
  | hmpTokenPut (src : NetAddr) (rid : BitVec 32) (off : BitVec 16) (data : List (BitVec 8))
  | hmpXferBegin (src : NetAddr) (rid : BitVec 32) (target : BitVec 8) (size chunks : BitVec 32)
      (h0 : List (BitVec 8))
  | hmpXferChunk (src : NetAddr) (rid : BitVec 32) (index : BitVec 32) (data next : List (BitVec 8))
  | hmpXferEnd (src : NetAddr) (rid : BitVec 32)
  | hmpActivate (src : NetAddr) (rid : BitVec 32)
  | hmpCommit (src : NetAddr) (rid : BitVec 32)
  | hmpCancel (src : NetAddr) (rid : BitVec 32)
  | hmpRevert (src : NetAddr) (rid : BitVec 32) (persist : BitVec 8)
  | hmpDownhaul (src : NetAddr) (rid : BitVec 32)
  | hmpRestart (src : NetAddr) (rid : BitVec 32) (body : List (BitVec 8))
  | hmpSetNet (src : NetAddr) (rid : BitVec 32) (body : List (BitVec 8))
  | hmpReadLog (src : NetAddr) (rid : BitVec 32) (off : BitVec 32)
  | hmpAttest (src : NetAddr) (rid : BitVec 32) (nonce : List (BitVec 8))
  -- external memory
  | hrSlot (ch : Nat) (badWord : Option Nat)
  | hrRetry (ch : Nat) (fails : Bool)
  | hrChannelUp (ch : Nat) (ok : Bool)
  -- resets and start
  | powerOnReset
  | coldBoot
  | mpReadyTimeout
  | internalReset
  -- update and security
  | updStage
  | updActivate
  | activationResume
  | activationHandoff (accepted : Bool)
  | componentReplacement (proc : Nat) (accepted : Bool)
  | updCommit
  | updCancel
  | trialTimeout
  | attestRequest
  | fuseRequest
  | nonceNew
  -- power, thermal, firmware
  | pwrSleep (value : BitVec 32)
  | heldSleepProceed
  | wakeN
  | thermalSample (die : Nat) (temp : BitVec 12)
  | pwrwarnAssert
  | pwrwarnRelease
  | pwrShedClr
  | pwrThermClr (die : Nat)
  | pwrWdogKick (p : Nat)
  | watchdogExpiry (p : Nat)
  | fwTrap (p : Nat)
  | fwEccError (p : Nat)
  | fwRestart (p : Nat)
  | unitOut (unit : Nat)
  | downhaulNRelease
  | completionTimeout (ch : Nat)
  | ethFrameDiscard (why : EthDrop)
  deriving DecidableEq, Repr

end Sys2Proof
end

