-- ==== Sys2Proof/Decode.lean ====
section
/-! DEFINITION. Words that spell commands. No row of spec/opcode_table.json gives bits, so no table word spells one; the 128-bit code
words of a program are those of chapter 7 (R187 to R199). -/

namespace Sys2Proof

/-- The command that a word spells by the table's bits: none, since the table gives no row bits. -/
def decodeTableWord (_nbits _w : Nat) : Option Instr := none

/-! ### Code words (R187 to R199) -/

/-- Bits [hi:lo] of a code word. -/
def codeF (w : BitVec 128) (hi lo : Nat) : Nat := w.toNat / 2 ^ lo % 2 ^ (hi + 1 - lo)

/-- A field of `n` bits from bit `lo`. -/
def codeB (w : BitVec 128) (n lo : Nat) : BitVec n := BitVec.ofNat n (w.toNat / 2 ^ lo)

/-- R187: class, op, ctl, and the predicate. -/
def codeClass (w : BitVec 128) : Nat := codeF w 3 0
def codeOp (w : BitVec 128) : Nat := codeF w 9 4
def codeCtl (w : BitVec 128) : Nat := codeF w 31 16
def codeGuard (w : BitVec 128) : Guard := ⟨codeB w 3 10, w.getLsbD 13⟩

/-- R188: a tensor operand at bit `lo`. -/
def codeTOp (w : BitVec 128) (lo : Nat) : TOp := ⟨codeB w 12 lo, codeB w 4 (lo + 12)⟩

/-- Table 7.14. -/
def condOf (n : Nat) : Option Cond :=
  match n with
  | 0 => some .eq
  | 1 => some .ne
  | 2 => some .lt
  | 3 => some .ge
  | 4 => some .ltu
  | 5 => some .geu
  | 6 => some .flt
  | 7 => some .fge
  | _ => none

/-- The second operand of a scalar instruction: bit 47 selects the immediate of word B. -/
def codeSecond (w : BitVec 128) : Operand := if w.getLsbD 47 then .imm (codeB w 32 64) else .reg (codeB w 5 42)

/-- Table 7.13. -/
def decodeScalar (p : Nat) (w : BitVec 128) : Option Instr :=
  let g := codeGuard w
  let rd := codeB w 5 32
  let ra := codeB w 5 37
  let b := codeSecond w
  let imm := codeB w 32 64
  match codeOp w with
  | 0x00 => some (.nop p g)
  | 0x01 => some (.li p g rd imm)
  | 0x02 => some (.mov p g rd ra)
  | 0x03 => some (.add p g rd ra b)
  | 0x04 => some (.sub p g rd ra b)
  | 0x05 => some (.mul p g rd ra b)
  | 0x06 => some (.and p g rd ra b)
  | 0x07 => some (.or p g rd ra b)
  | 0x08 => some (.xor p g rd ra b)
  | 0x09 => some (.shl p g rd ra b)
  | 0x0A => some (.shr p g rd ra b)
  | 0x0B => some (.sra p g rd ra b)
  | 0x0C => some (.min p g rd ra b)
  | 0x0D => some (.max p g rd ra b)
  | 0x10 => some (.fAdd p g rd ra b)
  | 0x11 => some (.fMul p g rd ra b)
  | 0x12 => some (.fCvtI p g rd ra)
  | 0x13 => some (.fCvtF p g rd ra)
  | 0x18 => (condOf (codeF w 19 16)).map fun c => .cmp p g (codeB w 3 32) c ra b
  | 0x1A => some (.pAnd p g (codeB w 3 32) (codeB w 3 37) (codeB w 3 42))
  | 0x1B => some (.pOr p g (codeB w 3 32) (codeB w 3 37) (codeB w 3 42))
  | 0x1C => some (.pNot p g (codeB w 3 32) (codeB w 3 37))
  | 0x20 => some (.adLi p g (codeB w 4 32) imm)
  | 0x21 => some (.adMov p g (codeB w 4 32) ra)
  | 0x22 => some (.adAdd p g (codeB w 4 32) (codeB w 4 37) imm)
  | 0x28 => some (.spRd p g rd imm)
  | 0x29 => some (.scAge p g rd (codeTOp w 48))
  | _ => none

/-- R189: the branch class. -/
def decodeBranch (p : Nat) (w : BitVec 128) : Option Instr :=
  let g := codeGuard w
  let ra := codeB w 5 32
  let b : Operand := if w.getLsbD 42 then .imm (codeB w 32 64) else .reg (codeB w 5 37)
  let t : BrTail := ⟨codeB w 20 96, w.getLsbD 43, codeB w 16 48⟩
  match codeOp w with
  | 0 => some (.br p g t)
  | 1 => some (.brEq p g ra b t)
  | 2 => some (.brNe p g ra b t)
  | 3 => some (.brLt p g ra b t)
  | 4 => some (.brGe p g ra b t)
  | 5 => some (.brLtu p g ra b t)
  | 6 => some (.brGeu p g ra b t)
  | 7 => some (.brFlt p g ra b t)
  | 8 => some (.brFge p g ra b t)
  | 9 => some (.brP p g (codeB w 3 32) t)
  | _ => none

/-- Table 7.15a, for the matrix classes. -/
def codeMat (w : BitVec 128) : MatOps :=
  ⟨codeTOp w 32, codeTOp w 48, codeTOp w 64, codeTOp w 80, w.getLsbD 16, codeB w 16 96, codeB w 16 112⟩

/-- R192, R193: the matrix classes. -/
def decodeMat (p : Nat) (w : BitVec 128) : Option Instr :=
  let g := codeGuard w
  match codeClass w, codeOp w with
  | 2, 0 => some (.mmI8 p g (codeMat w))
  | 2, 1 => some (.mmW4a8 p g (codeMat w))
  | 2, 2 => some (.mmC4 p g (codeMat w))
  | 3, 0 => some (.conv p g (codeMat w))
  | 4, 0 => some (.tconv p g (codeMat w))
  | _, _ => none

/-- R194: the destination kind of a reduction. -/
def codeDest (w : BitVec 128) : Option RedDest :=
  match codeF w 17 16 with
  | 0 => some .tensor
  | 1 => some (.scalar (codeB w 5 32))
  | 2 => some .scale
  | _ => none

/-- R194: the reduction class. -/
def decodeRed (p : Nat) (w : BitVec 128) : Option Instr :=
  let g := codeGuard w
  match codeDest w with
  | none => none
  | some d =>
    let o : RedOps := ⟨codeTOp w 32, codeTOp w 48, codeTOp w 64, d, codeB w 2 18, codeB w 4 20, w.getLsbD 24, codeB w 16 96⟩
    match codeOp w with
    | 0 => some (.redSum p g o)
    | 1 => some (.redSumsq p g o)
    | 2 => some (.redMax p g o)
    | 3 => some (.redMin p g o)
    | 4 => some (.redMaxabs p g o)
    | 5 => some (.redNz p g o)
    | 6 => some (.argmaxC p g o)
    | 7 => some (.argminC p g o)
    | _ => none

/-- Table 7.15, R195: the vector class. -/
def decodeVec (p : Nat) (w : BitVec 128) : Option Instr :=
  let g := codeGuard w
  let imm := if codeOp w ≤ 6 ∧ w.getLsbD 16 then some (codeB w 32 64) else none
  let o : VecOps := ⟨codeTOp w 32, codeTOp w 48, codeTOp w 64, codeTOp w 80, imm, codeB w 16 96, codeB w 16 112⟩
  match codeOp w with
  | 0x00 => some (.vopAdd p g o)
  | 0x01 => some (.vopSub p g o)
  | 0x02 => some (.vopMul p g o)
  | 0x03 => some (.vopMax p g o)
  | 0x04 => some (.vopMin p g o)
  | 0x05 => some (.vopAbs p g o)
  | 0x06 => some (.vopNeg p g o)
  | 0x07 => (condOf (codeF w 19 17)).map fun c => .vopSel p g c o
  | 0x08 => some (.vopFma p g o)
  | 0x09 => some (.vopCvt p g o)
  | 0x0A => some (.vopRcp p g o)
  | 0x0B => some (.vopSqrt p g o)
  | 0x0C => some (.vopFtab p g o)
  | 0x0D => some (.vopSoftmax p g o)
  | 0x0E => some (.vopLnorm p g o)
  | 0x0F => some (.vopRmsnorm p g o)
  | 0x10 => some (.vopMaxpool p g o)
  | 0x11 => some (.vopAvgpool p g o)
  | 0x12 => some (.vopRszNear p g o)
  | 0x13 => some (.vopRszBil p g o)
  | 0x14 => some (.vopGather p g o)
  | _ => none

/-- R196, R197, R198: streams, flags and tick.end. -/
def decodeStrm (p : Nat) (w : BitVec 128) : Option Instr :=
  let g := codeGuard w
  match codeClass w, codeOp w with
  | 7, 0 => some (.mvStrm p g (codeTOp w 32) (codeTOp w 48) (codeB w 16 96) (codeB w 3 16) (codeB w 6 19) (w.getLsbD 25) (codeB w 10 64))
  | 8, 0 => some (.flagSet p g (w.getLsbD 16) (codeB w 10 32) (codeB w 16 64))
  | 8, 1 => some (.flagWait p g (w.getLsbD 16) (codeB w 10 32) (codeB w 16 64) (codeB w 32 96))
  | 9, 0 => some (.tickEnd p g)
  | _, _ => none

/-- Table 4.2: the mode of a run. -/
def modeOf (n : Nat) : Option Mode :=
  match n with
  | 0 => some .i8
  | 1 => some .w4a8
  | 2 => some .c4
  | _ => none

/-- Table 7.16: the engine class. -/
def decodeEngine (p : Nat) (w : BitVec 128) : Option Instr :=
  let g := codeGuard w
  let e : EngAt := ⟨codeB w 6 32, codeB w 2 38⟩
  match codeOp w with
  | 0x00 => (modeOf (codeF w 17 16)).map fun m =>
      .sailRun p g e m (codeB w 2 18) (w.getLsbD 20) (w.getLsbD 21) (w.getLsbD 22) (codeTOp w 48) (codeB w 16 64) (codeB w 9 80)
  | 0x01 => some (.sailLoad p g e (w.getLsbD 16) (codeTOp w 48))
  | 0x02 => some (.sailTld p g e (w.getLsbD 16) (codeB w 16 64))
  | 0x03 => some (.sailTcp p g e (w.getLsbD 16))
  | 0x08 => some (.boomEpi p g e (w.getLsbD 16) (codeTOp w 48) (codeB w 9 64) (codeB w 9 73) (codeB w 12 96) (codeB w 16 112))
  | 0x09 => some (.boomChout p g e (codeB w 9 64))
  | 0x0A => some (.boomChin p g e (codeB w 9 64))
  | 0x0B => some (.boomPre p g e (codeTOp w 48) (codeB w 9 64) (codeB w 9 73))
  | 0x0C => some (.boomCnt p g (w.getLsbD 16) (codeB w 5 32) (codeTOp w 48))
  | _ => none

/-- R187: the instruction of program `p` that a code word spells; none for a class, op or field value that chapter 7 does not define. -/
def decodeFenja (p : Nat) (w : BitVec 128) : Option Instr :=
  match codeClass w with
  | 0 => decodeScalar p w
  | 1 => decodeBranch p w
  | 2 | 3 | 4 => decodeMat p w
  | 5 => decodeRed p w
  | 6 => decodeVec p w
  | 7 | 8 | 9 => decodeStrm p w
  | 10 => decodeEngine p w
  | _ => none

end Sys2Proof
end

