-- ==== Sys2Proof/Machine/Bits.lean ====
section
/-! DEFINITION. Fields of registers, written [msb:lsb] in the spec (R9): reading and writing `w` bits from bit `lo`, and the
counters of Table 2.2. -/

namespace Sys2Proof.Machine

/-- Field [lo + w − 1 : lo]. -/
def fld (v : BitVec 64) (lo w : Nat) : Nat := v.toNat / 2 ^ lo % 2 ^ w

/-- The bits of field [lo + w − 1 : lo]. -/
def fldMask (lo w : Nat) : BitVec 64 := BitVec.ofNat 64 (2 ^ lo * (2 ^ w - 1))

/-- Writing field [lo + w − 1 : lo]. -/
def setFld (v : BitVec 64) (lo w x : Nat) : BitVec 64 :=
  v &&& ~~~fldMask lo w ||| BitVec.ofNat 64 (2 ^ lo * (x % 2 ^ w))

/-- Bit `n`. -/
def bit (v : BitVec 64) (n : Nat) : Bool := v.getLsbD n

/-- Setting the bits of `m`. -/
def orBits (v m : BitVec 64) : BitVec 64 := v ||| m

/-- A counter of `w` bits that saturates (Table 2.2). -/
def satAdd (w x n : Nat) : Nat := min (x + n) (2 ^ w - 1)

/-- R57: a performance counter of 48 bits with its sticky overflow bit 48. -/
def perfAdd (v : BitVec 64) (n : Nat) : BitVec 64 :=
  if fld v 0 48 + n < 2 ^ 48 then setFld v 0 48 (fld v 0 48 + n)
  else setFld (setFld v 0 48 (2 ^ 48 - 1)) 48 1 1

/-- Word `i` of a byte string, little-endian (R9). -/
def leWord (bs : List Byte) (i : Nat) : BitVec 32 :=
  BitVec.ofNat 32 (((bs.drop (4 * i)).take 4).reverse.foldl (fun a b => a * 256 + b.toNat) 0)

/-- The little-endian number of `n` bytes at offset `o`; bytes beyond the end read zero. -/
def leAt (bs : List Byte) (o n : Nat) : Nat :=
  ((bs.drop o).take n).reverse.foldl (fun a b => a * 256 + b.toNat) 0

/-- Little-endian bytes of a 64-bit number. -/
def le64 (x : Nat) : List Byte := (List.range 8).map fun i => BitVec.ofNat 8 (x / 256 ^ i)
/-- The first `n` little-endian bytes of a number. -/
def leN (n x : Nat) : List Byte := (List.range n).map fun i => BitVec.ofNat 8 (x / 256 ^ i)

end Sys2Proof.Machine
end

