-- ==== Sys2Proof/Machine/RegNames.lean ====
section
/-! DEFINITION. The names of the registers of the Q8, one per register table of spec/, and the identity of one register:
its name, the mast (or stream engine) and yard of its block, and its own indices in the order of its offset formula. -/

namespace Sys2Proof.Machine

/-- One name per register table; an indexed register is one name (its indices stand in `RegId`). -/
inductive RegName where
  /-- ID_DEVICE (R7) -/
  | idDevice
  /-- ID_CONFIG (R7) -/
  | idConfig
  /-- TICK_CTRL (R59) -/
  | tickCtrl
  /-- TICK_STATUS (R59) -/
  | tickStatus
  /-- TICK_PERIOD (R59) -/
  | tickPeriod
  /-- TICK_GUARD (R59) -/
  | tickGuard
  /-- TICK_WORK (R59) -/
  | tickWork
  /-- TICK_START_AT (R59) -/
  | tickStartAt
  /-- TICK_NUM (R59) -/
  | tickNum
  /-- TICK_NUM_BASE (R59) -/
  | tickNumBase
  /-- TICK_LAST (R59) -/
  | tickLast
  /-- TICK_IN_CFG (R59) -/
  | tickInCfg
  /-- TICK_IN_ERR (R59) -/
  | tickInErr
  /-- TICK_OUT_CFG (R59) -/
  | tickOutCfg
  /-- TICK_OVR_COUNT (R59) -/
  | tickOvrCount
  /-- TICK_FSYNCn_A (R59) -/
  | tickFsyncA
  /-- TICK_FSYNCn_B (R59) -/
  | tickFsyncB
  /-- GCNT_VALUE (R59) -/
  | gcntValue
  /-- GCNT_CAPTURE (R59) -/
  | gcntCapture
  /-- GCNT_CAP (R59) -/
  | gcntCap
  /-- GCNT_STATUS (R59) -/
  | gcntStatus
  /-- BOOM_EPI_CTRL (R82) -/
  | boomEpiCtrl
  /-- BOOM_ALPHA (R82) -/
  | boomAlpha
  /-- BOOM_CLAMP_LO (R82) -/
  | boomClampLo
  /-- BOOM_CLAMP_HI (R82) -/
  | boomClampHi
  /-- BOOM_OUT_SCALE (R82) -/
  | boomOutScale
  /-- BOOM_DSC_K (R82) -/
  | boomDscK
  /-- BOOM_FALLBACK (R82) -/
  | boomFallback
  /-- BOOM_STATUS (R82) -/
  | boomStatus
  /-- BOOM_LAST (R82) -/
  | boomLast
  /-- BOOM_OCBK (R82) -/
  | boomOcbk
  /-- BOOM_CNTn_SAT (R82) -/
  | boomCntSat
  /-- BOOM_CNTn_RTZ (R82) -/
  | boomCntRtz
  /-- SAIL_STATE (R106) -/
  | sailState
  /-- SAIL_RUN (R106) -/
  | sailRun
  /-- SAIL_HAZ (R106) -/
  | sailHaz
  /-- SAIL_HAZ_CYC (R106) -/
  | sailHazCyc
  /-- SAIL_VEC_CNT (R106) -/
  | sailVecCnt
  /-- SAIL_ROWGATE_CNT (R106) -/
  | sailRowgateCnt
  /-- SAIL_ATBL (R106) -/
  | sailAtbl
  /-- SAIL_WTBL (R106) -/
  | sailWtbl
  /-- YARD_SUIT (R106) -/
  | yardSuit
  /-- YARD_CHAIN (R106) -/
  | yardChain
  /-- YARD_FAULT (R106) -/
  | yardFault
  /-- YARD_PERF_CLR (R106) -/
  | yardPerfClr
  /-- YARD_ECC_STAT (R141) -/
  | yardEccStat
  /-- YARD_ECC_CE_CNT (R141) -/
  | yardEccCeCnt
  /-- YARD_ECC_UE_CNT (R141) -/
  | yardEccUeCnt
  /-- YARD_ECC_UE_ADDR (R141) -/
  | yardEccUeAddr
  /-- YARD_ECC_INJ (R141) -/
  | yardEccInj
  /-- YARD_ECC_INJ_BITS (R141) -/
  | yardEccInjBits
  /-- YARD_CONFLICT (R141) -/
  | yardConflict
  /-- YARD_CONFLICT_CYC (R141) -/
  | yardConflictCyc
  /-- YARD_TRIP (R141) -/
  | yardTrip
  /-- YARD_TRIP_CYC (R141) -/
  | yardTripCyc
  /-- YARD_INIT (R141) -/
  | yardInit
  /-- YARD_TAG (R141) -/
  | yardTag
  /-- XTREE_CTRL (R141) -/
  | xtreeCtrl
  /-- XTREE_STATUS (R141) -/
  | xtreeStatus
  /-- XTREE_BUDGET (R141) -/
  | xtreeBudget
  /-- XTREE_REPLAYp_UP (R141) -/
  | xtreeReplayUp
  /-- XTREE_REPLAYp_DN (R141) -/
  | xtreeReplayDn
  /-- XTREE_RATLINE_ERR (R141) -/
  | xtreeRatlineErr
  /-- XTREE_WFAULT (R141) -/
  | xtreeWfault
  /-- XTREE_WFAULT_ADDR (R141) -/
  | xtreeWfaultAddr
  /-- XTREE_SLOT (R141) -/
  | xtreeSlot
  /-- XTREE_WINi_n_BASE (R141) -/
  | xtreeWinBase
  /-- XTREE_WINi_n_SIZE (R141) -/
  | xtreeWinSize
  /-- XTREE_WINi_n_PERM (R141) -/
  | xtreeWinPerm
  /-- REEF_LAST (R171) -/
  | reefLast
  /-- REEF_STATUS (R171) -/
  | reefStatus
  /-- REEF_ELEM_CNT (R171) -/
  | reefElemCnt
  /-- REEF_LAST_SCALAR (R171) -/
  | reefLastScalar
  /-- VU_LAST (R171) -/
  | vuLast
  /-- VU_STATUS (R171) -/
  | vuStatus
  /-- VU_OOB_CNT (R171) -/
  | vuOobCnt
  /-- VU_ELEM_CNT (R171) -/
  | vuElemCnt
  /-- VU_FTABn_MODE (R171) -/
  | vuFtabMode
  /-- VU_FTABn_LO (R171) -/
  | vuFtabLo
  /-- VU_FTABn_RINV (R171) -/
  | vuFtabRinv
  /-- VU_FTABn_BELOW (R171) -/
  | vuFtabBelow
  /-- VU_FTABn_ABOVE (R171) -/
  | vuFtabAbove
  /-- CC_WHEEL (R236) -/
  | ccWheel
  /-- CC_RA_POOL (R236) -/
  | ccRaPool
  /-- CC_IMEM_STAT (R236) -/
  | ccImemStat
  /-- CC_IMEM_CE_CNT (R236) -/
  | ccImemCeCnt
  /-- CC_CTXk_STATE (R236) -/
  | ccCtxState
  /-- CC_CTXk_ALLOC (R236) -/
  | ccCtxAlloc
  /-- CC_CTXk_FAULT (R236) -/
  | ccCtxFault
  /-- CC_CTXk_FAULT_CYC (R236) -/
  | ccCtxFaultCyc
  /-- CC_CTXk_WAIT (R236) -/
  | ccCtxWait
  /-- CC_CTXk_LATE (R236) -/
  | ccCtxLate
  /-- CC_CTXk_STALL_CNT (R236) -/
  | ccCtxStallCnt
  /-- CC_CTXk_COMMITS (R236) -/
  | ccCtxCommits
  /-- CC_CTXk_SQUASHES (R236) -/
  | ccCtxSquashes
  /-- FLAG_LOCALn (R236) -/
  | flagLocal
  /-- FLAG_PKGn (R236) -/
  | flagPkg
  /-- FLAG_STATUS (R236) -/
  | flagStatus
  /-- FLAG_OVF_REC (R236) -/
  | flagOvfRec
  /-- FLAG_TO_REC (R236) -/
  | flagToRec
  /-- ADM_MBOXn_REQw (R262) -/
  | admMboxReq
  /-- ADM_MBOXn_DB (R262) -/
  | admMboxDb
  /-- ADM_MBOXn_STAT (R262) -/
  | admMboxStat
  /-- ADM_MBOXn_RESPw (R262) -/
  | admMboxResp
  /-- ADM_RIG_STAT (R262) -/
  | admRigStat
  /-- ADM_RIG_VER (R262) -/
  | admRigVer
  /-- ADM_RIG_PREV_VER (R262) -/
  | admRigPrevVer
  /-- ADM_RIG_HIGH (R262) -/
  | admRigHigh
  /-- ADM_TP_VER (R262) -/
  | admTpVer
  /-- ADM_TP_STAT (R262) -/
  | admTpStat
  /-- ADM_COUNT (R262) -/
  | admCount
  /-- ADM_RIG_DIGESTw (R262) -/
  | admRigDigest
  /-- ADM_RIG_PREV_DIGESTw (R262) -/
  | admRigPrevDigest
  /-- ADM_PROGn_A (R262) -/
  | admProgA
  /-- ADM_PROGn_ID (R262) -/
  | admProgId
  /-- ADM_PROGn_PH (R262) -/
  | admProgPh
  /-- ADM_PROGn_END (R262) -/
  | admProgEnd
  /-- ADM_PROGn_PWR (R262) -/
  | admProgPwr
  /-- ADM_PROGn_FIRST (R262) -/
  | admProgFirst
  /-- ADM_SATn_SAT (R262) -/
  | admSatSat
  /-- ADM_SATn_RTZ (R262) -/
  | admSatRtz
  /-- ADM_SATn_SLOT (R262) -/
  | admSatSlot
  /-- STRM_STATUS (R292) -/
  | strmStatus
  /-- STRM_PEAK (R292) -/
  | strmPeak
  /-- STRM_PDROP_CNT (R292) -/
  | strmPdropCnt
  /-- STRM_CQ_OVF_CNT (R292) -/
  | strmCqOvfCnt
  /-- STRM_CHn_CTRL (R292) -/
  | strmChCtrl
  /-- STRM_CHn_SQ (R292) -/
  | strmChSq
  /-- STRM_CHn_STAT (R292) -/
  | strmChStat
  /-- STRM_CHn_ELEM (R292) -/
  | strmChElem
  /-- STRM_CHn_FADDR (R292) -/
  | strmChFaddr
  /-- STRM_CHn_DESCw (R292) -/
  | strmChDesc
  /-- STRM_PCTXr_NEXT (R292) -/
  | strmPctxNext
  /-- STRM_PCTXr_STAT (R292) -/
  | strmPctxStat
  /-- STRM_SRCs_BASE0 (R292) -/
  | strmSrcBase0
  /-- STRM_SRCs_BASE1 (R292) -/
  | strmSrcBase1
  /-- STRM_SRCs_DIMk (R292) -/
  | strmSrcDim
  /-- STRM_SRCs_CTL (R292) -/
  | strmSrcCtl
  /-- DATT_UPD_IDX (R292) -/
  | dattUpdIdx
  /-- DATT_UPD_ENTRY (R292) -/
  | dattUpdEntry
  /-- DATT_FAULT_CNT (R292) -/
  | dattFaultCnt
  /-- DATT_LAST_FAULT (R292) -/
  | dattLastFault
  /-- IPL_CSIp_STAT (R321) -/
  | iplCsiStat
  /-- IPL_CSIp_CRC_CNT (R321) -/
  | iplCsiCrcCnt
  /-- IPL_STRc_FRAMES (R321) -/
  | iplStrFrames
  /-- IPL_STRc_DROPS (R321) -/
  | iplStrDrops
  /-- IPL_STRc_SOF (R321) -/
  | iplStrSof
  /-- IPL_PIPEi_LOAD (R321) -/
  | iplPipeLoad
  /-- IPL_STRc_PARAMw (R321) -/
  | iplStrParam
  /-- VDEC_SESn_WP (R321) -/
  | vdecSesWp
  /-- VDEC_SESn_RP (R321) -/
  | vdecSesRp
  /-- VDEC_SESn_STAT (R321) -/
  | vdecSesStat
  /-- VENC_SESn_WP (R321) -/
  | vencSesWp
  /-- VENC_SESn_RP (R321) -/
  | vencSesRp
  /-- VENC_SESn_STAT (R321) -/
  | vencSesStat
  /-- VENC_JPGn_TRIG (R321) -/
  | vencJpgTrig
  /-- VENC_JPGn_WP (R321) -/
  | vencJpgWp
  /-- VENC_JPGn_RP (R321) -/
  | vencJpgRp
  /-- VENC_JPGn_STAT (R321) -/
  | vencJpgStat
  /-- AUD_STATUS (R321) -/
  | audStatus
  /-- AUD_UNDRn_CNT (R321) -/
  | audUndrCnt
  /-- AUD_CLIP_CNT (R321) -/
  | audClipCnt
  /-- GPIO_IN (R321) -/
  | gpioIn
  /-- GPIO_OUT (R321) -/
  | gpioOut
  /-- GPIO_TOQ_STAT (R321) -/
  | gpioToqStat
  /-- GPIO_TOQ_DROP_CNT (R321) -/
  | gpioToqDropCnt
  /-- GPIO_TOQ_NEXT (R321) -/
  | gpioToqNext
  /-- GPIO_TOQ_LAST (R321) -/
  | gpioToqLast
  /-- GPIO_EDGE_LOST_CNT (R321) -/
  | gpioEdgeLostCnt
  /-- GPIO_BALLn_CFG (R321) -/
  | gpioBallCfg
  /-- QM_DOWNHAUL (R358) -/
  | qmDownhaul
  /-- QM_DH_STAT (R358) -/
  | qmDhStat
  /-- QM_DH_TIME (R358) -/
  | qmDhTime
  /-- QM_DB_BAD (R358) -/
  | qmDbBad
  /-- QM_RDROP_CNT (R358) -/
  | qmRdropCnt
  /-- QM_UNBOUND_CNT (R358) -/
  | qmUnboundCnt
  /-- QM_RBINDp_h (R358) -/
  | qmRbind
  /-- EVT_SEQ (R358) -/
  | evtSeq
  /-- EVT_STAT (R358) -/
  | evtStat
  /-- EVT_LOST_CNT (R358) -/
  | evtLostCnt
  /-- USB4_LINK (R358) -/
  | usb4Link
  /-- USB4_DOWN_CNT (R358) -/
  | usb4DownCnt
  /-- USB4_RDCAP (R358) -/
  | usb4Rdcap
  /-- USB4_RD_OUT (R358) -/
  | usb4RdOut
  /-- USB4_CTO_CNT (R358) -/
  | usb4CtoCnt
  /-- USB4_AP_BASE (R358) -/
  | usb4ApBase
  /-- ETH_CTRL (R358) -/
  | ethCtrl
  /-- ETH_STAT (R358) -/
  | ethStat
  /-- ETH_MAC (R358) -/
  | ethMac
  /-- ETH_IPV4 (R358) -/
  | ethIpv4
  /-- ETH_DROP_CNT (R358) -/
  | ethDropCnt
  /-- HRC_CTRL (R375) -/
  | hrcCtrl
  /-- HRC_STATUS (R375) -/
  | hrcStatus
  /-- HRC_FRAME (R375) -/
  | hrcFrame
  /-- HRC_CHc_CFG (R375) -/
  | hrcChCfg
  /-- HRC_CHc_TRAIN (R375) -/
  | hrcChTrain
  /-- HRC_CHc_RETRY_CNT (R375) -/
  | hrcChRetryCnt
  /-- HRC_CHc_CE_CNT (R375) -/
  | hrcChCeCnt
  /-- HRC_CHc_UE_CNT (R375) -/
  | hrcChUeCnt
  /-- HRC_CHc_UE_ADDR (R375) -/
  | hrcChUeAddr
  /-- HRC_CHc_RECAL_CNT (R375) -/
  | hrcChRecalCnt
  /-- HRC_SLOTc_k (R375) -/
  | hrcSlot
  /-- SEC_STATUS (R407) -/
  | secStatus
  /-- SEC_BOOT_CNT (R407) -/
  | secBootCnt
  /-- SEC_BOOT_FAIL (R407) -/
  | secBootFail
  /-- SEC_SVN (R407) -/
  | secSvn
  /-- SEC_KEYS (R407) -/
  | secKeys
  /-- SEC_POLICY (R407) -/
  | secPolicy
  /-- SEC_SLOTs_INFO (R407) -/
  | secSlotInfo
  /-- SEC_SLOTs_BUILD (R407) -/
  | secSlotBuild
  /-- SEC_SLOTs_Dw (R407) -/
  | secSlotD
  /-- SEC_UPD_REQw (R407) -/
  | secUpdReq
  /-- SEC_UPD_DB (R407) -/
  | secUpdDb
  /-- SEC_UPD_STAT (R407) -/
  | secUpdStat
  /-- SEC_UPD_RESP (R407) -/
  | secUpdResp
  /-- SEC_UPD_TRIAL_LEFT (R407) -/
  | secUpdTrialLeft
  /-- SEC_NONCEw (R407) -/
  | secNonce
  /-- SEC_NONCE_NEW (R407) -/
  | secNonceNew
  /-- SEC_ATT_NONCEw (R407) -/
  | secAttNonce
  /-- SEC_ATT_DST (R407) -/
  | secAttDst
  /-- SEC_ATT_CAP (R407) -/
  | secAttCap
  /-- SEC_ATT_DB (R407) -/
  | secAttDb
  /-- SEC_ATT_STAT (R407) -/
  | secAttStat
  /-- SEC_LMS_LEFT (R407) -/
  | secLmsLeft
  /-- SEC_FUSE_ADDR (R407) -/
  | secFuseAddr
  /-- SEC_FUSE_DB (R407) -/
  | secFuseDb
  /-- SEC_FUSE_STAT (R407) -/
  | secFuseStat
  /-- PWR_STATE (R430) -/
  | pwrState
  /-- PWR_DOM_ENw (R430) -/
  | pwrDomEn
  /-- PWR_DOM_RETw (R430) -/
  | pwrDomRet
  /-- PWR_DOM_ONw (R430) -/
  | pwrDomOn
  /-- PWR_THERMd (R430) -/
  | pwrTherm
  /-- PWR_SHED_STAT (R430) -/
  | pwrShedStat
  /-- PWR_SHED_LAST (R430) -/
  | pwrShedLast
  /-- PWR_SHED_CLR (R430) -/
  | pwrShedClr
  /-- PWR_SUPPLY (R430) -/
  | pwrSupply
  /-- PWR_SUPPLY_T (R430) -/
  | pwrSupplyT
  /-- PWR_SLEEP (R430) -/
  | pwrSleep
  /-- PWR_SLEEP_STAT (R430) -/
  | pwrSleepStat
  /-- PWR_RST_CAUSE (R430) -/
  | pwrRstCause
  /-- PWR_FWp (R430) -/
  | pwrFw
  /-- PWR_WDOG_KICKp (R430) -/
  | pwrWdogKick
  /-- PWR_INSVC (R430) -/
  | pwrInsvc
  deriving DecidableEq, Repr

/-- One register: its name, the mast or engine `i` and yard `j` of its block (0 where the block has none), and its own
indices `k` and `l`. -/
structure RegId where
  name : RegName
  i : Nat := 0
  j : Nat := 0
  k : Nat := 0
  l : Nat := 0
  deriving DecidableEq, Repr

end Sys2Proof.Machine
end

