-- ==== Sys2Proof/Machine/Regs.lean ====
section
/-! DEFINITION. The register tables of spec/: for every register its block, offset formula, width, the bits of each access
code of Table 0.5, and its reset value (R14). Bits in none of the masks are RO or RSV. A reset value that the spec takes from
straps, fuses or flash stands in Machine/RegReset.lean. -/

namespace Sys2Proof.Machine

/-- The register blocks (their bases are in Machine/RegMap.lean). -/
inductive Block where
  | id | tick | yard | xtree | cc | flag | adm | strm | datt | ipl | venc | aud | gpio | qm | evt | usb4 | eth | hrc | sec | pwr
  deriving DecidableEq, Repr

/-- One row of a register table: offset `base + k * s1 + l * s2` for `k < n1`, `l < n2`; `bytes` is the access width; `rw`,
`w1c`, `wo`, `rwl` are the bits with these access codes. -/
structure RegDesc where
  block : Block
  base : Nat
  s1 : Nat := 0
  n1 : Nat := 1
  s2 : Nat := 0
  n2 : Nat := 1
  bytes : Nat := 4
  rw : Nat := 0
  w1c : Nat := 0
  wo : Nat := 0
  rwl : Nat := 0
  reset : Nat := 0
  deriving DecidableEq, Repr

/-- The register tables, row by row: block, base, s1, n1, s2, n2, bytes, rw, w1c, wo, rwl, reset. -/
def RegName.desc : RegName → RegDesc
  | .idDevice => ⟨.id, 0, 0, 1, 0, 1, 4, 0, 0, 0, 0, 0xA510101⟩
  | .idConfig => ⟨.id, 0x4, 0, 1, 0, 1, 4, 0, 0, 0, 0, 0⟩
  | .tickCtrl => ⟨.tick, 0, 0, 1, 0, 1, 4, 0x7, 0, 0, 0, 0⟩
  | .tickStatus => ⟨.tick, 0x4, 0, 1, 0, 1, 4, 0, 0x8, 0, 0, 0⟩
  | .tickPeriod => ⟨.tick, 0x8, 0, 1, 0, 1, 4, 0x1FFFF, 0, 0, 0, 0x3E8⟩
  | .tickGuard => ⟨.tick, 0xC, 0, 1, 0, 1, 4, 0xF, 0, 0, 0, 0x2⟩
  | .tickWork => ⟨.tick, 0x10, 0, 1, 0, 1, 4, 0, 0, 0, 0, 0xEF420⟩
  | .tickStartAt => ⟨.tick, 0x18, 0, 1, 0, 1, 8, 0xFFFFFFFFFFFFFFFF, 0, 0, 0, 0⟩
  | .tickNum => ⟨.tick, 0x20, 0, 1, 0, 1, 8, 0, 0, 0, 0, 0⟩
  | .tickNumBase => ⟨.tick, 0x28, 0, 1, 0, 1, 8, 0, 0, 0, 0xFFFFFFFFFFFF, 0⟩
  | .tickLast => ⟨.tick, 0x30, 0, 1, 0, 1, 8, 0, 0, 0, 0, 0⟩
  | .tickInCfg => ⟨.tick, 0x38, 0, 1, 0, 1, 4, 0x1, 0, 0, 0, 0⟩
  | .tickInErr => ⟨.tick, 0x3C, 0, 1, 0, 1, 4, 0, 0, 0, 0, 0⟩
  | .tickOutCfg => ⟨.tick, 0x40, 0, 1, 0, 1, 4, 0x7FF, 0, 0, 0, 0x64⟩
  | .tickOvrCount => ⟨.tick, 0x44, 0, 1, 0, 1, 4, 0, 0, 0, 0, 0⟩
  | .tickFsyncA => ⟨.tick, 0x100, 0x8, 16, 0, 1, 4, 0xFF7FFFFF, 0, 0, 0, 0x1000000⟩
  | .tickFsyncB => ⟨.tick, 0x104, 0x8, 16, 0, 1, 4, 0x7FFFFFF, 0, 0, 0, 0⟩
  | .gcntValue => ⟨.tick, 0x800, 0, 1, 0, 1, 8, 0, 0, 0, 0, 0⟩
  | .gcntCapture => ⟨.tick, 0x808, 0, 1, 0, 1, 4, 0, 0, 0x1, 0, 0⟩
  | .gcntCap => ⟨.tick, 0x810, 0, 1, 0, 1, 8, 0, 0, 0, 0, 0⟩
  | .gcntStatus => ⟨.tick, 0x818, 0, 1, 0, 1, 4, 0, 0xFE, 0, 0, 0⟩
  | .boomEpiCtrl => ⟨.yard, 0x1800, 0x80, 4, 0, 1, 4, 0, 0, 0, 0, 0⟩
  | .boomAlpha => ⟨.yard, 0x1804, 0x80, 4, 0, 1, 4, 0, 0, 0, 0, 0⟩
  | .boomClampLo => ⟨.yard, 0x1808, 0x80, 4, 0, 1, 4, 0, 0, 0, 0, 0⟩
  | .boomClampHi => ⟨.yard, 0x180C, 0x80, 4, 0, 1, 4, 0, 0, 0, 0, 0⟩
  | .boomOutScale => ⟨.yard, 0x1810, 0x80, 4, 0, 1, 4, 0, 0, 0, 0, 0x3F800000⟩
  | .boomDscK => ⟨.yard, 0x1814, 0x80, 4, 0, 1, 4, 0, 0, 0, 0, 0x3F800000⟩
  | .boomFallback => ⟨.yard, 0x1818, 0x80, 4, 0, 1, 4, 0, 0, 0, 0, 0x3F80⟩
  | .boomStatus => ⟨.yard, 0x181C, 0x80, 4, 0, 1, 4, 0, 0x1F, 0, 0, 0⟩
  | .boomLast => ⟨.yard, 0x1820, 0x80, 4, 0, 1, 4, 0, 0, 0, 0, 0⟩
  | .boomOcbk => ⟨.yard, 0x2000, 0x100, 4, 0x1, 256, 1, 0, 0, 0, 0, 0⟩
  | .boomCntSat => ⟨.yard, 0x3000, 0x8, 512, 0, 1, 4, 0, 0, 0, 0, 0⟩
  | .boomCntRtz => ⟨.yard, 0x3004, 0x8, 512, 0, 1, 4, 0, 0, 0, 0, 0⟩
  | .sailState => ⟨.yard, 0, 0x200, 4, 0, 1, 4, 0, 0, 0, 0, 0x8⟩
  | .sailRun => ⟨.yard, 0x4, 0x200, 4, 0, 1, 4, 0, 0, 0, 0, 0⟩
  | .sailHaz => ⟨.yard, 0x8, 0x200, 4, 0, 1, 4, 0, 0x1, 0, 0, 0⟩
  | .sailHazCyc => ⟨.yard, 0xC, 0x200, 4, 0, 1, 4, 0, 0, 0, 0, 0⟩
  | .sailVecCnt => ⟨.yard, 0x10, 0x200, 4, 0, 1, 8, 0, 0, 0, 0, 0⟩
  | .sailRowgateCnt => ⟨.yard, 0x18, 0x200, 4, 0, 1, 8, 0, 0, 0, 0, 0⟩
  | .sailAtbl => ⟨.yard, 0x800, 0x200, 4, 0x1, 256, 1, 0, 0, 0, 0, 0⟩
  | .sailWtbl => ⟨.yard, 0x900, 0x200, 4, 0x1, 256, 1, 0, 0, 0, 0, 0⟩
  | .yardSuit => ⟨.yard, 0x1000, 0, 1, 0, 1, 4, 0xF, 0, 0, 0, 0⟩
  | .yardChain => ⟨.yard, 0x1004, 0, 1, 0, 1, 4, 0x3, 0, 0, 0, 0⟩
  | .yardFault => ⟨.yard, 0x1008, 0, 1, 0, 1, 4, 0, 0xF, 0, 0, 0⟩
  | .yardPerfClr => ⟨.yard, 0x100C, 0, 1, 0, 1, 4, 0, 0, 0x1, 0, 0⟩
  | .yardEccStat => ⟨.yard, 0x1100, 0, 1, 0, 1, 4, 0, 0x3, 0, 0, 0⟩
  | .yardEccCeCnt => ⟨.yard, 0x1104, 0, 1, 0, 1, 4, 0, 0, 0, 0, 0⟩
  | .yardEccUeCnt => ⟨.yard, 0x1108, 0, 1, 0, 1, 4, 0, 0, 0, 0, 0⟩
  | .yardEccUeAddr => ⟨.yard, 0x110C, 0, 1, 0, 1, 4, 0, 0, 0, 0, 0⟩
  | .yardEccInj => ⟨.yard, 0x1110, 0, 1, 0, 1, 4, 0x1FFFFF8, 0, 0, 0, 0⟩
  | .yardEccInjBits => ⟨.yard, 0x1114, 0, 1, 0, 1, 4, 0x7F7F, 0, 0, 0, 0⟩
  | .yardConflict => ⟨.yard, 0x1118, 0, 1, 0, 1, 4, 0, 0x1, 0, 0, 0⟩
  | .yardConflictCyc => ⟨.yard, 0x111C, 0, 1, 0, 1, 4, 0, 0, 0, 0, 0⟩
  | .yardTrip => ⟨.yard, 0x1120, 0, 1, 0, 1, 4, 0, 0x1, 0, 0, 0⟩
  | .yardTripCyc => ⟨.yard, 0x1124, 0, 1, 0, 1, 4, 0, 0, 0, 0, 0⟩
  | .yardInit => ⟨.yard, 0x1128, 0, 1, 0, 1, 4, 0, 0x4, 0x1, 0, 0⟩
  | .yardTag => ⟨.yard, 0x2800, 0x1, 2048, 0, 1, 1, 0, 0, 0, 0, 0⟩
  | .xtreeCtrl => ⟨.xtree, 0, 0, 1, 0, 1, 4, 0x1FFF, 0, 0, 0, 0xF⟩
  | .xtreeStatus => ⟨.xtree, 0x4, 0, 1, 0, 1, 4, 0, 0xFF00, 0, 0, 0⟩
  | .xtreeBudget => ⟨.xtree, 0x8, 0, 1, 0, 1, 4, 0xF, 0, 0, 0, 0x2⟩
  | .xtreeReplayUp => ⟨.xtree, 0x100, 0x8, 8, 0, 1, 4, 0, 0, 0, 0, 0⟩
  | .xtreeReplayDn => ⟨.xtree, 0x104, 0x8, 8, 0, 1, 4, 0, 0, 0, 0, 0⟩
  | .xtreeRatlineErr => ⟨.xtree, 0x180, 0, 1, 0, 1, 4, 0, 0x7F, 0, 0, 0⟩
  | .xtreeWfault => ⟨.xtree, 0x190, 0, 1, 0, 1, 4, 0, 0x1, 0, 0, 0⟩
  | .xtreeWfaultAddr => ⟨.xtree, 0x198, 0, 1, 0, 1, 8, 0, 0, 0, 0, 0⟩
  | .xtreeSlot => ⟨.xtree, 0x10000, 0x1000, 8, 0x1, 4096, 1, 0xF, 0, 0, 0, 0⟩
  | .xtreeWinBase => ⟨.xtree, 0x20000, 0x400, 8, 0x10, 64, 8, 0xFFFFFFF000, 0, 0, 0, 0⟩
  | .xtreeWinSize => ⟨.xtree, 0x20008, 0x400, 8, 0x10, 64, 4, 0x3FFFFF, 0, 0, 0, 0⟩
  | .xtreeWinPerm => ⟨.xtree, 0x2000C, 0x400, 8, 0x10, 64, 4, 0xF, 0, 0, 0, 0⟩
  | .reefLast => ⟨.yard, 0x1400, 0, 1, 0, 1, 4, 0, 0, 0, 0, 0⟩
  | .reefStatus => ⟨.yard, 0x1404, 0, 1, 0, 1, 4, 0, 0x7, 0x100, 0, 0⟩
  | .reefElemCnt => ⟨.yard, 0x1408, 0, 1, 0, 1, 8, 0, 0, 0, 0, 0⟩
  | .reefLastScalar => ⟨.yard, 0x1410, 0, 1, 0, 1, 4, 0, 0, 0, 0, 0⟩
  | .vuLast => ⟨.yard, 0x1600, 0, 1, 0, 1, 4, 0, 0, 0, 0, 0⟩
  | .vuStatus => ⟨.yard, 0x1604, 0, 1, 0, 1, 4, 0, 0xF, 0x100, 0, 0⟩
  | .vuOobCnt => ⟨.yard, 0x1608, 0, 1, 0, 1, 4, 0, 0, 0, 0, 0⟩
  | .vuElemCnt => ⟨.yard, 0x1610, 0, 1, 0, 1, 8, 0, 0, 0, 0, 0⟩
  | .vuFtabMode => ⟨.yard, 0x1700, 0x20, 8, 0, 1, 4, 0, 0, 0, 0, 0⟩
  | .vuFtabLo => ⟨.yard, 0x1704, 0x20, 8, 0, 1, 4, 0, 0, 0, 0, 0⟩
  | .vuFtabRinv => ⟨.yard, 0x1708, 0x20, 8, 0, 1, 4, 0, 0, 0, 0, 0⟩
  | .vuFtabBelow => ⟨.yard, 0x170C, 0x20, 8, 0, 1, 4, 0, 0, 0, 0, 0⟩
  | .vuFtabAbove => ⟨.yard, 0x1710, 0x20, 8, 0, 1, 4, 0, 0, 0, 0, 0⟩
  | .ccWheel => ⟨.cc, 0, 0, 1, 0, 1, 8, 0xFFFFFFFFFFFFFFFF, 0, 0, 0, 0⟩
  | .ccRaPool => ⟨.cc, 0x8, 0, 1, 0, 1, 4, 0, 0, 0, 0, 0x182⟩
  | .ccImemStat => ⟨.cc, 0xC, 0, 1, 0, 1, 4, 0, 0x3, 0, 0, 0⟩
  | .ccImemCeCnt => ⟨.cc, 0x10, 0, 1, 0, 1, 4, 0, 0, 0, 0, 0⟩
  | .ccCtxState => ⟨.cc, 0x100, 0x40, 8, 0, 1, 4, 0, 0, 0, 0, 0⟩
  | .ccCtxAlloc => ⟨.cc, 0x104, 0x40, 8, 0, 1, 4, 0x7FC1FFF, 0, 0, 0, 0⟩
  | .ccCtxFault => ⟨.cc, 0x108, 0x40, 8, 0, 1, 4, 0, 0x1, 0, 0, 0⟩
  | .ccCtxFaultCyc => ⟨.cc, 0x10C, 0x40, 8, 0, 1, 4, 0, 0, 0, 0, 0⟩
  | .ccCtxWait => ⟨.cc, 0x110, 0x40, 8, 0, 1, 4, 0, 0, 0, 0, 0⟩
  | .ccCtxLate => ⟨.cc, 0x114, 0x40, 8, 0, 1, 4, 0, 0, 0, 0, 0⟩
  | .ccCtxStallCnt => ⟨.cc, 0x118, 0x40, 8, 0, 1, 8, 0, 0, 0, 0, 0⟩
  | .ccCtxCommits => ⟨.cc, 0x120, 0x40, 8, 0, 1, 4, 0, 0, 0, 0, 0⟩
  | .ccCtxSquashes => ⟨.cc, 0x124, 0x40, 8, 0, 1, 4, 0, 0, 0, 0, 0⟩
  | .flagLocal => ⟨.flag, 0, 0x4, 1024, 0, 1, 4, 0, 0, 0, 0, 0⟩
  | .flagPkg => ⟨.flag, 0x1000, 0x4, 256, 0, 1, 4, 0, 0, 0, 0, 0⟩
  | .flagStatus => ⟨.flag, 0x1400, 0, 1, 0, 1, 4, 0, 0x3, 0, 0, 0⟩
  | .flagOvfRec => ⟨.flag, 0x1404, 0, 1, 0, 1, 4, 0, 0, 0, 0, 0⟩
  | .flagToRec => ⟨.flag, 0x1408, 0, 1, 0, 1, 4, 0, 0, 0, 0, 0⟩
  | .admMboxReq => ⟨.adm, 0, 0x100, 4, 0x4, 16, 4, 0xFFFFFFFF, 0, 0, 0, 0⟩
  | .admMboxDb => ⟨.adm, 0x40, 0x100, 4, 0, 1, 4, 0, 0, 0x1, 0, 0⟩
  | .admMboxStat => ⟨.adm, 0x44, 0x100, 4, 0, 1, 4, 0, 0x6, 0, 0, 0⟩
  | .admMboxResp => ⟨.adm, 0x60, 0x100, 4, 0x4, 8, 4, 0, 0, 0, 0, 0⟩
  | .admRigStat => ⟨.adm, 0x400, 0, 1, 0, 1, 4, 0, 0, 0, 0, 0xFF00⟩
  | .admRigVer => ⟨.adm, 0x404, 0, 1, 0, 1, 4, 0, 0, 0, 0, 0⟩
  | .admRigPrevVer => ⟨.adm, 0x408, 0, 1, 0, 1, 4, 0, 0, 0, 0, 0⟩
  | .admRigHigh => ⟨.adm, 0x40C, 0, 1, 0, 1, 4, 0, 0, 0, 0, 0⟩
  | .admTpVer => ⟨.adm, 0x410, 0, 1, 0, 1, 4, 0, 0, 0, 0, 0⟩
  | .admTpStat => ⟨.adm, 0x414, 0, 1, 0, 1, 4, 0, 0x2, 0, 0, 0⟩
  | .admCount => ⟨.adm, 0x418, 0, 1, 0, 1, 4, 0, 0, 0, 0, 0⟩
  | .admRigDigest => ⟨.adm, 0x440, 0x4, 12, 0, 1, 4, 0, 0, 0, 0, 0⟩
  | .admRigPrevDigest => ⟨.adm, 0x480, 0x4, 12, 0, 1, 4, 0, 0, 0, 0, 0⟩
  | .admProgA => ⟨.adm, 0x800, 0x20, 64, 0, 1, 4, 0, 0, 0, 0, 0⟩
  | .admProgId => ⟨.adm, 0x804, 0x20, 64, 0, 1, 4, 0, 0, 0, 0, 0⟩
  | .admProgPh => ⟨.adm, 0x808, 0x20, 64, 0, 1, 4, 0, 0, 0, 0, 0⟩
  | .admProgEnd => ⟨.adm, 0x80C, 0x20, 64, 0, 1, 4, 0, 0, 0, 0, 0⟩
  | .admProgPwr => ⟨.adm, 0x810, 0x20, 64, 0, 1, 4, 0, 0, 0, 0, 0⟩
  | .admProgFirst => ⟨.adm, 0x818, 0x20, 64, 0, 1, 8, 0, 0, 0, 0, 0⟩
  | .admSatSat => ⟨.adm, 0x1000, 0x10, 64, 0, 1, 4, 0, 0, 0, 0, 0⟩
  | .admSatRtz => ⟨.adm, 0x1004, 0x10, 64, 0, 1, 4, 0, 0, 0, 0, 0⟩
  | .admSatSlot => ⟨.adm, 0x1008, 0x10, 64, 0, 1, 4, 0, 0, 0, 0, 0⟩
  | .strmStatus => ⟨.strm, 0, 0, 1, 0, 1, 4, 0, 0, 0, 0, 0⟩
  | .strmPeak => ⟨.strm, 0x4, 0, 1, 0, 1, 4, 0, 0, 0x10000, 0, 0⟩
  | .strmPdropCnt => ⟨.strm, 0x8, 0, 1, 0, 1, 4, 0, 0, 0, 0, 0⟩
  | .strmCqOvfCnt => ⟨.strm, 0xC, 0, 1, 0, 1, 4, 0, 0, 0, 0, 0⟩
  | .strmChCtrl => ⟨.strm, 0x100, 0x40, 32, 0, 1, 4, 0x1, 0, 0x6, 0, 0⟩
  | .strmChSq => ⟨.strm, 0x104, 0x40, 32, 0, 1, 4, 0x7FFFFFFF, 0, 0, 0, 0⟩
  | .strmChStat => ⟨.strm, 0x108, 0x40, 32, 0, 1, 4, 0, 0x10000, 0, 0, 0⟩
  | .strmChElem => ⟨.strm, 0x110, 0x40, 32, 0, 1, 8, 0, 0, 0, 0, 0⟩
  | .strmChFaddr => ⟨.strm, 0x118, 0x40, 32, 0, 1, 8, 0, 0, 0, 0, 0⟩
  | .strmChDesc => ⟨.strm, 0x1000, 0x80, 32, 0x4, 32, 4, 0, 0, 0, 0, 0⟩
  | .strmPctxNext => ⟨.strm, 0x3000, 0x10, 128, 0, 1, 8, 0xFFFFFFFFFF, 0, 0, 0, 0⟩
  | .strmPctxStat => ⟨.strm, 0x3008, 0x10, 128, 0, 1, 4, 0x1, 0, 0, 0, 0⟩
  | .strmSrcBase0 => ⟨.strm, 0x4000, 0x40, 256, 0, 1, 8, 0xFFFFFFFFFF, 0, 0, 0, 0⟩
  | .strmSrcBase1 => ⟨.strm, 0x4008, 0x40, 256, 0, 1, 8, 0xFFFFFFFFFF, 0, 0, 0, 0⟩
  | .strmSrcDim => ⟨.strm, 0x4010, 0x40, 256, 0x8, 3, 8, 0xFFFFFFFFFFFFFFFF, 0, 0, 0, 0⟩
  | .strmSrcCtl => ⟨.strm, 0x4028, 0x40, 256, 0, 1, 4, 0xFF03, 0, 0, 0, 0⟩
  | .dattUpdIdx => ⟨.datt, 0, 0, 1, 0, 1, 4, 0x1FFFFF, 0, 0, 0, 0⟩
  | .dattUpdEntry => ⟨.datt, 0x8, 0, 1, 0, 1, 8, 0xFFFFFFFFFFFFFFFF, 0, 0, 0, 0⟩
  | .dattFaultCnt => ⟨.datt, 0x10, 0, 1, 0, 1, 4, 0, 0, 0, 0, 0⟩
  | .dattLastFault => ⟨.datt, 0x18, 0, 1, 0, 1, 8, 0, 0, 0, 0, 0⟩
  | .iplCsiStat => ⟨.ipl, 0, 0x20, 4, 0, 1, 4, 0, 0x1E, 0, 0, 0⟩
  | .iplCsiCrcCnt => ⟨.ipl, 0x4, 0x20, 4, 0, 1, 4, 0, 0, 0, 0, 0⟩
  | .iplStrFrames => ⟨.ipl, 0x100, 0x20, 16, 0, 1, 4, 0, 0, 0, 0, 0⟩
  | .iplStrDrops => ⟨.ipl, 0x104, 0x20, 16, 0, 1, 4, 0, 0, 0, 0, 0⟩
  | .iplStrSof => ⟨.ipl, 0x108, 0x20, 16, 0, 1, 8, 0, 0, 0, 0, 0⟩
  | .iplPipeLoad => ⟨.ipl, 0x400, 0x4, 2, 0, 1, 4, 0, 0, 0, 0, 0⟩
  | .iplStrParam => ⟨.ipl, 0x1000, 0x100, 16, 0x4, 45, 4, 0xFFFFFFFF, 0, 0, 0, 0⟩
  | .vdecSesWp => ⟨.venc, 0, 0x20, 8, 0, 1, 4, 0xFFFFFFFF, 0, 0, 0, 0⟩
  | .vdecSesRp => ⟨.venc, 0x4, 0x20, 8, 0, 1, 4, 0, 0, 0, 0, 0⟩
  | .vdecSesStat => ⟨.venc, 0x8, 0x20, 8, 0, 1, 4, 0, 0x4, 0, 0, 0⟩
  | .vencSesWp => ⟨.venc, 0x400, 0x20, 8, 0, 1, 4, 0, 0, 0, 0, 0⟩
  | .vencSesRp => ⟨.venc, 0x404, 0x20, 8, 0, 1, 4, 0xFFFFFFFF, 0, 0, 0, 0⟩
  | .vencSesStat => ⟨.venc, 0x408, 0x20, 8, 0, 1, 4, 0, 0xC, 0, 0, 0⟩
  | .vencJpgTrig => ⟨.venc, 0x800, 0x10, 4, 0, 1, 4, 0, 0, 0x1, 0, 0⟩
  | .vencJpgWp => ⟨.venc, 0x804, 0x10, 4, 0, 1, 4, 0, 0, 0, 0, 0⟩
  | .vencJpgRp => ⟨.venc, 0x808, 0x10, 4, 0, 1, 4, 0xFFFFFFFF, 0, 0, 0, 0⟩
  | .vencJpgStat => ⟨.venc, 0x80C, 0x10, 4, 0, 1, 4, 0, 0x6, 0, 0, 0⟩
  | .audStatus => ⟨.aud, 0, 0, 1, 0, 1, 4, 0, 0xE, 0, 0, 0⟩
  | .audUndrCnt => ⟨.aud, 0x10, 0x4, 2, 0, 1, 4, 0, 0, 0, 0, 0⟩
  | .audClipCnt => ⟨.aud, 0x18, 0, 1, 0, 1, 4, 0, 0, 0, 0, 0⟩
  | .gpioIn => ⟨.gpio, 0, 0, 1, 0, 1, 4, 0, 0, 0, 0, 0⟩
  | .gpioOut => ⟨.gpio, 0x4, 0, 1, 0, 1, 4, 0xFFFFFFFF, 0, 0, 0, 0⟩
  | .gpioToqStat => ⟨.gpio, 0x10, 0, 1, 0, 1, 4, 0, 0x600, 0, 0, 0⟩
  | .gpioToqDropCnt => ⟨.gpio, 0x14, 0, 1, 0, 1, 4, 0, 0, 0, 0, 0⟩
  | .gpioToqNext => ⟨.gpio, 0x18, 0, 1, 0, 1, 8, 0, 0, 0, 0, 0⟩
  | .gpioToqLast => ⟨.gpio, 0x20, 0, 1, 0, 1, 4, 0, 0, 0, 0, 0⟩
  | .gpioEdgeLostCnt => ⟨.gpio, 0x24, 0, 1, 0, 1, 4, 0, 0, 0, 0, 0⟩
  | .gpioBallCfg => ⟨.gpio, 0x100, 0x4, 32, 0, 1, 4, 0xFF031F, 0, 0, 0, 0x200⟩
  | .qmDownhaul => ⟨.qm, 0, 0, 1, 0, 1, 4, 0, 0, 0xFFFF0001, 0, 0⟩
  | .qmDhStat => ⟨.qm, 0x4, 0, 1, 0, 1, 4, 0, 0x10, 0, 0, 0⟩
  | .qmDhTime => ⟨.qm, 0x8, 0, 1, 0, 1, 8, 0, 0, 0, 0, 0⟩
  | .qmDbBad => ⟨.qm, 0x10, 0, 1, 0, 1, 4, 0, 0x1, 0, 0, 0⟩
  | .qmRdropCnt => ⟨.qm, 0x14, 0, 1, 0, 1, 4, 0, 0, 0, 0, 0⟩
  | .qmUnboundCnt => ⟨.qm, 0x18, 0, 1, 0, 1, 4, 0, 0, 0, 0, 0⟩
  | .qmRbind => ⟨.qm, 0x8000, 0x100, 64, 0x4, 64, 4, 0xFFFF, 0, 0, 0, 0⟩
  | .evtSeq => ⟨.evt, 0, 0, 1, 0, 1, 8, 0, 0, 0, 0, 0⟩
  | .evtStat => ⟨.evt, 0x8, 0, 1, 0, 1, 4, 0, 0x1, 0, 0, 0⟩
  | .evtLostCnt => ⟨.evt, 0xC, 0, 1, 0, 1, 4, 0, 0, 0, 0, 0⟩
  | .usb4Link => ⟨.usb4, 0, 0, 1, 0, 1, 4, 0, 0, 0, 0, 0⟩
  | .usb4DownCnt => ⟨.usb4, 0x4, 0, 1, 0, 1, 4, 0, 0, 0, 0, 0⟩
  | .usb4Rdcap => ⟨.usb4, 0x8, 0, 1, 0, 1, 4, 0, 0, 0, 0, 0x400000⟩
  | .usb4RdOut => ⟨.usb4, 0xC, 0, 1, 0, 1, 4, 0, 0, 0, 0, 0⟩
  | .usb4CtoCnt => ⟨.usb4, 0x10, 0, 1, 0, 1, 4, 0, 0, 0, 0, 0⟩
  | .usb4ApBase => ⟨.usb4, 0x18, 0, 1, 0, 1, 8, 0xFFC0000000, 0, 0, 0, 0⟩
  | .ethCtrl => ⟨.eth, 0, 0, 1, 0, 1, 4, 0x1F, 0, 0, 0, 0⟩
  | .ethStat => ⟨.eth, 0x4, 0, 1, 0, 1, 4, 0, 0, 0, 0, 0⟩
  | .ethMac => ⟨.eth, 0x8, 0, 1, 0, 1, 8, 0, 0, 0, 0, 0⟩
  | .ethIpv4 => ⟨.eth, 0x10, 0, 1, 0, 1, 4, 0, 0, 0, 0, 0⟩
  | .ethDropCnt => ⟨.eth, 0x14, 0, 1, 0, 1, 4, 0, 0, 0, 0, 0⟩
  | .hrcCtrl => ⟨.hrc, 0, 0, 1, 0, 1, 4, 0x3FF, 0, 0, 0, 0⟩
  | .hrcStatus => ⟨.hrc, 0x4, 0, 1, 0, 1, 4, 0, 0x300FF00, 0, 0, 0⟩
  | .hrcFrame => ⟨.hrc, 0x8, 0, 1, 0, 1, 4, 0xFFFFF7FF, 0, 0, 0, 0x81008⟩
  | .hrcChCfg => ⟨.hrc, 0x100, 0x40, 8, 0, 1, 4, 0xFF00, 0, 0, 0, 0xFF00⟩
  | .hrcChTrain => ⟨.hrc, 0x104, 0x40, 8, 0, 1, 4, 0x3F3F, 0, 0, 0, 0⟩
  | .hrcChRetryCnt => ⟨.hrc, 0x108, 0x40, 8, 0, 1, 4, 0, 0, 0, 0, 0⟩
  | .hrcChCeCnt => ⟨.hrc, 0x10C, 0x40, 8, 0, 1, 4, 0, 0, 0, 0, 0⟩
  | .hrcChUeCnt => ⟨.hrc, 0x110, 0x40, 8, 0, 1, 4, 0, 0, 0, 0, 0⟩
  | .hrcChUeAddr => ⟨.hrc, 0x118, 0x40, 8, 0, 1, 8, 0, 0, 0, 0, 0⟩
  | .hrcChRecalCnt => ⟨.hrc, 0x120, 0x40, 8, 0, 1, 4, 0, 0, 0, 0, 0⟩
  | .hrcSlot => ⟨.hrc, 0x10000, 0x400, 8, 0x1, 1024, 1, 0xF, 0, 0, 0, 0⟩
  | .secStatus => ⟨.sec, 0, 0, 1, 0, 1, 4, 0, 0, 0, 0, 0x1⟩
  | .secBootCnt => ⟨.sec, 0x4, 0, 1, 0, 1, 4, 0, 0, 0, 0, 0⟩
  | .secBootFail => ⟨.sec, 0xC, 0, 1, 0, 1, 4, 0, 0x100, 0, 0, 0⟩
  | .secSvn => ⟨.sec, 0x10, 0, 1, 0, 1, 8, 0, 0, 0, 0, 0⟩
  | .secKeys => ⟨.sec, 0x18, 0, 1, 0, 1, 4, 0, 0, 0, 0, 0⟩
  | .secPolicy => ⟨.sec, 0x1C, 0, 1, 0, 1, 4, 0, 0, 0, 0, 0⟩
  | .secSlotInfo => ⟨.sec, 0x40, 0x40, 2, 0, 1, 4, 0, 0, 0, 0, 0⟩
  | .secSlotBuild => ⟨.sec, 0x44, 0x40, 2, 0, 1, 4, 0, 0, 0, 0, 0⟩
  | .secSlotD => ⟨.sec, 0x50, 0x40, 2, 0x4, 12, 4, 0, 0, 0, 0, 0⟩
  | .secUpdReq => ⟨.sec, 0x100, 0x4, 4, 0, 1, 4, 0xFFFFFFFF, 0, 0, 0, 0⟩
  | .secUpdDb => ⟨.sec, 0x120, 0, 1, 0, 1, 4, 0, 0, 0x1, 0, 0⟩
  | .secUpdStat => ⟨.sec, 0x124, 0, 1, 0, 1, 4, 0, 0x20, 0, 0, 0⟩
  | .secUpdResp => ⟨.sec, 0x128, 0, 1, 0, 1, 4, 0, 0, 0, 0, 0⟩
  | .secUpdTrialLeft => ⟨.sec, 0x12C, 0, 1, 0, 1, 4, 0, 0, 0, 0, 0⟩
  | .secNonce => ⟨.sec, 0x200, 0x4, 8, 0, 1, 4, 0, 0, 0, 0, 0⟩
  | .secNonceNew => ⟨.sec, 0x220, 0, 1, 0, 1, 4, 0, 0, 0x1, 0, 0⟩
  | .secAttNonce => ⟨.sec, 0x240, 0x4, 8, 0, 1, 4, 0xFFFFFFFF, 0, 0, 0, 0⟩
  | .secAttDst => ⟨.sec, 0x260, 0, 1, 0, 1, 8, 0xFFFFFFFFFF, 0, 0, 0, 0⟩
  | .secAttCap => ⟨.sec, 0x268, 0, 1, 0, 1, 4, 0xFFFF, 0, 0, 0, 0⟩
  | .secAttDb => ⟨.sec, 0x26C, 0, 1, 0, 1, 4, 0, 0, 0x1, 0, 0⟩
  | .secAttStat => ⟨.sec, 0x270, 0, 1, 0, 1, 4, 0, 0x2, 0, 0, 0⟩
  | .secLmsLeft => ⟨.sec, 0x278, 0, 1, 0, 1, 4, 0, 0, 0, 0, 0⟩
  | .secFuseAddr => ⟨.sec, 0x280, 0, 1, 0, 1, 8, 0xFFFFFFFFFF, 0, 0, 0, 0⟩
  | .secFuseDb => ⟨.sec, 0x288, 0, 1, 0, 1, 4, 0, 0, 0x1, 0, 0⟩
  | .secFuseStat => ⟨.sec, 0x28C, 0, 1, 0, 1, 4, 0, 0x2, 0, 0, 0⟩
  | .pwrState => ⟨.pwr, 0, 0, 1, 0, 1, 4, 0, 0, 0, 0, 0x100⟩
  | .pwrDomEn => ⟨.pwr, 0x10, 0x4, 8, 0, 1, 4, 0xFFFFFFFF, 0, 0, 0, 0⟩
  | .pwrDomRet => ⟨.pwr, 0x30, 0x4, 8, 0, 1, 4, 0xFFFFFFFF, 0, 0, 0, 0⟩
  | .pwrDomOn => ⟨.pwr, 0x50, 0x4, 8, 0, 1, 4, 0, 0, 0, 0, 0⟩
  | .pwrTherm => ⟨.pwr, 0x100, 0x4, 8, 0, 1, 4, 0, 0, 0x80000000, 0, 0⟩
  | .pwrShedStat => ⟨.pwr, 0x120, 0, 1, 0, 1, 4, 0, 0, 0, 0, 0⟩
  | .pwrShedLast => ⟨.pwr, 0x128, 0, 1, 0, 1, 8, 0, 0, 0, 0, 0⟩
  | .pwrShedClr => ⟨.pwr, 0x130, 0, 1, 0, 1, 4, 0, 0, 0x1, 0, 0⟩
  | .pwrSupply => ⟨.pwr, 0x140, 0, 1, 0, 1, 4, 0, 0x2, 0, 0, 0⟩
  | .pwrSupplyT => ⟨.pwr, 0x148, 0, 1, 0, 1, 8, 0, 0, 0, 0, 0⟩
  | .pwrSleep => ⟨.pwr, 0x160, 0, 1, 0, 1, 4, 0, 0, 0xFFFF0001, 0, 0⟩
  | .pwrSleepStat => ⟨.pwr, 0x164, 0, 1, 0, 1, 4, 0, 0, 0, 0, 0⟩
  | .pwrRstCause => ⟨.pwr, 0x170, 0, 1, 0, 1, 4, 0, 0xF, 0, 0, 0x1⟩
  | .pwrFw => ⟨.pwr, 0x200, 0x4, 10, 0, 1, 4, 0, 0x4, 0, 0, 0⟩
  | .pwrWdogKick => ⟨.pwr, 0x240, 0x4, 10, 0, 1, 4, 0, 0, 0x1, 0, 0⟩
  | .pwrInsvc => ⟨.pwr, 0x300, 0, 1, 0, 1, 8, 0, 0, 0, 0, 0⟩

/-- Every register name, in the order of the spec. -/
def RegName.all : List RegName := (List.range 243).map RegName.ofNat

end Sys2Proof.Machine
end

