-- ==== Sys2Proof/Machine/Sparse.lean ====
section
/-! DEFINITION. Sparse storage in one canonical form: a list of (key, value) pairs, keys strictly rising, no entry equal to
the value `d` that an unlisted key reads as. Memory, registers and every table of the machine that has many places are
stored this way, so that equal contents are equal data. -/

namespace Sys2Proof.Machine

/-- Sparse storage by key. -/
abbrev SMap (α : Type) := List (Nat × α)

/-- The value at key `a`; `d` where nothing is listed. -/
def SMap.get {α : Type} (d : α) : SMap α → Nat → α
  | [], _ => d
  | (k, v) :: m, a => if k = a then v else SMap.get d m a

/-- The list without key `a`. -/
def SMap.erase {α : Type} : SMap α → Nat → SMap α
  | [], _ => []
  | (k, v) :: m, a => if k = a then SMap.erase m a else (k, v) :: SMap.erase m a

/-- The list with `(a, v)` in its place. -/
def SMap.insert {α : Type} : SMap α → Nat → α → SMap α
  | [], a, v => [(a, v)]
  | (k, w) :: m, a, v => if a < k then (a, v) :: (k, w) :: m else (k, w) :: SMap.insert m a v

/-- Storing `v` at `a`: storing the value of an unlisted key removes the entry. -/
def SMap.set {α : Type} [DecidableEq α] (d : α) (m : SMap α) (a : Nat) (v : α) : SMap α :=
  if v = d then m.erase a else (m.erase a).insert a v

/-- Storing the values `f 0 … f (n-1)` at `a, a + 1, …`. -/
def SMap.setRange {α : Type} [DecidableEq α] (d : α) (f : Nat → α) (a : Nat) : Nat → SMap α → SMap α
  | 0, m => m
  | n + 1, m => SMap.setRange d f a n (SMap.set d m (a + n) (f n))

/-- Keeping only the keys that `keep` accepts. -/
def SMap.restrict {α : Type} (keep : Nat → Bool) (m : SMap α) : SMap α := m.filter fun e => keep e.1

/-- The canonical form. -/
def SMap.wf {α : Type} [DecidableEq α] (d : α) : SMap α → Bool
  | [] => true
  | [(_, v)] => decide (v ≠ d)
  | (k, v) :: (k', v') :: m => decide (k < k') && decide (v ≠ d) && SMap.wf d ((k', v') :: m)

end Sys2Proof.Machine
end

