-- ==== Sys2Proof/Machine/State.lean ====
section
/-! DEFINITION. The state of the Q8 as plain data: every register (`regs`, keyed by `RegId`), every memory, and every piece of
state that the spec gives the part beside its registers. `State.reset` is the part right after a power-on reset. -/

namespace Sys2Proof.Machine

/-- R1, Table 0.1: the die count of the order code. -/
inductive Dies where
  | q2 | q4 | q8
  deriving DecidableEq, Repr

/-- The order code LSG-Q8-n-g; `industrial` is grade I. -/
structure Part where
  dies : Dies
  industrial : Bool
  deriving DecidableEq, Repr

/-- The model's own stop. -/
inductive Fault where
  /-- raised by sp.rd whose immediate selects a reserved value (Table 7.11): a container that holds one is refused when it is loaded, so no
  admitted program issues it (safe) -/
  | badOperand
  deriving DecidableEq, Repr

/-- Why a command has no meaning. -/
inductive Refusal where
  /-- the command's meaning is not written yet (safe: nothing runs) -/
  | notModelled (mnemonic : String)
  deriving DecidableEq, Repr

/-- Where the tick generator stands (R35, R43, R50). -/
inductive TickPhase where
  /-- run is 0 -/
  | stopped
  /-- run is 1, no tick has started since: the first tick start is scheduled, or TICK_IN is awaited (R43, R50) -/
  | waiting
  | work
  | guard
  deriving DecidableEq, Repr

/-- The tick generator beside its registers (R40, R41, R43, R55, R56). -/
structure TickSt where
  phase : TickPhase := .stopped
  /-- the scheduled instant of the next tick start; none while an edge is awaited -/
  next : Option Nat := none
  /-- consecutive holdover ticks with an early edge (R43) -/
  earlyRun : Nat := 0
  /-- a TICK_IN_EARLY was met in the current tick -/
  earlySeen : Bool := false
  /-- the relock awaits the next edge at or after this instant (R43) -/
  relockFrom : Option Nat := none
  /-- run was cleared: stop at the next boundary (R50) -/
  stopping : Bool := false
  /-- when the last guard started -/
  guardAt : Nat := 0
  /-- a tick has started since the reset or wake (R45) -/
  begun : Bool := false
  /-- the edge that ends the current tick has been accepted (R40) -/
  accepted : Bool := false
  /-- TICK_OUT pulse: rise and fall instants -/
  outPulse : Option (Nat × Nat) := none
  /-- frame-sync pulses by generator: rise and fall instants -/
  fsync : SMap (Nat × Nat) := []
  /-- each mast's counter copy: its difference from the global counter, modulo 2^64 (R29, R30) -/
  mastOff : SMap (BitVec 64) := []
  /-- masts whose copy has been aligned since their release (R29) -/
  aligned : SMap Bool := []
  /-- the tick's interval has overlapped a PWRWARN_N assertion (R422) -/
  supply : Bool := false
  /-- the tick began in holdover (R43) -/
  held : Bool := false
  /-- masts whose copy differed at the start of the current tick (R30) -/
  skewed : List Nat := []
  /-- the TICK section of the rig in force awaits the next tick boundary (R33) -/
  retick : Bool := false
  /-- parts of the guard done beside its fence: 1 the flip, 2 step 6, 3 recalibration (Table 2.1) -/
  stage : Nat := 0
  /-- input digests of the tick's programs, taken at the flip (R435, R436) -/
  digests : List (Nat × List Byte) := []
  /-- parts of the nanosecond in hand that are still to come: cycle 0 of the tick that has started, and the streams' part of its cycle (log
  entry 2) -/
  fresh : Bool := false
  trail : Bool := false
  deriving DecidableEq, Repr

/-- R178: a tensor descriptor. -/
structure Tensor where
  type : Nat
  layout : Nat
  rank : Nat
  kind : Nat
  dbuf : Bool
  genfree : Bool
  counted : Bool
  exp2 : Bool
  dims : List Nat
  cbk : Nat
  scale : Nat
  gsz : Nat
  smode : Nat
  bind : Nat
  satLimit : BitVec 32
  rtzLimit : BitVec 32
  coff : Nat
  csize : Nat
  fallback : BitVec 16
  k : BitVec 32
  deriving DecidableEq, Repr, Inhabited

/-- Table 7.7: an entry of the CBK or SCALE section; `isWeight` is a CBK kind 0 or a SCALE kind 1. -/
structure TableEntry where
  index : Nat
  isWeight : Bool
  body : List (BitVec 16)
  deriving DecidableEq, Repr, Inhabited

/-- What a container says (R172 to R182). -/
structure Container where
  progId : BitVec 32 := 0
  phases : Nat := 1
  placed : Bool := false
  fenjaMin : Nat := 0
  code : List (BitVec 128) := []
  tensors : List Tensor := []
  const : List Byte := []
  cbks : List TableEntry := []
  scales : List TableEntry := []
  carry : List (Nat × List Byte) := []
  /-- program digest P and weights digest W (R174) -/
  digestP : List Byte := []
  digestW : List Byte := []
  deriving DecidableEq, Repr, Inhabited

/-- Table 9.3a: where a tensor lies: package addresses of its halves, plane and row pitch in bytes. -/
structure TensorPlace where
  half0 : Nat
  half1 : Nat
  planePitch : Nat
  rowPitch : Nat
  deriving DecidableEq, Repr, Inhabited

/-- What translation gives an admitted program (R241, R245, R247, R251, R252). -/
structure Placement where
  /-- physical yard 8m + y of each virtual yard -/
  yards : List Nat := []
  /-- the program slot (context) on each mast it uses -/
  slots : List (Nat × Nat) := []
  tensors : List TensorPlace := []
  /-- wheel positions per mast, instruction memory base and size in KiB -/
  positions : List Nat := []
  imemBase : Nat := 0
  imemSize : Nat := 0
  raBranches : Nat := 0
  raCmds : Nat := 0
  worstEnd : Nat := 0
  slack : Nat := 0
  heavyPhase : Nat := 0
  power : Nat := 0
  /-- mast and mast flag number of each local flag of the program -/
  localFlags : List (Nat × Nat × Nat) := []
  /-- counter slot of each counted tensor -/
  counters : List (Nat × Nat) := []
  /-- function table slot of each function table, by physical yard and tid -/
  tables : List (Nat × Nat × Nat) := []
  /-- crosstree link directions used: port, away from the crosstree -/
  links : List (Nat × Bool) := []
  /-- HyperRAM channels read or written -/
  channels : List Nat := []
  /-- those of them that it reads -/
  hrReads : List Nat := []
  /-- the parts of the rig the translation used (R241): section kind, first byte, length -/
  deps : List (Nat × Nat × Nat) := []
  /-- expected satisfaction cycle of the wait at each instruction (R220) -/
  waitPlan : List (Nat × Nat) := []
  /-- the run-ahead pairs (R227): tid and package address of the pair's other half -/
  pairs : List (Nat × Nat) := []
  /-- where codebooks lie for table loads: physical yard, CBK index, package address -/
  cbks : List (Nat × Nat × Nat) := []
  deriving DecidableEq, Repr, Inhabited

/-- The registers of a program (R185). -/
structure ProgRegs where
  sc : SMap Word := []
  ad : SMap Word := []
  /-- bit i is pd i; pd0 reads 1 whatever bit 0 holds -/
  pd : BitVec 8 := 0
  deriving DecidableEq, Repr

/-- A tensor operand with its slice offset read (R184). -/
structure Slice where
  tid : Nat
  off : Nat
  deriving DecidableEq, Repr

/-- A kernel with its operands read at issue (R183, R191). -/
inductive Kernel where
  | mat (mode : Mode) (dst a b c : Slice) (bias : Bool) (count record : Nat)
  | conv (transposed : Bool) (dst a b c : Slice) (bias : Bool) (count record : Nat)
  | red (op : Nat) (dst a b : Slice) (dest : RedDest) (group axes : Nat) (valueOut : Bool) (count : Nat)
  | vec (op : Nat) (cond : Cond) (dst a b c : Slice) (imm : Option Word) (count record : Nat)
  | strm (dst a : Slice) (count xform chans : Nat) (tap : Bool) (flag : Nat)
  | boomCnt (rtz : Bool) (rd : Nat) (t : Slice)
  deriving DecidableEq, Repr

/-- A scalar result on its way to a register (R160, R80). -/
structure Delivery where
  reg : Nat
  value : Word
  /-- the instant of the delivery; none until its command has started -/
  due : Option Nat
  /-- its command's place in program order -/
  seq : Nat
  /-- it comes from a reef unit, of this physical yard -/
  reef : Option Nat
  /-- epochs its command was issued under -/
  spec : Nat
  deriving DecidableEq, Repr

/-- What an open epoch keeps (R223). -/
structure Epoch where
  regs : ProgRegs
  taken : SMap Nat
  /-- the branch: its index, displacement, bound, expected path, condition, and its two operands: a value, or a register still
  pending -/
  idx : Nat
  disp : Int
  bound : Nat
  expect : Bool
  cond : Cond
  a : Operand
  b : Operand
  /-- speculative commands counted against the allowance -/
  cmds : Nat
  /-- inner epochs that matched and merged into it (R230) -/
  merged : Nat := 0
  deriving DecidableEq, Repr

/-- A pending flag wait (R214, R215, R218): its flag, count, issue instant, expiry instant. -/
structure Wait where
  pkg : Bool
  flag : Nat
  count : Nat
  at_ : Nat
  expiry : Nat
  /-- the cycle in which the schedule expects it satisfied -/
  planned : Nat
  /-- it was satisfied, and the grant reaches the context at this instant -/
  grant : Option Nat
  deriving DecidableEq, Repr

/-- What a context does (CC_CTXk_STATE.run). -/
inductive RunState where
  | empty | idle | issuing | waiting | stalled | stopped | struck
  deriving DecidableEq, Repr

/-- A command in an engine queue with its operands read (R199, R209): one of the engine class, or a kernel. -/
inductive EngOp where
  | run (mode : Mode) (atype : Nat) (flip bcast first : Bool) (act : Slice) (count entry : Nat)
  | load (c4 : Bool) (wt : Slice)
  | tld (weight : Bool) (cbk : Nat)
  | tcp (weight : Bool)
  | epi (bias : Bool) (dst : Slice) (entry count biasTid record : Nat)
  | chout (entry : Nat)
  | chin (entry : Nat)
  | pre (src : Slice) (entry count : Nat)
  | kernel (k : Kernel)
  deriving DecidableEq, Repr

/-- An entry of an engine queue: its program, the number of epochs it was issued under, and its place in the program's order of the
tick. -/
structure EngCmd where
  op : EngOp
  prog : Nat
  spec : Nat
  seq : Nat
  deriving DecidableEq, Repr

/-- A SCALE_RANGE of the tick (R76): mast, slot (0xFFFF for uncounted tensors), the cycle, and the boom and cause bits of it. -/
structure ScaleMark where
  mast : Nat
  slot : Nat
  cycle : Nat
  yard : Nat
  boom : Nat
  causes : Nat
  deriving DecidableEq, Repr

/-- One program's run (R202, R212, R223, R232). -/
structure Ctx where
  run : RunState := .empty
  regs : ProgRegs := {}
  idx : Nat := 0
  taken : SMap Nat := []
  dels : List Delivery := []
  /-- open epochs, innermost first -/
  epochs : List Epoch := []
  specStop : Bool := false
  /-- issue resumes at this instant after a squash (R229) -/
  resumeAt : Option Nat := none
  wait : Option Wait := none
  /-- an engine command whose queue was full: mast, yard, queue, command (R210) -/
  stalled : Option (Nat × Nat × UnitQ × EngCmd) := none
  /-- the next engine command's place in program order -/
  seq : Nat := 0
  /-- the cycle of the tick from which the context may issue again -/
  ready : Nat := 0
  /-- an instruction that waits for a pending register (R211) or for the resolution of an epoch (R224) -/
  blocked : Option Instr := none
  /-- a bound was exceeded under an open epoch: LOOP_BOUND is raised on commit (R190, R229) -/
  specBound : Bool := false
  /-- tick.end has issued -/
  ended : Bool := false
  /-- launched and started in this tick -/
  active : Bool := false
  /-- conditions of the tick (Table 16.1): retried, supply, quality, overrun, fault -/
  conds : BitVec 5 := 0
  /-- outcome of the previous tick (Table 7.11) -/
  outcome : Nat := 3
  late : Nat := 0
  /-- streams started and not complete -/
  strms : Nat := 0
  /-- FLAG_OVERFLOW, GATHER_RANGE and uncounted SCALE_RANGE were raised in this tick -/
  onceOvf : Bool := false
  onceGather : Bool := false
  onceScale : List ScaleMark := []
  deriving DecidableEq, Repr

/-- An input's halves (R37, R38, R435, R465). -/
structure InputSt where
  /-- the half programs read: false is half 0 -/
  live : Bool := false
  complete : Bool := false
  age : BitVec 16 := 0xFFFF
  /-- digest of the live half; empty before the first flip (SHA-384 of zero bytes) -/
  digest : List Byte := []
  /-- digest of the half just written -/
  shadowDigest : List Byte := []
  /-- has flipped since admission; for an input bound to an output, its producer has committed since (R38, R465) -/
  flipped : Bool := false
  /-- the output it is bound to (R465): the producer's handle and tid -/
  producer : Option (BitVec 16 × Nat) := none
  /-- its producer committed the tick at whose guard it left (R465) -/
  last : Bool := false
  deriving DecidableEq, Repr

/-- The memory of the program's tensors that the spec does not lay out in package memory: derived scales by place (3 · tid + place), row and group, and
which half of a carried tensor is committed. -/
structure Store where
  derived : SMap (BitVec 16) := []
  /-- key tid: half 1 of the carried tensor (or of a bound output) is the committed (latched) one -/
  committed : SMap Bool := []
  /-- the program committed at the last commit point (R465) -/
  fresh : Bool := false
  /-- the place, plus one, of a half that has changed places with a run-ahead half (R227): key 3 · tid + half, 2 the run-ahead half -/
  homes : SMap Nat := []
  /-- key tid: epochs under which the run-ahead half was written, 0 for none -/
  shadow : SMap Nat := []
  deriving DecidableEq, Repr

/-- An admitted program, by program number; what its ADM_PROGn registers hold is not repeated here. -/
structure Prog where
  box : Container := {}
  place : Placement := {}
  ctx : Ctx := {}
  store : Store := {}
  inputs : SMap InputSt := []
  admitT48 : BitVec 48 := 0
  tpVer : BitVec 32 := 0
  prov : Bool := false
  /-- the native image stands in instruction memory (R207) -/
  copied : Bool := false
  /-- the check state of its image by instruction index (R208): 1 one bit wrong, 2 uncorrectable -/
  imemEcc : SMap Nat := []
  /-- half digest folded by mv.strm taps of the tick (R288) -/
  tapBytes : List Byte := []
  deriving DecidableEq, Repr

/-- R120, R121: what a command names of an armed block of a yard: the generation, and, of a write, how many writers the fill has; `free`
where the block is generation-free. -/
structure TagUse where
  block : Nat
  gen : Nat
  n : Nat := 1
  free : Bool := false
  deriving DecidableEq, Repr

/-- The tags that a command's reads and its writes name. -/
structure Tags where
  rd : List TagUse := []
  wr : List TagUse := []
  deriving DecidableEq, Repr

/-- The fills of a block in the tick (R119, R120): the generation that the last one fills, its writers' places in program order, and how
many of them have not completed. -/
structure Fill where
  gen : Nat := 0
  members : List Nat := []
  left : Nat := 0
  deriving DecidableEq, Repr

/-- A writer that has started or joined the fill of a block and has not completed (R120). -/
structure Join where
  prog : Nat
  spec : Nat
  seq : Nat
  block : Nat
  deriving DecidableEq, Repr

/-- A block as it stood before the first write of an epoch (R227): its tag and its fills. -/
structure TagMark where
  prog : Nat
  spec : Nat
  block : Nat
  tag : Nat
  fill : Fill
  deriving DecidableEq, Repr

/-- A tag check or update that tripped (R123): its program and epochs, kind, port, block, generation named, the tag at the start of its
cycle, and that cycle. -/
structure Trip where
  prog : Nat
  spec : Nat
  kind : Nat
  port : Nat
  block : Nat
  gen : Nat
  tag : Nat
  cycle : Nat
  deriving DecidableEq, Repr

/-- What a load writes (R97, R98): a tile of a weight tensor, a table from a codebook, or a table from the live one. -/
inductive LoadKind where
  | tile (c4 : Bool) (tid tile : Nat)
  | table (weight : Bool) (cbk : Nat)
  | copy (weight : Bool)
  deriving DecidableEq, Repr

/-- A load in progress (R97, R98): the cycle in which it started, the set that it writes, where it reads, what it has read, row by
row, and when it completes. -/
structure SailLoad where
  kind : LoadKind
  prog : Nat
  spec : Nat
  start : Nat
  set : Nat
  base : Nat
  rows : List (List Byte)
  done : Nat
  tags : List TagUse := []
  deriving DecidableEq, Repr

/-- A run that issues vectors (R88): the cycle in which it started, how many vectors it has issued, and the set they carry; `undef`
where that set is EMPTY. -/
structure SailRun where
  prog : Nat
  spec : Nat
  seq : Nat
  start : Nat
  count : Nat
  issued : Nat
  mode : Mode
  atype : Nat
  bcast : Bool
  first : Bool
  act : Slice
  entry : Nat
  set : Nat
  undef : Bool
  tags : List TagUse := []
  deriving DecidableEq, Repr

/-- A vector in a sail's pipeline, or its partials on their way (R84, R87, R92): its run, its place in it, the cycle of its read, the
32 partials, and the cycle in which it reaches the next stage. -/
structure SailVec where
  run : SailRun
  idx : Nat
  read : Nat
  due : Nat
  ps : List Int
  /-- rows gated at stage E -/
  zeros : Nat
  /-- the weight tensor and tile of its set, plus one -/
  tid : Nat
  tile : Nat
  /-- sails whose partials it holds, as bits -/
  mask : Nat
  /-- squashed -/
  dead : Bool
  deriving DecidableEq, Repr

/-- One sail beside its registers (R83, R97, R100). -/
structure SailSt where
  /-- cells: key set · 1024 + row · 32 + column -/
  cells : SMap Byte := []
  /-- activation and weight tables: key set · 256 + index -/
  atbl : SMap Byte := []
  wtbl : SMap Byte := []
  /-- the weight tensor and tile that a set was loaded from, plus one -/
  tid : SMap Nat := []
  tile : SMap Nat := []
  load : Option SailLoad := none
  /-- epochs under which the shadow set was loaded -/
  setSpec : Nat := 0
  run : Option SailRun := none
  /-- vectors read and not yet at stage F, oldest first -/
  pipe : List SailVec := []
  /-- partials passed down by the sail above -/
  inbox : List SailVec := []
  /-- hazard raised this tick -/
  hazTick : Bool := false
  deriving DecidableEq, Repr

/-- A boom.epi or boom.pre that takes an entry each cycle (R71, R95): how many entries it has taken. -/
structure BoomJob where
  op : EngOp
  prog : Nat
  spec : Nat
  seq : Nat
  taken : Nat
  tags : Tags := {}
  deriving DecidableEq, Repr

/-- An epilogue's output on its way to yard SRAM: cycle, address and bytes, tally, counter slot (0xFFFF for none). -/
structure BoomOut where
  prog : Nat
  spec : Nat
  due : Nat
  addr : Nat
  data : List Byte
  sat : Nat
  rtz : Nat
  causes : Nat
  slot : Nat
  tid : Nat
  /-- its command's place in program order, what it names of its block, and whether it is the command's first and last access there -/
  seq : Nat
  tag : Option TagUse := none
  first : Bool := false
  last : Bool := false
  deriving DecidableEq, Repr

/-- A preloaded entry on its way: cycle, entry, lanes, causes. -/
structure BoomPre where
  prog : Nat
  spec : Nat
  due : Nat
  entry : Nat
  lanes : List Word
  causes : Nat
  deriving DecidableEq, Repr

/-- One boom beside its registers (R73, R226). -/
structure BoomSt where
  /-- accumulators: key bank · 16384 + entry · 32 + lane -/
  acc : SMap Word := []
  /-- live-bank bit by entry: true is B -/
  liveB : SMap Bool := []
  /-- pending marks by entry: epoch depth, 0 for none -/
  pending : SMap Nat := []
  /-- output codebook loaded -/
  ocbk : SMap Byte := []
  job : Option BoomJob := none
  /-- partials on their way to the accumulators -/
  ins : List SailVec := []
  outs : List BoomOut := []
  pres : List BoomPre := []
  deriving DecidableEq, Repr

/-- What a unit holds for an open epoch (R80, R169): counts of a counter slot (0xFFFF for none), cause bits of a boom, status bits,
elements and out-of-range rows of the vector unit. -/
structure Held where
  prog : Nat
  boom : Nat
  slot : Nat
  sat : Nat := 0
  rtz : Nat := 0
  causes : Nat := 0
  vu : Option (Nat × Nat × Nat × Nat × Nat) := none
  spec : Nat
  deriving DecidableEq, Repr

/-- One bank access of a yard (R109): cycle, yard offset, port, the program whose access it is, the mast whose stream sent it over the
crosstree, and, of a write that has been made, its bytes and what stood there before: bytes and check states. -/
structure Access where
  cycle : Nat
  off : Nat
  port : Nat
  prog : Option Nat
  remote : Option Nat
  made : Option (List Byte × List Byte × List Nat)
  deriving DecidableEq, Repr

/-- A write of part of an 8-byte word between its two cycles (R110): cycle of the write, offset, bytes, port, program, remote mast,
words that are written back poisoned. -/
structure PartWrite where
  due : Nat
  off : Nat
  data : List Byte
  port : Nat
  prog : Option Nat
  remote : Option Nat
  poison : List Nat
  deriving DecidableEq, Repr

/-- A line in a yard's landing buffer (R276): bank, yard offset, the bytes to write or none for a read, its length, its stream, and its
place in the order of service of R275. -/
structure Landing where
  bank : Nat
  off : Nat
  data : Option (List Byte)
  len : Nat
  strm : Nat
  rank : Nat
  deriving DecidableEq, Repr

/-- One yard beside its registers and SRAM. -/
structure YardSt where
  sails : SMap SailSt := []
  booms : SMap BoomSt := []
  /-- engine queues by queue code (Table 8.1): sails 0–3, booms 4–7, reef 8, vector unit 9, stream port 10 -/
  queues : SMap (List EngCmd) := []
  /-- by queue code: the cycle after the last start, and the cycle from which its unit is free (R88, R159, R209) -/
  started : SMap Nat := []
  unitFree : SMap Nat := []
  /-- the vectors on the chain link into this yard, with their arrival cycles (R94) -/
  chain : List (List Word × Nat) := []
  /-- landing buffer, oldest first (R276) -/
  landing : List Landing := []
  /-- what open epochs hold (R80, R169) -/
  held : List Held := []
  /-- bank accesses of the cycle (R109) -/
  access : List Access := []
  /-- writes of part of a word that await their second cycle (R110) -/
  parts : List PartWrite := []
  /-- YARD_BANK_CONFLICT was raised in the tick; the cycle and bank of the conflict that it and the record name -/
  onceConflict : Bool := false
  conflictAt : Option (Nat × Nat) := none
  onceTrip : Bool := false
  /-- fills of the tick by block, the writers under way, what open epochs changed, and trips that wait for their epoch (R119 to R123, R227) -/
  fills : SMap Fill := []
  joins : List Join := []
  marks : List TagMark := []
  trips : List Trip := []
  onceUe : Bool := false
  /-- zero fill in progress ends at this instant (R117) -/
  initUntil : Option Nat := none
  /-- instants of recent uncorrectable words (R427) -/
  ueTimes : List Nat := []
  deriving DecidableEq, Repr

/-- A package flag operation on its way to the hub (R135, R215). -/
structure HubOp where
  isSet : Bool
  flag : Nat
  count : Nat
  prog : Nat
  die : Nat
  ctx : Nat
  /-- when it reaches the hub -/
  reach : Nat
  deriving DecidableEq, Repr

/-- Flags beside their registers, and the ratline hub (R135, R136, R214, R215). -/
structure FlagSt where
  /-- the hub's 256 values -/
  pkg : SMap (BitVec 16) := []
  hub : List HubOp := []
  /-- waits pending at the hub, oldest arrival first -/
  hubWaits : List HubOp := []
  /-- new values on their way to every die: flag, value, when visible -/
  shown : List (Nat × BitVec 16 × Nat) := []
  /-- local sets in flight: mast, flag, count, program, when applied -/
  localSets : List (Nat × Nat × Nat × Nat × Nat) := []
  /-- instants of recent ratline errors and skews by mast (R427) -/
  ratTimes : SMap (List Nat) := []
  skewTimes : SMap (List Nat) := []
  deriving DecidableEq, Repr

/-- A flit of the crosstree (R126 to R133, R138), waiting for its slot or under way: its number, its ports, what it carries and for whom,
and the stream that it belongs to. -/
structure Flit where
  id : Nat := 0
  src : Nat
  dst : Nat
  addr : Nat
  data : List Byte
  prog : Option Nat
  strm : Nat := 0
  /-- the order in which a port serves them (R275): 0 tick class, 1 + r peripheral context r, 1000 + n bulk channel n -/
  rank : Nat := 0
  /-- a read request, or the data of a read on its way back: nothing is written -/
  read : Bool := false
  /-- the window that it crosses has the gen permission (R137) -/
  gen : Bool := false
  /-- the instant from which it may be sent -/
  ready : Nat := 0
  /-- the tick start and the cycle in which it was sent -/
  base : Nat := 0
  sent : Nat := 0
  /-- cycles by which replays on its uplink and on its downlink have made it late (R129) -/
  lateUp : Nat := 0
  lateDn : Nat := 0
  deriving DecidableEq, Repr

/-- The crosstree beside its registers; keys are port · 2 + (away from the crosstree). -/
structure FabricSt where
  /-- under way, in the order in which they were sent -/
  flits : List Flit := []
  /-- not yet sent, oldest first -/
  waiting : List Flit := []
  /-- numbers given to flits and streams -/
  serial : Nat := 0
  /-- the bulk channel that port 7 served last (R275) -/
  lastCh : Nat := 0
  /-- the flit that a direction replays, plus one -/
  failed : SMap Nat := []
  /-- programs that used a direction in the tick (R131) -/
  users : SMap (List Nat) := []
  /-- each port's copy of its window table (R139): XTREE_WIN_BASE, _SIZE and _PERM by 64 · initiator + window -/
  winCopy : SMap (BitVec 64 × BitVec 64 × BitVec 64) := []
  /-- the frame of the rig in force awaits the next tick start; that of the previous rig runs on (R240) -/
  reframe : Bool := false
  /-- replays of the tick per link direction -/
  replays : SMap Nat := []
  /-- consecutive failures of the flit in hand -/
  fails : SMap Nat := []
  /-- delay now standing on the direction, in cycles -/
  delay : SMap Nat := []
  /-- replay excess raised in the tick -/
  onceExcess : SMap Bool := []
  /-- link down instants by port (R133) -/
  downTimes : SMap (List Nat) := []
  down : SMap Bool := []
  /-- retrained, resumes at the next tick start -/
  retrained : SMap Bool := []
  onceRat : SMap Bool := []
  deriving DecidableEq, Repr

/-- A tick-class stream in flight (R196, R269): an mv.strm, or a copy that translation inserts (R465). -/
structure TickStrm where
  id : Nat
  prog : Nat
  /-- its place in the program's order -/
  seq : Nat
  engine : Nat
  /-- the engine's channel -/
  chan : Nat
  /-- the local flag that it sets -/
  flag : Option Nat
  /-- the bound input that it fills (R465) -/
  copy : Option Nat
  /-- the hash tap (R196) -/
  tap : Bool
  /-- lines of its own mast that it has still to read -/
  reads : List (Nat × Nat)
  /-- pieces that it has still to write -/
  out : List (Nat × List Byte)
  tags : Tags
  /-- blocks that it has begun to write -/
  touched : List Nat := []
  /-- the last byte that it writes to HyperRAM, until it is read back (R278) -/
  back : Option Nat := none
  /-- elements delivered, of so many bits -/
  esize : Nat
  elems : Nat := 0
  /-- what it sends over the crosstree is with the port -/
  sent : Bool := false
  /-- it stopped at a window fault (R138) -/
  faulted : Bool := false
  deriving DecidableEq, Repr

/-- A bulk channel's descriptor in hand (R265, R286). -/
structure ChanSt where
  desc : List Byte := []
  /-- elements delivered -/
  elem : Nat := 0
  /-- a completion record that waits: queue, bytes (R279) -/
  record : Option (Nat × List Byte) := none
  /-- the stream has moved all it can and awaits the read-back (R278): the status it ends with, coordinate, offset -/
  ending : Option (Nat × Nat × Nat) := none
  /-- the number of its flits and requests -/
  strm : Nat := 0
  /-- an abort has come while it runs (R287) -/
  aborted : Bool := false
  deriving DecidableEq, Repr

/-- A peripheral descriptor that has moved its last burst and awaits the landing of its writes (R274): the descriptor, its half, its
stream, its elements, whether a new capture has overtaken it (R281), and the last byte that its read-back has to reach (R278). -/
structure PctxEnd where
  desc : List Byte
  half : Bool
  strm : Nat
  elems : Nat
  replaced : Bool
  back : Option Nat := none
  /-- it ends ABORTED (R372) -/
  cut : Bool := false
  deriving DecidableEq, Repr

/-- A peripheral context's descriptor in hand (R280, R281). -/
structure PctxSt where
  desc : List Byte := []
  elem : Nat := 0
  half : Bool := false
  /-- the number of its flits and requests -/
  strm : Nat := 0
  /-- descriptors that await their landing, oldest first -/
  ends : List PctxEnd := []
  /-- bytes that the device block has offered and that do not yet make a burst -/
  fifo : List Byte := []
  /-- header of the last capture that completed a half (R281) -/
  prev : List Byte := []
  /-- once-per-tick marks: dropped burst -/
  onceDrop : Bool := false
  deriving DecidableEq, Repr

/-- The stream engines beside their registers. -/
structure StrmSt where
  ticks : List TickStrm := []
  chans : SMap ChanSt := []
  pctx : SMap PctxSt := []
  /-- queues whose overflow was raised in the tick (R279) -/
  onceCq : SMap Bool := []
  /-- bytes handed by TDM output descriptors and not yet sent -/
  outBytes : SMap (List Byte) := []
  /-- the DATT entries that an update replaced, with its instant: a lookup of that instant finds them (R290) -/
  dattOld : List (Nat × Nat × Nat) := []
  deriving DecidableEq, Repr

/-- A rig that has taken effect while domains that it enables come up (R240, R410): the mailbox of its request, the instant at which
they are up and filled, the t48 of the first tick under the rig, and its version. -/
structure Settle where
  mbox : Nat
  upAt : Nat
  first : Nat
  version : Nat
  deriving DecidableEq, Repr

/-- The rig store and what a rig change keeps (R239 to R244). -/
structure RigSt where
  cur : List Byte := []
  prev : List Byte := []
  /-- a rig accepted and waiting for step 6, with the mailbox of its request -/
  staged : Option (List Byte × Nat) := none
  /-- R240: a rig in force whose request completes once its domains are up -/
  settle : Option Settle := none
  /-- a REVERT accepted: its mailbox and persist flag -/
  revert : Option (Nat × Bool) := none
  /-- load-type requests in acceptance order: mailboxes (R255) -/
  queue : List Nat := []
  /-- the instant at which each mailbox accepted its request -/
  acceptedAt : SMap Nat := []
  /-- staged by Halyard: the rig image awaiting submission -/
  halyard : List Byte := []
  deriving DecidableEq, Repr

/-- An event record before it is numbered (R342). -/
structure Event where
  code : BitVec 16
  die : BitVec 8
  unit : BitVec 8
  handle : BitVec 16
  arg16 : BitVec 16
  arg64 : BitVec 64
  time : BitVec 64
  deriving DecidableEq, Repr

/-- Event FIFOs by key die · 256 + group (R341). -/
structure EventSt where
  fifos : SMap (List Event) := []
  lost : SMap Nat := []
  /-- code of the last event raised (Table 12.10) -/
  last : BitVec 16 := 0
  deriving DecidableEq, Repr

/-- A result handed to the queue manager (R35, R338). -/
structure Result where
  prog : Nat
  head : Nat
  status : Nat
  handle : BitVec 16
  progId : BitVec 32
  t48 : BitVec 48
  late : Nat
  phase : Nat
  conds : BitVec 5
  payload : List Byte
  digest : Option (List Byte)
  /-- QM_RBINDp_h at the hand-off (R337) -/
  bind : BitVec 16
  deriving DecidableEq, Repr

/-- A launch or restart accepted (R47, R257): its mailbox, the handles it names, and the tick value of the first run. -/
structure LaunchReq where
  mbox : Nat
  handles : List Nat
  first : Nat
  deriving DecidableEq, Repr

/-- The queue manager beside its registers and the descriptors in Stay SRAM. -/
structure QueueSt where
  results : List Result := []
  /-- entries produced since the last signal, and the instant of the first, by queue (R335) -/
  counts : SMap Nat := []
  timers : SMap Nat := []
  /-- once-per-tick drop marks by queue -/
  onceDrop : SMap Bool := []
  /-- MSI-X table words (key vector · 4 + word), pending bits, messages sent by vector -/
  msix : SMap Word := []
  pba : SMap Bool := []
  sent : SMap Nat := []
  /-- launches and restarts accepted and not answered, in acceptance order -/
  launches : List LaunchReq := []
  /-- status block last sent by the USB 2.0 device, and the block last returned -/
  usbSent : List Byte := []
  usbReply : List Byte := []
  /-- data returned by the last BAR2 or register read, and reads by requester -/
  readData : BitVec 32 := 0
  deriving DecidableEq, Repr

/-- Media blocks beside their registers (R297 to R313). -/
structure MediaSt where
  /-- picture sequence numbers: key unit · 16 + session -/
  seq : SMap (BitVec 32) := []
  /-- source frames awaiting an encoder session, oldest first: (bytes, completion time) -/
  vencSrc : SMap (List (List Byte × BitVec 64)) := []
  /-- which of the two source buffers a session's next frame takes (encoder 0–7, JPEG 8–11) -/
  srcBuf : SMap Nat := []
  /-- most recent complete source frame of a session (encoder 0–7, JPEG 8–11) -/
  lastSrc : SMap (List Byte × BitVec 64) := []
  /-- the next picture is coded IDR -/
  idr : SMap Bool := []
  /-- pictures since the last IDR -/
  gop : SMap Nat := []
  /-- decoder frame buffers in hand: next buffer index by session -/
  vdecBuf : SMap Nat := []
  /-- a JPEG snapshot in hand: source bytes -/
  jpegSrc : SMap (List Byte × BitVec 64) := []
  onceCsi : SMap Bool := []
  onceUndr : SMap Bool := []
  /-- loopback samples of the TDM outputs since the last block: key output · 16 + slot -/
  loopback : SMap (List Word) := []
  /-- media blocks stopped by shedding (Table 15.5) -/
  shedBlock : SMap Bool := []
  deriving DecidableEq, Repr

/-- A timed-output entry in the queue (R317, R318). -/
structure ToqEntry where
  dueTick : Nat
  ball : Nat
  action : Nat
  offset : Nat
  width : Nat
  tag : BitVec 32
  /-- once its due tick has started: its due instant -/
  due : Option Nat
  deriving DecidableEq, Repr

/-- A pulse of the timed-output queue whose leading edge has occurred (R318): its trailing edge's instant and level, and its tag. -/
structure Pulse where
  ball : Nat
  ends : Nat
  level : Bool
  tag : Word
  deriving DecidableEq, Repr

/-- Timed I/O beside its registers (R314 to R319). -/
structure GpioSt where
  /-- level driven on each ball: 0 low, 1 high; unlisted is high-impedance -/
  driven : SMap (Option Bool) := []
  toq : List ToqEntry := []
  /-- pulses in progress -/
  pulses : List Pulse := []
  /-- edge records awaiting delivery to the input source: time, ball, level -/
  edges : List (BitVec 64 × Nat × Bool) := []
  /-- levels seen on the balls -/
  seen : SMap Bool := []
  onceBad : Bool := false
  onceFull : Bool := false
  /-- levels of all balls at the last guard start (R316) -/
  atGuard : BitVec 32 := 0
  deriving DecidableEq, Repr

/-- A request to one HyperRAM line: write data, or a read; the program of a tick-class access; its stream, and the port that its data
goes to. -/
structure HrReq where
  addr : Nat
  len : Nat
  write : Option (List Byte)
  prog : Option Nat
  strm : Nat := 0
  port : Nat := 7
  /-- its slot had begun when it came (R364) -/
  late : Bool := false
  /-- a write of part of a word that has taken its read (R365) -/
  merged : Bool := false
  /-- a read that awaits its retry: the address of the word that was uncorrectable -/
  bad : Nat := 0
  deriving DecidableEq, Repr

/-- The HyperRAM controller beside its registers (R364 to R372). -/
structure HyperSt where
  /-- requests waiting for a slot by channel, oldest first -/
  reqs : SMap (List HrReq) := []
  /-- reads that met an uncorrectable word by channel, oldest first -/
  retries : SMap (List HrReq) := []
  /-- retries of the tick by channel -/
  used : SMap Nat := []
  onceExcess : SMap Bool := []
  onceUe : SMap Bool := []
  downTimes : SMap (List Nat) := []
  retrained : SMap Bool := []
  deriving DecidableEq, Repr

/-- A command token accepted: its bound source, uses left, permission mask, object digest (R354, R355). -/
structure Token where
  src : NetAddr
  uses : Nat
  mask : BitVec 64
  object : List Byte
  deriving DecidableEq, Repr

/-- A chunked transfer in progress (R356): the hash expected of the next chunk, the data so far, the last chunk with its next
hash. -/
structure Xfer where
  target : Nat
  size : Nat
  chunks : Nat
  index : Nat
  expect : List Byte
  data : List Byte
  lastChunk : List Byte
  deriving DecidableEq, Repr

/-- A Halyard request that awaits its mailbox, or the SP: mailbox 0xFF (R356, R357, R398, R405); `data` is the nonce of an ATTEST. -/
structure HmpWait where
  mbox : Nat
  src : NetAddr
  rid : BitVec 32
  op : Nat
  data : List Byte
  deriving DecidableEq, Repr

/-- The management port beside its registers (R351 to R357). -/
structure MgmtSt where
  dhcpAddr : BitVec 32 := 0
  /-- stateless autoconfiguration prefix -/
  slaacPfx : Option Nat := none
  /-- the nonce that HELLO gives, empty until one is drawn -/
  nonce : List Byte := []
  token : Option Token := none
  /-- token bytes gathered so far -/
  gathering : List Byte := []
  xfer : Option Xfer := none
  /-- the reply datagrams, or the reply frame, last sent -/
  reply : List (List Byte) := []
  /-- requests of the MP's own mailboxes whose outcome a Halyard reply carries: mailbox, source, request id, operation -/
  waiting : List HmpWait := []
  /-- Halyard datagrams in the current second and its start -/
  rate : Nat := 0
  rateAt : Nat := 0
  deriving DecidableEq, Repr

/-- Update states of Table 14.10. -/
inductive UpdState where
  | none | receiving | staged | activating | trial
  deriving DecidableEq, Repr

/-- Fuses, flash, keys and update (chapter 14). -/
structure SecSt where
  /-- fuses: revoke bits, policy, security version thermometer; the 96 bytes of key hashes by slot (vendor 0–3, owner 4–7), empty
  where none is programmed -/
  revoke : BitVec 8 := 0
  policy : BitVec 16 := 0
  svn : BitVec 64 := 0
  keyHash : SMap (List Byte) := []
  /-- embedded flash: erased bytes read 0xFF; what follows is kept in it in a form the spec does not give: the boot counter, rig_high
  beside the rig backup, SET_NET settings (the body of the
  last SET_NET, empty when none), the count of leaf reservation records -/
  flash : SMap Byte := []
  bootCnt : Nat := 0
  rigHigh : Nat := 0
  setNet : List Byte := []
  hssBlocks : Nat := 0
  /-- retention SRAM: the retention block (Table 14.8), empty when clear -/
  retention : List Byte := []
  /-- straps as driven on the balls -/
  bootMode : BitVec 2 := 0
  forceGolden : Bool := false
  upd : UpdState := .none
  trialAt : Nat := 0
  /-- the emergency has been clear since this instant -/
  clearSince : Option Nat := none
  /-- processors that run the new image (p of PWR_FWp) -/
  replaced : SMap Bool := []
  /-- digest D of the image in STAGED -/
  stagedD : List Byte := []
  /-- Halyard update requests that wait for the SP and came before the host's (R405) -/
  updAfter : Nat := 0
  /-- the running image: digest, slot, build, svn; its signing slots are all revoked (R392) -/
  runDigest : List Byte := []
  runSlot : Bool := false
  runBuild : Nat := 0
  runSvn : Nat := 0
  /-- the handoff schema that the running image writes (R377, R402), and how many records have been written since the boot -/
  runHo : Nat := 0
  hoSeq : Nat := 0
  revokedNow : Bool := false
  /-- next HSS index -/
  hssNext : Nat := 0
  lastReport : List Byte := []
  lastNonce : List Byte := []
  /-- attempts of the MP to report ready at this boot (R385) -/
  mpTries : Nat := 0
  /-- recovery has accepted an image (R390) -/
  recovered : Bool := false
  deriving DecidableEq, Repr

/-- The life of the part (R385, R413, R421). -/
inductive Life where
  /-- PORST_N released, cold boot not yet complete -/
  | booting
  | running
  /-- the SP halted, waits in recovery or runs the test -/
  | halted
  | recovery
  | test
  | deepSleep
  | tripped
  deriving DecidableEq, Repr

/-- Power, thermal, firmware health and balls (chapters 15 and 17). -/
structure PowerSt where
  life : Life := .booting
  /-- DOWNHAUL_N is low -/
  downhaulLow : Bool := false
  /-- a boot after a thermal trip has yet to report it (R429) -/
  tripReport : Bool := false
  /-- a deep-sleep request is held (R405) -/
  sleepHeld : Bool := false
  /-- last_shed: none until an entry is shed -/
  lastShed : Option Nat := none
  /-- hot of R418 at the last guard step 1: 0 no, 1 a die is hot, 2 the supply is low -/
  hot : Nat := 0
  /-- entries shed and in force -/
  shed : List Nat := []
  /-- shedding has ended, and the MP has still to restore what was shed (Table 15.7) -/
  restore : Bool := false
  /-- crash instants by processor, and the deadline of its watchdog -/
  crashes : SMap (List Nat) := []
  wdog : SMap Nat := []
  /-- a restart is due by processor -/
  restartAt : SMap Nat := []
  /-- units to take out at step 6 (R427) -/
  outPending : List Nat := []
  /-- HyperRAM channels, ports and other units out of service by unit code -/
  out : SMap Bool := []
  /-- output balls: THERMTRIP_N low, SLEEP_N low -/
  thermTrip : Bool := false
  sleepN : Bool := false
  vsel : BitVec 2 := 0
  /-- when VSEL last changed (R412) -/
  vselAt : Nat := 0
  deriving DecidableEq, Repr

/-- The machine. -/
structure State where
  part : Part
  /-- the global counter (R27) and whether it runs (R28) -/
  gcnt : BitVec 64
  timebase : Bool
  /-- registers: the difference of each from its reset value, keyed by `RegId.key` -/
  regs : SMap (BitVec 64)
  /-- the registers as they were when the nanosecond in hand began (R12) -/
  was : SMap (BitVec 64)
  /-- R15, R16: latched high words and held low words + 1, keyed by requester and offset -/
  latch : SMap (BitVec 32)
  hold : SMap (Option (BitVec 32))
  /-- bytes by package address; host memory stands at 2^64 + host bus address -/
  mem : SMap Byte
  /-- the check state of 8-byte words by address / 8 (R112, R113): 0 right, 1 one bit wrong, 2 uncorrectable -/
  ecc : SMap Nat
  tick : TickSt
  progs : SMap Prog
  /-- next serial of each program number (R256) -/
  serials : SMap Nat
  yards : SMap YardSt
  flags : FlagSt
  fabric : FabricSt
  strm : StrmSt
  rig : RigSt
  events : EventSt
  queue : QueueSt
  media : MediaSt
  gpio : GpioSt
  hyper : HyperSt
  mgmt : MgmtSt
  sec : SecSt
  power : PowerSt
  /-- MODEL'S OWN: how many free values have been taken -/
  free : Nat
  /-- the commands that wait, first in first out -/
  pending : List Instr
  deriving DecidableEq, Repr

/-- R386: the vendor slots, all four programmed at manufacture (DESIGN CHOICE, log entry 4: the hashes themselves). -/
def vendorHashes : SMap (List Byte) :=
  [(0, List.replicate 96 1), (1, List.replicate 96 2), (2, List.replicate 96 3), (3, List.replicate 96 4)]

/-- The part right after a power-on reset, nothing listed anywhere. -/
def State.reset : State :=
  { part := ⟨.q8, true⟩, gcnt := 0, timebase := false, regs := [], was := [], latch := [], hold := [], mem := [], ecc := []
    tick := {}, progs := [], serials := [], yards := [], flags := {}, fabric := {}, strm := {}, rig := {}, events := {}
    queue := {}, media := {}, gpio := {}, hyper := {}, mgmt := {}, sec := { keyHash := vendorHashes }, power := {}, free := 0, pending := [] }

end Sys2Proof.Machine
end

