-- ==== Sys2Proof/Machine/RegMap.lean ====
section
/-! DEFINITION. Where the registers lie in BAR0 (R326 and each chapter's block bases), and the reset value of each register
(R14), those taken from straps, fuses and flash included. -/

namespace Sys2Proof.Machine

/-- R1, Table 0.1. -/
def Part.masts (p : Part) : Nat := match p.dies with | .q2 => 1 | .q4 => 3 | .q8 => 7
def Part.hrChannels (p : Part) : Nat := match p.dies with | .q8 => 8 | _ => 4
def Part.csiPorts (p : Part) : Nat := match p.dies with | .q8 => 4 | _ => 2
def Part.vencs (p : Part) : Nat := match p.dies with | .q8 => 2 | _ => 1
/-- Maximum package power in mW. -/
def Part.maxPower (p : Part) : Nat := match p.dies with | .q2 => 15000 | .q4 => 30000 | .q8 => 60000

/-- R299: the reset image of the stream parameters, word `w`. -/
def iplResetWord (w : Nat) : Nat :=
  let tone (i : Nat) : Nat := if i < 64 then 64 * i else if i = 64 then 4095 else 0
  if w = 3 ∨ w = 4 then 0x10001000
  else if w = 6 ∨ w = 8 ∨ w = 10 then 0x1000
  else if 11 ≤ w ∧ w ≤ 43 then tone (2 * (w - 11)) + tone (2 * (w - 11) + 1) * 65536
  else 0

/-- R14: the value of a register after a power-on reset. -/
def resetVal (p : Part) (r : RegId) : BitVec 64 :=
  match r.name with
  | .idConfig => BitVec.ofNat 64
      (p.masts + (if p.industrial then 8 else 0) + p.hrChannels * 16 + p.csiPorts * 256 + p.vencs * 2048)
  | .hrcChCfg => if r.k < p.hrChannels then 0xFF02 else 0xFF00
  | .pwrInsvc => BitVec.ofNat 64 (2 ^ (8 * p.masts) - 1 + 2 ^ 56 * (2 ^ p.masts - 1))
  | .iplStrParam => BitVec.ofNat 64 (iplResetWord r.l)
  | .secKeys => 0xF
  | .secLmsLeft => 0x100000
  | n => BitVec.ofNat 64 n.desc.reset

/-- The key of a register in sparse storage: its name stands in the lowest eight bits. -/
def RegId.key (r : RegId) : Nat := key4 r.i r.j r.k r.l * 256 + r.name.ctorIdx

/-- A key is that of a register with this name. -/
def isKeyOf (n : RegName) (k : Nat) : Bool := decide (k % 256 = n.ctorIdx)

/-- The Stay blocks with base and size in BAR0. -/
def stayBlocks : List (Block × Nat × Nat) :=
  [(Block.id, 0, 0x10000), (Block.tick, 0x10000, 0x10000), (Block.qm, 0x20000, 0x20000), (Block.evt, 0x40000, 0x40000),
   (Block.pwr, 0x80000, 0x40000), (Block.sec, 0xC0000, 0x40000), (Block.adm, 0x100000, 0x100000),
   (Block.strm, 0x200000, 0x100000), (Block.datt, 0x300000, 0x100000), (Block.hrc, 0x400000, 0x100000),
   (Block.ipl, 0x500000, 0x100000), (Block.venc, 0x600000, 0x100000), (Block.aud, 0x700000, 0x80000),
   (Block.gpio, 0x780000, 0x80000), (Block.xtree, 0x800000, 0x100000), (Block.usb4, 0x900000, 0x80000),
   (Block.eth, 0xA00000, 0x100000)]

/-- A place in a register block: the block, its mast or engine, its yard, the offset within it. -/
structure BlockOff where
  block : Block
  i : Nat
  j : Nat
  off : Nat
  deriving DecidableEq, Repr

/-- The block that a BAR0 offset lies in (R326): Stay registers from 0, mast m from 0x100_0000 + m × 0x40_0000. -/
def blockAt (off : Nat) : Option BlockOff :=
  if off < 0x1000000 then
    match stayBlocks.find? fun e => decide (e.2.1 ≤ off ∧ off < e.2.1 + e.2.2) with
    | some (b, base, _) => some ⟨b, if b = .strm then 7 else 0, 0, off - base⟩
    | none => none
  else
    let m := (off - 0x1000000) / 0x400000
    let o := (off - 0x1000000) % 0x400000
    if 7 ≤ m then none
    else if 0x10000 ≤ o ∧ o < 0x20000 then some ⟨.cc, m, 0, o - 0x10000⟩
    else if 0x20000 ≤ o ∧ o < 0x30000 then some ⟨.strm, m, 0, o - 0x20000⟩
    else if 0x40000 ≤ o ∧ o < 0x60000 then some ⟨.yard, m, (o - 0x40000) / 0x4000, (o - 0x40000) % 0x4000⟩
    else if 0x80000 ≤ o ∧ o < 0x90000 then some ⟨.flag, m, 0, o - 0x80000⟩
    else none

/-- The indices at which a row of a register table names offset `o`, with the word of it (0 low, 1 high). -/
def RegDesc.at (d : RegDesc) (o : Nat) : Option (Nat × Nat × Nat) :=
  if o < d.base then none
  else
    let r := o - d.base
    let k := if d.s1 = 0 then 0 else r / d.s1
    let r := if d.s1 = 0 then r else r % d.s1
    let l := if d.s2 = 0 then 0 else r / d.s2
    let r := if d.s2 = 0 then r else r % d.s2
    if k < d.n1 ∧ l < d.n2 ∧ (r = 0 ∨ r = 4 ∧ d.bytes = 8) then some (k, l, r / 4) else none

/-- The first register of a list of names that block offset `b` names. -/
def regIn (b : BlockOff) : List RegName → Option (RegId × Nat)
  | [] => none
  | n :: ns =>
    if n.desc.block = b.block then
      match n.desc.at b.off with
      | some (k, l, w) => some (⟨n, b.i, b.j, k, l⟩, w)
      | none => regIn b ns
    else regIn b ns

/-- The register at a BAR0 offset, and which word of it. -/
def regAt (off : Nat) : Option (RegId × Nat) :=
  match blockAt off with
  | some b => regIn b RegName.all
  | none => none

/-- The die a mast register belongs to. -/
def RegId.mast (r : RegId) : Option Nat :=
  match r.name.desc.block with
  | .yard | .cc | .flag => some r.i
  | .strm => if r.i < 7 then some r.i else none
  | _ => none

/-- R5: the register's unit is present on the order code; the source table exists in engine 7 only. -/
def Part.has (p : Part) (r : RegId) : Bool :=
  match r.mast with
  | some m => decide (m < p.masts) && !(match r.name with
    | .strmSrcBase0 | .strmSrcBase1 | .strmSrcDim | .strmSrcCtl => true
    | _ => false)
  | none =>
    match r.name with
    | .hrcChCfg | .hrcChTrain | .hrcChRetryCnt | .hrcChCeCnt | .hrcChUeCnt | .hrcChUeAddr | .hrcChRecalCnt | .hrcSlot =>
      decide (r.k < p.hrChannels)
    | .iplCsiStat | .iplCsiCrcCnt => decide (r.k < p.csiPorts)
    | _ => true

end Sys2Proof.Machine
end

