-- ==== Sys2Proof/Machine/Ops.lean ====
section
/-! DEFINITION. The named operations over registers, counters, events, time and memory that every command's meaning is written
over. -/

namespace Sys2Proof.Machine

/-! ### Registers -/

/-- A register of a block with one instance. -/
def rid (n : RegName) (k : Nat := 0) (l : Nat := 0) : RegId := ⟨n, 0, 0, k, l⟩
/-- A register of mast `m`. -/
def mreg (n : RegName) (m : Nat) (k : Nat := 0) : RegId := ⟨n, m, 0, k, 0⟩
/-- A register of yard `y` of mast `m`. -/
def yreg (n : RegName) (m y : Nat) (k : Nat := 0) (l : Nat := 0) : RegId := ⟨n, m, y, k, l⟩
/-- A register of the Stay stream engine. -/
def sreg (n : RegName) (k : Nat := 0) (l : Nat := 0) : RegId := ⟨n, 7, 0, k, l⟩

namespace State

/-- What a register holds. -/
def reg (s : State) (r : RegId) : BitVec 64 := SMap.get 0 s.regs r.key ^^^ resetVal s.part r

/-- What a register held when the nanosecond in hand began (R12). -/
def regWas (s : State) (r : RegId) : BitVec 64 := SMap.get 0 s.was r.key ^^^ resetVal s.part r

/-- Storing into a register. -/
def setReg (s : State) (r : RegId) (v : BitVec 64) : State :=
  { s with regs := SMap.set 0 s.regs r.key (v ^^^ resetVal s.part r) }

/-- Field [lo + w − 1 : lo] of a register. -/
def get (s : State) (r : RegId) (lo w : Nat) : Nat := fld (s.reg r) lo w

/-- Writing field [lo + w − 1 : lo] of a register. -/
def put (s : State) (r : RegId) (lo w x : Nat) : State := s.setReg r (setFld (s.reg r) lo w x)

/-- Setting bits of a register. -/
def setBits (s : State) (r : RegId) (m : BitVec 64) : State := s.setReg r (s.reg r ||| m)

/-- Clearing bits of a register. -/
def clearBits (s : State) (r : RegId) (m : BitVec 64) : State := s.setReg r (s.reg r &&& ~~~m)

/-- Table 2.2: adding to a saturating counter field. -/
def bump (s : State) (r : RegId) (n : Nat := 1) (lo : Nat := 0) (w : Nat := 32) : State :=
  s.put r lo w (satAdd w (s.get r lo w) n)

/-- Table 2.2: adding to a 48-bit performance counter. -/
def perf (s : State) (r : RegId) (n : Nat) : State := s.setReg r (perfAdd (s.reg r) n)

/-- Every register of a name takes its reset value. -/
def clearAll (s : State) (n : RegName) : State := { s with regs := SMap.restrict (fun k => !isKeyOf n k) s.regs }

/-- Every register of a name whose reset value is zero keeps the bits of a mask. -/
def maskAll (s : State) (n : RegName) (m : BitVec 64) : State :=
  let f (e : Nat × BitVec 64) : Option (Nat × BitVec 64) :=
    if isKeyOf n e.1 then (if e.2 &&& m = 0 then none else some (e.1, e.2 &&& m)) else some e
  { s with regs := s.regs.filterMap f }

/-! ### Time -/

/-- The global counter as a number of nanoseconds. -/
def now (s : State) : Nat := s.gcnt.toNat

/-- The operating point (R411). -/
def opPoint (s : State) : Nat := s.get (rid .pwrState) 2 2

end State

/-- R10: whole cycles in `ns` nanoseconds at an operating point. -/
def cyclesOf (op ns : Nat) : Nat := if op = 0 then ns else if op = 1 then ns * 4 / 5 else ns / 2

/-- R10: the nanoseconds of `c` cycles at an operating point, rounded up. -/
def nsOf (op c : Nat) : Nat := if op = 0 then c else if op = 1 then (c * 5 + 3) / 4 else c * 2

namespace State

/-- R31: the tick period in ns. -/
def period (s : State) : Nat := s.get (rid .tickPeriod) 0 17 * 1000
/-- R31: the guard in ns. -/
def guardLen (s : State) : Nat := s.period * s.get (rid .tickGuard) 0 4 / 100
/-- R44: the tick value. -/
def t48 (s : State) : Nat := s.get (rid .tickNum) 0 48
/-- The current tick's start. -/
def tickStart (s : State) : Nat := (s.reg (rid .tickLast)).toNat
/-- R32: the tick-relative cycle. -/
def cycle (s : State) : Nat := cyclesOf s.opPoint (s.now - s.tickStart)
/-- R10: the instant at which cycle `c` of the tick begins: cycles stand on one grid from the tick's start. -/
def atCycle (s : State) (c : Nat) : Nat := s.tickStart + nsOf s.opPoint c
/-- The instant of the cycle `c` cycles after this one. -/
def afterCycles (s : State) (c : Nat) : Nat := s.atCycle (s.cycle + c)
/-- A cycle begins in this nanosecond. -/
def cycleStarts (s : State) : Bool := decide (s.now = s.tickStart) || decide (cyclesOf s.opPoint (s.now - 1 - s.tickStart) ≠ s.cycle)

/-- A tick is in its work window (R31). -/
def inWork (s : State) : Bool := decide (s.tick.phase = .work)

/-- A guard from its step 6 on, or no tick runs (R35, R240, R258). -/
def atStep6 (s : State) : Bool :=
  decide (s.tick.phase = .stopped) || decide (s.tick.phase = .waiting) ||
    (decide (s.tick.phase = .guard) && decide (2 ≤ s.tick.stage))

/-! ### Free values -/

/-- Taking `n` free values. -/
def takeFree (s : State) (n : Nat := 1) : State := { s with free := s.free + n }

/-! ### Events (R341, R342) -/

/-- The FIFO of a die and a group. -/
def fifoKey (die code : Nat) : Nat := die * 256 + code / 256 % 256

/-- R341: an EVT_LOST record takes the free place of a FIFO that has lost records. -/
def placeLost (s : State) (key : Nat) : State :=
  let q := SMap.get [] s.events.fifos key
  let n := SMap.get 0 s.events.lost key
  if n = 0 ∨ 16 ≤ q.length then s
  else
    let e : Event := { code := 0x0706, die := BitVec.ofNat 8 (key / 256), unit := 0xFF, handle := 0xFFFF,
                       arg16 := BitVec.ofNat 16 (min n 0xFFFF), arg64 := BitVec.ofNat 64 (key % 256), time := s.gcnt }
    { s with events := { s.events with fifos := SMap.set [] s.events.fifos key (q ++ [e]),
                                       lost := SMap.set 0 s.events.lost key 0 } }

/-- R341: a record enters its FIFO, or is lost where the FIFO is full. -/
def enterFifo (s : State) (key : Nat) (e : Event) : State :=
  let q := SMap.get [] s.events.fifos key
  if q.length < 16 then { s with events := { s.events with fifos := SMap.set [] s.events.fifos key (q ++ [e]) } }
  else ({ s with events := { s.events with lost := SMap.set 0 s.events.lost key (SMap.get 0 s.events.lost key + 1) } }.bump
    (rid .evtLostCnt)).setBits (rid .evtStat) 1

/-- R342: raising an event. -/
def raise (s : State) (code die unit handle arg16 arg64 : Nat) : State :=
  let key := fifoKey die code
  let e : Event := { code := BitVec.ofNat 16 code, die := BitVec.ofNat 8 die, unit := BitVec.ofNat 8 unit,
                     handle := BitVec.ofNat 16 handle, arg16 := BitVec.ofNat 16 arg16, arg64 := BitVec.ofNat 64 arg64,
                     time := s.gcnt }
  let s := (s.placeLost key).enterFifo key e
  { s with events := { s.events with last := BitVec.ofNat 16 code } }

/-- The records of an event raised in this nanosecond, not yet taken, are brought up to date. -/
def amend (s : State) (code die : Nat) (sel : Event → Bool) (f : Event → Event) : State :=
  let key := fifoKey die code
  let q := (SMap.get [] s.events.fifos key).map fun e =>
    if e.code = BitVec.ofNat 16 code ∧ e.die = BitVec.ofNat 8 die ∧ e.time = s.gcnt ∧ sel e then f e else e
  { s with events := { s.events with fifos := SMap.set [] s.events.fifos key q } }

/-! ### Memory -/

/-- One byte of memory by package address; an unlisted byte reads zero (log entry 6). -/
def byte (s : State) (a : Nat) : Byte := SMap.get 0 s.mem a

/-- `n` bytes from address `a`. -/
def bytes (s : State) (a n : Nat) : List Byte := (List.range n).map fun i => s.byte (a + i)

/-- The little-endian number of `n` bytes at `a`. -/
def load (s : State) (a n : Nat) : Nat := leAt (s.bytes a n) 0 n

/-- Check state of the 8-byte word at `a` (R112). -/
def eccAt (s : State) (a : Nat) : Nat := SMap.get 0 s.ecc (a / 8)

/-- The worst check state of the words of `n` bytes from `a`. -/
def eccOver (s : State) (a n : Nat) : Nat :=
  (List.range ((a + n + 7) / 8 - a / 8)).foldl (fun w i => max w (SMap.get 0 s.ecc (a / 8 + i))) 0

/-- Storing bytes without regard to check bits. -/
def poke (s : State) (a : Nat) (bs : List Byte) : State :=
  { s with mem := SMap.setRange 0 (fun i => bs.getD i 0) a bs.length s.mem }

end State

/-- Where a package address lies (R107, R124, R361, R283). -/
inductive Region where
  | yard (m y off : Nat)
  | stay (off : Nat)
  | hyper (off : Nat)
  | host (page off : Nat)
  | nowhere
  deriving DecidableEq, Repr

/-- The region of a package address. -/
def regionOf (a : Nat) : Region :=
  if 0x100000000 ≤ a ∧ a < 0x170000000 then
    let o := a - 0x100000000
    if o % 0x10000000 < 0x4000000 then .yard (o / 0x10000000) (o % 0x10000000 / 0x800000) (o % 0x800000) else .nowhere
  else if 0x10000000 ≤ a ∧ a < 0x13000000 then .stay (a - 0x10000000)
  else if 0x200000000 ≤ a ∧ a < 0x240000000 then .hyper (a - 0x200000000)
  else if 0x1000000000 ≤ a ∧ a < 0x1200000000 then .host ((a - 0x1000000000) / 4096) (a % 4096)
  else .nowhere

/-- R107: the package address of yard offset `off`. -/
def yardAddr (m y off : Nat) : Nat := 0x100000000 + m * 0x10000000 + y * 0x800000 + off

/-- R124: the regions of Stay SRAM as package addresses. -/
def dattBase : Nat := 0x10000000
def descBase : Nat := 0x11000000
def mediaBase : Nat := 0x11200000
def mediaEnd : Nat := 0x12200000

namespace State

/-- R141: an armed injection flips bits of the codeword at the next write to its word: the check state it leaves. -/
def injectAt (s : State) (a : Nat) : Option (Nat × RegId) :=
  match regionOf a with
  | .yard m y off =>
    let r := yreg .yardEccInj m y
    let v := s.reg r
    if bit v 23 && decide (fld v 3 20 = off / 8) then
      let b := s.reg (yreg .yardEccInjBits m y)
      some (if bit v 24 then (if fld b 0 7 = fld b 8 7 then 0 else 2) else 1, r)
    else none
  | _ => none

/-- The check state that a write leaves in word `w` (R110, R112): a write of the whole word leaves it right, or as an armed
injection leaves it; a partial write of an uncorrectable word leaves it uncorrectable. -/
def eccWrite (s : State) (a n w : Nat) : State :=
  let whole := decide (a ≤ 8 * w ∧ 8 * w + 8 ≤ a + n)
  let old := SMap.get 0 s.ecc w
  match s.injectAt (8 * w) with
  | some (e, r) =>
    { s with ecc := SMap.set 0 s.ecc w (if !whole && old = 2 then 2 else e) }.put r 23 1 0
  | none => { s with ecc := SMap.set 0 s.ecc w (if !whole && old = 2 then 2 else 0) }

/-- The check states of `k` words from word `w`. -/
def eccWrites (s : State) (a n w : Nat) : Nat → State
  | 0 => s
  | k + 1 => (s.eccWrites a n w k).eccWrite a n (w + k)

/-- A write of memory: the bytes and the check state of every word it touches. -/
def store (s : State) (a : Nat) (bs : List Byte) : State :=
  if bs.isEmpty then s
  else (s.poke a bs).eccWrites a bs.length (a / 8) ((a + bs.length + 7) / 8 - a / 8)

/-- The check states of the words from `w` on. -/
def putEcc (s : State) (w : Nat) (es : List Nat) : State := { s with ecc := SMap.setRange 0 (fun i => es.getD i 0) w es.length s.ecc }
/-- A word is poisoned. -/
def poisonWord (s : State) (w : Nat) : State := { s with ecc := SMap.set 0 s.ecc w 2 }

/-- Filling `n` bytes with zero and right check bits (R117, R125). -/
def zeroFill (s : State) (a n : Nat) : State :=
  { s with mem := SMap.restrict (fun k => decide (k < a ∨ a + n ≤ k)) s.mem
           ecc := SMap.restrict (fun k => decide (8 * k < a ∨ a + n ≤ 8 * k)) s.ecc }

/-! ### Programs, masts and units -/

/-- YARD_CHAIN of yard `y`: the bits it has: yard 7 has no link out, yard 0 none in (R94, R106). -/
def chainMask (y : Nat) : Nat := (if y = 7 then 0 else 1) + (if y = 0 then 0 else 2)

/-- The program record of number `p`. -/
def prog (s : State) (p : Nat) : Prog := SMap.get {} s.progs p
def setProg (s : State) (p : Nat) (g : Prog) : State := { s with progs := SMap.set {} s.progs p g }
def ctx (s : State) (p : Nat) : Ctx := (s.prog p).ctx
def setCtx (s : State) (p : Nat) (c : Ctx) : State := s.setProg p { s.prog p with ctx := c }

/-- ADM_PROGn_A.state: 0 empty, 1 admitted and not launched, 2 running, 3 struck. -/
def progState (s : State) (p : Nat) : Nat := s.get (rid .admProgA p) 0 2
def admitted (s : State) (p : Nat) : Bool := decide (p < 64) && decide (s.progState p ≠ 0)
/-- R256: the current handle of a program number, 0xFFFF where none is admitted. -/
def handle (s : State) (p : Nat) : Nat := if s.admitted p then s.get (rid .admProgA p) 16 16 else 0xFFFF
/-- The masts a program uses (ADM_PROGn_A.masts). -/
def progMasts (s : State) (p : Nat) : List Nat :=
  (List.range 7).filter fun m => bit (s.reg (rid .admProgA p)) (3 + m)
/-- The admitted programs in ascending number. -/
def admittedList (s : State) : List Nat := (List.range 64).filter s.admitted
def anyAdmitted (s : State) : Bool := !s.admittedList.isEmpty

/-- The program slot of a program on a mast (R202). -/
def slotOn (s : State) (p m : Nat) : Nat :=
  match (s.prog p).place.slots.find? fun e => decide (e.1 = m) with
  | some (_, k) => k
  | none => 0
/-- The program in slot `k` of mast `m`. -/
def progAt (s : State) (m k : Nat) : Option Nat :=
  s.admittedList.find? fun p => (s.prog p).place.slots.any fun e => decide (e = (m, k))
/-- The program that owns yard `y` of mast `m` (R203). -/
def yardOwner (s : State) (m y : Nat) : Option Nat :=
  s.admittedList.find? fun p => (s.prog p).place.yards.any fun e => decide (e = 8 * m + y)

/-- R103: the yard is present and in service. -/
def yardIn (s : State) (m y : Nat) : Bool :=
  decide (m < s.part.masts) && decide (y < 8) && bit (s.reg (rid .pwrInsvc)) (8 * m + y)
def mastIn (s : State) (m : Nat) : Bool := decide (m < s.part.masts) && bit (s.reg (rid .pwrInsvc)) (56 + m)
/-- PWR_DOM_ONw, PWR_DOM_ENw, PWR_DOM_RETw: domain `d` (R408). -/
def domOn (s : State) (d : Nat) : Bool := bit (s.reg (rid .pwrDomOn (d / 32))) (d % 32)
def setDom (s : State) (d : Nat) (on : Bool) : State := s.put (rid .pwrDomOn (d / 32)) (d % 32) 1 (if on then 1 else 0)

/-- R409: a yard in service whose logic is powered: its registers answer. -/
def yardOn (s : State) (m y : Nat) : Bool := s.yardIn m y && s.domOn (20 * m + y)

def yard (s : State) (m y : Nat) : YardSt := SMap.get {} s.yards (8 * m + y)
def setYard (s : State) (m y : Nat) (v : YardSt) : State := { s with yards := SMap.set {} s.yards (8 * m + y) v }
def sail (s : State) (m y n : Nat) : SailSt := SMap.get {} (s.yard m y).sails n
def setSail (s : State) (m y n : Nat) (v : SailSt) : State :=
  s.setYard m y { s.yard m y with sails := SMap.set {} (s.yard m y).sails n v }
def boom (s : State) (m y n : Nat) : BoomSt := SMap.get {} (s.yard m y).booms n
def setBoom (s : State) (m y n : Nat) (v : BoomSt) : State :=
  s.setYard m y { s.yard m y with booms := SMap.set {} (s.yard m y).booms n v }

/-! ### Faults of a tick (R52, R232, R463) -/

/-- A condition of the program's tick (Table 16.1): 0 retried, 1 supply, 2 quality, 3 overrun, 4 fault. -/
def setCond (s : State) (p n : Nat) : State :=
  let c := s.ctx p
  s.setCtx p { c with conds := c.conds ||| BitVec.ofNat 5 (2 ^ n) }

/-- R463: a first record: kept while its W1C bit is set. -/
def firstRecord (s : State) (bitReg : RegId) (n : Nat) (write : State → State) : State :=
  if bit (s.reg bitReg) n then s else (write s).setBits bitReg (BitVec.ofNat 64 (2 ^ n))

/-- R232: a fault of program `p`'s tick: INVALID_FAULT, and the first-fault record of its context on mast `m`. -/
def faultOn (s : State) (p m kind idx : Nat) : State :=
  let k := s.slotOn p m
  (s.setCond p 4).firstRecord (mreg .ccCtxFault m k) 0 fun s =>
    ((s.put (mreg .ccCtxFault m k) 1 3 kind).put (mreg .ccCtxFault m k) 16 16 idx).put (mreg .ccCtxFaultCyc m k) 0 27 s.cycle

/-- The lowest-numbered mast of a program (R39, R215). -/
def firstMast (s : State) (p : Nat) : Nat := (s.progMasts p).headD 0

/-- A fault raised by another unit (kind 6): every mast's context of the program records it at the index in hand. -/
def unitFault (s : State) (p : Nat) : State :=
  (s.progMasts p).foldl (fun s m => s.faultOn p m 6 (s.ctx p).idx) (s.setCond p 4)

/-- Every program of a list that runs in the tick gives INVALID_FAULT. -/
def unitFaults (s : State) (ps : List Nat) : State := (ps.filter fun p => (s.ctx p).active).foldl unitFault s

/-- The emergency of R418. -/
def dieHot (s : State) : Bool := (List.range 8).any fun d => bit (s.reg (rid .pwrTherm d)) 13
def emergency (s : State) : Bool := s.dieHot || bit (s.reg (rid .pwrSupply)) 0

/-- A firmware processor runs (PWR_FWp.state): 0 SP, 1 MP, 2 TP, 3 + m supervisor of mast m. -/
def fwRuns (s : State) (p : Nat) : Bool := decide (s.get (rid .pwrFw p) 0 2 = 0)

/-- The instants of `ts` within the last `span` nanoseconds. -/
def recent (s : State) (ts : List Nat) (span : Nat) : List Nat := ts.filter fun t => decide (s.now < t + span)

/-- R427: the MP is to take a unit out of service at step 6. -/
def askOut (s : State) (unit : Nat) : State :=
  if s.power.outPending.contains unit then s
  else { s with power := { s.power with outPending := s.power.outPending ++ [unit] } }

/-- R347, R349: a downhaul has struck programs and no restart has cleared it. -/
def struck (s : State) : Bool := bit (s.reg (rid .qmDhStat)) 0

end State
end Sys2Proof.Machine
end

