-- ==== Sys2Proof/Machine/Access.lean ====
section
/-! DEFINITION. Requesters (R15, R16): the latch and holding register each has for a 64-bit register. -/

namespace Sys2Proof

/-- A requester as a number. -/
def Requester.code : Requester → Nat
  | .host => 0
  | .mp => 1
  | .sp => 2
  | .tp => 3
  | .ms m => 4 + m

end Sys2Proof

namespace Sys2Proof.Machine

/-- The place of a requester's latch and holding register for the register at `off`. -/
def holdKey (rq : Requester) (off : Nat) : Nat := key2 (Requester.code rq) off

namespace State

/-- The low word a requester holds for the register at `off` (R16). -/
def held (s : State) (rq : Requester) (off : Nat) : Option (BitVec 32) := SMap.get none s.hold (holdKey rq off)
def setHeld (s : State) (rq : Requester) (off : Nat) (v : Option (BitVec 32)) : State :=
  { s with hold := SMap.set none s.hold (holdKey rq off) v }

/-- The high word a requester has latched with a read of the low word (R15). -/
def latched (s : State) (rq : Requester) (off : Nat) : BitVec 32 := SMap.get 0 s.latch (holdKey rq off)
def setLatched (s : State) (rq : Requester) (off : Nat) (v : BitVec 32) : State :=
  { s with latch := SMap.set 0 s.latch (holdKey rq off) v }

/-- The PCIe tunnel carries accesses: it is up and the function is in D0 (R328). -/
def hostUp (s : State) : Bool := bit (s.reg (rid .usb4Link)) 2 && !bit (s.reg (rid .usb4Link)) 5

/-- R324: a host transaction brings the link to CL0. -/
def hostTouch (s : State) : State := s.put (rid .usb4Link) 3 2 0

/-- An access of the host through a BAR (R328): it reaches the device only while the tunnel is up and the function is in D0. -/
def viaHost (s : State) (f : State → State) : State := if s.hostUp then f s.hostTouch else s

/-- An access of any requester: the host's comes through a BAR. -/
def viaReq (s : State) (rq : Requester) (f : State → State) : State := if rq = .host then s.viaHost f else f s

end State
end Sys2Proof.Machine
end

