-- ==== Sys2Proof/Machine/Fp32.lean ====
section
/-! DEFINITION. FP32 and BF16 arithmetic of the part (R62, R71, R156, R162): exact values as a whole number times a power of
two, one rounding to nearest even, the flush of subnormals, and the filters that saturate. A number is its 32 bits. -/

namespace Sys2Proof.Machine.Fp

/-- The largest finite FP32 (R71, FMAX). -/
def fmax : Word := 0x7F7FFFFF
/-- The canonical NaN. -/
def nan : Word := 0x7FC00000
/-- +0.0 -/
def zero : Word := 0
/-- 1.0 -/
def one : Word := 0x3F800000

def neg (x : Word) : Bool := x.getLsbD 31
def expo (x : Word) : Nat := x.toNat / 2 ^ 23 % 256
def frac (x : Word) : Nat := x.toNat % 2 ^ 23
def isNan (x : Word) : Bool := expo x == 255 && frac x != 0
def isInf (x : Word) : Bool := expo x == 255 && frac x == 0
def isFinite (x : Word) : Bool := expo x != 255
def isSubnormal (x : Word) : Bool := expo x == 0 && frac x != 0
/-- +0.0 or −0.0 -/
def isZero (x : Word) : Bool := expo x == 0 && frac x == 0

/-- The zero of a sign. -/
def zeroOf (s : Bool) : Word := if s then 0x80000000 else 0
/-- The infinity of a sign. -/
def infOf (s : Bool) : Word := if s then 0xFF800000 else 0x7F800000
/-- ±FMAX -/
def fmaxOf (s : Bool) : Word := if s then 0xFF7FFFFF else 0x7F7FFFFF

/-- R62: a subnormal operand or result becomes zero of the same sign. -/
def flush (x : Word) : Word := if expo x = 0 then zeroOf (neg x) else x

/-- A whole number times a power of two. -/
structure Dyadic where
  m : Int
  e : Int
  deriving DecidableEq, Repr

/-- The exact value of a finite FP32. -/
def val (x : Word) : Dyadic :=
  let m : Int := if expo x = 0 then frac x else 2 ^ 23 + frac x
  let e : Int := if expo x = 0 then -149 else (expo x : Int) - 150
  ⟨if neg x then -m else m, e⟩

/-- The exact sum. -/
def Dyadic.add (a b : Dyadic) : Dyadic :=
  let e := min a.e b.e
  ⟨a.m * 2 ^ (a.e - e).toNat + b.m * 2 ^ (b.e - e).toNat, e⟩

/-- The exact product. -/
def Dyadic.mul (a b : Dyadic) : Dyadic := ⟨a.m * b.m, a.e + b.e⟩

/-- The order of exact values. -/
def Dyadic.lt (a b : Dyadic) : Bool :=
  let e := min a.e b.e
  decide (a.m * 2 ^ (a.e - e).toNat < b.m * 2 ^ (b.e - e).toNat)

/-- Round to nearest even the magnitude `m · 2^e`, or, when `sticky`, a magnitude strictly between `m · 2^e` and
`(m + 1) · 2^e` (for which `m` has at least 26 bits). Overflow gives infinity, underflow a subnormal. -/
def roundMag (s : Bool) (m : Nat) (e : Int) (sticky : Bool := false) : Word :=
  if m = 0 then zeroOf s else
  let q : Int := max (e + (Nat.log2 m : Int) - 23) (-149)
  let hi : Nat :=
    if q ≤ e then m * 2 ^ (e - q).toNat
    else
      let sh := (q - e).toNat
      let h := m / 2 ^ sh
      let r := m % 2 ^ sh
      let half := 2 ^ (sh - 1)
      if half < r || (r == half && (sticky || h % 2 == 1)) then h + 1 else h
  let bits : Nat := (q + 149).toNat * 2 ^ 23 + hi
  let bits := if bits < 0x7F800000 then bits else 0x7F800000
  BitVec.ofNat 32 (if s then 2 ^ 31 + bits else bits)

/-- Round an exact value; an exact zero takes the sign `zs`. -/
def round (d : Dyadic) (zs : Bool := false) : Word :=
  if d.m = 0 then zeroOf zs else roundMag (decide (d.m < 0)) d.m.natAbs d.e

/-- IEEE 754 addition, rounded once. -/
def addRne (x y : Word) : Word :=
  if isNan x || isNan y then nan
  else if isInf x then (if isInf y && neg x != neg y then nan else x)
  else if isInf y then y
  else round ((val x).add (val y)) (neg x && neg y)

/-- Negation: the sign bit inverted. -/
def negate (x : Word) : Word := x ^^^ 0x80000000
/-- Magnitude: the sign bit cleared. -/
def absv (x : Word) : Word := x &&& 0x7FFFFFFF

def subRne (x y : Word) : Word := addRne x (negate y)

/-- IEEE 754 multiplication, rounded once. -/
def mulRne (x y : Word) : Word :=
  let s := neg x != neg y
  if isNan x || isNan y then nan
  else if isInf x || isInf y then (if isZero x || isZero y then nan else infOf s)
  else round ((val x).mul (val y)) s

/-- IEEE 754 fused multiply-add x × y + z, rounded once. -/
def fmaRne (x y z : Word) : Word :=
  let s := neg x != neg y
  if isNan x || isNan y || isNan z then nan
  else if isInf x || isInf y then
    if isZero x || isZero y then nan
    else if isInf z && neg z != s then nan else infOf s
  else if isInf z then z
  else round (((val x).mul (val y)).add (val z)) (s && neg z)

/-- IEEE 754 division, rounded once. -/
def divRne (x y : Word) : Word :=
  let s := neg x != neg y
  if isNan x || isNan y then nan
  else if isInf x then (if isInf y then nan else infOf s)
  else if isInf y then zeroOf s
  else if isZero y then (if isZero x then nan else infOf s)
  else if isZero x then zeroOf s
  else
    let a := (val x).m.natAbs * 2 ^ 60
    let b := (val y).m.natAbs
    roundMag s (a / b) ((val x).e - (val y).e - 60) (a % b != 0)

/-- The whole part of the square root, found bit by bit from the top. -/
def isqrt (n : Nat) : Nat → Nat → Nat
  | 0, r => r
  | k + 1, r => if (r + 2 ^ k) * (r + 2 ^ k) ≤ n then isqrt n k (r + 2 ^ k) else isqrt n k r

/-- IEEE 754 square root, rounded once. -/
def sqrtRne (x : Word) : Word :=
  if isNan x then nan
  else if isZero x then x
  else if neg x then nan
  else if isInf x then x
  else
    let d := val x
    -- an even exponent, and enough bits below the point
    let sh : Nat := if d.e % 2 = 0 then 60 else 61
    let n := d.m.natAbs * 2 ^ sh
    let r := isqrt n 44 0
    roundMag false r ((d.e - sh) / 2) (r * r != n)

/-- Conversion of a whole number, rounded once. -/
def ofInt (i : Int) : Word := round ⟨i, 0⟩

/-- x < y as FP32: false if either is NaN; −0.0 equals +0.0 (Table 7.14). -/
def lt (x y : Word) : Bool :=
  if isNan x || isNan y then false
  else if isInf x then neg x && !(isInf y && neg y)
  else if isInf y then !neg y
  else (val x).lt (val y)

/-- Equality as FP32. -/
def eqv (x y : Word) : Bool :=
  if isNan x || isNan y then false else !(lt x y) && !(lt y x)

/-- x ≤ y as FP32. -/
def le (x y : Word) : Bool := lt x y || eqv x y

/-- Round half to even to a whole number; the value must be finite. -/
def roundInt (x : Word) : Int :=
  let d := val x
  if 0 ≤ d.e then d.m * 2 ^ d.e.toNat
  else
    let sh := (-d.e).toNat
    let m := d.m.natAbs
    let h := m / 2 ^ sh
    let r := m % 2 ^ sh
    let half := 2 ^ (sh - 1)
    let n : Nat := if half < r || (r == half && h % 2 == 1) then h + 1 else h
    if d.m < 0 then -(n : Int) else n

/-- The largest whole number not above the value. -/
def floorInt (x : Word) : Int :=
  let d := val x
  if 0 ≤ d.e then d.m * 2 ^ d.e.toNat else d.m / 2 ^ (-d.e).toNat

/-- A whole number held within a range. -/
def clampInt (lo hi i : Int) : Int := if i < lo then lo else if hi < i then hi else i

/-- Whole number nearest even within a range, infinities at its ends; NaN gives 0. The flag says that the value lay outside
or was NaN. -/
def toIntSat (lo hi : Int) (x : Word) : Int × Bool :=
  if isNan x then (0, true)
  else if isInf x then (if neg x then lo else hi, true)
  else let i := roundInt x; (clampInt lo hi i, i < lo || hi < i)

/-- R62: BF16 widens by sixteen zero bits. -/
def ofBf16 (b : BitVec 16) : Word := b ++ (0 : BitVec 16)

/-- f32_to_bf16_rne with the flush of R62; may give an infinity. -/
def toBf16 (x : Word) : BitVec 16 :=
  if isNan x then 0x7FC0
  else
    let n := (flush x).toNat
    let h := n / 2 ^ 16
    let r := n % 2 ^ 16
    let h := if 2 ^ 15 < r || (r == 2 ^ 15 && h % 2 == 1) then h + 1 else h
    let b := BitVec.ofNat 16 h
    if b &&& 0x7F80 = 0 then b &&& 0x8000 else b

/-- A result that is flushed, and saturates where rounding of a finite value gave infinity: the value and whether it did
(R71 fin, R156 rf, R162). -/
def fin (x : Word) : Word × Bool :=
  if isInf x then (fmaxOf (neg x), true) else (flush x, false)

end Sys2Proof.Machine.Fp
end

