-- ==== Sys2Proof/Machine/Flags.lean ====
section
/-! DEFINITION. Conditions of compares, branches and selects (Table 7.14), the cause codes of the booms (R75, R76) and the status
bits that units set. -/

namespace Sys2Proof

open Machine

/-- Table 7.14, on two 32-bit values. -/
def Cond.holds (c : Cond) (a b : Word) : Bool :=
  match c with
  | .eq => a == b
  | .ne => a != b
  | .lt => a.slt b
  | .ge => !a.slt b
  | .ltu => a.ult b
  | .geu => !a.ult b
  | .flt => Fp.lt a b
  | .fge => !(Fp.isNan a) && !(Fp.isNan b) && !(Fp.lt a b)

end Sys2Proof

namespace Sys2Proof.Machine

/-- R75: the cause codes as bits of BOOM_STATUS. -/
def causeDerivedZero : Nat := 1
def causeDerivedRange : Nat := 2
def causeCombOvf : Nat := 4
def causeCombUnf : Nat := 8
def causeArithOvf : Nat := 16

/-- The union of two cause sets. -/
def causeOr (a b : Nat) : Nat := (BitVec.ofNat 5 a ||| BitVec.ofNat 5 b).toNat

/-- R432, Table 16.2: the status that a tick's conditions select. -/
def statusOf (c : BitVec 5) : Nat :=
  if c.getLsbD 4 then 5
  else if c.getLsbD 3 then 4
  else if c.getLsbD 1 then 2
  else if c.getLsbD 2 then 3
  else if c.getLsbD 0 then 1
  else 0

/-- R53: the statuses that commit. -/
def commits (status : Nat) : Bool := decide (status ≤ 3)

namespace State

/-- BOOM_LAST. -/
def bumpLast (s : State) (p m y sl slot causes : Nat) : State :=
  s.setReg (yreg .boomLast m y sl) (BitVec.ofNat 64
    ((if slot = 0xFFFF then 0 else slot) + s.slotOn p m * 2 ^ 9 + causes * 2 ^ 12 + (if slot = 0xFFFF then 2 ^ 17 else 0)))

/-- R76: SCALE_RANGE is raised for the first cause of a program, slot, mast and tick, and gives the quality condition. -/
def scaleFirst (s : State) (p m y sl slot causes : Nat) : State :=
  let c := s.ctx p
  let s := s.setCtx p { c with onceScale := ⟨m, slot, s.cycle, y, sl, causes⟩ :: c.onceScale, conds := c.conds ||| 0b00100 }
  (s.raise 0x0201 m y (s.handle p) slot (s.t48 % 2 ^ 48 + causes * 2 ^ 48)).bumpLast p m y sl slot causes

/-- R76: a unit that meets a first cause in the cycle of another's shares its event, which carries the bits of both. -/
def scaleJoin (s : State) (p m y sl slot causes : Nat) (e : ScaleMark) : State :=
  let both := causeOr e.causes causes
  let c := s.ctx p
  let s := s.setCtx p { c with onceScale := c.onceScale.map fun x => if x = e then { e with causes := both } else x }
  let h := s.handle p
  let s := s.amend 0x0201 m (fun v => decide (v.handle = BitVec.ofNat 16 h ∧ v.arg16 = BitVec.ofNat 16 slot))
    fun v => { v with arg64 := BitVec.ofNat 64 (s.t48 % 2 ^ 48 + both * 2 ^ 48) }
  (s.bumpLast p m e.yard e.boom slot both).bumpLast p m y sl slot both

/-- R76: a cause met while producing a tensor, or for the uncounted group. -/
def scaleRange (s : State) (p m y sl slot causes : Nat) : State :=
  match (s.ctx p).onceScale.find? fun e => decide (e.mast = m ∧ e.slot = slot) with
  | none => s.scaleFirst p m y sl slot causes
  | some e => if e.cycle = s.cycle then s.scaleJoin p m y sl slot causes e else s

/-- R75: a unit meets causes: it sets their bits in its BOOM_STATUS and raises SCALE_RANGE under R76. -/
def meetCauses (s : State) (p m y sl slot causes : Nat) : State :=
  if causes = 0 then s
  else (s.setBits (yreg .boomStatus m y sl) (BitVec.ofNat 64 causes)).scaleRange p m y sl slot causes

/-- R78: saturations and rounds to zero counted into entry `slot` of a yard's table. -/
def countInto (s : State) (m y slot sat rtz : Nat) : State :=
  (s.bump (yreg .boomCntSat m y slot) sat).bump (yreg .boomCntRtz m y slot) rtz

end State
end Sys2Proof.Machine
end

