-- ==== Sys2Proof/Machine/Boom.lean ====
section
/-! DEFINITION. The arithmetic of a sail pass and of the boom: decoding, the combined scale, the rescale step, the epilogue, the
quantiser and derived scales (R64 to R74), and the filter of a preload (R95). -/

namespace Sys2Proof.Machine

/-- What a computation tells its unit beside its value: saturations and rounds to zero (R78), cause bits (R75), status bits of the
vector or reef unit. -/
structure Tally where
  sat : Nat := 0
  rtz : Nat := 0
  causes : Nat := 0
  status : Nat := 0
  deriving DecidableEq, Repr

/-- Two tallies together. -/
def Tally.add (a b : Tally) : Tally := ⟨a.sat + b.sat, a.rtz + b.rtz, causeOr a.causes b.causes, causeOr a.status b.status⟩

/-- Values computed one by one, with the tally of all. -/
def tallied {α β : Type} (f : α → β × Tally) (l : List α) : List β × Tally :=
  (l.map fun x => (f x).1, l.foldl (fun t x => t.add (f x).2) {})

/-- R71, fin: flush, and saturate where rounding gave infinity. -/
def finC (x : Word) : Word × Tally :=
  let (v, ovf) := Fp.fin x
  (v, if ovf then { causes := causeArithOvf } else {})

/-- R71, comb_scale: the exact product of two BF16 scales, held in the normal range. -/
def combScale (sa sw : BitVec 16) : Word × Tally :=
  let d := (Fp.val (Fp.flush (Fp.ofBf16 sa))).mul (Fp.val (Fp.flush (Fp.ofBf16 sw)))
  if (Fp.val Fp.fmax).lt d then (Fp.fmax, { causes := causeCombOvf })
  else if d.lt (Fp.val 0x00800000) then (Fp.zero, { causes := causeCombUnf })
  else (Fp.round d, {})

/-- R71, rescale: one partial of a group joins the accumulator. -/
def rescale (p : Int) (sa sw : BitVec 16) (first : Bool) (acc : Word) : Word × Tally :=
  let (s, t) := combScale sa sw
  let (y, u) := finC (Fp.fmaRne (Fp.ofInt p) s (if first then Fp.zero else acc))
  (y, t.add u)

/-- The configuration of an epilogue (R71, Table 7.8). -/
structure EpiCfg where
  act : Nat
  qmode : Nat
  alpha : Word
  lo : Word
  hi : Word
  outScale : Word
  /-- the output codebook's levels -/
  cbk : List Int
  deriving DecidableEq, Repr

/-- Quantisation to a codebook: the number of midpoints that the value exceeds (R64: the levels rise, so they are the first ones). -/
def codeOf (z : Fp.Dyadic) : List Int → Nat
  | a :: b :: es => if Fp.Dyadic.lt ⟨a + b, -1⟩ z then codeOf z (b :: es) + 1 else 0
  | _ => 0

/-- R65: the ends of the quantisation range, doubled. -/
def cbkLo2 (e : List Int) : Int := 3 * e.getD 0 0 - e.getD 1 0
def cbkHi2 (e : List Int) : Int := 3 * e.getD (e.length - 1) 0 - e.getD (e.length - 2) 0

/-- The bits of a whole number in `w` bits. -/
def intBits (w : Nat) (i : Int) : Nat := (BitVec.ofInt w i).toNat

/-- R71, quantise: 0 INT8, 1 C4 codebook, 2 C8 codebook, 3 BF16, 4 FP32. The value is finite. -/
def quantise (z : Word) (qmode : Nat) (cbk : List Int) : Nat × Tally :=
  if qmode = 0 then
    let q := Fp.roundInt z
    if 127 < q then (intBits 8 127, { sat := 1 })
    else if q < -128 then (intBits 8 (-128), { sat := 1 })
    else (intBits 8 q, if q = 0 ∧ !Fp.isZero z then { rtz := 1 } else {})
  else if qmode = 1 ∨ qmode = 2 then
    let v := Fp.val z
    let i := codeOf v cbk
    (i, if v.lt ⟨cbkLo2 cbk, -1⟩ || Fp.Dyadic.lt ⟨cbkHi2 cbk, -1⟩ v then { sat := 1 }
        else if cbk.getD i 0 = 0 ∧ !Fp.isZero z then { rtz := 1 } else {})
  else if qmode = 3 then
    let b := Fp.toBf16 z
    if b &&& 0x7FFF = 0x7F80 then (((b &&& 0x8000) ||| 0x7F7F).toNat, { sat := 1 }) else (b.toNat, {})
  else (z.toNat, {})

/-- R71, the activation of an epilogue: 1 ReLU, 2 ReLU6, 3 leaky ReLU, 4 clamp. -/
def activate (c : EpiCfg) (y : Word) : Word × Tally :=
  if c.act = 1 then (if Fp.le y 0 then Fp.zero else y, {})
  else if c.act = 2 then (if Fp.le y 0 then Fp.zero else if Fp.lt 0x40C00000 y then 0x40C00000 else y, {})
  else if c.act = 3 then if Fp.lt y 0 then finC (Fp.mulRne y (Fp.flush c.alpha)) else (y, {})
  else if c.act = 4 then
    (if Fp.lt y (Fp.flush c.lo) then Fp.flush c.lo else if Fp.lt (Fp.flush c.hi) y then Fp.flush c.hi else y, {})
  else (y, {})

/-- R71, epilogue: the bits of the output element. -/
def epilogue (c : EpiCfg) (acc : Word) (bias : Option Word) : Nat × Tally :=
  let (y, t1) := match bias with
    | some b => finC (Fp.addRne acc (Fp.flush b))
    | none => (acc, {})
  let (y, t2) := activate c y
  let (z, t3) := finC (Fp.mulRne y (Fp.flush c.outScale))
  let (q, t4) := quantise z c.qmode c.cbk
  (q, ((t1.add t2).add t3).add t4)

/-- R74, derive_scale. -/
def deriveScale (m k : Word) (fb : BitVec 16) : BitVec 16 × Tally :=
  let m := Fp.flush m
  if Fp.isNan m || Fp.isInf m then (fb, { causes := causeDerivedRange })
  else
    let t := Fp.flush (Fp.mulRne m (Fp.flush k))
    if Fp.isInf t then (fb, { causes := causeDerivedRange })
    else
      let d := Fp.toBf16 t
      if d &&& 0x7FFF = 0x7F80 then (fb, { causes := causeDerivedRange })
      else if d.toNat < 0x0080 then (fb, { causes := causeDerivedZero })
      else if 0x7E80 < d.toNat then (fb, { causes := causeDerivedRange })
      else (d, {})

/-- R74: the output scale of a derived scale, rne(1.0 / d). -/
def invScale (d : BitVec 16) : Word := Fp.divRne Fp.one (Fp.flush (Fp.ofBf16 d))

/-- R95: the filter of a preloaded element. -/
def preloadFilter (x : Word) : Word × Tally :=
  if Fp.isNan x then (Fp.zero, { causes := causeArithOvf })
  else if Fp.isInf x then (Fp.fmaxOf (Fp.neg x), { causes := causeArithOvf })
  else (Fp.flush x, {})

/-- R67, R68: a column partial: products of decoded activations and weight levels. -/
def partialSum (a w : List Int) : Int := (a.zip w).foldl (fun s e => s + e.1 * e.2) 0

end Sys2Proof.Machine
end

