-- ==== Sys2Proof/Machine/Operands.lean ====
section
/-! DEFINITION. The operands of Fenja instructions (R185 to R188), the engine queues (R209), and issue: in which cycles a context issues
an instruction, what a pending register, a predicate that is off, an instruction word with an error, a spent allowance or a full queue
does to it (R187, R204, R208, R210, R211, R224). -/

namespace Sys2Proof.Machine

/-! ### Registers of a program (Table 7.10) -/

/-- sc[r]. -/
def ProgRegs.getSc (g : ProgRegs) (r : BitVec 5) : Word := SMap.get 0 g.sc r.toNat
def ProgRegs.setSc (g : ProgRegs) (r : BitVec 5) (v : Word) : ProgRegs := { g with sc := SMap.set 0 g.sc r.toNat v }
/-- ad[r]: ad0 reads zero and discards writes. -/
def ProgRegs.getAd (g : ProgRegs) (r : BitVec 4) : Word := if r = 0 then 0 else SMap.get 0 g.ad r.toNat
def ProgRegs.setAd (g : ProgRegs) (r : BitVec 4) (v : Word) : ProgRegs :=
  if r = 0 then g else { g with ad := SMap.set 0 g.ad r.toNat v }
/-- pd[r]: pd0 reads 1 and discards writes. -/
def ProgRegs.getPd (g : ProgRegs) (r : BitVec 3) : Bool := decide (r = 0) || g.pd.getLsbD r.toNat
def ProgRegs.setPd (g : ProgRegs) (r : BitVec 3) (v : Bool) : ProgRegs :=
  if r = 0 then g
  else { g with pd := g.pd &&& ~~~BitVec.ofNat 8 (2 ^ r.toNat) ||| (if v then BitVec.ofNat 8 (2 ^ r.toNat) else 0) }

end Sys2Proof.Machine

namespace Sys2Proof

open Machine

/-- The second operand of a scalar or branch instruction (R187). -/
def Operand.value (g : ProgRegs) : Operand → Word
  | .reg r => g.getSc r
  | .imm v => v

/-- The scalar register an operand reads. -/
def Operand.uses : Operand → List Nat
  | .reg r => [r.toNat]
  | .imm _ => []

/-- R187: the predicate of an instruction, inverted by pneg. -/
def Guard.on (q : Guard) (g : ProgRegs) : Bool := xor (g.getPd q.pd) q.neg

/-- R184, R188: a tensor operand with the slice offset its address register holds. -/
def TOp.slice (t : TOp) (g : ProgRegs) : Slice := ⟨t.tid.toNat, (g.getAd t.ad).toNat⟩

end Sys2Proof

namespace Sys2Proof.Machine

/-- R211: a scalar register with a delivery on its way. -/
def Ctx.pendingReg (c : Ctx) (r : Nat) : Bool := c.dels.any fun d => decide (d.reg = r)

namespace State

/-- The program's registers: the working copy while epochs are open (R223). -/
def regsOf (s : State) (p : Nat) : ProgRegs := (s.ctx p).regs
def setRegs (s : State) (p : Nat) (g : ProgRegs) : State := s.setCtx p { s.ctx p with regs := g }
def setSc (s : State) (p : Nat) (r : BitVec 5) (v : Word) : State := s.setRegs p ((s.regsOf p).setSc r v)
def setAd (s : State) (p : Nat) (r : BitVec 4) (v : Word) : State := s.setRegs p ((s.regsOf p).setAd r v)
def setPd (s : State) (p : Nat) (r : BitVec 3) (v : Bool) : State := s.setRegs p ((s.regsOf p).setPd r v)

/-- Issue goes on at the next instruction. -/
def advance (s : State) (p : Nat) : State := s.setCtx p { s.ctx p with idx := (s.ctx p).idx + 1 }

/-! ### Issue -/

/-- R204: the cycle belongs to the context of program `p`: the wheel position of the cycle names its slot on its first mast. -/
def ownsCycle (s : State) (p : Nat) : Bool :=
  let m := s.firstMast p
  decide (s.get (mreg .ccWheel m) (4 * (s.cycle % 16)) 4 = 8 + s.slotOn p m)

/-- The context of program `p` issues in this cycle, and nothing holds the instruction back but its own operands: the generator is in a
work window, the cycle is the context's, it has not issued in it, the program runs in this tick, its context neither waits, nor stopped,
nor serves a squash penalty, nor holds another instruction back. -/
def canIssue (s : State) (p : Nat) (i : Instr) : Bool :=
  let c := s.ctx p
  decide (p < 64) && s.inWork && s.ownsCycle p && decide (c.ready ≤ s.cycle) && c.active && !c.ended && !c.specBound && c.wait.isNone &&
    c.stalled.isNone && c.resumeAt.isNone &&
    (match c.blocked with
     | none => decide (c.run = .issuing)
     | some j => decide (j = i))

/-- The context has used the cycle: it issues again from the next one on. -/
def usedCycle (s : State) (p : Nat) : State := s.setCtx p { s.ctx p with ready := s.cycle + 1 }

/-- An instruction that was held back issues. -/
def unblock (s : State) (p : Nat) : State :=
  s.setCtx p { s.ctx p with blocked := none, run := .issuing, specStop := false, ready := s.cycle + 1 }

/-- R211, R224: an instruction is held back, and tried again at each later cycle of the context; `spec` where speculative issue has
stopped. -/
def block (s : State) (p : Nat) (i : Instr) (spec : Bool) : State :=
  let c := s.ctx p
  if c.blocked.isSome then s else s.setCtx p { c with blocked := some i, run := .stalled, specStop := spec }

/-- R210, R211: a cycle in which a context is stalled on a full queue or a pending register is counted. -/
def countStall (s : State) (p : Nat) : State :=
  let c := s.ctx p
  if c.run = .stalled && !c.specStop then
    let m := s.firstMast p
    s.perf (mreg .ccCtxStallCnt m (s.slotOn p m)) 1
  else s

/-- R235: a control event of program `p`: mast, program slot, instruction index and tick value. -/
def ctlEvent (s : State) (p code idx : Nat) : State :=
  let m := s.firstMast p
  s.raise code m 0xFF (s.handle p) (s.slotOn p m) (s.t48 + idx % 65536 * 2 ^ 48)

/-- The context stops issuing for the tick (Table 8.5). -/
def stopIssue (s : State) (p : Nat) : State :=
  s.setCtx p { s.ctx p with run := .stopped, blocked := none, specStop := false, specBound := false }

/-- R208: a fetch finds an uncorrectable instruction word. -/
def imemFault (s : State) (p : Nat) : State :=
  let idx := (s.ctx p).idx
  let m := s.firstMast p
  ((s.setBits (mreg .ccImemStat m) 2).faultOn p m 3 idx |>.ctlEvent p 0x0303 idx).stopIssue p

/-- R208: the check state of the instruction in hand. -/
def fetchEcc (s : State) (p : Nat) : Nat := SMap.get 0 (s.prog p).imemEcc (s.ctx p).idx

/-- R208: a fetch that finds one bit wrong corrects it and counts it; an instruction that was held back has been fetched. -/
def imemCorrect (s : State) (p : Nat) : State :=
  if s.fetchEcc p = 1 && (s.ctx p).blocked.isNone then
    let m := s.firstMast p
    (s.setBits (mreg .ccImemStat m) 1).bump (mreg .ccImemCeCnt m)
  else s

/-- Issue of instruction `i` of program `p` under guard `g`: `uses` lists the scalar registers it reads or writes, `eff` is its
effect, which also says where issue goes on. An instruction whose predicate is off does nothing but pass (R187). -/
def issueAt (s : State) (p : Nat) (g : Guard) (i : Instr) (uses : List Nat) (eff : State → State) : State :=
  if !s.canIssue p i then s
  else if s.fetchEcc p = 2 then s.imemFault p
  else
    let s := s.imemCorrect p
    if uses.any (s.ctx p).pendingReg then s.block p i false
    else
      let s := s.unblock p
      if g.on (s.regsOf p) then eff s else s.advance p

/-- Issue of an instruction after which issue goes on at the next. -/
def issue (s : State) (p : Nat) (g : Guard) (i : Instr) (uses : List Nat) (eff : State → State) : State :=
  s.issueAt p g i uses fun s => (eff s).advance p

/-! ### Speculative issue (R222 to R224) -/

/-- Epochs open. -/
def depth (s : State) (p : Nat) : Nat := (s.ctx p).epochs.length

/-- Speculative engine commands that count against the allowance. -/
def specCmds (s : State) (p : Nat) : Nat := ((s.ctx p).epochs.map (·.cmds)).foldl (· + ·) 0

/-- R224: an instruction that is not issued under an open epoch. -/
def issueFirm (s : State) (p : Nat) (g : Guard) (i : Instr) (eff : State → State) : State :=
  s.issueAt p g i [] fun s' =>
    if s.depth p = 0 then eff s' else (s.imemCorrect p).block p i true

/-- R223: one more command of the innermost epoch. -/
def countCmd (s : State) (p : Nat) : State :=
  let c := s.ctx p
  match c.epochs with
  | [] => s
  | e :: es => s.setCtx p { c with epochs := { e with cmds := e.cmds + 1 } :: es }

/-- R224: an engine command: under an open epoch it counts against the allowance, and waits where the allowance is spent. -/
def issueCmd (s : State) (p : Nat) (g : Guard) (i : Instr) (uses : List Nat) (eff : State → State) : State :=
  s.issueAt p g i uses fun s' =>
    if s.depth p ≠ 0 ∧ (s.prog p).place.raCmds ≤ s.specCmds p then (s.imemCorrect p).block p i true
    else eff (s'.countCmd p)

end State

/-! ### The engine queues (R209, Table 8.1) -/

/-- A queue's place among a yard's queues, and its depth. -/
def unitCode : UnitQ → Nat
  | .sail s => s % 4
  | .boom s => 4 + s % 4
  | .reef => 8
  | .vu => 9
  | .strm => 10

def unitDepth : UnitQ → Nat
  | .sail _ => 16
  | .boom _ => 16
  | .reef => 8
  | .vu => 32
  | .strm => 32

/-- The scalar register that a kernel delivers into. -/
def Kernel.dest : Kernel → Option Nat
  | .red _ _ _ _ (.scalar rd) _ _ _ _ => some rd.toNat
  | .boomCnt _ rd _ => some rd
  | _ => none

/-- The scalar register that a queued command delivers into. -/
def EngOp.dest : EngOp → Option Nat
  | .kernel k => k.dest
  | _ => none

namespace State

def queueOf (s : State) (m y : Nat) (q : UnitQ) : List EngCmd := SMap.get [] (s.yard m y).queues (unitCode q)
def setQueue (s : State) (m y : Nat) (q : UnitQ) (l : List EngCmd) : State :=
  s.setYard m y { s.yard m y with queues := SMap.set [] (s.yard m y).queues (unitCode q) l }

/-- A queue has room. -/
def queueRoom (s : State) (m y : Nat) (q : UnitQ) : Bool := decide ((s.queueOf m y q).length < unitDepth q)

/-- R209: a command enters its queue. -/
def enqueue (s : State) (m y : Nat) (q : UnitQ) (c : EngCmd) : State := s.setQueue m y q (s.queueOf m y q ++ [c])

/-- R209, R211: a command issues into its queue; the register that it delivers into is pending from now on. -/
def issueInto (s : State) (m y : Nat) (q : UnitQ) (c : EngCmd) : State :=
  let s := s.enqueue m y q c
  let x := s.ctx c.prog
  let dels := match c.op.dest with
    | some r => x.dels ++ [(⟨r, 0, none, c.seq, none, c.spec⟩ : Delivery)]
    | none => x.dels
  (s.setCtx c.prog { x with seq := x.seq + 1, dels := dels }).advance c.prog

/-- R209, R210: a command issues into its queue, or the context stalls while the queue is full. -/
def enterQueue (s : State) (p m y : Nat) (q : UnitQ) (op : EngOp) : State :=
  let c : EngCmd := ⟨op, p, s.depth p, (s.ctx p).seq⟩
  if s.queueRoom m y q then s.issueInto m y q c
  else s.setCtx p { s.ctx p with stalled := some (m, y, q, c), run := .stalled }

/-- R203: the physical yard of a virtual one, where the program owns it. -/
def physYard (s : State) (p v : Nat) : Option (Nat × Nat) :=
  match (s.prog p).place.yards[v]? with
  | some q => if s.yardOwner (q / 8) (q % 8) = some p then some (q / 8, q % 8) else none
  | none => none

end State
end Sys2Proof.Machine
end

