-- ==== Sys2Proof/Machine/Tensors.lean ====
section
/-! DEFINITION. Tensors in memory: elements, rows, tiles and images of a placed tensor (R60, R61, R178 to R184), scales and
codebooks (R181), the reads and writes of kernels with the check bits they meet (R112 to R115), and what a kernel's tallies do. -/

namespace Sys2Proof.Machine

/-- Table 3.1: bits per element. -/
def typeBits (t : Nat) : Nat :=
  if t = 3 then 4 else if t = 5 ∨ t = 7 then 32 else if t = 6 ∨ t = 8 then 16 else 8

/-- FP32 or BF16. -/
def isFloat (t : Nat) : Bool := decide (t = 7) || decide (t = 6)

/-- R181: the group size of a gsz code. -/
def groupSize (gsz : Nat) : Nat := if gsz = 2 then 64 else if gsz = 3 then 128 else 32

/-- ⌈a / b⌉. -/
def cdiv (a b : Nat) : Nat := (a + b - 1) / b

/-- The product of a list. -/
def prodList (l : List Nat) : Nat := l.foldl (· * ·) 1

/-- The extents of a tensor. -/
def Tensor.shape (t : Tensor) : List Nat := t.dims.take t.rank

/-- Elements in a row of storage: the last axis; a TILE32 tensor is one row of whole tiles (R180). -/
def Tensor.width (t : Tensor) : Nat :=
  if t.layout = 2 then cdiv (t.dims.getD 0 1) 32 * cdiv (t.dims.getD 1 1) 32 * 1024
  else t.shape.getD (t.rank - 1) 1

/-- Rows in a plane: the axis outside the last. -/
def Tensor.height (t : Tensor) : Nat := if t.layout = 2 then 1 else t.shape.getD (t.rank - 2) 1

/-- Planes: the outer axes. -/
def Tensor.planes (t : Tensor) : Nat := if t.layout = 2 then 1 else prodList (t.shape.take (t.rank - 2))

/-- All rows of storage. -/
def Tensor.rows (t : Tensor) : Nat := t.planes * t.height

/-- Elements in storage. -/
def Tensor.size (t : Tensor) : Nat := t.rows * t.width

/-- Bytes of one row as translation places it (R61, R180). -/
def Tensor.rowBytes (t : Tensor) : Nat := cdiv (t.width * typeBits t.type) 8

/-- A tensor ready to be read or written: its descriptor, where its half lies, its slice offset. -/
structure View where
  t : Tensor
  tid : Nat
  base : Nat
  planePitch : Nat
  rowPitch : Nat
  off : Nat
  /-- which of the tensor's places it is: 0 and 1 its halves, 2 the run-ahead half -/
  place : Nat
  deriving DecidableEq, Repr

/-- Where the derived scale of a row and group of this half stands. -/
def View.scaleKey (v : View) (row k : Nat) : Nat := key3 (3 * v.tid + v.place) row k

/-- The address of row `r` of storage, counted through all planes. -/
def View.rowAddr (v : View) (r : Nat) : Nat :=
  if v.t.layout = 2 then v.base
  else v.base + r / v.t.height * v.planePitch + r % v.t.height * v.rowPitch

/-- An image operand (R180): batches, channels, height, width. -/
def Tensor.image (t : Tensor) : Nat × Nat × Nat × Nat :=
  let d := t.shape
  if t.layout = 0 then
    if t.rank = 2 then (1, 1, d.getD 0 1, d.getD 1 1)
    else if t.rank = 3 then (1, d.getD 0 1, d.getD 1 1, d.getD 2 1)
    else (d.getD 0 1, d.getD 1 1, d.getD 2 1, d.getD 3 1)
  else
    if t.rank = 2 then (1, d.getD 1 1, 1, d.getD 0 1)
    else if t.rank = 3 then (1, d.getD 2 1, d.getD 0 1, d.getD 1 1)
    else (d.getD 0 1, d.getD 3 1, d.getD 1 1, d.getD 2 1)

/-- The storage index of element (b, c, y, x) of an image (R180). -/
def Tensor.imageIdx (t : Tensor) (b c y x : Nat) : Nat :=
  let (_, cs, h, w) := t.image
  if t.layout = 0 then ((b * cs + c) * h + y) * w + x else ((b * h + y) * w + x) * cs + c

/-- The element (b, c, y, x) of an image that stands in column `c` of row `r` of its storage. -/
def Tensor.imageAt (t : Tensor) (r c : Nat) : Nat × Nat × Nat × Nat :=
  let (_, cs, h, w) := t.image
  if t.layout = 0 then (r / h / cs, r / h % cs, r % h, c) else (r / w / h, c, r / w % h, r % w)

/-- R180: the storage index of weight (reduction element k, output channel n). -/
def Tensor.tileIdx (t : Tensor) (k n : Nat) : Nat :=
  (n / 32 * cdiv (t.dims.getD 0 1) 32 + k / 32) * 1024 + k % 32 * 32 + n % 32

/-- The entry of the CBK section with an index (Table 7.7). -/
def Container.cbk (b : Container) (i : Nat) : List Int :=
  match b.cbks.find? fun e => decide (e.index = i) with
  | some e => e.body.map fun v => (v.setWidth 8).toInt
  | none => []

/-- Entry `k` of the SCALE section's entry with an index. -/
def Container.scaleAt (b : Container) (i k : Nat) : BitVec 16 :=
  match b.scales.find? fun e => decide (e.index = i) with
  | some e => e.body.getD k 0
  | none => 0

/-- The tensor of a tid. -/
def Prog.tensor (g : Prog) (tid : Nat) : Tensor := g.box.tensors.getD tid default

/-- The counter slot of a counted tensor (R78). -/
def Prog.counterSlot (g : Prog) (tid : Nat) : Option Nat :=
  match g.place.counters.find? fun e => decide (e.1 = tid) with
  | some e => some e.2
  | none => none

/-- R465, Table 9.3a: translation double-buffers the output: it gave it a half 1. -/
def Prog.paired (g : Prog) (tid : Nat) : Bool := decide ((g.tensor tid).kind = 2) && decide ((g.place.tensors.getD tid default).half1 ≠ 0)

/-- The half that a read or write of tensor `tid` uses (R37, R179): inputs read the live half, carried tensors read the committed and
write the other half, double-buffered outputs use the half that is
not latched; every other tensor has one. -/
def Prog.half (g : Prog) (tid : Nat) (write : Bool) : Bool :=
  let t := g.tensor tid
  let done := SMap.get false g.store.committed tid
  if t.kind = 1 then (SMap.get {} g.inputs tid).live
  else if t.kind = 4 then if write then !done else done
  else if g.paired tid then !done
  else false

/-- R227: the run-ahead half of a tensor, where translation gave it one. -/
def Prog.pair (g : Prog) (tid : Nat) : Option Nat := (g.place.pairs.find? fun e => decide (e.1 = tid)).map (·.2)

/-- The place in which half `i` of a tensor stands now: 0, 1, or 2 for its run-ahead half. -/
def Prog.standing (g : Prog) (tid i : Nat) : Nat :=
  let moved := SMap.get 0 g.store.homes (3 * tid + i)
  if moved = 0 then i else moved - 1

/-- The package address of a place of a tensor. -/
def Prog.placeAt (g : Prog) (tid i : Nat) : Nat :=
  let pl := g.place.tensors.getD tid default
  if i = 0 then pl.half0 else if i = 1 then pl.half1 else (g.pair tid).getD 0

/-- R227: a command under `spec` epochs writes the run-ahead half, and reads it where an open epoch has written it. -/
def Prog.inShadow (g : Prog) (tid : Nat) (write : Bool) (spec : Nat) : Bool :=
  decide (spec ≠ 0) && (g.pair tid).isSome && (write || decide (SMap.get 0 g.store.shadow tid ≠ 0))

/-- A place of a tensor as a view. -/
def Prog.placed (g : Prog) (o : Slice) (i : Nat) : View :=
  let pl := g.place.tensors.getD o.tid default
  ⟨g.tensor o.tid, o.tid, g.placeAt o.tid i, pl.planePitch, pl.rowPitch, o.off, i⟩

/-- An operand as a view, for a command under `spec` epochs. -/
def Prog.viewAt (g : Prog) (o : Slice) (write : Bool) (spec : Nat) : View :=
  g.placed o (g.standing o.tid (if g.inShadow o.tid write spec then 2 else if g.half o.tid write then 1 else 0))

/-- An operand as a view. -/
def Prog.view (g : Prog) (o : Slice) (write : Bool) : View := g.viewAt o write 0

/-- R227: on commit the run-ahead half of a tensor and the half that it stood beside change places. -/
def Prog.swapPlaces (g : Prog) (tid : Nat) : SMap Nat :=
  let h := if g.half tid true then 1 else 0
  let a := g.standing tid h
  let b := g.standing tid 2
  SMap.set 0 (SMap.set 0 g.store.homes (3 * tid + h) (b + 1)) (3 * tid + 2) (a + 1)

/-- R225, R227: what a command under `spec` epochs writes lies in the shadow half of a double buffer. -/
def Prog.writesShadow (g : Prog) (tid spec : Nat) : Bool :=
  (g.pair tid).isSome && (decide (SMap.get 0 g.store.shadow tid = 0) || decide (SMap.get 0 g.store.shadow tid = spec))

namespace State

/-! ### Elements -/

/-- The bits of element `e` of storage. -/
def elem (s : State) (v : View) (e : Nat) : Nat :=
  let a := v.rowAddr (e / v.t.width)
  let c := e % v.t.width
  let bits := typeBits v.t.type
  if bits = 4 then (s.byte (a + c / 2)).toNat / (if c % 2 = 0 then 1 else 16) % 16
  else s.load (a + c * (bits / 8)) (bits / 8)

/-- The whole number an element stands for: codes through their codebook (R67). -/
def elemInt (s : State) (g : Prog) (v : View) (e : Nat) : Int :=
  let r := s.elem v e
  if v.t.type = 1 then (BitVec.ofNat 8 r).toInt
  else if v.t.type = 3 ∨ v.t.type = 4 then (g.box.cbk v.t.cbk).getD r 0
  else if v.t.type = 5 then (BitVec.ofNat 32 r).toInt
  else r

/-- R181, R74: the scale of group `k` of row `row`: a constant entry, or the derived scale of that row and group. -/
def actScale (_s : State) (g : Prog) (v : View) (row k : Nat) : BitVec 16 :=
  if v.t.smode = 2 then SMap.get 0 g.store.derived (v.scaleKey row k)
  else if v.t.smode = 1 then g.box.scaleAt v.t.scale k
  else 0x3F80

/-- R181: the weight scale of group `k` and output channel `n`. -/
def wtScale (g : Prog) (t : Tensor) (k n : Nat) : BitVec 16 := g.box.scaleAt t.scale (k * t.dims.getD 1 1 + n)

/-- The scale of element `e`, grouped along the last axis (R194; log entry 23); 1.0 where the tensor has none. -/
def elemScale (s : State) (g : Prog) (v : View) (e : Nat) : BitVec 16 :=
  s.actScale g v (e / v.t.width) (e % v.t.width / groupSize v.t.gsz)

/-- R162: an element as FP32: level × scale for INT8 and codes with a scale, exact otherwise; status bit 1 where that product
saturates. -/
def elemVu (s : State) (g : Prog) (v : View) (e : Nat) : Word × Tally :=
  if v.t.type = 7 then (Fp.flush (BitVec.ofNat 32 (s.elem v e)), {})
  else if v.t.type = 6 then (Fp.flush (Fp.ofBf16 (BitVec.ofNat 16 (s.elem v e))), {})
  else
    let x := Fp.ofInt (s.elemInt g v e)
    if v.t.smode = 0 then (x, {})
    else
      let (y, ovf) := Fp.fin (Fp.mulRne x (Fp.flush (Fp.ofBf16 (s.elemScale g v e))))
      (y, if ovf then { status := 1 } else {})

/-- R162: the FP32 value of an element. -/
def elemFp (s : State) (g : Prog) (v : View) (e : Nat) : Word := (s.elemVu g v e).1

/-! ### Check bits met by reads (R112 to R115) -/

/-- R113: the first uncorrectable word of a yard, or of Stay SRAM, in a tick raises SRAM_ECC_UNCORR. -/
def uncorrAt (s : State) (w handle port n : Nat) : State :=
  match regionOf (8 * w) with
  | .yard m y off =>
    let s := s.bump (yreg .yardEccUeCnt m y) n
    let s := s.firstRecord (yreg .yardEccStat m y) 1 fun s => s.put (yreg .yardEccUeAddr m y) 3 20 (off / 8)
    let ts := s.recent (s.yard m y).ueTimes 60000000000 ++ List.replicate (min n 3) s.now
    let s := s.setYard m y { s.yard m y with ueTimes := ts }
    let s := if 3 ≤ ts.length then s.askOut (8 * m + y) else s
    if (s.yard m y).onceUe then s
    else (s.setYard m y { s.yard m y with onceUe := true }).raise 0x0502 m y handle port (8 * w)
  | .stay _ =>
    if (s.yard 7 0).onceUe then s
    else (s.setYard 7 0 { s.yard 7 0 with onceUe := true }).raise 0x0502 7 0xFF handle port (8 * w)
  | _ => s

/-- R115: corrected words are counted; the first since ce was cleared raises SRAM_ECC_CORR. -/
def corrAt (s : State) (w n : Nat) : State :=
  match regionOf (8 * w) with
  | .yard m y _ =>
    let s := s.bump (yreg .yardEccCeCnt m y) n
    if bit (s.reg (yreg .yardEccStat m y)) 0 then s
    else (s.setBits (yreg .yardEccStat m y) 1).raise 0x0501 m y 0xFFFF 0 (8 * w)
  | .stay _ => s.raise 0x0501 7 0xFF 0xFFFF 0 (8 * w)
  | _ => s

/-- The words with a check state of `k` among those of `n` bytes from `a`. -/
def eccWords (s : State) (a n k : Nat) : List Nat :=
  (s.ecc.filter fun e => decide (a / 8 ≤ e.1) && decide (8 * e.1 < a + n) && decide (e.2 = k)).map (·.1)

/-- A read of `n` bytes through the check: corrected words are counted, uncorrectable ones delivered poisoned. -/
def readCheck (s : State) (a n handle port : Nat) : State :=
  let s := match s.eccWords a n 1 with
    | [] => s
    | w :: ws => s.corrAt w (ws.length + 1)
  match s.eccWords a n 2 with
  | [] => s
  | w :: ws => s.uncorrAt w handle port (ws.length + 1)

/-- R113: a tick-class read of program `p`: poison gives INVALID_FAULT. -/
def progRead (s : State) (p a n port : Nat) : State :=
  let t := s.readCheck a n (s.handle p) port
  if (s.eccWords a n 2).isEmpty then t else t.unitFault p

/-- The words of row `r` of a view with a check state of their own in which some element is needed. -/
def rowWords (s : State) (v : View) (need : Nat → Nat → Bool) (r : Nat) : List Nat :=
  let a := v.rowAddr r
  let bits := typeBits v.t.type
  ((s.ecc.map (·.1)).filter fun w => decide (a / 8 ≤ w) && decide (8 * w < a + v.t.rowBytes)).filter fun w =>
    (List.range v.t.width).any fun c => need r c && decide ((a + c * bits / 8) / 8 ≤ w) && decide (w ≤ (a + (c * bits + bits - 1) / 8) / 8)

/-- A kernel's read of the elements of a tensor that it needs, given by row and column: the words that hold them pass the check. -/
def readWhere (s : State) (p port : Nat) (v : View) (need : Nat → Nat → Bool) : State :=
  if s.ecc.isEmpty then s
  else (((List.range v.t.rows).flatMap (s.rowWords v need)).eraseDups).foldl (fun s w => s.progRead p (8 * w) 8 port) s

/-- A kernel's read of a whole tensor. -/
def readAll (s : State) (p port : Nat) (v : View) : State := s.readWhere p port v fun _ _ => true

end State

/-! ### Writing rows -/

/-- The bytes of a row of element bits (R61). -/
def packRow (bits : Nat) : List Nat → List Byte
  | [] => []
  | [a] => if bits = 4 then [BitVec.ofNat 8 (a % 16)] else (List.range (bits / 8)).map fun i => BitVec.ofNat 8 (a / 256 ^ i)
  | a :: b :: es =>
    if bits = 4 then BitVec.ofNat 8 (a % 16 + b % 16 * 16) :: packRow bits es
    else ((List.range (bits / 8)).map fun i => BitVec.ofNat 8 (a / 256 ^ i)) ++ packRow bits (b :: es)

/-- The C4 elements of bytes: the low nibble first. -/
def nibbles (b : List Byte) : List Nat := b.flatMap fun x => [x.toNat % 16, x.toNat / 16]

/-- R61: the bytes of the tensor's storage: elements 2i and 2i + 1 share byte i throughout. -/
def Tensor.storeBytes (t : Tensor) : Nat := cdiv (t.size * typeBits t.type) 8

/-- Rows of C4 elements that end in half a byte: placed rows start on bytes of their own, storage goes on in the same byte. -/
def Tensor.splitsBytes (t : Tensor) : Bool := decide (typeBits t.type = 4 ∧ t.width % 2 = 1)

/-- Storage (R61) from the bytes of the placed rows. -/
def Tensor.toStore (t : Tensor) (b : List Byte) : List Byte :=
  if t.splitsBytes then
    packRow 4 ((List.range t.rows).flatMap fun r => (nibbles ((b.drop (r * t.rowBytes)).take t.rowBytes)).take t.width)
  else b

/-- The bytes of the placed rows from storage (R61). -/
def Tensor.toRows (t : Tensor) (b : List Byte) : List Byte :=
  if t.splitsBytes then
    let es := nibbles b
    (List.range t.rows).flatMap fun r => packRow 4 ((es.drop (r * t.width)).take t.width)
  else b

namespace State

/-- The yard of a package address; the program's first yard where the address lies in none (log entry 24). -/
def homeOf (s : State) (p a : Nat) : Nat × Nat :=
  match regionOf a with
  | .yard m y _ => (m, y)
  | _ => let q := (s.prog p).place.yards.headD 0; (q / 8, q % 8)

/-- A derived scale of a tensor (R74). -/
def setDerived (s : State) (p : Nat) (v : View) (row k : Nat) (d : BitVec 16) : State :=
  let g := s.prog p
  s.setProg p { g with store := { g.store with derived := SMap.set 0 g.store.derived (v.scaleKey row k) d } }

/-- What stands in place `i` of a tensor is copied to place `j`: its rows and its derived scales. -/
def copyPlace (s : State) (p tid i j : Nat) : State :=
  let x := (s.prog p).placed ⟨tid, 0⟩ i
  let z := (s.prog p).placed ⟨tid, 0⟩ j
  let s := (List.range x.t.rows).foldl (fun s r => s.store (z.rowAddr r) (s.bytes (x.rowAddr r) x.t.rowBytes)) s
  if x.t.smode ≠ 2 then s
  else (List.range x.t.rows).foldl (fun s r => (List.range (cdiv x.t.width (groupSize x.t.gsz))).foldl (fun s k =>
    s.setDerived p z r k (SMap.get 0 (s.prog p).store.derived (x.scaleKey r k))) s) s

/-- R227: the first write of an epoch to a run-ahead half: it starts from the live half's contents (log entry 76). -/
def openShadow (s : State) (p tid spec : Nat) : State :=
  let g := s.prog p
  if spec = 0 ∨ (g.pair tid).isNone ∨ SMap.get 0 g.store.shadow tid ≠ 0 then s
  else
    let s := s.copyPlace p tid (g.standing tid (if g.half tid true then 1 else 0)) (g.standing tid 2)
    let g := s.prog p
    s.setProg p { g with store := { g.store with shadow := SMap.set 0 g.store.shadow tid spec } }

end State

/-- The status bits of computed rows together. -/
def rowsStatus (rows : List (Nat × List Nat × Tally)) : Nat := rows.foldl (fun n r => causeOr n r.2.2.status) 0

/-- R184: the rows of storage of a slice along the axis outside the last: `count` of them from the offset, 0 the rest, in every
plane. Each with its plane and its place within the slice. -/
def View.sliceRows (v : View) (count : Nat) : List (Nat × Nat) :=
  let n := if count = 0 then v.t.height - v.off else count
  (List.range v.t.planes).flatMap fun pl => (List.range n).map fun i => (pl, i)

/-- The row of storage at a plane and a place within the slice. -/
def View.row (v : View) (q : Nat × Nat) : Nat := q.1 * v.t.height + v.off + q.2

/-- R184: the slice of an image along H: the output rows. -/
def View.imageRows (v : View) (count : Nat) : List Nat :=
  let (_, _, h, _) := v.t.image
  (List.range (if count = 0 then h - v.off else count)).map (v.off + ·)

/-- The rows of storage of an image that lie in output row `y`: for PLANAR one per batch and channel, for ROWS one per batch and
column; each with its batch, its channel or column. -/
def Tensor.imageStore (t : Tensor) (y : Nat) : List (Nat × Nat × Nat) :=
  let (b, c, h, w) := t.image
  if t.layout = 0 then
    (List.range b).flatMap fun i => (List.range c).map fun j => ((i * c + j) * h + y, i, j)
  else
    (List.range b).flatMap fun i => (List.range w).map fun j => ((i * h + y) * w + j, i, j)

/-- A kernel over an image (R147, R166, R167): every element (batch, channel, y, x) of the sliced output rows. -/
def imageKernel (v : View) (count : Nat) (f : Nat → Nat → Nat → Nat → Nat × Tally) : List (Nat × List Nat × Tally) :=
  let (_, cs, _, w) := v.t.image
  (v.imageRows count).flatMap fun y =>
    (v.t.imageStore y).map fun q =>
      (q.1, tallied (fun i => if v.t.layout = 0 then f q.2.1 q.2.2 y i else f q.2.1 i y q.2.2)
        (List.range (if v.t.layout = 0 then w else cs)))

/-- Table 7.8: the epilogue record at a record index, with the output scale and quantiser it selects. -/
def Container.epiCfg (b : Container) (rec : Nat) : EpiCfg :=
  let o := rec * 16
  { act := leAt b.const o 1, qmode := leAt b.const (o + 1) 1, alpha := BitVec.ofNat 32 (leAt b.const (o + 4) 4),
    lo := BitVec.ofNat 32 (leAt b.const (o + 8) 4), hi := BitVec.ofNat 32 (leAt b.const (o + 12) 4),
    outScale := BitVec.ofNat 32 (leAt b.const (o + 16) 4), cbk := b.cbk (leAt b.const (o + 2) 2) }

/-- R182: where the destination's scales are derived, the output scale is that of R74 for the row and the channel's group. -/
def State.outCfg (s : State) (g : Prog) (v : View) (c : EpiCfg) (row n : Nat) : EpiCfg :=
  if v.t.smode = 2 then { c with outScale := invScale (s.actScale g v row (n / groupSize v.t.gsz)) } else c

end Sys2Proof.Machine
end

