-- ==== Sys2Proof/Machine/Banks.lean ====
section
/-! DEFINITION. Bank accesses and their conflicts (R107 to R110). -/

namespace Sys2Proof.Machine

/-- R107: the bank of a yard offset. -/
def bankOf (off : Nat) : Nat := off / 64 % 32

/-- Pieces of at most one 64-byte line of bytes written at `a` (R108, R126). -/
def lineSplit (a : Nat) (bs : List Byte) : List (Nat × List Byte) :=
  (List.range ((a + bs.length + 63) / 64 - a / 64)).map fun i =>
    let lo := max a ((a / 64 + i) * 64)
    let hi := min (a + bs.length) ((a / 64 + i + 1) * 64)
    (lo, (bs.drop (lo - a)).take (hi - lo))

/-- R109: an access is served before another: the lower port, and within one port the lower offset. -/
def Access.before (a b : Access) : Bool := decide (a.port < b.port) || (decide (a.port = b.port) && decide (a.off ≤ b.off))

/-- The access of a list that is served. -/
def firstServed (a : Access) : List Access → Access
  | [] => a
  | b :: bs => firstServed (if Access.before a b then a else b) bs

namespace State

/-- The accesses of the cycle that meet an access: same bank, same cycle. -/
def meeting (s : State) (m y : Nat) (a : Access) : List Access :=
  (s.yard m y).access.filter fun b => decide (b.cycle = a.cycle) && decide (bankOf b.off = bankOf a.off)

/-- R109: a write that was made and is not served is taken back: its bytes and check states are as before. -/
def undo (s : State) (m y : Nat) (b : Access) : State :=
  match b.made with
  | some (_, old, ecc) =>
    (s.poke (yardAddr m y b.off) old).putEcc (yardAddr m y b.off / 8) ecc
  | none => s

/-- R109: the record of a conflict: the port served and the lowest-numbered port not served. -/
def conflictRecord (s : State) (m y : Nat) (won lost : Access) : State :=
  let lp := if lost.remote.isSome then s.yardOwner m y else lost.prog
  let slot := match lp with | some p => s.slotOn p m | none => 0
  let r := yreg .yardConflict m y
  let s := ((((s.put r 0 1 1).put r 1 5 (bankOf won.off)).put r 6 5 won.port).put r 11 5 lost.port).put r 16 3 slot
  let s := (s.put r 19 1 (if lost.remote.isSome then 1 else 0)).put r 20 3 (lost.remote.getD 0)
  (s.put (yreg .yardConflictCyc m y) 0 27 won.cycle).setYard m y { s.yard m y with conflictAt := some (won.cycle, bankOf won.off) }

/-- R109: the event of a conflict: the handle of the lowest-numbered access not served, the bank, and its port. -/
def conflictEvent (s : State) (m y : Nat) (lost : Access) : State :=
  let h := match lost.prog with | some p => s.handle p | none => 0xFFFF
  let x := s.t48 + lost.port * 2 ^ 48
  if (s.yard m y).onceConflict then
    if (s.yard m y).conflictAt = some (lost.cycle, bankOf lost.off) then
      s.amend 0x0503 m (fun e => decide (e.unit = BitVec.ofNat 8 y))
        fun e => { e with handle := BitVec.ofNat 16 h, arg64 := BitVec.ofNat 64 x }
    else s
  else (s.setYard m y { s.yard m y with onceConflict := true }).raise 0x0503 m y h (bankOf lost.off) x

/-- R109: two or more accesses met in one bank and cycle: recorded, raised once per yard and tick, and a third access of the cycle
brings both up to date; every program with an access there, and the yard's owner, gives INVALID_FAULT. -/
def bankConflict (s : State) (m y : Nat) (won : Access) (all : List Access) : State :=
  let lost := all.erase won
  let l := (lost.tail.foldl (fun x b => if b.port < x.port then b else x) (lost.headD won))
  let here := decide ((s.yard m y).conflictAt = some (won.cycle, bankOf won.off))
  let s := if here || !bit (s.reg (yreg .yardConflict m y)) 0 then s.conflictRecord m y won l else s
  (s.conflictEvent m y l).unitFaults ((all.filterMap (·.prog)) ++ (s.yardOwner m y).toList).eraseDups

/-- The bytes of an access that is a write are stored. -/
def makeWrite (s : State) (m y : Nat) (a : Access) (w : Option (List Byte)) : State × Access :=
  match w with
  | none => (s, a)
  | some bs =>
    let x := yardAddr m y a.off
    let n := (x + bs.length + 7) / 8 - x / 8
    (s.store x bs, { a with made := some (bs, s.bytes x bs.length, (List.range n).map fun i => SMap.get 0 s.ecc (x / 8 + i)) })

/-- R109: an access, a write of `w` or a read, comes to its bank in this cycle and meets the others there: of all of them one is
performed. The Bool says that it is served. -/
def bankAccess (s : State) (m y : Nat) (a : Access) (w : Option (List Byte)) : State × Bool :=
  let met := s.meeting m y a
  let won := firstServed a met
  if won ≠ a then
    ((s.setYard m y { s.yard m y with access := a :: (s.yard m y).access }).bankConflict m y won (a :: met), false)
  else
    let s := met.foldl (fun s b => s.undo m y b) s
    let (s, b) := s.makeWrite m y a w
    let old := (s.yard m y).access.map fun c => if met.contains c then { c with made := none } else c
    let s := s.setYard m y { s.yard m y with access := b :: old }
    (if met.isEmpty then s else s.bankConflict m y b (b :: met), true)

/-- Accesses that deliver data: an access that is not served delivers it poisoned, and its program faults (R109). -/
def bankReads (s : State) (m y : Nat) (as : List Access) : State := as.foldl (fun s a => (s.bankAccess m y a none).1) s

/-- R108, R111: a linear read of `n` bytes at `a` by a unit of yard (m, y) in this cycle: one access for each 64-byte line, and the words
through the check (R112, R113). -/
def lineReads (s : State) (p m y port a n : Nat) : State :=
  let s := s.progRead p a n port
  s.bankReads m y ((List.range ((a + n + 63) / 64 - a / 64)).filterMap fun i =>
    match regionOf (max a ((a / 64 + i) * 64)) with
    | .yard m' y' off => if m' = m ∧ y' = y then some (⟨s.cycle, off, port, some p, none, none⟩ : Access) else none
    | _ => none)

/-- R110: a write of part of an 8-byte word reads that word first: an uncorrectable one is written back poisoned, and a tick-class
writer's program faults. -/
def partialCheck (s : State) (a n port : Nat) (prog : Option Nat) : State :=
  let ws := (s.eccWords a n 2).filter fun w => !decide (a ≤ 8 * w ∧ 8 * w + 8 ≤ a + n)
  match ws with
  | [] => s
  | w :: rest =>
    let s := s.uncorrAt w (match prog with | some p => s.handle p | none => 0xFFFF) port (rest.length + 1)
    match prog with
    | some p => s.unitFault p
    | none => s

/-- A write of bytes at `a` through port `port`: check, then store. -/
def checkedStore (s : State) (a : Nat) (bs : List Byte) (port : Nat) (prog : Option Nat) : State :=
  (s.partialCheck a bs.length port prog).store a bs

/-- The words that `n` bytes from `a` cover only in part. -/
def partWords (a n : Nat) : List Nat :=
  ((List.range ((a + n + 7) / 8 - a / 8)).map (a / 8 + ·)).filter fun w => !decide (a ≤ 8 * w ∧ 8 * w + 8 ≤ a + n)

/-- R108, R110: a write that reaches a yard in this cycle: it holds its bank for one cycle, or, where it covers part of a word, for two:
a read, whose uncorrectable words are written back poisoned, and the write in the next cycle. -/
def yardWrite (s : State) (m y off : Nat) (bs : List Byte) (port : Nat) (prog remote : Option Nat) : State :=
  let a := yardAddr m y off
  let acc : Access := ⟨s.cycle, off, port, prog, remote, none⟩
  let ws := partWords a bs.length
  if ws.isEmpty then (s.bankAccess m y acc (some bs)).1
  else
    let (t, served) := s.bankAccess m y acc none
    let t := if served then t.partialCheck a bs.length port prog else t
    let bad := if served then ws.filter fun w => decide (SMap.get 0 s.ecc w = 2) else ws
    t.setYard m y { t.yard m y with parts := (t.yard m y).parts ++ [⟨s.cycle + 1, off, bs, port, prog, remote, bad⟩] }

/-- R110: the second cycle of a partial write: it is made where it is served, and its poisoned words stay uncorrectable. -/
def partWrite (s : State) (m y : Nat) (w : PartWrite) : State :=
  let (t, served) := s.bankAccess m y ⟨s.cycle, w.off, w.port, w.prog, w.remote, none⟩ (some w.data)
  if served then w.poison.foldl poisonWord t else t

/-- The partial writes of a yard whose second cycle has come; accesses of earlier cycles are over. -/
def partStep (s : State) (m y : Nat) : State :=
  let v := s.yard m y
  let now := v.parts.filter fun w => decide (w.due ≤ s.cycle)
  let s := s.setYard m y { v with access := v.access.filter (fun a => decide (a.cycle = s.cycle))
                                  parts := v.parts.filter fun w => decide (s.cycle < w.due) }
  now.foldl (fun s w => s.partWrite m y w) s

/-- A write of bytes by a unit of a yard through `port`: line by line (R108). -/
def portWrite (s : State) (p port a : Nat) (bs : List Byte) : State :=
  (lineSplit a bs).foldl (fun s r => match regionOf r.1 with
    | .yard m y off => s.yardWrite m y off r.2 port (some p) none
    | _ => s.store r.1 r.2) s

end State
end Sys2Proof.Machine
end

