-- ==== Sys2Proof/Machine/Tags.lean ====
section
/-! DEFINITION. The fill-generation tripwires (R118 to R123, R227): blocks and their tags, what commands name of them, the checks of
readers and the steps of writers, and trips. -/

namespace Sys2Proof.Machine

/-! ### Blocks (R118) -/

/-- The blocks of yard (m, y) as numbers: 2,048 for each yard. -/
def blockNo (m y b : Nat) : Nat := (8 * m + y) * 2048 + b
def blockMast (k : Nat) : Nat := k / 2048 / 8
def blockYard (k : Nat) : Nat := k / 2048 % 8
/-- YARD_TAG of a block. -/
def blockReg (k : Nat) : RegId := yreg .yardTag (blockMast k) (blockYard k) (k % 2048)

/-- The 4 KiB blocks of yards that `n` bytes from `a` touch. -/
def blocksAt (a n : Nat) : List Nat :=
  match regionOf a with
  | .yard m y off => (List.range ((4095 + (n + off % 4096)) / 4096)).map fun i => blockNo m y (off / 4096 + i)
  | _ => []

/-- The block of a package address. -/
def blockIn (a : Nat) : Option Nat := (blocksAt a 1).head?

/-- The blocks of a whole tensor. -/
def viewBlocks (v : View) : List Nat := ((List.range v.t.rows).flatMap fun r => blocksAt (v.rowAddr r) v.t.rowBytes).eraseDups

/-- The address of element `e` of storage. -/
def View.elemAddr (v : View) (e : Nat) : Nat := v.rowAddr (e / v.t.width) + e % v.t.width * typeBits v.t.type / 8

/-- The blocks of `n` elements of storage from element `e`. -/
def spanBlocks (v : View) (e n : Nat) : List Nat :=
  let w := v.t.width
  ((List.range ((e + n + w - 1) / w - e / w)).flatMap fun i =>
    let lo := max e ((e / w + i) * w)
    let hi := min (e + n) ((e / w + i + 1) * w)
    blocksAt (v.elemAddr lo) (cdiv ((hi - lo) * typeBits v.t.type) 8)).eraseDups

/-- The blocks of rows of a tensor. -/
def rowBlocks (v : View) (rows : List Nat) : List Nat := (rows.flatMap fun r => blocksAt (v.rowAddr r) v.t.rowBytes).eraseDups

/-- The blocks of the elements of a tensor that are needed, given by row and column. -/
def needBlocks (v : View) (need : Nat → Nat → Bool) : List Nat :=
  (viewBlocks v).filter fun k => (List.range v.t.rows).any fun r => (List.range v.t.width).any fun c =>
    need r c && decide (blockIn (v.elemAddr (r * v.t.width + c)) = some k)

/-- The buffers of a placement: both halves of a tensor, and the other half of a run-ahead pair. -/
def buffers (c : Container) (pl : Placement) : List View :=
  (c.tensors.mapIdx fun i t => (i, t)).flatMap fun q =>
    let at_ := pl.tensors.getD q.1 default
    ([at_.half0, at_.half1] ++ (pl.pairs.filter fun e => decide (e.1 = q.1)).map (·.2)).map fun a => ⟨q.2, 0, a, at_.planePitch, at_.rowPitch, 0, 0⟩

/-- R118: those that lie in yards, each with its first byte and its blocks. -/
def bufferBlocks (c : Container) (pl : Placement) : List (Nat × List Nat) :=
  ((buffers c pl).map fun v => (v.rowAddr 0, viewBlocks v)).filter fun b => !b.2.isEmpty

/-- The rows of the buffers of a placement that lie in Stay SRAM: first byte and length. -/
def stayRows (c : Container) (pl : Placement) : List (Nat × Nat) :=
  ((buffers c pl).flatMap fun v => (List.range v.t.rows).map fun r => (v.rowAddr r, v.t.rowBytes)).filter fun q =>
    match regionOf q.1 with | .stay _ => true | _ => false

/-- The blocks of the declared buffers of a placement. -/
def declaredBlocks (c : Container) (pl : Placement) : List Nat := (bufferBlocks c pl).flatMap (·.2)

namespace State

/-- The tag of a block, and its value at the start of the cycle (R122). -/
def blockTag (s : State) (k : Nat) : BitVec 64 := s.reg (blockReg k)
def tagWas (s : State) (k : Nat) : BitVec 64 := s.regWas (blockReg k)
/-- R118: the block belongs to a declared buffer. -/
def armed (s : State) (k : Nat) : Bool := bit (s.blockTag k) 7

/-- The fills of a block in the tick. -/
def fillOf (s : State) (k : Nat) : Fill := SMap.get {} (s.yard (blockMast k) (blockYard k)).fills k
def onBlock (s : State) (k : Nat) (f : YardSt → YardSt) : State :=
  s.setYard (blockMast k) (blockYard k) (f (s.yard (blockMast k) (blockYard k)))
def setFill (s : State) (k : Nat) (f : Fill) : State := s.onBlock k fun v => { v with fills := SMap.set {} v.fills k f }

/-! ### What commands name (R120, R121; log entry 86) -/

/-- A read names the generation of the block's last fill. -/
def nameRead (s : State) (q : Nat × Bool) : TagUse := { block := q.1, gen := (s.fillOf q.1).gen, free := q.2 }

/-- A block is kept as it stood before the first write of an epoch (R227). -/
def markBlock (s : State) (p spec k : Nat) : State :=
  s.onBlock k fun v =>
    if spec = 0 ∨ v.marks.any (fun x => decide (x.prog = p ∧ x.spec = spec ∧ x.block = k)) then v
    else { v with marks := v.marks ++ [⟨p, spec, k, s.get (blockReg k) 0 8, SMap.get {} v.fills k⟩] }

/-- A write names the next generation, with the writers that fill the block together; a further writer of the fill names the same. -/
def nameWrite (s : State) (p spec seq : Nat) (others : List Nat) (k : Nat) : State × TagUse :=
  let f := s.fillOf k
  if f.members.contains seq then (s, { block := k, gen := f.gen, n := f.members.length })
  else
    let ms := seq :: others
    let g := (f.gen + 1) % 4
    ((s.markBlock p spec k).setFill k { gen := g, members := ms, left := ms.length }, { block := k, gen := g, n := ms.length })

/-- The blocks that a command writes, named one after the other. -/
def nameWrites (s : State) (p spec seq : Nat) (others : Nat → List Nat) (l : List Nat) : State × List TagUse :=
  match l with
  | [] => (s, [])
  | k :: rest =>
    let (s, u) := s.nameWrite p spec seq (others k) k
    let (s, us) := s.nameWrites p spec seq others rest
    (s, u :: us)

/-- A write of a block would start a fill while one by other writers is under way. -/
def fillBusy (s : State) (seq k : Nat) : Bool := decide ((s.fillOf k).left ≠ 0) && !(s.fillOf k).members.contains seq

/-- The tag of a block has changed in this cycle, so that a read's check would see it as it was (R122). -/
def tagMoved (s : State) (k : Nat) : Bool := decide (s.blockTag k ≠ s.tagWas k)

/-! ### Trips (R123) -/

/-- A trip is recorded and raised, and its program gives INVALID_FAULT. -/
def raiseTrip (s : State) (t : Trip) : State :=
  let m := blockMast t.block
  let y := blockYard t.block
  let r := yreg .yardTrip m y
  let s := s.firstRecord r 0 fun s =>
    let s := (((s.put r 1 2 t.kind).put r 3 5 t.port).put r 8 11 (t.block % 2048)).put r 19 2 t.gen
    ((s.put r 21 3 (s.slotOn t.prog m)).put r 24 8 t.tag).put (yreg .yardTripCyc m y) 0 27 t.cycle
  let s := if (s.yard m y).onceTrip then s
    else (s.setYard m y { s.yard m y with onceTrip := true }).raise 0x0504 m y (s.handle t.prog) (t.block % 2048) (s.t48 + t.kind * 2 ^ 48)
  s.unitFault t.prog

/-- An access of a command under `spec` epochs trips: at once, or when they commit (R227). -/
def tagTrip (s : State) (p spec port kind : Nat) (u : TagUse) : State :=
  let t : Trip := ⟨p, spec, kind, port, u.block, u.gen, fld (s.tagWas u.block) 0 8, s.cycle⟩
  if spec = 0 then s.raiseTrip t else s.onBlock u.block fun v => { v with trips := v.trips ++ [t] }

/-! ### Readers and writers (R120 to R122) -/

/-- R121: a reader's check of a block, against the tag at the start of the cycle. -/
def tagCheck (s : State) (p spec port kind : Nat) (u : TagUse) : State :=
  let t := s.tagWas u.block
  if !bit t 7 || (decide (fld t 4 3 = 0) && (u.free || decide (fld t 0 2 = u.gen))) then s else s.tagTrip p spec port kind u

/-- A reader's access to block `k`: kind 1 at its first, kind 2 at its last. -/
def tagAccess (s : State) (p spec port : Nat) (us : List TagUse) (k : Nat) (first last : Bool) : State :=
  match us.find? fun u => decide (u.block = k) with
  | some u => if first then s.tagCheck p spec port 1 u else if last then s.tagCheck p spec port 2 u else s
  | none => s

/-- The `j`-th of a command's `count` reads, at ascending addresses: it is the first, or the last, in its block where its neighbours lie in
others. -/
def seqAccess (s : State) (p spec port : Nat) (us : List TagUse) (addr : Nat → Nat) (count j : Nat) : State :=
  if us.isEmpty then s
  else match blockIn (addr j) with
    | some k => s.tagAccess p spec port us k (decide (j = 0 ∨ blockIn (addr (j - 1)) ≠ some k)) (decide (j + 1 = count ∨ blockIn (addr (j + 1)) ≠ some k))
    | none => s

/-- R120: a writer's first access to a block: it starts the fill, joins it, or trips. -/
def tagOpen (s : State) (p spec seq port : Nat) (u : TagUse) : State :=
  let r := blockReg u.block
  let t := s.reg r
  let join := fun (s : State) => s.onBlock u.block fun v => { v with joins := v.joins ++ [⟨p, spec, seq, u.block⟩] }
  if !bit t 7 then s
  else if fld t 4 3 = 0 ∧ u.gen = (fld t 0 2 + 1) % 4 then join ((s.put r 2 2 u.gen).put r 4 3 u.n)
  else if fld t 4 3 ≠ 0 ∧ fld t 2 2 = u.gen then join s
  else s.tagTrip p spec port 3 u

/-- R120: the tag when a writer that started or joined a fill completes. -/
def tagDone (s : State) (k : Nat) : State :=
  let r := blockReg k
  let n := s.get r 4 3 - 1
  let s := s.put r 4 3 n
  if n = 0 then s.put r 0 2 (s.get r 2 2) else s

/-- R120: a writer's last access to a block. -/
def tagClose (s : State) (p seq k : Nat) : State :=
  let f := s.fillOf k
  let s := s.setFill k { f with left := f.left - 1 }
  match (s.yard (blockMast k) (blockYard k)).joins.find? fun j => decide (j.prog = p ∧ j.seq = seq ∧ j.block = k) with
  | some j => (s.onBlock k fun v => { v with joins := v.joins.erase j }).tagDone k
  | none => s

/-- A write whose accesses to its blocks fall in one cycle. -/
def tagWrite (s : State) (p spec seq port : Nat) (us : List TagUse) : State :=
  us.foldl (fun s u => (s.tagOpen p spec seq port u).tagClose p seq u.block) s

/-- R282: a peripheral write sets left of an armed block at its first access and clears it at its last. -/
def putLeft (s : State) (left k : Nat) : State := if s.armed k then s.put (blockReg k) 4 3 left else s

/-! ### Epochs (R227) -/

/-- A yard's tags when epochs `k` and inner of program `p` squash: blocks that they wrote are as before. -/
def restoreTags (s : State) (p k m y : Nat) : State :=
  let gone := fun (q spec : Nat) => decide (q = p ∧ k ≤ spec)
  let v := s.yard m y
  let s := (v.marks.reverse.filter fun x => gone x.prog x.spec).foldl (fun s x => (s.put (blockReg x.block) 0 8 x.tag).setFill x.block x.fill) s
  let v := s.yard m y
  s.setYard m y { v with marks := v.marks.filter (fun x => !gone x.prog x.spec), joins := v.joins.filter (fun x => !gone x.prog x.spec)
                         trips := v.trips.filter fun x => !gone x.prog x.spec }

/-- The epochs of a yard's writers, marks and trips, through `f`; a mark of no epoch is over. -/
def lowerTags (s : State) (p m y : Nat) (f : Nat → Nat) : State :=
  let v := s.yard m y
  s.setYard m y { v with joins := v.joins.map (fun x => if x.prog = p then { x with spec := f x.spec } else x)
                         marks := (v.marks.map fun x => if x.prog = p then { x with spec := f x.spec } else x).filter fun x => decide (x.spec ≠ 0)
                         trips := v.trips.map fun x => if x.prog = p then { x with spec := f x.spec } else x }

/-- Trips whose epochs have committed are raised. -/
def raiseTrips (s : State) (m y : Nat) : State :=
  let ts := (s.yard m y).trips
  if ts.isEmpty then s
  else
    let s := s.setYard m y { s.yard m y with trips := ts.filter fun t => decide (t.spec ≠ 0) }
    (ts.filter fun t => decide (t.spec = 0)).foldl raiseTrip s

end State
end Sys2Proof.Machine
end

