-- ==== Sys2Proof/Machine/Patterns.lean ====
section
/-! DEFINITION. Descriptors of streams (R267, R268, R270, R273): header fields, the transforms' permutations, and the memory side of a
peripheral descriptor. -/

namespace Sys2Proof.Machine

/-- The fields of a descriptor header (Table 10.2). -/
def dEsize (d : List Byte) : Nat := 2 ^ leAt d 1 1
def dXform (d : List Byte) : Nat := leAt d 2 1
def dChans (d : List Byte) : Nat := leAt d 3 1 + 1
def dFlag (d : List Byte) (n : Nat) : Bool := (BitVec.ofNat 16 (leAt d 4 2)).getLsbD n
def dCq (d : List Byte) : Nat := leAt d 6 2
def dTag (d : List Byte) : Nat := leAt d 12 4

/-- Table 10.7: destination element π(k) of source element k, for the codes that permute; `side` is B, the side of a transposed block,
`n` the source's elements, `c` the channels. Blocks are taken from the elements in their order (log entry 26). -/
def permuteIdx (xform side n c k : Nat) : Nat :=
  if xform = 1 then k / side % side + side * (k % side) + side * side * (k / (side * side))
  else if xform = 2 then k % c * (n / c) + k / c
  else if xform = 3 then k % (n / c) * c + k / (n / c)
  else k

namespace State

def pctx (s : State) (r : Nat) : PctxSt := SMap.get {} s.strm.pctx r
def setPctx (s : State) (r : Nat) (c : PctxSt) : State := { s with strm := { s.strm with pctx := SMap.set {} s.strm.pctx r c } }
/-! ### The memory side (R267, R270, R281) -/

/-- A peripheral descriptor takes its memory side from the source table. -/
def srcSided (d : List Byte) : Bool := decide (leAt d 0x13 1 % 2 = 1)
def marksHalf (d : List Byte) : Bool := decide (leAt d 0x13 1 / 2 % 2 = 1)
def dSrc (d : List Byte) : Nat := leAt d 0x12 1
def toDevice (d : List Byte) : Bool := dFlag d 4
def burstBytes (d : List Byte) : Nat := 16 * leAt d 0x11 1

/-- Base and dimensions (count, stride) of a descriptor's memory side. -/
def memSide (s : State) (d : List Byte) (half : Bool) : Nat × List (Nat × Nat) :=
  if srcSided d then
    let n := dSrc d
    (s.get (sreg (if half then .strmSrcBase1 else .strmSrcBase0) n) 0 40,
     (List.range 3).map fun k => (s.get (sreg .strmSrcDim n k) 0 32, s.get (sreg .strmSrcDim n k) 32 32))
  else (leAt d 0x18 8 % 2 ^ 40, (List.range 3).map fun k => (leAt d (0x20 + 8 * k) 4, leAt d (0x24 + 8 * k) 4))

/-- The address of element `i` of a pattern. -/
def patAddr (base : Nat) : List (Nat × Nat) → Nat → Nat
  | [], _ => base
  | (c, st) :: ds, i => patAddr (base + (if c = 0 then 0 else i % c) * st) ds (if c = 0 then 0 else i / c)

/-- The elements of a pattern. -/
def patCount (ds : List (Nat × Nat)) : Nat := ds.foldl (fun n d => n * d.1) 1

/-- The elements of a descriptor. -/
def dElems (s : State) (d : List Byte) : Nat := patCount (s.memSide d false).2

/-- A peripheral capture of stream `strm` on a line has elements left that it writes in block `k`. -/
def leftIn (s : State) (line strm k : Nat) : Bool :=
  let c := s.pctx line
  if c.strm ≠ strm ∨ c.desc.isEmpty then false
  else
    let (a, ds) := s.memSide c.desc c.half
    let n := patCount ds
    if dXform c.desc = 4 then decide (c.elem < n)
    else (List.range (n - c.elem)).any fun i =>
      decide (blockIn (patAddr a ds (permuteIdx (dXform c.desc) 1 n (dChans c.desc) (c.elem + i))) = some k)

end State
end Sys2Proof.Machine
end

