-- ==== Sys2Proof/Machine/Branch.lean ====
section
/-! DEFINITION. The branch class (R189, R190): a branch resolves at once, or opens an epoch where its register is pending (R223). -/

namespace Sys2Proof.Machine

/-- What a branch is once issued. -/
structure Branch where
  idx : Nat
  disp : Int
  bound : Nat
  expect : Bool
  cond : Cond
  a : Operand
  b : Operand
  deriving DecidableEq, Repr

namespace State

/-- R190: the branch would be taken once more than its bound: it is not taken and the context stops. -/
def loopBound (s : State) (p idx : Nat) : State :=
  let m := s.firstMast p
  ((s.faultOn p m 2 idx).raise 0x0310 m 0xFF (s.handle p) idx s.t48).stopIssue p

/-- R189, R190: issue goes on where a branch with outcome `taken` leads. Under an open epoch a bound that would be exceeded stops
speculative issue, and is met on commit. -/
def follow (s : State) (p : Nat) (b : Branch) (taken : Bool) : State :=
  let c := s.ctx p
  if !taken then s.setCtx p { c with idx := b.idx + 1 }
  else if b.disp < 0 then
    let n := SMap.get 0 c.taken b.idx
    if b.bound ≤ n then
      if c.epochs.isEmpty then s.loopBound p b.idx else s.setCtx p { c with specBound := true, idx := b.idx }
    else s.setCtx p { c with taken := SMap.set 0 c.taken b.idx (n + 1), idx := (b.idx + b.disp).toNat }
  else s.setCtx p { c with idx := (b.idx + b.disp).toNat }

/-- R223: an epoch opens: the registers and the backward-branch counters are kept. -/
def openEpoch (s : State) (p : Nat) (b : Branch) : State :=
  let c := s.ctx p
  let e : Epoch := { regs := c.regs, taken := c.taken, idx := b.idx, disp := b.disp, bound := b.bound, expect := b.expect,
                     cond := b.cond, a := b.a, b := b.b, cmds := 0 }
  (s.setCtx p { c with epochs := e :: c.epochs }).follow p b b.expect

/-- An operand of a branch as read at issue: its value, unless its register is pending. -/
def readAtIssue (s : State) (p : Nat) (o : Operand) : Operand :=
  match o with
  | .imm v => .imm v
  | .reg r => if (s.ctx p).pendingReg r.toNat then .reg r else .imm ((s.regsOf p).getSc r)

/-- A branch that tests registers: it resolves at once where none is pending; else it opens an epoch where its allowance has a
branch left (R223), stops speculative issue where that is spent (R224), or stalls where it has none (R211). -/
def branchOn (s : State) (p : Nat) (g : Guard) (i : Instr) (c : Cond) (ra : BitVec 5) (b : Operand) (t : BrTail) : State :=
  let ops := ra.toNat :: b.uses
  if !s.canIssue p i then s
  else if s.fetchEcc p = 2 then s.imemFault p
  else
    let s := s.imemCorrect p
    let u := s.unblock p
    let br : Branch := ⟨(s.ctx p).idx, t.disp.toInt, t.bound.toNat, t.expect, c, s.readAtIssue p (.reg ra), s.readAtIssue p b⟩
    if !g.on (s.regsOf p) then u.advance p
    else if ops.any (s.ctx p).pendingReg then
      if s.depth p < (s.prog p).place.raBranches then u.openEpoch p br
      else s.block p i (decide (s.depth p ≠ 0))
    else u.follow p br (c.holds ((s.regsOf p).getSc ra) (b.value (s.regsOf p)))

/-- A branch on no register. -/
def branchAt (s : State) (p : Nat) (g : Guard) (i : Instr) (t : BrTail) (taken : ProgRegs → Bool) : State :=
  s.issueAt p g i [] fun s =>
    s.follow p ⟨(s.ctx p).idx, t.disp.toInt, t.bound.toNat, t.expect, .eq, .imm 0, .imm 0⟩ (taken (s.regsOf p))

end State

/-- br: always taken. -/
def execBr (p : Nat) (g : Guard) (t : BrTail) (s : State) : Host.Outcome State Fault Refusal :=
  .next (s.branchAt p g (.br p g t) t fun _ => true)

/-- br.eq. -/
def execBrEq (p : Nat) (g : Guard) (ra : BitVec 5) (b : Operand) (t : BrTail) (s : State) : Host.Outcome State Fault Refusal :=
  .next (s.branchOn p g (.brEq p g ra b t) .eq ra b t)

/-- br.ne. -/
def execBrNe (p : Nat) (g : Guard) (ra : BitVec 5) (b : Operand) (t : BrTail) (s : State) : Host.Outcome State Fault Refusal :=
  .next (s.branchOn p g (.brNe p g ra b t) .ne ra b t)

/-- br.lt. -/
def execBrLt (p : Nat) (g : Guard) (ra : BitVec 5) (b : Operand) (t : BrTail) (s : State) : Host.Outcome State Fault Refusal :=
  .next (s.branchOn p g (.brLt p g ra b t) .lt ra b t)

/-- br.ge. -/
def execBrGe (p : Nat) (g : Guard) (ra : BitVec 5) (b : Operand) (t : BrTail) (s : State) : Host.Outcome State Fault Refusal :=
  .next (s.branchOn p g (.brGe p g ra b t) .ge ra b t)

/-- br.ltu. -/
def execBrLtu (p : Nat) (g : Guard) (ra : BitVec 5) (b : Operand) (t : BrTail) (s : State) : Host.Outcome State Fault Refusal :=
  .next (s.branchOn p g (.brLtu p g ra b t) .ltu ra b t)

/-- br.geu. -/
def execBrGeu (p : Nat) (g : Guard) (ra : BitVec 5) (b : Operand) (t : BrTail) (s : State) : Host.Outcome State Fault Refusal :=
  .next (s.branchOn p g (.brGeu p g ra b t) .geu ra b t)

/-- br.flt. -/
def execBrFlt (p : Nat) (g : Guard) (ra : BitVec 5) (b : Operand) (t : BrTail) (s : State) : Host.Outcome State Fault Refusal :=
  .next (s.branchOn p g (.brFlt p g ra b t) .flt ra b t)

/-- br.fge. -/
def execBrFge (p : Nat) (g : Guard) (ra : BitVec 5) (b : Operand) (t : BrTail) (s : State) : Host.Outcome State Fault Refusal :=
  .next (s.branchOn p g (.brFge p g ra b t) .fge ra b t)

/-- br.p: taken where the predicate is 1. -/
def execBrP (p : Nat) (g : Guard) (pr : BitVec 3) (t : BrTail) (s : State) : Host.Outcome State Fault Refusal :=
  .next (s.branchAt p g (.brP p g pr t) t fun r => r.getPd pr)

end Sys2Proof.Machine
end

