-- ==== Sys2Proof/Config.lean ====
section
/-! DEFINITION. What the spec leaves to the implementation, as constants without a body: nothing here can be evaluated, so a
statement about any of them holds whatever they are. `freeValue` gives the values that the spec leaves undefined. -/

namespace Sys2Proof.Config

open Sys2Proof.Machine

/-- The n-th undefined value (log entry 8). -/
opaque freeValue : Nat → BitVec 64

/-- R245: what the translator's output depends on beside the container and the rig: the free units, the translator version and
the load request's mast mask. -/
structure FreeUnits where
  yards : List Nat
  contexts : List (Nat × Nat)
  wheel : List (Nat × Nat)
  flags : List (Nat × Nat)
  counters : List (Nat × Nat)
  tables : List (Nat × Nat)
  imem : List (Nat × Nat)
  pool : List (Nat × Nat × Nat)
  deriving DecidableEq, Repr

/-- What the translator answers for the checks that need its schedule (Table 9.4 steps 15 to 20): a placement, or
the candidate that reached the highest step (R246), with the reason code, the step and the detail words of the refusal. -/
inductive TransOut where
  | fits (p : Placement)
  | refused (p : Placement) (reason step detail detail2 detail3 : Nat)
  deriving DecidableEq, Repr, Inhabited

/-- R245, R246: the translator. The arguments are the container, the rig digest, the translator version, the free units and the mast
mask. -/
opaque translate : List Byte → List Byte → BitVec 32 → FreeUnits → Nat → TransOut

/-- Table 9.4 step 11: the output of an admitted program, as program number and head, that a bind value of 256 or more names: the spec
gives no encoding of it. -/
opaque bindOutput : Nat → Nat × Nat

/-- R196: the input digest of a tick with the bytes of its mv.strm taps folded into it: the spec does not say how (log entry 89). -/
opaque foldTap : List Byte → List Byte → List Byte

/-- R402: the body of a handoff record, internal to the firmware that writes it. -/
opaque handoffBody : Nat → List Byte

/-- R25, R26: the power of the Stay die blocks that a rig enables, in mW, from its PDOM and MEDIA sections. -/
opaque stayPower : List Byte → List Byte → Nat

/-- R176: ECDSA P-384 with SHA-384 over a message: public key, signature, message. -/
opaque ecdsaVerify : List Byte → List Byte → List Byte → Bool

/-- R176: LMS verification: public key, signature, message. -/
opaque lmsVerify : List Byte → List Byte → List Byte → Bool

/-- R394: the unique device secret. -/
opaque uds : List Byte

/-- R394: the public key, 97 bytes uncompressed, of a P-384 private key seed, and a signature with it. -/
opaque ecdsaPub : List Byte → List Byte
opaque ecdsaSign : List Byte → List Byte → List Byte

/-- R394, R397: the HSS public key of a seed, and the HSS signature with index q over a message. -/
opaque hssPub : List Byte → List Byte
opaque hssSign : List Byte → Nat → List Byte → List Byte

/-- R298: the fixed edge-directed interpolation: Bayer order, width, height, pixels; gives R, G and B of every pixel. -/
opaque demosaic : Nat → Nat → Nat → List Nat → List (List Nat)
/-- R298: the median of eight neighbours. -/
opaque defectMedian : List Nat → Nat
/-- R298: defect correction at the border: threshold, pixel, the neighbours there are. -/
opaque defectEdge : Nat → Nat → List Nat → Nat
/-- R298: the green gain that a demosaiced pixel takes is that of Gr. -/
opaque greenSite : Nat → Nat → Bool
/-- R298: the fixed 5 × 5 filter: strength 1 to 15, width, height, pixels. -/
opaque denoise : Nat → Nat → Nat → List (List Nat) → List (List Nat)
/-- R298: the tone map's output is rounded up. -/
opaque toneUp : Nat → Bool
/-- R298: RGB to YUV: the conversion of w44, width, height, output format, planes R, G, B; gives Y, or Y, U, V at full size. -/
opaque toYuv : Nat → Nat → Nat → Nat → List (List Byte) → List Byte
/-- R298: a YUV422 frame, or a decoded frame (data type 0), at colour convert: the conversion of w44, data type, width, height, output format,
frame; gives the planes of that format at full size. -/
opaque convertYuv : Nat → Nat → Nat → Nat → Nat → List Byte → List Byte

/-- R277, R280: the completion queue that the MP names in the descriptors it builds for a request line, which no section of the rig
gives. -/
opaque mediaQueue : Nat → Nat

/-- R300: crop and area-average scaling of one plane; the list is crop x, y, width, height, output width, height, source width. -/
opaque scale : List Nat → List Byte → List Byte

/-- R302: the decoder: session's codec and the bitstream bytes consumed; gives the decoded frame. -/
opaque decodeFrame : Nat → List Byte → List Byte

/-- R305: the encoder: codec, rate control, QP, bit rate, coded as IDR, source frame; gives the access unit. -/
opaque encodeFrame : Nat → Nat → Nat → Nat → Bool → List Byte → List Byte

/-- R307: JPEG: quality and source frame. -/
opaque encodeJpeg : Nat → List Byte → List Byte

/-- R310: the fixed decimation and rate-conversion filters: rate code and the raw samples of one channel; gives the samples of one
block before saturation. -/
opaque audioFilter : Nat → List (BitVec 32) → List Int

end Sys2Proof.Config
end

