-- ==== Sys2Proof/Machine/Sails.lean ====
section
/-! DEFINITION. The sails cycle by cycle (R83 to R93, R97 to R101): suits, hazards, runs that read a vector each cycle, the pipeline to
the foot's stage F, partials passed down, and loads that write the shadow set row by row. -/

namespace Sys2Proof.Machine

/-! ### Suits (Table 4.4) -/

/-- The sail that passes its partial down to sail `s`, and the sail that leads it in a horizontal gang. -/
def sailAbove (shape s : Nat) : Option Nat :=
  if shape = 4 then (if s = 0 then none else some (s - 1))
  else if s = 1 ∧ (shape = 1 ∨ shape = 3 ∨ shape = 9 ∨ shape = 10) then some 0
  else if s = 3 ∧ (shape = 2 ∨ shape = 3 ∨ shape = 9 ∨ shape = 11) then some 2
  else none

def sailLead (shape s : Nat) : Option Nat :=
  if shape = 9 then (if s = 2 then some 0 else if s = 3 then some 1 else none)
  else if shape = 8 ∧ s ≠ 0 then some 0
  else if s = 1 ∧ (shape = 5 ∨ shape = 7 ∨ shape = 11) then some 0
  else if s = 3 ∧ (shape = 6 ∨ shape = 7 ∨ shape = 10) then some 2
  else none

/-- The sail that takes the partials of sail `s`; none for a foot. -/
def sailBelow (shape s : Nat) : Option Nat := (List.range 4).find? fun t => decide (sailAbove shape t = some s)

/-- R90: a foot passes nothing on. -/
def sailIsFoot (shape s : Nat) : Bool := (sailBelow shape s).isNone

/-- R90: the height of the suit that sail `s` belongs to. -/
def suitHeight (shape s : Nat) : Nat :=
  if shape = 4 then 4
  else if (sailAbove shape s).isSome || !sailIsFoot shape s then 2 else 1

/-- The sails above sail `s` in its suit, and itself, as bits. -/
def suitMask (shape s : Nat) : Nat :=
  if shape = 4 then 2 ^ (s + 1) - 1
  else 2 ^ s + (match sailAbove shape s with | some t => 2 ^ t | none => 0)

/-! ### Pipelines (Tables 4.2, 4.3) -/

/-- Table 4.3: cycles from the row edge to the boom's input. -/
def runLatency (mode : Mode) (atype : Nat) : Nat :=
  match mode with
  | .i8 => if atype = 0 then 6 else 7
  | .w4a8 => if atype = 0 then 7 else 8
  | .c4 => 8

/-- R87: the cycle of stage F of a vector read in cycle `c`: four cycles to the row edge, and the last of Table 4.3's. -/
def stageF (c : Nat) (mode : Mode) (atype : Nat) : Nat := c + 4 + runLatency mode atype - 1

/-- R86, R93: a run takes two vectors a cycle: code weights in a suit of height 2 or 4. -/
def twoSlot (shape s : Nat) (mode : Mode) : Bool := decide (1 < suitHeight shape s) && decide (mode ≠ .i8)

/-- R92: two partials are of the same vector: their runs agree, the lower one 2 cycles after the upper, and their places in them. -/
def sameVector (upper own : SailVec) : Bool :=
  decide (upper.run.start + 2 = own.run.start ∧ upper.run.count = own.run.count ∧ upper.run.mode = own.run.mode ∧ upper.idx = own.idx)

/-- The partials of a vector with those passed down. -/
def addPartials (a b : SailVec) : SailVec :=
  { a with ps := a.ps.mapIdx fun j x => x + b.ps.getD j 0, mask := (BitVec.ofNat 4 a.mask ||| BitVec.ofNat 4 b.mask).toNat }

namespace State

/-! ### Hazards and sets -/

/-- R99: a sail meets a hazard: recorded, raised once per sail and tick, and the program's tick is invalid (log entry 22). -/
def sailHazard (s : State) (p m y n cause : Nat) : State :=
  let s := s.firstRecord (yreg .sailHaz m y n) 0 fun s =>
    ((s.put (yreg .sailHaz m y n) 1 3 cause).put (yreg .sailHaz m y n) 4 3 (s.slotOn p m)).put (yreg .sailHazCyc m y n) 0 27 s.cycle
  let s := s.setBits (yreg .yardFault m y) (BitVec.ofNat 64 (2 ^ n))
  let sl := s.sail m y n
  let s := if sl.hazTick then s
    else (s.setSail m y n { sl with hazTick := true }).raise 0x0203 m y (s.handle p) cause
      (s.cycle % 2 ^ 27 + s.slotOn p m * 2 ^ 32 + n * 2 ^ 48)
  s.unitFault p

/-- SAIL_STATE. -/
def liveSet (s : State) (m y n : Nat) : Nat := s.get (yreg .sailState m y n) 0 1
def shadowState (s : State) (m y n : Nat) : Nat := s.get (yreg .sailState m y n) 1 2
def liveEmpty (s : State) (m y n : Nat) : Bool := bit (s.reg (yreg .sailState m y n)) 3
def putSail (s : State) (m y n lo w v : Nat) : State := s.put (yreg .sailState m y n) lo w v

/-- The shape of a yard. -/
def suitShape (s : State) (m y : Nat) : Nat := s.get (yreg .yardSuit m y) 0 4

/-- R89, Table 4.1: the shadow set becomes live, and the former live set shadow and READY. -/
def flipSail (s : State) (m y n : Nat) : State :=
  let v := s.reg (yreg .sailState m y n)
  let s := s.putSail m y n 0 1 (1 - fld v 0 1)
  let s := s.putSail m y n 1 2 2
  let s := s.putSail m y n 3 1 (if fld v 1 2 = 0 then 1 else 0)
  (s.putSail m y n 4 1 (fld v 5 1)).putSail m y n 5 1 (fld v 4 1)

/-! ### Runs -/

/-- The 32 stored elements of vector `j` of an operand, as the row edges receive them. -/
def actRaw (s : State) (r : SailRun) (j : Nat) : List Nat :=
  let v := (s.prog r.prog).viewAt r.act false r.spec
  (List.range 32).map fun i => s.elem v ((r.act.off + j) * 32 + i)

/-- R67: the decoded activations of a vector: codes go through the activation table of set `set`. -/
def decodeActs (sl : SailSt) (set atype : Nat) (raw : List Nat) : List Int :=
  raw.map fun x => if atype = 0 then (BitVec.ofNat 8 x).toInt else (SMap.get 0 sl.atbl (set * 256 + x % 256)).toInt

/-- The weight of cell (row, column) of a set: an INT8 value, or its code through the weight table. -/
def cellWeight (sl : SailSt) (mode : Mode) (set r j : Nat) : Int :=
  let c := SMap.get 0 sl.cells (set * 1024 + r * 32 + j)
  match mode with
  | .i8 => c.toInt
  | _ => (SMap.get 0 sl.wtbl (set * 256 + c.toNat % 16)).toInt

/-- R67: the 32 column partials of one vector. -/
def vectorPartials (sl : SailSt) (mode : Mode) (set : Nat) (acts : List Int) : List Int :=
  (List.range 32).map fun j => partialSum acts ((List.range 32).map fun r => cellWeight sl mode set r j)

/-- The run whose vectors sail `n` takes in this cycle: its own, or for a broadcast member the lead's (R91). -/
def vecSource (s : State) (m y n : Nat) (r : SailRun) : Option SailRun :=
  if r.bcast then
    match sailLead (s.suitShape m y) n with
    | some l => (s.sail m y l).run.bind fun q => if q.start = r.start then some q else none
    | none => none
  else some r

/-- Vector `j` of a run enters the pipeline of its sail: with no lead to take it from, or from an EMPTY set, what it computes is not
defined (log entry 8). -/
def pushVector (s : State) (m y n : Nat) (r : SailRun) (j : Nat) : State :=
  let sl := s.sail m y n
  let raw := (s.vecSource m y n r).map fun q => s.actRaw q j
  let acts := decodeActs sl r.set r.atype (raw.getD [])
  let known := raw.isSome && !r.undef
  let ps := if known then vectorPartials sl r.mode r.set acts
    else (List.range 32).map fun i => ((Config.freeValue (s.free + i)).setWidth 32).toInt
  let v : SailVec := ⟨r, j, s.cycle, stageF s.cycle r.mode r.atype, ps, acts.countP (fun x => decide (x = 0)), SMap.get 0 sl.tid r.set,
    SMap.get 0 sl.tile r.set, 2 ^ n, false⟩
  let s := s.setSail m y n { sl with pipe := sl.pipe ++ [v] }
  if known then s else s.takeFree 32

/-- The address of vector `j` of a run. -/
def vecAddr (g : Prog) (r : SailRun) (j : Nat) : Nat := (g.viewAt r.act false r.spec).elemAddr ((r.act.off + j) * 32)

/-- R86, R88: a run issues the reads of one cycle: one vector, or two, in one access of the sail's port, with the tag checks of R121; a
broadcast member reads nothing (R91). -/
def issueVectors (s : State) (m y n : Nat) (r : SailRun) : State :=
  let k := min (if twoSlot (s.suitShape m y) n r.mode then 2 else 1) (r.count - r.issued)
  let s := if r.bcast then s
    else
      let g := s.prog r.prog
      let s := s.lineReads r.prog m y n (vecAddr g r r.issued) (k * 32 * typeBits (g.tensor r.act.tid).type / 8)
      (List.range k).foldl (fun s i => s.seqAccess r.prog r.spec n r.tags (vecAddr g r) r.count (r.issued + i)) s
  let s := (List.range k).foldl (fun s i => s.pushVector m y n r (r.issued + i)) s
  s.setSail m y n { s.sail m y n with run := some { r with issued := r.issued + k } }

/-- SAIL_RUN. -/
def showRun (s : State) (m y n : Nat) (r : SailRun) (flip : Bool) : State :=
  let g := yreg .sailRun m y n
  let md := match r.mode with | .i8 => 0 | .w4a8 => 1 | .c4 => 2
  let s := ((s.put g 0 2 md).put g 2 2 r.atype).put g 4 1 (if r.bcast then 1 else 0)
  ((s.put g 5 1 (if twoSlot (s.suitShape m y) n r.mode then 1 else 0)).put g 6 1 (if flip then 1 else 0)).put g 8 17 (r.count - 1)

/-- R91, R99: the lead of a broadcast member starts a run of the same count and mode in this cycle. -/
def leadInStep (s : State) (m y n : Nat) (mode : Mode) (count : Nat) : Bool :=
  match (sailLead (s.suitShape m y) n).bind fun l => (s.sail m y l).run with
  | some r => decide (r.start = s.cycle ∧ r.count = count ∧ r.mode = mode)
  | none => false

/-- R88, R89, R99: a run starts: it meets hazards 1 and 2, may flip, and issues its first read. -/
def startRun (s : State) (c : EngCmd) (m y n : Nat) (mode : Mode) (atype : Nat) (flip bcast first : Bool) (act : Slice)
    (count entry : Nat) (tags : List TagUse) : State :=
  let st := s.shadowState m y n
  let s := if (if flip then decide (st = 0 ∨ st = 1) else s.liveEmpty m y n) then s.sailHazard c.prog m y n 1 else s
  let s := if bcast && !s.leadInStep m y n mode count then s.sailHazard c.prog m y n 2 else s
  let s := if flip then s.flipSail m y n else s
  let r : SailRun := ⟨c.prog, c.spec, c.seq, s.cycle, count, 0, mode, atype, bcast, first, act, entry, s.liveSet m y n, s.liveEmpty m y n, tags⟩
  ((s.showRun m y n r flip).putSail m y n 8 1 0).issueVectors m y n r

/-- A run goes on: the reads of the cycle, or its end after the last (R88). -/
def runStep (s : State) (m y n : Nat) : State :=
  match (s.sail m y n).run with
  | none => s
  | some r => if r.issued < r.count then s.issueVectors m y n r else s.setSail m y n { s.sail m y n with run := none }

/-- R106: the vectors that enter the row edge in this cycle are counted, and those at stage E their gated rows. -/
def countVectors (s : State) (m y n : Nat) : State :=
  let ps := (s.sail m y n).pipe
  let entered := ps.countP fun v => decide (v.read + 4 = s.cycle)
  let gated := (ps.filter fun v => decide (v.read + 4 + (if v.run.atype = 0 then 0 else 1) = s.cycle)).foldl (fun k v => k + v.zeros) 0
  let s := if entered = 0 then s else s.perf (yreg .sailVecCnt m y n) entered
  if gated = 0 then s else s.perf (yreg .sailRowgateCnt m y n) gated

/-! ### Stage F (R92, R93) -/

/-- The boom that a vector of a suit's foot `n` goes to: slot 1 of a two-slot run to the sail above. -/
def slotBoom (shape n : Nat) (v : SailVec) : Nat :=
  if twoSlot shape n v.run.mode && decide (v.idx % 2 = 1) then (sailAbove shape n).getD n else n

/-- A vector leaves stage F: down to the next sail, two cycles away, or from a foot to its boom, whose entry is updated six cycles after
the next. -/
def leaveF (s : State) (m y n : Nat) (v : SailVec) : State :=
  let shape := s.suitShape m y
  match sailBelow shape n with
  | some t => s.setSail m y t { s.sail m y t with inbox := (s.sail m y t).inbox ++ [{ v with due := s.cycle + 2 }] }
  | none =>
    let b := slotBoom shape n v
    s.setBoom m y b { s.boom m y b with ins := (s.boom m y b).ins ++ [{ v with due := s.cycle + 7 }] }

/-- R99, cause 3: at a foot, its own vector and the one passed down are of different vectors, or one is missing, here or at a sail
above (log entry 72). -/
def footHazard (s : State) (m y n : Nat) (own : Option SailVec) (got : Option SailVec) : Bool :=
  let shape := s.suitShape m y
  sailIsFoot shape n && (sailAbove shape n).isSome &&
    match own, got with
    | some v, some u => !sameVector u v || decide ((addPartials v u).mask ≠ suitMask shape n)
    | _, _ => true

/-- One slot of stage F of a sail in this cycle. -/
def slotF (s : State) (m y n : Nat) (own got : Option SailVec) : State :=
  if own.isNone && got.isNone then s
  else
    let p := match own, got with
      | some v, _ => v.run.prog
      | none, some u => u.run.prog
      | none, none => 0
    let s := if s.footHazard m y n own got then s.sailHazard p m y n 3 else s
    match own, got with
    | some v, some u => s.leaveF m y n (addPartials v u)
    | some v, none => s.leaveF m y n v
    | none, some u => if sailIsFoot (s.suitShape m y) n then s else s.leaveF m y n u
    | none, none => s

/-- Stage F of a sail: both vector slots. -/
def stageStep (s : State) (m y n : Nat) : State :=
  let sl := s.sail m y n
  let own := sl.pipe.filter fun v => decide (v.due ≤ s.cycle) && !v.dead
  let got := sl.inbox.filter fun v => decide (v.due ≤ s.cycle)
  let s := s.setSail m y n { sl with pipe := sl.pipe.filter (fun v => decide (s.cycle < v.due))
                                     inbox := sl.inbox.filter fun v => decide (s.cycle < v.due) }
  let slot := fun (k : Nat) (l : List SailVec) => l.find? fun v => decide ((if twoSlot (s.suitShape m y) n v.run.mode then v.idx % 2 else 0) = k)
  (s.slotF m y n (slot 0 own) (slot 0 got)).slotF m y n (slot 1 own) (slot 1 got)

/-! ### Loads (R97, R98) -/

/-- Lines of 64 table entries, one read a cycle. -/
def tableLines (n : Nat) : Nat := cdiv n 64

/-- A load starts: the set that is shadow is its target from now on, a weight load makes it LOADING. -/
def beginLoad (s : State) (c : EngCmd) (m y n : Nat) (kind : LoadKind) (base cycles : Nat) (tags : List TagUse) : State :=
  let ld : SailLoad := ⟨kind, c.prog, c.spec, s.cycle, 1 - s.liveSet m y n, base, [], s.afterCycles cycles, tags⟩
  (s.setSail m y n { s.sail m y n with load := some ld }).putSail m y n 7 1 1

/-- R97: row `r` of the tile in hand is read. -/
def readTileRow (s : State) (m y n : Nat) (ld : SailLoad) (c4 : Bool) (r : Nat) : State :=
  let k := if c4 then 16 else 32
  let a := ld.base + r * k
  let s := (s.lineReads ld.prog m y (4 + n) a k).seqAccess ld.prog ld.spec (4 + n) ld.tags (fun i => ld.base + i * k) 32 r
  s.setSail m y n { s.sail m y n with load := some { ld with rows := ld.rows ++ [s.bytes a k] } }

/-- The cells of a row: C4 codes unpacked, C8 codes decoded through the weight table as it stands (R97, R98). -/
def rowCells (sl : SailSt) (set : Nat) (c4 c8 : Bool) (bs : List Byte) : List Byte :=
  if c4 then bs.flatMap fun b => [b &&& 0xF, b >>> 4]
  else if c8 then bs.map fun b => SMap.get 0 sl.wtbl (set * 256 + b.toNat)
  else bs

/-- R97: row `r` is written. -/
def writeTileRow (s : State) (m y n : Nat) (ld : SailLoad) (c4 c8 : Bool) (r : Nat) : State :=
  let sl := s.sail m y n
  let cells := rowCells sl ld.set c4 c8 (ld.rows.getD r [])
  s.setSail m y n { sl with cells := SMap.setRange 0 (fun i => cells.getD i 0) (ld.set * 1024 + r * 32) 32 sl.cells }

/-- R98: entries of a codebook into a table of the load's set, 64 of them a cycle. -/
def writeTable (s : State) (m y n : Nat) (ld : SailLoad) (weight : Bool) (cbk k : Nat) : State :=
  let es := ((s.prog ld.prog).box.cbk cbk).drop (64 * k) |>.take 64
  let sl := s.sail m y n
  let put := fun (t : SMap Byte) => SMap.setRange 0 (fun i => BitVec.ofInt 8 (es.getD i 0)) (ld.set * 256 + 64 * k) es.length t
  s.setSail m y n (if weight then { sl with wtbl := put sl.wtbl } else { sl with atbl := put sl.atbl })

/-- R98: the live table into the shadow table. -/
def copyTable (s : State) (m y n : Nat) (weight : Bool) : State :=
  let live := s.liveSet m y n
  let sl := s.sail m y n
  let cp := fun (t : SMap Byte) => SMap.setRange 0 (fun i => SMap.get 0 t (live * 256 + i)) ((1 - live) * 256) 256 t
  s.setSail m y n (if weight then { sl with wtbl := cp sl.wtbl } else { sl with atbl := cp sl.atbl })

/-- What the load in progress does in this cycle, its `k`-th: reads a row or a line, and writes one. -/
def loadWork (s : State) (m y n k : Nat) (ld : SailLoad) : State :=
  match ld.kind with
  | .tile c4 tid _ =>
    let s := if k < 32 then s.readTileRow m y n ld c4 k else s
    if 8 ≤ k ∧ k < 40 then s.writeTileRow m y n ld c4 (decide (((s.prog ld.prog).tensor tid).type = 4)) (k - 8) else s
  | .table weight cbk =>
    let lines := tableLines ((s.prog ld.prog).box.cbk cbk).length
    let s := if k < lines && decide (ld.base ≠ 0) then
        (s.lineReads ld.prog m y (4 + n) (ld.base + 64 * k) 64).seqAccess ld.prog ld.spec (4 + n) ld.tags (fun i => ld.base + 64 * i) lines k
      else s
    if 4 ≤ k ∧ k < 4 + lines then s.writeTable m y n ld weight cbk (k - 4) else s
  | .copy weight => if k = 0 then s.copyTable m y n weight else s

/-- The load in progress of a sail. -/
def loadStep (s : State) (m y n : Nat) : State :=
  match (s.sail m y n).load with
  | some ld => s.loadWork m y n (s.cycle - ld.start) ld
  | none => s

/-- The address of a tile. -/
def tileAddr (g : Prog) (wt : Slice) (c4 : Bool) (spec : Nat) : Nat := (g.viewAt wt false spec).base + wt.off * (if c4 then 512 else 1024)

/-- R97: a weight load starts: its target set is LOADING and READY 40 cycles later. -/
def startLoad (s : State) (c : EngCmd) (m y n : Nat) (c4 : Bool) (wt : Slice) (tags : List TagUse) : State :=
  let s := s.beginLoad c m y n (.tile c4 wt.tid wt.off) (tileAddr (s.prog c.prog) wt c4 c.spec) 40 tags
  ((s.putSail m y n 1 2 1).putSail m y n 5 1 (if c4 then 1 else 0)).loadStep m y n

/-- Where a codebook lies for the loads of a yard; 0 where the placement names no place. -/
def cbkAt (g : Prog) (yard cbk : Nat) : Nat :=
  match g.place.cbks.find? fun e => decide (e.1 = yard ∧ e.2.1 = cbk) with
  | some e => e.2.2
  | none => 0

/-- R98: a table load starts: its first entries are written 4 cycles after their read. -/
def startTable (s : State) (c : EngCmd) (m y n : Nat) (weight : Bool) (cbk : Nat) (tags : List TagUse) : State :=
  let g := s.prog c.prog
  (s.beginLoad c m y n (.table weight cbk) (cbkAt g (8 * m + y) cbk) (4 + tableLines (g.box.cbk cbk).length) tags).loadStep m y n

/-- R98: a table copy takes one cycle. -/
def startCopy (s : State) (c : EngCmd) (m y n : Nat) (weight : Bool) : State :=
  (s.beginLoad c m y n (.copy weight) 0 1 []).loadStep m y n

/-- R97, R100: a load completes: a tile's set is READY, or SPEC under an open epoch, whether it is still shadow or a run has flipped to
it (log entry 73); a speculative table load puts its set in SPEC (log entry 74). -/
def finishLoad (s : State) (m y n : Nat) (ld : SailLoad) : State :=
  let sl := s.sail m y n
  let live := decide (s.liveSet m y n = ld.set)
  match ld.kind with
  | .tile _ tid tile =>
    let s := s.setSail m y n { sl with load := none
                                       tid := SMap.set 0 sl.tid ld.set (tid + 1)
                                       tile := SMap.set 0 sl.tile ld.set (tile + 1)
                                       setSpec := ld.spec }
    (if live then s.putSail m y n 3 1 0 else s.putSail m y n 1 2 (if ld.spec = 0 then 2 else 3)).putSail m y n 7 1 0
  | _ =>
    let s := (s.setSail m y n { sl with load := none, setSpec := if ld.spec = 0 then sl.setSpec else ld.spec }).putSail m y n 7 1 0
    if ld.spec = 0 ∨ live then s else s.putSail m y n 1 2 3

/-- What the four sails of a yard do in a cycle. -/
def sailsStep (s : State) (m y : Nat) : State :=
  (List.range 4).foldl (fun s n => (((s.countVectors m y n).stageStep m y n).runStep m y n).loadStep m y n) s

end State
end Sys2Proof.Machine
end

