-- ==== Sys2Proof/Machine/Booms.lean ====
section
/-! DEFINITION. The booms cycle by cycle (R70 to R82, R94 to R96, R226): accumulators, partials that join them, epilogues and preloads that
take one entry a cycle, the chain, and the configuration registers. -/

namespace Sys2Proof.Machine

/-! ### Accumulators -/

/-- Where an accumulator lane stands. -/
def accKey (bank entry lane : Nat) : Nat := bank * 16384 + entry * 32 + lane

/-- R226: the bank that an entry is read from, and the bank that a command under `spec` epochs writes. -/
def BoomSt.readBank (b : BoomSt) (e : Nat) : Nat :=
  let live := if SMap.get false b.liveB e then 1 else 0
  if SMap.get 0 b.pending e = 0 then live else 1 - live
def BoomSt.writeBank (b : BoomSt) (e spec : Nat) : Nat :=
  let live := if SMap.get false b.liveB e then 1 else 0
  if spec = 0 then live else 1 - live

/-- The 32 lanes of an accumulator entry. -/
def BoomSt.entry (b : BoomSt) (e : Nat) : List Word :=
  (List.range 32).map fun l => SMap.get 0 b.acc (accKey (b.readBank e) e l)

/-- Writing an accumulator entry. -/
def BoomSt.setEntry (b : BoomSt) (e spec : Nat) (v : List Word) : BoomSt :=
  let bank := b.writeBank e spec
  { b with acc := SMap.setRange 0 (fun l => v.getD l 0) (accKey bank e 0) 32 b.acc
           pending := if spec = 0 then b.pending else SMap.set 0 b.pending e spec }

namespace State

/-- R226: an entry is written under `spec` epochs; BOOM_EPI_CTRL shows the bank. -/
def putEntry (s : State) (m y n e spec : Nat) (v : List Word) : State :=
  let b := s.boom m y n
  (s.setBoom m y n (b.setEntry e spec v)).put (yreg .boomEpiCtrl m y n) 10 1 (b.writeBank e spec)

/-- R80: a unit holds something until its epoch commits. -/
def holdBack (s : State) (m y : Nat) (h : Held) : State :=
  (s.setYard m y { s.yard m y with held := (s.yard m y).held ++ [h] }).put (yreg .boomStatus m y h.boom) 8 1 1

/-- R75, R80: causes met by a command under `spec` epochs: at once, or held. -/
def specCauses (s : State) (p m y n spec slot causes : Nat) : State :=
  if spec = 0 then s.meetCauses p m y n slot causes
  else if causes = 0 then s
  else s.holdBack m y { prog := p, boom := n, slot := slot, causes := causes, spec := spec }

/-- R78, R80: counts and causes of a quantisation under `spec` epochs; slot 0xFFFF counts nothing. -/
def specCounts (s : State) (p m y n spec slot sat rtz causes : Nat) : State :=
  if spec = 0 then (if slot = 0xFFFF then s else s.countInto m y slot sat rtz).meetCauses p m y n slot causes
  else if sat + rtz + causes = 0 then s
  else s.holdBack m y { prog := p, boom := n, slot := slot, sat := sat, rtz := rtz, causes := causes, spec := spec }

/-- R71, R72: a vector of partials joins its accumulator entry: the group's scales, first or not. Causes met here name no output tensor
and count as uncounted (log entry 75). -/
def joinPartials (s : State) (m y n : Nat) (v : SailVec) : State :=
  let r := v.run
  let g := s.prog r.prog
  let va := g.viewAt r.act false r.spec
  let gs := groupSize va.t.gsz
  let at_ := (r.act.off + v.idx) * 32
  let wt := g.tensor (v.tid - 1)
  let kt := cdiv (wt.dims.getD 0 1) 32
  let tile := v.tile - 1
  let sa := s.actScale g va (at_ / va.t.width) (at_ % va.t.width / gs)
  let sw := fun l => wtScale g wt (tile % kt * 32 / gs) (tile / kt * 32 + l)
  let e := (r.entry + v.idx) % 512
  let (out, t) := tallied (fun (q : Int × Word × Nat) => rescale q.1 sa (sw q.2.2) r.first q.2.1)
    (v.ps.zip (((s.boom m y n).entry e).mapIdx fun i a => (a, i)))
  (s.putEntry m y n e r.spec out).specCauses r.prog m y n r.spec 0xFFFF t.causes

/-! ### Configuration registers (R82) -/

/-- An output codebook is loaded: entries 16 to 255 are undefined while it has 16 (log entry 8). -/
def loadOcbk (s : State) (m y n : Nat) (es : List Int) : State :=
  if es.isEmpty then s
  else
    let f := fun i => if i < es.length then BitVec.ofInt 8 (es.getD i 0) else (Config.freeValue (s.free + i)).setWidth 8
    (s.setBoom m y n { s.boom m y n with ocbk := SMap.setRange 0 f 0 256 (s.boom m y n).ocbk }).takeFree
      (if es.length < 256 then 256 else 0)

/-- R82: the configuration registers of a boom read as the command most recently started; `gsz` is the code of the group size. -/
def boomConfig (s : State) (m y n gsz : Nat) (c : EpiCfg) (bias : Bool) (slot : Option Nat) : State :=
  let r := yreg .boomEpiCtrl m y n
  let s := ((s.put r 0 3 c.act).put r 3 1 (if bias then 1 else 0)).put r 4 3 c.qmode
  let s := ((s.put r 7 1 (if slot.isSome then 1 else 0)).put r 8 2 gsz).put r 16 9 (slot.getD 0)
  let s := (s.setReg (yreg .boomAlpha m y n) (c.alpha.setWidth 64)).setReg (yreg .boomClampLo m y n) (c.lo.setWidth 64)
  let s := (s.setReg (yreg .boomClampHi m y n) (c.hi.setWidth 64)).setReg (yreg .boomOutScale m y n) (c.outScale.setWidth 64)
  if c.qmode = 1 ∨ c.qmode = 2 then s.loadOcbk m y n c.cbk else s

/-- R82: a scale derivation shows its factor and fallback. -/
def scaleConfig (s : State) (m y n : Nat) (t : Tensor) : State :=
  (s.setReg (yreg .boomDscK m y n) (t.k.setWidth 64)).setReg (yreg .boomFallback m y n) (t.fallback.setWidth 64)

/-- The code of the group size of a suit. -/
def heightCode (h : Nat) : Nat := if h = 4 then 2 else if h = 2 then 1 else 0

/-! ### Epilogues and preloads -/

/-- How many entries a command takes. -/
def EngOp.entries : EngOp → Nat
  | .epi _ _ _ count _ _ => count
  | .pre _ _ count => count
  | _ => 0

/-- Table 3.3: cycles from an entry's read to its output. -/
def epiLatency (qmode : Nat) : Nat := if qmode = 1 then 8 else if qmode = 2 then 11 else 7

/-- R71: one entry through the epilogue, the `i`-th of its command: its output is on its way (log entry 28). -/
def epiEntry (s : State) (c : BoomJob) (m y n : Nat) (bias : Bool) (dst : Slice) (entry biasTid rec : Nat) : State :=
  let g := s.prog c.prog
  let d := g.viewAt dst true c.spec
  let w := d.t.width
  let cfg := g.box.epiCfg rec
  let bv := g.viewAt ⟨biasTid, 0⟩ false c.spec
  let start := dst.off * w + 32 * c.taken
  let row := start / w
  let (es, t) := tallied (fun (q : Word × Nat) =>
    let col := start % w + q.2
    epilogue (s.outCfg g d cfg row col) q.1 (if bias then some (s.elemFp g bv col) else none))
    ((((s.boom m y n).entry ((entry + c.taken) % 512)).mapIdx fun l a => (a, l)).take (min 32 (w - start % w)))
  let at_ := fun (i : Nat) => blockIn (d.elemAddr (dst.off * w + 32 * i))
  let o : BoomOut :=
    { prog := c.prog, spec := c.spec, due := s.cycle + epiLatency cfg.qmode, addr := d.elemAddr start, data := packRow (typeBits d.t.type) es
      sat := t.sat, rtz := t.rtz, causes := t.causes, slot := (g.counterSlot dst.tid).getD 0xFFFF, tid := dst.tid, seq := c.seq
      tag := c.tags.wr.find? fun u => decide (some u.block = at_ c.taken)
      first := decide (c.taken = 0 ∨ at_ (c.taken - 1) ≠ at_ c.taken)
      last := decide (c.taken + 1 = EngOp.entries c.op ∨ at_ (c.taken + 1) ≠ at_ c.taken) }
  let s := s.setBoom m y n { s.boom m y n with outs := (s.boom m y n).outs ++ [o] }
  if d.t.smode = 2 then s.setReg (yreg .boomOutScale m y n) ((s.outCfg g d cfg row (start % w)).outScale.setWidth 64) else s

/-- R95: one preload read, the `i`-th of its command: the line reaches the filter four cycles later (R111). -/
def preEntry (s : State) (c : BoomJob) (m y n : Nat) (src : Slice) (entry : Nat) : State :=
  let v := (s.prog c.prog).viewAt src false c.spec
  let e := src.off * v.t.width + 32 * c.taken
  let (ws, t) := tallied (fun l => preloadFilter (BitVec.ofNat 32 (s.elem v (e + l)))) (List.range 32)
  let s := (s.lineReads c.prog m y (8 + n) (v.elemAddr e) 128).seqAccess c.prog c.spec (8 + n) c.tags.rd
    (fun i => v.elemAddr (src.off * v.t.width + 32 * i)) (EngOp.entries c.op) c.taken
  s.setBoom m y n { s.boom m y n with pres := (s.boom m y n).pres ++ [⟨c.prog, c.spec, s.cycle + 4, (entry + c.taken) % 512, ws, t.causes⟩] }

/-- The command in hand takes its next entry, or is over after the last. -/
def jobStep (s : State) (m y n : Nat) : State :=
  match (s.boom m y n).job with
  | none => s
  | some c =>
    if EngOp.entries c.op ≤ c.taken then s.setBoom m y n { s.boom m y n with job := none }
    else
      let s := match c.op with
        | .epi bias dst entry _ biasTid rec => s.epiEntry c m y n bias dst entry biasTid rec
        | .pre src entry _ => s.preEntry c m y n src entry
        | _ => s
      s.setBoom m y n { s.boom m y n with job := some { c with taken := c.taken + 1 } }

/-- boom.epi and boom.pre start (R71, R95): their first entry is taken in this cycle. An epilogue's bias is read with it. -/
def startJob (s : State) (c : EngCmd) (m y n : Nat) (tags : Tags) : State :=
  let s := match c.op with
    | .epi bias dst _ _ _ rec =>
      let s := s.openShadow c.prog dst.tid c.spec
      let g := s.prog c.prog
      let s := s.boomConfig m y n (heightCode (suitHeight (s.suitShape m y) n)) (g.box.epiCfg rec) bias (g.counterSlot dst.tid)
      let s := if (g.tensor dst.tid).smode = 2 then s.scaleConfig m y n (g.tensor dst.tid) else s
      tags.rd.foldl (fun (s : State) u => s.tagCheck c.prog c.spec (8 + n) 1 u) s
    | _ => s
  (s.setBoom m y n { s.boom m y n with job := some ⟨c.op, c.prog, c.spec, c.seq, 0, tags⟩ }).jobStep m y n

/-- An output leaves a boom: it is written through the boom's port as its block's fill takes it (R120), counted, and its causes are met. -/
def writeOut (s : State) (m y n : Nat) (o : BoomOut) : State :=
  let s := match o.tag with
    | some u => if o.first then s.tagOpen o.prog o.spec o.seq (8 + n) u else s
    | none => s
  let s := s.portWrite o.prog (8 + n) o.addr o.data
  let s := match o.tag with
    | some u => if o.last then s.tagClose o.prog o.seq u.block else s
    | none => s
  s.specCounts o.prog m y n o.spec o.slot o.sat o.rtz o.causes

/-- R95: a preloaded entry is written. -/
def writePre (s : State) (m y n : Nat) (o : BoomPre) : State :=
  (s.putEntry m y n o.entry o.spec o.lanes).specCauses o.prog m y n o.spec 0xFFFF o.causes

/-- What boom `n` does in a cycle: it takes an entry, and what is on its way arrives. -/
def boomStep (s : State) (m y n : Nat) : State :=
  let s := s.jobStep m y n
  let b := s.boom m y n
  let c := s.cycle
  let s := s.setBoom m y n { b with outs := b.outs.filter (fun o => decide (c < o.due))
                                    ins := b.ins.filter (fun v => decide (c < v.due))
                                    pres := b.pres.filter fun o => decide (c < o.due) }
  let s := (b.outs.filter fun o => decide (o.due ≤ c)).foldl (fun s o => s.writeOut m y n o) s
  let s := (b.ins.filter fun v => decide (v.due ≤ c)).foldl (fun s v => s.joinPartials m y n v) s
  (b.pres.filter fun o => decide (o.due ≤ c)).foldl (fun s o => s.writePre m y n o) s

/-! ### The chain (R94) -/

/-- boom.chout: an entry onto the chain link to the next yard, three cycles away, where both ends are enabled. -/
def startChout (s : State) (m y n entry : Nat) : State :=
  if bit (s.reg (yreg .yardChain m y)) 0 && bit (s.reg (yreg .yardChain m (y + 1))) 1 && decide (y < 7) && s.yardIn m (y + 1) then
    let v := s.yard m (y + 1)
    s.setYard m (y + 1) { v with chain := v.chain ++ [((s.boom m y n).entry entry, s.cycle + 3)] }
  else s

/-- R94, R99, boom.chin: the vector arriving in this cycle into an entry; with none arriving, hazard 4. -/
def startChin (s : State) (p m y n entry : Nat) : State :=
  match (s.yard m y).chain.find? fun e => decide (e.2 = s.cycle) with
  | some e => (s.setYard m y { s.yard m y with chain := (s.yard m y).chain.erase e }).putEntry m y n entry 0 e.1
  | none => s.sailHazard p m y n 4

/-- Vectors whose cycle has passed are gone. -/
def chainStep (s : State) (m y : Nat) : State :=
  let v := s.yard m y
  if v.chain.isEmpty then s else s.setYard m y { v with chain := v.chain.filter fun e => decide (s.cycle ≤ e.2) }

/-- What the four booms of a yard do in a cycle. -/
def boomsStep (s : State) (m y : Nat) : State := (List.range 4).foldl (fun s n => s.boomStep m y n) s

/-! ### Rows that kernels write -/

/-- What a kernel's tally of one row does: counts into the tensor's entry in the row's yard (R78), causes to its boom (R75, R76): boom 0
(log entry 77). -/
def tallyRow (s : State) (p spec : Nat) (v : View) (r : Nat) (t : Tally) : State :=
  let (m, y) := s.homeOf p (v.rowAddr r)
  s.specCounts p m y 0 spec (((s.prog p).counterSlot v.tid).getD 0xFFFF) t.sat t.rtz t.causes

/-- A computed row is written through port `port` (R110). -/
def putRow (s : State) (p port : Nat) (v : View) (r : Nat) (es : List Nat) : State :=
  s.checkedStore (v.rowAddr r) (packRow (typeBits v.t.type) es) port (some p)

/-- Writing computed rows in order, with their tallies. -/
def writeRows (s : State) (p port spec : Nat) (v : View) (rows : List (Nat × List Nat × Tally)) : State :=
  rows.foldl (fun s r => (s.putRow p port v r.1 r.2.1).tallyRow p spec v r.1 r.2.2) s

/-- A cycle of a yard's pipelines. -/
def yardStep (s : State) (m y : Nat) : State := (((s.partStep m y).chainStep m y).boomsStep m y).sailsStep m y

end State
end Sys2Proof.Machine
end

