-- ==== Sys2Proof/Machine/Rig.lean ====
section
/-! DEFINITION. Rig images and containers as byte files (R172, R173, R237, R238, R293): sections, records, digests. -/

namespace Sys2Proof.Machine

/-- Entry `i` of the section table at 0x60: kind, offset, size (R173). -/
def sectEntry (b : List Byte) (i : Nat) : Nat × Nat × Nat :=
  (leAt b (0x60 + 16 * i) 4, leAt b (0x64 + 16 * i) 4, leAt b (0x68 + 16 * i) 4)

/-- The section table of a file with `n` entries. -/
def sectTable (b : List Byte) (n : Nat) : List (Nat × Nat × Nat) := (List.range n).map (sectEntry b)

/-- Offset and size of the section of a kind. -/
def sectAt (b : List Byte) (n kind : Nat) : Option (Nat × Nat) :=
  ((sectTable b n).find? fun e => decide (e.1 = kind)).map (·.2)

/-- Bytes `o` to `o + n − 1`. -/
def sliceAt (b : List Byte) (o n : Nat) : List Byte := (b.drop o).take n

/-- The bytes of the section of a kind; none where it is absent. -/
def sectBytes (b : List Byte) (n kind : Nat) : List Byte :=
  match sectAt b n kind with
  | some (o, k) => sliceAt b o k
  | none => []

/-! ### Rigs (Table 9.1, Table 9.2) -/

def rigSects (b : List Byte) : Nat := leAt b 0x0E 1
def rigSect (b : List Byte) (kind : Nat) : List Byte := sectBytes b (rigSects b) kind
def rigVersion (b : List Byte) : Nat := leAt b 8 4
def rigScope (b : List Byte) : Nat := leAt b 0x0D 1
def rigPersist (b : List Byte) : Bool := decide (leAt b 0x0F 1 % 2 = 1)
/-- R237: the rig digest. -/
def rigDigest (b : List Byte) : List Byte :=
  sha384 (match sectAt b (rigSects b) 13 with
    | some (o, _) => b.take o
    | none => b)

/-- R238, R293: records of u16 kind, u16 length including this header, then body. -/
def records : Nat → List Byte → List (List Byte)
  | 0, _ => []
  | fuel + 1, b =>
    let n := leAt b 2 2
    if b.length < 4 ∨ n < 4 then [] else b.take n :: records fuel (b.drop n)

/-- The MEDIA records of a kind: their bodies. -/
def mediaBodies (rig : List Byte) (kind : Nat) : List (List Byte) :=
  let m := rigSect rig 9
  ((records m.length m).filter fun r => decide (leAt r 0 2 = kind)).map (·.drop 4)

/-- POLICY flags of a rig. -/
def rigPolicy (b : List Byte) (n : Nat) : Bool := (BitVec.ofNat 32 (leAt (rigSect b 12) 0 4)).getLsbD n
/-- R31: the period of a rig's TICK section in µs. -/
def rigPeriod (b : List Byte) : Nat := leAt (rigSect b 5) 0 4

/-- The crosstree's frame length, and the slot byte of output `o`, slot `k`: the input port in [2:0], valid in [3]. -/
def xtreeLen (rig : List Byte) : Nat := leAt (rigSect rig 2) 0 2
def xtreeSlot (rig : List Byte) (o k : Nat) : Nat := leAt (rigSect rig 2) (16 + o * xtreeLen rig + k) 1

/-- The operating point. -/
def rigOp (b : List Byte) : Nat := leAt (rigSect b 6) 0 1
/-- BUDGET in mW. -/
def rigBudget (b : List Byte) : Nat := leAt (rigSect b 11) 0 4
/-- Bit `d` of the PDOM enable bitmap, and of the retention bitmap. -/
def rigDom (b : List Byte) (d : Nat) : Bool := ((rigSect b 7).getD (d / 8) 0).getLsbD (d % 8)
def rigRet (b : List Byte) (d : Nat) : Bool := ((rigSect b 7).getD (32 + d / 8) 0).getLsbD (d % 8)
/-- Entries of SHED, 8 bytes each. -/
def rigShedCount (b : List Byte) : Nat := leAt (rigSect b 8) 0 2
def rigShed (b : List Byte) (i : Nat) : List Byte := sliceAt (rigSect b 8) (16 + 8 * i) 8

namespace State

/-- A rig is in force. -/
def rigValid (s : State) : Bool := bit (s.reg (rid .admRigStat)) 0

/-- The MEDIA records of the rig in force. -/
def media_ (s : State) (kind : Nat) : List (List Byte) := mediaBodies s.rig.cur kind

/-- The MEDIA record of a kind whose first body byte is `n`. -/
def mediaOf (s : State) (kind n : Nat) : Option (List Byte) := (s.media_ kind).find? fun b => decide (leAt b 0 1 = n)

/-- R418: supply_shed of the rig in force. -/
def policy (s : State) (n : Nat) : Bool := rigPolicy s.rig.cur n

end State
end Sys2Proof.Machine
end

