-- ==== Sys2Proof/Machine/Windows.lean ====
section
/-! DEFINITION. Windows (R137, R138), the lines of HyperRAM (R361), and the requests to it. -/

namespace Sys2Proof.Machine
namespace State

/-! ### HyperRAM lines (R361) -/

/-- The enabled channels, ascending. -/
def hrEnabled (s : State) : List Nat := (List.range 8).filter fun c => bit (s.reg (rid .hrcCtrl)) c
/-- Inline ECC. -/
def hrEcc (s : State) : Bool := bit (s.reg (rid .hrcCtrl)) 8
/-- Data bytes of a line. -/
def hrLineBytes (s : State) : Nat := if s.hrEcc then 224 else 256
/-- The channel of an offset in HyperRAM. -/
def hrChannel (s : State) (off : Nat) : Nat :=
  let en := s.hrEnabled
  en.getD (off / s.hrLineBytes % en.length) 0
/-- R361: capacity of one channel in bytes: two devices of the identified density. -/
def hrCapacity (s : State) : Nat :=
  if bit (s.reg (rid .hrcChCfg (s.hrEnabled.headD 0))) 0 then 0x8000000 else 0x4000000
/-- R361: the top of HyperRAM as an offset. -/
def hrTop (s : State) : Nat := s.hrEnabled.length * s.hrLineBytes * s.hrCapacity / 256

/-- A channel that is enabled, in service, and not serving: it is down. -/
def hrIsDown (s : State) (c : Nat) : Bool :=
  bit (s.reg (rid .hrcCtrl)) c && !bit (s.reg (rid .hrcStatus)) c && !bit (s.reg (rid .hrcStatus)) (16 + c)

/-- R372: a place in HyperRAM that unscheduled traffic cannot reach because a channel is down. -/
def hyperDown (s : State) (a : Nat) : Bool := match regionOf a with
  | .hyper _ => (List.range 8).any s.hrIsDown
  | _ => false

/-- A request joins the line of its channel. -/
def hrRequest (s : State) (r : HrReq) : State :=
  let c := s.hrChannel (r.addr - 0x200000000)
  { s with hyper := { s.hyper with reqs := SMap.set [] s.hyper.reqs c (SMap.get [] s.hyper.reqs c ++ [r]) } }

/-- R361: the requests of `n` bytes from `a`: one for each line it touches; `strm` is their stream, and `port` where its data goes. -/
def hrLines (s : State) (a n : Nat) (prog : Option Nat) (strm port : Nat) : List HrReq :=
  let o := a - 0x200000000
  let d := s.hrLineBytes
  (List.range ((o + n + d - 1) / d - o / d)).map fun i =>
    let lo := max o ((o / d + i) * d)
    { addr := 0x200000000 + lo, len := min (o + n) ((o / d + i + 1) * d) - lo, write := none, prog := prog, strm := strm, port := port }

/-! ### Slots (R362, R363) -/

/-- The start of slot `j` of the tick: the first channel clock edge at or after tick start + 405 j. -/
def hrSlotStart (s : State) (j : Nat) : Nat := (s.tickStart + 405 * j + 4) / 5 * 5
/-- L_f. -/
def hrFrame (s : State) : Nat := max 1 (s.get (rid .hrcFrame) 0 11)
/-- The frame slot of slot `j`. -/
def hrFrameSlot (s : State) (j : Nat) : Nat := j % s.hrFrame
def hrRecovery (s : State) (j : Nat) : Bool := decide (s.hrFrameSlot j % 8 = 7)
/-- Slot `j` of a channel is assigned to port `o`. -/
def hrAssigned (s : State) (c j o : Nat) : Bool :=
  let r := s.reg (rid .hrcSlot c (s.hrFrameSlot j))
  !s.hrRecovery j && bit r 3 && decide (fld r 0 3 = o)
/-- A slot of port `o` on channel `c` began in [from, to). -/
def hrMissed (s : State) (c o lo hi : Nat) : Bool :=
  let j0 := (lo - s.tickStart) / 405
  (List.range ((hi - lo) / 405 + 2)).any fun i =>
    s.hrAssigned c (j0 + i) o && decide (lo ≤ s.hrSlotStart (j0 + i)) && decide (s.hrSlotStart (j0 + i) < hi)

/-! ### Windows (R137, R138) -/

/-- R139: window `n` in the copy of its table that initiator `i`'s port holds: base, size and permissions as XTREE_WIN has them. -/
def winOf (s : State) (i n : Nat) : BitVec 64 × BitVec 64 × BitVec 64 := SMap.get (0, 0, 0) s.fabric.winCopy (64 * i + n)
def setWin (s : State) (i n : Nat) (w : BitVec 64 × BitVec 64 × BitVec 64) : State :=
  { s with fabric := { s.fabric with winCopy := SMap.set (0, 0, 0) s.fabric.winCopy (64 * i + n) w } }

/-- Window `n` of initiator `i` grants an access of `k` bytes at `a`. -/
def windowGrants (s : State) (i n a k : Nat) (write : Bool) : Bool :=
  let w := s.winOf i n
  let perm := w.2.2
  let base := fld w.1 12 28 * 4096
  let size := fld w.2.1 0 22 * 4096
  bit perm 3 && bit perm (if write then 1 else 0) && decide (base ≤ a) && decide (a + k ≤ base + size)

/-- The unit that an address lies in is there: a yard in service whose SRAM is powered (R103, R409, Table 15.5). -/
def targetIn (s : State) (a : Nat) : Bool :=
  match regionOf a with
  | .yard m y _ => s.yardIn m y && s.domOn (20 * m + 8 + y)
  | .nowhere => false
  | _ => true

/-- R138: the access lies wholly within one enabled window that grants it. -/
def windowOk (s : State) (i a k : Nat) (write : Bool) : Bool :=
  s.targetIn a && (List.range 64).any fun n => s.windowGrants i n a k write

/-- R120: writes through the window take part in the target's fills. -/
def windowGen (s : State) (i a k : Nat) : Bool :=
  (List.range 64).any fun n => s.windowGrants i n a k true && bit (s.winOf i n).2.2 2

/-- R138: a flit that fails its window check: it is not sent, and WINDOW_FAULT is raised. -/
def windowFault (s : State) (i chan handle a : Nat) (write : Bool) : State :=
  let s := s.firstRecord (rid .xtreeWfault) 0 fun s =>
    ((s.put (rid .xtreeWfault) 1 3 i).put (rid .xtreeWfault) 4 1 (if write then 1 else 0)).put (rid .xtreeWfaultAddr) 0 40 a
  s.raise 0x0505 i chan handle (if write then 1 else 0) (a % 2 ^ 40)

end State
end Sys2Proof.Machine
end

