-- ==== Sys2Proof/Machine/Crosstree.lean ====
section
/-! DEFINITION. The crosstree's slots (R126 to R128, R131, R138, R275, R276): flits wait at their port, are sent in the slots that the rig
assigns, and are on their way for 28 cycles; the pieces of tick-class streams that are written. -/

namespace Sys2Proof.Machine

/-- A link direction: port, and whether it leads away from the crosstree. -/
def dirKey (port : Nat) (away : Bool) : Nat := port * 2 + (if away then 1 else 0)

/-- The mast of an address in yard SRAM. -/
def mastOf (a : Nat) : Option Nat :=
  match regionOf a with
  | .yard m _ _ => some m
  | _ => none

/-- The crosstree port of an address: its mast, or 7 for Stay SRAM, HyperRAM and the host window. -/
def portOf (a : Nat) : Nat := (mastOf a).getD 7

/-- The lines of at most 64 bytes that `n` bytes from `a` touch: address and length. -/
def linePieces (a n : Nat) : List (Nat × Nat) :=
  (List.range ((a + n + 63) / 64 - a / 64)).map fun i =>
    let lo := max a ((a / 64 + i) * 64)
    (lo, min (a + n) ((a / 64 + i + 1) * 64) - lo)

namespace State

/-! ### Flits -/

/-- R133: a link carries flits. -/
def linkUp (s : State) (port : Nat) : Bool := !SMap.get false s.fabric.down port

/-- R128, R129: when a flit is written into its destination: 28 cycles after it was sent, and what replays have made it late. -/
def flitDue (s : State) (f : Flit) : Nat := f.base + nsOf s.opPoint (f.sent + 28 + f.lateUp + f.lateDn)

/-- The next number of a stream. -/
def newStream (s : State) : Nat := s.fabric.serial + 1
def takeSerial (s : State) : State := { s with fabric := { s.fabric with serial := s.fabric.serial + 1 } }

/-- Flits join those that wait at their ports. -/
def post (s : State) (fs : List Flit) : State := { s with fabric := { s.fabric with waiting := s.fabric.waiting ++ fs } }

/-- Nothing of a stream waits at a port, is under way, stands in a landing buffer, or waits for HyperRAM. -/
def settled (s : State) (id : Nat) : Bool :=
  (s.fabric.waiting ++ s.fabric.flits).all (fun f => decide (f.strm ≠ id)) &&
    s.yards.all (fun y => y.2.landing.all fun e => decide (e.strm ≠ id)) &&
    (s.hyper.reqs ++ s.hyper.retries).all fun c => c.2.all fun r => decide (r.strm ≠ id)

/-! ### Tick-class streams -/

/-- The tick-class stream of a number. -/
def tickStrm (s : State) (id : Nat) : Option TickStrm := s.strm.ticks.find? fun t => decide (t.id = id)
def mapTick (s : State) (id : Nat) (f : TickStrm → TickStrm) : State :=
  { s with strm := { s.strm with ticks := s.strm.ticks.map fun t => if t.id = id then f t else t } }

/-- The stream has further pieces to write in block `k`. -/
def moreIn (s : State) (t : TickStrm) (k : Nat) : Bool :=
  t.out.any (fun q => decide (blockIn q.1 = some k)) ||
    (s.fabric.waiting ++ s.fabric.flits).any fun f => decide (f.strm = t.id) && decide (blockIn f.addr = some k)

/-- The elements that a stream has delivered show in its channel's registers (R292). -/
def showElems (s : State) (t : TickStrm) (n : Nat) : State :=
  let e := t.elems + n * 8 / t.esize
  (s.mapTick t.id fun t => { t with elems := e }).setReg ⟨.strmChElem, t.engine, 0, t.chan, 0⟩ (BitVec.ofNat 64 e)

/-- R120: a piece of a tick-class stream is written: it opens the fill of its block at its first access there, and completes it at its
last; `gen` says that it takes part. -/
def strmPiece (s : State) (id a n : Nat) (gen : Bool) (write : State → State) : State :=
  match s.tickStrm id with
  | none => write s
  | some t =>
    let s := s.showElems t n
    match (blockIn a).bind fun k => if gen then t.tags.wr.find? fun u => decide (u.block = k) else none with
    | none => write s
    | some u =>
      let s := if t.touched.contains u.block then s
        else (s.tagOpen t.prog 0 t.seq 16 u).mapTick id fun t => { t with touched := u.block :: t.touched }
      let s := write s
      if s.moreIn t u.block then s else s.tagClose t.prog t.seq u.block

/-- R138: a flit of a tick-class stream fails its window check: the stream sends nothing further, and its program faults. -/
def stopStrm (s : State) (id a : Nat) (write : Bool) : State :=
  match s.tickStrm id with
  | none => s
  | some t =>
    let s := { s with fabric := { s.fabric with waiting := s.fabric.waiting.filter fun f => decide (f.strm ≠ id) } }
    let s := s.mapTick id fun t => { t with faulted := true, reads := [], out := [] }
    (s.windowFault t.engine t.chan (s.handle t.prog) a write).unitFault t.prog

/-! ### Slots (R126, R127, R275, R276) -/

/-- Lines that are in a yard's landing buffer, or on their way to it: each holds a credit of 32. -/
def creditsOut (s : State) (m y : Nat) : Nat :=
  (s.yard m y).landing.length + s.fabric.flits.countP fun f => decide (f.rank ≠ 0 ∧ f.dst ≠ 7) &&
    (match regionOf f.addr with | .yard m' y' _ => decide (m' = m ∧ y' = y) | _ => false)

/-- A flit can be sent in this slot: its links are up, it is ready, and an unscheduled one to a yard has a landing credit. -/
def sendable (s : State) (i o : Nat) (f : Flit) : Bool :=
  decide (f.src = i ∧ f.dst = o ∧ f.ready ≤ s.now) && s.linkUp i && s.linkUp o &&
    (decide (f.rank = 0 ∨ f.dst = 7) || match regionOf f.addr with | .yard m y _ => decide (s.creditsOut m y < 32) | _ => true)

/-- R275: the order of service: tick class, peripheral contexts ascending, bulk channels in rotation from the one after the last. -/
def serveKey (s : State) (f : Flit) : Nat := if f.rank < 1000 then f.rank else 1000 + (f.rank - 1000 + 32 - s.fabric.lastCh) % 33

/-- The flit of a list that is served first, the older of two alike. -/
def servedFirst (s : State) (f : Flit) : List Flit → Flit
  | [] => f
  | g :: gs => s.servedFirst (if s.serveKey g < s.serveKey f then g else f) gs

/-- The flit that input `i` sends to output `o` in a slot assigned to them. -/
def slotFlit (s : State) (i o : Nat) : Option Flit :=
  match s.fabric.waiting.filter (s.sendable i o) with
  | [] => none
  | f :: fs => some (s.servedFirst f fs)

/-- R131: a program uses a link direction in the tick; one on which a replay has occurred marks it retried. -/
def useDir (s : State) (k : Nat) (prog : Option Nat) : State :=
  match prog with
  | none => s
  | some p =>
    let us := SMap.get [] s.fabric.users k
    let s := if us.contains p then s else { s with fabric := { s.fabric with users := SMap.set [] s.fabric.users k (us ++ [p]) } }
    if SMap.get 0 s.fabric.replays k = 0 then s else s.setCond p 0

/-- A flit leaves its port, late by what stands on its links (R129). -/
def launch (s : State) (f : Flit) : State :=
  let up := dirKey f.src false
  let dn := dirKey f.dst true
  let g := { f with id := s.newStream, base := s.tickStart, sent := s.cycle, lateUp := SMap.get 0 s.fabric.delay up
                    lateDn := SMap.get 0 s.fabric.delay dn, gen := s.windowGen f.src f.addr f.data.length }
  let s := { s with fabric := { s.fabric with flits := s.fabric.flits ++ [g], lastCh := if f.rank < 1000 then s.fabric.lastCh else f.rank - 1000 } }
  ((s.takeSerial).useDir up f.prog).useDir dn f.prog

/-- R138: the port checks a flit of a tick-class stream before it is sent. -/
def sendFlit (s : State) (f : Flit) : State :=
  if f.rank = 0 && !f.read && !s.windowOk f.src f.addr f.data.length true then s.stopStrm f.strm f.addr true
  else { s with fabric := { s.fabric with waiting := s.fabric.waiting.erase f } }.launch f

/-- The frame runs: a tick is under way and the rig has started it (R126). -/
def frameRuns (s : State) : Bool := (decide (s.tick.phase = .work) || decide (s.tick.phase = .guard)) && bit (s.reg (rid .xtreeCtrl)) 12

/-- R126, R240: the length of the frame: that of the previous rig until the tick ends in whose guard a rig took effect. -/
def frameLen (s : State) : Nat := if s.fabric.reframe then xtreeLen s.rig.prev else s.get (rid .xtreeCtrl) 0 12 + 1

/-- The slot of the frame that begins in this nanosecond (R126). -/
def slotNow (s : State) : Option Nat :=
  if s.frameRuns && s.cycleStarts && decide (s.cycle % 2 = 0) then some (s.cycle / 2 % s.frameLen) else none

/-- R127: the slot of output `o`: the input that the rig names sends one flit. -/
def outSlot (s : State) (k o : Nat) : State :=
  let r := if s.fabric.reframe then BitVec.ofNat 64 (xtreeSlot s.rig.prev o k) else s.reg (rid .xtreeSlot o k)
  if !bit r 3 then s
  else match s.slotFlit (fld r 0 3) o with
    | some f => s.sendFlit f
    | none => s

/-- The slots that begin in this nanosecond. -/
def slotsStep (s : State) : State :=
  if s.fabric.waiting.isEmpty then s
  else match s.slotNow with
    | some k => (List.range 8).foldl (fun s o => s.outSlot k o) s
    | none => s

end State
end Sys2Proof.Machine
end

