-- ==== Sys2Proof/Machine/TickStreams.lean ====
section
/-! DEFINITION. Tick-class streams (R196, R263 to R274): the transforms of Table 10.7, where a stream starts, what it reads and writes cycle by
cycle, what it sends over the crosstree, and its channel's registers. -/

namespace Sys2Proof.Machine

/-- Elements of `bits` bits from bytes. -/
def unpackRow (bits : Nat) (bs : List Byte) : List Nat :=
  if bits = 4 then nibbles bs
  else (List.range (bs.length / (bits / 8))).map fun i => leAt bs (i * (bits / 8)) (bits / 8)

/-- The elements in destination order. -/
def permute (xform side c : Nat) (es : List Nat) : List Nat :=
  let n := es.length
  if xform = 0 then es
  else (List.range n).map fun d =>
    match (List.range n).find? fun k => decide (permuteIdx xform side n c k = d) with
    | some k => es.getD k 0
    | none => 0

/-- Table 10.7, code 4: bit j of word 8b + t goes to bit t of byte j × n / 8 + b. -/
def bitPlanes (bits : Nat) (ws : List Nat) : List Byte :=
  let n := ws.length
  (List.range bits).flatMap fun j => (List.range (n / 8)).map fun b =>
    BitVec.ofNat 8 ((List.range 8).foldl (fun a t => a + ws.getD (8 * b + t) 0 / 2 ^ j % 2 * 2 ^ t) 0)

/-- Table 10.7, code 5: the inverse: word 8b + t gathers its bits from the planes. -/
def bitWords (bits : Nat) (bs : List Byte) : List Nat :=
  let n := bs.length * 8 / bits
  (List.range n).map fun w =>
    (List.range bits).foldl (fun a j => a + (bs.getD (j * (n / 8) + w / 8) 0).toNat / 2 ^ (w % 8) % 2 * 2 ^ j) 0

namespace State

/-- The rows that mv.strm writes: address and bytes. -/
def strmRows (s : State) (g : Prog) (dst a : Slice) (count xform chans : Nat) : List (Nat × List Byte) :=
  let d := g.view dst true
  let v := g.view a false
  let src := v.sliceRows count
  let es := src.flatMap fun q => (List.range v.t.width).map fun i => s.elem v (v.row q * v.t.width + i)
  let sb := typeBits v.t.type
  let db := typeBits d.t.type
  let out :=
    if xform = 4 then unpackRow db (bitPlanes sb es)
    else
      let es := permute xform (if sb = 8 then 32 else 16) chans es
      if sb = db then es else unpackRow db (packRow sb es)
  let w := d.t.width
  ((d.sliceRows count).mapIdx fun i q => (d.rowAddr (d.row q), packRow db ((out.drop (i * w)).take w))).filter fun r => !r.2.isEmpty

/-- The ranges of memory that mv.strm reads. -/
def strmReads (_s : State) (g : Prog) (a : Slice) (count : Nat) : List (Nat × Nat) :=
  let v := g.view a false
  (v.sliceRows count).map fun q => (v.rowAddr (v.row q), v.t.rowBytes)

/-- The engine that runs a stream: the mast its source lies in; else the mast its destination lies in (log entry 27). -/
def strmEngine (s : State) (p : Nat) (reads : List (Nat × Nat)) (rows : List (Nat × List Byte)) : Nat :=
  match (reads.head?.bind fun r => mastOf r.1), (rows.head?.bind fun r => mastOf r.1) with
  | some m, _ => m
  | none, some m => m
  | none, none => s.firstMast p

/-! ### Channels (R266, R269, R292) -/

/-- A channel's register of a stream engine. -/
def tickReg (n : RegName) (t : TickStrm) (l : Nat := 0) : RegId := ⟨n, t.engine, 0, t.chan, l⟩

/-- The lowest channel of an engine that no tick-class stream holds. -/
def freeChan (s : State) (e : Nat) : Nat :=
  ((List.range 32).find? fun c => s.strm.ticks.all fun t => !decide (t.engine = e ∧ t.chan = c)).getD 31

/-- The code of an element size of so many bits; packed codes move as bytes. -/
def esizeCode (bits : Nat) : Nat := if bits = 16 then 1 else if bits = 32 then 2 else if bits = 64 then 3 else 0

/-- R267: the pattern of a tensor's rows: address, and the elements of a row, the rows and the planes with their strides. -/
def rowPattern (v : View) (count : Nat) : List Byte :=
  let bits := typeBits v.t.type
  let n := if count = 0 then v.t.height - v.off else count
  leN 8 (v.rowAddr v.off) ++ leN 4 (if bits = 4 then v.t.rowBytes else v.t.width) ++ leN 4 (max 1 (bits / 8)) ++ leN 4 n ++ leN 4 v.rowPitch ++
    leN 4 v.t.planes ++ leN 4 v.planePitch ++ leN 4 1 ++ leN 4 0 ++ leN 4 1 ++ leN 4 0

/-- R269, Table 10.4: the descriptor in whose form a stream reaches its engine (log entry 87). -/
def tickDesc (bits xform chans flag tapCtx : Nat) (flagOn tap : Bool) (src dst : List Byte) (tags : Tags) : List Byte :=
  let flags := (if tap then 1 else 0) + (if flagOn then 4 else 0) + (if tags.wr.isEmpty then 0 else 8)
  let wgen := match tags.wr with | u :: _ => u.gen + 4 * u.n | [] => 0
  let rchk := match tags.rd with | u :: _ => u.gen + 4 + (if u.free then 8 else 0) | [] => 0
  leN 1 0 ++ leN 1 (esizeCode bits) ++ leN 1 xform ++ leN 1 (if xform = 2 ∨ xform = 3 then chans - 1 else 0) ++ leN 2 flags ++ leN 2 0 ++ leN 2 flag ++
    leN 1 tapCtx ++ leN 1 wgen ++ leN 4 0 ++ src ++ dst ++ leN 1 rchk ++ leN 15 0

/-- The channel shows its descriptor, and runs. -/
def showTick (s : State) (t : TickStrm) (desc : List Byte) : State :=
  let s := (List.range 32).foldl (fun s w => s.setReg (tickReg .strmChDesc t w) ((leWord desc w).setWidth 64)) s
  (s.put (tickReg .strmChStat t) 0 3 1).setReg (tickReg .strmChElem t) 0

/-! ### A stream starts -/

/-- A read's outstanding transfers show in STRM_PEAK: how many stand at once is timing, so the count is a free value of 1 to 512
(log entry 8). -/
def touchPeak (s : State) (engine : Nat) : State :=
  let r : RegId := ⟨.strmPeak, engine, 0, 0, 0⟩
  let v := (Config.freeValue s.free).toNat % 512 + 1
  s.takeFree.put r 0 10 (max (s.get r 0 10) v)

/-- A piece is of the engine's own mast. -/
def ownPiece (e a : Nat) : Bool := decide (mastOf a = some e)

/-- Reads beyond the engine's mast: of Stay SRAM the data sets out over the crosstree, of HyperRAM the request joins its channel
(log entry 88). -/
def farRead (s : State) (t : TickStrm) (q : Nat × Nat) : State :=
  match regionOf q.1 with
  | .hyper _ => (s.hrLines q.1 q.2 (some t.prog) t.id t.engine).foldl hrRequest s
  | _ => (s.progRead t.prog q.1 q.2 15).post
      [{ src := portOf q.1, dst := t.engine, addr := q.1, data := s.bytes q.1 q.2, prog := some t.prog, strm := t.id, read := true, ready := s.now }]

/-- A tick-class stream starts: its reads beyond its mast are checked against the windows (R138) and set out, one after the other; what it
has to read and to write on its own mast follows cycle by cycle. -/
def beginStrm (s : State) (t : TickStrm) (desc : List Byte) (reads : List (Nat × Nat)) : State :=
  let near := (reads.flatMap fun r => linePieces r.1 r.2).filter fun q => ownPiece t.engine q.1
  let far := (reads.flatMap fun r => linePieces r.1 r.2).filter fun q => !ownPiece t.engine q.1
  let s := s.takeSerial.setCtx t.prog { s.ctx t.prog with strms := (s.ctx t.prog).strms + 1 }
  let s := { s with strm := { s.strm with ticks := s.strm.ticks ++ [{ t with reads := near }] } }.showTick t desc
  match far.find? fun q => !s.windowOk t.engine q.1 q.2 false with
  | some q => s.stopStrm t.id q.1 false
  | none =>
    let s := if far.isEmpty then s else s.touchPeak t.engine
    (reads.filter fun r => !ownPiece t.engine r.1).foldl (fun s r => match regionOf r.1 with
      | .hyper _ => s.farRead t r
      | _ => (linePieces r.1 r.2).foldl (fun s q => s.farRead t q) s) s

/-- mv.strm begins: what it moves is what stands in its source now (log entry 88). -/
def startStrm (s : State) (p seq : Nat) (dst a : Slice) (count xform chans : Nat) (tap : Bool) (flag : Nat) (tags : Tags) : State :=
  let g := s.prog p
  let rows := s.strmRows g dst a count xform chans
  let reads := s.strmReads g a count
  let e := s.strmEngine p reads rows
  let bits := typeBits (g.tensor dst.tid).type
  let t : TickStrm := { id := s.newStream, prog := p, seq := seq, engine := e, chan := s.freeChan e, flag := some flag, copy := none, tap := tap
                        reads := [], out := rows.flatMap fun r => lineSplit r.1 r.2, tags := tags, esize := bits }
  let ctx := if tap then (Config.freeValue s.free).toNat % 256 else 0
  let no := match g.place.localFlags.find? fun f => decide (f.1 = flag) with | some f => f.2.2 | none => flag
  let desc := tickDesc bits xform chans no ctx true tap (rowPattern (g.view a false) count) (rowPattern (g.view dst true) count) tags
  let s := if tap then s.takeFree.setProg p { s.prog p with tapBytes := (s.prog p).tapBytes ++ rows.flatMap (·.2) } else s
  s.beginStrm t desc reads

/-! ### A stream's cycles (R108, R120, R121, R274, R278) -/

/-- The stream has an access of the cycle at yard offset `off` to itself: no other has come to the bank, and no landing cycle holds it
(R276). -/
def bankFree (s : State) (m y off : Nat) : Bool :=
  let b := bankOf off
  (s.yard m y).access.all (fun x => !decide (x.cycle = s.cycle ∧ bankOf x.off = b)) && decide (s.cycle % 32 ≠ b)

/-- A read's check of its block: at the stream's first access there, and at its last. -/
def strmCheck (s : State) (t : TickStrm) (a : Nat) (rest : List (Nat × Nat)) : State :=
  match blockIn a with
  | some k =>
    let s := s.tagAccess t.prog 0 15 t.tags.rd k (!t.touched.contains k) (rest.all fun q => decide (blockIn q.1 ≠ some k))
    if t.touched.contains k then s else s.mapTick t.id fun t => { t with touched := k :: t.touched }
  | none => s

/-- A line of the stream's own mast is read. -/
def strmRead (s : State) (t : TickStrm) (q : Nat × Nat) (rest : List (Nat × Nat)) : State :=
  match regionOf q.1 with
  | .yard m y off =>
    if s.bankFree m y off then ((s.lineReads t.prog m y 15 q.1 q.2).strmCheck t q.1 rest).mapTick t.id fun t => { t with reads := rest } else s
  | _ => s.mapTick t.id fun t => { t with reads := rest }

/-- A piece is written on the stream's own mast. -/
def strmWrite (s : State) (t : TickStrm) (q : Nat × List Byte) (rest : List (Nat × List Byte)) : State :=
  match regionOf q.1 with
  | .yard m y off =>
    if s.bankFree m y off then
      (s.mapTick t.id fun t => { t with out := rest }).strmPiece t.id q.1 q.2.length true fun s => s.yardWrite m y off q.2 16 (some t.prog) none
    else s
  | _ => s.mapTick t.id fun t => { t with out := rest }

/-- All that the stream reads has come: what leaves its mast goes to the port. -/
def strmSend (s : State) (t : TickStrm) : State :=
  let far := t.out.filter fun q => !ownPiece t.engine q.1
  let fs := far.map fun q =>
    ({ src := t.engine, dst := portOf q.1, addr := q.1, data := q.2, prog := some t.prog, strm := t.id, ready := s.now } : Flit)
  let hyper := far.filter fun q => match regionOf q.1 with | .hyper _ => true | _ => false
  (s.post fs).mapTick t.id fun t =>
    { t with out := t.out.filter (fun q => ownPiece t.engine q.1), sent := true, back := hyper.getLast?.map fun q => q.1 + q.2.length - 1 }

/-- What a stream does in a cycle. -/
def strmStep (s : State) (id : Nat) : State :=
  match s.tickStrm id with
  | none => s
  | some t =>
    if t.faulted then s
    else match t.reads, t.sent, t.out, t.back with
      | q :: rest, _, _, _ => s.strmRead t q rest
      | [], false, _, _ => if s.settled id then s.strmSend t else s
      | [], true, q :: rest, _ => s.strmWrite t q rest
      | [], true, [], some a =>
        if s.settled id then
          (s.mapTick id fun t => { t with back := none }).farRead t (a / 4 * 4, 4)
        else s
      | [], true, [], none => s

/-- Every tick-class stream goes on. -/
def strmsStep (s : State) : State := s.strm.ticks.foldl (fun s t => s.strmStep t.id) s

/-- R196, R216: the stream's last write has completed, and its read-back has returned. -/
def strmDone (s : State) (t : TickStrm) : Bool :=
  !t.faulted && t.reads.isEmpty && t.sent && t.out.isEmpty && t.back.isNone && s.settled t.id

/-- A stream leaves its channel. -/
def leaveChan (s : State) (t : TickStrm) : State :=
  let s := { s with strm := { s.strm with ticks := s.strm.ticks.filter fun x => decide (x.id ≠ t.id) } }
  (s.put (tickReg .strmChStat t) 0 3 0).setCtx t.prog { s.ctx t.prog with strms := (s.ctx t.prog).strms - 1 }

end State
end Sys2Proof.Machine
end

