-- ==== Sys2Proof/Machine/MatKernels.lean ====
section
/-! DEFINITION. What matrix products, convolutions and transposed convolutions compute (R142 to R154, R192, R193). -/

namespace Sys2Proof.Machine

/-- Table 7.9: a layer record. -/
structure Layer where
  kh : Nat
  kw : Nat
  sy : Nat
  sx : Nat
  dy : Nat
  dx : Nat
  packed : Bool
  declared : Bool
  pt : Nat
  pb : Nat
  pl : Nat
  pr : Nat
  pad : Nat
  groups : Nat
  padScale : BitVec 16
  epi : Nat
  deriving DecidableEq, Repr

/-- The layer record at a record index. -/
def Container.layer (b : Container) (rec : Nat) : Layer :=
  let o := rec * 16
  let at8 := fun i => leAt b.const (o + i) 1
  { kh := at8 0, kw := at8 1, sy := at8 2, sx := at8 3, dy := at8 4, dx := at8 5, packed := decide (at8 6 = 1),
    declared := decide (at8 7 = 1), pt := at8 8, pb := at8 9, pl := at8 10, pr := at8 11, pad := at8 12,
    groups := leAt b.const (o + 0x10) 2, padScale := BitVec.ofNat 16 (leAt b.const (o + 0x12) 2),
    epi := leAt b.const (o + 0x14) 2 }

/-- One group of a reduction as the boom receives it: partial, activation scale, weight scale. -/
structure GroupIn where
  p : Int
  sa : BitVec 16
  sw : BitVec 16
  deriving DecidableEq, Repr

/-- R72: the groups in ascending order, the first with first = 1; none leaves the accumulator cleared (R154). -/
def accumulate : List GroupIn → Bool → Word → Word × Tally
  | [], _, acc => (acc, {})
  | g :: gs, first, acc =>
    let (a, t) := rescale g.p g.sa g.sw first acc
    let (r, u) := accumulate gs false a
    (r, t.add u)

/-- An output element from its groups. -/
def boomOut (c : EpiCfg) (gs : List GroupIn) (bias : Option Word) : Nat × Tally :=
  let (acc, t) := accumulate gs true Fp.zero
  let (q, u) := epilogue c acc bias
  (q, t.add u)

/-- The bias of output channel `n`. -/
def biasAt (s : State) (g : Prog) (use : Bool) (c : View) (n : Nat) : Option Word :=
  if use then some (s.elemFp g c n) else none

/-- R192: the rows of a matrix product. -/
def matRows (s : State) (g : Prog) (d a b c : View) (bias : Bool) (count rec : Nat) : List (Nat × List Nat × Tally) :=
  let k := a.t.width
  let n := d.t.width
  let gs := groupSize a.t.gsz
  let cfg := g.box.epiCfg rec
  (d.sliceRows count).map fun q =>
    let m := a.row q
    let acts := (List.range k).map fun r => s.elemInt g a (m * k + r)
    (d.row q, tallied (fun j =>
      let groups := (List.range (cdiv k gs)).map fun i =>
        let xs := (acts.drop (i * gs)).take gs
        let ws := (List.range xs.length).map fun r => s.elemInt g b (b.t.tileIdx (i * gs + r) j)
        (⟨partialSum xs ws, s.actScale g a m i, State.wtScale g b.t i j⟩ : GroupIn)
      boomOut (s.outCfg g d cfg (d.row q) j) groups (biasAt s g bias c j)) (List.range n))

/-- R145: a tap element: nothing, padding, or a stored element. -/
inductive Tap where
  | null
  | pad
  | read (c y x : Nat)
  deriving DecidableEq, Repr

/-- The image position a tap reads, where it lies in range. -/
def inRange (y : Int) (h : Nat) : Option Nat := if 0 ≤ y ∧ y < h then some y.toNat else none

/-- R145: tap t of channel c at output position (oy, ox). -/
def Layer.tap (l : Layer) (cin h w t c oy ox : Nat) : Tap :=
  if cin ≤ c then .null
  else
    match inRange ((oy * l.sy : Nat) - (l.pt : Int) + (t / l.kw * l.dy : Nat)) h,
          inRange ((ox * l.sx : Nat) - (l.pl : Int) + (t % l.kw * l.dx : Nat)) w with
    | some y, some x => .read c y x
    | _, _ => .pad

/-- R145, R146: the positions of one axis of the input that taps read for the output positions `os`. -/
def tapReads (n k s d before : Nat) (os : List Nat) : List Nat :=
  (os.flatMap fun o => (List.range k).filterMap fun t => inRange ((o * s : Nat) - (before : Int) + (t * d : Nat)) n).eraseDups

/-- R145: the tap and channel of reduction element r: packed order has the taps of a channel together, tap-major order the channels,
padded to `cp`, of a tap. -/
def Layer.split (l : Layer) (cp r : Nat) : Nat × Nat :=
  let t := l.kh * l.kw
  if l.packed then (r % t, r / t) else (r / cp, r % cp)

/-- R149: a tap is padding-only when its row, or its column, lies outside the input for every output position. -/
def Layer.padOnly (l : Layer) (h w ho wo t : Nat) : Bool :=
  (List.range ho).all (fun oy => (inRange ((oy * l.sy : Nat) - (l.pt : Int) + (t / l.kw * l.dy : Nat)) h).isNone) ||
  (List.range wo).all (fun ox => (inRange ((ox * l.sx : Nat) - (l.pl : Int) + (t % l.kw * l.dx : Nat)) w).isNone)

/-- The level of the pad value: zero, or the declared element decoded (R145). -/
def Layer.padLevel (l : Layer) (g : Prog) (t : Tensor) : Int :=
  if !l.declared then 0
  else if t.type = 1 then (BitVec.ofNat 8 l.pad).toInt
  else (g.box.cbk t.cbk).getD (if t.type = 3 then l.pad % 16 else l.pad) 0

/-- R148: channels c and n lie in one group of a grouped convolution. -/
def sameGroup (groups cin cout c n : Nat) : Bool :=
  decide (groups ≤ 1) || decide (c / (cin / groups) = n / (cout / groups))

/-- R143 to R151: the rows of a convolution. -/
def convRows (s : State) (g : Prog) (d a b c : View) (bias : Bool) (count rec : Nat) : List (Nat × List Nat × Tally) :=
  let l := g.box.layer rec
  let (_, cin, h, w) := a.t.image
  let (_, _, ho, wo) := d.t.image
  let cout := b.t.dims.getD 1 1
  let gs := groupSize a.t.gsz
  let cp := cdiv cin gs * gs
  let ng := if l.packed then cdiv (cin * (l.kh * l.kw)) gs else l.kh * l.kw * (cp / gs)
  let cfg := g.box.epiCfg l.epi
  let pad := l.padLevel g a.t
  let inPad := fun (i : Nat) => !l.packed && l.padOnly h w ho wo (l.split cp (i * gs)).1
  imageKernel d count fun bi n oy ox =>
    let groups := (List.range ng).map fun i =>
      let t0 := l.split cp (i * gs)
      let sw := State.wtScale g b.t i n
      if inPad i && decide (pad = 0) then (⟨0, l.padScale, sw⟩ : GroupIn)
      else
        let p := (List.range gs).foldl (fun acc j =>
          let r := i * gs + j
          let q := l.split cp r
          let x : Int := match l.tap cin h w q.1 q.2 oy ox with
            | .null => 0
            | .pad => pad
            | .read ch y xx => s.elemInt g a (a.t.imageIdx bi ch y xx)
          if x = 0 then acc
          else if sameGroup l.groups cin cout q.2 n then acc + x * s.elemInt g b (b.t.tileIdx r n) else acc) 0
        let sa := if a.t.smode = 2 then
            match l.tap cin h w t0.1 t0.2 oy ox with
            | .read _ y xx => s.actScale g a ((bi * h + y) * w + xx) (t0.2 / gs)
            | _ => l.padScale
          else if inPad i then l.padScale
          else s.actScale g a 0 i
        ⟨p, sa, sw⟩
    boomOut (s.outCfg g d cfg ((bi * ho + oy) * wo + ox) n) groups (biasAt s g bias c n)

/-- R153: the taps of a phase class, ascending. -/
def Layer.classTaps (l : Layer) (cy cx : Nat) : List Nat :=
  (List.range (l.kh * l.kw)).filter fun t => decide (t / l.kw * l.dy % l.sy = cy % l.sy) && decide (t % l.kw * l.dx % l.sx = cx % l.sx)

/-- The taps of the classes before (cy, cx), classes ordered by row phase, then column phase (log entry 25). -/
def Layer.classFirst (l : Layer) (cy cx : Nat) : Nat :=
  (((List.range l.sy).flatMap fun y => (List.range l.sx).map fun x => (y, x)).filter fun q =>
    decide (q.1 * l.sx + q.2 < cy * l.sx + cx)).foldl (fun n q => n + (l.classTaps q.1 q.2).length) 0

/-- R153: the positions of one axis of the input that a transposed convolution reads for the output positions `os`. -/
def gatherReads (n k s d before : Nat) (os : List Nat) : List Nat :=
  (os.flatMap fun o => (List.range k).filterMap fun t =>
    if t * d ≤ o + before ∧ (o + before - t * d) % s = 0 then inRange (((o + before - t * d) / s : Nat) : Int) n else none).eraseDups

/-- R152 to R154: the rows of a transposed convolution. Where the input has derived scales, a group that is wholly NULL takes the scale
1.0 (log entry 78). -/
def tconvRows (s : State) (g : Prog) (d a b c : View) (bias : Bool) (count rec : Nat) : List (Nat × List Nat × Tally) :=
  let l := g.box.layer rec
  let (_, cin, h, w) := a.t.image
  let (_, _, ho, wo) := d.t.image
  let cout := b.t.dims.getD 1 1
  let gs := groupSize a.t.gsz
  let per := cdiv cin gs
  let cfg := g.box.epiCfg l.epi
  let idle := fun (k : Nat) => if a.t.smode = 2 then 0x3F80 else s.actScale g a 0 k
  imageKernel d count fun bi n oy ox =>
    let cy := (oy + l.pt) % l.sy
    let cx := (ox + l.pl) % l.sx
    let first := l.classFirst cy cx * per
    let taps := l.classTaps cy cx
    let groups := (List.range (taps.length * per)).map fun i =>
      let t := taps.getD (i / per) 0
      let iy := inRange (((oy + l.pt : Nat) - (t / l.kw * l.dy : Nat) : Int) / l.sy) h
      let ix := inRange (((ox + l.pl : Nat) - (t % l.kw * l.dx : Nat) : Int) / l.sx) w
      let k := first + i
      match iy, ix with
      | some y, some x =>
        let p := (List.range gs).foldl (fun acc j =>
          let ch := i % per * gs + j
          if cin ≤ ch then acc
          else if sameGroup l.groups cin cout ch n then
            acc + s.elemInt g a (a.t.imageIdx bi ch y x) * s.elemInt g b (b.t.tileIdx (k * gs + j) n)
          else acc) 0
        let sa := if a.t.smode = 2 then s.actScale g a ((bi * h + y) * w + x) (i % per)
          else s.actScale g a 0 k
        (⟨p, sa, State.wtScale g b.t k n⟩ : GroupIn)
      | _, _ => ⟨0, idle k, State.wtScale g b.t k n⟩
    boomOut (s.outCfg g d cfg ((bi * ho + oy) * wo + ox) n) groups (biasAt s g bias c n)

namespace State

/-- R82: the registers of boom 0 of the yard of a matrix-class kernel's destination read as its epilogue (log entry 77). -/
def kernelConfig (s : State) (p : Nat) (d a : View) (rec : Nat) (bias : Bool) : State :=
  let g := s.prog p
  let (m, y) := s.homeOf p d.base
  s.boomConfig m y 0 (a.t.gsz - 1) (s.outCfg g d (g.box.epiCfg rec) (d.row (0, 0)) 0) bias (g.counterSlot d.tid)

/-- A matrix-class kernel runs: what it needs of its input, its weights and its bias passes the check, and its rows are written with
their tallies. -/
def runMat (s : State) (p : Nat) (dst a b c : Slice) (bias : Bool) (rec : Nat) (need : View → View → Nat → Nat → Bool)
    (rows : State → Prog → View → View → View → View → List (Nat × List Nat × Tally)) : State :=
  let g := s.prog p
  let d := g.view dst true
  let va := g.view a false
  let vb := g.view b false
  let vc := g.view c false
  let s' := ((s.readWhere p 0 va (need d va)).readAll p 4 vb)
  let s' := if bias then s'.readAll p 8 vc else s'
  (s'.kernelConfig p d va rec bias).writeRows p 8 0 d (rows s g d va vb vc)

/-- The rows of its input that a matrix product reads. -/
def matNeeds (count : Nat) (d a : View) (r _c : Nat) : Bool := (d.sliceRows count).any fun q => decide (a.row q = r)

/-- The elements of its input that a convolution's taps read. -/
def convNeeds (l : Layer) (tr : Bool) (count : Nat) (d a : View) (r c : Nat) : Bool :=
  let (_, _, h, w) := a.t.image
  let (_, _, _, wo) := d.t.image
  let (_, _, y, x) := a.t.imageAt r c
  let reads := if tr then gatherReads else tapReads
  (reads h l.kh l.sy l.dy l.pt (d.imageRows count)).contains y && (reads w l.kw l.sx l.dx l.pl (List.range wo)).contains x

/-- R192: a matrix product runs. -/
def runMm (s : State) (p : Nat) (dst a b c : Slice) (bias : Bool) (count rec : Nat) : State :=
  s.runMat p dst a b c bias rec (matNeeds count) fun t g vd va vb vc => matRows t g vd va vb vc bias count rec

/-- R193: a convolution, or a transposed one, runs. -/
def runConv (s : State) (p : Nat) (tr : Bool) (dst a b c : Slice) (bias : Bool) (count rec : Nat) : State :=
  let l := (s.prog p).box.layer rec
  s.runMat p dst a b c bias l.epi (convNeeds l tr count) fun t g vd va vb vc =>
    if tr then tconvRows t g vd va vb vc bias count rec else convRows t g vd va vb vc bias count rec

end State
end Sys2Proof.Machine
end

