-- ==== Sys2Proof/Machine/RedKernels.lean ====
section
/-! DEFINITION. What the reef unit computes (R155 to R158, R194) and how its results reach tensors, scales and scalar registers
(R159, R160). -/

namespace Sys2Proof.Machine

/-! Status bits of REEF_STATUS: 1 sat, 2 ovf, 4 nan_in. -/

/-- R156, R157, rf: one rounding, flush; a finite sum or product that rounds to infinity saturates; a NaN is canonical. -/
def reefRf (fin : Bool) (r : Word) : Word × Tally :=
  if Fp.isNan r then (Fp.nan, { status := 4 })
  else if Fp.isInf r && fin then (Fp.fmaxOf (Fp.neg r), { status := 2 })
  else (Fp.flush r, {})

/-- A sum in the reef. -/
def reefAdd (x y : Word) : Word × Tally := reefRf (Fp.isFinite x && Fp.isFinite y) (Fp.addRne x y)
/-- A square in the reef. -/
def reefSq (x : Word) : Word × Tally := reefRf (Fp.isFinite x) (Fp.mulRne x x)

/-- R156: −2^47 to 2^47 − 1, saturating. -/
def sat48 (i : Int) : Int × Tally :=
  (Fp.clampInt (-(2 ^ 47)) (2 ^ 47 - 1) i, if i < -(2 ^ 47) ∨ 2 ^ 47 - 1 < i then { status := 1 } else {})

/-- R156: the final saturation to INT32. -/
def sat32 (i : Int) : Int × Tally :=
  (Fp.clampInt (-(2 ^ 31)) (2 ^ 31 - 1) i, if i < -(2 ^ 31) ∨ 2 ^ 31 - 1 < i then { status := 1 } else {})

/-- R156: element i goes to lane i mod `n`, each lane added in order. -/
def lanes {α : Type} (n : Nat) (zero : α) (add : α → α → α × Tally) (xs : List α) : List α × Tally :=
  let per := (List.range n).map fun l =>
    (List.range (cdiv xs.length n)).foldl (fun (r : α × Tally) i =>
      if i * n + l < xs.length then
        let (v, t) := add r.1 (xs.getD (i * n + l) zero)
        (v, r.2.add t)
      else r) (zero, {})
  (per.map (·.1), per.foldl (fun t r => t.add r.2) {})

/-- One level of the tree: neighbours added. -/
def treeLevel {α : Type} (add : α → α → α × Tally) : List α → List α × Tally
  | a :: b :: es =>
    let (v, t) := add a b
    let (vs, u) := treeLevel add es
    (v :: vs, t.add u)
  | es => (es, {})

/-- The tree of reef_fsum and vsum, `d` levels deep. -/
def tree {α : Type} (zero : α) (add : α → α → α × Tally) : Nat → List α → α × Tally
  | 0, es => (es.headD zero, {})
  | d + 1, es =>
    let (vs, t) := treeLevel add es
    let (v, u) := tree zero add d vs
    (v, t.add u)

/-- Lanes, then the tree. -/
def laneSum {α : Type} (depth : Nat) (zero : α) (add : α → α → α × Tally) (xs : List α) : α × Tally :=
  let (ls, t) := lanes (2 ^ depth) zero add xs
  let (v, u) := tree zero add depth ls
  (v, t.add u)

/-- A result of the reef: FP32, a whole number, or a code. -/
inductive RedVal where
  | fp (w : Word)
  | int (i : Int)
  deriving DecidableEq, Repr

/-- The 32 bits of a result (R160). -/
def RedVal.word : RedVal → Word
  | .fp w => w
  | .int i => BitVec.ofInt 32 i

/-- The largest, or smallest, of FP32 values; ties, +0.0 and −0.0 among them, keep the first (log entry 79). -/
def fpBest (less : Word → Word → Bool) : List Word → Word
  | [] => Fp.zero
  | x :: xs => xs.foldl (fun b v => if less b v then v else b) x

/-- The largest, or smallest, of whole numbers. -/
def intBest (less : Int → Int → Bool) : List Int → Int
  | [] => 0
  | x :: xs => xs.foldl (fun b v => if less b v then v else b) x

/-- R156, R157: a reduction of FP32 values (BF16 widened, subnormals flushed). -/
def redFp (op : Nat) (xs : List Word) : RedVal × Tally :=
  let nan := xs.any Fp.isNan
  let t : Tally := if nan then { status := 4 } else {}
  if op = 5 then (.int (xs.countP fun x => !Fp.isZero x), t)
  else if op = 0 then
    let (v, u) := laneSum 5 Fp.zero reefAdd xs
    (.fp v, t.add u)
  else if op = 1 then
    let (sq, u) := tallied reefSq xs
    let (v, w) := laneSum 5 Fp.zero reefAdd sq
    (.fp v, (t.add u).add w)
  else if nan then (.fp Fp.nan, t)
  else if op = 2 then (.fp (fpBest Fp.lt xs), t)
  else if op = 3 then (.fp (fpBest (fun b v => Fp.lt v b) xs), t)
  else (.fp (fpBest Fp.lt (xs.map Fp.absv)), t)

/-- R155, R156: a reduction of whole numbers, or of codes as their indices. -/
def redInt (op : Nat) (xs : List Int) : RedVal × Tally :=
  let addI := fun (a b : Int) => sat48 (a + b)
  let (v, t) : Int × Tally :=
    if op = 5 then ((xs.countP fun x => decide (x ≠ 0) : Nat), {})
    else if op = 0 then laneSum 5 0 addI xs
    else if op = 1 then
      let (sq, u) := tallied (fun x => sat48 (x * x)) xs
      let (w, z) := laneSum 5 0 addI sq
      (w, u.add z)
    else if op = 2 then (intBest (fun b v => decide (b < v)) xs, {})
    else if op = 3 then (intBest (fun b v => decide (v < b)) xs, {})
    else (intBest (fun b v => decide (b < v)) (xs.map fun x => (x.natAbs : Int)), {})
  let (r, u) := sat32 v
  (.int r, t.add u)

/-- An element as the reef takes it as a whole number: codes as indices, except that count-nonzero tests their level. -/
def redElem (s : State) (g : Prog) (v : View) (op e : Nat) : Int :=
  if (v.t.type = 3 ∨ v.t.type = 4) ∧ op ≠ 5 then s.elem v e else s.elemInt g v e

/-- One reduction over a list of elements of storage. -/
def reduceElems (s : State) (g : Prog) (v : View) (op : Nat) (es : List Nat) : RedVal × Tally :=
  if isFloat v.t.type then redFp op (es.map (s.elemFp g v)) else redInt op (es.map (redElem s g v op))

/-- All index tuples of a shape in storage order. -/
def tuples : List Nat → List (List Nat)
  | [] => [[]]
  | d :: ds => (List.range d).flatMap fun i => (tuples ds).map (i :: ·)

/-- A tuple of all axes from the tuples of the reduced and the kept axes. -/
def weave : List Bool → List Nat → List Nat → List Nat
  | true :: bs, kept, r :: red => r :: weave bs kept red
  | false :: bs, k :: kept, red => k :: weave bs kept red
  | _, _, _ => []

/-- The storage index of a tuple. -/
def flatIdx (dims idx : List Nat) : Nat := (dims.zip idx).foldl (fun a d => a * d.1 + d.2) 0

/-- Adding `off` to entry `n` of a list. -/
def addAt (n off : Nat) (l : List Nat) : List Nat := l.mapIdx fun i x => if i = n then x + off else x

/-- The elements of each reduction of a TILE32 tensor (K, N) in storage order (R180): over groups of output channels, over the masked
axes, or over all of it; padding takes no part. -/
def tileGroups (t : Tensor) (dest : RedDest) (gs axes : Nat) : List (List Nat) :=
  let k := t.dims.getD 0 1
  let n := t.dims.getD 1 1
  let kt := cdiv k 32
  let at_ := fun e => (e / 1024 % kt * 32 + e % 1024 / 32, e / 1024 / kt * 32 + e % 32)
  let whole := fun (i : Nat) => match dest with | .scalar _ => true | _ => decide (gs = 0) && decide (axes / 2 ^ i % 2 = 1)
  let key : Nat → Nat × Nat := fun e => (if whole 0 then 0 else (at_ e).1, if whole 1 then 0 else if gs = 0 then (at_ e).2 else (at_ e).2 / gs)
  let keys := (List.range (if whole 0 then 1 else k)).flatMap fun i =>
    (List.range (if whole 1 then 1 else if gs = 0 then n else cdiv n gs)).map fun j => (i, j)
  keys.map fun q => (List.range t.size).filter fun e => decide ((at_ e).1 < k ∧ (at_ e).2 < n) && decide (key e = q)

/-- The elements of each reduction of a tensor: over groups of the last axis, over the masked axes, or over all of it. The slice of
the source runs along its axis outside the last. -/
def redGroups (v : View) (dest : RedDest) (gs axes count : Nat) : List (List Nat) :=
  let t := v.t
  if t.layout = 2 then tileGroups t dest gs axes else
  let r := t.rank
  let reduced := fun i => decide (axes / 2 ^ i % 2 = 1)
  let n := if reduced (r - 2) ∨ count = 0 then t.height - v.off else count
  let dims := t.shape.mapIdx fun i d => if i = r - 2 then n else d
  let idx := fun tup => flatIdx t.shape (addAt (r - 2) v.off tup)
  match dest with
  | .scalar _ => [(tuples dims).map idx]
  | _ =>
    if gs ≠ 0 then
      let w := t.width
      (tuples (dims.take (r - 1))).flatMap fun row =>
        (List.range (cdiv w gs)).map fun k => (List.range (min gs (w - k * gs))).map fun j => idx (row ++ [k * gs + j])
    else
      let mask := (List.range r).map reduced
      let pick := fun b => (dims.zip mask).filterMap fun d => if d.2 = b then some d.1 else none
      (tuples (pick false)).map fun kept => (tuples (pick true)).map fun red => idx (weave mask kept red)

/-- R158: argmax and argmin over the channels of one position: the index and the winning element. -/
def argBest (s : State) (g : Prog) (v : View) (op b y x : Nat) : Nat × Nat × Tally :=
  let (_, cs, _, _) := v.t.image
  let es := (List.range cs).map fun c => (c, v.t.imageIdx b c y x)
  if isFloat v.t.type then
    let fs := es.map fun e => (e.1, s.elemFp g v e.2)
    let t : Tally := if fs.any (fun f => Fp.isNan f.2) then { status := 4 } else {}
    match fs.filter fun f => !Fp.isNan f.2 with
    | [] => (0, if v.t.type = 6 then 0x7FC0 else 0x7FC00000, t)
    | f :: rest =>
      let best := rest.foldl (fun h e => if (if op = 6 then Fp.lt h.2 e.2 else Fp.lt e.2 h.2) then e else h) f
      (best.1, if v.t.type = 6 then (Fp.toBf16 best.2).toNat else best.2.toNat, t)
  else
    match es.map fun e => (e.1, redElem s g v op e.2, s.elem v e.2) with
    | [] => (0, 0, {})
    | f :: rest =>
      let best := rest.foldl (fun h e => if (if op = 6 then h.2.1 < e.2.1 else e.2.1 < h.2.1) then e else h) f
      (best.1, best.2.2, {})

/-- A reef result as an element of the destination, whose type Table 6.3 gives (R155). -/
def redBits (t : Tensor) : RedVal → Nat
  | .fp w => w.toNat
  | .int i => intBits (typeBits t.type) i

/-- The value output of argmax.c and argmin.c: the winning element, in the type that the value tensor has (log entry 84). -/
def argValue (a d : Tensor) (e : Nat) : Nat :=
  if a.type = d.type then e
  else if a.type = 6 then e * 65536
  else if a.type = 1 then intBits 32 (BitVec.ofNat 8 e).toInt
  else e

/-- Values laid out over the rows of a destination's slice. -/
def layRows (d : View) (count : Nat) (vals : List (Nat × Tally)) : List (Nat × List Nat × Tally) :=
  let w := d.t.width
  ((d.sliceRows count).mapIdx fun i q =>
    let row := (vals.drop (i * w)).take w
    (d.row q, row.map (·.1), row.foldl (fun t x => t.add x.2) ({} : Tally))).filter fun r => !r.2.1.isEmpty

/-- R159, R194: the results of argmax.c and argmin.c at every position of the slice: index, value bits. -/
def argResults (s : State) (g : Prog) (va : View) (op count : Nat) : List (Nat × Nat × Tally) :=
  let (nb, _, h, w) := va.t.image
  let rows := if count = 0 then h - va.off else count
  let pos := (List.range nb).flatMap fun i => (List.range rows).flatMap fun q => (List.range w).map fun x => (i, va.off + q, x)
  pos.map fun q => argBest s g va op q.1 q.2.1 q.2.2

/-- R194: the group size of a reduction, 0 where it has no groups. -/
def redGroupSize (d : View) (dest : RedDest) (group : Nat) : Nat :=
  match dest with
  | .scale => groupSize d.t.gsz
  | _ => if group = 0 then 0 else groupSize group

/-- The elements that a reduction reads: of its groups, or, of argmax.c and argmin.c, of the slice's positions. -/
def redNeeds (va : View) (op count : Nat) (read : List Nat) (r c : Nat) : Bool :=
  if 6 ≤ op then decide (count = 0 ∨ va.off ≤ (va.t.imageAt r c).2.2.1 ∧ (va.t.imageAt r c).2.2.1 < va.off + count)
  else read.contains (r * va.t.width + c)

/-- The results of the other reductions as elements of the destination. -/
def redElements (s : State) (g : Prog) (va d : View) (op : Nat) (dest : RedDest) (group axes count : Nat) : List Nat :=
  (redGroups va dest (redGroupSize d dest group) axes count).map fun l => redBits d.t (reduceElems s g va op l).1

namespace State

/-- R160: the result of a command that has started is on its way to the register that its issue made pending. -/
def deliver (s : State) (p seq : Nat) (v : Word) (due : Nat) (reef : Option Nat) : State :=
  let c := s.ctx p
  s.setCtx p { c with dels := c.dels.map fun d => if d.seq = seq then { d with value := v, due := some due, reef := reef } else d }

/-- R171: the reef's registers after a command in yard `y` of mast `m`. -/
def reefRecord (s : State) (p m y op dtype : Nat) (dest : RedDest) (n status : Nat) : State :=
  let r := yreg .reefLast m y
  let s := s.put r 0 4 op
  let s := s.put r 4 4 dtype
  let s := s.put r 8 2 (match dest with | .tensor => 0 | .scalar _ => 1 | .scale => 2)
  let s := s.put r 15 3 (s.slotOn p m)
  (s.setBits (yreg .reefStatus m y) (BitVec.ofNat 64 status)).perf (yreg .reefElemCnt m y) n

/-- R82: boom 0 of the yard of the scaled tensor shows the derivation (log entry 77). -/
def derivedConfig (s : State) (p : Nat) (d : View) : State :=
  let (m, y) := s.homeOf p d.base
  s.scaleConfig m y 0 d.t

/-- R194, kind 2: the derived scales of `d` from the group maxima, row by row. -/
def deriveRows (s : State) (p : Nat) (d : View) (per : Nat) (res : List RedVal) : State :=
  (res.mapIdx fun i v => (i, v)).foldl (fun s q =>
    let m := match q.2 with | .fp w => w | .int i => Fp.ofInt i
    let (sc, t) := deriveScale m d.t.k d.t.fallback
    let row := d.off + q.1 / per
    (s.setDerived p d row (q.1 % per) sc).tallyRow p 0 d row t) (s.derivedConfig p d)

/-- R158, R159: the cycles of the reef that a command takes: 32 elements, or 32 positions of one channel, in each. -/
def reefCycles (va : View) (op count : Nat) (groups : List (List Nat)) : Nat :=
  if op < 6 then groups.foldl (fun k l => k + cdiv l.length 32) 0
  else
    let (nb, cs, h, w) := va.t.image
    nb * cs * cdiv ((if count = 0 then h - va.off else count) * w) 32

/-- A unit of a yard is busy for a number of cycles from this one (R159, R163). -/
def takeUnit (s : State) (m y code cycles : Nat) : State :=
  s.setYard m y { s.yard m y with unitFree := SMap.set 0 (s.yard m y).unitFree code (s.cycle + cycles) }

/-- R159, R160: 40 cycles after the read of the last element. -/
def reefDue (s : State) (busy : Nat) : Nat := s.afterCycles (busy - 1 + 40)

/-- argmax.c and argmin.c (R158), with their results. -/
def runArg (s : State) (p seq m y op : Nat) (va d vb : View) (dest : RedDest) (valueOut : Bool) (count : Nat)
    (res : List (Nat × Nat × Tally)) : State :=
  let busy := reefCycles va op count []
  let s1 := (s.reefRecord p m y op va.t.type dest (res.length * va.t.image.2.1) (res.foldl (fun n r => causeOr n r.2.2.status) 0)).takeUnit m y 8 busy
  let s1 := if valueOut then
      s1.writeRows p 14 0 vb (layRows vb count (res.map fun r => (argValue va.t vb.t r.2.1, {})))
    else s1
  match dest with
  | .scalar _ => s1.deliver p seq (BitVec.ofNat 32 (res.headD (0, 0, {})).1) (s.reefDue busy) (some (8 * m + y))
  | _ => s1.writeRows p 14 0 d (layRows d count (res.map fun r => (r.1, {})))

/-- R155 to R160, R194: a reef kernel runs. -/
def runRed (s : State) (p seq op : Nat) (dst a b : Slice) (dest : RedDest) (group axes : Nat) (valueOut : Bool) (count : Nat) : State :=
  let g := s.prog p
  let va := g.view a false
  let (m, y) := s.homeOf p va.base
  let d := g.view dst true
  let gs := redGroupSize d dest group
  let groups := redGroups va dest gs axes count
  let read := groups.flatten
  let s1 := s.readWhere p 12 va (redNeeds va op count read)
  if 6 ≤ op then s1.runArg p seq m y op va d (g.view b true) dest valueOut count (argResults s g va op count)
  else
    let res := groups.map (reduceElems s g va op)
    let busy := reefCycles va op count groups
    let s1 := (s1.reefRecord p m y op va.t.type dest read.length (res.foldl (fun k r => causeOr k r.2.status) 0)).takeUnit m y 8 busy
    match dest with
    | .scalar _ => s1.deliver p seq (res.headD (.int 0, {})).1.word (s.reefDue busy) (some (8 * m + y))
    | .scale => s1.deriveRows p d (cdiv va.t.width gs) (res.map (·.1))
    | .tensor =>
      let vals := redElements s g va d op dest group axes count
      s1.writeRows p 14 0 d (layRows d count (vals.map fun r => (r, {})))

end State
end Sys2Proof.Machine
end

