-- ==== Sys2Proof/Machine/VecKernels.lean ====
section
/-! DEFINITION. What the vector unit computes (R162 to R168, Table 7.15). -/

namespace Sys2Proof.Machine

/-! Status bits of VU_STATUS: 1 ovf, 2 nan_in, 4 gather_oob, 8 isat. -/

/-- R162: one rounding, flush; a NaN is canonical and marked; a result of finite operands that rounds to infinity saturates. -/
def vuRf (fin : Bool) (r : Word) : Word × Tally :=
  if Fp.isNan r then (Fp.nan, { status := 2 })
  else if Fp.isInf r && fin then (Fp.fmaxOf (Fp.neg r), { status := 1 })
  else (Fp.flush r, {})

def vuAdd (x y : Word) : Word × Tally := vuRf (Fp.isFinite x && Fp.isFinite y) (Fp.addRne x y)
def vuSub (x y : Word) : Word × Tally := vuRf (Fp.isFinite x && Fp.isFinite y) (Fp.subRne x y)
def vuMul (x y : Word) : Word × Tally := vuRf (Fp.isFinite x && Fp.isFinite y) (Fp.mulRne x y)
def vuDiv (x y : Word) : Word × Tally := vuRf (Fp.isFinite x && Fp.isFinite y) (Fp.divRne x y)
def vuRcp (x : Word) : Word × Tally := vuDiv Fp.one x
def vuSqrt (x : Word) : Word × Tally := vuRf (Fp.isFinite x) (Fp.sqrtRne x)
def vuFma (x y z : Word) : Word × Tally :=
  vuRf (Fp.isFinite x && Fp.isFinite y && Fp.isFinite z) (Fp.fmaRne x y z)

/-- Table 7.15, 0x00 to 0x06 on FP32; of +0.0 and −0.0, max and min take a (log entry 79). -/
def vuBin (op : Nat) (x y : Word) : Word × Tally :=
  if op = 0 then vuAdd x y
  else if op = 1 then vuSub x y
  else if op = 2 then vuMul x y
  else if Fp.isNan x || (decide (op < 5) && Fp.isNan y) then (Fp.nan, { status := 2 })
  else if op = 3 then (if Fp.lt x y then y else x, {})
  else if op = 4 then (if Fp.lt y x then y else x, {})
  else if op = 5 then (Fp.absv x, {})
  else (Fp.negate x, {})

/-- Table 7.15, 0x00 to 0x06 on INT8, saturating. -/
def vuBinI (op : Nat) (x y : Int) : Int :=
  let r := if op = 0 then x + y else if op = 1 then x - y else if op = 2 then x * y
    else if op = 3 then max x y else if op = 4 then min x y else if op = 5 then (x.natAbs : Int) else -x
  Fp.clampInt (-128) 127 r

/-- The arithmetic of the unit with its tally carried along. -/
abbrev Vu := Word × Tally

def Vu.bind1 (a : Vu) (f : Word → Vu) : Vu :=
  let r := f a.1
  (r.1, a.2.add r.2)
def Vu.bind2 (a b : Vu) (f : Word → Word → Vu) : Vu :=
  let r := f a.1 b.1
  (r.1, (a.2.add b.2).add r.2)

/-- A function table in CONST (R164). -/
structure FTab where
  exp2 : Bool
  at_ : Nat
  const : List Byte

/-- Word `i` of a table. -/
def FTab.word (t : FTab) (i : Nat) : Word := Fp.flush (BitVec.ofNat 32 (leAt t.const (t.at_ + 4 * i) 4))

/-- The table of a function-table tensor. -/
def Prog.ftab (g : Prog) (tid : Nat) : FTab := ⟨(g.tensor tid).exp2, (g.tensor tid).coff, g.box.const⟩

/-- R164: the segment's polynomial at `u`, scaled by 2^k. -/
def FTab.poly (t : FTab) (u : Vu) (k : Int) : Vu :=
  let i := (Fp.clampInt 0 255 (Fp.floorInt u.1)).toNat
  let g := Vu.bind1 u fun x => vuSub x (Fp.ofInt i)
  let y := Vu.bind1 g fun x => Vu.bind1 (vuFma (t.word (4 + 3 * i + 2)) x (t.word (4 + 3 * i + 1))) fun h => vuFma h x (t.word (4 + 3 * i))
  Vu.bind1 y fun w =>
    if Fp.isFinite w then
      let d := Fp.val w
      vuRf true (Fp.round ⟨d.m, d.e + k⟩ (Fp.neg w))
    else (w, {})

/-- R164, ftab. -/
def FTab.eval (t : FTab) (x : Word) : Vu :=
  if Fp.isNan x then (Fp.nan, { status := 2 })
  else if !t.exp2 then
    let lo := t.word 0
    let hi := Vu.bind1 (vuDiv 0x43800000 (t.word 1)) fun w => vuAdd lo w
    if Fp.lt x lo then (t.word 2, {})
    else if Fp.le hi.1 x then (t.word 3, {})
    else t.poly (Vu.bind1 (vuSub x lo) fun w => vuMul w (t.word 1)) 0
  else
    let v := vuMul x (t.word 1)
    if Fp.isNan v.1 then v
    else if Fp.lt v.1 0xC2FC0000 then (Fp.zero, v.2)
    else if Fp.le 0x43000000 v.1 then (Fp.fmax, v.2.add { status := 1 })
    else
      let k := Fp.floorInt v.1
      t.poly (Vu.bind1 (Vu.bind1 v fun w => vuSub w (Fp.ofInt k)) fun w => vuMul w 0x43800000) k

/-- R165, vsum: 64 lanes and the tree. -/
def vsum (xs : List Word) : Vu := laneSum 6 Fp.zero vuAdd xs

/-- A row function's results, all with one common tally. -/
abbrev RowOut := List Word × Tally

/-- R165, softmax of a row. -/
def softmaxRow (t : FTab) (xs : List Word) : RowOut :=
  if xs.any Fp.isNan then (xs.map fun _ => Fp.nan, { status := 2 })
  else
    let mx := fpBest Fp.lt xs
    let (es, t1) := tallied (fun x => Vu.bind1 (vuSub x mx) t.eval) xs
    let r := Vu.bind1 (vsum es) vuRcp
    let (ys, t2) := tallied (fun e => vuMul e r.1) es
    (ys, (t1.add r.2).add t2)

/-- R165, layernorm of a row. -/
def lnormRow (gamma beta : List Word) (eps : Word) (xs : List Word) : RowOut :=
  let inv := vuRcp (Fp.ofInt xs.length)
  let mean := Vu.bind2 (vsum xs) inv vuMul
  let (ds, t1) := tallied (fun x => vuSub x mean.1) xs
  let (sq, t2) := tallied (fun d => vuMul d d) ds
  let var := Vu.bind2 (vsum sq) inv vuMul
  let rstd := Vu.bind1 (Vu.bind1 (Vu.bind1 var fun v => vuAdd v eps) vuSqrt) vuRcp
  let (ys, t3) := tallied (fun (q : Word × Word × Word) => Vu.bind1 (vuMul q.1 rstd.1) fun w => vuFma w q.2.1 q.2.2)
    (ds.zip (gamma.zip beta))
  (ys, ((((mean.2.add t1).add t2).add rstd.2).add t3))

/-- R165, rmsnorm of a row. -/
def rmsnormRow (gamma : List Word) (eps : Word) (xs : List Word) : RowOut :=
  let inv := vuRcp (Fp.ofInt xs.length)
  let (sq, t1) := tallied (fun x => vuMul x x) xs
  let ms := Vu.bind2 (vsum sq) inv vuMul
  let rstd := Vu.bind1 (Vu.bind1 (Vu.bind1 ms fun v => vuAdd v eps) vuSqrt) vuRcp
  let (ys, t2) := tallied (fun (q : Word × Word) => Vu.bind1 (vuMul q.1 rstd.1) fun w => vuMul w q.2) (xs.zip gamma)
  (ys, ((t1.add rstd.2).add t2))

/-- R162: a whole number saturated to a type's range: INT32, UINT8 or UINT16. -/
def vuToInt (type : Nat) (z : Word) : Nat × Tally :=
  let (lo, hi) : Int × Int := if type = 5 then (-(2 ^ 31), 2 ^ 31 - 1) else if type = 2 then (0, 255) else (0, 65535)
  let (i, sat) := Fp.toIntSat lo hi z
  (intBits (typeBits type) i, if sat then { status := 8 } else {})

/-- R162: an FP32 result stored as element `e` of a destination. -/
def vuStore (s : State) (g : Prog) (d : View) (e : Nat) (z : Word) : Nat × Tally :=
  let ty := d.t.type
  if ty = 7 then (z.toNat, {})
  else if ty = 6 then
    let b := Fp.toBf16 z
    if b &&& 0x7FFF = 0x7F80 then (((b &&& 0x8000) ||| 0x7F7F).toNat, { status := 1 }) else (b.toNat, {})
  else if ty = 1 ∨ ty = 3 ∨ ty = 4 then
    let qm := if ty = 1 then 0 else if ty = 3 then 1 else 2
    if Fp.isNan z then
      let (q, _) := quantise Fp.zero qm (g.box.cbk d.t.cbk)
      (q, { sat := 1, status := 2 })
    else
      let (o, t1) := vuRcp (Fp.flush (Fp.ofBf16 (s.elemScale g d e)))
      let (x, ovf) := Fp.fin (Fp.mulRne z o)
      let (q, t2) := quantise x qm (g.box.cbk d.t.cbk)
      (q, (t1.add t2).add (if ovf && Fp.isFinite z then { status := 1 } else {}))
  else vuToInt ty z

/-- A vector operand's element, or the immediate (R195). -/
def vuOperand (s : State) (g : Prog) (v : View) (imm : Option Word) (e : Nat) : Vu :=
  match imm with
  | some w => (Fp.flush w, {})
  | none => s.elemVu g v e

/-- The whole number of an INT8 operand, or of an INT8 immediate. -/
def vuOperandI (s : State) (g : Prog) (v : View) (imm : Option Word) (e : Nat) : Int :=
  match imm with
  | some w => (w.setWidth 8).toInt
  | none => s.elemInt g v e

/-- Raw FP32 of a value for a compare or a conversion: no scale is applied to a whole number (Table 7.15, vop.sel). -/
def selFp (s : State) (g : Prog) (v : View) (e : Nat) : Word :=
  if isFloat v.t.type then s.elemFp g v e else Fp.ofInt (s.elemInt g v e)

/-- Table 7.15, vop.sel: the condition between a and b. -/
def selHolds (s : State) (g : Prog) (c : Cond) (a b : View) (ea eb : Nat) : Bool :=
  let x := selFp s g a ea
  let y := selFp s g b eb
  if isFloat a.t.type then
    match c with
    | .eq => Fp.eqv x y
    | .ne => !Fp.eqv x y
    | .lt | .flt | .ltu => Fp.lt x y
    | .ge | .fge | .geu => !Fp.isNan x && !Fp.isNan y && !Fp.lt x y
  else
    let i := s.elemInt g a ea
    let j := s.elemInt g b eb
    match c with
    | .eq => decide (i = j)
    | .ne => decide (i ≠ j)
    | .lt => decide (i < j)
    | .ge => decide (j ≤ i)
    | .flt | .ltu => Fp.lt x y
    | .fge | .geu => !Fp.lt x y

/-- One element of an elementwise operation (0x00 to 0x0C but vop.sel). A whole number computed in INT8 and stored in another type is
converted without the source's scale (log entry 80). -/
def vuElem (s : State) (g : Prog) (op : Nat) (d a b c : View) (imm : Option Word) (ed ea eb ec : Nat) : Nat × Tally :=
  if op ≤ 6 ∧ a.t.type = 1 ∧ (imm.isSome ∨ 5 ≤ op ∨ b.t.type = 1) then
    let i := vuBinI op (s.elemInt g a ea) (vuOperandI s g b imm eb)
    if d.t.type = 1 then (intBits 8 i, {}) else vuStore s g d ed (Fp.ofInt i)
  else
    let r : Vu := Vu.bind1 (s.elemVu g a ea) fun x =>
      if op ≤ 6 then Vu.bind1 (if 5 ≤ op then (x, {}) else vuOperand s g b imm eb) (vuBin op x)
      else if op = 8 then Vu.bind2 (s.elemVu g b eb) (s.elemVu g c ec) (vuFma x)
      else if op = 9 then (if Fp.isNan x then (Fp.nan, { status := 2 }) else (x, {}))
      else if op = 10 then vuRcp x
      else if op = 11 then vuSqrt x
      else (g.ftab b.tid).eval x
    let (q, t) := vuStore s g d ed r.1
    (q, r.2.add t)

/-- Table 7.15, vop.sel: one element. -/
def selElem (s : State) (g : Prog) (cond : Cond) (d a b c : View) (ed ea eb ec : Nat) : Nat × Tally :=
  let pick := selHolds s g cond a b ea eb
  let nan := isFloat a.t.type && (Fp.isNan (selFp s g a ea) || Fp.isNan (selFp s g b eb) || Fp.isNan (selFp s g c ec))
  let mark : Tally := if nan then { status := 2 } else {}
  if d.t.type = a.t.type then (if pick then s.elem a ea else s.elem c ec, mark)
  else
    let x := if pick then s.elemVu g a ea else s.elemVu g c ec
    let (q, t) := vuStore s g d ed x.1
    (q, (mark.add x.2).add t)

/-- The rows of an elementwise operation over the destination's slice. -/
def vuRows (d a b c : View) (count : Nat) (f : Nat → Nat → Nat → Nat → Nat × Tally) : List (Nat × List Nat × Tally) :=
  (d.sliceRows count).map fun q =>
    (d.row q, tallied (fun i => f (d.row q * d.t.width + i) (a.row q * a.t.width + i) (b.row q * b.t.width + i) (c.row q * c.t.width + i))
      (List.range d.t.width))

/-- The rows of softmax and the normalisations (R165). -/
def vuRowOps (s : State) (g : Prog) (op : Nat) (d a b c : View) (count rec : Nat) : List (Nat × List Nat × Tally) :=
  let n := a.t.width
  let eps := Fp.flush (BitVec.ofNat 32 (leAt g.box.const (rec * 16) 4))
  let vecOf := fun v => (List.range n).map (s.elemFp g v)
  (d.sliceRows count).map fun q =>
    let (xs, t0) := tallied (fun i => s.elemVu g a (a.row q * n + i)) (List.range n)
    let (ys, t) := if op = 13 then softmaxRow (g.ftab b.tid) xs
      else if op = 14 then lnormRow (vecOf b) (vecOf c) eps xs
      else rmsnormRow (vecOf b) eps xs
    let (row, u) := tallied (fun (i : Nat × Word) => vuStore s g d (d.row q * d.t.width + i.1) i.2) (ys.mapIdx fun i y => (i, y))
    (d.row q, row, (t0.add t).add u)

/-- R166: a pooled element. -/
def poolElem (s : State) (g : Prog) (op : Nat) (l : Layer) (d a : View) (b c y x : Nat) : Nat × Tally :=
  let (_, _, h, w) := a.t.image
  let win := (List.range (l.kh * l.kw)).filterMap fun t =>
    match l.tap (c + 1) h w t c y x with
    | .read ch yy xx => some (a.t.imageIdx b ch yy xx)
    | _ => none
  let ed := d.t.imageIdx b c y x
  if op = 16 ∧ a.t.type = 1 then
    let i := intBest (fun p q => decide (p < q)) (win.map (s.elemInt g a))
    if d.t.type = 1 then (intBits 8 i, {}) else vuStore s g d ed (Fp.ofInt i)
  else
    let (xs, t0) := tallied (s.elemVu g a) win
    let r : Vu :=
      if xs.isEmpty then (Fp.zero, {})
      else if op = 16 then (if xs.any Fp.isNan then (Fp.nan, { status := 2 }) else (fpBest Fp.lt xs, {}))
      else
        let sum := xs.foldl (fun (v : Vu) z => Vu.bind1 v fun u => vuAdd u z) (Fp.zero, {})
        Vu.bind2 sum (vuRcp (Fp.ofInt (if l.packed then l.kh * l.kw else xs.length : Nat))) vuMul
    let (q, t) := vuStore s g d ed r.1
    (q, (t0.add r.2).add t)

/-- R167: the source coordinate of output index `o`: p, then the nearest index, x0, x1 and the fraction. -/
def rszCoord (nin nout o : Nat) : Nat × Nat × Nat × Word :=
  let ratio := (vuDiv (Fp.ofInt nin) (Fp.ofInt nout)).1
  let p := (vuMul (Fp.round ⟨2 * o + 1, -1⟩) ratio).1
  let sx := (vuSub p 0x3F000000).1
  let sx := if Fp.lt sx 0 then Fp.zero else if Fp.lt (Fp.ofInt (nin - 1 : Nat)) sx then Fp.ofInt (nin - 1 : Nat) else sx
  let x0 := (Fp.floorInt sx).toNat
  (min (Fp.floorInt p).toNat (nin - 1), x0, min (x0 + 1) (nin - 1), (vuSub sx (Fp.ofInt x0)).1)

/-- Two tensors whose elements stand for the same values. -/
def sameCode (a d : Tensor) : Bool :=
  decide (a.type = d.type) &&
    (decide (a.type ≠ 1 ∧ a.type ≠ 3 ∧ a.type ≠ 4) || decide (a.scale = d.scale ∧ a.smode = d.smode ∧ a.gsz = d.gsz ∧ a.cbk = d.cbk))

/-- R167: a resized element. -/
def rszElem (s : State) (g : Prog) (op : Nat) (d a : View) (b c y x : Nat) : Nat × Tally :=
  let (_, _, h, w) := a.t.image
  let (_, _, ho, wo) := d.t.image
  let (ny, y0, y1, fy) := rszCoord h ho y
  let (nx, x0, x1, fx) := rszCoord w wo x
  let ed := d.t.imageIdx b c y x
  let px := fun yy xx => s.elemVu g a (a.t.imageIdx b c yy xx)
  if op = 18 then
    if sameCode a.t d.t && !isFloat a.t.type then (s.elem a (a.t.imageIdx b c ny nx), {})
    else
      let z := Vu.bind1 (px ny nx) fun w => if Fp.isNan w then (Fp.nan, { status := 2 }) else (w, {})
      let (q, t) := vuStore s g d ed z.1
      (q, z.2.add t)
  else
    let lerp := fun (f : Word) (u v : Vu) => Vu.bind2 u (Vu.bind1 (Vu.bind2 v u vuSub) fun w => vuMul f w) vuAdd
    let hh := lerp fx (px y0 x0) (px y0 x1)
    let ll := lerp fx (px y1 x0) (px y1 x1)
    let r := lerp fy hh ll
    let (q, t) := vuStore s g d ed r.1
    (q, r.2.add t)

/-- R168: the rows of a gather: each row of the destination's slice is the table row of its index. -/
def gatherRows (s : State) (g : Prog) (d a b : View) (count : Nat) : List (Nat × List Nat × Tally) :=
  let n := a.t.width
  let have_ := a.t.height - a.off
  (d.sliceRows count).mapIdx fun j q =>
    let i := s.elemInt g b (b.off * b.t.width + j)
    if 0 ≤ i ∧ i < have_ then
      (d.row q, tallied (fun k =>
        let e := (a.off + i.toNat) * n + k
        if sameCode a.t d.t then (s.elem a e, {})
        else
          let x := s.elemVu g a e
          let (z, t) := vuStore s g d (d.row q * d.t.width + k) x.1
          (z, x.2.add t)) (List.range d.t.width))
    else (d.row q, List.replicate d.t.width 0, { sat := 1, status := 4 })

/-- R162 to R168: the rows of storage that a vector operation writes. -/
def vecRows (s : State) (g : Prog) (op : Nat) (cond : Cond) (d va vb vc : View) (imm : Option Word) (count rec : Nat) :
    List (Nat × List Nat × Tally) :=
  if op = 7 then vuRows d va vb vc count (selElem s g cond d va vb vc)
  else if op ≤ 12 then vuRows d va vb vc count (vuElem s g op d va vb vc imm)
  else if op ≤ 15 then vuRowOps s g op d va vb vc count rec
  else if op ≤ 17 then imageKernel d count (poolElem s g op (g.box.layer rec) d va)
  else if op ≤ 19 then imageKernel d count (rszElem s g op d va)
  else gatherRows s g d va vb count

namespace State

/-- R171: the vector unit's registers after a command in yard `y` of mast `m`. -/
def vuRecord (s : State) (p m y op dtype n status oob : Nat) : State :=
  let r := yreg .vuLast m y
  let s := s.put r 0 6 op
  let s := s.put r 6 4 dtype
  let s := s.put r 10 3 (s.slotOn p m)
  ((s.setBits (yreg .vuStatus m y) (BitVec.ofNat 64 status)).perf (yreg .vuElemCnt m y) n).bump (yreg .vuOobCnt m y) oob

/-- R168: the first out-of-range index of a program in a tick. -/
def gatherRange (s : State) (p m y : Nat) : State :=
  let c := s.ctx p
  if c.onceGather then s
  else (s.setCtx p { c with onceGather := true }).raise 0x0204 m y (s.handle p) 0 s.t48

/-- The operands that a vector operation reads as data. -/
def vecReads {α : Type} (op : Nat) (imm : Bool) (a b c : α) : List α :=
  if op ≤ 4 then if imm then [a] else [a, b]
  else if op = 7 ∨ op = 8 ∨ op = 14 then [a, b, c]
  else if op = 15 ∨ op = 20 then [a, b]
  else [a]

/-- The elements of its first operand that a vector operation may read: of an image the window of its output rows, of a gathered table any,
of any other its slice (R146, R163, R184). -/
def vecMay (l : Layer) (op count : Nat) (d a : View) (r c : Nat) : Bool :=
  let (_, _, h, w) := a.t.image
  let (_, _, ho, wo) := d.t.image
  let (_, _, y, x) := a.t.imageAt r c
  let near := fun nin nout o => let q := rszCoord nin nout o; if op = 18 then [q.1] else [q.2.1, q.2.2.1]
  if op ≤ 15 then (d.sliceRows count).any fun q => decide (a.row q = r)
  else if op ≤ 17 then
    (tapReads h l.kh l.sy l.dy l.pt (d.imageRows count)).contains y && (tapReads w l.kw l.sx l.dx l.pl (List.range wo)).contains x
  else if op ≤ 19 then
    (d.imageRows count).any (fun o => (near h ho o).contains y) && (List.range wo).any fun o => (near w wo o).contains x
  else true

/-- The elements of its first operand that a vector operation reads: of a gathered table the rows of its indices. -/
def vecNeeds (s : State) (g : Prog) (op count rec : Nat) (d a b : View) (r c : Nat) : Bool :=
  if op ≤ 19 then vecMay (g.box.layer rec) op count d a r c
  else (List.range (d.sliceRows count).length).any fun j => decide (s.elemInt g b (b.off * b.t.width + j) = ((r - a.off : Nat) : Int) ∧ a.off ≤ r)

/-- The reads of the further operands: their slices for elementwise operations, else the whole. -/
def sideNeeds (op count : Nat) (d v : View) (r _c : Nat) : Bool := if op ≤ 12 then (d.sliceRows count).any fun q => decide (v.row q = r) else true

/-- R163, Table 6.5: the cycles of the unit that a command takes. -/
def vecCycles (g : Prog) (op count rec : Nat) (d a : View) : Nat :=
  let rows := (d.sliceRows count).length
  let lanes_ := if op ≤ 8 then (if a.t.type = 1 then 256 else if a.t.type = 6 then 128 else 64) else 64
  let outs := (d.imageRows count).length * (d.t.image.1 * d.t.image.2.1 * d.t.image.2.2.2)
  let l := g.box.layer rec
  if op ≤ 12 then rows * cdiv d.t.width lanes_
  else if op ≤ 15 then rows * ((if op = 15 then 2 else 3) * cdiv a.t.width 64)
  else if op ≤ 17 then cdiv outs 64 * (l.kh * l.kw)
  else if op ≤ 19 then cdiv outs 64 * (if op = 18 then 1 else 4)
  else rows * cdiv a.t.rowBytes 256

/-- R171, R168: what a vector command shows: at once, or, under `spec` epochs, once they commit. -/
def vuShow (s : State) (p m y spec op dtype n status oob : Nat) : State :=
  if spec = 0 then
    let s := s.vuRecord p m y op dtype n status oob
    if 0 < oob then s.gatherRange p m y else s
  else
    let h : Held := { prog := p, boom := 0, slot := 0xFFFF, vu := some (op, dtype, n, status, oob), spec := spec }
    s.setYard m y { s.yard m y with held := (s.yard m y).held ++ [h] }

/-- R162 to R169: a vector kernel runs, under `spec` epochs into shadow halves. -/
def runVec (s : State) (p spec op : Nat) (cond : Cond) (dst a b c : Slice) (imm : Option Word) (count rec : Nat) : State :=
  let s := s.openShadow p dst.tid spec
  let g := s.prog p
  let d := g.viewAt dst true spec
  let va := g.viewAt a false spec
  let vb := g.viewAt b false spec
  let vc := g.viewAt c false spec
  let (m, y) := s.homeOf p va.base
  let s1 := s.readWhere p 13 va (vecNeeds s g op count rec d va vb)
  let s1 := ((vecReads op imm.isSome va vb vc).drop 1).foldl (fun t v => t.readWhere p 13 v (sideNeeds op count d v)) s1
  let rows := vecRows s g op cond d va vb vc imm count rec
  let oob := if op = 20 then rows.countP fun r => decide (r.2.2.status = 4) else 0
  let n := rows.foldl (fun k r => k + r.2.1.length) 0
  ((s1.writeRows p 14 spec d rows).takeUnit m y 9 (vecCycles g op count rec d va)).vuShow p m y spec op va.t.type n (rowsStatus rows) oob

end State
end Sys2Proof.Machine
end

