-- ==== Sys2Proof/Machine/Kernels.lean ====
section
/-! DEFINITION. Kernels (R183, R191, R209): a kernel issues into the queue of a unit of its yard and runs when it starts there, in program
order with the commands that touch its tensors; its accesses pass the fill-generation tripwires (R118 to R123). -/

namespace Sys2Proof.Machine

/-! ### What commands read and write -/

/-- The tensors that a kernel reads; boom.cnt reads the counts of its tensor (R80). -/
def Kernel.reads : Kernel → List Nat
  | .mat _ _ a b c bias _ _ => [a.tid, b.tid] ++ if bias then [c.tid] else []
  | .conv _ _ a b c bias _ _ => [a.tid, b.tid] ++ if bias then [c.tid] else []
  | .red _ _ a _ _ _ _ _ _ => [a.tid]
  | .vec op _ _ a b c imm _ _ => State.vecReads op imm.isSome a.tid b.tid c.tid
  | .strm _ a _ _ _ _ _ => [a.tid]
  | .boomCnt _ _ t => [t.tid]

/-- The tensors that a kernel writes. -/
def Kernel.writes : Kernel → List Nat
  | .mat _ d _ _ _ _ _ _ => [d.tid]
  | .conv _ d _ _ _ _ _ _ => [d.tid]
  | .red _ d _ b dest _ _ vo _ => (match dest with | .scalar _ => [] | _ => [d.tid]) ++ if vo then [b.tid] else []
  | .vec _ _ d _ _ _ _ _ _ => [d.tid]
  | .strm d _ _ _ _ _ _ => [d.tid]
  | .boomCnt _ _ _ => []

/-- The tensors that an engine command reads, and writes. -/
def EngOp.reads : EngOp → List Nat
  | .run _ _ _ _ _ act _ _ => [act.tid]
  | .load _ wt => [wt.tid]
  | .epi bias _ _ _ biasTid _ => if bias then [biasTid] else []
  | .pre src _ _ => [src.tid]
  | .kernel k => k.reads
  | _ => []
def EngOp.writes : EngOp → List Nat
  | .epi _ dst _ _ _ _ => [dst.tid]
  | .kernel k => k.writes
  | _ => []

/-- The command is a kernel. -/
def EngOp.isKernel : EngOp → Bool
  | .kernel _ => true
  | _ => false

/-- The command is an epilogue. -/
def EngOp.isEpi : EngOp → Bool
  | .epi .. => true
  | _ => false

/-- One of two commands writes what the other touches; two epilogues may write one tensor together (R120). -/
def EngOp.clash (a b : EngOp) : Bool :=
  a.writes.any b.reads.contains || b.writes.any a.reads.contains || (a.writes.any b.writes.contains && !(a.isEpi && b.isEpi))

namespace State

/-! ### Blocks that commands read and write (R120, R121) -/

/-- What a kernel reads: port, operand, and the elements that it needs, by row and column. -/
def kernelNeeds (s : State) (p spec : Nat) (k : Kernel) : List (Nat × View × (Nat → Nat → Bool)) :=
  let g := s.prog p
  let all := fun (_ _ : Nat) => true
  let rd := fun (o : Slice) => g.viewAt o false spec
  match k with
  | .mat _ d a b c bias count _ =>
    [(0, rd a, matNeeds count (g.viewAt d true spec) (rd a)), (4, rd b, all)] ++ if bias then [(8, rd c, all)] else []
  | .conv tr d a b c bias count rec =>
    [(0, rd a, convNeeds (g.box.layer rec) tr count (g.viewAt d true spec) (rd a)), (4, rd b, all)] ++ if bias then [(8, rd c, all)] else []
  | .red op d a _ dest group axes _ count =>
    [(12, rd a, redNeeds (rd a) op count (redGroups (rd a) dest (redGroupSize (g.viewAt d true spec) dest group) axes count).flatten)]
  | .vec op _ d a b c imm count rec =>
    (13, rd a, vecMay (g.box.layer rec) op count (g.viewAt d true spec) (rd a)) ::
      ((vecReads op imm.isSome (rd a) (rd b) (rd c)).drop 1).map fun v => (13, v, sideNeeds op count (g.viewAt d true spec) v)
  | _ => []

/-- What a kernel writes: port, operand, and rows of storage. -/
def kernelRows (s : State) (p spec : Nat) (k : Kernel) : List (Nat × View × List Nat) :=
  let g := s.prog p
  let rows := fun (v : View) (count : Nat) => (v.sliceRows count).map v.row
  let image := fun (v : View) (count : Nat) => (v.imageRows count).flatMap fun y => (v.t.imageStore y).map (·.1)
  let wr := fun (o : Slice) => g.viewAt o true spec
  match k with
  | .mat _ d _ _ _ _ count _ => [(8, wr d, rows (wr d) count)]
  | .conv _ d _ _ _ _ count _ => [(8, wr d, image (wr d) count)]
  | .red _ d _ b dest _ _ vo count =>
    (match dest with | .tensor => [(14, wr d, rows (wr d) count)] | _ => []) ++ if vo then [(14, wr b, rows (wr b) count)] else []
  | .vec op _ d _ _ _ _ count _ => [(14, wr d, if 16 ≤ op ∧ op ≤ 19 then image (wr d) count else rows (wr d) count)]
  | _ => []

/-- The armed blocks that a command reads, each with whether its tensor is generation-free. -/
def readBlocks (s : State) (m y : Nat) (c : EngCmd) : List (Nat × Bool) :=
  let g := s.prog c.prog
  let v := fun (o : Slice) => g.viewAt o false c.spec
  let of := fun (tid : Nat) (bs : List Nat) => bs.map fun k => (k, (g.tensor tid).genfree)
  (match c.op with
    | .run _ _ _ bcast _ act count _ => if bcast then [] else of act.tid (spanBlocks (v act) (act.off * 32) (count * 32))
    | .load c4 wt => of wt.tid (blocksAt (tileAddr g wt c4 c.spec) (if c4 then 512 else 1024))
    | .tld _ cbk =>
      let a := cbkAt g (8 * m + y) cbk
      if a = 0 then [] else (blocksAt a (64 * tableLines (g.box.cbk cbk).length)).map fun k => (k, false)
    | .epi bias _ _ _ biasTid _ => if bias then of biasTid (viewBlocks (v ⟨biasTid, 0⟩)) else []
    | .pre src _ count => of src.tid (spanBlocks (v src) (src.off * (v src).t.width) (32 * count))
    | .kernel (.strm d a count xform chans _ _) =>
      let e := s.strmEngine c.prog (s.strmReads g a count) (s.strmRows g d a count xform chans)
      of a.tid (((s.strmReads g a count).filter fun (r : Nat × Nat) => ownPiece e r.1).flatMap fun (r : Nat × Nat) => blocksAt r.1 r.2).eraseDups
    | .kernel k => (s.kernelNeeds c.prog c.spec k).flatMap fun (q : Nat × View × (Nat → Nat → Bool)) => of q.2.1.tid (needBlocks q.2.1 q.2.2)
    | _ => []).filter fun q => s.armed q.1

/-- The armed blocks that a command writes; a stream takes part in fills beyond its mast only through a window with the gen permission. -/
def writeBlocks (s : State) (c : EngCmd) : List Nat :=
  let g := s.prog c.prog
  (match c.op with
    | .epi _ dst _ count _ _ => let d := g.viewAt dst true c.spec; spanBlocks d (dst.off * d.t.width) (32 * count)
    | .kernel (.strm d a count xform chans _ _) =>
      let rows := s.strmRows g d a count xform chans
      let e := s.strmEngine c.prog (s.strmReads g a count) rows
      ((rows.filter fun (r : Nat × List Byte) => ownPiece e r.1 || s.windowGen e r.1 r.2.length).flatMap fun (r : Nat × List Byte) =>
        blocksAt r.1 r.2.length).eraseDups
    | .kernel k => (s.kernelRows c.prog c.spec k).flatMap fun (q : Nat × View × List Nat) => rowBlocks q.2.1 q.2.2
    | _ => []).filter s.armed

/-- R120: the epilogues that fill a block together with one that starts: those of its program in the yard's queues, under as many epochs,
that write the block, with no command between them that reads the tensor; seven writers at most (log entry 86). -/
def mates (s : State) (m y : Nat) (c : EngCmd) (k : Nat) : List Nat :=
  let queued := (s.yards.flatMap fun v => v.2.queues.flatMap (·.2)).filter fun d => decide (d.prog = c.prog ∧ c.seq < d.seq)
  let here := ((s.yard m y).queues.flatMap (·.2)).filter fun d => decide (d.prog = c.prog ∧ d.spec = c.spec ∧ c.seq < d.seq)
  match c.op with
  | .epi .. =>
    ((here.filter fun d => d.op.isEpi && (s.writeBlocks d).contains k &&
      queued.all fun e => !(decide (e.seq < d.seq) && e.op.reads.any d.op.writes.contains)).map (·.seq)).take 6
  | _ => []

/-- R199: the generations and writer counts of a command, which translation derives, as they stand when it starts. -/
def nameTags (s : State) (m y : Nat) (c : EngCmd) : State × Tags :=
  let rd := (s.readBlocks m y c).map s.nameRead
  let (s', wr) := s.nameWrites c.prog c.spec c.seq (s.mates m y c) (s.writeBlocks c)
  (s', { rd := rd, wr := wr })

/-- The tag checks of a kernel, whose accesses fall in one cycle (log entry 50): its reads, then its writes. -/
def tripChecks (s : State) (p spec seq : Nat) (k : Kernel) (tags : Tags) : State :=
  let s := (s.kernelNeeds p spec k).foldl (fun s q =>
    (tags.rd.filter fun u => (viewBlocks q.2.1).contains u.block).foldl (fun s u => s.tagCheck p spec q.1 1 u) s) s
  (s.kernelRows p spec k).foldl (fun s q =>
    s.tagWrite p spec seq q.1 (tags.wr.filter fun u => (viewBlocks q.2.1).contains u.block)) s

/-- R80, R200: boom.cnt: the count of a counted tensor over the program's yards of its own mast; it reaches the register 20 cycles
later. -/
def runBoomCnt (s : State) (p seq : Nat) (rtz : Bool) (tid : Nat) : State :=
  let g := s.prog p
  let m := s.firstMast p
  let slot := (g.counterSlot tid).getD 0
  let ys := g.place.yards.filter fun q => decide (q / 8 = m)
  let n := ys.foldl (fun n q => n + s.get (yreg (if rtz then .boomCntRtz else .boomCntSat) m (q % 8) slot) 0 32) 0
  s.deliver p seq (BitVec.ofNat 32 (min n 0xFFFFFFFF)) (s.afterCycles 20) none

/-- A kernel starts, `seq` its place in program order, under `spec` epochs: its effect is whole (log entry 50). -/
def runKernel (s : State) (p spec seq : Nat) (k : Kernel) (tags : Tags) : State :=
  let s := s.tripChecks p spec seq k tags
  match k with
  | .mat _ d a b c bias count rec => s.runMm p d a b c bias count rec
  | .conv tr d a b c bias count rec => s.runConv p tr d a b c bias count rec
  | .red op d a b dest group axes vo count => s.runRed p seq op d a b dest group axes vo count
  | .vec op cond d a b c imm count rec => s.runVec p spec op cond d a b c imm count rec
  | .strm d a count xform chans tap flag => s.startStrm p seq d a count xform chans tap flag tags
  | .boomCnt rtz _ t => s.runBoomCnt p seq rtz t.tid

/-- The yard and queue of a kernel (Table 8.1; log entry 81): the sail of the yard of its destination for the matrix classes, the
unit of the yard of its source for the others, boom 0 of the program's first yard for boom.cnt. -/
def kernelQueue (s : State) (p spec : Nat) (k : Kernel) : Nat × Nat × UnitQ :=
  let g := s.prog p
  let at_ := fun (o : Slice) (write : Bool) => s.homeOf p (g.viewAt o write spec).base
  let into := fun (q : Nat × Nat) (u : UnitQ) => (q.1, q.2, u)
  match k with
  | .mat _ d _ _ _ _ _ _ => into (at_ d true) (.sail 0)
  | .conv _ d _ _ _ _ _ _ => into (at_ d true) (.sail 0)
  | .red _ _ a _ _ _ _ _ _ => into (at_ a false) .reef
  | .vec _ _ _ a _ _ _ _ _ => into (at_ a false) .vu
  | .strm _ a _ _ _ _ _ => into (at_ a false) .strm
  | .boomCnt _ _ _ => let q := g.place.yards.headD 0; (q / 8, q % 8, .boom 0)

/-- R183, R209: a kernel issues into its queue. -/
def issueKernel (s : State) (p : Nat) (g : Guard) (i : Instr) (k : ProgRegs → Kernel) : State :=
  s.issueCmd p g i ((k (s.regsOf p)).dest.toList) fun s =>
    let kn := k (s.regsOf p)
    let q := s.kernelQueue p (s.depth p) kn
    s.enterQueue p q.1 q.2.1 q.2.2 (.kernel kn)

end State

/-! ### The matrix classes -/

/-- The kernel of a matrix-class instruction. -/
def MatOps.kernel (o : MatOps) (mode : Mode) (g : ProgRegs) : Kernel :=
  .mat mode (o.dst.slice g) (o.a.slice g) (o.b.slice g) (o.c.slice g) o.bias o.count.toNat o.record.toNat

/-- mm.i8 (R192). -/
def execMmI8 (p : Nat) (g : Guard) (o : MatOps) (s : State) : Host.Outcome State Fault Refusal :=
  .next (s.issueKernel p g (.mmI8 p g o) fun r => MatOps.kernel o .i8 r)

/-- mm.w4a8 (R192). -/
def execMmW4a8 (p : Nat) (g : Guard) (o : MatOps) (s : State) : Host.Outcome State Fault Refusal :=
  .next (s.issueKernel p g (.mmW4a8 p g o) fun r => MatOps.kernel o .w4a8 r)

/-- mm.c4 (R192). -/
def execMmC4 (p : Nat) (g : Guard) (o : MatOps) (s : State) : Host.Outcome State Fault Refusal :=
  .next (s.issueKernel p g (.mmC4 p g o) fun r => MatOps.kernel o .c4 r)

/-- The kernel of a convolution. -/
def MatOps.convKernel (o : MatOps) (tr : Bool) (g : ProgRegs) : Kernel :=
  .conv tr (o.dst.slice g) (o.a.slice g) (o.b.slice g) (o.c.slice g) o.bias o.count.toNat o.record.toNat

/-- conv (R142 to R151, R193). -/
def execConv (p : Nat) (g : Guard) (o : MatOps) (s : State) : Host.Outcome State Fault Refusal :=
  .next (s.issueKernel p g (.conv p g o) fun r => MatOps.convKernel o false r)

/-- tconv (R152 to R154, R193). -/
def execTconv (p : Nat) (g : Guard) (o : MatOps) (s : State) : Host.Outcome State Fault Refusal :=
  .next (s.issueKernel p g (.tconv p g o) fun r => MatOps.convKernel o true r)

/-! ### Reductions -/

/-- The kernel of a reduction; `op` is its operation code. -/
def RedOps.kernel (o : RedOps) (op : Nat) (g : ProgRegs) : Kernel :=
  .red op (o.dst.slice g) (o.a.slice g) (o.b.slice g) o.dest o.group.toNat o.axes.toNat o.valueOut o.count.toNat

/-- red.sum. -/
def execRedSum (p : Nat) (g : Guard) (o : RedOps) (s : State) : Host.Outcome State Fault Refusal :=
  .next (s.issueKernel p g (.redSum p g o) fun r => RedOps.kernel o 0 r)

/-- red.sumsq. -/
def execRedSumsq (p : Nat) (g : Guard) (o : RedOps) (s : State) : Host.Outcome State Fault Refusal :=
  .next (s.issueKernel p g (.redSumsq p g o) fun r => RedOps.kernel o 1 r)

/-- red.max. -/
def execRedMax (p : Nat) (g : Guard) (o : RedOps) (s : State) : Host.Outcome State Fault Refusal :=
  .next (s.issueKernel p g (.redMax p g o) fun r => RedOps.kernel o 2 r)

/-- red.min. -/
def execRedMin (p : Nat) (g : Guard) (o : RedOps) (s : State) : Host.Outcome State Fault Refusal :=
  .next (s.issueKernel p g (.redMin p g o) fun r => RedOps.kernel o 3 r)

/-- red.maxabs. -/
def execRedMaxabs (p : Nat) (g : Guard) (o : RedOps) (s : State) : Host.Outcome State Fault Refusal :=
  .next (s.issueKernel p g (.redMaxabs p g o) fun r => RedOps.kernel o 4 r)

/-- red.nz. -/
def execRedNz (p : Nat) (g : Guard) (o : RedOps) (s : State) : Host.Outcome State Fault Refusal :=
  .next (s.issueKernel p g (.redNz p g o) fun r => RedOps.kernel o 5 r)

/-- argmax.c. -/
def execArgmaxC (p : Nat) (g : Guard) (o : RedOps) (s : State) : Host.Outcome State Fault Refusal :=
  .next (s.issueKernel p g (.argmaxC p g o) fun r => RedOps.kernel o 6 r)

/-- argmin.c. -/
def execArgminC (p : Nat) (g : Guard) (o : RedOps) (s : State) : Host.Outcome State Fault Refusal :=
  .next (s.issueKernel p g (.argminC p g o) fun r => RedOps.kernel o 7 r)

/-! ### Vector operations -/

/-- The kernel of a vector instruction; `op` is its operation code. -/
def VecOps.kernel (o : VecOps) (op : Nat) (cond : Cond) (g : ProgRegs) : Kernel :=
  .vec op cond (o.dst.slice g) (o.a.slice g) (o.b.slice g) (o.c.slice g) o.imm o.count.toNat o.record.toNat

/-- vop.add. -/
def execVopAdd (p : Nat) (g : Guard) (o : VecOps) (s : State) : Host.Outcome State Fault Refusal :=
  .next (s.issueKernel p g (.vopAdd p g o) fun r => VecOps.kernel o 0 .eq r)

/-- vop.sub. -/
def execVopSub (p : Nat) (g : Guard) (o : VecOps) (s : State) : Host.Outcome State Fault Refusal :=
  .next (s.issueKernel p g (.vopSub p g o) fun r => VecOps.kernel o 1 .eq r)

/-- vop.mul. -/
def execVopMul (p : Nat) (g : Guard) (o : VecOps) (s : State) : Host.Outcome State Fault Refusal :=
  .next (s.issueKernel p g (.vopMul p g o) fun r => VecOps.kernel o 2 .eq r)

/-- vop.max. -/
def execVopMax (p : Nat) (g : Guard) (o : VecOps) (s : State) : Host.Outcome State Fault Refusal :=
  .next (s.issueKernel p g (.vopMax p g o) fun r => VecOps.kernel o 3 .eq r)

/-- vop.min. -/
def execVopMin (p : Nat) (g : Guard) (o : VecOps) (s : State) : Host.Outcome State Fault Refusal :=
  .next (s.issueKernel p g (.vopMin p g o) fun r => VecOps.kernel o 4 .eq r)

/-- vop.abs. -/
def execVopAbs (p : Nat) (g : Guard) (o : VecOps) (s : State) : Host.Outcome State Fault Refusal :=
  .next (s.issueKernel p g (.vopAbs p g o) fun r => VecOps.kernel o 5 .eq r)

/-- vop.neg. -/
def execVopNeg (p : Nat) (g : Guard) (o : VecOps) (s : State) : Host.Outcome State Fault Refusal :=
  .next (s.issueKernel p g (.vopNeg p g o) fun r => VecOps.kernel o 6 .eq r)

/-- vop.sel. -/
def execVopSel (p : Nat) (g : Guard) (cond : Cond) (o : VecOps) (s : State) : Host.Outcome State Fault Refusal :=
  .next (s.issueKernel p g (.vopSel p g cond o) fun r => VecOps.kernel o 7 cond r)

/-- vop.fma. -/
def execVopFma (p : Nat) (g : Guard) (o : VecOps) (s : State) : Host.Outcome State Fault Refusal :=
  .next (s.issueKernel p g (.vopFma p g o) fun r => VecOps.kernel o 8 .eq r)

/-- vop.cvt. -/
def execVopCvt (p : Nat) (g : Guard) (o : VecOps) (s : State) : Host.Outcome State Fault Refusal :=
  .next (s.issueKernel p g (.vopCvt p g o) fun r => VecOps.kernel o 9 .eq r)

/-- vop.rcp. -/
def execVopRcp (p : Nat) (g : Guard) (o : VecOps) (s : State) : Host.Outcome State Fault Refusal :=
  .next (s.issueKernel p g (.vopRcp p g o) fun r => VecOps.kernel o 10 .eq r)

/-- vop.sqrt. -/
def execVopSqrt (p : Nat) (g : Guard) (o : VecOps) (s : State) : Host.Outcome State Fault Refusal :=
  .next (s.issueKernel p g (.vopSqrt p g o) fun r => VecOps.kernel o 11 .eq r)

/-- vop.ftab. -/
def execVopFtab (p : Nat) (g : Guard) (o : VecOps) (s : State) : Host.Outcome State Fault Refusal :=
  .next (s.issueKernel p g (.vopFtab p g o) fun r => VecOps.kernel o 12 .eq r)

/-- vop.softmax. -/
def execVopSoftmax (p : Nat) (g : Guard) (o : VecOps) (s : State) : Host.Outcome State Fault Refusal :=
  .next (s.issueKernel p g (.vopSoftmax p g o) fun r => VecOps.kernel o 13 .eq r)

/-- vop.lnorm. -/
def execVopLnorm (p : Nat) (g : Guard) (o : VecOps) (s : State) : Host.Outcome State Fault Refusal :=
  .next (s.issueKernel p g (.vopLnorm p g o) fun r => VecOps.kernel o 14 .eq r)

/-- vop.rmsnorm. -/
def execVopRmsnorm (p : Nat) (g : Guard) (o : VecOps) (s : State) : Host.Outcome State Fault Refusal :=
  .next (s.issueKernel p g (.vopRmsnorm p g o) fun r => VecOps.kernel o 15 .eq r)

/-- vop.maxpool. -/
def execVopMaxpool (p : Nat) (g : Guard) (o : VecOps) (s : State) : Host.Outcome State Fault Refusal :=
  .next (s.issueKernel p g (.vopMaxpool p g o) fun r => VecOps.kernel o 16 .eq r)

/-- vop.avgpool. -/
def execVopAvgpool (p : Nat) (g : Guard) (o : VecOps) (s : State) : Host.Outcome State Fault Refusal :=
  .next (s.issueKernel p g (.vopAvgpool p g o) fun r => VecOps.kernel o 17 .eq r)

/-- vop.rsz.near. -/
def execVopRszNear (p : Nat) (g : Guard) (o : VecOps) (s : State) : Host.Outcome State Fault Refusal :=
  .next (s.issueKernel p g (.vopRszNear p g o) fun r => VecOps.kernel o 18 .eq r)

/-- vop.rsz.bil. -/
def execVopRszBil (p : Nat) (g : Guard) (o : VecOps) (s : State) : Host.Outcome State Fault Refusal :=
  .next (s.issueKernel p g (.vopRszBil p g o) fun r => VecOps.kernel o 19 .eq r)

/-- vop.gather. -/
def execVopGather (p : Nat) (g : Guard) (o : VecOps) (s : State) : Host.Outcome State Fault Refusal :=
  .next (s.issueKernel p g (.vopGather p g o) fun r => VecOps.kernel o 20 .eq r)

end Sys2Proof.Machine
end

