-- ==== Sys2Proof/Machine/FlagTick.lean ====
section
/-! DEFINITION. mv.strm, flag.set, flag.wait and tick.end (R196 to R198), and the flags (R213 to R220): sets on their way, the hub's
cycle, grants and expiries. -/

namespace Sys2Proof.Machine
namespace State

/-- The mast and mast flag that a program's local flag is mapped onto (R197, R213); translation maps each flag that a program names. -/
def localFlag (s : State) (p n : Nat) : Option (Nat × Nat) :=
  ((s.prog p).place.localFlags.find? fun e => decide (e.1 = n)).map (·.2)

/-- A local flag's value. -/
def flagVal (s : State) (m n : Nat) : Nat := s.get (mreg .flagLocal m n) 0 16

/-- R217: a set that takes a flag above 0xFFFF: recorded on the die, FLAG_OVERFLOW once per program per tick, INVALID_FAULT. -/
def flagOverflow (s : State) (p m flag : Nat) (pkg : Bool) : State :=
  let s := s.firstRecord (mreg .flagStatus m) 0 fun s =>
    ((s.put (mreg .flagOvfRec m) 0 1 (if pkg then 1 else 0)).put (mreg .flagOvfRec m) 1 10 flag).put (mreg .flagOvfRec m) 11 3 (s.slotOn p m)
  let c := s.ctx p
  let s := s.faultOn p m 4 c.idx
  if c.onceOvf then s
  else (s.setCtx p { s.ctx p with onceOvf := true }).ctlEvent p 0x0302 c.idx

/-- R214: a local set is on its way: it changes the value two cycles after it issues. -/
def setLocal (s : State) (p m n count when_ : Nat) : State :=
  { s with flags := { s.flags with localSets := s.flags.localSets ++ [(m, n, count, p, when_)] } }

/-- R213: a set of a local flag of the program, where it is mapped. -/
def setMapped (s : State) (p n count when_ : Nat) : State :=
  match s.localFlag p n with
  | some q => s.setLocal p q.1 q.2 count when_
  | none => s

/-- R215: an operation is on its way to the hub. -/
def sendHub (s : State) (p flag count when_ : Nat) (isSet : Bool) : State :=
  let m := s.firstMast p
  { s with flags := { s.flags with hub := s.flags.hub ++ [(⟨isSet, flag, count, p, m, s.slotOn p m, when_⟩ : HubOp)] } }

/-- R214: local sets whose cycle has come: those of one flag and cycle are summed, and one sum above 0xFFFF saturates. -/
def applyLocal (s : State) (m n : Nat) (sets : List (Nat × Nat)) : State :=
  let total := s.flagVal m n + sets.foldl (fun k e => k + e.1) 0
  let s := s.put (mreg .flagLocal m n) 0 16 (min total 0xFFFF)
  if 0xFFFF < total then ((sets.map (·.2)).eraseDups).foldl (fun s p => s.flagOverflow p m n false) s else s

/-- The local sets that have come to their cycle are applied. -/
def arriveLocal (s : State) : State :=
  let due := s.flags.localSets.filter fun e => decide (e.2.2.2.2 ≤ s.now)
  let keys := (due.map fun e => (e.1, e.2.1)).eraseDups
  let s := { s with flags := { s.flags with localSets := s.flags.localSets.filter fun e => decide (s.now < e.2.2.2.2) } }
  keys.foldl (fun s k => s.applyLocal k.1 k.2 ((due.filter fun e => decide ((e.1, e.2.1) = k)).map fun e => (e.2.2.1, e.2.2.2.1))) s

/-- R215: new package values become visible on every die. -/
def arriveShown (s : State) : State :=
  let due := s.flags.shown.filter fun e => decide (e.2.2 ≤ s.now)
  let s := { s with flags := { s.flags with shown := s.flags.shown.filter fun e => decide (s.now < e.2.2) } }
  due.foldl (fun s e => (List.range 7).foldl (fun s m => s.put (mreg .flagPkg m e.1) 0 16 e.2.1.toNat) s) s

/-- The end of the work window. -/
def guardTime (s : State) : Nat := s.tickStart + s.period - s.guardLen

/-- R218: when a wait issued now with bound `b` expires on its die. -/
def expiryOf (s : State) (pkg : Bool) (b : Nat) : Nat :=
  if b = 0 then s.guardTime else s.afterCycles (b + (if pkg then 5 else 0))

/-- R220: a satisfied wait's late cycles, and issue goes on in the next cycle. -/
def endWait (s : State) (p : Nat) (w : Wait) (cyc : Nat) : State :=
  let c := s.ctx p
  s.setCtx p { c with wait := none, run := .issuing, idx := c.idx + 1, late := c.late + (cyc - w.planned), ready := s.cycle + 1 }

/-- R214: a local wait is tested: where the flag holds the count and the bound has not passed, the wait subtracts its count and ends. -/
def testLocal (s : State) (p : Nat) (w : Wait) : State :=
  match s.localFlag p w.flag with
  | some q =>
    if w.count ≤ s.flagVal q.1 q.2 ∧ s.now < w.expiry then
      (s.put (mreg .flagLocal q.1 q.2) 0 16 (s.flagVal q.1 q.2 - w.count)).endWait p w s.cycle
    else s
  | none => s

/-- R214, R215: a wait begins: a package wait travels to the hub, a local one is tested from this cycle on. -/
def startWait (s : State) (p : Nat) (pkg : Bool) (flag count bound : Nat) : State :=
  let c := s.ctx p
  let planned := match (s.prog p).place.waitPlan.find? fun e => decide (e.1 = c.idx) with
    | some e => e.2
    | none => 2 ^ 27
  let w : Wait := { pkg := pkg, flag := flag, count := count, at_ := s.now, expiry := s.expiryOf pkg bound, planned := planned, grant := none }
  let s := s.setCtx p { c with wait := some w, run := .waiting }
  if pkg then s.sendHub p flag count (s.afterCycles 2) false else s.testLocal p w

/-- R135: the value of a package flag at the hub. -/
def hubVal (s : State) (f : Nat) : Nat := (SMap.get 0 s.flags.pkg f).toNat
def setHub (s : State) (f v : Nat) : State :=
  { s with flags := { s.flags with pkg := SMap.set 0 s.flags.pkg f (BitVec.ofNat 16 v) } }

/-- R135: all sets of the cycle to one package flag, summed. -/
def hubSets (s : State) (f : Nat) (ops : List HubOp) : State :=
  let total := s.hubVal f + ops.foldl (fun k o => k + o.count) 0
  let s := s.setHub f (min total 0xFFFF)
  if 0xFFFF < total then ((ops.map fun o => (o.prog, o.die)).eraseDups).foldl (fun s q => s.flagOverflow q.1 q.2 f true) s else s

/-- R135, R218: one wait at the hub: satisfied where the value is enough and its bound has not passed. -/
def hubWait (s : State) (o : HubOp) : State :=
  match (s.ctx o.prog).wait with
  | some w =>
    if o.count ≤ s.hubVal o.flag ∧ s.afterCycles 3 < w.expiry then
      let s := s.setHub o.flag (s.hubVal o.flag - o.count)
      s.setCtx o.prog { s.ctx o.prog with wait := some { w with grant := some (s.afterCycles 3) } }
    else { s with flags := { s.flags with hubWaits := s.flags.hubWaits ++ [o] } }
  | none => s

/-- R135: waits arriving in one cycle stand in ascending die order, and within a die in ascending context number. -/
def hubOrder (ops : List HubOp) : List HubOp :=
  (List.range 8).flatMap fun d => (List.range 8).flatMap fun k => ops.filter fun o => decide (o.die = d ∧ o.ctx = k)

/-- R135: the hub's cycle. -/
def hubCycle (s : State) : State :=
  let arrived := s.flags.hub.filter fun o => decide (o.reach ≤ s.now)
  let sets := arrived.filter (·.isSet)
  let waits := s.flags.hubWaits ++ hubOrder (arrived.filter fun o => !o.isSet)
  let touched := (arrived.map (·.flag)).eraseDups
  let s := { s with flags := { s.flags with hub := s.flags.hub.filter fun o => decide (s.now < o.reach), hubWaits := [] } }
  let s := touched.foldl (fun s f => s.hubSets f (sets.filter fun o => decide (o.flag = f))) s
  let s := waits.foldl hubWait s
  let seen := (touched ++ waits.map (·.flag)).eraseDups
  { s with flags := { s.flags with shown := s.flags.shown ++ seen.map fun f => (f, SMap.get 0 s.flags.pkg f, s.afterCycles 3) } }

/-- R218: an expired wait. -/
def expireWait (s : State) (p : Nat) (w : Wait) : State :=
  let m := s.firstMast p
  let idx := (s.ctx p).idx
  let n := if w.pkg then w.flag else ((s.localFlag p w.flag).map (·.2)).getD w.flag
  let s := { s with flags := { s.flags with hub := s.flags.hub.filter (fun o => o.isSet || decide (o.prog ≠ p)),
                                            hubWaits := s.flags.hubWaits.filter fun o => decide (o.prog ≠ p) } }
  let s := s.firstRecord (mreg .flagStatus m) 1 fun s =>
    let r := mreg .flagToRec m
    let s := (s.put r 0 1 (if w.pkg then 1 else 0)).put r 1 10 n
    (s.put r 11 3 (s.slotOn p m)).put r 16 16 w.count
  let s := (s.faultOn p m 1 idx).ctlEvent p 0x0301 idx
  (s.setCtx p { s.ctx p with wait := none }).stopIssue p

/-- R198: no queue holds a command of the program. -/
def queuesEmptyOf (s : State) (p : Nat) : Bool :=
  s.yards.all fun y => y.2.queues.all fun q => q.2.all fun c => decide (c.prog ≠ p)

/-- R198, R88: no sail runs, carries or loads for the program. -/
def SailSt.quiet (p : Nat) (a : SailSt) : Bool :=
  (match a.run with | some r => decide (r.prog ≠ p) | none => true) && (match a.load with | some l => decide (l.prog ≠ p) | none => true) &&
    (a.pipe ++ a.inbox).all fun v => v.dead || decide (v.run.prog ≠ p)

/-- R198: no boom has an entry of the program in hand. -/
def BoomSt.quiet (p : Nat) (b : BoomSt) : Bool :=
  (match b.job with | some j => decide (j.prog ≠ p) | none => true) && b.ins.all (fun v => v.dead || decide (v.run.prog ≠ p)) &&
    b.outs.all (fun o => decide (o.prog ≠ p)) && b.pres.all fun o => decide (o.prog ≠ p)

/-- R159, R163, R198: the units of a yard have finished the commands that they started. -/
def unitsQuiet (s : State) (y : YardSt) (p : Nat) : Bool :=
  y.sails.all (fun a => SailSt.quiet p a.2) && y.booms.all (fun b => BoomSt.quiet p b.2) && y.parts.all (fun w => decide (w.prog ≠ some p)) &&
    y.unitFree.all fun u => decide (u.2 ≤ s.cycle)

/-- R198: the program has reached tick.end: it has issued it, and every command and stream that it started in the tick has completed. -/
def reachedEnd (s : State) (p : Nat) : Bool :=
  let c := s.ctx p
  c.ended && decide (c.strms = 0) && c.dels.isEmpty && s.queuesEmptyOf p &&
    (s.prog p).place.yards.all fun q => s.unitsQuiet (s.yard (q / 8) (q % 8)) p

end State

/-- mv.strm (R196): the stream runs on its own and sets its flag when its last write has completed. -/
def execMvStrm (p : Nat) (g : Guard) (dst a : TOp) (count : BitVec 16) (xform : BitVec 3) (chansM1 : BitVec 6) (tap : Bool)
    (flag : BitVec 10) (s : State) : Host.Outcome State Fault Refusal :=
  .next (s.issueKernel p g (.mvStrm p g dst a count xform chansM1 tap flag) fun r =>
    .strm (dst.slice r) (a.slice r) count.toNat xform.toNat (chansM1.toNat + 1) tap flag.toNat)

/-- flag.set (R197, R213): a local set takes effect two cycles after issue; a package set travels to the hub. -/
def execFlagSet (p : Nat) (g : Guard) (pkg : Bool) (flag : BitVec 10) (count : BitVec 16) (s : State) :
    Host.Outcome State Fault Refusal :=
  .next (s.issueFirm p g (.flagSet p g pkg flag count) fun s =>
    (if pkg then s.sendHub p flag.toNat count.toNat (s.afterCycles 2) true
     else s.setMapped p flag.toNat count.toNat (s.afterCycles 2)).advance p)

/-- flag.wait (R197, R213): the context waits until the flag holds the count, or its bound expires. -/
def execFlagWait (p : Nat) (g : Guard) (pkg : Bool) (flag : BitVec 10) (count : BitVec 16) (bound : BitVec 32) (s : State) :
    Host.Outcome State Fault Refusal :=
  .next (s.issueFirm p g (.flagWait p g pkg flag count bound) fun s => s.startWait p pkg flag.toNat count.toNat bound.toNat)

/-- The hub takes the operations that have reached it (R135). -/
def execHubFlagOperation (s : State) : Host.Outcome State Fault Refusal := .next s.hubCycle

/-- A wait is satisfied: a local one in a cycle in which its flag holds the count (R214), a package one when its grant arrives
(R215). It does not come about otherwise. -/
def execFlagWaitSatisfied (p : Nat) (s : State) : Host.Outcome State Fault Refusal :=
  .next (match (s.ctx p).wait with
    | none => s
    | some w =>
      if w.pkg then
        match w.grant with
        | some t => if t ≤ s.now then s.endWait p w (s.cycle - 3) else s
        | none => s
      else s.testLocal p w)

/-- A wait expires (R218); a wait that is satisfied, or whose bound has not passed, does not. -/
def execWaitTimeout (p : Nat) (s : State) : Host.Outcome State Fault Refusal :=
  .next (match (s.ctx p).wait with
    | some w => if w.grant.isNone ∧ w.expiry ≤ s.now then s.expireWait p w else s
    | none => s)

/-- tick.end (R198, R212): the context issues nothing more in the tick. -/
def execTickEnd (p : Nat) (g : Guard) (s : State) : Host.Outcome State Fault Refusal :=
  .next (s.issueFirm p g (.tickEnd p g) fun s => s.setCtx p { s.ctx p with ended := true })

end Sys2Proof.Machine
end

