-- ==== Sys2Proof/Machine/Engine.lean ====
section
/-! DEFINITION. The engine class and the start of queued commands (R83 to R100, R199, R209, R210, R225): commands enter the queues of their
units, and start by their units' rules. -/

namespace Sys2Proof.Machine
namespace State

/-! ### Issue -/

/-- R199, R203: an engine command issues into the queue of its sail or boom, in a yard that its program owns. -/
def issueEngine (s : State) (p : Nat) (g : Guard) (i : Instr) (e : EngAt) (boom : Bool) (op : ProgRegs → EngOp) : State :=
  s.issueCmd p g i [] fun s =>
    match s.physYard p e.vyard.toNat with
    | some q => s.enterQueue p q.1 q.2 (if boom then .boom e.sail.toNat else .sail e.sail.toNat) (op (s.regsOf p))
    | none => s.advance p

/-! ### Program order (R183) -/

/-- What the units of a yard have in hand for a program: its runs, its weight loads and its boom commands. -/
def inHand (y : YardSt) (p : Nat) : List EngOp :=
  (y.sails.flatMap fun a =>
    (match a.2.run with | some r => if r.prog = p then [.run r.mode r.atype false r.bcast r.first r.act r.count r.entry] else [] | none => []) ++
      match a.2.load with
      | some l => (match l.kind with | .tile c4 tid tile => if l.prog = p then [.load c4 ⟨tid, tile⟩] else [] | _ => [])
      | none => []) ++
    y.booms.flatMap fun b => match b.2.job with | some j => if j.prog = p then [j.op] else [] | none => []

/-- An output on its way is of a tensor that the command touches; outputs of other epilogues do not hold one back. -/
def meetsOut (c : EngCmd) (o : BoomOut) : Bool :=
  decide (o.prog = c.prog) && (c.op.reads.contains o.tid || (c.op.writes.contains o.tid && !c.op.isEpi))

/-- R183, R199: a command waits for an earlier one of its program that has not started, or that its units have in hand, where one writes what
the other touches, and for the copy that fills an input that it reads (R465; log entry 81). -/
def waitsFor (s : State) (c : EngCmd) : Bool :=
  (s.yards.any fun y => y.2.queues.any fun q => q.2.any fun d => decide (d.prog = c.prog ∧ d.seq < c.seq) && c.op.clash d.op) ||
    (s.yards.any fun y => (inHand y.2 c.prog).any c.op.clash || y.2.booms.any fun b => b.2.outs.any (meetsOut c)) ||
    s.strm.ticks.any fun t => decide (t.prog = c.prog) && t.copy.any c.op.reads.contains

/-- R120 to R122: a command's tags let it start: no other writer has a fill of its blocks under way, and no block that it reads has changed its
tag in this cycle. -/
def tagsReady (s : State) (m y : Nat) (c : EngCmd) : Bool :=
  (s.readBlocks m y c).all (fun q => q.2 || !s.tagMoved q.1) && (s.writeBlocks c).all fun k => !s.fillBusy c.seq k

/-! ### Starting (R88, R209, R225) -/

/-- The foot of the suit that sail `n` belongs to. -/
def suitFoot (shape n : Nat) : Nat :=
  (List.range 3).foldl (fun k _ => (sailBelow shape k).getD k) n

/-- An earlier run of the program that feeds boom `n` has not started, or its partials or a preloaded entry are on their way. -/
def fed (s : State) (m y n : Nat) (c : EngCmd) : Bool :=
  let v := s.yard m y
  let sh := s.suitShape m y
  let near := fun k => decide (suitFoot sh k = suitFoot sh n)
  (List.range 4).any fun k => near k &&
    (((s.queueOf m y (.sail k)).any fun d => decide (d.seq < c.seq ∧ d.prog = c.prog) && (match d.op with | .run .. => true | _ => false)) ||
      (match (s.sail m y k).run with | some r => decide (r.prog = c.prog ∧ r.seq < c.seq) | none => false) ||
      ((s.sail m y k).pipe ++ (s.sail m y k).inbox).any fun x => !x.dead && decide (x.run.prog = c.prog ∧ x.run.seq < c.seq)) ||
    v.booms.any fun b => decide (b.1 = n) && (!b.2.pres.isEmpty || b.2.ins.any fun x => !x.dead && decide (x.run.prog = c.prog ∧ x.run.seq < c.seq))

/-- R88: the sail has issued the last vector read of its run. -/
def sailFree (s : State) (m y n : Nat) : Bool :=
  match (s.sail m y n).run with
  | some r => decide (r.count ≤ r.issued)
  | none => true

/-- R225, Table 8.3: an open epoch does not hold the command. -/
def released (s : State) (c : EngCmd) : Bool :=
  decide (c.spec = 0) || match c.op with
  | .run _ _ flip _ _ _ _ _ => !flip
  | .load _ _ | .tld _ _ | .tcp _ | .pre _ _ _ => true
  | .epi _ dst _ _ _ _ => (s.prog c.prog).writesShadow dst.tid c.spec
  | .kernel (.vec _ _ dst _ _ _ _ _ _) => (s.prog c.prog).writesShadow dst.tid c.spec
  | _ => false

/-- A unit's own rule: the sail has issued its last read, or loads nothing; the boom has no command in hand, and of an epilogue or a chain
output its partials have joined (log entry 82); the reef or the vector unit is free. -/
def unitReady (s : State) (m y : Nat) (q : UnitQ) (c : EngCmd) : Bool :=
  match q, c.op with
  | .sail n, .run .. => s.sailFree m y (n % 4)
  | .sail n, .kernel _ => s.sailFree m y (n % 4)
  | .sail n, _ => (s.sail m y (n % 4)).load.isNone
  | .boom n, .epi .. => (s.boom m y (n % 4)).job.isNone && !s.fed m y (n % 4) c
  | .boom n, .chout _ => (s.boom m y (n % 4)).job.isNone && !s.fed m y (n % 4) c
  | .boom n, _ => (s.boom m y (n % 4)).job.isNone
  | _, _ => decide (SMap.get 0 (s.yard m y).unitFree (unitCode q) ≤ s.cycle)

/-- The head of a queue may start in this cycle: its queue has started none in it, and nothing holds it back. -/
def canStart (s : State) (m y : Nat) (q : UnitQ) (c : EngCmd) : Bool :=
  decide (SMap.get 0 (s.yard m y).started (unitCode q) ≤ s.cycle) && s.released c && s.unitReady m y q c && !s.waitsFor c &&
    s.tagsReady m y c

/-- A command starts, with the generations that it names (R199). -/
def startCmd (s : State) (m y n : Nat) (c : EngCmd) (tags : Tags) : State :=
  match c.op with
  | .run mode atype flip bcast first act count entry => s.startRun c m y n mode atype flip bcast first act count entry tags.rd
  | .load c4 wt => s.startLoad c m y n c4 wt tags.rd
  | .tld weight cbk => s.startTable c m y n weight cbk tags.rd
  | .tcp weight => s.startCopy c m y n weight
  | .epi .. => s.startJob c m y n tags
  | .pre .. => s.startJob c m y n tags
  | .chout entry => s.startChout m y n entry
  | .chin entry => s.startChin c.prog m y n entry
  | .kernel k => s.runKernel c.prog c.spec c.seq k tags

/-- The sail or boom of a queue. -/
def unitNo : UnitQ → Nat
  | .sail n => n % 4
  | .boom n => n % 4
  | _ => 0

/-- R209: the head leaves its queue, with the generations that it names; the next one starts in a later cycle (R88). -/
def takeHead (s : State) (m y : Nat) (q : UnitQ) (c : EngCmd) (rest : List EngCmd) : State × Tags :=
  let s := s.setQueue m y q rest
  let s := s.setYard m y { s.yard m y with started := SMap.set 0 (s.yard m y).started (unitCode q) (s.cycle + 1) }
  s.nameTags m y c

/-- The head of a queue starts. -/
def startHead (s : State) (m y : Nat) (q : UnitQ) (c : EngCmd) (rest : List EngCmd) : State :=
  let (s, tags) := s.takeHead m y q c rest
  s.startCmd m y (unitNo q) c tags

end State

/-- sail.run (R88). -/
def execSailRun (p : Nat) (g : Guard) (e : EngAt) (mode : Mode) (atype : BitVec 2) (flip bcast first : Bool) (act : TOp)
    (countM1 : BitVec 16) (entry : BitVec 9) (s : State) : Host.Outcome State Fault Refusal :=
  .next (s.issueEngine p g (.sailRun p g e mode atype flip bcast first act countM1 entry) e false fun r =>
    .run mode atype.toNat flip bcast first (act.slice r) (countM1.toNat + 1) entry.toNat)

/-- sail.load (R97). -/
def execSailLoad (p : Nat) (g : Guard) (e : EngAt) (c4 : Bool) (wt : TOp) (s : State) : Host.Outcome State Fault Refusal :=
  .next (s.issueEngine p g (.sailLoad p g e c4 wt) e false fun r => .load c4 (wt.slice r))

/-- sail.tld (R98). -/
def execSailTld (p : Nat) (g : Guard) (e : EngAt) (weight : Bool) (cbk : BitVec 16) (s : State) : Host.Outcome State Fault Refusal :=
  .next (s.issueEngine p g (.sailTld p g e weight cbk) e false fun _ => .tld weight cbk.toNat)

/-- sail.tcp (R98). -/
def execSailTcp (p : Nat) (g : Guard) (e : EngAt) (weight : Bool) (s : State) : Host.Outcome State Fault Refusal :=
  .next (s.issueEngine p g (.sailTcp p g e weight) e false fun _ => .tcp weight)

/-- boom.epi (R71). -/
def execBoomEpi (p : Nat) (g : Guard) (e : EngAt) (bias : Bool) (dst : TOp) (entry countM1 : BitVec 9) (biasTid : BitVec 12)
    (record : BitVec 16) (s : State) : Host.Outcome State Fault Refusal :=
  .next (s.issueEngine p g (.boomEpi p g e bias dst entry countM1 biasTid record) e true fun r =>
    .epi bias (dst.slice r) entry.toNat (countM1.toNat + 1) biasTid.toNat record.toNat)

/-- boom.chout (R94). -/
def execBoomChout (p : Nat) (g : Guard) (e : EngAt) (entry : BitVec 9) (s : State) : Host.Outcome State Fault Refusal :=
  .next (s.issueEngine p g (.boomChout p g e entry) e true fun _ => .chout entry.toNat)

/-- boom.chin (R94). -/
def execBoomChin (p : Nat) (g : Guard) (e : EngAt) (entry : BitVec 9) (s : State) : Host.Outcome State Fault Refusal :=
  .next (s.issueEngine p g (.boomChin p g e entry) e true fun _ => .chin entry.toNat)

/-- boom.pre (R95). -/
def execBoomPre (p : Nat) (g : Guard) (e : EngAt) (src : TOp) (entry countM1 : BitVec 9) (s : State) :
    Host.Outcome State Fault Refusal :=
  .next (s.issueEngine p g (.boomPre p g e src entry countM1) e true fun r => .pre (src.slice r) entry.toNat (countM1.toNat + 1))

/-- boom.cnt (R80, R200). -/
def execBoomCnt (p : Nat) (g : Guard) (rtz : Bool) (rd : BitVec 5) (t : TOp) (s : State) : Host.Outcome State Fault Refusal :=
  .next (s.issueKernel p g (.boomCnt p g rtz rd t) fun r => .boomCnt rtz rd.toNat (t.slice r))

/-- A context that waits for room in a full queue issues its command in a cycle of its own in which there is room (R210). -/
def execEngineQueueStall (p : Nat) (s : State) : Host.Outcome State Fault Refusal :=
  .next (match (s.ctx p).stalled with
    | none => s
    | some (m, y, q, c) =>
      if s.queueRoom m y q && s.ownsCycle p && s.inWork && decide ((s.ctx p).ready ≤ s.cycle) then
        (s.setCtx p { s.ctx p with stalled := none, run := .issuing, ready := s.cycle + 1 }).issueInto m y q c
      else s)

/-- The command at the head of a queue starts (R209), where its unit's rule lets it; a run that flips and is held by its epoch shows in
SAIL_STATE (R100). -/
def execEngineCommandStart (m y : Nat) (q : UnitQ) (s : State) : Host.Outcome State Fault Refusal :=
  .next (match s.queueOf m y q with
    | [] => s
    | c :: rest =>
      if s.canStart m y q c then s.startHead m y q c rest
      else match q, c.op with
        | .sail n, .run _ _ true _ _ _ _ _ => if c.spec ≠ 0 then s.putSail m y (n % 4) 8 1 1 else s
        | _, _ => s)

/-- A load completes (R97, R98). -/
def execSailLoadComplete (m y n : Nat) (s : State) : Host.Outcome State Fault Refusal :=
  .next (match (s.sail m y n).load with
    | some ld => if ld.done ≤ s.now then s.finishLoad m y n ld else s
    | none => s)

end Sys2Proof.Machine
end

