-- ==== Sys2Proof/Machine/Runahead.lean ====
section
/-! DEFINITION. Deliveries, the resolution of epochs and completion sets (R160, R216, R228 to R231). -/

namespace Sys2Proof.Machine
namespace State

/-- The yards of a program as (mast, yard). -/
def yardsOf (s : State) (p : Nat) : List (Nat × Nat) := (s.prog p).place.yards.map fun q => (q / 8, q % 8)

/-- R160: the core's detection of two deliveries to one register in one cycle. -/
def regCollision (s : State) (p : Nat) : State :=
  let idx := (s.ctx p).idx
  (s.faultOn p (s.firstMast p) 5 idx).ctlEvent p 0x0304 idx

/-- A branch operand whose register has been delivered reads as its value. -/
def settle (r : Nat) (v : Word) : Operand → Operand
  | .reg q => if q.toNat = r then .imm v else .reg q
  | .imm w => .imm w

/-- R160: a result is written: into the registers, and into every checkpoint, since its command was issued before the epochs
(R161 holds the others). -/
def writeDelivery (s : State) (p r : Nat) (v : Word) : State :=
  let c := s.ctx p
  let put := fun (g : ProgRegs) => g.setSc (BitVec.ofNat 5 r) v
  s.setCtx p { c with regs := put c.regs
                      epochs := c.epochs.map fun e => { e with regs := put e.regs, a := settle r v e.a, b := settle r v e.b } }

/-- R171: REEF_LAST and REEF_LAST_SCALAR of the yard that delivered. -/
def reefDelivered (s : State) (q r : Nat) (v : Word) : State :=
  (s.put (yreg .reefLast (q / 8) (q % 8)) 10 5 r).setReg (yreg .reefLastScalar (q / 8) (q % 8)) (v.setWidth 64)

/-- The deliveries of one register that are due at one instant. -/
def duesOf (c : Ctx) (r t : Nat) : List Delivery := c.dels.filter fun d => decide (d.reg = r ∧ d.due = some t)

/-- R160: of the deliveries of one cycle the highest yard's value stands. -/
def lastYard (d : Delivery) : List Delivery → Delivery
  | [] => d
  | e :: es => lastYard (if d.reef.getD 0 ≤ e.reef.getD 0 then e else d) es

/-- The first delivery whose instant has come, with that instant. -/
def firstDue (s : State) (p : Nat) : Option (Delivery × Nat) :=
  (s.ctx p).dels.findSome? fun d => match d.due with
    | some t => if t ≤ s.now then some (d, t) else none
    | none => none

/-- A delivery takes place. -/
def deliverNow (s : State) (p : Nat) (d : Delivery) (t : Nat) : State :=
  let c := s.ctx p
  let ds := duesOf c d.reg t
  let w := lastYard d ds
  let s := s.setCtx p { c with dels := c.dels.filter fun e => !decide (e.reg = d.reg ∧ e.due = some t) }
  let s := ds.foldl (fun s e => match e.reef with | some q => s.reefDelivered q e.reg e.value | none => s) s
  let s := s.writeDelivery p d.reg w.value
  if 1 < ds.length then s.regCollision p else s

/-! ### Commit and squash -/

/-- R226: the accumulators of one boom when the outermost epoch commits: entries pending for it swap their live bank. -/
def commitBoom (b : BoomSt) : BoomSt :=
  { b with liveB := (b.pending.filter fun e => decide (e.2 = 1)).foldl (fun m e => SMap.set false m e.1 (!SMap.get false m e.1)) b.liveB
           pending := (b.pending.filter fun e => decide (1 < e.2)).map fun e => (e.1, e.2 - 1) }

/-- R230: pending marks of the inner epoch become the outer's. -/
def mergeBoom (b : BoomSt) : BoomSt := { b with pending := b.pending.map fun e => (e.1, min e.2 1) }

/-- R229: the pending marks of epochs `k` and inner are cleared. -/
def squashBoom (k : Nat) (b : BoomSt) : BoomSt := { b with pending := b.pending.filter fun e => decide (e.2 < k) }

/-- What a yard's units have in hand for program `p` when epochs commit or merge: `f` says how many epochs are left. -/
def lowerSailSt (p : Nat) (f : Nat → Nat) (a : SailSt) : SailSt :=
  let run := fun (r : SailRun) => if r.prog = p then { r with spec := f r.spec } else r
  let vec := fun (v : SailVec) => { v with run := run v.run }
  { a with run := a.run.map run, pipe := a.pipe.map vec, inbox := a.inbox.map vec, setSpec := f a.setSpec
           load := a.load.map fun l => { l with spec := f l.spec } }
def lowerBoomSt (p : Nat) (f : Nat → Nat) (b : BoomSt) : BoomSt :=
  let run := fun (r : SailRun) => if r.prog = p then { r with spec := f r.spec } else r
  { b with job := b.job.map (fun j => { j with spec := f j.spec }), ins := b.ins.map (fun v => { v with run := run v.run })
           outs := b.outs.map (fun o => { o with spec := f o.spec }), pres := b.pres.map fun o => { o with spec := f o.spec } }

/-- R229, R51: what a yard's units have in hand of a program, of `k` epochs or more, stops: vectors in a sail's pipeline are marked, and
what is on its way to a boom or from it is discarded. -/
def stopSailSt (p k : Nat) (a : SailSt) : SailSt :=
  let gone := fun (r : SailRun) => decide (r.prog = p ∧ k ≤ r.spec)
  { a with run := a.run.filter (fun r => !gone r), pipe := a.pipe.map (fun v => if gone v.run then { v with dead := true } else v)
           inbox := a.inbox.filter fun v => !gone v.run }
def stopBoomSt (p k : Nat) (b : BoomSt) : BoomSt :=
  { b with job := b.job.filter (fun j => !decide (j.prog = p ∧ k ≤ j.spec)), ins := b.ins.filter (fun v => !decide (v.run.prog = p ∧ k ≤ v.run.spec))
           outs := b.outs.filter (fun o => !decide (o.prog = p ∧ k ≤ o.spec)), pres := b.pres.filter fun o => !decide (o.prog = p ∧ k ≤ o.spec) }

/-- R100: a set in SPEC whose epoch has committed is READY. -/
def readySail (s : State) (m y n : Nat) : State :=
  if s.shadowState m y n = 3 ∧ (s.sail m y n).setSpec = 0 then s.putSail m y n 1 2 2 else s

/-- R100: a sail's sets when epochs `k` and inner squash: what they loaded becomes EMPTY. -/
def squashSail (s : State) (m y n k : Nat) : State :=
  let sl := s.sail m y n
  let s := match sl.load with
    | some l =>
      if k ≤ l.spec then
        let s := (s.setSail m y n { sl with load := none }).putSail m y n 7 1 0
        if s.liveSet m y n = l.set then s else s.putSail m y n 1 2 0
      else s
    | none => s
  let s := if s.shadowState m y n = 3 ∧ k ≤ sl.setSpec then
      (s.setSail m y n { s.sail m y n with setSpec := 0 }).putSail m y n 1 2 0
    else s
  s.putSail m y n 8 1 0

/-- All the booms of a yard through a function, and all its sails. -/
def mapBooms (s : State) (m y : Nat) (f : BoomSt → BoomSt) : State :=
  (List.range 4).foldl (fun s n => s.setBoom m y n (f (s.boom m y n))) s
def mapSails (s : State) (m y : Nat) (f : SailSt → SailSt) : State :=
  (List.range 4).foldl (fun s n => s.setSail m y n (f (s.sail m y n))) s

/-- The commands of program `p` in a yard's queues: kept where `keep` says, their epochs through `f`. -/
def mapQueues (s : State) (m y p : Nat) (keep : EngCmd → Bool) (f : Nat → Nat) : State :=
  let v := s.yard m y
  s.setYard m y { v with queues := (v.queues.map fun q => (q.1, (q.2.filter fun c => decide (c.prog ≠ p) || keep c).map fun c =>
    if c.prog = p then { c with spec := f c.spec } else c)).filter fun q => !q.2.isEmpty }

/-- R228: a command that an epoch holds at the head of its queue starts no earlier than the cycle after the commit. -/
def holdHeads (s : State) (m y : Nat) : State :=
  let v := s.yard m y
  let held := v.queues.filter fun q => match q.2 with
    | c :: _ => !s.released c
    | [] => false
  s.setYard m y { v with started := held.foldl (fun t q => SMap.set 0 t q.1 (s.cycle + 1)) v.started }

/-- BOOM_STATUS.spec_held follows what is still held. -/
def showHeld (s : State) (m y : Nat) : State :=
  (List.range 4).foldl (fun s n =>
    s.put (yreg .boomStatus m y n) 8 1 (if (s.yard m y).held.any fun h => decide (h.boom = n) && h.vu.isNone then 1 else 0)) s

/-- R80, R169: what the outermost epoch held is counted, met and shown. -/
def releaseHeld (s : State) (m y : Nat) (h : Held) : State :=
  match h.vu with
  | some (op, dtype, n, status, oob) => s.vuShow h.prog m y 0 op dtype n status oob
  | none => s.specCounts h.prog m y h.boom 0 h.slot h.sat h.rtz h.causes

/-- What a yard holds for program `p` when the outermost epoch commits. -/
def commitHeld (s : State) (p m y : Nat) : State :=
  let held := (s.yard m y).held
  let mine := fun (h : Held) => decide (h.prog = p)
  let left := (held.filter fun h => !mine h || decide (1 < h.spec)).map fun h => if mine h then { h with spec := h.spec - 1 } else h
  let s := s.setYard m y { s.yard m y with held := left }
  ((held.filter fun h => mine h && decide (h.spec = 1)).foldl (fun s h => s.releaseHeld m y h) s).showHeld m y

/-- The epochs of everything that a yard has in hand for program `p`, through `f`. -/
def lowerYard (s : State) (p m y : Nat) (f : Nat → Nat) : State :=
  let s := ((s.mapBooms m y (lowerBoomSt p f)).mapSails m y (lowerSailSt p f)).mapQueues m y p (fun _ => true) f
  (List.range 4).foldl (fun s n => s.readySail m y n) s

/-- A yard when the program's outermost epoch commits. -/
def commitYard (s : State) (p m y : Nat) : State :=
  (((((s.holdHeads m y).mapBooms m y commitBoom).lowerYard p m y (· - 1)).commitHeld p m y).lowerTags p m y (· - 1)).raiseTrips m y

/-- A yard when the program's inner epoch merges into its outer one. -/
def mergeYard (s : State) (p m y : Nat) : State :=
  let s := ((s.mapBooms m y mergeBoom).lowerYard p m y (min · 1)).lowerTags p m y (min · 1)
  s.setYard m y { s.yard m y with held := (s.yard m y).held.map fun h => if h.prog = p then { h with spec := min h.spec 1 } else h }

/-- What a yard has in hand of program `p`, of `k` epochs or more, stops (R229, R51). -/
def stopYard (s : State) (p k m y : Nat) : State :=
  let s := ((s.mapBooms m y (stopBoomSt p k)).mapSails m y (stopSailSt p k)).mapQueues m y p (fun c => decide (c.spec < k)) id
  ((s.setYard m y { s.yard m y with held := (s.yard m y).held.filter fun h => decide (h.prog ≠ p ∨ h.spec < k) }).showHeld m y).restoreTags p k m y

/-- A yard when the program's epochs `k` and inner squash. -/
def squashYard (s : State) (p k m y : Nat) : State :=
  let s := (s.stopYard p k m y).mapBooms m y (squashBoom k)
  (List.range 4).foldl (fun s n => s.squashSail m y n k) s

/-- Every yard of a program through a function of mast and yard. -/
def onYards (s : State) (p : Nat) (f : State → Nat → Nat → State) : State :=
  (s.yardsOf p).foldl (fun s q => f s q.1 q.2) s

/-- CC_CTXk registers of a program's context. -/
def ctxReg (s : State) (p : Nat) (n : RegName) : RegId := mreg n (s.firstMast p) (s.slotOn p (s.firstMast p))

/-- R227: the run-ahead halves when the outermost epoch commits: a half that it wrote changes places with the half it stood beside. -/
def commitStore (g : Prog) : Store :=
  let st := g.store
  let homes := (st.shadow.filter fun e => decide (e.2 = 1)).foldl
    (fun h e => Prog.swapPlaces { g with store := { st with homes := h } } e.1) st.homes
  { st with homes := homes, shadow := (st.shadow.filter fun e => decide (1 < e.2)).map fun e => (e.1, e.2 - 1) }

/-- R227, R230: the marks of run-ahead halves when the inner epoch merges, and when epochs `k` and inner squash. -/
def mergeStore (st : Store) : Store := { st with shadow := st.shadow.map fun e => (e.1, min e.2 1) }
def squashStore (k : Nat) (st : Store) : Store := { st with shadow := st.shadow.filter fun e => decide (e.2 < k) }

/-- A program's memory through a function. -/
def mapStore (s : State) (p : Nat) (f : Prog → Store) : State := s.setProg p { s.prog p with store := f (s.prog p) }

/-- R228: the context issues again from the cycle after an epoch resolves; an instruction held back since an epoch was open may be tried
again. -/
def resumeIssue (s : State) (p : Nat) : State := s.setCtx p { s.ctx p with specStop := false, ready := s.cycle + 1 }

/-- A context's deliveries and its stalled command when epochs commit or merge. -/
def lowerCtx (c : Ctx) (f : Nat → Nat) : Ctx :=
  { c with dels := c.dels.map fun d => { d with spec := f d.spec }
           stalled := c.stalled.map fun x => (x.1, x.2.1, x.2.2.1, { x.2.2.2 with spec := f x.2.2.2.spec }) }

/-- R228: the outermost epoch commits. -/
def commitEpoch (s : State) (p : Nat) (e : Epoch) : State :=
  let c := s.ctx p
  let s := s.setCtx p { lowerCtx c (· - 1) with epochs := c.epochs.dropLast }
  let s := s.onYards p fun s m y => s.commitYard p m y
  let s := s.mapStore p commitStore
  let s := (s.bump (s.ctxReg p .ccCtxCommits) (1 + e.merged)).resumeIssue p
  let c := s.ctx p
  if c.specBound && c.epochs.isEmpty then s.loopBound p c.idx else s

/-- R230: the inner epoch matched: it merges into the outer. -/
def mergeEpoch (s : State) (p : Nat) (inner outer : Epoch) : State :=
  let c := s.ctx p
  let o := { outer with cmds := outer.cmds + inner.cmds, merged := outer.merged + 1 + inner.merged }
  let s := s.setCtx p { lowerCtx c (min · 1) with epochs := [o] }
  ((s.onYards p fun s m y => s.mergeYard p m y).mapStore p fun g => mergeStore g.store).resumeIssue p

/-- R229, R231: epochs from `k` (1 the outermost) squash: their checkpoint `e` is restored and all they did is discarded. -/
def dropEpochs (s : State) (p k : Nat) (e : Epoch) : State :=
  let c := s.ctx p
  let gone := c.epochs.take (c.epochs.length + 1 - k)
  let s := (s.onYards p fun s m y => s.squashYard p k m y).mapStore p fun g => squashStore k g.store
  let s := s.setCtx p { s.ctx p with
    regs := e.regs, taken := e.taken, idx := e.idx, epochs := c.epochs.drop (c.epochs.length + 1 - k), specStop := false
    dels := c.dels.filter (fun d => decide (d.spec < k)), stalled := none, blocked := none, specBound := false, run := .issuing }
  s.bump (s.ctxReg p .ccCtxSquashes) (gone.foldl (fun n g => n + 1 + g.merged) 0)

/-- R229: a mismatch: issue goes on with the correct path 25 cycles later. -/
def squashEpoch (s : State) (p k : Nat) (e : Epoch) : State :=
  let s := s.dropEpochs p k e
  let s := s.setCtx p { s.ctx p with resumeAt := some (s.afterCycles 25) }
  s.follow p ⟨e.idx, e.disp, e.bound, e.expect, e.cond, e.a, e.b⟩ (!e.expect)

/-- R231: every open epoch squashes without penalty. -/
def squashAll (s : State) (p : Nat) : State :=
  match (s.ctx p).epochs.getLast? with
  | some e => s.dropEpochs p 1 e
  | none => s

/-- The outcome of an epoch's branch, where both its operands are known. -/
def outcome (e : Epoch) : Option Bool :=
  match e.a, e.b with
  | .imm x, .imm y => some (e.cond.holds x y)
  | _, _ => none

/-- An epoch of depth `k` resolves with an outcome. -/
def resolveOne (s : State) (p k : Nat) (e : Epoch) (taken : Bool) : State :=
  if taken = e.expect then
    if k = 1 then s.commitEpoch p e
    else match (s.ctx p).epochs with
      | inner :: outer :: _ => s.mergeEpoch p inner outer
      | _ => s
  else s.squashEpoch p k e

/-- R230: the outermost epoch that can resolve does. -/
def resolve (s : State) (p : Nat) : State :=
  match (s.ctx p).epochs with
  | [] => s
  | [e] => match outcome e with
    | some t => s.resolveOne p 1 e t
    | none => s
  | i :: o :: _ => match outcome o, outcome i with
    | some t, _ => s.resolveOne p 1 o t
    | none, some t => s.resolveOne p 2 i t
    | none, none => s

/-! ### Completion sets -/

/-- R465: a copy into a bound input is complete; with the tap, the half digest is that of what it copied. -/
def endCopy (s : State) (t : TickStrm) : State :=
  match t.copy with
  | some tid =>
    if t.tap then
      let g := s.prog t.prog
      let i := SMap.get {} g.inputs tid
      s.setProg t.prog { g with inputs := SMap.set {} g.inputs tid { i with digest := i.shadowDigest, shadowDigest := [] } }
    else s
  | none => s

/-- R196, R216: a stream completes: its flag's set applies as one issued in the next cycle. -/
def endStrm (s : State) (t : TickStrm) : State :=
  let s := (s.leaveChan t).endCopy t
  match t.flag with
  | some n => s.setMapped t.prog n 1 (s.afterCycles 3)
  | none => s

end State

/-- A reef or boom.cnt result is written into its scalar register (R160): the first whose instant has come. -/
def execScalarDelivery (p : Nat) (s : State) : Host.Outcome State Fault Refusal :=
  .next (match s.firstDue p with
    | some (d, t) => s.deliverNow p d t
    | none => s)

/-- An epoch resolves (R228 to R230): the outermost whose branch has its registers. -/
def execEpochResolve (p : Nat) (s : State) : Host.Outcome State Fault Refusal := .next (s.resolve p)

/-- The squash penalty ends and issue goes on (R229). -/
def execSquashPenaltyEnd (p : Nat) (s : State) : Host.Outcome State Fault Refusal :=
  .next (match (s.ctx p).resumeAt with
    | some t => if t ≤ s.now then s.setCtx p { s.ctx p with resumeAt := none } else s
    | none => s)

/-- A command with a completion set completes (R216): the oldest stream of the program of which all has landed. -/
def execCommandCompletionSet (p : Nat) (s : State) : Host.Outcome State Fault Refusal :=
  .next (match s.strm.ticks.find? fun t => decide (t.prog = p) && s.strmDone t with
    | some t => s.endStrm t
    | none => s)

end Sys2Proof.Machine
end

