-- ==== Sys2Proof/Machine/Fabric.lean ====
section
/-! DEFINITION. Crosstree, ratlines and yards (R117, R126 to R136, R276): flits arrive, link directions replay, links go down and come
back, landing cycles serve buffered accesses, and yards are filled. -/

namespace Sys2Proof.Machine

/-- R187, R197: the word of a package flag.set or flag.wait: class 8, ctl [0] set. -/
def isPkgFlagWord (w : BitVec 128) : Bool := decide (w.toNat % 16 = 8) && w.getLsbD 16

/-- A program that uses package flags. -/
def Container.usesPkg (b : Container) : Bool := b.code.any isPkgFlagWord

namespace State

/-! ### Flits (R126 to R128) -/

/-- R361: a write to HyperRAM becomes one request for each line it touches; `late` says on which channels its slot has gone. -/
def hrWrite (s : State) (a : Nat) (bs : List Byte) (prog : Option Nat) (strm : Nat) (late : Nat → Bool) : State :=
  (s.hrLines a bs.length prog strm 7).foldl (fun s r =>
    s.hrRequest { r with write := some ((bs.drop (r.addr - a)).take r.len), late := late (s.hrChannel (r.addr - 0x200000000)) }) s

/-- R276: an access enters a yard's landing buffer. -/
def bufferLanding (s : State) (m y : Nat) (e : Landing) : State :=
  s.setYard m y { s.yard m y with landing := (s.yard m y).landing ++ [e] }

/-- A flit is written into its destination: a yard in service, Stay SRAM, or the HyperRAM controller; one of unscheduled traffic enters a
yard's landing buffer (R276). The data of a read has come to the engine that asked for it. -/
def landFlit (s : State) (f : Flit) : State :=
  match regionOf f.addr with
  | .yard m y off =>
    if f.rank ≠ 0 then
      if f.dst ≠ 7 && s.targetIn f.addr then s.bufferLanding m y ⟨bankOf off, off, if f.read then none else some f.data, f.data.length, f.strm, f.rank⟩ else s
    else if f.read || !s.targetIn f.addr then s
    else s.strmPiece f.strm f.addr f.data.length f.gen fun s => s.yardWrite m y off f.data 16 f.prog (if f.src < 7 then some f.src else none)
  | .stay _ => if f.read then s else s.strmPiece f.strm f.addr f.data.length false fun s => s.checkedStore f.addr f.data 16 f.prog
  | .hyper _ =>
    if f.read then s
    else s.strmPiece f.strm f.addr f.data.length false fun s => s.hrWrite f.addr f.data f.prog f.strm fun c =>
      s.hrMissed c f.src (f.base + nsOf s.opPoint (f.sent + 28)) s.now
  | _ => s

/-- The oldest flit from one port to another. -/
def oldestFlit (s : State) (i o : Nat) : Option Flit := s.fabric.flits.find? fun f => decide (f.src = i ∧ f.dst = o)

/-- A direction's replays of a flit are over. -/
def endFails (s : State) (k : Nat) : State :=
  { s with fabric := { s.fabric with fails := SMap.set 0 s.fabric.fails k 0, failed := SMap.set 0 s.fabric.failed k 0 } }

/-- A flit leaves the fabric: the failures of its directions are over. -/
def takeFlit (s : State) (f : Flit) : State :=
  let s := { s with fabric := { s.fabric with flits := s.fabric.flits.erase f } }
  (s.endFails (dirKey f.src false)).endFails (dirKey f.dst true)

/-! ### Replays and links (R129 to R133) -/

/-- Every program that uses a port. -/
def portUsers (s : State) (port : Nat) : List Nat :=
  s.admittedList.filter fun p => (s.prog p).place.links.any fun l => decide (l.1 = port)

/-- A flit crosses a link direction. -/
def crosses (f : Flit) (port : Nat) (away : Bool) : Bool := decide ((if away then f.dst else f.src) = port)

/-- The flit whose transmission fails (log entry 90): the one that the direction already replays, else on an uplink the one sent last, on a
downlink the oldest under way. -/
def failing (s : State) (port : Nat) (away : Bool) : Option Flit :=
  let fs := s.fabric.flits.filter fun f => crosses f port away
  match fs.find? fun f => decide (f.id + 1 = SMap.get 0 s.fabric.failed (dirKey port away)) with
  | some f => some f
  | none => if away then fs.head? else fs.getLast?

/-- A flit `n` cycles later, or earlier, for what stands on one of its links. -/
def lateBy (f : Flit) (away : Bool) (n : Int) : Flit :=
  if away then { f with lateDn := ((f.lateDn : Int) + n).toNat } else { f with lateUp := ((f.lateUp : Int) + n).toNat }

/-- R129: the failed flit and every later one of the direction are 64 cycles later. -/
def delayFrom (s : State) (port : Nat) (away : Bool) : State :=
  match s.failing port away with
  | none => s
  | some f =>
    let i := s.fabric.flits.idxOf f
    let late := s.fabric.flits.mapIdx fun j g => if i ≤ j && crosses g port away then lateBy g away 64 else g
    { s with fabric := { s.fabric with flits := late, failed := SMap.set 0 s.fabric.failed (dirKey port away) (f.id + 1) } }

/-- R129, R131: one replay: counted, over the budget raised once, the failed flit and those behind it 64 cycles later, the programs that used
the direction in the tick retried. -/
def replay (s : State) (port : Nat) (away : Bool) : State :=
  let k := dirKey port away
  let n := SMap.get 0 s.fabric.replays k + 1
  let s := (s.bump (rid (if away then .xtreeReplayDn else .xtreeReplayUp) port)).delayFrom port away
  let s := { s with fabric := { s.fabric with
      replays := SMap.set 0 s.fabric.replays k n
      fails := SMap.set 0 s.fabric.fails k (SMap.get 0 s.fabric.fails k + 1)
      delay := SMap.set 0 s.fabric.delay k (SMap.get 0 s.fabric.delay k + 64) } }
  let s := (SMap.get [] s.fabric.users k).foldl (fun s p => s.setCond p 0) s
  if s.get (rid .xtreeBudget) 0 4 < n && !SMap.get false s.fabric.onceExcess k then
    { s with fabric := { s.fabric with onceExcess := SMap.set false s.fabric.onceExcess k true } }.raise 0x0506 7 port 0xFFFF
      (if away then 1 else 0) s.t48
  else s

/-! ### Recovery slots (R129) -/

/-- The flit at the head of an uplink's backlog. -/
def backlogHead (s : State) (i : Nat) : Option Flit :=
  s.fabric.flits.find? fun f => decide (f.src = i ∧ 0 < f.lateUp + f.lateDn)

/-- What stands on a link direction is 2 cycles less, for the flits under way and for later ones. -/
def shorten (s : State) (port : Nat) (away : Bool) : State :=
  let k := dirKey port away
  { s with fabric := { s.fabric with
      delay := SMap.set 0 s.fabric.delay k (SMap.get 0 s.fabric.delay k - 2)
      flits := s.fabric.flits.map fun f => if crosses f port away then lateBy f away (-2) else f } }

/-- The head of a backlog goes in a recovery slot: each direction that it is late on is shorter. -/
def sendHead (s : State) (f : Flit) : State :=
  let s := if f.lateUp = 0 then s else s.shorten f.src false
  if f.lateDn = 0 then s else s.shorten f.dst true

/-- R129: each output takes the head of the lowest-numbered backlogged input. -/
def drainOnce (s : State) : State :=
  let heads := (List.range 8).filterMap s.backlogHead
  (List.range 8).foldl (fun s o => match heads.find? fun f => decide (f.dst = o) with
    | some f => s.sendHead f
    | none => s) s

/-- A recovery slot of the frame (R127) drains the backlogs. -/
def drainBacklog (s : State) : State :=
  if s.fabric.delay.isEmpty then s
  else match s.slotNow with
    | some k => if k % 8 = 7 then s.drainOnce else s
    | none => s

/-! ### Links (R133) -/

/-- R133: a link goes down; twice within 10 s takes its mast out. -/
def dropLink (s : State) (port : Nat) (away : Bool) : State :=
  let ts := s.recent (SMap.get [] s.fabric.downTimes port) 10000000000 ++ [s.now]
  let s := { s with fabric := { s.fabric with
      down := SMap.set false s.fabric.down port true
      retrained := SMap.set false s.fabric.retrained port false
      fails := SMap.set 0 s.fabric.fails (dirKey port away) 0
      failed := SMap.set 0 s.fabric.failed (dirKey port away) 0
      downTimes := SMap.set [] s.fabric.downTimes port ts } }
  let s := (s.clearBits (rid .xtreeStatus) (BitVec.ofNat 64 (2 ^ port))).setBits (rid .xtreeStatus) (BitVec.ofNat 64 (2 ^ (8 + port)))
  let s := s.raise 0x0507 7 port 0xFFFF (if away then 1 else 0) s.t48
  let s := s.unitFaults (s.portUsers port)
  if 2 ≤ ts.length && decide (port < 7) then s.askOut (56 + port) else s

/-! ### Ratlines (R136) -/

/-- R136: a parity error on mast `m`'s ratline. -/
def ratError (s : State) (m : Nat) (fromHub : Bool) : State :=
  let ts := s.recent (SMap.get [] s.flags.ratTimes m) 60000000000 ++ [s.now]
  let s := { s with flags := { s.flags with ratTimes := SMap.set [] s.flags.ratTimes m ts }
                    fabric := { s.fabric with onceRat := SMap.set false s.fabric.onceRat m true } }
  let s := (s.setBits (rid .xtreeRatlineErr) (BitVec.ofNat 64 (2 ^ m))).raise 0x0508 m 0xFF 0xFFFF (if fromHub then 1 else 0) s.t48
  let s := s.unitFaults (s.admittedList.filter fun p => (s.progMasts p).contains m && (s.prog p).box.usesPkg)
  if 3 ≤ ts.length then s.askOut (56 + m) else s

/-- R136: in the guard the hub rewrites its values to every die. -/
def rewriteFlags (s : State) : State :=
  (List.range 7).foldl (fun s m =>
    if SMap.get false s.fabric.onceRat m then
      (List.range 256).foldl (fun s f => s.put (mreg .flagPkg m f) 0 16 (s.hubVal f)) s
    else s) s

/-! ### Landing (R276) -/

/-- R282: a peripheral write's access to its block: left is 1 from its first, and 0 once its capture makes none there any more. -/
def markLanded (s : State) (m y : Nat) (e : Landing) : State :=
  let k := blockNo m y (e.off / 4096)
  let here := fun (a : Nat) => decide (blockIn a = some k)
  let coming := (s.fabric.waiting ++ s.fabric.flits).any (fun f => decide (f.strm = e.strm) && here f.addr) ||
    (s.yard m y).landing.any fun x => decide (x.strm = e.strm) && here (yardAddr m y x.off)
  s.putLeft (if coming || s.leftIn (e.rank - 1) e.strm k then 1 else 0) k

/-- R276: the access is served: a write through the check, or a read, whose data sets out for the Stay engine. -/
def serveLanding (s : State) (m y : Nat) (e : Landing) : State :=
  let a := yardAddr m y e.off
  match e.data with
  | some bs => s.checkedStore a bs 16 none
  | none => (s.readCheck a e.len 0xFFFF 15).post
      [{ src := m, dst := 7, addr := a, data := s.bytes a e.len, prog := none, strm := e.strm, rank := e.rank, read := true, ready := s.now }]

/-- The same, with the tag of a block that a peripheral capture writes. -/
def landNow (s : State) (m y : Nat) (e : Landing) : State :=
  let s := s.serveLanding m y e
  if e.data.isSome && decide (1 ≤ e.rank ∧ e.rank < 1000) then s.markLanded m y e else s

/-- The oldest access buffered for a bank, and the others. -/
def takeLanding (bank : Nat) : List Landing → Option (Landing × List Landing)
  | [] => none
  | e :: es =>
    if e.bank = bank then some (e, es)
    else match takeLanding bank es with
      | some (x, r) => some (x, e :: r)
      | none => none

/-- A program is admitted on the yard. -/
def yardBusy (s : State) (m y : Nat) : Bool := (s.yardOwner m y).isSome

/-- The requesters whose WO clear bits of R106, R171 and R292 count. -/
def clears : Requester → Bool
  | .host | .mp | .tp => true
  | _ => false

end State

/-- A crosstree flit is written into its destination (R128): the oldest between the two ports, once its instant has come and its links
are up. -/
def execXtreeFlitArrival (inPort outPort : Nat) (s : State) : Host.Outcome State Fault Refusal :=
  .next (match s.oldestFlit inPort outPort with
    | some f => if s.flitDue f ≤ s.now && s.linkUp inPort && s.linkUp outPort then (s.takeFlit f).landFlit f else s
    | none => s)

/-- A link direction replays (R129 to R131); the failure of its eighth replay in a row takes the link down, and no ninth is made
(R133). -/
def execLinkReplay (port : Nat) (away : Bool) (s : State) : Host.Outcome State Fault Refusal :=
  .next (if !s.linkUp port then s
    else if 8 ≤ SMap.get 0 s.fabric.fails (dirKey port away) then s.dropLink port away
    else s.replay port away)

/-- The MP has retrained a link (R133, R425): it resumes at the next tick start; one that fails to train takes its mast out. -/
def execXtreeLinkRetrained (port : Nat) (ok : Bool) (s : State) : Host.Outcome State Fault Refusal :=
  .next (if s.linkUp port || !s.fwRuns 1 then s
    else if ok then { s with fabric := { s.fabric with retrained := SMap.set false s.fabric.retrained port true } }
    else if port < 7 then s.askOut (56 + port) else s)

/-- A ratline receiver finds a parity error (R136). -/
def execRatlineErr (m : Nat) (fromHub : Bool) (s : State) : Host.Outcome State Fault Refusal :=
  .next (if s.mastIn m then s.ratError m fromHub else s)

/-- A bank's landing cycle serves the oldest access buffered for it (R276). -/
def execLandingCycle (m y bank : Nat) (s : State) : Host.Outcome State Fault Refusal :=
  .next (match State.takeLanding bank (s.yard m y).landing with
    | some (e, rest) =>
      if s.cycle % 32 = bank then (s.setYard m y { s.yard m y with landing := rest }).landNow m y e else s
    | none => s)

/-- The mast supervisor writes YARD_INIT.start: the zero fill begins, while no program is admitted on the yard (R117, R141). -/
def execYardInit (m y : Nat) (s : State) : Host.Outcome State Fault Refusal :=
  .next (if s.yardBusy m y || !s.yardOn m y then s
    else
      let s := s.setYard m y { s.yard m y with initUntil := some (s.afterCycles 4096) }
      s.put (yreg .yardInit m y) 1 1 1)

/-- The zero fill completes after 4,096 cycles (R117). -/
def execYardInitDone (m y : Nat) (s : State) : Host.Outcome State Fault Refusal :=
  .next (match (s.yard m y).initUntil with
    | some t =>
      if t ≤ s.now then
        let s := (s.setYard m y { s.yard m y with initUntil := none }).zeroFill (yardAddr m y 0) 0x800000
        (s.put (yreg .yardInit m y) 1 1 0).put (yreg .yardInit m y) 2 1 1
      else s
    | none => s)

/-- YARD_PERF_CLR.clr (R106): the vector and row-gate counters of the yard's four sails read zero, overflow bits included. -/
def execYardPerfClr (rq : Requester) (m y : Nat) (s : State) : Host.Outcome State Fault Refusal :=
  .next (s.viaReq rq fun s => if State.clears rq && s.yardOn m y then
      (List.range 4).foldl (fun s n => (s.setReg (yreg .sailVecCnt m y n) 0).setReg (yreg .sailRowgateCnt m y n) 0) s
    else s)

/-- REEF_STATUS.clr (R171). -/
def execReefStatusClr (rq : Requester) (m y : Nat) (s : State) : Host.Outcome State Fault Refusal :=
  .next (s.viaReq rq fun s => if State.clears rq && s.yardOn m y then s.setReg (yreg .reefElemCnt m y) 0 else s)

/-- VU_STATUS.clr (R171). -/
def execVuStatusClr (rq : Requester) (m y : Nat) (s : State) : Host.Outcome State Fault Refusal :=
  .next (s.viaReq rq fun s => if State.clears rq && s.yardOn m y then (s.setReg (yreg .vuOobCnt m y) 0).setReg (yreg .vuElemCnt m y) 0 else s)

/-- STRM_PEAK.clr (R292): the host's WO bit. -/
def execStrmPeakClr (rq : Requester) (engine : Nat) (s : State) : Host.Outcome State Fault Refusal :=
  .next (s.viaReq rq fun s => if rq = .host && (decide (engine = 7) || s.mastIn engine) then s.put ⟨.strmPeak, engine, 0, 0, 0⟩ 0 10 0 else s)

end Sys2Proof.Machine
end

