-- ==== Sys2Proof/Machine/Queues.lean ====
section
/-! DEFINITION. Queues and the host window (R283, R284, R327 to R336): descriptors, host memory through the DATT, entries produced,
drops, and vectors signalled. -/

namespace Sys2Proof.Machine

/-- The address of queue `q`'s descriptor (Table 5.4, R330). -/
def qDesc (q : Nat) : Nat := descBase + 64 * q

/-- Where a host bus address stands among the machine's bytes. -/
def hostByte (bus : Nat) : Nat := 2 ^ 64 + bus

namespace State

/-! ### Descriptor fields (Table 12.3) -/

def qField (s : State) (q o n : Nat) : Nat := s.load (qDesc q + o) n
def qSet (s : State) (q o n x : Nat) : State := s.store (qDesc q + o) (leN n x)
def qBase (s : State) (q : Nat) : Nat := s.qField q 0 8 % 2 ^ 40
def qKind (s : State) (q : Nat) : Nat := s.qField q 8 1
def qEntries (s : State) (q : Nat) : Nat := 2 ^ s.qField q 9 1
def qOn (s : State) (q : Nat) : Bool := decide (s.qField q 12 2 % 2 = 1)
def qIrq (s : State) (q : Nat) : Bool := decide (s.qField q 12 2 / 2 % 2 = 1)
def qProd (s : State) (q : Nat) : Nat := s.qField q 0x10 4
def qCons (s : State) (q : Nat) : Nat := s.qField q 0x14 4
/-- R331: occupancy. -/
def qOcc (s : State) (q : Nat) : Nat := (s.qProd q + 2 ^ 32 - s.qCons q) % 2 ^ 32
def qFull (s : State) (q : Nat) : Bool := decide (s.qOcc q = s.qEntries q)
/-- The ring entry of an index. -/
def qEntry (s : State) (q i : Nat) : Nat := i % s.qEntries q
def qEntryAddr (s : State) (q i : Nat) : Nat := s.qBase q + s.qEntry q i * (if s.qKind q = 1 then 64 else 32)

/-! ### The host window (R283, R284) -/

/-- DATT entry of a page. -/
def dattEntry (s : State) (page : Nat) : BitVec 64 := BitVec.ofNat 64 (s.load (dattBase + 8 * page) 8)
/-- R285, R290: the entry that a lookup finds: one written in the same cycle governs from the next. -/
def dattUsed (s : State) (page : Nat) : BitVec 64 :=
  match s.strm.dattOld.find? fun q => decide (q.1 = page ∧ q.2.2 = s.now) with
  | some q => BitVec.ofNat 64 q.2.1
  | none => s.dattEntry page

/-- R284: the lookup of one access: the host byte it reaches, or none for a page fault. -/
def dattLookup (s : State) (page off : Nat) (write : Bool) : Option Nat :=
  let e := s.dattUsed page
  if bit e 0 && bit e (if write then 1 else 2) then some (hostByte (fld e 12 52 * 4096 + off)) else none

/-- An address is in the host window. -/
def inHost (a : Nat) : Bool := match regionOf a with | .host _ _ => true | _ => false

/-- Pieces of a range that do not cross a 4 KiB page: offset in the range, length. -/
def pagePieces (a n : Nat) : List (Nat × Nat) :=
  (List.range ((4095 + (n + a % 4096)) / 4096)).map fun i =>
    let lo := max a ((a / 4096 + i) * 4096)
    (lo - a, min (a + n) ((a / 4096 + i + 1) * 4096) - lo)

/-- Every page of a range is mapped for the access. -/
def hostMapped (s : State) (a n : Nat) (write : Bool) : Bool :=
  (pagePieces a n).all fun q => match regionOf (a + q.1) with
    | .host page off => (s.dattLookup page off write).isSome
    | _ => false

/-- Storing bytes at a package address, host memory included; pieces that no page maps are not written. -/
def pkgStore (s : State) (a : Nat) (bs : List Byte) : State :=
  if inHost a then
    (pagePieces a bs.length).foldl (fun s q => match regionOf (a + q.1) with
      | .host page off => match s.dattLookup page off true with
        | some h => s.poke h ((bs.drop q.1).take q.2)
        | none => s
      | _ => s) s
  else s.store a bs

/-- Bytes at a package address, host memory included. -/
def pkgBytes (s : State) (a n : Nat) : List Byte :=
  if inHost a then
    (pagePieces a n).flatMap fun q => match regionOf (a + q.1) with
      | .host page off => match s.dattLookup page off false with
        | some h => s.bytes h q.2
        | none => List.replicate q.2 0
      | _ => List.replicate q.2 0
  else s.bytes a n

/-- An entry or a payload can be written: on the package, or in host memory with the link up and its pages mapped. -/
def canWrite (s : State) (a n : Nat) : Bool := !inHost a || (s.hostUp && s.hostMapped a n true)

/-! ### Vectors (R327, R335) -/

/-- MSI-X: vector `v` is signalled: sent, or kept pending while its table entry is masked; in D3hot or without a tunnel nothing is
signalled (R328). -/
def signal (s : State) (v : Nat) : State :=
  if !s.hostUp then s
  else if (SMap.get 1 s.queue.msix (4 * v + 3)).getLsbD 0 then
    { s with queue := { s.queue with pba := SMap.set false s.queue.pba v true } }
  else { s with queue := { s.queue with sent := SMap.set 0 s.queue.sent v (SMap.get 0 s.queue.sent v + 1) } }

/-- The count and the timer of a queue start afresh. -/
def irqReset (s : State) (q : Nat) : State :=
  { s with queue := { s.queue with counts := SMap.set 0 s.queue.counts q 0, timers := SMap.set 0 s.queue.timers q 0 } }

/-- R335: the interrupt decision after one entry; a timer stands as its instant plus one. -/
def irqEntry (s : State) (q : Nat) : State :=
  if !s.qIrq q then s
  else
    let n := SMap.get 0 s.queue.counts q + 1
    if s.qField q 0x18 2 ≤ n then (s.signal (s.qField q 10 2)).irqReset q
    else
      let s := { s with queue := { s.queue with counts := SMap.set 0 s.queue.counts q n } }
      if n = 1 ∧ s.qField q 0x1A 2 ≠ 0 then { s with queue := { s.queue with timers := SMap.set 0 s.queue.timers q (s.now + 1) } } else s

/-! ### Producing (R331, R334, R336) -/

/-- A dropped record is counted in its queue (R330, R336). -/
def qDrop (s : State) (q : Nat) : State := s.qSet q 0x38 4 (min (s.qField q 0x38 4 + 1) 0xFFFFFFFF)

/-- R334: an entry lands: written, the index advanced and written back, the interrupt decided. -/
def qLand (s : State) (q : Nat) (bs : List Byte) : State :=
  let i := s.qProd q
  let s := (s.pkgStore (s.qEntryAddr q i) bs).qSet q 0x10 4 ((i + 1) % 2 ^ 32)
  let wb := s.qField q 0x20 8 % 2 ^ 40
  let s := if wb ≠ 0 then s.pkgStore wb (leN 4 ((i + 1) % 2 ^ 32)) else s
  s.irqEntry q

/-- A queue takes records of a kind: it is enabled, of that kind, and its ring can be written. -/
def qTakes (s : State) (q kind : Nat) : Bool :=
  s.qOn q && decide (s.qKind q = kind) && s.canWrite (s.qEntryAddr q (s.qProd q)) 32

/-- The queue's once-per-tick drop mark. -/
def dropMark (s : State) (q : Nat) : State := { s with queue := { s.queue with onceDrop := SMap.set false s.queue.onceDrop q true } }
def dropMarked (s : State) (q : Nat) : Bool := SMap.get false s.queue.onceDrop q

/-- R336: QM_QUEUE_DROP, once per queue and tick. -/
def queueDropEvent (s : State) (q : Nat) : State :=
  if s.dropMarked q then s else (s.dropMark q).raise 0x0705 7 0xFF 0xFFFF q s.t48

/-- An event, peripheral or media record is produced (R336): into the queue, or dropped. The Bool says that it landed. -/
def qProduce (s : State) (q kind : Nat) (bs : List Byte) : State × Bool :=
  if !s.qTakes q kind then (s.qDrop q, false)
  else if s.qFull q then ((s.qDrop q).queueDropEvent q, false)
  else (s.qLand q bs, true)

/-- R332, R342: a doorbell or an enable that is discarded. -/
def doorbellBad (s : State) (q : Nat) : State :=
  (s.firstRecord (rid .qmDbBad) 0 fun s => s.put (rid .qmDbBad) 1 15 q).raise 0x0703 7 0xFF 0xFFFF q 0

end State
end Sys2Proof.Machine
end

