-- ==== Sys2Proof/Machine/Bulk.lean ====
section
/-! DEFINITION. Bulk streams (R265 to R279, R284 to R287): descriptors and scatter-gather lists, what an access meets, the elements
moved, completion records, halts, resumes and aborts. -/

namespace Sys2Proof.Machine

/-- A data entry of a side: where it lies, its length, its list and its index there. -/
structure Seg where
  addr : Nat
  len : Nat
  list : Nat
  entry : Nat
  deriving DecidableEq, Repr

/-- Why and where a walk of lists, or a move of elements, stopped: Table 10.11 status, package address, list, entry, offset, side. -/
structure Stop where
  status : Nat
  addr : Nat
  list : Nat
  entry : Nat
  off : Nat
  dst : Bool
  write : Bool
  deriving DecidableEq, Repr

/-- One side of a bulk descriptor, its lists walked as far as they could be read. -/
structure Side where
  segs : List Seg := []
  fixed : Bool := false
  stop : Option Stop := none
  bad : Bool := false
  /-- the list entries read -/
  lists : List Nat := []
  deriving DecidableEq, Repr

/-- Bytes of a side. -/
def Side.len (d : Side) : Nat := d.segs.foldl (fun n g => n + g.len) 0

/-- Where byte `pos` of a list of entries lies. -/
def locate : List Seg → Nat → Option (Nat × Seg × Nat)
  | [], _ => none
  | g :: gs, pos => if pos < g.len then some (g.addr + pos, g, pos) else locate gs (pos - g.len)

/-- Where a byte of a side lies: a fixed side repeats one element. -/
def Side.at (d : Side) (esz pos : Nat) : Option (Nat × Seg × Nat) :=
  if d.fixed then d.segs.head?.map fun g => (g.addr + pos % esz, g, pos % esz) else locate d.segs pos

namespace State

/-- A register of the Stay stream engine's channel. -/
def chReg (n : RegName) (ch : Nat) : RegId := sreg n ch

def chan (s : State) (ch : Nat) : ChanSt := SMap.get {} s.strm.chans ch
def setChan (s : State) (ch : Nat) (c : ChanSt) : State := { s with strm := { s.strm with chans := SMap.set {} s.strm.chans ch c } }
def chState (s : State) (ch : Nat) : Nat := s.get (sreg .strmChStat ch) 0 3
def setChState (s : State) (ch v : Nat) : State := s.put (sreg .strmChStat ch) 0 3 v

/-- Table 5.4, R272: the Stay SRAM that channels 29 to 31 reach beside their windows: the SP the handoff area; the MP the DATT, the
queue descriptors, the rig store and the handoff area; the TP its workspace and the handoff area. -/
def ownStay (ch a : Nat) : Bool :=
  let within := fun (lo hi : Nat) => decide (lo ≤ a ∧ a < hi)
  let hand := within 0x12E00000 0x13000000
  if ch = 29 then hand
  else if ch = 30 then hand || within dattBase 0x11200000 || within 0x12200000 0x12A00000
  else if ch = 31 then hand || within 0x12A00000 0x12E00000
  else false

/-- What an access of `n` bytes at `a` by channel `ch` meets, as a status of Table 10.11; 0 where it is made. A window fault takes
precedence over the lookup (R284). -/
def accessStatus (s : State) (ch a n : Nat) (write : Bool) : Nat :=
  if !(ownStay ch a || s.windowOk 7 a n write) then 3
  else if s.hyperDown a then 6
  else if inHost a then (if !s.hostUp then 4 else if !s.hostMapped a n write then 1 else 0)
  else if !write && !(s.eccWords a n 2).isEmpty then 2
  else 0

/-- R271: a scatter-gather list, read entry by entry; `fuel` bounds the hops of a chain that carries no data. -/
def walkList (s : State) (ch esz : Nat) (dst : Bool) : Nat → Nat → Nat → Nat → Nat → Side → Side
  | 0, _, _, _, _, acc => { acc with bad := true }
  | fuel + 1, a, cnt, list, idx, acc =>
    if cnt ≤ idx then acc
    else
      let e := a + 16 * idx
      let st := s.accessStatus ch e 16 false
      let acc := { acc with lists := acc.lists ++ [e] }
      if st ≠ 0 then { acc with stop := some ⟨st, e, list, idx, 0, dst, false⟩ }
      else
        let bs := s.pkgBytes e 16
        let addr := leAt bs 0 8
        let len := leAt bs 8 4
        let fl := leAt bs 12 4
        if fl = 1 then
          if idx + 1 = cnt ∧ 1 ≤ len ∧ len ≤ 4096 ∧ addr < 2 ^ 40 then walkList s ch esz dst fuel addr len (list + 1) 0 acc
          else { acc with bad := true }
        else
          let ok := decide (fl = 0 ∧ 4 ≤ len ∧ len ≤ 0x400000 ∧ addr < 2 ^ 40 ∧ addr % esz = 0 ∧ len % esz = 0)
          walkList s ch esz dst fuel a cnt list (idx + 1)
            { acc with segs := acc.segs ++ [(⟨addr, len, list, idx⟩ : Seg)], bad := acc.bad || !ok }

/-- One side of a bulk descriptor; `o` is 0x10 or 0x20. -/
def side (s : State) (ch : Nat) (d : List Byte) (o : Nat) (dst : Bool) : Side :=
  let addr := leAt d o 8
  let len := leAt d (o + 8) 4
  let fl := leAt d (o + 12) 4
  let esz := dEsize d
  if addr ≥ 2 ^ 40 ∨ fl ≥ 3 then { bad := true }
  else if fl = 1 then
    if 1 ≤ len ∧ len ≤ 4096 then s.walkList ch esz dst (leAt d 0x30 8 / 4 + 8192) addr len 0 0 {} else { bad := true }
  else
    { segs := [⟨addr, len, 0, 0⟩], fixed := decide (fl = 2),
      bad := !decide (4 ≤ len ∧ len ≤ 0xFFFFFFFC ∧ addr % esz = 0 ∧ len % esz = 0) }

/-- R268, Table 10.3: the header of a bulk or peripheral descriptor keeps its rules; `okFlags` is the mask of the flags it may set. -/
def headerOk (d : List Byte) (cls okFlags : Nat) : Bool :=
  let x := dXform d
  decide (leAt d 0 1 = cls) && decide (leAt d 1 1 ≤ 3) && (decide (x = 0) || decide (2 ≤ x ∧ x ≤ 5)) &&
  (if x = 2 ∨ x = 3 then decide (1 ≤ leAt d 3 1 ∧ leAt d 3 1 ≤ 63) else decide (leAt d 3 1 = 0)) &&
  decide (BitVec.ofNat 16 (leAt d 4 2) &&& ~~~BitVec.ofNat 16 okFlags = 0) && dFlag d 1 && decide (leAt d 6 2 < 32768)

/-- R271 to R273: a bulk descriptor keeps its rules. -/
def bulkOk (s : State) (d : List Byte) (src dst : Side) : Bool :=
  let total := leAt d 0x30 8
  let n := total / dEsize d
  let x := dXform d
  let whole := fun (e : Side) => match e.stop with
    | none => decide (e.len = total)
    | some _ => decide (e.len ≤ total)
  headerOk d 2 2 && decide (leAt d 0x38 8 = 0) && !src.bad && !dst.bad && whole src && whole dst && decide (1 ≤ n ∧ n ≤ 2 ^ 32) &&
  (if x = 2 ∨ x = 3 then decide (n % dChans d = 0) else true) && (if x = 4 ∨ x = 5 then decide (n % 8 = 0) else true) &&
  decide (s.qKind (dCq d) = 4)

/-! ### Elements (R273) -/

/-- Where byte `pos` of a side meets an access, as a stop; none where it is made. -/
def reach (s : State) (ch esz n : Nat) (e : Side) (pos : Nat) (write : Bool) : Option Stop :=
  match e.at esz pos with
  | some (a, g, o) =>
    let st := s.accessStatus ch a n write
    if st = 0 then none else some ⟨st, a, g.list, g.entry, o, write, write⟩
  | none => e.stop

/-- The places of element `k` on a side: the side of planes of a bit-plane transform has one byte in each plane. -/
def elemPos (esz n k : Nat) (planes : Bool) : List (Nat × Nat) :=
  if planes then (List.range (8 * esz)).map fun j => (j * (n / 8) + k / 8, 1) else [(k * esz, esz)]

/-- The stop of element `k`, if its accesses meet one. -/
def elemStop (s : State) (ch : Nat) (d : List Byte) (src dst : Side) (n k : Nat) : Option Stop :=
  let esz := dEsize d
  let x := dXform d
  match (elemPos esz n k (decide (x = 5))).findSome? fun q => s.reach ch esz q.2 src q.1 false with
  | some t => some t
  | none => (elemPos esz n (permuteIdx x 1 n (dChans d) k) (decide (x = 4))).findSome? fun q => s.reach ch esz q.2 dst q.1 true

/-- The first element from `k` on that meets a stop. -/
def firstStop (s : State) (ch : Nat) (d : List Byte) (src dst : Side) (n : Nat) : Nat → Nat → Option (Nat × Stop)
  | 0, _ => none
  | m + 1, k => match s.elemStop ch d src dst n k with
    | some t => some (k, t)
    | none => firstStop s ch d src dst n m (k + 1)

/-- The value of element `k` of the source. -/
def elemIn (s : State) (d : List Byte) (src : Side) (n k : Nat) : Nat :=
  let esz := dEsize d
  if dXform d = 5 then
    (List.range (8 * esz)).foldl (fun a j => match src.at esz (j * (n / 8) + k / 8) with
      | some q => a + (leAt (s.pkgBytes q.1 1) 0 1) / 2 ^ (k % 8) % 2 * 2 ^ j
      | none => a) 0
  else match src.at esz (k * esz) with
    | some q => leAt (s.pkgBytes q.1 esz) 0 esz
    | none => 0

/-- A bulk or peripheral write of stream `strm`: yards are reached over the crosstree and through their landing buffers, HyperRAM through its
slots (R274 to R276); `rank` is its place in the order of R275. -/
def looseWrite (s : State) (strm rank a : Nat) (bs : List Byte) : State :=
  match regionOf a with
  | .yard m _ _ => s.post ((lineSplit a bs).map fun q =>
      { src := 7, dst := m, addr := q.1, data := q.2, prog := none, strm := strm, rank := rank, ready := s.now })
  | .hyper _ => s.hrWrite a bs none strm fun _ => false
  | .stay _ => s.checkedStore a bs 16 none
  | .host _ _ => s.pkgStore a bs
  | .nowhere => s

/-- A bulk or peripheral read: of a yard a request goes over the crosstree and through the landing buffer, whose data comes back; of HyperRAM
it joins its channel; it passes the check where it is read (R112 to R115). -/
def looseRead (s : State) (strm rank a n : Nat) : State :=
  match regionOf a with
  | .yard m _ _ => s.post [{ src := 7, dst := m, addr := a, data := s.bytes a n, prog := none, strm := strm, rank := rank, read := true, ready := s.now }]
  | .host _ _ => s
  | .hyper _ => (s.hrLines a n none strm 7).foldl hrRequest s
  | _ => s.readCheck a n 0xFFFF 15

/-- Writes at ascending addresses that follow one another in a line are one. -/
def joinPieces (ps : List (Nat × List Byte)) : List (Nat × List Byte) :=
  ps.foldr (fun p acc => match acc with
    | q :: r => if q.1 = p.1 + p.2.length ∧ p.1 / 64 = q.1 / 64 then (p.1, p.2 ++ q.2) :: r else p :: acc
    | [] => [p]) []

/-- Traffic that belongs to no channel or request line (log entry 91). -/
def otherRank : Nat := 1032

/-- Such writes that have not reached their places, oldest first: address and bytes. -/
def unlanded (s : State) : List (Nat × List Byte) :=
  (s.yards.flatMap fun y => (y.2.landing.filter fun e => decide (e.rank = otherRank)).filterMap fun e =>
      e.data.map fun b => (yardAddr (y.1 / 8) (y.1 % 8) e.off, b)) ++
    ((s.fabric.flits ++ s.fabric.waiting).filter fun f => decide (f.rank = otherRank) && !f.read).map (fun f => (f.addr, f.data)) ++
    s.hyper.reqs.flatMap fun c => (c.2.filter fun r => r.prog.isNone && decide (r.strm = 0)).filterMap fun r => r.write.map fun b => (r.addr, b)

/-- Bytes as an access behind those writes finds them. -/
def bytesBehind (s : State) (a n : Nat) : List Byte :=
  let ws := s.unlanded.reverse
  (s.pkgBytes a n).mapIdx fun i b => match ws.find? fun q => decide (q.1 ≤ a + i ∧ a + i < q.1 + q.2.length) with
    | some q => q.2.getD (a + i - q.1) 0
    | none => b

/-- The byte of plane `j` and byte `b`: the bits of the words from `k0` on that are listed, the others as they stand. -/
def planeByte (s : State) (a : Nat) (vals : List Nat) (k0 j b : Nat) : Byte :=
  let old := (s.pkgBytes a 1).headD 0
  BitVec.ofNat 8 ((List.range 8).foldl (fun x t =>
    let w := 8 * b + t
    if k0 ≤ w ∧ w < k0 + vals.length then x + vals.getD (w - k0) 0 / 2 ^ j % 2 * 2 ^ t
    else x + (if old.getLsbD t then 2 ^ t else 0)) 0)

/-- A write among others in destination order. -/
def byPlace (q : Nat × Nat × List Byte) : List (Nat × Nat × List Byte) → List (Nat × Nat × List Byte)
  | [] => [q]
  | r :: rs => if q.1 < r.1 then q :: r :: rs else r :: byPlace q rs

/-- The pieces that elements `k0, k0 + 1, …` write, in destination element order (R274): address and bytes. -/
def outPieces (s : State) (d : List Byte) (dst : Side) (n k0 : Nat) (vals : List Nat) : List (Nat × List Byte) :=
  let esz := dEsize d
  if dXform d = 4 then
    (List.range (8 * esz)).flatMap fun j =>
      (List.range ((k0 + vals.length + 7) / 8 - k0 / 8)).filterMap fun i =>
        let b := k0 / 8 + i
        (dst.at esz (j * (n / 8) + b)).map fun q => (q.1, [s.planeByte q.1 vals k0 j b])
  else
    let ps := (vals.mapIdx fun i v => (permuteIdx (dXform d) 1 n (dChans d) (k0 + i), v)).filterMap fun q =>
      (dst.at esz (q.1 * esz)).map fun p => (q.1, p.1, leN esz q.2)
    (if dXform d = 2 ∨ dXform d = 3 then ps.foldr byPlace [] else ps).map fun q => q.2

/-- Elements `k0, k0 + 1, …` are written to the destination. -/
def elemsOut (s : State) (d : List Byte) (dst : Side) (n k0 : Nat) (vals : List Nat) (strm rank : Nat) : State :=
  if vals.isEmpty then s
  else (joinPieces (s.outPieces d dst n k0 vals)).foldl (fun s q => s.looseWrite strm rank q.1 q.2) s

/-- The lines of the source that elements `k0` to `k1` are read from. -/
def readLines (d : List Byte) (src : Side) (n k0 k1 : Nat) : List (Nat × Nat) :=
  let esz := dEsize d
  let ps := (List.range (k1 - k0)).flatMap fun i => (elemPos esz n (k0 + i) (decide (dXform d = 5))).filterMap fun q =>
    (src.at esz q.1).map fun p => (p.1, List.replicate q.2 (0 : Byte))
  ((joinPieces ps).flatMap fun q => linePieces q.1 q.2.length).eraseDups

/-! ### Records (R277, R279) -/

/-- A completion record (Table 10.10) appended now. -/
def complRecord (s : State) (cls num status tag elems coord off : Nat) : List Byte :=
  [BitVec.ofNat 8 status, BitVec.ofNat 8 cls, 7, BitVec.ofNat 8 num] ++ leN 4 tag ++ le64 elems ++ le64 s.now ++ leN 4 coord ++ leN 4 off

/-- A channel's record has been appended: it halts on a page fault, else its descriptor is done. -/
def recordDone (s : State) (ch status : Nat) : State :=
  let s := s.put (sreg .strmChStat ch) 8 8 status
  let s := if status = 0 then s else s.put (sreg .strmChStat ch) 16 1 1
  let s := s.setChan ch (if status = 1 then { s.chan ch with record := none, ending := none } else {})
  s.setChState ch (if status = 1 then 2 else 0)

/-- R279: a bulk record is appended to queue `q`; a full queue makes the channel wait, and one that takes no record counts it as
dropped. -/
def appendRecord (s : State) (ch q : Nat) (bs : List Byte) : State :=
  let status := leAt bs 0 1
  if s.qTakes q 4 then
    if s.qFull q then (s.setChan ch { s.chan ch with record := some (q, bs) }).setChState ch 3
    else (s.qLand q bs).recordDone ch status
  else (s.qDrop q).recordDone ch status

/-- The coordinate of a stop (Table 10.10). -/
def Stop.coord (t : Stop) : Nat := t.entry % 4096 + (if t.dst then 4096 else 0) + t.list * 8192

/-- A descriptor ends, or halts, with a status: FADDR and the events of R286, R277 and R272, then the record. -/
def endChan (s : State) (ch status coord off : Nat) : State :=
  let c := s.chan ch
  let s := if status = 1 then s.raise 0x0401 7 ch 0xFFFF 0 0
    else if status = 4 then s.raise 0x0402 7 ch 0xFFFF 0 0
    else if status = 5 then s.raise 0x0403 7 ch 0xFFFF 0 0 else s
  let fb := status = 5 && decide (s.qKind (dCq c.desc) ≠ 4)
  let q := if fb then s.get (sreg .strmChSq ch) 16 15 else dCq c.desc
  let done := decide (status = 0)
  s.appendRecord ch q (s.complRecord 2 ch status (dTag c.desc) c.elem (if done then 0 else coord) (if done then 0 else off))

/-- The ABORTED record of R287 and R290, or the wait of the record before it. -/
def endAborted (s : State) (ch : Nat) : State :=
  match (s.chan ch).record with
  | some _ => s.setChan ch { s.chan ch with aborted := true }
  | none => (s.setChan ch { s.chan ch with aborted := false }).endChan ch 6 0 0

/-- A page fault shows in the DATT block. -/
def dattFault (s : State) (a : Nat) (write : Bool) : State :=
  ((s.bump (rid .dattFaultCnt)).put (rid .dattLastFault) 0 40 a).put (rid .dattLastFault) 40 1 (if write then 1 else 0)

/-- The channel moves its descriptor from element `elem` as far as it can, and awaits the read-back. -/
def moveFrom (s : State) (ch : Nat) : State :=
  let c := s.chan ch
  let d := c.desc
  let src := s.side ch d 0x10 false
  let dst := s.side ch d 0x20 true
  let n := leAt d 0x30 8 / dEsize d
  let stop := s.firstStop ch d src dst n (n - c.elem) c.elem
  let stopAt := match stop with | some q => q.1 | none => n
  let vals := (List.range (stopAt - c.elem)).map fun i => s.elemIn d src n (c.elem + i)
  let id := s.newStream
  let lists := (src.lists ++ dst.lists).flatMap fun e => linePieces e 16
  let met := match stop with
    | some q => if q.2.status = 2 then [(q.2.addr, 1)] else []
    | none => []
  let s := (lists ++ readLines d src n c.elem stopAt ++ met).foldl (fun s q => s.looseRead id (1000 + ch) q.1 q.2) s.takeSerial
  let s := (s.touchPeak 7).elemsOut d dst n c.elem vals id (1000 + ch)
  let s := s.setReg (sreg .strmChElem ch) (BitVec.ofNat 64 stopAt)
  let fin := match stop with
    | some q => (q.2.status, Stop.coord q.2, q.2.off)
    | none => (0, 0, 0)
  let s := match stop with
    | some q =>
      if q.2.status = 1 then (s.dattFault q.2.addr q.2.write).setReg (sreg .strmChFaddr ch) (BitVec.ofNat 64 q.2.addr)
      else if q.2.status = 3 then s.windowFault 7 ch 0xFFFF q.2.addr q.2.write else s
    | none => s
  (s.setChan ch { s.chan ch with elem := stopAt, ending := some fin, strm := id }).setChState ch 1

/-- The descriptor in hand shows in STRM_CHn_DESC. -/
def showDesc (s : State) (ch : Nat) (d : List Byte) : State :=
  (List.range 16).foldl (fun s w => s.setReg (sreg .strmChDesc ch w) ((leWord d w).setWidth 64)) s

/-- The reads and writes of a channel's stream are over (R274). -/
def bulkLanded (s : State) (ch : Nat) : Bool := s.settled (s.chan ch).strm

/-- The places that a channel's descriptor has written. -/
def wrote (s : State) (ch : Nat) : List Nat :=
  let c := s.chan ch
  let esz := dEsize c.desc
  let n := leAt c.desc 0x30 8 / esz
  let dst := s.side ch c.desc 0x20 true
  (List.range c.elem).flatMap fun k =>
    (elemPos esz n (permuteIdx (dXform c.desc) 1 n (dChans c.desc) k) (decide (dXform c.desc = 4))).filterMap fun q => (dst.at esz q.1).map (·.1)

/-- The stream has written where the read-back of R278 covers it. -/
def readsBack (s : State) (ch : Nat) : Bool := (s.wrote ch).any fun a => match regionOf a with
  | .host _ _ => true
  | .hyper _ => true
  | _ => false

/-- R287: whose channel it is. -/
def ownsCh (rq : Requester) (ch : Nat) : Bool :=
  match rq with
  | .host => decide (ch < 28)
  | .sp => decide (ch = 29)
  | .mp => decide (ch = 30)
  | .tp => decide (ch = 31)
  | _ => false

/-- R265: a channel takes the next descriptor of its queue. -/
def takeDesc (s : State) (ch q : Nat) : State :=
  let d := s.pkgBytes (s.qEntryAddr q (s.qCons q)) 64
  let s := s.qSet q 0x14 4 ((s.qCons q + 1) % 2 ^ 32)
  let s := ((s.setChan ch { desc := d }).showDesc ch d).setReg (sreg .strmChElem ch) 0
  let s := s.setChState ch 1
  if s.bulkOk d (s.side ch d 0x10 false) (s.side ch d 0x20 true) then s.moveFrom ch else s.endChan ch 5 0 0

end State

/-- A channel takes its next descriptor (R265): it is enabled and bound, idle or reset, its queue is a submission queue that holds an
entry the device can read. -/
def execBulkDescriptorStart (ch : Nat) (s : State) : Host.Outcome State Fault Refusal :=
  .next (
    let q := s.get (sreg .strmChSq ch) 0 15
    let a := s.qEntryAddr q (s.qCons q)
    if decide (ch < 32) && decide (ch ≠ 28) && bit (s.reg (sreg .strmChCtrl ch)) 0 && bit (s.reg (sreg .strmChSq ch)) 15 &&
        (decide (s.chState ch = 0) || decide (s.chState ch = 4)) && s.qOn q && decide (s.qKind q = 1) && decide (s.qOcc q ≠ 0) &&
        (!State.inHost a || (s.hostUp && s.hostMapped a 64 false)) then
      s.takeDesc ch q
    else s)

/-- A stream completes or halts (R277, R278, R286): what it wrote has landed, the read-back has returned, and its record is appended. A
read-back that fails turns the status into HOST_ERROR or POISONED. -/
def execStreamCompletion (ch : Nat) (rb : XferEnd) (s : State) : Host.Outcome State Fault Refusal :=
  .next (match (s.chan ch).ending with
    | some (status, coord, off) =>
      if !s.bulkLanded ch then s
      else
        let st := if !s.readsBack ch then status
          else if !s.hostUp && (s.wrote ch).any State.inHost then 4
          else match rb with
            | .done => status
            | .poisoned => 2
            | .windowFault => 3
            | .hostError => 4
        if (s.chan ch).aborted then
          if st = 1 then (s.endChan ch 1 coord off).endAborted ch
          else s.endChan ch (if st = 0 then 6 else st) coord off
        else s.endChan ch st coord off
    | none => s)

/-- A record that waited for space is appended when there is space (R279). -/
def execBulkRecordWaitEnd (ch : Nat) (s : State) : Host.Outcome State Fault Refusal :=
  .next (match (s.chan ch).record with
    | some (q, bs) => if s.qTakes q 4 && s.qFull q then s
        else
          let aborted := (s.chan ch).aborted && decide (leAt bs 0 1 = 1)
          let s := s.appendRecord ch q (bs.take 16 ++ le64 s.now ++ bs.drop 24)
          if aborted then s.endAborted ch else s
    | none => s)

/-- STRM_CHn_CTRL.resume (R287): a halted descriptor goes on from element E, its lists read again; a fetch that a processor makes itself is tried again when
it is next served. -/
def execStrmResume (rq : Requester) (ch : Nat) (s : State) : Host.Outcome State Fault Refusal :=
  .next (s.viaReq rq fun s =>
    if !State.ownsCh rq ch || decide (s.chState ch ≠ 2) then s
    else if (s.chan ch).desc.isEmpty then s.setChState ch 0
    else
      let d := (s.chan ch).desc
      if s.bulkOk d (s.side ch d 0x10 false) (s.side ch d 0x20 true) then s.moveFrom ch else s.endChan ch 5 0 0)

/-- STRM_CHn_CTRL.abort (R287, R290): a halted descriptor ends ABORTED at once; one that runs ends so when what it has moved has landed,
and a page fault that it has met gives its record first. -/
def execStrmAbort (rq : Requester) (ch : Nat) (s : State) : Host.Outcome State Fault Refusal :=
  .next (s.viaReq rq fun s =>
    let c := s.chan ch
    if !State.ownsCh rq ch then s
    else if s.chState ch = 2 then (if c.desc.isEmpty then s.setChState ch 0 else s.endChan ch 6 0 0)
    else match c.ending, c.record with
      | some _, _ => s.setChan ch { c with aborted := true }
      | none, some _ => s.setChan ch { c with aborted := true }
      | none, none => s)

/-- A completion timeout of a host access (R277, R325): counted, and the stream ends HOST_ERROR. -/
def execCompletionTimeout (ch : Nat) (s : State) : Host.Outcome State Fault Refusal :=
  .next (match (s.chan ch).ending with
    | some _ => (s.bump (rid .usb4CtoCnt)).setChan ch { s.chan ch with ending := some (4, 0, 0) }
    | none => s)

/-- The high word of DATT_UPD_ENTRY (R285): the entry that DATT_UPD_IDX names is stored, and governs every later lookup. -/
def execDattUpdate (rq : Requester) (high : BitVec 32) (s : State) : Host.Outcome State Fault Refusal :=
  .next (s.viaReq rq fun s => if rq = .host then
      let a := dattBase + 8 * s.get (rid .dattUpdIdx) 0 21
      let low := match s.held rq 0x300008 with
        | some w => w.toNat
        | none => s.load a 4
      let page := s.get (rid .dattUpdIdx) 0 21
      let kept := s.strm.dattOld.filter fun q => decide (q.2.2 = s.now)
      let s := { s with strm := { s.strm with dattOld := kept ++ [(page, (s.dattUsed page).toNat, s.now)] } }
      (s.store a (le64 (low + high.toNat * 2 ^ 32))).setHeld rq 0x300008 none
    else s)

end Sys2Proof.Machine
end

