-- ==== Sys2Proof/Machine/Periph.lean ====
section
/-! DEFINITION. Peripheral streams (R270, R279 to R282): request lines, their descriptors, bursts, captures into input halves. -/

namespace Sys2Proof.Machine

/-- R281: an admitted input: the program and the tid that a source is bound to. -/
structure Bound where
  prog : Nat
  tid : Nat
  deriving DecidableEq, Repr

namespace State

def pstat (r : Nat) : RegId := sreg .strmPctxStat r
/-- STRM_SRCs_CTL. -/
def srcCtl (n : Nat) : RegId := sreg .strmSrcCtl n
def srcBound (s : State) (n : Nat) : Bool := bit (s.reg (srcCtl n)) 0

/-- The input tensor that source `n` fills. -/
def boundInput (s : State) (n : Nat) : Option Bound :=
  s.admittedList.findSome? fun p =>
    let ts := (s.prog p).box.tensors
    ((List.range ts.length).find? fun i => match ts[i]? with
      | some t => decide (t.kind = 1 ∧ t.bind = n)
      | none => false).map fun i => (⟨p, i⟩ : Bound)

def input (s : State) (b : Bound) : InputSt := SMap.get {} (s.prog b.prog).inputs b.tid
def setInput (s : State) (b : Bound) (v : InputSt) : State :=
  let g := s.prog b.prog
  s.setProg b.prog { g with inputs := SMap.set {} g.inputs b.tid v }

/-- The 4 KiB blocks of yards that a descriptor's memory side touches. -/
def sideBlocks (s : State) (d : List Byte) (half : Bool) : List Nat :=
  let (b, ds) := s.memSide d half
  ((List.range (patCount ds)).flatMap fun i => blocksAt (patAddr b ds i) (dEsize d)).eraseDups

/-- R282: a peripheral write that goes no further clears left of its blocks. -/
def clearLeft (s : State) (ks : List Nat) : State := ks.foldl (fun s k => s.putLeft 0 k) s

/-! ### Records and drops -/

/-- R279: a peripheral record: dropped where its queue is full, counted, and raised once per queue and tick. -/
def periphRecord (s : State) (line status : Nat) (d : List Byte) (elems : Nat) : State :=
  let q := dCq d
  let full := s.qTakes q 4 && s.qFull q
  let s := (s.qProduce q 4 (s.complRecord 1 line status (dTag d) elems 0 0)).1
  let s := s.put (pstat line) 8 8 status
  if !full then s
  else
    let s := s.bump (sreg .strmCqOvfCnt)
    if SMap.get false s.strm.onceCq q then s
    else ({ s with strm := { s.strm with onceCq := SMap.set false s.strm.onceCq q true } }).raise 0x0405 7 line 0xFFFF 0 0

/-- R280: a burst is discarded for want of a descriptor. -/
def dropBurst (s : State) (line : Nat) : State :=
  let s := s.bump (sreg .strmPdropCnt)
  let c := s.pctx line
  if c.onceDrop then s else (s.setPctx line { c with onceDrop := true }).raise 0x0404 7 line 0xFFFF 0 0

/-- A context's descriptor has ended. -/
def endDesc (s : State) (line status : Nat) : State :=
  let c := s.pctx line
  let s := s.periphRecord line status c.desc c.elem
  (s.setPctx line { c with desc := [], elem := 0, onceDrop := (s.pctx line).onceDrop }).put (pstat line) 1 1 0

/-- A capture ends short (R281, R297): ABORTED, its half not marked. -/
def abortDesc (s : State) (line : Nat) : State :=
  let c := s.pctx line
  if c.desc.isEmpty then s.setPctx line { c with fifo := [] }
  else
    let s := s.clearLeft (s.sideBlocks c.desc c.half)
    (s.setPctx line { c with fifo := [] }).endDesc line 6

/-! ### Captures -/

/-- R281: a completed half that has not flipped is overtaken: incomplete again, its digest discarded, its record REPLACED; so is a capture
of the source whose last writes have yet to land. -/
def overtake (s : State) (line : Nat) (b : Bound) : State :=
  let s := s.setPctx line { s.pctx line with ends := (s.pctx line).ends.map fun e => { e with replaced := e.replaced || marksHalf e.desc } }
  let i := s.input b
  if !i.complete then s
  else
    let s := s.setInput b { i with complete := false, shadowDigest := [] }
    let c := s.pctx line
    s.periphRecord line 7 c.prev 0

/-- A descriptor is taken from the context's list: for a source-bound one the half that is shadow now. -/
def startDesc (s : State) (line : Nat) (d : List Byte) : State :=
  let s := s.setReg (sreg .strmPctxNext line) (BitVec.ofNat 64 (leAt d 0x38 8 % 2 ^ 40))
  let half := if srcSided d then (match s.boundInput (dSrc d) with
    | some b => !(s.input b).live
    | none => false) else false
  let s := (s.put (pstat line) 1 1 1).put (pstat line) 2 1 (if half then 1 else 0)
  let s := (s.setPctx line { s.pctx line with desc := d, elem := 0, half := half, strm := s.newStream }).takeSerial
  if srcSided d then (match s.boundInput (dSrc d) with
    | some b => s.overtake line b
    | none => s) else s

/-- R281, R435: a marks_half completion: the half is complete for the flip, with the digest of the bytes written where its source is
tapped. -/
def completeHalf (s : State) (line : Nat) (d : List Byte) (half : Bool) : State :=
  if !marksHalf d then s
  else match s.boundInput (dSrc d) with
    | none => s
    | some b =>
      let (a, ds) := s.memSide d half
      let bytes := (List.range (patCount ds)).flatMap fun i => s.bytes (patAddr a ds i) (dEsize d)
      let dig := if bit (s.reg (srcCtl (dSrc d))) 1 then sha384 bytes else []
      let s := s.setInput b { s.input b with complete := true, shadowDigest := dig }
      s.setPctx line { s.pctx line with prev := d }

/-- R274, R281: the writes of a descriptor have landed: its half is marked, unless a new capture has overtaken it, and its record appended. -/
def endLanded (s : State) (line : Nat) (e : PctxEnd) : State :=
  let s := if toDevice e.desc || e.replaced || e.cut then s else s.completeHalf line e.desc e.half
  s.periphRecord line (if e.replaced then 7 else if e.cut then 6 else 0) e.desc e.elems

/-- R278: the last byte of a descriptor that the engine reads back: one of HyperRAM. -/
def lastByte (s : State) (d : List Byte) (half : Bool) : Option Nat :=
  let (a, ds) := s.memSide d half
  let x := patAddr a ds (patCount ds - 1) + dEsize d - 1
  if toDevice d then none else match regionOf x with
    | .hyper _ => some x
    | _ => none

/-- The descriptors of a line that await their landing, in order: one that wrote to HyperRAM reads its last word back first. -/
def endsFuel (line : Nat) : Nat → State → State
  | 0, s => s
  | fuel + 1, s =>
    match (s.pctx line).ends with
    | e :: es =>
      if !s.settled e.strm then s
      else match e.back with
        | some a => (s.setPctx line { s.pctx line with ends := { e with back := none } :: es }).looseRead e.strm (1 + line) (a / 4 * 4) 4
        | none => endsFuel line fuel ((s.setPctx line { s.pctx line with ends := es }).endLanded line e)
    | [] => s

def endsOf (s : State) (line : Nat) : State := endsFuel line (s.pctx line).ends.length s

/-- Every line's descriptors that await their landing. -/
def periphEnds (s : State) : State := (s.strm.pctx.filter fun e => !e.2.ends.isEmpty).foldl (fun s e => s.endsOf e.1) s

/-- A descriptor's last burst has moved: the context is ready for its next, and the descriptor ends once its writes have landed. -/
def finishDesc (s : State) (line : Nat) : State :=
  let c := s.pctx line
  let s := (s.setPctx line { c with desc := [], elem := 0, ends := c.ends ++ [⟨c.desc, c.half, c.strm, c.elem, false, s.lastByte c.desc c.half, false⟩] }).put (pstat line) 1 1 0
  s.endsOf line

/-- Writing the elements of one burst (R274, R276). -/
def burstIn (s : State) (line : Nat) (d : List Byte) (half : Bool) (n k0 : Nat) (vals : List Nat) : State :=
  let (a, ds) := s.memSide d half
  let esz := dEsize d
  let ps := if dXform d = 4 then
      (List.range (8 * esz)).flatMap fun j =>
        (List.range ((k0 + vals.length + 7) / 8 - k0 / 8)).map fun i =>
          let b := j * (n / 8) + k0 / 8 + i
          let x := patAddr a ds (b / esz) + b % esz
          (x, [s.planeByte x vals k0 j (k0 / 8 + i)])
    else vals.mapIdx fun i v => (patAddr a ds (permuteIdx (dXform d) 1 n (dChans d) (k0 + i)), leN esz v)
  (joinPieces ps).foldl (fun s q => s.looseWrite (s.pctx line).strm (1 + line) q.1 q.2) s

/-- The addresses that a burst's elements reach. -/
def burstAddrs (s : State) (d : List Byte) (half : Bool) (n k0 k : Nat) : List Nat :=
  let (a, ds) := s.memSide d half
  (List.range k).map fun i => patAddr a ds (permuteIdx (if dXform d = 4 ∨ dXform d = 5 then 0 else dXform d) 1 n (dChans d) (k0 + i))

/-- A burst of the descriptor in hand: into memory, or from memory to the device's FIFO. A window fault stops the context. -/
def moveBurst (s : State) (line : Nat) (data : List Byte) : State :=
  let c := s.pctx line
  let d := c.desc
  let esz := dEsize d
  let n := s.dElems d
  let k := min (burstBytes d / esz) (n - c.elem)
  let reach := s.burstAddrs d c.half n c.elem k
  if reach.any s.hyperDown then s.abortDesc line
  else match reach.find? fun x => !s.windowOk 7 x esz (!toDevice d) with
  | some x =>
    (((s.windowFault 7 line 0xFFFF x (!toDevice d)).clearLeft (s.sideBlocks d c.half)).endDesc line 3).put (pstat line) 3 1 1
  | none =>
    let s := if toDevice d then
        let bs := (s.burstAddrs d c.half n c.elem k).flatMap fun x => s.bytes x esz
        let s := (joinPieces ((s.burstAddrs d c.half n c.elem k).map fun x => (x, List.replicate esz 0))).foldl
          (fun s q => s.looseRead c.strm (1 + line) q.1 q.2.length) s
        { s with strm := { s.strm with outBytes := SMap.set [] s.strm.outBytes line (SMap.get [] s.strm.outBytes line ++ bs) } }
      else s.burstIn line d c.half n c.elem ((List.range k).map fun i => leAt data (i * esz) esz)
    let s := s.setPctx line { s.pctx line with elem := c.elem + k }
    if n ≤ c.elem + k then s.finishDesc line else s

/-- R280: a request moves one burst, or its burst is discarded: no descriptor, a context disabled or stopped, a source not bound. -/
def periphBurst (s : State) (line : Nat) (data : List Byte) : State :=
  let c := s.pctx line
  let st := s.reg (pstat line)
  let next := s.get (sreg .strmPctxNext line) 0 40
  let d := if c.desc.isEmpty then s.bytes next 64 else c.desc
  if !bit st 0 || bit st 3 || (c.desc.isEmpty && decide (next = 0)) then s.dropBurst line
  else if srcSided d && !s.srcBound (dSrc d) then s.bump (srcCtl (dSrc d)) 1 16 16
  else (if c.desc.isEmpty then s.startDesc line d else s).moveBurst line data

/-- The burst that the next request of a line moves, in bytes; 0 where it has no descriptor. -/
def lineBurst (s : State) (line : Nat) : Nat :=
  let c := s.pctx line
  let next := s.get (sreg .strmPctxNext line) 0 40
  if !c.desc.isEmpty then burstBytes c.desc else if next = 0 then 0 else burstBytes (s.bytes next 64)

/-- A device block offers bytes on its line: whole bursts are requested, the rest waits; with no descriptor they are one burst that is
discarded. -/
def feedFuel (line : Nat) : Nat → State → State
  | 0, s => s
  | fuel + 1, s =>
    let f := (s.pctx line).fifo
    let n := s.lineBurst line
    if f.isEmpty then s
    else if n = 0 then (s.setPctx line { s.pctx line with fifo := [] }).periphBurst line f
    else if f.length < n then s
    else feedFuel line fuel ((s.setPctx line { s.pctx line with fifo := f.drop n }).periphBurst line (f.take n))

/-- A device block offers bytes on its line. -/
def feedLine (s : State) (line : Nat) (bs : List Byte) : State :=
  let c := s.pctx line
  let f := c.fifo ++ bs
  feedFuel line (f.length / 16 + 1) (s.setPctx line { c with fifo := f })

end State

/-- A request line asks its context to move one burst (R280). -/
def execPeripheralRequest (line : Nat) (data : List (BitVec 8)) (s : State) : Host.Outcome State Fault Refusal :=
  .next (if line < 110 then s.periphBurst line data else s)

end Sys2Proof.Machine
end

