-- ==== Sys2Proof/Machine/Pipeline.lean ====
section
/-! DEFINITION. The image pipeline (R298, R299): the stages that Table 11.3 states, in integers at 12-bit pixel scale. What it leaves fixed but
unstated stands in Config (log entry 93). -/

namespace Sys2Proof.Machine

/-- An image at 12-bit scale: its size and its pixels, row after row. -/
structure Img where
  w : Nat
  h : Nat
  px : List Nat
  deriving DecidableEq, Repr

/-- The pixel at (x, y). -/
def Img.at (m : Img) (x y : Nat) : Nat := m.px.getD (y * m.w + x) 0

/-- Every pixel, from its place and value. -/
def Img.over (m : Img) (f : Nat → Nat → Nat → Nat) : Img := { m with px := m.px.mapIdx fun i v => f (i % m.w) (i / m.w) v }

/-- A field of a word of the parameter image (Table 11.4). -/
def param (ps : List (BitVec 32)) (w lo n : Nat) : Nat := (ps.getD w 0).toNat / 2 ^ lo % 2 ^ n

/-- R298: RAW pixels, shifted left to 12 bits: data type of kind 2 record, and the frame as received. -/
def rawImage (dt w h : Nat) (data : List Byte) : Img :=
  ⟨w, h, if dt = 0x2A then data.map (·.toNat * 16)
    else (List.range (data.length / 2)).map fun i => leAt data (2 * i) 2 % 4096 * (if dt = 0x2B then 4 else 1) % 4096⟩

/-- Table 11.1: the colour at (x, y) of a Bayer order: 0 R, 1 Gr, 2 Gb, 3 B. -/
def bayerAt (order x y : Nat) : Nat :=
  let c := x % 2 + 2 * (y % 2)
  if order = 0 then c else if order = 1 then [1, 0, 3, 2].getD c 0 else if order = 2 then [2, 3, 0, 1].getD c 0 else 3 - c

/-- Black level: the channel's level is subtracted; saturates at 0. -/
def blackLevel (ps : List (BitVec 32)) (order : Nat) (m : Img) : Img :=
  m.over fun x y v =>
    let c := bayerAt order x y
    v - param ps (c / 2) (16 * (c % 2)) 12

/-- The same-colour neighbours of a pixel that the image has. -/
def neighbours (m : Img) (x y : Nat) : List Nat :=
  ([(0, 0), (2, 0), (4, 0), (0, 2), (4, 2), (0, 4), (2, 4), (4, 4)].filter fun d =>
    decide (2 ≤ x + d.1 ∧ x + d.1 < m.w + 2 ∧ 2 ≤ y + d.2 ∧ y + d.2 < m.h + 2)).map fun d => m.at (x + d.1 - 2) (y + d.2 - 2)

/-- Defect correction: a pixel that differs from all eight same-colour neighbours by more than the threshold is replaced by their median; at the
border, where there are fewer, the result is not stated. -/
def defects (ps : List (BitVec 32)) (m : Img) : Img :=
  if param ps 2 0 1 = 0 then m
  else m.over fun x y v =>
    let ns := neighbours m x y
    let t := param ps 2 4 8
    if ns.length < 8 then Config.defectEdge t v ns
    else if ns.all fun n => decide (t < v - n ∨ t < n - v) then Config.defectMedian ns else v

/-- White balance: unsigned 4.12 gain, rounded half up, saturating at 4,095. -/
def whiteGain (gain v : Nat) : Nat := min 4095 ((v * gain + 2048) / 4096)

/-- The gains of a demosaiced pixel: red, green, blue; which of the two green gains applies is not stated. -/
def whiteBalance (ps : List (BitVec 32)) (x y : Nat) (p : List Nat) : List Nat :=
  let g := if Config.greenSite x y then param ps 3 16 16 else param ps 4 0 16
  [whiteGain (param ps 3 0 16) (p.getD 0 0), whiteGain g (p.getD 1 0), whiteGain (param ps 4 16 16) (p.getD 2 0)]

/-- A coefficient of the colour matrix: signed 4.12. -/
def coef (ps : List (BitVec 32)) (i : Nat) : Int := (BitVec.ofNat 16 (param ps (6 + i / 2) (16 * (i % 2)) 16)).toInt

/-- Colour matrix: rounded half up, saturating to 0 to 4,095. -/
def colourMatrix (ps : List (BitVec 32)) (p : List Nat) : List Nat :=
  (List.range 3).map fun r =>
    let v := ((List.range 3).foldl (fun (a : Int) c => a + coef ps (3 * r + c) * (p.getD c 0 : Int)) 2048) / 4096
    (max 0 (min 4095 v)).toNat

/-- A tone point. -/
def tonePoint (ps : List (BitVec 32)) (i : Nat) : Nat := param ps (11 + i / 2) (16 * (i % 2)) 12

/-- Tone map: linear between points 64 apart; the 8-bit output is the curve's value at 12-bit scale divided by 16, and which way it rounds is not
stated. -/
def toneMap (ps : List (BitVec 32)) (v : Nat) : Nat :=
  let a := tonePoint ps (v / 64) * (64 - v % 64) + tonePoint ps (v / 64 + 1) * (v % 64)
  min 255 (a / 1024 + (if a % 1024 ≠ 0 ∧ Config.toneUp a then 1 else 0))

/-- The stages of a RAW stream up to the tone map: planes R, G, B of 8-bit pixels. -/
def rawStages (ps : List (BitVec 32)) (order dt w h : Nat) (data : List Byte) : List (List Byte) :=
  let m := defects ps (blackLevel ps order (rawImage dt w h data))
  let rgb := Config.demosaic order w h m.px
  let bal := rgb.mapIdx fun i p => whiteBalance ps (i % w) (i / w) p
  let k := param ps 5 0 4
  let quiet := if k = 0 then bal else Config.denoise k w h bal
  let out := quiet.map fun p => (colourMatrix ps p).map fun v => toneMap ps (min 4095 v)
  (List.range 3).map fun c => out.map fun p => BitVec.ofNat 8 (p.getD c 0)

/-- The planes of one output format (0 Y8, 1 RGB planar, 2 I420) at full size, before the scalers: a RAW stream passes every stage, a YUV422
stream and a decoded frame (data type 0) enter at colour convert. -/
def pipelineOut (ps : List (BitVec 32)) (order dt w h fmt : Nat) (data : List Byte) : List Byte :=
  let conv := param ps 44 0 2
  if dt = 0x1E ∨ dt = 0 then Config.convertYuv conv dt w h fmt data
  else
    let rgb := rawStages ps order dt w h data
    if fmt = 1 then rgb.flatten else Config.toYuv conv w h fmt rgb

end Sys2Proof.Machine
end

