-- ==== Sys2Proof/Machine/Media.lean ====
section
/-! DEFINITION. Cameras, pipelines, codecs and audio (R293 to R313). What the fixed filters and codecs compute is not in the spec: it
stands as constants without a body (Config). -/

namespace Sys2Proof.Machine

/-- R308: ring accounting: bytes held and free space. -/
def ringHeld (wp rp size : Nat) : Nat := (wp + size - rp) % size
def ringFree (wp rp size : Nat) : Nat := size - 1 - ringHeld wp rp size

namespace State

/-! ### Shared pieces -/

/-- A media block's domain is on and it has not been shed: `code` of Table 15.5. -/
def blockOn (s : State) (dom code : Nat) : Bool := s.domOn dom && !SMap.get false s.media.shedBlock code

/-- A media record (Table 11.5) is appended to a record queue. -/
def mediaRecord (s : State) (q status unit ses pic seq time off len : Nat) : State :=
  (s.qProduce q 4 ([BitVec.ofNat 8 status, BitVec.ofNat 8 unit, BitVec.ofNat 8 ses, BitVec.ofNat 8 pic] ++ leN 4 seq ++ le64 time ++
    leN 4 off ++ leN 4 len ++ le64 s.t48)).1

/-- The next picture sequence number of a session. -/
def nextSeq (s : State) (unit ses : Nat) : State × Nat :=
  let k := unit * 16 + ses
  let n := (SMap.get 0 s.media.seq k).toNat
  ({ s with media := { s.media with seq := SMap.set 0 s.media.seq k (BitVec.ofNat 32 (n + 1)) } }, n)

/-- Writing a unit of bytes into a ring: it wraps at the ring's end (R306). -/
def ringWrite (s : State) (base size wp : Nat) (bs : List Byte) : State :=
  let k := min bs.length (size - wp)
  (s.store (base + wp) (bs.take k)).store base (bs.drop k)

/-- Reading bytes from a ring. -/
def ringRead (s : State) (base size rp n : Nat) : List Byte :=
  let k := min n (size - rp)
  s.bytes (base + rp) k ++ s.bytes base (n - k)

/-! ### Cameras (R295 to R301) -/

/-- R299: the parameter image of a stream. -/
def params (s : State) (st : Nat) : List (BitVec 32) :=
  (List.range 45).map fun w => (s.reg ⟨.iplStrParam, 0, 0, st, w⟩).setWidth 32

/-- R300: the bytes of a scaler output of a frame; `b` is the kind 3 record's body, `w` and `h` the size of the frame. -/
def scalerOut (b : List Byte) (planes : List Byte) (w h : Nat) : List Byte :=
  let fmt := leAt b 2 1
  let ow := leAt b 12 2
  let oh := leAt b 14 2
  let crop := [leAt b 4 2, leAt b 6 2, leAt b 8 2, leAt b 10 2]
  let plane := fun i (pw ph : Nat) => Config.scale (crop ++ [pw, ph, w, h]) ((planes.drop (i * w * h)).take (w * h))
  if fmt = 0 then plane 0 ow oh
  else if fmt = 1 then plane 0 ow oh ++ plane 1 ow oh ++ plane 2 ow oh
  else plane 0 ow oh ++ plane 1 (ow / 2) (oh / 2) ++ plane 2 (ow / 2) (oh / 2)

/-- The encoder session, or JPEG session as 8 + n, that a source number is bound to. -/
def codecOf (s : State) (src : Nat) : Option Nat :=
  match (s.media_ 7).find? fun b => decide (leAt b 3 1 = src) with
  | some b => some (leAt b 0 1)
  | none => ((s.media_ 8).find? fun b => decide (leAt b 1 1 = src)).map fun b => 8 + leAt b 0 1

/-- R305, R307: a source frame is written into the frame area of a session, in its two buffers in turn. -/
def keepFrame (s : State) (n area : Nat) (bs : List Byte) : State :=
  let k := SMap.get 0 s.media.srcBuf n
  { s with media := { s.media with srcBuf := SMap.set 0 s.media.srcBuf n (1 - k) } }.store (area + k * bs.length) bs

/-- R306: a source frame for an encoder session completes: it waits in one of two buffers, or is skipped. -/
def encoderFrame (s : State) (n : Nat) (bs : List Byte) : State :=
  let s := { s with media := { s.media with lastSrc := SMap.set ([], 0) s.media.lastSrc n (bs, s.gcnt) } }
  let q := SMap.get [] s.media.vencSrc n
  match s.mediaOf 7 n with
  | none => s
  | some b =>
    if 2 ≤ q.length then
      let (s, k) := s.nextSeq 1 n
      let s := (s.put (rid .vencSesStat n) 3 1 1).mediaRecord (leAt b 12 2) 2 1 n 1 k s.now 0 0
      s.raise 0x0604 7 n 0xFFFF 0 s.t48
    else
      let s := s.keepFrame n (leAt b 28 8) bs
      { s with media := { s.media with vencSrc := SMap.set [] s.media.vencSrc n (q ++ [(bs, s.gcnt)]) } }.put (rid .vencSesStat n) 0 2 1

/-- A frame of a source: to the encoder or JPEG session that binds it, or onto its request line. -/
def sourceFrame (s : State) (src line : Nat) (bs : List Byte) : State :=
  match s.codecOf src with
  | some n =>
    if n < 8 then s.encoderFrame n bs
    else
      let s := { s with media := { s.media with lastSrc := SMap.set ([], 0) s.media.lastSrc n (bs, s.gcnt) } }
      match s.mediaOf 8 (n - 8) with
      | some b => s.keepFrame n (leAt b 20 8) bs
      | none => s
  | none => s.feedLine line bs

/-- The scaler outputs of a stream, with their request lines. -/
def scalers (s : State) (st : Nat) : List (List Byte × Nat) :=
  ((s.media_ 3).filter fun b => decide (leAt b 0 1 = st)).map fun b => (b, 4 * st + leAt b 1 1 % 4)

/-- Table 11.1, kind 2: a camera stream's record. -/
def streamRec (s : State) (st : Nat) : Option (List Byte) := s.mediaOf 2 st

/-- The start of a frame that ends now, an earlier instant that the command does not give: a free value (log entry 8). -/
def sofBefore (s : State) (st : Nat) : State := s.takeFree.setReg (rid .iplStrSof st) (Config.freeValue s.free)

/-- A complete frame: counted, through the pipeline to each scaler output, and unprocessed to its raw source (R298 to R301). -/
def wholeFrame (s : State) (st : Nat) (b : List Byte) (data : List Byte) : State :=
  let w := leAt b 4 2
  let h := leAt b 6 2
  let pipe := leAt b 8 1
  let s := s.bump (rid .iplStrFrames st)
  let s := if pipe < 2 ∧ s.blockOn (153 + pipe) pipe then
      (s.scalers st).foldl (fun s q =>
        let planes := pipelineOut (s.params st) (leAt b 9 1) (leAt b 3 1) w h (leAt q.1 2 1) data
        s.sourceFrame (leAt q.1 3 1) q.2 (scalerOut q.1 planes w h)) s
    else s
  if leAt b 11 1 = 0xFF then s else s.sourceFrame (leAt b 11 1) (64 + st) data

/-- R297: what a line has moved of an abandoned frame ends ABORTED: the descriptor in hand, or the one that the frame's first burst takes. -/
def cutLine (s : State) (line : Nat) : State :=
  let next := s.get (sreg .strmPctxNext line) 0 40
  let d := s.bytes next 64
  let takes := (s.pctx line).desc.isEmpty && decide (next ≠ 0) && bit (s.reg (pstat line)) 0 && !bit (s.reg (pstat line)) 3 &&
    (!srcSided d || s.srcBound (dSrc d))
  (if takes then s.startDesc line d else s).abortDesc line

/-- R297: a frame is abandoned after `data` of it has come: its lines' descriptors end ABORTED, CSI_FRAME_ERR once per stream and tick. -/
def dropFrame (s : State) (st : Nat) (b data : List Byte) : State :=
  let s := s.bump (rid .iplStrDrops st)
  let cut (s : State) (line : Nat) : State := if data.isEmpty then s.abortDesc line else s.cutLine line
  let pipe := leAt b 8 1
  let s := if pipe < 2 ∧ s.blockOn (153 + pipe) pipe then
      ((s.scalers st).filter fun q => (s.codecOf (leAt q.1 3 1)).isNone).foldl (fun s q => cut s q.2) s
    else s
  let s := if leAt b 11 1 = 0xFF ∨ (s.codecOf (leAt b 11 1)).isSome then s
    else if data.isEmpty then s.abortDesc (64 + st) else (s.feedLine (64 + st) data).cutLine (64 + st)
  if SMap.get false s.media.onceCsi st then s
  else ({ s with media := { s.media with onceCsi := SMap.set false s.media.onceCsi st true } }).raise 0x0601 7 st 0xFFFF 0 s.t48

/-! ### Encoder and JPEG rings (R305 to R308) -/

/-- A session's unit of bytes at the end of its encoding: into the ring with a record, or discarded OVERFLOW; `wp`, `rp` and `stat` are
its registers, `ovf` the bit of the overflow. The Bool says that it fitted. -/
def ringUnit (s : State) (wp rp stat : RegId) (ovf base size q unit ses pic time : Nat) (bs : List Byte) : State × Bool :=
  let w := s.get wp 0 32
  let (s, k) := s.nextSeq unit ses
  if bs.length ≤ ringFree w (s.get rp 0 32) size then
    ((((s.ringWrite base size w bs).put wp 0 32 ((w + bs.length) % size)).mediaRecord q 0 unit ses pic k time w bs.length), true)
  else
    (((s.put stat ovf 1 1).mediaRecord q 3 unit ses pic k time w bs.length).raise 0x0603 7 ses 0xFFFF 0 s.t48, false)

/-- R306: the encoder finishes the access unit of its oldest source frame. -/
def accessUnit (s : State) (n : Nat) (b src : List Byte) (time : Nat) (rest : List (List Byte × BitVec 64)) : State :=
  let gopLen := leAt b 4 2
  let gop := SMap.get 0 s.media.gop n
  let idr := SMap.get true s.media.idr n || decide (gop = 0)
  let bs := Config.encodeFrame (leAt b 1 1 + 256 * leAt b 2 1) (leAt b 6 1) (leAt b 8 4) gop idr src
  let s := { s with media := { s.media with vencSrc := SMap.set [] s.media.vencSrc n rest } }
  let (s, fit) := s.ringUnit (rid .vencSesWp n) (rid .vencSesRp n) (rid .vencSesStat n) 2 (leAt b 20 8) (leAt b 16 4) (leAt b 12 2) 1 n
    (if idr then 0 else 1) time bs
  let g := if idr then 1 else gop + 1
  { s with media := { s.media with idr := SMap.set true s.media.idr n (!fit), gop := SMap.set 0 s.media.gop n (g % gopLen) } }.put
    (rid .vencSesStat n) 0 2 (if rest.isEmpty then 2 else 1)

/-- R307: the source frame of a JPEG session. -/
def jpegSource (s : State) (n : Nat) (b : List Byte) : List Byte × BitVec 64 :=
  match (s.media_ 7).find? fun e => decide (leAt e 3 1 = leAt b 1 1) with
  | some e => SMap.get ([], 0) s.media.lastSrc (leAt e 0 1)
  | none => SMap.get ([], 0) s.media.lastSrc (8 + n)

/-- R308: a driver's write of a drained offset: below the ring's size, and not past WP. -/
def drain (s : State) (wp rp : RegId) (size off : Nat) : State :=
  let r := s.get rp 0 32
  if off < size ∧ ringHeld off r size ≤ ringHeld (s.get wp 0 32) r size then s.put rp 0 32 off else s

/-! ### Audio (R310 to R313) -/

/-- Every `c`-th sample from `i`: channel `i` of an interleaved block. -/
def channel (c i : Nat) (xs : List Word) : List Word :=
  (List.range (xs.length / c)).map fun k => xs.getD (k * c + i) 0

/-- R310: one channel of a capture: its samples and how many saturated. PDM channels, and others at a rate below 48 kHz, pass their
fixed filters. -/
def captureChannel (rate sel : Nat) (xs : List Word) : List Int × Nat :=
  if sel < 64 ∨ rate ≠ 3 then
    let ys := Config.audioFilter (rate + 4 * (if sel < 64 then 0 else 1)) xs
    (ys.map fun y => max (-8388607) (min 8388607 y), ys.countP fun y => decide (y < -8388607 ∨ 8388607 < y))
  else (xs.map (·.toInt), 0)

/-- R310: a sample as stored: INT32, or FP32 of value × 2^−23. -/
def sampleBytes (fmt : Nat) (x : Int) : List Byte :=
  if fmt = 0 then leN 4 (BitVec.ofInt 32 x).toNat
  else leN 4 (Fp.mulRne (Fp.ofInt x) 0x34000000).toNat

/-- R311: the capture of line 80: channels in the order of the record, interleaved; loopback channels take the samples that the outputs
sent. -/
def audioCapture (s : State) (b : List Byte) (xs : List Word) : State :=
  let rate := leAt b 0 1
  let c := leAt b 1 1
  let chans := (List.range c).map fun i =>
    let sel := leAt b (8 + i) 1
    captureChannel rate sel (if 128 ≤ sel then SMap.get [] s.media.loopback (sel - 128) else channel c i xs)
  let clips : Nat := chans.foldl (fun (n : Nat) q => n + q.2) 0
  let n : Nat := (chans.map (·.1.length)).foldl max 0
  let bytes := (List.range n).flatMap fun k => chans.flatMap fun q => sampleBytes (leAt b 2 1) (q.1.getD k 0)
  let s := { s with media := { s.media with loopback := [] } }
  let s := if clips = 0 then s else (s.bump (rid .audClipCnt) clips).setBits (rid .audStatus) 8
  s.feedLine 80 bytes

/-- R313: one frame of a TDM output is sent: its loopback carries what was sent. -/
def sendFrame (s : State) (o slots : Nat) (ws : List Word) : State :=
  { s with media := { s.media with loopback := (List.range slots).foldl (fun m k =>
      SMap.set [] m (o * 16 + k) (SMap.get [] m (o * 16 + k) ++ [ws.getD k 0])) s.media.loopback } }

end State

/-- A CSI-2 frame of a stream is received, or abandoned on an error (R297); packets that no stream takes are discarded (R295). -/
def execCameraFrame (stream : Nat) (fin_ : FrameEnd) (data : List (BitVec 8)) (s : State) : Host.Outcome State Fault Refusal :=
  .next (match s.streamRec stream with
    | none => s
    | some b =>
      let port := leAt b 1 1
      let st := rid .iplCsiStat port
      if s.part.csiPorts ≤ port then s
      else match fin_ with
        | .discard => s.setBits st 16
        | .complete => (s.sofBefore stream).wholeFrame stream b data
        | .corrected => ((s.sofBefore stream).setBits st 4).wholeFrame stream b data
        | .eccUncorr => (((s.sofBefore stream).setBits st 8).bump (rid .iplCsiCrcCnt port)).dropFrame stream b data
        | .crc => (((s.sofBefore stream).setBits st 2).bump (rid .iplCsiCrcCnt port)).dropFrame stream b data
        | .early => (s.setReg (rid .iplStrSof stream) s.gcnt).dropFrame stream b data
        | .shape => (s.sofBefore stream).dropFrame stream b data)

/-- The host writes VDEC_SESn_WP (R303, R308). -/
def execVdecWpWrite (n : Nat) (off : BitVec 32) (s : State) : Host.Outcome State Fault Refusal :=
  .next (s.viaHost fun s => match s.mediaOf 6 n with
    | some b =>
      if off.toNat < leAt b 12 4 then
        let s := s.put (rid .vdecSesWp n) 0 32 off.toNat
        s.put (rid .vdecSesStat n) 0 2 (if off.toNat = s.get (rid .vdecSesRp n) 0 32 then 2 else 1)
      else s
    | none => s)

/-- The decoder finishes a frame (R302 to R304): it consumes `used` bytes of the ring, writes the frame to its next buffer, routes it
where the session has a pipeline, and announces it. A session that lacks the bytes waits. -/
def execVdecFrameDecoded (n : Nat) (damaged : Bool) (pic : PicKind) (used : BitVec 32) (s : State) : Host.Outcome State Fault Refusal :=
  .next (match s.mediaOf 6 n with
    | none => s
    | some b =>
      let size := leAt b 12 4
      let rp := s.get (rid .vdecSesRp n) 0 32
      if !s.blockOn 155 2 then s
      else if ringHeld (s.get (rid .vdecSesWp n) 0 32) rp size < used.toNat then s.put (rid .vdecSesStat n) 0 2 2
      else
        let w := leAt b 4 2
        let h := leAt b 6 2
        let room := w * h * (if leAt b 1 1 = 0 then 3 else 6) / 2
        let frame := (Config.decodeFrame (leAt b 1 1) (s.ringRead (leAt b 16 8) size rp used.toNat)).take room
        let idx := SMap.get 0 s.media.vdecBuf n
        let s := { s with media := { s.media with vdecBuf := SMap.set 0 s.media.vdecBuf n ((idx + 1) % 20) } }
        let s := s.store (leAt b 24 8 + idx * room) frame
        let s := s.put (rid .vdecSesRp n) 0 32 ((rp + used.toNat) % size)
        let s := s.put (rid .vdecSesStat n) 0 2 (if (rp + used.toNat) % size = s.get (rid .vdecSesWp n) 0 32 then 2 else 1)
        let s := if leAt b 2 1 < 2 then s.feedLine (88 + n) (pipelineOut [] 0 0 w h 2 frame) else s
        let (s, k) := s.nextSeq 0 n
        let code := match pic with | .idr => 0 | .p => 1 | .b => 2 | .jpeg => 3
        let s := s.mediaRecord (leAt b 8 2) (if damaged then 1 else 0) 0 n code k s.now idx frame.length
        if damaged then (s.setBits (rid .vdecSesStat n) 4).raise 0x0602 7 n 0xFFFF 0 s.t48 else s)

/-- The encoder finishes an access unit (R306). -/
def execVencAccessUnit (n : Nat) (s : State) : Host.Outcome State Fault Refusal :=
  .next (match s.mediaOf 7 n, SMap.get [] s.media.vencSrc n with
    | some b, (src, t) :: rest => if s.blockOn 156 3 then s.accessUnit n b src t.toNat rest else s
    | _, _ => s)

/-- The host writes VENC_SESn_RP (R308). -/
def execVencRpWrite (n : Nat) (off : BitVec 32) (s : State) : Host.Outcome State Fault Refusal :=
  .next (s.viaHost fun s => match s.mediaOf 7 n with
    | some b => s.drain (rid .vencSesWp n) (rid .vencSesRp n) (leAt b 16 4) off.toNat
    | none => s)

/-- The host writes VENC_JPGn_TRIG.go (R307): one snapshot; a trigger while busy is discarded. -/
def execVencJpgTrig (n : Nat) (s : State) : Host.Outcome State Fault Refusal :=
  .next (s.viaHost fun s => match s.mediaOf 8 n with
    | some b =>
      if bit (s.reg (rid .vencJpgStat n)) 0 then s.setBits (rid .vencJpgStat n) 2
      else { s with media := { s.media with jpegSrc := SMap.set ([], 0) s.media.jpegSrc n (s.jpegSource n b) } }.setBits
        (rid .vencJpgStat n) 1
    | none => s)

/-- A JPEG image is finished (R307). -/
def execJpegImageDone (n : Nat) (s : State) : Host.Outcome State Fault Refusal :=
  .next (match s.mediaOf 8 n with
    | some b =>
      if bit (s.reg (rid .vencJpgStat n)) 0 && s.blockOn 157 4 then
        let (src, t) := SMap.get ([], 0) s.media.jpegSrc n
        (s.ringUnit (rid .vencJpgWp n) (rid .vencJpgRp n) (rid .vencJpgStat n) 2 (leAt b 12 8) (leAt b 8 4) (leAt b 4 2) 2 n 3 t.toNat
          (Config.encodeJpeg (leAt b 2 1) src)).1.clearBits (rid .vencJpgStat n) 1
      else s
    | none => s)

/-- The host writes VENC_JPGn_RP (R308). -/
def execVencJpgRpWrite (n : Nat) (off : BitVec 32) (s : State) : Host.Outcome State Fault Refusal :=
  .next (s.viaHost fun s => match s.mediaOf 8 n with
    | some b => s.drain (rid .vencJpgWp n) (rid .vencJpgRp n) (leAt b 8 4) off.toNat
    | none => s)

/-- The block of a tick of the audio capture (line 80) or of a TDM input (lines 81 to 84) is written (R310 to R312). -/
def execAudioBlock (line : Nat) (samples : List (BitVec 32)) (s : State) : Host.Outcome State Fault Refusal :=
  .next (if !s.blockOn 158 5 then s
    else if line = 80 then
      match (s.media_ 4).head? with
      | some b => s.audioCapture b samples
      | none => s
    else match s.mediaOf 5 (line - 81) with
      | some b => if leAt b 3 1 = 0xFF then s else s.feedLine line (samples.flatMap fun w => leN 4 w.toNat)
      | none => s)

/-- A TDM output frame is sent, from ready samples or as zeros (R313). -/
def execTdmOutputFrame (o : Nat) (s : State) : Host.Outcome State Fault Refusal :=
  .next (match s.mediaOf 5 (4 + o) with
    | none => s
    | some b =>
      let slots := leAt b 1 1
      let fifo := SMap.get [] s.strm.outBytes (85 + o)
      if !s.blockOn 158 5 then s
      else if 4 * slots ≤ fifo.length then
        { s with strm := { s.strm with outBytes := SMap.set [] s.strm.outBytes (85 + o) (fifo.drop (4 * slots)) } }.sendFrame o slots
          ((List.range slots).map fun k => BitVec.ofNat 32 (leAt fifo (4 * k) 4))
      else
        let s := ((s.sendFrame o slots []).bump (rid .audUndrCnt o)).setBits (rid .audStatus) (BitVec.ofNat 64 (2 ^ (1 + o)))
        if SMap.get false s.media.onceUndr o then s
        else ({ s with media := { s.media with onceUndr := SMap.set false s.media.onceUndr o true } }).raise 0x0605 7 o 0xFFFF 0 s.t48)

end Sys2Proof.Machine
end

