-- ==== Sys2Proof/Machine/TimedIO.lean ====
section
/-! DEFINITION. Timed I/O (R314 to R319): balls, edges, the GPIO input source and the timed-output queue. -/

namespace Sys2Proof.Machine
namespace State

/-! ### Balls (R314, R459, R460) -/

/-- GPIO_BALLn_CFG: mode [3:0] and default. -/
def ballMode (s : State) (b : Nat) : Nat := s.get (rid .gpioBallCfg b) 0 4
def ballDefault (s : State) (b : Nat) : Option Bool :=
  let d := s.get (rid .gpioBallCfg b) 8 2
  if d = 0 then some false else if d = 1 then some true else none

/-- The ball is driven: an open-drain ball at high is released (R460). The level of a driven ball is the one it is driven to; a ball that
is released keeps its level until an edge comes (log entry 46). -/
def drive (s : State) (b : Nat) (v : Option Bool) : State :=
  let v := if bit (s.reg (rid .gpioBallCfg b)) 4 && decide (v = some true) then none else v
  let s := { s with gpio := { s.gpio with driven := SMap.set none s.gpio.driven b v } }
  match v with
  | some l => { s with gpio := { s.gpio with seen := SMap.set false s.gpio.seen b l } }.put (rid .gpioIn) b 1 (if l then 1 else 0)
  | none => s

/-- R314: a ball takes its default level; off and input balls are not driven. GPIO_OUT holds the level of each mode 2 ball. -/
def ballToDefault (s : State) (b : Nat) : State :=
  let m := s.ballMode b
  let s := s.drive b (if m = 0 ∨ m = 1 then none else s.ballDefault b)
  if m = 2 then s.put (rid .gpioOut) b 1 (if s.ballDefault b = some true then 1 else 0) else s

/-! ### The timed-output queue (R317, R318) -/

/-- Entries in the queue; a pulse in progress holds its own. -/
def toqCount (s : State) : Nat := s.gpio.toq.length + s.gpio.pulses.length

/-- When an entry is due: from the start of its due tick, expected in whole periods until that tick has started. -/
def toqDue (s : State) (e : ToqEntry) : Nat :=
  match e.due with
  | some t => t
  | none => s.tickStart + (e.dueTick - s.t48) * s.period + e.offset

/-- GPIO_TOQ_STAT.count and GPIO_TOQ_NEXT; the entry that a pulse in progress holds is due again at its trailing edge (log entry 47). -/
def toqShow (s : State) : State :=
  let next := s.gpio.pulses.foldl (fun n q => min n q.ends) (s.gpio.toq.foldl (fun n e => min n (s.toqDue e)) (2 ^ 64 - 1))
  (s.put (rid .gpioToqStat) 0 9 s.toqCount).setReg (rid .gpioToqNext) (BitVec.ofNat 64 next)

/-- An entry as 16 bytes (Table 11.8), its delta counted from the tick in hand. -/
def toqParse (s : State) (b : List Byte) : ToqEntry :=
  { dueTick := s.t48 + leAt b 0 2, ball := leAt b 2 1, action := leAt b 3 1, offset := leAt b 4 4, width := leAt b 8 4
    tag := leWord b 3, due := none }

/-- R317: what makes an entry invalid. -/
def toqBad (s : State) (b : List Byte) : Bool :=
  let e := s.toqParse b
  decide (leAt b 0 2 = 0) || decide (s.period ≤ e.offset) || decide (32 ≤ e.ball) || decide (s.ballMode e.ball ≠ 3) ||
    decide (5 < e.action) || (decide (e.action = 2 ∨ e.action = 3) && decide (e.width = 0))

/-- R317: an entry is discarded, with its event once per tick. -/
def toqDrop (s : State) (ball statBit code : Nat) (once : Bool) : State :=
  let s := (s.bump (rid .gpioToqDropCnt)).put (rid .gpioToqStat) statBit 1 1
  if once then s else s.raise code 7 ball 0xFFFF 0 s.t48

/-- R317: one row enters the queue, is skipped, or is discarded. -/
def toqEnter (s : State) (b : List Byte) : State :=
  if leAt b 3 1 = 0xFF then s
  else if s.toqBad b then
    let s' := s.toqDrop (leAt b 2 1) 10 0x0607 s.gpio.onceBad
    { s' with gpio := { s'.gpio with onceBad := true } }
  else if 256 ≤ s.toqCount then
    let s' := s.toqDrop (leAt b 2 1) 9 0x0606 s.gpio.onceFull
    { s' with gpio := { s'.gpio with onceFull := true } }
  else { s with gpio := { s.gpio with toq := s.gpio.toq ++ [s.toqParse b] } }

/-- The rows of 16 bytes of a byte string. -/
def rows16 (b : List Byte) : List (List Byte) := (List.range (b.length / 16)).map fun i => (b.drop (16 * i)).take 16

/-- Rows enter in ascending order. -/
def toqRows (s : State) (b : List Byte) : State := (rows16 b).foldl toqEnter s

/-- R317: the entries that the driver supplied on line 108 enter after the program entries. -/
def toqSupplied (s : State) : State :=
  let b := SMap.get [] s.strm.outBytes 108
  let s := { s with strm := { s.strm with outBytes := SMap.set [] s.strm.outBytes 108 (b.drop (b.length / 16 * 16)) } }
  s.toqRows b

/-- At the start of its due tick an entry's due instant is fixed (R318). -/
def toqArm (s : State) : State :=
  let arm (e : ToqEntry) : ToqEntry :=
    if e.due.isNone && decide (e.dueTick ≤ s.t48) then { e with due := some (s.tickStart + e.offset) } else e
  { s with gpio := { s.gpio with toq := s.gpio.toq.map arm } }

/-- R318: an entry due at `t` is applied. -/
def toqApply (s : State) (e : ToqEntry) (t : Nat) : State :=
  let s := s.setReg (rid .gpioToqLast) (e.tag.setWidth 64)
  match e.action with
  | 0 => s.drive e.ball (some false)
  | 1 => s.drive e.ball (some true)
  | 4 => s.drive e.ball none
  | 5 => { s with gpio := { s.gpio with toq := s.gpio.toq.filter fun f => !(decide (f.ball = e.ball) && decide (t < s.toqDue f)) } }
  | _ =>
    let high := decide (e.action = 2)
    let s := s.drive e.ball (some high)
    { s with gpio := { s.gpio with pulses := s.gpio.pulses ++ [⟨e.ball, t + e.width, !high, e.tag⟩] } }

/-- The first entry in queue order of those due earliest, once its due tick has started and its instant has come. -/
def toqFirst (s : State) : Option ToqEntry :=
  s.gpio.toq.find? fun e => e.due.isSome && decide (s.toqDue e ≤ s.now) &&
    s.gpio.toq.all fun f => f.due.isNone || decide (s.toqDue e ≤ s.toqDue f)

/-- Every entry that is due is applied, in due order and then in queue order. -/
def toqRun : Nat → State → State
  | 0, s => s
  | n + 1, s => match s.toqFirst with
    | some e =>
      let t := s.toqDue e
      toqRun n (({ s with gpio := { s.gpio with toq := s.gpio.toq.erase e } }).toqApply e t)
    | none => s

/-- R319: a downhaul empties the queue and sets every timed-output ball to its default level. -/
def toqDownhaul (s : State) : State :=
  let s := { s with gpio := { s.gpio with toq := [], pulses := [] } }
  ((List.range 32).foldl (fun s b => if s.ballMode b = 3 then s.ballToDefault b else s) s).toqShow

/-! ### The GPIO input source (R316) -/

/-- An edge record. -/
def edgeBytes (e : BitVec 64 × Nat × Bool) : List Byte :=
  le64 e.1.toNat ++ [BitVec.ofNat 8 e.2.1, if e.2.2 then 1 else 0] ++ List.replicate 6 0

/-- Order of delivery: by timestamp, ties in ascending ball. -/
def edgeLe (a b : BitVec 64 × Nat × Bool) : Bool := decide (a.1 < b.1) || (decide (a.1 = b.1) && decide (a.2.1 ≤ b.2.1))

/-- Inserting a record into records in delivery order. -/
def insertEdge (e : BitVec 64 × Nat × Bool) : List (BitVec 64 × Nat × Bool) → List (BitVec 64 × Nat × Bool)
  | [] => [e]
  | x :: xs => if edgeLe e x then e :: x :: xs else x :: insertEdge e xs

/-- The 65 rows that the source delivers for the guard starting at `at_`. -/
def edgeRows (s : State) (es : List (BitVec 64 × Nat × Bool)) (at_ : Nat) : List Byte :=
  let n := min es.length 64
  leN 2 n ++ leN 2 (es.length - n) ++ leN 4 s.gpio.atGuard.toNat ++ le64 at_ ++ (es.take 64).flatMap edgeBytes ++
    List.replicate (16 * (64 - n)) 0

/-- Bytes of a capture written into the shadow half of a bound input, which is then complete. -/
def fillShadow (s : State) (b : Bound) (src : Nat) (bs : List Byte) : State :=
  let i := s.input b
  let half := !i.live
  let base := s.get (sreg (if half then .strmSrcBase1 else .strmSrcBase0) src) 0 40
  let ds := (List.range 3).map fun k => (s.get (sreg .strmSrcDim src k) 0 32, s.get (sreg .strmSrcDim src k) 32 32)
  let s := (bs.mapIdx fun k x => (k, x)).foldl (fun s q => s.store (patAddr base ds q.1) [q.2]) s
  s.setInput b { i with complete := true, shadowDigest := if bit (s.reg (srcCtl src)) 1 then sha384 bs else [] }

/-- R316: at the flip, the records with timestamps before the guard start are delivered; what stands beyond 64 is lost. -/
def deliverEdges (s : State) (at_ : Nat) : State :=
  match (s.media_ 9).head? with
  | none => s
  | some b =>
    let src := leAt b 0 1
    let es := (s.gpio.edges.filter fun e => decide (e.1.toNat < at_)).foldl (fun l e => insertEdge e l) []
    let bs := s.edgeRows es at_
    let s := { s with gpio := { s.gpio with edges := s.gpio.edges.filter fun e => decide (at_ ≤ e.1.toNat) } }
    let s := if es.length ≤ 64 then s
      else (s.bump (rid .gpioEdgeLostCnt) (es.length - 64)).raise 0x0608 7 0xFF 0xFFFF 0 s.t48
    match s.boundInput src with
    | some q => s.fillShadow q src bs
    | none => s

/-- R315: the timestamp of an edge that counts now: the first sample at the new level, less the synchroniser's 8 ns. -/
def edgeTime (s : State) (b : Nat) : Nat := (s.now - 4 * s.get (rid .gpioBallCfg b) 16 8) / 4 * 4 - 8

end State

/-- A counted edge on a ball (R315, R316): GPIO_IN follows it; on an input ball its record goes to the edge log and waits for the GPIO
input source. -/
def execGpioEdge (ball : Nat) (level : Bool) (s : State) : Host.Outcome State Fault Refusal :=
  .next (if 32 ≤ ball ∨ SMap.get false s.gpio.seen ball = level then s
    else
      let s := { s with gpio := { s.gpio with seen := SMap.set false s.gpio.seen ball level } }
      let s := s.put (rid .gpioIn) ball 1 (if level then 1 else 0)
      if s.ballMode ball ≠ 1 then s
      else
        let e : BitVec 64 × Nat × Bool := (BitVec.ofNat 64 (s.edgeTime ball), ball, level)
        let s := if (s.media_ 9).isEmpty then s else { s with gpio := { s.gpio with edges := s.gpio.edges ++ [e] } }
        if bit (s.reg (State.pstat 109)) 0 then s.feedLine 109 (State.edgeBytes e) else s)

/-- Timed-output entries whose instant has come are applied (R318). -/
def execTimedOutputDue (s : State) : Host.Outcome State Fault Refusal :=
  .next (if s.toqFirst.isNone then s else (State.toqRun s.gpio.toq.length s).toqShow)

/-- A pulse performs its trailing edge (R318): its entry, held until then, is the last applied (log entry 47). -/
def execTimedPulseEnd (ball : Nat) (s : State) : Host.Outcome State Fault Refusal :=
  .next (match s.gpio.pulses.find? fun q => decide (q.ball = ball ∧ q.ends ≤ s.now) with
    | some q =>
      let s := { s with gpio := { s.gpio with pulses := s.gpio.pulses.erase q } }
      ((s.setReg (rid .gpioToqLast) (q.tag.setWidth 64)).drive ball (some q.level)).toqShow
    | none => s)

/-- The host writes GPIO_OUT (R314, R321): the mode 2 balls take their bits; writes to the bits of other balls are discarded. -/
def execGpioOutWrite (value : BitVec 32) (s : State) : Host.Outcome State Fault Refusal :=
  .next (s.viaHost fun s => (List.range 32).foldl (fun s b =>
    if s.ballMode b = 2 then (s.put (rid .gpioOut) b 1 (if value.getLsbD b then 1 else 0)).drive b (some (value.getLsbD b)) else s) s)

end Sys2Proof.Machine
end

