-- ==== Sys2Proof/Machine/HyperRam.lean ====
section
/-! DEFINITION. External memory (R359 to R374): slots, retries, channels that go down and come back, and recalibration. -/

namespace Sys2Proof.Machine
namespace State

/-! ### Channels -/

/-- The slot frames run and the channel serves. -/
def hrServes (s : State) (c : Nat) : Bool :=
  bit (s.reg (rid .hrcCtrl)) 9 && bit (s.reg (rid .hrcCtrl)) c && bit (s.reg (rid .hrcStatus)) c && !bit (s.reg (rid .hrcStatus)) (16 + c)

/-- Programs that read or write HyperRAM. -/
def hrUsers (s : State) : List Nat := s.admittedList.filter fun p => !(s.prog p).place.channels.isEmpty

/-- R371: channel `c` recalibrates in the guard of the tick. -/
def recalDue (s : State) (c : Nat) : Bool :=
  let r := s.get (rid .hrcFrame) 16 16
  decide (r ≠ 0) && decide (s.t48 % r = s.get (rid .hrcChCfg c) 8 8)

/-- R371: a slot that begins now overlaps the recalibration window of channel `c`. -/
def inRecal (s : State) (c : Nat) : Bool :=
  s.recalDue c && decide (s.now < s.guardTime + 2115) && decide (s.guardTime + 900 < s.now + 405)

/-- The slot of the tick that begins in this nanosecond, on a channel that serves; one that would end after the next tick start is not
used, nor one that overlaps the channel's recalibration. -/
def hrSlotNow (s : State) (c : Nat) : Option Nat :=
  let j := (s.now - s.tickStart) / 405
  let stop := s.tick.next.getD (s.tickStart + s.period)
  if (decide (s.tick.phase = .work) || decide (s.tick.phase = .guard)) && s.hrServes c && decide (s.hrSlotStart j = s.now) &&
      decide (s.now + 405 ≤ stop) && !s.inRecal c then some j
  else none

def hrReqs (s : State) (c : Nat) : List HrReq := SMap.get [] s.hyper.reqs c
def setHrReqs (s : State) (c : Nat) (l : List HrReq) : State := { s with hyper := { s.hyper with reqs := SMap.set [] s.hyper.reqs c l } }
def hrRetries (s : State) (c : Nat) : List HrReq := SMap.get [] s.hyper.retries c
def setHrRetries (s : State) (c : Nat) (l : List HrReq) : State :=
  { s with hyper := { s.hyper with retries := SMap.set [] s.hyper.retries c l } }

/-- The handle of a request's program; the Stay die's own have none. -/
def hrHandle (s : State) (r : HrReq) : Nat := match r.prog with | some p => s.handle p | none => 0xFFFF

/-- A fault of a request's program. -/
def hrFault (s : State) (r : HrReq) : State := match r.prog with | some p => s.unitFault p | none => s

/-! ### Slots (R362 to R366) -/

/-- R364: requests whose slot has gone are not performed. -/
def dropLate (s : State) (c : Nat) : State :=
  let late := (s.hrReqs c).filter (·.late)
  let s := s.setHrReqs c ((s.hrReqs c).filter fun r => !r.late)
  late.foldl (fun s r => (s.hrFault r).raise 0x050C 7 c (s.hrHandle r) 0 s.t48) s

/-- R363: whose request slot `j` serves: of the mast it is assigned to, else of the Stay die. -/
def hrServed (s : State) (c j : Nat) (r : HrReq) : Bool :=
  match (List.range 7).find? fun o => s.hrAssigned c j o with
  | some o => match r.prog with
    | some p => (s.progMasts p).contains o
    | none => false
  | none => r.prog.isNone

/-- R366: corrected words are counted; the first since ce was cleared raises HR_ECC_CORR. -/
def hrCorrected (s : State) (c : Nat) (r : HrReq) (n : Nat) : State :=
  if n = 0 then s
  else
    let s := s.bump (rid .hrcChCeCnt c) n
    if bit (s.reg (rid .hrcStatus)) 24 then s
    else (s.setBits (rid .hrcStatus) 0x1000000).raise 0x0509 7 c (s.hrHandle r) 0 s.t48

/-- R364: the data of a tick-class read is ready to enter the crosstree 430 ns after its slot began; the Stay engine takes its own. -/
def hrReturn (s : State) (r : HrReq) : State :=
  if r.strm = 0 ∨ r.port = 7 then s
  else s.post ((linePieces r.addr r.len).map fun q =>
    { src := 7, dst := r.port, addr := q.1, data := s.bytes q.1 q.2, prog := r.prog, strm := r.strm, read := true, ready := s.now + 430 })

/-- A read burst: corrected words are counted; an uncorrectable one sends the read to a recovery slot (R367). -/
def hrRead (s : State) (c : Nat) (r : HrReq) (badWord : Option Nat) : State :=
  if !s.hrEcc then s.hrReturn r
  else
    let line := 0x200000000 + (r.addr - 0x200000000) / s.hrLineBytes * s.hrLineBytes
    let s := s.hrCorrected c r (s.eccWords line s.hrLineBytes 1).length
    let bad := match badWord with
      | some w => some (line + 8 * (w % 28))
      | none => (s.eccWords line s.hrLineBytes 2).head?.map (8 * ·)
    match bad with
    | some a => s.setHrRetries c (s.hrRetries c ++ [{ r with bad := a }])
    | none => s.hrReturn r

/-- A write burst (R365): with ECC on, a write of part of a word takes its read first and is written in the next slot. -/
def hrWriteBurst (s : State) (c : Nat) (r : HrReq) (bs : List Byte) : State :=
  if s.hrEcc && !r.merged && !(decide (r.addr % 8 = 0) && decide (bs.length % 8 = 0)) then
    s.setHrReqs c ({ r with merged := true } :: s.hrReqs c)
  else if s.hrEcc && r.merged then
    let part := (partWords r.addr bs.length).filter fun w => decide (SMap.get 0 s.ecc w = 1)
    (s.hrCorrected c r part.length).store r.addr bs
  else s.store r.addr bs

/-- A slot serves the oldest request it can. -/
def hrServe (s : State) (c j : Nat) (badWord : Option Nat) : State :=
  match (s.hrReqs c).find? (s.hrServed c j) with
  | none => s
  | some r =>
    let s := s.setHrReqs c ((s.hrReqs c).erase r)
    match r.write with
    | some bs => s.hrWriteBurst c r bs
    | none => s.hrRead c r badWord

/-! ### Retries (R367, R368) -/

/-- A retry is counted; the first beyond the budget raises HR_RETRY_EXCESS. -/
def hrCountRetry (s : State) (c : Nat) (r : HrReq) : State :=
  let n := SMap.get 0 s.hyper.used c + 1
  let s := { s with hyper := { s.hyper with used := SMap.set 0 s.hyper.used c n } }
  let s := s.bump (rid .hrcChRetryCnt c)
  let s := match r.prog with | some p => s.setCond p 0 | none => s
  if s.get (rid .hrcFrame) 12 4 < n && !SMap.get false s.hyper.onceExcess c then
    { s with hyper := { s.hyper with onceExcess := SMap.set false s.hyper.onceExcess c true } }.raise 0x050A 7 c (s.hrHandle r) 0 s.t48
  else s

/-- R368: a retry fails again: the word is delivered poisoned. -/
def hrUncorr (s : State) (c : Nat) (r : HrReq) : State :=
  let s := s.bump (rid .hrcChUeCnt c)
  let s := s.firstRecord (rid .hrcStatus) 25 fun s => s.put (rid .hrcChUeAddr c) 0 40 r.bad
  let s := s.hrFault r
  if SMap.get false s.hyper.onceUe c then s
  else { s with hyper := { s.hyper with onceUe := SMap.set false s.hyper.onceUe c true } }.raise 0x050B 7 c (s.hrHandle r) 0 s.t48

/-! ### Channels down and up (R371, R372) -/

/-- A bulk channel's descriptor touches HyperRAM. -/
def chTouchesHyper (s : State) (ch : Nat) : Bool :=
  let d := (s.chan ch).desc
  let hr := fun (g : Seg) => match regionOf g.addr with | .hyper _ => true | _ => false
  (s.side ch d 0x10 false).segs.any hr || (s.side ch d 0x20 true).segs.any hr

/-- A peripheral descriptor reaches HyperRAM. -/
def descHyper (s : State) (d : List Byte) (half : Bool) : Bool :=
  let (b, ds) := s.memSide d half
  (List.range (patCount ds)).any fun i => match regionOf (patAddr b ds i) with | .hyper _ => true | _ => false

/-- R372: unscheduled streams touching HyperRAM end ABORTED, those that await their landing too. -/
def abortHyper (s : State) : State :=
  let hit := (List.range 32).filter fun ch => (s.chan ch).ending.isSome && s.chTouchesHyper ch
  let s := hit.foldl (fun s ch => s.setChan ch { s.chan ch with ending := some (6, 0, 0) }) s
  let s := (List.range 110).foldl (fun s line =>
    let c := s.pctx line
    let s := s.setPctx line { c with ends := c.ends.map fun e => if s.descHyper e.desc e.half then { e with cut := true, back := none } else e }
    if !c.desc.isEmpty && s.descHyper c.desc c.half then s.abortDesc line else s) s
  (List.range 8).foldl (fun s c => s.setHrReqs c ((s.hrReqs c).filter fun r => r.prog.isSome)) s

/-- A channel goes down; twice within 10 s takes it out of service. -/
def hrDown (s : State) (c : Nat) : State :=
  let ts := s.recent (SMap.get [] s.hyper.downTimes c) 10000000000 ++ [s.now]
  let s := { s with hyper := { s.hyper with downTimes := SMap.set [] s.hyper.downTimes c ts
                                            retrained := SMap.set false s.hyper.retrained c false } }
  let s := (s.put (rid .hrcStatus) c 1 0).put (rid .hrcStatus) (8 + c) 1 1
  let s := (s.raise 0x050D 7 c 0xFFFF 0 s.t48).unitFaults s.hrUsers
  let s := s.abortHyper
  if 2 ≤ ts.length then s.askOut (64 + c) else s

/-- R371: one recalibration: each device's tap moves by at most one, or all three reads fail; what the pattern reads show is a free
value (log entry 8). -/
def recalibrate (s : State) (c : Nat) : State :=
  let v := (Config.freeValue s.free).toNat
  let s := s.takeFree
  if v % 10 = 9 then s.hrDown c
  else
    let step := fun (d k : Nat) => if k = 0 then d - 1 else if k = 2 then min (d + 1) 63 else d
    let a := s.get (rid .hrcChTrain c) 0 6
    let b := s.get (rid .hrcChTrain c) 8 6
    let a' := step a (v % 10 % 3)
    let b' := step b (v % 10 / 3)
    let s := (s.put (rid .hrcChTrain c) 0 6 a').put (rid .hrcChTrain c) 8 6 b'
    if a' = a ∧ b' = b then s else s.bump (rid .hrcChRecalCnt c)

/-- Guard step 7: the channels whose phase is due. -/
def recalStep (s : State) : State :=
  (List.range 8).foldl (fun s c => if s.hrServes c && s.recalDue c then s.recalibrate c else s) s

/-- R372: retrained channels resume at the tick start; while one is down every program that uses HyperRAM faults. -/
def hrTickStart (s : State) : State :=
  let s := (List.range 8).foldl (fun s c =>
    if SMap.get false s.hyper.retrained c then
      ({ s with hyper := { s.hyper with retrained := SMap.set false s.hyper.retrained c false } }.put (rid .hrcStatus) c 1 1).raise
        0x050E 7 c 0xFFFF 0 s.t48
    else s) s
  let s := { s with hyper := { s.hyper with used := [], onceExcess := [], onceUe := [] } }
  if (List.range 8).any s.hrIsDown then s.unitFaults s.hrUsers else s

end State

/-- A HyperRAM slot begins (R362): it performs the burst of the oldest request it serves; `badWord` is the data word of the line, if
any, that a read finds uncorrectable beside those already so. -/
def execHrSlot (ch : Nat) (badWord : Option Nat) (s : State) : Host.Outcome State Fault Refusal :=
  .next (match s.hrSlotNow ch with
    | some j => (s.dropLate ch).hrServe ch j badWord
    | none => s)

/-- A recovery slot repeats the oldest read that met an uncorrectable word (R367); it `fails` again, or its word stands uncorrectable in
memory, and the word is delivered poisoned (R368). -/
def execHrRetry (ch : Nat) (fails : Bool) (s : State) : Host.Outcome State Fault Refusal :=
  .next (match s.hrSlotNow ch, s.hrRetries ch with
    | some j, r :: rs =>
      if !s.hrRecovery j then s
      else
        let s := (s.setHrRetries ch rs).hrCountRetry ch r
        (if fails || decide (s.eccAt r.bad = 2) then s.hrUncorr ch r else s).hrReturn r
    | _, _ => s)

/-- The MP has retrained a channel (R372, R425): it resumes at the next tick start; a retrain that fails takes it down again. -/
def execHrChannelUp (ch : Nat) (ok : Bool) (s : State) : Host.Outcome State Fault Refusal :=
  .next (if !s.hrIsDown ch || !s.fwRuns 1 || bit (s.reg (rid .hrcChCfg ch)) 2 then s
    else if ok then { s with hyper := { s.hyper with retrained := SMap.set false s.hyper.retrained ch true } }
    else s.hrDown ch)

end Sys2Proof.Machine
end

