-- ==== Sys2Proof/Machine/Programs.lean ====
section
/-! DEFINITION. Mailboxes and responses (R254, Table 9.7, Table 9.8), and programs that leave (R243, R258, R281, R337). -/

namespace Sys2Proof.Machine
namespace State

/-! ### Mailboxes (R254) -/

/-- The 64 bytes of mailbox `n`'s request. -/
def mboxReq (s : State) (n : Nat) : List Byte := (List.range 16).flatMap fun w => leN 4 (s.get (rid .admMboxReq n w) 0 32)
def mboxCmd (s : State) (n : Nat) : Nat := leAt (s.mboxReq n) 0 1
def mboxTag (s : State) (n : Nat) : Nat := leAt (s.mboxReq n) 2 2
def mboxBusy (s : State) (n : Nat) : Bool := bit (s.reg (rid .admMboxStat n)) 0

/-- Table 9.8: what a response says beside the command and the tag. -/
structure Resp where
  status : Nat := 0
  reason : Nat := 0
  step : Nat := 0
  handle : Nat := 0xFFFF
  detail : Nat := 0
  detail2 : Nat := 0
  detail3 : Nat := 0
  deriving DecidableEq, Repr

/-- A refusal. -/
def refuse (reason step : Nat) (handle : Nat := 0xFFFF) (detail : Nat := 0) (detail2 : Nat := 0) (detail3 : Nat := 0) : Resp :=
  { status := 1, reason := reason, step := step, handle := handle, detail := detail, detail2 := detail2, detail3 := detail3 }

/-- The bytes of a response. -/
def respBytes (s : State) (n : Nat) (r : Resp) : List Byte :=
  leN 1 (s.mboxCmd n) ++ leN 1 r.status ++ leN 2 (s.mboxTag n) ++ leN 1 r.reason ++ leN 1 r.step ++ leN 2 r.handle ++ leN 8 r.detail ++
    leN 4 r.detail2 ++ leN 4 r.detail3 ++ le64 s.now

/-- R254: a request completes: its response is written, done is set, and MBOX_DONE is raised. -/
def respond (s : State) (n : Nat) (r : Resp) : State :=
  let b := s.respBytes n r
  let s := (List.range 8).foldl (fun s w => s.setReg (rid .admMboxResp n w) ((leWord b w).setWidth 64)) s
  let s := (s.put (rid .admMboxStat n) 0 1 0).put (rid .admMboxStat n) 1 1 1
  s.raise 0x0927 7 n r.handle (s.mboxTag n) 0

/-! ### Programs -/

/-- The admitted program that a handle names (R256). -/
def ofHandle (s : State) (h : Nat) : Option Nat :=
  let p := h % 64
  if s.admitted p ∧ s.handle p = h then some p else none

/-- Programs with a `prog_id`. -/
def withProgId (s : State) (x : Nat) : List Nat := s.admittedList.filter fun p => decide (s.get (rid .admProgId p) 0 32 = x)

/-- A program marked to leave by an UNLOAD (R255). -/
def leaving (s : State) (p : Nat) : Bool := bit (s.reg (rid .admProgA p)) 2

/-- R347: whether programs are struck shows in QM_DH_STAT. -/
def showStruck (s : State) : State :=
  s.put (rid .qmDhStat) 0 1 (if s.admittedList.any fun p => decide (s.progState p = 3) then 1 else 0)

/-- R132: a flit that is sent at a program's fence is discarded where it is backlogged; one under way lands. -/
def flitStays (p : Nat) (f : Flit) : Bool := decide (f.prog ≠ some p ∨ f.lateUp + f.lateDn = 0)

/-- What a program has in flight is discarded: flag operations, engine commands, streams, the flits that wait at their ports and those that
are backlogged (R132). -/
def dropWork (s : State) (p : Nat) : State :=
  let f := s.flags
  let s := { s with flags := { f with hub := f.hub.filter (fun o => decide (o.prog ≠ p)), hubWaits := f.hubWaits.filter (fun o => decide (o.prog ≠ p))
                                      localSets := f.localSets.filter fun o => decide (o.2.2.2.1 ≠ p) } }
  let s := (s.strm.ticks.filter fun t => decide (t.prog = p)).foldl leaveChan s
  let s := { s with fabric := { s.fabric with flits := s.fabric.flits.filter (flitStays p)
                                              waiting := s.fabric.waiting.filter fun f => decide (f.prog ≠ some p) } }
  let s := (List.range 8).foldl (fun s c =>
    (s.setHrReqs c ((s.hrReqs c).filter fun r => decide (r.prog ≠ some p))).setHrRetries c
      ((s.hrRetries c).filter fun r => decide (r.prog ≠ some p))) s
  s.onYards p fun s m y =>
    let s := s.stopYard p 0 m y
    s.setYard m y { s.yard m y with parts := (s.yard m y).parts.filter fun w => decide (w.prog ≠ some p) }

/-- The request line of a descriptor that fills source `n`, where one has begun. -/
def linesOf (s : State) (n : Nat) : List Nat :=
  (List.range 110).filter fun r => let d := (s.pctx r).desc; !d.isEmpty && srcSided d && decide (dSrc d = n)

/-- R281: the source table entry of a leaving program's input is cleared; disc stands, and a capture in hand ends. -/
def clearSource (s : State) (n : Nat) : State :=
  let s := (s.linesOf n).foldl abortDesc s
  let s := (s.setReg (sreg .strmSrcBase0 n) 0).setReg (sreg .strmSrcBase1 n) 0
  let s := (List.range 3).foldl (fun s k => s.setReg (sreg .strmSrcDim n k) 0) s
  s.setReg (srcCtl n) (s.reg (srcCtl n) &&& 0xFFFF0000)

/-- The tensors of a program with their tids. -/
def tensorsOf (s : State) (p : Nat) : List (Nat × Tensor) := (s.prog p).box.tensors.mapIdx fun i t => (i, t)

/-- The function table slot registers of a yard. -/
def clearTable (s : State) (m y t : Nat) : State :=
  ((((s.setReg (yreg .vuFtabMode m y t) 0).setReg (yreg .vuFtabLo m y t) 0).setReg (yreg .vuFtabRinv m y t) 0).setReg
    (yreg .vuFtabBelow m y t) 0).setReg (yreg .vuFtabAbove m y t) 0

/-- The context and wheel positions of a program on its masts are free again (R236). -/
def clearContexts (s : State) (p : Nat) : State :=
  let pl := (s.prog p).place
  pl.slots.foldl (fun s q =>
    let s := s.setReg (mreg .ccCtxAlloc q.1 q.2) 0
    pl.positions.foldl (fun s w => s.put (mreg .ccWheel q.1) (4 * w) 4 0) s) s

/-! ### Inputs bound to outputs (R465) -/

/-- The admitted program that produces a bound input, as long as it stays admitted. -/
def producerOf (s : State) (i : InputSt) : Option (Nat × Nat) :=
  match i.producer with
  | some (h, t) => (s.ofHandle h.toNat).map fun p => (p, t)
  | none => none

/-- The inputs of a program that outputs fill. -/
def outputInputs (s : State) (p : Nat) : List Nat :=
  ((s.tensorsOf p).filter fun q => decide (q.2.kind = 1) && (s.input ⟨p, q.1⟩).producer.isSome).map (·.1)

/-- The age of a bound input at the start of a tick. -/
def boundAge (s : State) (i : InputSt) : InputSt :=
  match s.producerOf i with
  | some (p, _) =>
    if (s.prog p).store.fresh then { i with age := 0, flipped := true }
    else if i.flipped ∧ i.age ≠ 0xFFFF then { i with age := i.age + 1 } else i
  | none =>
    if i.last then { i with age := 0, flipped := true, last := false }
    else if i.flipped ∧ i.age ≠ 0xFFFF then { i with age := i.age + 1 } else i

/-- The latched half of an output. -/
def latchedHalf (s : State) (p tid : Nat) : View :=
  let g := s.prog p
  g.placed ⟨tid, 0⟩ (g.standing tid (if SMap.get false g.store.committed tid then 1 else 0))

/-- The rows of a tensor: address and length. -/
def rowSpans (v : View) : List (Nat × Nat) := (List.range v.t.rows).map fun r => (v.rowAddr r, v.t.rowBytes)
def spanBytes (s : State) (rs : List (Nat × Nat)) : List Byte := rs.flatMap fun r => s.bytes r.1 r.2

/-- The rows that a copy of the latched half writes into the input: address and bytes. -/
def copyRows (v : View) (bs : List Byte) : List (Nat × List Byte) :=
  (rowSpans v).mapIdx fun i r => (r.1, (bs.drop (i * r.2)).take r.2)

/-- The half digest of an input that holds a copy (R435). -/
def copyDigest (s : State) (p tid : Nat) (v : View) (bs : List Byte) : State :=
  if (s.prog p).prov then s.setInput ⟨p, tid⟩ { s.input ⟨p, tid⟩ with digest := sha384 (v.t.toStore bs) } else s

/-- The latched half goes into the input at once: what a producer that leaves has committed last (log entry 26). -/
def copyInput (s : State) (p tid : Nat) : State :=
  match s.producerOf (s.input ⟨p, tid⟩) with
  | some (q, t) =>
    if !(s.input ⟨p, tid⟩).flipped then s
    else
      let v := (s.prog p).view ⟨tid, 0⟩ false
      let bs := s.spanBytes (rowSpans (s.latchedHalf q t))
      ((copyRows v bs).foldl (fun s r => s.store r.1 r.2) s).copyDigest p tid v bs
  | none => s

/-- R465: the tick-class copy of the latched half into the input of program `p` starts. -/
def startCopyIn (s : State) (p tid : Nat) : State :=
  match s.producerOf (s.input ⟨p, tid⟩) with
  | some (q, t) =>
    if !(s.input ⟨p, tid⟩).flipped then s
    else
      let v := (s.prog p).view ⟨tid, 0⟩ false
      let src := s.latchedHalf q t
      let reads := rowSpans src
      let bs := s.spanBytes reads
      let rows := copyRows v bs
      let seq := (s.ctx p).seq
      let rd := (viewBlocks src).map fun k => s.nameRead (k, false)
      let (s, wr) := s.nameWrites p 0 seq (fun _ => []) (viewBlocks v)
      let s := (s.setCtx p { s.ctx p with seq := seq + 1 }).copyDigest p tid v bs
      let e := s.strmEngine p reads rows
      let tap := (s.prog p).prov
      let bits := typeBits v.t.type
      let tick : TickStrm := { id := s.newStream, prog := p, seq := seq, engine := e, chan := s.freeChan e, flag := none, copy := some tid, tap := tap
                               reads := [], out := rows.flatMap fun r => lineSplit r.1 r.2, tags := ⟨rd, wr⟩, esize := bits }
      let v0 := (Config.freeValue s.free).toNat
      s.takeFree.beginStrm tick (tickDesc bits 0 0 (v0 / 256 % 1024) (if tap then v0 % 256 else 0) true tap (rowPattern src 0) (rowPattern v 0) ⟨rd, wr⟩) reads
  | none => s

/-- A producer leaves: what it has committed last stays in the inputs that it fills. -/
def leaveBound (s : State) (p : Nat) : State :=
  s.admittedList.foldl (fun s q => (s.outputInputs q).foldl (fun s t =>
    let i := s.input ⟨q, t⟩
    if (s.producerOf i).map (·.1) ≠ some p ∨ q = p then s
    else
      let fresh := (s.prog p).store.fresh
      (s.setInput ⟨q, t⟩ { i with flipped := i.flipped || fresh, last := fresh }).copyInput q t) s) s

/-- What a program reserved is released (R118, R171, R236, R281, R337), and its number is empty. -/
def release (s : State) (p : Nat) : State :=
  let pl := (s.prog p).place
  let s := (s.leaveBound p).dropWork p
  let s := pl.localFlags.foldl (fun s e => s.setReg (mreg .flagLocal e.2.1 e.2.2) 0) s
  let s := (declaredBlocks (s.prog p).box pl).foldl (fun s k => s.setReg (blockReg k) 0) s
  let s := pl.tables.foldl (fun s t => s.clearTable (t.1 / 8) (t.1 % 8) t.2.2) s
  let s := ((s.tensorsOf p).filter fun q => decide (q.2.kind = 1 ∧ q.2.bind < 256)).foldl (fun s q => s.clearSource q.2.bind) s
  let s := s.clearContexts p
  let s := (List.range 64).foldl (fun s h => s.setReg (rid .qmRbind p h) 0) s
  let s := [RegName.admProgA, .admProgId, .admProgPh, .admProgEnd, .admProgPwr, .admProgFirst].foldl (fun s n => s.setReg (rid n p) 0) s
  (s.setProg p {}).showStruck

/-- R243, R258: a program loses its admission, or an UNLOAD takes effect: its event names the mailbox and the tag, where there are any. -/
def leave (s : State) (p code mbox tag : Nat) : State :=
  let h := s.handle p
  (s.release p).raise code 7 mbox h tag 0

/-- PROG_REVOKED for every program of a list. -/
def revoke (s : State) (ps : List Nat) : State := ps.foldl (fun s p => s.leave p 0x0924 0xFF 0) s

/-- Programs that use a yard, and a mast. -/
def yardUsers (s : State) (m y : Nat) : List Nat :=
  s.admittedList.filter fun p => (s.prog p).place.yards.contains (8 * m + y)
def mastUsers (s : State) (m : Nat) : List Nat := s.admittedList.filter fun p => (s.progMasts p).contains m

end State
end Sys2Proof.Machine
end

