-- ==== Sys2Proof/Machine/Domains.lean ====
section
/-! DEFINITION. Switched domains, shedding and units out of service (R103, R104, R408 to R420, R427, R428), and HyperRAM channels that
are brought up and put to sleep (R360, R370, R373). -/

namespace Sys2Proof.Machine
namespace State

/-! ### STATUS (R428, Table 15.8) -/

/-- The processor is held halted. -/
def fwHalted (s : State) (p : Nat) : Bool := decide (s.get (rid .pwrFw p) 0 2 = 2)

/-- A unit is out of service. -/
def anyOut (s : State) : Bool :=
  decide (s.reg (rid .pwrInsvc) ≠ resetVal s.part (rid .pwrInsvc)) || !s.power.out.isEmpty

/-- The code on STATUS[5:0] while the part runs. -/
def runCode (s : State) : Nat :=
  if s.fwHalted 0 then 0x35
  else if s.fwHalted 1 then 0x32
  else if s.fwHalted 2 then 0x33
  else if (List.range 7).any fun m => s.fwHalted (3 + m) then 0x34
  else if !s.power.shed.isEmpty then 0x36
  else if s.anyOut then 0x30
  else 0

/-- Table 14.5, Table 15.8: STATUS_VALID goes with a final code. -/
def codeValid (c : Nat) : Bool := decide (c = 0 ∨ c = 0x13 ∨ c = 0x19 ∨ c = 0x1A ∨ 0x20 ≤ c)

/-- R384: a code on STATUS[5:0], in PWR_STATE and in SEC_STATUS. -/
def showCode (s : State) (c : Nat) : State :=
  ((s.put (rid .pwrState) 8 8 c).put (rid .secStatus) 0 6 c).put (rid .secStatus) 6 1 (if codeValid c then 1 else 0)
def statusCode (s : State) : Nat := s.get (rid .pwrState) 8 8

/-- PWR_STATE follows the emergency, shedding, the supply ball and, while the part runs, the STATUS code. -/
def showPower (s : State) : State :=
  let b := fun (x : Bool) => if x then 1 else 0
  let s := ((s.put (rid .pwrState) 4 1 (b s.emergency)).put (rid .pwrState) 5 1 (b !s.power.shed.isEmpty)).put (rid .pwrState) 6 1
    (s.get (rid .pwrSupply) 0 1)
  if s.power.life = .running then s.showCode s.runCode else s

/-! ### Domains -/

/-- Domain numbers of Table 15.1. -/
def domLogic (m y : Nat) : Nat := 20 * m + y
def domSram (m y : Nat) : Nat := 20 * m + 8 + y

/-- A retention bit as it stands. -/
def domRet (s : State) (d : Nat) : Bool := bit (s.reg (rid .pwrDomRet (d / 32))) (d % 32)

/-- Domains go off. -/
def domsOff (s : State) (ds : List Nat) : State := ds.foldl (fun s d => s.setDom d false) s

/-- R117: a yard SRAM that powers on from off is filled with zero, in 4,096 cycles that YARD_INIT shows; during a boot the fill is part of
it. -/
def fillYard (s : State) (m y : Nat) : State :=
  let s := s.zeroFill (yardAddr m y 0) 0x800000
  if s.power.life = .running then
    (s.setYard m y { s.yard m y with initUntil := some (s.afterCycles 4096) }).put (yreg .yardInit m y) 1 2 1
  else s.put (yreg .yardInit m y) 2 1 1

/-- The domains that faults keep off: those of yards and masts out of service and of channels out of service. -/
def domBarred (s : State) (d : Nat) : Bool :=
  if d < 140 then
    let m := d / 20
    let k := d % 20
    if k < 16 then !s.yardIn m (k % 8) else if k = 18 then !s.mastIn m else decide (s.part.masts ≤ m)
  else if 145 ≤ d ∧ d < 153 then SMap.get false s.power.out (64 + (d - 145)) || decide (s.part.hrChannels ≤ d - 145)
  else false

/-- The yard SRAM of a domain number. -/
def sramOf (d : Nat) : Option (Nat × Nat) := if d < 140 ∧ 8 ≤ d % 20 ∧ d % 20 < 16 then some (d / 20, d % 20 - 8) else none

/-- R410, R117, R420: domain `d` comes to where the rig puts it: `en`, unless a fault bars it; an SRAM from off is filled. -/
def bringDom (s : State) (d : Nat) (en kept : Bool) : State :=
  let on := en && !s.domBarred d
  let s := if on && !kept then (match sramOf d with | some (m, y) => s.fillYard m y | none => s) else s
  s.setDom d on

/-- PWR_DOM_EN, PWR_DOM_RET and PWR_DOM_ON take the bitmaps of a rig. -/
def applyDoms (s : State) (rig : List Byte) : State :=
  (List.range 163).foldl (fun s d =>
    let kept := s.domOn d || s.domRet d
    let b := fun (x : Bool) => if x then 1 else 0
    let s := (s.put (rid .pwrDomEn (d / 32)) (d % 32) 1 (b (rigDom rig d))).put (rid .pwrDomRet (d / 32)) (d % 32) 1 (b (rigRet rig d))
    s.bringDom d (rigDom rig d) kept) s

/-- R410: the domains that one switcher switches, in the order in which they come up: those of mast `m`, or the Stay die's for 7. -/
def domOrder (m : Nat) : List Nat :=
  if m < 7 then [20 * m + 19, 20 * m + 18, 20 * m + 16, 20 * m + 17] ++ (List.range 8).flatMap fun y => [domSram m y, domLogic m y]
  else (List.range 23).map (140 + ·)

/-- R410: how long switcher `m` takes to bring the domains of a rig up: 2 µs for each that goes off, 40 µs for each that comes on, 10 µs
for a yard SRAM that leaves retention; an SRAM from off is then filled in 4,096 cycles of operating point `op` (R117). -/
def switchNs (s : State) (op : Nat) (rig : List Byte) (m : Nat) : Nat :=
  let ds := domOrder m
  let off := 2000 * ds.countP fun d => s.domOn d && !rigDom rig d
  let r := ds.foldl (fun (q : Nat × Nat) d =>
    if !rigDom rig d || s.domOn d || s.domBarred d then q
    else
      let kept := (sramOf d).isSome && s.domRet d
      let t := q.1 + (if kept then 10000 else 40000)
      (t, max q.2 (if (sramOf d).isSome && !kept then t + nsOf op 4096 else t))) (off, off)
  r.2

/-- R240: how long the domains of a rig take to come up, the switchers side by side. -/
def settleNs (s : State) (op : Nat) (rig : List Byte) : Nat := (List.range 8).foldl (fun n m => max n (s.switchNs op rig m)) 0

/-! ### Shedding (R418 to R420) -/

/-- The domains of a mast except its supervisor. -/
def mastDoms (m : Nat) : List Nat := (List.range 19).map fun k => 20 * m + k

/-- R419: an entry names something still in force; a program that an UNLOAD removes at this step is gone already (R258). -/
def entryInForce (s : State) (e : List Byte) : Bool :=
  let m := leAt e 1 1
  let u := leAt e 2 1
  match leAt e 0 1 with
  | 0 => (s.withProgId (leAt e 4 4)).any fun p => !s.leaving p
  | 1 => s.yardIn m u && (s.domOn (domLogic m u) || s.domOn (domSram m u))
  | 2 => s.mastIn m && (mastDoms m).any s.domOn
  | 3 => s.domOn (153 + u) && !SMap.get false s.media.shedBlock u
  | _ => false

/-- Table 15.5: an entry is shed. -/
def shedUnit (s : State) (e : List Byte) : State :=
  let m := leAt e 1 1
  let u := leAt e 2 1
  match leAt e 0 1 with
  | 0 => s.revoke ((s.withProgId (leAt e 4 4)).filter fun p => !s.leaving p)
  | 1 => (s.revoke (s.yardUsers m u)).domsOff [domLogic m u, domSram m u]
  | 2 => (s.revoke (s.mastUsers m)).domsOff (mastDoms m)
  | _ => ({ s with media := { s.media with shedBlock := SMap.set false s.media.shedBlock u true } }).domsOff [153 + u]

/-- The first entry from `i` that names something in force. -/
def nextShed (s : State) (i : Nat) : Nat → Nat
  | 0 => i
  | n + 1 => if s.entryInForce (rigShed s.rig.cur i) then i else nextShed s (i + 1) n

/-- R418, guard step 1. -/
def sampleHot (s : State) : State :=
  let h := if s.dieHot then 1 else if bit (s.reg (rid .pwrSupply)) 0 && s.policy 2 then 2 else 0
  { s with power := { s.power with hot := h } }

/-- R418, guard step 6. -/
def shedStep (s : State) : State :=
  let ready := match s.power.lastShed with
    | none => true
    | some t => decide (t + 10000000 ≤ s.now)
  if s.power.hot = 0 || !ready then s
  else
    let count := rigShedCount s.rig.cur
    let i := s.get (rid .pwrShedStat) 0 7
    let next := s.nextShed i (count - i)
    let s := s.put (rid .pwrShedStat) 0 7 next
    if next < count then
      let s := s.shedUnit (rigShed s.rig.cur next)
      let s := s.raise (if s.power.hot = 1 then 0x0803 else 0x0804) 7 0xFF 0xFFFF next 0
      let s := (s.put (rid .pwrShedStat) 0 7 (next + 1)).put (rid .pwrShedStat) 8 2 s.power.hot
      let s := (s.bump (rid .pwrShedStat) 1 16 8).setReg (rid .pwrShedLast) s.gcnt
      { s with power := { s.power with lastShed := some s.now, shed := s.power.shed ++ [next] } }.showPower
    else if s.get (rid .pwrShedStat) 7 1 = 0 then (s.put (rid .pwrShedStat) 7 1 1).raise 0x0805 7 0xFF 0xFFFF 0 0
    else s

/-- R420: shedding ends: next, done and the count are 0 again. -/
def endShed (s : State) : State :=
  let s := (s.put (rid .pwrShedStat) 0 8 0).put (rid .pwrShedStat) 16 8 0
  ({ s with power := { s.power with shed := [], restore := true } }).showPower

/-- R420: what was shed returns to the rig in force; the MP sees to it (Table 15.7). -/
def restoreShed (s : State) : State :=
  if !s.power.restore || !s.fwRuns 1 then s
  else
    let s := { s with power := { s.power with restore := false }, media := { s.media with shedBlock := [] } }
    let s := (List.range 163).foldl (fun s d =>
      let kept := s.domOn d || s.domRet d
      s.bringDom d (bit (s.reg (rid .pwrDomEn (d / 32))) (d % 32)) kept) s
    s.showPower

/-! ### Units out of service (R103, R104, R427, R372, R133) -/

/-- A yard leaves service; its landing buffer is emptied without writing (R290). -/
def yardOut (s : State) (m y : Nat) : State :=
  let s := ((s.revoke (s.yardUsers m y)).put (rid .pwrInsvc) (8 * m + y) 1 0).domsOff [domLogic m y, domSram m y]
  s.setYard m y { s.yard m y with landing := [] }

/-- A mast leaves service, its yards, port and ratline with it. -/
def mastOut (s : State) (m : Nat) : State :=
  let s := (s.revoke (s.mastUsers m)).put (rid .pwrInsvc) (56 + m) 1 0
  let s := (List.range 8).foldl (fun s y => s.yardOut m y) s
  s.domsOff [20 * m + 18]

/-- The die on which a unit lies, and the unit field of its event. -/
def unitPlace (u : Nat) : Nat × Nat :=
  if u < 56 then (u / 8, u % 8) else if u < 63 then (u - 56, 0xFF) else (7, if 64 ≤ u ∧ u < 88 then u % 8 else 0xFF)

/-- R427: a unit of R464 leaves service. -/
def takeOut (s : State) (u : Nat) : State :=
  let s := { s with power := { s.power with outPending := s.power.outPending.filter (· ≠ u) } }
  let s := s.raise 0x0808 (unitPlace u).1 (unitPlace u).2 0xFFFF u 0
  let s := if u < 56 then s.yardOut (u / 8) (u % 8)
    else if u < 63 then s.mastOut (u - 56)
    else
      let s := { s with power := { s.power with out := SMap.set false s.power.out u true } }
      if 64 ≤ u ∧ u < 72 then ((s.revoke s.hrUsers).put (rid .hrcChCfg (u - 64)) 2 1 1).domsOff [145 + (u - 64)] else s
  s.showPower

/-- A unit is in service. -/
def unitIn (s : State) (u : Nat) : Bool :=
  if u < 56 then s.yardIn (u / 8) (u % 8) else if u < 63 then s.mastIn (u - 56) else !SMap.get false s.power.out u

/-! ### HyperRAM channels brought up and asleep (R360, R370, R373) -/

/-- R370: the MP brings a channel up. What its devices identify as and how their strobes pass is not the spec's: a free value says
whether they fail identification, fail training, or pass, and with which taps (log entry 8). -/
def hrTrain (s : State) (c : Nat) (density : Nat) : State :=
  let v := (Config.freeValue s.free).toNat
  let s := s.takeFree
  if v % 16 = 0 then s.raise 0x050F 7 c 0xFFFF 0 s.t48
  else if v % 16 = 1 then (s.raise 0x050F 7 c 0xFFFF 0 s.t48).hrDown c
  else
    let s := ((s.put (rid .hrcChCfg c) 0 1 density).put (rid .hrcChTrain c) 0 6 (v / 16 % 64)).put (rid .hrcChTrain c) 8 6 (v / 1024 % 64)
    s.put (rid .hrcStatus) c 1 1

/-- R373: the devices of every channel that serves go into hybrid sleep. -/
def hrSleep (s : State) : State :=
  (List.range 8).foldl (fun s c =>
    if bit (s.reg (rid .hrcStatus)) c then (s.put (rid .hrcStatus) c 1 0).put (rid .hrcStatus) (16 + c) 1 1 else s) s

/-- R373: the devices wake; each channel recalibrates once, and is then ready. -/
def hrWake (s : State) : State :=
  (List.range 8).foldl (fun s c =>
    if bit (s.reg (rid .hrcStatus)) (16 + c) then
      ((s.put (rid .hrcStatus) (16 + c) 1 0).put (rid .hrcStatus) c 1 1).recalibrate c
    else s) s

/-- R414: the listen set of domains. -/
def inListenSet (d : Nat) : Bool :=
  [0, 8, 16, 17, 18, 19, 39, 59, 79, 99, 119, 139, 140, 141, 142, 143, 144, 158, 160, 161, 162].contains d

/-- R414: the conditions of a listen rig but its budget. -/
def listenShape (rig : List Byte) : Bool :=
  decide (rigOp rig = 2) && decide (leAt (rigSect rig 3) 0 1 = 0) &&
    (List.range 163).all fun d => !rigDom rig d || inListenSet d

/-- R414: a listen rig. -/
def isListen (rig : List Byte) : Bool := listenShape rig && decide (rigBudget rig ≤ 2000)

end State

/-- The host writes PWR_SHED_CLR (R420, R430): a write during an emergency is discarded. -/
def execPwrShedClr (s : State) : Host.Outcome State Fault Refusal :=
  .next (s.viaHost fun s => if s.emergency then s else s.endShed.restoreShed)

/-- The MP takes a unit out of service at step 6 of a guard, or while no guard occurs (R104, R427). -/
def execUnitOut (unit : Nat) (s : State) : Host.Outcome State Fault Refusal :=
  .next (if s.power.outPending.contains unit && s.unitIn unit && s.fwRuns 1 && s.atStep6 then s.takeOut unit else s)

end Sys2Proof.Machine
end

