-- ==== Sys2Proof/Machine/Commit.lean ====
section
/-! DEFINITION. What a guard does to programs (R35 to R39, R51 to R53, R77 to R79, R431 to R437): the fence, the flips, the digests, the
status, and the commit point. -/

namespace Sys2Proof.Machine
namespace State

/-- The programs that run in the tick. -/
def running (s : State) : List Nat := s.admittedList.filter fun p => (s.ctx p).active

/-! ### Step 1: the fence (R35, R51, R101, R132, R231) -/

/-- A program that has not reached tick.end overruns: its work is aborted. -/
def overrun (s : State) (p : Nat) : State :=
  let s := (s.squashAll p).dropWork p
  let c := s.ctx p
  let s := s.setCtx p { c with dels := [], wait := none, stalled := none, blocked := none, resumeAt := none, strms := 0, run := .idle }
  ((s.setCond p 3).bump (rid .tickOvrCount)).raise 0x0101 7 0xFF (s.handle p) 0 s.t48

/-- R101: the sails of a yard at the fence: a run issues nothing more, a load stops, and a set loading or in SPEC becomes EMPTY. -/
def stopSails (s : State) (m y : Nat) : State :=
  (List.range 4).foldl (fun s n => (s.squashSail m y n 0).setSail m y n { (s.squashSail m y n 0).sail m y n with run := none }) s

/-- The fence for one program: a wait that has expired times out first. -/
def fenceProg (s : State) (p : Nat) : State :=
  let s := match (s.ctx p).wait with
    | some w => if w.grant.isNone ∧ w.expiry ≤ s.now then s.expireWait p w else s
    | none => s
  let s := if s.reachedEnd p then s.setCtx p { s.ctx p with run := .idle } else s.overrun p
  s.onYards p stopSails

/-- The fence. -/
def fence (s : State) : State := s.running.foldl fenceProg s

/-! ### Step 2: the flip (R37, R38) -/

/-- One input that a capture fills. -/
def flipInput (i : InputSt) : InputSt :=
  if i.complete then { i with live := !i.live, complete := false, age := 0, digest := i.shadowDigest, shadowDigest := [], flipped := true }
  else if i.flipped ∧ i.age ≠ 0xFFFF then { i with age := i.age + 1 }
  else i

/-- The inputs of a program that captures fill. -/
def captureInputs (s : State) (p : Nat) : List Nat :=
  ((s.tensorsOf p).filter fun q => decide (q.2.kind = 1) && (s.input ⟨p, q.1⟩).producer.isNone).map (·.1)

/-- The flip of every admitted program's inputs, and its record in PCTX for the lines that fill them. -/
def flipAll (s : State) : State :=
  s.admittedList.foldl (fun s p => (s.captureInputs p).foldl (fun s t => s.setInput ⟨p, t⟩ (flipInput (s.input ⟨p, t⟩))) s) s

/-! ### Step 3: digests (R435 to R437) -/

/-- R436: the input digest of a program in the tick, with what its taps have added (R196, log entry 89). -/
def inputDigest (s : State) (p : Nat) : List Byte :=
  let ts := (s.tensorsOf p).filter fun q => decide (q.2.kind = 1)
  let d := sha384 (ts.flatMap fun q =>
    let i := s.input ⟨p, q.1⟩
    leN 2 q.1 ++ leN 2 i.age.toNat ++ List.replicate 4 0 ++ (if i.digest.isEmpty then sha384 [] else i.digest))
  if (s.prog p).tapBytes.isEmpty then d else Config.foldTap d (s.prog p).tapBytes

/-- R437: the provenance digest of head `h`. -/
def provDigest (s : State) (p h : Nat) (inputs : List Byte) : List Byte :=
  let g := s.prog p
  sha384 ([0x50, 0x52, 0x4F, 0x56, 1, 0] ++ leN 1 h ++ leN 1 s.opPoint ++ g.box.digestP ++ g.box.digestW ++ inputs ++ leN 8 s.t48 ++
    rigDigest s.rig.cur ++ leN 4 g.tpVer.toNat ++ List.replicate 4 0)

/-- The input digests of the tick, taken before the flip. -/
def inputDigests (s : State) : List (Nat × List Byte) :=
  (s.running.filter fun p => (s.prog p).prov).map fun p => (p, s.inputDigest p)

/-! ### Step 4: status (R79, R431, R432) -/

/-- The saturating sum of a counter over the program's yards. -/
def counterSum (s : State) (p slot : Nat) (n : RegName) : Nat :=
  min ((s.yardsOf p).foldl (fun k q => k + s.get (yreg n q.1 q.2 slot) 0 32) 0) 0xFFFFFFFF

/-- R79: one counted tensor against its limits; the first of the tick is latched into ADM_SATn. -/
def satLimit (s : State) (p tid slot : Nat) (first : Bool) : State × Bool :=
  let t := (s.prog p).tensor tid
  let a := s.counterSum p slot .boomCntSat
  let b := s.counterSum p slot .boomCntRtz
  let x := (if t.satLimit.toNat < a then 1 else 0) + (if t.rtzLimit.toNat < b then 2 else 0)
  if x = 0 then (s, first)
  else
    let s := if !first then s
      else ((s.setReg (rid .admSatSat p) (BitVec.ofNat 64 a)).setReg (rid .admSatRtz p) (BitVec.ofNat 64 b)).setReg (rid .admSatSlot p)
        (BitVec.ofNat 64 (slot + 512 * x))
    ((s.setCond p 2).raise 0x0202 (s.firstMast p) 0xFF (s.handle p) slot (s.t48 + x * 2 ^ 48), false)

/-- The counted tensors of a program in ascending counter slot. -/
def countedTensors (s : State) (p : Nat) : List (Nat × Nat) :=
  (List.range 512).flatMap fun slot => ((s.prog p).place.counters.filter fun e => decide (e.2 = slot)).eraseDups

/-- R79: a program that neither overran nor faulted is compared. -/
def satLimits (s : State) (p : Nat) : State :=
  if (s.ctx p).conds.getLsbD 3 || (s.ctx p).conds.getLsbD 4 then s
  else ((s.countedTensors p).foldl (fun (q : State × Bool) e => q.1.satLimit p e.1 e.2 q.2) (s, true)).1

/-- A program's status is fixed: its outcome for the next tick (Table 7.11), and its late cycles (R220). -/
def fixStatus (s : State) (p : Nat) : State :=
  let s := if s.tick.supply then s.setCond p 1 else s
  let s := s.satLimits p
  let c := s.ctx p
  let st := statusOf c.conds
  let s := s.setCtx p { c with outcome := if st = 4 then 1 else if st = 5 then 2 else 0 }
  (s.prog p).place.slots.foldl (fun s q => s.put (mreg .ccCtxLate q.1 q.2) 0 27 (min c.late (2 ^ 27 - 1))) s

/-! ### Step 5: the commit point (R39, R53, R338) -/

/-- The output heads of a program with their tids, ascending. -/
def headsOf (s : State) (p : Nat) : List (Nat × Nat) :=
  (List.range 64).flatMap fun h => ((s.tensorsOf p).filter fun q => decide (q.2.kind = 2 ∧ q.2.bind = h)).map fun q => (h, q.1)

/-- A tensor's storage as the half that the program has written holds it. -/
def tensorBytes (s : State) (p tid : Nat) : List Byte :=
  let v := (s.prog p).view ⟨tid, 0⟩ true
  v.t.toStore ((List.range v.t.rows).flatMap fun r => s.bytes (v.rowAddr r) v.t.rowBytes)

/-- The results of a program, one for each head. -/
def resultsOf (s : State) (p : Nat) (digests : List (Nat × List Byte)) : List Result :=
  let g := s.prog p
  let c := s.ctx p
  let st := statusOf c.conds
  (s.headsOf p).map fun h =>
    { prog := p, head := h.1, status := st, handle := BitVec.ofNat 16 (s.handle p), progId := BitVec.ofNat 32 (s.get (rid .admProgId p) 0 32)
      t48 := BitVec.ofNat 48 s.t48, late := c.late, phase := s.t48 % max 1 g.box.phases, conds := c.conds
      payload := if commits st then s.tensorBytes p h.2 else []
      digest := if !commits st then none else (digests.find? fun e => decide (e.1 = p)).map fun e => s.provDigest p h.1 e.2
      bind := BitVec.ofNat 16 (s.get (rid .qmRbind p h.1) 0 16) }

/-- R113, R115: the words of a program's results are read as they are handed off. -/
def readResults (s : State) (p : Nat) : State :=
  if !commits (statusOf (s.ctx p).conds) then s
  else (s.headsOf p).foldl (fun s h =>
    (rowSpans ((s.prog p).view ⟨h.2, 0⟩ true)).foldl (fun s r => s.readCheck r.1 r.2 (s.handle p) 15) s) s

/-- R39: hand-off order: ascending lowest mast, then program slot. -/
def handOff (s : State) (ps : List Nat) : List Nat :=
  (List.range 7).flatMap fun m => (List.range 8).flatMap fun k =>
    ps.filter fun p => decide (s.firstMast p = m ∧ s.slotOn p m = k)

/-- R53, R465: the halves a program has written become the committed ones. -/
def commitProg (s : State) (p : Nat) : State :=
  let g := s.prog p
  let ok := commits (statusOf (s.ctx p).conds)
  let tids := if !ok then [] else
    ((s.tensorsOf p).filter fun q => decide (q.2.kind = 4) || g.paired q.1).map (·.1)
  let done := tids.foldl (fun m t => SMap.set false m t (!SMap.get false m t)) g.store.committed
  s.setProg p { g with store := { g.store with committed := done, fresh := ok } }

/-- R317: the rows of bound heads of valid ticks enter the timed-output queue. -/
def toqResult (s : State) (r : Result) : State :=
  let bound := (s.media_ 10).any fun b => decide (leAt b 0 4 = r.progId.toNat ∧ leAt b 4 1 = r.head)
  if bound && commits r.status then s.toqRows r.payload else s

/-- The commit point of the tick. -/
def commitPoint (s : State) (digests : List (Nat × List Byte)) : State :=
  let order := s.handOff s.running
  let res := order.flatMap fun p => s.resultsOf p digests
  let s := order.foldl commitProg (order.foldl readResults s)
  let s := { s with queue := { s.queue with results := s.queue.results ++ res } }
  (res.foldl toqResult s).toqSupplied

/-! ### Step 6 beside the deferred actions -/

/-- R208: the supervisor rewrites the instruction memory of a program that met an uncorrectable word. -/
def rewriteImem (s : State) (p : Nat) : State :=
  let g := s.prog p
  if g.imemEcc.any (fun e => decide (e.2 = 2)) && g.ctx.conds.getLsbD 4 && (s.progMasts p).all fun m => s.fwRuns (3 + m) then
    s.setProg p { g with imemEcc := [] }
  else s

/-- R30: a mast whose copy of the counter differed at the tick's start reloads it. -/
def reloadCopies (s : State) : State :=
  { s with tick := { s.tick with mastOff := s.tick.skewed.foldl (fun d m => SMap.set 0 d m 0) s.tick.mastOff, skewed := [] } }

/-- Timed outputs are armed, an entry may be shed, the hub rewrites its flags after a parity error, copies and instruction memory are
put right. -/
def armStep (s : State) : State :=
  let s := s.running.foldl rewriteImem s
  (s.shedStep.rewriteFlags.reloadCopies).toqShow

/-! ### The steps at their offsets (R35, Table 2.1) -/

/-- The guard starts: step 1. -/
def guardFence (s : State) : State :=
  let s := s.fence.sampleHot
  { s with tick := { s.tick with phase := .guard, guardAt := s.now, stage := 0 }
           gpio := { s.gpio with atGuard := (s.reg (rid .gpioIn)).setWidth 32 } }

/-- Steps 2 and 3, at 200 ns: the digests of the tick are of the halves that its programs read. -/
def guardFlip (s : State) : State :=
  let s := { s with tick := { s.tick with stage := 1, digests := s.inputDigests } }
  (s.deliverEdges s.tick.guardAt).flipAll

/-- Steps 4 to 6, at 700 ns: the programs run no more in the tick. -/
def guardCommit (s : State) : State :=
  let s := ((s.running.foldl fixStatus s).commitPoint s.tick.digests).armStep
  let s := s.running.foldl (fun s p => s.setCtx p { s.ctx p with active := false }) s
  { s with tick := { s.tick with stage := 2, digests := [] } }

/-- Step 7, at 900 ns. -/
def guardRecal (s : State) : State := { s with tick := { s.tick with stage := 3 } }.recalStep

/-- The next step of the guard, once its offset has come. -/
def guardStep (s : State) : State :=
  if s.tick.phase ≠ .guard then s
  else if s.tick.stage = 0 then (if s.tick.guardAt + 200 ≤ s.now then s.guardFlip else s)
  else if s.tick.stage = 1 then (if s.tick.guardAt + 700 ≤ s.now then s.guardCommit else s)
  else if s.tick.stage = 2 then (if s.tick.guardAt + 900 ≤ s.now then s.guardRecal else s)
  else s

end State
end Sys2Proof.Machine
end

