-- ==== Sys2Proof/Machine/TickGen.lean ====
section
/-! DEFINITION. The timebase and the tick generator (R27 to R57): tick starts and guards, TICK_IN, run, TICK_OUT, frame sync and the
counter's capture. -/

namespace Sys2Proof.Machine
namespace State

/-! ### The tick value (R44, R45, R57) -/

/-- The tick value of the next tick. -/
def nextT48 (s : State) : Nat :=
  if !s.tick.begun then s.get (rid .tickNumBase) 0 48 else min (s.t48 + 1) (2 ^ 48 - 1)

/-- The tick value advances; at its largest value it stops, with TICK_NUM_SATURATED. -/
def advanceT48 (s : State) : State :=
  let stops := s.tick.begun && decide (s.t48 = 2 ^ 48 - 1)
  let s := (s.put (rid .tickNum) 0 48 s.nextT48)
  let s := { s with tick := { s.tick with begun := true } }
  if stops && !bit (s.reg (rid .tickStatus)) 4 then (s.put (rid .tickStatus) 4 1 1).raise 0x0107 7 0xFF 0xFFFF 0 s.t48 else s

/-! ### What a tick start resets -/

/-- What is raised, counted or named once per tick starts afresh (R109, R119, R115, R129, R131, R136, R279, R280, R297, R313, R317, R336). -/
def clearOnce (s : State) : State :=
  let yard (v : YardSt) : YardSt :=
    { v with access := [], started := [], fills := [], joins := [], marks := [], trips := [], parts := v.parts.map (fun w => { w with due := 0 }), onceConflict := false, conflictAt := none, onceTrip := false, onceUe := false, sails := v.sails.map fun e => (e.1, { e.2 with hazTick := false }) }
  let pctx (v : PctxSt) : PctxSt := { v with onceDrop := false }
  { s with
    yards := (s.yards.map fun e => (e.1, yard e.2)).filter fun e => decide (e.2 ≠ {})
    strm := { s.strm with onceCq := [], pctx := (s.strm.pctx.map fun e => (e.1, pctx e.2)).filter fun e => decide (e.2 ≠ {}) }
    queue := { s.queue with onceDrop := [] }
    media := { s.media with onceCsi := [], onceUndr := [] }
    gpio := { s.gpio with onceBad := false, onceFull := false }
    fabric := { s.fabric with reframe := false, replays := [], users := [], onceExcess := [], onceRat := [] } }

/-- R213: every flag is zero, on every die and at the hub. -/
def zeroFlags (s : State) : State :=
  let s := (s.maskAll .flagLocal 0xF0000).clearAll .flagPkg
  { s with flags := { s.flags with pkg := [], hub := [], hubWaits := [], shown := [], localSets := [] } }

/-- R85, R226: both sets of the sails of a yard become EMPTY, and the live bank of every accumulator is A. -/
def freshYard (s : State) (m y : Nat) : State :=
  let s := (List.range 4).foldl (fun s n =>
    let s := ((s.putSail m y n 1 2 0).putSail m y n 3 1 1).putSail m y n 7 2 0
    s.setSail m y n { s.sail m y n with load := none, setSpec := 0, tid := [], tile := [], run := none, pipe := [], inbox := [] }) s
  let s := s.mapBooms m y fun b => { b with liveB := [], pending := [], job := none, ins := [], outs := [], pres := [] }
  s.setYard m y { s.yard m y with held := [], chain := [], unitFree := [] }

/-- R78: the counter entries of a program are zero. -/
def zeroCounters (s : State) (p : Nat) : State :=
  s.onYards p fun s m y => (s.prog p).place.counters.foldl (fun s e =>
    (s.setReg (yreg .boomCntSat m y e.2) 0).setReg (yreg .boomCntRtz m y e.2) 0) s

/-- R179: the uncommitted half of every carried tensor starts the tick as a copy of the committed one: an element that the program does
not write keeps its state (log entry 83). -/
def copyCarried (s : State) (p : Nat) : State :=
  ((s.tensorsOf p).filter fun q => decide (q.2.kind = 4)).foldl (fun s q =>
    let g := s.prog p
    let h := fun (w : Bool) => g.standing q.1 (if g.half q.1 w then 1 else 0)
    s.copyPlace p q.1 (h false) (h true)) s

/-- R185, R212, R47: a program at cycle 0: a launched one whose first tick has come issues from its first instruction, with every
register zero; its outcome is "not run" in that first tick (Table 7.11). -/
def freshProg (s : State) (p : Nat) : State :=
  let first := s.get (rid .admProgFirst p) 0 48
  let on := decide (s.progState p = 2) && decide (first ≤ s.t48)
  let c := s.ctx p
  let s := s.setCtx p { run := if on then .issuing else if s.progState p = 3 then .struck else .idle, active := on
                        outcome := if on && decide (first = s.t48) then 3 else c.outcome }
  let s := s.setProg p { s.prog p with tapBytes := [], store := { (s.prog p).store with shadow := [] } }
  if on then ((s.copyCarried p).zeroCounters p).onYards p freshYard else s.onYards p freshYard

/-! ### Counter copies (R29, R30) -/

/-- R30: mast `m` compares its copy with the tick pulse. -/
def skewCheck (s : State) (m : Nat) : State :=
  if !s.mastIn m || !SMap.get false s.tick.aligned m || decide (SMap.get 0 s.tick.mastOff m = 0) then s
  else
    let ts := s.recent (SMap.get [] s.flags.skewTimes m) 60000000000 ++ [s.now]
    let s := { s with flags := { s.flags with skewTimes := SMap.set [] s.flags.skewTimes m ts } }
    let s := { s with tick := { s.tick with skewed := s.tick.skewed ++ [m] } }
  let s := (s.put (rid .gcntStatus) (1 + m) 1 1).raise 0x0105 m 0xFF 0xFFFF 0 s.t48
    let s := s.unitFaults (s.mastUsers m)
    if 3 ≤ ts.length then s.askOut (56 + m) else s

/-! ### Inputs bound to outputs (R465) -/

/-- R465 for every admitted program: ages follow the producers; for the programs that run the copies start. -/
def boundInputs (s : State) : State :=
  let s := s.admittedList.foldl (fun s p =>
    let ts := s.outputInputs p
    let s := ts.foldl (fun s t => s.setInput ⟨p, t⟩ (s.boundAge (s.input ⟨p, t⟩))) s
    if (s.ctx p).active then ts.foldl (fun s t => s.startCopyIn p t) s else s) s
  s.admittedList.foldl (fun s p =>
    let g := s.prog p
    s.setProg p { g with store := { g.store with fresh := false } }) s

/-! ### Links (R133) -/

/-- Retrained links resume; while one is down the programs that use it fault. -/
def linksAtTick (s : State) : State :=
  let up := (List.range 8).filter fun p => SMap.get false s.fabric.retrained p
  let s := up.foldl (fun s p =>
    let s := { s with fabric := { s.fabric with down := SMap.set false s.fabric.down p false, retrained := SMap.set false s.fabric.retrained p false } }
    s.put (rid .xtreeStatus) p 1 1) s
  (List.range 8).foldl (fun s p => if s.linkUp p then s else s.unitFaults (s.portUsers p)) s

/-! ### The tick start (R32) -/

/-- The generator's own registers at the start of a tick at instant `at_`. -/
def startGenerator (s : State) (at_ : Nat) : State :=
  let src := bit (s.reg (rid .tickCtrl)) 1
  let first := decide (s.tick.phase = .waiting)
  let holdover := src && bit (s.reg (rid .tickStatus)) 2
  let run := if holdover && s.tick.held && s.tick.earlySeen then s.tick.earlyRun + 1 else 0
  let s := (s.advanceT48.setReg (rid .tickLast) (BitVec.ofNat 64 at_)).put (rid .tickWork) 0 27 (cyclesOf s.opPoint (s.period - s.guardLen))
  let s := (s.put (rid .tickStatus) 1 1 (if src && (first || s.tick.accepted) then 1 else 0)).put (rid .tickStatus) 2 1 (if holdover then 1 else 0)
  { s with tick := { s.tick with
      phase := .work
      next := if src && !holdover then none else some (at_ + s.period)
      earlyRun := run, earlySeen := false, relockFrom := none, accepted := false, held := holdover, skewed := []
      supply := bit (s.reg (rid .pwrSupply)) 0
      fresh := true, trail := false } }

/-- TICK (R31, R34, R40, R45, R56): num_base only before the generator first starts. -/
def putTick (s : State) (rig : List Byte) : State :=
  let m := rigSect rig 5
  let s := (s.put (rid .tickPeriod) 0 17 (rigPeriod rig)).put (rid .tickGuard) 0 4 (leAt m 4 1)
  let s := ((s.put (rid .tickCtrl) 1 1 (leAt m 5 1)).put (rid .tickInCfg) 0 1 (leAt m 6 1)).put (rid .tickCtrl) 2 1 (leAt m 7 1)
  let s := (s.put (rid .tickOutCfg) 0 10 (leAt m 8 2)).put (rid .tickOutCfg) 10 1 (leAt m 10 1)
  if leAt m 16 8 / 2 ^ 63 = 1 ∧ !bit (s.reg (rid .tickStatus)) 5 then s.put (rid .tickNumBase) 0 48 (leAt m 16 8) else s

/-- R33: the TICK section of a rig that has come into force while ticks run takes effect at the boundary. -/
def takeTick (s : State) : State :=
  if s.tick.retick then { s.putTick s.rig.cur with tick := { (s.putTick s.rig.cur).tick with retick := false } } else s

/-- A tick starts on every mast. -/
def startTick (s : State) (at_ : Nat) : State :=
  let s := ((s.startGenerator at_).clearOnce.zeroFlags).maskAll .yardTag 0x80
  let s := s.admittedList.foldl freshProg s
  let s := (List.range 7).foldl skewCheck s
  ((s.linksAtTick.hrTickStart).boundInputs.toqArm).toqShow

/-! ### TICK_IN (R40, R41, R43) -/

/-- G/4 rounded down to whole nanoseconds. -/
def quarterGuard (s : State) : Nat := s.guardLen / 4

/-- The expected boundary E. -/
def expected (s : State) : Nat := s.tickStart + s.period

/-- An edge ends the tick: the next one starts 8 ns after it. -/
def acceptEdge (s : State) : State :=
  let held := bit (s.reg (rid .tickStatus)) 2 || s.tick.relockFrom.isSome
  let s := s.setReg (rid .tickInErr) (((BitVec.ofInt 32 ((s.now : Int) - s.expected)).setWidth 64))
  let s := { s with tick := { s.tick with next := some (s.now + 8), accepted := true, relockFrom := none } }
  if held then ({ s.put (rid .tickStatus) 2 1 0 with tick := { s.tick with earlyRun := 0 } }).raise 0x0104 7 0xFF 0xFFFF 0 s.t48 else s

/-- An edge before the window is ignored. -/
def earlyEdge (s : State) : State :=
  { s with tick := { s.tick with earlySeen := true } }.raise 0x0102 7 0xFF 0xFFFF 0 s.t48

/-- An edge on TICK_IN of the configured polarity. -/
def tickInAt (s : State) : State :=
  let startAt := (s.reg (rid .tickStartAt)).toNat
  match s.tick.phase with
  | .stopped => s
  | .waiting => if s.tick.next.isSome || decide (s.now < startAt) then s else { s with tick := { s.tick with next := some (s.now + 8) } }
  | _ =>
    if s.tick.accepted then s
    else match s.tick.relockFrom with
      | some t => if s.now < t then s.earlyEdge else s.acceptEdge
      | none =>
        if 4 * s.now + s.guardLen < 4 * s.expected then s.earlyEdge
        else if 4 * s.now ≤ 4 * s.expected + s.guardLen then s.acceptEdge else s

/-! ### Run (R45, R50) -/

/-- The MP sets TICK_CTRL.run: the first tick is placed. -/
def setRun (s : State) : State :=
  let s := (s.put (rid .tickCtrl) 0 1 1).put (rid .tickStatus) 0 1 1
  let s := s.put (rid .tickStatus) 5 1 1
  let startAt := (s.reg (rid .tickStartAt)).toNat
  let s := { s with tick := { s.tick with phase := .waiting, stopping := false } }
  if bit (s.reg (rid .tickCtrl)) 1 then { s with tick := { s.tick with next := none } }
  else if startAt = 0 then { s with tick := { s.tick with next := some (s.now + 1000) } }
  else if s.now ≤ startAt then { s with tick := { s.tick with next := some startAt } }
  else ({ s with tick := { s.tick with next := some (s.now + 1000) } }.put (rid .tickStatus) 3 1 1).raise 0x0109 7 0xFF 0xFFFF 0 s.t48

/-! ### Pulses (R55, R56, R459) -/

/-- A pulse stands in this nanosecond. -/
def pulseHigh (s : State) (p : Nat × Nat) : Bool := decide (p.1 ≤ s.now) && decide (s.now < p.2)

/-- The level on the TICK_OUT ball: none is high-impedance (R56, R460). -/
def tickOutLevel (s : State) : Option Bool :=
  if !bit (s.reg (rid .tickCtrl)) 2 || decide (s.tick.phase = .stopped) then none
  else some (xor (match s.tick.outPulse with | some p => s.pulseHigh p | none => false) (bit (s.reg (rid .tickOutCfg)) 10))

/-- The level that generator `n` drives on its ball. -/
def fsyncLevel (s : State) (n : Nat) : Bool := xor (s.pulseHigh (SMap.get (0, 0) s.tick.fsync n)) (bit (s.reg (rid .tickFsyncA n)) 22)

/-- The ball that generator `n` drives, in frame-sync mode (R55, R314). -/
def fsyncBall (s : State) (n : Nat) : Nat := s.get (rid .tickFsyncA n) 16 5

/-- Generator `n` drives its ball to a level: its active one while a pulse stands. -/
def fsyncDrive (s : State) (n : Nat) (active : Bool) : State :=
  if s.ballMode (s.fsyncBall n) = 4 ∧ bit (s.reg (rid .tickFsyncA n)) 21 then
    s.drive (s.fsyncBall n) (some (xor active (bit (s.reg (rid .tickFsyncA n)) 22)))
  else s

/-- A pulse that stands is over. -/
def fsyncRest (s : State) (n : Nat) : State := if s.pulseHigh (SMap.get (0, 0) s.tick.fsync n) then s.fsyncDrive n false else s

/-- The pulses that end in this nanosecond. -/
def fsyncEnds (s : State) : State :=
  (List.range 16).foldl (fun s n =>
    let q := SMap.get (0, 0) s.tick.fsync n
    if q.1 < q.2 ∧ q.2 = s.now then s.fsyncDrive n false else s) s

/-- The generator stops at a boundary (R50). -/
def stopGenerator (s : State) : State :=
  let s := (List.range 16).foldl fsyncRest s
  let s := (s.put (rid .tickStatus) 0 3 0).put (rid .tickCtrl) 0 1 0
  { s with tick := { s.tick with phase := .stopped, next := none, stopping := false, relockFrom := none, accepted := false, earlyRun := 0
                                 earlySeen := false, outPulse := none, fsync := [] } }

/-- R55: generator `n` pulses in the current tick. -/
def fsyncTick (s : State) (n : Nat) : Bool :=
  let r := s.reg (rid .tickFsyncA n)
  bit r 21 && decide (s.t48 % (fld r 0 8 + 1) = fld r 8 8)

/-- The rise of generator `n`'s pulse in the current tick. -/
def fsyncRise (s : State) (n : Nat) : Nat := s.tickStart + s.get (rid .tickFsyncB n) 0 27

end State

/-- The timebase PLL locks (R28): the global counter starts at zero. -/
def execTimebaseLock (s : State) : Host.Outcome State Fault Refusal :=
  .next (if s.timebase || decide (s.power.life = .deepSleep) || decide (s.power.life = .tripped) then s
    else { s with timebase := true, gcnt := 0 })

/-- The global counter stands at its largest value (R57). -/
def execGcntSaturated (s : State) : Host.Outcome State Fault Refusal :=
  .next (if s.gcnt = BitVec.allOnes 64 ∧ !bit (s.reg (rid .gcntStatus)) 0 then
      (s.put (rid .gcntStatus) 0 1 1).raise 0x0106 7 0xFF 0xFFFF 0 0
    else s)

/-- A mast loads its counter copy at the stated instant (R29): it stands apart from the Stay die's counter by what the message's value
differs from that instant. -/
def execCounterAlignment (m : Nat) (value loadAt : BitVec 64) (s : State) : Host.Outcome State Fault Refusal :=
  .next (if !s.mastIn m || !s.timebase then s
    else { s with tick := { s.tick with mastOff := SMap.set 0 s.tick.mastOff m (value - loadAt)
                                        aligned := SMap.set false s.tick.aligned m true } })

/-- A tick boundary (R32), or the boundary at which the generator stops (R50). -/
def execTickStart (s : State) : Host.Outcome State Fault Refusal :=
  .next (match s.tick.next with
    | some t =>
      if s.tick.phase = .stopped ∨ s.tick.phase = .work ∨ s.now < t then s
      else if s.tick.stopping then s.takeTick.stopGenerator
      else s.takeTick.startTick t
    | none => s)

/-- TICK_OUT rises 20 ns after a tick start (R56). -/
def execTickOutPulse (s : State) : Host.Outcome State Fault Refusal :=
  .next (let rise := s.tickStart + 20
    if bit (s.reg (rid .tickCtrl)) 2 && decide (s.tick.phase = .work) && decide (rise ≤ s.now) && decide (s.tick.outPulse.map (·.1) ≠ some rise) then
      { s with tick := { s.tick with outPulse := some (rise, rise + 10 * s.get (rid .tickOutCfg) 0 10) } }
    else s)

/-- Frame-sync generator `n` pulses (R55). -/
def execFsyncPulse (n : Nat) (s : State) : Host.Outcome State Fault Refusal :=
  .next (let rise := s.fsyncRise n
    if decide (n < 16) && s.fsyncTick n && (decide (s.tick.phase = .work) || decide (s.tick.phase = .guard)) && decide (rise ≤ s.now) &&
        decide ((SMap.get (0, 0) s.tick.fsync n).1 ≠ rise) then
      { s with tick := { s.tick with fsync := SMap.set (0, 0) s.tick.fsync n (rise, rise + 1000 * s.get (rid .tickFsyncA n) 24 8) } }.fsyncDrive n true
    else s)

/-- The guard of a tick starts (R35): its fence; its other steps come at their offsets (`State.guardStep`). -/
def execGuardStart (s : State) : Host.Outcome State Fault Refusal :=
  .next (if s.tick.phase = .work ∧ s.guardTime ≤ s.now then s.guardFence else s)

/-- An edge on TICK_IN (R40): one of the polarity that TICK_IN_CFG names counts while TICK_IN places the boundaries. -/
def execTickInEdge (falling : Bool) (s : State) : Host.Outcome State Fault Refusal :=
  .next (if bit (s.reg (rid .tickCtrl)) 1 && decide (falling = bit (s.reg (rid .tickInCfg)) 0) then s.tickInAt else s)

/-- No edge by E + G/4 (R40): the next tick starts there, and the generator enters holdover. -/
def execTickInLost (s : State) : Host.Outcome State Fault Refusal :=
  .next (let t := s.expected + s.quarterGuard
    if bit (s.reg (rid .tickCtrl)) 1 && decide (s.tick.phase = .guard) && !s.tick.accepted && s.tick.relockFrom.isNone &&
        !bit (s.reg (rid .tickStatus)) 2 && decide (t ≤ s.now) then
      ({ s.put (rid .tickStatus) 2 1 1 with tick := { s.tick with next := some t } }).raise 0x0103 7 0xFF 0xFFFF 0 s.t48
    else s)

/-- A generator in its sixteenth consecutive holdover tick with an early edge relocks (R43): it places no boundary at E, and awaits the
first edge at or after E − G/4. -/
def execHoldoverRelock (s : State) : Host.Outcome State Fault Refusal :=
  .next (if bit (s.reg (rid .tickStatus)) 2 && s.tick.held && s.tick.earlySeen && decide (15 ≤ s.tick.earlyRun) && s.tick.relockFrom.isNone && !s.tick.accepted &&
        (decide (s.tick.phase = .work) || decide (s.tick.phase = .guard)) then
      { s with tick := { s.tick with next := none, relockFrom := some (s.expected - s.quarterGuard) } }
    else s)

/-- The MP sets TICK_CTRL.run (R50): a rig is in force, and the generator is stopped or was to stop. -/
def execTickRunSet (s : State) : Host.Outcome State Fault Refusal :=
  .next (if !s.fwRuns 1 || !s.rigValid then s
    else if s.tick.phase = .stopped then s.setRun
    else if s.tick.stopping then { s.put (rid .tickCtrl) 0 1 1 with tick := { s.tick with stopping := false } }
    else s)

/-- TICK_CTRL.run is cleared (R50): no effect while any program is admitted; otherwise the generator stops at the next boundary. -/
def execTickRunClear (s : State) : Host.Outcome State Fault Refusal :=
  .next (if !s.fwRuns 1 || s.anyAdmitted || decide (s.tick.phase = .stopped) then s
    else { s.put (rid .tickCtrl) 0 1 0 with tick := { s.tick with stopping := true } })

/-- The host's write of GCNT_CAPTURE (R59): bit 0 latches the counter into GCNT_CAP. -/
def execGcntCapture (value : BitVec 32) (s : State) : Host.Outcome State Fault Refusal :=
  .next (s.viaHost fun s => if value.getLsbD 0 then s.setReg (rid .gcntCap) s.gcnt else s)

end Sys2Proof.Machine
end

