-- ==== Sys2Proof/Machine/HostLink.lean ====
section
/-! DEFINITION. The host side (R322 to R349): downhauls, the happenings that reset the host side, the aperture, queues switched on and
off, doorbells, results published and events taken. -/

namespace Sys2Proof.Machine
namespace State

/-! ### Downhaul (R54, R231, R233, R319, R347, R348) -/

/-- A program that runs is struck: its epochs squash, and its work is dropped. -/
def strike (s : State) (p : Nat) : State :=
  let s := (s.squashAll p).dropWork p
  let c := s.ctx p
  let s := s.setCtx p { c with dels := [], wait := none, stalled := none, blocked := none, resumeAt := none, strms := 0
                               run := .struck, active := false }
  (s.put (rid .admProgA p) 0 2 3).onYards p stopSails

/-- R347: launches and restarts accepted and not yet run are refused. -/
def refuseLaunches (s : State) : State :=
  let ls := s.queue.launches
  let s := { s with queue := { s.queue with launches := [] } }
  ls.foldl (fun s l => s.respond l.mbox (refuse 0x31 0 0xFFFF (l.handles.headD 0xFFFF))) s

/-- The programs that are launched and not struck. -/
def launched (s : State) : List Nat := s.admittedList.filter fun p => decide (s.progState p = 2)

/-- R348: a downhaul changes nothing while none is admitted, or while programs are struck and none runs. -/
def downhaulIdle (s : State) : Bool := s.launched.isEmpty && (!s.anyAdmitted || s.struck)

/-- R347: a downhaul is taken from a source. -/
def downhaul (s : State) (source : Nat) : State :=
  let idle := s.downhaulIdle
  let s := ((s.put (rid .qmDhStat) 1 2 source).put (rid .qmDhStat) 4 1 1).setReg (rid .qmDhTime) s.gcnt
  let s := s.raise 0x0707 7 0xFF 0xFFFF source 0
  if idle then s else ((s.launched.foldl strike s).refuseLaunches.toqDownhaul).showStruck

/-! ### The host side resets (R329) -/

/-- The queues whose descriptors hold something. -/
def listedQueues (s : State) : List Nat :=
  (s.mem.filterMap fun e =>
    if descBase ≤ e.1 ∧ e.1 < descBase + 0x200000 ∧ (e.1 - descBase) % 64 = 8 then some ((e.1 - descBase) / 64) else none)

/-- The ring or the index write-back address of a queue lies in the host window. -/
def qHost (s : State) (q : Nat) : Bool := inHost (s.qBase q) || inHost (s.qField q 0x20 8 % 2 ^ 40)

/-- A queue is disabled: its en bit reads 0. -/
def qDisable (s : State) (q : Nat) : State := s.qSet q 12 2 (s.qField q 12 2 / 2 * 2)

/-- A host bulk channel stops without a record. -/
def stopChan (s : State) (ch : Nat) : State := (s.setChan ch {}).setChState ch 4

/-- A happening of R329: the MSI-X table and the D-state return to reset, queues in the host window are disabled, and host channels stop. -/
def hostReset (s : State) : State :=
  let s := { s with queue := { s.queue with msix := [], pba := [] } }
  let s := s.put (rid .usb4Link) 5 1 0
  let s := ((s.listedQueues.filter s.qHost).filter s.qOn).foldl qDisable s
  let s := (List.range 28).foldl stopChan s
  (s.bump (rid .usb4DownCnt)).raise 0x0701 7 0xFF 0xFFFF 0 0

/-- The PCIe tunnel is up. -/
def tunnelUp (s : State) : Bool := bit (s.reg (rid .usb4Link)) 2

/-- The generation of the link and its read cap (R323, R345). -/
def linkGen (s : State) (gen : Nat) : State :=
  (s.put (rid .usb4Link) 0 2 gen).put (rid .usb4Rdcap) 0 16 (if gen = 3 then 3150 else if gen = 2 then 1575 else 0)

/-! ### The aperture (R326) -/

/-- R114: a read through BAR2, behind the writes before it: all ones for a poisoned half, and outside every window. -/
def apertureRead (s : State) (a : Nat) : BitVec 32 :=
  if s.accessStatus 0 a 4 false ≠ 0 then 0xFFFFFFFF else BitVec.ofNat 32 (leAt (s.bytesBehind a 4) 0 4)

/-- The check that a read of a yard or of Stay SRAM through BAR2 passes (R113, R115, R140). -/
def apertureCheck (s : State) (a : Nat) : State :=
  if s.accessStatus 0 a 4 false ≠ 0 ∧ s.accessStatus 0 a 4 false ≠ 2 then s
  else match regionOf a with
    | .yard _ _ _ => s.readCheck a 4 0xFFFF 15
    | .stay _ => s.readCheck a 4 0xFFFF 15
    | _ => s

/-! ### Queues (R330, R335) -/

/-- A write of the flags field of a descriptor: en in bit 0, irq_en in bit 1. -/
def qFlags (s : State) (q : Nat) (en irq : Bool) : State :=
  if en && !s.qOn q && decide (s.qProd q ≠ s.qCons q) then s.doorbellBad q
  else
    let moved := decide (s.qIrq q ≠ irq)
    let s := s.qSet q 12 2 ((if en then 1 else 0) + (if irq then 2 else 0))
    if moved then s.irqReset q else s

/-- R332: the index that the driver owns. -/
def qIndex (s : State) (q : Nat) : Nat := if s.qKind q = 1 then s.qProd q else s.qCons q

/-- The occupancy that a doorbell would leave. -/
def qOccAfter (s : State) (q w : Nat) : Nat :=
  if s.qKind q = 1 then (w + 2 ^ 32 - s.qCons q) % 2 ^ 32 else (s.qProd q + 2 ^ 32 - w) % 2 ^ 32

/-- R332: a doorbell. -/
def ring (s : State) (q w : Nat) : State :=
  if !s.qOn q || decide (s.qKind q = 0) || decide (s.qEntries q < s.qOccAfter q w) then s.doorbellBad q
  else s.qSet q (if s.qKind q = 1 then 0x10 else 0x14) 4 w

/-! ### Results (R336 to R339) -/

/-- Table 12.6 for ring entry `e`. -/
def resultRecord (r : Result) (e : Nat) : List Byte :=
  let prov := r.digest.isSome
  leN 1 r.status ++ leN 1 r.head ++ leN 2 r.handle.toNat ++ leN 4 r.progId.toNat ++ le64 (r.t48.toNat + (if prov then 2 ^ 48 else 0)) ++
    leN 4 (min r.late 0xFFFFFFFF) ++ leN 4 r.payload.length ++ leN 4 e ++ leN 2 r.phase ++ leN 2 r.conds.toNat

/-- Bytes of a payload slot that a result takes. -/
def resultSize (r : Result) : Nat := r.payload.length + (if r.digest.isSome then 64 else 0)

/-- A result is dropped: counted in its queue and in QM_RDROP_CNT. -/
def resultLost (s : State) (q : Nat) : State := (s.qDrop q).bump (rid .qmRdropCnt)

/-- QM_RESULT_DROP, once per queue and tick. -/
def resultDropEvent (s : State) (q : Nat) (r : Result) : State :=
  if s.dropMarked q then s
  else (s.dropMark q).raise 0x0704 7 0xFF r.handle.toNat q (r.t48.toNat + r.head * 2 ^ 48)

/-- The payload and the digest in slot `e` of the payload area. -/
def writePayload (s : State) (q e : Nat) (r : Result) : State :=
  let a := s.qField q 0x28 8 % 2 ^ 40 + e * s.qField q 0x30 4
  let s := s.pkgStore a r.payload
  match r.digest with
  | some d => s.pkgStore (a + (r.payload.length + 63) / 64 * 64) (d ++ List.replicate 16 0)
  | none => s

/-- R338: one result is published, or dropped, or counted as unbound. -/
def publish (s : State) (r : Result) : State :=
  let q := r.bind.toNat % 32768
  if !r.bind.getLsbD 15 then s.bump (rid .qmUnboundCnt)
  else if !s.qTakes q 2 then s.resultLost q
  else if s.qFull q ∨ s.qField q 0x30 4 < resultSize r then (s.resultLost q).resultDropEvent q r
  else
    let e := s.qEntry q (s.qProd q)
    let s := if inHost (s.qBase q) then s.hostTouch else s
    ((if commits r.status then s.writePayload q e r else s)).qLand q (resultRecord r e)

/-! ### Events (R341, R342) -/

/-- Table 12.7. -/
def eventRecord (e : Event) (seq : Nat) : List Byte :=
  le64 seq ++ le64 e.time.toNat ++ leN 2 e.code.toNat ++ leN 1 e.die.toNat ++ leN 1 e.unit.toNat ++ leN 2 e.handle.toNat ++
    leN 2 e.arg16.toNat ++ le64 e.arg64.toNat

/-- R341: order of taking: the cycle of raising, the die, the code. -/
def eventLe (a b : Nat × Event) : Bool :=
  decide (a.2.time < b.2.time) || (decide (a.2.time = b.2.time) &&
    (decide (a.2.die < b.2.die) || (decide (a.2.die = b.2.die) && decide (a.2.code ≤ b.2.code))))

/-- The first of two heads in that order. -/
def firstHead : List (Nat × Event) → Option (Nat × Event)
  | [] => none
  | e :: es => match firstHead es with
    | some f => some (if eventLe e f then e else f)
    | none => some e

/-- The head record of each FIFO that has been raised. -/
def fifoHeads (s : State) : List (Nat × Event) :=
  s.events.fifos.filterMap fun f => match f.2 with
    | e :: _ => if e.time ≤ s.gcnt then some (f.1, e) else none
    | [] => none

/-- R330, R343: the event queues whose mask accepts a code. -/
def eventQueues (s : State) (code : Nat) : List Nat :=
  s.listedQueues.filter fun q => decide (s.qKind q = 3) && decide (s.qField q 14 2 / 2 ^ (code / 256) % 2 = 1)

/-- R341: a record is taken: it has the next number, and each event queue that accepts it has a copy. -/
def takeEvent (s : State) (key : Nat) (e : Event) : State :=
  let q := SMap.get [] s.events.fifos key
  let s := { s with events := { s.events with fifos := SMap.set [] s.events.fifos key q.tail } }
  let seq := (s.reg (rid .evtSeq)).toNat
  let s := s.setReg (rid .evtSeq) (BitVec.ofNat 64 (seq + 1))
  (s.eventQueues e.code.toNat).foldl (fun s q => (s.qProduce q 3 (eventRecord e seq)).1) s

end State

/-- A USB4 disconnect (R329). -/
def execUsb4Disconnect (s : State) : Host.Outcome State Fault Refusal :=
  .next (if s.get (rid .usb4Link) 0 2 = 0 then s else ((s.linkGen 0).put (rid .usb4Link) 2 3 0).hostReset)

/-- The loss of the PCIe tunnel (R329). -/
def execPcieTunnelLoss (s : State) : Host.Outcome State Fault Refusal :=
  .next (if s.tunnelUp then (s.put (rid .usb4Link) 2 1 0).hostReset else s)

/-- A hot reset (R329). -/
def execHotReset (s : State) : Host.Outcome State Fault Refusal := .next (if s.tunnelUp then s.hostReset else s)

/-- A function level reset (R329), a downhaul from source 1 with it. -/
def execFunctionLevelReset (s : State) : Host.Outcome State Fault Refusal :=
  .next (if s.tunnelUp then s.hostReset.downhaul 1 else s)

/-- The PCIe tunnel comes up (R322, R323, R344). -/
def execHostLinkUp (gen3 : Bool) (s : State) : Host.Outcome State Fault Refusal :=
  .next (
    let gen := if gen3 then 3 else 2
    if s.tunnelUp || decide (s.power.life ≠ .running) then s
    else (((s.linkGen gen).put (rid .usb4Link) 2 1 1).put (rid .usb4Link) 3 3 0).raise 0x0702 7 0xFF 0xFFFF gen 0)

/-- The function enters D3hot (R328). -/
def execD3hotEntry (s : State) : Host.Outcome State Fault Refusal :=
  .next (if s.tunnelUp then s.put (rid .usb4Link) 5 1 1 else s)

/-- The function returns to D0 (R328). -/
def execD0Return (s : State) : Host.Outcome State Fault Refusal := .next (s.put (rid .usb4Link) 5 1 0)

/-- An access of the host through BAR2 (R326): it passes the Stay engine's windows; outside them a read gives all ones and a write is
discarded. -/
def execBar2Access (off : Nat) (write : Option (BitVec 32)) (s : State) : Host.Outcome State Fault Refusal :=
  .next (
    s.viaHost fun s =>
      let a := s.get (rid .usb4ApBase) 30 10 * 2 ^ 30 + off
      match write with
      | none => { s.apertureCheck a with queue := { (s.apertureCheck a).queue with readData := s.apertureRead a } }
      | some v => if s.accessStatus 0 a 4 true = 0 then s.looseWrite 0 State.otherRank a (leN 4 v.toNat) else s)

/-- The driver sets en of queue `q` (R330, R331). -/
def execQueueEnable (q : Nat) (irqEn : Bool) (s : State) : Host.Outcome State Fault Refusal :=
  .next (s.viaHost fun s => s.qFlags q true irqEn)

/-- The driver clears en of queue `q` (R330). -/
def execQueueDisable (q : Nat) (irqEn : Bool) (s : State) : Host.Outcome State Fault Refusal :=
  .next (s.viaHost fun s => s.qFlags q false irqEn)

/-- The driver writes irq_en of queue `q`, en as it stands (R335). -/
def execIrqEnableChange (q : Nat) (irqEn : Bool) (s : State) : Host.Outcome State Fault Refusal :=
  .next (s.viaHost fun s => s.qFlags q (s.qOn q) irqEn)

/-- A doorbell (R332, R333): bits [31:0] are the index that the driver owns. -/
def execDoorbell (q : Nat) (value : BitVec 64) (s : State) : Host.Outcome State Fault Refusal :=
  .next (s.viaHost fun s => s.ring q (value.toNat % 2 ^ 32))

/-- The queue manager publishes the next result handed off (R338). -/
def execResultPublish (s : State) : Host.Outcome State Fault Refusal :=
  .next (match s.queue.results with
    | r :: rs => { s with queue := { s.queue with results := rs } }.publish r
    | [] => s)

/-- The time threshold of queue `q` has elapsed since the first entry that no signal covers (R335). -/
def execIrqTimeThreshold (q : Nat) (s : State) : Host.Outcome State Fault Refusal :=
  .next (
    let t := SMap.get 0 s.queue.timers q
    if s.qIrq q && decide (t ≠ 0) && decide (t - 1 + 1000 * s.qField q 0x1A 2 ≤ s.now) then (s.signal (s.qField q 10 2)).irqReset q else s)

/-- The event arbiter takes one record (R341). -/
def execEventTaken (s : State) : Host.Outcome State Fault Refusal :=
  .next (match State.firstHead s.fifoHeads with
    | some (key, e) => s.takeEvent key e
    | none => s)

/-- A FIFO that has lost records has room again (R341). -/
def execEvtLost (die group : Nat) (s : State) : Host.Outcome State Fault Refusal := .next (s.placeLost (die * 256 + group))

/-- A write of QM_DOWNHAUL by the host or the MP (R347): any value but the keyed one is discarded. -/
def execQmDownhaul (rq : Requester) (value : BitVec 32) (s : State) : Host.Outcome State Fault Refusal :=
  .next (match rq with
    | .host => s.viaHost fun s => if value = 0xD0A10001 then s.downhaul 1 else s
    | .mp => if value = 0xD0A10001 ∧ s.fwRuns 1 then s.downhaul 3 else s
    | _ => s)

/-- DOWNHAUL_N has held low for 100 ns (R347, R349). -/
def execDownhaulN (s : State) : Host.Outcome State Fault Refusal :=
  .next (if s.power.downhaulLow || decide (s.power.life = .deepSleep) || decide (s.power.life = .tripped) then s
    else ({ s with power := { s.power with downhaulLow := true } }.put (rid .qmDhStat) 3 1 1).downhaul 2)

/-- DOWNHAUL_N is released (R349). -/
def execDownhaulNRelease (s : State) : Host.Outcome State Fault Refusal :=
  .next ({ s with power := { s.power with downhaulLow := false } }.put (rid .qmDhStat) 3 1 0)

end Sys2Proof.Machine
end

