-- ==== Sys2Proof/Machine/Security.lean ====
section
/-! DEFINITION. Fuses, the embedded flash, signature blocks, firmware slots, keys and Daxa reports (R376 to R398, R403). -/

namespace Sys2Proof.Machine

/-! ### Signature blocks (Table 7.3) -/

/-- Bytes of a signature block. -/
def sigLen : Nat := 3088
def sigSlot (b : List Byte) : Nat := leAt b 1 1
def sigEcPub (b : List Byte) : List Byte := sliceAt b 4 97
def sigLmsPub (b : List Byte) : List Byte := sliceAt b 0xC8 56
/-- The block's fixed bytes. -/
def sigShape (b : List Byte) : Bool :=
  decide (b.length = sigLen) && decide (leAt b 0 1 = 1) && decide (leAt b 2 2 = 0) && decide (leAt b 0x65 3 = 0) && decide (leAt b 0xC0C 4 = 0)
/-- The hashes of the block's two public keys, as a slot's fuses hold them. -/
def sigHashes (b : List Byte) : List Byte := sha384 (sigEcPub b) ++ sha384 (sigLmsPub b)
def sigEcOk (b msg : List Byte) : Bool := Config.ecdsaVerify (sigEcPub b) (sliceAt b 0x68 96) msg
def sigLmsOk (b msg : List Byte) : Bool := Config.lmsVerify (sigLmsPub b) (sliceAt b 0x100 2828) msg

/-- What an image examination finds (R379). -/
structure Exam where
  result : Nat
  svn : Nat
  build : Nat
  /-- vendor slots whose block was valid -/
  valid : BitVec 4
  digest : List Byte
  deriving DecidableEq, Repr

/-- The 31-bit count of ones of a thermometer. -/
def popCount (v : BitVec 64) : Nat := (List.range 64).countP fun i => v.getLsbD i

namespace State

/-! ### Flash (R376, Table 14.1) -/

def flashBytes (s : State) (a n : Nat) : List Byte := (List.range n).map fun i => SMap.get 0xFF s.sec.flash (a + i)
def flashStore (s : State) (a : Nat) (bs : List Byte) : State :=
  { s with sec := { s.sec with flash := SMap.setRange 0xFF (fun i => bs.getD i 0) a bs.length s.sec.flash } }
def flashErase (s : State) (a n : Nat) : State :=
  { s with sec := { s.sec with flash := SMap.restrict (fun k => decide (k < a ∨ a + n ≤ k)) s.sec.flash } }

/-- The base of a slot; true is the update slot. -/
def slotBase (upd : Bool) : Nat := if upd then 0x210000 else 0x10000
/-- Room for an image in a slot: its last 4 KiB hold the state records. -/
def slotRoom : Nat := 0x1FF000
/-- The image in a slot: as many bytes as its header says, within the slot. -/
def slotImage (s : State) (upd : Bool) : List Byte :=
  s.flashBytes (slotBase upd) (max 0x100 (min (leAt (s.flashBytes (slotBase upd + 0x10) 4) 0 4) slotRoom))

/-- State record `i` of the update slot. -/
def slotRecord (s : State) (i : Nat) : List Byte := s.flashBytes (0x40F000 + 16 * i) 16
def recordOk (b : List Byte) : Bool := decide (leAt b 0 1 + leAt b 1 1 = 255)
/-- Table 14.3: the state of a slot. -/
def slotState (s : State) (upd : Bool) : Nat :=
  if !upd then 6
  else ((List.range 256).filter fun i => recordOk (s.slotRecord i)).foldl (fun _ i => leAt (s.slotRecord i) 0 1) 0
/-- A slot's state shows in SEC_SLOTs_INFO. -/
def showSlotState (s : State) : State :=
  (s.put (rid .secSlotInfo 0) 8 3 6).put (rid .secSlotInfo 1) 8 3 (s.slotState true)
/-- A state record is appended to the update slot: the build of the image stands in it. -/
def slotAppend (s : State) (st : Nat) : State :=
  let i := (List.range 256).findIdx fun i => decide (s.slotRecord i = List.replicate 16 0xFF)
  let build := s.flashBytes (slotBase true + 8) 4
  (s.flashStore (0x40F000 + 16 * i) (leN 1 st ++ leN 1 (255 - st) ++ leN 2 0 ++ build ++ List.replicate 8 0)).showSlotState

/-! ### Key slots (R386, R388) -/

def keyOf (s : State) (k : Nat) : List Byte := SMap.get [] s.sec.keyHash k
def programmed (s : State) (k : Nat) : Bool := (s.keyOf k).any fun b => decide (b ≠ 0)
def liveKey (s : State) (k : Nat) : Bool := s.programmed k && !s.sec.revoke.getLsbD k

/-- R379 step 3: a block against the slots from `base` (0 vendor, 4 owner): 0 where it is valid, else its code. -/
def blockCode (s : State) (base : Nat) (b msg : List Byte) : Nat :=
  let k := base + sigSlot b
  if 4 ≤ sigSlot b ∨ !s.programmed k ∨ sigHashes b ≠ s.keyOf k then 0x26
  else if !sigEcOk b msg then 0x24
  else if !sigLmsOk b msg then 0x25
  else 0

/-- R388, Table 9.9: a block against the owner slots: 0 where it is accepted, else detail2 of ADMIT_SIG. -/
def ownerCode (s : State) (b msg : List Byte) : Nat :=
  match s.blockCode 4 b msg with
  | 0 => if s.liveKey (4 + sigSlot b) then 0 else 4
  | 0x24 => 1
  | 0x25 => 2
  | _ => 5

/-! ### Examination of an image (R377 to R379) -/

/-- Offset of the first signature block. -/
def sigStart (b : List Byte) : Nat := leAt b 0x10 4 - sigLen * leAt b 0x0D 1

/-- The components: offset and size. -/
def comps (b : List Byte) : List (Nat × Nat) := (List.range 3).map fun i => (leAt b (0x20 + 8 * i) 4, leAt b (0x24 + 8 * i) 4)

/-- R378 and the overlap rule. -/
def compsOk (b : List Byte) : Bool :=
  let cs := comps b
  let top := sigStart b
  (cs.zip [0x80000, 0x100000, 0x6000]).all (fun c => decide (0x100 ≤ c.1.1 ∧ c.1.1 % 16 = 0 ∧ 1 ≤ c.1.2 ∧ c.1.1 + c.1.2 ≤ top ∧ c.1.2 ≤ c.2)) &&
  (List.range 3).all fun i => (List.range 3).all fun j =>
    decide (i = j) || decide ((cs.getD i (0, 0)).1 + (cs.getD i (0, 0)).2 ≤ (cs.getD j (0, 0)).1) ||
      decide ((cs.getD j (0, 0)).1 + (cs.getD j (0, 0)).2 ≤ (cs.getD i (0, 0)).1)

/-- Bytes of the body that no component covers are zero. -/
def bodyZero (b : List Byte) : Bool :=
  (List.range (sigStart b - 0x100)).all fun i =>
    let o := 0x100 + i
    decide (b.getD o 0 = 0) || (comps b).any fun c => decide (c.1 ≤ o ∧ o < c.1 + c.2)

/-- R377: the header and the layout. -/
def imageHeaderOk (b : List Byte) : Bool :=
  let size := leAt b 0x10 4
  let n := leAt b 0x0D 1
  decide (b.take 4 = [0x4C, 0x46, 0x57, 0x49]) && decide (leAt b 4 2 = 0x100) && decide (leAt b 6 2 = 0x100) && decide (leAt b 8 4 ≠ 0) &&
    decide (n = 1 ∨ n = 2) && decide (leAt b 0x0E 2 = 0) && decide (size ≤ slotRoom ∧ size % 16 = 0 ∧ 0x100 + sigLen * n ≤ size) &&
    decide (leAt b 0x1A 1 < 16) && decide (leAt b 0x1B 5 = 0) && (sliceAt b 0x38 200).all (fun x => decide (x = 0))

/-- The signature blocks of an image. -/
def imageSigs (b : List Byte) : List (List Byte) :=
  (List.range (leAt b 0x0D 1)).map fun i => sliceAt b (sigStart b + sigLen * i) sigLen

/-- R379: the examination of an image. -/
def examine (s : State) (b : List Byte) : Exam :=
  let svn := leAt b 0x0C 1
  let res (r : Nat) (v : BitVec 4) (d : List Byte) : Exam := ⟨r, svn, leAt b 8 4, v, d⟩
  if !imageHeaderOk b then res 0x23 0 []
  else if !compsOk b then res 0x29 0 []
  else if !(bodyZero b && (imageSigs b).all sigShape) then res 0x23 0 []
  else
    let d := sha384 (b.take (sigStart b))
    let codes := (imageSigs b).map fun g => (sigSlot g, s.blockCode 0 g d)
    let valid := codes.foldl (fun v c => if c.2 = 0 then v ||| BitVec.ofNat 4 (2 ^ c.1) else v) (0 : BitVec 4)
    let live := codes.any fun c => decide (c.2 = 0) && s.liveKey c.1
    if !live then res (if valid ≠ 0 then 0x2B else (codes.headD (0, 0x26)).2) valid d
    else if 64 < svn then res 0x28 valid d
    else if svn < popCount s.sec.svn then res 0x27 valid d
    else res 0 valid d

/-- An examination shows in the slot's registers. -/
def showExam (s : State) (upd : Bool) (e : Exam) : State :=
  let k := if upd then 1 else 0
  let s := ((s.put (rid .secSlotInfo k) 0 8 e.result).put (rid .secSlotInfo k) 16 7 e.svn).put (rid .secSlotInfo k) 24 4 e.valid.toNat
  let s := s.setReg (rid .secSlotBuild k) (BitVec.ofNat 64 e.build)
  ((List.range 12).foldl (fun s w => s.setReg (rid .secSlotD k w) ((leWord e.digest w).setWidth 64)) s).showSlotState

/-- R399: the revoke field names the slot of a valid block of the image itself. -/
def revokesItself (b : List Byte) (e : Exam) : Bool := decide (e.valid &&& BitVec.ofNat 4 (leAt b 0x1A 1) ≠ 0)

/-! ### What fuses and flash show in registers -/

/-- HSS indices still available (R396). -/
def hssLeft (s : State) : Nat := 1048576 - s.sec.hssNext

/-- SEC_KEYS: programmed and revoked slots. -/
def keysWord (s : State) : Nat :=
  (List.range 8).foldl (fun n k => n + (if s.programmed k then 2 ^ k else 0)) 0 + s.sec.revoke.toNat * 256

/-- The registers that fuses, flash and straps give. -/
def showSec (s : State) : State :=
  let s := ((s.setReg (rid .secSvn) s.sec.svn).setReg (rid .secKeys) (BitVec.ofNat 64 s.keysWord)).setReg (rid .secPolicy) (s.sec.policy.setWidth 64)
  let s := (s.setReg (rid .secBootCnt) (BitVec.ofNat 64 s.sec.bootCnt)).setReg (rid .secLmsLeft) (BitVec.ofNat 64 s.hssLeft)
  (s.setReg (rid .admRigHigh) (BitVec.ofNat 64 s.sec.rigHigh)).showSlotState

/-- Policy fuses. -/
def fuse (s : State) (n : Nat) : Bool := s.sec.policy.getLsbD n
/-- SEC_STATUS fields. -/
def debugOpen (s : State) : Bool := bit (s.reg (rid .secStatus)) 14

/-! ### Burning (R387) -/

/-- A fuse field is burned, with its event. -/
def burned (s : State) : State := s.raise 0x0A09 7 0xFF 0xFFFF 0 0

/-- Security version bits up to `n`. -/
def burnSvn (s : State) (n : Nat) : State :=
  let v := s.sec.svn ||| BitVec.ofNat 64 (2 ^ n - 1)
  if v = s.sec.svn then s else { s with sec := { s.sec with svn := v } }.burned

/-- Revoke bits, unless no vendor slot would be left live, or no owner slot once one has been programmed. -/
def burnRevoke (s : State) (m : BitVec 8) : State :=
  let r := s.sec.revoke ||| m
  let t := { s with sec := { s.sec with revoke := r } }
  if r = s.sec.revoke then s
  else if !(List.range 4).any t.liveKey then s
  else if ((List.range 4).any fun k => s.programmed (4 + k)) && !(List.range 4).any (fun k => t.liveKey (4 + k)) then s
  else t.burned

/-- R403: a commit's burns and record, from the image in the update slot. -/
def commitSlot (s : State) : State :=
  let b := s.slotImage true
  let s := (s.burnSvn (min 64 (leAt b 0x0C 1))).burnRevoke (BitVec.ofNat 8 (leAt b 0x1A 1))
  ((s.slotAppend 6).showSec).raise 0x0A06 7 0xFF 0xFFFF 0 0

/-! ### Free bytes -/

/-- `n` bytes that the spec does not give, eight to a free value. -/
def freeBytes (s : State) (n : Nat) : List Byte := (List.range n).map fun i => BitVec.ofNat 8 (fld (Config.freeValue (s.free + i / 8)) (8 * (i % 8)) 8)
/-- A new value of SEC_NONCE (R389). -/
def drawNonce (s : State) : State :=
  let b := s.freeBytes 32
  ((List.range 8).foldl (fun s w => s.setReg (rid .secNonce w) ((leWord b w).setWidth 64)) s).takeFree 4
def secNonceBytes (s : State) : List Byte := (List.range 8).flatMap fun w => leN 4 (s.get (rid .secNonce w) 0 32)

/-! ### Keys (R394) -/

def label (x : String) : List Byte := x.toList.map fun c => BitVec.ofNat 8 c.toNat
def bootBlockHash (s : State) : List Byte := sha384 (s.flashBytes 0 0x10000)
def cdi0 (s : State) : List Byte := hmac384 Config.uds (s.bootBlockHash ++ leN 2 s.sec.policy.toNat)
def devidSeed (s : State) : List Byte := hmac384 s.cdi0 (label "LSG-DEVID")
def hssSeed (s : State) : List Byte := hmac384 s.cdi0 (label "LSG-HSS")
def cdi1 (s : State) : List Byte := hmac384 s.cdi0 (s.sec.runDigest ++ leN 1 s.sec.runSvn ++ leN 1 (if s.sec.runSlot then 1 else 0))
def aliasSeed (s : State) : List Byte := hmac384 s.cdi1 (label "LSG-ALIAS")
def devidPub (s : State) : List Byte := Config.ecdsaPub s.devidSeed
def aliasPub (s : State) : List Byte := Config.ecdsaPub s.aliasSeed

/-- `n` bytes of a byte string, padded with zero. -/
def fit (n : Nat) (b : List Byte) : List Byte := (List.range n).map fun i => b.getD i 0

/-! ### Daxa reports (R396, R397) -/

def updCode (s : State) : Nat :=
  match s.sec.upd with
  | .none => 0
  | .receiving => 1
  | .staged => 2
  | .activating => 3
  | .trial => 4

/-- Length of a report. -/
def daxaLen (s : State) : Nat := 0x270 + 112 * s.admittedList.length + 5172

/-- Bytes 0 up to the signatures, with index `q`. -/
def daxaBody (s : State) (nonce : List Byte) (q : Nat) : List Byte :=
  let st := s.reg (rid .secStatus)
  let flags := (if bit st 11 then 1 else 0) + (if bit st 10 then 0 else 2)
  [0x44, 0x41, 0x58, 0x41] ++ leN 2 1 ++ leN 2 flags ++ leN 4 s.daxaLen ++ leN 4 0 ++ fit 32 nonce ++
    leN 4 (s.get (rid .idDevice) 0 32) ++ leN 4 (s.get (rid .idConfig) 0 32) ++ leN 4 s.sec.bootCnt ++ leN 4 q ++ le64 s.now ++ le64 s.t48 ++
    le64 s.sec.svn.toNat ++ leN 2 s.keysWord ++ leN 2 s.sec.policy.toNat ++ leN 4 0 ++ s.bootBlockHash ++ fit 48 s.sec.runDigest ++
    leN 4 s.sec.runBuild ++ leN 1 s.sec.runSvn ++ leN 1 (if s.sec.runSlot then 1 else 0) ++ leN 1 s.updCode ++ leN 1 0 ++
    (List.range 12).flatMap (fun w => leN 4 (s.get (rid .admRigDigest w) 0 32)) ++ leN 4 (s.get (rid .admRigVer) 0 32) ++
    leN 2 s.admittedList.length ++ leN 2 0 ++ fit 97 s.aliasPub ++ leN 3 0 ++
    fit 96 (Config.ecdsaSign s.devidSeed (sha384 (s.aliasPub ++ s.sec.runDigest))) ++ fit 97 s.devidPub ++ leN 3 0 ++
    fit 60 (Config.hssPub s.hssSeed) ++ List.replicate 12 0 ++
    s.admittedList.flatMap fun p =>
      let g := s.prog p
      leN 2 (s.handle p) ++ leN 2 0 ++ leN 4 (s.get (rid .admProgId p) 0 32) ++ fit 48 g.box.digestP ++ fit 48 g.box.digestW ++ le64 g.admitT48.toNat

/-- R396: an index is taken: its block is reserved in flash first. -/
def takeIndex (s : State) : State :=
  let q := s.sec.hssNext
  ({ s with sec := { s.sec with hssNext := q + 1, hssBlocks := max s.sec.hssBlocks (q / 64 + 1) } }).showSec

/-- A report for a nonce: a repeat of the last nonce gives the last report and takes no index. None where no index is left. -/
def daxa (s : State) (nonce : List Byte) : State × Option (List Byte) :=
  if s.sec.lastNonce = nonce ∧ s.sec.lastReport ≠ [] then (s, some s.sec.lastReport)
  else if s.hssLeft = 0 then (s.raise 0x0A0B 7 0xFF 0xFFFF 0 0, none)
  else
    let q := s.sec.hssNext
    let body := s.daxaBody nonce q
    let d := sha384 body
    let r := body ++ fit 96 (Config.ecdsaSign s.aliasSeed d) ++ fit 5076 (Config.hssSign s.hssSeed q d)
    let s := s.takeIndex
    ({ s with sec := { s.sec with lastNonce := nonce, lastReport := r } }, some r)

end State
end Sys2Proof.Machine
end

