-- ==== Sys2Proof/Machine/Update.lean ====
section
/-! DEFINITION. Firmware update, fuse requests and attestation requests (R387, R389, R398 to R405). -/

namespace Sys2Proof.Machine
namespace State

/-! ### What a processor's channel fetches and writes (R244, R272, R399) -/

/-- R272: where a processor's channel reaches: what a host channel may touch, and the Stay SRAM regions of its processor. -/
def procReach (ch a : Nat) : Bool :=
  ownStay ch a || (match regionOf a with
    | .stay _ => decide (mediaBase ≤ a ∧ a < mediaEnd)
    | .nowhere => false
    | _ => true)

/-- What a processor's channel meets in one piece: R272 holds a host channel's accesses to the windows, not a processor's (log entry 33). -/
def procStatus (s : State) (ch a n : Nat) (write : Bool) : Nat :=
  if inHost a then (if !s.hostUp then 4 else if !s.hostMapped a n write then 1 else 0)
  else if !procReach ch a then 3
  else if !write && !(s.eccWords a n 2).isEmpty then 2
  else 0

/-- The first piece of a range that cannot be reached: its status (Table 10.11) and offset. -/
def fetchStop (s : State) (ch a n : Nat) (write : Bool) : Option (Nat × Nat) :=
  (pagePieces a n).findSome? fun q =>
    let st := s.procStatus ch (a + q.1) q.2 write
    if st = 0 then none else some (st, q.1)

/-- R286: a processor's channel halts on a page fault, once. -/
def haltFetch (s : State) (ch a : Nat) (write : Bool := false) : State :=
  if s.chState ch = 2 then s
  else (((s.dattFault a write).setReg (sreg .strmChFaddr ch) (BitVec.ofNat 64 a)).setChState ch 2).raise 0x0401 7 ch 0xFFFF 0 0

/-! ### The update state (Table 14.10) -/

/-- The state shows in SEC_UPD_STAT. -/
def setUpd (s : State) (u : UpdState) : State :=
  let s := { s with sec := { s.sec with upd := u } }
  s.put (rid .secUpdStat) 0 3 s.updCode
def setDeferred (s : State) (b : Bool) : State := s.put (rid .secUpdStat) 3 1 (if b then 1 else 0)
def deferred (s : State) : Bool := bit (s.reg (rid .secUpdStat)) 3

/-- The slot is erased, its records included. -/
def eraseSlot (s : State) : State := (s.flashErase (slotBase true) 0x200000).showSlotState

/-- R380, R399: staging begins: the slot is erased, and RECEIVING is its first record. -/
def beginStage (s : State) : State := ((s.eraseSlot).slotAppend 1).setUpd .receiving

/-- R399: the image stands in the slot, and the SP examines it: 0 where it is STAGED, else the result code. -/
def finishStage (s : State) : State × Nat :=
  let b := s.slotImage true
  let e := s.examine b
  let r := if e.result = 0 ∧ revokesItself b e then 0x23 else e.result
  let s := s.showExam true { e with result := r }
  if r = 0 then
    let s := { s with sec := { s.sec with stagedD := e.digest } }
    (((s.slotAppend 2).setUpd .staged).raise 0x0A03 7 0xFF 0xFFFF 0 0, 0)
  else (((s.eraseSlot).setUpd .none).raise 0x0A08 7 0xFF 0xFFFF r 0, r)

/-- A package image of `n` bytes at `a` goes into the slot. -/
def stageFrom (s : State) (a n : Nat) : State × Nat := (s.flashStore (slotBase true) (s.pkgBytes a n)).finishStage

/-- R400: activation starts. -/
def startActivation (s : State) : State := ((s.slotAppend 3).setUpd .activating).setDeferred false

/-- R400: an activation is deferred. -/
def deferUpd (s : State) : State := (s.setDeferred true).raise 0x0A04 7 0xFF 0xFFFF 0 0

/-- The MP has handed over to the new image. -/
def handedOff (s : State) : Bool := SMap.get false s.sec.replaced 1

/-- R400: what the update does when the emergency begins or ends; `was` is whether one was in force before. -/
def emergencyMoved (s : State) (was : Bool) : State :=
  let s := s.showPower
  if s.emergency && !was then
    let s := { s with sec := { s.sec with clearSince := none } }
    if s.sec.upd = .activating ∧ !s.handedOff then ((s.slotAppend 2).setUpd .staged).deferUpd else s
  else if !s.emergency && was then { s with sec := { s.sec with clearSince := some s.now } }
  else s

/-- ACTIVATE in STAGED: the status of the answer, 0 or ACT_DEFERRED. -/
def activate (s : State) : State × Nat := if s.emergency then (s.deferUpd, 2) else (s.startActivation, 0)

/-- R355: the MP or the SP restarts: the token and the nonce are gone. -/
def dropToken (s : State) : State :=
  { s with mgmt := { s.mgmt with token := none, nonce := [], gathering := [] } }
/-- R356: an MP restart abandons a transfer in progress, and the replies that wait. -/
def dropXfer (s : State) : State :=
  let s := { s with mgmt := { s.mgmt with waiting := [] }, sec := { s.sec with updAfter := 0 } }
  match s.mgmt.xfer with
  | none => s
  | some x =>
    let s := { s with mgmt := { s.mgmt with xfer := none } }
    if x.target = 1 ∧ s.sec.upd = .receiving then s.eraseSlot.setUpd .none else s

/-- A translator starts: its version is that of its image, which the spec does not give (log entry 8). -/
def newTranslator (s : State) : State :=
  (s.setReg (rid .admTpVer) (BitVec.ofNat 64 (fld (Config.freeValue s.free) 0 32))).takeFree

/-- R404: a rollback with its cause. -/
def rollback (s : State) (cause : Nat) : State :=
  let tp := SMap.get false s.sec.replaced 2
  let mp := s.handedOff
  let s := { s with sec := { s.sec with replaced := [] } }
  let s := if tp then s.newTranslator else s
  let s := if mp then s.dropToken.dropXfer else s
  (((s.slotAppend 7).setUpd .none).setDeferred false).raise 0x0A07 7 0xFF 0xFFFF cause 0

/-- R401: the processors that a replacement takes in order: TP, then the supervisors of the masts present. -/
def replaceOrder (s : State) : List Nat := 2 :: (List.range s.part.masts).map (· + 3)
def nextReplaced (s : State) : Option Nat := s.replaceOrder.find? fun p => !SMap.get false s.sec.replaced p

/-! ### Handoff records (R402; log entry 92) -/

/-- The header of a record: the schema, the length and the digest of its body, and its sequence. -/
def hoffHeader (schema seq : Nat) (body : List Byte) : List Byte :=
  [0x48, 0x4F, 0x46, 0x46] ++ leN 2 schema ++ leN 2 0 ++ leN 4 body.length ++ leN 4 seq ++ sha384 body

/-- Where the record of a processor stands in the handoff and checkpoint region. -/
def hoffBase (proc : Nat) : Nat := 0x12E00000 + 0x20000 * proc

/-- A processor of the running image writes its record. -/
def writeHoff (s : State) (proc : Nat) : State :=
  let body := (Config.handoffBody s.free).take 0x1FFC0
  let s := { s.takeFree with sec := { s.sec with hoSeq := s.sec.hoSeq + 1 } }
  s.store (hoffBase proc) (hoffHeader s.sec.runHo s.sec.hoSeq body ++ body)

/-- The new image accepts the record: its schema is one of the image's, and its digest that of its body. -/
def hoffOk (s : State) (proc : Nat) (image : List Byte) : Bool :=
  let h := s.bytes (hoffBase proc) 64
  let schema := leAt h 4 2
  h.take 4 = [0x48, 0x4F, 0x46, 0x46] && decide (leAt h 6 2 = 0) && decide (leAt image 0x14 2 ≤ schema ∧ schema ≤ leAt image 0x16 2) &&
    decide (sliceAt h 16 48 = sha384 (s.bytes (hoffBase proc + 64) (leAt h 8 4)))

/-- R401 step 6: every component runs the new image. -/
def enterTrial (s : State) : State :=
  let s := { s with sec := { s.sec with trialAt := s.now } }
  ((s.slotAppend 4).setUpd .trial).raise 0x0A05 7 0xFF 0xFFFF 0 0

/-- R403: COMMIT in TRIAL. -/
def commitTrial (s : State) : State :=
  let b := s.slotImage true
  let e := s.examine b
  let s := (s.slotAppend 5).commitSlot
  let gone := (List.range 4).all fun k => !e.valid.getLsbD k || s.sec.revoke.getLsbD k
  { s with sec := { s.sec with
      replaced := [], runSlot := true, runDigest := e.digest, runBuild := e.build, runSvn := e.svn, runHo := leAt b 0x18 2
      revokedNow := gone } }.setUpd .none

/-- CANCEL: in STAGED the slot is erased, in TRIAL the update rolls back; none elsewhere. -/
def cancelUpd (s : State) : Option State :=
  match s.sec.upd with
  | .staged => some ((s.eraseSlot.setUpd .none).setDeferred false)
  | .trial => some (s.rollback 3)
  | _ => none

/-! ### The host's update mailbox (R399, R405) -/

def updReq (s : State) (w : Nat) : Nat := s.get (rid .secUpdReq w) 0 32
def updBusy (s : State) : Bool := bit (s.reg (rid .secUpdStat)) 4

/-- A response: UPD_REFUSED where the request is refused. -/
def updRespond (s : State) (status code : Nat) (told : Bool := false) : State :=
  let s := s.setReg (rid .secUpdResp) (BitVec.ofNat 64 (status + code * 2 ^ 8 + s.updReq 0 / 65536 * 2 ^ 16))
  let s := (s.put (rid .secUpdStat) 4 1 0).put (rid .secUpdStat) 5 1 1
  if (status = 0 ∨ status = 2 ∨ told) then s else s.raise 0x0A08 7 0xFF 0xFFFF code 0

/-- STAGE, as far as the source can be read: a page fault waits for the driver's resume. -/
def serveStage (s : State) : State :=
  let a := s.updReq 1 + 2 ^ 32 * (s.updReq 2 % 256)
  let n := s.updReq 3
  if s.fuse 3 then s.updRespond 4 0
  else if s.sec.upd = .activating ∨ s.sec.upd = .trial then s.updRespond 3 0
  else
    let s := if s.chState 29 = 2 then s else s.beginStage.setDeferred false
    if n = 0 ∨ slotRoom < n then (s.eraseSlot.setUpd .none).updRespond 1 0x23
    else match s.fetchStop 29 a n false with
      | some (1, o) => s.haltFetch 29 (a + o)
      | some _ => (s.eraseSlot.setUpd .none).updRespond 1 0x23
      | none =>
        let r := s.stageFrom a n
        if r.2 = 0 then r.1.updRespond 0 0 else r.1.updRespond 1 r.2 true

/-- The SP serves the request in the mailbox. -/
def serveUpd (s : State) : State :=
  match s.updReq 0 % 256 with
  | 1 => s.serveStage
  | 2 => if s.fuse 3 then s.updRespond 4 0 else if s.sec.upd = .staged then (let r := s.activate; r.1.updRespond r.2 0) else s.updRespond 3 0
  | 3 => if s.sec.upd = .trial then s.commitTrial.updRespond 0 0 else s.updRespond 3 0
  | 4 => match s.cancelUpd with
    | some t => t.updRespond 0 0
    | none => s.updRespond 3 0
  | _ => s.updRespond 3 0

/-- A request is taken: served at once, or when the SP is back (R405). -/
def updDoorbell (s : State) (cmd : Nat) : State :=
  if s.updBusy ∨ s.updReq 0 % 256 ≠ cmd then s
  else
    let s := s.put (rid .secUpdStat) 4 1 1
    if s.fwRuns 0 then s.serveUpd else { s with sec := { s.sec with updAfter := s.mgmt.waiting.countP fun w => decide (w.mbox = 0xFF ∧ w.op ≠ 0x28) } }

/-! ### Fuse requests (R389) -/

def fuseBusy (s : State) : Bool := bit (s.reg (rid .secFuseStat)) 0
def fuseDone (s : State) (status : Nat) : State :=
  (((s.put (rid .secFuseStat) 0 1 0).put (rid .secFuseStat) 1 1 1).put (rid .secFuseStat) 2 2 status).drawNonce

/-- The body of a fuse request keeps its layout and carries the current nonce. -/
def fuseShape (s : State) (b : List Byte) : Bool :=
  let op := leAt b 5 1
  decide (b.take 4 = [0x48, 0x46, 0x55, 0x53]) && decide (leAt b 4 1 = 1) && decide (op = 1 ∨ op = 2) && decide (leAt b 6 1 < 4) &&
    decide (leAt b 7 1 = 0) && decide (sliceAt b 8 32 = s.secNonceBytes) && decide (leAt b 0x88 24 = 0)

/-- The request is signed by a live owner slot, or proves possession of the keys that the first owner slot is programmed with. -/
def fuseSigned (s : State) (b g : List Byte) : Bool :=
  let msg := sha384 (b.take 160)
  let first := !((List.range 4).any fun k => s.programmed (4 + k)) && decide (leAt b 5 1 = 1) && decide (leAt b 6 1 = 0)
  sigShape g && (if first then decide (sigHashes g = sliceAt b 0x28 96) && sigEcOk g msg && sigLmsOk g msg else decide (s.ownerCode g msg = 0))

/-- A fuse request: 0 DONE, 1 REFUSED signature, 2 REFUSED state, 3 REFUSED last live slot. -/
def fuseServe (s : State) (b : List Byte) : State × Nat :=
  let k := 4 + leAt b 6 1
  let revoked := { s with sec := { s.sec with revoke := s.sec.revoke ||| BitVec.ofNat 8 (2 ^ k) } }
  if !(s.fuseShape b && s.fuseSigned b (sliceAt b 160 sigLen)) then (s, 1)
  else if leAt b 5 1 = 1 then
    if s.programmed k then (s, 2)
    else ({ s with sec := { s.sec with keyHash := SMap.set [] s.sec.keyHash k (sliceAt b 0x28 96) } }.burned.showSec, 0)
  else if !s.programmed k then (s, 2)
  else if s.sec.revoke.getLsbD k then (s, 0)
  else if !(List.range 4).any (fun j => revoked.liveKey (4 + j)) then (s, 3)
  else (revoked.burned.showSec, 0)

/-- The SP serves the fuse request: one that cannot be read whole is refused, and a page fault waits for the resume. -/
def serveFuse (s : State) : State :=
  let a := s.get (rid .secFuseAddr) 0 40
  match s.fetchStop 29 a (160 + sigLen) false with
  | some (1, o) => s.haltFetch 29 (a + o)
  | some _ => s.fuseDone 1
  | none => let r := s.fuseServe (s.pkgBytes a (160 + sigLen)); r.1.fuseDone r.2

/-! ### Attestation (R391, R396, R398) -/

def attBusy (s : State) : Bool := bit (s.reg (rid .secAttStat)) 0
def attDone (s : State) (result len : Nat) : State :=
  (((s.put (rid .secAttStat) 0 1 0).put (rid .secAttStat) 1 1 1).put (rid .secAttStat) 2 2 result).put (rid .secAttStat) 16 16 len
def attNonce (s : State) : List Byte := (List.range 8).flatMap fun w => leN 4 (s.get (rid .secAttNonce w) 0 32)

/-- The SP makes the report that the host asked for. -/
def serveAtt (s : State) : State :=
  let a := s.get (rid .secAttDst) 0 40
  if s.debugOpen then s.attDone 3 0
  else if s.get (rid .secAttCap) 0 16 < s.daxaLen then s.attDone 2 0
  else match s.fetchStop 29 a s.daxaLen true with
    | some (1, o) => s.haltFetch 29 (a + o) true
    | some _ => s.attDone 0 0
    | none =>
      match s.daxa s.attNonce with
      | (s, some r) => (s.looseWrite 0 otherRank a r).attDone 0 r.length
      | (s, none) => s.attDone 1 0

/-- R398, R405: the requests that wait for the SP are served. -/
def serveSp (s : State) : State :=
  if !s.fwRuns 0 || decide (s.chState 29 = 2) then s
  else
    let s := if s.updBusy then s.serveUpd else s
    let s := if s.fuseBusy then s.serveFuse else s
    if s.attBusy then s.serveAtt else s

end State

/-- STAGE at the host's update mailbox (R399). -/
def execUpdStage (s : State) : Host.Outcome State Fault Refusal := .next (s.viaHost fun s => s.updDoorbell 1)

/-- ACTIVATE at the host's update mailbox (R400). -/
def execUpdActivate (s : State) : Host.Outcome State Fault Refusal := .next (s.viaHost fun s => s.updDoorbell 2)

/-- A deferred activation proceeds once the emergency has been clear for 250 ms (R400). -/
def execActivationResume (s : State) : Host.Outcome State Fault Refusal :=
  .next (match s.sec.clearSince with
    | some t => if s.deferred && decide (s.sec.upd = .staged) && !s.emergency && decide (t + 250000000 ≤ s.now) && s.fwRuns 0 then s.startActivation else s
    | none => s)

/-- The MP hands off to the new image at step 6 of a guard, or at once while the generator is stopped (R401, R402): it writes its record, the
SP checks the update slot against the staged digest, and the new MP accepts the record, or finds a fault in its body. -/
def execActivationHandoff (accepted : Bool) (s : State) : Host.Outcome State Fault Refusal :=
  .next (
    if s.sec.upd = .activating ∧ !s.handedOff ∧ s.fwRuns 0 ∧ s.fwRuns 1 ∧ s.atStep6 then
      let s := s.writeHoff 1
      if accepted && s.hoffOk 1 (s.slotImage true) && decide (sha384 ((s.slotImage true).take (State.sigStart (s.slotImage true))) = s.sec.stagedD) then
        { s with sec := { s.sec with replaced := SMap.set false s.sec.replaced 1 true } }
      else s.rollback 1
    else s)

/-- The TP, once no load is in progress, then each supervisor in turn is replaced (R401): a supervisor through its checkpoint, a handoff
record. -/
def execComponentReplacement (proc : Nat) (accepted : Bool) (s : State) : Host.Outcome State Fault Refusal :=
  .next (
    if s.sec.upd = .activating ∧ s.handedOff ∧ s.nextReplaced = some proc ∧ s.fwRuns 0 ∧ s.fwRuns 1 ∧ s.fwRuns proc ∧
        (proc ≠ 2 ∨ s.rig.queue = []) then
      let s := if proc = 2 then s else s.writeHoff proc
      if accepted && (decide (proc = 2) || s.hoffOk proc (s.slotImage true)) then
        let s := { s with sec := { s.sec with replaced := SMap.set false s.sec.replaced proc true } }
        let s := if proc = 2 then s.newTranslator else s
        if s.nextReplaced = none then s.enterTrial else s
      else s.rollback 1
    else s)

/-- COMMIT at the host's update mailbox (R403). -/
def execUpdCommit (s : State) : Host.Outcome State Fault Refusal := .next (s.viaHost fun s => s.updDoorbell 3)

/-- CANCEL at the host's update mailbox (R404). -/
def execUpdCancel (s : State) : Host.Outcome State Fault Refusal := .next (s.viaHost fun s => s.updDoorbell 4)

/-- TRIAL has lasted 30 s without a commit (R404). -/
def execTrialTimeout (s : State) : Host.Outcome State Fault Refusal :=
  .next (if s.sec.upd = .trial ∧ s.sec.trialAt + 30000000000 ≤ s.now then s.rollback 2 else s)

/-- The host asks for a report through SEC_ATT_DB (R398). -/
def execAttestRequest (s : State) : Host.Outcome State Fault Refusal :=
  .next (s.viaHost fun s =>
    if s.attBusy then s
    else
      let s := s.put (rid .secAttStat) 0 1 1
      if s.fwRuns 0 then s.serveAtt else s)

/-- The host submits the fuse request at SEC_FUSE_ADDR (R389). -/
def execFuseRequest (s : State) : Host.Outcome State Fault Refusal :=
  .next (s.viaHost fun s =>
    if s.fuseBusy then s
    else
      let s := s.put (rid .secFuseStat) 0 1 1
      if s.fwRuns 0 then s.serveFuse else s)

/-- The host draws a new nonce through SEC_NONCE_NEW (R389, R407). -/
def execNonceNew (s : State) : Host.Outcome State Fault Refusal := 
  .next (s.viaHost fun s => if s.fuseBusy || !s.fwRuns 0 then s else s.drawNonce)

end Sys2Proof.Machine
end

