-- ==== Sys2Proof/Machine/Container.lean ====
section
/-! DEFINITION. Containers (R172 to R182): what one says, the format and version checks of Table 9.4 steps 3 and 4, and the reading of
instruction words (R187 to R199) that the later checks need. -/

namespace Sys2Proof.Machine

/-! ### Faults of a byte file -/

/-- A fault at an offset, where a condition holds. -/
def badIf (c : Bool) (off : Nat) : Option Nat := if c then some off else none

/-- The first fault of a list. -/
def firstBad {α : Type} (l : List (Option α)) : Option α := l.findSome? id

/-- The first byte of `n` from `a` that is not zero. -/
def nonZero (b : List Byte) (a n : Nat) : Option Nat := ((List.range n).find? fun i => decide (b.getD (a + i) 0 ≠ 0)).map (a + ·)

/-- R173: the first fault of a section table of `n` entries whose last kind, `kinds`, is SIG. -/
def tableFault (b : List Byte) (n kinds : Nat) : Option Nat :=
  let t := sectTable b n
  let top := 0x60 + 16 * n
  let entry (i : Nat) : Option Nat :=
    let e := t.getD i (0, 0, 0)
    let o := 0x60 + 16 * i
    let prev := if i = 0 then 0 else (t.getD (i - 1) (0, 0, 0)).1
    firstBad [badIf (!(decide (prev < e.1) && decide (e.1 ≤ kinds))) o, badIf (decide (leAt b (o + 12) 4 ≠ 0)) (o + 12),
      badIf (decide (e.2.1 % 16 ≠ 0 ∨ e.2.1 < top ∨ b.length < e.2.1 + e.2.2)) (o + 4)]
  let within (i : Nat) : Option Nat :=
    let a := (t.getD i (0, 0, 0)).2.1
    badIf (decide ((t.getD i (0, 0, 0)).2.2 ≠ 0) && (List.range n).any fun j => decide (j ≠ i) && decide ((t.getD j (0, 0, 0)).2.1 ≤ a ∧ a < (t.getD j (0, 0, 0)).2.1 + (t.getD j (0, 0, 0)).2.2)) a
  let gap (i : Nat) : Option Nat :=
    badIf (decide (b.getD (top + i) 0 ≠ 0) && !(t.any fun e => decide (e.2.1 ≤ top + i ∧ top + i < e.2.1 + e.2.2))) (top + i)
  let sig := match sectAt b n kinds with
    | some (o, k) => badIf (decide (o + k ≠ b.length) || t.any fun e => decide (o < e.2.1)) o
    | none => none
  firstBad [(List.range n).findSome? entry, (List.range n).findSome? within, (List.range (b.length - top)).findSome? gap, sig]

/-- Table 7.3: the first fault of a signature section at offset `o`. -/
def sigFault (b : List Byte) (o k : Nat) : Option Nat :=
  firstBad [badIf (decide (k ≠ sigLen ∨ leAt b o 1 ≠ 1)) o, badIf (decide (3 < leAt b (o + 1) 1)) (o + 1), nonZero b (o + 2) 2,
    nonZero b (o + 0x65) 3, nonZero b (o + 0xC0C) 4]

/-! ### Sections of entries with a 16-byte header (Table 7.2, Table 7.7) -/

/-- The entries of a section from its offset `o`, each with the offset at which it starts, and the offset of one that does not fit. -/
def entriesOf (size : List Byte → Nat) : Nat → Nat → List Byte → List (Nat × List Byte) × Option Nat
  | 0, _, _ => ([], none)
  | fuel + 1, o, b =>
    if b.isEmpty then ([], none)
    else
      let n := 16 + size b
      if b.length < n then ([], some o)
      else
        let r := entriesOf size fuel (o + n) (b.drop n)
        ((o, b.take n) :: r.1, r.2)

def pad16 (n : Nat) : Nat := (n + 15) / 16 * 16

/-- The entries of the CBK, SCALE and CARRY sections. -/
def boxSects (b : List Byte) : Nat := leAt b 0x0E 2
def boxSect (b : List Byte) (kind : Nat) : List Byte := sectBytes b (boxSects b) kind
def boxOff (b : List Byte) (kind : Nat) : Nat := ((sectAt b (boxSects b) kind).getD (0, 0)).1
def boxEntries (b : List Byte) (kind : Nat) (size : List Byte → Nat) : List (Nat × List Byte) × Option Nat :=
  entriesOf size (boxSect b kind).length (boxOff b kind) (boxSect b kind)
def cbkEntries (b : List Byte) : List (Nat × List Byte) × Option Nat := boxEntries b 4 fun e => leAt e 2 2
def scaleEntries (b : List Byte) : List (Nat × List Byte) × Option Nat := boxEntries b 5 fun e => pad16 (2 * leAt e 4 4)
def carryEntries (b : List Byte) : List (Nat × List Byte) × Option Nat := boxEntries b 6 fun e => pad16 (leAt e 4 4)

/-! ### What a container says -/

/-- R178: the tensor descriptor in 64 bytes. -/
def tensorOf (d : List Byte) : Tensor :=
  { type := leAt d 2 1, layout := leAt d 3 1, rank := leAt d 4 1, kind := leAt d 5 1
    dbuf := decide (leAt d 6 2 % 2 = 1), genfree := decide (leAt d 6 2 / 2 % 2 = 1), counted := decide (leAt d 6 2 / 4 % 2 = 1)
    exp2 := decide (leAt d 6 2 / 8 % 2 = 1), dims := (List.range 4).map fun i => leAt d (8 + 4 * i) 4
    cbk := leAt d 0x18 2, scale := leAt d 0x1A 2, gsz := leAt d 0x1C 1, smode := leAt d 0x1D 1, bind := leAt d 0x1E 2
    satLimit := BitVec.ofNat 32 (leAt d 0x20 4), rtzLimit := BitVec.ofNat 32 (leAt d 0x24 4), coff := leAt d 0x28 4, csize := leAt d 0x2C 4
    fallback := BitVec.ofNat 16 (leAt d 0x30 2), k := BitVec.ofNat 32 (leAt d 0x34 4) }

/-- Descriptor `i` of TENS. -/
def tensBytes (b : List Byte) (i : Nat) : List Byte := sliceAt (boxSect b 2) (16 + 64 * i) 64
def tensCount (b : List Byte) : Nat := leAt (boxSect b 2) 0 4

/-- Instruction `i` of CODE. -/
def codeWord (b : List Byte) (i : Nat) : BitVec 128 := BitVec.ofNat 128 (leAt (boxSect b 1) (16 * i) 16)

/-- A table entry with values of `w` bytes. -/
def entryOf (w n : Nat) (isWeight : Bool) (e : List Byte) : TableEntry :=
  ⟨leAt e 0 2, isWeight, (List.range n).map fun i => BitVec.ofNat 16 (leAt e (16 + w * i) w)⟩

/-- R174: the digests. -/
def boxDigestP (b : List Byte) : List Byte :=
  sha384 (b.take 0x20 ++ sliceAt b 0x60 (16 * boxSects b) ++ boxSect b 1 ++ boxSect b 2 ++ boxSect b 7)
def boxDigestW (b : List Byte) : List Byte := sha384 (boxSect b 3 ++ boxSect b 4 ++ boxSect b 5 ++ boxSect b 6)
def boxDigestD (b : List Byte) : List Byte :=
  sha384 (match sectAt b (boxSects b) 8 with
    | some (o, _) => b.take o
    | none => b)

/-- A container file, read. -/
def parseBox (b : List Byte) : Container :=
  { progId := BitVec.ofNat 32 (leAt b 0x14 4), phases := leAt b 0x0C 2, placed := decide (leAt b 8 4 % 2 = 1), fenjaMin := leAt b 4 2
    code := (List.range ((boxSect b 1).length / 16)).map (codeWord b)
    tensors := (List.range (tensCount b)).map fun i => tensorOf (tensBytes b i)
    const := boxSect b 3
    cbks := (cbkEntries b).1.map fun e => entryOf 1 (leAt e.2 2 2) (decide (leAt e.2 4 1 = 0)) e.2
    scales := (scaleEntries b).1.map fun e => entryOf 2 (leAt e.2 4 4) (decide (leAt e.2 2 1 = 1)) e.2
    carry := (carryEntries b).1.map fun e => (leAt e.2 0 2, sliceAt e.2 16 (leAt e.2 4 4))
    digestP := boxDigestP b, digestW := boxDigestW b }

/-! ### Instruction words (R187 to R199) -/

/-- Bits [hi:lo] of an instruction. -/
def insF (w : BitVec 128) (hi lo : Nat) : Nat := w.toNat / 2 ^ lo % 2 ^ (hi + 1 - lo)
def insClass (w : BitVec 128) : Nat := insF w 3 0
def insOp (w : BitVec 128) : Nat := insF w 9 4
def insCtl (w : BitVec 128) : Nat := insF w 31 16
/-- The tids of the operands of Table 7.15a. -/
def insDst (w : BitVec 128) : Nat := insF w 43 32
def insA (w : BitVec 128) : Nat := insF w 59 48
def insB (w : BitVec 128) : Nat := insF w 75 64
def insC (w : BitVec 128) : Nat := insF w 91 80
def insRec (w : BitVec 128) : Nat := insF w 127 112
/-- The displacement of a branch. -/
def insDisp (w : BitVec 128) : Int := (BitVec.ofNat 20 (insF w 115 96)).toInt

/-- The instruction takes effect whatever its predicate register holds: pd0, not inverted (R185, R187). -/
def insAlways (w : BitVec 128) : Bool := decide (insF w 12 10 = 0 ∧ insF w 13 13 = 0)
/-- It never takes effect. -/
def insNever (w : BitVec 128) : Bool := decide (insF w 12 10 = 0 ∧ insF w 13 13 = 1)

/-- The instruction names a layer record, an epilogue record in its own record field, or an eps record. -/
def namesLayer (w : BitVec 128) : Bool :=
  let c := insClass w
  decide (c = 3 ∨ c = 4 ∨ c = 6 ∧ (insOp w = 0x10 ∨ insOp w = 0x11))
def namesEpi (w : BitVec 128) : Bool := decide (insClass w = 2 ∨ insClass w = 10 ∧ insOp w = 8)
def namesEps (w : BitVec 128) : Bool := decide (insClass w = 6 ∧ (insOp w = 0x0E ∨ insOp w = 0x0F))

/-! ### Format: Table 9.4 step 3 -/

/-- R172, Table 7.1: the header. -/
def boxHeader (b : List Byte) : Option Nat :=
  firstBad [badIf (decide (b.take 4 ≠ [0x46, 0x4E, 0x4A, 0x41])) 0, badIf (decide (leAt b 6 2 ≠ 0x60)) 6, badIf (decide (1 < leAt b 8 4)) 8,
    badIf (decide (leAt b 0x0C 2 = 0 ∨ 256 < leAt b 0x0C 2)) 0x0C, badIf (decide (leAt b 0x0E 2 < 2 ∨ 8 < leAt b 0x0E 2)) 0x0E,
    nonZero b 0x18 8, nonZero b 0x50 16]

/-- R173, Table 7.2: CODE and TENS are there and have their sizes. -/
def boxSizes (b : List Byte) : Option Nat :=
  let code := (boxSect b 1).length
  let tens := (boxSect b 2).length
  firstBad [badIf ((sectAt b (boxSects b) 1).isNone || (sectAt b (boxSects b) 2).isNone) 0x60,
    badIf (decide (code % 16 ≠ 0 ∨ code < 16 ∨ 0x100000 < code)) (boxOff b 1),
    badIf (decide (tens < 16 ∨ 4096 < tensCount b ∨ tens ≠ 16 + 64 * tensCount b)) (boxOff b 2), nonZero b (boxOff b 2 + 4) 12]

/-- R178 to R180: descriptor `i` of TENS. -/
def tensorFault (b : List Byte) (i : Nat) : Option Nat :=
  let o := boxOff b 2 + 16 + 64 * i
  let t := tensorOf (tensBytes b i)
  let dim (j : Nat) : Option Nat := badIf (decide (t.dims.getD j 0 = 0 ∨ t.rank ≤ j ∧ t.dims.getD j 0 ≠ 1)) (o + 8 + 4 * j)
  let bytes := t.storeBytes
  firstBad [badIf (decide (leAt b o 2 ≠ i)) o, badIf (decide (t.type = 0 ∨ 8 < t.type)) (o + 2), badIf (decide (2 < t.layout)) (o + 3),
    badIf (decide (t.rank < 2 ∨ 4 < t.rank ∨ t.layout = 2 ∧ t.rank ≠ 2)) (o + 4), badIf (decide (5 < t.kind)) (o + 5),
    badIf (decide (16 ≤ leAt b (o + 6) 2) || decide (t.kind = 1) && !t.dbuf) (o + 6), (List.range 4).findSome? dim,
    badIf (decide (2 ^ 32 < max (prodList t.dims) t.size)) (o + 8), badIf (decide (3 < t.gsz)) (o + 0x1C), badIf (decide (2 < t.smode)) (o + 0x1D),
    badIf (decide (t.bind ≠ 0 ∧ t.kind ≠ 1 ∧ t.kind ≠ 2)) (o + 0x1E),
    badIf (decide (t.kind = 5 ∧ (t.type ≠ 7 ∨ t.rank ≠ 2 ∨ t.dims.take 2 ≠ [1, 772] ∨ t.csize ≠ 3088))) o,
    badIf (decide ((t.kind = 3 ∨ t.kind = 5) ∧ (t.coff % 16 ≠ 0 ∨ (boxSect b 3).length < t.coff + t.csize ∨ t.kind = 3 ∧ t.csize ≠ bytes))) (o + 0x28),
    nonZero b (o + 0x32) 2, nonZero b (o + 0x38) 8]

/-- The indices of a section's entries are distinct: the first that repeats. -/
def repeated (es : List (Nat × List Byte)) : Option Nat :=
  (List.range es.length).findSome? fun i =>
    badIf ((es.take i).any fun e => decide (leAt e.2 0 2 = leAt (es.getD i (0, [])).2 0 2)) (es.getD i (0, [])).1

/-- Table 7.7: the CBK and SCALE sections. -/
def cbkFault (b : List Byte) : Option Nat :=
  let r := cbkEntries b
  firstBad [r.1.findSome? fun e =>
      firstBad [badIf (decide (leAt e.2 2 2 ≠ 16 ∧ leAt e.2 2 2 ≠ 256 ∨ 1 < leAt e.2 4 1)) e.1, (nonZero e.2 5 11).map (e.1 + ·)],
    repeated r.1, r.2]
def scaleFault (b : List Byte) : Option Nat :=
  let r := scaleEntries b
  firstBad [r.1.findSome? fun e =>
      let n := 16 + 2 * leAt e.2 4 4
      firstBad [badIf (decide (1 < leAt e.2 2 1 ∨ leAt e.2 3 1 ≠ 0)) e.1, (nonZero e.2 8 8).map (e.1 + ·), (nonZero e.2 n (e.2.length - n)).map (e.1 + ·)],
    repeated r.1, r.2]

/-- Table 7.2: the CARRY section names carried tensors, each once, with their whole size. -/
def carryFault (b : List Byte) : Option Nat :=
  let r := carryEntries b
  firstBad [r.1.findSome? fun e =>
      let t := tensorOf (tensBytes b (leAt e.2 0 2))
      let n := 16 + leAt e.2 4 4
      firstBad [badIf (decide (tensCount b ≤ leAt e.2 0 2 ∨ leAt e.2 2 2 ≠ 0 ∨ t.kind ≠ 4 ∨ leAt e.2 4 4 ≠ t.storeBytes)) e.1,
        (nonZero e.2 8 8).map (e.1 + ·), (nonZero e.2 n (e.2.length - n)).map (e.1 + ·)],
    repeated r.1, r.2]

/-- R175: HINT records. -/
def hintFault : Nat → Nat → List Byte → Option Nat
  | 0, _, _ => none
  | fuel + 1, o, b =>
    let n := leAt b 2 2
    if b.isEmpty then none
    else if b.length < 4 ∨ n < 4 ∨ b.length < n ∨ leAt b 0 2 = 1 ∧ n ≠ 8 then some o
    else hintFault fuel (o + n) (b.drop n)

/-- Table 7.8: the epilogue record at `o`. -/
def epiFault (b : List Byte) (o : Nat) : Option Nat :=
  let q := leAt b (o + 1) 1
  firstBad [badIf (decide (4 < leAt b o 1)) o, badIf (decide (4 < q)) (o + 1), badIf (decide (q ≠ 1 ∧ q ≠ 2 ∧ leAt b (o + 2) 2 ≠ 0xFFFF)) (o + 2),
    nonZero b (o + 0x14) 12]

/-- Table 7.9: the layer record at `o`. -/
def layerFault (b : List Byte) (o : Nat) : Option Nat :=
  firstBad [badIf (decide (1 < leAt b (o + 6) 1)) (o + 6), badIf (decide (1 < leAt b (o + 7) 1)) (o + 7), nonZero b (o + 0x0F) 1, nonZero b (o + 0x16) 10]

/-- R182: a record of `n` bytes lies in the first 1 MiB of CONST: the fault is at the field that names it. -/
def recordFault (b : List Byte) (idx n at_ : Nat) (check : Nat → Option Nat) : Option Nat :=
  if min (boxSect b 3).length 0x100000 < 16 * idx + n then some at_ else check (boxOff b 3 + 16 * idx)

/-- The records that instruction `i` names. -/
def recordsFault (b : List Byte) (i : Nat) : Option Nat :=
  let w := codeWord b i
  let o := boxOff b 1 + 16 * i + 14
  let epi (idx at_ : Nat) : Option Nat := recordFault b idx 32 at_ (epiFault b)
  if namesEpi w then epi (insRec w) o
  else if namesLayer w then
    recordFault b (insRec w) 32 o fun a =>
      firstBad [layerFault b a, if insClass w = 6 then none else epi (leAt b (a + 0x14) 2) (a + 0x14)]
  else if namesEps w then recordFault b (insRec w) 16 o fun a => nonZero b (a + 4) 12
  else none

/-- Table 9.4 step 3: the byte offset of the first fault. -/
def boxFault (b : List Byte) : Option Nat :=
  match firstBad [boxHeader b, tableFault b (boxSects b) 8, boxSizes b] with
  | some o => some o
  | none =>
    firstBad [(List.range (tensCount b)).findSome? (tensorFault b), cbkFault b, scaleFault b, carryFault b,
      hintFault (boxSect b 7).length (boxOff b 7) (boxSect b 7), (sectAt b (boxSects b) 8).bind fun q => sigFault b q.1 q.2,
      (List.range ((boxSect b 1).length / 16)).findSome? (recordsFault b), badIf (decide (boxDigestP b ≠ sliceAt b 0x20 48)) 0x20]

/-! ### Version: Table 9.4 step 4 -/

/-- Table 7.4: the version that an instruction needs. -/
def insVersion (c : Container) (w : BitVec 128) : Nat :=
  let k := insClass w
  if k = 2 ∧ insOp w = 2 ∨ k = 3 ∧ leAt c.const (16 * insRec w + 6) 1 = 1 then 0x101
  else if k = 4 ∨ k = 5 ∧ insCtl w % 4 = 2 ∧ insOp w ≠ 7 ∨ k = 10 ∧ insOp w = 0x0C then 0x102
  else if k = 5 ∧ insOp w = 7 ∨ k = 6 ∧ insOp w = 0x14 ∨ k = 10 then 0x103
  else 0x100

/-- The version that a tensor needs. -/
def tensorVersion (t : Tensor) : Nat :=
  if t.smode = 2 || t.counted then 0x102 else if t.type = 3 ∧ t.layout ≠ 2 then 0x101 else 0x100

/-- R177: the version of the newest feature that the container uses. -/
def boxVersion (b : List Byte) (c : Container) : Nat :=
  let own := if c.placed || (sectAt b (boxSects b) 7).isSome then 0x103 else 0x100
  let n := c.code.foldl (fun v w => max v (insVersion c w)) own
  let n := c.tensors.foldl (fun v t => max v (tensorVersion t)) n
  c.cbks.foldl (fun v e => if !e.isWeight ∧ e.body.length = 16 then max v 0x101 else v) n

/-- Table 9.4 step 4. -/
def versionOk (b : List Byte) (c : Container) : Bool :=
  decide (0x100 ≤ c.fenjaMin ∧ c.fenjaMin ≤ 0x103 ∧ boxVersion b c ≤ c.fenjaMin)

end Sys2Proof.Machine
end

