-- ==== Sys2Proof/Machine/ProgCheck.lean ====
section
/-! DEFINITION. The checks of a container that need no schedule: signatures, policy, encoding, codebooks, scales and bindings (Table 9.4
steps 5 to 7 and 9 to 11). Each gives the response of a refusal, or none. -/

namespace Sys2Proof.Machine

/-- A refusal where a condition holds. -/
def refuseIf (c : Bool) (r : Resp) : Option Resp := if c then some r else none

/-- R388: a SIG section against the owner slots: one that is absent may be required, one that is present is always verified. -/
def State.sigCheck (s : State) (sig : Option (List Byte)) (msg : List Byte) (required : Bool) (step : Nat) : Option Resp :=
  match sig with
  | none => refuseIf required (refuse 0x05 step 0xFFFF 0xFF 3)
  | some g => let c := s.ownerCode g msg; refuseIf (decide (c ≠ 0)) (refuse 0x05 step 0xFFFF (sigSlot g) c)

/-! ### Encoding: step 7 (R187 to R190, R196 to R199) -/

/-- Tables 7.12, 7.13, 7.15 and 7.16: the ops of a class. -/
def classOps (c : Nat) : List Nat :=
  match c with
  | 0 => List.range 14 ++ [0x10, 0x11, 0x12, 0x13, 0x18, 0x1A, 0x1B, 0x1C, 0x20, 0x21, 0x22, 0x28, 0x29]
  | 1 => List.range 10
  | 2 => List.range 3
  | 3 | 4 | 7 | 9 => [0]
  | 5 => List.range 8
  | 6 => List.range 21
  | 8 => [0, 1]
  | 10 => [0, 1, 2, 3, 8, 9, 10, 11, 12]
  | _ => []

/-- Bits [hi:lo] of each pair are zero. -/
def insZero (w : BitVec 128) (l : List (Nat × Nat)) : Bool := l.all fun p => decide (insF w p.1 p.2 = 0)

/-- The scalar class. -/
def scalarOk (ts : List Tensor) (w : BitVec 128) : Bool :=
  let op := insOp w
  insZero w [(127, 96)] && (op == 0x29 || insZero w [(63, 48)]) && (if op = 0x18 then decide (insCtl w < 8) else decide (insCtl w = 0)) &&
    (op != 0x28 || decide (insF w 95 64 < 5)) && (op != 0x29 || decide ((ts.getD (insA w) { (default : Tensor) with kind := 0 }).kind = 1))

/-- The branch class: the target lies in CODE, and a backward branch has a bound. -/
def branchOk (len i : Nat) (w : BitVec 128) : Bool :=
  let d := insDisp w
  let t := (i : Int) + d
  decide (insCtl w = 0) && insZero w [(47, 44), (127, 116)] && decide (d ≠ 0 ∧ 0 ≤ t ∧ t < len) && (insOp w != 9 || insZero w [(42, 35)]) &&
    decide (if d < 0 then insF w 63 48 ≠ 0 else insF w 63 48 = 0)

/-- Fields of Table 7.15a that a tensor-class op uses: b, c and the record. -/
def usesB (w : BitVec 128) : Bool :=
  match insClass w with
  | 5 => decide (6 ≤ insOp w) && decide (insCtl w / 256 % 2 = 1)
  | 6 => decide (insOp w ≤ 4 ∨ insOp w = 7 ∨ insOp w = 8 ∨ 0x0C ≤ insOp w ∧ insOp w ≤ 0x0F ∨ insOp w = 0x14)
  | _ => true
def usesC (w : BitVec 128) : Bool :=
  match insClass w with
  | 2 | 3 | 4 => decide (insCtl w % 2 = 1)
  | 6 => decide (insOp w = 7 ∨ insOp w = 8 ∨ insOp w = 0x0E)
  | _ => false
/-- R195: word B is an immediate. -/
def hasImm (w : BitVec 128) : Bool := decide (insClass w = 6 ∧ insOp w ≤ 6 ∧ insCtl w % 2 = 1)
def usesRec (w : BitVec 128) : Bool := namesEpi w || namesLayer w || namesEps w
/-- The op writes or takes its dst operand: a reduction into a scalar register does not. -/
def usesDst (w : BitVec 128) : Bool := !(decide (insClass w = 5) && decide (insCtl w % 4 = 1))

/-- The tids that a tensor-class instruction names. -/
def namedTids (w : BitVec 128) : List Nat :=
  (if usesDst w then [insDst w] else []) ++ [insA w] ++ (if usesB w && !hasImm w && decide (insClass w ≠ 7) then [insB w] else []) ++
    (if usesC w then [insC w] else [])

/-- The ctl fields of a tensor class. -/
def tensorCtl (w : BitVec 128) : Bool :=
  let c := insCtl w
  match insClass w with
  | 5 => decide (c % 4 ≠ 3) && decide (c / 512 = 0) && (decide (6 ≤ insOp w) || decide (c / 256 % 2 = 0))
  | 6 => if insOp w ≤ 6 then decide (c ≤ 1) else if insOp w = 7 then decide (c < 16 ∧ c % 2 = 0 ∧ c / 2 ≠ 4 ∧ c / 2 ≠ 5) else decide (c = 0)
  | 7 => decide (c % 8 ≤ 4) && decide (c / 1024 = 0) && decide (if c % 8 = 2 ∨ c % 8 = 3 then c / 8 % 64 ≠ 0 else c / 8 % 64 = 0)
  | _ => decide (c ≤ 1)

/-- The tensor classes: operands named, fields that the op does not use zero (R191). -/
def tensorOk (ts : List Tensor) (w : BitVec 128) : Bool :=
  tensorCtl w && (namedTids w).all (fun t => decide (t < ts.length)) &&
    (if usesDst w then true else insZero w [(47, 37), (111, 96)]) &&
    (if insClass w = 7 then insZero w [(95, 74), (127, 112)]
     else if hasImm w then insZero w [(127, 112)] && (decide ((ts.getD (insA w) default).type ≠ 1) || insZero w [(95, 72)])
     else (usesB w || insZero w [(79, 64)]) && (usesC w || insZero w [(95, 80)]) && (usesRec w || insZero w [(127, 112)]))

/-- R197: the flag class. -/
def flagOk (w : BitVec 128) : Bool :=
  decide (insCtl w ≤ 1) && decide (insF w 41 32 ≤ if insCtl w = 1 then 255 else 1023) && insZero w [(63, 42), (95, 80)] && decide (insF w 79 64 ≠ 0)

/-- Table 7.16: the engine class. -/
def engineOk (ts : List Tensor) (w : BitVec 128) : Bool :=
  let c := insCtl w
  let named := decide (insA w < ts.length)
  match insOp w with
  | 0 => decide (c < 128 ∧ c % 4 < 3 ∧ c / 4 % 4 < 3) && insZero w [(47, 40), (127, 89)] && named
  | 1 => decide (c ≤ 1) && insZero w [(47, 40), (127, 64)] && named
  | 2 => decide (c ≤ 1) && insZero w [(63, 40), (127, 80)]
  | 3 => decide (c ≤ 1) && insZero w [(63, 40), (127, 64)]
  | 8 => decide (c ≤ 1) && insZero w [(47, 40), (95, 82)] && named && (if c = 1 then decide (insF w 111 96 < ts.length) else insZero w [(111, 96)])
  | 11 => decide (c = 0) && insZero w [(47, 40), (127, 82)] && named
  | 12 => decide (c ≤ 1) && insZero w [(47, 37), (127, 64)] && named
  | _ => decide (c = 0) && insZero w [(63, 40), (127, 73)]

/-- An instruction is one that chapter 7 defines. -/
def insOk (c : Container) (i : Nat) (w : BitVec 128) : Bool :=
  (classOps (insClass w)).contains (insOp w) && insZero w [(15, 14)] &&
    match insClass w with
    | 0 => scalarOk c.tensors w
    | 1 => branchOk c.code.length i w
    | 8 => flagOk w
    | 9 => decide (insCtl w = 0) && insZero w [(127, 32)]
    | 10 => engineOk c.tensors w && (c.placed || decide (insOp w = 12))
    | _ => tensorOk c.tensors w

/-- Where an instruction may continue (R189, R198). -/
def successors (i : Nat) (w : BitVec 128) : List Nat :=
  if insClass w = 9 ∧ insAlways w then []
  else if insClass w = 1 ∧ !insNever w then
    let t := ((i : Int) + insDisp w).toNat
    if insOp w = 0 ∧ insAlways w then [t] else [t, i + 1]
  else [i + 1]

/-- The instructions on paths from those of a list. -/
def reachable (code : List (BitVec 128)) : Nat → List Nat → List Nat → List Nat
  | 0, _, seen => seen
  | _ + 1, [], seen => seen
  | fuel + 1, i :: todo, seen =>
    if seen.contains i then reachable code fuel todo seen
    else match code[i]? with
      | some w => reachable code fuel (successors i w ++ todo) (i :: seen)
      | none => reachable code fuel todo seen

/-- R198: the first instruction from which a path can run past the last. -/
def runsPast (code : List (BitVec 128)) : Option Nat :=
  let on := reachable code (2 * code.length + 1) [0] []
  (List.range code.length).find? fun i => on.contains i && (successors i (code.getD i 0)).contains code.length

/-- R190: the index of the 65th backward branch. -/
def tooManyBack (code : List (BitVec 128)) : Option Nat :=
  ((List.range code.length).filter fun i => decide (insClass (code.getD i 0) = 1 ∧ insDisp (code.getD i 0) < 0))[64]?

/-- Step 7: the index of the first instruction that is not encoded as chapter 7 has it. -/
def encodingFault (c : Container) : Option Nat :=
  firstBad [(List.range c.code.length).find? fun i => !insOk c i (c.code.getD i 0), tooManyBack c.code, runsPast c.code]

/-! ### Codebooks: step 9 (R64, R145, R155, R181) -/

/-- A fault of a codebook: its index and the entry out of order. -/
def cbkBad (i : Nat) (k : Nat := 0) : Option (Nat × Nat) := some (i, k)

/-- The entry of the CBK section with an index is there, of a size and a kind. -/
def wantCbk (c : Container) (i n : Nat) (weight : Bool) : Option (Nat × Nat) :=
  match c.cbks.find? fun e => decide (e.index = i) with
  | some e => if e.isWeight = weight ∧ e.body.length = n then none else cbkBad i
  | none => cbkBad i

/-- The first entry of a list that does not exceed the one before it. -/
def notRising : List Int → Nat → Option Nat
  | a :: b :: l, k => if b ≤ a then some k else notRising (b :: l) (k + 1)
  | _, _ => none

/-- A byte of the record at a record index, and a word. -/
def recB (c : Container) (r o : Nat) : Nat := leAt c.const (16 * r + o) 1
def recH (c : Container) (r o : Nat) : Nat := leAt c.const (16 * r + o) 2
def recW (c : Container) (r o : Nat) : Word := BitVec.ofNat 32 (leAt c.const (16 * r + o) 4)

/-- The epilogue record that an instruction uses, directly or through its layer record. -/
def epiOf (c : Container) (w : BitVec 128) : Option Nat :=
  if namesEpi w then some (insRec w) else if insClass w = 3 ∨ insClass w = 4 then some (recH c (insRec w) 0x14) else none

def cTensor (c : Container) (t : Nat) : Tensor := c.tensors.getD t default
def isCode (t : Tensor) : Bool := decide (t.type = 3 ∨ t.type = 4)

/-- The entry with an index rises strictly (R64). -/
def wantRising (c : Container) (i : Nat) : Option (Nat × Nat) := (notRising (c.cbk i) 1).map fun k => (i, k)

/-- A vector operation quantises to its destination's codebook; a nearest resize and a gather of one type copy codes. -/
def quantises (w : BitVec 128) (a d : Tensor) : Bool :=
  decide (insClass w = 6) && isCode d && !(decide (insOp w = 0x12 ∨ insOp w = 0x14) && decide (a.type = d.type ∧ a.cbk = d.cbk))

/-- What an instruction asks of codebooks: those that the row edge decodes activations with, that a vector unit quantises to, and whose
indices the reef compares are rising; count-nonzero compares none. -/
def insCbk (c : Container) (w : BitVec 128) : Option (Nat × Nat) :=
  let a := cTensor c (insA w)
  let d := cTensor c (insDst w)
  let table := insF w 79 64
  firstBad [
    if insClass w = 10 ∧ insOp w = 2 then
      if !(c.cbks.any fun e => decide (e.index = table)) then cbkBad table else if insCtl w = 0 then wantRising c table else none
    else none,
    if quantises w a d then wantRising c d.cbk else none,
    if insClass w = 3 ∧ isCode a ∧ recB c (insRec w) 7 = 0 ∧ !(c.cbk a.cbk).contains 0 then cbkBad a.cbk else none,
    if insClass w = 5 ∧ insOp w ≠ 5 ∧ isCode a then wantRising c a.cbk else none,
    match epiOf c w with
    | some r => let q := recB c r 1; if q = 1 then wantCbk c (recH c r 2) 16 false else if q = 2 then wantCbk c (recH c r 2) 256 false else none
    | none => none]

/-- Step 9: the CBK index and the first entry out of order. -/
def codebookFault (c : Container) : Option (Nat × Nat) :=
  firstBad [c.cbks.findSome? fun e => if e.isWeight then none else (notRising (c.cbk e.index) 1).map fun k => (e.index, k),
    c.tensors.findSome? fun t =>
      if isCode t then wantCbk c t.cbk (if t.type = 3 then 16 else 256) (decide (t.layout = 2)) else if t.cbk ≠ 0xFFFF then cbkBad t.cbk else none,
    c.code.findSome? (insCbk c)]

/-! ### Scales: step 10 (R70, R181, R182) -/

/-- A positive normal FP32. -/
def posNormal (x : Word) : Bool := !Fp.neg x && Fp.isFinite x && decide (Fp.expo x ≠ 0)

/-- The values of the SCALE entry with an index. -/
def scaleBody (c : Container) (i : Nat) : Option TableEntry := c.scales.find? fun e => decide (e.index = i)

/-- A tensor with constant scales names an entry of its kind whose values are positive normal; derived scales have a factor and a
fallback; other types have none. -/
def tensorScale (c : Container) (tid : Nat) : Option (Nat × Nat) :=
  let t := cTensor c tid
  let scaled := decide (t.type = 1 ∨ t.type = 3 ∨ t.type = 4)
  if !scaled && (decide (t.gsz ≠ 0) || decide (t.smode ≠ 0) || decide (t.scale ≠ 0xFFFF)) then some (tid, 0)
  else if t.smode = 1 then
    match scaleBody c t.scale with
    | some e =>
      if e.isWeight ≠ decide (t.layout = 2) then some (tid, 0)
      else (e.body.find? fun v => !posNormal (Fp.ofBf16 v)).map fun v => (tid, v.toNat)
    | none => some (tid, 0)
  else if t.scale ≠ 0xFFFF then some (tid, 0)
  else if t.smode = 2 then
    if !(posNormal (Fp.ofBf16 t.fallback) && Fp.le (Fp.ofBf16 t.fallback) 0x7E800000) then some (tid, t.fallback.toNat)
    else if !posNormal t.k then some (tid, t.k.toNat) else none
  else none

/-- Groups along the reduction of a matrix product or a convolution (R144, R192). -/
def insGroups (c : Container) (w : BitVec 128) : Nat :=
  let a := cTensor c (insA w)
  let g := groupSize (cTensor c (insB w)).gsz
  if insClass w = 2 then cdiv (a.shape.getD (a.rank - 1) 1) g
  else
    let r := insRec w
    let taps := recB c r 0 * recB c r 1
    let cin := a.image.2.1
    if recB c r 6 = 0 ∨ insClass w = 4 then taps * cdiv cin g else cdiv (taps * cin) g

/-- The products of the constant scales of an activation tensor and a weight tensor that meet at a boom: the first outside the FP32 normal
range. -/
def productFault (c : Container) (ta tb groups : Nat) : Option (Nat × Nat) :=
  let a := cTensor c ta
  let b := cTensor c tb
  let n := b.dims.getD 1 1
  (List.range groups).findSome? fun g => (List.range n).findSome? fun j =>
    let sw := c.scaleAt b.scale (g * n + j)
    if posNormal (Fp.mulRne (Fp.ofBf16 (c.scaleAt a.scale g)) (Fp.ofBf16 sw)) then none else some (tb, sw.toNat)

/-- R70: a bias is finite, which only a constant one is known to be (log entry 85). -/
def biasFault (c : Container) (tid : Nat) : Option (Nat × Nat) :=
  let t := cTensor c tid
  if t.kind ≠ 3 then some (tid, 0)
  else (List.range (t.csize / 4)).findSome? fun i =>
    let v : Word := BitVec.ofNat 32 (leAt c.const (t.coff + 4 * i) 4)
    if Fp.isFinite v then none else some (tid, v.toNat)

/-- R181: an activation operand has groups and scales. -/
def actFault (c : Container) (ta : Nat) : Option (Nat × Nat) :=
  if (cTensor c ta).gsz = 0 ∨ (cTensor c ta).smode = 0 then some (ta, 0) else none

/-- R181: a weight operand has groups and constant scales. -/
def wtFault (c : Container) (tb : Nat) : Option (Nat × Nat) :=
  if (cTensor c tb).gsz = 0 ∨ (cTensor c tb).smode ≠ 1 then some (tb, 0) else none

/-- The values of a SCALE entry. -/
def scaleCount (c : Container) (i : Nat) : Nat := match scaleBody c i with | some e => e.body.length | none => 0

/-- R70, R181: an activation tensor meets a weight tensor over a number of groups. -/
def meetFault (c : Container) (ta tb groups : Nat) : Option (Nat × Nat) :=
  let a := cTensor c ta
  let b := cTensor c tb
  if a.smode = 1 ∧ scaleCount c a.scale < groups then some (ta, 0)
  else if scaleCount c b.scale < groups * b.dims.getD 1 1 then some (tb, 0)
  else if a.smode = 1 then productFault c ta tb groups
  else none

/-- R70, R150: the pad scale of a convolution, and, where the layer pads, its products with the scales of the weights. -/
def padFault (c : Container) (w : BitVec 128) : Option (Nat × Nat) :=
  let r := insRec w
  let b := cTensor c (insB w)
  let v := recH c r 0x12
  let sp := Fp.ofBf16 (BitVec.ofNat 16 v)
  if !posNormal sp then some (r, v)
  else if recW c r 8 = 0 then none
  else ((scaleBody c b.scale).map fun e => e.body).bind fun l =>
    (l.find? fun sw => !posNormal (Fp.mulRne sp (Fp.ofBf16 sw))).map fun _ => (r, v)

/-- What a matrix product or a convolution asks of its operands' scales. -/
def operandScale (c : Container) (w : BitVec 128) : Option (Nat × Nat) :=
  firstBad [actFault c (insA w), wtFault c (insB w), meetFault c (insA w) (insB w) (insGroups c w), if usesC w then biasFault c (insC w) else none,
    if insClass w = 3 then padFault c w else none]

/-! ### The weights of placed runs (R83, R89, R199) -/

/-- The weight tensors that the live set and the shadow set of a sail may hold. -/
structure SailWts where
  live : List Nat := []
  shadow : List Nat := []
  deriving DecidableEq, Repr

/-- Two lists, each entry once. -/
def unite (a b : List Nat) : List Nat := a ++ b.filter fun x => !a.contains x

def SailWts.join (a b : SailWts) : SailWts := ⟨unite a.live b.live, unite a.shadow b.shadow⟩
def joinSails (a b : SMap SailWts) : SMap SailWts := b.foldl (fun m e => SMap.set {} m e.1 ((SMap.get {} m e.1).join e.2)) a

/-- The virtual yard and sail of an engine command, as one number. -/
def sailOf (w : BitVec 128) : Nat := insF w 39 32

/-- The sets that a run may use: those after its flip. -/
def flipped (w : BitVec 128) (x : SailWts) : SailWts := if insCtl w / 16 % 2 = 1 then ⟨x.shadow, x.live⟩ else x

/-- The sets after an instruction. -/
def wtsAfter (m : SMap SailWts) (w : BitVec 128) : SMap SailWts :=
  if insClass w ≠ 10 ∨ insNever w then m
  else
    let x := SMap.get {} m (sailOf w)
    let z : SailWts := if insOp w = 1 then { x with shadow := [insA w] } else if insOp w = 0 then flipped w x else x
    SMap.set {} m (sailOf w) (if insAlways w then z else x.join z)

/-- One sweep over the instructions on paths. -/
def wtsSweep (code : List (BitVec 128)) (on : List Nat) (m : SMap (SMap SailWts)) : SMap (SMap SailWts) :=
  on.foldl (fun m i =>
    let out := wtsAfter (SMap.get [] m i) (code.getD i 0)
    (successors i (code.getD i 0)).foldl (fun m t => SMap.set [] m t (joinSails (SMap.get [] m t) out)) m) m

/-- Sweeps until nothing changes. -/
def wtsAll (code : List (BitVec 128)) (on : List Nat) : Nat → SMap (SMap SailWts) → SMap (SMap SailWts)
  | 0, m => m
  | n + 1, m =>
    let m' := wtsSweep code on m
    if m' = m then m else wtsAll code on n m'

/-- The instructions on paths from the entry, in ascending order. -/
def onPaths (code : List (BitVec 128)) : List Nat :=
  let on := reachable code (2 * code.length + 1) [0] []
  (List.range code.length).filter on.contains

/-- Each run of a placed program with a weight tensor that it may meet. -/
def sailPairs (c : Container) : List (Nat × Nat) :=
  let on := onPaths c.code
  let m := wtsAll c.code on (2 * c.code.length * c.code.length + 1) []
  on.flatMap fun i =>
    let w := c.code.getD i 0
    if insClass w = 10 ∧ insOp w = 0 ∧ !insNever w then (flipped w (SMap.get {} (SMap.get [] m i) (sailOf w))).live.map fun t => (i, t) else []

/-- What the runs of a placed program ask of scales. -/
def placedScale (c : Container) : Option (Nat × Nat) :=
  (sailPairs c).findSome? fun q =>
    let b := cTensor c q.2
    meetFault c (insA (c.code.getD q.1 0)) q.2 (cdiv (b.dims.getD 0 1) (groupSize b.gsz))

/-- R70, R182: an epilogue record for a destination. -/
def epiScale (c : Container) (r : Nat) (dst : Tensor) : Option (Nat × Nat) :=
  let lo := recW c r 8
  let hi := recW c r 12
  let out := recW c r 16
  if !(Fp.isFinite (recW c r 4) && Fp.isFinite lo && Fp.isFinite hi && Fp.le lo hi) then some (r, 0)
  else if (if dst.smode = 2 then decide (out = Fp.one) else posNormal out) then none else some (r, out.toNat)

/-- The destination of an instruction with an epilogue: of boom.epi it stands at A. -/
def epiDst (w : BitVec 128) : Nat := if insClass w = 10 then insA w else insDst w

/-- What an instruction asks of scales. -/
def insScale (c : Container) (w : BitVec 128) : Option (Nat × Nat) :=
  firstBad [
    match insClass w with
    | 2 | 3 | 4 => operandScale c w
    | 10 =>
      match insOp w with
      | 0 => actFault c (insA w)
      | 1 => wtFault c (insA w)
      | 8 => if insCtl w = 1 then biasFault c (insF w 111 96) else none
      | _ => none
    | _ => none,
    match epiOf c w with
    | some r => epiScale c r (cTensor c (epiDst w))
    | none => none]

/-- Step 10: the tid or record index, and the value. -/
def scaleFaultOf (c : Container) : Option (Nat × Nat) :=
  firstBad [(List.range c.tensors.length).findSome? (tensorScale c), c.code.findSome? (insScale c), placedScale c]

/-! ### Bindings: step 11 (R294, Table 11.2) -/

/-- Type, layout and dims. -/
structure Shape where
  type : Nat
  layout : Nat
  dims : List Nat
  deriving DecidableEq, Repr

def shapeOf (t : Tensor) : Shape := ⟨t.type, t.layout, t.shape⟩

/-- Samples per second of a rate code. -/
def audioRate (code : Nat) : Nat := if code = 0 then 16000 else if code = 1 then 24000 else if code = 2 then 32000 else 48000

/-- Table 11.2: the tensor of a producer's record, where a program may bind it. -/
def producerShape (rig : List Byte) (kind : Nat) (b : List Byte) : Option Shape :=
  if kind = 2 then
    let dt := leAt b 3 1
    let h := leAt b 6 2
    let w := leAt b 4 2
    some (if dt = 0x1E then ⟨2, 1, [h, 2 * w]⟩ else ⟨if dt = 0x2A then 2 else 8, 0, [1, h, w]⟩)
  else if kind = 3 then
    if leAt b 2 1 = 2 then none else some ⟨2, 0, [if leAt b 2 1 = 1 then 3 else 1, leAt b 14 2, leAt b 12 2]⟩
  else if kind = 4 then some ⟨if leAt b 2 1 = 1 then 7 else 5, 1, [leAt b 1 1, audioRate (leAt b 0 1) * rigPeriod rig / 1000000]⟩
  else if kind = 5 then some ⟨5, 1, [leAt b 1 1, rigPeriod rig * 48 / 1000]⟩
  else if kind = 9 then some ⟨2, 1, [65, 16]⟩
  else none

/-- The byte of a producer's record that names its source number. -/
def sourceByte (kind : Nat) : Option Nat :=
  if kind = 2 then some 11 else if kind = 3 ∨ kind = 4 ∨ kind = 5 then some 3 else if kind = 9 then some 0 else none

/-- A producer's record names source `n`: 0xFF is none in a camera stream's record and a TDM port's. -/
def namesSource (kind : Nat) (b : List Byte) (n : Nat) : Bool :=
  match sourceByte kind with
  | some o => decide (leAt b o 1 = n) && !(decide (kind = 2 ∨ kind = 5) && decide (n = 0xFF))
  | none => false

/-- The MEDIA records of a rig: kinds and bodies. -/
def mediaAll (rig : List Byte) : List (Nat × List Byte) :=
  let m := rigSect rig 9
  (records m.length m).map fun r => (leAt r 0 2, r.drop 4)

/-- The record of source `n`. -/
def sourceRecord (rig : List Byte) (n : Nat) : Option (Nat × List Byte) := (mediaAll rig).find? fun r => namesSource r.1 r.2 n

/-- An encoder session binds source `n`, or a JPEG session whose source no encoder session binds (R307). -/
def codecBinds (rig : List Byte) (n : Nat) : Bool :=
  (mediaAll rig).any fun r => decide (r.1 = 7 ∧ leAt r.2 3 1 = n ∨ r.1 = 8 ∧ leAt r.2 1 1 = n)

namespace State

/-- An admitted program's input binds source `n`. -/
def sourceTaken (s : State) (n : Nat) : Bool := (s.boundInput n).isSome

/-- The output tensor that head `h` of program `p` is. -/
def headTensor (s : State) (p h : Nat) : Option (Nat × Tensor) :=
  if !s.admitted p then none else (s.tensorsOf p).find? fun q => decide (q.2.kind = 2 ∧ q.2.bind = h)

/-- The tensor that an input's bind value names. -/
def bindOk (s : State) (t : Tensor) : Bool :=
  if t.bind < 256 then
    match (sourceRecord s.rig.cur t.bind).bind fun r => producerShape s.rig.cur r.1 r.2 with
    | some sh => !s.sourceTaken t.bind && !codecBinds s.rig.cur t.bind &&
        (decide (shapeOf t = sh) || (decide (sh.type = 2 ∧ t.type = 4) && decide (shapeOf { t with type := 2 } = sh)))
    | none => false
  else
    match s.headTensor (Config.bindOutput t.bind).1 (Config.bindOutput t.bind).2 with
    | some q => decide (shapeOf t = shapeOf q.2)
    | none => false

/-- Step 11: the tid and bind value of the first binding that fails. -/
def bindFault (s : State) (c : Container) : Option (Nat × Nat) :=
  (List.range c.tensors.length).findSome? fun i =>
    let t := cTensor c i
    let before := c.tensors.take i
    let bad := if t.kind = 1 then !s.bindOk t || (decide (t.bind < 256) && before.any fun u => decide (u.kind = 1 ∧ u.bind = t.bind))
      else if t.kind = 2 then decide (63 < t.bind) || before.any fun u => decide (u.kind = 2 ∧ u.bind = t.bind) else false
    if bad then some (i, t.bind) else none

/-! ### The steps together -/

/-- Table 9.4 steps 3 to 7, in order. -/
def progChecks (s : State) (b : List Byte) (c : Container) : Option Resp :=
  firstBad [(boxFault b).map fun o => refuse 0x03 3 0xFFFF o, refuseIf (!versionOk b c) (refuse 0x04 4 0xFFFF c.fenjaMin),
    s.sigCheck (if (sectAt b (boxSects b) 8).isSome then some (boxSect b 8) else none) (boxDigestD b) (s.fuse 1 || s.policy 0) 5,
    refuseIf (c.placed && !s.policy 1) (refuse 0x06 6 0xFFFF 1), (encodingFault c).map fun i => refuse 0x07 7 0xFFFF i]

/-- Steps 9 to 11. -/
def tableChecks (s : State) (c : Container) : Option Resp :=
  firstBad [(codebookFault c).map fun q => refuse 0x09 9 0xFFFF q.1 q.2, (scaleFaultOf c).map fun q => refuse 0x0A 10 0xFFFF q.1 q.2,
    (s.bindFault c).map fun q => refuse 0x0B 11 0xFFFF q.1 q.2]

end State
end Sys2Proof.Machine
end

