-- ==== Sys2Proof/Machine/ShapeCheck.lean ====
section
/-! DEFINITION. Shapes and ranges (Table 9.4 step 8): operand types, shapes and limits of the tensor classes, the interval analysis of
R184, and the slices that it bounds. -/

namespace Sys2Proof.Machine

/-! ### Operands of the tensor classes -/

/-- A tensor operand: its tid, its address register, and whether it is the a or the dst operand. -/
structure TRef where
  tid : Nat
  areg : Nat
  isA : Bool := false
  isDst : Bool := false
  deriving DecidableEq, Repr

def refDst (w : BitVec 128) : TRef := ⟨insDst w, insF w 47 44, false, true⟩
def refA (w : BitVec 128) : TRef := ⟨insA w, insF w 63 60, true, false⟩
def refB (w : BitVec 128) : TRef := ⟨insB w, insF w 79 76, false, false⟩
def refC (w : BitVec 128) : TRef := ⟨insC w, insF w 95 92, false, false⟩

/-- The instruction is a kernel (R183). -/
def isKernel (w : BitVec 128) : Bool := decide (2 ≤ insClass w ∧ insClass w ≤ 7)

/-- The tensors that a kernel reads as data. -/
def kernelReads (w : BitVec 128) : List TRef :=
  if !isKernel w then []
  else [refA w] ++ (if usesB w && !hasImm w && decide (insClass w ≠ 5) && decide (insClass w ≠ 7) then [refB w] else []) ++
    (if usesC w then [refC w] else [])

/-- The tensors that a kernel writes: a reduction writes its value output too (R194). -/
def kernelWrites (w : BitVec 128) : List TRef :=
  if !isKernel w then []
  else if insClass w = 5 then (if insCtl w % 4 = 0 then [refDst w] else []) ++ (if usesB w then [refB w] else [])
  else [refDst w]

/-! ### Types, shapes and limits -/

/-- A tid, where a condition holds. -/
def badTid (c : Bool) (t : Nat) : Option Nat := if c then some t else none

/-- Table 3.2: the mode of a matrix product, or the one that the types of a convolution give (R193). -/
def sailMode (a b : Tensor) (w : BitVec 128) : Nat :=
  if insClass w = 2 then insOp w
  else if b.type = 1 ∨ b.type = 4 then 0
  else if a.type = 1 ∨ a.type = 4 then 1
  else 2

/-- Table 3.2, R192: the types of the operands, equal groups, and a bias of N elements. -/
def sailTypes (c : Container) (w : BitVec 128) : Option Nat :=
  let a := cTensor c (insA w)
  let b := cTensor c (insB w)
  let e := cTensor c (insC w)
  let m := sailMode a b w
  let int8 (t : Tensor) : Bool := decide (t.type = 1 ∨ t.type = 4)
  firstBad [badTid (if m = 2 then decide (a.type ≠ 3) else !int8 a) (insA w),
    badTid ((if m = 0 then !int8 b else decide (b.type ≠ 3)) || decide (b.layout ≠ 2)) (insB w),
    badTid (decide (a.gsz ≠ b.gsz)) (insB w),
    badTid (usesC w && (decide (e.type ≠ 7) || decide (prodList e.shape ≠ b.dims.getD 1 1))) (insC w)]

/-- R192: ROWS (M, K) by TILE32 (K, N) gives ROWS (M, N). -/
def productShape (c : Container) (w : BitVec 128) : Option Nat :=
  let a := cTensor c (insA w)
  let b := cTensor c (insB w)
  let d := cTensor c (insDst w)
  let last (t : Tensor) : Nat := t.shape.getD (t.rank - 1) 1
  let rest (t : Tensor) : Nat := prodList (t.shape.take (t.rank - 1))
  badTid (decide (a.layout ≠ 1 ∨ d.layout ≠ 1 ∨ b.dims.getD 0 1 ≠ last a ∨ last d ≠ b.dims.getD 1 1 ∨ rest d ≠ rest a)) (insDst w)

/-- R143, R152: the size of one output axis: of a convolution, or of a transposed one with output padding `op`. -/
def convSize (n k s d before after : Nat) : Int := ((n : Int) + before + after - d * (k - 1 : Nat) - 1) / s + 1
def tconvSize (n k s d before after op : Nat) : Int := ((n : Int) - 1) * s + d * (k - 1 : Nat) + 1 - before - after + op

/-- Table 6.1, R143, R144, R147, R152, Table 7.9: the limits of a layer, and its destination, in ROWS and of the size that they give. -/
def layerShape (c : Container) (w : BitVec 128) : Option Nat :=
  let a := cTensor c (insA w)
  let d := cTensor c (insDst w)
  let n := (cTensor c (insB w)).dims.getD 1 1
  let l := c.layer (insRec w)
  let i := a.image
  let cin := i.2.1
  let h := i.2.2.1
  let x := i.2.2.2
  let opy := recB c (insRec w) 0x0D
  let opx := recB c (insRec w) 0x0E
  let within (v top : Nat) : Bool := decide (1 ≤ v ∧ v ≤ top)
  let limits := within l.kh 15 && within l.kw 15 && within l.sy 8 && within l.sx 8 && within l.dy 255 && within l.dx 255 && within h 16384 &&
    within x 16384 && within cin 65535 && within n 65535 && within l.groups cin && decide (cin % l.groups = 0) && decide (n % l.groups = 0) &&
    decide (a.layout ≠ 2)
  let derived := decide (a.smode = 2)
  let fits := if insClass w = 3 then !(derived && (l.packed || decide (a.layout = 0)))
    else decide (opy < l.sy ∧ opx < l.sx) && !(derived && decide (a.layout = 0))
  let ho := if insClass w = 3 then convSize h l.kh l.sy l.dy l.pt l.pb else tconvSize h l.kh l.sy l.dy l.pt l.pb opy
  let wo := if insClass w = 3 then convSize x l.kw l.sx l.dx l.pl l.pr else tconvSize x l.kw l.sx l.dx l.pl l.pr opx
  let z := d.image
  firstBad [badTid (!(limits && fits) || decide (ho < 1 ∨ wo < 1)) (insA w),
    badTid (!decide (d.layout = 1 ∧ z.1 = i.1 ∧ z.2.1 = n ∧ (z.2.2.1 : Int) = ho ∧ (z.2.2.2 : Int) = wo)) (insDst w)]

/-- Table 7.8: the type that an epilogue record's qmode gives is the destination's. -/
def epiType (c : Container) (w : BitVec 128) : Option Nat :=
  match epiOf c w with
  | some r =>
    let q := recB c r 1
    let ty := if q = 0 then 1 else if q = 1 then 3 else if q = 2 then 4 else if q = 3 then 6 else 7
    badTid (decide ((cTensor c (epiDst w)).type ≠ ty)) (epiDst w)
  | none => none

/-- Table 6.3: the input types of a reduction. -/
def redTypes (op : Nat) : List Nat :=
  match op with
  | 0 | 1 => [1, 2, 5, 6, 7]
  | 2 | 3 => [1, 2, 3, 4, 5, 6, 7]
  | 4 => [1, 5, 6, 7]
  | 5 => [1, 2, 3, 4, 5, 6, 7, 8]
  | _ => [1, 2, 3, 4, 6, 7]

/-- Table 6.3: the result type of max and min of a type: codes stay codes, whole numbers become INT32, and floats FP32. -/
def redType (t : Nat) : Nat := if t = 3 ∨ t = 4 then t else if isFloat t then 7 else 5

/-- R194: the number of results of a reduction to a tensor: of groups along the last axis, or of the axes that the mask keeps. -/
def redCount (a : Tensor) (group mask : Nat) : Nat :=
  if group ≠ 0 then prodList (a.shape.take (a.rank - 1)) * cdiv (a.shape.getD (a.rank - 1) 1) (groupSize group)
  else prodList ((a.shape.mapIdx fun i n => if mask / 2 ^ i % 2 = 1 then 1 else n))

/-- Table 6.3, R155, R158, R194: the types, the mask, the destination kind, the groups and the index map of a reduction. -/
def redShape (c : Container) (w : BitVec 128) : Option Nat :=
  let a := cTensor c (insA w)
  let d := cTensor c (insDst w)
  let b := cTensor c (insB w)
  let op := insOp w
  let kind := insCtl w % 4
  let group := insCtl w / 4 % 4
  let mask := insCtl w / 16 % 16
  let on (i : Nat) : Bool := decide (mask / 2 ^ i % 2 = 1)
  let chans := if a.layout = 0 then a.image.2.1 else a.shape.getD (a.rank - 1) 1
  let whole := decide (insF w 111 96 = 0 ∧ insF w 63 60 = 0 ∧ insF w 47 44 = 0)
  firstBad [badTid (!(redTypes op).contains a.type || decide (2 < (List.range 4).countP on) || decide (mask / 2 ^ a.rank ≠ 0)) (insA w),
    if op < 6 then
      match kind with
      | 0 => firstBad [badTid (decide (d.type ≠ if op = 5 then 5 else redType a.type)) (insDst w), badTid (decide (group = 0 ∧ mask = 0)) (insA w),
          badTid (whole && decide (prodList d.shape ≠ redCount a group mask)) (insDst w)]
      | 1 => badTid (decide (group ≠ 0) || (List.range a.rank).any fun i => decide (1 < a.dims.getD i 1) && !on i) (insA w)
      | _ => badTid (decide (op ≠ 4 ∨ d.smode ≠ 2 ∨ group = 0 ∨ group ≠ d.gsz) || (whole && decide (d.shape ≠ a.shape))) (insDst w)
    else firstBad [badTid (decide (a.layout = 2)) (insA w), badTid (decide (kind = 2)) (insDst w),
      if kind = 1 then badTid (decide (prodList a.shape ≠ chans)) (insA w)
      else badTid (!(decide (d.type = 2 ∧ chans ≤ 256) || decide (d.type = 8 ∧ chans ≤ 65535)) || (whole && decide (prodList d.shape * chans ≠ prodList a.shape)))
        (insDst w),
      badTid (usesB w && !(decide (b.type = a.type ∨ b.type = redType a.type))) (insB w)]]

/-- Table 6.5: the operand types of a vector operation; none where any type will do. -/
def vecTypes (op : Nat) : Option (List Nat) :=
  if op ≤ 7 ∨ op = 0x10 then some [7, 6, 1]
  else if op = 8 ∨ op = 0x0C ∨ op = 0x11 then some [7, 6]
  else if op = 0x0A ∨ op = 0x0B then some [7]
  else none

/-- R163, R165 to R168, Table 7.15: the types and limits of a vector operation. -/
def vecShape (c : Container) (w : BitVec 128) : Option Nat :=
  let a := cTensor c (insA w)
  let b := cTensor c (insB w)
  let op := insOp w
  let l := c.layer (insRec w)
  let z := (cTensor c (insDst w)).image
  let last := a.shape.getD (a.rank - 1) 1
  let within (v top : Nat) : Bool := decide (1 ≤ v ∧ v ≤ top)
  let typed := (kernelReads w).filter fun r => !(decide (op = 0x0C) && decide (r = refB w))
  firstBad [
    match vecTypes op with
    | some ts => badTid (typed.any fun r => !ts.contains (cTensor c r.tid).type) (insA w)
    | none => none,
    badTid (decide (op = 7 ∧ ¬((cTensor c (insB w)).type = a.type ∧ (cTensor c (insC w)).type = a.type))) (insA w),
    badTid (decide (op = 0x14) && !(decide (64 ≤ cdiv (last * typeBits a.type) 8 ∧ cdiv (last * typeBits a.type) 8 ≤ 65536))) (insA w),
    badTid (decide (op = 0x0D ∧ b.kind = 5) && !b.exp2) (insB w),
    badTid (decide (op = 0x0E ∧ (b.type ≠ 7 ∨ (cTensor c (insC w)).type ≠ 7) ∨ op = 0x0F ∧ b.type ≠ 7)) (insB w),
    badTid (decide (0x0D ≤ op ∧ op ≤ 0x0F ∧ 8192 < last)) (insA w),
    badTid (decide (op = 0x10 ∨ op = 0x11) && !(within l.kh 15 && within l.kw 15 && within l.sy 8 && within l.sx 8)) (insA w),
    badTid (decide (op = 0x12 ∨ op = 0x13) && !(within z.2.2.1 16384 && within z.2.2.2 16384)) (insDst w),
    badTid (decide (op = 0x14) && !(decide ((b.type = 8 ∨ b.type = 5) ∧ a.layout = 1))) (insB w)]

/-- R273, R184: both sides of a stream hold the same bits, and its transform's requirement holds. -/
def strmShape (c : Container) (w : BitVec 128) : Option Nat :=
  let a := cTensor c (insA w)
  let d := cTensor c (insDst w)
  let x := insCtl w % 8
  let n := insF w 111 96
  let count (t : Tensor) : Nat := if n = 0 ∨ t.layout = 2 then t.size else t.size / t.height * n
  let na := count a
  let sa := typeBits a.type
  let sd := typeBits d.type
  let moved := decide (n = 0 ∧ (insF w 63 60 ≠ 0 ∨ insF w 47 44 ≠ 0))
  let side := if sa = 8 then 32 else 16
  let same := decide (na * sa = count d * sd) || (decide (x ≠ 4) && moved)
  let form :=
    match x with
    | 0 => true
    | 1 => decide (sa = sd ∧ (sa = 8 ∨ sa = 32) ∧ na % (side * side) = 0)
    | 4 => decide (sa ≠ 4 ∧ sd ≠ 4 ∧ na % 8 = 0)
    | _ => decide (sa = sd ∧ sa ≠ 4 ∧ na % (insCtl w / 8 % 64 + 1) = 0)
  badTid (!(same && form)) (insDst w)

/-- Table 3.2: the activation types, and the weight types, of a mode. -/
def modeActs (mode : Nat) : List Nat := if mode = 2 then [3] else [1, 4]
def modeWts (mode : Nat) : List Nat := if mode = 0 then [1, 4] else [3]

/-- The type that an atype code names (SAIL_CTRL.atype). -/
def actType (code : Nat) : Nat := if code = 0 then 1 else if code = 1 then 4 else 3

/-- Table 3.2, Table 7.16: the types of a placed command's operands. -/
def engShape (c : Container) (w : BitVec 128) : Option Nat :=
  let t := cTensor c (insA w)
  match insOp w with
  | 0 => badTid (!(modeActs (insCtl w % 4)).contains t.type || decide (t.type ≠ actType (insCtl w / 4 % 4) ∨ t.layout = 2)) (insA w)
  | 1 => badTid (decide (t.layout ≠ 2) || (if insCtl w = 1 then decide (t.type ≠ 3) else decide (t.type ≠ 1 ∧ t.type ≠ 4))) (insA w)
  | 8 => firstBad [epiType c w, badTid (decide (t.layout = 2)) (insA w),
      badTid (decide (insCtl w = 1 ∧ (cTensor c (insF w 111 96)).type ≠ 7)) (insF w 111 96)]
  | 11 => badTid (decide (t.type ≠ 7 ∨ t.layout = 2)) (insA w)
  | _ => none

/-- Table 3.2: the weights that the runs of a placed program may meet fit their modes, in groups of one size: the instruction and the
tid. -/
def placedTypes (c : Container) : Option (Nat × Nat) :=
  (sailPairs c).findSome? fun q =>
    let w := c.code.getD q.1 0
    let b := cTensor c q.2
    (badTid (!(modeWts (insCtl w % 4)).contains b.type || decide (b.gsz ≠ (cTensor c (insA w)).gsz)) q.2).map fun t => (q.1, t)

/-- What step 8 asks of one instruction beside its slices. -/
def insShape (c : Container) (w : BitVec 128) : Option Nat :=
  match insClass w with
  | 2 => firstBad [sailTypes c w, productShape c w, epiType c w]
  | 3 | 4 => firstBad [sailTypes c w, layerShape c w, epiType c w]
  | 5 => redShape c w
  | 6 => vecShape c w
  | 7 => strmShape c w
  | 10 => engShape c w
  | _ => none

/-! ### Intervals (R184) -/

/-- A closed interval; none is unbounded on that side. -/
structure Iv where
  lo : Option Int
  hi : Option Int
  deriving DecidableEq, Repr

namespace Iv

def top : Iv := ⟨none, none⟩
def one (v : Int) : Iv := ⟨some v, some v⟩

/-- Both ends of two bounds, by a choice of one. -/
def both (f : Int → Int → Int) : Option Int → Option Int → Option Int
  | some x, some y => some (f x y)
  | _, _ => none
/-- The end that is bounded, or a choice of both. -/
def either (f : Int → Int → Int) : Option Int → Option Int → Option Int
  | some x, some y => some (f x y)
  | some x, none => some x
  | none, y => y

/-- Where paths meet: the union. -/
def join (a b : Iv) : Iv := ⟨both min a.lo b.lo, both max a.hi b.hi⟩
def least (a b : Iv) : Iv := ⟨both min a.lo b.lo, either min a.hi b.hi⟩
def most (a b : Iv) : Iv := ⟨either max a.lo b.lo, both max a.hi b.hi⟩

/-- An interval whose values do not wrap, else unbounded: signed for a scalar, unsigned for an address register. -/
def fit (addr : Bool) (lo hi : Int) : Iv :=
  if (if addr then decide (0 ≤ lo ∧ hi < 2 ^ 32) else decide (-(2 ^ 31) ≤ lo ∧ hi < 2 ^ 31)) then ⟨some lo, some hi⟩ else top

/-- The sum with constants at both ends. -/
def plus (addr : Bool) (a : Iv) (lo hi : Int) : Iv :=
  match a.lo, a.hi with
  | some x, some y => fit addr (x + lo) (y + hi)
  | _, _ => top

end Iv

/-- Intervals of the address registers 0 to 15, then of the scalars, as 16 to 47. -/
abbrev Ivs := List Iv

def ivOf (e : Ivs) (r : Nat) : Iv := e.getD r Iv.top

/-- The register that an instruction writes. -/
def destReg (w : BitVec 128) : Option Nat :=
  let rd := insF w 36 32
  if insNever w then none
  else
    match insClass w with
    | 0 =>
      if 0x20 ≤ insOp w ∧ insOp w ≤ 0x22 then (if rd % 16 = 0 then none else some (rd % 16))
      else if 1 ≤ insOp w ∧ insOp w ≤ 0x13 ∨ insOp w = 0x28 ∨ insOp w = 0x29 then some (16 + rd)
      else none
    | 5 => if insCtl w % 4 = 1 then some (16 + rd) else none
    | 10 => if insOp w = 12 then some (16 + rd) else none
    | _ => none

/-- The immediate of a scalar or address instruction. -/
def immOf (w : BitVec 128) : Int := (BitVec.ofNat 32 (insF w 95 64)).toInt

/-- R184: the interval that an instruction gives the register it writes. -/
def ivResult (phases : Nat) (e : Ivs) (w : BitVec 128) : Iv :=
  let ra := insF w 41 37
  let a := ivOf e (16 + ra)
  let imm := decide (insF w 47 47 = 1)
  let b := if imm then Iv.one (immOf w) else ivOf e (16 + insF w 46 42)
  if insClass w ≠ 0 then Iv.top
  else
    match insOp w with
    | 0x01 => Iv.one (immOf w)
    | 0x02 => a
    | 0x03 => (match b.lo, b.hi with | some x, some y => a.plus false x y | _, _ => Iv.top)
    | 0x04 => (match b.lo, b.hi with | some x, some y => a.plus false (-y) (-x) | _, _ => Iv.top)
    | 0x06 => if imm && decide (0 ≤ immOf w) then ⟨some 0, some (immOf w)⟩ else Iv.top
    | 0x0C => a.least b
    | 0x0D => a.most b
    | 0x20 => Iv.one (insF w 95 64)
    | 0x21 => (match a.lo, a.hi with | some x, some y => if 0 ≤ x ∧ y < 2 ^ 31 then a else Iv.top | _, _ => Iv.top)
    | 0x22 => (ivOf e (ra % 16)).plus true (immOf w) (immOf w)
    | 0x28 =>
      if insF w 95 64 = 2 then ⟨some 0, some (phases - 1)⟩
      else if insF w 95 64 = 3 then Iv.one phases
      else if insF w 95 64 = 4 then ⟨some 0, some 3⟩
      else Iv.top
    | _ => Iv.top

/-- The intervals after an instruction; one under a predicate may leave its register as it was. -/
def ivAfter (phases : Nat) (e : Ivs) (w : BitVec 128) : Ivs :=
  match destReg w with
  | none => e
  | some r =>
    let v := ivResult phases e w
    e.set r (if insAlways w then v else (ivOf e r).join v)

/-! ### Loops (R184) -/

/-- k, where an instruction adds the immediate k to the register that it writes. -/
def stepOf (w : BitVec 128) : Option Int :=
  let rd := insF w 36 32
  let ra := insF w 41 37
  if insClass w = 0 ∧ (insOp w = 0x03 ∧ insF w 47 47 = 1 ∧ ra = rd ∨ insOp w = 0x22 ∧ ra % 16 = rd % 16) then some (immOf w) else none

/-- The backward branches to `h`. -/
def backsTo (code : List (BitVec 128)) (on : List Nat) (h : Nat) : List Nat :=
  on.filter fun j =>
    let w := code.getD j 0
    decide (insClass w = 1 ∧ insDisp w < 0 ∧ (j : Int) + insDisp w = h) && !insNever w

/-- How often register `r` may have been changed on the paths from `h` to each instruction of a body: bit 0 never, bit 1 once, bit 2 more
often; one sweep of the body. -/
def countSweep (code : List (BitVec 128)) (body : List Nat) (h r : Nat) (m : SMap Nat) : SMap Nat :=
  body.foldl (fun m i =>
    let w := code.getD i 0
    let x := SMap.get 0 m i
    let once := x % 2 * 2 + min 1 (x / 2) * 4
    let out := if destReg w ≠ some r then x else if insAlways w then once else x ||| once
    (successors i w).foldl (fun m t => if t ≠ h ∧ body.contains t then SMap.set 0 m t (SMap.get 0 m t ||| out) else m) m) m

/-- Sweeps until every path is counted. -/
def countAll (code : List (BitVec 128)) (body : List Nat) (h r : Nat) : Nat → SMap Nat → SMap Nat
  | 0, m => m
  | n + 1, m =>
    let m' := countSweep code body h r m
    if m' = m then m else countAll code body h r n m'

/-- What a loop does to a register: nothing, an addition of k on each pass, or something else. -/
inductive LoopEffect where
  | keeps
  | adds (k : Int)
  | other
  deriving DecidableEq, Repr

/-- R184: the effect of the loop with header `h` and backward branches `js` on register `r`. -/
def loopEffect (code : List (BitVec 128)) (on js : List Nat) (h r : Nat) : LoopEffect :=
  let j := js.foldl max 0
  let body := on.filter fun i => decide (h ≤ i ∧ i ≤ j)
  let ks := (body.filter fun i => decide (destReg (code.getD i 0) = some r)).map fun i => stepOf (code.getD i 0)
  match ks with
  | [] => .keeps
  | some k :: rest =>
    if js.length = 1 ∧ rest.all (fun x => decide (x = some k)) ∧ SMap.get 0 (countAll code body h r (3 * body.length) [(h, 1)]) j = 2 then .adds k
    else .other
  | none :: _ => .other

/-- The intervals at the header of a loop, from those on entry. -/
def atHeader (code : List (BitVec 128)) (on : List Nat) (h : Nat) (e : Ivs) : Ivs :=
  match backsTo code on h with
  | [] => e
  | js =>
    let n : Int := insF (code.getD (js.headD 0) 0) 63 48
    e.mapIdx fun r v =>
      match loopEffect code on js h r with
      | .keeps => v
      | .adds k => if 0 ≤ k then v.plus (decide (r < 16)) 0 (n * k) else v.plus (decide (r < 16)) (n * k) 0
      | .other => Iv.top

/-! ### Slices (R184) -/

/-- The kernel takes image operands. -/
def isImageOp (w : BitVec 128) : Bool := decide (insClass w = 3 ∨ insClass w = 4 ∨ insClass w = 6 ∧ 0x10 ≤ insOp w ∧ insOp w ≤ 0x13)

/-- The extent of a tensor's slice axis. -/
def sliceExtent (t : Tensor) (image : Bool) : Nat := if image && decide (t.layout = 1) then t.image.2.2.1 else t.shape.getD (t.rank - 2) 1

/-- The extent of a source's slice follows the slice count: the elementwise and row operations, matrix products, streams, and reductions
that keep the slice axis. -/
def followsCount (c : Container) (w : BitVec 128) (r : TRef) : Bool :=
  match insClass w with
  | 2 | 7 => r.isA
  | 5 => r.isA && decide (insCtl w % 4 ≠ 1) &&
      (decide (6 ≤ insOp w) || decide (insCtl w / 16 % 16 / 2 ^ ((cTensor c r.tid).rank - 2) % 2 = 0))
  | 6 => decide (insOp w ≤ 0x0C) || (r.isA && decide (insOp w ≤ 0x0F))
  | _ => false

/-- R184: an operand's slice: TILE32 tensors are not sliced, a convolution's source takes ad0, and offset and extent stay in the tensor. -/
def sliceBad (c : Container) (e : Ivs) (w : BitVec 128) (r : TRef) : Bool :=
  let t := cTensor c r.tid
  let n := insF w 111 96
  if t.layout = 2 ∨ (insClass w = 3 ∨ insClass w = 4) ∧ r.isA then decide (r.areg ≠ 0)
  else if t.kind = 5 then false
  else
    match (ivOf e r.areg).lo, (ivOf e r.areg).hi with
    | some _, some hi => decide ((sliceExtent t (isImageOp w) : Int) < hi + (if r.isDst ∨ r.areg ≠ 0 ∨ followsCount c w r then max n 1 else 1))
    | _, _ => true

/-- Table 7.16: the operand of a placed command: a run's vectors, a load's tile, the rows that a boom writes or preloads stay in the
tensor. -/
def engSliceBad (c : Container) (e : Ivs) (w : BitVec 128) : Bool :=
  let t := cTensor c (insA w)
  let used (hi : Int) : Int :=
    match insOp w with
    | 0 => (hi + insF w 79 64 + 1) * 32
    | 1 => (hi + 1) * 1024
    | 8 => hi * t.width + 32 * insF w 81 73 + 1
    | _ => hi * t.width + 32 * (insF w 81 73 + 1)
  if insOp w = 0 ∨ insOp w = 1 ∨ insOp w = 8 ∨ insOp w = 11 then
    match (ivOf e (insF w 63 60)).lo, (ivOf e (insF w 63 60)).hi with
    | some _, some hi => decide ((t.size : Int) < used hi)
    | _, _ => true
  else false

/-- The analysis: the instructions on paths, in ascending order, with the intervals that reach them over forward edges. -/
def rangeWalk (c : Container) (on : List Nat) : List Nat → SMap (Option Ivs) → Option (Nat × Nat)
  | [], _ => none
  | i :: rest, st =>
    let w := c.code.getD i 0
    let e := atHeader c.code on i ((SMap.get none st i).getD (List.replicate 48 Iv.top))
    match (if insClass w = 10 then badTid (engSliceBad c e w) (insA w)
      else ((kernelReads w ++ kernelWrites w).find? (sliceBad c e w)).map fun r => r.tid) with
    | some t => some (i, t)
    | none =>
      let out := ivAfter c.phases e w
      let st := (successors i w).foldl (fun st t =>
        if t ≤ i then st
        else SMap.set none st t (some (match SMap.get none st t with | some x => (x.zip out).map fun q => q.1.join q.2 | none => out))) st
      rangeWalk c on rest st

/-- R184: the first slice that can leave its tensor; every register is zero at cycle 0 (R185). -/
def rangeFault (c : Container) : Option (Nat × Nat) :=
  let on := onPaths c.code
  rangeWalk c on on [(0, some (List.replicate 48 (Iv.one 0)))]

/-- Step 8: the instruction index and the tid. -/
def shapeFault (c : Container) : Option (Nat × Nat) :=
  firstBad [(List.range c.code.length).findSome? fun i => (insShape c (c.code.getD i 0)).map fun t => (i, t), placedTypes c, rangeFault c]

end Sys2Proof.Machine
end

