-- ==== Sys2Proof/Machine/Known.lean ====
section
/-! DEFINITION. What is known of a program's registers on one path of a tick: each starts at zero (R185), and a value that depends on data
is not known. -/

namespace Sys2Proof.Machine

/-- Registers, and those of them whose value is not known. -/
structure Known where
  regs : ProgRegs := {}
  noSc : List Nat := []
  noAd : List Nat := []
  noPd : List Nat := []
  deriving DecidableEq, Repr

/-- A list of numbers with one put in or taken out. -/
def marked (l : List Nat) (n : Nat) (on : Bool) : List Nat := let l := l.filter fun x => decide (x ≠ n); if on then n :: l else l

namespace Known

def getSc (k : Known) (r : BitVec 5) : Option Word := if k.noSc.contains r.toNat then none else some (k.regs.getSc r)
def setSc (k : Known) (r : BitVec 5) (v : Option Word) : Known :=
  { k with regs := k.regs.setSc r (v.getD 0), noSc := marked k.noSc r.toNat v.isNone }
def getAd (k : Known) (r : BitVec 4) : Option Word := if r ≠ 0 ∧ k.noAd.contains r.toNat then none else some (k.regs.getAd r)
def setAd (k : Known) (r : BitVec 4) (v : Option Word) : Known :=
  { k with regs := k.regs.setAd r (v.getD 0), noAd := marked k.noAd r.toNat v.isNone }
def getPd (k : Known) (r : BitVec 3) : Option Bool := if r ≠ 0 ∧ k.noPd.contains r.toNat then none else some (k.regs.getPd r)
def setPd (k : Known) (r : BitVec 3) (v : Option Bool) : Known :=
  { k with regs := k.regs.setPd r (v.getD false), noPd := marked k.noPd r.toNat v.isNone }

/-- A second operand. -/
def second (k : Known) : Operand → Option Word
  | .reg r => k.getSc r
  | .imm v => some v

/-- sc[rd] := f(sc[ra], b). -/
def op2 (k : Known) (rd ra : BitVec 5) (b : Operand) (f : Word → Word → Word) : Known :=
  k.setSc rd ((k.getSc ra).bind fun x => (k.second b).map (f x))

/-- A condition on sc[ra] and a second operand. -/
def test (k : Known) (c : Cond) (ra : BitVec 5) (b : Operand) : Option Bool := (k.getSc ra).bind fun x => (k.second b).map (c.holds x)

/-- pd[rd] := f(pd[ra], pd[rb]). -/
def pd2 (k : Known) (rd ra rb : BitVec 3) (f : Bool → Bool → Bool) : Known :=
  k.setPd rd ((k.getPd ra).bind fun x => (k.getPd rb).map (f x))

/-- The predicate of an instruction (R187). -/
def guard (k : Known) (w : BitVec 128) : Option Bool := (k.getPd (codeGuard w).pd).map fun x => xor x (codeGuard w).neg

/-- A branch is taken. -/
def branch (k : Known) (w : BitVec 128) : Option Bool :=
  match decodeBranch 0 w with
  | some (.br _ _ _) => some true
  | some (.brEq _ _ ra b _) => k.test .eq ra b
  | some (.brNe _ _ ra b _) => k.test .ne ra b
  | some (.brLt _ _ ra b _) => k.test .lt ra b
  | some (.brGe _ _ ra b _) => k.test .ge ra b
  | some (.brLtu _ _ ra b _) => k.test .ltu ra b
  | some (.brGeu _ _ ra b _) => k.test .geu ra b
  | some (.brFlt _ _ ra b _) => k.test .flt ra b
  | some (.brFge _ _ ra b _) => k.test .fge ra b
  | some (.brP _ _ pd _) => k.getPd pd
  | _ => none

/-- The registers after a scalar instruction (Table 7.13): FP32 results and special values are not known. -/
def scalar (k : Known) (i : Instr) : Known :=
  match i with
  | .li _ _ rd imm => k.setSc rd (some imm)
  | .mov _ _ rd ra => k.setSc rd (k.getSc ra)
  | .add _ _ rd ra b => k.op2 rd ra b fun x y => x + y
  | .sub _ _ rd ra b => k.op2 rd ra b fun x y => x - y
  | .mul _ _ rd ra b => k.op2 rd ra b fun x y => x * y
  | .and _ _ rd ra b => k.op2 rd ra b fun x y => x &&& y
  | .or _ _ rd ra b => k.op2 rd ra b fun x y => x ||| y
  | .xor _ _ rd ra b => k.op2 rd ra b fun x y => x ^^^ y
  | .shl _ _ rd ra b => k.op2 rd ra b fun x y => x <<< (y.toNat % 32)
  | .shr _ _ rd ra b => k.op2 rd ra b fun x y => x >>> (y.toNat % 32)
  | .sra _ _ rd ra b => k.op2 rd ra b fun x y => x.sshiftRight (y.toNat % 32)
  | .min _ _ rd ra b => k.op2 rd ra b fun x y => if x.slt y then x else y
  | .max _ _ rd ra b => k.op2 rd ra b fun x y => if x.slt y then y else x
  | .cmp _ _ pd c ra b => k.setPd pd (k.test c ra b)
  | .pAnd _ _ pd pa pb => k.pd2 pd pa pb fun x y => x && y
  | .pOr _ _ pd pa pb => k.pd2 pd pa pb fun x y => x || y
  | .pNot _ _ pd pa => k.setPd pd ((k.getPd pa).map fun x => !x)
  | .adLi _ _ rd imm => k.setAd rd (some imm)
  | .adMov _ _ rd ra => k.setAd rd (k.getSc ra)
  | .adAdd _ _ rd ra imm => k.setAd rd ((k.getAd ra).map fun x => x + imm)
  | _ => k

/-- The registers after an instruction that takes effect. -/
def after (k : Known) (w : BitVec 128) : Known :=
  match if insClass w = 0 ∧ insOp w < 0x28 ∧ !(0x10 ≤ insOp w ∧ insOp w ≤ 0x13) then decodeScalar 0 w else none with
  | some i => k.scalar i
  | none =>
    match destReg w with
    | some r => if 16 ≤ r then k.setSc (BitVec.ofNat 5 (r - 16)) none else k.setAd (BitVec.ofNat 4 r) none
    | none => k

end Known
end Sys2Proof.Machine
end

