-- ==== Sys2Proof/Machine/FlowCheck.lean ====
section
/-! DEFINITION. Definite assignment (Table 9.4 step 12: R116, R179, R183) and flag-wait cycles (step 13: R221). -/

namespace Sys2Proof.Machine

/-! ### What an instruction reads and writes -/

/-- An operand of the engine class: the tid at A, and the address register that belongs to it. -/
def engRef (w : BitVec 128) : TRef := ⟨insA w, insF w 63 60, false, false⟩

/-- The tensors that an instruction reads: a placed program's engine commands read their operands too (Table 7.16). -/
def flowReads (w : BitVec 128) : List TRef :=
  if insNever w then []
  else if insClass w = 10 then
    match insOp w with
    | 0 | 1 | 11 => [engRef w]
    | 8 => if insCtl w % 2 = 1 then [⟨insF w 111 96, 0, false, false⟩] else []
    | _ => []
  else kernelReads w

/-- The tensors that an instruction writes. -/
def flowWrites (w : BitVec 128) : List TRef :=
  if insNever w then []
  else if insClass w = 10 then (if insOp w = 8 then [engRef w] else [])
  else kernelWrites w

/-- The local flag of a stream instruction, or of a flag instruction (R196, R197). -/
def strmFlag (w : BitVec 128) : Nat := insF w 73 64
def flagOf (w : BitVec 128) : Nat := insF w 41 32

/-! ### Step 12 -/

/-- Elements `lo` to `hi` − 1 of a tensor's storage. -/
structure Span where
  tid : Nat
  lo : Nat
  hi : Nat
  deriving DecidableEq, Repr

/-- A stream's destination, which is written once its flag is set (R183, R196). -/
structure InFlight where
  flag : Nat
  spans : List Span
  deriving DecidableEq, Repr

/-- What a path has done in this tick: the elements it has written, the streams it has begun, and the sets of each local flag, streams'
own among them. -/
structure Written where
  spans : List Span := []
  streams : List InFlight := []
  sets : SMap Nat := []
  deriving DecidableEq, Repr

/-- A path from the entry to an instruction. -/
structure Walk where
  pc : Nat := 0
  known : Known := {}
  /-- how often each backward branch has been taken (R190) -/
  taken : SMap Nat := []
  done : Written := {}
  deriving DecidableEq, Repr

/-- A tensor seen from a slice offset; where it lies does not matter here. -/
def Container.seen (c : Container) (tid off : Nat) : View := ⟨cTensor c tid, tid, 0, 0, 0, off, 0⟩

/-- The slice offset of an operand, where the path determines it. -/
def Known.offset (k : Known) (r : TRef) : Option Nat := (k.getAd (BitVec.ofNat 4 r.areg)).map fun x => x.toNat

def sliceCount (w : BitVec 128) : Nat := if insClass w = 10 then 0 else insF w 111 96

/-- A row of storage, as elements. -/
def rowSpan (v : View) (r : Nat) : Span := ⟨v.tid, r * v.t.width, (r + 1) * v.t.width⟩

/-- R184, Table 7.16: the elements that an instruction writes to an operand at an offset. -/
def writeAt (c : Container) (w : BitVec 128) (r : TRef) (off : Nat) : List Span :=
  let v := c.seen r.tid off
  if insClass w = 10 then
    (List.range (insF w 81 73 + 1)).map fun j =>
      let e := off * v.t.width + 32 * j
      ⟨r.tid, e, e + min 32 (v.t.width - e % v.t.width)⟩
  else if isImageOp w then (v.imageRows (sliceCount w)).flatMap fun y => (v.t.imageStore y).map fun q => rowSpan v q.1
  else (v.sliceRows (sliceCount w)).map fun q => rowSpan v (v.row q)

/-- The elements that an instruction reads of an operand at an offset, its destination being at `off`, by row and column. -/
def readAt (c : Container) (w : BitVec 128) (r : TRef) (dst : View) (v : View) (row col : Nat) : Bool :=
  let n := sliceCount w
  let e := row * v.t.width + col
  match insClass w with
  | 2 => !r.isA || State.matNeeds n dst v row col
  | 3 | 4 => !r.isA || State.convNeeds (c.layer (insRec w)) (decide (insClass w = 4)) n dst v row col
  | 5 =>
    let dest : RedDest := (Sys2Proof.codeDest w).getD .tensor
    redNeeds v (insOp w) n (redGroups v dest (redGroupSize dst dest (insCtl w / 4 % 4)) (insCtl w / 16 % 16) n).flatten row col
  | 6 => if r.isA then State.vecMay (c.layer (insRec w)) (insOp w) n dst v row col else State.sideNeeds (insOp w) n dst v row col
  | 7 => (v.sliceRows n).any fun q => decide (v.row q = row)
  | _ =>
    match insOp w with
    | 0 => decide (v.off * 32 ≤ e ∧ e < (v.off + insF w 79 64 + 1) * 32)
    | 1 => decide (e / 1024 = v.off)
    | 11 => decide (v.off * v.t.width ≤ e ∧ e < v.off * v.t.width + 32 * (insF w 81 73 + 1))
    | _ => true

/-- The preset tensors: inputs, constants, carried state and function tables (R116). -/
def preset (c : Container) (tid : Nat) : Bool := [1, 3, 4, 5].contains (cTensor c tid).kind

def Span.covers (x : Span) (tid e : Nat) : Bool := decide (x.tid = tid ∧ x.lo ≤ e ∧ e < x.hi)

/-- The elements of an operand that an instruction may read on a path: all of them where the path does not determine the offsets. -/
def readElems (c : Container) (k : Known) (w : BitVec 128) (r : TRef) : List Nat :=
  let t := cTensor c r.tid
  let dst := if insClass w = 10 then some 0 else k.offset (refDst w)
  let need : Nat → Nat → Bool := match k.offset r, dst with
    | some off, some d => readAt c w r (c.seen (insDst w) d) (c.seen r.tid off)
    | _, _ => fun _ _ => true
  ((List.range t.rows).flatMap fun row => (List.range t.width).filterMap fun col => if need row col then some (row * t.width + col) else none)

/-- R179: a written tensor is internal, an output or carried. -/
def writeBad (c : Container) (r : TRef) : Bool := !([0, 2, 4].contains (cTensor c r.tid).kind)

/-- R183: a destination that overlaps a source, but for the elementwise operations in place on identical operands; a carried tensor's
writes go to its other half (R179), and a destination at an offset that is not known is taken whole. -/
def overlapBad (c : Container) (k : Known) (w : BitVec 128) (r : TRef) : Bool :=
  let out := match k.offset r with
    | some off => writeAt c w r off
    | none => [⟨r.tid, 0, (cTensor c r.tid).size⟩]
  decide ((cTensor c r.tid).kind ≠ 4) && isKernel w && (flowReads w).any fun q =>
    decide (q.tid = r.tid) && !(decide (insClass w = 6 ∧ insOp w ≤ 9) && decide (q.areg = r.areg)) &&
      (readElems c k w q).any fun e => out.any fun x => x.covers r.tid e

/-- What step 12 refuses about an instruction that takes effect on a path: the tid. -/
def assignBad (c : Container) (x : Walk) (w : BitVec 128) : Option Nat :=
  firstBad [((flowWrites w).find? (overlapBad c x.known w)).map fun r => r.tid,
    ((flowReads w).find? fun r => !preset c r.tid && (readElems c x.known w r).any fun e => !(x.done.spans.any fun y => y.covers r.tid e)).map fun r => r.tid]

/-- What is written after an instruction that takes effect: a write at an offset that is not known counts for nothing, and a stream's
destination is written at a wait for as many sets as its flag has had, the stream's own among them. -/
def writtenAfter (c : Container) (k : Known) (a : Written) (w : BitVec 128) : Written :=
  let out := (flowWrites w).flatMap fun r => match k.offset r with
    | some off => writeAt c w r off
    | none => []
  if insClass w = 7 then
    { a with streams := a.streams ++ [⟨strmFlag w, out⟩], sets := SMap.set 0 a.sets (strmFlag w) (SMap.get 0 a.sets (strmFlag w) + 1) }
  else if insClass w = 8 ∧ insCtl w = 0 then
    let total := SMap.get 0 a.sets (flagOf w)
    if insOp w = 0 then { a with sets := SMap.set 0 a.sets (flagOf w) (total + insF w 79 64) }
    else if total ≤ insF w 79 64 then
      { a with spans := a.spans ++ (a.streams.filter fun x => decide (x.flag = flagOf w)).flatMap fun x => x.spans
               streams := a.streams.filter fun x => decide (x.flag ≠ flagOf w) }
    else a
  else { a with spans := a.spans ++ out }

/-- The paths that go on from an instruction that takes effect: a branch whose operands are known goes one way, and a backward branch
that has been taken as often as its bound ends the path (R190). -/
def Walk.after (c : Container) (x : Walk) (w : BitVec 128) : List Walk :=
  let next : Walk := { x with pc := x.pc + 1, known := x.known.after w, done := writtenAfter c x.known x.done w }
  if insClass w = 9 then []
  else if insClass w = 1 then
    let there : List Walk :=
      if insDisp w < 0 ∧ insF w 63 48 ≤ SMap.get 0 x.taken x.pc then []
      else [{ next with pc := ((x.pc : Int) + insDisp w).toNat
                        taken := if insDisp w < 0 then SMap.set 0 x.taken x.pc (SMap.get 0 x.taken x.pc + 1) else x.taken }]
    match x.known.branch w with
    | some true => there
    | some false => [next]
    | none => there ++ [next]
  else [next]

/-- The instructions of the paths on from a point that step 12 refuses, with their tids; a predicate that is not known may hold or not. -/
def flowFaults (c : Container) : Nat → Walk → List (Nat × Nat)
  | 0, _ => []
  | n + 1, x =>
    match c.code[x.pc]? with
    | none => []
    | some w =>
      let on := x.known.guard w
      let bad := if on = some false then [] else (assignBad c x w).toList.map fun t => (x.pc, t)
      let next := (if on = some false then [] else x.after c w) ++ (if on = some true then [] else [{ x with pc := x.pc + 1 }])
      bad ++ next.flatMap (flowFaults c n)

/-- R190: no path of a tick is longer. -/
def longestPath (c : Container) : Nat := c.code.length * (c.code.foldl (fun n w => n + if insClass w = 1 then insF w 63 48 else 0) 1)

/-- Step 12: the instruction index and the tid, the lowest index of those refused. -/
def assignFault (c : Container) : Option (Nat × Nat) :=
  let kinds := (List.range c.code.length).filterMap fun i => ((flowWrites (c.code.getD i 0)).find? (writeBad c)).map fun r => (i, r.tid)
  (kinds ++ flowFaults c (longestPath c) {}).foldl (fun b q => match b with
    | some x => if q.1 < x.1 then some q else b
    | none => some q) none

/-! ### Step 13 -/

/-- A flag: a package flag, or a program's own (R213). -/
structure FlagKey where
  owner : Option Nat
  index : Nat
  deriving DecidableEq, Repr

/-- A node of the graph: a flag wait of a program. -/
structure WaitNode where
  prog : Nat
  pos : Nat
  flag : FlagKey
  deriving DecidableEq, Repr

/-- The flag that an instruction of program `p` sets: a stream sets a local one (R196). -/
def setsFlag (p : Nat) (w : BitVec 128) : Option FlagKey :=
  if insNever w then none
  else if insClass w = 7 then some ⟨some p, strmFlag w⟩
  else if insClass w = 8 ∧ insOp w = 0 then some ⟨if insCtl w % 2 = 1 then none else some p, flagOf w⟩
  else none

/-- The flag that an instruction of program `p` waits for. -/
def waitsFlag (p : Nat) (w : BitVec 128) : Option FlagKey :=
  if insNever w ∨ ¬(insClass w = 8 ∧ insOp w = 1) then none
  else some ⟨if insCtl w % 2 = 1 then none else some p, flagOf w⟩

/-- The instructions that a path from the entry reaches with no unconditional set of a flag before. -/
def unset (p : Nat) (code : List (BitVec 128)) (f : FlagKey) : Nat → List Nat → List Nat → List Nat
  | 0, _, seen => seen
  | _ + 1, [], seen => seen
  | fuel + 1, i :: todo, seen =>
    if seen.contains i ∨ code.length ≤ i then unset p code f fuel todo seen
    else
      let w := code.getD i 0
      let next := if setsFlag p w = some f ∧ insAlways w then [] else successors i w
      unset p code f fuel (next ++ todo) (i :: seen)

/-- A set of a flag lies on some path after instruction `v`. -/
def setsLater (p : Nat) (code : List (BitVec 128)) (f : FlagKey) (v : Nat) : Bool :=
  (reachable code (2 * code.length + 1) (successors v (code.getD v 0)) []).any fun i => decide (setsFlag p (code.getD i 0) = some f)

/-- The waits of a program on paths. -/
def waitNodes (p : Nat) (code : List (BitVec 128)) : List WaitNode :=
  (onPaths code).filterMap fun i => (waitsFlag p (code.getD i 0)).map fun f => ⟨p, i, f⟩

/-- R221: an edge from wait `w` to wait `v`, whose program is `code`. -/
def waitEdge (code : List (BitVec 128)) (w v : WaitNode) : Bool :=
  decide (w ≠ v) && (unset v.prog code w.flag (2 * code.length + 1) [0] []).contains v.pos && setsLater v.prog code w.flag v.pos

/-- The nodes that a path of edges leads to. -/
def waitReach (codes : List (List (BitVec 128))) (nodes : List WaitNode) : Nat → List WaitNode → List WaitNode → List WaitNode
  | 0, _, seen => seen
  | _ + 1, [], seen => seen
  | fuel + 1, w :: todo, seen =>
    let next := nodes.filter fun v => waitEdge (codes.getD v.prog []) w v && !seen.contains v
    waitReach codes nodes fuel (next ++ todo) (seen ++ next)

/-- Step 13: the index of the first wait of the last program that lies in a cycle, and the position of the first other program in a
cycle with it. -/
def flagCycle (codes : List (List (BitVec 128))) : Option (Nat × Option Nat) :=
  let nodes := (codes.mapIdx waitNodes).flatten
  let fuel := nodes.length + 1
  let last := codes.length - 1
  (nodes.filter fun w => decide (w.prog = last)).findSome? fun w =>
    let seen := waitReach codes nodes fuel [w] []
    if seen.contains w then
      let others := nodes.filter fun v => decide (v.prog ≠ last) && seen.contains v && (waitReach codes nodes fuel [v] []).contains w
      some (w.pos, others.head?.map fun v => v.prog)
    else none

namespace State

/-- Steps 12 and 13. -/
def flowChecks (s : State) (c : Container) : Option Resp :=
  let ps := s.admittedList
  firstBad [(assignFault c).map fun q => refuse 0x0C 12 0xFFFF q.1 q.2,
    (flagCycle (ps.map (fun p => (s.prog p).box.code) ++ [c.code])).map fun q =>
      refuse 0x0D 13 0xFFFF q.1 (match q.2 with | some k => s.handle (ps.getD k 0) | none => 0xFFFF)]

end State
end Sys2Proof.Machine
end

