-- ==== Sys2Proof/Machine/RigCheck.lean ====
section
/-! DEFINITION. The rig checks of Table 9.3 (R237 to R242): format, signatures, versions, units, values, scope, admitted programs. -/

namespace Sys2Proof.Machine

/-! ### The fields of a rig (Table 9.2) -/

/-- SAILPLAN entry: shape and chain of yard 8m + y. -/
def sailShape (rig : List Byte) (i : Nat) : Nat := leAt (rigSect rig 1) (4 * i) 1
def sailChain (rig : List Byte) (i : Nat) : Nat := leAt (rigSect rig 1) (4 * i + 1) 1
def xtreeReplays (rig : List Byte) : Nat := leAt (rigSect rig 2) 2 1
def hrLen (rig : List Byte) : Nat := leAt (rigSect rig 3) 4 2
/-- The slot byte of HyperRAM channel `c`, frame slot `k`: the input port in [2:0], valid in [3]. -/
def hrSlotByte (rig : List Byte) (c k : Nat) : Nat := leAt (rigSect rig 3) (16 + c * hrLen rig + k) 1
def hrMask (rig : List Byte) : Nat := leAt (rigSect rig 3) 0 1
def hrOn (rig : List Byte) (c : Nat) : Bool := decide (hrMask rig / 2 ^ c % 2 = 1)
def hrFlags (rig : List Byte) : Nat := leAt (rigSect rig 3) 1 1
def hrCount (rig : List Byte) : Nat := (List.range 8).countP (hrOn rig)
/-- Window `n` of initiator `i`: base, pages, permissions. -/
def winBase (rig : List Byte) (i n : Nat) : Nat := leAt (rigSect rig 4) (16 * (64 * i + n)) 8
def winPages (rig : List Byte) (i n : Nat) : Nat := leAt (rigSect rig 4) (16 * (64 * i + n) + 8) 4
def winPerm (rig : List Byte) (i n : Nat) : Nat := leAt (rigSect rig 4) (16 * (64 * i + n) + 12) 4
def winOn (rig : List Byte) (i n : Nat) : Bool := decide (winPerm rig i n / 8 % 2 = 1)
/-- The guard in ns (R31). -/
def rigGuard (rig : List Byte) : Nat := rigPeriod rig * 10 * leAt (rigSect rig 5) 4 1
/-- GPIO entries and frame-sync entries. -/
def ballByte (rig : List Byte) (b : Nat) : Nat := leAt (rigSect rig 10) (4 * b) 1
def ballDefault (rig : List Byte) (b : Nat) : Nat := leAt (rigSect rig 10) (4 * b + 1) 1
def fsyncA (rig : List Byte) (n : Nat) : Nat := leAt (rigSect rig 10) (128 + 8 * n) 4
def fsyncB (rig : List Byte) (n : Nat) : Nat := leAt (rigSect rig 10) (132 + 8 * n) 4

/-- The first of 0 to n − 1 with a property. -/
def firstIx (n : Nat) (bad : Nat → Bool) : Option Nat := (List.range n).find? bad

/-! ### Format: step 2 (R237, R238) -/

/-- Table 9.1. -/
def rigHeader (masts : Nat) (b : List Byte) : Option Nat :=
  firstBad [badIf (decide (b.take 4 ≠ [0x4C, 0x52, 0x49, 0x47])) 0, badIf (decide (leAt b 4 2 ≠ 0x100)) 4, badIf (decide (leAt b 6 2 ≠ 0x60)) 6,
    badIf (decide (rigVersion b = 0)) 8, badIf (decide (leAt b 0x0C 1 ≠ masts)) 0x0C, badIf (decide (rigScope b ≠ 0xFF ∧ 6 < rigScope b)) 0x0D,
    badIf (decide (rigSects b ≠ 12 ∧ rigSects b ≠ 13)) 0x0E, badIf (decide (1 < leAt b 0x0F 1)) 0x0F, badIf (decide (0x100000 < b.length)) 0x10,
    nonZero b 0x14 12, nonZero b 0x50 16]

/-- The size of a section's body against its sizing fields. -/
def sectSize (b : List Byte) (kind : Nat) : Option Nat :=
  match kind with
  | 1 => some 224
  | 2 => some (16 + 8 * xtreeLen b)
  | 3 => some (16 + 8 * hrLen b)
  | 4 => some 8192
  | 5 => some 32
  | 7 => some 64
  | 8 => some (16 + 8 * rigShedCount b)
  | 9 => none
  | 10 => some 256
  | 13 => some sigLen
  | _ => some 16

/-- The reserved fields of a section: the offset within it of the first that is not zero. SHED and MEDIA are checked at step 6. -/
def sectReserved (b : List Byte) (kind : Nat) : Option Nat :=
  let m := rigSect b kind
  let high (o n : Nat) : Option Nat := (firstIx n fun i => decide (16 ≤ leAt m (o + i) 1)).map (o + ·)
  match kind with
  | 1 => (firstIx 56 fun i => decide (3 < leAt m (4 * i + 1) 3)).map fun i => 4 * i + 1
  | 2 => firstBad [nonZero m 3 13, high 16 (m.length - 16)]
  | 3 => firstBad [badIf (decide (3 < hrFlags b)) 1, nonZero m 3 1, high 16 (m.length - 16)]
  | 4 => (firstIx 512 fun w =>
      decide (leAt m (16 * w) 8 % 4096 ≠ 0 ∨ 2 ^ 40 ≤ leAt m (16 * w) 8 ∨ 2 ^ 22 ≤ leAt m (16 * w + 8) 4 ∨ 16 ≤ leAt m (16 * w + 12) 4)).map (16 * ·)
  | 5 => firstBad [nonZero m 11 5, badIf (decide (leAt m 22 2 % 32768 ≠ 0)) 22, nonZero m 24 8]
  | 6 => nonZero m 1 15
  | 10 => firstBad [(firstIx 32 fun i => decide (32 ≤ leAt m (4 * i) 1 ∨ leAt m (4 * i + 2) 2 ≠ 0)).map (4 * ·),
      (firstIx 16 fun n => decide (fsyncA b n / 2 ^ 23 % 2 = 1 ∨ 2 ^ 27 ≤ fsyncB b n)).map fun n => 128 + 8 * n]
  | 11 => nonZero m 4 12
  | 12 => firstBad [badIf (decide (16 ≤ leAt m 0 4)) 0, nonZero m 4 12]
  | 13 => sigFault m 0 m.length
  | _ => none

/-- Table 9.3 step 2: the byte offset of the first fault. -/
def rigFault (masts : Nat) (b : List Byte) : Option Nat :=
  let n := rigSects b
  let kind (i : Nat) : Option Nat := badIf (decide ((sectEntry b i).1 ≠ i + 1)) (0x60 + 16 * i)
  let body (i : Nat) : Option Nat :=
    let o := (sectEntry b i).2.1
    match sectSize b (i + 1) with
    | some k => if (sectEntry b i).2.2 ≠ k then some o else (sectReserved b (i + 1)).map (o + ·)
    | none => none
  firstBad [rigHeader masts b, (List.range n).findSome? kind, tableFault b n 13, (List.range n).findSome? body]

/-! ### Units: step 5 (R5, R103, R419, R464) -/

namespace State

/-- A mast is not there: absent or out of service. -/
def mastGone (s : State) (m : Nat) : Bool := !s.mastIn m
def portGone (s : State) (p : Nat) : Bool := if p = 7 then false else s.mastGone p || SMap.get false s.power.out (80 + p)
def chanGone (s : State) (c : Nat) : Bool := decide (s.part.hrChannels ≤ c) || SMap.get false s.power.out (64 + c)

/-- The unit of a switched domain that is not there. -/
def domUnit (s : State) (d : Nat) : Option Nat :=
  if d < 140 then
    let m := d / 20
    let k := d % 20
    if s.part.masts ≤ m then some (56 + m)
    else if k = 19 then none
    else if s.mastGone m then some (56 + m)
    else if k < 16 ∧ !s.yardIn m (k % 8) then some (8 * m + k % 8) else none
  else if 145 ≤ d ∧ d < 153 then (if s.chanGone (d - 145) then some (64 + (d - 145)) else none)
  else none

/-- The unit of a slot byte of output `o` that is not there. -/
def slotUnit (s : State) (o : Option Nat) (v : Nat) : Option Nat :=
  if v / 8 % 2 = 0 then none
  else firstBad [o.bind fun o => badIf (s.portGone o) (80 + o), badIf (s.portGone (v % 8)) (80 + v % 8)]

/-- Step 5: the code of the first unit named that is absent or out of service. -/
def rigUnit (s : State) (rig : List Byte) : Option Nat :=
  let yard (i : Nat) : Option Nat :=
    if sailShape rig i = 0 ∧ sailChain rig i = 0 then none
    else firstBad [badIf (s.mastGone (i / 8)) (56 + i / 8), badIf (!s.yardIn (i / 8) (i % 8)) i]
  let dom (d : Nat) : Option Nat := if rigDom rig d || rigRet rig d then s.domUnit d else none
  let shed (i : Nat) : Option Nat :=
    let e := rigShed rig i
    let k := leAt e 0 1
    let m := leAt e 1 1
    let y := leAt e 2 1
    if (k = 1 ∨ k = 2) ∧ m ≤ 6 then
      firstBad [badIf (s.mastGone m) (56 + m), badIf (decide (k = 1 ∧ y < 8) && !s.yardIn m y) (8 * m + y)]
    else none
  firstBad [if rigScope rig = 0xFF then none else badIf (s.mastGone (rigScope rig)) (56 + rigScope rig), (List.range 56).findSome? yard,
    (List.range 163).findSome? dom, (List.range 8).findSome? fun c => badIf (hrOn rig c && s.chanGone c) (64 + c),
    (List.range 8).findSome? fun o => (List.range (xtreeLen rig)).findSome? fun k => s.slotUnit (some o) (xtreeSlot rig o k),
    (List.range 8).findSome? fun c => (List.range (hrLen rig)).findSome? fun k =>
      firstBad [badIf (decide (hrSlotByte rig c k ≠ 0) && s.chanGone c) (64 + c), s.slotUnit none (hrSlotByte rig c k)],
    (List.range 7).findSome? fun m => badIf (s.mastGone m && (List.range 64).any (winOn rig m)) (56 + m),
    (List.range (rigShedCount rig)).findSome? shed,
    (mediaAll rig).findSome? fun r => let p := leAt r.2 0 1
      badIf (decide (r.1 = 1) && SMap.get false s.power.out (72 + p)) (72 + p)]

end State

/-! ### Values: step 6 -/

/-- A value fault: section kind and offset. -/
abbrev ValBad := Option (Nat × Nat)
def valBad (kind : Nat) (o : Option Nat) : ValBad := o.map fun n => (kind, n)

/-- R90 and the chain rule. -/
def sailValues (rig : List Byte) : ValBad :=
  let bad (i : Nat) : Option Nat :=
    let c := sailChain rig i
    firstBad [badIf (decide (11 < sailShape rig i)) (4 * i),
      badIf (decide (if i % 8 = 7 then c % 2 = 1 else c % 2 ≠ sailChain rig (i + 1) / 2 % 2) || decide (i % 8 = 0 ∧ c / 2 % 2 = 1)) (4 * i + 1)]
  valBad 1 ((List.range 56).findSome? bad)

/-- R127. -/
def xtreeValues (rig : List Byte) : ValBad :=
  let n := xtreeLen rig
  let bad (o k : Nat) : Option Nat :=
    let v := xtreeSlot rig o k
    let twice := (List.range o).any fun q => decide (8 ≤ xtreeSlot rig q k ∧ xtreeSlot rig q k % 8 = v % 8)
    badIf (decide (8 ≤ v) && (decide (k % 8 = 7 ∨ v % 8 = o) || twice)) (16 + o * n + k)
  valBad 2 (firstBad [badIf (decide (n < 16 ∨ 4096 < n)) 0, badIf (decide (15 < xtreeReplays rig)) 2,
    (List.range 8).findSome? fun o => (List.range n).findSome? (bad o)])

/-- R363, R369, R371. -/
def hrValues (rig : List Byte) : ValBad :=
  let m := rigSect rig 3
  let n := hrLen rig
  let rc := leAt m 6 2
  let phase (c : Nat) : Nat := leAt m (8 + c) 1
  let ph (c : Nat) : Option Nat :=
    badIf (if hrOn rig c then decide (rc ≤ phase c) || (List.range c).any fun d => hrOn rig d && decide (phase d = phase c) else decide (phase c ≠ 0xFF)) (8 + c)
  let slot (c k : Nat) : Option Nat :=
    let v := hrSlotByte rig c k
    badIf (decide (v ≠ 0) && (!hrOn rig c || decide (8 ≤ v ∧ k % 8 = 7))) (16 + c * n + k)
  valBad 3 (firstBad [badIf (decide (15 < leAt m 2 1)) 2, badIf (decide (n < 8 ∨ 1024 < n)) 4, badIf (decide (rc = 0)) 6, (List.range 8).findSome? ph,
    (List.range 8).findSome? fun c => (List.range n).findSome? (slot c),
    badIf (decide (hrCount rig ≠ 0 ∧ (3 * rigGuard rig < 4 * 2115 ∨ rc < hrCount rig ∨ 100000 < rc * rigPeriod rig))) 6])

/-- R361: the top of HyperRAM under a rig. -/
def rigHrTop (rig : List Byte) : Nat :=
  0x200000000 + hrCount rig * (if hrFlags rig % 2 = 1 then 224 else 256) * (if hrFlags rig / 2 % 2 = 1 then 0x8000000 else 0x4000000) / 256

/-- R137: a window of initiator `i` lies wholly within one target that it may reach. -/
def State.winTarget (s : State) (rig : List Byte) (i lo hi : Nat) : Bool :=
  let within (a b : Nat) : Bool := decide (a ≤ lo ∧ hi ≤ b)
  within mediaBase mediaEnd || within 0x200000000 (rigHrTop rig) || within 0x1000000000 0x1200000000 ||
    (List.range s.part.masts).any fun m =>
      let b := yardAddr m 0 0
      decide (m ≠ i) && s.mastIn m && within b (b + 0x4000000) &&
        (List.range 8).all fun y => decide (hi ≤ yardAddr m y 0 ∨ yardAddr m (y + 1) 0 ≤ lo) || s.yardIn m y

/-- R137, R139: every entry that has pages is a window, enabled or not; one without may not be enabled. -/
def State.winValues (s : State) (rig : List Byte) : ValBad :=
  let bad (i n : Nat) : Option Nat :=
    let lo := winBase rig i n
    let hi := lo + 4096 * winPages rig i n
    let laps := (List.range n).any fun k => decide (0 < winPages rig i k ∧ lo < winBase rig i k + 4096 * winPages rig i k ∧ winBase rig i k < hi)
    badIf (if winPages rig i n = 0 then winOn rig i n else !s.winTarget rig i lo hi || laps) (16 * (64 * i + n))
  valBad 4 ((List.range 8).findSome? fun i => (List.range 64).findSome? (bad i))

/-- R31, R36, R411, and the fields of the TICK registers. -/
def tickValues (rig : List Byte) : ValBad :=
  let m := rigSect rig 5
  firstBad [valBad 5 (firstBad [badIf (decide (rigPeriod rig < 125 ∨ 100000 < rigPeriod rig)) 0, badIf (decide (leAt m 4 1 = 0 ∨ 10 < leAt m 4 1)) 4,
      badIf (decide (1 < leAt m 5 1)) 5, badIf (decide (1 < leAt m 6 1)) 6, badIf (decide (1 < leAt m 7 1)) 7,
      badIf (decide (leAt m 8 2 = 0 ∨ 1023 < leAt m 8 2)) 8, badIf (decide (1 < leAt m 10 1)) 10, badIf (decide (3 * rigGuard rig < 3600)) 4]),
    valBad 6 (badIf (decide (2 < rigOp rig)) 0)]

/-- R409. -/
def pdomValues (masts : Nat) (rig : List Byte) : ValBad :=
  let must := [140, 141, 143, 144, 160, 161, 162] ++ (List.range masts).map fun m => 20 * m + 19
  let yard (i : Nat) : Option Nat :=
    let m := i / 8
    let l := rigDom rig (State.domLogic m (i % 8))
    let r := rigDom rig (State.domSram m (i % 8))
    firstBad [badIf (l && !r) (State.domLogic m (i % 8) / 8),
      badIf ((l || r) && !(rigDom rig (20 * m + 16) && rigDom rig (20 * m + 17) && rigDom rig (20 * m + 18))) ((20 * m + 16) / 8)]
  valBad 7 (firstBad [must.findSome? fun d => badIf (!rigDom rig d) (d / 8), (firstIx 256 fun d => decide (163 ≤ d) && rigDom rig d).map (· / 8),
    (List.range 56).findSome? yard, (firstIx 256 fun d => rigRet rig d && (State.sramOf d).isNone).map fun d => 32 + d / 8])

/-- R419. -/
def shedValues (rig : List Byte) : ValBad :=
  let bad (i : Nat) : Bool :=
    let e := rigShed rig i
    let k := leAt e 0 1
    let m := leAt e 1 1
    let u := leAt e 2 1
    decide (3 < k ∨ (k = 1 ∨ k = 2) ∧ 6 < m ∨ k = 1 ∧ 7 < u ∨ k = 3 ∧ 5 < u ∨ leAt e 3 1 ≠ 0)
  valBad 8 (firstBad [badIf (decide (64 < rigShedCount rig)) 0, nonZero (rigSect rig 8) 2 14, (firstIx (rigShedCount rig) bad).map fun i => 16 + 8 * i])

/-- R55, R314. -/
def gpioValues (rig : List Byte) : ValBad :=
  let on (n : Nat) : Bool := decide (fsyncA rig n / 2 ^ 21 % 2 = 1)
  let ball (n : Nat) : Nat := fsyncA rig n / 2 ^ 16 % 32
  let gen (n : Nat) : Bool :=
    let w := fsyncA rig n / 2 ^ 24
    decide (fsyncA rig n % 256 < fsyncA rig n / 256 % 256 ∨ 1000 * rigPeriod rig < fsyncB rig n + 1000 * w + 100) || on n && (decide (w = 0) ||
      (List.range n).any fun k => on k && decide (ball k = ball n))
  let pin (b : Nat) : Bool :=
    let m := ballByte rig b % 16
    decide (4 < m ∨ 2 < ballDefault rig b) || decide (m = 4) != (List.range 16).any fun n => on n && decide (ball n = b)
  valBad 10 (firstBad [(firstIx 16 gen).map fun n => 128 + 8 * n, (firstIx 32 pin).map (4 * ·)])

/-- R25, R414. -/
def budgetValues (p : Part) (rig : List Byte) : ValBad :=
  valBad 11 (badIf (decide (p.maxPower < rigBudget rig) || (State.listenShape rig && decide (2000 < rigBudget rig))) 0)

/-! ### MEDIA (R293 to R309) -/

/-- A sum of fractions. -/
def fracSum (l : List (Nat × Nat)) : Nat × Nat := l.foldl (fun a q => (a.1 * q.2 + q.1 * a.2, a.2 * q.2)) (0, 1)

/-- The records with the offset of each in the section. -/
def mediaAt : Nat → Nat → List Byte → List (Nat × Nat × List Byte) × Option Nat
  | 0, _, _ => ([], none)
  | fuel + 1, o, b =>
    let n := leAt b 2 2
    if b.isEmpty then ([], none)
    else if n < 4 ∨ b.length < n then ([], some o)
    else
      let r := mediaAt fuel (o + n) (b.drop n)
      ((o, leAt b 0 2, (b.take n).drop 4) :: r.1, r.2)

/-- The bytes of a record's body. -/
def mediaSize (kind : Nat) (b : List Byte) : Nat :=
  match kind with
  | 1 | 5 | 10 => 8
  | 2 | 3 => 16
  | 4 => 8 + (leAt b 1 1 + 3) / 4 * 4
  | 6 => 32
  | 7 => 36
  | 8 => 28
  | 9 => 4
  | 11 => 184
  | _ => 0

/-- A ring or a frame area lies in HyperRAM, aligned to 4 KiB. -/
def ringOk (rig : List Byte) (base size : Nat) : Bool := decide (base % 4096 = 0 ∧ size % 4096 = 0 ∧ 0x200000000 ≤ base ∧ base + size ≤ rigHrTop rig)

/-- R302, R305, R307: a frame area of `size` bytes lies in HyperRAM, its base aligned. -/
def areaOk (rig : List Byte) (base size : Nat) : Bool := decide (base % 4096 = 0 ∧ 0x200000000 ≤ base ∧ base + size ≤ rigHrTop rig)

/-- Bits per pixel of a CSI-2 data type; 0 for one the port does not take. -/
def csiBits (dt : Nat) : Nat := if dt = 0x2A then 8 else if dt = 0x2B then 10 else if dt = 0x2C then 12 else if dt = 0x1E then 16 else 0

/-- The camera stream records of a rig: number and body. -/
def rigStream (rig : List Byte) (st : Nat) : Option (List Byte) := (mediaBodies rig 2).find? fun b => decide (leAt b 0 1 = st)

/-- Frames per second of the frame-sync generator of a stream (R296). -/
def streamRate (rig : List Byte) (b : List Byte) : Nat × Nat := (1000000, max 1 (rigPeriod rig * (fsyncA rig (leAt b 10 1) % 256 + 1)))

/-- The I420 scaler output of source `n`: pixels per frame and its rate. -/
def i420Source (rig : List Byte) (n : Nat) : Option (Nat × Nat × Nat) :=
  ((mediaBodies rig 3).find? fun b => decide (leAt b 3 1 = n ∧ leAt b 2 1 = 2)).bind fun b =>
    (rigStream rig (leAt b 0 1)).map fun st => let f := streamRate rig st; (leAt b 12 2 * leAt b 14 2, f)

/-- One record's layout and its own limits. -/
def recordOkFor (p : Part) (rig : List Byte) (kind : Nat) (b : List Byte) : Bool :=
  let u (o : Nat) : Nat := leAt b o 1
  let h (o : Nat) : Nat := leAt b o 2
  decide (b.length = mediaSize kind b) &&
    match kind with
    | 1 => decide (u 0 < p.csiPorts ∧ (u 1 = 1 ∨ u 1 = 2 ∨ u 1 = 4) ∧ 80 ≤ h 2 ∧ h 2 ≤ 2500 ∧ leAt b 4 4 = 0)
    | 2 => decide (u 0 < 16 ∧ u 1 < p.csiPorts ∧ u 2 < 16 ∧ csiBits (u 3) ≠ 0 ∧ h 4 ≠ 0 ∧ h 6 ≠ 0 ∧ (u 8 < 2 ∨ u 8 = 0xFF) ∧ u 9 < 4 ∧ u 10 < 16 ∧ leAt b 12 4 = 0) &&
        (mediaBodies rig 1).any fun c => decide (leAt c 0 1 = u 1)
    | 3 => decide (u 1 < 4 ∧ u 2 < 3 ∧ 16 ≤ h 12 ∧ h 12 ≤ 4096 ∧ 8 ≤ h 14 ∧ h 14 ≤ 4096 ∧ (u 2 = 2 → h 12 % 2 = 0 ∧ h 14 % 2 = 0) ∧
          h 12 ≤ h 8 ∧ h 8 ≤ 16 * h 12 ∧ h 14 ≤ h 10 ∧ h 10 ≤ 16 * h 14) &&
        (match rigStream rig (u 0) with
          | some st => decide (leAt st 8 1 ≠ 0xFF ∧ h 4 + h 8 ≤ leAt st 4 2 ∧ h 6 + h 10 ≤ leAt st 6 2)
          | none => false)
    | 4 => decide (u 0 < 4 ∧ 1 ≤ u 1 ∧ u 1 ≤ 64 ∧ u 2 < 2 ∧ leAt b 4 4 = 0) && ((b.drop 8).take (u 1)).all (fun x => decide (x.toNat < 160)) &&
        (b.drop (8 + u 1)).all (fun x => decide (x = 0)) && (!rigDom rig 158 || decide (rigPeriod rig * audioRate (u 0) % 1000000 = 0))
    | 5 => decide (u 0 < 6 ∧ 1 ≤ u 1 ∧ u 1 ≤ 16 ∧ u 2 < 2 ∧ (u 2 = 1 → u 1 = 2) ∧ (4 ≤ u 0 → u 3 = 0xFF) ∧ leAt b 4 4 = 0)
    | 6 => decide (u 0 < 8 ∧ u 1 < 2 ∧ (u 2 < 2 ∨ u 2 = 0xFF) ∧ u 3 = 0 ∧ h 4 ≠ 0 ∧ h 6 ≠ 0 ∧ h 10 = 0) && ringOk rig (leAt b 16 8) (leAt b 12 4) &&
        areaOk rig (leAt b 24 8) (20 * (h 4 * h 6 * (if u 1 = 0 then 3 else 6) / 2))
    | 7 => decide (u 0 < 8 ∧ u 1 < 2 ∧ u 2 < 3 ∧ 1 ≤ h 4 ∧ h 4 ≤ 1024 ∧ u 6 < 52 ∧ u 7 = 0 ∧ h 14 = 0) && ringOk rig (leAt b 20 8) (leAt b 16 4) &&
        (match i420Source rig (u 3) with
          | some q => areaOk rig (leAt b 28 8) (5 * (q.1 * 3 / 2))
          | none => false)
    | 8 => decide (u 0 < 4 ∧ 1 ≤ u 2 ∧ u 2 ≤ 100 ∧ u 3 = 0 ∧ h 6 = 0) && ringOk rig (leAt b 12 8) (leAt b 8 4) &&
        (match i420Source rig (u 1) with
          | some q => areaOk rig (leAt b 20 8) (2 * (q.1 * 3 / 2))
          | none => false)
    | 9 => decide (leAt b 1 3 = 0)
    | 10 => decide (u 4 < 64 ∧ leAt b 5 3 = 0)
    | 11 => decide (u 0 < 16 ∧ leAt b 1 3 = 0)
    | _ => false

/-- What two records may not both name: port, stream, output or session, and the virtual channel of a port. -/
def mediaNames (kind : Nat) (b : List Byte) : List (List Nat) :=
  let u (o : Nat) : Nat := leAt b o 1
  match kind with
  | 2 => [[2, u 0], [2, u 1, u 2]]
  | 3 => [[3, u 0, u 1]]
  | 4 => [[4]]
  | 9 => [[9, u 0]]
  | 10 => [[10, leAt b 0 4, u 4]]
  | k => [[k, u 0]]

/-- A source number with two producers, or with two sessions that bind it (R294, R307). -/
def sourceClash (rig : List Byte) (a b : Nat × List Byte) : Bool :=
  (List.range 256).any fun n => namesSource a.1 a.2 n && namesSource b.1 b.2 n ||
    (decide (a.1 = 7 ∧ b.1 = 7 ∧ leAt a.2 3 1 = n ∧ leAt b.2 3 1 = n)) ||
    (decide (a.1 = 8 ∧ b.1 = 8 ∧ leAt a.2 1 1 = n ∧ leAt b.2 1 1 = n) && !(mediaBodies rig 7).any fun e => decide (leAt e 3 1 = n))

/-- A record by itself and beside those before it. -/
def recordBad (p : Part) (rig : List Byte) (rs : List (Nat × Nat × List Byte)) (i : Nat) : Option Nat :=
  let r := rs.getD i (0, 0, [])
  let before := rs.take i
  badIf (!recordOkFor p rig r.2.1 r.2.2 || before.any fun q =>
    (mediaNames q.2.1 q.2.2).any (fun n => (mediaNames r.2.1 r.2.2).contains n) || sourceClash rig q.2 r.2) r.1

/-- R296: the payload of CSI-2 port `n` in bits per second. -/
def portLoad (rig : List Byte) (n : Nat) : Nat × Nat :=
  fracSum (((mediaBodies rig 2).filter fun b => decide (leAt b 1 1 = n)).map fun b =>
    let f := streamRate rig b
    (leAt b 4 2 * leAt b 6 2 * csiBits (leAt b 3 1) * f.1, f.2))
/-- R296, R304: the pixel rate of pipeline `n`. -/
def pipeLoad (rig : List Byte) (n : Nat) : Nat × Nat :=
  fracSum (((mediaBodies rig 2).filter fun b => decide (leAt b 8 1 = n)).map (fun b =>
      let f := streamRate rig b
      (leAt b 4 2 * leAt b 6 2 * f.1, f.2)) ++
    ((mediaBodies rig 6).filter fun b => decide (leAt b 2 1 = n)).map fun b => (30 * leAt b 4 2 * leAt b 6 2, 1))
/-- Pixels per second of a source of I420 frames, times `k`. -/
def srcLoad (rig : List Byte) (n k : Nat) : Nat × Nat :=
  match i420Source rig n with
  | some (px, f) => (k * px * f.1, f.2)
  | none => (0, 1)
/-- R305: luma samples per second of the encoder. -/
def vencLoad (rig : List Byte) : Nat × Nat := fracSum ((mediaBodies rig 7).map fun b => srcLoad rig (leAt b 3 1) 1)
/-- R302: luma samples per second of the decoder. -/
def vdecLoad (rig : List Byte) : Nat := (mediaBodies rig 6).foldl (fun n b => n + 30 * leAt b 4 2 * leAt b 6 2) 0
/-- R309, Table 11.6, in half bytes per second: an H.265 session counts at Main 10, its maximum; bitstreams whose rate the rig does not give
count nothing. -/
def hyperLoad (rig : List Byte) : Nat × Nat :=
  fracSum (((mediaBodies rig 3).filter fun b => decide (leAt b 2 1 = 2)).map (fun b => srcLoad rig (leAt b 3 1) 3) ++
    (mediaBodies rig 7).map (fun b => fracSum [srcLoad rig (leAt b 3 1) 12, (leAt b 8 4 * 500, 1)]) ++
    (mediaBodies rig 8).map (fun b => srcLoad rig (leAt b 1 1) 3) ++
    (mediaBodies rig 6).map fun b => (30 * leAt b 4 2 * leAt b 6 2 * (if leAt b 1 1 = 1 then 30 else 15), 2))

/-- A rate exceeds a limit. -/
def exceeds (q : Nat × Nat) (lim : Nat) : Bool := decide (lim * q.2 < q.1)

/-- The offset of the first record of a kind. -/
def firstOfKind (rs : List (Nat × Nat × List Byte)) (k : Nat) : Nat := ((rs.find? fun r => decide (r.2.1 = k)).getD (0, 0, [])).1

/-- R293. -/
def mediaValues (p : Part) (rig : List Byte) : ValBad :=
  let m := rigSect rig 9
  let r := mediaAt m.length 0 m
  let rs := r.1
  valBad 9 (firstBad [r.2, (List.range rs.length).findSome? (recordBad p rig rs),
    rs.findSome? fun q => badIf (decide (q.2.1 = 1) && exceeds (portLoad rig (leAt q.2.2 0 1)) (900000 * leAt q.2.2 1 1 * leAt q.2.2 2 2)) q.1,
    badIf (exceeds (pipeLoad rig 0) 600000000 || exceeds (pipeLoad rig 1) 600000000) (firstOfKind rs 2),
    badIf (decide (497664000 < vdecLoad rig)) (firstOfKind rs 6), badIf (exceeds (vencLoad rig) (128563200 * p.vencs)) (firstOfKind rs 7),
    badIf (exceeds (hyperLoad rig) 7000000000) (firstOfKind rs 7)])

/-- Table 9.3 step 6. -/
def State.rigValue (s : State) (rig : List Byte) : ValBad :=
  firstBad [sailValues rig, xtreeValues rig, hrValues rig, s.winValues rig, tickValues rig, pdomValues s.part.masts rig, shedValues rig,
    mediaValues s.part rig, gpioValues rig, budgetValues s.part rig]

/-! ### Scope: step 7 (R242) -/

/-- The first byte at which two sections differ. -/
def firstDiff (a b : List Byte) : Option Nat := firstIx (max a.length b.length) fun i => decide (a[i]? ≠ b[i]?)

/-- The SHED entries that do not name mast `m`. -/
def otherSheds (rig : List Byte) (m : Nat) : List (List Byte) :=
  ((List.range (rigShedCount rig)).map (rigShed rig)).filter fun e => !decide ((leAt e 0 1 = 1 ∨ leAt e 0 1 = 2) ∧ leAt e 1 1 = m)

/-- What a single-mast re-rig of mast `m` may not change: the first difference, section kind and offset. -/
def scopeDiff (old new : List Byte) (m : Nat) : ValBad :=
  let sect (k : Nat) : ValBad := valBad k (firstDiff (rigSect old k) (rigSect new k))
  let other (v : Nat) : Bool := decide (8 ≤ v ∧ v % 8 ≠ m)
  let slot (o k : Nat) : Option Nat :=
    let x := xtreeSlot old o k
    let y := xtreeSlot new o k
    badIf (decide (x ≠ y ∧ o ≠ m) && (other x || other y)) (16 + o * xtreeLen new + k)
  let dom (d : Nat) : Option Nat :=
    if d / 20 = m ∧ d < 140 then none
    else firstBad [badIf (rigDom old d != rigDom new d) (d / 8), badIf (rigRet old d != rigRet new d) (32 + d / 8)]
  firstBad [valBad 1 ((List.range 224).find? fun i => decide (i / 32 ≠ m ∧ (rigSect old 1)[i]? ≠ (rigSect new 1)[i]?)),
    valBad 2 (firstDiff ((rigSect old 2).take 16) ((rigSect new 2).take 16)),
    valBad 2 ((List.range 8).findSome? fun o => (List.range (xtreeLen new)).findSome? (slot o)), sect 3,
    valBad 4 ((List.range 8192).find? fun i => decide (i / 1024 ≠ m ∧ (rigSect old 4)[i]? ≠ (rigSect new 4)[i]?)), sect 5, sect 6,
    valBad 7 ((List.range 163).findSome? dom), valBad 8 (badIf (decide (otherSheds old m ≠ otherSheds new m)) 0), sect 9, sect 10, sect 11, sect 12]

/-! ### Admitted programs: step 8 (R241, R33) -/

/-- The parts of a rig that program `p` depends on differ in two rigs. -/
def State.depDiffers (s : State) (p : Nat) (old new : List Byte) : Bool :=
  let g := s.prog p
  let pl := g.place
  let differ (k o n : Nat) : Bool := decide (sliceAt (rigSect old k) o n ≠ sliceAt (rigSect new k) o n)
  let dom (d : Nat) : Bool := rigDom old d != rigDom new d || rigRet old d != rigRet new d
  differ 5 0 16 || differ 6 0 16 || differ 2 2 1 || pl.yards.any (fun q => differ 1 (4 * q) 4) || pl.deps.any (fun e => differ e.1 e.2.1 e.2.2) ||
    (pl.deps.any (fun e => decide (e.1 = 2)) && differ 2 0 2) || (!pl.channels.isEmpty && (differ 3 0 2 || differ 3 4 2)) ||
    (!pl.hrReads.isEmpty && differ 3 2 1) ||
    g.box.tensors.any (fun t => decide (t.kind = 1 ∧ t.bind < 256) && decide (sourceRecord old t.bind ≠ sourceRecord new t.bind)) ||
    pl.yards.any (fun q => dom (State.domLogic (q / 8) (q % 8)) || dom (State.domSram (q / 8) (q % 8))) ||
    (s.progMasts p).any (fun m => dom (20 * m + 16) || dom (20 * m + 17) || dom (20 * m + 18)) ||
    rigPolicy old 0 != rigPolicy new 0 || (g.box.placed && rigPolicy old 1 != rigPolicy new 1) || rigPolicy old 3 != rigPolicy new 3

namespace State

/-- R26: the power of the admitted programs and of the Stay die blocks of a rig, in mW. -/
def powerSum (s : State) (rig : List Byte) : Nat :=
  s.admittedList.foldl (fun n p => n + (s.prog p).place.power) (Config.stayPower (rigSect rig 7) (rigSect rig 9))

/-- Step 8. -/
def rigBusy (s : State) (rig : List Byte) : Option Resp :=
  match s.admittedList.find? fun p => s.depDiffers p s.rig.cur rig with
  | some p => some (refuse 0x24 8 0xFFFF (s.handle p))
  | none => refuseIf (decide (rigBudget rig < s.powerSum rig)) (refuse 0x24 8 0xFFFF 0xFFFF (s.powerSum rig) (rigBudget rig))

/-- R239: step 4. -/
def rigVersionBad (s : State) (rig : List Byte) : Option Resp :=
  let want := if s.rigValid then rigDigest s.rig.cur else List.replicate 48 0
  refuseIf (!(decide (s.sec.rigHigh < rigVersion rig) && decide (sliceAt rig 0x20 48 = want))) (refuse 0x21 4 0xFFFF (rigVersion rig) s.sec.rigHigh)

/-- R242: step 7. -/
def rigScopeBad (s : State) (rig : List Byte) : Option Resp :=
  if rigScope rig = 0xFF then none
  else if !s.rigValid then some (refuse 0x23 7)
  else (scopeDiff s.rig.cur rig (rigScope rig)).map fun q => refuse 0x23 7 0xFFFF q.1 q.2

/-- Steps 2 and 3, 5 and 6. -/
def rigFormatBad (s : State) (rig : List Byte) : Option Resp := (rigFault s.part.masts rig).map fun o => refuse 0x20 2 0xFFFF o
def rigSigBad (s : State) (rig : List Byte) : Option Resp :=
  s.sigCheck (if rigSects rig = 13 then some (rigSect rig 13) else none) (rigDigest rig) (s.fuse 0) 3
def rigUnitBad (s : State) (rig : List Byte) : Option Resp := (s.rigUnit rig).map fun u => refuse 0x14 5 0xFFFF u
def rigValueBad (s : State) (rig : List Byte) : Option Resp := (s.rigValue rig).map fun q => refuse 0x22 6 0xFFFF q.1 q.2

/-- Table 9.3 steps 2 to 8 for an image fetched whole. -/
def rigChecks (s : State) (rig : List Byte) : Option Resp :=
  match s.rigFormatBad rig with
  | some r => some r
  | none => firstBad [s.rigSigBad rig, s.rigVersionBad rig, s.rigUnitBad rig, s.rigValueBad rig, s.rigScopeBad rig, s.rigBusy rig]

/-- R244: the backup rig passes steps 2, 5 and 6, and step 3 unless a fast wake applies it. -/
def backupOk (s : State) (rig : List Byte) (fast : Bool) : Bool :=
  decide (leAt rig 0x10 4 = rig.length) && (s.rigFormatBad rig).isNone && (fast || (s.rigSigBad rig).isNone) && (s.rigUnitBad rig).isNone &&
    (s.rigValueBad rig).isNone

end State
end Sys2Proof.Machine
end

