-- ==== Sys2Proof/Machine/RigApply.lean ====
section
/-! DEFINITION. A rig takes effect (R240, R243, R314, R412, R414): the tables that the MP and the supervisors stage into the blocks, the
rig store, the backup in flash, and the lists of peripheral descriptors. -/

namespace Sys2Proof.Machine
namespace State

/-! ### The tables of the blocks -/

def bitOf (b : Bool) : Nat := if b then 1 else 0

/-- SAILPLAN (R90). -/
def putSails (s : State) (rig : List Byte) : State :=
  (List.range 56).foldl (fun s i =>
    (s.put (yreg .yardSuit (i / 8) (i % 8)) 0 4 (sailShape rig i)).put (yreg .yardChain (i / 8) (i % 8)) 0 2 (sailChain rig i &&& chainMask (i % 8))) s

/-- XTREE (R126, R127, R130): the frame runs as it was until the next tick start (R240). -/
def putXtree (s : State) (rig : List Byte) : State :=
  let n := xtreeLen rig
  let s := { s with fabric := { s.fabric with reframe := decide (s.tick.phase = TickPhase.guard) } }
  let s := ((s.put (rid .xtreeCtrl) 0 12 (n - 1)).put (rid .xtreeCtrl) 12 1 1).put (rid .xtreeBudget) 0 4 (xtreeReplays rig)
  (List.range 8).foldl (fun s o => (List.range n).foldl (fun s k => s.setReg (rid .xtreeSlot o k) (BitVec.ofNat 64 (xtreeSlot rig o k))) s)
    (s.clearAll .xtreeSlot)

/-- HRSLOT (R363, R369, R371). -/
def putHyper (s : State) (rig : List Byte) : State :=
  let m := rigSect rig 3
  let n := hrLen rig
  let s := ((s.put (rid .hrcCtrl) 0 8 (hrMask rig)).put (rid .hrcCtrl) 8 1 (hrFlags rig)).put (rid .hrcCtrl) 9 1 1
  let s := ((s.put (rid .hrcFrame) 0 11 n).put (rid .hrcFrame) 12 4 (leAt m 2 1)).put (rid .hrcFrame) 16 16 (leAt m 6 2)
  let s := (List.range 8).foldl (fun s c => s.put (rid .hrcChCfg c) 8 8 (leAt m (8 + c) 1)) s
  (List.range 8).foldl (fun s c => (List.range n).foldl (fun s k => s.setReg (rid .hrcSlot c k) (BitVec.ofNat 64 (hrSlotByte rig c k))) s)
    (s.clearAll .hrcSlot)

/-- One window of the WINDOWS section: into the XTREE block, and into the copy that its initiator's port holds (R139). -/
def putWindow (s : State) (rig : List Byte) (i n : Nat) : State :=
  let w := (BitVec.ofNat 64 (winBase rig i n), BitVec.ofNat 64 (winPages rig i n), BitVec.ofNat 64 (winPerm rig i n))
  (((s.setReg (rid .xtreeWinBase i n) w.1).setReg (rid .xtreeWinSize i n) w.2.1).setReg (rid .xtreeWinPerm i n) w.2.2).setWin i n w

/-- WINDOWS (R137, R139). -/
def putWindows (s : State) (rig : List Byte) : State :=
  (List.range 8).foldl (fun s i => (List.range 64).foldl (fun s n => s.putWindow rig i n) s) s

/-- The frame-sync entries of the GPIO section (R55). -/
def putFsync (s : State) (rig : List Byte) : State :=
  (List.range 16).foldl (fun s n => (s.setReg (rid .tickFsyncA n) (BitVec.ofNat 64 (fsyncA rig n))).setReg (rid .tickFsyncB n) (BitVec.ofNat 64 (fsyncB rig n))) s

/-- R33: the TICK section takes effect at once while no tick runs, else at the next tick boundary. -/
def tickSection (s : State) (rig : List Byte) : State :=
  if s.tick.phase = .work ∨ s.tick.phase = .guard then { s with tick := { s.tick with retick := true } } else s.putTick rig

/-- The MP drives VSEL to the code of a rig's point. -/
def driveVsel (s : State) (rig : List Byte) : State :=
  let v := BitVec.ofNat 2 (rigOp rig)
  if s.power.vsel = v then s else { s with power := { s.power with vsel := v, vselAt := s.now } }

/-- R412: for a higher point VSEL is driven when the rig is accepted. -/
def raisePoint (s : State) (rig : List Byte) : State := if rigOp rig < s.get (rid .pwrState) 2 2 then s.driveVsel rig else s

/-- R412: a rig of a higher point takes effect in a guard that starts at least 1 ms after VSEL has changed. -/
def vselReady (s : State) (rig : List Byte) : Bool :=
  decide (s.get (rid .pwrState) 2 2 ≤ rigOp rig) || decide (s.power.vsel = BitVec.ofNat 2 (rigOp rig) ∧
    s.power.vselAt + 1000000 ≤ if s.tick.phase = TickPhase.guard then s.tick.guardAt else s.now)

/-- OPPOINT (R412): the masts and the crosstree take the clock, and VSEL shows it. -/
def putPoint (s : State) (rig : List Byte) : State := (s.put (rid .pwrState) 2 2 (rigOp rig)).driveVsel rig

/-- GPIO (R314): modes, defaults, and every ball at its default. -/
def putBalls (s : State) (rig : List Byte) : State :=
  let s := (List.range 32).foldl (fun s b => (s.put (rid .gpioBallCfg b) 0 5 (ballByte rig b)).put (rid .gpioBallCfg b) 8 2 (Machine.ballDefault rig b)) s
  (List.range 32).foldl ballToDefault s

/-! ### MEDIA -/

/-- R299, R296, R310: stream parameters, pipeline rates, audio clocks. -/
def putMedia (s : State) (rig : List Byte) : State :=
  let s := (List.range 16).foldl (fun s st =>
    let rec_ := (mediaBodies rig 11).find? fun b => decide (leAt b 0 1 = st)
    (List.range 45).foldl (fun s w =>
      s.setReg (rid .iplStrParam st w) (BitVec.ofNat 64 (match rec_ with | some b => leAt b (4 + 4 * w) 4 | none => iplResetWord w))) s) s
  let s := (List.range 2).foldl (fun s i => s.put (rid .iplPipeLoad i) 0 20 ((pipeLoad rig i).1 / (1000 * (pipeLoad rig i).2))) s
  s.put (rid .audStatus) 0 1 (bitOf (rigDom rig 158))

/-- The request line of a producer's record that names a source (Table 10.8). -/
def producerLine (kind : Nat) (b : List Byte) : Option Nat :=
  if kind = 2 then some (64 + leAt b 0 1)
  else if kind = 3 then some (4 * leAt b 0 1 + leAt b 1 1)
  else if kind = 4 then some 80
  else if kind = 5 ∧ leAt b 0 1 < 4 then some (81 + leAt b 0 1)
  else none

/-- R280: the burst of a line in 16-byte units: the largest up to 32 that divides a capture of `n` bytes. -/
def burstUnits (n : Nat) : Nat := ((List.range 33).filter fun k => decide (k ≠ 0 ∧ n % (16 * k) = 0)).foldl max 1

/-- R311: channels come interleaved and are written as planes. -/
def lineXform (kind : Nat) (b : List Byte) : Nat × Nat :=
  if (kind = 4 ∨ kind = 5) ∧ 1 < leAt b 1 1 then (2, leAt b 1 1 - 1) else (0, 0)

/-- R270: the descriptor that the MP builds for a request line: it takes its memory side from the source table, marks the half, and is
its own successor. The queue is `Config.mediaQueue`; the tag is zero (log entry 40). -/
def lineDesc (line src esz bytes : Nat) (x : Nat × Nat) : List Byte :=
  leN 1 1 ++ leN 1 (Nat.log2 esz) ++ leN 1 x.1 ++ leN 1 x.2 ++ leN 2 2 ++ leN 2 (Config.mediaQueue line) ++ leN 8 0 ++
    leN 1 line ++ leN 1 (burstUnits bytes) ++ leN 1 src ++ leN 1 3 ++ List.replicate 36 0 ++ le64 (mediaBase + 64 * line)

/-- The lines whose source a program can bind, with their descriptors. -/
def lineDescs (rig : List Byte) : List (Nat × List Byte) :=
  (mediaAll rig).filterMap fun r =>
    match producerLine r.1 r.2, (sourceByte r.1).map fun o => leAt r.2 o 1, producerShape rig r.1 r.2 with
    | some line, some src, some sh =>
      let esz := typeBits sh.type / 8
      if namesSource r.1 r.2 src && !codecBinds rig src then some (line, lineDesc line src esz (prodList sh.dims * esz) (lineXform r.1 r.2)) else none
    | _, _, _ => none

/-- The MP's lists: a context whose line has one is enabled, and starts it afresh; a capture in hand ends where the list changes. -/
def putLines (s : State) (rig : List Byte) : State :=
  let ds := lineDescs rig
  (List.range 110).foldl (fun s r =>
    match ds.find? fun e => decide (e.1 = r) with
    | some (_, d) =>
      if bit (s.reg (pstat r)) 0 && !bit (s.reg (pstat r)) 3 && decide (s.bytes (mediaBase + 64 * r) 64 = d) then s
      else (((s.abortDesc r).store (mediaBase + 64 * r) d).setReg (sreg .strmPctxNext r) (BitVec.ofNat 64 (mediaBase + 64 * r))).put (pstat r) 0 4 1
    | none => if bit (s.reg (pstat r)) 0 then ((s.abortDesc r).setReg (sreg .strmPctxNext r) 0).put (pstat r) 0 1 0 else s) s

/-! ### Channels, Listen and domains (R370, R373, R414) -/

/-- Channels that the rig leaves out are no longer ready, and those that it enables beside those enabled before (`old`) are brought up;
one that was enabled and is down waits for its retraining. -/
def putChannels (s : State) (old : Nat) (rig : List Byte) : State :=
  (List.range 8).foldl (fun s c =>
    let st := s.reg (rid .hrcStatus)
    if !hrOn rig c then (if isListen rig then s else (s.put (rid .hrcStatus) c 1 0).put (rid .hrcStatus) (16 + c) 1 0)
    else if bit st c || decide (old / 2 ^ c % 2 = 1) || SMap.get false s.power.out (64 + c) then s
    else s.hrTrain c (hrFlags rig / 2 % 2)) s

/-- Listen is entered or left. -/
def putListen (s : State) (rig : List Byte) : State :=
  let now := bitOf (isListen rig)
  let was := s.get (rid .pwrState) 0 2
  if now = was then s
  else
    let s := s.put (rid .pwrState) 0 2 now
    let s := if now = 1 then s.hrSleep.put (rid .usb4Link) 3 2 3 else s.hrWake
    s.raise 0x0809 7 0xFF 0xFFFF now 0

/-! ### The rig store (R239) -/

/-- The digests and versions of the store show. -/
def showStore (s : State) : State :=
  let words (s : State) (n : RegName) (b : List Byte) : State :=
    let d := if b.isEmpty then [] else rigDigest b
    (List.range 12).foldl (fun s w => s.setReg (rid n w) ((leWord d w).setWidth 64)) s
  let s := (s.put (rid .admRigStat) 0 1 (bitOf !s.rig.cur.isEmpty)).put (rid .admRigStat) 1 1 (bitOf !s.rig.prev.isEmpty)
  let s := (s.setReg (rid .admRigVer) (BitVec.ofNat 64 (if s.rig.cur.isEmpty then 0 else rigVersion s.rig.cur))).setReg (rid .admRigPrevVer)
    (BitVec.ofNat 64 (if s.rig.prev.isEmpty then 0 else rigVersion s.rig.prev))
  (words (words s .admRigDigest s.rig.cur) .admRigPrevDigest s.rig.prev).setReg (rid .admRigHigh) (BitVec.ofNat 64 s.sec.rigHigh)

/-- The rig image backup is rewritten. -/
def backup (s : State) (rig : List Byte) : State := (s.flashErase 0x410000 0x100000).flashStore 0x410000 rig
/-- The image that the backup holds. -/
def backupRig (s : State) : List Byte := s.flashBytes 0x410000 (min (leAt (s.flashBytes 0x410010 4) 0 4) 0x100000)

/-- R240: every table of a rig takes effect: the domains it disables go, those it enables come, and shedding ends (R420). -/
def putRig (s : State) (rig : List Byte) : State :=
  let channels := s.get (rid .hrcCtrl) 0 8
  let s := ((((s.putSails rig).putXtree rig).putHyper rig).putWindows rig).tickSection rig
  let s := ((((s.putFsync rig).putPoint rig).applyDoms rig).putMedia rig).putLines rig
  let s := ((s.putListen rig).putChannels channels rig).putBalls rig
  let s := { s with power := { s.power with restore := false }, media := { s.media with shedBlock := [] } }
  ({ s.endShed with power := { s.endShed.power with restore := false } }).showStore

/-- The current rig becomes `cur`, the previous one `prev`. -/
def swapRig (s : State) (cur prev : List Byte) : State :=
  ({ s with rig := { s.rig with cur := cur, prev := prev, staged := none, revert := none } }.put (rid .admRigStat) 2 1 0).put (rid .admRigStat) 8 8 (rigScope cur)

/-- R240: a rig accepted takes effect. -/
def applyRig (s : State) (rig : List Byte) : State :=
  let s := s.swapRig rig s.rig.cur
  ({ s with sec := { s.sec with rigHigh := max s.sec.rigHigh (rigVersion rig) } }).putRig rig

/-- R243: the previous rig takes effect; programs whose dependency set differs lose their admission. -/
def revertRig (s : State) : State :=
  let old := s.rig.cur
  let new := s.rig.prev
  let gone := s.admittedList.filter fun p => s.depDiffers p old new
  ((s.revoke gone).swapRig new old).putRig new

/-- Item 3 of R258 comes now: step 6 of a guard that still takes it, or the generator is stopped. -/
def step6Now (s : State) : Bool :=
  decide (s.tick.phase = .stopped) || (decide (s.tick.phase = .guard) && decide (s.tick.stage = 2) && decide (s.now ≤ s.tick.guardAt + 700))

/-- The first tick under a rig that takes effect now, and the generator's start where it was stopped (R240, R50). -/
def afterRig (s : State) : State := if s.tick.phase = .stopped then s.setRun else s

/-- The MP and the supervisors run that a REVERT needs, those of every mast, and VSEL has settled. -/
def revertHands (s : State) : Bool := s.fwRuns 1 && s.vselReady s.rig.prev && (List.range 7).all fun m => !s.mastIn m || s.fwRuns (3 + m)

/-- The MP and the supervisors that a rig touches run (Table 15.7), and VSEL has settled. -/
def rigHands (s : State) (rig : List Byte) : Bool :=
  s.fwRuns 1 && s.vselReady rig && (List.range 7).all fun m => !(s.mastIn m && decide (rigScope rig = 0xFF ∨ rigScope rig = m)) || s.fwRuns (3 + m)

end State
end Sys2Proof.Machine
end

