-- ==== Sys2Proof/Machine/Admission.lean ====
section
/-! DEFINITION. Load mailboxes, launches, rig loads, and the admission of programs (R243 to R261, R45 to R49). -/

namespace Sys2Proof.Machine

/-! ### Requests (Table 9.7) -/

/-- Byte `o` of a request is one that its command uses; the other bytes are zero. -/
def reqUses (b : List Byte) (o : Nat) : Bool :=
  match leAt b 0 1 with
  | 1 => decide (8 ≤ o ∧ o < 0x14)
  | 2 => decide (8 ≤ o ∧ o < 0x14 ∨ 0x18 ≤ o ∧ o < 0x25)
  | 3 | 6 => decide (8 ≤ o ∧ o < 0x0E ∨ 0x14 ≤ o ∧ o < 0x14 + 2 * leAt b 0x11 1)
  | 4 => decide (0x14 ≤ o ∧ o < 0x16)
  | _ => false

/-- R260: the offset of the first bad field of a request. -/
def commandFault (b : List Byte) : Option Nat :=
  let cmd := leAt b 0 1
  let starts := decide (cmd = 3 ∨ cmd = 6)
  let flags := if cmd = 2 then [0, 1] else if cmd = 5 then [0, 2] else [0]
  firstIx 64 fun o =>
    if o = 0 then decide (cmd = 0 ∨ 6 < cmd)
    else if o = 1 then !flags.contains (leAt b 1 1)
    else if o < 4 then false
    else if starts && o == 0x10 then decide (2 < leAt b 0x10 1)
    else if starts && o == 0x11 then decide (16 < leAt b 0x11 1 ∨ leAt b 0x11 1 = 0 ∧ cmd = 3)
    else !reqUses b o && decide (leAt b o 1 ≠ 0)

namespace State

/-- A firmware processor runs in a part that runs. -/
def up (s : State) (p : Nat) : Bool := s.fwRuns p && decide (s.power.life = .running)

/-- R262: who writes a mailbox: the host 0 and 1, the MP 2 and 3. -/
def viaMbox (s : State) (n : Nat) (f : State → State) : State :=
  if n < 2 then s.viaHost f else if n < 4 ∧ s.up 1 then f s else s

/-! ### Launch and restart (R47 to R49, R257) -/

/-- The earliest tick that a launch accepted now may name. -/
def earliest (s : State) : Nat :=
  let thisGuard := decide (s.tick.phase = .guard) && decide (s.now < s.tick.guardAt + 700)
  if s.tick.phase = .work ∨ thisGuard then s.nextT48 else s.nextT48 + 1

/-- The handles of a request; a RESTART that names none means every struck program. -/
def launchHandles (s : State) (b : List Byte) : List Nat :=
  if leAt b 0x11 1 = 0 then (s.admittedList.filter fun p => decide (s.progState p = 3) && !s.leaving p).map s.handle
  else (List.range (leAt b 0x11 1)).map fun i => leAt b (0x14 + 2 * i) 2

/-- A program may be launched (state 1) or restarted (state 3) now. -/
def launchable (s : State) (cmd p : Nat) : Bool :=
  !s.leaving p && (s.prog p).copied && decide (s.progState p = if cmd = 6 then 3 else 1) && !(decide (cmd = 6) && s.power.downhaulLow)

/-- The refusal of a handle. -/
def launchBad (s : State) (cmd h : Nat) : Option Resp :=
  match s.ofHandle h with
  | none => some (refuse 0x30 0 0xFFFF h)
  | some p => refuseIf (!s.launchable cmd p || s.queue.launches.any fun l => l.handles.contains h) (refuse 0x31 0 0xFFFF h)

/-- The least common multiple of the phase counts of a list of handles. -/
def phaseLcm (s : State) (hs : List Nat) : Nat := hs.foldl (fun n h => Nat.lcm n (max 1 (s.get (rid .admProgPh (h % 64)) 0 9))) 1

/-- The first tick that a request names: `when` 0 is tick F, 1 the next, 2 the next with phase 0. -/
def launchFirst (s : State) (b : List Byte) (hs : List Nat) : Nat :=
  let e := s.earliest
  if leAt b 0x10 1 = 0 then max (leAt b 8 6) e
  else if leAt b 0x10 1 = 1 then e
  else (e + s.phaseLcm hs - 1) / s.phaseLcm hs * s.phaseLcm hs

/-- R47: LAUNCH_SLIPPED, with the tick actually used. -/
def slipped (s : State) (h first : Nat) : State := s.raise 0x0108 7 0xFF h 0 first

/-- R255: the queue manager serves LAUNCH and RESTART at acceptance. -/
def acceptLaunch (s : State) (n : Nat) : State :=
  let b := s.mboxReq n
  let hs := s.launchHandles b
  let late := decide (leAt b 0x10 1 = 0) && decide (leAt b 8 6 < s.earliest)
  match hs.findSome? (s.launchBad (s.mboxCmd n)) with
  | some r => s.respond n r
  | none =>
    if hs.isEmpty then s.respond n (refuse 0x31 0 0xFFFF 0xFFFF)
    else if leAt b 0x10 1 = 2 ∧ 65536 < s.phaseLcm hs then s.respond n (refuse 0x32 0 0xFFFF (s.phaseLcm hs))
    else
      let first := s.launchFirst b hs
      let s := { s with queue := { s.queue with launches := s.queue.launches ++ [⟨n, hs, first⟩] } }
      if late then s.slipped (hs.headD 0xFFFF) first else s

/-- Items 1 and 2 of R258 are done: no unload and no removal of a unit waits for this step 6. -/
def leavesDone (s : State) : Bool := (s.admittedList.all fun p => !s.leaving p) && (s.power.outPending.isEmpty || !s.fwRuns 1)
/-- Item 3: no rig waits that this step 6 could apply. -/
def rigDone (s : State) : Bool :=
  (match s.rig.staged with | some r => !s.rigHands r.1 | none => true) && (s.rig.revert.isNone || !s.revertHands)

/-- R257: a launch or restart is armed at step 6 of the guard before its first run: its programs run from tick `t` on. -/
def armLaunch (s : State) (l : LaunchReq) (t : Nat) : State :=
  let s := { s with queue := { s.queue with launches := s.queue.launches.filter fun x => decide (x ≠ l) } }
  let h := l.handles.headD 0xFFFF
  match l.handles.find? fun h => match s.ofHandle h with | some p => !s.launchable (s.mboxCmd l.mbox) p | none => true with
  | some h => s.respond l.mbox (refuse 0x31 0 0xFFFF h)
  | none =>
    let s := if l.first < t then s.slipped h t else s
    let s := l.handles.foldl (fun s h => (s.put (rid .admProgA (h % 64)) 0 2 2).setReg (rid .admProgFirst (h % 64)) (BitVec.ofNat 64 t)) s
    s.showStruck.respond l.mbox { handle := h, detail := t }

/-! ### Fetching (Table 9.3 step 1) -/

/-- What a processor's fetch of an image comes to. -/
inductive Fetch where
  | waits (s : State)
  | fails (r : Resp)
  | got (b : List Byte)
  deriving DecidableEq, Repr

/-- The image that a request names, through the channel of its processor: a page fault waits for the driver's resume. A rig that Halyard has
staged stands in the rig store (R356). -/
def fetchImage (s : State) (n ch : Nat) : Fetch :=
  let b := s.mboxReq n
  let a := leAt b 8 8
  let len := leAt b 0x10 4
  if n = 2 ∧ s.rig.halyard ≠ [] then
    if leAt s.rig.halyard 0x10 4 = s.rig.halyard.length then .got s.rig.halyard else .fails (refuse 0x01 1 0xFFFF s.rig.halyard.length)
  else if s.chState ch = 2 then .waits s
  else match s.fetchStop ch a len false with
    | some (1, o) => .waits (s.haltFetch ch (a + o))
    | some (st, o) => .fails (refuse 0x01 1 0xFFFF o st)
    | none =>
      let img := s.pkgBytes a len
      if leAt img 0x10 4 = len then .got img else .fails (refuse 0x01 1 0xFFFF len)

/-- A load is refused. -/
def refuseLoad (s : State) (n : Nat) (r : Resp) : State := (s.raise 0x0923 7 n r.handle (s.mboxTag n) 0).respond n r

/-! ### Rigs (R240, R243) -/

/-- R240: the request of a rig in force waits for the rig's domains, which `old` has yet to bring up (log entry 48). -/
def awaitDomains (s old : State) (n : Nat) : State :=
  let w : Settle := ⟨n, s.now + old.settleNs s.opPoint s.rig.cur, s.nextT48, rigVersion s.rig.cur⟩
  { s.afterRig with rig := { s.afterRig.rig with settle := some w } }

/-- A rig takes effect. -/
def finishRig (s : State) (n : Nat) (img : List Byte) : State :=
  let t := (s.applyRig img).raise 0x0920 7 n 0xFFFF (s.mboxTag n) 0
  (if rigPersist img then t.backup img else t).awaitDomains s n

/-- A REVERT takes effect. -/
def finishRevert (s : State) (n : Nat) (persist : Bool) : State :=
  let t := s.revertRig.raise 0x0921 7 n 0xFFFF (s.mboxTag n) 0
  (if persist then t.backup t.rig.cur else t).awaitDomains s n

/-- R240: the request of a rig in force completes once the rig's domains are up. -/
def rigSettled (s : State) : State × Bool :=
  match s.rig.settle with
  | some w =>
    if s.now < w.upAt then (s, false)
    else ({ s with rig := { s.rig with settle := none } }.respond w.mbox { detail := w.first, detail2 := w.version }, true)
  | none => (s, false)

/-- The SP has to check signatures and does not run (Table 15.7). -/
def wantsSp (s : State) (signed : Bool) : Bool := signed && !s.up 0

/-- LOAD_RIG: the Bool says that the request is complete. -/
def serveRig (s : State) (n : Nat) : State × Bool :=
  if !s.up 1 || s.rig.staged.isSome then (s, false)
  else match s.fetchImage n 30 with
    | .waits t => (t, false)
    | .fails r => (s.refuseLoad n r, true)
    | .got img =>
      if s.wantsSp (decide (rigSects img = 13) || s.fuse 0) then (s, false)
      else match s.rigChecks img with
        | some r => (s.refuseLoad n r, true)
        | none =>
          let s := s.raisePoint img
          if s.tick.phase = .stopped ∧ s.rigHands img then (s.finishRig n img).rigSettled
          else ({ s with rig := { s.rig with staged := some (img, n) } }.put (rid .admRigStat) 2 1 1, false)

/-- REVERT. -/
def serveRevert (s : State) (n : Nat) : State × Bool :=
  let persist := decide (leAt (s.mboxReq n) 1 1 / 2 % 2 = 1)
  if !s.up 1 || s.rig.revert.isSome then (s, false)
  else if s.rig.prev.isEmpty then (s.respond n (refuse 0x31 0 0xFFFF 0xFFFF), true)
  else
    let s := s.raisePoint s.rig.prev
    if s.tick.phase = .stopped ∧ s.revertHands then (s.finishRevert n persist).rigSettled
    else ({ s with rig := { s.rig with revert := some (n, persist) } }.put (rid .admRigStat) 2 1 1, false)

/-! ### What is free (R245, Table 9.5) -/

/-- Masts whose control core, stream engine and port are on. -/
def mastOn (s : State) (m : Nat) : Bool := s.mastIn m && s.domOn (20 * m + 16) && s.domOn (20 * m + 17) && s.domOn (20 * m + 18)
/-- R409, R117: yards that are offered for placement: none that is being filled. -/
def freeYards (s : State) : List Nat :=
  (List.range 56).filter fun q => s.mastOn (q / 8) && s.yardOn (q / 8) (q % 8) && s.domOn (domSram (q / 8) (q % 8)) && (s.yard (q / 8) (q % 8)).initUntil.isNone && (s.yardOwner (q / 8) (q % 8)).isNone
def mastPairs (s : State) (n : Nat) (free : Nat → Nat → Bool) : List (Nat × Nat) :=
  (List.range 7).flatMap fun m => if s.mastOn m then ((List.range n).filter (free m)).map fun k => (m, k) else []
/-- Instruction memory region `r` of mast `m` is free (R206). -/
def imemFree (s : State) (m r : Nat) : Bool :=
  (s.mastUsers m).all fun p => let pl := (s.prog p).place; decide (r < pl.imemBase ∨ pl.imemBase + pl.imemSize ≤ r)
/-- R222: what the run-ahead pool of a mast still holds. -/
def poolLeft (s : State) (m : Nat) : Nat × Nat :=
  (s.mastUsers m).foldl (fun q p => (q.1 - (s.prog p).place.raBranches, q.2 - (s.prog p).place.raCmds)) (2, 96)

/-- Everything that a translation finds free: counter entries and table slots are those of free yards, given by their numbers. -/
def freeUnits (s : State) : Config.FreeUnits :=
  { yards := s.freeYards, contexts := s.mastPairs 8 fun m k => (s.progAt m k).isNone
    wheel := s.mastPairs 16 fun m w => !bit (s.reg (mreg .ccWheel m)) (4 * w + 3)
    flags := s.mastPairs 1024 fun m f => !bit (s.reg (mreg .flagLocal m f)) 19
    counters := s.freeYards.map fun q => (q, 512), tables := s.freeYards.map fun q => (q, 8), imem := s.mastPairs 64 s.imemFree
    pool := ((List.range 7).filter s.mastOn).map fun m => (m, (s.poolLeft m).1, (s.poolLeft m).2) }

/-! ### Admission (Table 9.4) -/

/-- The lowest free program number (R253). -/
def freeNumber (s : State) : Option Nat := (List.range 64).find? fun p => !s.admitted p

/-- Step 14 for a candidate: a free context on each mast that it uses. -/
def progLimit (s : State) (pl : Placement) : Option Resp :=
  let masts := pl.slots.map (·.1)
  if s.freeNumber.isNone || pl.slots.isEmpty then some (refuse 0x0E 14 0xFFFF 0xFF)
  else firstBad [(pl.slots.find? fun q => !s.freeUnits.contexts.contains q || decide (1 < masts.count q.1)).map fun q => refuse 0x0E 14 0xFFFF q.1,
    (pl.yards.find? fun q => !masts.contains (q / 8)).map fun q => refuse 0x0E 14 0xFFFF (q / 8)]

/-- A list has no entry twice. -/
def distinct {α : Type} [BEq α] (l : List α) : Bool := l.all fun x => decide (l.count x = 1)

/-- Step 15: a resource of Table 9.5 falls short: its detail, the amount needed and the amount free. -/
def short (ok : Bool) (detail need free : Nat) : Option Resp := refuseIf (!ok) (refuse 0x0F 15 0xFFFF detail need free)

/-- The local flags that a program names (R196, R197). -/
def localsUsed (c : Container) : List Nat :=
  (c.code.filterMap fun w => if insClass w = 7 then some (strmFlag w) else if insClass w = 8 ∧ insCtl w = 0 then some (flagOf w) else none).eraseDups

/-- The operands that stand where a function operation names its table (R164). -/
def tablesUsed (c : Container) : List Nat :=
  (c.code.filterMap fun w => if insClass w = 6 ∧ (insOp w = 0x0C ∨ insOp w = 0x0D) then some (insB w) else none).eraseDups

/-- The counted tensors (R78). -/
def countedTids (c : Container) : List Nat := (List.range c.tensors.length).filter fun i => (cTensor c i).counted

/-- Rows of Stay SRAM that admitted programs have. -/
def stayTaken (s : State) : List (Nat × Nat) := s.admittedList.flatMap fun p => stayRows (s.prog p).box (s.prog p).place

/-- Table 9.5, detail 3: a row lies in the media line and tile buffer region of Stay SRAM, and meets none of the others. -/
def stayFits (taken : List (Nat × Nat)) (q : Nat × Nat) : Bool :=
  decide (0x11200000 ≤ q.1 ∧ q.1 + q.2 ≤ 0x12200000) && taken.all fun t => decide (t.1 + t.2 ≤ q.1 ∨ q.1 + q.2 ≤ t.1)

/-- Step 15: what a candidate takes is free, and it takes what the program needs (Table 9.5, R78, R118, R164, R203, R205, R206, R213). -/
def resourceShort (s : State) (c : Container) (pl : Placement) : Option Resp :=
  let masts := pl.slots.map (·.1)
  let free := s.freeUnits
  let m := masts.headD 0
  let onMasts (l : List (Nat × Nat)) (k : Nat) : Bool := masts.all fun m => l.contains (m, k)
  let freeOn (l : List (Nat × Nat)) : Nat := l.countP fun q => decide (q.1 = m)
  let need := tablesUsed c
  let blocks := declaredBlocks c pl
  firstBad [short (distinct pl.yards && pl.yards.all free.yards.contains) 1 pl.yards.length free.yards.length,
    short (blocks.all (fun k => pl.yards.contains (k / 2048)) && distinct blocks && (bufferBlocks c pl).all fun b => decide (b.1 % 4096 = 0)) 2
      blocks.length (2048 * pl.yards.length),
    short ((stayRows c pl).all (stayFits s.stayTaken)) 3 ((stayRows c pl).map (·.2)).sum (0x1000000 - (s.stayTaken.map (·.2)).sum),
    short (decide (1 ≤ pl.imemSize ∧ pl.imemBase + pl.imemSize ≤ 64) && (List.range pl.imemSize).all fun i => onMasts free.imem (pl.imemBase + i))
      4 pl.imemSize (freeOn free.imem),
    short (!pl.positions.isEmpty && distinct pl.positions && pl.positions.all (onMasts free.wheel)) 5 (max 1 pl.positions.length) (freeOn free.wheel),
    short (distinct (pl.localFlags.map (·.1)) && distinct (pl.localFlags.map (·.2)) && pl.localFlags.all (fun e => masts.contains e.2.1 && free.flags.contains e.2) &&
      (localsUsed c).all (pl.localFlags.map (·.1)).contains) 6 (localsUsed c).length (freeOn free.flags),
    short (distinct (pl.counters.map (·.1)) && distinct (pl.counters.map (·.2)) && pl.counters.all (fun e => decide (e.2 < 512)) &&
      (countedTids c).all (pl.counters.map (·.1)).contains) 7 (countedTids c).length 512,
    short (distinct (pl.tables.map fun e => (e.1, e.2.2)) && pl.tables.all (fun e => pl.yards.contains e.1 && decide (e.2.2 < 8) && decide ((cTensor c e.2.1).kind = 5)) &&
      need.all fun t => pl.tables.any fun e => decide (e.2.1 = t)) 8 need.length 8]

/-- Step 15 before any placement: a function operation whose table is absent (R164). -/
def tableAbsent (c : Container) : Option Resp :=
  short ((tablesUsed c).all fun t => decide ((cTensor c t).kind = 5)) 8 (tablesUsed c).length 8

/-- R250: the retry slack: the replays of each link direction crossed, and the retries of each channel read (R367). -/
def slackOf (s : State) (pl : Placement) : Nat :=
  let h := if s.opPoint = 0 then 3293 else if s.opPoint = 1 then 2635 else 1647
  64 * xtreeReplays s.rig.cur * pl.links.eraseDups.length + h * leAt (rigSect s.rig.cur 3) 2 1 * pl.hrReads.eraseDups.length

/-- A candidate with its slack, and with what the pools of its masts can still give of its allowance (R222). -/
def candidate (s : State) (pl : Placement) : Placement :=
  { pl with slack := s.slackOf pl
            raBranches := pl.slots.foldl (fun n q => min n (s.poolLeft q.1).1) pl.raBranches
            raCmds := pl.slots.foldl (fun n q => min n (s.poolLeft q.1).2) pl.raCmds }

/-- Step 19: the worst-case end and the slack lie in the work window (R251). -/
def budgetShort (s : State) (pl : Placement) : Option Resp :=
  let work := cyclesOf s.opPoint (rigPeriod s.rig.cur * 1000 - rigGuard s.rig.cur)
  refuseIf (decide (work < pl.worstEnd + pl.slack))
    (refuse 0x12 19 0xFFFF (pl.worstEnd + pl.slack - work + 2 ^ 32 * (pl.slots.headD (0, 0)).1 + 2 ^ 40 * pl.heavyPhase) pl.worstEnd pl.slack)

/-- Step 20: the budget (R26). -/
def powerShort (s : State) (pl : Placement) : Option Resp :=
  let sum := s.powerSum s.rig.cur + pl.power
  refuseIf (decide (rigBudget s.rig.cur < sum)) (refuse 0x13 20 0xFFFF sum (rigBudget s.rig.cur))

/-- What the checks of a container come to: none where it passes, its candidate placement, and whether a report is due (R247). -/
structure Verdict where
  bad : Option Resp
  place : Placement
  deriving DecidableEq, Repr

/-- Steps 2 to 13, which do not depend on placement, in order. -/
def staticChecks (s : State) (img : List Byte) (c : Container) : Option Resp :=
  firstBad [refuseIf (!s.rigValid) (refuse 0x02 2), s.progChecks img c, (shapeFault c).map fun q => refuse 0x08 8 0xFFFF q.1 q.2, s.tableChecks c,
    s.flowChecks c]

/-- Steps 2 to 20 of Table 9.4: the translator's answer stands for the checks that need its schedule; what it takes is checked. -/
def verdict (s : State) (img : List Byte) (c : Container) (mask : Nat) : Verdict :=
  match s.staticChecks img c with
  | some r => ⟨some r, {}⟩
  | none =>
    match Config.translate img (rigDigest s.rig.cur) ((s.reg (rid .admTpVer)).setWidth 32) s.freeUnits mask with
    | .refused pl reason step d1 d2 d3 =>
      let pl := s.candidate pl
      ⟨firstBad [s.progLimit pl, tableAbsent c, some (refuse reason step 0xFFFF d1 d2 d3)], pl⟩
    | .fits pl =>
      let pl := s.candidate pl
      ⟨firstBad [s.progLimit pl, tableAbsent c, s.resourceShort c pl, s.budgetShort pl, s.powerShort pl], pl⟩

/-- The yard mask of a placement. -/
def yardMask (pl : Placement) : Nat := pl.yards.eraseDups.foldl (fun n q => n + 2 ^ q) 0

/-- Table 9.3a: the load report of a container and a placement; a tensor that is not double-buffered has no half 1 (its address is 0). -/
def loadReport (s : State) (c : Container) (pl : Placement) (h gcnt : Nat) : List Byte × List (List Byte) :=
  let ts := (c.tensors.mapIdx fun i t => (i, t)).filter fun q => decide (q.2.kind = 1 ∨ q.2.kind = 2)
  let head := leN 2 h ++ leN 2 ts.length ++ leN 4 c.progId.toNat ++ leN 4 pl.worstEnd ++ leN 4 pl.slack ++ leN 4 pl.power ++ leN 2 pl.heavyPhase ++
    leN 1 pl.raBranches ++ leN 1 pl.raCmds ++ le64 gcnt ++ le64 (yardMask pl) ++ leN 4 (s.get (rid .admTpVer) 0 32) ++ leN 1 pl.positions.length ++
    List.replicate 19 0
  (head, ts.map fun q =>
    let t := pl.tensors.getD q.1 default
    leN 2 q.1 ++ leN 1 q.2.kind ++ leN 5 0 ++ le64 t.half0 ++ le64 t.half1 ++ leN 4 t.planePitch ++ leN 4 t.rowPitch)

/-- R247: the report goes where the request says, as far as its capacity reaches in whole records; one that cannot be reached is not
written. -/
def writeReport (s : State) (n : Nat) (c : Container) (pl : Placement) (h gcnt : Nat) : State :=
  let b := s.mboxReq n
  let a := leAt b 0x18 8
  let cap := leAt b 0x20 4
  let r := s.loadReport c pl h gcnt
  let bs := if cap < 64 then [] else r.1 ++ (r.2.take ((cap - 64) / 32)).flatten
  if a = 0 ∨ bs.isEmpty ∨ (s.fetchStop 31 a bs.length true).isSome then s else s.looseWrite 0 otherRank a bs

/-- A tensor's storage into one half of its place, row by row. -/
def fillTensor (s : State) (t : Tensor) (pl : TensorPlace) (store : List Byte) : State :=
  let v : View := ⟨t, 0, pl.half0, pl.planePitch, pl.rowPitch, 0, 0⟩
  let bs := t.toRows store
  (List.range t.rows).foldl (fun s r => s.store (v.rowAddr r) (sliceAt bs (r * t.rowBytes) t.rowBytes)) s

/-- Constants, and the initial values of carried tensors: zero where CARRY has no entry (R179). -/
def fillTensors (s : State) (c : Container) (pl : Placement) : State :=
  (c.tensors.mapIdx fun i t => (i, t)).foldl (fun s q =>
    let place := pl.tensors.getD q.1 default
    if q.2.kind = 3 then s.fillTensor q.2 place (sliceAt c.const q.2.coff q.2.csize)
    else if q.2.kind = 4 then
      let init := ((c.carry.find? fun e => decide (e.1 = q.1)).getD (0, [])).2
      s.fillTensor q.2 place (fit q.2.storeBytes init)
    else s) s

/-- R281: the source table entry of an input. -/
def fillSource (s : State) (t : Tensor) (pl : TensorPlace) (prov : Bool) : State :=
  let n := t.bind
  let dim (s : State) (k count stride : Nat) : State := s.setReg (sreg .strmSrcDim n k) (BitVec.ofNat 64 (count + 2 ^ 32 * stride))
  let s := (s.setReg (sreg .strmSrcBase0 n) (BitVec.ofNat 64 pl.half0)).setReg (sreg .strmSrcBase1 n) (BitVec.ofNat 64 pl.half1)
  let s := dim (dim (dim s 0 t.width (typeBits t.type / 8)) 1 t.height pl.rowPitch) 2 t.planes pl.planePitch
  (s.put (srcCtl n) 0 16 (1 + 2 * bitOf prov + 256 * fld (Config.freeValue s.free) 0 8)).takeFree

/-- The entries of the source table for a program's inputs. -/
def fillSources (s : State) (c : Container) (pl : Placement) (prov : Bool) : State :=
  (c.tensors.mapIdx fun i t => (i, t)).foldl (fun s q =>
    if q.2.kind = 1 ∧ q.2.bind < 256 then s.fillSource q.2 (pl.tensors.getD q.1 default) prov else s) s

/-- The contexts and wheel positions of a placement (R203, R205, R206, R222). -/
def fillContexts (s : State) (pl : Placement) : State :=
  pl.slots.foldl (fun s q =>
    let s := s.setReg (mreg .ccCtxAlloc q.1 q.2)
      (BitVec.ofNat 64 (pl.imemBase + pl.imemSize * 2 ^ 6 + pl.positions.length * 2 ^ 13 + pl.raBranches * 2 ^ 18 + pl.raCmds * 2 ^ 20))
    pl.positions.foldl (fun s w => s.put (mreg .ccWheel q.1) (4 * w) 4 (8 + q.2)) s) s

/-- The slot of a placement on mast `m`. -/
def placeSlot (pl : Placement) (m : Nat) : Nat := ((pl.slots.find? fun e => decide (e.1 = m)).getD (0, 0)).2

/-- R164: the function tables of a placement. -/
def fillTables (s : State) (c : Container) (pl : Placement) : State :=
  pl.tables.foldl (fun s e =>
    let m := e.1 / 8
    let y := e.1 % 8
    let t := c.tensors.getD e.2.1 default
    let w (i : Nat) : BitVec 64 := BitVec.ofNat 64 (leAt c.const (t.coff + 4 * i) 4)
    let s := s.setReg (yreg .vuFtabMode m y e.2.2) (BitVec.ofNat 64 (1 + 2 * bitOf t.exp2 + 4 * placeSlot pl m))
    (((s.setReg (yreg .vuFtabLo m y e.2.2) (if t.exp2 then 0 else w 0)).setReg (yreg .vuFtabRinv m y e.2.2) (w 1)).setReg
      (yreg .vuFtabBelow m y e.2.2) (w 2)).setReg (yreg .vuFtabAbove m y e.2.2) (w 3)) s

/-- Local flags mapped, and the blocks of declared buffers armed (R118, R213). -/
def fillFlags (s : State) (c : Container) (pl : Placement) : State :=
  let s := pl.localFlags.foldl (fun s e => s.put (mreg .flagLocal e.2.1 e.2.2) 16 4 (8 + placeSlot pl e.2.1)) s
  (declaredBlocks c pl).foldl (fun s k => s.put (blockReg k) 7 1 1) s

/-- The ADM registers of an admitted program. -/
def fillAdm (s : State) (p h : Nat) (c : Container) (pl : Placement) : State :=
  let masts := (pl.slots.map (·.1)).eraseDups.foldl (fun n m => n + 2 ^ m) 0
  let s := (s.setReg (rid .admProgA p) (BitVec.ofNat 64 (1 + masts * 8 + h * 2 ^ 16))).setReg (rid .admProgId p) (c.progId.setWidth 64)
  let s := (s.put (rid .admProgPh p) 0 9 c.phases).put (rid .admProgEnd p) 0 27 (pl.worstEnd + pl.slack)
  s.put (rid .admProgPwr p) 0 16 pl.power

/-- Inputs bound to outputs: their producers (R465). -/
def boundOutputs (s : State) (c : Container) : SMap InputSt :=
  (c.tensors.mapIdx fun i t => (i, t)).foldl (fun m q =>
    if q.2.kind = 1 ∧ 256 ≤ q.2.bind then
      let e := Config.bindOutput q.2.bind
      match s.headTensor e.1 e.2 with
      | some o => SMap.set {} m q.1 { producer := some (BitVec.ofNat 16 (s.handle e.1), o.1) }
      | none => m
    else m) []

/-- A program is admitted: its resources are reserved and its tables written in this cycle. -/
def admitProg (s : State) (n p : Nat) (c : Container) (pl : Placement) : State :=
  let serial := SMap.get 1 s.serials p
  let h := p + 64 * serial
  let prov := rigPolicy s.rig.cur 3
  let g : Prog := { box := c, place := pl, ctx := { run := .idle }, inputs := s.boundOutputs c, admitT48 := BitVec.ofNat 48 s.t48
                    tpVer := (s.reg (rid .admTpVer)).setWidth 32, prov := prov }
  let s := { s with serials := SMap.set 1 s.serials p ((serial + 1) % 1024) }
  let s := ((s.setProg p g).fillAdm p h c pl).fillContexts pl
  let s := (((s.fillFlags c pl).fillTables c pl).fillSources c pl prov).fillTensors c pl
  s.raise 0x0922 7 n h (s.mboxTag n) 0

/-- LOAD_PROG of an image fetched whole. -/
def loadProg (s : State) (n : Nat) (img : List Byte) : State × Bool :=
  let c := parseBox img
  let v := s.verdict img c (leAt (s.mboxReq n) 0x24 1)
  match v.bad with
  | some r => ((if 14 ≤ r.step then s.writeReport n c v.place 0xFFFF 0 else s).refuseLoad n r, true)
  | none =>
    if leAt (s.mboxReq n) 1 1 % 2 = 1 then
      ((s.writeReport n c v.place 0xFFFF 0).respond n { detail := yardMask v.place, detail2 := v.place.worstEnd, detail3 := v.place.slack }, true)
    else match s.freeNumber with
      | some p => (s.admitProg n p c v.place, false)
      | none => (s, false)

/-- The program of the LOAD_PROG in hand whose image is on its way into instruction memory (R207). -/
def copying (s : State) : Option Nat := s.admittedList.find? fun p => !(s.prog p).copied

/-- LOAD_PROG. -/
def serveProg (s : State) (n : Nat) : State × Bool :=
  if !s.up 2 || s.copying.isSome then (s, false)
  else match s.fetchImage n 31 with
    | .waits t => (t, false)
    | .fails r => (s.refuseLoad n r, true)
    | .got img =>
      if s.wantsSp ((sectAt img (boxSects img) 8).isSome || s.fuse 1 || s.policy 0) then (s, false) else s.loadProg n img

/-- UNLOAD: complete once its program is gone. -/
def serveUnload (s : State) (n : Nat) : State × Bool :=
  let h := leAt (s.mboxReq n) 0x14 2
  match s.ofHandle h with
  | some _ => (s, false)
  | none => (s.respond n { handle := h }, true)

/-- The head of the queue of load-type requests is served as far as it can go (R255). -/
def serveHead (s : State) (n : Nat) : State × Bool :=
  if s.rig.settle.isSome then s.rigSettled
  else match s.mboxCmd n with
    | 1 => s.serveRig n
    | 2 => s.serveProg n
    | 4 => s.serveUnload n
    | _ => s.serveRevert n

/-- Load-type requests are served one at a time, in order. -/
def serveFuel : Nat → State → State
  | 0, s => s
  | k + 1, s => match s.rig.queue with
    | [] => s.put (rid .admTpStat) 0 1 0
    | n :: rest =>
      let r := (s.put (rid .admTpStat) 0 1 1).serveHead n
      if r.2 then serveFuel k { r.1 with rig := { r.1.rig with queue := rest } } else r.1

def serveAll (s : State) : State := serveFuel 5 s

/-- The load-type request in hand is complete: the next is served. -/
def nextLoad (s : State) : State := { s with rig := { s.rig with queue := s.rig.queue.drop 1 } }.serveAll

/-! ### Unload (R255, R258) -/

/-- R255: the request of mailbox `n` joins those accepted: behind all but later-numbered ones of its own cycle that wait behind the head. -/
def joinLoads (s : State) (n : Nat) : State :=
  let later := fun k => decide (n < k) && decide (s.tickStart ≤ SMap.get 0 s.rig.acceptedAt k) &&
    decide (cyclesOf s.opPoint (SMap.get 0 s.rig.acceptedAt k - s.tickStart) = s.cycle)
  let q := s.rig.queue
  let kept := q.take 1 ++ (q.drop 1).filter (fun k => !later k)
  { s with rig := { s.rig with queue := kept ++ n :: (q.drop 1).filter later, acceptedAt := SMap.set 0 s.rig.acceptedAt n s.now } }

/-- The mailbox of the UNLOAD of a handle. -/
def unloadBox (s : State) (h : Nat) : Option Nat := s.rig.queue.find? fun n => decide (s.mboxCmd n = 4 ∧ leAt (s.mboxReq n) 0x14 2 = h)

/-- A program that an UNLOAD has marked leaves. -/
def removeProg (s : State) (p : Nat) : State :=
  match s.unloadBox (s.handle p) with
  | some n => (s.leave p 0x0925 n (s.mboxTag n)).serveAll
  | none => (s.leave p 0x0925 0xFF 0).serveAll

/-- An UNLOAD is marked at acceptance; while the generator is stopped it takes effect at once. -/
def acceptUnload (s : State) (n : Nat) : State :=
  let h := leAt (s.mboxReq n) 0x14 2
  match s.ofHandle h with
  | none => s.respond n (refuse 0x30 0 0xFFFF h)
  | some p =>
    if s.leaving p then s.respond n (refuse 0x31 0 0xFFFF h)
    else
      let s := (s.put (rid .admProgA p) 2 1 1).joinLoads n
      if s.tick.phase = .stopped then s.removeProg p else s.serveAll

/-! ### Acceptance (R254) -/

/-- A doorbell: the request is accepted in this cycle, or discarded while the mailbox is busy. -/
def accept (s : State) (n : Nat) : State :=
  if s.mboxBusy n then s.put (rid .admMboxStat n) 2 1 1
  else
    let s := s.put (rid .admMboxStat n) 0 1 1
    match commandFault (s.mboxReq n) with
    | some o => s.respond n (refuse 0x33 0 0xFFFF o)
    | none =>
      match s.mboxCmd n with
      | 3 | 6 => s.acceptLaunch n
      | 4 => s.acceptUnload n
      | _ => (s.joinLoads n).serveAll

/-- The doorbell of a mailbox that holds a request of the command named; a busy one counts whatever it holds. -/
def submit (s : State) (n cmd : Nat) : State :=
  s.viaMbox n fun s => if s.mboxBusy n || decide (s.mboxCmd n = cmd) then s.accept n else s

/-! ### The instruction memory copy (R207) -/

/-- The copy of a program's image has completed: the report is written, and the LOAD_PROG is done. -/
def finishProg (s : State) (p n : Nat) : State :=
  let g := s.prog p
  let s := s.setProg p { g with copied := true }
  let h := s.handle p
  let s := (s.writeReport n g.box g.place h s.now).respond n
    { handle := h, detail := yardMask g.place, detail2 := g.place.worstEnd, detail3 := g.place.slack }
  s.nextLoad

end State

/-- LAUNCH at a mailbox (R257). -/
def execLaunch (mbox : Nat) (s : State) : Host.Outcome State Fault Refusal := .next (s.submit mbox 3)

/-- RESTART at a mailbox (R49, R257, R349). -/
def execRestart (mbox : Nat) (s : State) : Host.Outcome State Fault Refusal := .next (s.submit mbox 6)

/-- LOAD_RIG at a mailbox (R248). -/
def execLoadRig (mbox : Nat) (s : State) : Host.Outcome State Fault Refusal := .next (s.submit mbox 1)

/-- LOAD_PROG at a mailbox (R248). -/
def execLoadProg (mbox : Nat) (s : State) : Host.Outcome State Fault Refusal := .next (s.submit mbox 2)

/-- UNLOAD at a mailbox (R255). -/
def execUnload (mbox : Nat) (s : State) : Host.Outcome State Fault Refusal := .next (s.submit mbox 4)

/-- REVERT at a mailbox (R243). -/
def execRevert (mbox : Nat) (s : State) : Host.Outcome State Fault Refusal := .next (s.submit mbox 5)

/-- Item 4 of R258: the launch or restart of a mailbox is armed. -/
def execLaunchArmed (mbox : Nat) (s : State) : Host.Outcome State Fault Refusal :=
  .next (match s.queue.launches.find? fun l => decide (l.mbox = mbox) with
    | some l =>
      if s.tick.phase = .guard ∧ s.step6Now ∧ l.first ≤ s.nextT48 ∧ s.leavesDone ∧ s.rigDone then s.armLaunch l s.nextT48 else s
    | none => s)

/-- Item 1 of R258: a program that an UNLOAD has marked leaves. -/
def execProgRemoved (p : Nat) (s : State) : Host.Outcome State Fault Refusal :=
  .next (if s.admitted p && s.leaving p && s.step6Now then s.removeProg p else s)

/-- Item 3 of R258: an accepted rig takes effect (R240). -/
def execRigApplied (s : State) : Host.Outcome State Fault Refusal :=
  .next (match s.rig.staged with
    | some (img, n) => if s.step6Now && s.rigHands img && s.leavesDone then (s.finishRig n img).serveAll else s
    | none => s)

/-- Item 3 of R258: a REVERT takes effect (R243). -/
def execRigReverted (s : State) : Host.Outcome State Fault Refusal :=
  .next (match s.rig.revert with
    | some (n, persist) => if s.step6Now && s.revertHands && s.leavesDone then (s.finishRevert n persist).serveAll else s
    | none => s)

/-- The native image of program `p` stands in instruction memory (R207): the supervisors of its masts copy it. -/
def execImemCopyDone (p : Nat) (s : State) : Host.Outcome State Fault Refusal :=
  .next (match s.rig.queue.head? with
    | some n =>
      if s.copying = some p ∧ s.mboxCmd n = 2 ∧ s.up 2 ∧ (s.progMasts p).all fun m => s.fwRuns (3 + m) then s.finishProg p n else s
    | none => s)

end Sys2Proof.Machine
end

