-- ==== Sys2Proof/Machine/Net.lean ====
section
/-! DEFINITION. The management port's addresses and frames (R351, R352): ARP, echo, NDP, DHCPv4, and the frames discarded. -/

namespace Sys2Proof.Machine
namespace State

/-! ### Addresses -/

/-- A byte string as a number, first byte highest. -/
def beVal (b : List Byte) : Nat := b.foldl (fun n x => n * 256 + x.toNat) 0

def macBytes (s : State) : List Byte := leN 6 (s.get (rid .ethMac) 0 48)

/-- The interface identifier of the MAC address (PRESUMED, log entry 44: modified EUI-64). -/
def ifaceId (s : State) : Nat :=
  let m := s.macBytes
  beVal ([m.getD 0 0 ^^^ 2] ++ sliceAt m 1 2 ++ [0xFF, 0xFE] ++ sliceAt m 3 3)

/-- SET_NET's settings are static. -/
def netStatic (s : State) : Bool := decide (leAt s.sec.setNet 0 1 = 1)

/-- The IPv4 address as ETH_IPV4 holds it, 0 where none is held. -/
def netV4 (s : State) : Nat := if s.netStatic then leAt s.sec.setNet 4 4 else s.mgmt.dhcpAddr.toNat

/-- The IPv6 global address, if one is held. -/
def netV6 (s : State) : Option Nat :=
  if s.netStatic then
    let a := beVal (sliceAt s.sec.setNet 16 16)
    if a = 0 then none else some a
  else s.mgmt.slaacPfx.map fun p => p * 2 ^ 64 + s.ifaceId

/-- The part's own IPv6 addresses: link-local and global. -/
def ownV6 (s : State) : List Nat := (0xFE80 * 2 ^ 112 + s.ifaceId) :: s.netV6.toList

/-- ETH_IPV4 and ETH_STAT follow the settings. -/
def showNet (s : State) : State :=
  ((s.setReg (rid .ethIpv4) (BitVec.ofNat 64 s.netV4)).put (rid .ethStat) 1 1 (if s.netV4 = 0 then 0 else 1)).put (rid .ethStat) 2 1
    (if s.netV6.isSome then 1 else 0)

/-- The management port comes up with a MAC address, and the MP enables the MAC (log entry 44). -/
def startNet (s : State) (tail : List Byte) : State :=
  ((s.setReg (rid .ethMac) (BitVec.ofNat 64 (leAt ([0x02] ++ tail.take 5) 0 6))).put (rid .ethCtrl) 0 1 1).showNet

/-- R352: the address of the device's identity key. -/
def startNetKeyed (s : State) : State := s.startNet (sha384 s.devidPub)

/-- Recovery derives no key, and the spec gives the address's last five bytes no other source: they are free. -/
def startNetFree (s : State) : State := (s.startNet (s.freeBytes 8)).takeFree

/-! ### Who listens -/

/-- The MAC takes frames. -/
def macOn (s : State) : Bool := s.domOn 159 && bit (s.reg (rid .ethCtrl)) 0 && bit (s.reg (rid .ethStat)) 0

/-- The MP's stack, or the recovery loader, runs. -/
def stackUp (s : State) : Bool := decide (s.power.life = .recovery) || (decide (s.power.life = .running) && s.fwRuns 1)

def netOn (s : State) : Bool := s.macOn && s.stackUp

/-- A frame or a datagram is discarded and counted. -/
def netDrop (s : State) : State := s.bump (rid .ethDropCnt)

/-- Frames are sent. -/
def send (s : State) (fs : List (List Byte)) : State := { s with mgmt := { s.mgmt with reply := fs } }

/-- A new second of the datagram limit begins. -/
def netSecond (s : State) : State :=
  if s.mgmt.rateAt + 1000000000 ≤ s.now then { s with mgmt := { s.mgmt with rate := 0, rateAt := s.now } } else s

/-- The speed code of ETH_CTRL and of ETH_LINK's arg16. -/
def speedCode : EthSpeed → Nat
  | .down => 0
  | .m10 => 1
  | .m100 => 2
  | .m1000 => 3

end State

/-- The Ethernet link changes (R344, R351): the MP reads the speed over MDIO, sets ETH_CTRL.speed, and ETH_LINK is raised. -/
def execEthLink (speed : EthSpeed) (s : State) : Host.Outcome State Fault Refusal :=
  .next (
    if !s.domOn 159 then s
    else
      let c := State.speedCode speed
      let was := if bit (s.reg (rid .ethStat)) 0 then s.get (rid .ethCtrl) 3 2 else 0
      if c = was then s
      else
        let s := s.put (rid .ethStat) 0 1 (if c = 0 then 0 else 1)
        if !s.stackUp then s
        else
          let s := if c = 0 then s else s.put (rid .ethCtrl) 3 2 c
          if s.power.life = .running then s.raise 0x0708 7 0xFF 0xFFFF c 0 else s)

/-- An ARP request (R352): answered, where it asks for the address held, with the MAC and IPv4 addresses. -/
def execArpRequest (target : BitVec 32) (s : State) : Host.Outcome State Fault Refusal :=
  .next (if s.netOn && decide (s.netV4 ≠ 0 ∧ target.toNat = s.netV4) then s.send [s.macBytes ++ leN 4 s.netV4] else s)

/-- An ICMPv4 echo request (R352): answered with its payload. -/
def execIcmpv4Echo (target : BitVec 32) (payload : List (BitVec 8)) (s : State) : Host.Outcome State Fault Refusal :=
  .next (if s.netOn && decide (s.netV4 ≠ 0 ∧ target.toNat = s.netV4) then s.send [payload] else s)

/-- An ICMPv6 echo request (R352): answered with its payload. -/
def execIcmpv6Echo (target : Nat) (payload : List (BitVec 8)) (s : State) : Host.Outcome State Fault Refusal :=
  .next (if s.netOn && s.ownV6.contains target then s.send [payload] else s)

/-- An NDP message (R352): a solicitation of an own address is answered with the MAC address, and a router's prefix gives the global
address unless the settings are static. -/
def execNdpMessage (msg : NdpMsg) (s : State) : Host.Outcome State Fault Refusal :=
  .next (
    if !s.netOn then s
    else match msg with
      | .solicit target => if s.ownV6.contains target then s.send [beBytes 16 target ++ s.macBytes] else s
      | .routerAdv pfx =>
        if s.netStatic then s else ({ s with mgmt := { s.mgmt with slaacPfx := some (pfx % 2 ^ 64) } }).showNet)

/-- A message of the DHCPv4 server (R352): the client takes the address, or gives it up. -/
def execDhcpv4Message (msg : DhcpMsg) (s : State) : Host.Outcome State Fault Refusal :=
  .next (
    if !s.netOn || s.netStatic then s
    else
      let a := match msg with
        | .ack addr => addr
        | .nak => 0
      ({ s with mgmt := { s.mgmt with dhcpAddr := a } }).showNet)

/-- A frame that is discarded and counted (R351, R352): the MAC discards tagged and jumbo frames, the stack the rest. -/
def execEthFrameDiscard (why : EthDrop) (s : State) : Host.Outcome State Fault Refusal :=
  .next (
    match why with
    | .vlan | .jumbo => if s.macOn then s.netDrop else s
    | .fragment | .tcp | .otherProto => if s.netOn then s.netDrop else s
    | .rateLimit => if s.netOn && decide (2000 ≤ s.netSecond.mgmt.rate) then s.netDrop else s)

end Sys2Proof.Machine
end

