-- ==== Sys2Proof/Machine/Boot.lean ====
section
/-! DEFINITION. Resets, the cold boot, deep sleep and the wake from it (R28, R244, R370, R380 to R395, R413 to R416, R423). -/

namespace Sys2Proof.Machine
namespace State

/-! ### What a reset leaves (Table 15.6) -/

/-- The bytes of memory that a reset of the part leaves as they stand: the host's own, and the HyperRAM devices' where they keep them. -/
def keptMem (s : State) (hyper : Bool) : SMap Byte :=
  SMap.restrict (fun a => decide (2 ^ 64 ≤ a) || (hyper && decide (0x200000000 ≤ a ∧ a < 0x240000000))) s.mem

/-- The check states of the words of HyperRAM, where the devices keep them. -/
def keptEcc (s : State) (hyper : Bool) : SMap Nat := SMap.restrict (fun k => hyper && decide (0x200000000 ≤ 8 * k ∧ 8 * k < 0x240000000)) s.ecc

/-- Fuses and flash, the straps on the balls, and the retention SRAM where it keeps its contents. -/
def keptSec (s : State) (retention : List Byte) : SecSt :=
  { revoke := s.sec.revoke, policy := s.sec.policy, svn := s.sec.svn, keyHash := s.sec.keyHash, flash := s.sec.flash, bootCnt := s.sec.bootCnt
    rigHigh := s.sec.rigHigh, setNet := s.sec.setNet, hssBlocks := s.sec.hssBlocks, retention := retention, bootMode := s.sec.bootMode
    forceGolden := s.sec.forceGolden }

/-- Everything is reset but what Table 15.6 says survives: `wake` is the reset of a wake, which keeps the retention SRAM, and `cause` the
bit of PWR_RST_CAUSE that it sets. The balls' levels are the world's. -/
def resetPart (s : State) (wake : Bool) (cause : Nat) : State :=
  let base : State :=
    { State.reset with
      part := s.part, mem := s.keptMem wake, ecc := s.keptEcc wake, sec := s.keptSec (if wake then s.sec.retention else []), free := s.free
      pending := s.pending, gpio := { seen := s.gpio.seen }
      power := { downhaulLow := s.power.downhaulLow, tripReport := s.power.tripReport || decide (s.power.life = .tripped) } }
  let base := (base.setReg (rid .pwrRstCause) (s.reg (rid .pwrRstCause))).put (rid .pwrRstCause) cause 1 1
  let base := (base.put (rid .secStatus) 7 2 s.sec.bootMode.toNat).put (rid .secStatus) 9 1 (bitOf s.sec.forceGolden)
  (base.put (rid .qmDhStat) 3 1 (bitOf s.power.downhaulLow)).showSec

/-! ### The cold boot (R381 to R385) -/

/-- The SP halts with a code. -/
def haltBoot (s : State) (code : Nat) : State := ({ s with power := { s.power with life := .halted } }).showCode code

/-- R390: recovery waits for an image: the management port alone runs. -/
def enterRecovery (s : State) : State :=
  let s := [140, 141, 159, 161, 162].foldl (fun s d => s.setDom d true) s
  (({ s with power := { s.power with life := .recovery } }).put (rid .secStatus) 12 1 1).startNetFree.showCode 0x10

/-- R391: the test loader runs; whether the self-test passes is a free value (log entry 8). -/
def enterTest (s : State) : State :=
  let s := ({ s with power := { s.power with life := .test } }).put (rid .secStatus) 13 1 1
  (s.showCode (0x19 + fld (Config.freeValue s.free) 0 1)).takeFree

/-- Step 1 of Table 14.6: the boot counter. -/
def countBoot (s : State) : State := ({ s with sec := { s.sec with bootCnt := min (s.sec.bootCnt + 1) 0xFFFFFFFF } }).showSec

/-- R381: the update slot is examined in these states (Table 14.3). -/
def updExamined (s : State) : Bool := !s.sec.forceGolden && decide (s.slotState true = 5 ∨ s.slotState true = 6)

/-- An examination at boot, with SEC_SLOT_BAD where it fails. -/
def bootExam (s : State) (upd : Bool) (e : Exam) : State :=
  let s := s.showExam upd e
  if e.result = 0 then s else s.raise 0x0A01 7 0xFF 0xFFFF (bitOf upd * 256 + e.result) 0

/-- R381: the update slot is preferred to the golden one. -/
def prefersUpd (g u : Exam) : Bool := decide (g.result ≠ 0) || decide (g.svn < u.svn) || (decide (g.svn = u.svn) && decide (g.build < u.build))

/-- R382: the halt code where no slot is eligible. -/
def noSlotCode (g : Exam) (u : Option Exam) : Nat :=
  match u with
  | none => g.result
  | some e => if g.result = 0x2B ∧ e.result = 0x2B then 0x2B else 0x2A

/-- R409: what is powered before a rig is applied: what every rig keeps on, the TP and the management port (log entry 41). -/
def bootDoms (s : State) : List Nat :=
  [140, 141, 142, 143, 144, 159, 160, 161, 162] ++ ((List.range 7).filter s.mastIn).map fun m => 20 * m + 19

/-- The processors of the part: 0 SP, 1 MP, 2 TP, 3 + m the supervisor of mast m. -/
def processors (s : State) : List Nat := List.range (3 + s.part.masts)

/-- R103, R427: the yards and masts that fail BIST leave service; which they are is not the spec's, a free value (log entry 42). -/
def runBist (s : State) : State :=
  let bad := Config.freeValue s.free
  (List.range 63).foldl (fun s u => if bad.getLsbD u && s.unitIn u then s.takeOut u else s) s.takeFree

/-- The units come up: BIST, domains, links, sensors, watchdogs. -/
def startUnits (s : State) : State :=
  let s := s.runBist
  let s := (s.bootDoms.filter fun d => !s.domBarred d).foldl (fun s d => s.setDom d true) s
  let s := (List.range 7).foldl (fun s m => if m < s.part.masts then s else s.put (rid .pwrFw (3 + m)) 0 2 3) s
  let dies := List.range s.part.masts ++ [7]
  let s := dies.foldl (fun s d => (s.put (rid .pwrTherm d) 14 1 1).put (rid .xtreeStatus) d 1 1) s
  s.processors.foldl (fun s p => { s with power := { s.power with wdog := SMap.set 0 s.power.wdog p (s.now + 100000000) } }) s

/-- R244: the rig backup is applied, with no previous rig, as a rig of the whole package; it is in force, so R239's rig_high reaches it. -/
def applyBackup (s : State) (fast : Bool) (prepare : State → List Byte → State) : State :=
  let rig := s.backupRig
  if !s.backupOk rig fast then s
  else
    let s := { s with sec := { s.sec with rigHigh := max s.sec.rigHigh (rigVersion rig) } }
    let s := (prepare ((s.swapRig rig []).put (rid .admRigStat) 8 8 0xFF) rig).putRig rig
    (s.raise 0x0920 7 0xFF 0xFFFF 0 0).setRun

/-- The part runs an image: golden or update, by the fast path or not. -/
def startImage (s : State) (upd : Bool) (e : Exam) (fast : Bool) (prepare : State → List Byte → State) : State :=
  let s := { s with sec := { s.sec with
      runSlot := upd, runDigest := e.digest, runBuild := e.build, runSvn := e.svn, runHo := leAt (s.slotImage upd) 0x18 2, hoSeq := 0
      hssNext := 64 * s.sec.hssBlocks } }
  let s := ((s.put (rid .secStatus) 10 1 (bitOf upd)).put (rid .secStatus) 11 1 (bitOf fast)).put (rid .secStatus) 15 1 1
  let s := (({ s with timebase := true }).newTranslator.startUnits).startNetKeyed.applyBackup fast prepare
  let s := if s.power.tripReport then s.raise 0x080A 7 0xFF 0xFFFF (s.get (rid .pwrRstCause) 4 3) 0 else s
  let s := { s with power := { s.power with life := .running, tripReport := false } }
  (s.showCode 0).showPower.showSec.drawNonce

/-- R380: an image that was ACTIVATING or in TRIAL is rejected. -/
def rejectHalfway (s : State) : State := if s.slotState true = 3 ∨ s.slotState true = 4 then s.slotAppend 7 else s

/-- R382: no slot is eligible. -/
def noSlot (s : State) (g : Exam) (u : Option Exam) (recover : Bool) : State :=
  let code := noSlotCode g u
  let s := (s.put (rid .secBootFail) 0 8 code).put (rid .secBootFail) 8 1 1
  if recover then s.enterRecovery else s.haltBoot code

/-- Step 2 of Table 14.6 and what follows: the slots are examined, a pending commit is completed, and one slot starts; `recover` says that
recovery takes over where none is eligible. -/
def bootSlots (s : State) (recover : Bool) : State :=
  let s := s.rejectHalfway
  let g := s.examine (s.slotImage false)
  let s := s.bootExam false g
  let u := if s.updExamined then some (s.examine (s.slotImage true)) else none
  let s := match u with
    | some e =>
      let s := s.bootExam true e
      if s.slotState true = 5 ∧ e.result = 0 then s.commitSlot else s
    | none => s
  match u with
  | some e =>
    if e.result = 0 ∧ prefersUpd g e then s.startImage true e false fun s _ => s
    else if g.result = 0 then s.startImage false g false fun s _ => s
    else s.noSlot g u recover
  | none => if g.result = 0 then s.startImage false g false fun s _ => s else s.noSlot g u recover

/-- The cold boot from step 1 (R383, R385, R386). -/
def boot (s : State) : State :=
  let s := s.countBoot
  let off := s.fuse 4
  if !(List.range 4).any s.liveKey then s.haltBoot 0x22
  else match s.sec.bootMode.toNat with
    | 3 => s.enterTest
    | 2 => if off then s.haltBoot 0x2D else s.enterRecovery
    | m => s.bootSlots (decide (m = 1) && !off)

/-! ### Deep sleep (R392, R415) -/

/-- Bytes 0 to 0xFCF of the retention block: each channel's two taps, device a first (log entry 43). -/
def retentionBody (s : State) : List Byte :=
  let head := [0x4C, 0x52, 0x45, 0x54] ++ leN 4 s.sec.bootCnt ++ leN 1 (bitOf s.sec.runSlot) ++
    leN 1 (s.sec.bootMode.toNat + 4 * bitOf s.sec.forceGolden) ++ List.replicate 6 0 ++ fit 48 s.sec.runDigest ++
    (List.range 12).flatMap (fun w => leN 4 (s.get (rid .admRigDigest w) 0 32)) ++
    (List.range 8).flatMap (fun c => leN 1 (s.get (rid .hrcChTrain c) 0 6) ++ leN 1 (s.get (rid .hrcChTrain c) 8 6)) ++
    le64 s.sec.svn.toNat ++ leN 1 s.sec.revoke.toNat
  fit 0xFD0 head

/-- The retention block is written, or the retention SRAM is left without one. -/
def writeRetention (s : State) : State :=
  let no := decide (s.sec.upd = .activating ∨ s.sec.upd = .trial) || s.sec.revokedNow || s.debugOpen || bit (s.reg (rid .secStatus)) 12 ||
    bit (s.reg (rid .secStatus)) 13
  let body := s.retentionBody
  { s with sec := { s.sec with retention := if no then [] else body ++ sha384 body } }

/-- Deep sleep is entered. -/
def enterSleep (s : State) : State :=
  let s := (s.stopGenerator.writeRetention).hrSleep
  let s := if s.get (rid .usb4Link) 0 2 = 0 then s else ((s.linkGen 0).put (rid .usb4Link) 2 3 0).hostReset
  let s := s.domsOff (List.range 163)
  ({ s with timebase := false, power := { s.power with life := .deepSleep, sleepN := true, sleepHeld := false } }).showCode 0x37

/-- A deep-sleep request that no program stands against: held while an update is under way, or while the SP does not run. -/
def trySleep (s : State) : State :=
  if s.anyAdmitted then ({ s with power := { s.power with sleepHeld := false } }).put (rid .pwrSleepStat) 0 2 1
  else if s.sec.upd = .activating ∨ s.sec.upd = .trial ∨ !s.fwRuns 0 then
    ({ s with power := { s.power with sleepHeld := true } }).put (rid .pwrSleepStat) 0 2 2
  else (s.put (rid .pwrSleepStat) 0 2 0).enterSleep

/-! ### The wake (R393, R416) -/

/-- The slot's bytes from 0 up to its first signature block. -/
def slotDigest (s : State) (upd : Bool) : List Byte := sha384 ((s.slotImage upd).take (sigStart (s.slotImage upd)))

/-- Every condition of the fast path holds. -/
def fastOk (s : State) : Bool :=
  let b := s.sec.retention
  decide (b.length = 4096 ∧ b.take 4 = [0x4C, 0x52, 0x45, 0x54] ∧ b.drop 0xFD0 = sha384 (b.take 0xFD0)) &&
    decide (leAt b 9 1 = s.sec.bootMode.toNat + 4 * bitOf s.sec.forceGolden) && decide (leAt b 0x80 8 = s.sec.svn.toNat ∧ leAt b 0x88 1 = s.sec.revoke.toNat) &&
    decide (s.slotDigest (decide (leAt b 8 1 = 1)) = sliceAt b 0x10 48) && decide (rigDigest s.backupRig = sliceAt b 0x40 48)

/-- R370, R373: the retained taps stand for training, and each channel recalibrates once. -/
def wakeChannels (s : State) (block rig : List Byte) : State :=
  (List.range 8).foldl (fun s c =>
    if !hrOn rig c then s
    else
      let s := ((s.put (rid .hrcCtrl) c 1 1).put (rid .hrcChTrain c) 0 6 (leAt block (0x70 + 2 * c) 1)).put (rid .hrcChTrain c) 8 6 (leAt block (0x71 + 2 * c) 1)
      ((s.put (rid .hrcChCfg c) 0 1 (hrFlags rig / 2)).put (rid .hrcStatus) c 1 1).recalibrate c) s

/-- The fast path. -/
def fastStart (s : State) : State :=
  let b := s.sec.retention
  let upd := decide (leAt b 8 1 = 1)
  let img := s.slotImage upd
  s.countBoot.startImage upd ⟨0, leAt img 0x0C 1, leAt img 8 4, 0, s.slotDigest upd⟩ true fun s rig => s.wakeChannels b rig

/-- A wake: the fast path, or a cold boot where a check of it fails. -/
def wake (s : State) : State :=
  let s := s.resetPart true 2
  if s.fastOk then s.fastStart
  else (({ s with sec := { s.sec with retention := [] } }).raise 0x0A02 7 0xFF 0xFFFF 0 0).boot

end State

/-- PORST_N has been low for 10 µs and is released (R423): everything is reset but fuses, flash and PWR_RST_CAUSE. -/
def execPowerOnReset (s : State) : Host.Outcome State Fault Refusal := .next (s.resetPart false 0)

/-- The cold boot (R385): after it the part runs, waits in recovery or test, or has halted. -/
def execColdBoot (s : State) : Host.Outcome State Fault Refusal := .next (if s.power.life = .booting then s.boot else s)

/-- The MP has not reported ready within 50 ms (R385): the third time the SP halts. -/
def execMpReadyTimeout (s : State) : Host.Outcome State Fault Refusal :=
  .next (if s.power.life ≠ .booting then s
    else
      let s := { s with sec := { s.sec with mpTries := s.sec.mpTries + 1 } }
      if s.sec.mpTries < 3 then s else s.countBoot.haltBoot 0x2C)

/-- The recovery loader's internal reset (R390): an image has been accepted, and BOOT_MODE is 0b01. -/
def execInternalReset (s : State) : Host.Outcome State Fault Refusal :=
  .next (if s.power.life = .recovery ∧ s.sec.bootMode = 1 ∧ s.sec.recovered then s.resetPart false 1 else s)

/-- The host writes PWR_SLEEP (R415): any value but the keyed one is discarded. -/
def execPwrSleep (value : BitVec 32) (s : State) : Host.Outcome State Fault Refusal :=
  .next (s.viaHost fun s => if value.toNat / 65536 = 0x5EE9 ∧ value.getLsbD 0 then s.trySleep else s)

/-- A held deep-sleep request proceeds once the update state allows (R405, R415). -/
def execHeldSleepProceed (s : State) : Host.Outcome State Fault Refusal := .next (if s.power.sleepHeld && decide (s.power.life = .running) then s.trySleep else s)

/-- WAKE_N has held low for 1 µs (R416). -/
def execWakeN (s : State) : Host.Outcome State Fault Refusal := .next (if s.power.life = .deepSleep then s.wake else s)

end Sys2Proof.Machine
end

