-- ==== Sys2Proof/Machine/Health.lean ====
section
/-! DEFINITION. Heat, supply and the firmware processors (R417, R421, R422, R424 to R426). -/

namespace Sys2Proof.Machine
namespace State

/-! ### Heat (R417, R421) -/

/-- A die of the part: a mast present, or the Stay die. -/
def hasDie (s : State) (d : Nat) : Bool := decide (d < s.part.masts ∨ d = 7)

/-- A signed 12-bit temperature in 1/8 °C. -/
def degrees (t : BitVec 12) : Int := t.toInt

/-- R421: the thermal trip: every clock stops and the outputs go high-impedance. -/
def trip (s : State) (d : Nat) : State :=
  let s := ((s.put (rid .pwrRstCause) 3 1 1).put (rid .pwrRstCause) 4 3 d).stopGenerator
  let s := { s with timebase := false, gpio := { s.gpio with driven := [], pulses := [] }
                    power := { s.power with life := .tripped, thermTrip := true } }
  ((s.linkGen 0).put (rid .usb4Link) 2 4 0).showCode 0x31

/-- The warning level and its end. -/
def thermWarn (s : State) (d : Nat) (t : Int) : State :=
  let was := bit (s.reg (rid .pwrTherm d)) 12
  if 736 ≤ t ∧ !was then (s.put (rid .pwrTherm d) 12 1 1).raise 0x0801 d 0xFF 0xFFFF d 0
  else if t < 720 ∧ was then (s.put (rid .pwrTherm d) 12 1 0).raise 0x0802 d 0xFF 0xFFFF d 0
  else s

/-- A die's temperature is read. -/
def sampleTherm (s : State) (d : Nat) (temp : BitVec 12) : State :=
  let t := degrees temp
  let was := s.emergency
  let peak := BitVec.ofNat 12 (s.get (rid .pwrTherm d) 16 12)
  let s := s.put (rid .pwrTherm d) 0 12 temp.toNat
  let s := if degrees peak < t then s.put (rid .pwrTherm d) 16 12 temp.toNat else s
  let s := (s.thermWarn d t).put (rid .pwrTherm d) 13 1 (bitOf (decide (784 ≤ t)))
  let s := s.emergencyMoved was
  if 864 ≤ t then s.trip d else s

/-- The part's logic is up: neither in deep sleep nor tripped. -/
def awake (s : State) : Bool := !(decide (s.power.life = .deepSleep) || decide (s.power.life = .tripped))

/-! ### Supply (R422) -/

/-- PWRWARN_N counts as asserted: its edge fell 50 ns ago. -/
def supplyLow (s : State) : State :=
  let t := s.now - 50
  let was := s.emergency
  let s := ((s.put (rid .pwrSupply) 0 1 1).put (rid .pwrSupply) 1 1 1).bump (rid .pwrSupply) 1 16 16
  let s := (s.setReg (rid .pwrSupplyT) (BitVec.ofNat 64 t)).raise 0x0806 7 0xFF 0xFFFF 0 t
  let inTick := decide (s.tick.phase = .work ∨ s.tick.phase = .guard)
  ({ s with tick := { s.tick with supply := s.tick.supply || inTick } }).emergencyMoved was

/-- PWRWARN_N is released. -/
def supplyBack (s : State) : State :=
  let was := s.emergency
  ((s.put (rid .pwrSupply) 0 1 0).raise 0x0807 7 0xFF 0xFFFF 0 0).emergencyMoved was

/-! ### Firmware processors (R424 to R426, Table 15.7) -/

/-- The die of a processor. -/
def fwDie (p : Nat) : Nat := if 3 ≤ p then p - 3 else 7

/-- The limit of a restart in ns. -/
def restartLimit (p : Nat) : Nat := if p = 0 then 20000000 else if p = 1 then 60000000 else if p = 2 then 30000000 else 10000000

/-- A processor's channel is reset. -/
def resetChan (s : State) (ch : Nat) : State := (s.setChan ch {}).setChState ch 4

/-- R259: the LOAD_PROG in hand ends LOAD_ABORTED; what it has reserved is released. -/
def abortLoad (s : State) : State :=
  match s.rig.queue with
  | n :: rest =>
    if s.mboxCmd n ≠ 2 then s
    else
      let s := match s.copying with | some p => s.release p | none => s
      let s := (s.put (rid .admTpStat) 1 1 1).raise 0x0926 7 n 0xFFFF (s.mboxTag n) 0
      ({ s.respond n { status := 2, reason := 0x3F } with rig := { s.rig with queue := rest } }).serveAll
  | [] => s

/-- What a crash of a processor ends at once. -/
def crashEffects (s : State) (p : Nat) : State :=
  match p with
  | 0 => s.dropToken.resetChan 29
  | 1 => s.dropToken.dropXfer
  | 2 => s.abortLoad.resetChan 31
  | _ => s

/-- R404: a processor that runs the new image has crashed before the commit. -/
def crashRolls (s : State) (p : Nat) : Bool :=
  SMap.get false s.sec.replaced p && decide (s.sec.upd = .activating ∨ s.sec.upd = .trial)

/-- R424, R426: a crash: the core is held in reset until it restarts, or halted at the third within 60 s. -/
def crash (s : State) (p cause : Nat) : State :=
  if !(s.processors.contains p && s.fwRuns p && decide (s.power.life = .running)) then s
  else
    let ts := s.recent (SMap.get [] s.power.crashes p) 60000000000 ++ [s.now]
    let halts := decide (3 ≤ ts.length)
    let s := { s with power := { s.power with
      crashes := SMap.set [] s.power.crashes p ts, wdog := SMap.set 0 s.power.wdog p 0
      restartAt := SMap.set 0 s.power.restartAt p (if halts then 0 else s.now + restartLimit p) } }
    let s := ((s.put (rid .pwrFw p) 0 2 (if halts then 2 else 1)).put (rid .pwrFw p) 2 1 1).put (rid .pwrFw p) 16 2 cause
    let s := s.raise 0x0901 (fwDie p) 0xFF 0xFFFF p 0
    let s := if halts then (s.raise 0x0903 (fwDie p) 0xFF 0xFFFF p 0).showPower else s
    let s := s.crashEffects p
    if s.crashRolls p then s.rollback 4 else s

/-- What waited for a processor goes on (Table 15.7). -/
def resumeWork (s : State) (p : Nat) : State :=
  match p with
  | 0 => s.serveAll
  | 1 => s.restoreShed.serveAll
  | _ => s.serveAll

/-- A processor resumes from its checkpoint. -/
def restartFw (s : State) (p : Nat) : State :=
  let s := { s with power := { s.power with restartAt := SMap.set 0 s.power.restartAt p 0, wdog := SMap.set 0 s.power.wdog p (s.now + 100000000) } }
  let s := (s.put (rid .pwrFw p) 0 2 0).bump (rid .pwrFw p) 1 8 8
  (s.raise 0x0902 (fwDie p) 0xFF 0xFFFF p 0).resumeWork p

end State

/-- The sensors of a die are read (R417): its temperature is the highest of them. -/
def execThermalSample (die : Nat) (temp : BitVec 12) (s : State) : Host.Outcome State Fault Refusal :=
  .next (if s.hasDie die && s.awake then s.sampleTherm die temp else s)

/-- PWRWARN_N has held low for 50 ns (R422). -/
def execPwrwarnAssert (s : State) : Host.Outcome State Fault Refusal :=
  .next (if s.awake && decide (s.get (rid .pwrSupply) 0 1 = 0) then s.supplyLow else s)

/-- PWRWARN_N is released (R422). -/
def execPwrwarnRelease (s : State) : Host.Outcome State Fault Refusal :=
  .next (if s.awake && decide (s.get (rid .pwrSupply) 0 1 = 1) then s.supplyBack else s)

/-- The host writes the clr bit of PWR_THERMd (R430): peak takes the temperature. -/
def execPwrThermClr (die : Nat) (s : State) : Host.Outcome State Fault Refusal :=
  .next (s.viaHost fun s => if die < 8 then s.put (rid .pwrTherm die) 16 12 (s.get (rid .pwrTherm die) 0 12) else s)

/-- Processor `p` renews its watchdog (R424, R430). -/
def execPwrWdogKick (p : Nat) (s : State) : Host.Outcome State Fault Refusal :=
  .next (if s.processors.contains p && s.up p then { s with power := { s.power with wdog := SMap.set 0 s.power.wdog p (s.now + 100000000) } } else s)

/-- The watchdog of processor `p` expires (R424). -/
def execWatchdogExpiry (p : Nat) (s : State) : Host.Outcome State Fault Refusal :=
  .next (if SMap.get 0 s.power.wdog p ≤ s.now then s.crash p 1 else s)

/-- Processor `p` takes a trap for an illegal instruction or an access fault (R424). -/
def execFwTrap (p : Nat) (s : State) : Host.Outcome State Fault Refusal := .next (s.crash p 2)

/-- Processor `p` meets an uncorrectable error in its own memory (R424). -/
def execFwEccError (p : Nat) (s : State) : Host.Outcome State Fault Refusal := .next (s.crash p 3)

/-- A restart completes (R424): every processor but the SP needs the SP for it. -/
def execFwRestart (p : Nat) (s : State) : Host.Outcome State Fault Refusal :=
  .next (if s.processors.contains p && decide (s.get (rid .pwrFw p) 0 2 = 1) && (decide (p = 0) || s.fwRuns 0) then s.restartFw p else s)

end Sys2Proof.Machine
end

