-- ==== Sys2Proof/Machine/Mgmt.lean ====
section
/-! DEFINITION. The USB 2.0 status device and the Halyard protocol of the management port (R350, R352 to R357, R390, R398). -/

namespace Sys2Proof.Machine
namespace State

/-! ### The status block (Table 12.10) -/

/-- Byte 1 of the block. -/
def statusFlags (s : State) : Nat :=
  bitOf (bit (s.reg (rid .secStatus)) 6) + 2 * bitOf s.tunnelUp +
    4 * bitOf (!s.sec.runDigest.isEmpty && !bit (s.reg (rid .secStatus)) 10) + 8 * bitOf (bit (s.reg (rid .secStatus)) 12)

def statusBlock (s : State) : List Byte :=
  leN 1 s.statusCode ++ leN 1 s.statusFlags ++ leN 2 s.events.last.toNat ++ leN 4 s.sec.bootCnt ++ le64 s.now

/-- The device is live from the SP's start. -/
def usb2Live (s : State) : Bool := !(decide (s.power.life = .deepSleep) || decide (s.power.life = .tripped))

/-! ### Messages (Table 12.11) -/

/-- The header of a reply, and its body. -/
def hmpMsg (op : Nat) (rid : BitVec 32) (status : Nat) (body : List Byte) : List Byte :=
  [0x48, 0x4D, 1] ++ leN 1 (op + 0x80) ++ leN 4 rid.toNat ++ leN 2 body.length ++ leN 2 status ++ leN 4 0 ++ body

def hmpReply (s : State) (op : Nat) (rid : BitVec 32) (status : Nat) (body : List Byte := []) : State := s.send [hmpMsg op rid status body]

/-- A token or a command is refused: HMP_REFUSED tells the reply's status. -/
def hmpRefused (s : State) (status : Nat) : State :=
  if s.power.life = .running then s.raise 0x0709 7 0xFF 0xFFFF status 0 else s

/-- UNAUTHORISED. -/
def hmpDeny (s : State) (op : Nat) (rid : BitVec 32) : State := (s.hmpRefused 2).hmpReply op rid 2

/-- REFUSED with a reason that the spec gives. -/
def hmpRefuse (s : State) (op : Nat) (rid : BitVec 32) (reason : Nat) : State := (s.hmpRefused 5).hmpReply op rid 5 (leN 1 reason)

/-- REFUSED where the spec gives no reason code: the byte is free. -/
def hmpRefuseFree (s : State) (op : Nat) (rid : BitVec 32) : State := ((s.hmpRefused 5).hmpReply op rid 5 (s.freeBytes 1)).takeFree

/-- A Halyard datagram arrives (R352): it is answered while the stack runs, and discarded beyond 2,000 in a second. -/
def hmpTake (s : State) (f : State → State) : State :=
  if !s.netOn then s
  else
    let s := s.netSecond
    if 2000 ≤ s.mgmt.rate then s.netDrop else f { s with mgmt := { s.mgmt with rate := s.mgmt.rate + 1 } }

/-! ### Tokens (R354, R355) -/

/-- A nonce is drawn where none stands. -/
def needNonce (s : State) : State :=
  if s.mgmt.nonce.isEmpty then ({ s with mgmt := { s.mgmt with nonce := s.freeBytes 32 } }).takeFree 4 else s

/-- The token gives a permission to a source. -/
def holds (s : State) (src : NetAddr) (perm : Nat) : Bool :=
  match s.mgmt.token with
  | some t => decide (t.src = src) && t.mask.getLsbD perm
  | none => false

/-- A command that takes a use is accepted. -/
def permits (s : State) (src : NetAddr) (perm : Nat) : Bool :=
  s.holds src perm && match s.mgmt.token with
    | some t => decide (0 < t.uses)
    | none => false

/-- One use is consumed. -/
def useToken (s : State) : State :=
  { s with mgmt := { s.mgmt with token := s.mgmt.token.map fun t => { t with uses := t.uses - 1 } } }

/-- A command that takes a permission: the recovery loader does not serve it. -/
def withPerm (s : State) (op : Nat) (src : NetAddr) (rid : BitVec 32) (perm : Nat) (f : State → State) : State :=
  if s.power.life = .recovery then s.hmpReply op rid 6
  else if s.permits src perm then f s.useToken
  else s.hmpDeny op rid

/-- The body of a token. -/
def tokenShape (s : State) (b : List Byte) : Bool :=
  decide (b.take 4 = [0x48, 0x54, 0x4F, 0x4B]) && decide (leAt b 4 1 = 1 ∧ leAt b 5 1 = 0 ∧ 1 ≤ leAt b 6 2) &&
    decide (sliceAt b 0x10 32 = s.mgmt.nonce) && decide (leAt b 0x60 32 = 0)

/-- R391: JTAG opens, and every derived private key is erased. -/
def openDebug (s : State) : State :=
  if s.debugOpen then s else (s.put (rid .secStatus) 14 1 1).raise 0x0A0A 7 0xFF 0xFFFF 0 0

/-- The SP verifies a token whose bytes have all arrived. -/
def takeToken (s : State) (src : NetAddr) (rid : BitVec 32) : State :=
  let b := s.mgmt.gathering
  let s := { s with mgmt := { s.mgmt with gathering := [] } }
  let g := sliceAt b 128 sigLen
  if s.tokenShape b && sigShape g && decide (s.ownerCode g (sha384 (b.take 128)) = 0) then
    let t : Token := ⟨src, leAt b 6 2, BitVec.ofNat 64 (leAt b 8 8), sliceAt b 0x30 48⟩
    let s := ({ s with mgmt := { s.mgmt with token := some t, nonce := [] } }).needNonce
    (if t.mask.getLsbD 11 && !s.fuse 2 then s.openDebug else s).hmpReply 0x03 rid 0
  else s.hmpRefuseFree 0x03 rid

/-- A piece of a token: the pieces come in order, from offset 0. -/
def tokenPiece (s : State) (src : NetAddr) (rid : BitVec 32) (off : Nat) (data : List Byte) : State :=
  let got := if off = 0 then [] else s.mgmt.gathering
  if s.power.life = .recovery then s.hmpReply 0x03 rid 6
  else if !s.fwRuns 0 then s.hmpReply 0x03 rid 4
  else if data.isEmpty ∨ 1024 < data.length ∨ off ≠ got.length ∨ 128 + sigLen < off + data.length then s.hmpReply 0x03 rid 1
  else
    let s := { s with mgmt := { s.mgmt with gathering := got ++ data } }
    if s.mgmt.gathering.length = 128 + sigLen then s.takeToken src rid else s.hmpReply 0x03 rid 0

/-! ### Requests that the SP serves (R357, R398, R405) -/

/-- The SP serves something else, or does not run. -/
def spTaken (s : State) (op : Nat) : Bool := !s.fwRuns 0 || (if op = 0x28 then s.attBusy else s.updBusy)

/-- A request that the update state does not allow. -/
def wrongState (s : State) (op : Nat) (rid : BitVec 32) : State := (s.raise 0x0A08 7 0xFF 0xFFFF 0 0).hmpRefuseFree op rid

/-- The pieces of a report: at most 1,020 bytes each, after their index and their count. -/
def reportPieces (r : List Byte) (rid : BitVec 32) : List (List Byte) :=
  let n := (r.length + 1019) / 1020
  (List.range n).map fun i => hmpMsg 0x28 rid 0 (leN 2 i ++ leN 2 n ++ (r.drop (1020 * i)).take 1020)

/-- The transferred image in hand goes to the update slot. -/
def finishFirmware (s : State) (x : Xfer) (rid : BitVec 32) : State :=
  if s.sec.upd ≠ .receiving then s.wrongState 0x12 rid
  else
    let r := (s.flashStore (slotBase true) x.data).finishStage
    if r.2 = 0 then r.1.hmpReply 0x12 rid 0 else r.1.hmpRefuse 0x12 rid r.2

/-- R390: in recovery the image is examined, and recorded COMMITTED or erased. -/
def finishRecovery (s : State) (x : Xfer) (rid : BitVec 32) : State :=
  let s := (s.showCode 0x12).flashStore (slotBase true) x.data
  let e := s.examine (s.slotImage true)
  let s := (s.showExam true e).setUpd .none
  if e.result = 0 then
    let s := { s.slotAppend 6 with sec := { (s.slotAppend 6).sec with recovered := true } }
    (if s.sec.bootMode = 2 then s.showCode 0x13 else s).hmpReply 0x12 rid 0
  else (s.eraseSlot.showCode 0x10).hmpRefuse 0x12 rid e.result

/-- The SP serves one request. -/
def serveHmp (s : State) (w : HmpWait) : State :=
  match w.op with
  | 0x12 =>
    match s.mgmt.xfer with
    | some x => ({ s with mgmt := { s.mgmt with xfer := none } }).finishFirmware x w.rid
    | none => s.hmpRefuseFree 0x12 w.rid
  | 0x20 => if s.sec.upd = .staged then s.activate.1.hmpReply 0x20 w.rid 0 else s.wrongState 0x20 w.rid
  | 0x21 => if s.sec.upd = .trial then s.commitTrial.hmpReply 0x21 w.rid 0 else s.wrongState 0x21 w.rid
  | 0x22 => match s.cancelUpd with
    | some t => t.hmpReply 0x22 w.rid 0
    | none => s.wrongState 0x22 w.rid
  | 0x28 =>
    if s.debugOpen then s.hmpRefuseFree 0x28 w.rid
    else match s.daxa w.data with
      | (t, some r) => t.send (reportPieces r w.rid)
      | (t, none) => t.hmpRefuseFree 0x28 w.rid
  | _ => s

/-- A request joins those that wait. -/
def hmpWait (s : State) (w : HmpWait) : State := { s with mgmt := { s.mgmt with waiting := s.mgmt.waiting ++ [w] } }

/-- A request for the SP: served at once, or when the SP is free. -/
def askSp (s : State) (w : HmpWait) : State := if s.spTaken w.op then s.hmpWait w else s.serveHmp w

/-! ### Requests that enter a mailbox of the MP (R356, R357) -/

/-- The words of a request. -/
def writeReq (s : State) (n : Nat) (b : List Byte) : State :=
  (List.range 16).foldl (fun s w => s.setReg (rid .admMboxReq n w) (BitVec.ofNat 64 (leAt b (4 * w) 4))) s

/-- The reply that a mailbox's outcome gives; the MP clears done. -/
def mboxReply (s : State) (w : HmpWait) : State :=
  let r := s.get (rid .admMboxResp w.mbox 0) 0 32
  let s := s.put (rid .admMboxStat w.mbox) 1 1 0
  let s := if w.mbox = 2 then { s with rig := { s.rig with halyard := [] } } else s
  if r / 256 % 256 = 0 then s.hmpReply w.op w.rid 0 else s.hmpRefuse w.op w.rid (s.get (rid .admMboxResp w.mbox 1) 0 8)

/-- One waiting request: answered, or it waits on. -/
def hmpSettleOne (s : State) (w : HmpWait) : State :=
  if w.mbox = 0xFF then s.askSp w
  else if s.mboxBusy w.mbox then s.hmpWait w
  else s.mboxReply w

/-- The requests that wait, in order of arrival. -/
def hmpSettle (s : State) : State :=
  if s.stackUp then s.mgmt.waiting.foldl hmpSettleOne { s with mgmt := { s.mgmt with waiting := [] } } else s

/-- R405: the Halyard requests that came before the host's waiting one are served first. -/
def serveOlder (s : State) : State :=
  if !s.fwRuns 0 || decide (s.sec.updAfter = 0) then s
  else
    let old := (s.mgmt.waiting.filter fun w => decide (w.mbox = 0xFF ∧ w.op ≠ 0x28)).take s.sec.updAfter
    old.foldl (fun s w => { s with mgmt := { s.mgmt with waiting := s.mgmt.waiting.erase w } }.serveHmp w) { s with sec := { s.sec with updAfter := 0 } }

/-- The requests that wait for the SP, in order of arrival, and the replies that wait for a mailbox. -/
def serveWaiting (s : State) : State := s.serveOlder.serveSp.hmpSettle

/-- A request enters mailbox `w.mbox`, which is free. -/
def askMbox (s : State) (w : HmpWait) (b : List Byte) : State := (((s.writeReq w.mbox b).accept w.mbox).hmpWait w).hmpSettle

/-- A Halyard REVERT or RESTART: BUSY while mailbox 3 holds an earlier one. -/
def viaMbox3 (s : State) (src : NetAddr) (rid : BitVec 32) (op perm : Nat) (b : List Byte) : State :=
  if s.power.life = .running ∧ s.mboxBusy 3 then (if s.holds src perm then s.hmpReply op rid 4 else s.hmpDeny op rid)
  else s.withPerm op src rid perm fun s => s.askMbox ⟨3, src, rid, op, []⟩ b

/-! ### Transfers (R356) -/

/-- The permission of a transfer. -/
def xferPerm (target : Nat) : Nat := if target = 1 then 0 else 1

/-- XFER_BEGIN as it stands: a target, a size, as many chunks as the size takes, and a hash. -/
def xferShape (target size chunks : Nat) (h0 : List Byte) : Bool :=
  decide ((target = 1 ∨ target = 2) ∧ 1 ≤ size ∧ chunks = (size + 1023) / 1024 ∧ h0.length = 48)

/-- The object digest of the token is `h0`. -/
def objectIs (s : State) (h0 : List Byte) : Bool := match s.mgmt.token with | some t => decide (t.object = h0) | none => false

/-- A transfer starts: a firmware image takes the update slot. -/
def startXfer (s : State) (target size chunks : Nat) (h0 : List Byte) : State :=
  let s := if target = 1 then s.beginStage.setDeferred false else s
  { s with mgmt := { s.mgmt with xfer := some ⟨target, size, chunks, 0, h0, [], []⟩ } }

/-- XFER_BEGIN. -/
def beginXfer (s : State) (src : NetAddr) (rid : BitVec 32) (target size chunks : Nat) (h0 : List Byte) : State :=
  if !xferShape target size chunks h0 then s.hmpReply 0x10 rid 1
  else if s.power.life = .recovery then
    if target ≠ 1 then s.hmpReply 0x10 rid 6
    else if slotRoom < size then s.hmpRefuse 0x10 rid 0x23
    else ((s.startXfer 1 size chunks h0).showCode 0x11).hmpReply 0x10 rid 0
  else if !(s.permits src (xferPerm target) && s.objectIs h0) then s.hmpDeny 0x10 rid
  else if target = 1 ∧ s.updBusy then s.hmpReply 0x10 rid 4
  else
    let s := s.useToken
    if target = 1 ∧ (s.sec.upd = .activating ∨ s.sec.upd = .trial) then s.wrongState 0x10 rid
    else if target = 1 ∧ slotRoom < size then s.hmpRefuse 0x10 rid 0x23
    else (s.startXfer target size chunks h0).hmpReply 0x10 rid 0

/-- The sender may go on with the transfer in hand. -/
def mayXfer (s : State) (src : NetAddr) : Bool :=
  decide (s.power.life = .recovery) ||
    match s.mgmt.xfer with
    | some x => s.holds src (xferPerm x.target)
    | none => s.holds src 0 || s.holds src 1

/-- BAD_CHUNK, with the index expected. -/
def badChunk (s : State) (rid : BitVec 32) (i : Nat) : State := s.hmpReply 0x11 rid 3 (leN 4 i)

/-- XFER_CHUNK. -/
def takeChunk (s : State) (src : NetAddr) (rid : BitVec 32) (index : Nat) (data next : List Byte) : State :=
  if data.isEmpty ∨ 1024 < data.length ∨ next.length ≠ 48 then s.hmpReply 0x11 rid 1
  else if !s.mayXfer src then s.hmpDeny 0x11 rid
  else match s.mgmt.xfer with
    | none => s.badChunk rid 0
    | some x =>
      if index + 1 = x.index ∧ x.lastChunk = data ++ next then s.hmpReply 0x11 rid 0
      else if index ≠ x.index ∨ x.chunks ≤ index ∨ (index + 1 < x.chunks ∧ data.length ≠ 1024) ∨ sha384 (data ++ next) ≠ x.expect then
        s.badChunk rid x.index
      else
        let x := { x with index := index + 1, expect := next, data := x.data ++ data, lastChunk := data ++ next }
        ({ s with mgmt := { s.mgmt with xfer := some x } }).hmpReply 0x11 rid 0

/-- XFER_END: a firmware image is staged, and a rig is submitted on mailbox 2. -/
def endXfer (s : State) (src : NetAddr) (rid : BitVec 32) : State :=
  if !s.mayXfer src then s.hmpDeny 0x12 rid
  else match s.mgmt.xfer with
    | none => s.hmpRefuseFree 0x12 rid
    | some x =>
      if x.index ≠ x.chunks ∨ x.data.length ≠ x.size then s.hmpRefuseFree 0x12 rid
      else if s.power.life = .recovery then ({ s with mgmt := { s.mgmt with xfer := none } }).finishRecovery x rid
      else if x.target = 1 then s.askSp ⟨0xFF, src, rid, 0x12, []⟩
      else if s.mboxBusy 2 then s.hmpReply 0x12 rid 4
      else
        let s := { s with mgmt := { s.mgmt with xfer := none }, rig := { s.rig with halyard := x.data } }
        s.askMbox ⟨2, src, rid, 0x12, []⟩ ([1] ++ List.replicate 15 0 ++ leN 4 x.size)

/-! ### Settings and the log -/

/-- SET_NET's body. -/
def netShape (b : List Byte) : Bool := decide (b.length = 33 ∧ leAt b 0 1 ≤ 1 ∧ leAt b 1 3 = 0 ∧ leAt b 32 1 ≤ 128)

/-- The bytes of the persistent log below its last 4 KiB. -/
def logSize : Nat := 0x3F000

end State

/-- GET_STATUS (R350): the status block is returned. -/
def execUsb2GetStatus (s : State) : Host.Outcome State Fault Refusal :=
  .next (if s.usb2Live then { s with queue := { s.queue with usbReply := s.statusBlock } } else s)

/-- A poll of endpoint 1 (R350): the block is sent when its first four bytes differ from those last sent. -/
def execUsb2InterruptPoll (s : State) : Host.Outcome State Fault Refusal :=
  .next (if s.usb2Live && decide (s.statusBlock.take 4 ≠ s.queue.usbSent.take 4) then { s with queue := { s.queue with usbSent := s.statusBlock } }
    else s)

/-- HELLO (Table 12.12): the firmware versions that no register shows are free. -/
def execHmpHello (_src : NetAddr) (rid : BitVec 32) (s : State) : Host.Outcome State Fault Refusal :=
  .next (s.hmpTake fun s =>
    let s := s.needNonce
    let body := leN 4 (s.get (Machine.rid .idDevice) 0 32) ++ leN 4 (s.get (Machine.rid .idConfig) 0 32) ++ s.freeBytes 8 ++
      leN 4 (s.get (Machine.rid .admTpVer) 0 32) ++ s.statusBlock ++ s.mgmt.nonce
    s.takeFree.hmpReply 0x01 rid 0 body)

/-- STATUS (Table 12.12). -/
def execHmpStatus (_src : NetAddr) (rid : BitVec 32) (s : State) : Host.Outcome State Fault Refusal :=
  .next (s.hmpTake fun s => s.hmpReply 0x02 rid 0 (s.statusBlock ++ le64 s.t48 ++ leN 4 s.admittedList.length ++ leN 4 (s.get (Machine.rid .admRigVer) 0 32)))

/-- A piece of a command token (R354, R355). -/
def execHmpTokenPut (src : NetAddr) (rid : BitVec 32) (off : BitVec 16) (data : List (BitVec 8)) (s : State) : Host.Outcome State Fault Refusal :=
  .next (s.hmpTake fun s => s.tokenPiece src rid off.toNat data)

/-- XFER_BEGIN (R356). -/
def execHmpXferBegin (src : NetAddr) (rid : BitVec 32) (target : BitVec 8) (size chunks : BitVec 32) (h0 : List (BitVec 8)) (s : State) :
    Host.Outcome State Fault Refusal :=
  .next (s.hmpTake fun s => s.beginXfer src rid target.toNat size.toNat chunks.toNat h0)

/-- XFER_CHUNK (R356). -/
def execHmpXferChunk (src : NetAddr) (rid : BitVec 32) (index : BitVec 32) (data next : List (BitVec 8)) (s : State) :
    Host.Outcome State Fault Refusal :=
  .next (s.hmpTake fun s => s.takeChunk src rid index.toNat data next)

/-- XFER_END (R356, R390, R399). -/
def execHmpXferEnd (src : NetAddr) (rid : BitVec 32) (s : State) : Host.Outcome State Fault Refusal := .next (s.hmpTake fun s => s.endXfer src rid)

/-- ACTIVATE (R357, R400). -/
def execHmpActivate (src : NetAddr) (rid : BitVec 32) (s : State) : Host.Outcome State Fault Refusal :=
  .next (s.hmpTake fun s => s.withPerm 0x20 src rid 2 fun s => s.askSp ⟨0xFF, src, rid, 0x20, []⟩)

/-- COMMIT (R357, R403). -/
def execHmpCommit (src : NetAddr) (rid : BitVec 32) (s : State) : Host.Outcome State Fault Refusal :=
  .next (s.hmpTake fun s => s.withPerm 0x21 src rid 3 fun s => s.askSp ⟨0xFF, src, rid, 0x21, []⟩)

/-- CANCEL (R357, R404). -/
def execHmpCancel (src : NetAddr) (rid : BitVec 32) (s : State) : Host.Outcome State Fault Refusal :=
  .next (s.hmpTake fun s => s.withPerm 0x22 src rid 4 fun s => s.askSp ⟨0xFF, src, rid, 0x22, []⟩)

/-- REVERT (R357): it enters mailbox 3. -/
def execHmpRevert (src : NetAddr) (rid : BitVec 32) (persist : BitVec 8) (s : State) : Host.Outcome State Fault Refusal :=
  .next (s.hmpTake fun s =>
    if 1 < persist.toNat then s.hmpReply 0x23 rid 1 else s.viaMbox3 src rid 0x23 5 ([5] ++ leN 1 (2 * persist.toNat)))

/-- DOWNHAUL (R347): the MP writes QM_DOWNHAUL. -/
def execHmpDownhaul (src : NetAddr) (rid : BitVec 32) (s : State) : Host.Outcome State Fault Refusal :=
  .next (s.hmpTake fun s => s.withPerm 0x24 src rid 6 fun s => (s.downhaul 3).hmpReply 0x24 rid 0)

/-- RESTART (R357): it enters mailbox 3 with bytes 0x10 to 0x33 of its request. -/
def execHmpRestart (src : NetAddr) (rid : BitVec 32) (body : List (BitVec 8)) (s : State) : Host.Outcome State Fault Refusal :=
  .next (s.hmpTake fun s =>
    if body.length ≠ 36 then s.hmpReply 0x25 rid 1 else s.viaMbox3 src rid 0x25 7 ([6] ++ List.replicate 15 0 ++ body))

/-- SET_NET (R352): the settings take effect and persist. -/
def execHmpSetNet (src : NetAddr) (rid : BitVec 32) (body : List (BitVec 8)) (s : State) : Host.Outcome State Fault Refusal :=
  .next (s.hmpTake fun s =>
    if !State.netShape body then s.hmpReply 0x26 rid 1
    else s.withPerm 0x26 src rid 8 fun s => ({ s with sec := { s.sec with setNet := body } }).showNet.hmpReply 0x26 rid 0)

/-- READ_LOG (Table 12.12): the log's records have no layout in the spec, so its bytes are free. -/
def execHmpReadLog (src : NetAddr) (rid : BitVec 32) (off : BitVec 32) (s : State) : Host.Outcome State Fault Refusal :=
  .next (s.hmpTake fun s => s.withPerm 0x27 src rid 9 fun s =>
    let n := min 1024 (State.logSize - off.toNat)
    (s.hmpReply 0x27 rid 0 (s.freeBytes n)).takeFree ((n + 7) / 8))

/-- ATTEST (R398): the report is sent in pieces. -/
def execHmpAttest (src : NetAddr) (rid : BitVec 32) (nonce : List (BitVec 8)) (s : State) : Host.Outcome State Fault Refusal :=
  .next (s.hmpTake fun s =>
    if nonce.length ≠ 32 then s.hmpReply 0x28 rid 1
    else s.withPerm 0x28 src rid 10 fun s => s.askSp ⟨0xFF, src, rid, 0x28, nonce⟩)

end Sys2Proof.Machine
end

