-- ==== Sys2Proof/Machine/RegAccess.lean ====
section
/-! DEFINITION. Register reads and writes (R5, R11 to R16) and who may write each block (R59, R82, R106, R141, R171, R236, R262, R292,
R321, R330, R358, R375, R407, R430). -/

namespace Sys2Proof.Machine
namespace State

/-! ### What a register reads as -/

/-- CC_CTXk_STATE.run. -/
def runValue : RunState → Nat
  | .empty => 0
  | .idle => 1
  | .issuing => 2
  | .waiting => 3
  | .stalled => 4
  | .stopped => 5
  | .struck => 6

/-- CC_CTXk_STATE of context `k` of mast `m`. -/
def ctxState (s : State) (m k : Nat) : Nat :=
  match s.progAt m k with
  | none => 0
  | some p =>
    let c := s.ctx p
    runValue c.run + 8 * min 2 c.epochs.length + 32 * bitOf c.specStop + 65536 * (c.idx % 65536)

/-- CC_CTXk_WAIT: a local flag is shown by its number on the mast. -/
def ctxWait (s : State) (m k : Nat) : Nat :=
  match s.progAt m k with
  | none => 0
  | some p =>
    match (s.ctx p).wait with
    | none => 0
    | some w =>
      let n := if w.pkg then w.flag else ((s.localFlag p w.flag).map (·.2)).getD w.flag
      if w.pkg ∨ (s.localFlag p w.flag).map (·.1) = some m then 1 + 2 * bitOf w.pkg + 4 * (n % 1024) + 65536 * (w.count % 65536) else 0

/-- STRM_STATUS.active: channels with a descriptor in hand. -/
def activeChans (s : State) : Nat := (List.range 32).countP fun ch => decide (s.chState ch = 1 ∨ s.chState ch = 2 ∨ s.chState ch = 3)

/-- What a register holds as it is read: some show state that stands elsewhere. -/
def view (s : State) (r : RegId) : BitVec 64 :=
  let nat (n : Nat) : BitVec 64 := BitVec.ofNat 64 n
  match r.name with
  | .gcntValue => s.gcnt
  | .boomOcbk => (SMap.get 0 (s.boom r.i r.j r.k).ocbk r.l).setWidth 64
  | .sailAtbl => (SMap.get 0 (s.sail r.i r.j r.k).atbl (256 * s.liveSet r.i r.j r.k + r.l)).setWidth 64
  | .sailWtbl => (SMap.get 0 (s.sail r.i r.j r.k).wtbl (256 * s.liveSet r.i r.j r.k + r.l)).setWidth 64
  | .sailState => setFld (s.reg r) 6 1 (bitOf (s.sail r.i r.j r.k).run.isSome)
  | .ccRaPool => nat ((s.poolLeft r.i).1 + 4 * (s.poolLeft r.i).2)
  | .ccCtxState => nat (s.ctxState r.i r.k)
  | .ccCtxWait => nat (s.ctxWait r.i r.k)
  | .admCount => nat (s.admittedList.length + 256 * s.admittedList.countP fun p => decide (s.progState p = 3))
  | .strmStatus =>
    let active := if r.i = 7 then s.activeChans else s.strm.ticks.countP fun t => decide (t.engine = r.i)
    nat (fld (Config.freeValue s.free) 0 9 + 1024 * active)
  | .dattUpdEntry => s.dattEntry (s.get (rid .dattUpdIdx) 0 21)
  | .secUpdTrialLeft => if s.sec.upd = .trial then nat ((s.sec.trialAt + 30000000000 - s.now) / 1000000) else 0
  | _ => s.reg r

/-! ### Which registers answer (R5, R409) -/

/-- The domain that a register's unit is in; none for one that is always on. -/
def regDomain (r : RegId) : Option Nat :=
  match r.name with
  | .hrcChCfg | .hrcChTrain | .hrcChRetryCnt | .hrcChCeCnt | .hrcChUeCnt | .hrcChUeAddr | .hrcChRecalCnt | .hrcSlot => some (145 + r.k)
  | .iplPipeLoad => some (153 + r.k)
  | .vdecSesWp | .vdecSesRp | .vdecSesStat => some 155
  | .vencSesWp | .vencSesRp | .vencSesStat => some 156
  | .vencJpgTrig | .vencJpgWp | .vencJpgRp | .vencJpgStat => some 157
  | n =>
    match n.desc.block with
    | .yard => some (20 * r.i + r.j)
    | .cc | .flag => some (20 * r.i + 16)
    | .strm => if r.i < 7 then some (20 * r.i + 17) else none
    | .aud => some 158
    | .eth => some 159
    | .usb4 => some 144
    | .qm | .evt => some 143
    | .xtree => some 160
    | _ => none

/-- The register's unit is on the part and powered; the image pipelines' common registers stand with either pipeline. -/
def answers (s : State) (r : RegId) : Bool :=
  s.part.has r && (match regDomain r with | some d => s.domOn d | none => true) &&
    (decide (r.name.desc.block ≠ .ipl) || s.domOn 153 || s.domOn 154)

/-- A requester other than the host is a processor that runs. -/
def viaAny (s : State) (rq : Requester) (f : State → State) : State :=
  match rq with
  | .host => s.viaHost f
  | .sp => if s.up 0 then f s else s
  | .mp => if s.up 1 then f s else s
  | .tp => if s.up 2 then f s else s
  | .ms m => if m < s.part.masts ∧ s.up (3 + m) then f s else s

/-! ### The MSI-X table and the queue descriptor view (R326, R327, R330) -/

/-- What an entry's word reads before it is written: the mask bit is set (PRESUMED, log entry 45). -/
def msixDefault (k : Nat) : BitVec 32 := if k % 4 = 3 then 1 else 0
def msixWord (s : State) (k : Nat) : BitVec 32 := SMap.get (msixDefault k) s.queue.msix k

/-- A write of a word of the table: an entry that is unmasked sends what was pending. -/
def msixWrite (s : State) (k : Nat) (v : BitVec 32) : State :=
  let w := if k % 4 = 3 then v &&& 1 else if k % 4 = 0 then v &&& 0xFFFFFFFC else v
  let s := { s with queue := { s.queue with msix := SMap.set (msixDefault k) s.queue.msix k w } }
  if k % 4 = 3 ∧ w = 0 ∧ SMap.get false s.queue.pba (k / 4) then
    ({ s with queue := { s.queue with pba := SMap.set false s.queue.pba (k / 4) false } }).signal (k / 4)
  else s

/-- The pending bits of vectors 32 w to 32 w + 31. -/
def pbaWord (s : State) (w : Nat) : Nat := (List.range 32).foldl (fun n i => n + bitOf (SMap.get false s.queue.pba (32 * w + i)) * 2 ^ i) 0

/-- The bits of descriptor word `w` that the driver writes while the queue is off; the flags and the drop count are not among them. -/
def descMask (w : Nat) : Nat :=
  match w with
  | 1 | 9 | 11 => 0xFF
  | 3 => 0xFFFF0000
  | 7 | 13 | 14 | 15 => 0
  | _ => 0xFFFFFFFF

/-- R330: a write of a word of the descriptor view. -/
def descWrite (s : State) (q w : Nat) (v : BitVec 32) : State :=
  let s := if s.qOn q then s else
    let m := BitVec.ofNat 32 (descMask w)
    s.qSet q (4 * w) 4 (((BitVec.ofNat 32 (s.qField q (4 * w) 4) &&& ~~~m) ||| (v &&& m)).toNat)
  if w = 3 then s.qFlags q (v.getLsbD 0) (v.getLsbD 1) else s

/-- A BAR0 offset in the table, in the pending bits, or in the descriptor view. -/
inductive Special where
  | msix (k : Nat)
  | pba (w : Nat)
  | desc (q w : Nat)
  deriving DecidableEq, Repr

def specialAt (off : Nat) : Option Special :=
  if 0x980000 ≤ off ∧ off < 0x988000 then some (.msix ((off - 0x980000) / 4))
  else if 0x9C0000 ≤ off ∧ off < 0x9C0100 then some (.pba ((off - 0x9C0000) / 4))
  else if 0xC00000 ≤ off ∧ off < 0xE00000 then some (.desc ((off - 0xC00000) / 64) ((off - 0xC00000) % 64 / 4))
  else none

/-! ### Reads (R15) -/

/-- The word that a read at a BAR0 offset returns. -/
def readWord (s : State) (rq : Requester) (off : Nat) : BitVec 32 :=
  match specialAt off with
  | some (.msix k) => s.msixWord k
  | some (.pba w) => BitVec.ofNat 32 (s.pbaWord w)
  | some (.desc q w) => BitVec.ofNat 32 (s.qField q (4 * w) 4)
  | none =>
    match regAt off with
    | none => 0
    | some (r, w) => if !s.answers r then 0 else if w = 1 then s.latched rq (off - 4) else (s.view r).setWidth 32

/-- A read: the low word of a 64-bit register latches its high word; a value that the spec leaves open takes a new free value next time. -/
def readAt (s : State) (rq : Requester) (off : Nat) : State :=
  let t := { s with queue := { s.queue with readData := s.readWord rq off } }
  match regAt off with
  | some (r, 0) =>
    let t := if r.name.desc.bytes = 8 then t.setLatched rq off (if s.answers r then (s.view r >>> 32).setWidth 32 else 0) else t
    if r.name = .strmStatus then t.takeFree else t
  | _ => t

/-! ### Who writes -/

/-- A rig or a REVERT is being applied. -/
def applying (s : State) : Bool := (s.rig.staged.isSome || s.rig.revert.isSome) && s.atStep6

/-- An admission or a removal is being applied. -/
def admitting (s : State) : Bool := s.copying.isSome || s.admittedList.any s.leaving

/-- A HyperRAM channel trains. -/
def training (s : State) : Bool :=
  (List.range 8).any fun c => bit (s.reg (rid .hrcCtrl)) c && !bit (s.reg (rid .hrcStatus)) c && !bit (s.reg (rid .hrcStatus)) (16 + c)

/-- Whose mailbox it is. -/
def ownsMbox (rq : Requester) (n : Nat) : Bool :=
  match rq with
  | .host => decide (n < 2)
  | .mp => decide (2 ≤ n ∧ n < 4)
  | _ => false

/-- The requester may set the RW fields of a register now. -/
def rwOk (s : State) (rq : Requester) (r : RegId) : Bool :=
  match r.name.desc.block with
  | .tick =>
    (match r.name with
    | .tickStartAt => decide (rq = .host) && !bit (s.reg (rid .tickStatus)) 0
    | .tickNumBase => decide (rq = .mp) && s.applying && !bit (s.reg (rid .tickStatus)) 5
    | _ => decide (rq = .mp) && s.applying)
  | .yard =>
    (match r.name with
    | .yardSuit | .yardChain => decide (rq = .ms r.i) && s.applying && !s.yardBusy r.i r.j
    | .yardEccInj | .yardEccInjBits => decide (rq = .ms r.i) && !s.yardBusy r.i r.j
    | _ => false)
  | .xtree | .eth => decide (rq = .mp)
  | .cc => decide (rq = .ms r.i) && s.admitting && (decide (r.name = .ccWheel) || (s.progAt r.i r.k).isNone)
  | .adm => decide (r.name = .admMboxReq) && ownsMbox rq r.k && !s.mboxBusy r.k
  | .strm => decide (r.i = 7) &&
    (match r.name with
    | .strmChCtrl | .strmChSq => ownsCh rq r.k
    | .strmPctxNext | .strmPctxStat => decide (rq = .mp)
    | .strmSrcBase0 | .strmSrcBase1 | .strmSrcDim | .strmSrcCtl => decide (rq = .tp)
    | _ => false)
  | .datt | .qm | .usb4 => decide (rq = .host)
  | .ipl => decide (rq = .mp) && s.applying
  | .gpio => decide (r.name = .gpioBallCfg) && decide (rq = .mp) && s.applying
  | .hrc => decide (rq = .mp) && (s.applying || s.training)
  | .sec =>
    (match r.name with
    | .secUpdReq => decide (rq = .host) && !s.updBusy
    | .secAttNonce | .secAttDst | .secAttCap => decide (rq = .host) && !s.attBusy
    | .secFuseAddr => decide (rq = .host) && !s.fuseBusy
    | _ => false)
  | .pwr => (match rq with
    | .mp | .ms _ => s.applying
    | _ => false)
  | .id | .flag | .venc | .aud | .evt => false

/-- The requester may clear the W1C bits of a register now. -/
def w1cOk (s : State) (rq : Requester) (r : RegId) : Bool :=
  match r.name.desc.block with
  | .yard => decide (r.name = .boomStatus) || clears rq || (decide (r.name = .yardInit) && decide (rq = .ms r.i))
  | .cc | .flag => clears rq
  | .adm => decide (r.name = .admMboxStat) && ownsMbox rq r.k
  | .strm => decide (rq = .host) || (decide (r.name = .strmChStat) && ownsCh rq r.k)
  | .sec => decide (rq = .host) && !(match r.name with
    | .secUpdStat => s.updBusy
    | .secAttStat => s.attBusy
    | .secFuseStat => s.fuseBusy
    | _ => false)
  | _ => decide (rq = .host)

/-- R236: the nibbles of CC_WHEEL whose positions stay with, and go to, contexts whose program slots are empty. -/
def wheelMask (s : State) (m : Nat) (old new : BitVec 64) : BitVec 64 :=
  (List.range 16).foldl (fun k p =>
    let free (v : BitVec 64) : Bool := fld v (4 * p + 3) 1 = 0 || (s.progAt m (fld v (4 * p) 3)).isNone
    if free old && free new then k ||| (fldMask (4 * p) 4) else k) 0

/-- R410, R430: the domains that a processor switches: the MP the Stay die's, a supervisor its mast's. -/
def domMask (rq : Requester) (w : Nat) : BitVec 64 :=
  (List.range 32).foldl (fun k i =>
    let d := 32 * w + i
    let own := match rq with
      | .mp => decide (140 ≤ d ∧ d < 163)
      | .ms m => decide (20 * m ≤ d ∧ d < 20 * m + 20)
      | _ => false
    if own then k ||| BitVec.ofNat 64 (2 ^ i) else k) 0

/-- The bits that a write by this requester sets to the value written. -/
def setMask (s : State) (rq : Requester) (r : RegId) (v : BitVec 64) : BitVec 64 :=
  let all := BitVec.ofNat 64 (r.name.desc.rw ||| r.name.desc.rwl)
  if !s.rwOk rq r then 0
  else if r.name = .ccWheel then all &&& s.wheelMask r.i (s.reg r) v
  else if r.name = .yardChain then all &&& BitVec.ofNat 64 (chainMask r.j)
  else if r.name = .pwrDomEn ∨ r.name = .pwrDomRet then all &&& domMask rq r.k
  else all

/-- A write by access code (Table 0.5): RW and RWL fields are set, W1C bits are cleared, and everything else is discarded. A W1C bit that
hardware has set in this cycle stays set (R12). -/
def codeWrite (s : State) (rq : Requester) (r : RegId) (v : BitVec 64) : State :=
  let m := s.setMask rq r v
  let c := if s.w1cOk rq r then BitVec.ofNat 64 r.name.desc.w1c &&& v &&& s.regWas r else 0
  s.setReg r (((s.reg r &&& ~~~m) ||| (v &&& m)) &&& ~~~c)

/-- The state that a command's outcome leaves. -/
def nextOr (s : State) (o : Host.Outcome State Fault Refusal) : State :=
  match o with
  | .next t => t
  | _ => s

/-- A write of 1 to a mailbox's go bit. -/
def mboxGo (s : State) (n : Nat) : State :=
  let s := if n = 2 ∧ !s.mboxBusy 2 then { s with rig := { s.rig with halyard := [] } } else s
  s.accept n

/-- The processor of a requester. -/
def procOf : Requester → Option Nat
  | .host => none
  | .sp => some 0
  | .mp => some 1
  | .tp => some 2
  | .ms m => some (3 + m)

/-- R50: the MP writes TICK_CTRL.run: 1 starts the generator; 0 stops it at the next boundary, but has no effect while a program is
admitted. -/
def runWrite (s : State) (run : Bool) : State :=
  if run then s.nextOr (execTickRunSet s)
  else
    let t := s.nextOr (execTickRunClear s)
    if t.tick.phase ≠ .stopped ∧ !t.tick.stopping then t.put (rid .tickCtrl) 0 1 1 else t

/-- What a write does beside its access codes: the rows of their own that a register's fields have. -/
def trigger (s : State) (rq : Requester) (r : RegId) (v : BitVec 32) : State :=
  let go := v.getLsbD 0
  let host := decide (rq = .host)
  let on (c : Bool) (o : Host.Outcome State Fault Refusal) : State := if c then s.nextOr o else s
  match r.name with
  | .gcntCapture => on host (execGcntCapture v s)
  | .tickCtrl => on (decide (rq = .mp) && s.applying) (.next (s.runWrite go))
  | .yardPerfClr => on go (execYardPerfClr rq r.i r.j s)
  | .yardInit => on (go && decide (rq = .ms r.i)) (execYardInit r.i r.j s)
  | .reefStatus => on (v.getLsbD 8) (execReefStatusClr rq r.i r.j s)
  | .vuStatus => on (v.getLsbD 8) (execVuStatusClr rq r.i r.j s)
  | .admMboxDb => if go && ownsMbox rq r.k then s.mboxGo r.k else s
  | .strmPeak => on (v.getLsbD 16) (execStrmPeakClr rq r.i s)
  | .strmChCtrl => if r.i ≠ 7 then s else if v.getLsbD 2 then s.nextOr (execStrmAbort rq r.k s) else on (v.getLsbD 1) (execStrmResume rq r.k s)
  | .vdecSesWp => on host (execVdecWpWrite r.k v s)
  | .vencSesRp => on host (execVencRpWrite r.k v s)
  | .vencJpgTrig => on (host && go) (execVencJpgTrig r.k s)
  | .vencJpgRp => on host (execVencJpgRpWrite r.k v s)
  | .gpioOut => on host (execGpioOutWrite v s)
  | .qmDownhaul => s.nextOr (execQmDownhaul rq v s)
  | .secUpdDb => if host && go then s.updDoorbell (s.updReq 0 % 256) else s
  | .secNonceNew => on (host && go) (execNonceNew s)
  | .secAttDb => on (host && go) (execAttestRequest s)
  | .secFuseDb => on (host && go) (execFuseRequest s)
  | .pwrTherm => on (host && v.getLsbD 31) (execPwrThermClr r.k s)
  | .pwrShedClr => on (host && go) (execPwrShedClr s)
  | .pwrSleep => on host (execPwrSleep v s)
  | .pwrWdogKick => on (go && decide (procOf rq = some r.k)) (execPwrWdogKick r.k s)
  | _ => s

/-! ### 64-bit registers (R16) -/

/-- The requester may write the 64-bit register: DATT_UPD_ENTRY has a row of its own for its high word. -/
def mayHold (s : State) (rq : Requester) (r : RegId) : Bool := s.answers r && decide (r.name.desc.bytes = 8 ∧ r.name.desc.rw ||| r.name.desc.rwl ≠ 0) && s.rwOk rq r

/-- A write of the low word fills the holding register. -/
def lowWrite (s : State) (rq : Requester) (r : RegId) (off : Nat) (v : BitVec 32) : State :=
  if s.mayHold rq r then s.setHeld rq off (some v) else s

/-- A write of the high word gives the register its value, with the low word held or else its own, and empties the holding register; `off` is
the register's offset. -/
def highWrite (s : State) (rq : Requester) (r : RegId) (off : Nat) (v : BitVec 32) : State :=
  if !s.mayHold rq r then s
  else if r.name = .dattUpdEntry then s.nextOr (execDattUpdate rq v s)
  else
    let low := (s.held rq off).getD ((s.reg r).setWidth 32)
    (s.codeWrite rq r (v ++ low)).setHeld rq off none

/-- A write of a word at a BAR0 offset. -/
def writeAt (s : State) (rq : Requester) (off : Nat) (v : BitVec 32) : State :=
  match specialAt off with
  | some (.msix k) => if rq = .host then s.msixWrite k v else s
  | some (.pba _) => s
  | some (.desc q w) => if rq = .host then s.descWrite q w v else s
  | none =>
    match regAt off with
    | none => s
    | some (r, w) =>
      if !s.answers r then s
      else if r.name.desc.bytes = 8 then (if w = 0 then s.lowWrite rq r off v else s.highWrite rq r (off - 4) v)
      else (s.codeWrite rq r (v.setWidth 64)).trigger rq r v

end State

/-- A read of a register's word (R15): of a 64-bit register's low word, it latches the high word for that requester. -/
def execLowWordRead (rq : Requester) (off : Nat) (s : State) : Host.Outcome State Fault Refusal := .next (s.viaAny rq fun s => s.readAt rq off)

/-- A write of the low word of a 64-bit RW register (R16). -/
def execLowWordWrite (rq : Requester) (off : Nat) (value : BitVec 32) (s : State) : Host.Outcome State Fault Refusal :=
  .next (s.viaAny rq fun s => match regAt off with
    | some (r, 0) => s.lowWrite rq r off value
    | _ => s)

/-- A write of the high word of a 64-bit RW register (R16); `off` is the offset of that word. -/
def execHighWordWrite (rq : Requester) (off : Nat) (value : BitVec 32) (s : State) : Host.Outcome State Fault Refusal :=
  .next (s.viaAny rq fun s => match regAt off with
    | some (r, 1) => s.highWrite rq r (off - 4) value
    | _ => s)

/-- A write of a register's word (R11): it takes effect by its access code, or is discarded. -/
def execRegisterWrite (rq : Requester) (off : Nat) (value : BitVec 32) (s : State) : Host.Outcome State Fault Refusal :=
  .next (s.viaAny rq fun s => s.writeAt rq off value)

end Sys2Proof.Machine
end

