-- ==== Sys2Proof/Machine/Clock.lean ====
section
/-! DEFINITION. One nanosecond of the part's own time (log entry 2): the global counter advances, what needs no command happens, and
the commands whose instant has come are queued. -/

namespace Sys2Proof.Machine
namespace State

/-! ### What happens without a command -/

/-- R210 to R212: a stalled context's cycle is counted; a context whose program has reached tick.end is idle. -/
def ctxCycle (s : State) (p : Nat) : State :=
  let s := s.countStall p
  if (s.ctx p).active && decide ((s.ctx p).run = .issuing) && s.reachedEnd p then s.setCtx p { s.ctx p with run := .idle } else s

/-- A tick boundary falls due in this nanosecond. -/
def tickStarts (s : State) : Bool :=
  match s.tick.next with
  | some t => decide (t ≤ s.now) && (decide (s.tick.phase = .waiting) || decide (s.tick.phase = .guard))
  | none => false

/-- A cycle begins, none that a tick boundary cuts short. -/
def cycleHere (s : State) : Bool := s.cycleStarts && !s.tickStarts

/-- A cycle begins: the pipelines of the yards move, the contexts are looked at, and the crosstree has its slots. -/
def cycleWork (s : State) : State :=
  (s.admittedList.foldl ctxCycle (s.yards.foldl (fun s e => s.yardStep (e.1 / 8) (e.1 % 8)) s)).slotsStep.drainBacklog

/-- Guard steps, flag values that arrive, the work of a cycle that begins, and requests that a processor can go on with. -/
def clockWork (s : State) : State :=
  let s := ((s.guardStep.fsyncEnds).arriveLocal).arriveShown
  let s := if s.cycleHere then s.cycleWork else s
  (s.periphEnds.serveAll).serveWaiting

/-! ### The commands that fall due -/

/-- A command, if a condition holds. -/
def dueIf (c : Bool) (i : Instr) : List Instr := if c then [i] else []

/-- Tick boundaries, the guard, and the pulses that follow a tick start. -/
def dueTick (s : State) : List Instr :=
  let ticking := decide (s.tick.phase = .work) || decide (s.tick.phase = .guard)
  let starts := s.tickStarts
  dueIf (decide (s.gcnt = BitVec.allOnes 64) && !bit (s.reg (rid .gcntStatus)) 0) .gcntSaturated ++
    ((List.range 7).filter fun m => s.mastIn m && !SMap.get false s.tick.aligned m).map (fun m => .counterAlignment m s.gcnt s.gcnt) ++
    dueIf (bit (s.reg (rid .tickCtrl)) 1 && decide (s.tick.phase = .guard) && !s.tick.accepted && s.tick.relockFrom.isNone &&
      !bit (s.reg (rid .tickStatus)) 2 && decide (s.expected + s.quarterGuard ≤ s.now)) .tickInLost ++
    dueIf (bit (s.reg (rid .tickStatus)) 2 && s.tick.held && s.tick.earlySeen && decide (15 ≤ s.tick.earlyRun) && s.tick.relockFrom.isNone && !s.tick.accepted &&
      ticking) .holdoverRelock ++
    dueIf starts .tickStart ++
    dueIf (decide (s.tick.phase = .work) && decide (s.guardTime ≤ s.now)) .guardStart ++
    dueIf (bit (s.reg (rid .tickCtrl)) 2 && decide (s.tick.phase = .work) && decide (s.tickStart + 20 ≤ s.now) &&
      decide (s.tick.outPulse.map (·.1) ≠ some (s.tickStart + 20))) .tickOutPulse ++
    ((List.range 16).filter fun n => (starts && bit (s.reg (rid .tickFsyncA n)) 21) ||
      (ticking && s.fsyncTick n && decide (s.fsyncRise n ≤ s.now) && decide ((SMap.get (0, 0) s.tick.fsync n).1 ≠ s.fsyncRise n))).map .fsyncPulse

/-- Guard step 6 in the order of R258, 700 ns after the guard's start, or at once while no tick runs. -/
def dueStep6 (s : State) : List Instr :=
  if s.tick.phase = .stopped ∨ (s.tick.phase = .guard ∧ s.tick.stage = 2 ∧ s.now = s.tick.guardAt + 700) then
    (s.admittedList.filter s.leaving).map .progRemoved ++ s.power.outPending.map .unitOut ++ dueIf s.rig.revert.isSome .rigReverted ++
      dueIf s.rig.staged.isSome .rigApplied ++ (s.queue.launches.filter fun l => decide (l.first ≤ s.nextT48)).map fun l => .launchArmed l.mbox
  else if s.tick.phase = .waiting then s.power.outPending.map .unitOut
  else []

/-- Flits, landing cycles, the hub, HyperRAM slots and yards being filled. -/
def dueFabric (s : State) : List Instr :=
  let gone := s.fabric.flits.filter fun f => decide (s.flitDue f ≤ s.now)
  let bank := s.cycle % 32
  gone.map (fun f => .xtreeFlitArrival f.src f.dst) ++
    (s.yards.filter fun y => s.cycleHere && y.2.landing.any fun e => decide (e.bank = bank)).map (fun y => .landingCycle (y.1 / 8) (y.1 % 8) bank) ++
    dueIf (s.flags.hub.any fun o => decide (o.reach ≤ s.now)) .hubFlagOperation ++
    ((List.range 8).filter fun c => !(s.hrReqs c).isEmpty && (s.hrSlotNow c).isSome).map (fun c => .hrSlot c none) ++
    ((List.range 8).filter fun c => !(s.hrRetries c).isEmpty && (s.hrSlotNow c).isSome).map (fun c => .hrRetry c false) ++
    (s.yards.filter fun y => match y.2.initUntil with | some t => decide (t ≤ s.now) | none => false).map fun y => .yardInitDone (y.1 / 8) (y.1 % 8)

/-- The queues of the yards: the codes of Table 8.1. -/
def unitOf (k : Nat) : UnitQ :=
  if k < 4 then .sail k else if k < 8 then .boom (k - 4) else if k = 8 then .reef else if k = 9 then .vu else .strm

/-- R204: the instruction that a context would issue: the one held back, or the next of its program (log entry 10). -/
def nextInstr (s : State) (p : Nat) : Option Instr :=
  match (s.ctx p).blocked with
  | some i => some i
  | none => (s.prog p).box.code[(s.ctx p).idx]?.bind fun w => decodeFenja p w

/-- The program has an instruction for a cycle of its own. -/
def issuing (s : State) (p : Nat) : Bool :=
  let c := s.ctx p
  s.inWork && c.active && !c.ended && c.wait.isNone && c.stalled.isNone && s.ownsCycle p

/-- What may end for the context of program `p` before it issues: epochs that resolve, a penalty, a wait. -/
def dueCtx (s : State) (p : Nat) : List Instr :=
  let c := s.ctx p
  c.epochs.map (fun _ => .epochResolve p) ++
    dueIf (match c.resumeAt with | some t => decide (t ≤ s.now) | none => false) (.squashPenaltyEnd p) ++
    (match c.wait with
      | some w => dueIf (!w.pkg || match w.grant with | some t => decide (t ≤ s.now) | none => false) (.flagWaitSatisfied p) ++
          dueIf (w.grant.isNone && decide (w.expiry ≤ s.now)) (.waitTimeout p)
      | none => [])

/-- R204, R210: what the context issues. -/
def dueIssue (s : State) (p : Nat) : List Instr :=
  dueIf (s.ctx p).stalled.isSome (.engineQueueStall p) ++ (if s.issuing p then (s.nextInstr p).toList else [])

/-- Deliveries come after the context's own writes of the cycle (R160). -/
def dueResults (s : State) (p : Nat) : List Instr :=
  ((s.ctx p).dels.filter fun d => match d.due with | some t => decide (t ≤ s.now) | none => false).map fun _ => .scalarDelivery p

/-- Completion sets come after the flits and the streams of their cycle (R216). -/
def dueStrms (s : State) : List Instr := (s.strm.ticks.filter s.strmDone).map fun t => .commandCompletionSet t.prog

/-- Loads that end, and the queues whose head may start: those that hold a command, and those of the programs that issue in this cycle. -/
def dueEngines (s : State) : List Instr :=
  let open_ := (s.admittedList.filter s.issuing).flatMap fun p => (s.prog p).place.yards
  (s.yards.flatMap fun y => (y.2.sails.filter fun c => match c.2.load with | some l => decide (l.done ≤ s.now) | none => false).map
    fun c => .sailLoadComplete (y.1 / 8) (y.1 % 8) c.1) ++
  ((s.yards.filter fun y => !y.2.queues.isEmpty).map (·.1) ++ open_).eraseDups.flatMap fun y =>
    ((List.range 11).filter fun k => open_.contains y || !(s.queueOf (y / 8) (y % 8) (unitOf k)).isEmpty).map
      fun k => .engineCommandStart (y / 8) (y % 8) (unitOf k)

/-- What programs and their engines do in the cycle that begins: flits land after the engines' own accesses (R109). -/
def dueCycle (s : State) : List Instr :=
  if !s.cycleHere then s.dueFabric
  else
    let ps := s.admittedList
    ps.flatMap s.dueCtx ++ ps.flatMap s.dueIssue ++ s.dueEngines ++ s.dueFabric ++ ps.flatMap s.dueResults

/-- Bulk channels. -/
def dueChan (s : State) (ch : Nat) : List Instr :=
  let q := s.get (sreg .strmChSq ch) 0 15
  dueIf ((s.chan ch).ending.isSome && s.bulkLanded ch) (.streamCompletion ch .done) ++
    dueIf (match (s.chan ch).record with | some (q, _) => !(s.qTakes q 4 && s.qFull q) | none => false) (.bulkRecordWaitEnd ch) ++
    dueIf (bit (s.reg (sreg .strmChCtrl ch)) 0 && bit (s.reg (sreg .strmChSq ch)) 15 && (decide (s.chState ch = 0) || decide (s.chState ch = 4)) &&
      s.qOn q && decide (s.qOcc q ≠ 0)) (.bulkDescriptorStart ch)

/-- Timed outputs, results, events and interrupts: the arbiter takes one record every 2 ns. -/
def dueHost (s : State) : List Instr :=
  dueIf s.toqFirst.isSome .timedOutputDue ++ (s.gpio.pulses.filter fun q => decide (q.ends ≤ s.now)).map (fun q => .timedPulseEnd q.ball) ++
    s.queue.results.map (fun _ => .resultPublish) ++ (s.events.lost.map fun e => .evtLost (e.1 / 256) (e.1 % 256)) ++
    dueIf (decide (s.now % 2 = 0) && !s.fifoHeads.isEmpty) .eventTaken ++ s.queue.timers.map fun q => .irqTimeThreshold q.1

/-- Firmware, update and power. -/
def dueFirmware (s : State) : List Instr :=
  (s.power.restartAt.filter fun e => decide (e.2 ≤ s.now) && (decide (e.1 = 0) || s.fwRuns 0)).map (fun e => .fwRestart e.1) ++
    (match s.copying with | some p => [.imemCopyDone p] | none => []) ++
    dueIf (s.deferred && match s.sec.clearSince with | some t => decide (t + 250000000 ≤ s.now) | none => false) .activationResume ++
    dueIf (decide (s.sec.upd = .trial ∧ s.sec.trialAt + 30000000000 ≤ s.now)) .trialTimeout ++
    dueIf (s.power.sleepHeld && decide (s.sec.upd ≠ .activating ∧ s.sec.upd ≠ .trial) && s.fwRuns 0) .heldSleepProceed

/-- The commands that fall due in the state's nanosecond, in the order in which they take place. -/
def due (s : State) : List Instr :=
  match s.power.life with
  | .booting => [.coldBoot]
  | .recovery => dueIf (s.sec.recovered && decide (s.sec.bootMode = 1)) .internalReset
  | .running =>
    s.dueTick ++ s.dueStep6 ++ s.dueCycle ++ (List.range 32).flatMap s.dueChan ++ s.dueHost ++
      s.dueFirmware
  | _ => []

/-- R27, R28: the counter advances by one while the timebase runs, and stays at its largest value (R57). -/
def count (s : State) : State :=
  if s.timebase then { s with gcnt := if s.gcnt = BitVec.allOnes 64 then s.gcnt else s.gcnt + 1 } else s

/-- The values that registers have at the start of a part of the nanosecond. -/
def snap (s : State) : State := { s with was := s.regs }

/-- Cycle 0 of a tick, once its boundary has passed. -/
def cycleZero (s : State) : State :=
  let s := { s with tick := { s.tick with fresh := false, trail := true } }.snap.cycleWork
  { s with pending := s.dueCycle }

/-- The streams' part of a cycle. -/
def cycleTrail (s : State) : State :=
  let s := { s with tick := { s.tick with trail := false } }.strmsStep
  { s with pending := s.dueStrms }

/-- The next nanosecond. -/
def advance1 (s : State) : State :=
  let s := s.count.snap
  if s.power.life = .running then
    let s := s.clockWork
    { s with tick := { s.tick with trail := s.cycleHere }, pending := s.due }
  else { s with pending := s.due }

/-- The part's own time goes on: with what is still to come of the nanosecond in hand, else with the next one. -/
def nanosecond (s : State) : State :=
  if s.tick.fresh then s.cycleZero
  else if s.tick.trail && !s.strm.ticks.isEmpty then s.cycleTrail
  else s.advance1

end State
end Sys2Proof.Machine
end

