-- ==== Sys2Proof/Machine/Scalar.lean ====
section
/-! DEFINITION. The scalar class (Table 7.13). -/

namespace Sys2Proof.Machine

/-- The shape of the two-operand scalar operations: sc[rd] := f(sc[ra], second operand). -/
def State.scalar2 (s : State) (p : Nat) (g : Guard) (i : Instr) (rd ra : BitVec 5) (b : Operand) (f : Word → Word → Word) :
    Host.Outcome State Fault Refusal :=
  .next (s.issue p g i (rd.toNat :: ra.toNat :: b.uses) fun s =>
    s.setSc p rd (f ((s.regsOf p).getSc ra) (b.value (s.regsOf p))))

/-- The shape of the one-operand scalar operations: sc[rd] := f(sc[ra]). -/
def State.scalar1 (s : State) (p : Nat) (g : Guard) (i : Instr) (rd ra : BitVec 5) (f : Word → Word) :
    Host.Outcome State Fault Refusal :=
  .next (s.issue p g i [rd.toNat, ra.toNat] fun s => s.setSc p rd (f ((s.regsOf p).getSc ra)))

/-- Table 7.13, f.add and f.mul: one rounding, subnormals flushed (R62), overflow to the largest finite value, a NaN operand to the
canonical NaN; the rounded result of two finite operands is never NaN. -/
def scalarFp (f : Word → Word → Word) (a b : Word) : Word :=
  if Fp.isNan a || Fp.isNan b then Fp.nan else
    let r := f (Fp.flush a) (Fp.flush b)
    if Fp.isNan r then Fp.nan else (Fp.fin r).1

/-- nop. -/
def execNop (p : Nat) (g : Guard) (s : State) : Host.Outcome State Fault Refusal :=
  .next (s.issue p g (.nop p g) [] fun s => s)

/-- li: sc[rd] := imm. -/
def execLi (p : Nat) (g : Guard) (rd : BitVec 5) (imm : BitVec 32) (s : State) : Host.Outcome State Fault Refusal :=
  .next (s.issue p g (.li p g rd imm) [rd.toNat] fun s => s.setSc p rd imm)

/-- mov: sc[rd] := sc[ra]. -/
def execMov (p : Nat) (g : Guard) (rd ra : BitVec 5) (s : State) : Host.Outcome State Fault Refusal :=
  s.scalar1 p g (.mov p g rd ra) rd ra fun a => a

/-- add, wrapping. -/
def execAdd (p : Nat) (g : Guard) (rd ra : BitVec 5) (b : Operand) (s : State) : Host.Outcome State Fault Refusal :=
  s.scalar2 p g (.add p g rd ra b) rd ra b fun x y => x + y

/-- sub, wrapping. -/
def execSub (p : Nat) (g : Guard) (rd ra : BitVec 5) (b : Operand) (s : State) : Host.Outcome State Fault Refusal :=
  s.scalar2 p g (.sub p g rd ra b) rd ra b fun x y => x - y

/-- mul: the low 32 bits. -/
def execMul (p : Nat) (g : Guard) (rd ra : BitVec 5) (b : Operand) (s : State) : Host.Outcome State Fault Refusal :=
  s.scalar2 p g (.mul p g rd ra b) rd ra b fun x y => x * y

/-- and. -/
def execAnd (p : Nat) (g : Guard) (rd ra : BitVec 5) (b : Operand) (s : State) : Host.Outcome State Fault Refusal :=
  s.scalar2 p g (.and p g rd ra b) rd ra b fun x y => x &&& y

/-- or. -/
def execOr (p : Nat) (g : Guard) (rd ra : BitVec 5) (b : Operand) (s : State) : Host.Outcome State Fault Refusal :=
  s.scalar2 p g (.or p g rd ra b) rd ra b fun x y => x ||| y

/-- xor. -/
def execXor (p : Nat) (g : Guard) (rd ra : BitVec 5) (b : Operand) (s : State) : Host.Outcome State Fault Refusal :=
  s.scalar2 p g (.xor p g rd ra b) rd ra b fun x y => x ^^^ y

/-- shl: by bits [4:0] of the second operand. -/
def execShl (p : Nat) (g : Guard) (rd ra : BitVec 5) (b : Operand) (s : State) : Host.Outcome State Fault Refusal :=
  s.scalar2 p g (.shl p g rd ra b) rd ra b fun x y => x <<< (y.toNat % 32)

/-- shr: logical, by bits [4:0] of the second operand. -/
def execShr (p : Nat) (g : Guard) (rd ra : BitVec 5) (b : Operand) (s : State) : Host.Outcome State Fault Refusal :=
  s.scalar2 p g (.shr p g rd ra b) rd ra b fun x y => x >>> (y.toNat % 32)

/-- sra: arithmetic, by bits [4:0] of the second operand. -/
def execSra (p : Nat) (g : Guard) (rd ra : BitVec 5) (b : Operand) (s : State) : Host.Outcome State Fault Refusal :=
  s.scalar2 p g (.sra p g rd ra b) rd ra b fun x y => x.sshiftRight (y.toNat % 32)

/-- min, signed. -/
def execMin (p : Nat) (g : Guard) (rd ra : BitVec 5) (b : Operand) (s : State) : Host.Outcome State Fault Refusal :=
  s.scalar2 p g (.min p g rd ra b) rd ra b fun x y => if x.slt y then x else y

/-- max, signed. -/
def execMax (p : Nat) (g : Guard) (rd ra : BitVec 5) (b : Operand) (s : State) : Host.Outcome State Fault Refusal :=
  s.scalar2 p g (.max p g rd ra b) rd ra b fun x y => if x.slt y then y else x

/-- f.add. -/
def execFAdd (p : Nat) (g : Guard) (rd ra : BitVec 5) (b : Operand) (s : State) : Host.Outcome State Fault Refusal :=
  s.scalar2 p g (.fAdd p g rd ra b) rd ra b (scalarFp Fp.addRne)

/-- f.mul. -/
def execFMul (p : Nat) (g : Guard) (rd ra : BitVec 5) (b : Operand) (s : State) : Host.Outcome State Fault Refusal :=
  s.scalar2 p g (.fMul p g rd ra b) rd ra b (scalarFp Fp.mulRne)

/-- f.cvt.i: to nearest even, saturating; NaN gives 0. -/
def execFCvtI (p : Nat) (g : Guard) (rd ra : BitVec 5) (s : State) : Host.Outcome State Fault Refusal :=
  s.scalar1 p g (.fCvtI p g rd ra) rd ra fun a =>
    if Fp.isNan a then 0 else BitVec.ofInt 32 (Fp.toIntSat (-2147483648) 2147483647 (Fp.flush a)).1

/-- f.cvt.f: to nearest even. -/
def execFCvtF (p : Nat) (g : Guard) (rd ra : BitVec 5) (s : State) : Host.Outcome State Fault Refusal :=
  s.scalar1 p g (.fCvtF p g rd ra) rd ra fun a => Fp.ofInt a.toInt

/-- cmp: pd[rd] := condition on sc[ra] and the second operand. -/
def execCmp (p : Nat) (g : Guard) (rd : BitVec 3) (cond : Cond) (ra : BitVec 5) (b : Operand) (s : State) :
    Host.Outcome State Fault Refusal :=
  .next (s.issue p g (.cmp p g rd cond ra b) (ra.toNat :: b.uses) fun s =>
    s.setPd p rd (cond.holds ((s.regsOf p).getSc ra) (b.value (s.regsOf p))))

/-- p.and. -/
def execPAnd (p : Nat) (g : Guard) (rd ra rb : BitVec 3) (s : State) : Host.Outcome State Fault Refusal :=
  .next (s.issue p g (.pAnd p g rd ra rb) [] fun s => s.setPd p rd ((s.regsOf p).getPd ra && (s.regsOf p).getPd rb))

/-- p.or. -/
def execPOr (p : Nat) (g : Guard) (rd ra rb : BitVec 3) (s : State) : Host.Outcome State Fault Refusal :=
  .next (s.issue p g (.pOr p g rd ra rb) [] fun s => s.setPd p rd ((s.regsOf p).getPd ra || (s.regsOf p).getPd rb))

/-- p.not: ra only. -/
def execPNot (p : Nat) (g : Guard) (rd ra : BitVec 3) (s : State) : Host.Outcome State Fault Refusal :=
  .next (s.issue p g (.pNot p g rd ra) [] fun s => s.setPd p rd (!(s.regsOf p).getPd ra))

/-- ad.li: ad[rd] := imm. -/
def execAdLi (p : Nat) (g : Guard) (rd : BitVec 4) (imm : BitVec 32) (s : State) : Host.Outcome State Fault Refusal :=
  .next (s.issue p g (.adLi p g rd imm) [] fun s => s.setAd p rd imm)

/-- ad.mov: ad[rd] := sc[ra]. -/
def execAdMov (p : Nat) (g : Guard) (rd : BitVec 4) (ra : BitVec 5) (s : State) : Host.Outcome State Fault Refusal :=
  .next (s.issue p g (.adMov p g rd ra) [ra.toNat] fun s => s.setAd p rd ((s.regsOf p).getSc ra))

/-- ad.add: ad[rd] := ad[ra] + imm, wrapping. -/
def execAdAdd (p : Nat) (g : Guard) (rd ra : BitVec 4) (imm : BitVec 32) (s : State) : Host.Outcome State Fault Refusal :=
  .next (s.issue p g (.adAdd p g rd ra imm) [] fun s => s.setAd p rd ((s.regsOf p).getAd ra + imm))

/-- Table 7.11: the special value an immediate names; none for the reserved ones. -/
def specialValue (s : State) (p : Nat) (imm : BitVec 32) : Option Word :=
  let n := (s.prog p).box.phases
  match imm.toNat with
  | 0 => some (BitVec.ofNat 32 s.t48)
  | 1 => some (BitVec.ofNat 32 (s.t48 / 2 ^ 32 % 65536))
  | 2 => some (BitVec.ofNat 32 (s.t48 % n))
  | 3 => some (BitVec.ofNat 32 n)
  | 4 => some (BitVec.ofNat 32 (s.ctx p).outcome)
  | _ => none

/-- sp.rd: sc[rd] := special value imm. A reserved immediate stands in no admitted program (Table 7.11: refused). -/
def execSpRd (p : Nat) (g : Guard) (rd : BitVec 5) (imm : BitVec 32) (s : State) : Host.Outcome State Fault Refusal :=
  match specialValue s p imm with
  | none => .fault .badOperand
  | some v => .next (s.issue p g (.spRd p g rd imm) [rd.toNat] fun s => s.setSc p rd v)

/-- sc.age: sc[rd] := age of the input (R37, R186). -/
def execScAge (p : Nat) (g : Guard) (rd : BitVec 5) (input : TOp) (s : State) : Host.Outcome State Fault Refusal :=
  .next (s.issue p g (.scAge p g rd input) [rd.toNat] fun s =>
    s.setSc p rd ((SMap.get {} (s.prog p).inputs input.tid.toNat).age.setWidth 32))

end Sys2Proof.Machine
end

