-- ==== Sys2Proof/Machine/Dispatch.lean ====
section
/-! DEFINITION. The meaning of each command: one arm per constructor of `Instr`, in the table's order. -/

namespace Sys2Proof.Machine
open Sys2Proof

def exec (i : Instr) (s : State) : Host.Outcome State Fault Refusal :=
  match i with
  | .timebaseLock => Sys2Proof.Machine.execTimebaseLock s
  | .gcntSaturated => Sys2Proof.Machine.execGcntSaturated s
  | .counterAlignment m value loadAt => Sys2Proof.Machine.execCounterAlignment m value loadAt s
  | .tickStart => Sys2Proof.Machine.execTickStart s
  | .tickOutPulse => Sys2Proof.Machine.execTickOutPulse s
  | .fsyncPulse n => Sys2Proof.Machine.execFsyncPulse n s
  | .guardStart => Sys2Proof.Machine.execGuardStart s
  | .tickInEdge falling => Sys2Proof.Machine.execTickInEdge falling s
  | .tickInLost => Sys2Proof.Machine.execTickInLost s
  | .holdoverRelock => Sys2Proof.Machine.execHoldoverRelock s
  | .tickRunSet => Sys2Proof.Machine.execTickRunSet s
  | .tickRunClear => Sys2Proof.Machine.execTickRunClear s
  | .gcntCapture value => Sys2Proof.Machine.execGcntCapture value s
  | .lowWordRead rq off => Sys2Proof.Machine.execLowWordRead rq off s
  | .lowWordWrite rq off value => Sys2Proof.Machine.execLowWordWrite rq off value s
  | .highWordWrite rq off value => Sys2Proof.Machine.execHighWordWrite rq off value s
  | .registerWrite rq off value => Sys2Proof.Machine.execRegisterWrite rq off value s
  | .launch mbox => Sys2Proof.Machine.execLaunch mbox s
  | .restart mbox => Sys2Proof.Machine.execRestart mbox s
  | .launchArmed mbox => Sys2Proof.Machine.execLaunchArmed mbox s
  | .loadRig mbox => Sys2Proof.Machine.execLoadRig mbox s
  | .loadProg mbox => Sys2Proof.Machine.execLoadProg mbox s
  | .unload mbox => Sys2Proof.Machine.execUnload mbox s
  | .progRemoved p => Sys2Proof.Machine.execProgRemoved p s
  | .revert mbox => Sys2Proof.Machine.execRevert mbox s
  | .rigApplied => Sys2Proof.Machine.execRigApplied s
  | .rigReverted => Sys2Proof.Machine.execRigReverted s
  | .imemCopyDone p => Sys2Proof.Machine.execImemCopyDone p s
  | .nop p g => Sys2Proof.Machine.execNop p g s
  | .li p g rd imm => Sys2Proof.Machine.execLi p g rd imm s
  | .mov p g rd ra => Sys2Proof.Machine.execMov p g rd ra s
  | .add p g rd ra b => Sys2Proof.Machine.execAdd p g rd ra b s
  | .sub p g rd ra b => Sys2Proof.Machine.execSub p g rd ra b s
  | .mul p g rd ra b => Sys2Proof.Machine.execMul p g rd ra b s
  | .and p g rd ra b => Sys2Proof.Machine.execAnd p g rd ra b s
  | .or p g rd ra b => Sys2Proof.Machine.execOr p g rd ra b s
  | .xor p g rd ra b => Sys2Proof.Machine.execXor p g rd ra b s
  | .shl p g rd ra b => Sys2Proof.Machine.execShl p g rd ra b s
  | .shr p g rd ra b => Sys2Proof.Machine.execShr p g rd ra b s
  | .sra p g rd ra b => Sys2Proof.Machine.execSra p g rd ra b s
  | .min p g rd ra b => Sys2Proof.Machine.execMin p g rd ra b s
  | .max p g rd ra b => Sys2Proof.Machine.execMax p g rd ra b s
  | .fAdd p g rd ra b => Sys2Proof.Machine.execFAdd p g rd ra b s
  | .fMul p g rd ra b => Sys2Proof.Machine.execFMul p g rd ra b s
  | .fCvtI p g rd ra => Sys2Proof.Machine.execFCvtI p g rd ra s
  | .fCvtF p g rd ra => Sys2Proof.Machine.execFCvtF p g rd ra s
  | .cmp p g rd cond ra b => Sys2Proof.Machine.execCmp p g rd cond ra b s
  | .pAnd p g rd ra rb => Sys2Proof.Machine.execPAnd p g rd ra rb s
  | .pOr p g rd ra rb => Sys2Proof.Machine.execPOr p g rd ra rb s
  | .pNot p g rd ra => Sys2Proof.Machine.execPNot p g rd ra s
  | .adLi p g rd imm => Sys2Proof.Machine.execAdLi p g rd imm s
  | .adMov p g rd ra => Sys2Proof.Machine.execAdMov p g rd ra s
  | .adAdd p g rd ra imm => Sys2Proof.Machine.execAdAdd p g rd ra imm s
  | .spRd p g rd imm => Sys2Proof.Machine.execSpRd p g rd imm s
  | .scAge p g rd input => Sys2Proof.Machine.execScAge p g rd input s
  | .br p g t => Sys2Proof.Machine.execBr p g t s
  | .brEq p g ra b t => Sys2Proof.Machine.execBrEq p g ra b t s
  | .brNe p g ra b t => Sys2Proof.Machine.execBrNe p g ra b t s
  | .brLt p g ra b t => Sys2Proof.Machine.execBrLt p g ra b t s
  | .brGe p g ra b t => Sys2Proof.Machine.execBrGe p g ra b t s
  | .brLtu p g ra b t => Sys2Proof.Machine.execBrLtu p g ra b t s
  | .brGeu p g ra b t => Sys2Proof.Machine.execBrGeu p g ra b t s
  | .brFlt p g ra b t => Sys2Proof.Machine.execBrFlt p g ra b t s
  | .brFge p g ra b t => Sys2Proof.Machine.execBrFge p g ra b t s
  | .brP p g pr t => Sys2Proof.Machine.execBrP p g pr t s
  | .mmI8 p g o => Sys2Proof.Machine.execMmI8 p g o s
  | .mmW4a8 p g o => Sys2Proof.Machine.execMmW4a8 p g o s
  | .mmC4 p g o => Sys2Proof.Machine.execMmC4 p g o s
  | .conv p g o => Sys2Proof.Machine.execConv p g o s
  | .tconv p g o => Sys2Proof.Machine.execTconv p g o s
  | .redSum p g o => Sys2Proof.Machine.execRedSum p g o s
  | .redSumsq p g o => Sys2Proof.Machine.execRedSumsq p g o s
  | .redMax p g o => Sys2Proof.Machine.execRedMax p g o s
  | .redMin p g o => Sys2Proof.Machine.execRedMin p g o s
  | .redMaxabs p g o => Sys2Proof.Machine.execRedMaxabs p g o s
  | .redNz p g o => Sys2Proof.Machine.execRedNz p g o s
  | .argmaxC p g o => Sys2Proof.Machine.execArgmaxC p g o s
  | .argminC p g o => Sys2Proof.Machine.execArgminC p g o s
  | .vopAdd p g o => Sys2Proof.Machine.execVopAdd p g o s
  | .vopSub p g o => Sys2Proof.Machine.execVopSub p g o s
  | .vopMul p g o => Sys2Proof.Machine.execVopMul p g o s
  | .vopMax p g o => Sys2Proof.Machine.execVopMax p g o s
  | .vopMin p g o => Sys2Proof.Machine.execVopMin p g o s
  | .vopAbs p g o => Sys2Proof.Machine.execVopAbs p g o s
  | .vopNeg p g o => Sys2Proof.Machine.execVopNeg p g o s
  | .vopSel p g cond o => Sys2Proof.Machine.execVopSel p g cond o s
  | .vopFma p g o => Sys2Proof.Machine.execVopFma p g o s
  | .vopCvt p g o => Sys2Proof.Machine.execVopCvt p g o s
  | .vopRcp p g o => Sys2Proof.Machine.execVopRcp p g o s
  | .vopSqrt p g o => Sys2Proof.Machine.execVopSqrt p g o s
  | .vopFtab p g o => Sys2Proof.Machine.execVopFtab p g o s
  | .vopSoftmax p g o => Sys2Proof.Machine.execVopSoftmax p g o s
  | .vopLnorm p g o => Sys2Proof.Machine.execVopLnorm p g o s
  | .vopRmsnorm p g o => Sys2Proof.Machine.execVopRmsnorm p g o s
  | .vopMaxpool p g o => Sys2Proof.Machine.execVopMaxpool p g o s
  | .vopAvgpool p g o => Sys2Proof.Machine.execVopAvgpool p g o s
  | .vopRszNear p g o => Sys2Proof.Machine.execVopRszNear p g o s
  | .vopRszBil p g o => Sys2Proof.Machine.execVopRszBil p g o s
  | .vopGather p g o => Sys2Proof.Machine.execVopGather p g o s
  | .mvStrm p g dst a count xform chansM1 tap flag => Sys2Proof.Machine.execMvStrm p g dst a count xform chansM1 tap flag s
  | .flagSet p g pkg flag count => Sys2Proof.Machine.execFlagSet p g pkg flag count s
  | .flagWait p g pkg flag count bound => Sys2Proof.Machine.execFlagWait p g pkg flag count bound s
  | .hubFlagOperation => Sys2Proof.Machine.execHubFlagOperation s
  | .flagWaitSatisfied p => Sys2Proof.Machine.execFlagWaitSatisfied p s
  | .waitTimeout p => Sys2Proof.Machine.execWaitTimeout p s
  | .tickEnd p g => Sys2Proof.Machine.execTickEnd p g s
  | .sailRun p g e mode atype flip bcast first act countM1 entry => Sys2Proof.Machine.execSailRun p g e mode atype flip bcast first act countM1 entry s
  | .sailLoad p g e c4 wt => Sys2Proof.Machine.execSailLoad p g e c4 wt s
  | .sailTld p g e weight cbk => Sys2Proof.Machine.execSailTld p g e weight cbk s
  | .sailTcp p g e weight => Sys2Proof.Machine.execSailTcp p g e weight s
  | .boomEpi p g e bias dst entry countM1 biasTid record => Sys2Proof.Machine.execBoomEpi p g e bias dst entry countM1 biasTid record s
  | .boomChout p g e entry => Sys2Proof.Machine.execBoomChout p g e entry s
  | .boomChin p g e entry => Sys2Proof.Machine.execBoomChin p g e entry s
  | .boomPre p g e src entry countM1 => Sys2Proof.Machine.execBoomPre p g e src entry countM1 s
  | .boomCnt p g rtz rd t => Sys2Proof.Machine.execBoomCnt p g rtz rd t s
  | .engineQueueStall p => Sys2Proof.Machine.execEngineQueueStall p s
  | .engineCommandStart m y q => Sys2Proof.Machine.execEngineCommandStart m y q s
  | .sailLoadComplete m y s_ => Sys2Proof.Machine.execSailLoadComplete m y s_ s
  | .scalarDelivery p => Sys2Proof.Machine.execScalarDelivery p s
  | .epochResolve p => Sys2Proof.Machine.execEpochResolve p s
  | .squashPenaltyEnd p => Sys2Proof.Machine.execSquashPenaltyEnd p s
  | .commandCompletionSet p => Sys2Proof.Machine.execCommandCompletionSet p s
  | .xtreeFlitArrival inPort outPort => Sys2Proof.Machine.execXtreeFlitArrival inPort outPort s
  | .linkReplay port away => Sys2Proof.Machine.execLinkReplay port away s
  | .xtreeLinkRetrained port ok => Sys2Proof.Machine.execXtreeLinkRetrained port ok s
  | .ratlineErr m fromHub => Sys2Proof.Machine.execRatlineErr m fromHub s
  | .landingCycle m y bank => Sys2Proof.Machine.execLandingCycle m y bank s
  | .yardInit m y => Sys2Proof.Machine.execYardInit m y s
  | .yardInitDone m y => Sys2Proof.Machine.execYardInitDone m y s
  | .yardPerfClr rq m y => Sys2Proof.Machine.execYardPerfClr rq m y s
  | .reefStatusClr rq m y => Sys2Proof.Machine.execReefStatusClr rq m y s
  | .vuStatusClr rq m y => Sys2Proof.Machine.execVuStatusClr rq m y s
  | .strmPeakClr rq engine => Sys2Proof.Machine.execStrmPeakClr rq engine s
  | .bulkDescriptorStart ch => Sys2Proof.Machine.execBulkDescriptorStart ch s
  | .streamCompletion ch rb => Sys2Proof.Machine.execStreamCompletion ch rb s
  | .bulkRecordWaitEnd ch => Sys2Proof.Machine.execBulkRecordWaitEnd ch s
  | .strmResume rq ch => Sys2Proof.Machine.execStrmResume rq ch s
  | .strmAbort rq ch => Sys2Proof.Machine.execStrmAbort rq ch s
  | .peripheralRequest line data => Sys2Proof.Machine.execPeripheralRequest line data s
  | .dattUpdate rq high => Sys2Proof.Machine.execDattUpdate rq high s
  | .cameraFrame stream fin_ data => Sys2Proof.Machine.execCameraFrame stream fin_ data s
  | .vdecWpWrite n off => Sys2Proof.Machine.execVdecWpWrite n off s
  | .vdecFrameDecoded n damaged pic used => Sys2Proof.Machine.execVdecFrameDecoded n damaged pic used s
  | .vencAccessUnit n => Sys2Proof.Machine.execVencAccessUnit n s
  | .vencRpWrite n off => Sys2Proof.Machine.execVencRpWrite n off s
  | .vencJpgTrig n => Sys2Proof.Machine.execVencJpgTrig n s
  | .jpegImageDone n => Sys2Proof.Machine.execJpegImageDone n s
  | .vencJpgRpWrite n off => Sys2Proof.Machine.execVencJpgRpWrite n off s
  | .audioBlock line samples => Sys2Proof.Machine.execAudioBlock line samples s
  | .tdmOutputFrame o => Sys2Proof.Machine.execTdmOutputFrame o s
  | .gpioEdge ball level => Sys2Proof.Machine.execGpioEdge ball level s
  | .timedOutputDue => Sys2Proof.Machine.execTimedOutputDue s
  | .timedPulseEnd ball => Sys2Proof.Machine.execTimedPulseEnd ball s
  | .gpioOutWrite value => Sys2Proof.Machine.execGpioOutWrite value s
  | .usb4Disconnect => Sys2Proof.Machine.execUsb4Disconnect s
  | .pcieTunnelLoss => Sys2Proof.Machine.execPcieTunnelLoss s
  | .hotReset => Sys2Proof.Machine.execHotReset s
  | .functionLevelReset => Sys2Proof.Machine.execFunctionLevelReset s
  | .hostLinkUp gen3 => Sys2Proof.Machine.execHostLinkUp gen3 s
  | .d3hotEntry => Sys2Proof.Machine.execD3hotEntry s
  | .d0Return => Sys2Proof.Machine.execD0Return s
  | .bar2Access off write => Sys2Proof.Machine.execBar2Access off write s
  | .queueEnable q irqEn => Sys2Proof.Machine.execQueueEnable q irqEn s
  | .queueDisable q irqEn => Sys2Proof.Machine.execQueueDisable q irqEn s
  | .irqEnableChange q irqEn => Sys2Proof.Machine.execIrqEnableChange q irqEn s
  | .doorbell q value => Sys2Proof.Machine.execDoorbell q value s
  | .resultPublish => Sys2Proof.Machine.execResultPublish s
  | .irqTimeThreshold q => Sys2Proof.Machine.execIrqTimeThreshold q s
  | .eventTaken => Sys2Proof.Machine.execEventTaken s
  | .evtLost die group => Sys2Proof.Machine.execEvtLost die group s
  | .qmDownhaul rq value => Sys2Proof.Machine.execQmDownhaul rq value s
  | .downhaulN => Sys2Proof.Machine.execDownhaulN s
  | .usb2GetStatus => Sys2Proof.Machine.execUsb2GetStatus s
  | .usb2InterruptPoll => Sys2Proof.Machine.execUsb2InterruptPoll s
  | .ethLink speed => Sys2Proof.Machine.execEthLink speed s
  | .arpRequest target => Sys2Proof.Machine.execArpRequest target s
  | .icmpv4Echo target payload => Sys2Proof.Machine.execIcmpv4Echo target payload s
  | .icmpv6Echo target payload => Sys2Proof.Machine.execIcmpv6Echo target payload s
  | .ndpMessage msg => Sys2Proof.Machine.execNdpMessage msg s
  | .dhcpv4Message msg => Sys2Proof.Machine.execDhcpv4Message msg s
  | .hmpHello src rid => Sys2Proof.Machine.execHmpHello src rid s
  | .hmpStatus src rid => Sys2Proof.Machine.execHmpStatus src rid s
  | .hmpTokenPut src rid off data => Sys2Proof.Machine.execHmpTokenPut src rid off data s
  | .hmpXferBegin src rid target size chunks h0 => Sys2Proof.Machine.execHmpXferBegin src rid target size chunks h0 s
  | .hmpXferChunk src rid index data next => Sys2Proof.Machine.execHmpXferChunk src rid index data next s
  | .hmpXferEnd src rid => Sys2Proof.Machine.execHmpXferEnd src rid s
  | .hmpActivate src rid => Sys2Proof.Machine.execHmpActivate src rid s
  | .hmpCommit src rid => Sys2Proof.Machine.execHmpCommit src rid s
  | .hmpCancel src rid => Sys2Proof.Machine.execHmpCancel src rid s
  | .hmpRevert src rid persist => Sys2Proof.Machine.execHmpRevert src rid persist s
  | .hmpDownhaul src rid => Sys2Proof.Machine.execHmpDownhaul src rid s
  | .hmpRestart src rid body => Sys2Proof.Machine.execHmpRestart src rid body s
  | .hmpSetNet src rid body => Sys2Proof.Machine.execHmpSetNet src rid body s
  | .hmpReadLog src rid off => Sys2Proof.Machine.execHmpReadLog src rid off s
  | .hmpAttest src rid nonce => Sys2Proof.Machine.execHmpAttest src rid nonce s
  | .hrSlot ch badWord => Sys2Proof.Machine.execHrSlot ch badWord s
  | .hrRetry ch fails => Sys2Proof.Machine.execHrRetry ch fails s
  | .hrChannelUp ch ok => Sys2Proof.Machine.execHrChannelUp ch ok s
  | .powerOnReset => Sys2Proof.Machine.execPowerOnReset s
  | .coldBoot => Sys2Proof.Machine.execColdBoot s
  | .mpReadyTimeout => Sys2Proof.Machine.execMpReadyTimeout s
  | .internalReset => Sys2Proof.Machine.execInternalReset s
  | .updStage => Sys2Proof.Machine.execUpdStage s
  | .updActivate => Sys2Proof.Machine.execUpdActivate s
  | .activationResume => Sys2Proof.Machine.execActivationResume s
  | .activationHandoff accepted => Sys2Proof.Machine.execActivationHandoff accepted s
  | .componentReplacement proc accepted => Sys2Proof.Machine.execComponentReplacement proc accepted s
  | .updCommit => Sys2Proof.Machine.execUpdCommit s
  | .updCancel => Sys2Proof.Machine.execUpdCancel s
  | .trialTimeout => Sys2Proof.Machine.execTrialTimeout s
  | .attestRequest => Sys2Proof.Machine.execAttestRequest s
  | .fuseRequest => Sys2Proof.Machine.execFuseRequest s
  | .nonceNew => Sys2Proof.Machine.execNonceNew s
  | .pwrSleep value => Sys2Proof.Machine.execPwrSleep value s
  | .heldSleepProceed => Sys2Proof.Machine.execHeldSleepProceed s
  | .wakeN => Sys2Proof.Machine.execWakeN s
  | .thermalSample die temp => Sys2Proof.Machine.execThermalSample die temp s
  | .pwrwarnAssert => Sys2Proof.Machine.execPwrwarnAssert s
  | .pwrwarnRelease => Sys2Proof.Machine.execPwrwarnRelease s
  | .pwrShedClr => Sys2Proof.Machine.execPwrShedClr s
  | .pwrThermClr die => Sys2Proof.Machine.execPwrThermClr die s
  | .pwrWdogKick p => Sys2Proof.Machine.execPwrWdogKick p s
  | .watchdogExpiry p => Sys2Proof.Machine.execWatchdogExpiry p s
  | .fwTrap p => Sys2Proof.Machine.execFwTrap p s
  | .fwEccError p => Sys2Proof.Machine.execFwEccError p s
  | .fwRestart p => Sys2Proof.Machine.execFwRestart p s
  | .unitOut unit => Sys2Proof.Machine.execUnitOut unit s
  | .downhaulNRelease => Sys2Proof.Machine.execDownhaulNRelease s
  | .completionTimeout ch => Sys2Proof.Machine.execCompletionTimeout ch s
  | .ethFrameDiscard why => Sys2Proof.Machine.execEthFrameDiscard why s

end Sys2Proof.Machine
end

