-- ==== Sys2Proof/Machine/Kind.lean ====
section
/-! DEFINITION. The kinds of state, and what it is for one of them to stay: the terms in which a statement says what a command leaves
alone. -/

namespace Sys2Proof.Machine

/-- The fields of State, but for the order code and the queue of commands. -/
inductive Kind where
  | gcnt | timebase | regs | was | latch | hold | mem | ecc | tick | progs | serials | yards | flags | fabric | strm | rig | events | queue
  | media | gpio | hyper | mgmt | sec | power | free
  deriving DecidableEq, Repr

/-- A kind of state is in `t` as it is in `s`. -/
def Kind.same (s t : State) : Kind → Prop
  | .gcnt => t.gcnt = s.gcnt
  | .timebase => t.timebase = s.timebase
  | .regs => t.regs = s.regs
  | .was => t.was = s.was
  | .latch => t.latch = s.latch
  | .hold => t.hold = s.hold
  | .mem => t.mem = s.mem
  | .ecc => t.ecc = s.ecc
  | .tick => t.tick = s.tick
  | .progs => t.progs = s.progs
  | .serials => t.serials = s.serials
  | .yards => t.yards = s.yards
  | .flags => t.flags = s.flags
  | .fabric => t.fabric = s.fabric
  | .strm => t.strm = s.strm
  | .rig => t.rig = s.rig
  | .events => t.events = s.events
  | .queue => t.queue = s.queue
  | .media => t.media = s.media
  | .gpio => t.gpio = s.gpio
  | .hyper => t.hyper = s.hyper
  | .mgmt => t.mgmt = s.mgmt
  | .sec => t.sec = s.sec
  | .power => t.power = s.power
  | .free => t.free = s.free

/-- Every kind of state outside a list stays. -/
def Outside (ks : List Kind) (s t : State) : Prop := ∀ k, k ∉ ks → k.same s t

end Sys2Proof.Machine
end

