-- ==== Sys2Proof/WellFormed.lean ====
section
/-! DEFINITION. The operand ranges of the commands: unit numbers within the counts of Table 0.1 and the chapters' ranges, list
lengths within the formats, and the field widths of R187 to R200 that the constructors do not fix by their types. -/

namespace Sys2Proof

/-- A requester of R15. -/
def Requester.wf : Requester → Bool
  | .ms m => decide (m < 7)
  | _ => true

/-- R190: a backward branch carries a bound from 1, a forward branch 0; no branch has displacement 0. -/
def BrTail.wf (t : BrTail) : Bool :=
  decide (t.disp ≠ 0) && (if t.disp.msb then decide (t.bound ≠ 0) else decide (t.bound = 0))

/-- R194: at most two axes are named. -/
def RedOps.wf (o : RedOps) : Bool :=
  decide ((List.range 4).countP (fun i => o.axes.getLsbD i) ≤ 2)

/-- R187, R253: program numbers run from 0 to 63. -/
def progWf (p : Nat) : Bool := decide (p < 64)

/-- Every operand lies in the range the spec gives it. -/
def Instr.wf : Instr → Bool
  | .counterAlignment m _ _ => decide (m < 7)
  | .fsyncPulse n => decide (n < 16)
  | .lowWordRead rq off | .registerWrite rq off _ => rq.wf && decide (off < 0x4000000)
  | .lowWordWrite rq off _ | .highWordWrite rq off _ => rq.wf && decide (off < 0x4000000) && decide (off % 4 = 0)
  | .launch n | .restart n | .launchArmed n | .loadRig n | .loadProg n | .unload n | .revert n => decide (n < 4)
  | .progRemoved p | .imemCopyDone p => progWf p
  | .br p _ t | .brEq p _ _ _ t | .brNe p _ _ _ t | .brLt p _ _ _ t | .brGe p _ _ _ t | .brLtu p _ _ _ t
  | .brGeu p _ _ _ t | .brFlt p _ _ _ t | .brFge p _ _ _ t | .brP p _ _ t => progWf p && t.wf
  | .spRd p _ _ imm => progWf p && decide (imm.toNat < 5)
  | .redSum p _ o | .redSumsq p _ o | .redMax p _ o | .redMin p _ o | .redMaxabs p _ o | .redNz p _ o
  | .argmaxC p _ o | .argminC p _ o => progWf p && o.wf
  | .vopSel p _ cond o => progWf p && o.imm.isNone && decide (cond ≠ .ltu) && decide (cond ≠ .geu)
  | .vopFma p _ o => progWf p && o.imm.isNone
  | .flagSet p _ pkg f c | .flagWait p _ pkg f c _ =>
    progWf p && decide (c ≠ 0) && (!pkg || decide (f.toNat < 256))
  | .engineCommandStart m y _ | .landingCycle m y _ | .yardInit m y | .yardInitDone m y => decide (m < 7) && decide (y < 8)
  | .sailLoadComplete m y n => decide (m < 7) && decide (y < 8) && decide (n < 4)
  | .yardPerfClr rq m y | .reefStatusClr rq m y | .vuStatusClr rq m y => rq.wf && decide (m < 7) && decide (y < 8)
  | .strmPeakClr rq e => rq.wf && decide (e < 8)
  | .xtreeFlitArrival i o => decide (i < 8) && decide (o < 8) && decide (i ≠ o)
  | .linkReplay n _ | .xtreeLinkRetrained n _ => decide (n < 8)
  | .ratlineErr m _ => decide (m < 7)
  | .bulkDescriptorStart c | .streamCompletion c _ | .bulkRecordWaitEnd c | .completionTimeout c => decide (c < 32)
  | .strmResume rq c | .strmAbort rq c => rq.wf && decide (c < 32)
  | .peripheralRequest l d => decide (l < 110) && decide (d.length ≤ 512) && decide (d.length % 16 = 0)
  | .cameraFrame st _ _ => decide (st < 16)
  | .vdecWpWrite n _ | .vencAccessUnit n | .vencRpWrite n _ => decide (n < 8)
  | .vdecFrameDecoded n _ _ _ => decide (n < 8)
  | .vencJpgTrig n | .jpegImageDone n | .vencJpgRpWrite n _ => decide (n < 4)
  | .audioBlock l _ => decide (80 ≤ l) && decide (l ≤ 84)
  | .tdmOutputFrame o => decide (o < 2)
  | .gpioEdge b _ | .timedPulseEnd b => decide (b < 32)
  | .queueEnable q _ | .queueDisable q _ | .irqEnableChange q _ | .doorbell q _ | .irqTimeThreshold q => decide (q < 32768)
  | .bar2Access off _ => decide (off < 0x40000000) && decide (off % 4 = 0)
  | .evtLost d g => decide (d < 8) && decide (1 ≤ g) && decide (g ≤ 10)
  | .hmpTokenPut _ _ _ d => decide (d.length ≤ 1024)
  | .hmpXferBegin _ _ _ _ _ h => decide (h.length = 48)
  | .hmpXferChunk _ _ _ d h => decide (d.length ≤ 1024) && decide (h.length = 48)
  | .hmpAttest _ _ n => decide (n.length = 32)
  | .hrSlot c w => decide (c < 8) && (match w with | some k => decide (k < 32) | none => true)
  | .hrRetry c _ | .hrChannelUp c _ => decide (c < 8)
  | .componentReplacement p _ | .pwrWdogKick p | .watchdogExpiry p | .fwTrap p | .fwEccError p | .fwRestart p =>
    decide (p < 10)
  | .thermalSample d _ | .pwrThermClr d => decide (d < 8)
  | .unitOut u => decide (u < 256)
  | .nop p _ | .li p _ _ _ | .mov p _ _ _ | .add p _ _ _ _ | .sub p _ _ _ _ | .mul p _ _ _ _ | .and p _ _ _ _ | .or p _ _ _ _
  | .xor p _ _ _ _ | .shl p _ _ _ _ | .shr p _ _ _ _ | .sra p _ _ _ _ | .min p _ _ _ _ | .max p _ _ _ _ | .fAdd p _ _ _ _
  | .fMul p _ _ _ _ | .fCvtI p _ _ _ | .fCvtF p _ _ _ | .cmp p _ _ _ _ _ | .pAnd p _ _ _ _ | .pOr p _ _ _ _ | .pNot p _ _ _
  | .adLi p _ _ _ | .adMov p _ _ _ | .adAdd p _ _ _ _ | .scAge p _ _ _ | .mmI8 p _ _ | .mmW4a8 p _ _ | .mmC4 p _ _ | .conv p _ _
  | .tconv p _ _ | .vopAdd p _ _ | .vopSub p _ _ | .vopMul p _ _ | .vopMax p _ _ | .vopMin p _ _ | .vopAbs p _ _ | .vopNeg p _ _
  | .vopCvt p _ _ | .vopRcp p _ _ | .vopSqrt p _ _ | .vopFtab p _ _ | .vopSoftmax p _ _ | .vopLnorm p _ _ | .vopRmsnorm p _ _
  | .vopMaxpool p _ _ | .vopAvgpool p _ _ | .vopRszNear p _ _ | .vopRszBil p _ _ | .vopGather p _ _ | .mvStrm p _ _ _ _ _ _ _ _
  | .flagWaitSatisfied p | .waitTimeout p | .tickEnd p _ | .sailRun p _ _ _ _ _ _ _ _ _ _ | .sailLoad p _ _ _ _ | .sailTld p _ _ _ _
  | .sailTcp p _ _ _ | .boomEpi p _ _ _ _ _ _ _ _ | .boomChout p _ _ _ | .boomChin p _ _ _ | .boomPre p _ _ _ _ _ | .boomCnt p _ _ _ _
  | .engineQueueStall p | .scalarDelivery p | .epochResolve p | .squashPenaltyEnd p | .commandCompletionSet p => progWf p
  | .timebaseLock | .gcntSaturated | .tickStart | .tickOutPulse | .guardStart | .tickInEdge _ | .tickInLost | .holdoverRelock
  | .tickRunSet | .tickRunClear | .gcntCapture _ | .rigApplied | .rigReverted | .hubFlagOperation | .dattUpdate _ _ | .timedOutputDue
  | .gpioOutWrite _ | .usb4Disconnect | .pcieTunnelLoss | .hotReset | .functionLevelReset | .hostLinkUp _ | .d3hotEntry | .d0Return
  | .resultPublish | .eventTaken | .qmDownhaul _ _ | .downhaulN | .usb2GetStatus | .usb2InterruptPoll | .ethLink _ | .arpRequest _
  | .icmpv4Echo _ _ | .icmpv6Echo _ _ | .ndpMessage _ | .dhcpv4Message _ | .hmpHello _ _ | .hmpStatus _ _ | .hmpXferEnd _ _
  | .hmpActivate _ _ | .hmpCommit _ _ | .hmpCancel _ _ | .hmpRevert _ _ _ | .hmpDownhaul _ _ | .hmpRestart _ _ _ | .hmpSetNet _ _ _
  | .hmpReadLog _ _ _ | .powerOnReset | .coldBoot | .mpReadyTimeout | .internalReset | .updStage | .updActivate | .activationResume
  | .activationHandoff _ | .updCommit | .updCancel | .trialTimeout | .attestRequest | .fuseRequest | .nonceNew | .pwrSleep _
  | .heldSleepProceed | .wakeN | .pwrwarnAssert | .pwrwarnRelease | .pwrShedClr | .downhaulNRelease | .ethFrameDiscard _ => true

end Sys2Proof
end

