-- ==== Sys2Proof/Safety.lean ====
section
/-! DEFINITION. What a safe run is, and the terms in which statements say what a command does: what stays canonical, when an instruction
issues, and what a command leaves as it was. -/

namespace Sys2Proof

/-- A Fenja instruction: the program that issues it, and its guard. -/
structure Fenja where
  prog : Nat
  guard : Guard
  deriving DecidableEq, Repr

/-- The commands that are Fenja instructions (R187). -/
def Instr.fenja : Instr → Option Fenja
  | .nop p g => some ⟨p, g⟩
  | .li p g _ _ => some ⟨p, g⟩
  | .mov p g _ _ => some ⟨p, g⟩
  | .add p g _ _ _ => some ⟨p, g⟩
  | .sub p g _ _ _ => some ⟨p, g⟩
  | .mul p g _ _ _ => some ⟨p, g⟩
  | .and p g _ _ _ => some ⟨p, g⟩
  | .or p g _ _ _ => some ⟨p, g⟩
  | .xor p g _ _ _ => some ⟨p, g⟩
  | .shl p g _ _ _ => some ⟨p, g⟩
  | .shr p g _ _ _ => some ⟨p, g⟩
  | .sra p g _ _ _ => some ⟨p, g⟩
  | .min p g _ _ _ => some ⟨p, g⟩
  | .max p g _ _ _ => some ⟨p, g⟩
  | .fAdd p g _ _ _ => some ⟨p, g⟩
  | .fMul p g _ _ _ => some ⟨p, g⟩
  | .fCvtI p g _ _ => some ⟨p, g⟩
  | .fCvtF p g _ _ => some ⟨p, g⟩
  | .cmp p g _ _ _ _ => some ⟨p, g⟩
  | .pAnd p g _ _ _ => some ⟨p, g⟩
  | .pOr p g _ _ _ => some ⟨p, g⟩
  | .pNot p g _ _ => some ⟨p, g⟩
  | .adLi p g _ _ => some ⟨p, g⟩
  | .adMov p g _ _ => some ⟨p, g⟩
  | .adAdd p g _ _ _ => some ⟨p, g⟩
  | .spRd p g _ _ => some ⟨p, g⟩
  | .scAge p g _ _ => some ⟨p, g⟩
  | .br p g _ => some ⟨p, g⟩
  | .brEq p g _ _ _ => some ⟨p, g⟩
  | .brNe p g _ _ _ => some ⟨p, g⟩
  | .brLt p g _ _ _ => some ⟨p, g⟩
  | .brGe p g _ _ _ => some ⟨p, g⟩
  | .brLtu p g _ _ _ => some ⟨p, g⟩
  | .brGeu p g _ _ _ => some ⟨p, g⟩
  | .brFlt p g _ _ _ => some ⟨p, g⟩
  | .brFge p g _ _ _ => some ⟨p, g⟩
  | .brP p g _ _ => some ⟨p, g⟩
  | .mmI8 p g _ => some ⟨p, g⟩
  | .mmW4a8 p g _ => some ⟨p, g⟩
  | .mmC4 p g _ => some ⟨p, g⟩
  | .conv p g _ => some ⟨p, g⟩
  | .tconv p g _ => some ⟨p, g⟩
  | .redSum p g _ => some ⟨p, g⟩
  | .redSumsq p g _ => some ⟨p, g⟩
  | .redMax p g _ => some ⟨p, g⟩
  | .redMin p g _ => some ⟨p, g⟩
  | .redMaxabs p g _ => some ⟨p, g⟩
  | .redNz p g _ => some ⟨p, g⟩
  | .argmaxC p g _ => some ⟨p, g⟩
  | .argminC p g _ => some ⟨p, g⟩
  | .vopAdd p g _ => some ⟨p, g⟩
  | .vopSub p g _ => some ⟨p, g⟩
  | .vopMul p g _ => some ⟨p, g⟩
  | .vopMax p g _ => some ⟨p, g⟩
  | .vopMin p g _ => some ⟨p, g⟩
  | .vopAbs p g _ => some ⟨p, g⟩
  | .vopNeg p g _ => some ⟨p, g⟩
  | .vopSel p g _ _ => some ⟨p, g⟩
  | .vopFma p g _ => some ⟨p, g⟩
  | .vopCvt p g _ => some ⟨p, g⟩
  | .vopRcp p g _ => some ⟨p, g⟩
  | .vopSqrt p g _ => some ⟨p, g⟩
  | .vopFtab p g _ => some ⟨p, g⟩
  | .vopSoftmax p g _ => some ⟨p, g⟩
  | .vopLnorm p g _ => some ⟨p, g⟩
  | .vopRmsnorm p g _ => some ⟨p, g⟩
  | .vopMaxpool p g _ => some ⟨p, g⟩
  | .vopAvgpool p g _ => some ⟨p, g⟩
  | .vopRszNear p g _ => some ⟨p, g⟩
  | .vopRszBil p g _ => some ⟨p, g⟩
  | .vopGather p g _ => some ⟨p, g⟩
  | .mvStrm p g _ _ _ _ _ _ _ => some ⟨p, g⟩
  | .flagSet p g _ _ _ => some ⟨p, g⟩
  | .flagWait p g _ _ _ _ => some ⟨p, g⟩
  | .tickEnd p g => some ⟨p, g⟩
  | .sailRun p g _ _ _ _ _ _ _ _ _ => some ⟨p, g⟩
  | .sailLoad p g _ _ _ => some ⟨p, g⟩
  | .sailTld p g _ _ _ => some ⟨p, g⟩
  | .sailTcp p g _ _ => some ⟨p, g⟩
  | .boomEpi p g _ _ _ _ _ _ _ => some ⟨p, g⟩
  | .boomChout p g _ _ => some ⟨p, g⟩
  | .boomChin p g _ _ => some ⟨p, g⟩
  | .boomPre p g _ _ _ _ => some ⟨p, g⟩
  | .boomCnt p g _ _ _ => some ⟨p, g⟩
  | _ => none

/-- A branch (R189). -/
def Instr.isBranch : Instr → Bool
  | .br .. | .brEq .. | .brNe .. | .brLt .. | .brGe .. | .brLtu .. | .brGeu .. | .brFlt .. | .brFge .. | .brP .. => true
  | _ => false

/-- The scalar registers that an instruction reads or writes (R211). -/
def Instr.scRegs : Instr → List Nat
  | .li _ _ rd _ | .spRd _ _ rd _ | .scAge _ _ rd _ | .boomCnt _ _ _ rd _ => [rd.toNat]
  | .mov _ _ rd ra | .fCvtI _ _ rd ra | .fCvtF _ _ rd ra => [rd.toNat, ra.toNat]
  | .add _ _ rd ra b | .sub _ _ rd ra b | .mul _ _ rd ra b | .and _ _ rd ra b | .or _ _ rd ra b | .xor _ _ rd ra b | .shl _ _ rd ra b
  | .shr _ _ rd ra b | .sra _ _ rd ra b | .min _ _ rd ra b | .max _ _ rd ra b | .fAdd _ _ rd ra b | .fMul _ _ rd ra b =>
    rd.toNat :: ra.toNat :: b.uses
  | .cmp _ _ _ _ ra b | .brEq _ _ ra b _ | .brNe _ _ ra b _ | .brLt _ _ ra b _ | .brGe _ _ ra b _ | .brLtu _ _ ra b _ | .brGeu _ _ ra b _
  | .brFlt _ _ ra b _ | .brFge _ _ ra b _ => ra.toNat :: b.uses
  | .adMov _ _ _ ra => [ra.toNat]
  | .redSum _ _ o | .redSumsq _ _ o | .redMax _ _ o | .redMin _ _ o | .redMaxabs _ _ o | .redNz _ _ o | .argmaxC _ _ o | .argminC _ _ o =>
    match o.dest with
    | .scalar rd => [rd.toNat]
    | _ => []
  | _ => []

/-- The kinds of state that a command can change (every other stays, whatever the state it finds). -/
def Instr.touches : Instr → List Machine.Kind
  | .timebaseLock .. => [.gcnt, .timebase]
  | .gcntSaturated .. | .hostLinkUp .. | .ethLink .. => [.regs, .events]
  | .counterAlignment .. | .tickOutPulse .. | .holdoverRelock .. => [.tick]
  | .tickStart .. =>
    [.regs, .mem, .ecc, .tick, .progs, .yards, .flags, .fabric, .strm, .events, .queue, .media, .gpio, .hyper, .power, .free]
  | .fsyncPulse .. => [.regs, .tick, .gpio]
  | .guardStart .. => [.regs, .tick, .progs, .yards, .flags, .fabric, .strm, .events, .gpio, .hyper, .power]
  | .tickInEdge .. | .tickInLost .. | .tickRunSet .. => [.regs, .tick, .events]
  | .tickRunClear .. => [.regs, .tick]
  | .gcntCapture .. | .yardPerfClr .. | .reefStatusClr .. | .vuStatusClr .. | .strmPeakClr .. | .vdecWpWrite .. | .vencRpWrite ..
  | .vencJpgRpWrite .. | .d3hotEntry .. | .d0Return .. | .pwrThermClr .. => [.regs]
  | .lowWordRead .. => [.regs, .latch, .queue, .free]
  | .lowWordWrite .. => [.regs, .hold]
  | .highWordWrite .. | .dattUpdate .. => [.regs, .hold, .mem, .ecc, .strm]
  | .registerWrite .. =>
    [.timebase, .regs, .hold, .mem, .ecc, .tick, .progs, .serials, .yards, .flags, .fabric, .strm, .rig, .events, .queue, .media, .gpio, .hyper, .mgmt, .sec, .power, .free]
  | .launch .. | .restart .. | .loadRig .. | .loadProg .. | .unload .. | .progRemoved .. | .revert .. | .rigApplied .. | .rigReverted ..
  | .imemCopyDone .. | .fwRestart .. =>
    [.regs, .mem, .ecc, .tick, .progs, .serials, .yards, .flags, .fabric, .strm, .rig, .events, .queue, .media, .gpio, .hyper, .sec, .power, .free]
  | .launchArmed .. => [.regs, .events, .queue]
  | .nop .. | .li .. | .mov .. | .add .. | .sub .. | .mul .. | .and .. | .or .. | .xor .. | .shl .. | .shr .. | .sra .. | .min ..
  | .max .. | .fAdd .. | .fMul .. | .fCvtI .. | .fCvtF .. | .cmp .. | .pAnd .. | .pOr .. | .pNot .. | .adLi .. | .adMov .. | .adAdd ..
  | .spRd .. | .scAge .. | .br .. | .brEq .. | .brNe .. | .brLt .. | .brGe .. | .brLtu .. | .brGeu .. | .brFlt .. | .brFge .. | .brP ..
  | .tickEnd .. | .scalarDelivery .. => [.regs, .progs, .events]
  | .mmI8 .. | .mmW4a8 .. | .mmC4 .. | .conv .. | .tconv .. | .redSum .. | .redSumsq .. | .redMax .. | .redMin .. | .redMaxabs ..
  | .redNz .. | .argmaxC .. | .argminC .. | .vopAdd .. | .vopSub .. | .vopMul .. | .vopMax .. | .vopMin .. | .vopAbs .. | .vopNeg ..
  | .vopSel .. | .vopFma .. | .vopCvt .. | .vopRcp .. | .vopSqrt .. | .vopFtab .. | .vopSoftmax .. | .vopLnorm .. | .vopRmsnorm ..
  | .vopMaxpool .. | .vopAvgpool .. | .vopRszNear .. | .vopRszBil .. | .vopGather .. | .mvStrm .. | .sailRun .. | .sailLoad ..
  | .sailTld .. | .sailTcp .. | .boomEpi .. | .boomChout .. | .boomChin .. | .boomPre .. | .boomCnt .. | .epochResolve .. =>
    [.regs, .progs, .yards, .events]
  | .flagSet .. | .flagWait .. | .hubFlagOperation .. | .waitTimeout .. => [.regs, .progs, .flags, .events]
  | .flagWaitSatisfied .. => [.regs, .progs]
  | .engineQueueStall .. => [.progs, .yards]
  | .engineCommandStart .. => [.regs, .mem, .ecc, .progs, .yards, .fabric, .strm, .events, .hyper, .power, .free]
  | .sailLoadComplete .. | .yardInit .. => [.regs, .yards]
  | .squashPenaltyEnd .. => [.progs]
  | .commandCompletionSet .. => [.regs, .progs, .flags, .strm]
  | .xtreeFlitArrival .. => [.regs, .mem, .ecc, .progs, .yards, .fabric, .strm, .events, .hyper, .power]
  | .linkReplay .. => [.regs, .progs, .fabric, .events, .power]
  | .xtreeLinkRetrained .. => [.fabric, .power]
  | .ratlineErr .. => [.regs, .progs, .flags, .fabric, .events, .power]
  | .landingCycle .. => [.regs, .mem, .ecc, .progs, .yards, .fabric, .events, .power]
  | .yardInitDone .. => [.regs, .mem, .ecc, .yards]
  | .bulkDescriptorStart .. | .strmResume .. => [.regs, .mem, .ecc, .progs, .yards, .fabric, .strm, .events, .queue, .hyper, .power, .free]
  | .streamCompletion .. | .bulkRecordWaitEnd .. | .strmAbort .. | .usb4Disconnect .. | .pcieTunnelLoss .. | .hotReset .. =>
    [.regs, .mem, .ecc, .strm, .events, .queue]
  | .peripheralRequest .. => [.regs, .mem, .ecc, .progs, .yards, .fabric, .strm, .events, .queue, .hyper, .power]
  | .cameraFrame .. => [.regs, .mem, .ecc, .progs, .yards, .fabric, .strm, .events, .queue, .media, .hyper, .power, .free]
  | .vdecFrameDecoded .. | .audioBlock .. => [.regs, .mem, .ecc, .progs, .yards, .fabric, .strm, .events, .queue, .media, .hyper, .power]
  | .vencAccessUnit .. | .jpegImageDone .. => [.regs, .mem, .ecc, .events, .queue, .media]
  | .vencJpgTrig .. => [.regs, .media]
  | .tdmOutputFrame .. => [.regs, .strm, .events, .media]
  | .gpioEdge .. => [.regs, .mem, .ecc, .progs, .yards, .fabric, .strm, .events, .queue, .gpio, .hyper, .power]
  | .timedOutputDue .. | .timedPulseEnd .. | .gpioOutWrite .. => [.regs, .gpio]
  | .functionLevelReset .. => [.regs, .mem, .ecc, .progs, .yards, .flags, .fabric, .strm, .events, .queue, .gpio, .hyper]
  | .bar2Access .. => [.regs, .mem, .ecc, .progs, .yards, .fabric, .events, .queue, .hyper, .power]
  | .queueEnable .. | .queueDisable .. | .irqEnableChange .. | .resultPublish .. | .eventTaken .. => [.regs, .mem, .ecc, .events, .queue]
  | .doorbell .. => [.regs, .mem, .ecc, .events]
  | .irqTimeThreshold .. | .usb2GetStatus .. | .usb2InterruptPoll .. => [.queue]
  | .evtLost .. => [.events]
  | .qmDownhaul .. => [.regs, .progs, .yards, .flags, .fabric, .strm, .events, .queue, .gpio, .hyper]
  | .downhaulN .. => [.regs, .progs, .yards, .flags, .fabric, .strm, .events, .queue, .gpio, .hyper, .power]
  | .arpRequest .. | .icmpv4Echo .. | .icmpv6Echo .. => [.mgmt]
  | .ndpMessage .. | .dhcpv4Message .. | .hmpStatus .. | .ethFrameDiscard .. => [.regs, .mgmt]
  | .hmpHello .. => [.regs, .mgmt, .free]
  | .hmpTokenPut .. | .hmpReadLog .. => [.regs, .events, .mgmt, .free]
  | .hmpXferBegin .. | .trialTimeout .. => [.regs, .events, .mgmt, .sec, .free]
  | .hmpXferChunk .. => [.regs, .events, .mgmt]
  | .hmpXferEnd .. | .hmpRevert .. | .hmpRestart .. | .watchdogExpiry .. | .fwTrap .. | .fwEccError .. =>
    [.regs, .mem, .ecc, .tick, .progs, .serials, .yards, .flags, .fabric, .strm, .rig, .events, .queue, .media, .gpio, .hyper, .mgmt, .sec, .power, .free]
  | .hmpActivate .. | .hmpCommit .. | .hmpCancel .. | .hmpAttest .. | .updStage .. | .updActivate .. | .updCommit .. | .updCancel .. =>
    [.regs, .mem, .ecc, .progs, .yards, .flags, .fabric, .strm, .events, .queue, .hyper, .mgmt, .sec, .free]
  | .hmpDownhaul .. => [.regs, .progs, .yards, .flags, .fabric, .strm, .events, .queue, .gpio, .hyper, .mgmt]
  | .hmpSetNet .. => [.regs, .events, .mgmt, .sec]
  | .hrSlot .. => [.regs, .mem, .ecc, .progs, .fabric, .events, .hyper]
  | .hrRetry .. => [.regs, .progs, .fabric, .events, .hyper]
  | .hrChannelUp .. => [.regs, .mem, .ecc, .progs, .strm, .events, .queue, .hyper, .power]
  | .powerOnReset .. | .internalReset .. | .wakeN .. =>
    [.gcnt, .timebase, .regs, .was, .latch, .hold, .mem, .ecc, .tick, .progs, .serials, .yards, .flags, .fabric, .strm, .rig, .events, .queue, .media, .gpio, .hyper, .mgmt, .sec, .power, .free]
  | .coldBoot .. =>
    [.timebase, .regs, .mem, .ecc, .tick, .progs, .yards, .flags, .fabric, .strm, .rig, .events, .queue, .media, .gpio, .hyper, .sec, .power, .free]
  | .mpReadyTimeout .. => [.regs, .sec, .power]
  | .activationResume .. => [.regs, .sec]
  | .activationHandoff .. | .componentReplacement .. => [.regs, .mem, .ecc, .events, .mgmt, .sec, .free]
  | .attestRequest .. => [.regs, .mem, .ecc, .progs, .yards, .fabric, .events, .hyper, .sec, .power]
  | .fuseRequest .. => [.regs, .mem, .ecc, .progs, .yards, .flags, .fabric, .strm, .events, .queue, .hyper, .sec, .free]
  | .nonceNew .. => [.regs, .free]
  | .pwrSleep .. | .heldSleepProceed .. => [.timebase, .regs, .mem, .ecc, .tick, .strm, .events, .queue, .gpio, .sec, .power]
  | .thermalSample .. => [.timebase, .regs, .tick, .events, .gpio, .sec, .power]
  | .pwrwarnAssert .. => [.regs, .tick, .events, .sec]
  | .pwrwarnRelease .. => [.regs, .events, .sec]
  | .pwrShedClr .. => [.regs, .mem, .ecc, .yards, .media, .power]
  | .pwrWdogKick .. => [.power]
  | .unitOut .. => [.regs, .mem, .ecc, .progs, .yards, .flags, .fabric, .strm, .events, .queue, .hyper, .power]
  | .downhaulNRelease .. => [.regs, .power]
  | .completionTimeout .. => [.regs, .strm]

end Sys2Proof

namespace Sys2Proof.Machine

/-! ### Canonical form -/

/-- Memory is in canonical form: addresses strictly rising, no byte listed that reads as an unlisted one. -/
def Memory.wf (s : State) : Bool := SMap.wf 0 s.mem && SMap.wf 0 s.ecc

/-- Registers are in canonical form. -/
def Registers.wf (s : State) : Bool := SMap.wf 0 s.regs

/-- The outcome is a next state. -/
def answers (o : Host.Outcome State Fault Refusal) (t : State) : Prop := o = .next t

/-! ### Issue -/

/-- The state in which an instruction of program `p` takes effect: a wrong bit of its word has been corrected and counted (R208), it is no
longer held back, and the cycle is used. -/
def State.issued (s : State) (p : Nat) : State := (s.imemCorrect p).unblock p

/-- Program `p` issues instruction `i` and `i` takes effect: its context issues, the instruction word is sound (R208), no scalar register it
reads or writes is pending (R211), and its predicate is on (R187). -/
structure Issues (s : State) (p : Nat) (g : Guard) (i : Instr) : Prop where
  can : s.canIssue p i = true
  sound : s.fetchEcc p ≠ 2
  ready : i.scRegs.any (s.ctx p).pendingReg = false
  on : g.on (s.regsOf p) = true

/-! ### What stays as it was -/

/-- Nothing but the context of program `p` changes: every other program, every byte and every register stays. -/
structure OnlyCtx (s t : State) (p : Nat) : Prop where
  outside : Outside [.progs] s t
  others : ∀ q, q ≠ p → t.prog q = s.prog q
  record : t.prog p = { s.prog p with ctx := t.ctx p }
  bytes : ∀ a, t.byte a = s.byte a
  regs : ∀ r, t.reg r = s.reg r

/-- Of the context of program `p` only its registers and its instruction index change, and the index goes on by one. -/
structure Passes (s t : State) (p : Nat) : Prop where
  only : OnlyCtx s t p
  ctx : t.ctx p = { s.ctx p with regs := t.regsOf p, idx := (s.ctx p).idx + 1 }

/-- sc[rd] takes `v`; every other register of the program stays. -/
structure WritesSc (s t : State) (p : Nat) (rd : BitVec 5) (v : Word) : Prop where
  passes : Passes s t p
  value : (t.regsOf p).getSc rd = v
  scalars : ∀ r, r ≠ rd → (t.regsOf p).getSc r = (s.regsOf p).getSc r
  addresses : ∀ r, (t.regsOf p).getAd r = (s.regsOf p).getAd r
  predicates : ∀ r, (t.regsOf p).getPd r = (s.regsOf p).getPd r

/-- ad[rd] takes `v`, but ad0 reads zero and discards writes; every other register of the program stays. -/
structure WritesAd (s t : State) (p : Nat) (rd : BitVec 4) (v : Word) : Prop where
  passes : Passes s t p
  value : (t.regsOf p).getAd rd = if rd = 0 then 0 else v
  scalars : ∀ r, (t.regsOf p).getSc r = (s.regsOf p).getSc r
  addresses : ∀ r, r ≠ rd → (t.regsOf p).getAd r = (s.regsOf p).getAd r
  predicates : ∀ r, (t.regsOf p).getPd r = (s.regsOf p).getPd r

/-- pd[rd] takes `v`, but pd0 reads 1 and discards writes; every other register of the program stays. -/
structure WritesPd (s t : State) (p : Nat) (rd : BitVec 3) (v : Bool) : Prop where
  passes : Passes s t p
  value : (t.regsOf p).getPd rd = if rd = 0 then true else v
  scalars : ∀ r, (t.regsOf p).getSc r = (s.regsOf p).getSc r
  addresses : ∀ r, (t.regsOf p).getAd r = (s.regsOf p).getAd r
  predicates : ∀ r, r ≠ rd → (t.regsOf p).getPd r = (s.regsOf p).getPd r

/-- Nothing but registers of a list changes. -/
structure OnlyRegs (s t : State) (rs : List RegId) : Prop where
  outside : Outside [.regs] s t
  others : ∀ r, r ∉ rs → t.reg r = s.reg r

/-- Field [lo + w − 1 : lo] of register `r` takes `x`; its other bits, every other register and the rest of the state stay. -/
structure SetsField (s t : State) (r : RegId) (lo w x : Nat) : Prop where
  only : OnlyRegs s t [r]
  value : t.get r lo w = x
  bits : ∀ n, n < lo ∨ lo + w ≤ n → bit (t.reg r) n = bit (s.reg r) n

/-- An access of a requester reaches the registers, in state `u`: the host's through a BAR while the tunnel is up and the function is in D0,
which wakes its link (R324, R328); a processor's while it runs. -/
def Enters (rq : Requester) (s u : State) : Prop :=
  match rq with
  | .host => s.hostUp = true ∧ u = s.hostTouch
  | .sp => s.up 0 = true ∧ u = s
  | .mp => s.up 1 = true ∧ u = s
  | .tp => s.up 2 = true ∧ u = s
  | .ms m => (m < s.part.masts ∧ s.up (3 + m) = true) ∧ u = s

/-- A write of mailbox `n`'s doorbell reaches it, in state `u`: the host writes 0 and 1, the MP 2 and 3 (R262). -/
def EntersMbox (n : Nat) (s u : State) : Prop :=
  (n < 2 ∧ s.hostUp = true ∧ u = s.hostTouch) ∨ (2 ≤ n ∧ n < 4 ∧ s.up 1 = true ∧ u = s)

/-- The requests of a load mailbox, with their command codes (Table 9.7). -/
def mailboxCommands : List ((Nat → Instr) × Nat) :=
  [(.loadRig, 1), (.loadProg, 2), (.launch, 3), (.unload, 4), (.revert, 5), (.restart, 6)]

/-- Mailbox `n` has been answered with a refusal for `reason` (Table 9.8). -/
structure Refused (t : State) (n reason : Nat) : Prop where
  idle : t.mboxBusy n = false
  done : t.get (rid .admMboxStat n) 1 1 = 1
  status : t.get (rid .admMboxResp n 0) 8 8 = 1
  reason : t.get (rid .admMboxResp n 1) 0 8 = reason

/-- The request of mailbox `n` is accepted, and is the one in hand (R254, R255). -/
def taken (u : State) (n : Nat) : State :=
  ((u.put (rid .admMboxStat n) 0 1 1).joinLoads n).put (rid .admTpStat) 0 1 1

/-- The registers whose writes do more than their access codes say: commands of their own stand for them. -/
def ownRows : List RegName :=
  [.gcntCapture, .tickCtrl, .yardPerfClr, .yardInit, .reefStatus, .vuStatus, .admMboxDb, .strmPeak, .strmChCtrl, .vdecSesWp, .vencSesRp, .vencJpgTrig,
   .vencJpgRp, .gpioOut, .qmDownhaul, .secUpdDb, .secNonceNew, .secAttDb, .secFuseDb, .pwrTherm, .pwrShedClr, .pwrSleep, .pwrWdogKick]

/-- An access of a requester reaches a register whose clear bits count for the host, the MP and the TP (R106, R171): the host's while its
tunnel is up. -/
def Reaches (rq : Requester) (s : State) : Prop := rq = .mp ∨ rq = .tp ∨ rq = .host ∧ s.hostUp = true

/-- Every byte stays but those of `n` bytes from address `a`. -/
def BytesBut (s t : State) (a n : Nat) : Prop := ∀ b, b < a ∨ a + n ≤ b → t.byte b = s.byte b

/-! ### The scalar class and branches -/

/-- A two-operand scalar operation `mk` writes `f` of its operands into sc[rd]. -/
def ScalarOp (mk : Nat → Guard → BitVec 5 → BitVec 5 → Operand → Instr) (f : Word → Word → Word) : Prop :=
  ∀ (p : Nat) (g : Guard) (rd ra : BitVec 5) (b : Operand) (s : State), Issues s p g (mk p g rd ra b) →
    ∃ t, exec (mk p g rd ra b) s = .next t ∧
      WritesSc (s.issued p) t p rd (f ((s.regsOf p).getSc ra) (b.value (s.regsOf p)))

/-- Where a taken branch leads from index `i` (R189). -/
def branchTarget (t : BrTail) (i : Nat) : Nat := ((i : Int) + t.disp.toInt).toNat

/-- A branch resolves: not taken it passes; taken it goes on at its own index plus disp, and a backward one counts. -/
def BranchResolves (i : Instr) (p : Nat) (g : Guard) (t : BrTail) (taken : State → Bool) : Prop :=
  ∀ s : State, Issues s p g i → ∃ u, exec i s = .next u ∧
    (taken s = false → OnlyCtx (s.issued p) u p ∧ u.ctx p = { (s.issued p).ctx p with idx := (s.ctx p).idx + 1 }) ∧
    (taken s = true → 0 ≤ t.disp.toInt → OnlyCtx (s.issued p) u p ∧
      u.ctx p = { (s.issued p).ctx p with idx := branchTarget t (s.ctx p).idx }) ∧
    (taken s = true → t.disp.toInt < 0 → SMap.get 0 (s.ctx p).taken (s.ctx p).idx < t.bound.toNat → OnlyCtx (s.issued p) u p ∧
      SMap.get 0 (u.ctx p).taken (s.ctx p).idx = SMap.get 0 (s.ctx p).taken (s.ctx p).idx + 1 ∧
      (∀ j, j ≠ (s.ctx p).idx → SMap.get 0 (u.ctx p).taken j = SMap.get 0 (s.ctx p).taken j) ∧
      u.ctx p = { (s.issued p).ctx p with taken := (u.ctx p).taken, idx := branchTarget t (s.ctx p).idx })

/-- A backward branch that would be taken once more than its bound, with no epoch open, stops its context (R190). -/
def LoopStops (i : Instr) (p : Nat) (g : Guard) (t : BrTail) (taken : State → Bool) : Prop :=
  ∀ s : State, Issues s p g i → taken s = true → t.disp.toInt < 0 → (s.ctx p).epochs = [] →
    t.bound.toNat ≤ SMap.get 0 (s.ctx p).taken (s.ctx p).idx →
    ∃ u, exec i s = .next u ∧ u.events.last = 0x0310 ∧ (u.ctx p).run = .stopped ∧ (u.ctx p).idx = (s.ctx p).idx ∧
      (u.ctx p).conds.getLsbD 4 = true ∧ (∀ j, u.canIssue p j = false) ∧ (∀ a, u.byte a = s.byte a) ∧ u.regsOf p = s.regsOf p

/-- The branches that test registers (R189). -/
def registerBranches : List ((Nat → Guard → BitVec 5 → Operand → BrTail → Instr) × Cond) :=
  [(.brEq, .eq), (.brNe, .ne), (.brLt, .lt), (.brGe, .ge), (.brLtu, .ltu), (.brGeu, .geu), (.brFlt, .flt), (.brFge, .fge)]

/-- A property of every branch, with the condition under which it is taken. -/
def EachBranch (P : Instr → Nat → Guard → BrTail → (State → Bool) → Prop) : Prop :=
  (∀ p g t, P (.br p g t) p g t fun _ => true) ∧
  (∀ p g pr t, P (.brP p g pr t) p g t fun s => (s.regsOf p).getPd pr) ∧
  ∀ m ∈ registerBranches, ∀ p g ra b t, P (m.1 p g ra b t) p g t fun s => m.2.holds ((s.regsOf p).getSc ra) (b.value (s.regsOf p))

/-! ### Kernels (R183, R191) -/

/-- The kernel that an instruction issues, from the registers read at issue. -/
def kernelOf : Instr → Option (ProgRegs → Kernel)
  | .mmI8 _ _ o => some (MatOps.kernel o .i8)
  | .mmW4a8 _ _ o => some (MatOps.kernel o .w4a8)
  | .mmC4 _ _ o => some (MatOps.kernel o .c4)
  | .conv _ _ o => some (MatOps.convKernel o false)
  | .tconv _ _ o => some (MatOps.convKernel o true)
  | .redSum _ _ o => some (RedOps.kernel o 0)
  | .redSumsq _ _ o => some (RedOps.kernel o 1)
  | .redMax _ _ o => some (RedOps.kernel o 2)
  | .redMin _ _ o => some (RedOps.kernel o 3)
  | .redMaxabs _ _ o => some (RedOps.kernel o 4)
  | .redNz _ _ o => some (RedOps.kernel o 5)
  | .argmaxC _ _ o => some (RedOps.kernel o 6)
  | .argminC _ _ o => some (RedOps.kernel o 7)
  | .vopAdd _ _ o => some (VecOps.kernel o 0 .eq)
  | .vopSub _ _ o => some (VecOps.kernel o 1 .eq)
  | .vopMul _ _ o => some (VecOps.kernel o 2 .eq)
  | .vopMax _ _ o => some (VecOps.kernel o 3 .eq)
  | .vopMin _ _ o => some (VecOps.kernel o 4 .eq)
  | .vopAbs _ _ o => some (VecOps.kernel o 5 .eq)
  | .vopNeg _ _ o => some (VecOps.kernel o 6 .eq)
  | .vopSel _ _ c o => some (VecOps.kernel o 7 c)
  | .vopFma _ _ o => some (VecOps.kernel o 8 .eq)
  | .vopCvt _ _ o => some (VecOps.kernel o 9 .eq)
  | .vopRcp _ _ o => some (VecOps.kernel o 10 .eq)
  | .vopSqrt _ _ o => some (VecOps.kernel o 11 .eq)
  | .vopFtab _ _ o => some (VecOps.kernel o 12 .eq)
  | .vopSoftmax _ _ o => some (VecOps.kernel o 13 .eq)
  | .vopLnorm _ _ o => some (VecOps.kernel o 14 .eq)
  | .vopRmsnorm _ _ o => some (VecOps.kernel o 15 .eq)
  | .vopMaxpool _ _ o => some (VecOps.kernel o 16 .eq)
  | .vopAvgpool _ _ o => some (VecOps.kernel o 17 .eq)
  | .vopRszNear _ _ o => some (VecOps.kernel o 18 .eq)
  | .vopRszBil _ _ o => some (VecOps.kernel o 19 .eq)
  | .vopGather _ _ o => some (VecOps.kernel o 20 .eq)
  | .mvStrm _ _ dst a count xform chansM1 tap flag =>
    some fun r => .strm (dst.slice r) (a.slice r) count.toNat xform.toNat (chansM1.toNat + 1) tap flag.toNat
  | .boomCnt _ _ rtz rd t => some fun r => .boomCnt rtz rd.toNat (t.slice r)
  | _ => none

/-- What computed rows store: an address and bytes for each. -/
def rowStores (v : View) (rows : List (Nat × List Nat × Tally)) : List (Nat × List Byte) :=
  rows.map fun r => (v.rowAddr r.1, packRow (typeBits v.t.type) r.2.1)

/-- What a kernel of program `p` stores under `spec` epochs, in order, read from state `u`. A stream stores as it runs; a derivation of
scales stores no byte. -/
def Kernel.stores (u : State) (p spec : Nat) (k : Kernel) : List (Nat × List Byte) :=
  let g := u.prog p
  match k with
  | .mat _ d a b c bias count rec =>
    rowStores (g.view d true) (matRows u g (g.view d true) (g.view a false) (g.view b false) (g.view c false) bias count rec)
  | .conv false d a b c bias count rec =>
    rowStores (g.view d true) (convRows u g (g.view d true) (g.view a false) (g.view b false) (g.view c false) bias count rec)
  | .conv true d a b c bias count rec =>
    rowStores (g.view d true) (tconvRows u g (g.view d true) (g.view a false) (g.view b false) (g.view c false) bias count rec)
  | .vec op cond d a b c imm count rec =>
    rowStores (g.viewAt d true spec)
      (vecRows u g op cond (g.viewAt d true spec) (g.viewAt a false spec) (g.viewAt b false spec) (g.viewAt c false spec) imm count rec)
  | .red op d a b dest group axes valueOut count =>
    if 6 ≤ op then
      let res := argResults u g (g.view a false) op count
      let vb := g.view b true
      (if valueOut then rowStores vb (layRows vb count (res.map fun r => (argValue (g.view a false).t vb.t r.2.1, {}))) else []) ++
        (match dest with
         | .scalar _ => []
         | _ => rowStores (g.view d true) (layRows (g.view d true) count (res.map fun r => (r.1, {}))))
    else match dest with
      | .tensor => rowStores (g.view d true) (layRows (g.view d true) count
          ((redElements u g (g.view a false) (g.view d true) op dest group axes count).map fun r => (r, {})))
      | _ => []
  | .strm .. | .boomCnt .. => []

/-- Storing in order. -/
def storeAll (s : State) (l : List (Nat × List Byte)) : State := l.foldl (fun u r => u.poke r.1 r.2) s

/-- R402: the image in the update slot reads records of the schema that the running image writes. -/
def State.schemaRead (s : State) : Bool :=
  let h := s.slotImage true
  decide (leAt h 0x14 2 ≤ s.sec.runHo % 65536) && decide (s.sec.runHo % 65536 ≤ leAt h 0x16 2)

/-- The state from which a kernel at the head of a queue computes: it has left its queue, its accesses have passed the tripwires (R118 to
R123), and a run-ahead half that it is the first to write is open (R227). -/
def kernelAt (s : State) (m y : Nat) (q : UnitQ) (c : EngCmd) (rest : List EngCmd) (k : Kernel) : State :=
  let h := s.takeHead m y q c rest
  let u := h.1.tripChecks c.prog c.spec c.seq k h.2
  match k with
  | .vec _ _ d _ _ _ _ _ _ => u.openShadow c.prog d.tid c.spec
  | _ => u

/-- A kernel at the head of a queue has run: memory holds what it stores, and every byte outside that reads as before; every program's
registers, index and epochs stand. -/
structure KernelRan (s t : State) (m y : Nat) (q : UnitQ) (c : EngCmd) (rest : List EngCmd) (k : Kernel) : Prop where
  stored : ∀ a, t.byte a = (storeAll (kernelAt s m y q c rest k) (Kernel.stores (kernelAt s m y q c rest k) c.prog c.spec k)).byte a
  before : c.spec = 0 → ∀ a, (kernelAt s m y q c rest k).byte a = s.byte a
  frame : c.spec = 0 → ∀ a, (∀ r ∈ Kernel.stores (kernelAt s m y q c rest k) c.prog c.spec k, a < r.1 ∨ r.1 + r.2.length ≤ a) →
    t.byte a = s.byte a
  stands : ∀ p, t.regsOf p = s.regsOf p ∧ (t.ctx p).idx = (s.ctx p).idx ∧ (t.ctx p).epochs = (s.ctx p).epochs

/-- What an engine instruction puts into a queue: the virtual yard, the unit, and the command from the registers read at issue. -/
structure EngineCmd where
  vyard : Nat
  unit : UnitQ
  op : ProgRegs → EngOp

/-- The commands of the engine class (R199). -/
def engineCmd : Instr → Option EngineCmd
  | .sailRun _ _ e mode atype flip bcast first act countM1 entry =>
    some ⟨e.vyard.toNat, .sail e.sail.toNat, fun r =>
      .run mode atype.toNat flip bcast first (act.slice r) (countM1.toNat + 1) entry.toNat⟩
  | .sailLoad _ _ e c4 wt => some ⟨e.vyard.toNat, .sail e.sail.toNat, fun r => .load c4 (wt.slice r)⟩
  | .sailTld _ _ e weight cbk => some ⟨e.vyard.toNat, .sail e.sail.toNat, fun _ => .tld weight cbk.toNat⟩
  | .sailTcp _ _ e weight => some ⟨e.vyard.toNat, .sail e.sail.toNat, fun _ => .tcp weight⟩
  | .boomEpi _ _ e bias dst entry countM1 biasTid record =>
    some ⟨e.vyard.toNat, .boom e.sail.toNat, fun r =>
      .epi bias (dst.slice r) entry.toNat (countM1.toNat + 1) biasTid.toNat record.toNat⟩
  | .boomChout _ _ e entry => some ⟨e.vyard.toNat, .boom e.sail.toNat, fun _ => .chout entry.toNat⟩
  | .boomChin _ _ e entry => some ⟨e.vyard.toNat, .boom e.sail.toNat, fun _ => .chin entry.toNat⟩
  | .boomPre _ _ e src entry countM1 =>
    some ⟨e.vyard.toNat, .boom e.sail.toNat, fun r => .pre (src.slice r) entry.toNat (countM1.toNat + 1)⟩
  | _ => none

/-- The engine class (R199). -/
def engineOf : Instr → Bool
  | .sailRun .. | .sailLoad .. | .sailTld .. | .sailTcp .. | .boomEpi .. | .boomChout .. | .boomChin .. | .boomPre .. => true
  | _ => false

/-- The queue that an instruction's command enters, and the command, from the registers read at issue (R199, R203, R209); none of an engine
instruction whose virtual yard the program does not have. -/
def entersQueue (s : State) (p : Nat) (i : Instr) : Option (Nat × Nat × UnitQ × EngOp) :=
  match kernelOf i, engineCmd i with
  | some k, _ =>
    let q := s.kernelQueue p (s.depth p) (k (s.regsOf p))
    some (q.1, q.2.1, q.2.2, .kernel (k (s.regsOf p)))
  | none, some c => (s.physYard p c.vyard).map fun q => (q.1, q.2, c.unit, c.op (s.regsOf p))
  | none, none => none

/-- The command `x.2.2.2` of program `p` is the last of its queue; issue goes on at the next instruction, and the register that the command
delivers into is pending. -/
structure Queued (s t : State) (p : Nat) (x : Nat × Nat × UnitQ × EngOp) : Prop where
  queue : t.queueOf x.1 x.2.1 x.2.2.1 = s.queueOf x.1 x.2.1 x.2.2.1 ++ [⟨x.2.2.2, p, s.depth p, (s.ctx p).seq⟩]
  queues : ∀ m y q, 8 * m + y ≠ 8 * x.1 + x.2.1 ∨ unitCode q ≠ unitCode x.2.2.1 → t.queueOf m y q = s.queueOf m y q
  ctx : t.ctx p = { s.ctx p with seq := (s.ctx p).seq + 1, idx := (s.ctx p).idx + 1
                                 dels := (s.ctx p).dels ++ x.2.2.2.dest.toList.map fun r => ⟨r, 0, none, (s.ctx p).seq, none, s.depth p⟩ }
  outside : Outside [.progs, .yards] s t
  others : ∀ q, q ≠ p → t.prog q = s.prog q

/-- The instructions that no epoch lets issue (R224). -/
def firmOf : Instr → Bool
  | .flagSet .. | .flagWait .. | .tickEnd .. => true
  | _ => false

/-! ### The management port -/

/-- The Halyard messages (Table 12.11). -/
def hmpOf : Instr → Bool
  | .hmpHello .. | .hmpStatus .. | .hmpTokenPut .. | .hmpXferBegin .. | .hmpXferChunk .. | .hmpXferEnd .. | .hmpActivate .. | .hmpCommit ..
  | .hmpCancel .. | .hmpRevert .. | .hmpDownhaul .. | .hmpRestart .. | .hmpSetNet .. | .hmpReadLog .. | .hmpAttest .. => true
  | _ => false

/-- A datagram is heard, in state `u`: the stack runs, and fewer than 2,000 have come in the second (R352). -/
def Hears (s u : State) : Prop :=
  s.netOn = true ∧ s.netSecond.mgmt.rate < 2000 ∧
    u = { s.netSecond with mgmt := { s.netSecond.mgmt with rate := s.netSecond.mgmt.rate + 1 } }

/-- The reply last sent answers request `r` of operation `op` with a status (Table 12.11). -/
def Answers (t : State) (op : Nat) (r : BitVec 32) (status : Nat) : Prop := ∃ body, t.mgmt.reply = [State.hmpMsg op r status body]

/-- The messages that take a permission and nothing else first, with operation and permission (Table 12.12). -/
def hmpCommands : List ((NetAddr → BitVec 32 → Instr) × Nat × Nat) :=
  [(.hmpActivate, 0x20, 2), (.hmpCommit, 0x21, 3), (.hmpCancel, 0x22, 4), (.hmpDownhaul, 0x24, 6)]

/-- The update mailbox holds a response, and no request (R405). -/
structure UpdAnswer (t : State) (status code : Nat) : Prop where
  status : t.get (rid .secUpdResp) 0 8 = status
  code : t.get (rid .secUpdResp) 8 8 = code
  idle : bit (t.reg (rid .secUpdStat)) 4 = false
  done : bit (t.reg (rid .secUpdStat)) 5 = true

/-- The requests of the host's update mailbox, with their command codes (R405). -/
def updateCommands : List (Instr × Nat) := [(.updStage, 1), (.updActivate, 2), (.updCommit, 3), (.updCancel, 4)]

end Sys2Proof.Machine
end

