-- ==== Sys2Proof/Certificates/Slice0/Obligations.lean ====
section
/-! DEFINITION. What the model claims: one proposition per obligation. -/

open Sys2Proof Sys2Proof.Machine

/-! ### The machine -/

/-- The host's form of a block: a step executes the command at the front of the queue on the state with the queue's rest. -/
def Obligations.StepRunsFront : Prop :=
  ∀ (c : Instr) (rest : List Instr) (s : State), step { s with pending := c :: rest } = exec c { s with pending := rest }

/-- Log entry 2 (the model's choice): on an empty queue time goes on: what is still to come of the nanosecond in hand, cycle 0 of a tick that
has just started or the streams' part of a cycle, takes place first; then the next nanosecond comes: the counter advances by one while the
timebase runs, and stands at its largest value (R27, R57). The order code never changes. -/
def Obligations.IdleNanosecond : Prop :=
  ∀ s : State, s.pending = [] → ∃ t, step s = .next t ∧ t.part = s.part ∧
    (s.tick.fresh = true ∨ s.tick.trail = true ∧ s.strm.ticks ≠ [] → t.gcnt = s.gcnt) ∧
    (s.tick.fresh = false → s.tick.trail = false ∨ s.strm.ticks = [] →
      (s.timebase = false → t.gcnt = s.gcnt) ∧
      (s.timebase = true → s.gcnt ≠ BitVec.allOnes 64 → t.gcnt = s.gcnt + 1) ∧
      (s.timebase = true → s.gcnt = BitVec.allOnes 64 → t.gcnt = s.gcnt))

/-- R14: what reset leaves: the generator stopped, no program admitted, no event, no queue of commands, memory with nothing listed, and
the registers that a rule gives a value. -/
def Obligations.ResetValues : Prop :=
  State.reset.tick.phase = .stopped ∧ State.reset.anyAdmitted = false ∧ State.reset.pending = [] ∧ State.reset.mem = [] ∧
    State.reset.timebase = false ∧ State.reset.power.life = .booting ∧ State.reset.fwRuns 1 = true ∧
    (∀ r, State.reset.reg r = resetVal State.reset.part r) ∧ Memory.wf State.reset = true ∧ Registers.wf State.reset = true

/-- From every state whose memory and registers are canonical, a step that answers leads to such a state, of the same order code. -/
def Obligations.StepKeepsCanonical : Prop :=
  ∀ s t : State, Memory.wf s = true → Registers.wf s = true → step s = .next t →
    Memory.wf t = true ∧ Registers.wf t = true ∧ t.part = s.part

/-- Every command but sp.rd answers a next state whatever the state, and so does sp.rd with an immediate that Table 7.11 gives a value;
only time adds to the queue: no command changes it.

The frame of every command: it changes at most the kinds of state that `Instr.touches` lists for it, never the order code or the queue;
so a command that does not list memory leaves every byte as it was, and one that does not list registers every register. -/
def Obligations.CommandsAnswer : Prop :=
  (∀ (i : Instr) (s : State), i.wf = true → ∃ t, exec i s = .next t ∧ t.pending = s.pending) ∧
  (∀ (i : Instr) (s t : State), exec i s = .next t → Outside i.touches s t ∧ t.part = s.part ∧ t.pending = s.pending ∧
     (Kind.mem ∉ i.touches → ∀ a, t.byte a = s.byte a) ∧ (Kind.regs ∉ i.touches → ∀ r, t.reg r = s.reg r) ∧
     (Kind.progs ∉ i.touches → ∀ p, t.prog p = s.prog p))

/-! ### Issue -/

/-- R202, R204, R212: a context that does not issue (it waits, has ended its tick, stands outside a work window, the cycle is not its own, it has
issued in it …) issues nothing. An instruction that takes effect uses its context's cycle.

R187: an instruction whose predicate is off does nothing but pass: an instruction that was held back is no longer.

R211: an instruction other than a branch that reads or writes a pending register stalls: it is held back as it stands, and nothing but
the context's own record of that changes, and the count of a corrected word (R208); one already held back stays so.

R208: a fetch that meets an uncorrectable instruction word stops the context for the tick with INVALID_FAULT; memory and the program's
registers stay. A word with one bit wrong is corrected, and counted when it is first fetched: nothing else comes of it.

Table 7.11: sp.rd with a reserved immediate stands in no admitted program; it is the one command that stops. -/
def Obligations.InstructionsHeld : Prop :=
  ((∀ (i : Instr) (f : Fenja) (s : State), i.wf = true → i.fenja = some f → s.canIssue f.prog i = false → exec i s = .next s) ∧
   (∀ (p : Nat) (i : Instr) (s : State), (s.ownsCycle p = false ∨ s.inWork = false ∨ (s.ctx p).ended = true ∨ (s.ctx p).active = false ∨
      (s.ctx p).wait ≠ none ∨ (s.ctx p).stalled ≠ none ∨ (s.ctx p).resumeAt ≠ none → s.canIssue p i = false) ∧
      (s.issued p).canIssue p i = false)) ∧
  (∀ (i : Instr) (f : Fenja) (s : State), i.wf = true → i.fenja = some f → s.canIssue f.prog i = true → s.fetchEcc f.prog ≠ 2 →
     i.scRegs.any (s.ctx f.prog).pendingReg = false → f.guard.on (s.regsOf f.prog) = false →
     ∃ t, exec i s = .next t ∧ OnlyCtx (s.issued f.prog) t f.prog ∧
       t.ctx f.prog = { (s.issued f.prog).ctx f.prog with idx := (s.ctx f.prog).idx + 1 } ∧ t.regsOf f.prog = s.regsOf f.prog) ∧
  (∀ (i : Instr) (f : Fenja) (s : State), i.wf = true → i.fenja = some f → i.isBranch = false → s.canIssue f.prog i = true →
     s.fetchEcc f.prog ≠ 2 → i.scRegs.any (s.ctx f.prog).pendingReg = true →
     ∃ t, exec i s = .next t ∧ OnlyCtx (s.imemCorrect f.prog) t f.prog ∧ (t.ctx f.prog).blocked = some i ∧
       (t.ctx f.prog).idx = (s.ctx f.prog).idx ∧ t.regsOf f.prog = s.regsOf f.prog ∧
       ((s.ctx f.prog).blocked = none → (t.ctx f.prog).run = .stalled) ∧ ((s.ctx f.prog).blocked = some i → t = s)) ∧
  ((∀ (i : Instr) (f : Fenja) (s : State), i.wf = true → i.fenja = some f → s.canIssue f.prog i = true → s.fetchEcc f.prog = 2 →
     ∃ t, exec i s = .next t ∧ (t.ctx f.prog).run = .stopped ∧ (t.ctx f.prog).conds.getLsbD 4 = true ∧
       bit (t.reg (mreg .ccImemStat (s.firstMast f.prog))) 1 = true ∧ t.events.last = 0x0303 ∧ t.regsOf f.prog = s.regsOf f.prog ∧
       ∀ a, t.byte a = s.byte a) ∧
   (∀ (p : Nat) (s : State), (s.fetchEcc p = 1 → (s.ctx p).blocked = none →
       bit ((s.issued p).reg (mreg .ccImemStat (s.firstMast p))) 0 = true ∧
       (s.issued p).get (mreg .ccImemCeCnt (s.firstMast p)) 0 32 = min (s.get (mreg .ccImemCeCnt (s.firstMast p)) 0 32 + 1) 0xFFFFFFFF) ∧
     (∀ r, r ≠ mreg .ccImemStat (s.firstMast p) → r ≠ mreg .ccImemCeCnt (s.firstMast p) → (s.issued p).reg r = s.reg r) ∧
     (s.fetchEcc p = 0 → ∀ r, (s.issued p).reg r = s.reg r) ∧ (∀ a, (s.issued p).byte a = s.byte a) ∧ (s.issued p).regsOf p = s.regsOf p)) ∧
  (∀ (p : Nat) (g : Guard) (rd : BitVec 5) (imm : BitVec 32) (s : State), 5 ≤ imm.toNat → exec (.spRd p g rd imm) s = .fault .badOperand)

/-! ### The scalar class -/

/-- Table 7.13: integer arithmetic on 32 bits, wrapping; shifts by bits [4:0]; min and max signed; li and mov; nop does nothing. -/
def Obligations.ScalarInteger : Prop :=
  ScalarOp .add (fun x y => x + y) ∧ ScalarOp .sub (fun x y => x - y) ∧ ScalarOp .mul (fun x y => x * y) ∧
  ScalarOp .and (fun x y => x &&& y) ∧ ScalarOp .or (fun x y => x ||| y) ∧ ScalarOp .xor (fun x y => x ^^^ y) ∧
  ScalarOp .shl (fun x y => x <<< (y.toNat % 32)) ∧ ScalarOp .shr (fun x y => x >>> (y.toNat % 32)) ∧
  ScalarOp .sra (fun x y => x.sshiftRight (y.toNat % 32)) ∧
  ScalarOp .min (fun x y => if x.toInt ≤ y.toInt then x else y) ∧ ScalarOp .max (fun x y => if x.toInt ≤ y.toInt then y else x) ∧
  (∀ p g rd imm s, Issues s p g (.li p g rd imm) → ∃ t, exec (.li p g rd imm) s = .next t ∧ WritesSc (s.issued p) t p rd imm) ∧
  (∀ p g rd ra s, Issues s p g (.mov p g rd ra) →
    ∃ t, exec (.mov p g rd ra) s = .next t ∧ WritesSc (s.issued p) t p rd ((s.regsOf p).getSc ra)) ∧
  (∀ p g s, Issues s p g (.nop p g) →
    ∃ t, exec (.nop p g) s = .next t ∧ Passes (s.issued p) t p ∧ t.regsOf p = s.regsOf p)

/-- Table 7.13: f.add and f.mul round once to nearest even with subnormals flushed, a NaN operand gives 0x7FC0_0000 and overflow
±0x7F7F_FFFF; f.cvt.i gives 0 for NaN and saturates; f.cvt.f rounds to nearest even.

Table 7.13: the sum or product of two finite operands is finite: overflow gives ±0x7F7F_FFFF. -/
def Obligations.ScalarFloat : Prop :=
  (ScalarOp .fAdd (fun x y => if Fp.isNan x || Fp.isNan y then 0x7FC00000 else scalarFp Fp.addRne x y) ∧
   ScalarOp .fMul (fun x y => if Fp.isNan x || Fp.isNan y then 0x7FC00000 else scalarFp Fp.mulRne x y) ∧
   (∀ p g rd ra s, Issues s p g (.fCvtI p g rd ra) → ∃ t, exec (.fCvtI p g rd ra) s = .next t ∧
     WritesSc (s.issued p) t p rd (let x := (s.regsOf p).getSc ra
       if Fp.isNan x then 0 else BitVec.ofInt 32 (Fp.toIntSat (-2147483648) 2147483647 (Fp.flush x)).1)) ∧
   (∀ p g rd ra s, Issues s p g (.fCvtF p g rd ra) →
     ∃ t, exec (.fCvtF p g rd ra) s = .next t ∧ WritesSc (s.issued p) t p rd (Fp.ofInt ((s.regsOf p).getSc ra).toInt))) ∧
  (∀ x y : Word, Fp.isFinite x = true → Fp.isFinite y = true →
     Fp.isFinite (scalarFp Fp.addRne x y) = true ∧ Fp.isFinite (scalarFp Fp.mulRne x y) = true)

/-- Table 7.13, Table 7.10: compares and predicate logic write one predicate; pd0 reads 1 and discards writes.

Table 7.14: the conditions, on whole numbers and on FP32, where a comparison with NaN is false but ne. -/
def Obligations.PredicateOps : Prop :=
  ((∀ p g rd c ra b s, Issues s p g (.cmp p g rd c ra b) → ∃ t, exec (.cmp p g rd c ra b) s = .next t ∧
     WritesPd (s.issued p) t p rd (c.holds ((s.regsOf p).getSc ra) (b.value (s.regsOf p)))) ∧
   (∀ p g rd ra rb s, Issues s p g (.pAnd p g rd ra rb) → ∃ t, exec (.pAnd p g rd ra rb) s = .next t ∧
     WritesPd (s.issued p) t p rd ((s.regsOf p).getPd ra && (s.regsOf p).getPd rb)) ∧
   (∀ p g rd ra rb s, Issues s p g (.pOr p g rd ra rb) → ∃ t, exec (.pOr p g rd ra rb) s = .next t ∧
     WritesPd (s.issued p) t p rd ((s.regsOf p).getPd ra || (s.regsOf p).getPd rb)) ∧
   (∀ p g rd ra s, Issues s p g (.pNot p g rd ra) → ∃ t, exec (.pNot p g rd ra) s = .next t ∧
     WritesPd (s.issued p) t p rd (!(s.regsOf p).getPd ra))) ∧
  (∀ a b : Word,
     (Cond.holds .eq a b = true ↔ a = b) ∧ (Cond.holds .ne a b = true ↔ a ≠ b) ∧
     (Cond.holds .lt a b = true ↔ a.toInt < b.toInt) ∧ (Cond.holds .ge a b = true ↔ b.toInt ≤ a.toInt) ∧
     (Cond.holds .ltu a b = true ↔ a.toNat < b.toNat) ∧ (Cond.holds .geu a b = true ↔ b.toNat ≤ a.toNat) ∧
     (Fp.isNan a = true ∨ Fp.isNan b = true → Cond.holds .flt a b = false ∧ Cond.holds .fge a b = false) ∧
     (Fp.isNan a = false → Fp.isNan b = false → (Cond.holds .fge a b = true ↔ Cond.holds .flt a b = false)) ∧
     Cond.holds .flt 0x80000000 0 = false ∧ Cond.holds .fge 0x80000000 0 = true)

/-- Table 7.13, Table 7.10: ad.li, ad.mov and ad.add, wrapping; ad0 reads zero and discards writes.

R186, Table 7.11: sp.rd returns the named value, sc.age the age count of its input. -/
def Obligations.AddressOps : Prop :=
  ((∀ p g rd imm s, Issues s p g (.adLi p g rd imm) → ∃ t, exec (.adLi p g rd imm) s = .next t ∧ WritesAd (s.issued p) t p rd imm) ∧
   (∀ p g rd ra s, Issues s p g (.adMov p g rd ra) → ∃ t, exec (.adMov p g rd ra) s = .next t ∧
     WritesAd (s.issued p) t p rd ((s.regsOf p).getSc ra)) ∧
   (∀ p g rd ra imm s, Issues s p g (.adAdd p g rd ra imm) → ∃ t, exec (.adAdd p g rd ra imm) s = .next t ∧
     WritesAd (s.issued p) t p rd ((s.regsOf p).getAd ra + imm))) ∧
  ((∀ p g rd (imm : BitVec 32) s, Issues s p g (.spRd p g rd imm) → imm.toNat < 5 → ∃ t, exec (.spRd p g rd imm) s = .next t ∧
     WritesSc (s.issued p) t p rd (BitVec.ofNat 32 (
       if imm = 0 then s.t48 else if imm = 1 then s.t48 / 2 ^ 32 % 65536 else if imm = 2 then s.t48 % (s.prog p).box.phases
       else if imm = 3 then (s.prog p).box.phases else (s.ctx p).outcome))) ∧
   (∀ p g rd (input : TOp) s, Issues s p g (.scAge p g rd input) → ∃ t, exec (.scAge p g rd input) s = .next t ∧
     WritesSc (s.issued p) t p rd ((SMap.get {} (s.prog p).inputs input.tid.toNat).age.setWidth 32)))

/-! ### Branches -/

/-- R189: a branch whose registers are not pending resolves at once: not taken, issue goes on at the next index; taken, at its own index
plus disp, and a backward branch counts each time it is taken.

R190: a backward branch taken for the (bound + 1)th time, with no epoch open, raises LOOP_BOUND, is not taken, and the context issues
nothing further; the tick gives INVALID_FAULT. -/
def Obligations.Branches : Prop :=
  (EachBranch BranchResolves) ∧
  (EachBranch LoopStops)

/-- R223: a branch on a pending register opens an epoch where the allowance has a branch left: the registers are kept, and issue goes on on
the expected path.

R229: an epoch whose branch went the other way squashes: the registers and loop counters are those kept at its branch, no command that it
held is left in the queues of the program's yards, no byte changes, and issue resumes 25 cycles later on the other path.

R228: the outermost epoch whose branch went as expected commits: the registers and the index stay, and the commands that it held are held
by it no longer. R230: an inner one merges into the outer. -/
def Obligations.RunAhead : Prop :=
  (∀ m ∈ registerBranches, ∀ (p : Nat) (g : Guard) (ra : BitVec 5) (b : Operand) (t : BrTail) (s : State),
     s.canIssue p (m.1 p g ra b t) = true → s.fetchEcc p ≠ 2 → g.on (s.regsOf p) = true →
     (ra.toNat :: b.uses).any (s.ctx p).pendingReg = true → s.depth p < (s.prog p).place.raBranches →
     (0 ≤ t.disp.toInt ∨ t.expect = false ∨ SMap.get 0 (s.ctx p).taken (s.ctx p).idx < t.bound.toNat) →
     ∃ u, exec (m.1 p g ra b t) s = .next u ∧ u.depth p = s.depth p + 1 ∧ u.regsOf p = s.regsOf p ∧
       (∃ e, (u.ctx p).epochs = e :: (s.ctx p).epochs ∧ e.regs = s.regsOf p ∧ e.taken = (s.ctx p).taken) ∧
       (u.ctx p).idx = (if t.expect then branchTarget t (s.ctx p).idx else (s.ctx p).idx + 1) ∧ OnlyCtx (s.issued p) u p) ∧
  (∀ (p : Nat) (e : Epoch) (x y : Word) (s : State), (s.ctx p).epochs = [e] → e.a = .imm x → e.b = .imm y → e.cond.holds x y ≠ e.expect →
     (e.expect = true ∨ 0 ≤ e.disp) →
     ∃ t, exec (.epochResolve p) s = .next t ∧ t.depth p = 0 ∧ t.regsOf p = e.regs ∧ (t.ctx p).taken = e.taken ∧
       (t.ctx p).idx = (if e.expect then e.idx + 1 else (e.idx + e.disp).toNat) ∧ (t.ctx p).resumeAt = some (s.afterCycles 25) ∧
       (∀ i, t.canIssue p i = false) ∧ (∀ a, t.byte a = s.byte a) ∧ (∀ d ∈ (t.ctx p).dels, d ∈ (s.ctx p).dels ∧ d.spec = 0) ∧
       (∀ y ∈ (s.prog p).place.yards, ∀ q, ∀ c ∈ t.queueOf (y / 8) (y % 8) q, c.prog = p → c.spec = 0) ∧ ∀ q, q ≠ p → t.prog q = s.prog q) ∧
  ((∀ (p : Nat) (e : Epoch) (x y : Word) (s : State), (s.ctx p).epochs = [e] → e.a = .imm x → e.b = .imm y → e.cond.holds x y = e.expect →
     ∃ t, exec (.epochResolve p) s = .next t ∧ t.depth p = 0 ∧ t.regsOf p = s.regsOf p ∧ (t.ctx p).idx = (s.ctx p).idx ∧
       (∀ a, t.byte a = s.byte a) ∧ (∀ q, q ≠ p → t.regsOf q = s.regsOf q) ∧
       ∀ y ∈ (s.prog p).place.yards, ∀ q, (∀ c ∈ s.queueOf (y / 8) (y % 8) q, c.prog = p → c.spec ≤ 1) →
         ∀ c ∈ t.queueOf (y / 8) (y % 8) q, c.prog = p → c.spec = 0) ∧
   (∀ (p : Nat) (e f : Epoch) (x y : Word) (r : BitVec 5) (s : State), (s.ctx p).epochs = [e, f] → f.a = .reg r → e.a = .imm x →
     e.b = .imm y → e.cond.holds x y = e.expect →
     ∃ t, exec (.epochResolve p) s = .next t ∧ t.regsOf p = s.regsOf p ∧ (t.ctx p).idx = (s.ctx p).idx ∧ (∀ a, t.byte a = s.byte a) ∧
       (t.ctx p).epochs = [{ f with cmds := f.cmds + e.cmds, merged := f.merged + 1 + e.merged }]) ∧
   (∀ (p : Nat) (s : State), (s.ctx p).epochs = [] → exec (.epochResolve p) s = .next s))

/-! ### Kernels -/

/-- R183, R191, R199, R209: a command of the matrix, convolution, reduction, vector or engine classes, mv.strm or boom.cnt (mm.i8, mm.w4a8,
mm.c4, conv, tconv, red.sum, red.sumsq, red.max, red.min, red.maxabs, red.nz, argmax.c, argmin.c, every vop, mv.strm, boom.cnt, sail.run,
sail.load, sail.tld, sail.tcp, boom.epi, boom.chout, boom.chin, boom.pre) that issues, with no epoch open or with allowance left, enters its
unit's queue behind what waits there: issue goes on, the register it delivers into is pending, and nothing else changes. R223: it counts
against the allowance of the innermost epoch.

R209: a kernel at the head of its queue that may start runs: it stores its rows, in order, and no other byte changes; no register, index or
epoch of any program changes. (That a kernel stores all it stores as it starts is the model's choice: log entry 50.) -/
def Obligations.KernelsRun : Prop :=
  (∀ (i : Instr) (f : Fenja) (u s : State) (x : Nat × Nat × UnitQ × EngOp), i.fenja = some f → Issues s f.prog f.guard i →
     s.depth f.prog = 0 ∨ s.specCmds f.prog < (s.prog f.prog).place.raCmds → u = (s.issued f.prog).countCmd f.prog →
     entersQueue u f.prog i = some x → u.queueRoom x.1 x.2.1 x.2.2.1 = true → ∃ t, exec i s = .next t ∧ Queued u t f.prog x) ∧
  (∀ (m y : Nat) (q : UnitQ) (c : EngCmd) (rest : List EngCmd) (k : Kernel) (s : State), s.queueOf m y q = c :: rest → c.op = .kernel k →
     s.canStart m y q c = true → ∃ t, exec (.engineCommandStart m y q) s = .next t ∧ KernelRan s t m y q c rest k)

/-- R223 to R225, Table 8.3: a command that issues under an open epoch counts against its allowance and nothing else of the epochs changes. At
the head of its queue an epoch holds a run that flips, boom.chout, boom.chin, and every kernel but a vector kernel; a load, a table load or
copy, a preload and a run that does not flip are not held.

R224: under an open epoch whose allowance of commands is spent an engine command or kernel is held back, and so is every flag
instruction and tick.end; nothing else changes but the count of a corrected word (R208). -/
def Obligations.KernelsHeld : Prop :=
  ((∀ (p : Nat) (e : Epoch) (es : List Epoch) (s : State), (s.ctx p).epochs = e :: es →
      OnlyCtx s (s.countCmd p) p ∧ (s.countCmd p).ctx p = { s.ctx p with epochs := { e with cmds := e.cmds + 1 } :: es }) ∧
   (∀ (m y : Nat) (q : UnitQ) (c : EngCmd) (rest : List EngCmd) (s : State), s.queueOf m y q = c :: rest → c.spec ≠ 0 →
      (match c.op with
        | .run _ _ flip _ _ _ _ _ => flip = true
        | .chout _ | .chin _ | .kernel (.mat ..) | .kernel (.conv ..) | .kernel (.red ..) | .kernel (.strm ..) | .kernel (.boomCnt ..) => True
        | _ => False) →
      ∃ t, exec (.engineCommandStart m y q) s = .next t ∧ t.queueOf m y q = c :: rest ∧ Outside [.regs] s t) ∧
   (∀ (c : EngCmd) (s : State), (match c.op with
        | .run _ _ flip _ _ _ _ _ => flip = false
        | .load .. | .tld .. | .tcp .. | .pre .. => True
        | _ => c.spec = 0) → s.released c = true)) ∧
  (∀ (i : Instr) (f : Fenja) (s : State), i.fenja = some f → Issues s f.prog f.guard i → s.depth f.prog ≠ 0 →
     ((s.prog f.prog).place.raCmds ≤ s.specCmds f.prog ∧ ((kernelOf i).isSome = true ∨ engineOf i = true) ∨ firmOf i = true) →
     ∃ t, exec i s = .next t ∧ OnlyCtx (s.imemCorrect f.prog) t f.prog ∧ (t.ctx f.prog).blocked = some i ∧
       (t.ctx f.prog).idx = (s.ctx f.prog).idx ∧ (t.ctx f.prog).epochs = (s.ctx f.prog).epochs ∧ t.regsOf f.prog = s.regsOf f.prog)

/-- R160, R80: a reduction into a scalar register that starts puts its one result on its way to the register that its issue made pending: it
arrives 40 cycles after the read of the last element, in the register of its yard (R171). boom.cnt reaches its register 20 cycles after it
starts, with the count of its tensor over the program's yards of its first mast, held within 32 bits.

R160: a delivery whose instant has come writes its register, also in every checkpoint, and no other register; R229: the squash penalty
ends at its instant. Neither comes early. -/
def Obligations.ScalarDeliveries : Prop :=
  ((∀ (m y : Nat) (c : EngCmd) (rest : List EngCmd) (op : Nat) (dst a b : Slice) (rd : BitVec 5) (gr ax : Nat) (vo : Bool) (count : Nat)
      (s : State), s.queueOf m y .reef = c :: rest → c.op = .kernel (.red op dst a b (.scalar rd) gr ax vo count) →
      s.canStart m y .reef c = true →
      let u := kernelAt s m y .reef c rest (.red op dst a b (.scalar rd) gr ax vo count)
      let va := (u.prog c.prog).view a false
      let busy := State.reefCycles va op count (if 6 ≤ op then [] else
        redGroups va (.scalar rd) (redGroupSize ((u.prog c.prog).view dst true) (.scalar rd) gr) ax count)
      ∃ t v, exec (.engineCommandStart m y .reef) s = .next t ∧
        (t.ctx c.prog).dels = (s.ctx c.prog).dels.map fun d => if d.seq = c.seq then
          { d with value := v, due := some (u.afterCycles (busy - 1 + 40))
                   reef := some (8 * (u.homeOf c.prog va.base).1 + (u.homeOf c.prog va.base).2) } else d) ∧
   (∀ (m y n : Nat) (c : EngCmd) (rest : List EngCmd) (rtz : Bool) (rd : Nat) (o : Slice) (s : State), s.queueOf m y (.boom n) = c :: rest →
      c.op = .kernel (.boomCnt rtz rd o) → s.canStart m y (.boom n) c = true →
      let u := kernelAt s m y (.boom n) c rest (.boomCnt rtz rd o)
      let counts := ((u.prog c.prog).place.yards.filter fun q => decide (q / 8 = u.firstMast c.prog)).map fun q =>
        u.get (yreg (if rtz then .boomCntRtz else .boomCntSat) (u.firstMast c.prog) (q % 8) (((u.prog c.prog).counterSlot o.tid).getD 0)) 0 32
      ∃ t, exec (.engineCommandStart m y (.boom n)) s = .next t ∧
        (t.ctx c.prog).dels = (s.ctx c.prog).dels.map fun d => if d.seq = c.seq then
          { d with value := BitVec.ofNat 32 (min (counts.foldl (· + ·) 0) 0xFFFFFFFF), due := some (u.afterCycles 20), reef := none } else d)) ∧
  ((∀ (p : Nat) (d : Delivery) (ds : List Delivery) (at_ : Nat) (s : State), (s.ctx p).dels = d :: ds → d.due = some at_ → at_ ≤ s.now →
     (∀ e ∈ ds, e.reg ≠ d.reg) →
     ∃ t, exec (.scalarDelivery p) s = .next t ∧ (t.ctx p).dels = ds ∧
       (∀ r, (t.regsOf p).getSc r = if r = BitVec.ofNat 5 d.reg then d.value else (s.regsOf p).getSc r) ∧
       (∀ r, (t.regsOf p).getAd r = (s.regsOf p).getAd r) ∧ (∀ r, (t.regsOf p).getPd r = (s.regsOf p).getPd r) ∧
       (∀ e ∈ (t.ctx p).epochs, e.regs.getSc (BitVec.ofNat 5 d.reg) = d.value) ∧ (t.ctx p).idx = (s.ctx p).idx ∧
       (∀ q, q ≠ p → t.prog q = s.prog q) ∧ ∀ a, t.byte a = s.byte a) ∧
   (∀ (p : Nat) (s : State), (∀ d ∈ (s.ctx p).dels, ∀ at_, d.due = some at_ → s.now < at_) → exec (.scalarDelivery p) s = .next s) ∧
   (∀ (p at_ : Nat) (s : State), (s.ctx p).resumeAt = some at_ → at_ ≤ s.now →
     ∃ t, exec (.squashPenaltyEnd p) s = .next t ∧ OnlyCtx s t p ∧ t.ctx p = { s.ctx p with resumeAt := none }) ∧
   (∀ (p : Nat) (s : State), (∀ at_, (s.ctx p).resumeAt = some at_ → s.now < at_) → exec (.squashPenaltyEnd p) s = .next s))

/-! ### Flags and the end of a tick -/

/-- R214, R215: flag.set with no epoch open puts one set on its way: a local one changes its flag two cycles after issue, a package one
travels to the hub. No flag changes yet, and issue goes on at the next index.

R135: the hub sums all sets of a cycle to a package flag, to at most 0xFFFF, and then serves the waits: one that finds its count in
time takes it and is granted three cycles later; one that does not stays at the hub. -/
def Obligations.FlagSets : Prop :=
  (∀ (p : Nat) (g : Guard) (pkg : Bool) (flag : BitVec 10) (count : BitVec 16) (s : State),
     Issues s p g (.flagSet p g pkg flag count) → s.depth p = 0 →
     ∃ t, exec (.flagSet p g pkg flag count) s = .next t ∧ (∀ r, t.reg r = (s.issued p).reg r) ∧
       t.ctx p = { (s.issued p).ctx p with idx := (s.ctx p).idx + 1 } ∧ (∀ q, q ≠ p → t.prog q = s.prog q) ∧ t.flags.pkg = s.flags.pkg ∧
       (pkg = false → t.flags.hub = s.flags.hub ∧ t.flags.localSets = s.flags.localSets ++
         (s.localFlag p flag.toNat).toList.map fun q => (q.1, q.2, count.toNat, p, s.afterCycles 2)) ∧
       (pkg = true → t.flags.localSets = s.flags.localSets ∧ t.flags.hub = s.flags.hub ++
         [⟨true, flag.toNat, count.toNat, p, s.firstMast p, s.slotOn p (s.firstMast p), s.afterCycles 2⟩])) ∧
  ((∀ s : State, s.flags.hubWaits = [] → (∀ o ∈ s.flags.hub, o.isSet = false → s.now < o.reach) →
     ∃ t, exec .hubFlagOperation s = .next t ∧ t.flags.hub = (s.flags.hub.filter fun o => decide (s.now < o.reach)) ∧ t.flags.hubWaits = [] ∧
       ∀ f, t.hubVal f = min (s.hubVal f +
         ((s.flags.hub.filter fun o => decide (o.flag = f ∧ o.reach ≤ s.now)).map HubOp.count).sum) 0xFFFF) ∧
   (∀ (o : HubOp) (w : Wait) (s : State), s.flags.hubWaits = [o] → (∀ x ∈ s.flags.hub, s.now < x.reach) → (s.ctx o.prog).wait = some w →
     ∃ t, exec .hubFlagOperation s = .next t ∧ (∀ f, f ≠ o.flag → t.hubVal f = s.hubVal f) ∧
       (o.count ≤ s.hubVal o.flag → s.afterCycles 3 < w.expiry → t.hubVal o.flag = s.hubVal o.flag - o.count ∧
         (t.ctx o.prog).wait = some { w with grant := some (s.afterCycles 3) } ∧ t.flags.hubWaits = []) ∧
       (s.hubVal o.flag < o.count → t.hubVal o.flag = s.hubVal o.flag ∧ t.flags.hubWaits = [o] ∧ ∀ q, t.prog q = s.prog q)))

/-- R214, R215, R218: flag.wait with no epoch open makes its context wait, until its bound (five cycles more for a package flag) or, with
bound 0, the end of the work window; a package wait travels to the hub, and a local one that finds its count at once takes it and is over.
R198: after tick.end the context issues nothing more.

R214: a local wait is satisfied in a cycle in which its flag holds the count, before its bound: the flag goes down by the count, and
issue goes on in the next cycle. R215: a package wait ends when its grant arrives. Otherwise nothing changes.

R218: a wait whose bound has passed unsatisfied: FLAG_TIMEOUT, the tick's INVALID_FAULT, and the context issues nothing more; a wait
that has been granted, or whose bound has not passed, does not expire. -/
def Obligations.ContextsWait : Prop :=
  ((∀ (p : Nat) (g : Guard) (pkg : Bool) (flag : BitVec 10) (count : BitVec 16) (bound : BitVec 32) (s : State),
     Issues s p g (.flagWait p g pkg flag count bound) → s.depth p = 0 →
     let expiry := if bound.toNat = 0 then s.guardTime else s.afterCycles (bound.toNat + if pkg then 5 else 0)
     (pkg = true ∨ (∀ q, s.localFlag p flag.toNat = some q → s.flagVal q.1 q.2 < count.toNat ∨ expiry ≤ s.now) →
       ∃ t w, exec (.flagWait p g pkg flag count bound) s = .next t ∧ (t.ctx p).wait = some w ∧ w.pkg = pkg ∧ w.flag = flag.toNat ∧
         w.count = count.toNat ∧ w.grant = none ∧ w.expiry = expiry ∧
         (t.ctx p).run = .waiting ∧ (t.ctx p).idx = (s.ctx p).idx ∧ (∀ i, t.canIssue p i = false) ∧ t.regsOf p = s.regsOf p ∧
         (∀ r, t.reg r = (s.issued p).reg r) ∧ t.flags.hub = s.flags.hub ++ (if pkg then
           [⟨false, flag.toNat, count.toNat, p, s.firstMast p, s.slotOn p (s.firstMast p), s.afterCycles 2⟩] else [])) ∧
     (∀ q, pkg = false → s.localFlag p flag.toNat = some q → count.toNat ≤ s.flagVal q.1 q.2 → s.now < expiry →
       ∃ t, exec (.flagWait p g pkg flag count bound) s = .next t ∧ (t.ctx p).wait = none ∧ (t.ctx p).idx = (s.ctx p).idx + 1 ∧
         (t.ctx p).run = .issuing ∧ t.flagVal q.1 q.2 = s.flagVal q.1 q.2 - count.toNat ∧ t.regsOf p = s.regsOf p ∧
         (∀ r, r ≠ mreg .flagLocal q.1 q.2 → t.reg r = (s.issued p).reg r) ∧ ∀ q, q ≠ p → t.prog q = s.prog q)) ∧
   (∀ (p : Nat) (g : Guard) (s : State), Issues s p g (.tickEnd p g) → s.depth p = 0 →
     ∃ t, exec (.tickEnd p g) s = .next t ∧ OnlyCtx (s.issued p) t p ∧ t.ctx p = { (s.issued p).ctx p with ended := true } ∧
       ∀ i, t.canIssue p i = false)) ∧
  ((∀ (p : Nat) (w : Wait) (m n : Nat) (s : State), (s.ctx p).wait = some w → w.pkg = false → s.localFlag p w.flag = some (m, n) →
     w.count ≤ s.flagVal m n → s.now < w.expiry → ∃ t, exec (.flagWaitSatisfied p) s = .next t ∧
       t.flagVal m n = s.flagVal m n - w.count ∧ (∀ r, r ≠ mreg .flagLocal m n → t.reg r = s.reg r) ∧ (∀ q, q ≠ p → t.prog q = s.prog q) ∧
       t.ctx p = { s.ctx p with wait := none, run := .issuing, idx := (s.ctx p).idx + 1, late := (s.ctx p).late + (s.cycle - w.planned)
                                ready := s.cycle + 1 }) ∧
   (∀ (p : Nat) (w : Wait) (at_ : Nat) (s : State), (s.ctx p).wait = some w → w.pkg = true → w.grant = some at_ → at_ ≤ s.now →
     ∃ t, exec (.flagWaitSatisfied p) s = .next t ∧ OnlyCtx s t p ∧ t.ctx p = { s.ctx p with
       wait := none, run := .issuing, idx := (s.ctx p).idx + 1, late := (s.ctx p).late + (s.cycle - 3 - w.planned), ready := s.cycle + 1 }) ∧
   (∀ (p : Nat) (s : State), (∀ w, (s.ctx p).wait = some w → if w.pkg then ∀ at_, w.grant = some at_ → s.now < at_ else
       w.expiry ≤ s.now ∨ ∀ q, s.localFlag p w.flag = some q → s.flagVal q.1 q.2 < w.count) →
     exec (.flagWaitSatisfied p) s = .next s)) ∧
  ((∀ (p : Nat) (w : Wait) (s : State), (s.ctx p).wait = some w → w.grant = none → w.expiry ≤ s.now →
     ∃ t, exec (.waitTimeout p) s = .next t ∧ (t.ctx p).wait = none ∧ (t.ctx p).run = .stopped ∧ (t.ctx p).idx = (s.ctx p).idx ∧
       (t.ctx p).conds.getLsbD 4 = true ∧ t.events.last = 0x0301 ∧ bit (t.reg (mreg .flagStatus (s.firstMast p))) 1 = true ∧
       (∀ i, t.canIssue p i = false) ∧ t.regsOf p = s.regsOf p ∧ (∀ q, q ≠ p → t.prog q = s.prog q) ∧
       (∀ o ∈ t.flags.hubWaits, o.prog ≠ p) ∧ (∀ m n, t.flagVal m n = s.flagVal m n)) ∧
   (∀ (p : Nat) (s : State), (∀ w, (s.ctx p).wait = some w → w.grant ≠ none ∨ s.now < w.expiry) → exec (.waitTimeout p) s = .next s))

/-! ### Run-ahead -/

/-- R196, R209, R216: mv.strm at the head of its queue that starts becomes a stream of its engine, with what stands in its source to write and
its flag. A stream completes once all it moves has landed: it leaves its channel, and its flag's set applies as one issued in the next cycle;
while something of every stream of the program is under way nothing changes. -/
def Obligations.StreamsComplete : Prop :=
  (∀ (m y : Nat) (c : EngCmd) (rest : List EngCmd) (d a : Slice) (count xform chans : Nat) (tap : Bool) (flag : Nat) (s : State),
    s.queueOf m y .strm = c :: rest → c.op = .kernel (.strm d a count xform chans tap flag) → s.canStart m y .strm c = true →
    let u := kernelAt s m y .strm c rest (.strm d a count xform chans tap flag)
    ∃ t x, exec (.engineCommandStart m y .strm) s = .next t ∧ t.strm.ticks.getLast? = some x ∧
      t.strm.ticks.length = s.strm.ticks.length + 1 ∧ x.prog = c.prog ∧ x.seq = c.seq ∧ x.flag = some flag ∧ x.tap = tap ∧ x.copy = none ∧
      (x.faulted = false → x.out = (u.strmRows (u.prog c.prog) d a count xform chans).flatMap fun r => lineSplit r.1 r.2) ∧
      (t.ctx c.prog).strms = (s.ctx c.prog).strms + 1 ∧ ∀ b, t.byte b = s.byte b) ∧
  (∀ (p : Nat) (x : TickStrm) (xs : List TickStrm) (s : State), s.strm.ticks = x :: xs → x.prog = p → s.strmDone x = true →
    ∃ t, exec (.commandCompletionSet p) s = .next t ∧ t.strm.ticks = (xs.filter fun z => decide (z.id ≠ x.id)) ∧
      (t.ctx p).strms = (s.ctx p).strms - 1 ∧ t.get (State.tickReg .strmChStat x) 0 3 = 0 ∧ (∀ a, t.byte a = s.byte a) ∧
      t.regsOf p = s.regsOf p ∧ (∀ q, q ≠ p → t.prog q = s.prog q) ∧ t.flags.localSets = s.flags.localSets ++
        (x.flag.bind (s.localFlag p)).toList.map fun q => (q.1, q.2, 1, p, s.afterCycles 3)) ∧
  (∀ (p : Nat) (s : State), (∀ x ∈ s.strm.ticks, x.prog = p → s.strmDone x = false) → exec (.commandCompletionSet p) s = .next s)

/-! ### Engines -/

/-- R209, R210: where the queue of a command is full its context stalls with the command, and issues nothing more; an engine instruction of a
virtual yard that the program does not have passes (R203).

R210: a context that stalls on a full queue goes on in a cycle of its own in which there is room, its command in the queue; until then
nothing changes.

R88, R98, R209, R225: a command that may not start stays at the head of its queue. So it is while its queue has started one in this cycle,
an epoch holds it, its sail still reads a run or loads, its boom has a command in hand, or an earlier command of its program with which it
shares a tensor that one of them writes waits in a queue. An empty queue starts nothing. -/
def Obligations.EngineQueues : Prop :=
  ((∀ (i : Instr) (f : Fenja) (u s : State) (x : Nat × Nat × UnitQ × EngOp), i.fenja = some f → Issues s f.prog f.guard i →
      s.depth f.prog = 0 ∨ s.specCmds f.prog < (s.prog f.prog).place.raCmds → u = (s.issued f.prog).countCmd f.prog →
      entersQueue u f.prog i = some x → u.queueRoom x.1 x.2.1 x.2.2.1 = false → ∃ t, exec i s = .next t ∧ OnlyCtx u t f.prog ∧
        t.ctx f.prog = { u.ctx f.prog with
          stalled := some (x.1, x.2.1, x.2.2.1, ⟨x.2.2.2, f.prog, s.depth f.prog, (s.ctx f.prog).seq⟩), run := .stalled } ∧
        ∀ j, t.canIssue f.prog j = false) ∧
   (∀ (i : Instr) (f : Fenja) (u s : State), i.fenja = some f → Issues s f.prog f.guard i → engineOf i = true →
      s.depth f.prog = 0 ∨ s.specCmds f.prog < (s.prog f.prog).place.raCmds → u = (s.issued f.prog).countCmd f.prog →
      entersQueue u f.prog i = none → ∃ t, exec i s = .next t ∧ OnlyCtx u t f.prog ∧
        t.ctx f.prog = { u.ctx f.prog with idx := (s.ctx f.prog).idx + 1 })) ∧
  ((∀ (p m y : Nat) (q : UnitQ) (c : EngCmd) (s : State), (s.ctx p).stalled = some (m, y, q, c) → c.prog = p → s.queueRoom m y q = true →
      s.ownsCycle p = true → s.inWork = true → (s.ctx p).ready ≤ s.cycle →
      ∃ t, exec (.engineQueueStall p) s = .next t ∧ t.queueOf m y q = s.queueOf m y q ++ [c] ∧ Outside [.progs, .yards] s t ∧
        t.ctx p = { s.ctx p with stalled := none, run := .issuing, idx := (s.ctx p).idx + 1, seq := (s.ctx p).seq + 1, ready := s.cycle + 1
                                 dels := (s.ctx p).dels ++ c.op.dest.toList.map fun r => ⟨r, 0, none, c.seq, none, c.spec⟩ }) ∧
   (∀ (p m y : Nat) (q : UnitQ) (c : EngCmd) (s : State), (s.ctx p).stalled = some (m, y, q, c) →
      s.queueRoom m y q = false ∨ s.ownsCycle p = false ∨ s.inWork = false ∨ s.cycle < (s.ctx p).ready →
      exec (.engineQueueStall p) s = .next s) ∧
   (∀ (p : Nat) (s : State), (s.ctx p).stalled = none → exec (.engineQueueStall p) s = .next s)) ∧
  ((∀ (m y : Nat) (q : UnitQ) (c : EngCmd) (rest : List EngCmd) (s : State), s.queueOf m y q = c :: rest → s.canStart m y q c = false →
      ∃ t, exec (.engineCommandStart m y q) s = .next t ∧ t.queueOf m y q = c :: rest ∧ Outside [.regs] s t) ∧
   (∀ (m y : Nat) (q : UnitQ) (c : EngCmd) (s : State),
      (s.cycle < SMap.get 0 (s.yard m y).started (unitCode q) ∨ s.released c = false ∨
        (∃ n r, q = .sail n ∧ (∃ mode atype flip bcast first act count entry, c.op = .run mode atype flip bcast first act count entry) ∧
          (s.sail m y (n % 4)).run = some r ∧ r.issued < r.count) ∨
        (∃ n, q = .sail n ∧ (∃ c4 wt, c.op = .load c4 wt) ∧ (s.sail m y (n % 4)).load ≠ none) ∨
        (∃ n, q = .sail n ∧ (∃ weight cbk, c.op = .tld weight cbk) ∧ (s.sail m y (n % 4)).load ≠ none) ∨
        (∃ n, q = .sail n ∧ (∃ weight, c.op = .tcp weight) ∧ (s.sail m y (n % 4)).load ≠ none) ∨
        (∃ n, q = .boom n ∧ (s.boom m y (n % 4)).job ≠ none) ∨
        (∃ v ∈ s.yards, ∃ l ∈ v.2.queues, ∃ d ∈ l.2, d.prog = c.prog ∧ d.seq < c.seq ∧ c.op.clash d.op = true)) →
      s.canStart m y q c = false) ∧
   (∀ (m y : Nat) (q : UnitQ) (s : State), s.queueOf m y q = [] → exec (.engineCommandStart m y q) s = .next s))

/-- R97, R98, R209: a weight load at the head of its sail's queue that starts makes the shadow set LOADING, to complete 40 cycles later, and
reads its first row; each row's cells are written from the row read eight cycles before. sail.tcp copies the live table into the shadow
table; sail.tld begins to read a codebook, whose entries are written 64 a cycle. Each leaves the head of its queue. Where no write is recorded
in the yard's banks (R109), memory stays as it is.

R97, R98, R100: a load completes at its cycle: a tile's set, while it is shadow, is READY, or SPEC under an open epoch; a set that a run has
flipped to is no longer EMPTY; its cells stay as the rows were written. No load completes before. -/
def Obligations.SailLoads : Prop :=
  ((∀ (m y n : Nat) (c : EngCmd) (rest : List EngCmd) (s : State), s.queueOf m y (.sail n) = c :: rest → n < 4 →
     s.canStart m y (.sail n) c = true →
     (∀ c4 wt, c.op = .load c4 wt → ∃ t ld, exec (.engineCommandStart m y (.sail n)) s = .next t ∧ t.queueOf m y (.sail n) = rest ∧
       (t.sail m y n).load = some ld ∧ ld.kind = .tile c4 wt.tid wt.off ∧ ld.start = s.cycle ∧ ld.done = s.afterCycles 40 ∧
       ld.set = 1 - s.liveSet m y n ∧ ld.spec = c.spec ∧ ld.rows.length = 1 ∧ t.shadowState m y n = 1 ∧
       (t.sail m y n).cells = (s.sail m y n).cells ∧ ((∀ b ∈ (s.yard m y).access, b.made = none) →
         ld.rows = [s.bytes (State.tileAddr (s.prog c.prog) wt c4 c.spec) (if c4 then 16 else 32)] ∧ ∀ a, t.byte a = s.byte a)) ∧
     (∀ weight, c.op = .tcp weight → ∃ t, exec (.engineCommandStart m y (.sail n)) s = .next t ∧ t.queueOf m y (.sail n) = rest ∧
       (∀ k, k < 256 → if weight then
         SMap.get 0 (t.sail m y n).wtbl ((1 - s.liveSet m y n) * 256 + k) = SMap.get 0 (s.sail m y n).wtbl (s.liveSet m y n * 256 + k)
       else SMap.get 0 (t.sail m y n).atbl ((1 - s.liveSet m y n) * 256 + k) = SMap.get 0 (s.sail m y n).atbl (s.liveSet m y n * 256 + k)) ∧
       (t.sail m y n).cells = (s.sail m y n).cells ∧ ∀ r, r ≠ yreg .sailState m y n → t.reg r = s.reg r) ∧
     (∀ weight cbk, c.op = .tld weight cbk → ∃ t ld, exec (.engineCommandStart m y (.sail n)) s = .next t ∧
       t.queueOf m y (.sail n) = rest ∧ (t.sail m y n).load = some ld ∧ ld.kind = .table weight cbk ∧
       ld.done = s.afterCycles (4 + State.tableLines ((s.prog c.prog).box.cbk cbk).length) ∧ ld.set = 1 - s.liveSet m y n ∧
       (t.sail m y n).cells = (s.sail m y n).cells ∧ (t.sail m y n).wtbl = (s.sail m y n).wtbl ∧
       (t.sail m y n).atbl = (s.sail m y n).atbl)) ∧
   (∀ (m y n r : Nat) (ld : SailLoad) (c4 : Bool) (s : State), r < 32 → ld.set < 2 → ∀ k,
     SMap.get 0 ((s.writeTileRow m y n ld c4 false r).sail m y n).cells k =
       if ld.set * 1024 + r * 32 ≤ k ∧ k < ld.set * 1024 + r * 32 + 32 then
         (let bs := ld.rows.getD r []
          let j := k - (ld.set * 1024 + r * 32)
          if c4 then (if j / 2 < bs.length then (if j % 2 = 0 then bs.getD (j / 2) 0 &&& 0xF else bs.getD (j / 2) 0 >>> 4) else 0)
          else bs.getD j 0)
       else SMap.get 0 (s.sail m y n).cells k) ∧
   (∀ (m y n i : Nat) (ld : SailLoad) (weight : Bool) (cbk : Nat) (x : Int) (s : State), ((s.prog ld.prog).box.cbk cbk)[i]? = some x →
     let t := s.writeTable m y n ld weight cbk (i / 64)
     SMap.get 0 (if weight then (t.sail m y n).wtbl else (t.sail m y n).atbl) (ld.set * 256 + i) = BitVec.ofInt 8 x)) ∧
  ((∀ (m y n : Nat) (ld : SailLoad) (s : State), (s.sail m y n).load = some ld → ld.done ≤ s.now →
     ∃ t, exec (.sailLoadComplete m y n) s = .next t ∧ (t.sail m y n).load = none ∧ (t.sail m y n).cells = (s.sail m y n).cells ∧
       (∀ c4 tid tile, ld.kind = .tile c4 tid tile → SMap.get 0 (t.sail m y n).tid ld.set = tid + 1 ∧
         SMap.get 0 (t.sail m y n).tile ld.set = tile + 1 ∧
         (s.liveSet m y n ≠ ld.set → t.shadowState m y n = (if ld.spec = 0 then 2 else 3)) ∧
         (s.liveSet m y n = ld.set → t.liveEmpty m y n = false ∧ t.shadowState m y n = s.shadowState m y n)) ∧
       ((∀ c4 tid tile, ld.kind ≠ .tile c4 tid tile) → t.shadowState m y n =
         if ld.spec = 0 ∨ s.liveSet m y n = ld.set then s.shadowState m y n else 3) ∧
       OnlyRegs (s.setYard m y (t.yard m y)) t [yreg .sailState m y n]) ∧
   (∀ (m y n : Nat) (s : State), (∀ ld, (s.sail m y n).load = some ld → s.now < ld.done) → exec (.sailLoadComplete m y n) s = .next s))

/-- R67, R84, R87, R88, R89: a run of one vector or more, on a sail of its own, that starts issues its first vector: the 32 column partials of
the live set, which reach stage F at the cycle of Table 4.3. A run that flips makes the shadow set live, and the former live set READY. The
cells stay, and so does memory where no write is recorded in the yard's banks (R109).

R71, R87: a vector's partials that join the boom's entry: each lane by a rescale with the scales of the vector's group and of the weight's group
and channel.

R71, R94, R95, R99: at the head of a boom's queue: boom.epi that starts takes its first entry: the epilogue of its lanes is on its way to the
destination's elements, and the output that leaves in full words is stored there and nowhere else. boom.pre reads an FP32 vector through the
filter, and the vector read is written into its entry. boom.chout sends its entry to the next yard, three cycles away, where both ends of the
link are enabled, and boom.chin takes the vector that arrives in its cycle, and is a hazard of its program with none arriving. -/
def Obligations.SailsAndBooms : Prop :=
  ((∀ (m y n : Nat) (c : EngCmd) (rest : List EngCmd) (mode : Mode) (atype count entry : Nat) (first : Bool) (act : Slice) (s : State),
     s.queueOf m y (.sail n) = c :: rest → n < 4 → c.op = .run mode atype false false first act (count + 1) entry →
     s.canStart m y (.sail n) c = true → s.suitShape m y = 0 → s.liveEmpty m y n = false →
     ∃ t r v, exec (.engineCommandStart m y (.sail n)) s = .next t ∧ t.queueOf m y (.sail n) = rest ∧ (t.sail m y n).run = some r ∧
       r.prog = c.prog ∧ r.spec = c.spec ∧ r.start = s.cycle ∧ r.count = count + 1 ∧ r.issued = 1 ∧ r.mode = mode ∧ r.act = act ∧
       r.entry = entry ∧ r.first = first ∧ r.set = s.liveSet m y n ∧
       (t.sail m y n).pipe = (s.sail m y n).pipe ++ [v] ∧ v.idx = 0 ∧ v.due = stageF s.cycle mode atype ∧ v.dead = false ∧
       (t.sail m y n).cells = (s.sail m y n).cells ∧ ((∀ b ∈ (s.yard m y).access, b.made = none) → (∀ a, t.byte a = s.byte a) ∧
         v.ps = State.vectorPartials (s.sail m y n) mode (s.liveSet m y n)
           (State.decodeActs (s.sail m y n) (s.liveSet m y n) atype (s.actRaw r 0)))) ∧
   (∀ (m y n : Nat) (c : EngCmd) (rest : List EngCmd) (mode : Mode) (atype count entry : Nat) (bcast first : Bool) (act : Slice) (s : State),
     s.queueOf m y (.sail n) = c :: rest → n < 4 → c.op = .run mode atype true bcast first act count entry →
     s.canStart m y (.sail n) c = true →
     ∃ t r, exec (.engineCommandStart m y (.sail n)) s = .next t ∧ t.queueOf m y (.sail n) = rest ∧ t.liveSet m y n = 1 - s.liveSet m y n ∧
       t.shadowState m y n = 2 ∧ (t.sail m y n).run = some r ∧ r.set = 1 - s.liveSet m y n) ∧
   (∀ (m y n : Nat) (v : SailVec) (s : State), v.run.spec = 0 → SMap.get 0 (s.boom m y n).pending ((v.run.entry + v.idx) % 512) = 0 →
     v.ps.length = 32 →
     let g := s.prog v.run.prog
     let va := g.view v.run.act false
     let gs := groupSize va.t.gsz
     let at_ := (v.run.act.off + v.idx) * 32
     let wt := g.tensor (v.tid - 1)
     let kt := cdiv (wt.dims.getD 0 1) 32
     ∀ l, l < 32 → (((s.joinPartials m y n v).boom m y n).entry ((v.run.entry + v.idx) % 512)).getD l 0 = (rescale (v.ps.getD l 0)
       (s.actScale g va (at_ / va.t.width) (at_ % va.t.width / gs))
       (State.wtScale g wt ((v.tile - 1) % kt * 32 / gs) ((v.tile - 1) / kt * 32 + l)) v.run.first
       (((s.boom m y n).entry ((v.run.entry + v.idx) % 512)).getD l 0)).1)) ∧
  ((∀ (m y n : Nat) (c : EngCmd) (rest : List EngCmd) (s : State), s.queueOf m y (.boom n) = c :: rest → n < 4 →
     s.canStart m y (.boom n) c = true →
     (∀ bias dst entry count biasTid rec, c.op = .epi bias dst entry (count + 1) biasTid rec → c.spec = 0 →
       let g := s.prog c.prog
       let d := g.view dst true
       let w := d.t.width
       let col := dst.off * w % w
       let es := (((s.boom m y n).entry (entry % 512)).take (min 32 (w - col))).mapIdx fun l a =>
         (epilogue (s.outCfg g d (g.box.epiCfg rec) (dst.off * w / w) (col + l)) a
           (if bias then some (s.elemFp g (g.view ⟨biasTid, 0⟩ false) (col + l)) else none)).1
       ∃ t o j, exec (.engineCommandStart m y (.boom n)) s = .next t ∧ t.queueOf m y (.boom n) = rest ∧ (t.boom m y n).job = some j ∧
         j.op = c.op ∧ j.taken = 1 ∧ (t.boom m y n).outs = (s.boom m y n).outs ++ [o] ∧ o.prog = c.prog ∧ o.addr = d.elemAddr (dst.off * w) ∧
         o.data = packRow (typeBits d.t.type) es ∧ o.due = s.cycle + State.epiLatency (g.box.epiCfg rec).qmode ∧ ∀ a, t.byte a = s.byte a) ∧
     (∀ src entry count, c.op = .pre src entry (count + 1) →
       ∃ t o j, exec (.engineCommandStart m y (.boom n)) s = .next t ∧ t.queueOf m y (.boom n) = rest ∧ (t.boom m y n).job = some j ∧
         j.op = c.op ∧ j.taken = 1 ∧ (t.boom m y n).pres = (s.boom m y n).pres ++ [o] ∧ o.entry = entry % 512 ∧ o.spec = c.spec ∧
         o.due = s.cycle + 4 ∧ ((∀ b ∈ (s.yard m y).access, b.made = none) → (∀ a, t.byte a = s.byte a) ∧
           ∀ l, l < 32 → o.lanes.getD l 0 = (preloadFilter (BitVec.ofNat 32 (s.elem ((s.prog c.prog).viewAt src false c.spec)
             (src.off * ((s.prog c.prog).viewAt src false c.spec).t.width + l)))).1)) ∧
     (∀ entry, c.op = .chout entry → ∃ t, exec (.engineCommandStart m y (.boom n)) s = .next t ∧ t.queueOf m y (.boom n) = rest ∧
       Outside [.yards] s t ∧
       (bit (s.reg (yreg .yardChain m y)) 0 = true → bit (s.reg (yreg .yardChain m (y + 1))) 1 = true → y < 7 → s.yardIn m (y + 1) = true →
         (t.yard m (y + 1)).chain = (s.yard m (y + 1)).chain ++ [((s.boom m y n).entry entry, s.cycle + 3)])) ∧
     (∀ entry v ch, c.op = .chin entry → (s.yard m y).chain = (v, s.cycle) :: ch → SMap.get 0 (s.boom m y n).pending entry = 0 →
       ∃ t, exec (.engineCommandStart m y (.boom n)) s = .next t ∧ t.queueOf m y (.boom n) = rest ∧ (t.yard m y).chain = ch ∧
         (∀ a, t.byte a = s.byte a) ∧ ∀ l, l < 32 → ((t.boom m y n).entry entry).getD l 0 = v.getD l 0) ∧
     (∀ entry, c.op = .chin entry → (∀ v ∈ (s.yard m y).chain, v.2 ≠ s.cycle) → ∃ t, exec (.engineCommandStart m y (.boom n)) s = .next t ∧
       t.queueOf m y (.boom n) = rest ∧ (t.ctx c.prog).conds.getLsbD 4 = true ∧ ∀ a, t.byte a = s.byte a)) ∧
   (∀ (m y n : Nat) (o : BoomPre) (s : State), o.spec = 0 → SMap.get 0 (s.boom m y n).pending o.entry = 0 →
     ∀ l, l < 32 → (((s.writePre m y n o).boom m y n).entry o.entry).getD l 0 = o.lanes.getD l 0) ∧
   (∀ (m y n off : Nat) (o : BoomOut) (s : State), regionOf o.addr = .yard m y off → lineSplit o.addr o.data = [(o.addr, o.data)] →
     State.partWords o.addr o.data.length = [] → yardAddr m y off = o.addr → (∀ b ∈ (s.yard m y).access, b.cycle ≠ s.cycle) →
     ∀ a, (s.writeOut m y n o).byte a = (storeAll s [(o.addr, o.data)]).byte a))

/-! ### Crosstree, ratlines and yards -/

/-- R128: a flit is written into its destination at its instant, when its links are up, and leaves the fabric: into Stay SRAM, or into a yard
in service in whose banks nothing else stands in the cycle. R276: one of unscheduled traffic enters the yard's landing buffer. One for
HyperRAM waits there for its slot, and the data of a read writes nothing. One that is not due, or whose link is down, stays. -/
def Obligations.FlitsArrive : Prop :=
  ∀ (f : Flit) (rest : List Flit) (s : State), s.fabric.flits = f :: rest →
    (s.flitDue f ≤ s.now → s.linkUp f.src = true → s.linkUp f.dst = true →
      ∃ t, exec (.xtreeFlitArrival f.src f.dst) s = .next t ∧ t.fabric.flits = rest ∧
        (∀ off, regionOf f.addr = .stay off → f.read = false → ∀ a, t.byte a = (storeAll s [(f.addr, f.data)]).byte a) ∧
        (∀ m y off, regionOf f.addr = .yard m y off → f.rank = 0 → f.read = false → s.targetIn f.addr = true →
          (s.yard m y).access = [] → off % 8 = 0 → f.data.length % 8 = 0 → ∀ a, t.byte a = (storeAll s [(f.addr, f.data)]).byte a) ∧
        (∀ m y off, regionOf f.addr = .yard m y off → f.rank ≠ 0 → f.dst ≠ 7 → s.targetIn f.addr = true →
          (t.yard m y).landing = (s.yard m y).landing ++
            [⟨bankOf off, off, if f.read then none else some f.data, f.data.length, f.strm, f.rank⟩] ∧ ∀ a, t.byte a = s.byte a) ∧
        (∀ m y off, regionOf f.addr = .yard m y off → s.targetIn f.addr = false → ∀ a, t.byte a = s.byte a) ∧
        ((∃ off, regionOf f.addr = .hyper off) ∨ f.read = true → ∀ a, t.byte a = s.byte a)) ∧
    (s.now < s.flitDue f ∨ s.linkUp f.src = false ∨ s.linkUp f.dst = false → exec (.xtreeFlitArrival f.src f.dst) s = .next s)

/-- R129: a replay of a direction counts once, in the direction and in its XTREE_REPLAY register, which stays at its largest value, makes
the failed flit and those behind it on the direction 64 cycles later, and marks retried every program that used it in the tick. R133: in place of a ninth replay in a row the link
goes down, XTREE_LINK_DOWN is raised, and no flit of it arrives; a link that is down does not replay.

R133, R425: the MP retrains a link that is down: one that trains is to resume at the next tick start, one that fails takes its mast out
at a guard. Nothing happens to a link that is up, or while the MP is down.

R136: a parity error on the ratline of a mast in service: XTREE_RATLINE_ERR shows the mast, RATLINE_ERR is raised, and every program that
runs on it and uses package flags gives INVALID_FAULT. -/
def Obligations.Links : Prop :=
  (∀ (port : Nat) (away : Bool) (s : State),
     (s.linkUp port = true → SMap.get 0 s.fabric.fails (dirKey port away) < 8 →
       ∃ t, exec (.linkReplay port away) s = .next t ∧ t.linkUp port = true ∧
         SMap.get 0 t.fabric.fails (dirKey port away) = SMap.get 0 s.fabric.fails (dirKey port away) + 1 ∧
         SMap.get 0 t.fabric.delay (dirKey port away) = SMap.get 0 s.fabric.delay (dirKey port away) + 64 ∧
         (let r := rid (if away then .xtreeReplayDn else .xtreeReplayUp) port
          t.get r 0 32 = min (s.get r 0 32 + 1) (2 ^ 32 - 1)) ∧
         (∀ p ∈ SMap.get [] s.fabric.users (dirKey port away), (t.ctx p).conds.getLsbD 0 = true) ∧
         (∀ f, s.failing port away = some f → ∀ (j : Nat) (g : Flit), s.fabric.flits[j]? = some g → t.fabric.flits[j]? = some
           (if s.fabric.flits.idxOf f ≤ j ∧ State.crosses g port away = true then
             (if away then { g with lateDn := g.lateDn + 64 } else { g with lateUp := g.lateUp + 64 }) else g)) ∧
         (s.failing port away = none → t.fabric.flits = s.fabric.flits) ∧ ∀ a, t.byte a = s.byte a) ∧
     (s.linkUp port = true → 8 ≤ SMap.get 0 s.fabric.fails (dirKey port away) →
       ∃ t, exec (.linkReplay port away) s = .next t ∧ t.linkUp port = false ∧ t.events.last = 0x0507 ∧
         (∀ k, k ≠ port → t.linkUp k = s.linkUp k) ∧
         (port < 8 → bit (t.reg (rid .xtreeStatus)) port = false ∧ bit (t.reg (rid .xtreeStatus)) (8 + port) = true) ∧
         (∀ f ∈ t.fabric.flits, f.src = port ∨ f.dst = port → exec (.xtreeFlitArrival f.src f.dst) t = .next t)) ∧
     (s.linkUp port = false → exec (.linkReplay port away) s = .next s)) ∧
  (∀ (port : Nat) (s : State),
     (s.linkUp port = false → s.fwRuns 1 = true → ∃ t, exec (.xtreeLinkRetrained port true) s = .next t ∧ t.linkUp port = false ∧
       SMap.get false t.fabric.retrained port = true ∧ Outside [.fabric] s t) ∧
     (s.linkUp port = false → s.fwRuns 1 = true → port < 7 → ∃ t, exec (.xtreeLinkRetrained port false) s = .next t ∧
       (56 + port) ∈ t.power.outPending ∧ (∀ u ∈ s.power.outPending, u ∈ t.power.outPending) ∧ Outside [.power] s t) ∧
     (s.linkUp port = true ∨ s.fwRuns 1 = false → ∀ ok, exec (.xtreeLinkRetrained port ok) s = .next s)) ∧
  (∀ (m : Nat) (fromHub : Bool) (s : State),
     (s.mastIn m = true → ∃ t, exec (.ratlineErr m fromHub) s = .next t ∧ bit (t.reg (rid .xtreeRatlineErr)) m = true ∧
       t.events.last = 0x0508 ∧ (∀ a, t.byte a = s.byte a) ∧
       ∀ p, s.admitted p = true → m ∈ s.progMasts p → (s.prog p).box.usesPkg = true → (s.ctx p).active = true →
         (t.ctx p).conds.getLsbD 4 = true) ∧
     (s.mastIn m = false → exec (.ratlineErr m fromHub) s = .next s))

/-- R276: in a bank's landing cycle the oldest access buffered for that bank is served: a write is stored, the data of a read sets out for the
Stay engine; the others keep their order. In another bank's cycle nothing is served.

R117: YARD_INIT fills the SRAM of a yard that is on and free with zero in 4,096 cycles: at the end each of its bytes reads zero, and no
other byte changes. With a program admitted on the yard, or the yard off, nothing begins; nothing ends early. -/
def Obligations.YardMemory : Prop :=
  ((∀ (m y : Nat) (e : Landing) (pre post : List Landing) (s : State),
     (s.yard m y).landing = pre ++ e :: post → (∀ x ∈ pre, x.bank ≠ e.bank) → s.cycle % 32 = e.bank →
     ∃ t, exec (.landingCycle m y e.bank) s = .next t ∧ (t.yard m y).landing = pre ++ post ∧
       (∀ bs, e.data = some bs → t.fabric.waiting = s.fabric.waiting ∧
         ∀ a, t.byte a = (storeAll s [(yardAddr m y e.off, bs)]).byte a) ∧
       (e.data = none → (∀ a, t.byte a = s.byte a) ∧ ∃ f, t.fabric.waiting = s.fabric.waiting ++ [f] ∧ f.src = m ∧ f.dst = 7 ∧
         f.addr = yardAddr m y e.off ∧ f.data = s.bytes (yardAddr m y e.off) e.len ∧ f.strm = e.strm ∧ f.read = true)) ∧
   (∀ (m y bank : Nat) (s : State), s.cycle % 32 ≠ bank ∨ (∀ e ∈ (s.yard m y).landing, e.bank ≠ bank) →
     exec (.landingCycle m y bank) s = .next s)) ∧
  (∀ (m y : Nat) (s : State),
     (s.yardBusy m y = false → s.yardOn m y = true → ∃ t, exec (.yardInit m y) s = .next t ∧
       (t.yard m y).initUntil = some (s.afterCycles 4096) ∧ t.get (yreg .yardInit m y) 1 1 = 1 ∧
       OnlyRegs (s.setYard m y (t.yard m y)) t [yreg .yardInit m y]) ∧
     (s.yardBusy m y = true ∨ s.yardOn m y = false → exec (.yardInit m y) s = .next s) ∧
     (∀ u, (s.yard m y).initUntil = some u → u ≤ s.now → ∃ t, exec (.yardInitDone m y) s = .next t ∧ (t.yard m y).initUntil = none ∧
       (∀ off, off < 0x800000 → t.byte (yardAddr m y off) = 0) ∧ BytesBut s t (yardAddr m y 0) 0x800000 ∧
       t.get (yreg .yardInit m y) 1 1 = 0 ∧ t.get (yreg .yardInit m y) 2 1 = 1 ∧ ∀ r, r ≠ yreg .yardInit m y → t.reg r = s.reg r) ∧
     ((∀ u, (s.yard m y).initUntil = some u → s.now < u) → exec (.yardInitDone m y) s = .next s))

/-- R106, R171, R292: the clear bits: YARD_PERF_CLR zeroes the vector and row-gate counters of the four sails, REEF_STATUS.clr and
VU_STATUS.clr the counters of their units, of a yard that is on, for the host (while its tunnel is up), the MP and the TP; STRM_PEAK.clr
and PWR_THERM's clear are the host's. Nothing else changes, but that an access of the host wakes its link. From any other requester the
bits do nothing. -/
def Obligations.ClearBits : Prop :=
  (∀ (rq : Requester) (m y : Nat) (s : State), Reaches rq s → s.yardOn m y = true →
    (∃ t, exec (.yardPerfClr rq m y) s = .next t ∧
      (∀ n, n < 4 → t.reg (yreg .sailVecCnt m y n) = 0 ∧ t.reg (yreg .sailRowgateCnt m y n) = 0) ∧
      OnlyRegs s t (rid .usb4Link :: (List.range 4).flatMap fun n => [yreg .sailVecCnt m y n, yreg .sailRowgateCnt m y n])) ∧
    (∃ t, exec (.reefStatusClr rq m y) s = .next t ∧ t.reg (yreg .reefElemCnt m y) = 0 ∧
      OnlyRegs s t [rid .usb4Link, yreg .reefElemCnt m y]) ∧
    (∃ t, exec (.vuStatusClr rq m y) s = .next t ∧ t.reg (yreg .vuOobCnt m y) = 0 ∧ t.reg (yreg .vuElemCnt m y) = 0 ∧
      OnlyRegs s t [rid .usb4Link, yreg .vuOobCnt m y, yreg .vuElemCnt m y])) ∧
  (∀ (engine : Nat) (s : State), s.hostUp = true → engine = 7 ∨ s.mastIn engine = true →
    ∃ t, exec (.strmPeakClr .host engine) s = .next t ∧ t.get (mreg .strmPeak engine) 0 10 = 0 ∧
      OnlyRegs s t [rid .usb4Link, mreg .strmPeak engine]) ∧
  (∀ (die : Nat) (s : State), s.hostUp = true → die < 8 → ∃ t, exec (.pwrThermClr die) s = .next t ∧
    t.get (rid .pwrTherm die) 16 12 = s.get (rid .pwrTherm die) 0 12 ∧ OnlyRegs s t [rid .usb4Link, rid .pwrTherm die]) ∧
  (∀ (rq : Requester) (m y : Nat) (s : State), rq = .sp ∨ (∃ k, rq = .ms k) ∨ rq = .host ∧ s.hostUp = false →
    exec (.yardPerfClr rq m y) s = .next s ∧ exec (.reefStatusClr rq m y) s = .next s ∧ exec (.vuStatusClr rq m y) s = .next s ∧
    exec (.strmPeakClr rq m) s = .next s)

/-! ### Streams -/

/-- R265: a channel that is enabled, bound, idle, and whose submission queue holds an entry that the device can read takes it: a descriptor
that keeps its rules is in hand and its stream runs; one that breaks them ends DESC_ERROR with nothing moved, or waits for room for that
record. A channel that lacks one of these conditions takes nothing.

R277, R278, R286, R287: a stream whose writes have landed ends with its status, or with that of its read-back where it wrote through the
host window or to HyperRAM; one that an abort stopped and that met nothing else ends ABORTED. Its record is appended where its queue has room,
and the channel is idle, or halted by a page fault. Until then nothing changes.

R279: a record that waits is appended when its queue has room, and the channel goes on; R287: an owner's resume makes a halted descriptor
run again where it still keeps its rules, and ends it DESC_ERROR where not; its abort ends it ABORTED at once, and one that runs when what it
has moved has landed; R325: a completion timeout is counted and the stream is to end HOST_ERROR. On a channel in no such
state, or from another requester, each does nothing. -/
def Obligations.BulkChannels : Prop :=
  (∀ (ch q : Nat) (s : State), q = s.get (sreg .strmChSq ch) 0 15 →
     (ch < 32 → ch ≠ 28 → bit (s.reg (sreg .strmChCtrl ch)) 0 = true → bit (s.reg (sreg .strmChSq ch)) 15 = true →
       (s.chState ch = 0 ∨ s.chState ch = 4) → s.qOn q = true → s.qKind q = 1 → s.qOcc q ≠ 0 →
       State.inHost (s.qEntryAddr q (s.qCons q)) = false →
       ∃ t, exec (.bulkDescriptorStart ch) s = .next t ∧
         (t.chState ch = 1 ∧ (t.chan ch).desc = s.bytes (s.qEntryAddr q (s.qCons q)) 64 ∧ (t.chan ch).ending.isSome = true ∨
          t.chState ch = 0 ∧ t.get (sreg .strmChStat ch) 8 8 = 5 ∧ t.chan ch = {} ∨
          t.chState ch = 3 ∧ (t.chan ch).elem = 0 ∧ (t.chan ch).record.isSome = true)) ∧
     (32 ≤ ch ∨ ch = 28 ∨ bit (s.reg (sreg .strmChCtrl ch)) 0 = false ∨ bit (s.reg (sreg .strmChSq ch)) 15 = false ∨
       (s.chState ch ≠ 0 ∧ s.chState ch ≠ 4) ∨ s.qOn q = false ∨ s.qKind q ≠ 1 ∨ s.qOcc q = 0 →
       exec (.bulkDescriptorStart ch) s = .next s)) ∧
  ((∀ (ch st coord off : Nat) (rb : XferEnd) (s : State), (s.chan ch).ending = some (st, coord, off) → st < 8 → s.bulkLanded ch = true →
     let met := if s.readsBack ch = false then st
       else if s.hostUp = false ∧ (s.wrote ch).any State.inHost = true then 4
       else (match rb with | .done => st | .poisoned => 2 | .windowFault => 3 | .hostError => 4)
     let final := if (s.chan ch).aborted = true ∧ met = 0 then 6 else met
     s.qTakes (dCq (s.chan ch).desc) 4 = true → s.qFull (dCq (s.chan ch).desc) = false → final ≠ 5 →
     ((s.chan ch).aborted = true → final ≠ 1) →
     ∃ t, exec (.streamCompletion ch rb) s = .next t ∧ t.get (sreg .strmChStat ch) 8 8 = final ∧
       (final ≠ 1 → t.chState ch = 0 ∧ t.chan ch = {}) ∧
       (final = 1 → t.chState ch = 2 ∧ (t.chan ch).desc = (s.chan ch).desc ∧ (t.chan ch).ending = none)) ∧
   (∀ (ch : Nat) (rb : XferEnd) (s : State), (s.chan ch).ending = none ∨ s.bulkLanded ch = false →
     exec (.streamCompletion ch rb) s = .next s)) ∧
  ((∀ (ch q : Nat) (bs : List Byte) (s : State), (s.chan ch).record = some (q, bs) → s.qTakes q 4 = true → s.qFull q = false →
     bs.length = 32 → leAt bs 0 1 ≠ 1 → ∃ t, exec (.bulkRecordWaitEnd ch) s = .next t ∧ t.chState ch = 0 ∧ t.chan ch = {}) ∧
   (∀ (ch : Nat) (s : State), (s.chan ch).record = none ∨ (∃ q bs, (s.chan ch).record = some (q, bs) ∧ s.qTakes q 4 = true ∧
     s.qFull q = true) → exec (.bulkRecordWaitEnd ch) s = .next s) ∧
   (∀ (rq : Requester) (ch : Nat) (s : State), rq ≠ .host → State.ownsCh rq ch = true → s.chState ch = 2 → (s.chan ch).desc ≠ [] →
     (let d := (s.chan ch).desc
      let ok := s.bulkOk d (s.side ch d 0x10 false) (s.side ch d 0x20 true)
      (ok = true → ∃ t, exec (.strmResume rq ch) s = .next t ∧ t.chState ch = 1 ∧ (t.chan ch).desc = d ∧ (t.chan ch).ending.isSome = true) ∧
      (ok = false → s.qKind (dCq d) = 4 → s.qTakes (dCq d) 4 = true → s.qFull (dCq d) = false →
        ∃ t, exec (.strmResume rq ch) s = .next t ∧ t.chState ch = 0 ∧ t.get (sreg .strmChStat ch) 8 8 = 5 ∧ t.chan ch = {})) ∧
     (s.qTakes (dCq (s.chan ch).desc) 4 = true → s.qFull (dCq (s.chan ch).desc) = false →
       ∃ t, exec (.strmAbort rq ch) s = .next t ∧ t.chState ch = 0 ∧ t.get (sreg .strmChStat ch) 8 8 = 6 ∧ t.chan ch = {})) ∧
   (∀ (rq : Requester) (ch : Nat) (s : State), rq ≠ .host → State.ownsCh rq ch = false ∨ s.chState ch ≠ 2 →
     exec (.strmResume rq ch) s = .next s ∧ (State.ownsCh rq ch = false ∨ (s.chan ch).ending = none ∧ (s.chan ch).record = none →
       exec (.strmAbort rq ch) s = .next s)) ∧
   (∀ (rq : Requester) (ch : Nat) (s : State), rq ≠ .host → State.ownsCh rq ch = true → s.chState ch ≠ 2 →
     (s.chan ch).ending ≠ none ∨ (s.chan ch).record ≠ none →
     exec (.strmAbort rq ch) s = .next (s.setChan ch { s.chan ch with aborted := true })) ∧
   (∀ (ch : Nat) (s : State), ((s.chan ch).ending = none → exec (.completionTimeout ch) s = .next s) ∧
     ((s.chan ch).ending ≠ none → ∃ t, exec (.completionTimeout ch) s = .next t ∧ (t.chan ch).ending = some (4, 0, 0) ∧
       t.get (rid .usb4CtoCnt) 0 32 = min (s.get (rid .usb4CtoCnt) 0 32 + 1) (2 ^ 32 - 1) ∧ ∀ r, r ≠ rid .usb4CtoCnt → t.reg r = s.reg r)))

/-- R285: the host's write of the high word of DATT_UPD_ENTRY stores the entry that DATT_UPD_IDX names, with the low word that it holds (R16)
or, with none held, that of the entry; no other byte and no other register changes. From another requester, or with the tunnel down, nothing
happens.

R280: a request of a line whose context is enabled and has a descriptor in hand moves one burst: the descriptor stays in hand while it
has elements left, a burst to a device is read from memory, and one to memory is written to its places. R280: a context that is disabled or stopped, or has no descriptor, drops
its burst: counted, memory unchanged. There are 110 request lines. -/
def Obligations.DattAndPeripherals : Prop :=
  ((∀ (high : BitVec 32) (s : State), s.hostUp = true →
     let a := dattBase + 8 * s.get (rid .dattUpdIdx) 0 21
     let low := match s.held .host 0x300008 with
       | some w => w.toNat
       | none => s.load a 4
     ∃ t, exec (.dattUpdate .host high) s = .next t ∧
       (∀ b, t.byte b = (storeAll s [(a, le64 (low + high.toNat * 2 ^ 32))]).byte b) ∧
       t.held .host 0x300008 = none ∧ ∀ r, r ≠ rid .usb4Link → t.reg r = s.reg r) ∧
   (∀ (rq : Requester) (high : BitVec 32) (s : State), rq ≠ .host ∨ s.hostUp = false → exec (.dattUpdate rq high) s = .next s)) ∧
  ((∀ (line : Nat) (data : List (BitVec 8)) (c : PctxSt) (k : Nat) (s : State), line < 110 → s.pctx line = c → c.desc ≠ [] →
     bit (s.reg (State.pstat line)) 0 = true → bit (s.reg (State.pstat line)) 3 = false →
     (State.srcSided c.desc = true → s.srcBound (State.dSrc c.desc) = true) → k = State.burstBytes c.desc / dEsize c.desc →
     c.elem + k < s.dElems c.desc →
     (∀ x ∈ s.burstAddrs c.desc c.half (s.dElems c.desc) c.elem k, s.windowOk 7 x (dEsize c.desc) (!State.toDevice c.desc) = true ∧ s.hyperDown x = false) →
     ∃ t, exec (.peripheralRequest line data) s = .next t ∧ (t.pctx line).elem = c.elem + k ∧ (t.pctx line).desc = c.desc ∧
       (State.toDevice c.desc = true → (∀ a, t.byte a = s.byte a) ∧ SMap.get [] t.strm.outBytes line = SMap.get [] s.strm.outBytes line ++
         (s.burstAddrs c.desc c.half (s.dElems c.desc) c.elem k).flatMap fun x => s.bytes x (dEsize c.desc)) ∧
       (State.toDevice c.desc = false → ∀ a, t.byte a = (s.burstIn line c.desc c.half (s.dElems c.desc) c.elem
         ((List.range k).map fun i => leAt data (i * dEsize c.desc) (dEsize c.desc))).byte a)) ∧
   (∀ (line : Nat) (data : List (BitVec 8)) (s : State), line < 110 → (bit (s.reg (State.pstat line)) 0 = false ∨
       bit (s.reg (State.pstat line)) 3 = true ∨ (s.pctx line).desc = [] ∧ s.get (sreg .strmPctxNext line) 0 40 = 0) →
     ∃ t, exec (.peripheralRequest line data) s = .next t ∧ (∀ a, t.byte a = s.byte a) ∧ (t.pctx line).desc = (s.pctx line).desc ∧
       t.get (sreg .strmPdropCnt) 0 32 = min (s.get (sreg .strmPdropCnt) 0 32 + 1) (2 ^ 32 - 1)) ∧
   (∀ (line : Nat) (data : List (BitVec 8)) (s : State), 110 ≤ line → exec (.peripheralRequest line data) s = .next s))

/-! ### Media and timed I/O -/

/-- R295, R297: a frame of a stream that the rig names and whose port exists: complete, it is counted, and a corrected
header shows; the instant of its start, which the command does not give, is a free value (log entry 8). Abandoned, it is counted as dropped, and CSI_FRAME_ERR is raised once per stream and tick; a discarded packet shows in the port's status alone. A
frame that no stream takes changes nothing.

R310 to R313: a block of the audio capture takes the loopback samples gathered; a TDM input's samples wait on its line until they make a
burst. A TDM output frame is sent from ready samples, which leave, or as zeros, which is counted and shows in AUD_STATUS; what is sent is
looped back. With the audio block off or shed nothing happens. -/
def Obligations.CamerasAndAudio : Prop :=
  ((∀ (st : Nat) (b data : List Byte) (s : State), s.streamRec st = some b → leAt b 1 1 < s.part.csiPorts →
     (∃ t, exec (.cameraFrame st .discard data) s = .next t ∧ bit (t.reg (rid .iplCsiStat (leAt b 1 1))) 4 = true ∧
       OnlyRegs s t [rid .iplCsiStat (leAt b 1 1)]) ∧
     (∀ e : FrameEnd, e = .crc ∨ e = .eccUncorr ∨ e = .early ∨ e = .shape → ∃ t, exec (.cameraFrame st e data) s = .next t ∧
       SMap.get false t.media.onceCsi st = true ∧ (∀ k, k ≠ st → SMap.get false t.media.onceCsi k = SMap.get false s.media.onceCsi k)) ∧
     (s.scalers st = [] → leAt b 11 1 = 0xFF →
       (∀ e : FrameEnd, e = .complete ∨ e = .corrected → ∃ t, exec (.cameraFrame st e data) s = .next t ∧
         t.reg (rid .iplStrSof st) = Config.freeValue s.free ∧
         t.get (rid .iplStrFrames st) 0 32 = min (s.get (rid .iplStrFrames st) 0 32 + 1) (2 ^ 32 - 1) ∧
         (e = .complete → OnlyRegs s.takeFree t [rid .iplStrSof st, rid .iplStrFrames st]) ∧
         (e = .corrected → bit (t.reg (rid .iplCsiStat (leAt b 1 1))) 2 = true ∧
           OnlyRegs s.takeFree t [rid .iplStrSof st, rid .iplStrFrames st, rid .iplCsiStat (leAt b 1 1)])) ∧
       (∃ t, exec (.cameraFrame st .crc data) s = .next t ∧
         t.get (rid .iplStrDrops st) 0 32 = min (s.get (rid .iplStrDrops st) 0 32 + 1) (2 ^ 32 - 1) ∧
         bit (t.reg (rid .iplCsiStat (leAt b 1 1))) 1 = true ∧ (SMap.get false s.media.onceCsi st = false → t.events.last = 0x0601)))) ∧
   (∀ (st : Nat) (e : FrameEnd) (data : List Byte) (s : State), s.streamRec st = none ∨
     (∃ b, s.streamRec st = some b ∧ s.part.csiPorts ≤ leAt b 1 1) → exec (.cameraFrame st e data) s = .next s)) ∧
  ((∀ (b : List Byte) (bs : List (List Byte)) (xs : List (BitVec 32)) (s : State), s.blockOn 158 5 = true → s.media_ 4 = b :: bs →
     ∃ t, exec (.audioBlock 80 xs) s = .next t ∧ t.media.loopback = []) ∧
   (∀ (line : Nat) (b : List Byte) (xs : List (BitVec 32)) (s : State), s.blockOn 158 5 = true → line ≠ 80 → s.mediaOf 5 (line - 81) = some b →
     leAt b 3 1 ≠ 0xFF → (s.pctx line).fifo.length + 4 * xs.length < s.lineBurst line →
     ∃ t, exec (.audioBlock line xs) s = .next t ∧ (∀ a, t.byte a = s.byte a) ∧ (∀ r, t.reg r = s.reg r) ∧
       (t.pctx line).fifo = (s.pctx line).fifo ++ xs.flatMap fun w => leN 4 w.toNat) ∧
   (∀ (o : Nat) (b fifo : List Byte) (s : State), s.blockOn 158 5 = true → s.mediaOf 5 (4 + o) = some b →
     SMap.get [] s.strm.outBytes (85 + o) = fifo →
     (4 * leAt b 1 1 ≤ fifo.length → ∃ t, exec (.tdmOutputFrame o) s = .next t ∧ (∀ r, t.reg r = s.reg r) ∧
       SMap.get [] t.strm.outBytes (85 + o) = fifo.drop (4 * leAt b 1 1) ∧
       ∀ k, k < leAt b 1 1 → k < 16 → SMap.get [] t.media.loopback (o * 16 + k) =
         SMap.get [] s.media.loopback (o * 16 + k) ++ [BitVec.ofNat 32 (leAt fifo (4 * k) 4)]) ∧
     (fifo.length < 4 * leAt b 1 1 → o < 4 → ∃ t, exec (.tdmOutputFrame o) s = .next t ∧ bit (t.reg (rid .audStatus)) (1 + o) = true ∧
       t.get (rid .audUndrCnt o) 0 32 = min (s.get (rid .audUndrCnt o) 0 32 + 1) (2 ^ 32 - 1) ∧ t.strm = s.strm ∧
       ∀ k, k < leAt b 1 1 → k < 16 → SMap.get [] t.media.loopback (o * 16 + k) = SMap.get [] s.media.loopback (o * 16 + k) ++ [0])) ∧
   (∀ (line o : Nat) (xs : List (BitVec 32)) (s : State), s.blockOn 158 5 = false →
     exec (.audioBlock line xs) s = .next s ∧ exec (.tdmOutputFrame o) s = .next s))

/-- R303, R307, R308: the host's writes to the rings of a session in the rig, with its tunnel up: a decoder's WP inside the ring is taken; a
drained offset of an encoder or JPEG ring is taken where it does not pass WP; no other register changes. R307: a trigger takes one
snapshot, and is discarded while one is in hand.

R303, R304: a decoded frame goes into the session's next buffer and its pictures are numbered on; with no pipeline routed, RP goes on by
what was consumed. A session that lacks the bytes waits. R306: an access unit takes the oldest source frame. R307: a finished JPEG image
ends its snapshot; none in hand, nothing happens. -/
def Obligations.Codecs : Prop :=
  ((∀ (n : Nat) (off : BitVec 32) (b : List Byte) (s : State), s.hostUp = true → s.mediaOf 6 n = some b →
     ∃ t, exec (.vdecWpWrite n off) s = .next t ∧ OnlyRegs s t [rid .usb4Link, rid .vdecSesWp n, rid .vdecSesStat n] ∧
       (off.toNat < leAt b 12 4 → t.get (rid .vdecSesWp n) 0 32 = off.toNat ∧
         t.get (rid .vdecSesStat n) 0 2 = if off.toNat = s.get (rid .vdecSesRp n) 0 32 then 2 else 1) ∧
       (leAt b 12 4 ≤ off.toNat → ∀ r, r ≠ rid .usb4Link → t.reg r = s.reg r)) ∧
   (∀ (n : Nat) (off : BitVec 32) (b : List Byte) (s : State), s.hostUp = true → s.mediaOf 7 n = some b →
     ∃ t, exec (.vencRpWrite n off) s = .next t ∧ OnlyRegs s t [rid .usb4Link, rid .vencSesRp n] ∧
       t.get (rid .vencSesRp n) 0 32 = if off.toNat < leAt b 16 4 ∧ ringHeld off.toNat (s.get (rid .vencSesRp n) 0 32) (leAt b 16 4) ≤
         ringHeld (s.get (rid .vencSesWp n) 0 32) (s.get (rid .vencSesRp n) 0 32) (leAt b 16 4) then off.toNat
         else s.get (rid .vencSesRp n) 0 32) ∧
   (∀ (n : Nat) (off : BitVec 32) (b : List Byte) (s : State), s.hostUp = true → s.mediaOf 8 n = some b →
     (∃ t, exec (.vencJpgRpWrite n off) s = .next t ∧ OnlyRegs s t [rid .usb4Link, rid .vencJpgRp n] ∧
       t.get (rid .vencJpgRp n) 0 32 = if off.toNat < leAt b 8 4 ∧ ringHeld off.toNat (s.get (rid .vencJpgRp n) 0 32) (leAt b 8 4) ≤
         ringHeld (s.get (rid .vencJpgWp n) 0 32) (s.get (rid .vencJpgRp n) 0 32) (leAt b 8 4) then off.toNat
         else s.get (rid .vencJpgRp n) 0 32) ∧
     (∃ t, exec (.vencJpgTrig n) s = .next t ∧ bit (t.reg (rid .vencJpgStat n)) 0 = true ∧
       (bit (s.reg (rid .vencJpgStat n)) 0 = true → bit (t.reg (rid .vencJpgStat n)) 1 = true ∧ t.media = s.media) ∧
       (bit (s.reg (rid .vencJpgStat n)) 0 = false → SMap.get ([], 0) t.media.jpegSrc n = s.jpegSource n b)))) ∧
  ((∀ (n : Nat) (damaged : Bool) (pic : PicKind) (used : BitVec 32) (b : List Byte) (s : State), s.mediaOf 6 n = some b →
     s.blockOn 155 2 = true →
     (used.toNat ≤ ringHeld (s.get (rid .vdecSesWp n) 0 32) (s.get (rid .vdecSesRp n) 0 32) (leAt b 12 4) →
       ∃ t, exec (.vdecFrameDecoded n damaged pic used) s = .next t ∧
         SMap.get 0 t.media.vdecBuf n = (SMap.get 0 s.media.vdecBuf n + 1) % 20 ∧
         SMap.get 0 t.media.seq n = SMap.get 0 s.media.seq n + 1 ∧
         (2 ≤ leAt b 2 1 → t.get (rid .vdecSesRp n) 0 32 = (s.get (rid .vdecSesRp n) 0 32 + used.toNat) % leAt b 12 4 % 2 ^ 32)) ∧
     (ringHeld (s.get (rid .vdecSesWp n) 0 32) (s.get (rid .vdecSesRp n) 0 32) (leAt b 12 4) < used.toNat →
       ∃ t, exec (.vdecFrameDecoded n damaged pic used) s = .next t ∧ SetsField s t (rid .vdecSesStat n) 0 2 2)) ∧
   (∀ (n : Nat) (b src : List Byte) (at_ : BitVec 64) (rest : List (List Byte × BitVec 64)) (s : State), s.mediaOf 7 n = some b →
     SMap.get [] s.media.vencSrc n = (src, at_) :: rest → s.blockOn 156 3 = true →
     ∃ t bs, exec (.vencAccessUnit n) s = .next t ∧ SMap.get [] t.media.vencSrc n = rest ∧
       SMap.get 0 t.media.seq (16 + n) = SMap.get 0 s.media.seq (16 + n) + 1 ∧
       bs = Config.encodeFrame (leAt b 1 1 + 256 * leAt b 2 1) (leAt b 6 1) (leAt b 8 4) (SMap.get 0 s.media.gop n)
         (SMap.get true s.media.idr n || decide (SMap.get 0 s.media.gop n = 0)) src ∧
       SMap.get true t.media.idr n =
         decide (ringFree (s.get (rid .vencSesWp n) 0 32) (s.get (rid .vencSesRp n) 0 32) (leAt b 16 4) < bs.length)) ∧
   (∀ (n : Nat) (s : State), SMap.get [] s.media.vencSrc n = [] → exec (.vencAccessUnit n) s = .next s) ∧
   (∀ (n : Nat) (b : List Byte) (s : State), s.mediaOf 8 n = some b →
     (bit (s.reg (rid .vencJpgStat n)) 0 = true → s.blockOn 157 4 = true →
       ∃ t, exec (.jpegImageDone n) s = .next t ∧ bit (t.reg (rid .vencJpgStat n)) 0 = false ∧
         SMap.get 0 t.media.seq (32 + n) = SMap.get 0 s.media.seq (32 + n) + 1) ∧
     (bit (s.reg (rid .vencJpgStat n)) 0 = false → exec (.jpegImageDone n) s = .next s)))

/-- R314, R315: a counted edge on a ball shows in GPIO_IN; on an input ball its record waits for the GPIO input source where the rig has one.
An edge to the level that a ball has, or on a ball that does not exist, is none. R321: the host's write of GPIO_OUT sets the bits of the
mode 2 balls, and no other.

R318: an entry of the timed-output queue whose due tick has started drives its ball at its instant low, high or to high impedance and
leaves the queue; a pulse drives its leading edge and ends at its width, at the other level. Nothing is driven early. Which registers show a
pulse's entry is the model's choice (log entry 47). -/
def Obligations.TimedIO : Prop :=
  ((∀ (ball : Nat) (level : Bool) (s : State), ball < 32 → SMap.get false s.gpio.seen ball ≠ level →
     ∃ t, exec (.gpioEdge ball level) s = .next t ∧ SMap.get false t.gpio.seen ball = level ∧
       (s.ballMode ball ≠ 1 → bit (t.reg (rid .gpioIn)) ball = level ∧ (∀ r, r ≠ rid .gpioIn → t.reg r = s.reg r) ∧ t.gpio.edges = s.gpio.edges) ∧
       (s.ballMode ball = 1 → s.media_ 9 ≠ [] →
         t.gpio.edges = s.gpio.edges ++ [(BitVec.ofNat 64 (s.edgeTime ball), ball, level)])) ∧
   (∀ (ball : Nat) (level : Bool) (s : State), 32 ≤ ball ∨ SMap.get false s.gpio.seen ball = level →
     exec (.gpioEdge ball level) s = .next s) ∧
   (∀ (value : BitVec 32) (s : State), s.hostUp = true → ∃ t, exec (.gpioOutWrite value) s = .next t ∧
     (∀ b, b < 32 → bit (t.reg (rid .gpioOut)) b = if s.ballMode b = 2 then value.getLsbD b else bit (s.reg (rid .gpioOut)) b) ∧
     (∀ b, b < 32 → s.ballMode b ≠ 2 → SMap.get none t.gpio.driven b = SMap.get none s.gpio.driven b) ∧
     ∀ r, r ≠ rid .usb4Link → r ≠ rid .gpioOut → r ≠ rid .gpioIn → t.reg r = s.reg r)) ∧
  ((∀ (e : ToqEntry) (at_ : Nat) (s : State), s.gpio.toq = [e] → e.due = some at_ → at_ ≤ s.now → bit (s.reg (rid .gpioBallCfg e.ball)) 4 = false →
     ∃ t, exec .timedOutputDue s = .next t ∧ t.gpio.toq = [] ∧ t.reg (rid .gpioToqLast) = e.tag.setWidth 64 ∧
       (e.action = 0 → SMap.get none t.gpio.driven e.ball = some false ∧ t.gpio.pulses = s.gpio.pulses) ∧
       (e.action = 1 → SMap.get none t.gpio.driven e.ball = some true ∧ t.gpio.pulses = s.gpio.pulses) ∧
       (e.action = 2 → SMap.get none t.gpio.driven e.ball = some true ∧ t.gpio.pulses = s.gpio.pulses ++ [⟨e.ball, at_ + e.width, false, e.tag⟩]) ∧
       (e.action = 3 → SMap.get none t.gpio.driven e.ball = some false ∧ t.gpio.pulses = s.gpio.pulses ++ [⟨e.ball, at_ + e.width, true, e.tag⟩]) ∧
       (e.action = 4 → SMap.get none t.gpio.driven e.ball = none ∧ t.gpio.pulses = s.gpio.pulses)) ∧
   (∀ s : State, (∀ e ∈ s.gpio.toq, ∀ at_, e.due = some at_ → s.now < at_) → exec .timedOutputDue s = .next s) ∧
   (∀ (q : Pulse) (ps : List Pulse) (s : State), s.gpio.pulses = q :: ps → q.ends ≤ s.now → bit (s.reg (rid .gpioBallCfg q.ball)) 4 = false →
     ∃ t, exec (.timedPulseEnd q.ball) s = .next t ∧ t.gpio.pulses = ps ∧ SMap.get none t.gpio.driven q.ball = some q.level ∧
       t.gpio.toq = s.gpio.toq) ∧
   (∀ (ball : Nat) (s : State), (∀ q ∈ s.gpio.pulses, q.ball = ball → s.now < q.ends) → exec (.timedPulseEnd ball) s = .next s))

/-! ### Time and the tick -/

/-- R28, R29, R57, R59: at PLL lock the global counter starts at zero; at its largest value it is reported once; a mast's copy stands apart
by what it was loaded with; the host's write of GCNT_CAPTURE bit 0, with its tunnel up, latches the counter. Otherwise none of them changes
anything. -/
def Obligations.Timebase : Prop :=
  (∀ s : State, s.timebase = false → s.power.life ≠ .deepSleep → s.power.life ≠ .tripped →
    exec .timebaseLock s = .next { s with timebase := true, gcnt := 0 }) ∧
  (∀ s : State, s.timebase = true ∨ s.power.life = .deepSleep ∨ s.power.life = .tripped → exec .timebaseLock s = .next s) ∧
  (∀ s : State, s.gcnt = BitVec.allOnes 64 → bit (s.reg (rid .gcntStatus)) 0 = false →
    ∃ t, exec .gcntSaturated s = .next t ∧ t.get (rid .gcntStatus) 0 1 = 1 ∧ t.events.last = 0x0106 ∧ t.gcnt = s.gcnt) ∧
  (∀ s : State, s.gcnt ≠ BitVec.allOnes 64 ∨ bit (s.reg (rid .gcntStatus)) 0 = true → exec .gcntSaturated s = .next s) ∧
  (∀ (m : Nat) (value loadAt : BitVec 64) (s : State), s.mastIn m = true → s.timebase = true →
    ∃ t, exec (.counterAlignment m value loadAt) s = .next t ∧ SMap.get 0 t.tick.mastOff m = value - loadAt ∧
      SMap.get false t.tick.aligned m = true ∧ (∀ k, k ≠ m → SMap.get 0 t.tick.mastOff k = SMap.get 0 s.tick.mastOff k) ∧
      Outside [.tick] s t) ∧
  (∀ (m : Nat) (value loadAt : BitVec 64) (s : State), s.mastIn m = false ∨ s.timebase = false →
    exec (.counterAlignment m value loadAt) s = .next s) ∧
  (∀ (v : BitVec 32) (s : State), s.hostUp = true → v.getLsbD 0 = true →
    ∃ t, exec (.gcntCapture v) s = .next t ∧ t.reg (rid .gcntCap) = s.gcnt ∧ OnlyRegs s t [rid .usb4Link, rid .gcntCap]) ∧
  (∀ (v : BitVec 32) (s : State), v.getLsbD 0 = false ∨ s.hostUp = false →
    ∃ t, exec (.gcntCapture v) s = .next t ∧ OnlyRegs s t [rid .usb4Link])

/-- R32, R33, R44, R45, R185, R213: at its instant a tick starts, with the period and the guard of a rig that came into force in the tick before: the tick value goes on by one, or takes TICK_NUM_BASE the first time, and stands
at its largest value; TICK_LAST is the instant; every package flag is zero at the hub; and every program whose first tick has come begins
at its first instruction with its registers zero. R50: a generator told to stop stops there instead. Before its instant, in a work window,
or stopped, no tick starts. -/
def Obligations.TickStarts : Prop :=
  (∀ (at_ : Nat) (s : State), s.tick.next = some at_ → at_ ≤ s.now → s.tick.phase = .waiting ∨ s.tick.phase = .guard →
    (s.tick.stopping = false → ∃ t, exec .tickStart s = .next t ∧ t.tick.phase = .work ∧ t.tickStart = at_ ∧
      t.t48 = (if s.tick.begun then min (s.t48 + 1) (2 ^ 48 - 1) else s.takeTick.get (rid .tickNumBase) 0 48) ∧
      (s.tick.retick = true → t.get (rid .tickPeriod) 0 17 = rigPeriod s.rig.cur % 2 ^ 17) ∧
      (s.tick.retick = false → t.period = s.period ∧ t.guardLen = s.guardLen) ∧ t.flags.pkg = [] ∧ t.flags.hub = [] ∧
      t.flags.hubWaits = [] ∧ t.flags.localSets = [] ∧
      ∀ p, s.admitted p = true → s.progState p = 2 → s.get (rid .admProgFirst p) 0 48 ≤ t.t48 →
        (t.ctx p).active = true ∧ (t.ctx p).idx = 0 ∧ t.regsOf p = {} ∧ (t.ctx p).ended = false ∧ (t.ctx p).epochs = []) ∧
    (s.tick.stopping = true → ∃ t, exec .tickStart s = .next t ∧ t.tick.phase = .stopped ∧ t.tick.next = none ∧
      t.get (rid .tickCtrl) 0 1 = 0 ∧ t.get (rid .tickStatus) 0 3 = 0 ∧
      (∀ r, r ≠ rid .tickCtrl → r ≠ rid .tickStatus → r ≠ rid .gpioIn → t.reg r = s.takeTick.reg r))) ∧
  (∀ s : State, s.tick.phase = .stopped ∨ s.tick.phase = .work ∨ s.tick.next = none ∨ (∃ at_, s.tick.next = some at_ ∧ s.now < at_) →
    exec .tickStart s = .next s)

/-- R35, R51, R52: the guard begins at the end of the work window with the fence: nothing issues any more, and a program that has not issued
tick.end has overrun. Before, or outside a work window, no guard begins. R37, Table 2.1: at 200 ns a complete half of a captured input flips,
and the age of another goes on; at 700 ns the tick is committed, and its programs run in it no more. -/
def Obligations.GuardStarts : Prop :=
  (∀ s : State, s.tick.phase = .work → s.guardTime ≤ s.now →
    ∃ t, exec .guardStart s = .next t ∧ t.tick.phase = .guard ∧ t.tick.guardAt = s.now ∧ t.tick.stage = 0 ∧ t.gcnt = s.gcnt ∧
      (∀ p i, t.canIssue p i = false) ∧ (∀ a, t.byte a = s.byte a) ∧
      ∀ p, s.admitted p = true → (s.ctx p).active = true → (s.ctx p).ended = false → (t.ctx p).conds.getLsbD 3 = true) ∧
  (∀ s : State, s.tick.phase ≠ .work ∨ s.now < s.guardTime → exec .guardStart s = .next s) ∧
  (∀ s : State, s.tick.phase = .guard → s.tick.stage = 0 → s.tick.guardAt + 200 ≤ s.now → s.media_ 9 = [] →
    s.guardStep.tick.stage = 1 ∧ ∀ p, s.admitted p = true → ∀ i ∈ s.captureInputs p,
      s.guardStep.input ⟨p, i⟩ = State.flipInput (s.input ⟨p, i⟩)) ∧
  (∀ s : State, s.tick.phase = .guard → s.tick.stage = 1 → s.tick.guardAt + 700 ≤ s.now →
    s.guardStep.tick.stage = 2 ∧ ∀ p, s.guardStep.admitted p = true → (s.guardStep.ctx p).active = false) ∧
  (∀ s : State, s.tick.phase = .guard → (s.tick.stage = 0 ∧ s.now < s.tick.guardAt + 200 ∨ s.tick.stage = 1 ∧ s.now < s.tick.guardAt + 700 ∨
    s.tick.stage = 2 ∧ s.now < s.tick.guardAt + 900) → s.guardStep = s)

/-- R40: while TICK_IN places the boundaries, an edge of the configured polarity within a quarter guard of the expected boundary E ends the
tick: the next starts 8 ns after it, and TICK_IN_ERR holds its distance from E. One before that is TICK_IN_EARLY and is ignored; one after
it, of the other polarity, or while ticks are internal, changes nothing. With none by E + G/4 the next tick starts there, in holdover. R43:
a generator with an early edge in each of sixteen holdover ticks places no boundary, and awaits the next edge from E − G/4 on. -/
def Obligations.TickInput : Prop :=
  (∀ (f : Bool) (s : State), bit (s.reg (rid .tickCtrl)) 1 = true → f = bit (s.reg (rid .tickInCfg)) 0 →
    s.tick.phase = .work ∨ s.tick.phase = .guard → s.tick.accepted = false → s.tick.relockFrom = none →
    (4 * s.expected ≤ 4 * s.now + s.guardLen → 4 * s.now ≤ 4 * s.expected + s.guardLen →
      ∃ t, exec (.tickInEdge f) s = .next t ∧ t.tick.next = some (s.now + 8) ∧ t.tick.accepted = true ∧
        t.reg (rid .tickInErr) = (BitVec.ofInt 32 ((s.now : Int) - s.expected)).setWidth 64 ∧ t.get (rid .tickStatus) 2 1 = 0) ∧
    (4 * s.now + s.guardLen < 4 * s.expected → ∃ t, exec (.tickInEdge f) s = .next t ∧ t.events.last = 0x0102 ∧ t.tick.next = s.tick.next ∧
      t.tick.earlySeen = true) ∧
    (4 * s.expected + s.guardLen < 4 * s.now → exec (.tickInEdge f) s = .next s)) ∧
  (∀ (f : Bool) (s : State), bit (s.reg (rid .tickCtrl)) 1 = false ∨ f ≠ bit (s.reg (rid .tickInCfg)) 0 ∨ s.tick.phase = .stopped ∨
    s.tick.phase ≠ .waiting ∧ s.tick.accepted = true → exec (.tickInEdge f) s = .next s) ∧
  (∀ s : State, bit (s.reg (rid .tickCtrl)) 1 = true → s.tick.phase = .guard → s.tick.accepted = false → s.tick.relockFrom = none →
    bit (s.reg (rid .tickStatus)) 2 = false →
    (s.expected + s.guardLen / 4 ≤ s.now → ∃ t, exec .tickInLost s = .next t ∧ t.get (rid .tickStatus) 2 1 = 1 ∧ t.events.last = 0x0103 ∧
      t.tick.next = some (s.expected + s.guardLen / 4)) ∧
    (s.now < s.expected + s.guardLen / 4 → exec .tickInLost s = .next s)) ∧
  (∀ s : State, bit (s.reg (rid .tickStatus)) 2 = true → s.tick.held = true → s.tick.earlySeen = true → s.tick.accepted = false → s.tick.relockFrom = none →
    s.tick.phase = .work ∨ s.tick.phase = .guard →
    (15 ≤ s.tick.earlyRun → ∃ t, exec .holdoverRelock s = .next t ∧ t.tick.next = none ∧
      t.tick.relockFrom = some (s.expected - s.guardLen / 4) ∧ Outside [.tick] s t) ∧
    (s.tick.earlyRun < 15 → exec .holdoverRelock s = .next s)) ∧
  (∀ s : State, s.tick.held = false → exec .holdoverRelock s = .next s)

/-- R50: the MP sets run while a rig is in force: a stopped generator that starts by itself places its first tick; run is cleared only while
no program is admitted, and stops it at the next boundary. R56: TICK_OUT rises 20 ns after the tick start for ten times the configured
width, once per tick; R55: a frame-sync generator pulses in its ticks at its offset for its width, and drives its
ball, where that is in frame-sync mode, to its active level. -/
def Obligations.RunAndPulses : Prop :=
  (∀ s : State, s.fwRuns 1 = true → s.rigValid = true → s.tick.phase = .stopped → bit (s.reg (rid .tickCtrl)) 1 = false →
    ∃ t, exec .tickRunSet s = .next t ∧ t.tick.phase = .waiting ∧ t.get (rid .tickCtrl) 0 1 = 1 ∧ t.get (rid .tickStatus) 0 1 = 1 ∧
      t.tick.next = some (if (s.reg (rid .tickStartAt)).toNat ≠ 0 ∧ s.now ≤ (s.reg (rid .tickStartAt)).toNat then
        (s.reg (rid .tickStartAt)).toNat else s.now + 1000)) ∧
  (∀ s : State, s.fwRuns 1 = false ∨ s.rigValid = false → exec .tickRunSet s = .next s) ∧
  (∀ s : State, s.fwRuns 1 = true → s.anyAdmitted = false → s.tick.phase ≠ .stopped →
    ∃ t, exec .tickRunClear s = .next t ∧ t.tick.stopping = true ∧ SetsField { s with tick := t.tick } t (rid .tickCtrl) 0 1 0) ∧
  (∀ s : State, s.fwRuns 1 = false ∨ s.anyAdmitted = true ∨ s.tick.phase = .stopped → exec .tickRunClear s = .next s) ∧
  (∀ s : State, bit (s.reg (rid .tickCtrl)) 2 = true → s.tick.phase = .work → s.tickStart + 20 ≤ s.now →
    s.tick.outPulse.map (·.1) ≠ some (s.tickStart + 20) → ∃ t, exec .tickOutPulse s = .next t ∧ Outside [.tick] s t ∧
      t.tick.outPulse = some (s.tickStart + 20, s.tickStart + 20 + 10 * s.get (rid .tickOutCfg) 0 10) ∧
      exec .tickOutPulse t = .next t) ∧
  (∀ s : State, bit (s.reg (rid .tickCtrl)) 2 = false ∨ s.tick.phase ≠ .work ∨ s.now < s.tickStart + 20 →
    exec .tickOutPulse s = .next s) ∧
  (∀ (n : Nat) (s : State), n < 16 → s.fsyncTick n = true → s.tick.phase = .work ∨ s.tick.phase = .guard →
    s.tickStart + s.get (rid .tickFsyncB n) 0 27 ≤ s.now →
    (SMap.get (0, 0) s.tick.fsync n).1 ≠ s.tickStart + s.get (rid .tickFsyncB n) 0 27 →
    ∃ t, exec (.fsyncPulse n) s = .next t ∧ Outside [.tick, .regs, .gpio] s t ∧ SMap.get (0, 0) t.tick.fsync n =
      (s.tickStart + s.get (rid .tickFsyncB n) 0 27,
       s.tickStart + s.get (rid .tickFsyncB n) 0 27 + 1000 * s.get (rid .tickFsyncA n) 24 8) ∧
      (s.ballMode (s.fsyncBall n) = 4 → bit (s.reg (rid .gpioBallCfg (s.fsyncBall n))) 4 = false →
        SMap.get none t.gpio.driven (s.fsyncBall n) = some (!bit (s.reg (rid .tickFsyncA n)) 22) ∧
        bit (t.reg (rid .gpioIn)) (s.fsyncBall n) = !bit (s.reg (rid .tickFsyncA n)) 22) ∧
      (s.ballMode (s.fsyncBall n) ≠ 4 → Outside [.tick] s t)) ∧
  (∀ (n : Nat) (s : State), 16 ≤ n ∨ s.fsyncTick n = false ∨ s.now < s.tickStart + s.get (rid .tickFsyncB n) 0 27 →
    exec (.fsyncPulse n) s = .next s)

/-! ### Register access -/

/-- R15, R16: a read of the low word of a 64-bit register latches its high word for that requester, and a read of the high word returns what
that requester has latched, zero where it has latched nothing since reset; no requester disturbs another's latch. A write of the low word
fills the requester's holding register and changes nothing visible; its write of the high word then gives the register the two joined, or
joins the high word with the current low word where it holds none, and empties the holding register. R12: a bit that hardware has set in the
nanosecond stays. What a requester may set is as the
access codes give; no requester disturbs what another holds. -/
def Obligations.WideRegisters : Prop :=
  ∀ (rq : Requester) (off : Nat) (r : RegId) (s u : State), Enters rq s u → regAt off = some (r, 0) →
    regAt (off + 4) = some (r, 1) → r.name.desc.bytes = 8 →
    (State.specialAt off = none → u.answers r = true → ∃ t, exec (.lowWordRead rq off) s = .next t ∧
      t.queue.readData = (u.view r).setWidth 32 ∧ t.latched rq off = (u.view r >>> 32).setWidth 32 ∧
      (∀ q o, q ≠ rq → t.latched q o = u.latched q o) ∧ (∀ q, t.reg q = u.reg q) ∧ ∀ a, t.byte a = s.byte a) ∧
    (State.specialAt (off + 4) = none → u.answers r = true → ∃ t, exec (.lowWordRead rq (off + 4)) s = .next t ∧
      t.queue.readData = u.latched rq off ∧ (∀ q o, t.latched q o = u.latched q o) ∧ ∀ q, t.reg q = u.reg q) ∧
    State.reset.latched rq off = 0 ∧ State.reset.held rq off = none ∧
    (∀ v : BitVec 32, u.mayHold rq r = true → ∃ t, exec (.lowWordWrite rq off v) s = .next t ∧ t.held rq off = some v ∧
      (∀ q o, q ≠ rq → t.held q o = u.held q o) ∧ (∀ q, t.reg q = u.reg q) ∧ ∀ a, t.byte a = s.byte a) ∧
    (∀ v low : BitVec 32, u.mayHold rq r = true → r.name ≠ .dattUpdEntry → low = (u.held rq off).getD ((u.reg r).setWidth 32) →
      ∃ t, exec (.highWordWrite rq (off + 4) v) s = .next t ∧ t.held rq off = none ∧
        (∀ q o, q ≠ rq → t.held q o = u.held q o) ∧ (∀ q, q ≠ r → t.reg q = u.reg q) ∧ ∀ n, bit (t.reg r) n =
          if u.w1cOk rq r && (BitVec.ofNat 64 r.name.desc.w1c).getLsbD n && (v ++ low).getLsbD n && bit (u.regWas r) n then false
          else if (u.setMask rq r (v ++ low)).getLsbD n then (v ++ low).getLsbD n else bit (u.reg r) n) ∧
    (∀ v : BitVec 32, u.mayHold rq r = false → exec (.lowWordWrite rq off v) s = .next u ∧ exec (.highWordWrite rq (off + 4) v) s = .next u)

/-- R11, R12, Table 0.5: a write of a 32-bit register sets the fields that the requester may set, clears the W1C bits that it may clear and
writes as 1, but one that hardware has set in this nanosecond, and leaves every other bit and every other register. An offset that holds no register reads zero and takes no write; a
requester whose access does not reach the part changes nothing. -/
def Obligations.RegisterWrites : Prop :=
  (∀ (rq : Requester) (off : Nat) (v : BitVec 32) (r : RegId) (s u : State), Enters rq s u → regAt off = some (r, 0) →
    State.specialAt off = none → r.name.desc.bytes ≠ 8 → r.name ∉ ownRows → u.answers r = true →
    ∃ t, exec (.registerWrite rq off v) s = .next t ∧ OnlyRegs u t [r] ∧ ∀ n, n < 32 → bit (t.reg r) n =
      if u.w1cOk rq r && (BitVec.ofNat 64 r.name.desc.w1c).getLsbD n && v.getLsbD n && bit (u.regWas r) n then false
      else if (u.setMask rq r (v.setWidth 64)).getLsbD n then v.getLsbD n else bit (u.reg r) n) ∧
  (∀ (rq : Requester) (off : Nat) (v : BitVec 32) (s u : State), Enters rq s u → regAt off = none → State.specialAt off = none →
    exec (.registerWrite rq off v) s = .next u ∧ ∃ t, exec (.lowWordRead rq off) s = .next t ∧ t.queue.readData = 0) ∧
  (∀ (rq : Requester) (off : Nat) (v : BitVec 32) (s : State), (∀ u, ¬ Enters rq s u) → exec (.registerWrite rq off v) s = .next s ∧
    exec (.lowWordRead rq off) s = .next s ∧ exec (.lowWordWrite rq off v) s = .next s ∧ exec (.highWordWrite rq off v) s = .next s)

/-! ### Programs and rigs -/

/-- R254, R260: the doorbell of a mailbox (LAUNCH, RESTART, LOAD_RIG, LOAD_PROG, UNLOAD, REVERT) that is busy only sets its drop bit; an idle
one that holds the request with a bad field is answered COMMAND with the field's offset, and MBOX_DONE is raised. One that its requester
cannot reach, or that holds another request, does nothing. -/
def Obligations.Mailboxes : Prop :=
  ∀ c ∈ mailboxCommands, ∀ (n : Nat) (s : State),
    (∀ u, EntersMbox n s u →
      (u.mboxBusy n = true → ∃ t, exec (c.1 n) s = .next t ∧ SetsField u t (rid .admMboxStat n) 2 1 1) ∧
      (∀ o, u.mboxBusy n = false → u.mboxCmd n = c.2 → commandFault (u.mboxReq n) = some o →
        ∃ t, exec (c.1 n) s = .next t ∧ Refused t n 0x33 ∧ t.get (rid .admMboxResp n 2) 0 32 = o % 2 ^ 32 ∧ t.events.last = 0x0927 ∧
          t.rig = u.rig ∧ t.progs = u.progs ∧ t.queue = u.queue) ∧
      (u.mboxBusy n = false → u.mboxCmd n ≠ c.2 → exec (c.1 n) s = .next u)) ∧
    ((∀ u, ¬ EntersMbox n s u) → exec (c.1 n) s = .next s)

/-- R47, R49, R255 to R257: a LAUNCH or RESTART whose handles may all be launched is accepted for its first tick and stays busy; one that
names no admitted program is answered NO_PROGRAM. It is armed at step 6 of the guard before its first run: its programs run from the next
tick on, and the mailbox is answered. -/
def Obligations.Launches : Prop :=
  (∀ (c : (Nat → Instr) × Nat) (n : Nat) (s u : State), c ∈ mailboxCommands → c.2 = 3 ∨ c.2 = 6 → EntersMbox n s u → u.mboxBusy n = false →
    u.mboxCmd n = c.2 → commandFault (u.mboxReq n) = none →
    let v := u.put (rid .admMboxStat n) 0 1 1
    (v.launchHandles (v.mboxReq n) ≠ [] → (∀ h ∈ v.launchHandles (v.mboxReq n), v.launchBad c.2 h = none) → leAt (v.mboxReq n) 0x10 1 ≠ 2 →
      ∃ t, exec (c.1 n) s = .next t ∧ t.mboxBusy n = true ∧ t.queue.launches = u.queue.launches ++
        [⟨n, v.launchHandles (v.mboxReq n), v.launchFirst (v.mboxReq n) (v.launchHandles (v.mboxReq n))⟩]) ∧
    (∀ h hs, v.launchHandles (v.mboxReq n) = h :: hs → v.ofHandle h = none →
      ∃ t, exec (c.1 n) s = .next t ∧ Refused t n 0x30 ∧ t.queue = u.queue)) ∧
  (∀ (n h p : Nat) (l : LaunchReq) (ls : List LaunchReq) (s : State), s.queue.launches = l :: ls → l ∉ ls → l.mbox = n → l.handles = [h] →
    s.ofHandle h = some p → s.launchable (s.mboxCmd n) p = true → l.first = s.nextT48 → s.tick.phase = .guard → s.step6Now = true →
    s.leavesDone = true → s.rigDone = true →
    ∃ t, exec (.launchArmed n) s = .next t ∧ t.queue.launches = ls ∧ t.progState p = 2 ∧
      t.get (rid .admProgFirst p) 0 48 = s.nextT48 % 2 ^ 48 ∧ t.mboxBusy n = false ∧ t.get (rid .admMboxResp n 0) 8 8 = 0) ∧
  (∀ (n : Nat) (s : State), s.tick.phase ≠ .guard ∨ s.step6Now = false ∨ s.leavesDone = false ∨ s.rigDone = false ∨ s.queue.launches = [] →
    exec (.launchArmed n) s = .next s)

/-- R239, R240, R243, R247, R255: the load-type requests, at an idle mailbox with nothing before them: a LOAD_PROG that passes its checks is
admitted at the lowest free number, under a handle of that number, and stays busy until its copy is made; one that fails is refused for its
reason; LOAD_RIG and REVERT wait for step 6 while the generator runs, with the rig in force as it was; UNLOAD marks its program; each waits
while the processor that serves it is down. -/
def Obligations.Loads : Prop :=
  ∀ (n : Nat) (s u : State), EntersMbox n s u → u.mboxBusy n = false → u.rig.queue = [] → u.rig.settle = none →
    commandFault (u.mboxReq n) = none →
    let v := taken u n
    (u.mboxCmd n = 2 → (v.up 2 = false ∨ v.copying ≠ none → exec (.loadProg n) s = .next v) ∧
      (∀ img, v.up 2 = true → v.copying = none → v.fetchImage n 31 = .got img →
        v.wantsSp ((sectAt img (boxSects img) 8).isSome || v.fuse 1 || v.policy 0) = false →
        (∀ p, (v.verdict img (parseBox img) (leAt (v.mboxReq n) 0x24 1)).bad = none → leAt (v.mboxReq n) 1 1 % 2 = 0 → v.freeNumber = some p →
          ∃ t, exec (.loadProg n) s = .next t ∧ t.progState p = 1 ∧ (t.prog p).box = parseBox img ∧ (t.ctx p).active = false ∧
            ((∀ q ∈ (v.verdict img (parseBox img) (leAt (v.mboxReq n) 0x24 1)).place.slots, q.1 < 7) → t.get (rid .admProgA p) 16 16 % 64 = p) ∧
            t.events.last = 0x0922 ∧ t.mboxBusy n = true) ∧
        (∀ r, (v.verdict img (parseBox img) (leAt (v.mboxReq n) 0x24 1)).bad = some r → r.step < 14 → r.status = 1 →
          ∃ t, exec (.loadProg n) s = .next t ∧ Refused t n (r.reason % 256) ∧ t.progs = u.progs ∧ t.rig.queue = []))) ∧
    (u.mboxCmd n = 1 → (v.up 1 = false → exec (.loadRig n) s = .next v) ∧
      (∀ img, v.up 1 = true → v.rig.staged = none → v.fetchImage n 30 = .got img → v.wantsSp (decide (rigSects img = 13) || v.fuse 0) = false →
        (∀ r, v.rigChecks img = some r → r.status = 1 →
          ∃ t, exec (.loadRig n) s = .next t ∧ Refused t n (r.reason % 256) ∧ t.rig.cur = u.rig.cur ∧ t.rig.staged = none) ∧
        (v.rigChecks img = none → v.tick.phase ≠ .stopped →
          ∃ t, exec (.loadRig n) s = .next t ∧ t.rig.staged = some (img, n) ∧ t.rig.cur = u.rig.cur ∧ t.mboxBusy n = true))) ∧
    (u.mboxCmd n = 5 → v.up 1 = true → v.rig.revert = none →
      (v.rig.prev = [] → ∃ t, exec (.revert n) s = .next t ∧ Refused t n 0x31 ∧ t.rig.cur = u.rig.cur) ∧
      (v.rig.prev ≠ [] → v.tick.phase ≠ .stopped → ∃ t, exec (.revert n) s = .next t ∧ t.rig.cur = u.rig.cur ∧
        t.rig.revert = some (n, decide (leAt (v.mboxReq n) 1 1 / 2 % 2 = 1)) ∧ t.mboxBusy n = true)) ∧
    (u.mboxCmd n = 4 → ∀ h, h = leAt (u.mboxReq n) 0x14 2 →
      (u.ofHandle h = none → ∃ t, exec (.unload n) s = .next t ∧ Refused t n 0x30 ∧ t.progs = u.progs) ∧
      (∀ p, u.ofHandle h = some p → u.leaving p = false → u.tick.phase ≠ .stopped →
        ∃ t, exec (.unload n) s = .next t ∧ t.leaving p = true ∧ t.progs = u.progs ∧ t.rig.queue = [n] ∧ t.mboxBusy n = true))

/-- R240, R243, R258, R412: at step 6 of a guard, in this order: a program marked by an UNLOAD leaves, its number is empty, and PROG_UNLOADED is
raised; an accepted rig takes effect, the rig in force becoming the previous one; a REVERT exchanges the two; each then lets the requests that
wait be served. R207: a LOAD_PROG completes when its program's image has been copied, and its mailbox is answered. Before step 6, or with a
processor that it needs down, none of them happens. -/
def Obligations.StepSix : Prop :=
  (∀ (p : Nat) (s : State), s.admitted p = true → s.leaving p = true → s.step6Now = true →
    ∃ u : State, exec (.progRemoved p) s = .next u.serveAll ∧ u.progState p = 0 ∧ u.prog p = {} ∧ u.events.last = 0x0925 ∧ u.rig.queue = s.rig.queue ∧
      (s.rig.queue = [] → exec (.progRemoved p) s = .next (u.put (rid .admTpStat) 0 1 0))) ∧
  (∀ (p : Nat) (s : State), s.admitted p = false ∨ s.leaving p = false ∨ s.step6Now = false → exec (.progRemoved p) s = .next s) ∧
  (∀ (n : Nat) (img : List Byte) (s : State), s.rig.staged = some (img, n) → s.step6Now = true → s.rigHands img = true →
    s.leavesDone = true →
    ∃ u : State, exec .rigApplied s = .next u.serveAll ∧ u.rig.cur = img ∧ u.rig.prev = s.rig.cur ∧ u.rig.staged = none ∧ u.rig.queue = s.rig.queue ∧
      u.sec.rigHigh = max s.sec.rigHigh (rigVersion img) ∧ (∃ w, u.rig.settle = some w ∧ w.mbox = n)) ∧
  (∀ s : State, s.rig.staged = none ∨ s.step6Now = false ∨ s.leavesDone = false ∨ s.fwRuns 1 = false → exec .rigApplied s = .next s) ∧
  (∀ (n : Nat) (persist : Bool) (s : State), s.rig.revert = some (n, persist) → s.step6Now = true → s.revertHands = true →
    s.leavesDone = true →
    ∃ u : State, exec .rigReverted s = .next u.serveAll ∧ u.rig.cur = s.rig.prev ∧ u.rig.prev = s.rig.cur ∧ u.rig.revert = none ∧
      u.rig.queue = s.rig.queue ∧ (∃ w, u.rig.settle = some w ∧ w.mbox = n) ∧
      ∀ p, s.admitted p = true → s.depDiffers p s.rig.cur s.rig.prev = true → u.admitted p = false) ∧
  (∀ s : State, s.rig.revert = none ∨ s.step6Now = false ∨ s.leavesDone = false ∨ s.fwRuns 1 = false → exec .rigReverted s = .next s) ∧
  (∀ (p n : Nat) (rest : List Nat) (s : State), s.rig.queue = n :: rest → s.copying = some p → s.mboxCmd n = 2 → s.up 2 = true →
    (∀ m ∈ s.progMasts p, s.fwRuns (3 + m) = true) →
    ∃ u : State, exec (.imemCopyDone p) s = .next u.nextLoad ∧ (u.prog p).copied = true ∧ u.mboxBusy n = false ∧ u.get (rid .admMboxStat n) 1 1 = 1 ∧
      u.get (rid .admMboxResp n 0) 8 8 = 0 ∧ u.events.last = 0x0927 ∧ u.rig.queue = s.rig.queue) ∧
  (∀ (p : Nat) (s : State), s.copying ≠ some p ∨ s.rig.queue = [] ∨ s.up 2 = false → exec (.imemCopyDone p) s = .next s)

/-! ### The host side -/

/-- R329: a USB4 disconnect, the loss of the tunnel, a hot reset and a function level reset clear the MSI-X table and its pending bits,
return the function to D0, disable every queue that lies in the host window, and stop the host's channels; none happens without a link to
lose.

R322, R323, R328, R344: the tunnel comes up at its generation on a part that runs, and HOST_LINK_UP is raised; D3hot closes the register
space to the host, D0 opens it; each is USB4_LINK's alone.

R326: an access through BAR2 of the host, its tunnel up, reaches the package where a window grants it: a write to Stay SRAM stores its
four bytes, one to a yard sets out over the crosstree (R276), and a read finds the writes before it done; outside every window a read gives all
ones and a write is discarded. -/
def Obligations.HostLink : Prop :=
  ((∀ (i : Instr) (s : State), (i = .usb4Disconnect ∧ s.get (rid .usb4Link) 0 2 ≠ 0) ∨ (i = .pcieTunnelLoss ∧ s.tunnelUp = true) ∨
       (i = .hotReset ∧ s.tunnelUp = true) ∨ (i = .functionLevelReset ∧ s.tunnelUp = true) →
     ∃ t, exec i s = .next t ∧ t.queue.msix = [] ∧ t.queue.pba = [] ∧ bit (t.reg (rid .usb4Link)) 5 = false ∧
       (∀ q ∈ s.listedQueues, s.qHost q = true → t.qOn q = false) ∧ (∀ ch, ch < 28 → t.chan ch = {} ∧ t.chState ch = 4) ∧
       t.get (rid .usb4DownCnt) 0 32 = min (s.get (rid .usb4DownCnt) 0 32 + 1) (2 ^ 32 - 1) ∧
       (i = .usb4Disconnect ∨ i = .pcieTunnelLoss → t.tunnelUp = false)) ∧
   (∀ s : State, s.tunnelUp = false → exec .pcieTunnelLoss s = .next s ∧ exec .hotReset s = .next s ∧ exec .functionLevelReset s = .next s) ∧
   (∀ s : State, s.get (rid .usb4Link) 0 2 = 0 → exec .usb4Disconnect s = .next s)) ∧
  ((∀ (gen3 : Bool) (s : State), s.tunnelUp = false → s.power.life = .running →
     ∃ t, exec (.hostLinkUp gen3) s = .next t ∧ t.tunnelUp = true ∧ t.get (rid .usb4Link) 0 2 = (if gen3 then 3 else 2) ∧
       t.events.last = 0x0702 ∧ t.hostUp = true) ∧
   (∀ (gen3 : Bool) (s : State), s.tunnelUp = true ∨ s.power.life ≠ .running → exec (.hostLinkUp gen3) s = .next s) ∧
   (∀ s : State, s.tunnelUp = true → ∃ t, exec .d3hotEntry s = .next t ∧ SetsField s t (rid .usb4Link) 5 1 1 ∧ t.hostUp = false) ∧
   (∀ s : State, s.tunnelUp = false → exec .d3hotEntry s = .next s) ∧
   (∀ s : State, ∃ t, exec .d0Return s = .next t ∧ SetsField s t (rid .usb4Link) 5 1 0 ∧ t.hostUp = s.tunnelUp)) ∧
  (∀ (off a : Nat) (v : BitVec 32) (s u : State), s.hostUp = true → u = s.hostTouch → a = u.get (rid .usb4ApBase) 30 10 * 2 ^ 30 + off →
     (u.accessStatus 0 a 4 true = 0 → ∀ o, regionOf a = .stay o → ∃ t, exec (.bar2Access off (some v)) s = .next t ∧
       ∀ b, t.byte b = (storeAll s [(a, leN 4 v.toNat)]).byte b) ∧
     (u.accessStatus 0 a 4 true = 0 → ∀ m y o, regionOf a = .yard m y o → ∃ t, exec (.bar2Access off (some v)) s = .next t ∧
       (∀ b, t.byte b = s.byte b) ∧ t.fabric.waiting = s.fabric.waiting ++ (lineSplit a (leN 4 v.toNat)).map fun q =>
         { src := 7, dst := m, addr := q.1, data := q.2, prog := none, rank := State.otherRank, ready := s.now }) ∧
     (u.accessStatus 0 a 4 true ≠ 0 → exec (.bar2Access off (some v)) s = .next u) ∧
     (u.accessStatus 0 a 4 false ≠ 0 → ∃ t, exec (.bar2Access off none) s = .next t ∧ t.queue.readData = 0xFFFFFFFF ∧
       ∀ b, t.byte b = s.byte b) ∧
     (u.accessStatus 0 a 4 false = 0 → State.inHost a = false → s.unlanded = [] → ∃ t, exec (.bar2Access off none) s = .next t ∧
       t.queue.readData = BitVec.ofNat 32 (leAt (s.bytes a 4) 0 4) ∧ ∀ b, t.byte b = s.byte b))

/-- R330 to R332, R335: the driver switches a queue on and off and its signalling, in the queue's flags alone; a queue whose indices differ
is not switched on, but recorded. A doorbell of a queue that is on sets the index that the driver owns, unless it would leave more
entries than the ring holds: that is recorded in QM_DB_BAD, and DB_BAD is raised. -/
def Obligations.QueueControl : Prop :=
  ∀ (q : Nat) (s : State), s.hostUp = true →
    (∀ irq, s.qOn q = true ∨ s.qProd q = s.qCons q → ∃ t, exec (.queueEnable q irq) s = .next t ∧ t.qOn q = true ∧ t.qIrq q = irq ∧
      BytesBut s t (qDesc q + 12) 2) ∧
    (∀ irq, ∃ t, exec (.queueDisable q irq) s = .next t ∧ t.qOn q = false ∧ t.qIrq q = irq ∧ BytesBut s t (qDesc q + 12) 2) ∧
    (∀ irq, ∃ t, exec (.irqEnableChange q irq) s = .next t ∧ t.qOn q = s.qOn q ∧ t.qIrq q = irq ∧
      BytesBut s t (qDesc q + 12) 2) ∧
    (∀ irq, s.qOn q = false → s.qProd q ≠ s.qCons q → ∃ t, exec (.queueEnable q irq) s = .next t ∧ (∀ a, t.byte a = s.byte a) ∧
      bit (t.reg (rid .qmDbBad)) 0 = true ∧ t.events.last = 0x0703) ∧
    (∀ value : BitVec 64, s.qOn q = false ∨ s.qKind q = 0 ∨ s.qEntries q < s.qOccAfter q (value.toNat % 2 ^ 32) →
      ∃ t, exec (.doorbell q value) s = .next t ∧ (∀ a, t.byte a = s.byte a) ∧ bit (t.reg (rid .qmDbBad)) 0 = true ∧ t.events.last = 0x0703) ∧
    (∀ value : BitVec 64, s.qOn q = true → s.qKind q ≠ 0 → s.qOccAfter q (value.toNat % 2 ^ 32) ≤ s.qEntries q →
      ∃ t, exec (.doorbell q value) s = .next t ∧ (if s.qKind q = 1 then t.qProd q else t.qCons q) = value.toNat % 2 ^ 32 ∧
        BytesBut s t (qDesc q + (if s.qKind q = 1 then 0x10 else 0x14)) 4)

/-- R335, R338, R341: the next result is published, or counted in QM_UNBOUND_CNT where its head has no queue; a queue's time threshold
signals its vector; the arbiter takes the head of a FIFO under the next number; a FIFO that has lost records and has room takes an EVT_LOST
record with their count. With nothing to do nothing changes. -/
def Obligations.QueueManager : Prop :=
  (∀ (r : Result) (rs : List Result) (s : State), s.queue.results = r :: rs → ∃ t, exec .resultPublish s = .next t ∧ t.queue.results = rs ∧
    (r.bind.getLsbD 15 = false → t.get (rid .qmUnboundCnt) 0 32 = min (s.get (rid .qmUnboundCnt) 0 32 + 1) (2 ^ 32 - 1) ∧
      OnlyRegs { s with queue := t.queue } t [rid .qmUnboundCnt])) ∧
  (∀ s : State, s.queue.results = [] → exec .resultPublish s = .next s) ∧
  (∀ (q : Nat) (s : State), s.qIrq q = true → SMap.get 0 s.queue.timers q ≠ 0 →
    SMap.get 0 s.queue.timers q - 1 + 1000 * s.qField q 0x1A 2 ≤ s.now → s.hostUp = true →
    (SMap.get 1 s.queue.msix (4 * s.qField q 10 2 + 3)).getLsbD 0 = false →
    ∃ t, exec (.irqTimeThreshold q) s = .next t ∧ Outside [.queue] s t ∧ SMap.get 0 t.queue.timers q = 0 ∧ SMap.get 0 t.queue.counts q = 0 ∧
      SMap.get 0 t.queue.sent (s.qField q 10 2) = SMap.get 0 s.queue.sent (s.qField q 10 2) + 1) ∧
  (∀ (q : Nat) (s : State), s.qIrq q = false ∨ SMap.get 0 s.queue.timers q = 0 ∨
    s.now < SMap.get 0 s.queue.timers q - 1 + 1000 * s.qField q 0x1A 2 → exec (.irqTimeThreshold q) s = .next s) ∧
  (∀ (key : Nat) (e : Event) (es : List Event) (s : State), s.events.fifos = [(key, e :: es)] → e.time ≤ s.gcnt → key ≠ State.fifoKey 7 0x0705 →
    ∃ t, exec .eventTaken s = .next t ∧ SMap.get [] t.events.fifos key = es ∧ t.reg (rid .evtSeq) = s.reg (rid .evtSeq) + 1) ∧
  (∀ s : State, s.events.fifos = [] → exec .eventTaken s = .next s) ∧
  (∀ (die group : Nat) (s : State), SMap.get 0 s.events.lost (die * 256 + group) ≠ 0 →
    (SMap.get [] s.events.fifos (die * 256 + group)).length < 16 → ∃ t e, exec (.evtLost die group) s = .next t ∧
      SMap.get [] t.events.fifos (die * 256 + group) = SMap.get [] s.events.fifos (die * 256 + group) ++ [e] ∧ e.code = 0x0706 ∧
      e.arg16 = BitVec.ofNat 16 (min (SMap.get 0 s.events.lost (die * 256 + group)) 0xFFFF) ∧
      SMap.get 0 t.events.lost (die * 256 + group) = 0 ∧ Outside [.events] s t) ∧
  (∀ (die group : Nat) (s : State), SMap.get 0 s.events.lost (die * 256 + group) = 0 ∨
    16 ≤ (SMap.get [] s.events.fifos (die * 256 + group)).length → exec (.evtLost die group) s = .next s)

/-- R347 to R349: a downhaul (the keyed write of QM_DOWNHAUL by the host or the MP, DOWNHAUL_N held low) records its source and time, strikes
every program that has been launched, and empties the timed-output queue and the launches in hand; any other value is discarded. The
release of DOWNHAUL_N shows in QM_DH_STAT alone. -/
def Obligations.Downhauls : Prop :=
  (∀ (i : Instr) (source : Nat) (s : State), (i = .qmDownhaul .mp 0xD0A10001 ∧ source = 3 ∧ s.fwRuns 1 = true) ∨
      (i = .qmDownhaul .host 0xD0A10001 ∧ source = 1 ∧ s.hostUp = true) ∨
      (i = .downhaulN ∧ source = 2 ∧ s.power.downhaulLow = false ∧ s.power.life ≠ .deepSleep ∧ s.power.life ≠ .tripped) →
    ∃ t, exec i s = .next t ∧ t.get (rid .qmDhStat) 1 2 = source ∧ t.reg (rid .qmDhTime) = s.gcnt ∧
      ((∃ p, s.admitted p = true ∧ s.progState p = 2) → t.gpio.toq = [] ∧ t.gpio.pulses = [] ∧ t.queue.launches = [] ∧ t.struck = true ∧
        ∀ p, s.admitted p = true → s.progState p = 2 → t.progState p = 3 ∧ (t.ctx p).active = false ∧ (t.ctx p).run = .struck ∧
          ∀ j, t.canIssue p j = false)) ∧
  (∀ (rq : Requester) (value : BitVec 32) (s : State), rq = .sp ∨ rq = .tp ∨ (∃ m, rq = .ms m) ∨
    rq = .mp ∧ (value ≠ 0xD0A10001 ∨ s.fwRuns 1 = false) ∨ rq = .host ∧ s.hostUp = false → exec (.qmDownhaul rq value) s = .next s) ∧
  (∀ (value : BitVec 32) (s : State), value ≠ 0xD0A10001 → s.hostUp = true → exec (.qmDownhaul .host value) s = .next s.hostTouch) ∧
  (∀ s : State, s.power.downhaulLow = true → exec .downhaulN s = .next s) ∧
  (∀ s : State, ∃ t, exec .downhaulNRelease s = .next t ∧ t.power.downhaulLow = false ∧
    SetsField { s with power := t.power } t (rid .qmDhStat) 3 1 0)

/-! ### The management port -/

/-- R350: while the status device is live, GET_STATUS returns the status block, and a poll of endpoint 1 sends it when its first four bytes
have changed; in deep sleep and after a trip neither answers (the model's reading of "live from the SP's start").

R351, R352: the link shows in ETH_STAT, and its speed in ETH_CTRL while the stack runs. The stack answers ARP and ICMPv4 echo for the
IPv4 address held, ICMPv6 echo and neighbour solicitations for its own IPv6 addresses, and takes a DHCPv4 address or a router's prefix
unless its settings are static. Tagged and jumbo frames, fragments, TCP and other protocols are counted in ETH_DROP_CNT. While the MAC or
the stack is down, none of them changes anything. -/
def Obligations.NetworkStack : Prop :=
  (∀ s : State,
     (s.usb2Live = true → ∃ t, exec .usb2GetStatus s = .next t ∧ Outside [.queue] s t ∧ t.queue.usbReply = s.statusBlock ∧
       t.queue.usbReply.length = 16 ∧ leAt t.queue.usbReply 0 1 = s.statusCode ∧ leAt t.queue.usbReply 8 8 = s.now) ∧
     (s.usb2Live = true → s.statusBlock.take 4 ≠ s.queue.usbSent.take 4 →
       ∃ t, exec .usb2InterruptPoll s = .next t ∧ Outside [.queue] s t ∧ t.queue.usbSent = s.statusBlock) ∧
     (s.usb2Live = false → exec .usb2GetStatus s = .next s ∧ exec .usb2InterruptPoll s = .next s) ∧
     (s.statusBlock.take 4 = s.queue.usbSent.take 4 → exec .usb2InterruptPoll s = .next s)) ∧
  ((∀ (speed : EthSpeed) (s : State), s.domOn 159 = true → s.stackUp = true → s.power.life = .running → speed ≠ .down →
     bit (s.reg (rid .ethStat)) 0 = false → ∃ t, exec (.ethLink speed) s = .next t ∧ bit (t.reg (rid .ethStat)) 0 = true ∧
       t.get (rid .ethCtrl) 3 2 = State.speedCode speed ∧ t.events.last = 0x0708 ∧ Outside [.regs, .events] s t) ∧
   (∀ s : State, s.domOn 159 = true → s.get (rid .ethCtrl) 3 2 ≠ 0 → bit (s.reg (rid .ethStat)) 0 = true →
     ∃ t, exec (.ethLink .down) s = .next t ∧ bit (t.reg (rid .ethStat)) 0 = false) ∧
   (∀ (speed : EthSpeed) (s : State), s.domOn 159 = false → exec (.ethLink speed) s = .next s) ∧
   (∀ s : State, s.netOn = true →
     (∀ target : BitVec 32, s.netV4 ≠ 0 → target.toNat = s.netV4 → ∃ t, exec (.arpRequest target) s = .next t ∧ Outside [.mgmt] s t ∧
       t.mgmt.reply = [s.macBytes ++ leN 4 s.netV4]) ∧
     (∀ (target : BitVec 32) (data : List (BitVec 8)), s.netV4 ≠ 0 → target.toNat = s.netV4 →
       ∃ t, exec (.icmpv4Echo target data) s = .next t ∧ Outside [.mgmt] s t ∧ t.mgmt.reply = [data]) ∧
     (∀ (target : BitVec 32) (data : List (BitVec 8)), s.netV4 = 0 ∨ target.toNat ≠ s.netV4 →
       exec (.arpRequest target) s = .next s ∧ exec (.icmpv4Echo target data) s = .next s) ∧
     (∀ (target : Nat) (data : List (BitVec 8)), target ∈ s.ownV6 →
       (∃ t, exec (.icmpv6Echo target data) s = .next t ∧ Outside [.mgmt] s t ∧ t.mgmt.reply = [data]) ∧
       ∃ t, exec (.ndpMessage (.solicit target)) s = .next t ∧ Outside [.mgmt] s t ∧ t.mgmt.reply = [beBytes 16 target ++ s.macBytes]) ∧
     (∀ (target : Nat) (data : List (BitVec 8)), target ∉ s.ownV6 →
       exec (.icmpv6Echo target data) s = .next s ∧ exec (.ndpMessage (.solicit target)) s = .next s) ∧
     (∀ pfx, s.netStatic = false → ∃ t, exec (.ndpMessage (.routerAdv pfx)) s = .next t ∧
       t.netV6 = some (pfx % 2 ^ 64 * 2 ^ 64 + s.ifaceId) ∧ bit (t.reg (rid .ethStat)) 2 = true) ∧
     (∀ addr : BitVec 32, s.netStatic = false → ∃ t, exec (.dhcpv4Message (.ack addr)) s = .next t ∧ t.netV4 = addr.toNat ∧
       t.get (rid .ethIpv4) 0 32 = addr.toNat ∧ bit (t.reg (rid .ethStat)) 1 = decide (addr.toNat ≠ 0)) ∧
     (∀ msg pfx, s.netStatic = true → exec (.dhcpv4Message msg) s = .next s ∧ exec (.ndpMessage (.routerAdv pfx)) s = .next s) ∧
     (∀ why ∈ [EthDrop.fragment, .tcp, .otherProto, .vlan, .jumbo], ∃ t, exec (.ethFrameDiscard why) s = .next t ∧
       SetsField s t (rid .ethDropCnt) 0 32 (min (s.get (rid .ethDropCnt) 0 32 + 1) (2 ^ 32 - 1)))) ∧
   (∀ (target : BitVec 32) (a : Nat) (data : List (BitVec 8)) (n : NdpMsg) (d : DhcpMsg) (s : State), s.netOn = false →
     exec (.arpRequest target) s = .next s ∧ exec (.icmpv4Echo target data) s = .next s ∧ exec (.icmpv6Echo a data) s = .next s ∧
     exec (.ndpMessage n) s = .next s ∧ exec (.dhcpv4Message d) s = .next s ∧
     ∀ why ∈ [EthDrop.fragment, .tcp, .otherProto], exec (.ethFrameDiscard why) s = .next s))

/-- R352, R353, R355, R356: no Halyard message is answered while the MP or the MAC is down; one beyond 2,000 in a second is discarded and
counted. A command without its permission, from another address or port, or with no use left, is answered UNAUTHORISED; in recovery the
loader answers it UNSUPPORTED (the model's choice of status). Neither has any other effect.

R352, R353, R390: HELLO gives the device's words, the status block and the current nonce, drawing one where none stands; STATUS gives the
status block, the tick value, ADM_COUNT and the rig version; both need no token. SET_NET's settings take effect; READ_LOG gives at most
1,024 bytes. Each of the last two consumes a use. -/
def Obligations.HalyardGate : Prop :=
  ((∀ (i : Instr) (s : State), hmpOf i = true →
     (s.netOn = false → exec i s = .next s) ∧
     (s.netOn = true → 2000 ≤ s.netSecond.mgmt.rate → ∃ t, exec i s = .next t ∧ t.mgmt.reply = s.mgmt.reply ∧
       SetsField s.netSecond t (rid .ethDropCnt) 0 32 (min (s.get (rid .ethDropCnt) 0 32 + 1) (2 ^ 32 - 1)))) ∧
   (∀ c ∈ hmpCommands, ∀ (src : NetAddr) (r : BitVec 32) (s u : State), Hears s u →
     (u.power.life = .recovery → ∃ t, exec (c.1 src r) s = .next t ∧ Answers t c.2.1 r 6 ∧ Outside [.mgmt] u t ∧ t.mgmt.token = u.mgmt.token) ∧
     (u.power.life ≠ .recovery → u.permits src c.2.2 = false → ∃ t, exec (c.1 src r) s = .next t ∧ Answers t c.2.1 r 2 ∧
       Outside [.mgmt, .regs, .events] u t ∧ t.mgmt.token = u.mgmt.token ∧ t.events.last = 0x0709)) ∧
   (∀ (src : NetAddr) (r : BitVec 32) (off : BitVec 32) (nonce : List (BitVec 8)) (s u : State), Hears s u → u.power.life ≠ .recovery →
     (u.permits src 9 = false → ∃ t, exec (.hmpReadLog src r off) s = .next t ∧ Answers t 0x27 r 2 ∧ t.mgmt.token = u.mgmt.token) ∧
     (u.permits src 10 = false → nonce.length = 32 →
       ∃ t, exec (.hmpAttest src r nonce) s = .next t ∧ Answers t 0x28 r 2 ∧ t.sec = u.sec))) ∧
  (∀ (src : NetAddr) (r : BitVec 32) (s u : State), Hears s u →
     (∃ t body, exec (.hmpHello src r) s = .next t ∧ t.mgmt.reply = [State.hmpMsg 1 r 0 body] ∧ body.length = 36 + t.mgmt.nonce.length ∧
       leAt body 0 4 = u.get (rid .idDevice) 0 32 ∧ leAt body 4 4 = u.get (rid .idConfig) 0 32 ∧ body.drop 36 = t.mgmt.nonce ∧
       (u.mgmt.nonce ≠ [] → t.mgmt.nonce = u.mgmt.nonce) ∧ (u.mgmt.nonce = [] → t.mgmt.nonce.length = 32) ∧ t.mgmt.token = u.mgmt.token) ∧
     (∃ t, exec (.hmpStatus src r) s = .next t ∧ t.mgmt.reply = [State.hmpMsg 2 r 0 (u.statusBlock ++ le64 u.t48 ++
       leN 4 u.admittedList.length ++ leN 4 (u.get (rid .admRigVer) 0 32))] ∧ Outside [.mgmt] u t) ∧
     (∀ body : List (BitVec 8), u.power.life ≠ .recovery → u.permits src 8 = true → State.netShape body = true →
       ∃ t, exec (.hmpSetNet src r body) s = .next t ∧ Answers t 0x26 r 0 ∧ t.sec.setNet = body ∧ t.get (rid .ethIpv4) 0 32 = t.netV4 ∧
         (leAt body 0 1 = 1 → t.netV4 = leAt body 4 4) ∧ t.mgmt.token = u.useToken.mgmt.token) ∧
     (∀ body : List (BitVec 8), State.netShape body = false →
       ∃ t, exec (.hmpSetNet src r body) s = .next t ∧ Answers t 0x26 r 1 ∧ t.sec = u.sec ∧ t.mgmt.token = u.mgmt.token) ∧
     (∀ off : BitVec 32, u.power.life ≠ .recovery → u.permits src 9 = true → ∃ t body, exec (.hmpReadLog src r off) s = .next t ∧
       t.mgmt.reply = [State.hmpMsg 0x27 r 0 body] ∧ body.length ≤ 1024 ∧ t.mgmt.token = u.useToken.mgmt.token))

/-- R354, R355: token bytes are taken in order from offset 0; a piece out of order is answered FORMAT (the model's status) and BUSY while
the SP is down. The piece that completes the token has it verified: a good one is bound to its source, replaces any earlier one, and a new
nonce is drawn; another is refused, and the earlier one stands. -/
def Obligations.HalyardTokens : Prop :=
  ∀ (src : NetAddr) (r : BitVec 32) (off : BitVec 16) (data got : List (BitVec 8)) (s u : State), Hears s u → u.power.life ≠ .recovery →
    got = (if off.toNat = 0 then [] else u.mgmt.gathering) →
    (u.fwRuns 0 = false → ∃ t, exec (.hmpTokenPut src r off data) s = .next t ∧ Answers t 3 r 4 ∧ t.mgmt.gathering = u.mgmt.gathering) ∧
    (u.fwRuns 0 = true → off.toNat ≠ got.length ∨ data = [] ∨ 1024 < data.length →
      ∃ t, exec (.hmpTokenPut src r off data) s = .next t ∧ Answers t 3 r 1 ∧ t.mgmt.gathering = u.mgmt.gathering) ∧
    (u.fwRuns 0 = true → off.toNat = got.length → data ≠ [] → data.length ≤ 1024 → (got ++ data).length < 3216 →
      ∃ t, exec (.hmpTokenPut src r off data) s = .next t ∧ Answers t 3 r 0 ∧ t.mgmt.gathering = got ++ data ∧ t.mgmt.token = u.mgmt.token) ∧
    (u.fwRuns 0 = true → off.toNat = got.length → data ≠ [] → data.length ≤ 1024 → (got ++ data).length = 3216 →
      ∀ b ok, b = got ++ data → ok = (u.tokenShape b && sigShape (sliceAt b 128 3088) &&
        decide (u.ownerCode (sliceAt b 128 3088) (sha384 (b.take 128)) = 0)) →
      (ok = true → ∃ t, exec (.hmpTokenPut src r off data) s = .next t ∧ Answers t 3 r 0 ∧ t.mgmt.gathering = [] ∧
        t.mgmt.nonce.length = 32 ∧ t.mgmt.token = some ⟨src, leAt b 6 2, BitVec.ofNat 64 (leAt b 8 8), sliceAt b 0x30 48⟩) ∧
      (ok = false → ∃ t, exec (.hmpTokenPut src r off data) s = .next t ∧ Answers t 3 r 5 ∧ t.mgmt.token = u.mgmt.token ∧
        t.mgmt.nonce = u.mgmt.nonce ∧ t.events.last = 0x0709))

/-- R356, R390: XFER_BEGIN opens a transfer whose h0 is the token's object, and consumes a use; a chunk is taken only if it is next in
order and SHA-384 of its data and its next hash is the expected hash, which the next hash replaces; the last chunk again is answered OK; any
other is answered BAD_CHUNK with the expected index. XFER_END of a whole firmware image has the SP examine it: it is STAGED, or refused
for the reason found. In recovery a transfer needs no token, and an eligible image is recorded as accepted. -/
def Obligations.HalyardTransfers : Prop :=
  ∀ (src : NetAddr) (r : BitVec 32) (s u : State), Hears s u →
    (∀ (target : BitVec 8) (size chunks : BitVec 32) (h0 : List (BitVec 8)), State.xferShape target.toNat size.toNat chunks.toNat h0 = true →
      size.toNat ≤ 0x1FF000 → (target = 1 → u.updBusy = false ∧ u.sec.upd ≠ .activating ∧ u.sec.upd ≠ .trial) →
      (u.power.life = .recovery → target = 1 → ∃ t, exec (.hmpXferBegin src r target size chunks h0) s = .next t ∧ Answers t 0x10 r 0 ∧
        t.mgmt.xfer = some ⟨1, size.toNat, chunks.toNat, 0, h0, [], []⟩ ∧ t.mgmt.token = u.mgmt.token) ∧
      (u.power.life ≠ .recovery → u.permits src (State.xferPerm target.toNat) = true → u.objectIs h0 = true →
        ∃ t, exec (.hmpXferBegin src r target size chunks h0) s = .next t ∧ Answers t 0x10 r 0 ∧
          t.mgmt.xfer = some ⟨target.toNat, size.toNat, chunks.toNat, 0, h0, [], []⟩ ∧ t.mgmt.token = u.useToken.mgmt.token ∧
          (target = 1 → t.sec.upd = .receiving)) ∧
      (u.power.life ≠ .recovery → u.permits src (State.xferPerm target.toNat) = false ∨ u.objectIs h0 = false →
        ∃ t, exec (.hmpXferBegin src r target size chunks h0) s = .next t ∧ Answers t 0x10 r 2 ∧ t.mgmt.xfer = u.mgmt.xfer ∧ t.sec = u.sec)) ∧
    (∀ (x : Xfer) (index : BitVec 32) (data next : List (BitVec 8)), u.mgmt.xfer = some x → u.mayXfer src = true → data ≠ [] →
      data.length ≤ 1024 → next.length = 48 →
      (index.toNat + 1 = x.index → x.lastChunk = data ++ next →
        ∃ t, exec (.hmpXferChunk src r index data next) s = .next t ∧ Answers t 0x11 r 0 ∧ t.mgmt.xfer = some x) ∧
      (index.toNat = x.index → x.index < x.chunks → (index.toNat + 1 < x.chunks → data.length = 1024) → sha384 (data ++ next) = x.expect →
        ∃ t, exec (.hmpXferChunk src r index data next) s = .next t ∧ Answers t 0x11 r 0 ∧
          t.mgmt.xfer = some { x with index := x.index + 1, expect := next, data := x.data ++ data, lastChunk := data ++ next }) ∧
      (index.toNat = x.index → sha384 (data ++ next) ≠ x.expect →
        ∃ t, exec (.hmpXferChunk src r index data next) s = .next t ∧ t.mgmt.reply = [State.hmpMsg 0x11 r 3 (leN 4 x.index)] ∧
          t.mgmt.xfer = some x)) ∧
    (∀ x : Xfer, u.mgmt.xfer = some x → u.mayXfer src = true →
      (x.index ≠ x.chunks ∨ x.data.length ≠ x.size → ∃ t, exec (.hmpXferEnd src r) s = .next t ∧ Answers t 0x12 r 5 ∧ t.sec = u.sec) ∧
      (x.index = x.chunks → x.data.length = x.size → x.target = 1 → u.power.life ≠ .recovery → u.spTaken 0x12 = false →
        u.sec.upd = .receiving →
        ∀ w b, w = u.flashStore (State.slotBase true) x.data → b = w.slotImage true →
        ((w.examine b).result = 0 → State.revokesItself b (w.examine b) = false →
          ∃ t, exec (.hmpXferEnd src r) s = .next t ∧ Answers t 0x12 r 0 ∧ t.sec.upd = .staged ∧ t.events.last = 0x0A03 ∧ t.mgmt.xfer = none) ∧
        ((w.examine b).result ≠ 0 → ∃ t, exec (.hmpXferEnd src r) s = .next t ∧ t.sec.upd = .none ∧ t.mgmt.xfer = none ∧
          t.mgmt.reply = [State.hmpMsg 0x12 r 5 (leN 1 (w.examine b).result)])) ∧
      (x.index = x.chunks → x.data.length = x.size → u.power.life = .recovery →
        ∀ w b, w = u.flashStore (State.slotBase true) x.data → b = w.slotImage true →
        ((w.examine b).result = 0 → ∃ t, exec (.hmpXferEnd src r) s = .next t ∧ Answers t 0x12 r 0 ∧ t.sec.recovered = true) ∧
        ((w.examine b).result ≠ 0 → ∃ t, exec (.hmpXferEnd src r) s = .next t ∧ t.sec.recovered = u.sec.recovered ∧
          t.mgmt.reply = [State.hmpMsg 0x12 r 5 (leN 1 (w.examine b).result)])))

/-- R355, R357, R398, R400, R403, R404: a permitted command consumes a use. ACTIVATE starts the activation of a staged image, or defers it
during an emergency; COMMIT ends a trial; CANCEL drops what is staged, or rolls a trial back; a state that does not allow it is REFUSED
with UPD_REFUSED. DOWNHAUL is taken with source 3. ATTEST's report comes in pieces, and a repeated nonce takes no index. While the SP is
down or serves its mailbox, a request for it waits.

R357: a permitted REVERT or RESTART enters mailbox 3, with the request that its body gives, and its reply waits for the outcome; while
mailbox 3 holds an earlier request it is answered BUSY, and a body that is not one is answered FORMAT. -/
def Obligations.HalyardCommands : Prop :=
  (∀ (src : NetAddr) (r : BitVec 32) (s u : State), Hears s u → u.power.life = .running →
     (∀ c ∈ hmpCommands, c.2.1 ≠ 0x24 → u.permits src c.2.2 = true → u.spTaken c.2.1 = true →
       ∃ t, exec (c.1 src r) s = .next t ∧ t.mgmt.waiting = u.mgmt.waiting ++ [⟨0xFF, src, r, c.2.1, []⟩] ∧ t.sec = u.sec ∧
         t.mgmt.reply = u.mgmt.reply ∧ t.mgmt.token = u.useToken.mgmt.token) ∧
     (u.permits src 2 = true → u.spTaken 0x20 = false → u.sec.upd = .staged → ∃ t, exec (.hmpActivate src r) s = .next t ∧
       Answers t 0x20 r 0 ∧ t.sec.upd = (if u.emergency then .staged else .activating) ∧ t.deferred = u.emergency ∧
       t.mgmt.token = u.useToken.mgmt.token) ∧
     (u.permits src 3 = true → u.spTaken 0x21 = false → u.sec.upd = .trial → ∃ t, exec (.hmpCommit src r) s = .next t ∧
       Answers t 0x21 r 0 ∧ t.sec.upd = .none ∧ t.sec.runSlot = true ∧ t.sec.replaced = [] ∧ ∀ n, u.sec.svn.getLsbD n = true → t.sec.svn.getLsbD n = true) ∧
     (u.permits src 4 = true → u.spTaken 0x22 = false → u.sec.upd = .staged ∨ u.sec.upd = .trial → ∃ t, exec (.hmpCancel src r) s = .next t ∧
       Answers t 0x22 r 0 ∧ t.sec.upd = .none ∧ (u.sec.upd = .trial → t.events.last = 0x0A07 ∧ t.sec.replaced = [])) ∧
     (∀ c ∈ hmpCommands, c.2.1 ≠ 0x24 → u.permits src c.2.2 = true → u.spTaken c.2.1 = false → u.sec.upd = .none ∨ u.sec.upd = .receiving →
       ∃ t, exec (c.1 src r) s = .next t ∧ Answers t c.2.1 r 5 ∧ t.sec = u.sec) ∧
     (u.permits src 6 = true → ∃ t, exec (.hmpDownhaul src r) s = .next t ∧ Answers t 0x24 r 0 ∧ t.get (rid .qmDhStat) 1 2 = 3 ∧
       t.reg (rid .qmDhTime) = u.gcnt ∧ t.mgmt.token = u.useToken.mgmt.token) ∧
     (∀ nonce : List (BitVec 8), nonce.length = 32 → u.permits src 10 = true → u.spTaken 0x28 = false → u.debugOpen = false →
       (u.sec.lastNonce = nonce → u.sec.lastReport ≠ [] → ∃ t, exec (.hmpAttest src r nonce) s = .next t ∧ t.sec = u.sec ∧
         t.mgmt.reply = State.reportPieces u.sec.lastReport r) ∧
       (u.sec.lastNonce ≠ nonce → u.sec.hssNext < 1048576 → ∃ t, exec (.hmpAttest src r nonce) s = .next t ∧
         t.mgmt.reply = State.reportPieces t.sec.lastReport r ∧ t.sec.lastReport.length = u.daxaLen ∧ t.sec.lastNonce = nonce ∧
         t.sec.hssNext = u.sec.hssNext + 1 ∧ t.get (rid .secLmsLeft) 0 32 = 1048576 - t.sec.hssNext) ∧
       (u.sec.lastNonce ≠ nonce → 1048576 ≤ u.sec.hssNext → ∃ t, exec (.hmpAttest src r nonce) s = .next t ∧ Answers t 0x28 r 5 ∧
         t.sec = u.sec))) ∧
  (∀ (src : NetAddr) (r : BitVec 32) (s u : State), Hears s u → u.power.life = .running →
     (∀ persist : BitVec 8, persist.toNat ≤ 1 → u.permits src 5 = true → u.mboxBusy 3 = false → u.mgmt.waiting = [] → u.rig.queue = [] →
       u.rig.settle = none → u.rig.revert = none → u.rig.prev ≠ [] → u.tick.phase ≠ .stopped →
       ∃ t, exec (.hmpRevert src r persist) s = .next t ∧ t.rig.revert = some (3, decide (persist = 1)) ∧ t.rig.cur = u.rig.cur ∧
         t.mboxBusy 3 = true ∧ t.mgmt.waiting = [⟨3, src, r, 0x23, []⟩] ∧ t.mgmt.token = u.useToken.mgmt.token) ∧
     (∀ (body : List (BitVec 8)) (v : State), body.length = 36 → u.permits src 7 = true → u.mboxBusy 3 = false → u.mgmt.waiting = [] →
       v = (u.writeReq 3 ([6] ++ List.replicate 15 0 ++ body)).put (rid .admMboxStat 3) 0 1 1 → commandFault (v.mboxReq 3) = none →
       v.launchHandles (v.mboxReq 3) ≠ [] → (∀ h ∈ v.launchHandles (v.mboxReq 3), v.launchBad 6 h = none) → leAt (v.mboxReq 3) 0x10 1 ≠ 2 →
       ∃ t, exec (.hmpRestart src r body) s = .next t ∧ t.mboxBusy 3 = true ∧ t.mgmt.waiting = [⟨3, src, r, 0x25, []⟩] ∧
         t.queue.launches = u.queue.launches ++
           [⟨3, v.launchHandles (v.mboxReq 3), v.launchFirst (v.mboxReq 3) (v.launchHandles (v.mboxReq 3))⟩]) ∧
     (∀ persist : BitVec 8, persist.toNat ≤ 1 → u.mboxBusy 3 = true → u.holds src 5 = true →
       ∃ t, exec (.hmpRevert src r persist) s = .next t ∧ Answers t 0x23 r 4 ∧ Outside [.mgmt] u t) ∧
     (∀ body : List (BitVec 8), body.length = 36 → u.mboxBusy 3 = true → u.holds src 7 = true →
       ∃ t, exec (.hmpRestart src r body) s = .next t ∧ Answers t 0x25 r 4 ∧ Outside [.mgmt] u t) ∧
     (∀ persist : BitVec 8, 1 < persist.toNat → ∃ t, exec (.hmpRevert src r persist) s = .next t ∧ Answers t 0x23 r 1 ∧ Outside [.mgmt] u t) ∧
     (∀ body : List (BitVec 8), body.length ≠ 36 → ∃ t, exec (.hmpRestart src r body) s = .next t ∧ Answers t 0x25 r 1 ∧ Outside [.mgmt] u t))

/-! ### External memory -/

/-- R362, R363, R365, R366: a slot that begins on a channel that serves takes the oldest request that it may serve. A write stores its
bytes, but with ECC on a write of part of a word reads first, and stays at the head of its channel; a read stores nothing, and what it
reads, where no bad word keeps it, is ready for the crosstree 430 ns later. With no slot or no request nothing moves.

R367, R368, R374: a recovery slot repeats the oldest read that waits for it and counts the retry; one that fails again is counted as
uncorrectable. R371, R372: the MP brings back a channel that is down: it resumes at the next tick start; a retrain that fails counts as
going down again, and the second time within 10 s asks for the channel to leave service. -/
def Obligations.HyperRam : Prop :=
  ((∀ (ch j : Nat) (bad : Option Nat) (s : State), s.hrSlotNow ch = some j → (∀ q ∈ s.hrReqs ch, q.late = false) →
     (s.hrReqs ch).find? (s.hrServed ch j) = none → (∃ t, exec (.hrSlot ch bad) s = .next t ∧ ∀ a, t.byte a = s.byte a)) ∧
   (∀ (ch j : Nat) (bad : Option Nat) (r : HrReq) (s : State), s.hrSlotNow ch = some j → (∀ q ∈ s.hrReqs ch, q.late = false) →
     (s.hrReqs ch).find? (s.hrServed ch j) = some r →
     (∀ bs, r.write = some bs → s.hrEcc = false ∨ r.merged = true ∨ r.addr % 8 = 0 ∧ bs.length % 8 = 0 →
       ∃ t, exec (.hrSlot ch bad) s = .next t ∧ t.hrReqs ch = (s.hrReqs ch).erase r ∧
         ∀ a, t.byte a = (storeAll s [(r.addr, bs)]).byte a) ∧
     (∀ bs, r.write = some bs → s.hrEcc = true → r.merged = false → r.addr % 8 ≠ 0 ∨ bs.length % 8 ≠ 0 →
       ∃ t, exec (.hrSlot ch bad) s = .next t ∧ t.hrReqs ch = { r with merged := true } :: (s.hrReqs ch).erase r ∧ ∀ a, t.byte a = s.byte a) ∧
     (r.write = none → s.hrEcc = false → ∃ t, exec (.hrSlot ch bad) s = .next t ∧ Outside [.hyper, .fabric] s t ∧
       t.hrReqs ch = (s.hrReqs ch).erase r ∧
       t.fabric.waiting = s.fabric.waiting ++ (if r.strm = 0 ∨ r.port = 7 then [] else (linePieces r.addr r.len).map fun q =>
         { src := 7, dst := r.port, addr := q.1, data := s.bytes q.1 q.2, prog := r.prog, strm := r.strm, read := true, ready := s.now + 430 })) ∧
     (∀ w, r.write = none → s.hrEcc = true → bad = some w → ∃ t q, exec (.hrSlot ch bad) s = .next t ∧
       t.hrRetries ch = s.hrRetries ch ++ [q] ∧ q.addr = r.addr ∧ ∀ a, t.byte a = s.byte a)) ∧
   (∀ (ch : Nat) (bad : Option Nat) (s : State), s.hrSlotNow ch = none → exec (.hrSlot ch bad) s = .next s)) ∧
  ((∀ (ch j : Nat) (fails : Bool) (r : HrReq) (rs : List HrReq) (s : State), ch < 8 → s.hrSlotNow ch = some j → s.hrRecovery j = true →
     s.hrRetries ch = r :: rs → ∃ t, exec (.hrRetry ch fails) s = .next t ∧ t.hrRetries ch = rs ∧ (∀ a, t.byte a = s.byte a) ∧
       t.get (rid .hrcChRetryCnt ch) 0 32 = min (s.get (rid .hrcChRetryCnt ch) 0 32 + 1) (2 ^ 32 - 1) ∧
       t.get (rid .hrcChUeCnt ch) 0 32 = (if fails = true ∨ s.eccAt r.bad = 2 then min (s.get (rid .hrcChUeCnt ch) 0 32 + 1) (2 ^ 32 - 1)
         else s.get (rid .hrcChUeCnt ch) 0 32)) ∧
   (∀ (ch : Nat) (fails : Bool) (s : State), s.hrSlotNow ch = none ∨ s.hrRetries ch = [] ∨ (∃ j, s.hrSlotNow ch = some j ∧ s.hrRecovery j = false) →
     exec (.hrRetry ch fails) s = .next s) ∧
   (∀ (ch : Nat) (s : State), ch < 8 → s.hrIsDown ch = true → s.fwRuns 1 = true → bit (s.reg (rid .hrcChCfg ch)) 2 = false →
     (∃ t, exec (.hrChannelUp ch true) s = .next t ∧ Outside [.hyper] s t ∧ SMap.get false t.hyper.retrained ch = true) ∧
     ∃ t, exec (.hrChannelUp ch false) s = .next t ∧ bit (t.reg (rid .hrcStatus)) ch = false ∧ bit (t.reg (rid .hrcStatus)) (8 + ch) = true ∧
       SMap.get false t.hyper.retrained ch = false ∧
       ((∃ at_ ∈ SMap.get [] s.hyper.downTimes ch, s.now < at_ + 10000000000) → t.power.outPending.contains (64 + ch) = true)) ∧
   (∀ (ch : Nat) (ok : Bool) (s : State), s.hrIsDown ch = false ∨ s.fwRuns 1 = false ∨ bit (s.reg (rid .hrcChCfg ch)) 2 = true →
     exec (.hrChannelUp ch ok) s = .next s))

/-! ### Resets, boot and sleep -/

/-- R386, R413, R423, Table 15.6: a power-on reset leaves fuses and flash, the balls' straps and PWR_RST_CAUSE but for the bit that it sets,
and the host's own memory; the package's memory, the programs, the retention SRAM and the counter are reset. The recovery loader's reset
does the same under another bit, once it has accepted an image. That package memory reads 0 then is the model's choice (log entry 6).

R381 to R383, R385, R390, R391: a cold boot counts itself. With no live vendor key it halts with 0x22; BOOT_MODE 0b11 starts the test
loader, 0b10 recovery, but with recovery_off set 0b10 halts with 0x2D; else the golden image runs where it is eligible and the update slot
is not examined, and where no slot is eligible BOOT_MODE 0b00 halts with the code of the golden slot's result. The third time that the MP
does not report ready it halts with 0x2C. That recovery shows 0x10 first is Table 14.5's. -/
def Obligations.ColdBoot : Prop :=
  ((∀ s : State, Memory.wf s = true → ∃ t, exec .powerOnReset s = .next t ∧ t.power.life = .booting ∧ t.timebase = false ∧ t.gcnt = 0 ∧ t.progs = [] ∧
     t.events.fifos = [] ∧ t.sec.flash = s.sec.flash ∧ t.sec.svn = s.sec.svn ∧ t.sec.revoke = s.sec.revoke ∧ t.sec.policy = s.sec.policy ∧
     t.sec.keyHash = s.sec.keyHash ∧ t.sec.bootCnt = s.sec.bootCnt ∧ t.sec.retention = [] ∧ t.sec.upd = .none ∧ t.mgmt = {} ∧ t.part = s.part ∧
     bit (t.reg (rid .pwrRstCause)) 0 = true ∧ (∀ n, n ≠ 0 → bit (t.reg (rid .pwrRstCause)) n = bit (s.reg (rid .pwrRstCause)) n) ∧
     (∀ a, 2 ^ 64 ≤ a → t.byte a = s.byte a) ∧ ∀ a, a < 2 ^ 64 → t.byte a = 0) ∧
   (∀ s : State, s.power.life = .recovery → s.sec.bootMode = 1 → s.sec.recovered = true →
     ∃ t, exec .internalReset s = .next t ∧ t.power.life = .booting ∧ bit (t.reg (rid .pwrRstCause)) 1 = true ∧ t.sec.flash = s.sec.flash) ∧
   (∀ s : State, s.power.life ≠ .recovery ∨ s.sec.bootMode ≠ 1 ∨ s.sec.recovered = false → exec .internalReset s = .next s)) ∧
  ((∀ s : State, s.power.life = .booting → ∃ t, exec .coldBoot s = .next t ∧
     t.sec.bootCnt = min (s.sec.bootCnt + 1) 0xFFFFFFFF ∧
     ((List.range 4).any s.liveKey = false → t.power.life = .halted ∧ t.statusCode = 0x22) ∧
     ((List.range 4).any s.liveKey = true → s.sec.bootMode = 3 → t.power.life = .test ∧ (t.statusCode = 0x19 ∨ t.statusCode = 0x1A)) ∧
     ((List.range 4).any s.liveKey = true → s.sec.bootMode = 2 → s.fuse 4 = false → t.power.life = .recovery ∧ t.statusCode = 0x10 ∧
       bit (t.reg (rid .secStatus)) 12 = true) ∧
     ((List.range 4).any s.liveKey = true → s.sec.bootMode = 2 → s.fuse 4 = true → t.power.life = .halted ∧ t.statusCode = 0x2D) ∧
     ((List.range 4).any s.liveKey = true → s.sec.bootMode = 0 ∨ s.sec.bootMode = 1 → s.updExamined = false → s.slotState true ≠ 3 →
       s.slotState true ≠ 4 →
       ((s.examine (s.slotImage false)).result = 0 → t.power.life = .running ∧ t.sec.runSlot = false ∧ t.timebase = true ∧
         t.sec.runDigest = (s.examine (s.slotImage false)).digest) ∧
       ((s.examine (s.slotImage false)).result ≠ 0 → s.sec.bootMode = 0 → t.power.life = .halted ∧
         t.statusCode = (s.examine (s.slotImage false)).result % 256))) ∧
   (∀ s : State, s.power.life ≠ .booting → exec .coldBoot s = .next s ∧ exec .mpReadyTimeout s = .next s) ∧
   (∀ s : State, s.power.life = .booting → ∃ t, exec .mpReadyTimeout s = .next t ∧ t.sec.mpTries = s.sec.mpTries + 1 ∧
     (s.sec.mpTries < 2 → t.power.life = .booting ∧ ∀ r, t.reg r = s.reg r) ∧ (2 ≤ s.sec.mpTries → t.power.life = .halted ∧ t.statusCode = 0x2C)))

/-- R392, R393, R405, R415, R416: the host's keyed write of PWR_SLEEP enters deep sleep: the generator and the counter stop, every domain is
off, and STATUS shows 0x37; it is refused while a program is admitted, and held while an update is under way, until it may proceed. The
retention block is written but where R392 names a reason not to. WAKE_N wakes the part: by the fast path, which runs the retained image,
or by a cold boot where a check of it fails. -/
def Obligations.DeepSleep : Prop :=
  (∀ (i : Instr) (s u : State), (∃ v : BitVec 32, i = .pwrSleep v ∧ v.toNat / 65536 = 0x5EE9 ∧ v.getLsbD 0 = true ∧ s.hostUp = true ∧
      u = s.hostTouch) ∨ (i = .heldSleepProceed ∧ s.power.sleepHeld = true ∧ s.power.life = .running ∧ u = s) →
    (u.anyAdmitted = false → u.sec.upd ≠ .activating → u.sec.upd ≠ .trial → u.fwRuns 0 = true →
      ∃ t, exec i s = .next t ∧ t.power.life = .deepSleep ∧ t.power.sleepN = true ∧ t.power.sleepHeld = false ∧ t.timebase = false ∧
        t.tick.phase = .stopped ∧ t.statusCode = 0x37 ∧ (∀ d, d < 163 → t.domOn d = false) ∧
        (u.sec.revokedNow = true ∨ u.debugOpen = true → t.sec.retention = []) ∧
        (u.sec.revokedNow = false → u.debugOpen = false → bit (u.reg (rid .secStatus)) 12 = false → bit (u.reg (rid .secStatus)) 13 = false →
          t.sec.retention.length = 4096 ∧ t.sec.retention.take 4 = [0x4C, 0x52, 0x45, 0x54] ∧
          t.sec.retention.drop 0xFD0 = sha384 (t.sec.retention.take 0xFD0))) ∧
    (u.anyAdmitted = true → ∃ t, exec i s = .next t ∧ t.power.sleepHeld = false ∧ t.power.life = u.power.life ∧
      SetsField { u with power := t.power } t (rid .pwrSleepStat) 0 2 1) ∧
    (u.anyAdmitted = false → u.sec.upd = .activating ∨ u.sec.upd = .trial ∨ u.fwRuns 0 = false → ∃ t, exec i s = .next t ∧
      t.power.sleepHeld = true ∧ t.power.life = u.power.life ∧ SetsField { u with power := t.power } t (rid .pwrSleepStat) 0 2 2)) ∧
  (∀ (v : BitVec 32) (s : State), s.hostUp = true → v.toNat / 65536 ≠ 0x5EE9 ∨ v.getLsbD 0 = false → exec (.pwrSleep v) s = .next s.hostTouch) ∧
  (∀ (v : BitVec 32) (s : State), s.hostUp = false → exec (.pwrSleep v) s = .next s) ∧
  (∀ s : State, s.power.sleepHeld = false ∨ s.power.life ≠ .running → exec .heldSleepProceed s = .next s) ∧
  (∀ s : State, s.power.life = .deepSleep →
    ((s.resetPart true 2).fastOk = true → ∃ t, exec .wakeN s = .next t ∧ t.power.life = .running ∧ t.timebase = true ∧
      t.sec.runSlot = decide (leAt s.sec.retention 8 1 = 1) ∧ t.sec.bootCnt = min (s.sec.bootCnt + 1) 0xFFFFFFFF) ∧
    ((s.resetPart true 2).fastOk = false → ∃ t, exec .wakeN s = .next t ∧ t.sec.retention = [] ∧
      t.sec.bootCnt = min (s.sec.bootCnt + 1) 0xFFFFFFFF ∧ (s.sec.bootMode = 3 → (List.range 4).any s.liveKey = true → t.power.life = .test))) ∧
  (∀ s : State, s.power.life ≠ .deepSleep → exec .wakeN s = .next s)

/-! ### Updates, fuses and attestation -/

/-- R399 to R405: the host's update mailbox: a busy one, or one that holds another command, takes nothing; while the SP is down the request
waits. The SP answers it: a state that does not allow it WRONG_STATE, leaving the state; ACTIVATE in STAGED starts the activation, or
answers ACT_DEFERRED in an emergency; COMMIT in TRIAL ends it, burning no bit away; CANCEL drops what is staged or rolls back; STAGE takes
the image: STAGED where it is eligible, else refused with its code; with the host's path fused off STAGE and ACTIVATE answer POLICY.

R400 to R402, R404: a deferred activation proceeds once the emergency has been clear for 250 ms. At step 6, or while the generator is
stopped, the MP hands off to the new image; then the TP, with no load in hand, and each supervisor in turn are replaced; after the last the
update is in TRIAL. The MP and each supervisor write a record for their successor, under the schema of the running image. A new image that
does not read that schema or rejects its record, or a slot that no longer has the staged digest, rolls back with cause 1; a trial that
lasts 30 s without a commit rolls back with cause 2. -/
def Obligations.FirmwareUpdate : Prop :=
  ((∀ c ∈ updateCommands, ∀ s : State,
     (s.hostUp = false → exec c.1 s = .next s) ∧
     (s.hostUp = true → s.updBusy = true ∨ s.updReq 0 % 256 ≠ c.2 → exec c.1 s = .next s.hostTouch) ∧
     (s.hostUp = true → s.updBusy = false → s.updReq 0 % 256 = c.2 → s.fwRuns 0 = false →
       ∃ t, exec c.1 s = .next t ∧ SetsField s.hostTouch t (rid .secUpdStat) 4 1 1)) ∧
   (∀ s : State, s.hostUp = true → s.updBusy = false → s.fwRuns 0 = true → s.fuse 3 = false →
     (s.updReq 0 % 256 = 2 → s.sec.upd = .staged → ∃ t, exec .updActivate s = .next t ∧ UpdAnswer t (if s.emergency then 2 else 0) 0 ∧
       t.sec.upd = (if s.emergency then .staged else .activating) ∧ t.deferred = s.emergency) ∧
     (s.updReq 0 % 256 = 2 → s.sec.upd ≠ .staged → ∃ t, exec .updActivate s = .next t ∧ UpdAnswer t 3 0 ∧ t.sec = s.sec ∧ t.events.last = 0x0A08) ∧
     (s.updReq 0 % 256 = 3 → s.sec.upd = .trial → ∃ t, exec .updCommit s = .next t ∧ UpdAnswer t 0 0 ∧ t.sec.upd = .none ∧
       t.sec.runSlot = true ∧ ∀ n, s.sec.svn.getLsbD n = true → t.sec.svn.getLsbD n = true) ∧
     (s.updReq 0 % 256 = 3 → s.sec.upd ≠ .trial → ∃ t, exec .updCommit s = .next t ∧ UpdAnswer t 3 0 ∧ t.sec = s.sec ∧ t.events.last = 0x0A08) ∧
     (s.updReq 0 % 256 = 4 → s.sec.upd = .staged ∨ s.sec.upd = .trial → ∃ t, exec .updCancel s = .next t ∧ UpdAnswer t 0 0 ∧ t.sec.upd = .none) ∧
     (s.updReq 0 % 256 = 4 → s.sec.upd ≠ .staged → s.sec.upd ≠ .trial → ∃ t, exec .updCancel s = .next t ∧ UpdAnswer t 3 0 ∧ t.sec = s.sec ∧
       t.events.last = 0x0A08) ∧
     (s.updReq 0 % 256 = 1 → s.sec.upd = .activating ∨ s.sec.upd = .trial → ∃ t, exec .updStage s = .next t ∧ UpdAnswer t 3 0 ∧ t.sec = s.sec) ∧
     (∀ a n w b, s.updReq 0 % 256 = 1 → s.sec.upd ≠ .activating → s.sec.upd ≠ .trial → a = s.updReq 1 + 2 ^ 32 * (s.updReq 2 % 256) →
       n = s.updReq 3 → 1 ≤ n → n ≤ 0x1FF000 → (s.hostTouch.put (rid .secUpdStat) 4 1 1).beginStage.fetchStop 29 a n false = none →
       w = (s.hostTouch.put (rid .secUpdStat) 4 1 1).beginStage.flashStore (State.slotBase true) (s.pkgBytes a n) → b = w.slotImage true →
       s.chState 29 ≠ 2 →
       ((w.examine b).result = 0 → State.revokesItself b (w.examine b) = false → ∃ t, exec .updStage s = .next t ∧ UpdAnswer t 0 0 ∧
         t.sec.upd = .staged ∧ t.events.last = 0x0A03) ∧
       ((w.examine b).result ≠ 0 → ∃ t, exec .updStage s = .next t ∧ UpdAnswer t 1 ((w.examine b).result % 256) ∧ t.sec.upd = .none))) ∧
   (∀ c ∈ updateCommands, c.2 ≤ 2 → ∀ s : State, s.hostUp = true → s.updBusy = false → s.updReq 0 % 256 = c.2 → s.fwRuns 0 = true →
     s.fuse 3 = true → ∃ t, exec c.1 s = .next t ∧ UpdAnswer t 4 0 ∧ t.sec = s.sec)) ∧
  ((∀ (at_ : Nat) (s : State), s.sec.clearSince = some at_ → s.deferred = true → s.sec.upd = .staged → s.emergency = false → s.fwRuns 0 = true →
     (at_ + 250000000 ≤ s.now → ∃ t, exec .activationResume s = .next t ∧ t.sec.upd = .activating ∧ t.deferred = false) ∧
     (s.now < at_ + 250000000 → exec .activationResume s = .next s)) ∧
   (∀ s : State, s.sec.clearSince = none ∨ s.deferred = false ∨ s.sec.upd ≠ .staged ∨ s.emergency = true ∨
     s.fwRuns 0 = false → exec .activationResume s = .next s) ∧
   (∀ (accepted : Bool) (s : State), s.sec.upd = .activating → s.handedOff = false → s.fwRuns 0 = true → s.fwRuns 1 = true → s.atStep6 = true →
     (accepted = true → s.slotDigest true = s.sec.stagedD → s.schemaRead = true → ∃ t, exec (.activationHandoff accepted) s = .next t ∧
       t.handedOff = true ∧ t.sec.upd = .activating ∧ Outside [.mem, .ecc, .sec, .free] s t ∧
       ∃ body, body.length ≤ 0x1FFC0 ∧
         ∀ a, t.byte a = (storeAll s [(State.hoffBase 1, State.hoffHeader s.sec.runHo (s.sec.hoSeq + 1) body ++ body)]).byte a) ∧
     (accepted = false ∨ s.slotDigest true ≠ s.sec.stagedD ∨ s.schemaRead = false → ∃ t, exec (.activationHandoff accepted) s = .next t ∧
       t.sec.upd = .none ∧ t.sec.replaced = [] ∧ t.events.last = 0x0A07)) ∧
   (∀ (accepted : Bool) (s : State), s.sec.upd ≠ .activating ∨ s.handedOff = true ∨ s.fwRuns 0 = false ∨ s.fwRuns 1 = false ∨
     s.atStep6 = false → exec (.activationHandoff accepted) s = .next s) ∧
   (∀ (p : Nat) (s : State), s.sec.upd = .activating → s.handedOff = true → s.nextReplaced = some p → s.fwRuns 0 = true → s.fwRuns 1 = true →
     s.fwRuns p = true → (p = 2 → s.rig.queue = []) →
     (p = 2 ∨ s.schemaRead = true → ∃ t, exec (.componentReplacement p true) s = .next t ∧ SMap.get false t.sec.replaced p = true ∧
       (s.part.masts + 2 = p → (∀ q, q < p → 2 ≤ q → SMap.get false s.sec.replaced q = true) → t.sec.upd = .trial ∧ t.events.last = 0x0A05) ∧
       ((∃ q, q ≠ p ∧ 2 ≤ q ∧ q < 3 + s.part.masts ∧ SMap.get false s.sec.replaced q = false) → t.sec.upd = .activating)) ∧
     ∀ accepted, accepted = false ∨ p ≠ 2 ∧ s.schemaRead = false → ∃ t, exec (.componentReplacement p accepted) s = .next t ∧
       t.sec.upd = .none ∧ t.sec.replaced = [] ∧ t.events.last = 0x0A07) ∧
   (∀ (p : Nat) (accepted : Bool) (s : State), s.sec.upd ≠ .activating ∨ s.handedOff = false ∨ s.nextReplaced ≠ some p ∨ s.fwRuns p = false ∨
     p = 2 ∧ s.rig.queue ≠ [] → exec (.componentReplacement p accepted) s = .next s) ∧
   (∀ s : State, s.sec.upd = .trial → s.sec.trialAt + 30000000000 ≤ s.now → ∃ t, exec .trialTimeout s = .next t ∧ t.sec.upd = .none ∧
     t.sec.replaced = [] ∧ t.events.last = 0x0A07) ∧
   (∀ s : State, s.sec.upd ≠ .trial ∨ s.now < s.sec.trialAt + 30000000000 → exec .trialTimeout s = .next s))

/-- R387, R389, R391, R396, R398, R407: a fuse request signed as it must be programs its key slot, or revokes it; any other is refused for
the reason of Table 14.9's order, and changes no fuse; a new SEC_NONCE is drawn either way, and by SEC_NONCE_NEW. An attestation request
writes its report where the host asked, taking one index; a capacity too small is refused. While the SP is down a request waits; a busy
mailbox takes none. -/
def Obligations.FusesAndReports : Prop :=
  (∀ s u : State, s.hostUp = true → u = s.hostTouch → u.fuseBusy = false → u.fwRuns 0 = true →
    ∀ a b k, a = u.get (rid .secFuseAddr) 0 40 → b = u.pkgBytes a 3248 → k = 4 + leAt b 6 1 → u.fetchStop 29 a 3248 false = none →
    (u.fuseShape b = false ∨ u.fuseSigned b (sliceAt b 160 3088) = false → ∃ t, exec .fuseRequest s = .next t ∧
      t.get (rid .secFuseStat) 0 4 = 6 ∧ t.sec = u.sec ∧ t.secNonceBytes = u.freeBytes 32) ∧
    (u.fuseShape b = true → u.fuseSigned b (sliceAt b 160 3088) = true →
      (leAt b 5 1 = 1 → u.programmed k = false → ∃ t, exec .fuseRequest s = .next t ∧ t.get (rid .secFuseStat) 0 4 = 2 ∧
        t.keyOf k = sliceAt b 0x28 96 ∧ (∀ j, j ≠ k → t.keyOf j = u.keyOf j) ∧ t.sec.revoke = u.sec.revoke ∧ t.events.last = 0x0A09) ∧
      (leAt b 5 1 = 1 → u.programmed k = true → ∃ t, exec .fuseRequest s = .next t ∧ t.get (rid .secFuseStat) 0 4 = 10 ∧ t.sec = u.sec) ∧
      (leAt b 5 1 = 2 → u.programmed k = true → u.sec.revoke.getLsbD k = false → (∃ j, j < 4 ∧ 4 + j ≠ k ∧ u.liveKey (4 + j) = true) →
        ∃ t, exec .fuseRequest s = .next t ∧ t.get (rid .secFuseStat) 0 4 = 2 ∧ t.sec.keyHash = u.sec.keyHash ∧
          ∀ j, t.sec.revoke.getLsbD j = (u.sec.revoke.getLsbD j || decide (j = k))))) ∧
  (∀ s : State, s.hostUp = true → (s.fuseBusy = true → exec .fuseRequest s = .next s.hostTouch) ∧
    (s.fuseBusy = false → s.fwRuns 0 = false → ∃ t, exec .fuseRequest s = .next t ∧ SetsField s.hostTouch t (rid .secFuseStat) 0 1 1) ∧
    (s.fuseBusy = false → s.fwRuns 0 = true → ∃ t, exec .nonceNew s = .next t ∧ t.secNonceBytes = s.freeBytes 32 ∧ t.sec = s.sec) ∧
    (s.fuseBusy = true ∨ s.fwRuns 0 = false → exec .nonceNew s = .next s.hostTouch) ∧
    (s.attBusy = true → exec .attestRequest s = .next s.hostTouch) ∧
    (s.attBusy = false → s.fwRuns 0 = false → ∃ t, exec .attestRequest s = .next t ∧ SetsField s.hostTouch t (rid .secAttStat) 0 1 1)) ∧
  (∀ s : State, s.hostUp = false → exec .fuseRequest s = .next s ∧ exec .nonceNew s = .next s ∧ exec .attestRequest s = .next s) ∧
  (∀ s u : State, s.hostUp = true → u = s.hostTouch → u.attBusy = false → u.fwRuns 0 = true →
    (u.debugOpen = true → ∃ t, exec .attestRequest s = .next t ∧ t.get (rid .secAttStat) 0 4 = 14 ∧ t.sec = u.sec) ∧
    (u.debugOpen = false → u.get (rid .secAttCap) 0 16 < u.daxaLen → ∃ t, exec .attestRequest s = .next t ∧
      t.get (rid .secAttStat) 0 4 = 10 ∧ t.sec = u.sec) ∧
    (u.debugOpen = false → u.daxaLen ≤ u.get (rid .secAttCap) 0 16 → u.fetchStop 29 (u.get (rid .secAttDst) 0 40) u.daxaLen true = none →
      u.sec.lastNonce ≠ u.attNonce → u.sec.hssNext < 1048576 →
      ∃ t, exec .attestRequest s = .next t ∧ t.get (rid .secAttStat) 0 4 = 2 ∧ t.get (rid .secAttStat) 16 16 = u.daxaLen % 65536 ∧
        t.sec.lastNonce = u.attNonce ∧ t.sec.hssNext = u.sec.hssNext + 1 ∧ t.sec.lastReport.length = u.daxaLen ∧
        ∀ off, regionOf (u.get (rid .secAttDst) 0 40) = .stay off →
          ∀ x, t.byte x = (storeAll u [(u.get (rid .secAttDst) 0 40, t.sec.lastReport)]).byte x))

/-! ### Health -/

/-- R417, R418, R421, R422, R429: a die's temperature shows, with its highest value; it warns from 92 °C until it is below 90 °C, is in
emergency from 98 °C, and trips the part at 108 °C: the clocks stop and the cause is kept. The supply ball counts its assertions and its
release; the host's clear of PWR_THERMd and of shedding, outside an emergency, act as they say. A part asleep or tripped senses nothing. -/
def Obligations.HeatAndSupply : Prop :=
  (∀ (d : Nat) (temp : BitVec 12) (s : State), s.hasDie d = true → s.awake = true → d < 8 → ∃ t, exec (.thermalSample d temp) s = .next t ∧
    t.get (rid .pwrTherm d) 0 12 = temp.toNat ∧
    t.get (rid .pwrTherm d) 16 12 = (if (BitVec.ofNat 12 (s.get (rid .pwrTherm d) 16 12)).toInt < temp.toInt then temp.toNat
      else s.get (rid .pwrTherm d) 16 12) ∧
    bit (t.reg (rid .pwrTherm d)) 12 = (decide (736 ≤ temp.toInt) || (bit (s.reg (rid .pwrTherm d)) 12 && decide (720 ≤ temp.toInt))) ∧
    bit (t.reg (rid .pwrTherm d)) 13 = decide (784 ≤ temp.toInt) ∧
    (∀ k, k ≠ d → t.reg (rid .pwrTherm k) = s.reg (rid .pwrTherm k)) ∧
    (864 ≤ temp.toInt → t.power.life = .tripped ∧ t.power.thermTrip = true ∧ t.timebase = false ∧ t.statusCode = 0x31 ∧
      bit (t.reg (rid .pwrRstCause)) 3 = true ∧ t.get (rid .pwrRstCause) 4 3 = d ∧ t.gpio.driven = []) ∧
    (temp.toInt < 864 → t.power.life = s.power.life ∧ t.timebase = s.timebase)) ∧
  (∀ (d : Nat) (temp : BitVec 12) (s : State), s.hasDie d = false ∨ s.awake = false → exec (.thermalSample d temp) s = .next s) ∧
  (∀ s : State, s.awake = true → s.get (rid .pwrSupply) 0 1 = 0 → ∃ t, exec .pwrwarnAssert s = .next t ∧ t.get (rid .pwrSupply) 0 2 = 3 ∧
    t.get (rid .pwrSupply) 16 16 = min (s.get (rid .pwrSupply) 16 16 + 1) 0xFFFF ∧ t.reg (rid .pwrSupplyT) = BitVec.ofNat 64 (s.now - 50) ∧
    t.emergency = true ∧ (s.tick.phase = .work ∨ s.tick.phase = .guard → t.tick.supply = true)) ∧
  (∀ s : State, s.awake = true → s.get (rid .pwrSupply) 0 1 = 1 → ∃ t, exec .pwrwarnRelease s = .next t ∧ t.get (rid .pwrSupply) 0 1 = 0 ∧
    t.get (rid .pwrSupply) 16 16 = s.get (rid .pwrSupply) 16 16 ∧ t.emergency = s.dieHot) ∧
  (∀ s : State, (s.awake = false ∨ s.get (rid .pwrSupply) 0 1 = 1 → exec .pwrwarnAssert s = .next s) ∧
    (s.awake = false ∨ s.get (rid .pwrSupply) 0 1 = 0 → exec .pwrwarnRelease s = .next s)) ∧
  (∀ s : State, s.hostUp = true → (s.emergency = true → exec .pwrShedClr s = .next s.hostTouch) ∧
    (s.emergency = false → ∃ t, exec .pwrShedClr s = .next t ∧ t.power.shed = [] ∧ t.get (rid .pwrShedStat) 0 8 = 0 ∧
      t.get (rid .pwrShedStat) 16 8 = 0 ∧ (s.fwRuns 1 = true → t.power.restore = false ∧ t.media.shedBlock = []))) ∧
  (∀ s : State, s.hostUp = false → exec .pwrShedClr s = .next s)

/-- R424 to R426: a watchdog that has run out, a trap and an uncorrectable error are crashes of a processor that runs: its cause is recorded, it
is held until its restart is due within its limit, and the third crash within 60 s halts it. A restart, which needs the SP, lets it run
again, counted, with a watchdog of 100 ms, which a kick renews.

R103, R104, R427: a unit that the MP is to take out leaves service at step 6, or while no guard occurs: a yard with its logic and SRAM off,
a mast with its yards, a HyperRAM channel with its domain off and its registers saying so. At another moment, or with the MP down, it
waits. -/
def Obligations.FirmwareHealth : Prop :=
  ((∀ (i : Instr) (p cause : Nat) (s : State), (i = .watchdogExpiry p ∧ cause = 1 ∧ SMap.get 0 s.power.wdog p ≤ s.now) ∨
       (i = .fwTrap p ∧ cause = 2) ∨ (i = .fwEccError p ∧ cause = 3) → p ∈ s.processors → s.fwRuns p = true → s.power.life = .running →
     s.crashRolls p = false → (p = 2 → s.rig.queue = []) → ∃ t, exec i s = .next t ∧ t.get (rid .pwrFw p) 16 2 = cause ∧
       bit (t.reg (rid .pwrFw p)) 2 = true ∧ SMap.get 0 t.power.wdog p = 0 ∧
       (((SMap.get [] s.power.crashes p).filter fun at_ => decide (s.now < at_ + 60000000000)).length < 2 → t.get (rid .pwrFw p) 0 2 = 1 ∧
         SMap.get 0 t.power.restartAt p = s.now + State.restartLimit p ∧ t.events.last = 0x0901) ∧
       (2 ≤ ((SMap.get [] s.power.crashes p).filter fun at_ => decide (s.now < at_ + 60000000000)).length → t.get (rid .pwrFw p) 0 2 = 2 ∧
         SMap.get 0 t.power.restartAt p = 0 ∧ t.events.last = 0x0903) ∧
       (p < 2 → t.mgmt.token = none ∧ t.mgmt.nonce = [])) ∧
   (∀ (p : Nat) (s : State), p ∉ s.processors ∨ s.fwRuns p = false ∨ s.power.life ≠ .running →
     exec (.fwTrap p) s = .next s ∧ exec (.fwEccError p) s = .next s ∧ exec (.watchdogExpiry p) s = .next s) ∧
   (∀ (p : Nat) (s : State), s.now < SMap.get 0 s.power.wdog p → exec (.watchdogExpiry p) s = .next s) ∧
   (∀ (p : Nat) (s : State), p ∈ s.processors → s.get (rid .pwrFw p) 0 2 = 1 → p = 0 ∨ s.fwRuns 0 = true → s.rig.queue = [] →
     (p = 0 → s.updBusy = false ∧ s.fuseBusy = false ∧ s.attBusy = false) → (p = 1 → s.power.restore = false) →
     ∃ t, exec (.fwRestart p) s = .next t ∧ t.fwRuns p = true ∧ t.events.last = 0x0902 ∧
       t.get (rid .pwrFw p) 8 8 = min (s.get (rid .pwrFw p) 8 8 + 1) 255 ∧ SMap.get 0 t.power.wdog p = s.now + 100000000 ∧
       SMap.get 0 t.power.restartAt p = 0) ∧
   (∀ (p : Nat) (s : State), p ∉ s.processors ∨ s.get (rid .pwrFw p) 0 2 ≠ 1 ∨ p ≠ 0 ∧ s.fwRuns 0 = false → exec (.fwRestart p) s = .next s) ∧
   (∀ (p : Nat) (s : State), p ∈ s.processors → s.up p = true → ∃ t, exec (.pwrWdogKick p) s = .next t ∧ Outside [.power] s t ∧
     SMap.get 0 t.power.wdog p = s.now + 100000000 ∧ ∀ q, q ≠ p → SMap.get 0 t.power.wdog q = SMap.get 0 s.power.wdog q) ∧
   (∀ (p : Nat) (s : State), p ∉ s.processors ∨ s.up p = false → exec (.pwrWdogKick p) s = .next s)) ∧
  ((∀ (unit : Nat) (s : State), s.power.outPending.contains unit = true → s.unitIn unit = true → s.fwRuns 1 = true → s.atStep6 = true →
     ∃ t, exec (.unitOut unit) s = .next t ∧ t.unitIn unit = false ∧ t.power.outPending.contains unit = false ∧
       (unit < 56 → t.domOn (20 * (unit / 8) + unit % 8) = false ∧ t.domOn (20 * (unit / 8) + 8 + unit % 8) = false) ∧
       (56 ≤ unit → unit < 63 → (∀ y, t.yardIn (unit - 56) y = false) ∧ t.domOn (20 * (unit - 56) + 18) = false) ∧
       (64 ≤ unit → unit < 72 → bit (t.reg (rid .hrcChCfg (unit - 64))) 2 = true ∧ t.domOn (145 + (unit - 64)) = false)) ∧
   (∀ (unit : Nat) (s : State), s.power.outPending.contains unit = false ∨ s.unitIn unit = false ∨ s.fwRuns 1 = false ∨ s.atStep6 = false →
     exec (.unitOut unit) s = .next s))

/-! ### Numbers and storage -/

/-- R67, R68: every product of an activation level and a weight level lies in [−16,256, 16,384], and the partial of G rows in
[−16,384 × G, 16,384 × G]; stacked passes add exactly; at 128 rows no partial leaves 22 bits, and FP32 holds it exactly. -/
def Obligations.PartialsExact : Prop :=
  (∀ a w : Int, -128 ≤ a → a ≤ 127 → -128 ≤ w → w ≤ 127 → -16256 ≤ partialSum [a] [w] ∧ partialSum [a] [w] ≤ 16384) ∧
  (∀ a w : List Int, (∀ x ∈ a, -128 ≤ x ∧ x ≤ 127) → (∀ x ∈ w, -128 ≤ x ∧ x ≤ 127) →
    -16384 * (a.length : Int) ≤ partialSum a w ∧ partialSum a w ≤ 16384 * (a.length : Int)) ∧
  (∀ a a' w w' : List Int, a.length = w.length → partialSum (a ++ a') (w ++ w') = partialSum a w + partialSum a' w') ∧
  (∀ a w : List Int, (∀ x ∈ a, -128 ≤ x ∧ x ≤ 127) → (∀ x ∈ w, -128 ≤ x ∧ x ≤ 127) → a.length ≤ 128 →
    (partialSum a w).natAbs ≤ 2 ^ 21 ∧ Fp.isFinite (Fp.ofInt (partialSum a w)) = true ∧
      Fp.roundInt (Fp.ofInt (partialSum a w)) = partialSum a w)

/-- R71, R73, R74, R95: no accumulator value is NaN, infinite or subnormal: not what the preload filter lets in, nor what a rescale of a
finite accumulator by a partial gives. An INT8 output is the nearest even whole number, held within its range; a code names a level of its
codebook; a derived scale is the fallback, or normal and at most 2^126. -/
def Obligations.BoomFinite : Prop :=
  (∀ x : Word, Fp.isFinite (preloadFilter x).1 = true ∧ Fp.isSubnormal (preloadFilter x).1 = false) ∧
  (∀ (p : Int) (sa sw : BitVec 16) (first : Bool) (acc : Word), p.natAbs ≤ 2 ^ 21 → Fp.isFinite acc = true →
    Fp.isFinite (rescale p sa sw first acc).1 = true ∧ Fp.isSubnormal (rescale p sa sw first acc).1 = false) ∧
  (∀ (z : Word) (e : List Int), Fp.isFinite z = true →
    (BitVec.ofNat 8 (quantise z 0 e).1).toInt = Fp.clampInt (-128) 127 (Fp.roundInt z) ∧ (quantise z 0 e).1 < 256 ∧
    (e ≠ [] → (quantise z 1 e).1 < e.length ∧ (quantise z 2 e).1 < e.length) ∧
    (quantise z 3 e).1 < 65536 ∧ (quantise z 3 e).1 % 32768 < 0x7F80) ∧
  (∀ (m k : Word) (fb : BitVec 16), (deriveScale m k fb).1 = fb ∨
    (0x0080 ≤ (deriveScale m k fb).1.toNat ∧ (deriveScale m k fb).1.toNat ≤ 0x7E80))

/-- R61, R180: the elements of a row, packed two to a byte or in whole bytes, lie in order and take no byte more; the elements of a weight
tensor have places of their own, tile after tile. -/
def Obligations.StorageLayout : Prop :=
  (∀ es : List Nat, (packRow 4 es).length = (es.length + 1) / 2 ∧
    ∀ i, i < es.length → ((packRow 4 es).getD (i / 2) 0).toNat / 16 ^ (i % 2) % 16 = es.getD i 0 % 16) ∧
  (∀ (n : Nat) (es : List Nat), n = 1 ∨ n = 2 ∨ n = 4 → (packRow (8 * n) es).length = n * es.length ∧
    ∀ i, i < es.length → leAt (packRow (8 * n) es) (n * i) n = es.getD i 0 % 256 ^ n) ∧
  (∀ (t : Tensor) (k n k' n' : Nat), k < t.dims.getD 0 1 → k' < t.dims.getD 0 1 → t.tileIdx k n = t.tileIdx k' n' → k = k' ∧ n = n') ∧
  (∀ (t : Tensor) (k n : Nat), k < t.dims.getD 0 1 → n < t.dims.getD 1 1 →
    t.tileIdx k n < cdiv (t.dims.getD 0 1) 32 * cdiv (t.dims.getD 1 1) 32 * 1024)
end

