-- ==== Sys2Proof/Laws/Fields.lean ====
section
/-! SUPPORT. Reading and writing fields of registers: what a write leaves, bit by bit, and what reading a field after it gives. -/

namespace Sys2Proof.Machine

/-- A field read, bit by bit. -/
theorem testBit_fld (v : BitVec 64) (lo w i : Nat) : (fld v lo w).testBit i = (decide (i < w) && v.getLsbD (lo + i)) := by
  unfold fld
  rw [Nat.testBit_mod_two_pow, ← Nat.shiftRight_eq_div_pow, Nat.testBit_shiftRight]
  rfl

theorem getLsbD_fldMask (lo w j : Nat) : (fldMask lo w).getLsbD j = (decide (j < 64) && decide (lo ≤ j) && decide (j < lo + w)) := by
  unfold fldMask
  rw [BitVec.getLsbD_ofNat, Nat.testBit_two_pow_mul]
  rw [show 2 ^ w - 1 = 2 ^ w - 1 from rfl, Nat.testBit_two_pow_sub_one]
  by_cases h : lo ≤ j
  · have : (j - lo < w) ↔ (j < lo + w) := by omega
    simp [h, this]
  · simp [h]

/-- A field written, bit by bit. -/
theorem getLsbD_setFld (v : BitVec 64) (lo w x j : Nat) :
    (setFld v lo w x).getLsbD j = if lo ≤ j ∧ j < lo + w then decide (j < 64) && x.testBit (j - lo) else v.getLsbD j := by
  unfold setFld
  rw [BitVec.getLsbD_or, BitVec.getLsbD_and, BitVec.getLsbD_not, getLsbD_fldMask, BitVec.getLsbD_ofNat, Nat.testBit_two_pow_mul,
    Nat.testBit_mod_two_pow]
  by_cases h1 : lo ≤ j
  · by_cases h2 : j < lo + w
    · have h3 : j - lo < w := by omega
      by_cases h4 : j < 64
      · simp [h1, h2, h3, h4]
      · simp [h1, h2, h3, h4]
    · have h3 : ¬ j - lo < w := by omega
      by_cases h4 : j < 64
      · simp [h1, h2, h3, h4]
      · have : v.getLsbD j = false := BitVec.getLsbD_of_ge v j (by omega)
        simp [h1, h2, h3, h4, this]
  · by_cases h4 : j < 64
    · simp [h1, h4]
    · have : v.getLsbD j = false := BitVec.getLsbD_of_ge v j (by omega)
      simp [h1, h4, this]

/-- Reading the field just written. -/
theorem fld_setFld_same (v : BitVec 64) {lo w : Nat} (x : Nat) (h : lo + w ≤ 64) : fld (setFld v lo w x) lo w = x % 2 ^ w := by
  apply Nat.eq_of_testBit_eq
  intro i
  rw [testBit_fld, getLsbD_setFld, Nat.testBit_mod_two_pow]
  by_cases hi : i < w
  · have h1 : lo + i < lo + w := by omega
    have h2 : lo + i < 64 := by omega
    simp [hi, h2]
  · simp [hi]

/-- Reading a field apart from the one just written. -/
theorem fld_setFld_ne (v : BitVec 64) {lo w lo' w' : Nat} (x : Nat) (h : lo' + w' ≤ lo ∨ lo + w ≤ lo') :
    fld (setFld v lo w x) lo' w' = fld v lo' w' := by
  apply Nat.eq_of_testBit_eq
  intro i
  rw [testBit_fld, testBit_fld, getLsbD_setFld]
  by_cases hi : i < w'
  · have : ¬ (lo ≤ lo' + i ∧ lo' + i < lo + w) := by omega
    simp [this]
  · simp [hi]

theorem bit_setFld_ne (v : BitVec 64) {lo w n : Nat} (x : Nat) (h : n < lo ∨ lo + w ≤ n) : bit (setFld v lo w x) n = bit v n := by
  unfold bit
  rw [getLsbD_setFld, if_neg (by omega)]

/-- Writing a field of one bit. -/
theorem bit_setFld_one (v : BitVec 64) {n : Nat} (x : Nat) (h : n < 64) : bit (setFld v n 1 x) n = decide (x % 2 = 1) := by
  unfold bit
  rw [getLsbD_setFld, if_pos (by omega)]
  simp [h, Nat.testBit_zero]

theorem fld_lt (v : BitVec 64) (lo w : Nat) : fld v lo w < 2 ^ w := Nat.mod_lt _ (Nat.two_pow_pos w)

/-- Bit `n` as a field of one bit. -/
theorem fld_one (v : BitVec 64) (n : Nat) : fld v n 1 = if bit v n then 1 else 0 := by
  unfold fld bit
  rw [← Nat.shiftRight_eq_div_pow, pow_one]
  show v.toNat >>> n % 2 = if v.toNat.testBit n then 1 else 0
  rw [Nat.testBit_eq_decide_div_mod_eq, Nat.shiftRight_eq_div_pow]
  have := Nat.mod_two_eq_zero_or_one (v.toNat / 2 ^ n)
  rcases this with h | h <;> simp [h]

end Sys2Proof.Machine
end

