-- ==== Sys2Proof/Laws/Sparse.lean ====
section
/-! SUPPORT. What sparse storage does: reading back, leaving every other key alone, and keeping the canonical form. -/

namespace Sys2Proof.Machine

variable {α : Type} {d : α}

@[simp] theorem SMap.get_nil (a : Nat) : SMap.get d [] a = d := rfl

theorem SMap.get_erase_same (m : SMap α) (a : Nat) : SMap.get d (m.erase a) a = d := by
  induction m with
  | nil => rfl
  | cons e m ih =>
    obtain ⟨k, v⟩ := e
    simp only [SMap.erase]
    split
    · exact ih
    · simp [SMap.get, *]

theorem SMap.get_erase_ne (m : SMap α) {a b : Nat} (h : b ≠ a) : SMap.get d (m.erase a) b = SMap.get d m b := by
  induction m with
  | nil => rfl
  | cons e m ih =>
    obtain ⟨k, v⟩ := e
    simp only [SMap.erase]
    split
    · next hk => subst hk; simp [SMap.get, Ne.symm h, ih]
    · simp only [SMap.get, ih]

theorem SMap.get_insert_erased (m : SMap α) (a : Nat) (v : α) :
    SMap.get d ((m.erase a).insert a v) a = v := by
  induction m with
  | nil => simp [SMap.erase, SMap.insert, SMap.get]
  | cons e m ih =>
    obtain ⟨k, w⟩ := e
    simp only [SMap.erase]
    split
    · exact ih
    · next hk =>
      simp only [SMap.insert]
      split
      · simp [SMap.get]
      · simp [SMap.get, hk, ih]

theorem SMap.get_insert_ne (m : SMap α) {a b : Nat} (v : α) (h : b ≠ a) :
    SMap.get d (m.insert a v) b = SMap.get d m b := by
  induction m with
  | nil => simp [SMap.insert, SMap.get, Ne.symm h]
  | cons e m ih =>
    obtain ⟨k, w⟩ := e
    simp only [SMap.insert]
    split
    · simp [SMap.get, Ne.symm h]
    · simp only [SMap.get, ih]

variable [DecidableEq α]

@[simp] theorem SMap.get_set_same (m : SMap α) (a : Nat) (v : α) : SMap.get d (SMap.set d m a v) a = v := by
  unfold SMap.set
  split
  · next h => rw [SMap.get_erase_same, h]
  · exact SMap.get_insert_erased m a v

theorem SMap.get_set_ne (m : SMap α) {a b : Nat} (v : α) (h : b ≠ a) :
    SMap.get d (SMap.set d m a v) b = SMap.get d m b := by
  unfold SMap.set
  split
  · exact SMap.get_erase_ne m h
  · rw [SMap.get_insert_ne _ _ h, SMap.get_erase_ne m h]

theorem SMap.get_set (m : SMap α) (a b : Nat) (v : α) :
    SMap.get d (SMap.set d m a v) b = if b = a then v else SMap.get d m b := by
  split
  · next h => rw [h, SMap.get_set_same]
  · next h => exact SMap.get_set_ne m v h

theorem SMap.erase_erase (m : SMap α) (a : Nat) : (m.erase a).erase a = m.erase a := by
  induction m with
  | nil => rfl
  | cons e m ih =>
    obtain ⟨k, w⟩ := e
    by_cases hk : k = a <;> simp [SMap.erase, hk, ih]

theorem SMap.erase_insert_erased (m : SMap α) (a : Nat) (v : α) : ((m.erase a).insert a v).erase a = m.erase a := by
  induction m with
  | nil => simp [SMap.erase, SMap.insert]
  | cons e m ih =>
    obtain ⟨k, w⟩ := e
    by_cases hk : k = a
    · simp [SMap.erase, hk, ih]
    · simp only [SMap.erase, hk, if_false, SMap.insert]
      split
      · simp [SMap.erase, hk, SMap.erase_erase]
      · simp [SMap.erase, hk, ih]

/-- The later of two stores at one place. -/
theorem SMap.set_set [DecidableEq α] (m : SMap α) (a : Nat) (v w : α) : SMap.set d (SMap.set d m a v) a w = SMap.set d m a w := by
  have h : (SMap.set d m a v).erase a = m.erase a := by
    unfold SMap.set; split
    · exact SMap.erase_erase m a
    · exact SMap.erase_insert_erased m a v
  unfold SMap.set at h ⊢
  rw [h]

/-- The canonical form, said of every neighbouring pair and every entry. -/
theorem SMap.wf_cons {k : Nat} {v : α} {m : SMap α} :
    SMap.wf d ((k, v) :: m) = true ↔ v ≠ d ∧ SMap.wf d m = true ∧ ∀ e ∈ m.head?, k < e.1 := by
  cases m with
  | nil => simp [SMap.wf]
  | cons e m =>
    obtain ⟨k', v'⟩ := e
    simp [SMap.wf, and_assoc]
    constructor
    · rintro ⟨h1, h2, h3⟩; exact ⟨h2, h3, h1⟩
    · rintro ⟨h1, h2, h3⟩; exact ⟨h3, h1, h2⟩

theorem SMap.wf_lt_all {m : SMap α} {k : Nat} (h : SMap.wf d m = true) (hk : ∀ e ∈ m.head?, k < e.1) :
    ∀ e ∈ m, k < e.1 := by
  induction m generalizing k with
  | nil => simp
  | cons e m ih =>
    obtain ⟨k', v'⟩ := e
    obtain ⟨_, h2, h3⟩ := SMap.wf_cons.mp h
    have hk' : k < k' := hk (k', v') (by simp)
    intro e he
    rcases List.mem_cons.mp he with rfl | he
    · exact hk'
    · have := ih h2 h3 e he; omega

omit [DecidableEq α] in
theorem SMap.erase_subset {m : SMap α} {a : Nat} {e : Nat × α} (he : e ∈ m.erase a) : e ∈ m ∧ e.1 ≠ a := by
  induction m with
  | nil => simp [SMap.erase] at he
  | cons x m ih =>
    obtain ⟨k, v⟩ := x
    simp only [SMap.erase] at he
    split at he
    · have := ih he; simp [this]
    · rcases List.mem_cons.mp he with rfl | he
      · simp [*]
      · have := ih he; simp [this]

theorem SMap.wf_erase {m : SMap α} (h : SMap.wf d m = true) (a : Nat) : SMap.wf d (m.erase a) = true := by
  induction m with
  | nil => rfl
  | cons x m ih =>
    obtain ⟨k, v⟩ := x
    obtain ⟨h1, h2, h3⟩ := SMap.wf_cons.mp h
    simp only [SMap.erase]
    split
    · exact ih h2
    · refine SMap.wf_cons.mpr ⟨h1, ih h2, fun e he => ?_⟩
      exact SMap.wf_lt_all h2 h3 e (SMap.erase_subset (List.mem_of_mem_head? he)).1

omit [DecidableEq α] in
theorem SMap.head_insert {m : SMap α} {a : Nat} {v : α} {e : Nat × α} (he : e ∈ (m.insert a v).head?) :
    e = (a, v) ∨ e ∈ m.head? := by
  cases m with
  | nil => simp [SMap.insert] at he; exact .inl he.symm
  | cons x m =>
    simp only [SMap.insert] at he
    split at he
    · simp at he; exact .inl he.symm
    · exact .inr (by simpa using he)

theorem SMap.wf_insert {m : SMap α} (h : SMap.wf d m = true) {a : Nat} {v : α} (hv : v ≠ d)
    (ha : ∀ e ∈ m, e.1 ≠ a) : SMap.wf d (m.insert a v) = true := by
  induction m with
  | nil => simp [SMap.insert, SMap.wf, hv]
  | cons x m ih =>
    obtain ⟨k, w⟩ := x
    obtain ⟨h1, h2, h3⟩ := SMap.wf_cons.mp h
    simp only [SMap.insert]
    split
    · next hlt => exact SMap.wf_cons.mpr ⟨hv, h, by simpa using hlt⟩
    · next hlt =>
      have hne : k ≠ a := ha (k, w) (by simp)
      refine SMap.wf_cons.mpr ⟨h1, ih h2 (fun e he => ha e (by simp [he])), fun e he => ?_⟩
      rcases SMap.head_insert he with rfl | he
      · simp; omega
      · exact h3 e he

/-- Every store keeps the canonical form. -/
theorem SMap.wf_set {m : SMap α} (h : SMap.wf d m = true) (a : Nat) (v : α) :
    SMap.wf d (SMap.set d m a v) = true := by
  unfold SMap.set
  split
  · exact SMap.wf_erase h a
  · next hv => exact SMap.wf_insert (SMap.wf_erase h a) hv (fun e he => (SMap.erase_subset he).2)

theorem SMap.wf_setRange {m : SMap α} (h : SMap.wf d m = true) (f : Nat → α) (a n : Nat) :
    SMap.wf d (SMap.setRange d f a n m) = true := by
  induction n generalizing m with
  | zero => exact h
  | succ n ih => exact ih (SMap.wf_set h _ _)

theorem SMap.get_setRange (f : Nat → α) (a n b : Nat) (m : SMap α) :
    SMap.get d (SMap.setRange d f a n m) b =
      if a ≤ b ∧ b < a + n then f (b - a) else SMap.get d m b := by
  induction n generalizing m with
  | zero => rw [if_neg (by omega)]; rfl
  | succ n ih =>
    simp only [SMap.setRange, ih, SMap.get_set]
    by_cases h1 : a ≤ b ∧ b < a + n
    · rw [if_pos h1, if_pos ⟨h1.1, by omega⟩]
    · rw [if_neg h1]
      by_cases h2 : b = a + n
      · subst h2; simp
      · rw [if_neg h2, if_neg (by omega)]

theorem SMap.wf_restrict {m : SMap α} (h : SMap.wf d m = true) (keep : Nat → Bool) :
    SMap.wf d (m.restrict keep) = true := by
  induction m with
  | nil => rfl
  | cons x m ih =>
    obtain ⟨k, v⟩ := x
    obtain ⟨h1, h2, h3⟩ := SMap.wf_cons.mp h
    simp only [SMap.restrict, List.filter_cons] at *
    split
    · refine SMap.wf_cons.mpr ⟨h1, ih h2, fun e he => ?_⟩
      exact SMap.wf_lt_all h2 h3 e (List.mem_filter.mp (List.mem_of_mem_head? he)).1
    · exact ih h2

end Sys2Proof.Machine
end

