-- ==== Sys2Proof/Laws/Registers.lean ====
section
/-! SUPPORT. What the operations over registers do: a register written reads back, every other register reads as before, and nothing but the
registers changes. -/

namespace Sys2Proof.Machine

theorem RegName.ctorIdx_lt (n : RegName) : n.ctorIdx < 256 := by cases n <;> decide

theorem RegName.ctorIdx_inj {m n : RegName} (h : m.ctorIdx = n.ctorIdx) : m = n := by
  have := congrArg RegName.ofNat h
  rwa [RegName.ofNat_ctorIdx, RegName.ofNat_ctorIdx] at this

/-- Two registers with one key are one. -/
theorem RegId.key_inj {r q : RegId} (h : r.key = q.key) : r = q := by
  obtain ⟨n, i, j, k, l⟩ := r
  obtain ⟨n', i', j', k', l'⟩ := q
  unfold RegId.key at h
  have h1 := RegName.ctorIdx_lt n
  have h2 := RegName.ctorIdx_lt n'
  simp only at h
  have hn : n.ctorIdx = n'.ctorIdx := by omega
  have hk : key4 i j k l = key4 i' j' k' l' := by omega
  obtain ⟨a, hk⟩ := key2_inj hk
  obtain ⟨b, hk⟩ := key2_inj hk
  obtain ⟨c, d⟩ := key2_inj hk
  rw [RegName.ctorIdx_inj hn, a, b, c, d]

theorem RegId.key_ne {r q : RegId} (h : r ≠ q) : r.key ≠ q.key := fun e => h (RegId.key_inj e)

namespace State

variable (s : State)

/-- A register written reads back. -/
@[simp] theorem reg_setReg_same (r : RegId) (v : BitVec 64) : (s.setReg r v).reg r = v := by
  unfold reg setReg
  simp

/-- Every other register reads as before. -/
theorem reg_setReg_ne {r q : RegId} (v : BitVec 64) (h : q ≠ r) : (s.setReg r v).reg q = s.reg q := by
  unfold reg setReg
  simp only
  rw [SMap.get_set_ne _ _ (RegId.key_ne h)]

theorem reg_put_ne {r q : RegId} (lo w x : Nat) (h : q ≠ r) : (s.put r lo w x).reg q = s.reg q := reg_setReg_ne s _ h

@[simp] theorem reg_put_same (r : RegId) (lo w x : Nat) : (s.put r lo w x).reg r = setFld (s.reg r) lo w x := reg_setReg_same s r _

/-- The field written reads back. -/
theorem get_put_same (r : RegId) {lo w : Nat} (x : Nat) (h : lo + w ≤ 64) : (s.put r lo w x).get r lo w = x % 2 ^ w := by
  unfold get
  rw [reg_put_same, fld_setFld_same _ _ h]

/-- The register's other fields read as before. -/
theorem get_put_field (r : RegId) {lo w lo' w' : Nat} (x : Nat) (h : lo' + w' ≤ lo ∨ lo + w ≤ lo') :
    (s.put r lo w x).get r lo' w' = s.get r lo' w' := by
  unfold get
  rw [reg_put_same, fld_setFld_ne _ _ h]

theorem get_put_ne {r q : RegId} (lo w x lo' w' : Nat) (h : q ≠ r) : (s.put r lo w x).get q lo' w' = s.get q lo' w' := by
  unfold get
  rw [reg_put_ne _ _ _ _ h]

theorem get_setReg_ne {r q : RegId} (v : BitVec 64) (lo w : Nat) (h : q ≠ r) : (s.setReg r v).get q lo w = s.get q lo w := by
  unfold get
  rw [reg_setReg_ne _ _ h]

/-- A store into a register changes the registers only. -/
theorem setReg_eq (r : RegId) (v : BitVec 64) : s.setReg r v = { s with regs := (s.setReg r v).regs } := rfl
theorem put_eq (r : RegId) (lo w x : Nat) : s.put r lo w x = { s with regs := (s.put r lo w x).regs } := rfl

end State
end Sys2Proof.Machine
end

