-- ==== Sys2Proof/Laws/State.lean ====
section
/-! SUPPORT. What each update of the state leaves alone: one lemma per field per update, so that no proof unfolds a record update. -/

namespace Sys2Proof.Machine.State

variable (s : State)

@[simp] theorem part_setReg (r : RegId) (v : BitVec 64) : (s.setReg r v).part = s.part := rfl
@[simp] theorem gcnt_setReg (r : RegId) (v : BitVec 64) : (s.setReg r v).gcnt = s.gcnt := rfl
@[simp] theorem timebase_setReg (r : RegId) (v : BitVec 64) : (s.setReg r v).timebase = s.timebase := rfl
@[simp] theorem was_setReg (r : RegId) (v : BitVec 64) : (s.setReg r v).was = s.was := rfl
@[simp] theorem latch_setReg (r : RegId) (v : BitVec 64) : (s.setReg r v).latch = s.latch := rfl
@[simp] theorem hold_setReg (r : RegId) (v : BitVec 64) : (s.setReg r v).hold = s.hold := rfl
@[simp] theorem mem_setReg (r : RegId) (v : BitVec 64) : (s.setReg r v).mem = s.mem := rfl
@[simp] theorem ecc_setReg (r : RegId) (v : BitVec 64) : (s.setReg r v).ecc = s.ecc := rfl
@[simp] theorem tick_setReg (r : RegId) (v : BitVec 64) : (s.setReg r v).tick = s.tick := rfl
@[simp] theorem progs_setReg (r : RegId) (v : BitVec 64) : (s.setReg r v).progs = s.progs := rfl
@[simp] theorem serials_setReg (r : RegId) (v : BitVec 64) : (s.setReg r v).serials = s.serials := rfl
@[simp] theorem yards_setReg (r : RegId) (v : BitVec 64) : (s.setReg r v).yards = s.yards := rfl
@[simp] theorem flags_setReg (r : RegId) (v : BitVec 64) : (s.setReg r v).flags = s.flags := rfl
@[simp] theorem fabric_setReg (r : RegId) (v : BitVec 64) : (s.setReg r v).fabric = s.fabric := rfl
@[simp] theorem strm_setReg (r : RegId) (v : BitVec 64) : (s.setReg r v).strm = s.strm := rfl
@[simp] theorem rig_setReg (r : RegId) (v : BitVec 64) : (s.setReg r v).rig = s.rig := rfl
@[simp] theorem events_setReg (r : RegId) (v : BitVec 64) : (s.setReg r v).events = s.events := rfl
@[simp] theorem queue_setReg (r : RegId) (v : BitVec 64) : (s.setReg r v).queue = s.queue := rfl
@[simp] theorem media_setReg (r : RegId) (v : BitVec 64) : (s.setReg r v).media = s.media := rfl
@[simp] theorem gpio_setReg (r : RegId) (v : BitVec 64) : (s.setReg r v).gpio = s.gpio := rfl
@[simp] theorem hyper_setReg (r : RegId) (v : BitVec 64) : (s.setReg r v).hyper = s.hyper := rfl
@[simp] theorem mgmt_setReg (r : RegId) (v : BitVec 64) : (s.setReg r v).mgmt = s.mgmt := rfl
@[simp] theorem sec_setReg (r : RegId) (v : BitVec 64) : (s.setReg r v).sec = s.sec := rfl
@[simp] theorem power_setReg (r : RegId) (v : BitVec 64) : (s.setReg r v).power = s.power := rfl
@[simp] theorem free_setReg (r : RegId) (v : BitVec 64) : (s.setReg r v).free = s.free := rfl
@[simp] theorem pending_setReg (r : RegId) (v : BitVec 64) : (s.setReg r v).pending = s.pending := rfl

@[simp] theorem part_put (r : RegId) (lo w x : Nat) : (s.put r lo w x).part = s.part := rfl
@[simp] theorem gcnt_put (r : RegId) (lo w x : Nat) : (s.put r lo w x).gcnt = s.gcnt := rfl
@[simp] theorem timebase_put (r : RegId) (lo w x : Nat) : (s.put r lo w x).timebase = s.timebase := rfl
@[simp] theorem was_put (r : RegId) (lo w x : Nat) : (s.put r lo w x).was = s.was := rfl
@[simp] theorem latch_put (r : RegId) (lo w x : Nat) : (s.put r lo w x).latch = s.latch := rfl
@[simp] theorem hold_put (r : RegId) (lo w x : Nat) : (s.put r lo w x).hold = s.hold := rfl
@[simp] theorem mem_put (r : RegId) (lo w x : Nat) : (s.put r lo w x).mem = s.mem := rfl
@[simp] theorem ecc_put (r : RegId) (lo w x : Nat) : (s.put r lo w x).ecc = s.ecc := rfl
@[simp] theorem tick_put (r : RegId) (lo w x : Nat) : (s.put r lo w x).tick = s.tick := rfl
@[simp] theorem progs_put (r : RegId) (lo w x : Nat) : (s.put r lo w x).progs = s.progs := rfl
@[simp] theorem serials_put (r : RegId) (lo w x : Nat) : (s.put r lo w x).serials = s.serials := rfl
@[simp] theorem yards_put (r : RegId) (lo w x : Nat) : (s.put r lo w x).yards = s.yards := rfl
@[simp] theorem flags_put (r : RegId) (lo w x : Nat) : (s.put r lo w x).flags = s.flags := rfl
@[simp] theorem fabric_put (r : RegId) (lo w x : Nat) : (s.put r lo w x).fabric = s.fabric := rfl
@[simp] theorem strm_put (r : RegId) (lo w x : Nat) : (s.put r lo w x).strm = s.strm := rfl
@[simp] theorem rig_put (r : RegId) (lo w x : Nat) : (s.put r lo w x).rig = s.rig := rfl
@[simp] theorem events_put (r : RegId) (lo w x : Nat) : (s.put r lo w x).events = s.events := rfl
@[simp] theorem queue_put (r : RegId) (lo w x : Nat) : (s.put r lo w x).queue = s.queue := rfl
@[simp] theorem media_put (r : RegId) (lo w x : Nat) : (s.put r lo w x).media = s.media := rfl
@[simp] theorem gpio_put (r : RegId) (lo w x : Nat) : (s.put r lo w x).gpio = s.gpio := rfl
@[simp] theorem hyper_put (r : RegId) (lo w x : Nat) : (s.put r lo w x).hyper = s.hyper := rfl
@[simp] theorem mgmt_put (r : RegId) (lo w x : Nat) : (s.put r lo w x).mgmt = s.mgmt := rfl
@[simp] theorem sec_put (r : RegId) (lo w x : Nat) : (s.put r lo w x).sec = s.sec := rfl
@[simp] theorem power_put (r : RegId) (lo w x : Nat) : (s.put r lo w x).power = s.power := rfl
@[simp] theorem free_put (r : RegId) (lo w x : Nat) : (s.put r lo w x).free = s.free := rfl
@[simp] theorem pending_put (r : RegId) (lo w x : Nat) : (s.put r lo w x).pending = s.pending := rfl

@[simp] theorem part_setBits (r : RegId) (m : BitVec 64) : (s.setBits r m).part = s.part := rfl
@[simp] theorem gcnt_setBits (r : RegId) (m : BitVec 64) : (s.setBits r m).gcnt = s.gcnt := rfl
@[simp] theorem timebase_setBits (r : RegId) (m : BitVec 64) : (s.setBits r m).timebase = s.timebase := rfl
@[simp] theorem was_setBits (r : RegId) (m : BitVec 64) : (s.setBits r m).was = s.was := rfl
@[simp] theorem latch_setBits (r : RegId) (m : BitVec 64) : (s.setBits r m).latch = s.latch := rfl
@[simp] theorem hold_setBits (r : RegId) (m : BitVec 64) : (s.setBits r m).hold = s.hold := rfl
@[simp] theorem mem_setBits (r : RegId) (m : BitVec 64) : (s.setBits r m).mem = s.mem := rfl
@[simp] theorem ecc_setBits (r : RegId) (m : BitVec 64) : (s.setBits r m).ecc = s.ecc := rfl
@[simp] theorem tick_setBits (r : RegId) (m : BitVec 64) : (s.setBits r m).tick = s.tick := rfl
@[simp] theorem progs_setBits (r : RegId) (m : BitVec 64) : (s.setBits r m).progs = s.progs := rfl
@[simp] theorem serials_setBits (r : RegId) (m : BitVec 64) : (s.setBits r m).serials = s.serials := rfl
@[simp] theorem yards_setBits (r : RegId) (m : BitVec 64) : (s.setBits r m).yards = s.yards := rfl
@[simp] theorem flags_setBits (r : RegId) (m : BitVec 64) : (s.setBits r m).flags = s.flags := rfl
@[simp] theorem fabric_setBits (r : RegId) (m : BitVec 64) : (s.setBits r m).fabric = s.fabric := rfl
@[simp] theorem strm_setBits (r : RegId) (m : BitVec 64) : (s.setBits r m).strm = s.strm := rfl
@[simp] theorem rig_setBits (r : RegId) (m : BitVec 64) : (s.setBits r m).rig = s.rig := rfl
@[simp] theorem events_setBits (r : RegId) (m : BitVec 64) : (s.setBits r m).events = s.events := rfl
@[simp] theorem queue_setBits (r : RegId) (m : BitVec 64) : (s.setBits r m).queue = s.queue := rfl
@[simp] theorem media_setBits (r : RegId) (m : BitVec 64) : (s.setBits r m).media = s.media := rfl
@[simp] theorem gpio_setBits (r : RegId) (m : BitVec 64) : (s.setBits r m).gpio = s.gpio := rfl
@[simp] theorem hyper_setBits (r : RegId) (m : BitVec 64) : (s.setBits r m).hyper = s.hyper := rfl
@[simp] theorem mgmt_setBits (r : RegId) (m : BitVec 64) : (s.setBits r m).mgmt = s.mgmt := rfl
@[simp] theorem sec_setBits (r : RegId) (m : BitVec 64) : (s.setBits r m).sec = s.sec := rfl
@[simp] theorem power_setBits (r : RegId) (m : BitVec 64) : (s.setBits r m).power = s.power := rfl
@[simp] theorem free_setBits (r : RegId) (m : BitVec 64) : (s.setBits r m).free = s.free := rfl
@[simp] theorem pending_setBits (r : RegId) (m : BitVec 64) : (s.setBits r m).pending = s.pending := rfl

@[simp] theorem part_clearBits (r : RegId) (m : BitVec 64) : (s.clearBits r m).part = s.part := rfl
@[simp] theorem gcnt_clearBits (r : RegId) (m : BitVec 64) : (s.clearBits r m).gcnt = s.gcnt := rfl
@[simp] theorem timebase_clearBits (r : RegId) (m : BitVec 64) : (s.clearBits r m).timebase = s.timebase := rfl
@[simp] theorem was_clearBits (r : RegId) (m : BitVec 64) : (s.clearBits r m).was = s.was := rfl
@[simp] theorem latch_clearBits (r : RegId) (m : BitVec 64) : (s.clearBits r m).latch = s.latch := rfl
@[simp] theorem hold_clearBits (r : RegId) (m : BitVec 64) : (s.clearBits r m).hold = s.hold := rfl
@[simp] theorem mem_clearBits (r : RegId) (m : BitVec 64) : (s.clearBits r m).mem = s.mem := rfl
@[simp] theorem ecc_clearBits (r : RegId) (m : BitVec 64) : (s.clearBits r m).ecc = s.ecc := rfl
@[simp] theorem tick_clearBits (r : RegId) (m : BitVec 64) : (s.clearBits r m).tick = s.tick := rfl
@[simp] theorem progs_clearBits (r : RegId) (m : BitVec 64) : (s.clearBits r m).progs = s.progs := rfl
@[simp] theorem serials_clearBits (r : RegId) (m : BitVec 64) : (s.clearBits r m).serials = s.serials := rfl
@[simp] theorem yards_clearBits (r : RegId) (m : BitVec 64) : (s.clearBits r m).yards = s.yards := rfl
@[simp] theorem flags_clearBits (r : RegId) (m : BitVec 64) : (s.clearBits r m).flags = s.flags := rfl
@[simp] theorem fabric_clearBits (r : RegId) (m : BitVec 64) : (s.clearBits r m).fabric = s.fabric := rfl
@[simp] theorem strm_clearBits (r : RegId) (m : BitVec 64) : (s.clearBits r m).strm = s.strm := rfl
@[simp] theorem rig_clearBits (r : RegId) (m : BitVec 64) : (s.clearBits r m).rig = s.rig := rfl
@[simp] theorem events_clearBits (r : RegId) (m : BitVec 64) : (s.clearBits r m).events = s.events := rfl
@[simp] theorem queue_clearBits (r : RegId) (m : BitVec 64) : (s.clearBits r m).queue = s.queue := rfl
@[simp] theorem media_clearBits (r : RegId) (m : BitVec 64) : (s.clearBits r m).media = s.media := rfl
@[simp] theorem gpio_clearBits (r : RegId) (m : BitVec 64) : (s.clearBits r m).gpio = s.gpio := rfl
@[simp] theorem hyper_clearBits (r : RegId) (m : BitVec 64) : (s.clearBits r m).hyper = s.hyper := rfl
@[simp] theorem mgmt_clearBits (r : RegId) (m : BitVec 64) : (s.clearBits r m).mgmt = s.mgmt := rfl
@[simp] theorem sec_clearBits (r : RegId) (m : BitVec 64) : (s.clearBits r m).sec = s.sec := rfl
@[simp] theorem power_clearBits (r : RegId) (m : BitVec 64) : (s.clearBits r m).power = s.power := rfl
@[simp] theorem free_clearBits (r : RegId) (m : BitVec 64) : (s.clearBits r m).free = s.free := rfl
@[simp] theorem pending_clearBits (r : RegId) (m : BitVec 64) : (s.clearBits r m).pending = s.pending := rfl

@[simp] theorem part_bump (r : RegId) (n lo w : Nat) : (s.bump r n lo w).part = s.part := rfl
@[simp] theorem gcnt_bump (r : RegId) (n lo w : Nat) : (s.bump r n lo w).gcnt = s.gcnt := rfl
@[simp] theorem timebase_bump (r : RegId) (n lo w : Nat) : (s.bump r n lo w).timebase = s.timebase := rfl
@[simp] theorem was_bump (r : RegId) (n lo w : Nat) : (s.bump r n lo w).was = s.was := rfl
@[simp] theorem latch_bump (r : RegId) (n lo w : Nat) : (s.bump r n lo w).latch = s.latch := rfl
@[simp] theorem hold_bump (r : RegId) (n lo w : Nat) : (s.bump r n lo w).hold = s.hold := rfl
@[simp] theorem mem_bump (r : RegId) (n lo w : Nat) : (s.bump r n lo w).mem = s.mem := rfl
@[simp] theorem ecc_bump (r : RegId) (n lo w : Nat) : (s.bump r n lo w).ecc = s.ecc := rfl
@[simp] theorem tick_bump (r : RegId) (n lo w : Nat) : (s.bump r n lo w).tick = s.tick := rfl
@[simp] theorem progs_bump (r : RegId) (n lo w : Nat) : (s.bump r n lo w).progs = s.progs := rfl
@[simp] theorem serials_bump (r : RegId) (n lo w : Nat) : (s.bump r n lo w).serials = s.serials := rfl
@[simp] theorem yards_bump (r : RegId) (n lo w : Nat) : (s.bump r n lo w).yards = s.yards := rfl
@[simp] theorem flags_bump (r : RegId) (n lo w : Nat) : (s.bump r n lo w).flags = s.flags := rfl
@[simp] theorem fabric_bump (r : RegId) (n lo w : Nat) : (s.bump r n lo w).fabric = s.fabric := rfl
@[simp] theorem strm_bump (r : RegId) (n lo w : Nat) : (s.bump r n lo w).strm = s.strm := rfl
@[simp] theorem rig_bump (r : RegId) (n lo w : Nat) : (s.bump r n lo w).rig = s.rig := rfl
@[simp] theorem events_bump (r : RegId) (n lo w : Nat) : (s.bump r n lo w).events = s.events := rfl
@[simp] theorem queue_bump (r : RegId) (n lo w : Nat) : (s.bump r n lo w).queue = s.queue := rfl
@[simp] theorem media_bump (r : RegId) (n lo w : Nat) : (s.bump r n lo w).media = s.media := rfl
@[simp] theorem gpio_bump (r : RegId) (n lo w : Nat) : (s.bump r n lo w).gpio = s.gpio := rfl
@[simp] theorem hyper_bump (r : RegId) (n lo w : Nat) : (s.bump r n lo w).hyper = s.hyper := rfl
@[simp] theorem mgmt_bump (r : RegId) (n lo w : Nat) : (s.bump r n lo w).mgmt = s.mgmt := rfl
@[simp] theorem sec_bump (r : RegId) (n lo w : Nat) : (s.bump r n lo w).sec = s.sec := rfl
@[simp] theorem power_bump (r : RegId) (n lo w : Nat) : (s.bump r n lo w).power = s.power := rfl
@[simp] theorem free_bump (r : RegId) (n lo w : Nat) : (s.bump r n lo w).free = s.free := rfl
@[simp] theorem pending_bump (r : RegId) (n lo w : Nat) : (s.bump r n lo w).pending = s.pending := rfl

@[simp] theorem part_perf (r : RegId) (n : Nat) : (s.perf r n).part = s.part := rfl
@[simp] theorem gcnt_perf (r : RegId) (n : Nat) : (s.perf r n).gcnt = s.gcnt := rfl
@[simp] theorem timebase_perf (r : RegId) (n : Nat) : (s.perf r n).timebase = s.timebase := rfl
@[simp] theorem was_perf (r : RegId) (n : Nat) : (s.perf r n).was = s.was := rfl
@[simp] theorem latch_perf (r : RegId) (n : Nat) : (s.perf r n).latch = s.latch := rfl
@[simp] theorem hold_perf (r : RegId) (n : Nat) : (s.perf r n).hold = s.hold := rfl
@[simp] theorem mem_perf (r : RegId) (n : Nat) : (s.perf r n).mem = s.mem := rfl
@[simp] theorem ecc_perf (r : RegId) (n : Nat) : (s.perf r n).ecc = s.ecc := rfl
@[simp] theorem tick_perf (r : RegId) (n : Nat) : (s.perf r n).tick = s.tick := rfl
@[simp] theorem progs_perf (r : RegId) (n : Nat) : (s.perf r n).progs = s.progs := rfl
@[simp] theorem serials_perf (r : RegId) (n : Nat) : (s.perf r n).serials = s.serials := rfl
@[simp] theorem yards_perf (r : RegId) (n : Nat) : (s.perf r n).yards = s.yards := rfl
@[simp] theorem flags_perf (r : RegId) (n : Nat) : (s.perf r n).flags = s.flags := rfl
@[simp] theorem fabric_perf (r : RegId) (n : Nat) : (s.perf r n).fabric = s.fabric := rfl
@[simp] theorem strm_perf (r : RegId) (n : Nat) : (s.perf r n).strm = s.strm := rfl
@[simp] theorem rig_perf (r : RegId) (n : Nat) : (s.perf r n).rig = s.rig := rfl
@[simp] theorem events_perf (r : RegId) (n : Nat) : (s.perf r n).events = s.events := rfl
@[simp] theorem queue_perf (r : RegId) (n : Nat) : (s.perf r n).queue = s.queue := rfl
@[simp] theorem media_perf (r : RegId) (n : Nat) : (s.perf r n).media = s.media := rfl
@[simp] theorem gpio_perf (r : RegId) (n : Nat) : (s.perf r n).gpio = s.gpio := rfl
@[simp] theorem hyper_perf (r : RegId) (n : Nat) : (s.perf r n).hyper = s.hyper := rfl
@[simp] theorem mgmt_perf (r : RegId) (n : Nat) : (s.perf r n).mgmt = s.mgmt := rfl
@[simp] theorem sec_perf (r : RegId) (n : Nat) : (s.perf r n).sec = s.sec := rfl
@[simp] theorem power_perf (r : RegId) (n : Nat) : (s.perf r n).power = s.power := rfl
@[simp] theorem free_perf (r : RegId) (n : Nat) : (s.perf r n).free = s.free := rfl
@[simp] theorem pending_perf (r : RegId) (n : Nat) : (s.perf r n).pending = s.pending := rfl

@[simp] theorem part_takeFree (n : Nat) : (s.takeFree n).part = s.part := rfl
@[simp] theorem gcnt_takeFree (n : Nat) : (s.takeFree n).gcnt = s.gcnt := rfl
@[simp] theorem timebase_takeFree (n : Nat) : (s.takeFree n).timebase = s.timebase := rfl
@[simp] theorem regs_takeFree (n : Nat) : (s.takeFree n).regs = s.regs := rfl
@[simp] theorem was_takeFree (n : Nat) : (s.takeFree n).was = s.was := rfl
@[simp] theorem latch_takeFree (n : Nat) : (s.takeFree n).latch = s.latch := rfl
@[simp] theorem hold_takeFree (n : Nat) : (s.takeFree n).hold = s.hold := rfl
@[simp] theorem mem_takeFree (n : Nat) : (s.takeFree n).mem = s.mem := rfl
@[simp] theorem ecc_takeFree (n : Nat) : (s.takeFree n).ecc = s.ecc := rfl
@[simp] theorem tick_takeFree (n : Nat) : (s.takeFree n).tick = s.tick := rfl
@[simp] theorem progs_takeFree (n : Nat) : (s.takeFree n).progs = s.progs := rfl
@[simp] theorem serials_takeFree (n : Nat) : (s.takeFree n).serials = s.serials := rfl
@[simp] theorem yards_takeFree (n : Nat) : (s.takeFree n).yards = s.yards := rfl
@[simp] theorem flags_takeFree (n : Nat) : (s.takeFree n).flags = s.flags := rfl
@[simp] theorem fabric_takeFree (n : Nat) : (s.takeFree n).fabric = s.fabric := rfl
@[simp] theorem strm_takeFree (n : Nat) : (s.takeFree n).strm = s.strm := rfl
@[simp] theorem rig_takeFree (n : Nat) : (s.takeFree n).rig = s.rig := rfl
@[simp] theorem events_takeFree (n : Nat) : (s.takeFree n).events = s.events := rfl
@[simp] theorem queue_takeFree (n : Nat) : (s.takeFree n).queue = s.queue := rfl
@[simp] theorem media_takeFree (n : Nat) : (s.takeFree n).media = s.media := rfl
@[simp] theorem gpio_takeFree (n : Nat) : (s.takeFree n).gpio = s.gpio := rfl
@[simp] theorem hyper_takeFree (n : Nat) : (s.takeFree n).hyper = s.hyper := rfl
@[simp] theorem mgmt_takeFree (n : Nat) : (s.takeFree n).mgmt = s.mgmt := rfl
@[simp] theorem sec_takeFree (n : Nat) : (s.takeFree n).sec = s.sec := rfl
@[simp] theorem power_takeFree (n : Nat) : (s.takeFree n).power = s.power := rfl
@[simp] theorem pending_takeFree (n : Nat) : (s.takeFree n).pending = s.pending := rfl

@[simp] theorem part_setProg (p : Nat) (g : Prog) : (s.setProg p g).part = s.part := rfl
@[simp] theorem gcnt_setProg (p : Nat) (g : Prog) : (s.setProg p g).gcnt = s.gcnt := rfl
@[simp] theorem timebase_setProg (p : Nat) (g : Prog) : (s.setProg p g).timebase = s.timebase := rfl
@[simp] theorem regs_setProg (p : Nat) (g : Prog) : (s.setProg p g).regs = s.regs := rfl
@[simp] theorem was_setProg (p : Nat) (g : Prog) : (s.setProg p g).was = s.was := rfl
@[simp] theorem latch_setProg (p : Nat) (g : Prog) : (s.setProg p g).latch = s.latch := rfl
@[simp] theorem hold_setProg (p : Nat) (g : Prog) : (s.setProg p g).hold = s.hold := rfl
@[simp] theorem mem_setProg (p : Nat) (g : Prog) : (s.setProg p g).mem = s.mem := rfl
@[simp] theorem ecc_setProg (p : Nat) (g : Prog) : (s.setProg p g).ecc = s.ecc := rfl
@[simp] theorem tick_setProg (p : Nat) (g : Prog) : (s.setProg p g).tick = s.tick := rfl
@[simp] theorem serials_setProg (p : Nat) (g : Prog) : (s.setProg p g).serials = s.serials := rfl
@[simp] theorem yards_setProg (p : Nat) (g : Prog) : (s.setProg p g).yards = s.yards := rfl
@[simp] theorem flags_setProg (p : Nat) (g : Prog) : (s.setProg p g).flags = s.flags := rfl
@[simp] theorem fabric_setProg (p : Nat) (g : Prog) : (s.setProg p g).fabric = s.fabric := rfl
@[simp] theorem strm_setProg (p : Nat) (g : Prog) : (s.setProg p g).strm = s.strm := rfl
@[simp] theorem rig_setProg (p : Nat) (g : Prog) : (s.setProg p g).rig = s.rig := rfl
@[simp] theorem events_setProg (p : Nat) (g : Prog) : (s.setProg p g).events = s.events := rfl
@[simp] theorem queue_setProg (p : Nat) (g : Prog) : (s.setProg p g).queue = s.queue := rfl
@[simp] theorem media_setProg (p : Nat) (g : Prog) : (s.setProg p g).media = s.media := rfl
@[simp] theorem gpio_setProg (p : Nat) (g : Prog) : (s.setProg p g).gpio = s.gpio := rfl
@[simp] theorem hyper_setProg (p : Nat) (g : Prog) : (s.setProg p g).hyper = s.hyper := rfl
@[simp] theorem mgmt_setProg (p : Nat) (g : Prog) : (s.setProg p g).mgmt = s.mgmt := rfl
@[simp] theorem sec_setProg (p : Nat) (g : Prog) : (s.setProg p g).sec = s.sec := rfl
@[simp] theorem power_setProg (p : Nat) (g : Prog) : (s.setProg p g).power = s.power := rfl
@[simp] theorem free_setProg (p : Nat) (g : Prog) : (s.setProg p g).free = s.free := rfl
@[simp] theorem pending_setProg (p : Nat) (g : Prog) : (s.setProg p g).pending = s.pending := rfl

@[simp] theorem part_setCtx (p : Nat) (c : Ctx) : (s.setCtx p c).part = s.part := rfl
@[simp] theorem gcnt_setCtx (p : Nat) (c : Ctx) : (s.setCtx p c).gcnt = s.gcnt := rfl
@[simp] theorem timebase_setCtx (p : Nat) (c : Ctx) : (s.setCtx p c).timebase = s.timebase := rfl
@[simp] theorem regs_setCtx (p : Nat) (c : Ctx) : (s.setCtx p c).regs = s.regs := rfl
@[simp] theorem was_setCtx (p : Nat) (c : Ctx) : (s.setCtx p c).was = s.was := rfl
@[simp] theorem latch_setCtx (p : Nat) (c : Ctx) : (s.setCtx p c).latch = s.latch := rfl
@[simp] theorem hold_setCtx (p : Nat) (c : Ctx) : (s.setCtx p c).hold = s.hold := rfl
@[simp] theorem mem_setCtx (p : Nat) (c : Ctx) : (s.setCtx p c).mem = s.mem := rfl
@[simp] theorem ecc_setCtx (p : Nat) (c : Ctx) : (s.setCtx p c).ecc = s.ecc := rfl
@[simp] theorem tick_setCtx (p : Nat) (c : Ctx) : (s.setCtx p c).tick = s.tick := rfl
@[simp] theorem serials_setCtx (p : Nat) (c : Ctx) : (s.setCtx p c).serials = s.serials := rfl
@[simp] theorem yards_setCtx (p : Nat) (c : Ctx) : (s.setCtx p c).yards = s.yards := rfl
@[simp] theorem flags_setCtx (p : Nat) (c : Ctx) : (s.setCtx p c).flags = s.flags := rfl
@[simp] theorem fabric_setCtx (p : Nat) (c : Ctx) : (s.setCtx p c).fabric = s.fabric := rfl
@[simp] theorem strm_setCtx (p : Nat) (c : Ctx) : (s.setCtx p c).strm = s.strm := rfl
@[simp] theorem rig_setCtx (p : Nat) (c : Ctx) : (s.setCtx p c).rig = s.rig := rfl
@[simp] theorem events_setCtx (p : Nat) (c : Ctx) : (s.setCtx p c).events = s.events := rfl
@[simp] theorem queue_setCtx (p : Nat) (c : Ctx) : (s.setCtx p c).queue = s.queue := rfl
@[simp] theorem media_setCtx (p : Nat) (c : Ctx) : (s.setCtx p c).media = s.media := rfl
@[simp] theorem gpio_setCtx (p : Nat) (c : Ctx) : (s.setCtx p c).gpio = s.gpio := rfl
@[simp] theorem hyper_setCtx (p : Nat) (c : Ctx) : (s.setCtx p c).hyper = s.hyper := rfl
@[simp] theorem mgmt_setCtx (p : Nat) (c : Ctx) : (s.setCtx p c).mgmt = s.mgmt := rfl
@[simp] theorem sec_setCtx (p : Nat) (c : Ctx) : (s.setCtx p c).sec = s.sec := rfl
@[simp] theorem power_setCtx (p : Nat) (c : Ctx) : (s.setCtx p c).power = s.power := rfl
@[simp] theorem free_setCtx (p : Nat) (c : Ctx) : (s.setCtx p c).free = s.free := rfl
@[simp] theorem pending_setCtx (p : Nat) (c : Ctx) : (s.setCtx p c).pending = s.pending := rfl

@[simp] theorem part_setRegs (p : Nat) (g : ProgRegs) : (s.setRegs p g).part = s.part := rfl
@[simp] theorem gcnt_setRegs (p : Nat) (g : ProgRegs) : (s.setRegs p g).gcnt = s.gcnt := rfl
@[simp] theorem timebase_setRegs (p : Nat) (g : ProgRegs) : (s.setRegs p g).timebase = s.timebase := rfl
@[simp] theorem regs_setRegs (p : Nat) (g : ProgRegs) : (s.setRegs p g).regs = s.regs := rfl
@[simp] theorem was_setRegs (p : Nat) (g : ProgRegs) : (s.setRegs p g).was = s.was := rfl
@[simp] theorem latch_setRegs (p : Nat) (g : ProgRegs) : (s.setRegs p g).latch = s.latch := rfl
@[simp] theorem hold_setRegs (p : Nat) (g : ProgRegs) : (s.setRegs p g).hold = s.hold := rfl
@[simp] theorem mem_setRegs (p : Nat) (g : ProgRegs) : (s.setRegs p g).mem = s.mem := rfl
@[simp] theorem ecc_setRegs (p : Nat) (g : ProgRegs) : (s.setRegs p g).ecc = s.ecc := rfl
@[simp] theorem tick_setRegs (p : Nat) (g : ProgRegs) : (s.setRegs p g).tick = s.tick := rfl
@[simp] theorem serials_setRegs (p : Nat) (g : ProgRegs) : (s.setRegs p g).serials = s.serials := rfl
@[simp] theorem yards_setRegs (p : Nat) (g : ProgRegs) : (s.setRegs p g).yards = s.yards := rfl
@[simp] theorem flags_setRegs (p : Nat) (g : ProgRegs) : (s.setRegs p g).flags = s.flags := rfl
@[simp] theorem fabric_setRegs (p : Nat) (g : ProgRegs) : (s.setRegs p g).fabric = s.fabric := rfl
@[simp] theorem strm_setRegs (p : Nat) (g : ProgRegs) : (s.setRegs p g).strm = s.strm := rfl
@[simp] theorem rig_setRegs (p : Nat) (g : ProgRegs) : (s.setRegs p g).rig = s.rig := rfl
@[simp] theorem events_setRegs (p : Nat) (g : ProgRegs) : (s.setRegs p g).events = s.events := rfl
@[simp] theorem queue_setRegs (p : Nat) (g : ProgRegs) : (s.setRegs p g).queue = s.queue := rfl
@[simp] theorem media_setRegs (p : Nat) (g : ProgRegs) : (s.setRegs p g).media = s.media := rfl
@[simp] theorem gpio_setRegs (p : Nat) (g : ProgRegs) : (s.setRegs p g).gpio = s.gpio := rfl
@[simp] theorem hyper_setRegs (p : Nat) (g : ProgRegs) : (s.setRegs p g).hyper = s.hyper := rfl
@[simp] theorem mgmt_setRegs (p : Nat) (g : ProgRegs) : (s.setRegs p g).mgmt = s.mgmt := rfl
@[simp] theorem sec_setRegs (p : Nat) (g : ProgRegs) : (s.setRegs p g).sec = s.sec := rfl
@[simp] theorem power_setRegs (p : Nat) (g : ProgRegs) : (s.setRegs p g).power = s.power := rfl
@[simp] theorem free_setRegs (p : Nat) (g : ProgRegs) : (s.setRegs p g).free = s.free := rfl
@[simp] theorem pending_setRegs (p : Nat) (g : ProgRegs) : (s.setRegs p g).pending = s.pending := rfl

@[simp] theorem part_advance (p : Nat) : (s.advance p).part = s.part := rfl
@[simp] theorem gcnt_advance (p : Nat) : (s.advance p).gcnt = s.gcnt := rfl
@[simp] theorem timebase_advance (p : Nat) : (s.advance p).timebase = s.timebase := rfl
@[simp] theorem regs_advance (p : Nat) : (s.advance p).regs = s.regs := rfl
@[simp] theorem was_advance (p : Nat) : (s.advance p).was = s.was := rfl
@[simp] theorem latch_advance (p : Nat) : (s.advance p).latch = s.latch := rfl
@[simp] theorem hold_advance (p : Nat) : (s.advance p).hold = s.hold := rfl
@[simp] theorem mem_advance (p : Nat) : (s.advance p).mem = s.mem := rfl
@[simp] theorem ecc_advance (p : Nat) : (s.advance p).ecc = s.ecc := rfl
@[simp] theorem tick_advance (p : Nat) : (s.advance p).tick = s.tick := rfl
@[simp] theorem serials_advance (p : Nat) : (s.advance p).serials = s.serials := rfl
@[simp] theorem yards_advance (p : Nat) : (s.advance p).yards = s.yards := rfl
@[simp] theorem flags_advance (p : Nat) : (s.advance p).flags = s.flags := rfl
@[simp] theorem fabric_advance (p : Nat) : (s.advance p).fabric = s.fabric := rfl
@[simp] theorem strm_advance (p : Nat) : (s.advance p).strm = s.strm := rfl
@[simp] theorem rig_advance (p : Nat) : (s.advance p).rig = s.rig := rfl
@[simp] theorem events_advance (p : Nat) : (s.advance p).events = s.events := rfl
@[simp] theorem queue_advance (p : Nat) : (s.advance p).queue = s.queue := rfl
@[simp] theorem media_advance (p : Nat) : (s.advance p).media = s.media := rfl
@[simp] theorem gpio_advance (p : Nat) : (s.advance p).gpio = s.gpio := rfl
@[simp] theorem hyper_advance (p : Nat) : (s.advance p).hyper = s.hyper := rfl
@[simp] theorem mgmt_advance (p : Nat) : (s.advance p).mgmt = s.mgmt := rfl
@[simp] theorem sec_advance (p : Nat) : (s.advance p).sec = s.sec := rfl
@[simp] theorem power_advance (p : Nat) : (s.advance p).power = s.power := rfl
@[simp] theorem free_advance (p : Nat) : (s.advance p).free = s.free := rfl
@[simp] theorem pending_advance (p : Nat) : (s.advance p).pending = s.pending := rfl

@[simp] theorem part_setYard (m y : Nat) (v : YardSt) : (s.setYard m y v).part = s.part := rfl
@[simp] theorem gcnt_setYard (m y : Nat) (v : YardSt) : (s.setYard m y v).gcnt = s.gcnt := rfl
@[simp] theorem timebase_setYard (m y : Nat) (v : YardSt) : (s.setYard m y v).timebase = s.timebase := rfl
@[simp] theorem regs_setYard (m y : Nat) (v : YardSt) : (s.setYard m y v).regs = s.regs := rfl
@[simp] theorem was_setYard (m y : Nat) (v : YardSt) : (s.setYard m y v).was = s.was := rfl
@[simp] theorem latch_setYard (m y : Nat) (v : YardSt) : (s.setYard m y v).latch = s.latch := rfl
@[simp] theorem hold_setYard (m y : Nat) (v : YardSt) : (s.setYard m y v).hold = s.hold := rfl
@[simp] theorem mem_setYard (m y : Nat) (v : YardSt) : (s.setYard m y v).mem = s.mem := rfl
@[simp] theorem ecc_setYard (m y : Nat) (v : YardSt) : (s.setYard m y v).ecc = s.ecc := rfl
@[simp] theorem tick_setYard (m y : Nat) (v : YardSt) : (s.setYard m y v).tick = s.tick := rfl
@[simp] theorem progs_setYard (m y : Nat) (v : YardSt) : (s.setYard m y v).progs = s.progs := rfl
@[simp] theorem serials_setYard (m y : Nat) (v : YardSt) : (s.setYard m y v).serials = s.serials := rfl
@[simp] theorem flags_setYard (m y : Nat) (v : YardSt) : (s.setYard m y v).flags = s.flags := rfl
@[simp] theorem fabric_setYard (m y : Nat) (v : YardSt) : (s.setYard m y v).fabric = s.fabric := rfl
@[simp] theorem strm_setYard (m y : Nat) (v : YardSt) : (s.setYard m y v).strm = s.strm := rfl
@[simp] theorem rig_setYard (m y : Nat) (v : YardSt) : (s.setYard m y v).rig = s.rig := rfl
@[simp] theorem events_setYard (m y : Nat) (v : YardSt) : (s.setYard m y v).events = s.events := rfl
@[simp] theorem queue_setYard (m y : Nat) (v : YardSt) : (s.setYard m y v).queue = s.queue := rfl
@[simp] theorem media_setYard (m y : Nat) (v : YardSt) : (s.setYard m y v).media = s.media := rfl
@[simp] theorem gpio_setYard (m y : Nat) (v : YardSt) : (s.setYard m y v).gpio = s.gpio := rfl
@[simp] theorem hyper_setYard (m y : Nat) (v : YardSt) : (s.setYard m y v).hyper = s.hyper := rfl
@[simp] theorem mgmt_setYard (m y : Nat) (v : YardSt) : (s.setYard m y v).mgmt = s.mgmt := rfl
@[simp] theorem sec_setYard (m y : Nat) (v : YardSt) : (s.setYard m y v).sec = s.sec := rfl
@[simp] theorem power_setYard (m y : Nat) (v : YardSt) : (s.setYard m y v).power = s.power := rfl
@[simp] theorem free_setYard (m y : Nat) (v : YardSt) : (s.setYard m y v).free = s.free := rfl
@[simp] theorem pending_setYard (m y : Nat) (v : YardSt) : (s.setYard m y v).pending = s.pending := rfl

@[simp] theorem part_poke (a : Nat) (bs : List Byte) : (s.poke a bs).part = s.part := rfl
@[simp] theorem gcnt_poke (a : Nat) (bs : List Byte) : (s.poke a bs).gcnt = s.gcnt := rfl
@[simp] theorem timebase_poke (a : Nat) (bs : List Byte) : (s.poke a bs).timebase = s.timebase := rfl
@[simp] theorem regs_poke (a : Nat) (bs : List Byte) : (s.poke a bs).regs = s.regs := rfl
@[simp] theorem was_poke (a : Nat) (bs : List Byte) : (s.poke a bs).was = s.was := rfl
@[simp] theorem latch_poke (a : Nat) (bs : List Byte) : (s.poke a bs).latch = s.latch := rfl
@[simp] theorem hold_poke (a : Nat) (bs : List Byte) : (s.poke a bs).hold = s.hold := rfl
@[simp] theorem ecc_poke (a : Nat) (bs : List Byte) : (s.poke a bs).ecc = s.ecc := rfl
@[simp] theorem tick_poke (a : Nat) (bs : List Byte) : (s.poke a bs).tick = s.tick := rfl
@[simp] theorem progs_poke (a : Nat) (bs : List Byte) : (s.poke a bs).progs = s.progs := rfl
@[simp] theorem serials_poke (a : Nat) (bs : List Byte) : (s.poke a bs).serials = s.serials := rfl
@[simp] theorem yards_poke (a : Nat) (bs : List Byte) : (s.poke a bs).yards = s.yards := rfl
@[simp] theorem flags_poke (a : Nat) (bs : List Byte) : (s.poke a bs).flags = s.flags := rfl
@[simp] theorem fabric_poke (a : Nat) (bs : List Byte) : (s.poke a bs).fabric = s.fabric := rfl
@[simp] theorem strm_poke (a : Nat) (bs : List Byte) : (s.poke a bs).strm = s.strm := rfl
@[simp] theorem rig_poke (a : Nat) (bs : List Byte) : (s.poke a bs).rig = s.rig := rfl
@[simp] theorem events_poke (a : Nat) (bs : List Byte) : (s.poke a bs).events = s.events := rfl
@[simp] theorem queue_poke (a : Nat) (bs : List Byte) : (s.poke a bs).queue = s.queue := rfl
@[simp] theorem media_poke (a : Nat) (bs : List Byte) : (s.poke a bs).media = s.media := rfl
@[simp] theorem gpio_poke (a : Nat) (bs : List Byte) : (s.poke a bs).gpio = s.gpio := rfl
@[simp] theorem hyper_poke (a : Nat) (bs : List Byte) : (s.poke a bs).hyper = s.hyper := rfl
@[simp] theorem mgmt_poke (a : Nat) (bs : List Byte) : (s.poke a bs).mgmt = s.mgmt := rfl
@[simp] theorem sec_poke (a : Nat) (bs : List Byte) : (s.poke a bs).sec = s.sec := rfl
@[simp] theorem power_poke (a : Nat) (bs : List Byte) : (s.poke a bs).power = s.power := rfl
@[simp] theorem free_poke (a : Nat) (bs : List Byte) : (s.poke a bs).free = s.free := rfl
@[simp] theorem pending_poke (a : Nat) (bs : List Byte) : (s.poke a bs).pending = s.pending := rfl

@[simp] theorem part_zeroFill (a n : Nat) : (s.zeroFill a n).part = s.part := rfl
@[simp] theorem gcnt_zeroFill (a n : Nat) : (s.zeroFill a n).gcnt = s.gcnt := rfl
@[simp] theorem timebase_zeroFill (a n : Nat) : (s.zeroFill a n).timebase = s.timebase := rfl
@[simp] theorem regs_zeroFill (a n : Nat) : (s.zeroFill a n).regs = s.regs := rfl
@[simp] theorem was_zeroFill (a n : Nat) : (s.zeroFill a n).was = s.was := rfl
@[simp] theorem latch_zeroFill (a n : Nat) : (s.zeroFill a n).latch = s.latch := rfl
@[simp] theorem hold_zeroFill (a n : Nat) : (s.zeroFill a n).hold = s.hold := rfl
@[simp] theorem tick_zeroFill (a n : Nat) : (s.zeroFill a n).tick = s.tick := rfl
@[simp] theorem progs_zeroFill (a n : Nat) : (s.zeroFill a n).progs = s.progs := rfl
@[simp] theorem serials_zeroFill (a n : Nat) : (s.zeroFill a n).serials = s.serials := rfl
@[simp] theorem yards_zeroFill (a n : Nat) : (s.zeroFill a n).yards = s.yards := rfl
@[simp] theorem flags_zeroFill (a n : Nat) : (s.zeroFill a n).flags = s.flags := rfl
@[simp] theorem fabric_zeroFill (a n : Nat) : (s.zeroFill a n).fabric = s.fabric := rfl
@[simp] theorem strm_zeroFill (a n : Nat) : (s.zeroFill a n).strm = s.strm := rfl
@[simp] theorem rig_zeroFill (a n : Nat) : (s.zeroFill a n).rig = s.rig := rfl
@[simp] theorem events_zeroFill (a n : Nat) : (s.zeroFill a n).events = s.events := rfl
@[simp] theorem queue_zeroFill (a n : Nat) : (s.zeroFill a n).queue = s.queue := rfl
@[simp] theorem media_zeroFill (a n : Nat) : (s.zeroFill a n).media = s.media := rfl
@[simp] theorem gpio_zeroFill (a n : Nat) : (s.zeroFill a n).gpio = s.gpio := rfl
@[simp] theorem hyper_zeroFill (a n : Nat) : (s.zeroFill a n).hyper = s.hyper := rfl
@[simp] theorem mgmt_zeroFill (a n : Nat) : (s.zeroFill a n).mgmt = s.mgmt := rfl
@[simp] theorem sec_zeroFill (a n : Nat) : (s.zeroFill a n).sec = s.sec := rfl
@[simp] theorem power_zeroFill (a n : Nat) : (s.zeroFill a n).power = s.power := rfl
@[simp] theorem free_zeroFill (a n : Nat) : (s.zeroFill a n).free = s.free := rfl
@[simp] theorem pending_zeroFill (a n : Nat) : (s.zeroFill a n).pending = s.pending := rfl

@[simp] theorem part_setHeld (rq : Requester) (off : Nat) (v : Option (BitVec 32)) : (s.setHeld rq off v).part = s.part := rfl
@[simp] theorem gcnt_setHeld (rq : Requester) (off : Nat) (v : Option (BitVec 32)) : (s.setHeld rq off v).gcnt = s.gcnt := rfl
@[simp] theorem timebase_setHeld (rq : Requester) (off : Nat) (v : Option (BitVec 32)) : (s.setHeld rq off v).timebase = s.timebase := rfl
@[simp] theorem regs_setHeld (rq : Requester) (off : Nat) (v : Option (BitVec 32)) : (s.setHeld rq off v).regs = s.regs := rfl
@[simp] theorem was_setHeld (rq : Requester) (off : Nat) (v : Option (BitVec 32)) : (s.setHeld rq off v).was = s.was := rfl
@[simp] theorem latch_setHeld (rq : Requester) (off : Nat) (v : Option (BitVec 32)) : (s.setHeld rq off v).latch = s.latch := rfl
@[simp] theorem mem_setHeld (rq : Requester) (off : Nat) (v : Option (BitVec 32)) : (s.setHeld rq off v).mem = s.mem := rfl
@[simp] theorem ecc_setHeld (rq : Requester) (off : Nat) (v : Option (BitVec 32)) : (s.setHeld rq off v).ecc = s.ecc := rfl
@[simp] theorem tick_setHeld (rq : Requester) (off : Nat) (v : Option (BitVec 32)) : (s.setHeld rq off v).tick = s.tick := rfl
@[simp] theorem progs_setHeld (rq : Requester) (off : Nat) (v : Option (BitVec 32)) : (s.setHeld rq off v).progs = s.progs := rfl
@[simp] theorem serials_setHeld (rq : Requester) (off : Nat) (v : Option (BitVec 32)) : (s.setHeld rq off v).serials = s.serials := rfl
@[simp] theorem yards_setHeld (rq : Requester) (off : Nat) (v : Option (BitVec 32)) : (s.setHeld rq off v).yards = s.yards := rfl
@[simp] theorem flags_setHeld (rq : Requester) (off : Nat) (v : Option (BitVec 32)) : (s.setHeld rq off v).flags = s.flags := rfl
@[simp] theorem fabric_setHeld (rq : Requester) (off : Nat) (v : Option (BitVec 32)) : (s.setHeld rq off v).fabric = s.fabric := rfl
@[simp] theorem strm_setHeld (rq : Requester) (off : Nat) (v : Option (BitVec 32)) : (s.setHeld rq off v).strm = s.strm := rfl
@[simp] theorem rig_setHeld (rq : Requester) (off : Nat) (v : Option (BitVec 32)) : (s.setHeld rq off v).rig = s.rig := rfl
@[simp] theorem events_setHeld (rq : Requester) (off : Nat) (v : Option (BitVec 32)) : (s.setHeld rq off v).events = s.events := rfl
@[simp] theorem queue_setHeld (rq : Requester) (off : Nat) (v : Option (BitVec 32)) : (s.setHeld rq off v).queue = s.queue := rfl
@[simp] theorem media_setHeld (rq : Requester) (off : Nat) (v : Option (BitVec 32)) : (s.setHeld rq off v).media = s.media := rfl
@[simp] theorem gpio_setHeld (rq : Requester) (off : Nat) (v : Option (BitVec 32)) : (s.setHeld rq off v).gpio = s.gpio := rfl
@[simp] theorem hyper_setHeld (rq : Requester) (off : Nat) (v : Option (BitVec 32)) : (s.setHeld rq off v).hyper = s.hyper := rfl
@[simp] theorem mgmt_setHeld (rq : Requester) (off : Nat) (v : Option (BitVec 32)) : (s.setHeld rq off v).mgmt = s.mgmt := rfl
@[simp] theorem sec_setHeld (rq : Requester) (off : Nat) (v : Option (BitVec 32)) : (s.setHeld rq off v).sec = s.sec := rfl
@[simp] theorem power_setHeld (rq : Requester) (off : Nat) (v : Option (BitVec 32)) : (s.setHeld rq off v).power = s.power := rfl
@[simp] theorem free_setHeld (rq : Requester) (off : Nat) (v : Option (BitVec 32)) : (s.setHeld rq off v).free = s.free := rfl
@[simp] theorem pending_setHeld (rq : Requester) (off : Nat) (v : Option (BitVec 32)) : (s.setHeld rq off v).pending = s.pending := rfl

@[simp] theorem part_setLatched (rq : Requester) (off : Nat) (v : BitVec 32) : (s.setLatched rq off v).part = s.part := rfl
@[simp] theorem gcnt_setLatched (rq : Requester) (off : Nat) (v : BitVec 32) : (s.setLatched rq off v).gcnt = s.gcnt := rfl
@[simp] theorem timebase_setLatched (rq : Requester) (off : Nat) (v : BitVec 32) : (s.setLatched rq off v).timebase = s.timebase := rfl
@[simp] theorem regs_setLatched (rq : Requester) (off : Nat) (v : BitVec 32) : (s.setLatched rq off v).regs = s.regs := rfl
@[simp] theorem was_setLatched (rq : Requester) (off : Nat) (v : BitVec 32) : (s.setLatched rq off v).was = s.was := rfl
@[simp] theorem hold_setLatched (rq : Requester) (off : Nat) (v : BitVec 32) : (s.setLatched rq off v).hold = s.hold := rfl
@[simp] theorem mem_setLatched (rq : Requester) (off : Nat) (v : BitVec 32) : (s.setLatched rq off v).mem = s.mem := rfl
@[simp] theorem ecc_setLatched (rq : Requester) (off : Nat) (v : BitVec 32) : (s.setLatched rq off v).ecc = s.ecc := rfl
@[simp] theorem tick_setLatched (rq : Requester) (off : Nat) (v : BitVec 32) : (s.setLatched rq off v).tick = s.tick := rfl
@[simp] theorem progs_setLatched (rq : Requester) (off : Nat) (v : BitVec 32) : (s.setLatched rq off v).progs = s.progs := rfl
@[simp] theorem serials_setLatched (rq : Requester) (off : Nat) (v : BitVec 32) : (s.setLatched rq off v).serials = s.serials := rfl
@[simp] theorem yards_setLatched (rq : Requester) (off : Nat) (v : BitVec 32) : (s.setLatched rq off v).yards = s.yards := rfl
@[simp] theorem flags_setLatched (rq : Requester) (off : Nat) (v : BitVec 32) : (s.setLatched rq off v).flags = s.flags := rfl
@[simp] theorem fabric_setLatched (rq : Requester) (off : Nat) (v : BitVec 32) : (s.setLatched rq off v).fabric = s.fabric := rfl
@[simp] theorem strm_setLatched (rq : Requester) (off : Nat) (v : BitVec 32) : (s.setLatched rq off v).strm = s.strm := rfl
@[simp] theorem rig_setLatched (rq : Requester) (off : Nat) (v : BitVec 32) : (s.setLatched rq off v).rig = s.rig := rfl
@[simp] theorem events_setLatched (rq : Requester) (off : Nat) (v : BitVec 32) : (s.setLatched rq off v).events = s.events := rfl
@[simp] theorem queue_setLatched (rq : Requester) (off : Nat) (v : BitVec 32) : (s.setLatched rq off v).queue = s.queue := rfl
@[simp] theorem media_setLatched (rq : Requester) (off : Nat) (v : BitVec 32) : (s.setLatched rq off v).media = s.media := rfl
@[simp] theorem gpio_setLatched (rq : Requester) (off : Nat) (v : BitVec 32) : (s.setLatched rq off v).gpio = s.gpio := rfl
@[simp] theorem hyper_setLatched (rq : Requester) (off : Nat) (v : BitVec 32) : (s.setLatched rq off v).hyper = s.hyper := rfl
@[simp] theorem mgmt_setLatched (rq : Requester) (off : Nat) (v : BitVec 32) : (s.setLatched rq off v).mgmt = s.mgmt := rfl
@[simp] theorem sec_setLatched (rq : Requester) (off : Nat) (v : BitVec 32) : (s.setLatched rq off v).sec = s.sec := rfl
@[simp] theorem power_setLatched (rq : Requester) (off : Nat) (v : BitVec 32) : (s.setLatched rq off v).power = s.power := rfl
@[simp] theorem free_setLatched (rq : Requester) (off : Nat) (v : BitVec 32) : (s.setLatched rq off v).free = s.free := rfl
@[simp] theorem pending_setLatched (rq : Requester) (off : Nat) (v : BitVec 32) : (s.setLatched rq off v).pending = s.pending := rfl

@[simp] theorem part_hostTouch : (s.hostTouch).part = s.part := rfl
@[simp] theorem gcnt_hostTouch : (s.hostTouch).gcnt = s.gcnt := rfl
@[simp] theorem timebase_hostTouch : (s.hostTouch).timebase = s.timebase := rfl
@[simp] theorem was_hostTouch : (s.hostTouch).was = s.was := rfl
@[simp] theorem latch_hostTouch : (s.hostTouch).latch = s.latch := rfl
@[simp] theorem hold_hostTouch : (s.hostTouch).hold = s.hold := rfl
@[simp] theorem mem_hostTouch : (s.hostTouch).mem = s.mem := rfl
@[simp] theorem ecc_hostTouch : (s.hostTouch).ecc = s.ecc := rfl
@[simp] theorem tick_hostTouch : (s.hostTouch).tick = s.tick := rfl
@[simp] theorem progs_hostTouch : (s.hostTouch).progs = s.progs := rfl
@[simp] theorem serials_hostTouch : (s.hostTouch).serials = s.serials := rfl
@[simp] theorem yards_hostTouch : (s.hostTouch).yards = s.yards := rfl
@[simp] theorem flags_hostTouch : (s.hostTouch).flags = s.flags := rfl
@[simp] theorem fabric_hostTouch : (s.hostTouch).fabric = s.fabric := rfl
@[simp] theorem strm_hostTouch : (s.hostTouch).strm = s.strm := rfl
@[simp] theorem rig_hostTouch : (s.hostTouch).rig = s.rig := rfl
@[simp] theorem events_hostTouch : (s.hostTouch).events = s.events := rfl
@[simp] theorem queue_hostTouch : (s.hostTouch).queue = s.queue := rfl
@[simp] theorem media_hostTouch : (s.hostTouch).media = s.media := rfl
@[simp] theorem gpio_hostTouch : (s.hostTouch).gpio = s.gpio := rfl
@[simp] theorem hyper_hostTouch : (s.hostTouch).hyper = s.hyper := rfl
@[simp] theorem mgmt_hostTouch : (s.hostTouch).mgmt = s.mgmt := rfl
@[simp] theorem sec_hostTouch : (s.hostTouch).sec = s.sec := rfl
@[simp] theorem power_hostTouch : (s.hostTouch).power = s.power := rfl
@[simp] theorem free_hostTouch : (s.hostTouch).free = s.free := rfl
@[simp] theorem pending_hostTouch : (s.hostTouch).pending = s.pending := rfl

@[simp] theorem part_setSail (m y n : Nat) (v : SailSt) : (s.setSail m y n v).part = s.part := rfl
@[simp] theorem gcnt_setSail (m y n : Nat) (v : SailSt) : (s.setSail m y n v).gcnt = s.gcnt := rfl
@[simp] theorem timebase_setSail (m y n : Nat) (v : SailSt) : (s.setSail m y n v).timebase = s.timebase := rfl
@[simp] theorem regs_setSail (m y n : Nat) (v : SailSt) : (s.setSail m y n v).regs = s.regs := rfl
@[simp] theorem was_setSail (m y n : Nat) (v : SailSt) : (s.setSail m y n v).was = s.was := rfl
@[simp] theorem latch_setSail (m y n : Nat) (v : SailSt) : (s.setSail m y n v).latch = s.latch := rfl
@[simp] theorem hold_setSail (m y n : Nat) (v : SailSt) : (s.setSail m y n v).hold = s.hold := rfl
@[simp] theorem mem_setSail (m y n : Nat) (v : SailSt) : (s.setSail m y n v).mem = s.mem := rfl
@[simp] theorem ecc_setSail (m y n : Nat) (v : SailSt) : (s.setSail m y n v).ecc = s.ecc := rfl
@[simp] theorem tick_setSail (m y n : Nat) (v : SailSt) : (s.setSail m y n v).tick = s.tick := rfl
@[simp] theorem progs_setSail (m y n : Nat) (v : SailSt) : (s.setSail m y n v).progs = s.progs := rfl
@[simp] theorem serials_setSail (m y n : Nat) (v : SailSt) : (s.setSail m y n v).serials = s.serials := rfl
@[simp] theorem flags_setSail (m y n : Nat) (v : SailSt) : (s.setSail m y n v).flags = s.flags := rfl
@[simp] theorem fabric_setSail (m y n : Nat) (v : SailSt) : (s.setSail m y n v).fabric = s.fabric := rfl
@[simp] theorem strm_setSail (m y n : Nat) (v : SailSt) : (s.setSail m y n v).strm = s.strm := rfl
@[simp] theorem rig_setSail (m y n : Nat) (v : SailSt) : (s.setSail m y n v).rig = s.rig := rfl
@[simp] theorem events_setSail (m y n : Nat) (v : SailSt) : (s.setSail m y n v).events = s.events := rfl
@[simp] theorem queue_setSail (m y n : Nat) (v : SailSt) : (s.setSail m y n v).queue = s.queue := rfl
@[simp] theorem media_setSail (m y n : Nat) (v : SailSt) : (s.setSail m y n v).media = s.media := rfl
@[simp] theorem gpio_setSail (m y n : Nat) (v : SailSt) : (s.setSail m y n v).gpio = s.gpio := rfl
@[simp] theorem hyper_setSail (m y n : Nat) (v : SailSt) : (s.setSail m y n v).hyper = s.hyper := rfl
@[simp] theorem mgmt_setSail (m y n : Nat) (v : SailSt) : (s.setSail m y n v).mgmt = s.mgmt := rfl
@[simp] theorem sec_setSail (m y n : Nat) (v : SailSt) : (s.setSail m y n v).sec = s.sec := rfl
@[simp] theorem power_setSail (m y n : Nat) (v : SailSt) : (s.setSail m y n v).power = s.power := rfl
@[simp] theorem free_setSail (m y n : Nat) (v : SailSt) : (s.setSail m y n v).free = s.free := rfl
@[simp] theorem pending_setSail (m y n : Nat) (v : SailSt) : (s.setSail m y n v).pending = s.pending := rfl

@[simp] theorem part_setBoom (m y n : Nat) (v : BoomSt) : (s.setBoom m y n v).part = s.part := rfl
@[simp] theorem gcnt_setBoom (m y n : Nat) (v : BoomSt) : (s.setBoom m y n v).gcnt = s.gcnt := rfl
@[simp] theorem timebase_setBoom (m y n : Nat) (v : BoomSt) : (s.setBoom m y n v).timebase = s.timebase := rfl
@[simp] theorem regs_setBoom (m y n : Nat) (v : BoomSt) : (s.setBoom m y n v).regs = s.regs := rfl
@[simp] theorem was_setBoom (m y n : Nat) (v : BoomSt) : (s.setBoom m y n v).was = s.was := rfl
@[simp] theorem latch_setBoom (m y n : Nat) (v : BoomSt) : (s.setBoom m y n v).latch = s.latch := rfl
@[simp] theorem hold_setBoom (m y n : Nat) (v : BoomSt) : (s.setBoom m y n v).hold = s.hold := rfl
@[simp] theorem mem_setBoom (m y n : Nat) (v : BoomSt) : (s.setBoom m y n v).mem = s.mem := rfl
@[simp] theorem ecc_setBoom (m y n : Nat) (v : BoomSt) : (s.setBoom m y n v).ecc = s.ecc := rfl
@[simp] theorem tick_setBoom (m y n : Nat) (v : BoomSt) : (s.setBoom m y n v).tick = s.tick := rfl
@[simp] theorem progs_setBoom (m y n : Nat) (v : BoomSt) : (s.setBoom m y n v).progs = s.progs := rfl
@[simp] theorem serials_setBoom (m y n : Nat) (v : BoomSt) : (s.setBoom m y n v).serials = s.serials := rfl
@[simp] theorem flags_setBoom (m y n : Nat) (v : BoomSt) : (s.setBoom m y n v).flags = s.flags := rfl
@[simp] theorem fabric_setBoom (m y n : Nat) (v : BoomSt) : (s.setBoom m y n v).fabric = s.fabric := rfl
@[simp] theorem strm_setBoom (m y n : Nat) (v : BoomSt) : (s.setBoom m y n v).strm = s.strm := rfl
@[simp] theorem rig_setBoom (m y n : Nat) (v : BoomSt) : (s.setBoom m y n v).rig = s.rig := rfl
@[simp] theorem events_setBoom (m y n : Nat) (v : BoomSt) : (s.setBoom m y n v).events = s.events := rfl
@[simp] theorem queue_setBoom (m y n : Nat) (v : BoomSt) : (s.setBoom m y n v).queue = s.queue := rfl
@[simp] theorem media_setBoom (m y n : Nat) (v : BoomSt) : (s.setBoom m y n v).media = s.media := rfl
@[simp] theorem gpio_setBoom (m y n : Nat) (v : BoomSt) : (s.setBoom m y n v).gpio = s.gpio := rfl
@[simp] theorem hyper_setBoom (m y n : Nat) (v : BoomSt) : (s.setBoom m y n v).hyper = s.hyper := rfl
@[simp] theorem mgmt_setBoom (m y n : Nat) (v : BoomSt) : (s.setBoom m y n v).mgmt = s.mgmt := rfl
@[simp] theorem sec_setBoom (m y n : Nat) (v : BoomSt) : (s.setBoom m y n v).sec = s.sec := rfl
@[simp] theorem power_setBoom (m y n : Nat) (v : BoomSt) : (s.setBoom m y n v).power = s.power := rfl
@[simp] theorem free_setBoom (m y n : Nat) (v : BoomSt) : (s.setBoom m y n v).free = s.free := rfl
@[simp] theorem pending_setBoom (m y n : Nat) (v : BoomSt) : (s.setBoom m y n v).pending = s.pending := rfl

@[simp] theorem part_setQueue (m y : Nat) (q : UnitQ) (l : List EngCmd) : (s.setQueue m y q l).part = s.part := rfl
@[simp] theorem gcnt_setQueue (m y : Nat) (q : UnitQ) (l : List EngCmd) : (s.setQueue m y q l).gcnt = s.gcnt := rfl
@[simp] theorem timebase_setQueue (m y : Nat) (q : UnitQ) (l : List EngCmd) : (s.setQueue m y q l).timebase = s.timebase := rfl
@[simp] theorem regs_setQueue (m y : Nat) (q : UnitQ) (l : List EngCmd) : (s.setQueue m y q l).regs = s.regs := rfl
@[simp] theorem was_setQueue (m y : Nat) (q : UnitQ) (l : List EngCmd) : (s.setQueue m y q l).was = s.was := rfl
@[simp] theorem latch_setQueue (m y : Nat) (q : UnitQ) (l : List EngCmd) : (s.setQueue m y q l).latch = s.latch := rfl
@[simp] theorem hold_setQueue (m y : Nat) (q : UnitQ) (l : List EngCmd) : (s.setQueue m y q l).hold = s.hold := rfl
@[simp] theorem mem_setQueue (m y : Nat) (q : UnitQ) (l : List EngCmd) : (s.setQueue m y q l).mem = s.mem := rfl
@[simp] theorem ecc_setQueue (m y : Nat) (q : UnitQ) (l : List EngCmd) : (s.setQueue m y q l).ecc = s.ecc := rfl
@[simp] theorem tick_setQueue (m y : Nat) (q : UnitQ) (l : List EngCmd) : (s.setQueue m y q l).tick = s.tick := rfl
@[simp] theorem progs_setQueue (m y : Nat) (q : UnitQ) (l : List EngCmd) : (s.setQueue m y q l).progs = s.progs := rfl
@[simp] theorem serials_setQueue (m y : Nat) (q : UnitQ) (l : List EngCmd) : (s.setQueue m y q l).serials = s.serials := rfl
@[simp] theorem flags_setQueue (m y : Nat) (q : UnitQ) (l : List EngCmd) : (s.setQueue m y q l).flags = s.flags := rfl
@[simp] theorem fabric_setQueue (m y : Nat) (q : UnitQ) (l : List EngCmd) : (s.setQueue m y q l).fabric = s.fabric := rfl
@[simp] theorem strm_setQueue (m y : Nat) (q : UnitQ) (l : List EngCmd) : (s.setQueue m y q l).strm = s.strm := rfl
@[simp] theorem rig_setQueue (m y : Nat) (q : UnitQ) (l : List EngCmd) : (s.setQueue m y q l).rig = s.rig := rfl
@[simp] theorem events_setQueue (m y : Nat) (q : UnitQ) (l : List EngCmd) : (s.setQueue m y q l).events = s.events := rfl
@[simp] theorem queue_setQueue (m y : Nat) (q : UnitQ) (l : List EngCmd) : (s.setQueue m y q l).queue = s.queue := rfl
@[simp] theorem media_setQueue (m y : Nat) (q : UnitQ) (l : List EngCmd) : (s.setQueue m y q l).media = s.media := rfl
@[simp] theorem gpio_setQueue (m y : Nat) (q : UnitQ) (l : List EngCmd) : (s.setQueue m y q l).gpio = s.gpio := rfl
@[simp] theorem hyper_setQueue (m y : Nat) (q : UnitQ) (l : List EngCmd) : (s.setQueue m y q l).hyper = s.hyper := rfl
@[simp] theorem mgmt_setQueue (m y : Nat) (q : UnitQ) (l : List EngCmd) : (s.setQueue m y q l).mgmt = s.mgmt := rfl
@[simp] theorem sec_setQueue (m y : Nat) (q : UnitQ) (l : List EngCmd) : (s.setQueue m y q l).sec = s.sec := rfl
@[simp] theorem power_setQueue (m y : Nat) (q : UnitQ) (l : List EngCmd) : (s.setQueue m y q l).power = s.power := rfl
@[simp] theorem free_setQueue (m y : Nat) (q : UnitQ) (l : List EngCmd) : (s.setQueue m y q l).free = s.free := rfl
@[simp] theorem pending_setQueue (m y : Nat) (q : UnitQ) (l : List EngCmd) : (s.setQueue m y q l).pending = s.pending := rfl

@[simp] theorem part_usedCycle (p : Nat) : (s.usedCycle p).part = s.part := rfl
@[simp] theorem gcnt_usedCycle (p : Nat) : (s.usedCycle p).gcnt = s.gcnt := rfl
@[simp] theorem timebase_usedCycle (p : Nat) : (s.usedCycle p).timebase = s.timebase := rfl
@[simp] theorem regs_usedCycle (p : Nat) : (s.usedCycle p).regs = s.regs := rfl
@[simp] theorem was_usedCycle (p : Nat) : (s.usedCycle p).was = s.was := rfl
@[simp] theorem latch_usedCycle (p : Nat) : (s.usedCycle p).latch = s.latch := rfl
@[simp] theorem hold_usedCycle (p : Nat) : (s.usedCycle p).hold = s.hold := rfl
@[simp] theorem mem_usedCycle (p : Nat) : (s.usedCycle p).mem = s.mem := rfl
@[simp] theorem ecc_usedCycle (p : Nat) : (s.usedCycle p).ecc = s.ecc := rfl
@[simp] theorem tick_usedCycle (p : Nat) : (s.usedCycle p).tick = s.tick := rfl
@[simp] theorem serials_usedCycle (p : Nat) : (s.usedCycle p).serials = s.serials := rfl
@[simp] theorem yards_usedCycle (p : Nat) : (s.usedCycle p).yards = s.yards := rfl
@[simp] theorem flags_usedCycle (p : Nat) : (s.usedCycle p).flags = s.flags := rfl
@[simp] theorem fabric_usedCycle (p : Nat) : (s.usedCycle p).fabric = s.fabric := rfl
@[simp] theorem strm_usedCycle (p : Nat) : (s.usedCycle p).strm = s.strm := rfl
@[simp] theorem rig_usedCycle (p : Nat) : (s.usedCycle p).rig = s.rig := rfl
@[simp] theorem events_usedCycle (p : Nat) : (s.usedCycle p).events = s.events := rfl
@[simp] theorem queue_usedCycle (p : Nat) : (s.usedCycle p).queue = s.queue := rfl
@[simp] theorem media_usedCycle (p : Nat) : (s.usedCycle p).media = s.media := rfl
@[simp] theorem gpio_usedCycle (p : Nat) : (s.usedCycle p).gpio = s.gpio := rfl
@[simp] theorem hyper_usedCycle (p : Nat) : (s.usedCycle p).hyper = s.hyper := rfl
@[simp] theorem mgmt_usedCycle (p : Nat) : (s.usedCycle p).mgmt = s.mgmt := rfl
@[simp] theorem sec_usedCycle (p : Nat) : (s.usedCycle p).sec = s.sec := rfl
@[simp] theorem power_usedCycle (p : Nat) : (s.usedCycle p).power = s.power := rfl
@[simp] theorem free_usedCycle (p : Nat) : (s.usedCycle p).free = s.free := rfl
@[simp] theorem pending_usedCycle (p : Nat) : (s.usedCycle p).pending = s.pending := rfl

@[simp] theorem part_unblock (p : Nat) : (s.unblock p).part = s.part := rfl
@[simp] theorem gcnt_unblock (p : Nat) : (s.unblock p).gcnt = s.gcnt := rfl
@[simp] theorem timebase_unblock (p : Nat) : (s.unblock p).timebase = s.timebase := rfl
@[simp] theorem regs_unblock (p : Nat) : (s.unblock p).regs = s.regs := rfl
@[simp] theorem was_unblock (p : Nat) : (s.unblock p).was = s.was := rfl
@[simp] theorem latch_unblock (p : Nat) : (s.unblock p).latch = s.latch := rfl
@[simp] theorem hold_unblock (p : Nat) : (s.unblock p).hold = s.hold := rfl
@[simp] theorem mem_unblock (p : Nat) : (s.unblock p).mem = s.mem := rfl
@[simp] theorem ecc_unblock (p : Nat) : (s.unblock p).ecc = s.ecc := rfl
@[simp] theorem tick_unblock (p : Nat) : (s.unblock p).tick = s.tick := rfl
@[simp] theorem serials_unblock (p : Nat) : (s.unblock p).serials = s.serials := rfl
@[simp] theorem yards_unblock (p : Nat) : (s.unblock p).yards = s.yards := rfl
@[simp] theorem flags_unblock (p : Nat) : (s.unblock p).flags = s.flags := rfl
@[simp] theorem fabric_unblock (p : Nat) : (s.unblock p).fabric = s.fabric := rfl
@[simp] theorem strm_unblock (p : Nat) : (s.unblock p).strm = s.strm := rfl
@[simp] theorem rig_unblock (p : Nat) : (s.unblock p).rig = s.rig := rfl
@[simp] theorem events_unblock (p : Nat) : (s.unblock p).events = s.events := rfl
@[simp] theorem queue_unblock (p : Nat) : (s.unblock p).queue = s.queue := rfl
@[simp] theorem media_unblock (p : Nat) : (s.unblock p).media = s.media := rfl
@[simp] theorem gpio_unblock (p : Nat) : (s.unblock p).gpio = s.gpio := rfl
@[simp] theorem hyper_unblock (p : Nat) : (s.unblock p).hyper = s.hyper := rfl
@[simp] theorem mgmt_unblock (p : Nat) : (s.unblock p).mgmt = s.mgmt := rfl
@[simp] theorem sec_unblock (p : Nat) : (s.unblock p).sec = s.sec := rfl
@[simp] theorem power_unblock (p : Nat) : (s.unblock p).power = s.power := rfl
@[simp] theorem free_unblock (p : Nat) : (s.unblock p).free = s.free := rfl
@[simp] theorem pending_unblock (p : Nat) : (s.unblock p).pending = s.pending := rfl

@[simp] theorem part_placeLost (k : Nat) : (s.placeLost k).part = s.part := by unfold placeLost; dsimp only; split <;> rfl
@[simp] theorem part_enterFifo (k : Nat) (e : Event) : (s.enterFifo k e).part = s.part := by unfold enterFifo; dsimp only; split <;> rfl
@[simp] theorem part_raise (c d u h a b : Nat) : (s.raise c d u h a b).part = s.part := by unfold raise; simp
@[simp] theorem gcnt_placeLost (k : Nat) : (s.placeLost k).gcnt = s.gcnt := by unfold placeLost; dsimp only; split <;> rfl
@[simp] theorem gcnt_enterFifo (k : Nat) (e : Event) : (s.enterFifo k e).gcnt = s.gcnt := by unfold enterFifo; dsimp only; split <;> rfl
@[simp] theorem gcnt_raise (c d u h a b : Nat) : (s.raise c d u h a b).gcnt = s.gcnt := by unfold raise; simp
@[simp] theorem timebase_placeLost (k : Nat) : (s.placeLost k).timebase = s.timebase := by unfold placeLost; dsimp only; split <;> rfl
@[simp] theorem timebase_enterFifo (k : Nat) (e : Event) : (s.enterFifo k e).timebase = s.timebase := by unfold enterFifo; dsimp only; split <;> rfl
@[simp] theorem timebase_raise (c d u h a b : Nat) : (s.raise c d u h a b).timebase = s.timebase := by unfold raise; simp
@[simp] theorem was_placeLost (k : Nat) : (s.placeLost k).was = s.was := by unfold placeLost; dsimp only; split <;> rfl
@[simp] theorem was_enterFifo (k : Nat) (e : Event) : (s.enterFifo k e).was = s.was := by unfold enterFifo; dsimp only; split <;> rfl
@[simp] theorem was_raise (c d u h a b : Nat) : (s.raise c d u h a b).was = s.was := by unfold raise; simp
@[simp] theorem latch_placeLost (k : Nat) : (s.placeLost k).latch = s.latch := by unfold placeLost; dsimp only; split <;> rfl
@[simp] theorem latch_enterFifo (k : Nat) (e : Event) : (s.enterFifo k e).latch = s.latch := by unfold enterFifo; dsimp only; split <;> rfl
@[simp] theorem latch_raise (c d u h a b : Nat) : (s.raise c d u h a b).latch = s.latch := by unfold raise; simp
@[simp] theorem hold_placeLost (k : Nat) : (s.placeLost k).hold = s.hold := by unfold placeLost; dsimp only; split <;> rfl
@[simp] theorem hold_enterFifo (k : Nat) (e : Event) : (s.enterFifo k e).hold = s.hold := by unfold enterFifo; dsimp only; split <;> rfl
@[simp] theorem hold_raise (c d u h a b : Nat) : (s.raise c d u h a b).hold = s.hold := by unfold raise; simp
@[simp] theorem mem_placeLost (k : Nat) : (s.placeLost k).mem = s.mem := by unfold placeLost; dsimp only; split <;> rfl
@[simp] theorem mem_enterFifo (k : Nat) (e : Event) : (s.enterFifo k e).mem = s.mem := by unfold enterFifo; dsimp only; split <;> rfl
@[simp] theorem mem_raise (c d u h a b : Nat) : (s.raise c d u h a b).mem = s.mem := by unfold raise; simp
@[simp] theorem ecc_placeLost (k : Nat) : (s.placeLost k).ecc = s.ecc := by unfold placeLost; dsimp only; split <;> rfl
@[simp] theorem ecc_enterFifo (k : Nat) (e : Event) : (s.enterFifo k e).ecc = s.ecc := by unfold enterFifo; dsimp only; split <;> rfl
@[simp] theorem ecc_raise (c d u h a b : Nat) : (s.raise c d u h a b).ecc = s.ecc := by unfold raise; simp
@[simp] theorem tick_placeLost (k : Nat) : (s.placeLost k).tick = s.tick := by unfold placeLost; dsimp only; split <;> rfl
@[simp] theorem tick_enterFifo (k : Nat) (e : Event) : (s.enterFifo k e).tick = s.tick := by unfold enterFifo; dsimp only; split <;> rfl
@[simp] theorem tick_raise (c d u h a b : Nat) : (s.raise c d u h a b).tick = s.tick := by unfold raise; simp
@[simp] theorem progs_placeLost (k : Nat) : (s.placeLost k).progs = s.progs := by unfold placeLost; dsimp only; split <;> rfl
@[simp] theorem progs_enterFifo (k : Nat) (e : Event) : (s.enterFifo k e).progs = s.progs := by unfold enterFifo; dsimp only; split <;> rfl
@[simp] theorem progs_raise (c d u h a b : Nat) : (s.raise c d u h a b).progs = s.progs := by unfold raise; simp
@[simp] theorem serials_placeLost (k : Nat) : (s.placeLost k).serials = s.serials := by unfold placeLost; dsimp only; split <;> rfl
@[simp] theorem serials_enterFifo (k : Nat) (e : Event) : (s.enterFifo k e).serials = s.serials := by unfold enterFifo; dsimp only; split <;> rfl
@[simp] theorem serials_raise (c d u h a b : Nat) : (s.raise c d u h a b).serials = s.serials := by unfold raise; simp
@[simp] theorem yards_placeLost (k : Nat) : (s.placeLost k).yards = s.yards := by unfold placeLost; dsimp only; split <;> rfl
@[simp] theorem yards_enterFifo (k : Nat) (e : Event) : (s.enterFifo k e).yards = s.yards := by unfold enterFifo; dsimp only; split <;> rfl
@[simp] theorem yards_raise (c d u h a b : Nat) : (s.raise c d u h a b).yards = s.yards := by unfold raise; simp
@[simp] theorem flags_placeLost (k : Nat) : (s.placeLost k).flags = s.flags := by unfold placeLost; dsimp only; split <;> rfl
@[simp] theorem flags_enterFifo (k : Nat) (e : Event) : (s.enterFifo k e).flags = s.flags := by unfold enterFifo; dsimp only; split <;> rfl
@[simp] theorem flags_raise (c d u h a b : Nat) : (s.raise c d u h a b).flags = s.flags := by unfold raise; simp
@[simp] theorem fabric_placeLost (k : Nat) : (s.placeLost k).fabric = s.fabric := by unfold placeLost; dsimp only; split <;> rfl
@[simp] theorem fabric_enterFifo (k : Nat) (e : Event) : (s.enterFifo k e).fabric = s.fabric := by unfold enterFifo; dsimp only; split <;> rfl
@[simp] theorem fabric_raise (c d u h a b : Nat) : (s.raise c d u h a b).fabric = s.fabric := by unfold raise; simp
@[simp] theorem strm_placeLost (k : Nat) : (s.placeLost k).strm = s.strm := by unfold placeLost; dsimp only; split <;> rfl
@[simp] theorem strm_enterFifo (k : Nat) (e : Event) : (s.enterFifo k e).strm = s.strm := by unfold enterFifo; dsimp only; split <;> rfl
@[simp] theorem strm_raise (c d u h a b : Nat) : (s.raise c d u h a b).strm = s.strm := by unfold raise; simp
@[simp] theorem rig_placeLost (k : Nat) : (s.placeLost k).rig = s.rig := by unfold placeLost; dsimp only; split <;> rfl
@[simp] theorem rig_enterFifo (k : Nat) (e : Event) : (s.enterFifo k e).rig = s.rig := by unfold enterFifo; dsimp only; split <;> rfl
@[simp] theorem rig_raise (c d u h a b : Nat) : (s.raise c d u h a b).rig = s.rig := by unfold raise; simp
@[simp] theorem queue_placeLost (k : Nat) : (s.placeLost k).queue = s.queue := by unfold placeLost; dsimp only; split <;> rfl
@[simp] theorem queue_enterFifo (k : Nat) (e : Event) : (s.enterFifo k e).queue = s.queue := by unfold enterFifo; dsimp only; split <;> rfl
@[simp] theorem queue_raise (c d u h a b : Nat) : (s.raise c d u h a b).queue = s.queue := by unfold raise; simp
@[simp] theorem media_placeLost (k : Nat) : (s.placeLost k).media = s.media := by unfold placeLost; dsimp only; split <;> rfl
@[simp] theorem media_enterFifo (k : Nat) (e : Event) : (s.enterFifo k e).media = s.media := by unfold enterFifo; dsimp only; split <;> rfl
@[simp] theorem media_raise (c d u h a b : Nat) : (s.raise c d u h a b).media = s.media := by unfold raise; simp
@[simp] theorem gpio_placeLost (k : Nat) : (s.placeLost k).gpio = s.gpio := by unfold placeLost; dsimp only; split <;> rfl
@[simp] theorem gpio_enterFifo (k : Nat) (e : Event) : (s.enterFifo k e).gpio = s.gpio := by unfold enterFifo; dsimp only; split <;> rfl
@[simp] theorem gpio_raise (c d u h a b : Nat) : (s.raise c d u h a b).gpio = s.gpio := by unfold raise; simp
@[simp] theorem hyper_placeLost (k : Nat) : (s.placeLost k).hyper = s.hyper := by unfold placeLost; dsimp only; split <;> rfl
@[simp] theorem hyper_enterFifo (k : Nat) (e : Event) : (s.enterFifo k e).hyper = s.hyper := by unfold enterFifo; dsimp only; split <;> rfl
@[simp] theorem hyper_raise (c d u h a b : Nat) : (s.raise c d u h a b).hyper = s.hyper := by unfold raise; simp
@[simp] theorem mgmt_placeLost (k : Nat) : (s.placeLost k).mgmt = s.mgmt := by unfold placeLost; dsimp only; split <;> rfl
@[simp] theorem mgmt_enterFifo (k : Nat) (e : Event) : (s.enterFifo k e).mgmt = s.mgmt := by unfold enterFifo; dsimp only; split <;> rfl
@[simp] theorem mgmt_raise (c d u h a b : Nat) : (s.raise c d u h a b).mgmt = s.mgmt := by unfold raise; simp
@[simp] theorem sec_placeLost (k : Nat) : (s.placeLost k).sec = s.sec := by unfold placeLost; dsimp only; split <;> rfl
@[simp] theorem sec_enterFifo (k : Nat) (e : Event) : (s.enterFifo k e).sec = s.sec := by unfold enterFifo; dsimp only; split <;> rfl
@[simp] theorem sec_raise (c d u h a b : Nat) : (s.raise c d u h a b).sec = s.sec := by unfold raise; simp
@[simp] theorem power_placeLost (k : Nat) : (s.placeLost k).power = s.power := by unfold placeLost; dsimp only; split <;> rfl
@[simp] theorem power_enterFifo (k : Nat) (e : Event) : (s.enterFifo k e).power = s.power := by unfold enterFifo; dsimp only; split <;> rfl
@[simp] theorem power_raise (c d u h a b : Nat) : (s.raise c d u h a b).power = s.power := by unfold raise; simp
@[simp] theorem free_placeLost (k : Nat) : (s.placeLost k).free = s.free := by unfold placeLost; dsimp only; split <;> rfl
@[simp] theorem free_enterFifo (k : Nat) (e : Event) : (s.enterFifo k e).free = s.free := by unfold enterFifo; dsimp only; split <;> rfl
@[simp] theorem free_raise (c d u h a b : Nat) : (s.raise c d u h a b).free = s.free := by unfold raise; simp
@[simp] theorem pending_placeLost (k : Nat) : (s.placeLost k).pending = s.pending := by unfold placeLost; dsimp only; split <;> rfl
@[simp] theorem pending_enterFifo (k : Nat) (e : Event) : (s.enterFifo k e).pending = s.pending := by unfold enterFifo; dsimp only; split <;> rfl
@[simp] theorem pending_raise (c d u h a b : Nat) : (s.raise c d u h a b).pending = s.pending := by unfold raise; simp

/-- The last event raised. -/
@[simp] theorem last_raise (c d u h a b : Nat) : (s.raise c d u h a b).events.last = BitVec.ofNat 16 c := rfl

@[simp] theorem part_imemCorrect (p : Nat) : (s.imemCorrect p).part = s.part := by unfold imemCorrect; split <;> rfl
@[simp] theorem gcnt_imemCorrect (p : Nat) : (s.imemCorrect p).gcnt = s.gcnt := by unfold imemCorrect; split <;> rfl
@[simp] theorem timebase_imemCorrect (p : Nat) : (s.imemCorrect p).timebase = s.timebase := by unfold imemCorrect; split <;> rfl
@[simp] theorem was_imemCorrect (p : Nat) : (s.imemCorrect p).was = s.was := by unfold imemCorrect; split <;> rfl
@[simp] theorem latch_imemCorrect (p : Nat) : (s.imemCorrect p).latch = s.latch := by unfold imemCorrect; split <;> rfl
@[simp] theorem hold_imemCorrect (p : Nat) : (s.imemCorrect p).hold = s.hold := by unfold imemCorrect; split <;> rfl
@[simp] theorem mem_imemCorrect (p : Nat) : (s.imemCorrect p).mem = s.mem := by unfold imemCorrect; split <;> rfl
@[simp] theorem ecc_imemCorrect (p : Nat) : (s.imemCorrect p).ecc = s.ecc := by unfold imemCorrect; split <;> rfl
@[simp] theorem tick_imemCorrect (p : Nat) : (s.imemCorrect p).tick = s.tick := by unfold imemCorrect; split <;> rfl
@[simp] theorem progs_imemCorrect (p : Nat) : (s.imemCorrect p).progs = s.progs := by unfold imemCorrect; split <;> rfl
@[simp] theorem serials_imemCorrect (p : Nat) : (s.imemCorrect p).serials = s.serials := by unfold imemCorrect; split <;> rfl
@[simp] theorem yards_imemCorrect (p : Nat) : (s.imemCorrect p).yards = s.yards := by unfold imemCorrect; split <;> rfl
@[simp] theorem flags_imemCorrect (p : Nat) : (s.imemCorrect p).flags = s.flags := by unfold imemCorrect; split <;> rfl
@[simp] theorem fabric_imemCorrect (p : Nat) : (s.imemCorrect p).fabric = s.fabric := by unfold imemCorrect; split <;> rfl
@[simp] theorem strm_imemCorrect (p : Nat) : (s.imemCorrect p).strm = s.strm := by unfold imemCorrect; split <;> rfl
@[simp] theorem rig_imemCorrect (p : Nat) : (s.imemCorrect p).rig = s.rig := by unfold imemCorrect; split <;> rfl
@[simp] theorem events_imemCorrect (p : Nat) : (s.imemCorrect p).events = s.events := by unfold imemCorrect; split <;> rfl
@[simp] theorem queue_imemCorrect (p : Nat) : (s.imemCorrect p).queue = s.queue := by unfold imemCorrect; split <;> rfl
@[simp] theorem media_imemCorrect (p : Nat) : (s.imemCorrect p).media = s.media := by unfold imemCorrect; split <;> rfl
@[simp] theorem gpio_imemCorrect (p : Nat) : (s.imemCorrect p).gpio = s.gpio := by unfold imemCorrect; split <;> rfl
@[simp] theorem hyper_imemCorrect (p : Nat) : (s.imemCorrect p).hyper = s.hyper := by unfold imemCorrect; split <;> rfl
@[simp] theorem mgmt_imemCorrect (p : Nat) : (s.imemCorrect p).mgmt = s.mgmt := by unfold imemCorrect; split <;> rfl
@[simp] theorem sec_imemCorrect (p : Nat) : (s.imemCorrect p).sec = s.sec := by unfold imemCorrect; split <;> rfl
@[simp] theorem power_imemCorrect (p : Nat) : (s.imemCorrect p).power = s.power := by unfold imemCorrect; split <;> rfl
@[simp] theorem free_imemCorrect (p : Nat) : (s.imemCorrect p).free = s.free := by unfold imemCorrect; split <;> rfl
@[simp] theorem pending_imemCorrect (p : Nat) : (s.imemCorrect p).pending = s.pending := by unfold imemCorrect; split <;> rfl

end Sys2Proof.Machine.State
end

