-- ==== Sys2Proof/Laws/Issue.lean ====
section
/-! SUPPORT. The program records and contexts after an update, and what issue does: one equation for each way in which an instruction is
met. -/

namespace Sys2Proof.Machine
namespace State

variable (s : State)

/-! ### Program records -/

@[simp] theorem prog_setProg_same (p : Nat) (g : Prog) : (s.setProg p g).prog p = g := by simp [setProg, prog, SMap.get_set_same]

theorem prog_setProg_ne {p q : Nat} (g : Prog) (h : q ≠ p) : (s.setProg p g).prog q = s.prog q := by simp [setProg, prog, SMap.get_set_ne _ _ h]

@[simp] theorem prog_setCtx_same (p : Nat) (c : Ctx) : (s.setCtx p c).prog p = { s.prog p with ctx := c } := by simp [setCtx]

theorem prog_setCtx_ne {p q : Nat} (c : Ctx) (h : q ≠ p) : (s.setCtx p c).prog q = s.prog q := prog_setProg_ne s _ h

@[simp] theorem ctx_setCtx_same (p : Nat) (c : Ctx) : (s.setCtx p c).ctx p = c := by simp [ctx]

theorem ctx_setCtx_ne {p q : Nat} (c : Ctx) (h : q ≠ p) : (s.setCtx p c).ctx q = s.ctx q := by simp [ctx, prog_setCtx_ne s c h]

@[simp] theorem regsOf_setCtx_same (p : Nat) (c : Ctx) : (s.setCtx p c).regsOf p = c.regs := by simp [regsOf]

@[simp] theorem setCtx_setCtx (p : Nat) (c d : Ctx) : (s.setCtx p c).setCtx p d = s.setCtx p d := by
  show (s.setProg p _).setProg p { (s.setProg p _).prog p with ctx := d } = s.setProg p _
  rw [prog_setProg_same]
  simp only [setProg, SMap.set_set]

/-- A state that differs in fields other than the programs has the same records. -/
theorem prog_congr {s t : State} (h : t.progs = s.progs) (p : Nat) : t.prog p = s.prog p := by simp [prog, h]
theorem ctx_congr {s t : State} (h : t.progs = s.progs) (p : Nat) : t.ctx p = s.ctx p := by simp [ctx, prog_congr h]

/-! ### The state in which an instruction takes effect -/

@[simp] theorem prog_imemCorrect (p q : Nat) : (s.imemCorrect p).prog q = s.prog q := prog_congr (by simp) q
@[simp] theorem ctx_imemCorrect (p q : Nat) : (s.imemCorrect p).ctx q = s.ctx q := ctx_congr (by simp) q
/-- Only the registers that count corrected words change. -/
theorem reg_imemCorrect (p : Nat) {r : RegId} (h1 : r.name ≠ .ccImemStat) (h2 : r.name ≠ .ccImemCeCnt) : (s.imemCorrect p).reg r = s.reg r := by
  unfold imemCorrect
  split
  · exact (reg_setReg_ne _ _ fun e => h2 (congrArg RegId.name e)).trans (reg_setReg_ne s _ fun e => h1 (congrArg RegId.name e))
  · rfl

@[simp] theorem cycle_imemCorrect (p : Nat) : (s.imemCorrect p).cycle = s.cycle := by
  have h1 := s.reg_imemCorrect p (r := rid .tickLast) (by decide) (by decide)
  have h2 := s.reg_imemCorrect p (r := rid .pwrState) (by decide) (by decide)
  simp only [cycle, now, tickStart, opPoint, get, gcnt_imemCorrect, h1, h2]

@[simp] theorem byte_imemCorrect (p a : Nat) : (s.imemCorrect p).byte a = s.byte a := by unfold imemCorrect; split <;> rfl

/-- Nothing to correct: `imemCorrect` is no change. -/
theorem imemCorrect_sound (p : Nat) (h : s.fetchEcc p = 0) : s.imemCorrect p = s := by simp [imemCorrect, h]

/-- The context of an instruction that takes effect: it holds nothing back, and issues again from the next cycle on. -/
@[simp] theorem ctx_issued (p : Nat) : (s.issued p).ctx p =
    { s.ctx p with blocked := none, run := .issuing, specStop := false, ready := s.cycle + 1 } := by
  simp [issued, unblock]

/-- What `issued` leaves of the program's record. -/
theorem prog_issued (p : Nat) : (s.issued p).prog p = { s.prog p with ctx := (s.issued p).ctx p } := by
  simp [issued, unblock]

theorem prog_issued_ne {p q : Nat} (h : q ≠ p) : (s.issued p).prog q = s.prog q := by
  simp [issued, unblock, prog_setCtx_ne _ _ h]

@[simp] theorem regsOf_issued (p : Nat) : (s.issued p).regsOf p = s.regsOf p := by simp [regsOf]
@[simp] theorem depth_issued (p : Nat) : (s.issued p).depth p = s.depth p := by simp [depth]
@[simp] theorem box_issued (p : Nat) : ((s.issued p).prog p).box = (s.prog p).box := by rw [prog_issued]
@[simp] theorem place_issued (p : Nat) : ((s.issued p).prog p).place = (s.prog p).place := by rw [prog_issued]
@[simp] theorem inputs_issued (p : Nat) : ((s.issued p).prog p).inputs = (s.prog p).inputs := by rw [prog_issued]
@[simp] theorem store_issued (p : Nat) : ((s.issued p).prog p).store = (s.prog p).store := by rw [prog_issued]
@[simp] theorem byte_issued (p a : Nat) : (s.issued p).byte a = s.byte a := by
  show (s.imemCorrect p).byte a = s.byte a; simp
@[simp] theorem gcnt_issued (p : Nat) : (s.issued p).gcnt = s.gcnt := by simp [issued]
@[simp] theorem tick_issued (p : Nat) : (s.issued p).tick = s.tick := by simp [issued]
@[simp] theorem yards_issued (p : Nat) : (s.issued p).yards = s.yards := by simp [issued]
@[simp] theorem flags_issued (p : Nat) : (s.issued p).flags = s.flags := by simp [issued]

/-! ### Issue -/

variable {s} {p : Nat} {g : Guard} {i : Instr}

/-- An instruction that takes effect. -/
theorem issueAt_on {uses : List Nat} {eff : State → State} (h : Issues s p g i) (hu : uses.any (s.ctx p).pendingReg = false) :
    s.issueAt p g i uses eff = eff (s.issued p) := by
  have hr : g.on ((s.issued p).regsOf p) = true := by simpa using h.on
  unfold issueAt
  simp only [h.can, h.sound, ctx_imemCorrect, hu]
  show (if g.on ((s.issued p).regsOf p) = true then _ else _) = _
  rw [if_pos hr]; rfl

theorem issue_on {uses : List Nat} {eff : State → State} (h : Issues s p g i) (hu : uses.any (s.ctx p).pendingReg = false) :
    s.issue p g i uses eff = (eff (s.issued p)).advance p := issueAt_on h hu

/-- A context that does not issue. -/
theorem issueAt_no {uses : List Nat} {eff : State → State} (h : s.canIssue p i = false) : s.issueAt p g i uses eff = s := by
  simp [issueAt, h]

/-- A predicate that is off. -/
theorem issueAt_off {uses : List Nat} {eff : State → State} (hc : s.canIssue p i = true) (hi : s.fetchEcc p ≠ 2)
    (hu : uses.any (s.ctx p).pendingReg = false) (hg : g.on (s.regsOf p) = false) :
    s.issueAt p g i uses eff = (s.issued p).advance p := by
  have hr : ¬g.on ((s.issued p).regsOf p) = true := by simp [hg]
  unfold issueAt
  simp only [hc, hi, ctx_imemCorrect, hu]
  show (if g.on ((s.issued p).regsOf p) = true then _ else _) = _
  rw [if_neg hr]; rfl

/-- An uncorrectable instruction word. -/
theorem issueAt_bad {uses : List Nat} {eff : State → State} (hc : s.canIssue p i = true) (hi : s.fetchEcc p = 2) :
    s.issueAt p g i uses eff = s.imemFault p := by
  simp [issueAt, hc, hi]

/-- A pending register. -/
theorem issueAt_wait {uses : List Nat} {eff : State → State} (hc : s.canIssue p i = true) (hi : s.fetchEcc p ≠ 2)
    (hu : uses.any (s.ctx p).pendingReg = true) : s.issueAt p g i uses eff = (s.imemCorrect p).block p i false := by
  unfold issueAt
  simp only [hc, hi, ctx_imemCorrect, hu]; rfl

/-- A firm instruction with no epoch open. -/
theorem issueFirm_on {eff : State → State} (h : Issues s p g i) (hd : s.depth p = 0) : s.issueFirm p g i eff = eff (s.issued p) := by
  simp [issueFirm, issueAt_on h (uses := []) rfl, hd]

/-- An engine command or kernel with no epoch open, or with allowance left. -/
theorem issueCmd_on {uses : List Nat} {eff : State → State} (h : Issues s p g i) (hu : uses.any (s.ctx p).pendingReg = false)
    (hd : s.depth p = 0 ∨ s.specCmds p < (s.prog p).place.raCmds) : s.issueCmd p g i uses eff = eff ((s.issued p).countCmd p) := by
  unfold issueCmd
  rw [issueAt_on h hu, if_neg (by omega)]

end State

/-- Changing the context alone. -/
theorem OnlyCtx.setCtx (s : State) (p : Nat) (c : Ctx) : OnlyCtx s (s.setCtx p c) p :=
  ⟨fun k h => by cases k <;> first | rfl | simp at h, fun _ h => State.prog_setCtx_ne s c h, by simp, fun _ => rfl, fun _ => rfl⟩

theorem OnlyCtx.refl (s : State) (p : Nat) : OnlyCtx s s p :=
  ⟨fun k _ => by cases k <;> rfl, fun _ _ => rfl, rfl, fun _ => rfl, fun _ => rfl⟩

/-! ### Registers of a program after an instruction -/

@[simp] theorem ProgRegs.getSc_setSc (g : ProgRegs) (r q : BitVec 5) (v : Word) :
    (g.setSc r v).getSc q = if q = r then v else g.getSc q := by
  unfold setSc getSc
  by_cases h : q = r
  · simp [h]
  · rw [if_neg h]; exact SMap.get_set_ne _ _ fun e => h (BitVec.eq_of_toNat_eq e)
@[simp] theorem ProgRegs.getAd_setSc (g : ProgRegs) (r : BitVec 5) (q : BitVec 4) (v : Word) : (g.setSc r v).getAd q = g.getAd q := rfl
@[simp] theorem ProgRegs.getPd_setSc (g : ProgRegs) (r : BitVec 5) (q : BitVec 3) (v : Word) : (g.setSc r v).getPd q = g.getPd q := rfl
theorem ProgRegs.getAd_setAd (g : ProgRegs) (r q : BitVec 4) (v : Word) :
    (g.setAd r v).getAd q = if q = 0 then 0 else if q = r then v else g.getAd q := by
  by_cases h0 : q = 0
  · rw [if_pos h0]; unfold getAd; rw [if_pos h0]
  · rw [if_neg h0]; unfold getAd setAd; rw [if_neg h0, if_neg h0]
    by_cases hr : r = 0
    · rw [if_pos hr, if_neg fun e => h0 (e.trans hr)]
    · rw [if_neg hr]
      by_cases h : q = r
      · subst h; simp
      · rw [if_neg h]; exact SMap.get_set_ne _ _ fun e => h (BitVec.eq_of_toNat_eq e)
@[simp] theorem ProgRegs.getSc_setAd (g : ProgRegs) (r : BitVec 4) (q : BitVec 5) (v : Word) : (g.setAd r v).getSc q = g.getSc q := by
  unfold setAd getSc; split <;> rfl
@[simp] theorem ProgRegs.getPd_setAd (g : ProgRegs) (r : BitVec 4) (q : BitVec 3) (v : Word) : (g.setAd r v).getPd q = g.getPd q := by
  unfold setAd getPd; split <;> rfl
@[simp] theorem ProgRegs.getSc_setPd (g : ProgRegs) (r : BitVec 3) (q : BitVec 5) (v : Bool) : (g.setPd r v).getSc q = g.getSc q := by
  unfold setPd getSc; split <;> rfl
@[simp] theorem ProgRegs.getAd_setPd (g : ProgRegs) (r : BitVec 3) (q : BitVec 4) (v : Bool) : (g.setPd r v).getAd q = g.getAd q := by
  unfold setPd; split <;> rfl
theorem ProgRegs.getPd_setPd (g : ProgRegs) (r q : BitVec 3) (v : Bool) :
    (g.setPd r v).getPd q = if q = 0 then true else if q = r then v else g.getPd q := by
  by_cases h0 : q = 0
  · rw [if_pos h0]; unfold getPd; rw [decide_eq_true h0]; rfl
  · rw [if_neg h0]; unfold getPd setPd; rw [decide_eq_false h0, Bool.false_or, Bool.false_or]
    by_cases hr : r = 0
    · rw [if_pos hr, if_neg fun e => h0 (e.trans hr)]
    · rw [if_neg hr]
      have hq : q.toNat < 8 := q.isLt
      have key : (BitVec.ofNat 8 (2 ^ r.toNat)).getLsbD q.toNat = decide (q = r) := by
        rw [BitVec.getLsbD_ofNat, Nat.testBit_two_pow]
        by_cases h : q = r
        · subst h; rw [decide_eq_true hq]; simp
        · have : r.toNat ≠ q.toNat := fun e => h (BitVec.eq_of_toNat_eq e.symm)
          rw [decide_eq_false this, decide_eq_false h, Bool.and_false]
      simp only [BitVec.getLsbD_or, BitVec.getLsbD_and, BitVec.getLsbD_not, key, decide_eq_true hq, Bool.true_and]
      by_cases h : q = r
      · rw [if_pos h, decide_eq_true h]; cases v
        · simp
        · simp only [if_true, key, decide_eq_true h]; simp
      · rw [if_neg h, decide_eq_false h]
        rw [decide_eq_false h] at key
        cases v
        · simp
        · rw [if_pos rfl, key]; simp

namespace State

@[simp] theorem regsOf_setRegs (s : State) (p : Nat) (g : ProgRegs) : (s.setRegs p g).regsOf p = g := by simp [setRegs]
@[simp] theorem regsOf_advance (s : State) (p : Nat) : (s.advance p).regsOf p = s.regsOf p := by simp [advance, regsOf]

theorem advance_setRegs (s : State) (p : Nat) (g : ProgRegs) :
    (s.setRegs p g).advance p = s.setCtx p { s.ctx p with regs := g, idx := (s.ctx p).idx + 1 } := by
  simp [advance, setRegs]

end State

theorem Passes.setRegs (s : State) (p : Nat) (g : ProgRegs) : Passes s ((s.setRegs p g).advance p) p := by
  rw [State.advance_setRegs]
  exact ⟨OnlyCtx.setCtx s p _, by simp⟩

theorem Passes.advance (s : State) (p : Nat) : Passes s (s.advance p) p :=
  ⟨OnlyCtx.setCtx s p _, by simp [State.advance, State.regsOf]⟩

theorem WritesSc.setSc (s : State) (p : Nat) (rd : BitVec 5) (v : Word) : WritesSc s ((s.setSc p rd v).advance p) p rd v :=
  ⟨Passes.setRegs s p _, by simp [State.setSc], fun r h => by simp [State.setSc, h], fun r => by simp [State.setSc],
    fun r => by simp [State.setSc]⟩

theorem WritesAd.setAd (s : State) (p : Nat) (rd : BitVec 4) (v : Word) : WritesAd s ((s.setAd p rd v).advance p) p rd v :=
  ⟨Passes.setRegs s p _, by simp [State.setAd, ProgRegs.getAd_setAd], fun r => by simp [State.setAd],
    fun r h => by
      simp only [State.setAd, State.regsOf_advance, State.regsOf_setRegs, ProgRegs.getAd_setAd, h, if_false]
      split
      · next h0 => simp [ProgRegs.getAd, h0]
      · rfl,
    fun r => by simp [State.setAd]⟩

theorem WritesPd.setPd (s : State) (p : Nat) (rd : BitVec 3) (v : Bool) : WritesPd s ((s.setPd p rd v).advance p) p rd v :=
  ⟨Passes.setRegs s p _, by simp [State.setPd, ProgRegs.getPd_setPd], fun r => by simp [State.setPd], fun r => by simp [State.setPd],
    fun r h => by
      simp only [State.setPd, State.regsOf_advance, State.regsOf_setRegs, ProgRegs.getPd_setPd, h, if_false]
      split
      · next h0 => simp [ProgRegs.getPd, h0]
      · rfl⟩

end Sys2Proof.Machine
end

