-- ==== Sys2Proof/Laws/Faults.lean ====
section
/-! SUPPORT. What the faults of a tick do: conditions, first records, events, and the stop of a context. -/

namespace Sys2Proof.Machine
namespace State

variable (s : State)

/-! ### Events -/

theorem reg_congr {s t : State} (h : t.regs = s.regs) (hp : t.part = s.part) (r : RegId) : t.reg r = s.reg r := by simp [reg, h, hp]

@[simp] theorem reg_placeLost (k : Nat) (q : RegId) : (s.placeLost k).reg q = s.reg q := by
  unfold placeLost; dsimp only; split <;> rfl

/-- Registers that a record's entry can change: the count of lost records and its status bit. -/
theorem reg_enterFifo (k : Nat) (e : Event) {q : RegId} (h1 : q ≠ rid .evtLostCnt) (h2 : q ≠ rid .evtStat) :
    (s.enterFifo k e).reg q = s.reg q := by
  unfold enterFifo; dsimp only; split
  · rfl
  · rw [setBits, reg_setReg_ne _ _ h2, bump, reg_put_ne _ _ _ _ h1]; rfl

theorem reg_raise (c d u h a b : Nat) {q : RegId} (h1 : q ≠ rid .evtLostCnt) (h2 : q ≠ rid .evtStat) :
    (s.raise c d u h a b).reg q = s.reg q := by
  show State.reg (State.enterFifo _ _ _) q = _
  rw [reg_enterFifo _ _ _ h1 h2, reg_placeLost]

@[simp] theorem progs_ctlEvent (p c i : Nat) : (s.ctlEvent p c i).progs = s.progs := by simp [ctlEvent]
@[simp] theorem mem_ctlEvent (p c i : Nat) : (s.ctlEvent p c i).mem = s.mem := by simp [ctlEvent]
@[simp] theorem last_ctlEvent (p c i : Nat) : (s.ctlEvent p c i).events.last = BitVec.ofNat 16 c := by simp [ctlEvent]

/-! ### First records -/

/-- A first record changes no field but registers where its writes do not. -/
theorem firstRecord_field {β : Type} (f : State → β) (hf : ∀ u r v, f (State.setReg u r v) = f u) (r : RegId) (n : Nat) {w : State → State}
    (hw : f (w s) = f s) : f (s.firstRecord r n w) = f s := by
  unfold firstRecord; split
  · rfl
  · rw [setBits, hf, hw]

/-- The bit of a first record stands after it. -/
theorem bit_firstRecord (r : RegId) {n : Nat} (hn : n < 64) (w : State → State) : bit ((s.firstRecord r n w).reg r) n = true := by
  unfold firstRecord; split
  · assumption
  · simp only [setBits, reg_setReg_same, bit, BitVec.getLsbD_or, Bool.or_eq_true]
    right; rw [BitVec.getLsbD_ofNat, Nat.testBit_two_pow_self, decide_eq_true hn]; rfl

theorem reg_firstRecord_ne {r q : RegId} (n : Nat) {w : State → State} (h : q ≠ r) (hw : (w s).reg q = s.reg q) :
    (s.firstRecord r n w).reg q = s.reg q := by
  unfold firstRecord; split
  · rfl
  · rw [setBits, reg_setReg_ne _ _ h, hw]

/-! ### Faults of a program's tick -/

@[simp] theorem ctx_setCond (p n : Nat) : (s.setCond p n).ctx p = { s.ctx p with conds := (s.ctx p).conds ||| BitVec.ofNat 5 (2 ^ n) } := by
  simp [setCond]

theorem progs_faultOn (p m kind idx : Nat) : (s.faultOn p m kind idx).progs = (s.setCond p 4).progs := by
  unfold faultOn; dsimp only
  exact firstRecord_field _ (·.progs) (fun _ _ _ => rfl) _ _ rfl

@[simp] theorem mem_faultOn (p m kind idx : Nat) : (s.faultOn p m kind idx).mem = s.mem := by
  unfold faultOn; dsimp only
  exact firstRecord_field _ (·.mem) (fun _ _ _ => rfl) _ _ rfl

/-- A fault adds its condition to the program's tick and nothing else to its context. -/
@[simp] theorem ctx_faultOn (p m kind idx : Nat) : (s.faultOn p m kind idx).ctx p = { s.ctx p with conds := (s.ctx p).conds ||| 16 } := by
  rw [ctx_congr (progs_faultOn s p m kind idx), ctx_setCond]; rfl

theorem reg_faultOn (p m kind idx : Nat) {q : RegId} (h1 : q ≠ mreg .ccCtxFault m (s.slotOn p m))
    (h2 : q ≠ mreg .ccCtxFaultCyc m (s.slotOn p m)) : (s.faultOn p m kind idx).reg q = s.reg q := by
  unfold faultOn; dsimp only
  refine reg_firstRecord_ne _ _ h1 ?_
  rw [reg_put_ne _ _ _ _ h2, reg_put_ne _ _ _ _ h1, reg_put_ne _ _ _ _ h1]

/-- The context stops. -/
@[simp] theorem ctx_stopIssue (p : Nat) :
    (s.stopIssue p).ctx p = { s.ctx p with run := .stopped, blocked := none, specStop := false, specBound := false } := by
  simp [stopIssue]

@[simp] theorem reg_setProg (p : Nat) (g : Prog) (q : RegId) : (s.setProg p g).reg q = s.reg q := rfl
@[simp] theorem reg_setCtx (p : Nat) (c : Ctx) (q : RegId) : (s.setCtx p c).reg q = s.reg q := rfl
@[simp] theorem reg_stopIssue (p : Nat) (q : RegId) : (s.stopIssue p).reg q = s.reg q := rfl
@[simp] theorem mem_stopIssue (p : Nat) : (s.stopIssue p).mem = s.mem := rfl
@[simp] theorem events_stopIssue (p : Nat) : (s.stopIssue p).events = s.events := rfl

theorem reg_ctlEvent (p c i : Nat) {q : RegId} (h1 : q ≠ rid .evtLostCnt) (h2 : q ≠ rid .evtStat) : (s.ctlEvent p c i).reg q = s.reg q :=
  reg_raise s _ _ _ _ _ _ h1 h2

/-- A byte reads as before where memory is as before. -/
theorem byte_congr {s t : State} (h : t.mem = s.mem) (a : Nat) : t.byte a = s.byte a := by simp [byte, h]

/-- A stopped context issues nothing. -/
theorem canIssue_stopped {s : State} {p : Nat} (i : Instr) (hr : (s.ctx p).run = .stopped) (hb : (s.ctx p).blocked = none) :
    s.canIssue p i = false := by
  simp [canIssue, hr, hb]

/-- R208: what an uncorrectable instruction word does. -/
theorem imemFault_spec (p : Nat) : ∃ c, (s.imemFault p).ctx p = c ∧ c.run = .stopped ∧ c.conds = (s.ctx p).conds ||| 16 ∧
    c.regs = (s.ctx p).regs ∧ c.idx = (s.ctx p).idx ∧ (s.imemFault p).events.last = 0x0303 ∧ (s.imemFault p).mem = s.mem ∧
    (s.imemFault p).reg (mreg .ccImemStat (s.firstMast p)) = s.reg (mreg .ccImemStat (s.firstMast p)) ||| 2 := by
  unfold imemFault; dsimp only
  generalize hv : (s.setBits (mreg .ccImemStat (s.firstMast p)) 2).faultOn p (s.firstMast p) 3 (s.ctx p).idx = v
  have h1 : v.ctx p = { s.ctx p with conds := (s.ctx p).conds ||| 16 } := by rw [← hv, ctx_faultOn]; rfl
  have h2 : v.mem = s.mem := by rw [← hv, mem_faultOn]; rfl
  have h3 : v.reg (mreg .ccImemStat (s.firstMast p)) = s.reg (mreg .ccImemStat (s.firstMast p)) ||| 2 := by
    rw [← hv, reg_faultOn _ _ _ _ _ (by simp [mreg]) (by simp [mreg]), setBits, reg_setReg_same]
  refine ⟨_, rfl, ?_⟩
  rw [ctx_stopIssue, ctx_congr (progs_ctlEvent v p _ _), h1, mem_stopIssue, mem_ctlEvent, h2, events_stopIssue, last_ctlEvent, reg_stopIssue,
    reg_ctlEvent _ _ _ _ (by simp [mreg, rid]) (by simp [mreg, rid]), h3]
  exact ⟨rfl, rfl, rfl, rfl, rfl, rfl, rfl⟩

end State
end Sys2Proof.Machine
end

