-- ==== Sys2Proof/Laws/Fenja.lean ====
section
/-! SUPPORT. Every Fenja instruction but a branch that tests registers is issued by `State.issueAt`, with the scalar registers that
`Instr.scRegs` lists. -/

set_option linter.unusedSimpArgs false

namespace Sys2Proof.Machine

theorem specialValue_some (s : State) (p : Nat) {imm : BitVec 32} (h : imm.toNat < 5) : ∃ v, specialValue s p imm = some v := by
  have : imm.toNat = 0 ∨ imm.toNat = 1 ∨ imm.toNat = 2 ∨ imm.toNat = 3 ∨ imm.toNat = 4 := by omega
  rcases this with e | e | e | e | e <;> exact ⟨_, by simp only [specialValue, e]; rfl⟩

theorem redOps_dest (o : RedOps) (op : Nat) (g : ProgRegs) : (RedOps.kernel o op g).dest.toList =
    match o.dest with
    | .scalar rd => [rd.toNat]
    | _ => [] := by
  unfold RedOps.kernel Kernel.dest; cases o.dest <;> rfl

/-- The form of an instruction that is no branch. -/
theorem exec_issueAt {i : Instr} {f : Fenja} {s : State} (hw : i.wf = true) (hf : i.fenja = some f) (hb : i.isBranch = false) :
    ∃ eff, exec i s = .next (s.issueAt f.prog f.guard i i.scRegs eff) := by
  cases i <;> simp only [Instr.fenja, Option.some.injEq, reduceCtorEq] at hf <;> simp only [Instr.isBranch, reduceCtorEq] at hb
  case spRd p g rd imm =>
    subst hf
    simp only [Instr.wf, Bool.and_eq_true, decide_eq_true_eq] at hw
    obtain ⟨v, hv⟩ := specialValue_some s p hw.2
    exact ⟨_, by
      show execSpRd _ _ _ _ s = _
      simp only [execSpRd, hv]; rfl⟩
  case nop => subst hf; exact ⟨_, by
      show execNop _ _ s = _
      simp only [execNop, State.issue]; rfl⟩
  case li => subst hf; exact ⟨_, by
      show execLi _ _ _ _ s = _
      simp only [execLi, State.issue]; rfl⟩
  case mov => subst hf; exact ⟨_, by
      show execMov _ _ _ _ s = _
      simp only [execMov, State.scalar1, State.issue]; rfl⟩
  case add => subst hf; exact ⟨_, by
      show execAdd _ _ _ _ _ s = _
      simp only [execAdd, State.scalar2, State.issue]; rfl⟩
  case sub => subst hf; exact ⟨_, by
      show execSub _ _ _ _ _ s = _
      simp only [execSub, State.scalar2, State.issue]; rfl⟩
  case mul => subst hf; exact ⟨_, by
      show execMul _ _ _ _ _ s = _
      simp only [execMul, State.scalar2, State.issue]; rfl⟩
  case and => subst hf; exact ⟨_, by
      show execAnd _ _ _ _ _ s = _
      simp only [execAnd, State.scalar2, State.issue]; rfl⟩
  case or => subst hf; exact ⟨_, by
      show execOr _ _ _ _ _ s = _
      simp only [execOr, State.scalar2, State.issue]; rfl⟩
  case xor => subst hf; exact ⟨_, by
      show execXor _ _ _ _ _ s = _
      simp only [execXor, State.scalar2, State.issue]; rfl⟩
  case shl => subst hf; exact ⟨_, by
      show execShl _ _ _ _ _ s = _
      simp only [execShl, State.scalar2, State.issue]; rfl⟩
  case shr => subst hf; exact ⟨_, by
      show execShr _ _ _ _ _ s = _
      simp only [execShr, State.scalar2, State.issue]; rfl⟩
  case sra => subst hf; exact ⟨_, by
      show execSra _ _ _ _ _ s = _
      simp only [execSra, State.scalar2, State.issue]; rfl⟩
  case min => subst hf; exact ⟨_, by
      show execMin _ _ _ _ _ s = _
      simp only [execMin, State.scalar2, State.issue]; rfl⟩
  case max => subst hf; exact ⟨_, by
      show execMax _ _ _ _ _ s = _
      simp only [execMax, State.scalar2, State.issue]; rfl⟩
  case fAdd => subst hf; exact ⟨_, by
      show execFAdd _ _ _ _ _ s = _
      simp only [execFAdd, State.scalar2, State.issue]; rfl⟩
  case fMul => subst hf; exact ⟨_, by
      show execFMul _ _ _ _ _ s = _
      simp only [execFMul, State.scalar2, State.issue]; rfl⟩
  case fCvtI => subst hf; exact ⟨_, by
      show execFCvtI _ _ _ _ s = _
      simp only [execFCvtI, State.scalar1, State.issue]; rfl⟩
  case fCvtF => subst hf; exact ⟨_, by
      show execFCvtF _ _ _ _ s = _
      simp only [execFCvtF, State.scalar1, State.issue]; rfl⟩
  case cmp => subst hf; exact ⟨_, by
      show execCmp _ _ _ _ _ _ s = _
      simp only [execCmp, State.issue]; rfl⟩
  case pAnd => subst hf; exact ⟨_, by
      show execPAnd _ _ _ _ _ s = _
      simp only [execPAnd, State.issue]; rfl⟩
  case pOr => subst hf; exact ⟨_, by
      show execPOr _ _ _ _ _ s = _
      simp only [execPOr, State.issue]; rfl⟩
  case pNot => subst hf; exact ⟨_, by
      show execPNot _ _ _ _ s = _
      simp only [execPNot, State.issue]; rfl⟩
  case adLi => subst hf; exact ⟨_, by
      show execAdLi _ _ _ _ s = _
      simp only [execAdLi, State.issue]; rfl⟩
  case adMov => subst hf; exact ⟨_, by
      show execAdMov _ _ _ _ s = _
      simp only [execAdMov, State.issue]; rfl⟩
  case adAdd => subst hf; exact ⟨_, by
      show execAdAdd _ _ _ _ _ s = _
      simp only [execAdAdd, State.issue]; rfl⟩
  case scAge => subst hf; exact ⟨_, by
      show execScAge _ _ _ _ s = _
      simp only [execScAge, State.issue]; rfl⟩
  case mmI8 => subst hf; exact ⟨_, by
      show execMmI8 _ _ _ s = _
      simp only [execMmI8, State.issueKernel, State.issueCmd]; rfl⟩
  case mmW4a8 => subst hf; exact ⟨_, by
      show execMmW4a8 _ _ _ s = _
      simp only [execMmW4a8, State.issueKernel, State.issueCmd]; rfl⟩
  case mmC4 => subst hf; exact ⟨_, by
      show execMmC4 _ _ _ s = _
      simp only [execMmC4, State.issueKernel, State.issueCmd]; rfl⟩
  case conv => subst hf; exact ⟨_, by
      show execConv _ _ _ s = _
      simp only [execConv, State.issueKernel, State.issueCmd]; rfl⟩
  case tconv => subst hf; exact ⟨_, by
      show execTconv _ _ _ s = _
      simp only [execTconv, State.issueKernel, State.issueCmd]; rfl⟩
  case redSum p g o =>
    subst hf
    exact ⟨_, by
      show execRedSum _ _ _ s = _
      simp only [execRedSum, State.issueKernel, State.issueCmd, redOps_dest, Instr.scRegs]; rfl⟩
  case redSumsq p g o =>
    subst hf
    exact ⟨_, by
      show execRedSumsq _ _ _ s = _
      simp only [execRedSumsq, State.issueKernel, State.issueCmd, redOps_dest, Instr.scRegs]; rfl⟩
  case redMax p g o =>
    subst hf
    exact ⟨_, by
      show execRedMax _ _ _ s = _
      simp only [execRedMax, State.issueKernel, State.issueCmd, redOps_dest, Instr.scRegs]; rfl⟩
  case redMin p g o =>
    subst hf
    exact ⟨_, by
      show execRedMin _ _ _ s = _
      simp only [execRedMin, State.issueKernel, State.issueCmd, redOps_dest, Instr.scRegs]; rfl⟩
  case redMaxabs p g o =>
    subst hf
    exact ⟨_, by
      show execRedMaxabs _ _ _ s = _
      simp only [execRedMaxabs, State.issueKernel, State.issueCmd, redOps_dest, Instr.scRegs]; rfl⟩
  case redNz p g o =>
    subst hf
    exact ⟨_, by
      show execRedNz _ _ _ s = _
      simp only [execRedNz, State.issueKernel, State.issueCmd, redOps_dest, Instr.scRegs]; rfl⟩
  case argmaxC p g o =>
    subst hf
    exact ⟨_, by
      show execArgmaxC _ _ _ s = _
      simp only [execArgmaxC, State.issueKernel, State.issueCmd, redOps_dest, Instr.scRegs]; rfl⟩
  case argminC p g o =>
    subst hf
    exact ⟨_, by
      show execArgminC _ _ _ s = _
      simp only [execArgminC, State.issueKernel, State.issueCmd, redOps_dest, Instr.scRegs]; rfl⟩
  case vopAdd => subst hf; exact ⟨_, by
      show execVopAdd _ _ _ s = _
      simp only [execVopAdd, State.issueKernel, State.issueCmd]; rfl⟩
  case vopSub => subst hf; exact ⟨_, by
      show execVopSub _ _ _ s = _
      simp only [execVopSub, State.issueKernel, State.issueCmd]; rfl⟩
  case vopMul => subst hf; exact ⟨_, by
      show execVopMul _ _ _ s = _
      simp only [execVopMul, State.issueKernel, State.issueCmd]; rfl⟩
  case vopMax => subst hf; exact ⟨_, by
      show execVopMax _ _ _ s = _
      simp only [execVopMax, State.issueKernel, State.issueCmd]; rfl⟩
  case vopMin => subst hf; exact ⟨_, by
      show execVopMin _ _ _ s = _
      simp only [execVopMin, State.issueKernel, State.issueCmd]; rfl⟩
  case vopAbs => subst hf; exact ⟨_, by
      show execVopAbs _ _ _ s = _
      simp only [execVopAbs, State.issueKernel, State.issueCmd]; rfl⟩
  case vopNeg => subst hf; exact ⟨_, by
      show execVopNeg _ _ _ s = _
      simp only [execVopNeg, State.issueKernel, State.issueCmd]; rfl⟩
  case vopSel => subst hf; exact ⟨_, by
      show execVopSel _ _ _ _ s = _
      simp only [execVopSel, State.issueKernel, State.issueCmd]; rfl⟩
  case vopFma => subst hf; exact ⟨_, by
      show execVopFma _ _ _ s = _
      simp only [execVopFma, State.issueKernel, State.issueCmd]; rfl⟩
  case vopCvt => subst hf; exact ⟨_, by
      show execVopCvt _ _ _ s = _
      simp only [execVopCvt, State.issueKernel, State.issueCmd]; rfl⟩
  case vopRcp => subst hf; exact ⟨_, by
      show execVopRcp _ _ _ s = _
      simp only [execVopRcp, State.issueKernel, State.issueCmd]; rfl⟩
  case vopSqrt => subst hf; exact ⟨_, by
      show execVopSqrt _ _ _ s = _
      simp only [execVopSqrt, State.issueKernel, State.issueCmd]; rfl⟩
  case vopFtab => subst hf; exact ⟨_, by
      show execVopFtab _ _ _ s = _
      simp only [execVopFtab, State.issueKernel, State.issueCmd]; rfl⟩
  case vopSoftmax => subst hf; exact ⟨_, by
      show execVopSoftmax _ _ _ s = _
      simp only [execVopSoftmax, State.issueKernel, State.issueCmd]; rfl⟩
  case vopLnorm => subst hf; exact ⟨_, by
      show execVopLnorm _ _ _ s = _
      simp only [execVopLnorm, State.issueKernel, State.issueCmd]; rfl⟩
  case vopRmsnorm => subst hf; exact ⟨_, by
      show execVopRmsnorm _ _ _ s = _
      simp only [execVopRmsnorm, State.issueKernel, State.issueCmd]; rfl⟩
  case vopMaxpool => subst hf; exact ⟨_, by
      show execVopMaxpool _ _ _ s = _
      simp only [execVopMaxpool, State.issueKernel, State.issueCmd]; rfl⟩
  case vopAvgpool => subst hf; exact ⟨_, by
      show execVopAvgpool _ _ _ s = _
      simp only [execVopAvgpool, State.issueKernel, State.issueCmd]; rfl⟩
  case vopRszNear => subst hf; exact ⟨_, by
      show execVopRszNear _ _ _ s = _
      simp only [execVopRszNear, State.issueKernel, State.issueCmd]; rfl⟩
  case vopRszBil => subst hf; exact ⟨_, by
      show execVopRszBil _ _ _ s = _
      simp only [execVopRszBil, State.issueKernel, State.issueCmd]; rfl⟩
  case vopGather => subst hf; exact ⟨_, by
      show execVopGather _ _ _ s = _
      simp only [execVopGather, State.issueKernel, State.issueCmd]; rfl⟩
  case mvStrm => subst hf; exact ⟨_, by
      show execMvStrm _ _ _ _ _ _ _ _ _ s = _
      simp only [execMvStrm, State.issueKernel, State.issueCmd]; rfl⟩
  case flagSet => subst hf; exact ⟨_, by
      show execFlagSet _ _ _ _ _ s = _
      simp only [execFlagSet, State.issueFirm]; rfl⟩
  case flagWait => subst hf; exact ⟨_, by
      show execFlagWait _ _ _ _ _ _ s = _
      simp only [execFlagWait, State.issueFirm]; rfl⟩
  case tickEnd => subst hf; exact ⟨_, by
      show execTickEnd _ _ s = _
      simp only [execTickEnd, State.issueFirm]; rfl⟩
  case sailRun => subst hf; exact ⟨_, by
      show execSailRun _ _ _ _ _ _ _ _ _ _ _ s = _
      simp only [execSailRun, State.issueEngine, State.issueCmd]; rfl⟩
  case sailLoad => subst hf; exact ⟨_, by
      show execSailLoad _ _ _ _ _ s = _
      simp only [execSailLoad, State.issueEngine, State.issueCmd]; rfl⟩
  case sailTld => subst hf; exact ⟨_, by
      show execSailTld _ _ _ _ _ s = _
      simp only [execSailTld, State.issueEngine, State.issueCmd]; rfl⟩
  case sailTcp => subst hf; exact ⟨_, by
      show execSailTcp _ _ _ _ s = _
      simp only [execSailTcp, State.issueEngine, State.issueCmd]; rfl⟩
  case boomEpi => subst hf; exact ⟨_, by
      show execBoomEpi _ _ _ _ _ _ _ _ _ s = _
      simp only [execBoomEpi, State.issueEngine, State.issueCmd]; rfl⟩
  case boomChout => subst hf; exact ⟨_, by
      show execBoomChout _ _ _ _ s = _
      simp only [execBoomChout, State.issueEngine, State.issueCmd]; rfl⟩
  case boomChin => subst hf; exact ⟨_, by
      show execBoomChin _ _ _ _ s = _
      simp only [execBoomChin, State.issueEngine, State.issueCmd]; rfl⟩
  case boomPre => subst hf; exact ⟨_, by
      show execBoomPre _ _ _ _ _ _ s = _
      simp only [execBoomPre, State.issueEngine, State.issueCmd]; rfl⟩
  case boomCnt => subst hf; exact ⟨_, by
      show execBoomCnt _ _ _ _ _ s = _
      simp only [execBoomCnt, State.issueKernel, State.issueCmd]; rfl⟩

end Sys2Proof.Machine
end

