-- ==== Sys2Proof/Laws/KeepsBase.lean ====
section
/-! SUPPORT. `Keeps ks s t`: the order code and the queue of `t` are those of `s`, and so is every kind of state outside `ks`; where the
sparse contents of `s` are canonical so are those of `t`. One lemma for each operation, in the order of the definitions, says which kinds
of state it can change. -/

namespace Sys2Proof.Machine

theorem Kind.same_refl (s : State) (k : Kind) : k.same s s := by cases k <;> rfl

theorem Kind.same_trans {s t u : State} {k : Kind} (h : k.same s t) (h' : k.same t u) : k.same s u := by
  cases k <;> exact h'.trans h

/-- A list of kinds within another. -/
def Kind.Sub (a b : List Kind) : Prop := ∀ k, k ∈ a → k ∈ b

theorem Kind.Sub.refl (a : List Kind) : Kind.Sub a a := fun _ h => h

theorem Kind.Sub.mono {a b c : List Kind} (h : (a.all fun k => decide (k ∈ b)) = true) (hs : Kind.Sub b c) : Kind.Sub a c :=
  fun k hk => hs k (of_decide_eq_true (List.all_eq_true.mp h k hk))

theorem Kind.Sub.mem {a b : List Kind} {k : Kind} (hs : Kind.Sub a b) (h : decide (k ∈ a) = true) : k ∈ b := hs k (of_decide_eq_true h)

theorem Kind.Sub.cons {a b : List Kind} {k : Kind} (hs : Kind.Sub a b) : Kind.Sub a (k :: b) := fun j hj => List.mem_cons_of_mem _ (hs j hj)

/-- What an operation keeps that changes at most the kinds `ks`. -/
structure Keeps (ks : List Kind) (s t : State) : Prop where
  part : t.part = s.part
  pending : t.pending = s.pending
  regs : SMap.wf 0 s.regs = true → SMap.wf 0 t.regs = true
  mem : SMap.wf 0 s.mem = true → SMap.wf 0 t.mem = true
  ecc : SMap.wf 0 s.ecc = true → SMap.wf 0 t.ecc = true
  outside : Outside ks s t

theorem Keeps.refl (ks : List Kind) (s : State) : Keeps ks s s := ⟨rfl, rfl, id, id, id, fun k _ => k.same_refl s⟩

theorem Keeps.trans {ks : List Kind} {s t u : State} (h : Keeps ks s t) (k : Keeps ks t u) : Keeps ks s u :=
  ⟨k.part.trans h.part, k.pending.trans h.pending, k.regs ∘ h.regs, k.mem ∘ h.mem, k.ecc ∘ h.ecc,
    fun x hx => Kind.same_trans (h.outside x hx) (k.outside x hx)⟩

theorem Keeps.mono {ks ls : List Kind} {s t : State} (h : Keeps ks s t) (hs : Kind.Sub ks ls) : Keeps ls s t :=
  ⟨h.part, h.pending, h.regs, h.mem, h.ecc, fun x hx => h.outside x fun hm => hx (hs x hm)⟩

variable {ks : List Kind} {s₀ s : State}

theorem Keeps.after {t : State} (h : Keeps ks s₀ s) (ho : Outside ks s t) : Outside ks s₀ t :=
  fun x hx => Kind.same_trans (h.outside x hx) (ho x hx)

/-- An update of fields other than the sparse contents. -/
theorem Keeps.other (h : Keeps ks s₀ s) {fw f1 f2 f3 f4 f5 f6 f7 f8 f9 f10 f11 f12 f13 f14 f15 f16 f17 f18 f19 f20 f21}
    (hw : Kind.was ∈ ks ∨ fw = s.was) (h1 : Kind.gcnt ∈ ks ∨ f1 = s.gcnt) (h2 : Kind.timebase ∈ ks ∨ f2 = s.timebase) (h3 : Kind.latch ∈ ks ∨ f3 = s.latch)
    (h4 : Kind.hold ∈ ks ∨ f4 = s.hold) (h5 : Kind.tick ∈ ks ∨ f5 = s.tick) (h6 : Kind.progs ∈ ks ∨ f6 = s.progs)
    (h7 : Kind.serials ∈ ks ∨ f7 = s.serials) (h8 : Kind.yards ∈ ks ∨ f8 = s.yards) (h9 : Kind.flags ∈ ks ∨ f9 = s.flags)
    (h10 : Kind.fabric ∈ ks ∨ f10 = s.fabric) (h11 : Kind.strm ∈ ks ∨ f11 = s.strm) (h12 : Kind.rig ∈ ks ∨ f12 = s.rig)
    (h13 : Kind.events ∈ ks ∨ f13 = s.events) (h14 : Kind.queue ∈ ks ∨ f14 = s.queue) (h15 : Kind.media ∈ ks ∨ f15 = s.media)
    (h16 : Kind.gpio ∈ ks ∨ f16 = s.gpio) (h17 : Kind.hyper ∈ ks ∨ f17 = s.hyper) (h18 : Kind.mgmt ∈ ks ∨ f18 = s.mgmt)
    (h19 : Kind.sec ∈ ks ∨ f19 = s.sec) (h20 : Kind.power ∈ ks ∨ f20 = s.power) (h21 : Kind.free ∈ ks ∨ f21 = s.free) :
    Keeps ks s₀ ⟨s.part, f1, f2, s.regs, fw, f3, f4, s.mem, s.ecc, f5, f6, f7, f8, f9, f10, f11, f12, f13, f14, f15, f16, f17, f18, f19, f20, f21,
      s.pending⟩ := by
  refine ⟨h.part, h.pending, h.regs, h.mem, h.ecc, h.after fun k hn => ?_⟩
  cases k
  case regs | mem | ecc => rfl
  case was => exact hw.resolve_left hn
  case gcnt => exact h1.resolve_left hn
  case timebase => exact h2.resolve_left hn
  case latch => exact h3.resolve_left hn
  case hold => exact h4.resolve_left hn
  case tick => exact h5.resolve_left hn
  case progs => exact h6.resolve_left hn
  case serials => exact h7.resolve_left hn
  case yards => exact h8.resolve_left hn
  case flags => exact h9.resolve_left hn
  case fabric => exact h10.resolve_left hn
  case strm => exact h11.resolve_left hn
  case rig => exact h12.resolve_left hn
  case events => exact h13.resolve_left hn
  case queue => exact h14.resolve_left hn
  case media => exact h15.resolve_left hn
  case gpio => exact h16.resolve_left hn
  case hyper => exact h17.resolve_left hn
  case mgmt => exact h18.resolve_left hn
  case sec => exact h19.resolve_left hn
  case power => exact h20.resolve_left hn
  case free => exact h21.resolve_left hn

theorem Keeps.ite {c : Prop} [Decidable c] {a b : State} (ha : Keeps ks s₀ a) (hb : Keeps ks s₀ b) : Keeps ks s₀ (if c then a else b) := by
  split <;> assumption

theorem Keeps.foldl {α : Type} {f : State → α → State} (hf : ∀ s x, Keeps ks s₀ s → Keeps ks s₀ (f s x)) (l : List α) (h : Keeps ks s₀ s) :
    Keeps ks s₀ (l.foldl f s) := by
  induction l generalizing s with
  | nil => exact h
  | cons x l ih => exact ih (hf s x h)

theorem Keeps.ofFst {β : Type} {q : State × β} {b : β} (h : Keeps ks s₀ q.1) (e : q = (s, b)) : Keeps ks s₀ s := by
  subst e; exact h

theorem Keeps.foldlFst {α β : Type} {f : State × β → α → State × β} (hf : ∀ q x, Keeps ks s₀ q.1 → Keeps ks s₀ (f q x).1) (l : List α)
    {q : State × β} (h : Keeps ks s₀ q.1) : Keeps ks s₀ (l.foldl f q).1 := by
  induction l generalizing q with
  | nil => exact h
  | cons x l ih => exact ih (hf q x h)

/-- Changing the values of entries, or dropping them. -/
theorem SMap.wf_filterMap {α : Type} [DecidableEq α] {d : α} {m : SMap α} (h : SMap.wf d m = true) (f : Nat × α → Option (Nat × α))
    (hf : ∀ e e', f e = some e' → e'.1 = e.1 ∧ (e.2 ≠ d → e'.2 ≠ d)) : SMap.wf d (m.filterMap f) = true := by
  induction m with
  | nil => rfl
  | cons x m ih =>
    obtain ⟨k, v⟩ := x
    obtain ⟨h1, h2, h3⟩ := SMap.wf_cons.mp h
    rw [List.filterMap_cons]
    split
    · exact ih h2
    · next e he =>
      obtain ⟨k', v'⟩ := e
      obtain ⟨hk, hv⟩ := hf _ _ he
      refine SMap.wf_cons.mpr ⟨hv h1, ih h2, fun e' he' => ?_⟩
      obtain ⟨y, hy, hye⟩ := List.mem_filterMap.mp (List.mem_of_mem_head? he')
      have := SMap.wf_lt_all h2 h3 y hy
      have := (hf _ _ hye).1
      simp only at hk
      omega

end Sys2Proof.Machine
end

