-- ==== Sys2Proof/Laws/KeepsOps.lean ====
section
/-! SUPPORT. The operations of Sys2Proof/Machine/Ops.lean keep (see Sys2Proof/Laws/KeepsBase.lean). -/

namespace Sys2Proof.Machine

theorem State.setReg_keeps {ks : List Kind} {s₀ s : State} (hk : Keeps ks s₀ s) (hs : Kind.Sub [.regs] ks)
    {r : RegId} {v : BitVec 64} : Keeps ks s₀ (State.setReg s r v) := by
  unfold State.setReg
  exact ⟨hk.part, hk.pending, fun w => SMap.wf_set (hk.regs w) _ _, hk.mem, hk.ecc, hk.after fun k hn => by cases k <;> first | exact absurd (hs _ (by decide)) hn | rfl⟩

theorem State.put_keeps {ks : List Kind} {s₀ s : State} (hk : Keeps ks s₀ s) (hs : Kind.Sub [.regs] ks)
    {r : RegId} {lo : Nat} {w : Nat} {x : Nat} : Keeps ks s₀ (State.put s r lo w x) := by
  unfold State.put
  try dsimp only
  repeat' with_reducible first
      | exact hk | exact Kind.Sub.mono rfl hs | apply State.setReg_keeps | assumption

theorem State.setBits_keeps {ks : List Kind} {s₀ s : State} (hk : Keeps ks s₀ s) (hs : Kind.Sub [.regs] ks)
    {r : RegId} {m : BitVec 64} : Keeps ks s₀ (State.setBits s r m) := by
  unfold State.setBits
  try dsimp only
  repeat' with_reducible first
      | exact hk | exact Kind.Sub.mono rfl hs | apply State.setReg_keeps | assumption

theorem State.clearBits_keeps {ks : List Kind} {s₀ s : State} (hk : Keeps ks s₀ s) (hs : Kind.Sub [.regs] ks)
    {r : RegId} {m : BitVec 64} : Keeps ks s₀ (State.clearBits s r m) := by
  unfold State.clearBits
  try dsimp only
  repeat' with_reducible first
      | exact hk | exact Kind.Sub.mono rfl hs | apply State.setReg_keeps | assumption

theorem State.bump_keeps {ks : List Kind} {s₀ s : State} (hk : Keeps ks s₀ s) (hs : Kind.Sub [.regs] ks)
    {r : RegId} {n : Nat} {lo : Nat} {w : Nat} : Keeps ks s₀ (State.bump s r n lo w) := by
  unfold State.bump
  try dsimp only
  repeat' with_reducible first
      | exact hk | exact Kind.Sub.mono rfl hs | apply State.put_keeps | assumption

theorem State.perf_keeps {ks : List Kind} {s₀ s : State} (hk : Keeps ks s₀ s) (hs : Kind.Sub [.regs] ks)
    {r : RegId} {n : Nat} : Keeps ks s₀ (State.perf s r n) := by
  unfold State.perf
  try dsimp only
  repeat' with_reducible first
      | exact hk | exact Kind.Sub.mono rfl hs | apply State.setReg_keeps | assumption

theorem State.clearAll_keeps {ks : List Kind} {s₀ s : State} (hk : Keeps ks s₀ s) (hs : Kind.Sub [.regs] ks)
    {n : RegName} : Keeps ks s₀ (State.clearAll s n) := by
  unfold State.clearAll
  exact ⟨hk.part, hk.pending, fun w => SMap.wf_restrict (hk.regs w) fun k => !isKeyOf n k, hk.mem, hk.ecc, hk.after fun k hn => by cases k <;> first | exact absurd (hs _ (by decide)) hn | rfl⟩

theorem State.maskAll_keeps {ks : List Kind} {s₀ s : State} (hk : Keeps ks s₀ s) (hs : Kind.Sub [.regs] ks)
    {n : RegName} {m : BitVec 64} : Keeps ks s₀ (State.maskAll s n m) := by
  unfold State.maskAll
  refine ⟨hk.part, hk.pending, fun w => SMap.wf_filterMap (hk.regs w) _ fun e e' he => ?_, hk.mem, hk.ecc, hk.after fun k hn => by cases k <;> first | exact absurd (hs _ (by decide)) hn | rfl⟩
  split at he
  · split at he
    · cases he
    · next hne => cases he; exact ⟨rfl, fun _ => hne⟩
  · cases he; exact ⟨rfl, id⟩

theorem State.takeFree_keeps {ks : List Kind} {s₀ s : State} (hk : Keeps ks s₀ s) (hs : Kind.Sub [.free] ks)
    {n : Nat} : Keeps ks s₀ (State.takeFree s n) := by
  unfold State.takeFree
  try dsimp only
  repeat' with_reducible first
      | exact hk | exact Kind.Sub.mono rfl hs | assumption | apply Keeps.other | exact Or.inl (Kind.Sub.mem hs rfl) | exact Or.inr rfl

theorem State.placeLost_keeps {ks : List Kind} {s₀ s : State} (hk : Keeps ks s₀ s) (hs : Kind.Sub [.events] ks)
    {key : Nat} : Keeps ks s₀ (State.placeLost s key) := by
  unfold State.placeLost
  try dsimp only
  repeat' with_reducible first
      | exact hk | exact Kind.Sub.mono rfl hs | apply Keeps.ite | assumption | apply Keeps.other | exact Or.inl (Kind.Sub.mem hs rfl)
      | exact Or.inr rfl

theorem State.enterFifo_keeps {ks : List Kind} {s₀ s : State} (hk : Keeps ks s₀ s) (hs : Kind.Sub [.regs, .events] ks)
    {key : Nat} {e : Event} : Keeps ks s₀ (State.enterFifo s key e) := by
  unfold State.enterFifo
  try dsimp only
  repeat' with_reducible first
      | exact hk | exact Kind.Sub.mono rfl hs | apply Keeps.ite | apply State.setBits_keeps | apply State.bump_keeps | assumption
      | apply Keeps.other | exact Or.inl (Kind.Sub.mem hs rfl) | exact Or.inr rfl

theorem State.raise_keeps {ks : List Kind} {s₀ s : State} (hk : Keeps ks s₀ s) (hs : Kind.Sub [.regs, .events] ks)
    {code : Nat} {die : Nat} {unit : Nat} {handle : Nat} {arg16 : Nat} {arg64 : Nat} : Keeps ks s₀ (State.raise s code die unit handle arg16 arg64) := by
  unfold State.raise
  try dsimp only
  repeat' with_reducible first
      | exact hk | exact Kind.Sub.mono rfl hs | apply State.placeLost_keeps | apply State.enterFifo_keeps | assumption
      | apply Keeps.other | exact Or.inl (Kind.Sub.mem hs rfl) | exact Or.inr rfl

theorem State.amend_keeps {ks : List Kind} {s₀ s : State} (hk : Keeps ks s₀ s) (hs : Kind.Sub [.events] ks)
    {code : Nat} {die : Nat} {sel : Event → Bool} {f : Event → Event} : Keeps ks s₀ (State.amend s code die sel f) := by
  unfold State.amend
  try dsimp only
  repeat' with_reducible first
      | exact hk | exact Kind.Sub.mono rfl hs | apply Keeps.ite | assumption | apply Keeps.other | exact Or.inl (Kind.Sub.mem hs rfl)
      | exact Or.inr rfl

theorem State.poke_keeps {ks : List Kind} {s₀ s : State} (hk : Keeps ks s₀ s) (hs : Kind.Sub [.mem] ks)
    {a : Nat} {bs : List Byte} : Keeps ks s₀ (State.poke s a bs) := by
  unfold State.poke
  exact ⟨hk.part, hk.pending, hk.regs, fun w => SMap.wf_setRange (hk.mem w) _ _ _, hk.ecc, hk.after fun k hn => by cases k <;> first | exact absurd (hs _ (by decide)) hn | rfl⟩

theorem State.eccWrite_keeps {ks : List Kind} {s₀ s : State} (hk : Keeps ks s₀ s) (hs : Kind.Sub [.regs, .ecc] ks)
    {a : Nat} {n : Nat} {w : Nat} : Keeps ks s₀ (State.eccWrite s a n w) := by
  unfold State.eccWrite
  dsimp only
  split
  · refine State.put_keeps ?_ (Kind.Sub.mono rfl hs)
    exact ⟨hk.part, hk.pending, hk.regs, hk.mem, fun w => SMap.wf_set (hk.ecc w) _ _, hk.after fun k hn => by cases k <;> first | exact absurd (hs _ (by decide)) hn | rfl⟩
  · exact ⟨hk.part, hk.pending, hk.regs, hk.mem, fun w => SMap.wf_set (hk.ecc w) _ _, hk.after fun k hn => by cases k <;> first | exact absurd (hs _ (by decide)) hn | rfl⟩

theorem State.eccWrites_keeps {ks : List Kind} {s₀ s : State} (hk : Keeps ks s₀ s) (hs : Kind.Sub [.regs, .ecc] ks)
    {a : Nat} {n : Nat} {w : Nat} {k : Nat} : Keeps ks s₀ (State.eccWrites s a n w k) := by
  induction k with
  | zero => exact hk
  | succ k ih => exact State.eccWrite_keeps ih hs

theorem State.store_keeps {ks : List Kind} {s₀ s : State} (hk : Keeps ks s₀ s) (hs : Kind.Sub [.regs, .mem, .ecc] ks)
    {a : Nat} {bs : List Byte} : Keeps ks s₀ (State.store s a bs) := by
  unfold State.store
  try dsimp only
  repeat' with_reducible first
      | exact hk | exact Kind.Sub.mono rfl hs | apply Keeps.ite | apply State.poke_keeps | apply State.eccWrites_keeps | assumption

theorem State.putEcc_keeps {ks : List Kind} {s₀ s : State} (hk : Keeps ks s₀ s) (hs : Kind.Sub [.ecc] ks)
    {w : Nat} {es : List Nat} : Keeps ks s₀ (State.putEcc s w es) := by
  unfold State.putEcc
  exact ⟨hk.part, hk.pending, hk.regs, hk.mem, fun h => SMap.wf_setRange (hk.ecc h) _ _ _, hk.after fun k hn => by cases k <;> first | exact absurd (hs _ (by decide)) hn | rfl⟩

theorem State.poisonWord_keeps {ks : List Kind} {s₀ s : State} (hk : Keeps ks s₀ s) (hs : Kind.Sub [.ecc] ks)
    {w : Nat} : Keeps ks s₀ (State.poisonWord s w) := by
  unfold State.poisonWord
  exact ⟨hk.part, hk.pending, hk.regs, hk.mem, fun h => by dsimp only; exact SMap.wf_set (hk.ecc h) w 2, hk.after fun k hn => by cases k <;> first | exact absurd (hs _ (by decide)) hn | rfl⟩

theorem State.zeroFill_keeps {ks : List Kind} {s₀ s : State} (hk : Keeps ks s₀ s) (hs : Kind.Sub [.mem, .ecc] ks)
    {a : Nat} {n : Nat} : Keeps ks s₀ (State.zeroFill s a n) := by
  unfold State.zeroFill
  exact ⟨hk.part, hk.pending, hk.regs, fun w => SMap.wf_restrict (hk.mem w) fun k => decide (k < a ∨ a + n ≤ k),
    fun w => SMap.wf_restrict (hk.ecc w) fun k => decide (8 * k < a ∨ a + n ≤ 8 * k), hk.after fun k hn => by cases k <;> first | exact absurd (hs _ (by decide)) hn | rfl⟩

theorem State.setProg_keeps {ks : List Kind} {s₀ s : State} (hk : Keeps ks s₀ s) (hs : Kind.Sub [.progs] ks)
    {p : Nat} {g : Prog} : Keeps ks s₀ (State.setProg s p g) := by
  unfold State.setProg
  try dsimp only
  repeat' with_reducible first
      | exact hk | exact Kind.Sub.mono rfl hs | assumption | apply Keeps.other | exact Or.inl (Kind.Sub.mem hs rfl) | exact Or.inr rfl

theorem State.setCtx_keeps {ks : List Kind} {s₀ s : State} (hk : Keeps ks s₀ s) (hs : Kind.Sub [.progs] ks)
    {p : Nat} {c : Ctx} : Keeps ks s₀ (State.setCtx s p c) := by
  unfold State.setCtx
  try dsimp only
  repeat' with_reducible first
      | exact hk | exact Kind.Sub.mono rfl hs | apply State.setProg_keeps | assumption | apply Keeps.other
      | exact Or.inl (Kind.Sub.mem hs rfl) | exact Or.inr rfl

theorem State.setDom_keeps {ks : List Kind} {s₀ s : State} (hk : Keeps ks s₀ s) (hs : Kind.Sub [.regs] ks)
    {d : Nat} {on : Bool} : Keeps ks s₀ (State.setDom s d on) := by
  unfold State.setDom
  try dsimp only
  repeat' with_reducible first
      | exact hk | exact Kind.Sub.mono rfl hs | apply Keeps.ite | apply State.put_keeps | assumption

theorem State.setYard_keeps {ks : List Kind} {s₀ s : State} (hk : Keeps ks s₀ s) (hs : Kind.Sub [.yards] ks)
    {m : Nat} {y : Nat} {v : YardSt} : Keeps ks s₀ (State.setYard s m y v) := by
  unfold State.setYard
  try dsimp only
  repeat' with_reducible first
      | exact hk | exact Kind.Sub.mono rfl hs | assumption | apply Keeps.other | exact Or.inl (Kind.Sub.mem hs rfl) | exact Or.inr rfl

theorem State.setSail_keeps {ks : List Kind} {s₀ s : State} (hk : Keeps ks s₀ s) (hs : Kind.Sub [.yards] ks)
    {m : Nat} {y : Nat} {n : Nat} {v : SailSt} : Keeps ks s₀ (State.setSail s m y n v) := by
  unfold State.setSail
  try dsimp only
  repeat' with_reducible first
      | exact hk | exact Kind.Sub.mono rfl hs | apply State.setYard_keeps | assumption | apply Keeps.other
      | exact Or.inl (Kind.Sub.mem hs rfl) | exact Or.inr rfl

theorem State.setBoom_keeps {ks : List Kind} {s₀ s : State} (hk : Keeps ks s₀ s) (hs : Kind.Sub [.yards] ks)
    {m : Nat} {y : Nat} {n : Nat} {v : BoomSt} : Keeps ks s₀ (State.setBoom s m y n v) := by
  unfold State.setBoom
  try dsimp only
  repeat' with_reducible first
      | exact hk | exact Kind.Sub.mono rfl hs | apply State.setYard_keeps | assumption | apply Keeps.other
      | exact Or.inl (Kind.Sub.mem hs rfl) | exact Or.inr rfl

theorem State.setCond_keeps {ks : List Kind} {s₀ s : State} (hk : Keeps ks s₀ s) (hs : Kind.Sub [.progs] ks)
    {p : Nat} {n : Nat} : Keeps ks s₀ (State.setCond s p n) := by
  unfold State.setCond
  try dsimp only
  repeat' with_reducible first
      | exact hk | exact Kind.Sub.mono rfl hs | apply State.setCtx_keeps | assumption | apply Keeps.other
      | exact Or.inl (Kind.Sub.mem hs rfl) | exact Or.inr rfl

theorem State.firstRecord_keeps {ks : List Kind} {s₀ s : State} (hk : Keeps ks s₀ s) (hs : Kind.Sub [.regs] ks)
    {bitReg : RegId} {n : Nat} {write : State → State} (hf : ∀ s, Keeps ks s₀ s → Keeps ks s₀ (write s)) : Keeps ks s₀ (State.firstRecord s bitReg n write) := by
  unfold State.firstRecord
  try dsimp only
  repeat' with_reducible first
      | exact hk | exact Kind.Sub.mono rfl hs | apply hf | apply Keeps.ite | apply State.setBits_keeps | assumption

theorem State.faultOn_keeps {ks : List Kind} {s₀ s : State} (hk : Keeps ks s₀ s) (hs : Kind.Sub [.regs, .progs] ks)
    {p : Nat} {m : Nat} {kind : Nat} {idx : Nat} : Keeps ks s₀ (State.faultOn s p m kind idx) := by
  unfold State.faultOn
  try dsimp only
  repeat' with_reducible first
      | exact hk | exact Kind.Sub.mono rfl hs | apply State.put_keeps | apply State.setCond_keeps
      | refine State.firstRecord_keeps ?_ (Kind.Sub.mono rfl hs) (fun s hk => ?_) | assumption

theorem State.unitFault_keeps {ks : List Kind} {s₀ s : State} (hk : Keeps ks s₀ s) (hs : Kind.Sub [.regs, .progs] ks)
    {p : Nat} : Keeps ks s₀ (State.unitFault s p) := by
  unfold State.unitFault
  try dsimp only
  repeat' with_reducible first
      | exact hk | exact Kind.Sub.mono rfl hs | apply State.setCond_keeps | apply State.faultOn_keeps
      | refine Keeps.foldl (fun s x hk => ?_) _ ?_ | assumption

theorem State.unitFaults_keeps {ks : List Kind} {s₀ s : State} (hk : Keeps ks s₀ s) (hs : Kind.Sub [.regs, .progs] ks)
    {ps : List Nat} : Keeps ks s₀ (State.unitFaults s ps) := by
  unfold State.unitFaults
  try dsimp only
  repeat' with_reducible first
      | exact hk | exact Kind.Sub.mono rfl hs | apply State.unitFault_keeps | refine Keeps.foldl (fun s x hk => ?_) _ ?_ | assumption

theorem State.askOut_keeps {ks : List Kind} {s₀ s : State} (hk : Keeps ks s₀ s) (hs : Kind.Sub [.power] ks)
    {unit : Nat} : Keeps ks s₀ (State.askOut s unit) := by
  unfold State.askOut
  try dsimp only
  repeat' with_reducible first
      | exact hk | exact Kind.Sub.mono rfl hs | apply Keeps.ite | assumption | apply Keeps.other | exact Or.inl (Kind.Sub.mem hs rfl)
      | exact Or.inr rfl

end Sys2Proof.Machine
end

