-- ==== Sys2Proof/Laws/KeepsFlags.lean ====
section
/-! SUPPORT. The operations of Sys2Proof/Machine/Flags.lean keep (see Sys2Proof/Laws/KeepsBase.lean). -/

namespace Sys2Proof.Machine

theorem State.bumpLast_keeps {ks : List Kind} {s₀ s : State} (hk : Keeps ks s₀ s) (hs : Kind.Sub [.regs] ks)
    {p : Nat} {m : Nat} {y : Nat} {sl : Nat} {slot : Nat} {causes : Nat} : Keeps ks s₀ (State.bumpLast s p m y sl slot causes) := by
  unfold State.bumpLast
  try dsimp only
  repeat' with_reducible first
      | exact hk | exact Kind.Sub.mono rfl hs | apply Keeps.ite | apply State.setReg_keeps | assumption

theorem State.scaleFirst_keeps {ks : List Kind} {s₀ s : State} (hk : Keeps ks s₀ s) (hs : Kind.Sub [.regs, .progs, .events] ks)
    {p : Nat} {m : Nat} {y : Nat} {sl : Nat} {slot : Nat} {causes : Nat} : Keeps ks s₀ (State.scaleFirst s p m y sl slot causes) := by
  unfold State.scaleFirst
  try dsimp only
  repeat' with_reducible first
      | exact hk | exact Kind.Sub.mono rfl hs | apply State.raise_keeps | apply State.setCtx_keeps | apply State.bumpLast_keeps
      | assumption | apply Keeps.other | exact Or.inl (Kind.Sub.mem hs rfl) | exact Or.inr rfl

theorem State.scaleJoin_keeps {ks : List Kind} {s₀ s : State} (hk : Keeps ks s₀ s) (hs : Kind.Sub [.regs, .progs, .events] ks)
    {p : Nat} {m : Nat} {y : Nat} {sl : Nat} {slot : Nat} {causes : Nat} {e : ScaleMark} : Keeps ks s₀ (State.scaleJoin s p m y sl slot causes e) := by
  unfold State.scaleJoin
  try dsimp only
  repeat' with_reducible first
      | exact hk | exact Kind.Sub.mono rfl hs | apply Keeps.ite | apply State.amend_keeps | apply State.setCtx_keeps
      | apply State.bumpLast_keeps | assumption | apply Keeps.other | exact Or.inl (Kind.Sub.mem hs rfl) | exact Or.inr rfl

theorem State.scaleRange_keeps {ks : List Kind} {s₀ s : State} (hk : Keeps ks s₀ s) (hs : Kind.Sub [.regs, .progs, .events] ks)
    {p : Nat} {m : Nat} {y : Nat} {sl : Nat} {slot : Nat} {causes : Nat} : Keeps ks s₀ (State.scaleRange s p m y sl slot causes) := by
  unfold State.scaleRange
  try dsimp only
  repeat' with_reducible first
      | exact hk | exact Kind.Sub.mono rfl hs | apply Keeps.ite | apply State.scaleFirst_keeps | apply State.scaleJoin_keeps | assumption
      | split

theorem State.meetCauses_keeps {ks : List Kind} {s₀ s : State} (hk : Keeps ks s₀ s) (hs : Kind.Sub [.regs, .progs, .events] ks)
    {p : Nat} {m : Nat} {y : Nat} {sl : Nat} {slot : Nat} {causes : Nat} : Keeps ks s₀ (State.meetCauses s p m y sl slot causes) := by
  unfold State.meetCauses
  try dsimp only
  repeat' with_reducible first
      | exact hk | exact Kind.Sub.mono rfl hs | apply Keeps.ite | apply State.setBits_keeps | apply State.scaleRange_keeps | assumption

theorem State.countInto_keeps {ks : List Kind} {s₀ s : State} (hk : Keeps ks s₀ s) (hs : Kind.Sub [.regs] ks)
    {m : Nat} {y : Nat} {slot : Nat} {sat : Nat} {rtz : Nat} : Keeps ks s₀ (State.countInto s m y slot sat rtz) := by
  unfold State.countInto
  try dsimp only
  repeat' with_reducible first
      | exact hk | exact Kind.Sub.mono rfl hs | apply State.bump_keeps | assumption

end Sys2Proof.Machine
end

