-- ==== Sys2Proof/Laws/KeepsOperands.lean ====
section
/-! SUPPORT. The operations of Sys2Proof/Machine/Operands.lean keep (see Sys2Proof/Laws/KeepsBase.lean). -/

namespace Sys2Proof.Machine

theorem State.setRegs_keeps {ks : List Kind} {s₀ s : State} (hk : Keeps ks s₀ s) (hs : Kind.Sub [.regs, .progs] ks)
    {p : Nat} {g : ProgRegs} : Keeps ks s₀ (State.setRegs s p g) := by
  unfold State.setRegs
  try dsimp only
  repeat' with_reducible first
      | exact hk | exact Kind.Sub.mono rfl hs | apply State.setCtx_keeps | assumption | apply Keeps.other
      | exact Or.inl (Kind.Sub.mem hs rfl) | exact Or.inr rfl

theorem State.setSc_keeps {ks : List Kind} {s₀ s : State} (hk : Keeps ks s₀ s) (hs : Kind.Sub [.regs, .progs] ks)
    {p : Nat} {r : BitVec 5} {v : Word} : Keeps ks s₀ (State.setSc s p r v) := by
  unfold State.setSc
  try dsimp only
  repeat' with_reducible first
      | exact hk | exact Kind.Sub.mono rfl hs | apply State.setRegs_keeps | assumption

theorem State.setAd_keeps {ks : List Kind} {s₀ s : State} (hk : Keeps ks s₀ s) (hs : Kind.Sub [.regs, .progs] ks)
    {p : Nat} {r : BitVec 4} {v : Word} : Keeps ks s₀ (State.setAd s p r v) := by
  unfold State.setAd
  try dsimp only
  repeat' with_reducible first
      | exact hk | exact Kind.Sub.mono rfl hs | apply State.setRegs_keeps | assumption

theorem State.setPd_keeps {ks : List Kind} {s₀ s : State} (hk : Keeps ks s₀ s) (hs : Kind.Sub [.regs, .progs] ks)
    {p : Nat} {r : BitVec 3} {v : Bool} : Keeps ks s₀ (State.setPd s p r v) := by
  unfold State.setPd
  try dsimp only
  repeat' with_reducible first
      | exact hk | exact Kind.Sub.mono rfl hs | apply State.setRegs_keeps | assumption

theorem State.advance_keeps {ks : List Kind} {s₀ s : State} (hk : Keeps ks s₀ s) (hs : Kind.Sub [.progs] ks)
    {p : Nat} : Keeps ks s₀ (State.advance s p) := by
  unfold State.advance
  try dsimp only
  repeat' with_reducible first
      | exact hk | exact Kind.Sub.mono rfl hs | apply State.setCtx_keeps | assumption | apply Keeps.other
      | exact Or.inl (Kind.Sub.mem hs rfl) | exact Or.inr rfl

theorem State.usedCycle_keeps {ks : List Kind} {s₀ s : State} (hk : Keeps ks s₀ s) (hs : Kind.Sub [.progs] ks)
    {p : Nat} : Keeps ks s₀ (State.usedCycle s p) := by
  unfold State.usedCycle
  try dsimp only
  repeat' with_reducible first
      | exact hk | exact Kind.Sub.mono rfl hs | apply State.setCtx_keeps | assumption | apply Keeps.other
      | exact Or.inl (Kind.Sub.mem hs rfl) | exact Or.inr rfl

theorem State.unblock_keeps {ks : List Kind} {s₀ s : State} (hk : Keeps ks s₀ s) (hs : Kind.Sub [.progs] ks)
    {p : Nat} : Keeps ks s₀ (State.unblock s p) := by
  unfold State.unblock
  try dsimp only
  repeat' with_reducible first
      | exact hk | exact Kind.Sub.mono rfl hs | apply State.setCtx_keeps | assumption | apply Keeps.other
      | exact Or.inl (Kind.Sub.mem hs rfl) | exact Or.inr rfl

theorem State.block_keeps {ks : List Kind} {s₀ s : State} (hk : Keeps ks s₀ s) (hs : Kind.Sub [.progs] ks)
    {p : Nat} {i : Instr} {spec : Bool} : Keeps ks s₀ (State.block s p i spec) := by
  unfold State.block
  try dsimp only
  repeat' with_reducible first
      | exact hk | exact Kind.Sub.mono rfl hs | apply Keeps.ite | apply State.setCtx_keeps | assumption | apply Keeps.other
      | exact Or.inl (Kind.Sub.mem hs rfl) | exact Or.inr rfl

theorem State.countStall_keeps {ks : List Kind} {s₀ s : State} (hk : Keeps ks s₀ s) (hs : Kind.Sub [.regs] ks)
    {p : Nat} : Keeps ks s₀ (State.countStall s p) := by
  unfold State.countStall
  try dsimp only
  repeat' with_reducible first
      | exact hk | exact Kind.Sub.mono rfl hs | apply Keeps.ite | apply State.perf_keeps | assumption

theorem State.ctlEvent_keeps {ks : List Kind} {s₀ s : State} (hk : Keeps ks s₀ s) (hs : Kind.Sub [.regs, .events] ks)
    {p : Nat} {code : Nat} {idx : Nat} : Keeps ks s₀ (State.ctlEvent s p code idx) := by
  unfold State.ctlEvent
  try dsimp only
  repeat' with_reducible first
      | exact hk | exact Kind.Sub.mono rfl hs | apply State.raise_keeps | assumption

theorem State.stopIssue_keeps {ks : List Kind} {s₀ s : State} (hk : Keeps ks s₀ s) (hs : Kind.Sub [.progs] ks)
    {p : Nat} : Keeps ks s₀ (State.stopIssue s p) := by
  unfold State.stopIssue
  try dsimp only
  repeat' with_reducible first
      | exact hk | exact Kind.Sub.mono rfl hs | apply State.setCtx_keeps | assumption | apply Keeps.other
      | exact Or.inl (Kind.Sub.mem hs rfl) | exact Or.inr rfl

theorem State.imemFault_keeps {ks : List Kind} {s₀ s : State} (hk : Keeps ks s₀ s) (hs : Kind.Sub [.regs, .progs, .events] ks)
    {p : Nat} : Keeps ks s₀ (State.imemFault s p) := by
  unfold State.imemFault
  try dsimp only
  repeat' with_reducible first
      | exact hk | exact Kind.Sub.mono rfl hs | apply State.setBits_keeps | apply State.faultOn_keeps | apply State.ctlEvent_keeps
      | apply State.stopIssue_keeps | assumption

theorem State.imemCorrect_keeps {ks : List Kind} {s₀ s : State} (hk : Keeps ks s₀ s) (hs : Kind.Sub [.regs] ks)
    {p : Nat} : Keeps ks s₀ (State.imemCorrect s p) := by
  unfold State.imemCorrect
  try dsimp only
  repeat' with_reducible first
      | exact hk | exact Kind.Sub.mono rfl hs | apply Keeps.ite | apply State.setBits_keeps | apply State.bump_keeps | assumption

theorem State.issueAt_keeps {ks : List Kind} {s₀ s : State} (hk : Keeps ks s₀ s) (hs : Kind.Sub [.regs, .progs, .events] ks)
    {p : Nat} {g : Guard} {i : Instr} {uses : List Nat} {eff : State → State} (hf : ∀ s, Keeps ks s₀ s → Keeps ks s₀ (eff s)) : Keeps ks s₀ (State.issueAt s p g i uses eff) := by
  unfold State.issueAt
  try dsimp only
  repeat' with_reducible first
      | exact hk | exact Kind.Sub.mono rfl hs | apply hf | apply Keeps.ite | apply State.advance_keeps | apply State.unblock_keeps
      | apply State.block_keeps | apply State.imemFault_keeps | apply State.imemCorrect_keeps | assumption

theorem State.issue_keeps {ks : List Kind} {s₀ s : State} (hk : Keeps ks s₀ s) (hs : Kind.Sub [.regs, .progs, .events] ks)
    {p : Nat} {g : Guard} {i : Instr} {uses : List Nat} {eff : State → State} (hf : ∀ s, Keeps ks s₀ s → Keeps ks s₀ (eff s)) : Keeps ks s₀ (State.issue s p g i uses eff) := by
  unfold State.issue
  try dsimp only
  repeat' with_reducible first
      | exact hk | exact Kind.Sub.mono rfl hs | apply hf | apply State.advance_keeps
      | refine State.issueAt_keeps ?_ (Kind.Sub.mono rfl hs) (fun s hk => ?_) | assumption

theorem State.issueFirm_keeps {ks : List Kind} {s₀ s : State} (hk : Keeps ks s₀ s) (hs : Kind.Sub [.regs, .progs, .events] ks)
    {p : Nat} {g : Guard} {i : Instr} {eff : State → State} (hf : ∀ s, Keeps ks s₀ s → Keeps ks s₀ (eff s)) : Keeps ks s₀ (State.issueFirm s p g i eff) := by
  unfold State.issueFirm
  try dsimp only
  repeat' with_reducible first
      | exact hk | exact Kind.Sub.mono rfl hs | apply hf | apply Keeps.ite | apply State.block_keeps | apply State.imemCorrect_keeps
      | refine State.issueAt_keeps ?_ (Kind.Sub.mono rfl hs) (fun s hk => ?_) | assumption

theorem State.countCmd_keeps {ks : List Kind} {s₀ s : State} (hk : Keeps ks s₀ s) (hs : Kind.Sub [.progs] ks)
    {p : Nat} : Keeps ks s₀ (State.countCmd s p) := by
  unfold State.countCmd
  try dsimp only
  repeat' with_reducible first
      | exact hk | exact Kind.Sub.mono rfl hs | apply State.setCtx_keeps | assumption | split | apply Keeps.other
      | exact Or.inl (Kind.Sub.mem hs rfl) | exact Or.inr rfl

theorem State.issueCmd_keeps {ks : List Kind} {s₀ s : State} (hk : Keeps ks s₀ s) (hs : Kind.Sub [.regs, .progs, .events] ks)
    {p : Nat} {g : Guard} {i : Instr} {uses : List Nat} {eff : State → State} (hf : ∀ s, Keeps ks s₀ s → Keeps ks s₀ (eff s)) : Keeps ks s₀ (State.issueCmd s p g i uses eff) := by
  unfold State.issueCmd
  try dsimp only
  repeat' with_reducible first
      | exact hk | exact Kind.Sub.mono rfl hs | apply hf | apply Keeps.ite | apply State.block_keeps | apply State.imemCorrect_keeps
      | refine State.issueAt_keeps ?_ (Kind.Sub.mono rfl hs) (fun s hk => ?_) | apply State.countCmd_keeps | assumption

theorem State.setQueue_keeps {ks : List Kind} {s₀ s : State} (hk : Keeps ks s₀ s) (hs : Kind.Sub [.yards] ks)
    {m : Nat} {y : Nat} {q : UnitQ} {l : List EngCmd} : Keeps ks s₀ (State.setQueue s m y q l) := by
  unfold State.setQueue
  try dsimp only
  repeat' with_reducible first
      | exact hk | exact Kind.Sub.mono rfl hs | apply State.setYard_keeps | assumption | apply Keeps.other
      | exact Or.inl (Kind.Sub.mem hs rfl) | exact Or.inr rfl

theorem State.enqueue_keeps {ks : List Kind} {s₀ s : State} (hk : Keeps ks s₀ s) (hs : Kind.Sub [.yards] ks)
    {m : Nat} {y : Nat} {q : UnitQ} {c : EngCmd} : Keeps ks s₀ (State.enqueue s m y q c) := by
  unfold State.enqueue
  try dsimp only
  repeat' with_reducible first
      | exact hk | exact Kind.Sub.mono rfl hs | apply State.setQueue_keeps | assumption

theorem State.issueInto_keeps {ks : List Kind} {s₀ s : State} (hk : Keeps ks s₀ s) (hs : Kind.Sub [.progs, .yards] ks)
    {m : Nat} {y : Nat} {q : UnitQ} {c : EngCmd} : Keeps ks s₀ (State.issueInto s m y q c) := by
  unfold State.issueInto
  try dsimp only
  repeat' with_reducible first
      | exact hk | exact Kind.Sub.mono rfl hs | apply State.setCtx_keeps | apply State.advance_keeps | apply State.enqueue_keeps
      | assumption | split | apply Keeps.other | exact Or.inl (Kind.Sub.mem hs rfl) | exact Or.inr rfl

theorem State.enterQueue_keeps {ks : List Kind} {s₀ s : State} (hk : Keeps ks s₀ s) (hs : Kind.Sub [.progs, .yards] ks)
    {p : Nat} {m : Nat} {y : Nat} {q : UnitQ} {op : EngOp} : Keeps ks s₀ (State.enterQueue s p m y q op) := by
  unfold State.enterQueue
  try dsimp only
  repeat' with_reducible first
      | exact hk | exact Kind.Sub.mono rfl hs | apply Keeps.ite | apply State.setCtx_keeps | apply State.issueInto_keeps | assumption
      | apply Keeps.other | exact Or.inl (Kind.Sub.mem hs rfl) | exact Or.inr rfl

end Sys2Proof.Machine
end

