-- ==== Sys2Proof/Laws/KeepsTensors.lean ====
section
/-! SUPPORT. The operations of Sys2Proof/Machine/Tensors.lean keep (see Sys2Proof/Laws/KeepsBase.lean). -/

namespace Sys2Proof.Machine

theorem State.uncorrAt_keeps {ks : List Kind} {s₀ s : State} (hk : Keeps ks s₀ s) (hs : Kind.Sub [.regs, .yards, .events, .power] ks)
    {w : Nat} {handle : Nat} {port : Nat} {n : Nat} : Keeps ks s₀ (State.uncorrAt s w handle port n) := by
  unfold State.uncorrAt
  try dsimp only
  repeat' with_reducible first
      | exact hk | exact Kind.Sub.mono rfl hs | apply Keeps.ite | apply State.put_keeps | apply State.bump_keeps
      | apply State.raise_keeps | apply State.setYard_keeps | refine State.firstRecord_keeps ?_ (Kind.Sub.mono rfl hs) (fun s hk => ?_)
      | apply State.askOut_keeps | assumption | split | apply Keeps.other | exact Or.inl (Kind.Sub.mem hs rfl) | exact Or.inr rfl

theorem State.corrAt_keeps {ks : List Kind} {s₀ s : State} (hk : Keeps ks s₀ s) (hs : Kind.Sub [.regs, .events] ks)
    {w : Nat} {n : Nat} : Keeps ks s₀ (State.corrAt s w n) := by
  unfold State.corrAt
  try dsimp only
  repeat' with_reducible first
      | exact hk | exact Kind.Sub.mono rfl hs | apply Keeps.ite | apply State.setBits_keeps | apply State.bump_keeps
      | apply State.raise_keeps | assumption | split

theorem State.readCheck_keeps {ks : List Kind} {s₀ s : State} (hk : Keeps ks s₀ s) (hs : Kind.Sub [.regs, .yards, .events, .power] ks)
    {a : Nat} {n : Nat} {handle : Nat} {port : Nat} : Keeps ks s₀ (State.readCheck s a n handle port) := by
  unfold State.readCheck
  try dsimp only
  repeat' with_reducible first
      | exact hk | exact Kind.Sub.mono rfl hs | apply State.uncorrAt_keeps | apply State.corrAt_keeps | assumption | split

theorem State.progRead_keeps {ks : List Kind} {s₀ s : State} (hk : Keeps ks s₀ s) (hs : Kind.Sub [.regs, .progs, .yards, .events, .power] ks)
    {p : Nat} {a : Nat} {n : Nat} {port : Nat} : Keeps ks s₀ (State.progRead s p a n port) := by
  unfold State.progRead
  try dsimp only
  repeat' with_reducible first
      | exact hk | exact Kind.Sub.mono rfl hs | apply Keeps.ite | apply State.unitFault_keeps | apply State.readCheck_keeps | assumption

theorem State.readWhere_keeps {ks : List Kind} {s₀ s : State} (hk : Keeps ks s₀ s) (hs : Kind.Sub [.regs, .progs, .yards, .events, .power] ks)
    {p : Nat} {port : Nat} {v : View} {need : Nat → Nat → Bool} : Keeps ks s₀ (State.readWhere s p port v need) := by
  unfold State.readWhere
  try dsimp only
  repeat' with_reducible first
      | exact hk | exact Kind.Sub.mono rfl hs | apply Keeps.ite | apply State.progRead_keeps | refine Keeps.foldl (fun s x hk => ?_) _ ?_
      | assumption

theorem State.readAll_keeps {ks : List Kind} {s₀ s : State} (hk : Keeps ks s₀ s) (hs : Kind.Sub [.regs, .progs, .yards, .events, .power] ks)
    {p : Nat} {port : Nat} {v : View} : Keeps ks s₀ (State.readAll s p port v) := by
  unfold State.readAll
  try dsimp only
  repeat' with_reducible first
      | exact hk | exact Kind.Sub.mono rfl hs | apply State.readWhere_keeps | assumption

theorem State.setDerived_keeps {ks : List Kind} {s₀ s : State} (hk : Keeps ks s₀ s) (hs : Kind.Sub [.progs] ks)
    {p : Nat} {v : View} {row : Nat} {k_ : Nat} {d : BitVec 16} : Keeps ks s₀ (State.setDerived s p v row k_ d) := by
  unfold State.setDerived
  try dsimp only
  repeat' with_reducible first
      | exact hk | exact Kind.Sub.mono rfl hs | apply State.setProg_keeps | assumption | apply Keeps.other
      | exact Or.inl (Kind.Sub.mem hs rfl) | exact Or.inr rfl

theorem State.copyPlace_keeps {ks : List Kind} {s₀ s : State} (hk : Keeps ks s₀ s) (hs : Kind.Sub [.regs, .mem, .ecc, .progs] ks)
    {p : Nat} {tid : Nat} {i : Nat} {j : Nat} : Keeps ks s₀ (State.copyPlace s p tid i j) := by
  unfold State.copyPlace
  try dsimp only
  repeat' with_reducible first
      | exact hk | exact Kind.Sub.mono rfl hs | apply Keeps.ite | apply State.store_keeps | apply State.setDerived_keeps
      | refine Keeps.foldl (fun s x hk => ?_) _ ?_ | assumption

theorem State.openShadow_keeps {ks : List Kind} {s₀ s : State} (hk : Keeps ks s₀ s) (hs : Kind.Sub [.regs, .mem, .ecc, .progs] ks)
    {p : Nat} {tid : Nat} {spec : Nat} : Keeps ks s₀ (State.openShadow s p tid spec) := by
  unfold State.openShadow
  try dsimp only
  repeat' with_reducible first
      | exact hk | exact Kind.Sub.mono rfl hs | apply Keeps.ite | apply State.setProg_keeps | apply State.copyPlace_keeps | assumption
      | apply Keeps.other | exact Or.inl (Kind.Sub.mem hs rfl) | exact Or.inr rfl

end Sys2Proof.Machine
end

