-- ==== Sys2Proof/Laws/KeepsBanks.lean ====
section
/-! SUPPORT. The operations of Sys2Proof/Machine/Banks.lean keep (see Sys2Proof/Laws/KeepsBase.lean). -/

namespace Sys2Proof.Machine

theorem State.undo_keeps {ks : List Kind} {s₀ s : State} (hk : Keeps ks s₀ s) (hs : Kind.Sub [.mem, .ecc] ks)
    {m : Nat} {y : Nat} {b : Access} : Keeps ks s₀ (State.undo s m y b) := by
  unfold State.undo
  try dsimp only
  repeat' with_reducible first
      | exact hk | exact Kind.Sub.mono rfl hs | apply State.poke_keeps | apply State.putEcc_keeps | assumption | split

theorem State.conflictRecord_keeps {ks : List Kind} {s₀ s : State} (hk : Keeps ks s₀ s) (hs : Kind.Sub [.regs, .yards] ks)
    {m : Nat} {y : Nat} {won : Access} {lost : Access} : Keeps ks s₀ (State.conflictRecord s m y won lost) := by
  unfold State.conflictRecord
  try dsimp only
  repeat' with_reducible first
      | exact hk | exact Kind.Sub.mono rfl hs | apply Keeps.ite | apply State.put_keeps | apply State.setYard_keeps | assumption | split
      | apply Keeps.other | exact Or.inl (Kind.Sub.mem hs rfl) | exact Or.inr rfl

theorem State.conflictEvent_keeps {ks : List Kind} {s₀ s : State} (hk : Keeps ks s₀ s) (hs : Kind.Sub [.regs, .yards, .events] ks)
    {m : Nat} {y : Nat} {lost : Access} : Keeps ks s₀ (State.conflictEvent s m y lost) := by
  unfold State.conflictEvent
  try dsimp only
  repeat' with_reducible first
      | exact hk | exact Kind.Sub.mono rfl hs | apply Keeps.ite | apply State.raise_keeps | apply State.amend_keeps
      | apply State.setYard_keeps | assumption | split | apply Keeps.other | exact Or.inl (Kind.Sub.mem hs rfl) | exact Or.inr rfl

theorem State.bankConflict_keeps {ks : List Kind} {s₀ s : State} (hk : Keeps ks s₀ s) (hs : Kind.Sub [.regs, .progs, .yards, .events] ks)
    {m : Nat} {y : Nat} {won : Access} {all : List Access} : Keeps ks s₀ (State.bankConflict s m y won all) := by
  unfold State.bankConflict
  try dsimp only
  repeat' with_reducible first
      | exact hk | exact Kind.Sub.mono rfl hs | apply Keeps.ite | apply State.unitFaults_keeps | apply State.conflictRecord_keeps
      | apply State.conflictEvent_keeps | refine Keeps.foldl (fun s x hk => ?_) _ ?_ | assumption

theorem State.makeWrite_keeps {ks : List Kind} {s₀ s : State} (hk : Keeps ks s₀ s) (hs : Kind.Sub [.regs, .mem, .ecc] ks)
    {m : Nat} {y : Nat} {a : Access} {w : Option (List Byte)} : Keeps ks s₀ (State.makeWrite s m y a w).1 := by
  unfold State.makeWrite
  try dsimp only
  repeat' with_reducible first
      | exact hk | exact Kind.Sub.mono rfl hs | apply State.store_keeps | assumption | split | split | dsimp only | apply Keeps.other
      | exact Or.inl (Kind.Sub.mem hs rfl) | exact Or.inr rfl

theorem State.bankAccess_keeps {ks : List Kind} {s₀ s : State} (hk : Keeps ks s₀ s) (hs : Kind.Sub [.regs, .mem, .ecc, .progs, .yards, .events] ks)
    {m : Nat} {y : Nat} {a : Access} {w : Option (List Byte)} : Keeps ks s₀ (State.bankAccess s m y a w).1 := by
  unfold State.bankAccess
  try dsimp only
  repeat' with_reducible first
      | exact hk | exact Kind.Sub.mono rfl hs | apply State.setYard_keeps | apply State.undo_keeps | apply State.bankConflict_keeps
      | apply State.makeWrite_keeps | refine Keeps.foldl (fun s x hk => ?_) _ ?_ | assumption
      | exact Keeps.ofFst (State.makeWrite_keeps hk (Kind.Sub.mono rfl hs)) (by assumption) | split | split | dsimp only
      | apply Keeps.other | exact Or.inl (Kind.Sub.mem hs rfl) | exact Or.inr rfl

theorem State.bankReads_keeps {ks : List Kind} {s₀ s : State} (hk : Keeps ks s₀ s) (hs : Kind.Sub [.regs, .mem, .ecc, .progs, .yards, .events] ks)
    {m : Nat} {y : Nat} {as : List Access} : Keeps ks s₀ (State.bankReads s m y as) := by
  unfold State.bankReads
  try dsimp only
  repeat' with_reducible first
      | exact hk | exact Kind.Sub.mono rfl hs | apply State.bankAccess_keeps | refine Keeps.foldl (fun s x hk => ?_) _ ?_
      | refine Keeps.foldlFst (fun q x hk => ?_) _ ?_ | assumption
      | exact Keeps.ofFst (State.bankAccess_keeps hk (Kind.Sub.mono rfl hs)) (by assumption)

theorem State.lineReads_keeps {ks : List Kind} {s₀ s : State} (hk : Keeps ks s₀ s) (hs : Kind.Sub [.regs, .mem, .ecc, .progs, .yards, .events, .power] ks)
    {p : Nat} {m : Nat} {y : Nat} {port : Nat} {a : Nat} {n : Nat} : Keeps ks s₀ (State.lineReads s p m y port a n) := by
  unfold State.lineReads
  try dsimp only
  repeat' with_reducible first
      | exact hk | exact Kind.Sub.mono rfl hs | apply Keeps.ite | apply State.progRead_keeps | apply State.bankReads_keeps | assumption
      | split

theorem State.partialCheck_keeps {ks : List Kind} {s₀ s : State} (hk : Keeps ks s₀ s) (hs : Kind.Sub [.regs, .progs, .yards, .events, .power] ks)
    {a : Nat} {n : Nat} {port : Nat} {prog : Option Nat} : Keeps ks s₀ (State.partialCheck s a n port prog) := by
  unfold State.partialCheck
  try dsimp only
  repeat' with_reducible first
      | exact hk | exact Kind.Sub.mono rfl hs | apply State.unitFault_keeps | apply State.uncorrAt_keeps | assumption | split
      | apply Keeps.other | exact Or.inl (Kind.Sub.mem hs rfl) | exact Or.inr rfl

theorem State.checkedStore_keeps {ks : List Kind} {s₀ s : State} (hk : Keeps ks s₀ s) (hs : Kind.Sub [.regs, .mem, .ecc, .progs, .yards, .events, .power] ks)
    {a : Nat} {bs : List Byte} {port : Nat} {prog : Option Nat} : Keeps ks s₀ (State.checkedStore s a bs port prog) := by
  unfold State.checkedStore
  try dsimp only
  repeat' with_reducible first
      | exact hk | exact Kind.Sub.mono rfl hs | apply State.store_keeps | apply State.partialCheck_keeps | assumption

theorem State.yardWrite_keeps {ks : List Kind} {s₀ s : State} (hk : Keeps ks s₀ s) (hs : Kind.Sub [.regs, .mem, .ecc, .progs, .yards, .events, .power] ks)
    {m : Nat} {y : Nat} {off : Nat} {bs : List Byte} {port : Nat} {prog : Option Nat} {remote : Option Nat} : Keeps ks s₀ (State.yardWrite s m y off bs port prog remote) := by
  unfold State.yardWrite
  try dsimp only
  repeat' with_reducible first
      | exact hk | exact Kind.Sub.mono rfl hs | apply Keeps.ite | apply State.setYard_keeps | apply State.bankAccess_keeps
      | apply State.partialCheck_keeps | assumption
      | exact Keeps.ofFst (State.bankAccess_keeps hk (Kind.Sub.mono rfl hs)) (by assumption) | split | apply Keeps.other
      | exact Or.inl (Kind.Sub.mem hs rfl) | exact Or.inr rfl

theorem State.partWrite_keeps {ks : List Kind} {s₀ s : State} (hk : Keeps ks s₀ s) (hs : Kind.Sub [.regs, .mem, .ecc, .progs, .yards, .events] ks)
    {m : Nat} {y : Nat} {w : PartWrite} : Keeps ks s₀ (State.partWrite s m y w) := by
  unfold State.partWrite
  try dsimp only
  repeat' with_reducible first
      | exact hk | exact Kind.Sub.mono rfl hs | apply Keeps.ite | apply State.poisonWord_keeps | apply State.bankAccess_keeps
      | refine Keeps.foldl (fun s x hk => ?_) _ ?_ | assumption
      | exact Keeps.ofFst (State.bankAccess_keeps hk (Kind.Sub.mono rfl hs)) (by assumption) | split

theorem State.partStep_keeps {ks : List Kind} {s₀ s : State} (hk : Keeps ks s₀ s) (hs : Kind.Sub [.regs, .mem, .ecc, .progs, .yards, .events] ks)
    {m : Nat} {y : Nat} : Keeps ks s₀ (State.partStep s m y) := by
  unfold State.partStep
  try dsimp only
  repeat' with_reducible first
      | exact hk | exact Kind.Sub.mono rfl hs | apply State.setYard_keeps | apply State.partWrite_keeps
      | refine Keeps.foldl (fun s x hk => ?_) _ ?_ | assumption | apply Keeps.other | exact Or.inl (Kind.Sub.mem hs rfl)
      | exact Or.inr rfl

theorem State.portWrite_keeps {ks : List Kind} {s₀ s : State} (hk : Keeps ks s₀ s) (hs : Kind.Sub [.regs, .mem, .ecc, .progs, .yards, .events, .power] ks)
    {p : Nat} {port : Nat} {a : Nat} {bs : List Byte} : Keeps ks s₀ (State.portWrite s p port a bs) := by
  unfold State.portWrite
  try dsimp only
  repeat' with_reducible first
      | exact hk | exact Kind.Sub.mono rfl hs | apply State.store_keeps | apply State.yardWrite_keeps
      | refine Keeps.foldl (fun s x hk => ?_) _ ?_ | assumption | split

end Sys2Proof.Machine
end

