-- ==== Sys2Proof/Laws/KeepsAccess.lean ====
section
/-! SUPPORT. The operations of Sys2Proof/Machine/Access.lean keep (see Sys2Proof/Laws/KeepsBase.lean). -/

namespace Sys2Proof.Machine

theorem State.setHeld_keeps {ks : List Kind} {s₀ s : State} (hk : Keeps ks s₀ s) (hs : Kind.Sub [.hold] ks)
    {rq : Requester} {off : Nat} {v : Option (BitVec 32)} : Keeps ks s₀ (State.setHeld s rq off v) := by
  unfold State.setHeld
  try dsimp only
  repeat' with_reducible first
      | exact hk | exact Kind.Sub.mono rfl hs | assumption | apply Keeps.other | exact Or.inl (Kind.Sub.mem hs rfl) | exact Or.inr rfl

theorem State.setLatched_keeps {ks : List Kind} {s₀ s : State} (hk : Keeps ks s₀ s) (hs : Kind.Sub [.latch] ks)
    {rq : Requester} {off : Nat} {v : BitVec 32} : Keeps ks s₀ (State.setLatched s rq off v) := by
  unfold State.setLatched
  try dsimp only
  repeat' with_reducible first
      | exact hk | exact Kind.Sub.mono rfl hs | assumption | apply Keeps.other | exact Or.inl (Kind.Sub.mem hs rfl) | exact Or.inr rfl

theorem State.hostTouch_keeps {ks : List Kind} {s₀ s : State} (hk : Keeps ks s₀ s) (hs : Kind.Sub [.regs] ks)
     : Keeps ks s₀ (State.hostTouch s) := by
  unfold State.hostTouch
  try dsimp only
  repeat' with_reducible first
      | exact hk | exact Kind.Sub.mono rfl hs | apply State.put_keeps | assumption

theorem State.viaHost_keeps {ks : List Kind} {s₀ s : State} (hk : Keeps ks s₀ s) (hs : Kind.Sub [.regs] ks)
    {f : State → State} (hf : ∀ s, Keeps ks s₀ s → Keeps ks s₀ (f s)) : Keeps ks s₀ (State.viaHost s f) := by
  unfold State.viaHost
  try dsimp only
  repeat' with_reducible first
      | exact hk | exact Kind.Sub.mono rfl hs | apply hf | apply Keeps.ite | apply State.hostTouch_keeps | assumption

theorem State.viaReq_keeps {ks : List Kind} {s₀ s : State} (hk : Keeps ks s₀ s) (hs : Kind.Sub [.regs] ks)
    {rq : Requester} {f : State → State} (hf : ∀ s, Keeps ks s₀ s → Keeps ks s₀ (f s)) : Keeps ks s₀ (State.viaReq s rq f) := by
  unfold State.viaReq
  try dsimp only
  repeat' with_reducible first
      | exact hk | exact Kind.Sub.mono rfl hs | apply hf | apply Keeps.ite
      | refine State.viaHost_keeps ?_ (Kind.Sub.mono rfl hs) (fun s hk => ?_) | assumption

end Sys2Proof.Machine
end

