-- ==== Sys2Proof/Laws/KeepsWindows.lean ====
section
/-! SUPPORT. The operations of Sys2Proof/Machine/Windows.lean keep (see Sys2Proof/Laws/KeepsBase.lean). -/

namespace Sys2Proof.Machine

theorem State.hrRequest_keeps {ks : List Kind} {s₀ s : State} (hk : Keeps ks s₀ s) (hs : Kind.Sub [.hyper] ks)
    {r : HrReq} : Keeps ks s₀ (State.hrRequest s r) := by
  unfold State.hrRequest
  try dsimp only
  repeat' with_reducible first
      | exact hk | exact Kind.Sub.mono rfl hs | assumption | apply Keeps.other | exact Or.inl (Kind.Sub.mem hs rfl) | exact Or.inr rfl

theorem State.setWin_keeps {ks : List Kind} {s₀ s : State} (hk : Keeps ks s₀ s) (hs : Kind.Sub [.fabric] ks)
    {i : Nat} {n : Nat} {w : BitVec 64 × BitVec 64 × BitVec 64} : Keeps ks s₀ (State.setWin s i n w) := by
  unfold State.setWin
  try dsimp only
  repeat' with_reducible first
      | exact hk | exact Kind.Sub.mono rfl hs | assumption | apply Keeps.other | exact Or.inl (Kind.Sub.mem hs rfl) | exact Or.inr rfl

theorem State.windowFault_keeps {ks : List Kind} {s₀ s : State} (hk : Keeps ks s₀ s) (hs : Kind.Sub [.regs, .events] ks)
    {i : Nat} {chan : Nat} {handle : Nat} {a : Nat} {write : Bool} : Keeps ks s₀ (State.windowFault s i chan handle a write) := by
  unfold State.windowFault
  try dsimp only
  repeat' with_reducible first
      | exact hk | exact Kind.Sub.mono rfl hs | apply Keeps.ite | apply State.put_keeps | apply State.raise_keeps
      | refine State.firstRecord_keeps ?_ (Kind.Sub.mono rfl hs) (fun s hk => ?_) | assumption

end Sys2Proof.Machine
end

