-- ==== Sys2Proof/Laws/KeepsQueues.lean ====
section
/-! SUPPORT. The operations of Sys2Proof/Machine/Queues.lean keep (see Sys2Proof/Laws/KeepsBase.lean). -/

namespace Sys2Proof.Machine

theorem State.qSet_keeps {ks : List Kind} {s₀ s : State} (hk : Keeps ks s₀ s) (hs : Kind.Sub [.regs, .mem, .ecc] ks)
    {q : Nat} {o : Nat} {n : Nat} {x : Nat} : Keeps ks s₀ (State.qSet s q o n x) := by
  unfold State.qSet
  try dsimp only
  repeat' with_reducible first
      | exact hk | exact Kind.Sub.mono rfl hs | apply State.store_keeps | assumption

theorem State.pkgStore_keeps {ks : List Kind} {s₀ s : State} (hk : Keeps ks s₀ s) (hs : Kind.Sub [.regs, .mem, .ecc] ks)
    {a : Nat} {bs : List Byte} : Keeps ks s₀ (State.pkgStore s a bs) := by
  unfold State.pkgStore
  try dsimp only
  repeat' with_reducible first
      | exact hk | exact Kind.Sub.mono rfl hs | apply Keeps.ite | apply State.poke_keeps | apply State.store_keeps
      | refine Keeps.foldl (fun s x hk => ?_) _ ?_ | assumption | split

theorem State.signal_keeps {ks : List Kind} {s₀ s : State} (hk : Keeps ks s₀ s) (hs : Kind.Sub [.queue] ks)
    {v : Nat} : Keeps ks s₀ (State.signal s v) := by
  unfold State.signal
  try dsimp only
  repeat' with_reducible first
      | exact hk | exact Kind.Sub.mono rfl hs | apply Keeps.ite | assumption | apply Keeps.other | exact Or.inl (Kind.Sub.mem hs rfl)
      | exact Or.inr rfl

theorem State.irqReset_keeps {ks : List Kind} {s₀ s : State} (hk : Keeps ks s₀ s) (hs : Kind.Sub [.queue] ks)
    {q : Nat} : Keeps ks s₀ (State.irqReset s q) := by
  unfold State.irqReset
  try dsimp only
  repeat' with_reducible first
      | exact hk | exact Kind.Sub.mono rfl hs | assumption | apply Keeps.other | exact Or.inl (Kind.Sub.mem hs rfl) | exact Or.inr rfl

theorem State.irqEntry_keeps {ks : List Kind} {s₀ s : State} (hk : Keeps ks s₀ s) (hs : Kind.Sub [.queue] ks)
    {q : Nat} : Keeps ks s₀ (State.irqEntry s q) := by
  unfold State.irqEntry
  try dsimp only
  repeat' with_reducible first
      | exact hk | exact Kind.Sub.mono rfl hs | apply Keeps.ite | apply State.signal_keeps | apply State.irqReset_keeps | assumption
      | apply Keeps.other | exact Or.inl (Kind.Sub.mem hs rfl) | exact Or.inr rfl

theorem State.qDrop_keeps {ks : List Kind} {s₀ s : State} (hk : Keeps ks s₀ s) (hs : Kind.Sub [.regs, .mem, .ecc] ks)
    {q : Nat} : Keeps ks s₀ (State.qDrop s q) := by
  unfold State.qDrop
  try dsimp only
  repeat' with_reducible first
      | exact hk | exact Kind.Sub.mono rfl hs | apply State.qSet_keeps | assumption

theorem State.qLand_keeps {ks : List Kind} {s₀ s : State} (hk : Keeps ks s₀ s) (hs : Kind.Sub [.regs, .mem, .ecc, .queue] ks)
    {q : Nat} {bs : List Byte} : Keeps ks s₀ (State.qLand s q bs) := by
  unfold State.qLand
  try dsimp only
  repeat' with_reducible first
      | exact hk | exact Kind.Sub.mono rfl hs | apply Keeps.ite | apply State.qSet_keeps | apply State.pkgStore_keeps
      | apply State.irqEntry_keeps | assumption

theorem State.dropMark_keeps {ks : List Kind} {s₀ s : State} (hk : Keeps ks s₀ s) (hs : Kind.Sub [.queue] ks)
    {q : Nat} : Keeps ks s₀ (State.dropMark s q) := by
  unfold State.dropMark
  try dsimp only
  repeat' with_reducible first
      | exact hk | exact Kind.Sub.mono rfl hs | assumption | apply Keeps.other | exact Or.inl (Kind.Sub.mem hs rfl) | exact Or.inr rfl

theorem State.queueDropEvent_keeps {ks : List Kind} {s₀ s : State} (hk : Keeps ks s₀ s) (hs : Kind.Sub [.regs, .events, .queue] ks)
    {q : Nat} : Keeps ks s₀ (State.queueDropEvent s q) := by
  unfold State.queueDropEvent
  try dsimp only
  repeat' with_reducible first
      | exact hk | exact Kind.Sub.mono rfl hs | apply Keeps.ite | apply State.raise_keeps | apply State.dropMark_keeps | assumption

theorem State.qProduce_keeps {ks : List Kind} {s₀ s : State} (hk : Keeps ks s₀ s) (hs : Kind.Sub [.regs, .mem, .ecc, .events, .queue] ks)
    {q : Nat} {kind : Nat} {bs : List Byte} : Keeps ks s₀ (State.qProduce s q kind bs).1 := by
  unfold State.qProduce
  try dsimp only
  repeat' with_reducible first
      | exact hk | exact Kind.Sub.mono rfl hs | apply State.qDrop_keeps | apply State.qLand_keeps | apply State.queueDropEvent_keeps
      | assumption | split | dsimp only

theorem State.doorbellBad_keeps {ks : List Kind} {s₀ s : State} (hk : Keeps ks s₀ s) (hs : Kind.Sub [.regs, .events] ks)
    {q : Nat} : Keeps ks s₀ (State.doorbellBad s q) := by
  unfold State.doorbellBad
  try dsimp only
  repeat' with_reducible first
      | exact hk | exact Kind.Sub.mono rfl hs | apply State.put_keeps | apply State.raise_keeps
      | refine State.firstRecord_keeps ?_ (Kind.Sub.mono rfl hs) (fun s hk => ?_) | assumption

end Sys2Proof.Machine
end

