-- ==== Sys2Proof/Laws/KeepsTags.lean ====
section
/-! SUPPORT. The operations of Sys2Proof/Machine/Tags.lean keep (see Sys2Proof/Laws/KeepsBase.lean). -/

namespace Sys2Proof.Machine

theorem State.onBlock_keeps {ks : List Kind} {s₀ s : State} (hk : Keeps ks s₀ s) (hs : Kind.Sub [.yards] ks)
    {k_ : Nat} {f : YardSt → YardSt} : Keeps ks s₀ (State.onBlock s k_ f) := by
  unfold State.onBlock
  try dsimp only
  repeat' with_reducible first
      | exact hk | exact Kind.Sub.mono rfl hs | apply State.setYard_keeps | assumption

theorem State.setFill_keeps {ks : List Kind} {s₀ s : State} (hk : Keeps ks s₀ s) (hs : Kind.Sub [.yards] ks)
    {k_ : Nat} {f : Fill} : Keeps ks s₀ (State.setFill s k_ f) := by
  unfold State.setFill
  try dsimp only
  repeat' with_reducible first
      | exact hk | exact Kind.Sub.mono rfl hs | apply State.onBlock_keeps | assumption | apply Keeps.other
      | exact Or.inl (Kind.Sub.mem hs rfl) | exact Or.inr rfl

theorem State.markBlock_keeps {ks : List Kind} {s₀ s : State} (hk : Keeps ks s₀ s) (hs : Kind.Sub [.yards] ks)
    {p : Nat} {spec : Nat} {k_ : Nat} : Keeps ks s₀ (State.markBlock s p spec k_) := by
  unfold State.markBlock
  try dsimp only
  repeat' with_reducible first
      | exact hk | exact Kind.Sub.mono rfl hs | apply Keeps.ite | apply State.onBlock_keeps | assumption | apply Keeps.other
      | exact Or.inl (Kind.Sub.mem hs rfl) | exact Or.inr rfl

theorem State.nameWrite_keeps {ks : List Kind} {s₀ s : State} (hk : Keeps ks s₀ s) (hs : Kind.Sub [.yards] ks)
    {p : Nat} {spec : Nat} {seq : Nat} {others : List Nat} {k_ : Nat} : Keeps ks s₀ (State.nameWrite s p spec seq others k_).1 := by
  unfold State.nameWrite
  try dsimp only
  repeat' with_reducible first
      | exact hk | exact Kind.Sub.mono rfl hs | apply State.setFill_keeps | apply State.markBlock_keeps | assumption | split | dsimp only

theorem State.nameWrites_keeps {ks : List Kind} {s₀ s : State} (hk : Keeps ks s₀ s) (hs : Kind.Sub [.yards] ks)
    {p : Nat} {spec : Nat} {seq : Nat} {others : Nat → List Nat} {l : List Nat} : Keeps ks s₀ (State.nameWrites s p spec seq others l).1 := by
  induction l generalizing s with
  | nil => exact hk
  | cons k l ih =>
    rw [State.nameWrites]
    dsimp only
    exact ih (State.nameWrite_keeps hk hs)

theorem State.raiseTrip_keeps {ks : List Kind} {s₀ s : State} (hk : Keeps ks s₀ s) (hs : Kind.Sub [.regs, .progs, .yards, .events] ks)
    {t : Trip} : Keeps ks s₀ (State.raiseTrip s t) := by
  unfold State.raiseTrip
  try dsimp only
  repeat' with_reducible first
      | exact hk | exact Kind.Sub.mono rfl hs | apply Keeps.ite | apply State.put_keeps | apply State.raise_keeps
      | apply State.setYard_keeps | refine State.firstRecord_keeps ?_ (Kind.Sub.mono rfl hs) (fun s hk => ?_)
      | apply State.unitFault_keeps | assumption | apply Keeps.other | exact Or.inl (Kind.Sub.mem hs rfl) | exact Or.inr rfl

theorem State.tagTrip_keeps {ks : List Kind} {s₀ s : State} (hk : Keeps ks s₀ s) (hs : Kind.Sub [.regs, .progs, .yards, .events] ks)
    {p : Nat} {spec : Nat} {port : Nat} {kind : Nat} {u : TagUse} : Keeps ks s₀ (State.tagTrip s p spec port kind u) := by
  unfold State.tagTrip
  try dsimp only
  repeat' with_reducible first
      | exact hk | exact Kind.Sub.mono rfl hs | apply Keeps.ite | apply State.onBlock_keeps | apply State.raiseTrip_keeps | assumption
      | apply Keeps.other | exact Or.inl (Kind.Sub.mem hs rfl) | exact Or.inr rfl

theorem State.tagCheck_keeps {ks : List Kind} {s₀ s : State} (hk : Keeps ks s₀ s) (hs : Kind.Sub [.regs, .progs, .yards, .events] ks)
    {p : Nat} {spec : Nat} {port : Nat} {kind : Nat} {u : TagUse} : Keeps ks s₀ (State.tagCheck s p spec port kind u) := by
  unfold State.tagCheck
  try dsimp only
  repeat' with_reducible first
      | exact hk | exact Kind.Sub.mono rfl hs | apply Keeps.ite | apply State.tagTrip_keeps | assumption

theorem State.tagAccess_keeps {ks : List Kind} {s₀ s : State} (hk : Keeps ks s₀ s) (hs : Kind.Sub [.regs, .progs, .yards, .events] ks)
    {p : Nat} {spec : Nat} {port : Nat} {us : List TagUse} {k_ : Nat} {first : Bool} {last : Bool} : Keeps ks s₀ (State.tagAccess s p spec port us k_ first last) := by
  unfold State.tagAccess
  try dsimp only
  repeat' with_reducible first
      | exact hk | exact Kind.Sub.mono rfl hs | apply Keeps.ite | apply State.tagCheck_keeps | assumption | split

theorem State.seqAccess_keeps {ks : List Kind} {s₀ s : State} (hk : Keeps ks s₀ s) (hs : Kind.Sub [.regs, .progs, .yards, .events] ks)
    {p : Nat} {spec : Nat} {port : Nat} {us : List TagUse} {addr : Nat → Nat} {count : Nat} {j : Nat} : Keeps ks s₀ (State.seqAccess s p spec port us addr count j) := by
  unfold State.seqAccess
  try dsimp only
  repeat' with_reducible first
      | exact hk | exact Kind.Sub.mono rfl hs | apply Keeps.ite | apply State.tagAccess_keeps | assumption | split

theorem State.tagOpen_keeps {ks : List Kind} {s₀ s : State} (hk : Keeps ks s₀ s) (hs : Kind.Sub [.regs, .progs, .yards, .events] ks)
    {p : Nat} {spec : Nat} {seq : Nat} {port : Nat} {u : TagUse} : Keeps ks s₀ (State.tagOpen s p spec seq port u) := by
  unfold State.tagOpen
  try dsimp only
  repeat' with_reducible first
      | exact hk | exact Kind.Sub.mono rfl hs | apply Keeps.ite | apply State.put_keeps | apply State.onBlock_keeps
      | apply State.tagTrip_keeps | assumption | apply Keeps.other | exact Or.inl (Kind.Sub.mem hs rfl) | exact Or.inr rfl

theorem State.tagDone_keeps {ks : List Kind} {s₀ s : State} (hk : Keeps ks s₀ s) (hs : Kind.Sub [.regs] ks)
    {k_ : Nat} : Keeps ks s₀ (State.tagDone s k_) := by
  unfold State.tagDone
  try dsimp only
  repeat' with_reducible first
      | exact hk | exact Kind.Sub.mono rfl hs | apply Keeps.ite | apply State.put_keeps | assumption

theorem State.tagClose_keeps {ks : List Kind} {s₀ s : State} (hk : Keeps ks s₀ s) (hs : Kind.Sub [.regs, .yards] ks)
    {p : Nat} {seq : Nat} {k_ : Nat} : Keeps ks s₀ (State.tagClose s p seq k_) := by
  unfold State.tagClose
  try dsimp only
  repeat' with_reducible first
      | exact hk | exact Kind.Sub.mono rfl hs | apply State.onBlock_keeps | apply State.setFill_keeps | apply State.tagDone_keeps
      | assumption | split | apply Keeps.other | exact Or.inl (Kind.Sub.mem hs rfl) | exact Or.inr rfl

theorem State.tagWrite_keeps {ks : List Kind} {s₀ s : State} (hk : Keeps ks s₀ s) (hs : Kind.Sub [.regs, .progs, .yards, .events] ks)
    {p : Nat} {spec : Nat} {seq : Nat} {port : Nat} {us : List TagUse} : Keeps ks s₀ (State.tagWrite s p spec seq port us) := by
  unfold State.tagWrite
  try dsimp only
  repeat' with_reducible first
      | exact hk | exact Kind.Sub.mono rfl hs | apply State.tagOpen_keeps | apply State.tagClose_keeps
      | refine Keeps.foldl (fun s x hk => ?_) _ ?_ | assumption

theorem State.putLeft_keeps {ks : List Kind} {s₀ s : State} (hk : Keeps ks s₀ s) (hs : Kind.Sub [.regs] ks)
    {left : Nat} {k_ : Nat} : Keeps ks s₀ (State.putLeft s left k_) := by
  unfold State.putLeft
  try dsimp only
  repeat' with_reducible first
      | exact hk | exact Kind.Sub.mono rfl hs | apply Keeps.ite | apply State.put_keeps | assumption

theorem State.restoreTags_keeps {ks : List Kind} {s₀ s : State} (hk : Keeps ks s₀ s) (hs : Kind.Sub [.regs, .yards] ks)
    {p : Nat} {k_ : Nat} {m : Nat} {y : Nat} : Keeps ks s₀ (State.restoreTags s p k_ m y) := by
  unfold State.restoreTags
  try dsimp only
  repeat' with_reducible first
      | exact hk | exact Kind.Sub.mono rfl hs | apply State.put_keeps | apply State.setYard_keeps | apply State.setFill_keeps
      | refine Keeps.foldl (fun s x hk => ?_) _ ?_ | assumption | apply Keeps.other | exact Or.inl (Kind.Sub.mem hs rfl)
      | exact Or.inr rfl

theorem State.lowerTags_keeps {ks : List Kind} {s₀ s : State} (hk : Keeps ks s₀ s) (hs : Kind.Sub [.yards] ks)
    {p : Nat} {m : Nat} {y : Nat} {f : Nat → Nat} : Keeps ks s₀ (State.lowerTags s p m y f) := by
  unfold State.lowerTags
  try dsimp only
  repeat' with_reducible first
      | exact hk | exact Kind.Sub.mono rfl hs | apply Keeps.ite | apply State.setYard_keeps | assumption | apply Keeps.other
      | exact Or.inl (Kind.Sub.mem hs rfl) | exact Or.inr rfl

theorem State.raiseTrips_keeps {ks : List Kind} {s₀ s : State} (hk : Keeps ks s₀ s) (hs : Kind.Sub [.regs, .progs, .yards, .events] ks)
    {m : Nat} {y : Nat} : Keeps ks s₀ (State.raiseTrips s m y) := by
  unfold State.raiseTrips
  try dsimp only
  repeat' with_reducible first
      | exact hk | exact Kind.Sub.mono rfl hs | apply Keeps.ite | apply State.setYard_keeps | apply State.raiseTrip_keeps
      | refine Keeps.foldl (fun s x hk => ?_) _ ?_ | assumption | apply Keeps.other | exact Or.inl (Kind.Sub.mem hs rfl)
      | exact Or.inr rfl

end Sys2Proof.Machine
end

