-- ==== Sys2Proof/Laws/KeepsSails.lean ====
section
/-! SUPPORT. The operations of Sys2Proof/Machine/Sails.lean keep (see Sys2Proof/Laws/KeepsBase.lean). -/

namespace Sys2Proof.Machine

theorem State.sailHazard_keeps {ks : List Kind} {s₀ s : State} (hk : Keeps ks s₀ s) (hs : Kind.Sub [.regs, .progs, .yards, .events] ks)
    {p : Nat} {m : Nat} {y : Nat} {n : Nat} {cause : Nat} : Keeps ks s₀ (State.sailHazard s p m y n cause) := by
  unfold State.sailHazard
  try dsimp only
  repeat' with_reducible first
      | exact hk | exact Kind.Sub.mono rfl hs | apply Keeps.ite | apply State.put_keeps | apply State.setBits_keeps
      | apply State.raise_keeps | apply State.setSail_keeps | refine State.firstRecord_keeps ?_ (Kind.Sub.mono rfl hs) (fun s hk => ?_)
      | apply State.unitFault_keeps | assumption | apply Keeps.other | exact Or.inl (Kind.Sub.mem hs rfl) | exact Or.inr rfl

theorem State.putSail_keeps {ks : List Kind} {s₀ s : State} (hk : Keeps ks s₀ s) (hs : Kind.Sub [.regs] ks)
    {m : Nat} {y : Nat} {n : Nat} {lo : Nat} {w : Nat} {v : Nat} : Keeps ks s₀ (State.putSail s m y n lo w v) := by
  unfold State.putSail
  try dsimp only
  repeat' with_reducible first
      | exact hk | exact Kind.Sub.mono rfl hs | apply State.put_keeps | assumption

theorem State.flipSail_keeps {ks : List Kind} {s₀ s : State} (hk : Keeps ks s₀ s) (hs : Kind.Sub [.regs] ks)
    {m : Nat} {y : Nat} {n : Nat} : Keeps ks s₀ (State.flipSail s m y n) := by
  unfold State.flipSail
  try dsimp only
  repeat' with_reducible first
      | exact hk | exact Kind.Sub.mono rfl hs | apply Keeps.ite | apply State.putSail_keeps | assumption

theorem State.pushVector_keeps {ks : List Kind} {s₀ s : State} (hk : Keeps ks s₀ s) (hs : Kind.Sub [.yards, .free] ks)
    {m : Nat} {y : Nat} {n : Nat} {r : SailRun} {j : Nat} : Keeps ks s₀ (State.pushVector s m y n r j) := by
  unfold State.pushVector
  try dsimp only
  repeat' with_reducible first
      | exact hk | exact Kind.Sub.mono rfl hs | apply Keeps.ite | apply State.takeFree_keeps | apply State.setSail_keeps | assumption
      | apply Keeps.other | exact Or.inl (Kind.Sub.mem hs rfl) | exact Or.inr rfl

theorem State.issueVectors_keeps {ks : List Kind} {s₀ s : State} (hk : Keeps ks s₀ s) (hs : Kind.Sub [.regs, .mem, .ecc, .progs, .yards, .events, .power, .free] ks)
    {m : Nat} {y : Nat} {n : Nat} {r : SailRun} : Keeps ks s₀ (State.issueVectors s m y n r) := by
  unfold State.issueVectors
  try dsimp only
  repeat' with_reducible first
      | exact hk | exact Kind.Sub.mono rfl hs | apply Keeps.ite | apply State.setSail_keeps | apply State.lineReads_keeps
      | apply State.seqAccess_keeps | apply State.pushVector_keeps | refine Keeps.foldl (fun s x hk => ?_) _ ?_ | assumption
      | apply Keeps.other | exact Or.inl (Kind.Sub.mem hs rfl) | exact Or.inr rfl

theorem State.showRun_keeps {ks : List Kind} {s₀ s : State} (hk : Keeps ks s₀ s) (hs : Kind.Sub [.regs] ks)
    {m : Nat} {y : Nat} {n : Nat} {r : SailRun} {flip : Bool} : Keeps ks s₀ (State.showRun s m y n r flip) := by
  unfold State.showRun
  try dsimp only
  repeat' with_reducible first
      | exact hk | exact Kind.Sub.mono rfl hs | apply Keeps.ite | apply State.put_keeps | assumption | split | apply Keeps.other
      | exact Or.inl (Kind.Sub.mem hs rfl) | exact Or.inr rfl

theorem State.startRun_keeps {ks : List Kind} {s₀ s : State} (hk : Keeps ks s₀ s) (hs : Kind.Sub [.regs, .mem, .ecc, .progs, .yards, .events, .power, .free] ks)
    {c : EngCmd} {m : Nat} {y : Nat} {n : Nat} {mode : Mode} {atype : Nat} {flip : Bool} {bcast : Bool} {first : Bool} {act : Slice} {count : Nat} {entry : Nat} {tags : List TagUse} : Keeps ks s₀ (State.startRun s c m y n mode atype flip bcast first act count entry tags) := by
  unfold State.startRun
  try dsimp only
  repeat' with_reducible first
      | exact hk | exact Kind.Sub.mono rfl hs | apply Keeps.ite | apply State.sailHazard_keeps | apply State.putSail_keeps
      | apply State.flipSail_keeps | apply State.issueVectors_keeps | apply State.showRun_keeps | assumption

theorem State.runStep_keeps {ks : List Kind} {s₀ s : State} (hk : Keeps ks s₀ s) (hs : Kind.Sub [.regs, .mem, .ecc, .progs, .yards, .events, .power, .free] ks)
    {m : Nat} {y : Nat} {n : Nat} : Keeps ks s₀ (State.runStep s m y n) := by
  unfold State.runStep
  try dsimp only
  repeat' with_reducible first
      | exact hk | exact Kind.Sub.mono rfl hs | apply Keeps.ite | apply State.setSail_keeps | apply State.issueVectors_keeps | assumption
      | split | apply Keeps.other | exact Or.inl (Kind.Sub.mem hs rfl) | exact Or.inr rfl

theorem State.countVectors_keeps {ks : List Kind} {s₀ s : State} (hk : Keeps ks s₀ s) (hs : Kind.Sub [.regs] ks)
    {m : Nat} {y : Nat} {n : Nat} : Keeps ks s₀ (State.countVectors s m y n) := by
  unfold State.countVectors
  try dsimp only
  repeat' with_reducible first
      | exact hk | exact Kind.Sub.mono rfl hs | apply Keeps.ite | apply State.perf_keeps | refine Keeps.foldl (fun s x hk => ?_) _ ?_
      | assumption

theorem State.leaveF_keeps {ks : List Kind} {s₀ s : State} (hk : Keeps ks s₀ s) (hs : Kind.Sub [.yards] ks)
    {m : Nat} {y : Nat} {n : Nat} {v : SailVec} : Keeps ks s₀ (State.leaveF s m y n v) := by
  unfold State.leaveF
  try dsimp only
  repeat' with_reducible first
      | exact hk | exact Kind.Sub.mono rfl hs | apply State.setSail_keeps | apply State.setBoom_keeps | assumption | split
      | apply Keeps.other | exact Or.inl (Kind.Sub.mem hs rfl) | exact Or.inr rfl

theorem State.slotF_keeps {ks : List Kind} {s₀ s : State} (hk : Keeps ks s₀ s) (hs : Kind.Sub [.regs, .progs, .yards, .events] ks)
    {m : Nat} {y : Nat} {n : Nat} {own : Option SailVec} {got : Option SailVec} : Keeps ks s₀ (State.slotF s m y n own got) := by
  unfold State.slotF
  try dsimp only
  repeat' with_reducible first
      | exact hk | exact Kind.Sub.mono rfl hs | apply Keeps.ite | apply State.sailHazard_keeps | apply State.leaveF_keeps | assumption
      | split

theorem State.stageStep_keeps {ks : List Kind} {s₀ s : State} (hk : Keeps ks s₀ s) (hs : Kind.Sub [.regs, .progs, .yards, .events] ks)
    {m : Nat} {y : Nat} {n : Nat} : Keeps ks s₀ (State.stageStep s m y n) := by
  unfold State.stageStep
  try dsimp only
  repeat' with_reducible first
      | exact hk | exact Kind.Sub.mono rfl hs | apply Keeps.ite | apply State.setSail_keeps | apply State.slotF_keeps | assumption
      | apply Keeps.other | exact Or.inl (Kind.Sub.mem hs rfl) | exact Or.inr rfl

theorem State.beginLoad_keeps {ks : List Kind} {s₀ s : State} (hk : Keeps ks s₀ s) (hs : Kind.Sub [.regs, .yards] ks)
    {c : EngCmd} {m : Nat} {y : Nat} {n : Nat} {kind : LoadKind} {base : Nat} {cycles : Nat} {tags : List TagUse} : Keeps ks s₀ (State.beginLoad s c m y n kind base cycles tags) := by
  unfold State.beginLoad
  try dsimp only
  repeat' with_reducible first
      | exact hk | exact Kind.Sub.mono rfl hs | apply State.setSail_keeps | apply State.putSail_keeps | assumption | apply Keeps.other
      | exact Or.inl (Kind.Sub.mem hs rfl) | exact Or.inr rfl

theorem State.readTileRow_keeps {ks : List Kind} {s₀ s : State} (hk : Keeps ks s₀ s) (hs : Kind.Sub [.regs, .mem, .ecc, .progs, .yards, .events, .power] ks)
    {m : Nat} {y : Nat} {n : Nat} {ld : SailLoad} {c4 : Bool} {r : Nat} : Keeps ks s₀ (State.readTileRow s m y n ld c4 r) := by
  unfold State.readTileRow
  try dsimp only
  repeat' with_reducible first
      | exact hk | exact Kind.Sub.mono rfl hs | apply Keeps.ite | apply State.setSail_keeps | apply State.lineReads_keeps
      | apply State.seqAccess_keeps | assumption | apply Keeps.other | exact Or.inl (Kind.Sub.mem hs rfl) | exact Or.inr rfl

theorem State.writeTileRow_keeps {ks : List Kind} {s₀ s : State} (hk : Keeps ks s₀ s) (hs : Kind.Sub [.yards] ks)
    {m : Nat} {y : Nat} {n : Nat} {ld : SailLoad} {c4 : Bool} {c8 : Bool} {r : Nat} : Keeps ks s₀ (State.writeTileRow s m y n ld c4 c8 r) := by
  unfold State.writeTileRow
  try dsimp only
  repeat' with_reducible first
      | exact hk | exact Kind.Sub.mono rfl hs | apply State.setSail_keeps | assumption | apply Keeps.other
      | exact Or.inl (Kind.Sub.mem hs rfl) | exact Or.inr rfl

theorem State.writeTable_keeps {ks : List Kind} {s₀ s : State} (hk : Keeps ks s₀ s) (hs : Kind.Sub [.yards] ks)
    {m : Nat} {y : Nat} {n : Nat} {ld : SailLoad} {weight : Bool} {cbk : Nat} {k_ : Nat} : Keeps ks s₀ (State.writeTable s m y n ld weight cbk k_) := by
  unfold State.writeTable
  try dsimp only
  repeat' with_reducible first
      | exact hk | exact Kind.Sub.mono rfl hs | apply Keeps.ite | apply State.setSail_keeps | assumption | apply Keeps.other
      | exact Or.inl (Kind.Sub.mem hs rfl) | exact Or.inr rfl

theorem State.copyTable_keeps {ks : List Kind} {s₀ s : State} (hk : Keeps ks s₀ s) (hs : Kind.Sub [.yards] ks)
    {m : Nat} {y : Nat} {n : Nat} {weight : Bool} : Keeps ks s₀ (State.copyTable s m y n weight) := by
  unfold State.copyTable
  try dsimp only
  repeat' with_reducible first
      | exact hk | exact Kind.Sub.mono rfl hs | apply Keeps.ite | apply State.setSail_keeps | assumption | apply Keeps.other
      | exact Or.inl (Kind.Sub.mem hs rfl) | exact Or.inr rfl

theorem State.loadWork_keeps {ks : List Kind} {s₀ s : State} (hk : Keeps ks s₀ s) (hs : Kind.Sub [.regs, .mem, .ecc, .progs, .yards, .events, .power] ks)
    {m : Nat} {y : Nat} {n : Nat} {k_ : Nat} {ld : SailLoad} : Keeps ks s₀ (State.loadWork s m y n k_ ld) := by
  unfold State.loadWork
  try dsimp only
  repeat' with_reducible first
      | exact hk | exact Kind.Sub.mono rfl hs | apply Keeps.ite | apply State.lineReads_keeps | apply State.seqAccess_keeps
      | apply State.readTileRow_keeps | apply State.writeTileRow_keeps | apply State.writeTable_keeps | apply State.copyTable_keeps
      | assumption | split

theorem State.loadStep_keeps {ks : List Kind} {s₀ s : State} (hk : Keeps ks s₀ s) (hs : Kind.Sub [.regs, .mem, .ecc, .progs, .yards, .events, .power] ks)
    {m : Nat} {y : Nat} {n : Nat} : Keeps ks s₀ (State.loadStep s m y n) := by
  unfold State.loadStep
  try dsimp only
  repeat' with_reducible first
      | exact hk | exact Kind.Sub.mono rfl hs | apply State.loadWork_keeps | assumption | split

theorem State.startLoad_keeps {ks : List Kind} {s₀ s : State} (hk : Keeps ks s₀ s) (hs : Kind.Sub [.regs, .mem, .ecc, .progs, .yards, .events, .power] ks)
    {c : EngCmd} {m : Nat} {y : Nat} {n : Nat} {c4 : Bool} {wt : Slice} {tags : List TagUse} : Keeps ks s₀ (State.startLoad s c m y n c4 wt tags) := by
  unfold State.startLoad
  try dsimp only
  repeat' with_reducible first
      | exact hk | exact Kind.Sub.mono rfl hs | apply Keeps.ite | apply State.putSail_keeps | apply State.beginLoad_keeps
      | apply State.loadStep_keeps | assumption

theorem State.startTable_keeps {ks : List Kind} {s₀ s : State} (hk : Keeps ks s₀ s) (hs : Kind.Sub [.regs, .mem, .ecc, .progs, .yards, .events, .power] ks)
    {c : EngCmd} {m : Nat} {y : Nat} {n : Nat} {weight : Bool} {cbk : Nat} {tags : List TagUse} : Keeps ks s₀ (State.startTable s c m y n weight cbk tags) := by
  unfold State.startTable
  try dsimp only
  repeat' with_reducible first
      | exact hk | exact Kind.Sub.mono rfl hs | apply State.beginLoad_keeps | apply State.loadStep_keeps | assumption

theorem State.startCopy_keeps {ks : List Kind} {s₀ s : State} (hk : Keeps ks s₀ s) (hs : Kind.Sub [.regs, .mem, .ecc, .progs, .yards, .events, .power] ks)
    {c : EngCmd} {m : Nat} {y : Nat} {n : Nat} {weight : Bool} : Keeps ks s₀ (State.startCopy s c m y n weight) := by
  unfold State.startCopy
  try dsimp only
  repeat' with_reducible first
      | exact hk | exact Kind.Sub.mono rfl hs | apply State.beginLoad_keeps | apply State.loadStep_keeps | assumption

theorem State.finishLoad_keeps {ks : List Kind} {s₀ s : State} (hk : Keeps ks s₀ s) (hs : Kind.Sub [.regs, .yards] ks)
    {m : Nat} {y : Nat} {n : Nat} {ld : SailLoad} : Keeps ks s₀ (State.finishLoad s m y n ld) := by
  unfold State.finishLoad
  try dsimp only
  repeat' with_reducible first
      | exact hk | exact Kind.Sub.mono rfl hs | apply Keeps.ite | apply State.setSail_keeps | apply State.putSail_keeps | assumption
      | split | apply Keeps.other | exact Or.inl (Kind.Sub.mem hs rfl) | exact Or.inr rfl

theorem State.sailsStep_keeps {ks : List Kind} {s₀ s : State} (hk : Keeps ks s₀ s) (hs : Kind.Sub [.regs, .mem, .ecc, .progs, .yards, .events, .power, .free] ks)
    {m : Nat} {y : Nat} : Keeps ks s₀ (State.sailsStep s m y) := by
  unfold State.sailsStep
  try dsimp only
  repeat' with_reducible first
      | exact hk | exact Kind.Sub.mono rfl hs | apply State.runStep_keeps | apply State.countVectors_keeps | apply State.stageStep_keeps
      | apply State.loadStep_keeps | refine Keeps.foldl (fun s x hk => ?_) _ ?_ | assumption

end Sys2Proof.Machine
end

