-- ==== Sys2Proof/Laws/KeepsBooms.lean ====
section
/-! SUPPORT. The operations of Sys2Proof/Machine/Booms.lean keep (see Sys2Proof/Laws/KeepsBase.lean). -/

namespace Sys2Proof.Machine

theorem State.putEntry_keeps {ks : List Kind} {s₀ s : State} (hk : Keeps ks s₀ s) (hs : Kind.Sub [.regs, .yards] ks)
    {m : Nat} {y : Nat} {n : Nat} {e : Nat} {spec : Nat} {v : List Word} : Keeps ks s₀ (State.putEntry s m y n e spec v) := by
  unfold State.putEntry
  try dsimp only
  repeat' with_reducible first
      | exact hk | exact Kind.Sub.mono rfl hs | apply State.put_keeps | apply State.setBoom_keeps | assumption

theorem State.holdBack_keeps {ks : List Kind} {s₀ s : State} (hk : Keeps ks s₀ s) (hs : Kind.Sub [.regs, .yards] ks)
    {m : Nat} {y : Nat} {h : Held} : Keeps ks s₀ (State.holdBack s m y h) := by
  unfold State.holdBack
  try dsimp only
  repeat' with_reducible first
      | exact hk | exact Kind.Sub.mono rfl hs | apply State.put_keeps | apply State.setYard_keeps | assumption | apply Keeps.other
      | exact Or.inl (Kind.Sub.mem hs rfl) | exact Or.inr rfl

theorem State.specCauses_keeps {ks : List Kind} {s₀ s : State} (hk : Keeps ks s₀ s) (hs : Kind.Sub [.regs, .progs, .yards, .events] ks)
    {p : Nat} {m : Nat} {y : Nat} {n : Nat} {spec : Nat} {slot : Nat} {causes : Nat} : Keeps ks s₀ (State.specCauses s p m y n spec slot causes) := by
  unfold State.specCauses
  try dsimp only
  repeat' with_reducible first
      | exact hk | exact Kind.Sub.mono rfl hs | apply Keeps.ite | apply State.meetCauses_keeps | apply State.holdBack_keeps | assumption

theorem State.specCounts_keeps {ks : List Kind} {s₀ s : State} (hk : Keeps ks s₀ s) (hs : Kind.Sub [.regs, .progs, .yards, .events] ks)
    {p : Nat} {m : Nat} {y : Nat} {n : Nat} {spec : Nat} {slot : Nat} {sat : Nat} {rtz : Nat} {causes : Nat} : Keeps ks s₀ (State.specCounts s p m y n spec slot sat rtz causes) := by
  unfold State.specCounts
  try dsimp only
  repeat' with_reducible first
      | exact hk | exact Kind.Sub.mono rfl hs | apply Keeps.ite | apply State.meetCauses_keeps | apply State.countInto_keeps
      | apply State.holdBack_keeps | assumption

theorem State.joinPartials_keeps {ks : List Kind} {s₀ s : State} (hk : Keeps ks s₀ s) (hs : Kind.Sub [.regs, .progs, .yards, .events] ks)
    {m : Nat} {y : Nat} {n : Nat} {v : SailVec} : Keeps ks s₀ (State.joinPartials s m y n v) := by
  unfold State.joinPartials
  try dsimp only
  repeat' with_reducible first
      | exact hk | exact Kind.Sub.mono rfl hs | apply State.putEntry_keeps | apply State.specCauses_keeps | assumption | split

theorem State.loadOcbk_keeps {ks : List Kind} {s₀ s : State} (hk : Keeps ks s₀ s) (hs : Kind.Sub [.yards, .free] ks)
    {m : Nat} {y : Nat} {n : Nat} {es : List Int} : Keeps ks s₀ (State.loadOcbk s m y n es) := by
  unfold State.loadOcbk
  try dsimp only
  repeat' with_reducible first
      | exact hk | exact Kind.Sub.mono rfl hs | apply Keeps.ite | apply State.takeFree_keeps | apply State.setBoom_keeps | assumption
      | apply Keeps.other | exact Or.inl (Kind.Sub.mem hs rfl) | exact Or.inr rfl

theorem State.boomConfig_keeps {ks : List Kind} {s₀ s : State} (hk : Keeps ks s₀ s) (hs : Kind.Sub [.regs, .yards, .free] ks)
    {m : Nat} {y : Nat} {n : Nat} {gsz : Nat} {c : EpiCfg} {bias : Bool} {slot : Option Nat} : Keeps ks s₀ (State.boomConfig s m y n gsz c bias slot) := by
  unfold State.boomConfig
  try dsimp only
  repeat' with_reducible first
      | exact hk | exact Kind.Sub.mono rfl hs | apply Keeps.ite | apply State.setReg_keeps | apply State.put_keeps
      | apply State.loadOcbk_keeps | assumption

theorem State.scaleConfig_keeps {ks : List Kind} {s₀ s : State} (hk : Keeps ks s₀ s) (hs : Kind.Sub [.regs] ks)
    {m : Nat} {y : Nat} {n : Nat} {t : Tensor} : Keeps ks s₀ (State.scaleConfig s m y n t) := by
  unfold State.scaleConfig
  try dsimp only
  repeat' with_reducible first
      | exact hk | exact Kind.Sub.mono rfl hs | apply State.setReg_keeps | assumption

theorem State.epiEntry_keeps {ks : List Kind} {s₀ s : State} (hk : Keeps ks s₀ s) (hs : Kind.Sub [.regs, .yards] ks)
    {c : BoomJob} {m : Nat} {y : Nat} {n : Nat} {bias : Bool} {dst : Slice} {entry : Nat} {biasTid : Nat} {rec : Nat} : Keeps ks s₀ (State.epiEntry s c m y n bias dst entry biasTid rec) := by
  unfold State.epiEntry
  try dsimp only
  repeat' with_reducible first
      | exact hk | exact Kind.Sub.mono rfl hs | apply Keeps.ite | apply State.setReg_keeps | apply State.setBoom_keeps | assumption
      | split | apply Keeps.other | exact Or.inl (Kind.Sub.mem hs rfl) | exact Or.inr rfl

theorem State.preEntry_keeps {ks : List Kind} {s₀ s : State} (hk : Keeps ks s₀ s) (hs : Kind.Sub [.regs, .mem, .ecc, .progs, .yards, .events, .power] ks)
    {c : BoomJob} {m : Nat} {y : Nat} {n : Nat} {src : Slice} {entry : Nat} : Keeps ks s₀ (State.preEntry s c m y n src entry) := by
  unfold State.preEntry
  try dsimp only
  repeat' with_reducible first
      | exact hk | exact Kind.Sub.mono rfl hs | apply State.setBoom_keeps | apply State.lineReads_keeps | apply State.seqAccess_keeps
      | assumption | split | apply Keeps.other | exact Or.inl (Kind.Sub.mem hs rfl) | exact Or.inr rfl

theorem State.jobStep_keeps {ks : List Kind} {s₀ s : State} (hk : Keeps ks s₀ s) (hs : Kind.Sub [.regs, .mem, .ecc, .progs, .yards, .events, .power] ks)
    {m : Nat} {y : Nat} {n : Nat} : Keeps ks s₀ (State.jobStep s m y n) := by
  unfold State.jobStep
  try dsimp only
  repeat' with_reducible first
      | exact hk | exact Kind.Sub.mono rfl hs | apply Keeps.ite | apply State.setBoom_keeps | apply State.epiEntry_keeps
      | apply State.preEntry_keeps | assumption | split | apply Keeps.other | exact Or.inl (Kind.Sub.mem hs rfl) | exact Or.inr rfl

theorem State.startJob_keeps {ks : List Kind} {s₀ s : State} (hk : Keeps ks s₀ s) (hs : Kind.Sub [.regs, .mem, .ecc, .progs, .yards, .events, .power, .free] ks)
    {c : EngCmd} {m : Nat} {y : Nat} {n : Nat} {tags : Tags} : Keeps ks s₀ (State.startJob s c m y n tags) := by
  unfold State.startJob
  try dsimp only
  repeat' with_reducible first
      | exact hk | exact Kind.Sub.mono rfl hs | apply Keeps.ite | apply State.setBoom_keeps | apply State.openShadow_keeps
      | apply State.tagCheck_keeps | apply State.boomConfig_keeps | apply State.scaleConfig_keeps | apply State.jobStep_keeps
      | refine Keeps.foldl (fun s x hk => ?_) _ ?_ | assumption | split | apply Keeps.other | exact Or.inl (Kind.Sub.mem hs rfl)
      | exact Or.inr rfl

theorem State.writeOut_keeps {ks : List Kind} {s₀ s : State} (hk : Keeps ks s₀ s) (hs : Kind.Sub [.regs, .mem, .ecc, .progs, .yards, .events, .power] ks)
    {m : Nat} {y : Nat} {n : Nat} {o : BoomOut} : Keeps ks s₀ (State.writeOut s m y n o) := by
  unfold State.writeOut
  try dsimp only
  repeat' with_reducible first
      | exact hk | exact Kind.Sub.mono rfl hs | apply Keeps.ite | apply State.portWrite_keeps | apply State.tagOpen_keeps
      | apply State.tagClose_keeps | apply State.specCounts_keeps | assumption | split

theorem State.writePre_keeps {ks : List Kind} {s₀ s : State} (hk : Keeps ks s₀ s) (hs : Kind.Sub [.regs, .progs, .yards, .events] ks)
    {m : Nat} {y : Nat} {n : Nat} {o : BoomPre} : Keeps ks s₀ (State.writePre s m y n o) := by
  unfold State.writePre
  try dsimp only
  repeat' with_reducible first
      | exact hk | exact Kind.Sub.mono rfl hs | apply State.putEntry_keeps | apply State.specCauses_keeps | assumption

theorem State.boomStep_keeps {ks : List Kind} {s₀ s : State} (hk : Keeps ks s₀ s) (hs : Kind.Sub [.regs, .mem, .ecc, .progs, .yards, .events, .power] ks)
    {m : Nat} {y : Nat} {n : Nat} : Keeps ks s₀ (State.boomStep s m y n) := by
  unfold State.boomStep
  try dsimp only
  repeat' with_reducible first
      | exact hk | exact Kind.Sub.mono rfl hs | apply State.setBoom_keeps | apply State.joinPartials_keeps | apply State.jobStep_keeps
      | apply State.writeOut_keeps | apply State.writePre_keeps | refine Keeps.foldl (fun s x hk => ?_) _ ?_ | assumption
      | apply Keeps.other | exact Or.inl (Kind.Sub.mem hs rfl) | exact Or.inr rfl

theorem State.startChout_keeps {ks : List Kind} {s₀ s : State} (hk : Keeps ks s₀ s) (hs : Kind.Sub [.yards] ks)
    {m : Nat} {y : Nat} {n : Nat} {entry : Nat} : Keeps ks s₀ (State.startChout s m y n entry) := by
  unfold State.startChout
  try dsimp only
  repeat' with_reducible first
      | exact hk | exact Kind.Sub.mono rfl hs | apply Keeps.ite | apply State.setYard_keeps | assumption | apply Keeps.other
      | exact Or.inl (Kind.Sub.mem hs rfl) | exact Or.inr rfl

theorem State.startChin_keeps {ks : List Kind} {s₀ s : State} (hk : Keeps ks s₀ s) (hs : Kind.Sub [.regs, .progs, .yards, .events] ks)
    {p : Nat} {m : Nat} {y : Nat} {n : Nat} {entry : Nat} : Keeps ks s₀ (State.startChin s p m y n entry) := by
  unfold State.startChin
  try dsimp only
  repeat' with_reducible first
      | exact hk | exact Kind.Sub.mono rfl hs | apply State.setYard_keeps | apply State.sailHazard_keeps | apply State.putEntry_keeps
      | assumption | split | apply Keeps.other | exact Or.inl (Kind.Sub.mem hs rfl) | exact Or.inr rfl

theorem State.chainStep_keeps {ks : List Kind} {s₀ s : State} (hk : Keeps ks s₀ s) (hs : Kind.Sub [.yards] ks)
    {m : Nat} {y : Nat} : Keeps ks s₀ (State.chainStep s m y) := by
  unfold State.chainStep
  try dsimp only
  repeat' with_reducible first
      | exact hk | exact Kind.Sub.mono rfl hs | apply Keeps.ite | apply State.setYard_keeps | assumption | apply Keeps.other
      | exact Or.inl (Kind.Sub.mem hs rfl) | exact Or.inr rfl

theorem State.boomsStep_keeps {ks : List Kind} {s₀ s : State} (hk : Keeps ks s₀ s) (hs : Kind.Sub [.regs, .mem, .ecc, .progs, .yards, .events, .power] ks)
    {m : Nat} {y : Nat} : Keeps ks s₀ (State.boomsStep s m y) := by
  unfold State.boomsStep
  try dsimp only
  repeat' with_reducible first
      | exact hk | exact Kind.Sub.mono rfl hs | apply State.boomStep_keeps | refine Keeps.foldl (fun s x hk => ?_) _ ?_ | assumption

theorem State.tallyRow_keeps {ks : List Kind} {s₀ s : State} (hk : Keeps ks s₀ s) (hs : Kind.Sub [.regs, .progs, .yards, .events] ks)
    {p : Nat} {spec : Nat} {v : View} {r : Nat} {t : Tally} : Keeps ks s₀ (State.tallyRow s p spec v r t) := by
  unfold State.tallyRow
  try dsimp only
  repeat' with_reducible first
      | exact hk | exact Kind.Sub.mono rfl hs | apply State.specCounts_keeps | assumption | split

theorem State.putRow_keeps {ks : List Kind} {s₀ s : State} (hk : Keeps ks s₀ s) (hs : Kind.Sub [.regs, .mem, .ecc, .progs, .yards, .events, .power] ks)
    {p : Nat} {port : Nat} {v : View} {r : Nat} {es : List Nat} : Keeps ks s₀ (State.putRow s p port v r es) := by
  unfold State.putRow
  try dsimp only
  repeat' with_reducible first
      | exact hk | exact Kind.Sub.mono rfl hs | apply State.checkedStore_keeps | assumption

theorem State.writeRows_keeps {ks : List Kind} {s₀ s : State} (hk : Keeps ks s₀ s) (hs : Kind.Sub [.regs, .mem, .ecc, .progs, .yards, .events, .power] ks)
    {p : Nat} {port : Nat} {spec : Nat} {v : View} {rows : List (Nat × List Nat × Tally)} : Keeps ks s₀ (State.writeRows s p port spec v rows) := by
  unfold State.writeRows
  try dsimp only
  repeat' with_reducible first
      | exact hk | exact Kind.Sub.mono rfl hs | apply State.tallyRow_keeps | apply State.putRow_keeps
      | refine Keeps.foldl (fun s x hk => ?_) _ ?_ | assumption

theorem State.yardStep_keeps {ks : List Kind} {s₀ s : State} (hk : Keeps ks s₀ s) (hs : Kind.Sub [.regs, .mem, .ecc, .progs, .yards, .events, .power, .free] ks)
    {m : Nat} {y : Nat} : Keeps ks s₀ (State.yardStep s m y) := by
  unfold State.yardStep
  try dsimp only
  repeat' with_reducible first
      | exact hk | exact Kind.Sub.mono rfl hs | apply State.partStep_keeps | apply State.sailsStep_keeps | apply State.chainStep_keeps
      | apply State.boomsStep_keeps | assumption

end Sys2Proof.Machine
end

