-- ==== Sys2Proof/Laws/KeepsRedKernels.lean ====
section
/-! SUPPORT. The operations of Sys2Proof/Machine/RedKernels.lean keep (see Sys2Proof/Laws/KeepsBase.lean). -/

namespace Sys2Proof.Machine

theorem State.deliver_keeps {ks : List Kind} {s₀ s : State} (hk : Keeps ks s₀ s) (hs : Kind.Sub [.progs] ks)
    {p : Nat} {seq : Nat} {v : Word} {due : Nat} {reef : Option Nat} : Keeps ks s₀ (State.deliver s p seq v due reef) := by
  unfold State.deliver
  try dsimp only
  repeat' with_reducible first
      | exact hk | exact Kind.Sub.mono rfl hs | apply Keeps.ite | apply State.setCtx_keeps | assumption | apply Keeps.other
      | exact Or.inl (Kind.Sub.mem hs rfl) | exact Or.inr rfl

theorem State.reefRecord_keeps {ks : List Kind} {s₀ s : State} (hk : Keeps ks s₀ s) (hs : Kind.Sub [.regs] ks)
    {p : Nat} {m : Nat} {y : Nat} {op : Nat} {dtype : Nat} {dest : RedDest} {n : Nat} {status : Nat} : Keeps ks s₀ (State.reefRecord s p m y op dtype dest n status) := by
  unfold State.reefRecord
  try dsimp only
  repeat' with_reducible first
      | exact hk | exact Kind.Sub.mono rfl hs | apply State.put_keeps | apply State.setBits_keeps | apply State.perf_keeps | assumption
      | split | apply Keeps.other | exact Or.inl (Kind.Sub.mem hs rfl) | exact Or.inr rfl

theorem State.derivedConfig_keeps {ks : List Kind} {s₀ s : State} (hk : Keeps ks s₀ s) (hs : Kind.Sub [.regs] ks)
    {p : Nat} {d : View} : Keeps ks s₀ (State.derivedConfig s p d) := by
  unfold State.derivedConfig
  try dsimp only
  repeat' with_reducible first
      | exact hk | exact Kind.Sub.mono rfl hs | apply State.scaleConfig_keeps | assumption | split

theorem State.deriveRows_keeps {ks : List Kind} {s₀ s : State} (hk : Keeps ks s₀ s) (hs : Kind.Sub [.regs, .progs, .yards, .events] ks)
    {p : Nat} {d : View} {per : Nat} {res : List RedVal} : Keeps ks s₀ (State.deriveRows s p d per res) := by
  unfold State.deriveRows
  try dsimp only
  repeat' with_reducible first
      | exact hk | exact Kind.Sub.mono rfl hs | apply State.setDerived_keeps | apply State.tallyRow_keeps
      | apply State.derivedConfig_keeps | refine Keeps.foldl (fun s x hk => ?_) _ ?_ | assumption | split | apply Keeps.other
      | exact Or.inl (Kind.Sub.mem hs rfl) | exact Or.inr rfl

theorem State.takeUnit_keeps {ks : List Kind} {s₀ s : State} (hk : Keeps ks s₀ s) (hs : Kind.Sub [.yards] ks)
    {m : Nat} {y : Nat} {code : Nat} {cycles : Nat} : Keeps ks s₀ (State.takeUnit s m y code cycles) := by
  unfold State.takeUnit
  try dsimp only
  repeat' with_reducible first
      | exact hk | exact Kind.Sub.mono rfl hs | apply State.setYard_keeps | assumption | apply Keeps.other
      | exact Or.inl (Kind.Sub.mem hs rfl) | exact Or.inr rfl

theorem State.runArg_keeps {ks : List Kind} {s₀ s : State} (hk : Keeps ks s₀ s) (hs : Kind.Sub [.regs, .mem, .ecc, .progs, .yards, .events, .power] ks)
    {p : Nat} {seq : Nat} {m : Nat} {y : Nat} {op : Nat} {va : View} {d : View} {vb : View} {dest : RedDest} {valueOut : Bool} {count : Nat} {res : List (Nat × Nat × Tally)} : Keeps ks s₀ (State.runArg s p seq m y op va d vb dest valueOut count res) := by
  unfold State.runArg
  try dsimp only
  repeat' with_reducible first
      | exact hk | exact Kind.Sub.mono rfl hs | apply Keeps.ite | apply State.writeRows_keeps | apply State.deliver_keeps
      | apply State.reefRecord_keeps | apply State.takeUnit_keeps | refine Keeps.foldl (fun s x hk => ?_) _ ?_
      | refine Keeps.foldlFst (fun q x hk => ?_) _ ?_ | assumption | split

theorem State.runRed_keeps {ks : List Kind} {s₀ s : State} (hk : Keeps ks s₀ s) (hs : Kind.Sub [.regs, .mem, .ecc, .progs, .yards, .events, .power] ks)
    {p : Nat} {seq : Nat} {op : Nat} {dst : Slice} {a : Slice} {b : Slice} {dest : RedDest} {group : Nat} {axes : Nat} {valueOut : Bool} {count : Nat} : Keeps ks s₀ (State.runRed s p seq op dst a b dest group axes valueOut count) := by
  unfold State.runRed
  try dsimp only
  repeat' with_reducible first
      | exact hk | exact Kind.Sub.mono rfl hs | apply Keeps.ite | apply State.readWhere_keeps | apply State.writeRows_keeps
      | apply State.deliver_keeps | apply State.reefRecord_keeps | apply State.deriveRows_keeps | apply State.takeUnit_keeps
      | apply State.runArg_keeps | refine Keeps.foldl (fun s x hk => ?_) _ ?_ | refine Keeps.foldlFst (fun q x hk => ?_) _ ?_
      | assumption | split

end Sys2Proof.Machine
end

