-- ==== Sys2Proof/Laws/KeepsMatKernels.lean ====
section
/-! SUPPORT. The operations of Sys2Proof/Machine/MatKernels.lean keep (see Sys2Proof/Laws/KeepsBase.lean). -/

namespace Sys2Proof.Machine

theorem State.kernelConfig_keeps {ks : List Kind} {s₀ s : State} (hk : Keeps ks s₀ s) (hs : Kind.Sub [.regs, .yards, .free] ks)
    {p : Nat} {d : View} {a : View} {rec : Nat} {bias : Bool} : Keeps ks s₀ (State.kernelConfig s p d a rec bias) := by
  unfold State.kernelConfig
  try dsimp only
  repeat' with_reducible first
      | exact hk | exact Kind.Sub.mono rfl hs | apply State.boomConfig_keeps | assumption | split

theorem State.runMat_keeps {ks : List Kind} {s₀ s : State} (hk : Keeps ks s₀ s) (hs : Kind.Sub [.regs, .mem, .ecc, .progs, .yards, .events, .power, .free] ks)
    {p : Nat} {dst : Slice} {a : Slice} {b : Slice} {c : Slice} {bias : Bool} {rec : Nat} {need : View → View → Nat → Nat → Bool} {rows : State → Prog → View → View → View → View → List (Nat × List Nat × Tally)} : Keeps ks s₀ (State.runMat s p dst a b c bias rec need rows) := by
  unfold State.runMat
  try dsimp only
  repeat' with_reducible first
      | exact hk | exact Kind.Sub.mono rfl hs | apply Keeps.ite | apply State.readWhere_keeps | apply State.readAll_keeps
      | apply State.writeRows_keeps | apply State.kernelConfig_keeps | assumption

theorem State.runMm_keeps {ks : List Kind} {s₀ s : State} (hk : Keeps ks s₀ s) (hs : Kind.Sub [.regs, .mem, .ecc, .progs, .yards, .events, .power, .free] ks)
    {p : Nat} {dst : Slice} {a : Slice} {b : Slice} {c : Slice} {bias : Bool} {count : Nat} {rec : Nat} : Keeps ks s₀ (State.runMm s p dst a b c bias count rec) := by
  unfold State.runMm
  try dsimp only
  repeat' with_reducible first
      | exact hk | exact Kind.Sub.mono rfl hs | apply State.runMat_keeps | assumption

theorem State.runConv_keeps {ks : List Kind} {s₀ s : State} (hk : Keeps ks s₀ s) (hs : Kind.Sub [.regs, .mem, .ecc, .progs, .yards, .events, .power, .free] ks)
    {p : Nat} {tr : Bool} {dst : Slice} {a : Slice} {b : Slice} {c : Slice} {bias : Bool} {count : Nat} {rec : Nat} : Keeps ks s₀ (State.runConv s p tr dst a b c bias count rec) := by
  unfold State.runConv
  try dsimp only
  repeat' with_reducible first
      | exact hk | exact Kind.Sub.mono rfl hs | apply Keeps.ite | apply State.runMat_keeps | assumption

end Sys2Proof.Machine
end

