-- ==== Sys2Proof/Laws/KeepsVecKernels.lean ====
section
/-! SUPPORT. The operations of Sys2Proof/Machine/VecKernels.lean keep (see Sys2Proof/Laws/KeepsBase.lean). -/

namespace Sys2Proof.Machine

theorem State.vuRecord_keeps {ks : List Kind} {s₀ s : State} (hk : Keeps ks s₀ s) (hs : Kind.Sub [.regs] ks)
    {p : Nat} {m : Nat} {y : Nat} {op : Nat} {dtype : Nat} {n : Nat} {status : Nat} {oob : Nat} : Keeps ks s₀ (State.vuRecord s p m y op dtype n status oob) := by
  unfold State.vuRecord
  try dsimp only
  repeat' with_reducible first
      | exact hk | exact Kind.Sub.mono rfl hs | apply State.put_keeps | apply State.setBits_keeps | apply State.bump_keeps
      | apply State.perf_keeps | assumption

theorem State.gatherRange_keeps {ks : List Kind} {s₀ s : State} (hk : Keeps ks s₀ s) (hs : Kind.Sub [.regs, .progs, .events] ks)
    {p : Nat} {m : Nat} {y : Nat} : Keeps ks s₀ (State.gatherRange s p m y) := by
  unfold State.gatherRange
  try dsimp only
  repeat' with_reducible first
      | exact hk | exact Kind.Sub.mono rfl hs | apply Keeps.ite | apply State.raise_keeps | apply State.setCtx_keeps | assumption
      | apply Keeps.other | exact Or.inl (Kind.Sub.mem hs rfl) | exact Or.inr rfl

theorem State.vuShow_keeps {ks : List Kind} {s₀ s : State} (hk : Keeps ks s₀ s) (hs : Kind.Sub [.regs, .progs, .yards, .events] ks)
    {p : Nat} {m : Nat} {y : Nat} {spec : Nat} {op : Nat} {dtype : Nat} {n : Nat} {status : Nat} {oob : Nat} : Keeps ks s₀ (State.vuShow s p m y spec op dtype n status oob) := by
  unfold State.vuShow
  try dsimp only
  repeat' with_reducible first
      | exact hk | exact Kind.Sub.mono rfl hs | apply Keeps.ite | apply State.setYard_keeps | apply State.vuRecord_keeps
      | apply State.gatherRange_keeps | assumption | apply Keeps.other | exact Or.inl (Kind.Sub.mem hs rfl) | exact Or.inr rfl

theorem State.runVec_keeps {ks : List Kind} {s₀ s : State} (hk : Keeps ks s₀ s) (hs : Kind.Sub [.regs, .mem, .ecc, .progs, .yards, .events, .power] ks)
    {p : Nat} {spec : Nat} {op : Nat} {cond : Cond} {dst : Slice} {a : Slice} {b : Slice} {c : Slice} {imm : Option Word} {count : Nat} {rec : Nat} : Keeps ks s₀ (State.runVec s p spec op cond dst a b c imm count rec) := by
  unfold State.runVec
  try dsimp only
  repeat' with_reducible first
      | exact hk | exact Kind.Sub.mono rfl hs | apply Keeps.ite | apply State.readWhere_keeps | apply State.openShadow_keeps
      | apply State.writeRows_keeps | apply State.takeUnit_keeps | apply State.vuShow_keeps | refine Keeps.foldl (fun s x hk => ?_) _ ?_
      | assumption | split

end Sys2Proof.Machine
end

