-- ==== Sys2Proof/Laws/KeepsCrosstree.lean ====
section
/-! SUPPORT. The operations of Sys2Proof/Machine/Crosstree.lean keep (see Sys2Proof/Laws/KeepsBase.lean). -/

namespace Sys2Proof.Machine

theorem State.takeSerial_keeps {ks : List Kind} {s₀ s : State} (hk : Keeps ks s₀ s) (hs : Kind.Sub [.fabric] ks)
     : Keeps ks s₀ (State.takeSerial s) := by
  unfold State.takeSerial
  try dsimp only
  repeat' with_reducible first
      | exact hk | exact Kind.Sub.mono rfl hs | assumption | apply Keeps.other | exact Or.inl (Kind.Sub.mem hs rfl) | exact Or.inr rfl

theorem State.post_keeps {ks : List Kind} {s₀ s : State} (hk : Keeps ks s₀ s) (hs : Kind.Sub [.fabric] ks)
    {fs : List Flit} : Keeps ks s₀ (State.post s fs) := by
  unfold State.post
  try dsimp only
  repeat' with_reducible first
      | exact hk | exact Kind.Sub.mono rfl hs | assumption | apply Keeps.other | exact Or.inl (Kind.Sub.mem hs rfl) | exact Or.inr rfl

theorem State.mapTick_keeps {ks : List Kind} {s₀ s : State} (hk : Keeps ks s₀ s) (hs : Kind.Sub [.strm] ks)
    {id : Nat} {f : TickStrm → TickStrm} : Keeps ks s₀ (State.mapTick s id f) := by
  unfold State.mapTick
  try dsimp only
  repeat' with_reducible first
      | exact hk | exact Kind.Sub.mono rfl hs | apply Keeps.ite | assumption | apply Keeps.other | exact Or.inl (Kind.Sub.mem hs rfl)
      | exact Or.inr rfl

theorem State.showElems_keeps {ks : List Kind} {s₀ s : State} (hk : Keeps ks s₀ s) (hs : Kind.Sub [.regs, .strm] ks)
    {t : TickStrm} {n : Nat} : Keeps ks s₀ (State.showElems s t n) := by
  unfold State.showElems
  try dsimp only
  repeat' with_reducible first
      | exact hk | exact Kind.Sub.mono rfl hs | apply State.setReg_keeps | apply State.mapTick_keeps | assumption | apply Keeps.other
      | exact Or.inl (Kind.Sub.mem hs rfl) | exact Or.inr rfl

theorem State.strmPiece_keeps {ks : List Kind} {s₀ s : State} (hk : Keeps ks s₀ s) (hs : Kind.Sub [.regs, .progs, .yards, .strm, .events] ks)
    {id : Nat} {a : Nat} {n : Nat} {gen : Bool} {write : State → State} (hf : ∀ s, Keeps ks s₀ s → Keeps ks s₀ (write s)) : Keeps ks s₀ (State.strmPiece s id a n gen write) := by
  unfold State.strmPiece
  try dsimp only
  repeat' with_reducible first
      | exact hk | exact Kind.Sub.mono rfl hs | apply hf | apply Keeps.ite | apply State.tagOpen_keeps | apply State.tagClose_keeps
      | apply State.mapTick_keeps | apply State.showElems_keeps | assumption | split | apply Keeps.other
      | exact Or.inl (Kind.Sub.mem hs rfl) | exact Or.inr rfl

theorem State.stopStrm_keeps {ks : List Kind} {s₀ s : State} (hk : Keeps ks s₀ s) (hs : Kind.Sub [.regs, .progs, .fabric, .strm, .events] ks)
    {id : Nat} {a : Nat} {write : Bool} : Keeps ks s₀ (State.stopStrm s id a write) := by
  unfold State.stopStrm
  try dsimp only
  repeat' with_reducible first
      | exact hk | exact Kind.Sub.mono rfl hs | apply State.unitFault_keeps | apply State.windowFault_keeps | apply State.mapTick_keeps
      | assumption | split | apply Keeps.other | exact Or.inl (Kind.Sub.mem hs rfl) | exact Or.inr rfl

theorem State.useDir_keeps {ks : List Kind} {s₀ s : State} (hk : Keeps ks s₀ s) (hs : Kind.Sub [.progs, .fabric] ks)
    {k_ : Nat} {prog : Option Nat} : Keeps ks s₀ (State.useDir s k_ prog) := by
  unfold State.useDir
  try dsimp only
  repeat' with_reducible first
      | exact hk | exact Kind.Sub.mono rfl hs | apply Keeps.ite | apply State.setCond_keeps | assumption | split | apply Keeps.other
      | exact Or.inl (Kind.Sub.mem hs rfl) | exact Or.inr rfl

theorem State.launch_keeps {ks : List Kind} {s₀ s : State} (hk : Keeps ks s₀ s) (hs : Kind.Sub [.progs, .fabric] ks)
    {f : Flit} : Keeps ks s₀ (State.launch s f) := by
  unfold State.launch
  try dsimp only
  repeat' with_reducible first
      | exact hk | exact Kind.Sub.mono rfl hs | apply Keeps.ite | apply State.takeSerial_keeps | apply State.useDir_keeps | assumption
      | apply Keeps.other | exact Or.inl (Kind.Sub.mem hs rfl) | exact Or.inr rfl

theorem State.sendFlit_keeps {ks : List Kind} {s₀ s : State} (hk : Keeps ks s₀ s) (hs : Kind.Sub [.regs, .progs, .fabric, .strm, .events] ks)
    {f : Flit} : Keeps ks s₀ (State.sendFlit s f) := by
  unfold State.sendFlit
  try dsimp only
  repeat' with_reducible first
      | exact hk | exact Kind.Sub.mono rfl hs | apply Keeps.ite | apply State.stopStrm_keeps | apply State.launch_keeps | assumption
      | apply Keeps.other | exact Or.inl (Kind.Sub.mem hs rfl) | exact Or.inr rfl

theorem State.outSlot_keeps {ks : List Kind} {s₀ s : State} (hk : Keeps ks s₀ s) (hs : Kind.Sub [.regs, .progs, .fabric, .strm, .events] ks)
    {k_ : Nat} {o : Nat} : Keeps ks s₀ (State.outSlot s k_ o) := by
  unfold State.outSlot
  try dsimp only
  repeat' with_reducible first
      | exact hk | exact Kind.Sub.mono rfl hs | apply Keeps.ite | apply State.sendFlit_keeps | assumption | split

theorem State.slotsStep_keeps {ks : List Kind} {s₀ s : State} (hk : Keeps ks s₀ s) (hs : Kind.Sub [.regs, .progs, .fabric, .strm, .events] ks)
     : Keeps ks s₀ (State.slotsStep s) := by
  unfold State.slotsStep
  try dsimp only
  repeat' with_reducible first
      | exact hk | exact Kind.Sub.mono rfl hs | apply Keeps.ite | apply State.outSlot_keeps | refine Keeps.foldl (fun s x hk => ?_) _ ?_
      | assumption | split

end Sys2Proof.Machine
end

