-- ==== Sys2Proof/Laws/KeepsPatterns.lean ====
section
/-! SUPPORT. The operations of Sys2Proof/Machine/Patterns.lean keep (see Sys2Proof/Laws/KeepsBase.lean). -/

namespace Sys2Proof.Machine

theorem State.setPctx_keeps {ks : List Kind} {s₀ s : State} (hk : Keeps ks s₀ s) (hs : Kind.Sub [.strm] ks)
    {r : Nat} {c : PctxSt} : Keeps ks s₀ (State.setPctx s r c) := by
  unfold State.setPctx
  try dsimp only
  repeat' with_reducible first
      | exact hk | exact Kind.Sub.mono rfl hs | assumption | apply Keeps.other | exact Or.inl (Kind.Sub.mem hs rfl) | exact Or.inr rfl

end Sys2Proof.Machine
end

