-- ==== Sys2Proof/Laws/KeepsTickStreams.lean ====
section
/-! SUPPORT. The operations of Sys2Proof/Machine/TickStreams.lean keep (see Sys2Proof/Laws/KeepsBase.lean). -/

namespace Sys2Proof.Machine

theorem State.showTick_keeps {ks : List Kind} {s₀ s : State} (hk : Keeps ks s₀ s) (hs : Kind.Sub [.regs] ks)
    {t : TickStrm} {desc : List Byte} : Keeps ks s₀ (State.showTick s t desc) := by
  unfold State.showTick
  try dsimp only
  repeat' with_reducible first
      | exact hk | exact Kind.Sub.mono rfl hs | apply State.setReg_keeps | apply State.put_keeps
      | refine Keeps.foldl (fun s x hk => ?_) _ ?_ | assumption

theorem State.touchPeak_keeps {ks : List Kind} {s₀ s : State} (hk : Keeps ks s₀ s) (hs : Kind.Sub [.regs, .free] ks)
    {engine : Nat} : Keeps ks s₀ (State.touchPeak s engine) := by
  unfold State.touchPeak
  try dsimp only
  repeat' with_reducible first
      | exact hk | exact Kind.Sub.mono rfl hs | apply State.put_keeps | apply State.takeFree_keeps | assumption

theorem State.farRead_keeps {ks : List Kind} {s₀ s : State} (hk : Keeps ks s₀ s) (hs : Kind.Sub [.regs, .progs, .yards, .fabric, .events, .hyper, .power] ks)
    {t : TickStrm} {q : Nat × Nat} : Keeps ks s₀ (State.farRead s t q) := by
  unfold State.farRead
  try dsimp only
  repeat' with_reducible first
      | exact hk | exact Kind.Sub.mono rfl hs | apply State.progRead_keeps | apply State.hrRequest_keeps | apply State.post_keeps
      | refine Keeps.foldl (fun s x hk => ?_) _ ?_ | assumption | split

theorem State.beginStrm_keeps {ks : List Kind} {s₀ s : State} (hk : Keeps ks s₀ s) (hs : Kind.Sub [.regs, .progs, .yards, .fabric, .strm, .events, .hyper, .power, .free] ks)
    {t : TickStrm} {desc : List Byte} {reads : List (Nat × Nat)} : Keeps ks s₀ (State.beginStrm s t desc reads) := by
  unfold State.beginStrm
  try dsimp only
  repeat' with_reducible first
      | exact hk | exact Kind.Sub.mono rfl hs | apply Keeps.ite | apply State.setCtx_keeps | apply State.takeSerial_keeps
      | apply State.stopStrm_keeps | apply State.showTick_keeps | apply State.touchPeak_keeps | apply State.farRead_keeps
      | refine Keeps.foldl (fun s x hk => ?_) _ ?_ | assumption | split | apply Keeps.other | exact Or.inl (Kind.Sub.mem hs rfl)
      | exact Or.inr rfl

theorem State.startStrm_keeps {ks : List Kind} {s₀ s : State} (hk : Keeps ks s₀ s) (hs : Kind.Sub [.regs, .progs, .yards, .fabric, .strm, .events, .hyper, .power, .free] ks)
    {p : Nat} {seq : Nat} {dst : Slice} {a : Slice} {count : Nat} {xform : Nat} {chans : Nat} {tap : Bool} {flag : Nat} {tags : Tags} : Keeps ks s₀ (State.startStrm s p seq dst a count xform chans tap flag tags) := by
  unfold State.startStrm
  try dsimp only
  repeat' with_reducible first
      | exact hk | exact Kind.Sub.mono rfl hs | apply Keeps.ite | apply State.takeFree_keeps | apply State.setProg_keeps
      | apply State.beginStrm_keeps | assumption | split | apply Keeps.other | exact Or.inl (Kind.Sub.mem hs rfl) | exact Or.inr rfl

theorem State.strmCheck_keeps {ks : List Kind} {s₀ s : State} (hk : Keeps ks s₀ s) (hs : Kind.Sub [.regs, .progs, .yards, .strm, .events] ks)
    {t : TickStrm} {a : Nat} {rest : List (Nat × Nat)} : Keeps ks s₀ (State.strmCheck s t a rest) := by
  unfold State.strmCheck
  try dsimp only
  repeat' with_reducible first
      | exact hk | exact Kind.Sub.mono rfl hs | apply Keeps.ite | apply State.tagAccess_keeps | apply State.mapTick_keeps | assumption
      | split | apply Keeps.other | exact Or.inl (Kind.Sub.mem hs rfl) | exact Or.inr rfl

theorem State.strmRead_keeps {ks : List Kind} {s₀ s : State} (hk : Keeps ks s₀ s) (hs : Kind.Sub [.regs, .mem, .ecc, .progs, .yards, .strm, .events, .power] ks)
    {t : TickStrm} {q : Nat × Nat} {rest : List (Nat × Nat)} : Keeps ks s₀ (State.strmRead s t q rest) := by
  unfold State.strmRead
  try dsimp only
  repeat' with_reducible first
      | exact hk | exact Kind.Sub.mono rfl hs | apply Keeps.ite | apply State.lineReads_keeps | apply State.mapTick_keeps
      | apply State.strmCheck_keeps | assumption | split | apply Keeps.other | exact Or.inl (Kind.Sub.mem hs rfl) | exact Or.inr rfl

theorem State.strmWrite_keeps {ks : List Kind} {s₀ s : State} (hk : Keeps ks s₀ s) (hs : Kind.Sub [.regs, .mem, .ecc, .progs, .yards, .strm, .events, .power] ks)
    {t : TickStrm} {q : Nat × List Byte} {rest : List (Nat × List Byte)} : Keeps ks s₀ (State.strmWrite s t q rest) := by
  unfold State.strmWrite
  try dsimp only
  repeat' with_reducible first
      | exact hk | exact Kind.Sub.mono rfl hs | apply Keeps.ite | apply State.yardWrite_keeps | apply State.mapTick_keeps
      | refine State.strmPiece_keeps ?_ (Kind.Sub.mono rfl hs) (fun s hk => ?_) | assumption | split | apply Keeps.other
      | exact Or.inl (Kind.Sub.mem hs rfl) | exact Or.inr rfl

theorem State.strmSend_keeps {ks : List Kind} {s₀ s : State} (hk : Keeps ks s₀ s) (hs : Kind.Sub [.fabric, .strm] ks)
    {t : TickStrm} : Keeps ks s₀ (State.strmSend s t) := by
  unfold State.strmSend
  try dsimp only
  repeat' with_reducible first
      | exact hk | exact Kind.Sub.mono rfl hs | apply State.post_keeps | apply State.mapTick_keeps | assumption | split
      | apply Keeps.other | exact Or.inl (Kind.Sub.mem hs rfl) | exact Or.inr rfl

theorem State.strmStep_keeps {ks : List Kind} {s₀ s : State} (hk : Keeps ks s₀ s) (hs : Kind.Sub [.regs, .mem, .ecc, .progs, .yards, .fabric, .strm, .events, .hyper, .power] ks)
    {id : Nat} : Keeps ks s₀ (State.strmStep s id) := by
  unfold State.strmStep
  try dsimp only
  repeat' with_reducible first
      | exact hk | exact Kind.Sub.mono rfl hs | apply Keeps.ite | apply State.mapTick_keeps | apply State.farRead_keeps
      | apply State.strmRead_keeps | apply State.strmWrite_keeps | apply State.strmSend_keeps | assumption | split | apply Keeps.other
      | exact Or.inl (Kind.Sub.mem hs rfl) | exact Or.inr rfl

theorem State.strmsStep_keeps {ks : List Kind} {s₀ s : State} (hk : Keeps ks s₀ s) (hs : Kind.Sub [.regs, .mem, .ecc, .progs, .yards, .fabric, .strm, .events, .hyper, .power] ks)
     : Keeps ks s₀ (State.strmsStep s) := by
  unfold State.strmsStep
  try dsimp only
  repeat' with_reducible first
      | exact hk | exact Kind.Sub.mono rfl hs | apply State.strmStep_keeps | refine Keeps.foldl (fun s x hk => ?_) _ ?_ | assumption

theorem State.leaveChan_keeps {ks : List Kind} {s₀ s : State} (hk : Keeps ks s₀ s) (hs : Kind.Sub [.regs, .progs, .strm] ks)
    {t : TickStrm} : Keeps ks s₀ (State.leaveChan s t) := by
  unfold State.leaveChan
  try dsimp only
  repeat' with_reducible first
      | exact hk | exact Kind.Sub.mono rfl hs | apply State.put_keeps | apply State.setCtx_keeps | assumption | apply Keeps.other
      | exact Or.inl (Kind.Sub.mem hs rfl) | exact Or.inr rfl

end Sys2Proof.Machine
end

