-- ==== Sys2Proof/Laws/KeepsKernels.lean ====
section
/-! SUPPORT. The operations of Sys2Proof/Machine/Kernels.lean keep (see Sys2Proof/Laws/KeepsBase.lean). -/

namespace Sys2Proof.Machine

theorem State.nameTags_keeps {ks : List Kind} {s₀ s : State} (hk : Keeps ks s₀ s) (hs : Kind.Sub [.yards] ks)
    {m : Nat} {y : Nat} {c : EngCmd} : Keeps ks s₀ (State.nameTags s m y c).1 := by
  unfold State.nameTags
  try dsimp only
  repeat' with_reducible first
      | exact hk | exact Kind.Sub.mono rfl hs | apply State.nameWrites_keeps | assumption
      | exact Keeps.ofFst (State.nameWrites_keeps hk (Kind.Sub.mono rfl hs)) (by assumption) | split | split | dsimp only

theorem State.tripChecks_keeps {ks : List Kind} {s₀ s : State} (hk : Keeps ks s₀ s) (hs : Kind.Sub [.regs, .progs, .yards, .events] ks)
    {p : Nat} {spec : Nat} {seq : Nat} {k_ : Kernel} {tags : Tags} : Keeps ks s₀ (State.tripChecks s p spec seq k_ tags) := by
  unfold State.tripChecks
  try dsimp only
  repeat' with_reducible first
      | exact hk | exact Kind.Sub.mono rfl hs | apply State.tagCheck_keeps | apply State.tagWrite_keeps
      | refine Keeps.foldl (fun s x hk => ?_) _ ?_ | assumption

theorem State.runBoomCnt_keeps {ks : List Kind} {s₀ s : State} (hk : Keeps ks s₀ s) (hs : Kind.Sub [.progs] ks)
    {p : Nat} {seq : Nat} {rtz : Bool} {tid : Nat} : Keeps ks s₀ (State.runBoomCnt s p seq rtz tid) := by
  unfold State.runBoomCnt
  try dsimp only
  repeat' with_reducible first
      | exact hk | exact Kind.Sub.mono rfl hs | apply Keeps.ite | apply State.deliver_keeps | refine Keeps.foldl (fun s x hk => ?_) _ ?_
      | assumption

theorem State.runKernel_keeps {ks : List Kind} {s₀ s : State} (hk : Keeps ks s₀ s) (hs : Kind.Sub [.regs, .mem, .ecc, .progs, .yards, .fabric, .strm, .events, .hyper, .power, .free] ks)
    {p : Nat} {spec : Nat} {seq : Nat} {k_ : Kernel} {tags : Tags} : Keeps ks s₀ (State.runKernel s p spec seq k_ tags) := by
  unfold State.runKernel
  try dsimp only
  repeat' with_reducible first
      | exact hk | exact Kind.Sub.mono rfl hs | apply State.runRed_keeps | apply State.runMm_keeps | apply State.runConv_keeps
      | apply State.runVec_keeps | apply State.startStrm_keeps | apply State.tripChecks_keeps | apply State.runBoomCnt_keeps | assumption
      | split

theorem State.issueKernel_keeps {ks : List Kind} {s₀ s : State} (hk : Keeps ks s₀ s) (hs : Kind.Sub [.regs, .progs, .yards, .events] ks)
    {p : Nat} {g : Guard} {i : Instr} {k_ : ProgRegs → Kernel} : Keeps ks s₀ (State.issueKernel s p g i k_) := by
  unfold State.issueKernel
  try dsimp only
  repeat' with_reducible first
      | exact hk | exact Kind.Sub.mono rfl hs | refine State.issueCmd_keeps ?_ (Kind.Sub.mono rfl hs) (fun s hk => ?_)
      | apply State.enterQueue_keeps | assumption

theorem execMmI8_keeps {ks : List Kind} {s₀ s s₁ : State} (hk : Keeps ks s₀ s) (hs : Kind.Sub [.regs, .progs, .yards, .events] ks) {p : Nat} {g : Guard} {o : MatOps}
    (hx : execMmI8 p g o s = .next s₁) : Keeps ks s₀ s₁ := by
  unfold execMmI8 at hx
  injection hx with hx
  subst hx
  try dsimp only
  repeat' with_reducible first
      | exact hk | exact Kind.Sub.mono rfl hs | apply State.issueKernel_keeps | assumption

theorem execMmW4a8_keeps {ks : List Kind} {s₀ s s₁ : State} (hk : Keeps ks s₀ s) (hs : Kind.Sub [.regs, .progs, .yards, .events] ks) {p : Nat} {g : Guard} {o : MatOps}
    (hx : execMmW4a8 p g o s = .next s₁) : Keeps ks s₀ s₁ := by
  unfold execMmW4a8 at hx
  injection hx with hx
  subst hx
  try dsimp only
  repeat' with_reducible first
      | exact hk | exact Kind.Sub.mono rfl hs | apply State.issueKernel_keeps | assumption

theorem execMmC4_keeps {ks : List Kind} {s₀ s s₁ : State} (hk : Keeps ks s₀ s) (hs : Kind.Sub [.regs, .progs, .yards, .events] ks) {p : Nat} {g : Guard} {o : MatOps}
    (hx : execMmC4 p g o s = .next s₁) : Keeps ks s₀ s₁ := by
  unfold execMmC4 at hx
  injection hx with hx
  subst hx
  try dsimp only
  repeat' with_reducible first
      | exact hk | exact Kind.Sub.mono rfl hs | apply State.issueKernel_keeps | assumption

theorem execConv_keeps {ks : List Kind} {s₀ s s₁ : State} (hk : Keeps ks s₀ s) (hs : Kind.Sub [.regs, .progs, .yards, .events] ks) {p : Nat} {g : Guard} {o : MatOps}
    (hx : execConv p g o s = .next s₁) : Keeps ks s₀ s₁ := by
  unfold execConv at hx
  injection hx with hx
  subst hx
  try dsimp only
  repeat' with_reducible first
      | exact hk | exact Kind.Sub.mono rfl hs | apply State.issueKernel_keeps | assumption

theorem execTconv_keeps {ks : List Kind} {s₀ s s₁ : State} (hk : Keeps ks s₀ s) (hs : Kind.Sub [.regs, .progs, .yards, .events] ks) {p : Nat} {g : Guard} {o : MatOps}
    (hx : execTconv p g o s = .next s₁) : Keeps ks s₀ s₁ := by
  unfold execTconv at hx
  injection hx with hx
  subst hx
  try dsimp only
  repeat' with_reducible first
      | exact hk | exact Kind.Sub.mono rfl hs | apply State.issueKernel_keeps | assumption

theorem execRedSum_keeps {ks : List Kind} {s₀ s s₁ : State} (hk : Keeps ks s₀ s) (hs : Kind.Sub [.regs, .progs, .yards, .events] ks) {p : Nat} {g : Guard} {o : RedOps}
    (hx : execRedSum p g o s = .next s₁) : Keeps ks s₀ s₁ := by
  unfold execRedSum at hx
  injection hx with hx
  subst hx
  try dsimp only
  repeat' with_reducible first
      | exact hk | exact Kind.Sub.mono rfl hs | apply State.issueKernel_keeps | assumption

theorem execRedSumsq_keeps {ks : List Kind} {s₀ s s₁ : State} (hk : Keeps ks s₀ s) (hs : Kind.Sub [.regs, .progs, .yards, .events] ks) {p : Nat} {g : Guard} {o : RedOps}
    (hx : execRedSumsq p g o s = .next s₁) : Keeps ks s₀ s₁ := by
  unfold execRedSumsq at hx
  injection hx with hx
  subst hx
  try dsimp only
  repeat' with_reducible first
      | exact hk | exact Kind.Sub.mono rfl hs | apply State.issueKernel_keeps | assumption

theorem execRedMax_keeps {ks : List Kind} {s₀ s s₁ : State} (hk : Keeps ks s₀ s) (hs : Kind.Sub [.regs, .progs, .yards, .events] ks) {p : Nat} {g : Guard} {o : RedOps}
    (hx : execRedMax p g o s = .next s₁) : Keeps ks s₀ s₁ := by
  unfold execRedMax at hx
  injection hx with hx
  subst hx
  try dsimp only
  repeat' with_reducible first
      | exact hk | exact Kind.Sub.mono rfl hs | apply State.issueKernel_keeps | assumption

theorem execRedMin_keeps {ks : List Kind} {s₀ s s₁ : State} (hk : Keeps ks s₀ s) (hs : Kind.Sub [.regs, .progs, .yards, .events] ks) {p : Nat} {g : Guard} {o : RedOps}
    (hx : execRedMin p g o s = .next s₁) : Keeps ks s₀ s₁ := by
  unfold execRedMin at hx
  injection hx with hx
  subst hx
  try dsimp only
  repeat' with_reducible first
      | exact hk | exact Kind.Sub.mono rfl hs | apply State.issueKernel_keeps | assumption

theorem execRedMaxabs_keeps {ks : List Kind} {s₀ s s₁ : State} (hk : Keeps ks s₀ s) (hs : Kind.Sub [.regs, .progs, .yards, .events] ks) {p : Nat} {g : Guard} {o : RedOps}
    (hx : execRedMaxabs p g o s = .next s₁) : Keeps ks s₀ s₁ := by
  unfold execRedMaxabs at hx
  injection hx with hx
  subst hx
  try dsimp only
  repeat' with_reducible first
      | exact hk | exact Kind.Sub.mono rfl hs | apply State.issueKernel_keeps | assumption

theorem execRedNz_keeps {ks : List Kind} {s₀ s s₁ : State} (hk : Keeps ks s₀ s) (hs : Kind.Sub [.regs, .progs, .yards, .events] ks) {p : Nat} {g : Guard} {o : RedOps}
    (hx : execRedNz p g o s = .next s₁) : Keeps ks s₀ s₁ := by
  unfold execRedNz at hx
  injection hx with hx
  subst hx
  try dsimp only
  repeat' with_reducible first
      | exact hk | exact Kind.Sub.mono rfl hs | apply State.issueKernel_keeps | assumption

theorem execArgmaxC_keeps {ks : List Kind} {s₀ s s₁ : State} (hk : Keeps ks s₀ s) (hs : Kind.Sub [.regs, .progs, .yards, .events] ks) {p : Nat} {g : Guard} {o : RedOps}
    (hx : execArgmaxC p g o s = .next s₁) : Keeps ks s₀ s₁ := by
  unfold execArgmaxC at hx
  injection hx with hx
  subst hx
  try dsimp only
  repeat' with_reducible first
      | exact hk | exact Kind.Sub.mono rfl hs | apply State.issueKernel_keeps | assumption

theorem execArgminC_keeps {ks : List Kind} {s₀ s s₁ : State} (hk : Keeps ks s₀ s) (hs : Kind.Sub [.regs, .progs, .yards, .events] ks) {p : Nat} {g : Guard} {o : RedOps}
    (hx : execArgminC p g o s = .next s₁) : Keeps ks s₀ s₁ := by
  unfold execArgminC at hx
  injection hx with hx
  subst hx
  try dsimp only
  repeat' with_reducible first
      | exact hk | exact Kind.Sub.mono rfl hs | apply State.issueKernel_keeps | assumption

theorem execVopAdd_keeps {ks : List Kind} {s₀ s s₁ : State} (hk : Keeps ks s₀ s) (hs : Kind.Sub [.regs, .progs, .yards, .events] ks) {p : Nat} {g : Guard} {o : VecOps}
    (hx : execVopAdd p g o s = .next s₁) : Keeps ks s₀ s₁ := by
  unfold execVopAdd at hx
  injection hx with hx
  subst hx
  try dsimp only
  repeat' with_reducible first
      | exact hk | exact Kind.Sub.mono rfl hs | apply State.issueKernel_keeps | assumption

theorem execVopSub_keeps {ks : List Kind} {s₀ s s₁ : State} (hk : Keeps ks s₀ s) (hs : Kind.Sub [.regs, .progs, .yards, .events] ks) {p : Nat} {g : Guard} {o : VecOps}
    (hx : execVopSub p g o s = .next s₁) : Keeps ks s₀ s₁ := by
  unfold execVopSub at hx
  injection hx with hx
  subst hx
  try dsimp only
  repeat' with_reducible first
      | exact hk | exact Kind.Sub.mono rfl hs | apply State.issueKernel_keeps | assumption

theorem execVopMul_keeps {ks : List Kind} {s₀ s s₁ : State} (hk : Keeps ks s₀ s) (hs : Kind.Sub [.regs, .progs, .yards, .events] ks) {p : Nat} {g : Guard} {o : VecOps}
    (hx : execVopMul p g o s = .next s₁) : Keeps ks s₀ s₁ := by
  unfold execVopMul at hx
  injection hx with hx
  subst hx
  try dsimp only
  repeat' with_reducible first
      | exact hk | exact Kind.Sub.mono rfl hs | apply State.issueKernel_keeps | assumption

theorem execVopMax_keeps {ks : List Kind} {s₀ s s₁ : State} (hk : Keeps ks s₀ s) (hs : Kind.Sub [.regs, .progs, .yards, .events] ks) {p : Nat} {g : Guard} {o : VecOps}
    (hx : execVopMax p g o s = .next s₁) : Keeps ks s₀ s₁ := by
  unfold execVopMax at hx
  injection hx with hx
  subst hx
  try dsimp only
  repeat' with_reducible first
      | exact hk | exact Kind.Sub.mono rfl hs | apply State.issueKernel_keeps | assumption

theorem execVopMin_keeps {ks : List Kind} {s₀ s s₁ : State} (hk : Keeps ks s₀ s) (hs : Kind.Sub [.regs, .progs, .yards, .events] ks) {p : Nat} {g : Guard} {o : VecOps}
    (hx : execVopMin p g o s = .next s₁) : Keeps ks s₀ s₁ := by
  unfold execVopMin at hx
  injection hx with hx
  subst hx
  try dsimp only
  repeat' with_reducible first
      | exact hk | exact Kind.Sub.mono rfl hs | apply State.issueKernel_keeps | assumption

theorem execVopAbs_keeps {ks : List Kind} {s₀ s s₁ : State} (hk : Keeps ks s₀ s) (hs : Kind.Sub [.regs, .progs, .yards, .events] ks) {p : Nat} {g : Guard} {o : VecOps}
    (hx : execVopAbs p g o s = .next s₁) : Keeps ks s₀ s₁ := by
  unfold execVopAbs at hx
  injection hx with hx
  subst hx
  try dsimp only
  repeat' with_reducible first
      | exact hk | exact Kind.Sub.mono rfl hs | apply State.issueKernel_keeps | assumption

theorem execVopNeg_keeps {ks : List Kind} {s₀ s s₁ : State} (hk : Keeps ks s₀ s) (hs : Kind.Sub [.regs, .progs, .yards, .events] ks) {p : Nat} {g : Guard} {o : VecOps}
    (hx : execVopNeg p g o s = .next s₁) : Keeps ks s₀ s₁ := by
  unfold execVopNeg at hx
  injection hx with hx
  subst hx
  try dsimp only
  repeat' with_reducible first
      | exact hk | exact Kind.Sub.mono rfl hs | apply State.issueKernel_keeps | assumption

theorem execVopSel_keeps {ks : List Kind} {s₀ s s₁ : State} (hk : Keeps ks s₀ s) (hs : Kind.Sub [.regs, .progs, .yards, .events] ks) {p : Nat} {g : Guard} {cond : Cond} {o : VecOps}
    (hx : execVopSel p g cond o s = .next s₁) : Keeps ks s₀ s₁ := by
  unfold execVopSel at hx
  injection hx with hx
  subst hx
  try dsimp only
  repeat' with_reducible first
      | exact hk | exact Kind.Sub.mono rfl hs | apply State.issueKernel_keeps | assumption

theorem execVopFma_keeps {ks : List Kind} {s₀ s s₁ : State} (hk : Keeps ks s₀ s) (hs : Kind.Sub [.regs, .progs, .yards, .events] ks) {p : Nat} {g : Guard} {o : VecOps}
    (hx : execVopFma p g o s = .next s₁) : Keeps ks s₀ s₁ := by
  unfold execVopFma at hx
  injection hx with hx
  subst hx
  try dsimp only
  repeat' with_reducible first
      | exact hk | exact Kind.Sub.mono rfl hs | apply State.issueKernel_keeps | assumption

theorem execVopCvt_keeps {ks : List Kind} {s₀ s s₁ : State} (hk : Keeps ks s₀ s) (hs : Kind.Sub [.regs, .progs, .yards, .events] ks) {p : Nat} {g : Guard} {o : VecOps}
    (hx : execVopCvt p g o s = .next s₁) : Keeps ks s₀ s₁ := by
  unfold execVopCvt at hx
  injection hx with hx
  subst hx
  try dsimp only
  repeat' with_reducible first
      | exact hk | exact Kind.Sub.mono rfl hs | apply State.issueKernel_keeps | assumption

theorem execVopRcp_keeps {ks : List Kind} {s₀ s s₁ : State} (hk : Keeps ks s₀ s) (hs : Kind.Sub [.regs, .progs, .yards, .events] ks) {p : Nat} {g : Guard} {o : VecOps}
    (hx : execVopRcp p g o s = .next s₁) : Keeps ks s₀ s₁ := by
  unfold execVopRcp at hx
  injection hx with hx
  subst hx
  try dsimp only
  repeat' with_reducible first
      | exact hk | exact Kind.Sub.mono rfl hs | apply State.issueKernel_keeps | assumption

theorem execVopSqrt_keeps {ks : List Kind} {s₀ s s₁ : State} (hk : Keeps ks s₀ s) (hs : Kind.Sub [.regs, .progs, .yards, .events] ks) {p : Nat} {g : Guard} {o : VecOps}
    (hx : execVopSqrt p g o s = .next s₁) : Keeps ks s₀ s₁ := by
  unfold execVopSqrt at hx
  injection hx with hx
  subst hx
  try dsimp only
  repeat' with_reducible first
      | exact hk | exact Kind.Sub.mono rfl hs | apply State.issueKernel_keeps | assumption

theorem execVopFtab_keeps {ks : List Kind} {s₀ s s₁ : State} (hk : Keeps ks s₀ s) (hs : Kind.Sub [.regs, .progs, .yards, .events] ks) {p : Nat} {g : Guard} {o : VecOps}
    (hx : execVopFtab p g o s = .next s₁) : Keeps ks s₀ s₁ := by
  unfold execVopFtab at hx
  injection hx with hx
  subst hx
  try dsimp only
  repeat' with_reducible first
      | exact hk | exact Kind.Sub.mono rfl hs | apply State.issueKernel_keeps | assumption

theorem execVopSoftmax_keeps {ks : List Kind} {s₀ s s₁ : State} (hk : Keeps ks s₀ s) (hs : Kind.Sub [.regs, .progs, .yards, .events] ks) {p : Nat} {g : Guard} {o : VecOps}
    (hx : execVopSoftmax p g o s = .next s₁) : Keeps ks s₀ s₁ := by
  unfold execVopSoftmax at hx
  injection hx with hx
  subst hx
  try dsimp only
  repeat' with_reducible first
      | exact hk | exact Kind.Sub.mono rfl hs | apply State.issueKernel_keeps | assumption

theorem execVopLnorm_keeps {ks : List Kind} {s₀ s s₁ : State} (hk : Keeps ks s₀ s) (hs : Kind.Sub [.regs, .progs, .yards, .events] ks) {p : Nat} {g : Guard} {o : VecOps}
    (hx : execVopLnorm p g o s = .next s₁) : Keeps ks s₀ s₁ := by
  unfold execVopLnorm at hx
  injection hx with hx
  subst hx
  try dsimp only
  repeat' with_reducible first
      | exact hk | exact Kind.Sub.mono rfl hs | apply State.issueKernel_keeps | assumption

theorem execVopRmsnorm_keeps {ks : List Kind} {s₀ s s₁ : State} (hk : Keeps ks s₀ s) (hs : Kind.Sub [.regs, .progs, .yards, .events] ks) {p : Nat} {g : Guard} {o : VecOps}
    (hx : execVopRmsnorm p g o s = .next s₁) : Keeps ks s₀ s₁ := by
  unfold execVopRmsnorm at hx
  injection hx with hx
  subst hx
  try dsimp only
  repeat' with_reducible first
      | exact hk | exact Kind.Sub.mono rfl hs | apply State.issueKernel_keeps | assumption

theorem execVopMaxpool_keeps {ks : List Kind} {s₀ s s₁ : State} (hk : Keeps ks s₀ s) (hs : Kind.Sub [.regs, .progs, .yards, .events] ks) {p : Nat} {g : Guard} {o : VecOps}
    (hx : execVopMaxpool p g o s = .next s₁) : Keeps ks s₀ s₁ := by
  unfold execVopMaxpool at hx
  injection hx with hx
  subst hx
  try dsimp only
  repeat' with_reducible first
      | exact hk | exact Kind.Sub.mono rfl hs | apply State.issueKernel_keeps | assumption

theorem execVopAvgpool_keeps {ks : List Kind} {s₀ s s₁ : State} (hk : Keeps ks s₀ s) (hs : Kind.Sub [.regs, .progs, .yards, .events] ks) {p : Nat} {g : Guard} {o : VecOps}
    (hx : execVopAvgpool p g o s = .next s₁) : Keeps ks s₀ s₁ := by
  unfold execVopAvgpool at hx
  injection hx with hx
  subst hx
  try dsimp only
  repeat' with_reducible first
      | exact hk | exact Kind.Sub.mono rfl hs | apply State.issueKernel_keeps | assumption

theorem execVopRszNear_keeps {ks : List Kind} {s₀ s s₁ : State} (hk : Keeps ks s₀ s) (hs : Kind.Sub [.regs, .progs, .yards, .events] ks) {p : Nat} {g : Guard} {o : VecOps}
    (hx : execVopRszNear p g o s = .next s₁) : Keeps ks s₀ s₁ := by
  unfold execVopRszNear at hx
  injection hx with hx
  subst hx
  try dsimp only
  repeat' with_reducible first
      | exact hk | exact Kind.Sub.mono rfl hs | apply State.issueKernel_keeps | assumption

theorem execVopRszBil_keeps {ks : List Kind} {s₀ s s₁ : State} (hk : Keeps ks s₀ s) (hs : Kind.Sub [.regs, .progs, .yards, .events] ks) {p : Nat} {g : Guard} {o : VecOps}
    (hx : execVopRszBil p g o s = .next s₁) : Keeps ks s₀ s₁ := by
  unfold execVopRszBil at hx
  injection hx with hx
  subst hx
  try dsimp only
  repeat' with_reducible first
      | exact hk | exact Kind.Sub.mono rfl hs | apply State.issueKernel_keeps | assumption

theorem execVopGather_keeps {ks : List Kind} {s₀ s s₁ : State} (hk : Keeps ks s₀ s) (hs : Kind.Sub [.regs, .progs, .yards, .events] ks) {p : Nat} {g : Guard} {o : VecOps}
    (hx : execVopGather p g o s = .next s₁) : Keeps ks s₀ s₁ := by
  unfold execVopGather at hx
  injection hx with hx
  subst hx
  try dsimp only
  repeat' with_reducible first
      | exact hk | exact Kind.Sub.mono rfl hs | apply State.issueKernel_keeps | assumption

end Sys2Proof.Machine
end

