-- ==== Sys2Proof/Laws/KeepsFlagTick.lean ====
section
/-! SUPPORT. The operations of Sys2Proof/Machine/FlagTick.lean keep (see Sys2Proof/Laws/KeepsBase.lean). -/

namespace Sys2Proof.Machine

theorem State.flagOverflow_keeps {ks : List Kind} {s₀ s : State} (hk : Keeps ks s₀ s) (hs : Kind.Sub [.regs, .progs, .events] ks)
    {p : Nat} {m : Nat} {flag : Nat} {pkg : Bool} : Keeps ks s₀ (State.flagOverflow s p m flag pkg) := by
  unfold State.flagOverflow
  try dsimp only
  repeat' with_reducible first
      | exact hk | exact Kind.Sub.mono rfl hs | apply Keeps.ite | apply State.put_keeps | apply State.setCtx_keeps
      | refine State.firstRecord_keeps ?_ (Kind.Sub.mono rfl hs) (fun s hk => ?_) | apply State.faultOn_keeps
      | apply State.ctlEvent_keeps | assumption | apply Keeps.other | exact Or.inl (Kind.Sub.mem hs rfl) | exact Or.inr rfl

theorem State.setLocal_keeps {ks : List Kind} {s₀ s : State} (hk : Keeps ks s₀ s) (hs : Kind.Sub [.flags] ks)
    {p : Nat} {m : Nat} {n : Nat} {count : Nat} {when_ : Nat} : Keeps ks s₀ (State.setLocal s p m n count when_) := by
  unfold State.setLocal
  try dsimp only
  repeat' with_reducible first
      | exact hk | exact Kind.Sub.mono rfl hs | assumption | apply Keeps.other | exact Or.inl (Kind.Sub.mem hs rfl) | exact Or.inr rfl

theorem State.setMapped_keeps {ks : List Kind} {s₀ s : State} (hk : Keeps ks s₀ s) (hs : Kind.Sub [.flags] ks)
    {p : Nat} {n : Nat} {count : Nat} {when_ : Nat} : Keeps ks s₀ (State.setMapped s p n count when_) := by
  unfold State.setMapped
  try dsimp only
  repeat' with_reducible first
      | exact hk | exact Kind.Sub.mono rfl hs | apply State.setLocal_keeps | assumption | split

theorem State.sendHub_keeps {ks : List Kind} {s₀ s : State} (hk : Keeps ks s₀ s) (hs : Kind.Sub [.flags] ks)
    {p : Nat} {flag : Nat} {count : Nat} {when_ : Nat} {isSet : Bool} : Keeps ks s₀ (State.sendHub s p flag count when_ isSet) := by
  unfold State.sendHub
  try dsimp only
  repeat' with_reducible first
      | exact hk | exact Kind.Sub.mono rfl hs | assumption | apply Keeps.other | exact Or.inl (Kind.Sub.mem hs rfl) | exact Or.inr rfl

theorem State.applyLocal_keeps {ks : List Kind} {s₀ s : State} (hk : Keeps ks s₀ s) (hs : Kind.Sub [.regs, .progs, .events] ks)
    {m : Nat} {n : Nat} {sets : List (Nat × Nat)} : Keeps ks s₀ (State.applyLocal s m n sets) := by
  unfold State.applyLocal
  try dsimp only
  repeat' with_reducible first
      | exact hk | exact Kind.Sub.mono rfl hs | apply Keeps.ite | apply State.put_keeps | apply State.flagOverflow_keeps
      | refine Keeps.foldl (fun s x hk => ?_) _ ?_ | assumption

theorem State.arriveLocal_keeps {ks : List Kind} {s₀ s : State} (hk : Keeps ks s₀ s) (hs : Kind.Sub [.regs, .progs, .flags, .events] ks)
     : Keeps ks s₀ (State.arriveLocal s) := by
  unfold State.arriveLocal
  try dsimp only
  repeat' with_reducible first
      | exact hk | exact Kind.Sub.mono rfl hs | apply State.applyLocal_keeps | refine Keeps.foldl (fun s x hk => ?_) _ ?_ | assumption
      | apply Keeps.other | exact Or.inl (Kind.Sub.mem hs rfl) | exact Or.inr rfl

theorem State.arriveShown_keeps {ks : List Kind} {s₀ s : State} (hk : Keeps ks s₀ s) (hs : Kind.Sub [.regs, .flags] ks)
     : Keeps ks s₀ (State.arriveShown s) := by
  unfold State.arriveShown
  try dsimp only
  repeat' with_reducible first
      | exact hk | exact Kind.Sub.mono rfl hs | apply State.put_keeps | refine Keeps.foldl (fun s x hk => ?_) _ ?_ | assumption
      | apply Keeps.other | exact Or.inl (Kind.Sub.mem hs rfl) | exact Or.inr rfl

theorem State.endWait_keeps {ks : List Kind} {s₀ s : State} (hk : Keeps ks s₀ s) (hs : Kind.Sub [.progs] ks)
    {p : Nat} {w : Wait} {cyc : Nat} : Keeps ks s₀ (State.endWait s p w cyc) := by
  unfold State.endWait
  try dsimp only
  repeat' with_reducible first
      | exact hk | exact Kind.Sub.mono rfl hs | apply State.setCtx_keeps | assumption | apply Keeps.other
      | exact Or.inl (Kind.Sub.mem hs rfl) | exact Or.inr rfl

theorem State.testLocal_keeps {ks : List Kind} {s₀ s : State} (hk : Keeps ks s₀ s) (hs : Kind.Sub [.regs, .progs] ks)
    {p : Nat} {w : Wait} : Keeps ks s₀ (State.testLocal s p w) := by
  unfold State.testLocal
  try dsimp only
  repeat' with_reducible first
      | exact hk | exact Kind.Sub.mono rfl hs | apply Keeps.ite | apply State.put_keeps | apply State.endWait_keeps | assumption | split

theorem State.startWait_keeps {ks : List Kind} {s₀ s : State} (hk : Keeps ks s₀ s) (hs : Kind.Sub [.regs, .progs, .flags] ks)
    {p : Nat} {pkg : Bool} {flag : Nat} {count : Nat} {bound : Nat} : Keeps ks s₀ (State.startWait s p pkg flag count bound) := by
  unfold State.startWait
  try dsimp only
  repeat' with_reducible first
      | exact hk | exact Kind.Sub.mono rfl hs | apply Keeps.ite | apply State.setCtx_keeps | apply State.sendHub_keeps
      | apply State.testLocal_keeps | assumption | split | apply Keeps.other | exact Or.inl (Kind.Sub.mem hs rfl) | exact Or.inr rfl

theorem State.setHub_keeps {ks : List Kind} {s₀ s : State} (hk : Keeps ks s₀ s) (hs : Kind.Sub [.flags] ks)
    {f : Nat} {v : Nat} : Keeps ks s₀ (State.setHub s f v) := by
  unfold State.setHub
  try dsimp only
  repeat' with_reducible first
      | exact hk | exact Kind.Sub.mono rfl hs | assumption | apply Keeps.other | exact Or.inl (Kind.Sub.mem hs rfl) | exact Or.inr rfl

theorem State.hubSets_keeps {ks : List Kind} {s₀ s : State} (hk : Keeps ks s₀ s) (hs : Kind.Sub [.regs, .progs, .flags, .events] ks)
    {f : Nat} {ops : List HubOp} : Keeps ks s₀ (State.hubSets s f ops) := by
  unfold State.hubSets
  try dsimp only
  repeat' with_reducible first
      | exact hk | exact Kind.Sub.mono rfl hs | apply Keeps.ite | apply State.flagOverflow_keeps | apply State.setHub_keeps
      | refine Keeps.foldl (fun s x hk => ?_) _ ?_ | assumption

theorem State.hubWait_keeps {ks : List Kind} {s₀ s : State} (hk : Keeps ks s₀ s) (hs : Kind.Sub [.progs, .flags] ks)
    {o : HubOp} : Keeps ks s₀ (State.hubWait s o) := by
  unfold State.hubWait
  try dsimp only
  repeat' with_reducible first
      | exact hk | exact Kind.Sub.mono rfl hs | apply Keeps.ite | apply State.setCtx_keeps | apply State.setHub_keeps | assumption
      | split | apply Keeps.other | exact Or.inl (Kind.Sub.mem hs rfl) | exact Or.inr rfl

theorem State.hubCycle_keeps {ks : List Kind} {s₀ s : State} (hk : Keeps ks s₀ s) (hs : Kind.Sub [.regs, .progs, .flags, .events] ks)
     : Keeps ks s₀ (State.hubCycle s) := by
  unfold State.hubCycle
  try dsimp only
  repeat' with_reducible first
      | exact hk | exact Kind.Sub.mono rfl hs | apply State.hubSets_keeps | apply State.hubWait_keeps
      | refine Keeps.foldl (fun s x hk => ?_) _ ?_ | assumption | apply Keeps.other | exact Or.inl (Kind.Sub.mem hs rfl)
      | exact Or.inr rfl

theorem State.expireWait_keeps {ks : List Kind} {s₀ s : State} (hk : Keeps ks s₀ s) (hs : Kind.Sub [.regs, .progs, .flags, .events] ks)
    {p : Nat} {w : Wait} : Keeps ks s₀ (State.expireWait s p w) := by
  unfold State.expireWait
  try dsimp only
  repeat' with_reducible first
      | exact hk | exact Kind.Sub.mono rfl hs | apply Keeps.ite | apply State.put_keeps | apply State.setCtx_keeps
      | refine State.firstRecord_keeps ?_ (Kind.Sub.mono rfl hs) (fun s hk => ?_) | apply State.faultOn_keeps
      | apply State.ctlEvent_keeps | apply State.stopIssue_keeps | assumption | apply Keeps.other | exact Or.inl (Kind.Sub.mem hs rfl)
      | exact Or.inr rfl

theorem execMvStrm_keeps {ks : List Kind} {s₀ s s₁ : State} (hk : Keeps ks s₀ s) (hs : Kind.Sub [.regs, .progs, .yards, .events] ks) {p : Nat} {g : Guard} {dst : TOp} {a : TOp} {count : BitVec 16} {xform : BitVec 3} {chansM1 : BitVec 6} {tap : Bool} {flag : BitVec 10}
    (hx : execMvStrm p g dst a count xform chansM1 tap flag s = .next s₁) : Keeps ks s₀ s₁ := by
  unfold execMvStrm at hx
  injection hx with hx
  subst hx
  try dsimp only
  repeat' with_reducible first
      | exact hk | exact Kind.Sub.mono rfl hs | apply State.issueKernel_keeps | assumption

theorem execFlagSet_keeps {ks : List Kind} {s₀ s s₁ : State} (hk : Keeps ks s₀ s) (hs : Kind.Sub [.regs, .progs, .flags, .events] ks) {p : Nat} {g : Guard} {pkg : Bool} {flag : BitVec 10} {count : BitVec 16}
    (hx : execFlagSet p g pkg flag count s = .next s₁) : Keeps ks s₀ s₁ := by
  unfold execFlagSet at hx
  injection hx with hx
  subst hx
  try dsimp only
  repeat' with_reducible first
      | exact hk | exact Kind.Sub.mono rfl hs | apply Keeps.ite | apply State.advance_keeps
      | refine State.issueFirm_keeps ?_ (Kind.Sub.mono rfl hs) (fun s hk => ?_) | apply State.setMapped_keeps | apply State.sendHub_keeps
      | assumption

theorem execFlagWait_keeps {ks : List Kind} {s₀ s s₁ : State} (hk : Keeps ks s₀ s) (hs : Kind.Sub [.regs, .progs, .flags, .events] ks) {p : Nat} {g : Guard} {pkg : Bool} {flag : BitVec 10} {count : BitVec 16} {bound : BitVec 32}
    (hx : execFlagWait p g pkg flag count bound s = .next s₁) : Keeps ks s₀ s₁ := by
  unfold execFlagWait at hx
  injection hx with hx
  subst hx
  try dsimp only
  repeat' with_reducible first
      | exact hk | exact Kind.Sub.mono rfl hs | refine State.issueFirm_keeps ?_ (Kind.Sub.mono rfl hs) (fun s hk => ?_)
      | apply State.startWait_keeps | assumption

theorem execHubFlagOperation_keeps {ks : List Kind} {s₀ s s₁ : State} (hk : Keeps ks s₀ s) (hs : Kind.Sub [.regs, .progs, .flags, .events] ks) 
    (hx : execHubFlagOperation s = .next s₁) : Keeps ks s₀ s₁ := by
  unfold execHubFlagOperation at hx
  injection hx with hx
  subst hx
  try dsimp only
  repeat' with_reducible first
      | exact hk | exact Kind.Sub.mono rfl hs | apply State.hubCycle_keeps | assumption

theorem execFlagWaitSatisfied_keeps {ks : List Kind} {s₀ s s₁ : State} (hk : Keeps ks s₀ s) (hs : Kind.Sub [.regs, .progs] ks) {p : Nat}
    (hx : execFlagWaitSatisfied p s = .next s₁) : Keeps ks s₀ s₁ := by
  unfold execFlagWaitSatisfied at hx
  injection hx with hx
  subst hx
  try dsimp only
  repeat' with_reducible first
      | exact hk | exact Kind.Sub.mono rfl hs | apply Keeps.ite | apply State.endWait_keeps | apply State.testLocal_keeps | assumption
      | split

theorem execWaitTimeout_keeps {ks : List Kind} {s₀ s s₁ : State} (hk : Keeps ks s₀ s) (hs : Kind.Sub [.regs, .progs, .flags, .events] ks) {p : Nat}
    (hx : execWaitTimeout p s = .next s₁) : Keeps ks s₀ s₁ := by
  unfold execWaitTimeout at hx
  injection hx with hx
  subst hx
  try dsimp only
  repeat' with_reducible first
      | exact hk | exact Kind.Sub.mono rfl hs | apply Keeps.ite | apply State.expireWait_keeps | assumption | split

theorem execTickEnd_keeps {ks : List Kind} {s₀ s s₁ : State} (hk : Keeps ks s₀ s) (hs : Kind.Sub [.regs, .progs, .events] ks) {p : Nat} {g : Guard}
    (hx : execTickEnd p g s = .next s₁) : Keeps ks s₀ s₁ := by
  unfold execTickEnd at hx
  injection hx with hx
  subst hx
  try dsimp only
  repeat' with_reducible first
      | exact hk | exact Kind.Sub.mono rfl hs | apply State.setCtx_keeps
      | refine State.issueFirm_keeps ?_ (Kind.Sub.mono rfl hs) (fun s hk => ?_) | assumption | apply Keeps.other
      | exact Or.inl (Kind.Sub.mem hs rfl) | exact Or.inr rfl

end Sys2Proof.Machine
end

