-- ==== Sys2Proof/Laws/KeepsEngine.lean ====
section
/-! SUPPORT. The operations of Sys2Proof/Machine/Engine.lean keep (see Sys2Proof/Laws/KeepsBase.lean). -/

namespace Sys2Proof.Machine

theorem State.issueEngine_keeps {ks : List Kind} {s₀ s : State} (hk : Keeps ks s₀ s) (hs : Kind.Sub [.regs, .progs, .yards, .events] ks)
    {p : Nat} {g : Guard} {i : Instr} {e : EngAt} {boom : Bool} {op : ProgRegs → EngOp} : Keeps ks s₀ (State.issueEngine s p g i e boom op) := by
  unfold State.issueEngine
  try dsimp only
  repeat' with_reducible first
      | exact hk | exact Kind.Sub.mono rfl hs | apply Keeps.ite | apply State.advance_keeps
      | refine State.issueCmd_keeps ?_ (Kind.Sub.mono rfl hs) (fun s hk => ?_) | apply State.enterQueue_keeps | assumption | split

theorem State.startCmd_keeps {ks : List Kind} {s₀ s : State} (hk : Keeps ks s₀ s) (hs : Kind.Sub [.regs, .mem, .ecc, .progs, .yards, .fabric, .strm, .events, .hyper, .power, .free] ks)
    {m : Nat} {y : Nat} {n : Nat} {c : EngCmd} {tags : Tags} : Keeps ks s₀ (State.startCmd s m y n c tags) := by
  unfold State.startCmd
  try dsimp only
  repeat' with_reducible first
      | exact hk | exact Kind.Sub.mono rfl hs | apply State.startRun_keeps | apply State.startLoad_keeps | apply State.startTable_keeps
      | apply State.startCopy_keeps | apply State.startJob_keeps | apply State.startChout_keeps | apply State.startChin_keeps
      | apply State.runKernel_keeps | assumption | split

theorem State.takeHead_keeps {ks : List Kind} {s₀ s : State} (hk : Keeps ks s₀ s) (hs : Kind.Sub [.yards] ks)
    {m : Nat} {y : Nat} {q : UnitQ} {c : EngCmd} {rest : List EngCmd} : Keeps ks s₀ (State.takeHead s m y q c rest).1 := by
  unfold State.takeHead
  try dsimp only
  repeat' with_reducible first
      | exact hk | exact Kind.Sub.mono rfl hs | apply State.setYard_keeps | apply State.setQueue_keeps | apply State.nameTags_keeps
      | assumption | exact Keeps.ofFst (State.nameTags_keeps hk (Kind.Sub.mono rfl hs)) (by assumption) | split | dsimp only
      | apply Keeps.other | exact Or.inl (Kind.Sub.mem hs rfl) | exact Or.inr rfl

theorem State.startHead_keeps {ks : List Kind} {s₀ s : State} (hk : Keeps ks s₀ s) (hs : Kind.Sub [.regs, .mem, .ecc, .progs, .yards, .fabric, .strm, .events, .hyper, .power, .free] ks)
    {m : Nat} {y : Nat} {q : UnitQ} {c : EngCmd} {rest : List EngCmd} : Keeps ks s₀ (State.startHead s m y q c rest) := by
  unfold State.startHead
  try dsimp only
  repeat' with_reducible first
      | exact hk | exact Kind.Sub.mono rfl hs | apply State.startCmd_keeps | apply State.takeHead_keeps | assumption
      | exact Keeps.ofFst (State.takeHead_keeps hk (Kind.Sub.mono rfl hs)) (by assumption) | split

theorem execSailRun_keeps {ks : List Kind} {s₀ s s₁ : State} (hk : Keeps ks s₀ s) (hs : Kind.Sub [.regs, .progs, .yards, .events] ks) {p : Nat} {g : Guard} {e : EngAt} {mode : Mode} {atype : BitVec 2} {flip : Bool} {bcast : Bool} {first : Bool} {act : TOp} {countM1 : BitVec 16} {entry : BitVec 9}
    (hx : execSailRun p g e mode atype flip bcast first act countM1 entry s = .next s₁) : Keeps ks s₀ s₁ := by
  unfold execSailRun at hx
  injection hx with hx
  subst hx
  try dsimp only
  repeat' with_reducible first
      | exact hk | exact Kind.Sub.mono rfl hs | apply State.issueEngine_keeps | assumption

theorem execSailLoad_keeps {ks : List Kind} {s₀ s s₁ : State} (hk : Keeps ks s₀ s) (hs : Kind.Sub [.regs, .progs, .yards, .events] ks) {p : Nat} {g : Guard} {e : EngAt} {c4 : Bool} {wt : TOp}
    (hx : execSailLoad p g e c4 wt s = .next s₁) : Keeps ks s₀ s₁ := by
  unfold execSailLoad at hx
  injection hx with hx
  subst hx
  try dsimp only
  repeat' with_reducible first
      | exact hk | exact Kind.Sub.mono rfl hs | apply State.issueEngine_keeps | assumption

theorem execSailTld_keeps {ks : List Kind} {s₀ s s₁ : State} (hk : Keeps ks s₀ s) (hs : Kind.Sub [.regs, .progs, .yards, .events] ks) {p : Nat} {g : Guard} {e : EngAt} {weight : Bool} {cbk : BitVec 16}
    (hx : execSailTld p g e weight cbk s = .next s₁) : Keeps ks s₀ s₁ := by
  unfold execSailTld at hx
  injection hx with hx
  subst hx
  try dsimp only
  repeat' with_reducible first
      | exact hk | exact Kind.Sub.mono rfl hs | apply State.issueEngine_keeps | assumption

theorem execSailTcp_keeps {ks : List Kind} {s₀ s s₁ : State} (hk : Keeps ks s₀ s) (hs : Kind.Sub [.regs, .progs, .yards, .events] ks) {p : Nat} {g : Guard} {e : EngAt} {weight : Bool}
    (hx : execSailTcp p g e weight s = .next s₁) : Keeps ks s₀ s₁ := by
  unfold execSailTcp at hx
  injection hx with hx
  subst hx
  try dsimp only
  repeat' with_reducible first
      | exact hk | exact Kind.Sub.mono rfl hs | apply State.issueEngine_keeps | assumption

theorem execBoomEpi_keeps {ks : List Kind} {s₀ s s₁ : State} (hk : Keeps ks s₀ s) (hs : Kind.Sub [.regs, .progs, .yards, .events] ks) {p : Nat} {g : Guard} {e : EngAt} {bias : Bool} {dst : TOp} {entry : BitVec 9} {countM1 : BitVec 9} {biasTid : BitVec 12} {record : BitVec 16}
    (hx : execBoomEpi p g e bias dst entry countM1 biasTid record s = .next s₁) : Keeps ks s₀ s₁ := by
  unfold execBoomEpi at hx
  injection hx with hx
  subst hx
  try dsimp only
  repeat' with_reducible first
      | exact hk | exact Kind.Sub.mono rfl hs | apply State.issueEngine_keeps | assumption

theorem execBoomChout_keeps {ks : List Kind} {s₀ s s₁ : State} (hk : Keeps ks s₀ s) (hs : Kind.Sub [.regs, .progs, .yards, .events] ks) {p : Nat} {g : Guard} {e : EngAt} {entry : BitVec 9}
    (hx : execBoomChout p g e entry s = .next s₁) : Keeps ks s₀ s₁ := by
  unfold execBoomChout at hx
  injection hx with hx
  subst hx
  try dsimp only
  repeat' with_reducible first
      | exact hk | exact Kind.Sub.mono rfl hs | apply State.issueEngine_keeps | assumption

theorem execBoomChin_keeps {ks : List Kind} {s₀ s s₁ : State} (hk : Keeps ks s₀ s) (hs : Kind.Sub [.regs, .progs, .yards, .events] ks) {p : Nat} {g : Guard} {e : EngAt} {entry : BitVec 9}
    (hx : execBoomChin p g e entry s = .next s₁) : Keeps ks s₀ s₁ := by
  unfold execBoomChin at hx
  injection hx with hx
  subst hx
  try dsimp only
  repeat' with_reducible first
      | exact hk | exact Kind.Sub.mono rfl hs | apply State.issueEngine_keeps | assumption

theorem execBoomPre_keeps {ks : List Kind} {s₀ s s₁ : State} (hk : Keeps ks s₀ s) (hs : Kind.Sub [.regs, .progs, .yards, .events] ks) {p : Nat} {g : Guard} {e : EngAt} {src : TOp} {entry : BitVec 9} {countM1 : BitVec 9}
    (hx : execBoomPre p g e src entry countM1 s = .next s₁) : Keeps ks s₀ s₁ := by
  unfold execBoomPre at hx
  injection hx with hx
  subst hx
  try dsimp only
  repeat' with_reducible first
      | exact hk | exact Kind.Sub.mono rfl hs | apply State.issueEngine_keeps | assumption

theorem execBoomCnt_keeps {ks : List Kind} {s₀ s s₁ : State} (hk : Keeps ks s₀ s) (hs : Kind.Sub [.regs, .progs, .yards, .events] ks) {p : Nat} {g : Guard} {rtz : Bool} {rd : BitVec 5} {t : TOp}
    (hx : execBoomCnt p g rtz rd t s = .next s₁) : Keeps ks s₀ s₁ := by
  unfold execBoomCnt at hx
  injection hx with hx
  subst hx
  try dsimp only
  repeat' with_reducible first
      | exact hk | exact Kind.Sub.mono rfl hs | apply State.issueKernel_keeps | assumption

theorem execEngineQueueStall_keeps {ks : List Kind} {s₀ s s₁ : State} (hk : Keeps ks s₀ s) (hs : Kind.Sub [.progs, .yards] ks) {p : Nat}
    (hx : execEngineQueueStall p s = .next s₁) : Keeps ks s₀ s₁ := by
  unfold execEngineQueueStall at hx
  injection hx with hx
  subst hx
  try dsimp only
  repeat' with_reducible first
      | exact hk | exact Kind.Sub.mono rfl hs | apply Keeps.ite | apply State.setCtx_keeps | apply State.issueInto_keeps | assumption
      | split | apply Keeps.other | exact Or.inl (Kind.Sub.mem hs rfl) | exact Or.inr rfl

theorem execEngineCommandStart_keeps {ks : List Kind} {s₀ s s₁ : State} (hk : Keeps ks s₀ s) (hs : Kind.Sub [.regs, .mem, .ecc, .progs, .yards, .fabric, .strm, .events, .hyper, .power, .free] ks) {m : Nat} {y : Nat} {q : UnitQ}
    (hx : execEngineCommandStart m y q s = .next s₁) : Keeps ks s₀ s₁ := by
  unfold execEngineCommandStart at hx
  injection hx with hx
  subst hx
  try dsimp only
  repeat' with_reducible first
      | exact hk | exact Kind.Sub.mono rfl hs | apply Keeps.ite | apply State.putSail_keeps | apply State.startHead_keeps | assumption
      | split

theorem execSailLoadComplete_keeps {ks : List Kind} {s₀ s s₁ : State} (hk : Keeps ks s₀ s) (hs : Kind.Sub [.regs, .yards] ks) {m : Nat} {y : Nat} {n : Nat}
    (hx : execSailLoadComplete m y n s = .next s₁) : Keeps ks s₀ s₁ := by
  unfold execSailLoadComplete at hx
  injection hx with hx
  subst hx
  try dsimp only
  repeat' with_reducible first
      | exact hk | exact Kind.Sub.mono rfl hs | apply Keeps.ite | apply State.finishLoad_keeps | assumption | split

end Sys2Proof.Machine
end

