-- ==== Sys2Proof/Laws/KeepsBranch.lean ====
section
/-! SUPPORT. The operations of Sys2Proof/Machine/Branch.lean keep (see Sys2Proof/Laws/KeepsBase.lean). -/

namespace Sys2Proof.Machine

theorem State.loopBound_keeps {ks : List Kind} {s₀ s : State} (hk : Keeps ks s₀ s) (hs : Kind.Sub [.regs, .progs, .events] ks)
    {p : Nat} {idx : Nat} : Keeps ks s₀ (State.loopBound s p idx) := by
  unfold State.loopBound
  try dsimp only
  repeat' with_reducible first
      | exact hk | exact Kind.Sub.mono rfl hs | apply State.raise_keeps | apply State.faultOn_keeps | apply State.stopIssue_keeps
      | assumption

theorem State.follow_keeps {ks : List Kind} {s₀ s : State} (hk : Keeps ks s₀ s) (hs : Kind.Sub [.regs, .progs, .events] ks)
    {p : Nat} {b : Branch} {taken : Bool} : Keeps ks s₀ (State.follow s p b taken) := by
  unfold State.follow
  try dsimp only
  repeat' with_reducible first
      | exact hk | exact Kind.Sub.mono rfl hs | apply Keeps.ite | apply State.setCtx_keeps | apply State.loopBound_keeps | assumption
      | apply Keeps.other | exact Or.inl (Kind.Sub.mem hs rfl) | exact Or.inr rfl

theorem State.openEpoch_keeps {ks : List Kind} {s₀ s : State} (hk : Keeps ks s₀ s) (hs : Kind.Sub [.regs, .progs, .events] ks)
    {p : Nat} {b : Branch} : Keeps ks s₀ (State.openEpoch s p b) := by
  unfold State.openEpoch
  try dsimp only
  repeat' with_reducible first
      | exact hk | exact Kind.Sub.mono rfl hs | apply State.setCtx_keeps | apply State.follow_keeps | assumption | apply Keeps.other
      | exact Or.inl (Kind.Sub.mem hs rfl) | exact Or.inr rfl

theorem State.branchOn_keeps {ks : List Kind} {s₀ s : State} (hk : Keeps ks s₀ s) (hs : Kind.Sub [.regs, .progs, .events] ks)
    {p : Nat} {g : Guard} {i : Instr} {c : Cond} {ra : BitVec 5} {b : Operand} {t : BrTail} : Keeps ks s₀ (State.branchOn s p g i c ra b t) := by
  unfold State.branchOn
  try dsimp only
  repeat' with_reducible first
      | exact hk | exact Kind.Sub.mono rfl hs | apply Keeps.ite | apply State.advance_keeps | apply State.unblock_keeps
      | apply State.block_keeps | apply State.imemFault_keeps | apply State.imemCorrect_keeps | apply State.follow_keeps
      | apply State.openEpoch_keeps | assumption

theorem State.branchAt_keeps {ks : List Kind} {s₀ s : State} (hk : Keeps ks s₀ s) (hs : Kind.Sub [.regs, .progs, .events] ks)
    {p : Nat} {g : Guard} {i : Instr} {t : BrTail} {taken : ProgRegs → Bool} : Keeps ks s₀ (State.branchAt s p g i t taken) := by
  unfold State.branchAt
  try dsimp only
  repeat' with_reducible first
      | exact hk | exact Kind.Sub.mono rfl hs | refine State.issueAt_keeps ?_ (Kind.Sub.mono rfl hs) (fun s hk => ?_)
      | apply State.follow_keeps | assumption

theorem execBr_keeps {ks : List Kind} {s₀ s s₁ : State} (hk : Keeps ks s₀ s) (hs : Kind.Sub [.regs, .progs, .events] ks) {p : Nat} {g : Guard} {t : BrTail}
    (hx : execBr p g t s = .next s₁) : Keeps ks s₀ s₁ := by
  unfold execBr at hx
  injection hx with hx
  subst hx
  try dsimp only
  repeat' with_reducible first
      | exact hk | exact Kind.Sub.mono rfl hs | apply State.branchAt_keeps | assumption

theorem execBrEq_keeps {ks : List Kind} {s₀ s s₁ : State} (hk : Keeps ks s₀ s) (hs : Kind.Sub [.regs, .progs, .events] ks) {p : Nat} {g : Guard} {ra : BitVec 5} {b : Operand} {t : BrTail}
    (hx : execBrEq p g ra b t s = .next s₁) : Keeps ks s₀ s₁ := by
  unfold execBrEq at hx
  injection hx with hx
  subst hx
  try dsimp only
  repeat' with_reducible first
      | exact hk | exact Kind.Sub.mono rfl hs | apply State.branchOn_keeps | assumption

theorem execBrNe_keeps {ks : List Kind} {s₀ s s₁ : State} (hk : Keeps ks s₀ s) (hs : Kind.Sub [.regs, .progs, .events] ks) {p : Nat} {g : Guard} {ra : BitVec 5} {b : Operand} {t : BrTail}
    (hx : execBrNe p g ra b t s = .next s₁) : Keeps ks s₀ s₁ := by
  unfold execBrNe at hx
  injection hx with hx
  subst hx
  try dsimp only
  repeat' with_reducible first
      | exact hk | exact Kind.Sub.mono rfl hs | apply State.branchOn_keeps | assumption

theorem execBrLt_keeps {ks : List Kind} {s₀ s s₁ : State} (hk : Keeps ks s₀ s) (hs : Kind.Sub [.regs, .progs, .events] ks) {p : Nat} {g : Guard} {ra : BitVec 5} {b : Operand} {t : BrTail}
    (hx : execBrLt p g ra b t s = .next s₁) : Keeps ks s₀ s₁ := by
  unfold execBrLt at hx
  injection hx with hx
  subst hx
  try dsimp only
  repeat' with_reducible first
      | exact hk | exact Kind.Sub.mono rfl hs | apply State.branchOn_keeps | assumption

theorem execBrGe_keeps {ks : List Kind} {s₀ s s₁ : State} (hk : Keeps ks s₀ s) (hs : Kind.Sub [.regs, .progs, .events] ks) {p : Nat} {g : Guard} {ra : BitVec 5} {b : Operand} {t : BrTail}
    (hx : execBrGe p g ra b t s = .next s₁) : Keeps ks s₀ s₁ := by
  unfold execBrGe at hx
  injection hx with hx
  subst hx
  try dsimp only
  repeat' with_reducible first
      | exact hk | exact Kind.Sub.mono rfl hs | apply State.branchOn_keeps | assumption

theorem execBrLtu_keeps {ks : List Kind} {s₀ s s₁ : State} (hk : Keeps ks s₀ s) (hs : Kind.Sub [.regs, .progs, .events] ks) {p : Nat} {g : Guard} {ra : BitVec 5} {b : Operand} {t : BrTail}
    (hx : execBrLtu p g ra b t s = .next s₁) : Keeps ks s₀ s₁ := by
  unfold execBrLtu at hx
  injection hx with hx
  subst hx
  try dsimp only
  repeat' with_reducible first
      | exact hk | exact Kind.Sub.mono rfl hs | apply State.branchOn_keeps | assumption

theorem execBrGeu_keeps {ks : List Kind} {s₀ s s₁ : State} (hk : Keeps ks s₀ s) (hs : Kind.Sub [.regs, .progs, .events] ks) {p : Nat} {g : Guard} {ra : BitVec 5} {b : Operand} {t : BrTail}
    (hx : execBrGeu p g ra b t s = .next s₁) : Keeps ks s₀ s₁ := by
  unfold execBrGeu at hx
  injection hx with hx
  subst hx
  try dsimp only
  repeat' with_reducible first
      | exact hk | exact Kind.Sub.mono rfl hs | apply State.branchOn_keeps | assumption

theorem execBrFlt_keeps {ks : List Kind} {s₀ s s₁ : State} (hk : Keeps ks s₀ s) (hs : Kind.Sub [.regs, .progs, .events] ks) {p : Nat} {g : Guard} {ra : BitVec 5} {b : Operand} {t : BrTail}
    (hx : execBrFlt p g ra b t s = .next s₁) : Keeps ks s₀ s₁ := by
  unfold execBrFlt at hx
  injection hx with hx
  subst hx
  try dsimp only
  repeat' with_reducible first
      | exact hk | exact Kind.Sub.mono rfl hs | apply State.branchOn_keeps | assumption

theorem execBrFge_keeps {ks : List Kind} {s₀ s s₁ : State} (hk : Keeps ks s₀ s) (hs : Kind.Sub [.regs, .progs, .events] ks) {p : Nat} {g : Guard} {ra : BitVec 5} {b : Operand} {t : BrTail}
    (hx : execBrFge p g ra b t s = .next s₁) : Keeps ks s₀ s₁ := by
  unfold execBrFge at hx
  injection hx with hx
  subst hx
  try dsimp only
  repeat' with_reducible first
      | exact hk | exact Kind.Sub.mono rfl hs | apply State.branchOn_keeps | assumption

theorem execBrP_keeps {ks : List Kind} {s₀ s s₁ : State} (hk : Keeps ks s₀ s) (hs : Kind.Sub [.regs, .progs, .events] ks) {p : Nat} {g : Guard} {pr : BitVec 3} {t : BrTail}
    (hx : execBrP p g pr t s = .next s₁) : Keeps ks s₀ s₁ := by
  unfold execBrP at hx
  injection hx with hx
  subst hx
  try dsimp only
  repeat' with_reducible first
      | exact hk | exact Kind.Sub.mono rfl hs | apply State.branchAt_keeps | assumption

end Sys2Proof.Machine
end

