-- ==== Sys2Proof/Laws/KeepsRunahead.lean ====
section
/-! SUPPORT. The operations of Sys2Proof/Machine/Runahead.lean keep (see Sys2Proof/Laws/KeepsBase.lean). -/

namespace Sys2Proof.Machine

theorem State.regCollision_keeps {ks : List Kind} {s₀ s : State} (hk : Keeps ks s₀ s) (hs : Kind.Sub [.regs, .progs, .events] ks)
    {p : Nat} : Keeps ks s₀ (State.regCollision s p) := by
  unfold State.regCollision
  try dsimp only
  repeat' with_reducible first
      | exact hk | exact Kind.Sub.mono rfl hs | apply State.faultOn_keeps | apply State.ctlEvent_keeps | assumption

theorem State.writeDelivery_keeps {ks : List Kind} {s₀ s : State} (hk : Keeps ks s₀ s) (hs : Kind.Sub [.regs, .progs] ks)
    {p : Nat} {r : Nat} {v : Word} : Keeps ks s₀ (State.writeDelivery s p r v) := by
  unfold State.writeDelivery
  try dsimp only
  repeat' with_reducible first
      | exact hk | exact Kind.Sub.mono rfl hs | apply State.setCtx_keeps | apply State.setSc_keeps | assumption | apply Keeps.other
      | exact Or.inl (Kind.Sub.mem hs rfl) | exact Or.inr rfl

theorem State.reefDelivered_keeps {ks : List Kind} {s₀ s : State} (hk : Keeps ks s₀ s) (hs : Kind.Sub [.regs] ks)
    {q : Nat} {r : Nat} {v : Word} : Keeps ks s₀ (State.reefDelivered s q r v) := by
  unfold State.reefDelivered
  try dsimp only
  repeat' with_reducible first
      | exact hk | exact Kind.Sub.mono rfl hs | apply State.setReg_keeps | apply State.put_keeps | assumption

theorem State.deliverNow_keeps {ks : List Kind} {s₀ s : State} (hk : Keeps ks s₀ s) (hs : Kind.Sub [.regs, .progs, .events] ks)
    {p : Nat} {d : Delivery} {t : Nat} : Keeps ks s₀ (State.deliverNow s p d t) := by
  unfold State.deliverNow
  try dsimp only
  repeat' with_reducible first
      | exact hk | exact Kind.Sub.mono rfl hs | apply Keeps.ite | apply State.setCtx_keeps | apply State.regCollision_keeps
      | apply State.writeDelivery_keeps | apply State.reefDelivered_keeps | refine Keeps.foldl (fun s x hk => ?_) _ ?_ | assumption
      | split | apply Keeps.other | exact Or.inl (Kind.Sub.mem hs rfl) | exact Or.inr rfl

theorem State.readySail_keeps {ks : List Kind} {s₀ s : State} (hk : Keeps ks s₀ s) (hs : Kind.Sub [.regs] ks)
    {m : Nat} {y : Nat} {n : Nat} : Keeps ks s₀ (State.readySail s m y n) := by
  unfold State.readySail
  try dsimp only
  repeat' with_reducible first
      | exact hk | exact Kind.Sub.mono rfl hs | apply Keeps.ite | apply State.putSail_keeps | assumption

theorem State.squashSail_keeps {ks : List Kind} {s₀ s : State} (hk : Keeps ks s₀ s) (hs : Kind.Sub [.regs, .yards] ks)
    {m : Nat} {y : Nat} {n : Nat} {k_ : Nat} : Keeps ks s₀ (State.squashSail s m y n k_) := by
  unfold State.squashSail
  try dsimp only
  repeat' with_reducible first
      | exact hk | exact Kind.Sub.mono rfl hs | apply Keeps.ite | apply State.setSail_keeps | apply State.putSail_keeps | assumption
      | split | apply Keeps.other | exact Or.inl (Kind.Sub.mem hs rfl) | exact Or.inr rfl

theorem State.mapBooms_keeps {ks : List Kind} {s₀ s : State} (hk : Keeps ks s₀ s) (hs : Kind.Sub [.yards] ks)
    {m : Nat} {y : Nat} {f : BoomSt → BoomSt} : Keeps ks s₀ (State.mapBooms s m y f) := by
  unfold State.mapBooms
  try dsimp only
  repeat' with_reducible first
      | exact hk | exact Kind.Sub.mono rfl hs | apply State.setBoom_keeps | refine Keeps.foldl (fun s x hk => ?_) _ ?_ | assumption

theorem State.mapSails_keeps {ks : List Kind} {s₀ s : State} (hk : Keeps ks s₀ s) (hs : Kind.Sub [.yards] ks)
    {m : Nat} {y : Nat} {f : SailSt → SailSt} : Keeps ks s₀ (State.mapSails s m y f) := by
  unfold State.mapSails
  try dsimp only
  repeat' with_reducible first
      | exact hk | exact Kind.Sub.mono rfl hs | apply State.setSail_keeps | refine Keeps.foldl (fun s x hk => ?_) _ ?_ | assumption

theorem State.mapQueues_keeps {ks : List Kind} {s₀ s : State} (hk : Keeps ks s₀ s) (hs : Kind.Sub [.yards] ks)
    {m : Nat} {y : Nat} {p : Nat} {keep : EngCmd → Bool} {f : Nat → Nat} : Keeps ks s₀ (State.mapQueues s m y p keep f) := by
  unfold State.mapQueues
  try dsimp only
  repeat' with_reducible first
      | exact hk | exact Kind.Sub.mono rfl hs | apply Keeps.ite | apply State.setYard_keeps | assumption | apply Keeps.other
      | exact Or.inl (Kind.Sub.mem hs rfl) | exact Or.inr rfl

theorem State.holdHeads_keeps {ks : List Kind} {s₀ s : State} (hk : Keeps ks s₀ s) (hs : Kind.Sub [.yards] ks)
    {m : Nat} {y : Nat} : Keeps ks s₀ (State.holdHeads s m y) := by
  unfold State.holdHeads
  try dsimp only
  repeat' with_reducible first
      | exact hk | exact Kind.Sub.mono rfl hs | apply State.setYard_keeps | refine Keeps.foldl (fun s x hk => ?_) _ ?_ | assumption
      | split | apply Keeps.other | exact Or.inl (Kind.Sub.mem hs rfl) | exact Or.inr rfl

theorem State.showHeld_keeps {ks : List Kind} {s₀ s : State} (hk : Keeps ks s₀ s) (hs : Kind.Sub [.regs] ks)
    {m : Nat} {y : Nat} : Keeps ks s₀ (State.showHeld s m y) := by
  unfold State.showHeld
  try dsimp only
  repeat' with_reducible first
      | exact hk | exact Kind.Sub.mono rfl hs | apply Keeps.ite | apply State.put_keeps | refine Keeps.foldl (fun s x hk => ?_) _ ?_
      | assumption

theorem State.releaseHeld_keeps {ks : List Kind} {s₀ s : State} (hk : Keeps ks s₀ s) (hs : Kind.Sub [.regs, .progs, .yards, .events] ks)
    {m : Nat} {y : Nat} {h : Held} : Keeps ks s₀ (State.releaseHeld s m y h) := by
  unfold State.releaseHeld
  try dsimp only
  repeat' with_reducible first
      | exact hk | exact Kind.Sub.mono rfl hs | apply State.specCounts_keeps | apply State.vuShow_keeps | assumption | split

theorem State.commitHeld_keeps {ks : List Kind} {s₀ s : State} (hk : Keeps ks s₀ s) (hs : Kind.Sub [.regs, .progs, .yards, .events] ks)
    {p : Nat} {m : Nat} {y : Nat} : Keeps ks s₀ (State.commitHeld s p m y) := by
  unfold State.commitHeld
  try dsimp only
  repeat' with_reducible first
      | exact hk | exact Kind.Sub.mono rfl hs | apply Keeps.ite | apply State.setYard_keeps | apply State.showHeld_keeps
      | apply State.releaseHeld_keeps | refine Keeps.foldl (fun s x hk => ?_) _ ?_ | assumption | apply Keeps.other
      | exact Or.inl (Kind.Sub.mem hs rfl) | exact Or.inr rfl

theorem State.lowerYard_keeps {ks : List Kind} {s₀ s : State} (hk : Keeps ks s₀ s) (hs : Kind.Sub [.regs, .yards] ks)
    {p : Nat} {m : Nat} {y : Nat} {f : Nat → Nat} : Keeps ks s₀ (State.lowerYard s p m y f) := by
  unfold State.lowerYard
  try dsimp only
  repeat' with_reducible first
      | exact hk | exact Kind.Sub.mono rfl hs | apply State.readySail_keeps | apply State.mapBooms_keeps | apply State.mapSails_keeps
      | apply State.mapQueues_keeps | refine Keeps.foldl (fun s x hk => ?_) _ ?_ | assumption

theorem State.commitYard_keeps {ks : List Kind} {s₀ s : State} (hk : Keeps ks s₀ s) (hs : Kind.Sub [.regs, .progs, .yards, .events] ks)
    {p : Nat} {m : Nat} {y : Nat} : Keeps ks s₀ (State.commitYard s p m y) := by
  unfold State.commitYard
  try dsimp only
  repeat' with_reducible first
      | exact hk | exact Kind.Sub.mono rfl hs | apply State.lowerTags_keeps | apply State.raiseTrips_keeps | apply State.mapBooms_keeps
      | apply State.holdHeads_keeps | apply State.commitHeld_keeps | apply State.lowerYard_keeps | assumption

theorem State.mergeYard_keeps {ks : List Kind} {s₀ s : State} (hk : Keeps ks s₀ s) (hs : Kind.Sub [.regs, .yards] ks)
    {p : Nat} {m : Nat} {y : Nat} : Keeps ks s₀ (State.mergeYard s p m y) := by
  unfold State.mergeYard
  try dsimp only
  repeat' with_reducible first
      | exact hk | exact Kind.Sub.mono rfl hs | apply Keeps.ite | apply State.setYard_keeps | apply State.lowerTags_keeps
      | apply State.mapBooms_keeps | apply State.lowerYard_keeps | assumption | apply Keeps.other | exact Or.inl (Kind.Sub.mem hs rfl)
      | exact Or.inr rfl

theorem State.stopYard_keeps {ks : List Kind} {s₀ s : State} (hk : Keeps ks s₀ s) (hs : Kind.Sub [.regs, .yards] ks)
    {p : Nat} {k_ : Nat} {m : Nat} {y : Nat} : Keeps ks s₀ (State.stopYard s p k_ m y) := by
  unfold State.stopYard
  try dsimp only
  repeat' with_reducible first
      | exact hk | exact Kind.Sub.mono rfl hs | apply State.setYard_keeps | apply State.restoreTags_keeps | apply State.mapBooms_keeps
      | apply State.mapSails_keeps | apply State.mapQueues_keeps | apply State.showHeld_keeps | assumption | apply Keeps.other
      | exact Or.inl (Kind.Sub.mem hs rfl) | exact Or.inr rfl

theorem State.squashYard_keeps {ks : List Kind} {s₀ s : State} (hk : Keeps ks s₀ s) (hs : Kind.Sub [.regs, .yards] ks)
    {p : Nat} {k_ : Nat} {m : Nat} {y : Nat} : Keeps ks s₀ (State.squashYard s p k_ m y) := by
  unfold State.squashYard
  try dsimp only
  repeat' with_reducible first
      | exact hk | exact Kind.Sub.mono rfl hs | apply State.squashSail_keeps | apply State.mapBooms_keeps | apply State.stopYard_keeps
      | refine Keeps.foldl (fun s x hk => ?_) _ ?_ | assumption

theorem State.onYards_keeps {ks : List Kind} {s₀ s : State} (hk : Keeps ks s₀ s) (hs : Kind.Sub [] ks)
    {p : Nat} {f : State → Nat → Nat → State} (hf : ∀ s x y, Keeps ks s₀ s → Keeps ks s₀ (f s x y)) : Keeps ks s₀ (State.onYards s p f) := by
  unfold State.onYards
  try dsimp only
  repeat' with_reducible first
      | exact hk | exact Kind.Sub.mono rfl hs | apply hf | refine Keeps.foldl (fun s x hk => ?_) _ ?_ | assumption

theorem State.mapStore_keeps {ks : List Kind} {s₀ s : State} (hk : Keeps ks s₀ s) (hs : Kind.Sub [.progs] ks)
    {p : Nat} {f : Prog → Store} : Keeps ks s₀ (State.mapStore s p f) := by
  unfold State.mapStore
  try dsimp only
  repeat' with_reducible first
      | exact hk | exact Kind.Sub.mono rfl hs | apply State.setProg_keeps | assumption | apply Keeps.other
      | exact Or.inl (Kind.Sub.mem hs rfl) | exact Or.inr rfl

theorem State.resumeIssue_keeps {ks : List Kind} {s₀ s : State} (hk : Keeps ks s₀ s) (hs : Kind.Sub [.progs] ks)
    {p : Nat} : Keeps ks s₀ (State.resumeIssue s p) := by
  unfold State.resumeIssue
  try dsimp only
  repeat' with_reducible first
      | exact hk | exact Kind.Sub.mono rfl hs | apply State.setCtx_keeps | assumption | apply Keeps.other
      | exact Or.inl (Kind.Sub.mem hs rfl) | exact Or.inr rfl

theorem State.commitEpoch_keeps {ks : List Kind} {s₀ s : State} (hk : Keeps ks s₀ s) (hs : Kind.Sub [.regs, .progs, .yards, .events] ks)
    {p : Nat} {e : Epoch} : Keeps ks s₀ (State.commitEpoch s p e) := by
  unfold State.commitEpoch
  try dsimp only
  repeat' with_reducible first
      | exact hk | exact Kind.Sub.mono rfl hs | apply Keeps.ite | apply State.bump_keeps | apply State.setCtx_keeps
      | apply State.loopBound_keeps | apply State.commitYard_keeps
      | refine State.onYards_keeps ?_ (Kind.Sub.mono rfl hs) (fun s x y hk => ?_) | apply State.mapStore_keeps
      | apply State.resumeIssue_keeps | assumption | apply Keeps.other | exact Or.inl (Kind.Sub.mem hs rfl) | exact Or.inr rfl

theorem State.mergeEpoch_keeps {ks : List Kind} {s₀ s : State} (hk : Keeps ks s₀ s) (hs : Kind.Sub [.regs, .progs, .yards] ks)
    {p : Nat} {inner : Epoch} {outer : Epoch} : Keeps ks s₀ (State.mergeEpoch s p inner outer) := by
  unfold State.mergeEpoch
  try dsimp only
  repeat' with_reducible first
      | exact hk | exact Kind.Sub.mono rfl hs | apply State.setCtx_keeps | apply State.mergeYard_keeps
      | refine State.onYards_keeps ?_ (Kind.Sub.mono rfl hs) (fun s x y hk => ?_) | apply State.mapStore_keeps
      | apply State.resumeIssue_keeps | assumption | apply Keeps.other | exact Or.inl (Kind.Sub.mem hs rfl) | exact Or.inr rfl

theorem State.dropEpochs_keeps {ks : List Kind} {s₀ s : State} (hk : Keeps ks s₀ s) (hs : Kind.Sub [.regs, .progs, .yards] ks)
    {p : Nat} {k_ : Nat} {e : Epoch} : Keeps ks s₀ (State.dropEpochs s p k_ e) := by
  unfold State.dropEpochs
  try dsimp only
  repeat' with_reducible first
      | exact hk | exact Kind.Sub.mono rfl hs | apply State.bump_keeps | apply State.setCtx_keeps | apply State.squashYard_keeps
      | refine State.onYards_keeps ?_ (Kind.Sub.mono rfl hs) (fun s x y hk => ?_) | apply State.mapStore_keeps
      | refine Keeps.foldl (fun s x hk => ?_) _ ?_ | assumption

theorem State.squashEpoch_keeps {ks : List Kind} {s₀ s : State} (hk : Keeps ks s₀ s) (hs : Kind.Sub [.regs, .progs, .yards, .events] ks)
    {p : Nat} {k_ : Nat} {e : Epoch} : Keeps ks s₀ (State.squashEpoch s p k_ e) := by
  unfold State.squashEpoch
  try dsimp only
  repeat' with_reducible first
      | exact hk | exact Kind.Sub.mono rfl hs | apply State.setCtx_keeps | apply State.follow_keeps | apply State.dropEpochs_keeps
      | assumption | apply Keeps.other | exact Or.inl (Kind.Sub.mem hs rfl) | exact Or.inr rfl

theorem State.squashAll_keeps {ks : List Kind} {s₀ s : State} (hk : Keeps ks s₀ s) (hs : Kind.Sub [.regs, .progs, .yards] ks)
    {p : Nat} : Keeps ks s₀ (State.squashAll s p) := by
  unfold State.squashAll
  try dsimp only
  repeat' with_reducible first
      | exact hk | exact Kind.Sub.mono rfl hs | apply State.dropEpochs_keeps | assumption | split

theorem State.resolveOne_keeps {ks : List Kind} {s₀ s : State} (hk : Keeps ks s₀ s) (hs : Kind.Sub [.regs, .progs, .yards, .events] ks)
    {p : Nat} {k_ : Nat} {e : Epoch} {taken : Bool} : Keeps ks s₀ (State.resolveOne s p k_ e taken) := by
  unfold State.resolveOne
  try dsimp only
  repeat' with_reducible first
      | exact hk | exact Kind.Sub.mono rfl hs | apply Keeps.ite | apply State.commitEpoch_keeps | apply State.mergeEpoch_keeps
      | apply State.squashEpoch_keeps | assumption | split

theorem State.resolve_keeps {ks : List Kind} {s₀ s : State} (hk : Keeps ks s₀ s) (hs : Kind.Sub [.regs, .progs, .yards, .events] ks)
    {p : Nat} : Keeps ks s₀ (State.resolve s p) := by
  unfold State.resolve
  try dsimp only
  repeat' with_reducible first
      | exact hk | exact Kind.Sub.mono rfl hs | apply State.resolveOne_keeps | assumption | split

theorem State.endCopy_keeps {ks : List Kind} {s₀ s : State} (hk : Keeps ks s₀ s) (hs : Kind.Sub [.progs] ks)
    {t : TickStrm} : Keeps ks s₀ (State.endCopy s t) := by
  unfold State.endCopy
  try dsimp only
  repeat' with_reducible first
      | exact hk | exact Kind.Sub.mono rfl hs | apply Keeps.ite | apply State.setProg_keeps | assumption | split | apply Keeps.other
      | exact Or.inl (Kind.Sub.mem hs rfl) | exact Or.inr rfl

theorem State.endStrm_keeps {ks : List Kind} {s₀ s : State} (hk : Keeps ks s₀ s) (hs : Kind.Sub [.regs, .progs, .flags, .strm] ks)
    {t : TickStrm} : Keeps ks s₀ (State.endStrm s t) := by
  unfold State.endStrm
  try dsimp only
  repeat' with_reducible first
      | exact hk | exact Kind.Sub.mono rfl hs | apply State.leaveChan_keeps | apply State.setMapped_keeps | apply State.endCopy_keeps
      | assumption | split

theorem execScalarDelivery_keeps {ks : List Kind} {s₀ s s₁ : State} (hk : Keeps ks s₀ s) (hs : Kind.Sub [.regs, .progs, .events] ks) {p : Nat}
    (hx : execScalarDelivery p s = .next s₁) : Keeps ks s₀ s₁ := by
  unfold execScalarDelivery at hx
  injection hx with hx
  subst hx
  try dsimp only
  repeat' with_reducible first
      | exact hk | exact Kind.Sub.mono rfl hs | apply State.deliverNow_keeps | assumption | split

theorem execEpochResolve_keeps {ks : List Kind} {s₀ s s₁ : State} (hk : Keeps ks s₀ s) (hs : Kind.Sub [.regs, .progs, .yards, .events] ks) {p : Nat}
    (hx : execEpochResolve p s = .next s₁) : Keeps ks s₀ s₁ := by
  unfold execEpochResolve at hx
  injection hx with hx
  subst hx
  try dsimp only
  repeat' with_reducible first
      | exact hk | exact Kind.Sub.mono rfl hs | apply State.resolve_keeps | assumption

theorem execSquashPenaltyEnd_keeps {ks : List Kind} {s₀ s s₁ : State} (hk : Keeps ks s₀ s) (hs : Kind.Sub [.progs] ks) {p : Nat}
    (hx : execSquashPenaltyEnd p s = .next s₁) : Keeps ks s₀ s₁ := by
  unfold execSquashPenaltyEnd at hx
  injection hx with hx
  subst hx
  try dsimp only
  repeat' with_reducible first
      | exact hk | exact Kind.Sub.mono rfl hs | apply Keeps.ite | apply State.setCtx_keeps | assumption | split | apply Keeps.other
      | exact Or.inl (Kind.Sub.mem hs rfl) | exact Or.inr rfl

theorem execCommandCompletionSet_keeps {ks : List Kind} {s₀ s s₁ : State} (hk : Keeps ks s₀ s) (hs : Kind.Sub [.regs, .progs, .flags, .strm] ks) {p : Nat}
    (hx : execCommandCompletionSet p s = .next s₁) : Keeps ks s₀ s₁ := by
  unfold execCommandCompletionSet at hx
  injection hx with hx
  subst hx
  try dsimp only
  repeat' with_reducible first
      | exact hk | exact Kind.Sub.mono rfl hs | apply State.endStrm_keeps | assumption | split

end Sys2Proof.Machine
end

