-- ==== Sys2Proof/Laws/KeepsFabric.lean ====
section
/-! SUPPORT. The operations of Sys2Proof/Machine/Fabric.lean keep (see Sys2Proof/Laws/KeepsBase.lean). -/

namespace Sys2Proof.Machine

theorem State.hrWrite_keeps {ks : List Kind} {s₀ s : State} (hk : Keeps ks s₀ s) (hs : Kind.Sub [.hyper] ks)
    {a : Nat} {bs : List Byte} {prog : Option Nat} {strm : Nat} {late : Nat → Bool} : Keeps ks s₀ (State.hrWrite s a bs prog strm late) := by
  unfold State.hrWrite
  try dsimp only
  repeat' with_reducible first
      | exact hk | exact Kind.Sub.mono rfl hs | apply State.hrRequest_keeps | refine Keeps.foldl (fun s x hk => ?_) _ ?_ | assumption
      | apply Keeps.other | exact Or.inl (Kind.Sub.mem hs rfl) | exact Or.inr rfl

theorem State.bufferLanding_keeps {ks : List Kind} {s₀ s : State} (hk : Keeps ks s₀ s) (hs : Kind.Sub [.yards] ks)
    {m : Nat} {y : Nat} {e : Landing} : Keeps ks s₀ (State.bufferLanding s m y e) := by
  unfold State.bufferLanding
  try dsimp only
  repeat' with_reducible first
      | exact hk | exact Kind.Sub.mono rfl hs | apply State.setYard_keeps | assumption | apply Keeps.other
      | exact Or.inl (Kind.Sub.mem hs rfl) | exact Or.inr rfl

theorem State.landFlit_keeps {ks : List Kind} {s₀ s : State} (hk : Keeps ks s₀ s) (hs : Kind.Sub [.regs, .mem, .ecc, .progs, .yards, .strm, .events, .hyper, .power] ks)
    {f : Flit} : Keeps ks s₀ (State.landFlit s f) := by
  unfold State.landFlit
  try dsimp only
  repeat' with_reducible first
      | exact hk | exact Kind.Sub.mono rfl hs | apply Keeps.ite | apply State.checkedStore_keeps | apply State.yardWrite_keeps
      | refine State.strmPiece_keeps ?_ (Kind.Sub.mono rfl hs) (fun s hk => ?_) | apply State.hrWrite_keeps
      | apply State.bufferLanding_keeps | assumption | split

theorem State.endFails_keeps {ks : List Kind} {s₀ s : State} (hk : Keeps ks s₀ s) (hs : Kind.Sub [.fabric] ks)
    {k_ : Nat} : Keeps ks s₀ (State.endFails s k_) := by
  unfold State.endFails
  try dsimp only
  repeat' with_reducible first
      | exact hk | exact Kind.Sub.mono rfl hs | assumption | apply Keeps.other | exact Or.inl (Kind.Sub.mem hs rfl) | exact Or.inr rfl

theorem State.takeFlit_keeps {ks : List Kind} {s₀ s : State} (hk : Keeps ks s₀ s) (hs : Kind.Sub [.fabric] ks)
    {f : Flit} : Keeps ks s₀ (State.takeFlit s f) := by
  unfold State.takeFlit
  try dsimp only
  repeat' with_reducible first
      | exact hk | exact Kind.Sub.mono rfl hs | apply State.endFails_keeps | assumption | apply Keeps.other
      | exact Or.inl (Kind.Sub.mem hs rfl) | exact Or.inr rfl

theorem State.delayFrom_keeps {ks : List Kind} {s₀ s : State} (hk : Keeps ks s₀ s) (hs : Kind.Sub [.fabric] ks)
    {port : Nat} {away : Bool} : Keeps ks s₀ (State.delayFrom s port away) := by
  unfold State.delayFrom
  try dsimp only
  repeat' with_reducible first
      | exact hk | exact Kind.Sub.mono rfl hs | apply Keeps.ite | assumption | split | apply Keeps.other
      | exact Or.inl (Kind.Sub.mem hs rfl) | exact Or.inr rfl

theorem State.replay_keeps {ks : List Kind} {s₀ s : State} (hk : Keeps ks s₀ s) (hs : Kind.Sub [.regs, .progs, .fabric, .events] ks)
    {port : Nat} {away : Bool} : Keeps ks s₀ (State.replay s port away) := by
  unfold State.replay
  try dsimp only
  repeat' with_reducible first
      | exact hk | exact Kind.Sub.mono rfl hs | apply Keeps.ite | apply State.bump_keeps | apply State.raise_keeps
      | apply State.setCond_keeps | apply State.delayFrom_keeps | refine Keeps.foldl (fun s x hk => ?_) _ ?_ | assumption
      | apply Keeps.other | exact Or.inl (Kind.Sub.mem hs rfl) | exact Or.inr rfl

theorem State.shorten_keeps {ks : List Kind} {s₀ s : State} (hk : Keeps ks s₀ s) (hs : Kind.Sub [.fabric] ks)
    {port : Nat} {away : Bool} : Keeps ks s₀ (State.shorten s port away) := by
  unfold State.shorten
  try dsimp only
  repeat' with_reducible first
      | exact hk | exact Kind.Sub.mono rfl hs | apply Keeps.ite | assumption | apply Keeps.other | exact Or.inl (Kind.Sub.mem hs rfl)
      | exact Or.inr rfl

theorem State.sendHead_keeps {ks : List Kind} {s₀ s : State} (hk : Keeps ks s₀ s) (hs : Kind.Sub [.fabric] ks)
    {f : Flit} : Keeps ks s₀ (State.sendHead s f) := by
  unfold State.sendHead
  try dsimp only
  repeat' with_reducible first
      | exact hk | exact Kind.Sub.mono rfl hs | apply Keeps.ite | apply State.shorten_keeps | assumption

theorem State.drainOnce_keeps {ks : List Kind} {s₀ s : State} (hk : Keeps ks s₀ s) (hs : Kind.Sub [.fabric] ks)
     : Keeps ks s₀ (State.drainOnce s) := by
  unfold State.drainOnce
  try dsimp only
  repeat' with_reducible first
      | exact hk | exact Kind.Sub.mono rfl hs | apply State.sendHead_keeps | refine Keeps.foldl (fun s x hk => ?_) _ ?_ | assumption
      | split

theorem State.drainBacklog_keeps {ks : List Kind} {s₀ s : State} (hk : Keeps ks s₀ s) (hs : Kind.Sub [.fabric] ks)
     : Keeps ks s₀ (State.drainBacklog s) := by
  unfold State.drainBacklog
  try dsimp only
  repeat' with_reducible first
      | exact hk | exact Kind.Sub.mono rfl hs | apply Keeps.ite | apply State.drainOnce_keeps | assumption | split

theorem State.dropLink_keeps {ks : List Kind} {s₀ s : State} (hk : Keeps ks s₀ s) (hs : Kind.Sub [.regs, .progs, .fabric, .events, .power] ks)
    {port : Nat} {away : Bool} : Keeps ks s₀ (State.dropLink s port away) := by
  unfold State.dropLink
  try dsimp only
  repeat' with_reducible first
      | exact hk | exact Kind.Sub.mono rfl hs | apply Keeps.ite | apply State.setBits_keeps | apply State.clearBits_keeps
      | apply State.raise_keeps | apply State.unitFaults_keeps | apply State.askOut_keeps | assumption | apply Keeps.other
      | exact Or.inl (Kind.Sub.mem hs rfl) | exact Or.inr rfl

theorem State.ratError_keeps {ks : List Kind} {s₀ s : State} (hk : Keeps ks s₀ s) (hs : Kind.Sub [.regs, .progs, .flags, .fabric, .events, .power] ks)
    {m : Nat} {fromHub : Bool} : Keeps ks s₀ (State.ratError s m fromHub) := by
  unfold State.ratError
  try dsimp only
  repeat' with_reducible first
      | exact hk | exact Kind.Sub.mono rfl hs | apply Keeps.ite | apply State.setBits_keeps | apply State.raise_keeps
      | apply State.unitFaults_keeps | apply State.askOut_keeps | assumption | apply Keeps.other | exact Or.inl (Kind.Sub.mem hs rfl)
      | exact Or.inr rfl

theorem State.rewriteFlags_keeps {ks : List Kind} {s₀ s : State} (hk : Keeps ks s₀ s) (hs : Kind.Sub [.regs] ks)
     : Keeps ks s₀ (State.rewriteFlags s) := by
  unfold State.rewriteFlags
  try dsimp only
  repeat' with_reducible first
      | exact hk | exact Kind.Sub.mono rfl hs | apply Keeps.ite | apply State.put_keeps | refine Keeps.foldl (fun s x hk => ?_) _ ?_
      | assumption

theorem State.markLanded_keeps {ks : List Kind} {s₀ s : State} (hk : Keeps ks s₀ s) (hs : Kind.Sub [.regs] ks)
    {m : Nat} {y : Nat} {e : Landing} : Keeps ks s₀ (State.markLanded s m y e) := by
  unfold State.markLanded
  try dsimp only
  repeat' with_reducible first
      | exact hk | exact Kind.Sub.mono rfl hs | apply Keeps.ite | apply State.putLeft_keeps | assumption

theorem State.serveLanding_keeps {ks : List Kind} {s₀ s : State} (hk : Keeps ks s₀ s) (hs : Kind.Sub [.regs, .mem, .ecc, .progs, .yards, .fabric, .events, .power] ks)
    {m : Nat} {y : Nat} {e : Landing} : Keeps ks s₀ (State.serveLanding s m y e) := by
  unfold State.serveLanding
  try dsimp only
  repeat' with_reducible first
      | exact hk | exact Kind.Sub.mono rfl hs | apply State.readCheck_keeps | apply State.checkedStore_keeps | apply State.post_keeps
      | assumption | split

theorem State.landNow_keeps {ks : List Kind} {s₀ s : State} (hk : Keeps ks s₀ s) (hs : Kind.Sub [.regs, .mem, .ecc, .progs, .yards, .fabric, .events, .power] ks)
    {m : Nat} {y : Nat} {e : Landing} : Keeps ks s₀ (State.landNow s m y e) := by
  unfold State.landNow
  try dsimp only
  repeat' with_reducible first
      | exact hk | exact Kind.Sub.mono rfl hs | apply Keeps.ite | apply State.markLanded_keeps | apply State.serveLanding_keeps
      | assumption

theorem execXtreeFlitArrival_keeps {ks : List Kind} {s₀ s s₁ : State} (hk : Keeps ks s₀ s) (hs : Kind.Sub [.regs, .mem, .ecc, .progs, .yards, .fabric, .strm, .events, .hyper, .power] ks) {inPort : Nat} {outPort : Nat}
    (hx : execXtreeFlitArrival inPort outPort s = .next s₁) : Keeps ks s₀ s₁ := by
  unfold execXtreeFlitArrival at hx
  injection hx with hx
  subst hx
  try dsimp only
  repeat' with_reducible first
      | exact hk | exact Kind.Sub.mono rfl hs | apply Keeps.ite | apply State.landFlit_keeps | apply State.takeFlit_keeps | assumption
      | split

theorem execLinkReplay_keeps {ks : List Kind} {s₀ s s₁ : State} (hk : Keeps ks s₀ s) (hs : Kind.Sub [.regs, .progs, .fabric, .events, .power] ks) {port : Nat} {away : Bool}
    (hx : execLinkReplay port away s = .next s₁) : Keeps ks s₀ s₁ := by
  unfold execLinkReplay at hx
  injection hx with hx
  subst hx
  try dsimp only
  repeat' with_reducible first
      | exact hk | exact Kind.Sub.mono rfl hs | apply Keeps.ite | apply State.replay_keeps | apply State.dropLink_keeps | assumption

theorem execXtreeLinkRetrained_keeps {ks : List Kind} {s₀ s s₁ : State} (hk : Keeps ks s₀ s) (hs : Kind.Sub [.fabric, .power] ks) {port : Nat} {ok : Bool}
    (hx : execXtreeLinkRetrained port ok s = .next s₁) : Keeps ks s₀ s₁ := by
  unfold execXtreeLinkRetrained at hx
  injection hx with hx
  subst hx
  try dsimp only
  repeat' with_reducible first
      | exact hk | exact Kind.Sub.mono rfl hs | apply Keeps.ite | apply State.askOut_keeps | assumption | apply Keeps.other
      | exact Or.inl (Kind.Sub.mem hs rfl) | exact Or.inr rfl

theorem execRatlineErr_keeps {ks : List Kind} {s₀ s s₁ : State} (hk : Keeps ks s₀ s) (hs : Kind.Sub [.regs, .progs, .flags, .fabric, .events, .power] ks) {m : Nat} {fromHub : Bool}
    (hx : execRatlineErr m fromHub s = .next s₁) : Keeps ks s₀ s₁ := by
  unfold execRatlineErr at hx
  injection hx with hx
  subst hx
  try dsimp only
  repeat' with_reducible first
      | exact hk | exact Kind.Sub.mono rfl hs | apply Keeps.ite | apply State.ratError_keeps | assumption

theorem execLandingCycle_keeps {ks : List Kind} {s₀ s s₁ : State} (hk : Keeps ks s₀ s) (hs : Kind.Sub [.regs, .mem, .ecc, .progs, .yards, .fabric, .events, .power] ks) {m : Nat} {y : Nat} {bank : Nat}
    (hx : execLandingCycle m y bank s = .next s₁) : Keeps ks s₀ s₁ := by
  unfold execLandingCycle at hx
  injection hx with hx
  subst hx
  try dsimp only
  repeat' with_reducible first
      | exact hk | exact Kind.Sub.mono rfl hs | apply Keeps.ite | apply State.setYard_keeps | apply State.landNow_keeps | assumption
      | split | apply Keeps.other | exact Or.inl (Kind.Sub.mem hs rfl) | exact Or.inr rfl

theorem execYardInit_keeps {ks : List Kind} {s₀ s s₁ : State} (hk : Keeps ks s₀ s) (hs : Kind.Sub [.regs, .yards] ks) {m : Nat} {y : Nat}
    (hx : execYardInit m y s = .next s₁) : Keeps ks s₀ s₁ := by
  unfold execYardInit at hx
  injection hx with hx
  subst hx
  try dsimp only
  repeat' with_reducible first
      | exact hk | exact Kind.Sub.mono rfl hs | apply Keeps.ite | apply State.put_keeps | apply State.setYard_keeps | assumption
      | apply Keeps.other | exact Or.inl (Kind.Sub.mem hs rfl) | exact Or.inr rfl

theorem execYardInitDone_keeps {ks : List Kind} {s₀ s s₁ : State} (hk : Keeps ks s₀ s) (hs : Kind.Sub [.regs, .mem, .ecc, .yards] ks) {m : Nat} {y : Nat}
    (hx : execYardInitDone m y s = .next s₁) : Keeps ks s₀ s₁ := by
  unfold execYardInitDone at hx
  injection hx with hx
  subst hx
  try dsimp only
  repeat' with_reducible first
      | exact hk | exact Kind.Sub.mono rfl hs | apply Keeps.ite | apply State.put_keeps | apply State.zeroFill_keeps
      | apply State.setYard_keeps | assumption | split | apply Keeps.other | exact Or.inl (Kind.Sub.mem hs rfl) | exact Or.inr rfl

theorem execYardPerfClr_keeps {ks : List Kind} {s₀ s s₁ : State} (hk : Keeps ks s₀ s) (hs : Kind.Sub [.regs] ks) {rq : Requester} {m : Nat} {y : Nat}
    (hx : execYardPerfClr rq m y s = .next s₁) : Keeps ks s₀ s₁ := by
  unfold execYardPerfClr at hx
  injection hx with hx
  subst hx
  try dsimp only
  repeat' with_reducible first
      | exact hk | exact Kind.Sub.mono rfl hs | apply Keeps.ite | apply State.setReg_keeps
      | refine State.viaReq_keeps ?_ (Kind.Sub.mono rfl hs) (fun s hk => ?_) | refine Keeps.foldl (fun s x hk => ?_) _ ?_ | assumption

theorem execReefStatusClr_keeps {ks : List Kind} {s₀ s s₁ : State} (hk : Keeps ks s₀ s) (hs : Kind.Sub [.regs] ks) {rq : Requester} {m : Nat} {y : Nat}
    (hx : execReefStatusClr rq m y s = .next s₁) : Keeps ks s₀ s₁ := by
  unfold execReefStatusClr at hx
  injection hx with hx
  subst hx
  try dsimp only
  repeat' with_reducible first
      | exact hk | exact Kind.Sub.mono rfl hs | apply Keeps.ite | apply State.setReg_keeps
      | refine State.viaReq_keeps ?_ (Kind.Sub.mono rfl hs) (fun s hk => ?_) | assumption

theorem execVuStatusClr_keeps {ks : List Kind} {s₀ s s₁ : State} (hk : Keeps ks s₀ s) (hs : Kind.Sub [.regs] ks) {rq : Requester} {m : Nat} {y : Nat}
    (hx : execVuStatusClr rq m y s = .next s₁) : Keeps ks s₀ s₁ := by
  unfold execVuStatusClr at hx
  injection hx with hx
  subst hx
  try dsimp only
  repeat' with_reducible first
      | exact hk | exact Kind.Sub.mono rfl hs | apply Keeps.ite | apply State.setReg_keeps
      | refine State.viaReq_keeps ?_ (Kind.Sub.mono rfl hs) (fun s hk => ?_) | assumption

theorem execStrmPeakClr_keeps {ks : List Kind} {s₀ s s₁ : State} (hk : Keeps ks s₀ s) (hs : Kind.Sub [.regs] ks) {rq : Requester} {engine : Nat}
    (hx : execStrmPeakClr rq engine s = .next s₁) : Keeps ks s₀ s₁ := by
  unfold execStrmPeakClr at hx
  injection hx with hx
  subst hx
  try dsimp only
  repeat' with_reducible first
      | exact hk | exact Kind.Sub.mono rfl hs | apply Keeps.ite | apply State.put_keeps
      | refine State.viaReq_keeps ?_ (Kind.Sub.mono rfl hs) (fun s hk => ?_) | assumption

end Sys2Proof.Machine
end

