-- ==== Sys2Proof/Laws/KeepsBulk.lean ====
section
/-! SUPPORT. The operations of Sys2Proof/Machine/Bulk.lean keep (see Sys2Proof/Laws/KeepsBase.lean). -/

namespace Sys2Proof.Machine

theorem State.setChan_keeps {ks : List Kind} {s₀ s : State} (hk : Keeps ks s₀ s) (hs : Kind.Sub [.strm] ks)
    {ch : Nat} {c : ChanSt} : Keeps ks s₀ (State.setChan s ch c) := by
  unfold State.setChan
  try dsimp only
  repeat' with_reducible first
      | exact hk | exact Kind.Sub.mono rfl hs | assumption | apply Keeps.other | exact Or.inl (Kind.Sub.mem hs rfl) | exact Or.inr rfl

theorem State.setChState_keeps {ks : List Kind} {s₀ s : State} (hk : Keeps ks s₀ s) (hs : Kind.Sub [.regs] ks)
    {ch : Nat} {v : Nat} : Keeps ks s₀ (State.setChState s ch v) := by
  unfold State.setChState
  try dsimp only
  repeat' with_reducible first
      | exact hk | exact Kind.Sub.mono rfl hs | apply State.put_keeps | assumption

theorem State.looseWrite_keeps {ks : List Kind} {s₀ s : State} (hk : Keeps ks s₀ s) (hs : Kind.Sub [.regs, .mem, .ecc, .progs, .yards, .fabric, .events, .hyper, .power] ks)
    {strm : Nat} {rank : Nat} {a : Nat} {bs : List Byte} : Keeps ks s₀ (State.looseWrite s strm rank a bs) := by
  unfold State.looseWrite
  try dsimp only
  repeat' with_reducible first
      | exact hk | exact Kind.Sub.mono rfl hs | apply State.checkedStore_keeps | apply State.pkgStore_keeps | apply State.post_keeps
      | apply State.hrWrite_keeps | assumption | split

theorem State.looseRead_keeps {ks : List Kind} {s₀ s : State} (hk : Keeps ks s₀ s) (hs : Kind.Sub [.regs, .yards, .fabric, .events, .hyper, .power] ks)
    {strm : Nat} {rank : Nat} {a : Nat} {n : Nat} : Keeps ks s₀ (State.looseRead s strm rank a n) := by
  unfold State.looseRead
  try dsimp only
  repeat' with_reducible first
      | exact hk | exact Kind.Sub.mono rfl hs | apply State.readCheck_keeps | apply State.hrRequest_keeps | apply State.post_keeps
      | refine Keeps.foldl (fun s x hk => ?_) _ ?_ | assumption | split

theorem State.elemsOut_keeps {ks : List Kind} {s₀ s : State} (hk : Keeps ks s₀ s) (hs : Kind.Sub [.regs, .mem, .ecc, .progs, .yards, .fabric, .events, .hyper, .power] ks)
    {d : List Byte} {dst : Side} {n : Nat} {k0 : Nat} {vals : List Nat} {strm : Nat} {rank : Nat} : Keeps ks s₀ (State.elemsOut s d dst n k0 vals strm rank) := by
  unfold State.elemsOut
  try dsimp only
  repeat' with_reducible first
      | exact hk | exact Kind.Sub.mono rfl hs | apply Keeps.ite | apply State.looseWrite_keeps
      | refine Keeps.foldl (fun s x hk => ?_) _ ?_ | assumption

theorem State.recordDone_keeps {ks : List Kind} {s₀ s : State} (hk : Keeps ks s₀ s) (hs : Kind.Sub [.regs, .strm] ks)
    {ch : Nat} {status : Nat} : Keeps ks s₀ (State.recordDone s ch status) := by
  unfold State.recordDone
  try dsimp only
  repeat' with_reducible first
      | exact hk | exact Kind.Sub.mono rfl hs | apply Keeps.ite | apply State.put_keeps | apply State.setChan_keeps
      | apply State.setChState_keeps | assumption | apply Keeps.other | exact Or.inl (Kind.Sub.mem hs rfl) | exact Or.inr rfl

theorem State.appendRecord_keeps {ks : List Kind} {s₀ s : State} (hk : Keeps ks s₀ s) (hs : Kind.Sub [.regs, .mem, .ecc, .strm, .queue] ks)
    {ch : Nat} {q : Nat} {bs : List Byte} : Keeps ks s₀ (State.appendRecord s ch q bs) := by
  unfold State.appendRecord
  try dsimp only
  repeat' with_reducible first
      | exact hk | exact Kind.Sub.mono rfl hs | apply Keeps.ite | apply State.qDrop_keeps | apply State.qLand_keeps
      | apply State.setChan_keeps | apply State.setChState_keeps | apply State.recordDone_keeps | assumption | apply Keeps.other
      | exact Or.inl (Kind.Sub.mem hs rfl) | exact Or.inr rfl

theorem State.endChan_keeps {ks : List Kind} {s₀ s : State} (hk : Keeps ks s₀ s) (hs : Kind.Sub [.regs, .mem, .ecc, .strm, .events, .queue] ks)
    {ch : Nat} {status : Nat} {coord : Nat} {off : Nat} : Keeps ks s₀ (State.endChan s ch status coord off) := by
  unfold State.endChan
  try dsimp only
  repeat' with_reducible first
      | exact hk | exact Kind.Sub.mono rfl hs | apply Keeps.ite | apply State.raise_keeps | apply State.appendRecord_keeps | assumption

theorem State.endAborted_keeps {ks : List Kind} {s₀ s : State} (hk : Keeps ks s₀ s) (hs : Kind.Sub [.regs, .mem, .ecc, .strm, .events, .queue] ks)
    {ch : Nat} : Keeps ks s₀ (State.endAborted s ch) := by
  unfold State.endAborted
  try dsimp only
  repeat' with_reducible first
      | exact hk | exact Kind.Sub.mono rfl hs | apply State.setChan_keeps | apply State.endChan_keeps | assumption | split
      | apply Keeps.other | exact Or.inl (Kind.Sub.mem hs rfl) | exact Or.inr rfl

theorem State.dattFault_keeps {ks : List Kind} {s₀ s : State} (hk : Keeps ks s₀ s) (hs : Kind.Sub [.regs] ks)
    {a : Nat} {write : Bool} : Keeps ks s₀ (State.dattFault s a write) := by
  unfold State.dattFault
  try dsimp only
  repeat' with_reducible first
      | exact hk | exact Kind.Sub.mono rfl hs | apply Keeps.ite | apply State.put_keeps | apply State.bump_keeps | assumption

theorem State.moveFrom_keeps {ks : List Kind} {s₀ s : State} (hk : Keeps ks s₀ s) (hs : Kind.Sub [.regs, .mem, .ecc, .progs, .yards, .fabric, .strm, .events, .hyper, .power, .free] ks)
    {ch : Nat} : Keeps ks s₀ (State.moveFrom s ch) := by
  unfold State.moveFrom
  try dsimp only
  repeat' with_reducible first
      | exact hk | exact Kind.Sub.mono rfl hs | apply Keeps.ite | apply State.setReg_keeps | apply State.windowFault_keeps
      | apply State.takeSerial_keeps | apply State.touchPeak_keeps | apply State.setChan_keeps | apply State.setChState_keeps
      | apply State.looseRead_keeps | apply State.elemsOut_keeps | apply State.dattFault_keeps
      | refine Keeps.foldl (fun s x hk => ?_) _ ?_ | assumption | split | apply Keeps.other | exact Or.inl (Kind.Sub.mem hs rfl)
      | exact Or.inr rfl

theorem State.showDesc_keeps {ks : List Kind} {s₀ s : State} (hk : Keeps ks s₀ s) (hs : Kind.Sub [.regs] ks)
    {ch : Nat} {d : List Byte} : Keeps ks s₀ (State.showDesc s ch d) := by
  unfold State.showDesc
  try dsimp only
  repeat' with_reducible first
      | exact hk | exact Kind.Sub.mono rfl hs | apply State.setReg_keeps | refine Keeps.foldl (fun s x hk => ?_) _ ?_ | assumption

theorem State.takeDesc_keeps {ks : List Kind} {s₀ s : State} (hk : Keeps ks s₀ s) (hs : Kind.Sub [.regs, .mem, .ecc, .progs, .yards, .fabric, .strm, .events, .queue, .hyper, .power, .free] ks)
    {ch : Nat} {q : Nat} : Keeps ks s₀ (State.takeDesc s ch q) := by
  unfold State.takeDesc
  try dsimp only
  repeat' with_reducible first
      | exact hk | exact Kind.Sub.mono rfl hs | apply Keeps.ite | apply State.setReg_keeps | apply State.qSet_keeps
      | apply State.setChan_keeps | apply State.setChState_keeps | apply State.endChan_keeps | apply State.moveFrom_keeps
      | apply State.showDesc_keeps | assumption

theorem execBulkDescriptorStart_keeps {ks : List Kind} {s₀ s s₁ : State} (hk : Keeps ks s₀ s) (hs : Kind.Sub [.regs, .mem, .ecc, .progs, .yards, .fabric, .strm, .events, .queue, .hyper, .power, .free] ks) {ch : Nat}
    (hx : execBulkDescriptorStart ch s = .next s₁) : Keeps ks s₀ s₁ := by
  unfold execBulkDescriptorStart at hx
  injection hx with hx
  subst hx
  try dsimp only
  repeat' with_reducible first
      | exact hk | exact Kind.Sub.mono rfl hs | apply Keeps.ite | apply State.takeDesc_keeps | assumption

theorem execStreamCompletion_keeps {ks : List Kind} {s₀ s s₁ : State} (hk : Keeps ks s₀ s) (hs : Kind.Sub [.regs, .mem, .ecc, .strm, .events, .queue] ks) {ch : Nat} {rb : XferEnd}
    (hx : execStreamCompletion ch rb s = .next s₁) : Keeps ks s₀ s₁ := by
  unfold execStreamCompletion at hx
  injection hx with hx
  subst hx
  try dsimp only
  repeat' with_reducible first
      | exact hk | exact Kind.Sub.mono rfl hs | apply Keeps.ite | apply State.windowFault_keeps | apply State.endChan_keeps
      | apply State.endAborted_keeps | assumption | split

theorem execBulkRecordWaitEnd_keeps {ks : List Kind} {s₀ s s₁ : State} (hk : Keeps ks s₀ s) (hs : Kind.Sub [.regs, .mem, .ecc, .strm, .events, .queue] ks) {ch : Nat}
    (hx : execBulkRecordWaitEnd ch s = .next s₁) : Keeps ks s₀ s₁ := by
  unfold execBulkRecordWaitEnd at hx
  injection hx with hx
  subst hx
  try dsimp only
  repeat' with_reducible first
      | exact hk | exact Kind.Sub.mono rfl hs | apply Keeps.ite | apply State.appendRecord_keeps | apply State.endAborted_keeps
      | assumption | split

theorem execStrmResume_keeps {ks : List Kind} {s₀ s s₁ : State} (hk : Keeps ks s₀ s) (hs : Kind.Sub [.regs, .mem, .ecc, .progs, .yards, .fabric, .strm, .events, .queue, .hyper, .power, .free] ks) {rq : Requester} {ch : Nat}
    (hx : execStrmResume rq ch s = .next s₁) : Keeps ks s₀ s₁ := by
  unfold execStrmResume at hx
  injection hx with hx
  subst hx
  try dsimp only
  repeat' with_reducible first
      | exact hk | exact Kind.Sub.mono rfl hs | apply Keeps.ite | refine State.viaReq_keeps ?_ (Kind.Sub.mono rfl hs) (fun s hk => ?_)
      | apply State.setChState_keeps | apply State.endChan_keeps | apply State.moveFrom_keeps | assumption

theorem execStrmAbort_keeps {ks : List Kind} {s₀ s s₁ : State} (hk : Keeps ks s₀ s) (hs : Kind.Sub [.regs, .mem, .ecc, .strm, .events, .queue] ks) {rq : Requester} {ch : Nat}
    (hx : execStrmAbort rq ch s = .next s₁) : Keeps ks s₀ s₁ := by
  unfold execStrmAbort at hx
  injection hx with hx
  subst hx
  try dsimp only
  repeat' with_reducible first
      | exact hk | exact Kind.Sub.mono rfl hs | apply Keeps.ite | refine State.viaReq_keeps ?_ (Kind.Sub.mono rfl hs) (fun s hk => ?_)
      | apply State.setChan_keeps | apply State.setChState_keeps | apply State.endChan_keeps | assumption | split | apply Keeps.other
      | exact Or.inl (Kind.Sub.mem hs rfl) | exact Or.inr rfl

theorem execCompletionTimeout_keeps {ks : List Kind} {s₀ s s₁ : State} (hk : Keeps ks s₀ s) (hs : Kind.Sub [.regs, .strm] ks) {ch : Nat}
    (hx : execCompletionTimeout ch s = .next s₁) : Keeps ks s₀ s₁ := by
  unfold execCompletionTimeout at hx
  injection hx with hx
  subst hx
  try dsimp only
  repeat' with_reducible first
      | exact hk | exact Kind.Sub.mono rfl hs | apply State.bump_keeps | apply State.setChan_keeps | assumption | split
      | apply Keeps.other | exact Or.inl (Kind.Sub.mem hs rfl) | exact Or.inr rfl

theorem execDattUpdate_keeps {ks : List Kind} {s₀ s s₁ : State} (hk : Keeps ks s₀ s) (hs : Kind.Sub [.regs, .hold, .mem, .ecc, .strm] ks) {rq : Requester} {high : BitVec 32}
    (hx : execDattUpdate rq high s = .next s₁) : Keeps ks s₀ s₁ := by
  unfold execDattUpdate at hx
  injection hx with hx
  subst hx
  try dsimp only
  repeat' with_reducible first
      | exact hk | exact Kind.Sub.mono rfl hs | apply Keeps.ite | apply State.store_keeps | apply State.setHeld_keeps
      | refine State.viaReq_keeps ?_ (Kind.Sub.mono rfl hs) (fun s hk => ?_) | assumption | split | apply Keeps.other
      | exact Or.inl (Kind.Sub.mem hs rfl) | exact Or.inr rfl

end Sys2Proof.Machine
end

