-- ==== Sys2Proof/Laws/KeepsPeriph.lean ====
section
/-! SUPPORT. The operations of Sys2Proof/Machine/Periph.lean keep (see Sys2Proof/Laws/KeepsBase.lean). -/

namespace Sys2Proof.Machine

theorem State.setInput_keeps {ks : List Kind} {s₀ s : State} (hk : Keeps ks s₀ s) (hs : Kind.Sub [.progs] ks)
    {b : Bound} {v : InputSt} : Keeps ks s₀ (State.setInput s b v) := by
  unfold State.setInput
  try dsimp only
  repeat' with_reducible first
      | exact hk | exact Kind.Sub.mono rfl hs | apply State.setProg_keeps | assumption | apply Keeps.other
      | exact Or.inl (Kind.Sub.mem hs rfl) | exact Or.inr rfl

theorem State.clearLeft_keeps {ks : List Kind} {s₀ s : State} (hk : Keeps ks s₀ s) (hs : Kind.Sub [.regs] ks)
    {ks_ : List Nat} : Keeps ks s₀ (State.clearLeft s ks_) := by
  unfold State.clearLeft
  try dsimp only
  repeat' with_reducible first
      | exact hk | exact Kind.Sub.mono rfl hs | apply State.putLeft_keeps | refine Keeps.foldl (fun s x hk => ?_) _ ?_ | assumption

theorem State.periphRecord_keeps {ks : List Kind} {s₀ s : State} (hk : Keeps ks s₀ s) (hs : Kind.Sub [.regs, .mem, .ecc, .strm, .events, .queue] ks)
    {line : Nat} {status : Nat} {d : List Byte} {elems : Nat} : Keeps ks s₀ (State.periphRecord s line status d elems) := by
  unfold State.periphRecord
  try dsimp only
  repeat' with_reducible first
      | exact hk | exact Kind.Sub.mono rfl hs | apply Keeps.ite | apply State.put_keeps | apply State.bump_keeps
      | apply State.raise_keeps | apply State.qProduce_keeps | assumption
      | exact Keeps.ofFst (State.qProduce_keeps hk (Kind.Sub.mono rfl hs)) (by assumption) | apply Keeps.other
      | exact Or.inl (Kind.Sub.mem hs rfl) | exact Or.inr rfl

theorem State.dropBurst_keeps {ks : List Kind} {s₀ s : State} (hk : Keeps ks s₀ s) (hs : Kind.Sub [.regs, .strm, .events] ks)
    {line : Nat} : Keeps ks s₀ (State.dropBurst s line) := by
  unfold State.dropBurst
  try dsimp only
  repeat' with_reducible first
      | exact hk | exact Kind.Sub.mono rfl hs | apply Keeps.ite | apply State.bump_keeps | apply State.raise_keeps
      | apply State.setPctx_keeps | assumption | apply Keeps.other | exact Or.inl (Kind.Sub.mem hs rfl) | exact Or.inr rfl

theorem State.endDesc_keeps {ks : List Kind} {s₀ s : State} (hk : Keeps ks s₀ s) (hs : Kind.Sub [.regs, .mem, .ecc, .strm, .events, .queue] ks)
    {line : Nat} {status : Nat} : Keeps ks s₀ (State.endDesc s line status) := by
  unfold State.endDesc
  try dsimp only
  repeat' with_reducible first
      | exact hk | exact Kind.Sub.mono rfl hs | apply State.put_keeps | apply State.setPctx_keeps | apply State.periphRecord_keeps
      | assumption | apply Keeps.other | exact Or.inl (Kind.Sub.mem hs rfl) | exact Or.inr rfl

theorem State.abortDesc_keeps {ks : List Kind} {s₀ s : State} (hk : Keeps ks s₀ s) (hs : Kind.Sub [.regs, .mem, .ecc, .strm, .events, .queue] ks)
    {line : Nat} : Keeps ks s₀ (State.abortDesc s line) := by
  unfold State.abortDesc
  try dsimp only
  repeat' with_reducible first
      | exact hk | exact Kind.Sub.mono rfl hs | apply Keeps.ite | apply State.setPctx_keeps | apply State.clearLeft_keeps
      | apply State.endDesc_keeps | assumption | apply Keeps.other | exact Or.inl (Kind.Sub.mem hs rfl) | exact Or.inr rfl

theorem State.overtake_keeps {ks : List Kind} {s₀ s : State} (hk : Keeps ks s₀ s) (hs : Kind.Sub [.regs, .mem, .ecc, .progs, .strm, .events, .queue] ks)
    {line : Nat} {b : Bound} : Keeps ks s₀ (State.overtake s line b) := by
  unfold State.overtake
  try dsimp only
  repeat' with_reducible first
      | exact hk | exact Kind.Sub.mono rfl hs | apply Keeps.ite | apply State.setPctx_keeps | apply State.setInput_keeps
      | apply State.periphRecord_keeps | assumption | apply Keeps.other | exact Or.inl (Kind.Sub.mem hs rfl) | exact Or.inr rfl

theorem State.startDesc_keeps {ks : List Kind} {s₀ s : State} (hk : Keeps ks s₀ s) (hs : Kind.Sub [.regs, .mem, .ecc, .progs, .fabric, .strm, .events, .queue] ks)
    {line : Nat} {d : List Byte} : Keeps ks s₀ (State.startDesc s line d) := by
  unfold State.startDesc
  try dsimp only
  repeat' with_reducible first
      | exact hk | exact Kind.Sub.mono rfl hs | apply Keeps.ite | apply State.setReg_keeps | apply State.put_keeps
      | apply State.takeSerial_keeps | apply State.setPctx_keeps | apply State.overtake_keeps | assumption | split | apply Keeps.other
      | exact Or.inl (Kind.Sub.mem hs rfl) | exact Or.inr rfl

theorem State.completeHalf_keeps {ks : List Kind} {s₀ s : State} (hk : Keeps ks s₀ s) (hs : Kind.Sub [.progs, .strm] ks)
    {line : Nat} {d : List Byte} {half : Bool} : Keeps ks s₀ (State.completeHalf s line d half) := by
  unfold State.completeHalf
  try dsimp only
  repeat' with_reducible first
      | exact hk | exact Kind.Sub.mono rfl hs | apply Keeps.ite | apply State.setPctx_keeps | apply State.setInput_keeps | assumption
      | split | apply Keeps.other | exact Or.inl (Kind.Sub.mem hs rfl) | exact Or.inr rfl

theorem State.endLanded_keeps {ks : List Kind} {s₀ s : State} (hk : Keeps ks s₀ s) (hs : Kind.Sub [.regs, .mem, .ecc, .progs, .strm, .events, .queue] ks)
    {line : Nat} {e : PctxEnd} : Keeps ks s₀ (State.endLanded s line e) := by
  unfold State.endLanded
  try dsimp only
  repeat' with_reducible first
      | exact hk | exact Kind.Sub.mono rfl hs | apply Keeps.ite | apply State.periphRecord_keeps | apply State.completeHalf_keeps
      | assumption

theorem State.endsFuel_keeps {ks : List Kind} {s₀ s : State} (hk : Keeps ks s₀ s) (hs : Kind.Sub [.regs, .mem, .ecc, .progs, .yards, .fabric, .strm, .events, .queue, .hyper, .power] ks)
    {line : Nat} {k : Nat} : Keeps ks s₀ (State.endsFuel line k s) := by
  induction k generalizing s with
  | zero => exact hk
  | succ k ih =>
    rw [State.endsFuel]
    split
    · split
      · exact hk
      · split
        · exact State.looseRead_keeps (State.setPctx_keeps hk (Kind.Sub.mono rfl hs)) (Kind.Sub.mono rfl hs)
        · exact ih (State.endLanded_keeps (State.setPctx_keeps hk (Kind.Sub.mono rfl hs)) (Kind.Sub.mono rfl hs))
    · exact hk

theorem State.endsOf_keeps {ks : List Kind} {s₀ s : State} (hk : Keeps ks s₀ s) (hs : Kind.Sub [.regs, .mem, .ecc, .progs, .yards, .fabric, .strm, .events, .queue, .hyper, .power] ks)
    {line : Nat} : Keeps ks s₀ (State.endsOf s line) := by
  unfold State.endsOf
  try dsimp only
  repeat' with_reducible first
      | exact hk | exact Kind.Sub.mono rfl hs | apply State.endsFuel_keeps | assumption

theorem State.periphEnds_keeps {ks : List Kind} {s₀ s : State} (hk : Keeps ks s₀ s) (hs : Kind.Sub [.regs, .mem, .ecc, .progs, .yards, .fabric, .strm, .events, .queue, .hyper, .power] ks)
     : Keeps ks s₀ (State.periphEnds s) := by
  unfold State.periphEnds
  try dsimp only
  repeat' with_reducible first
      | exact hk | exact Kind.Sub.mono rfl hs | apply State.endsOf_keeps | refine Keeps.foldl (fun s x hk => ?_) _ ?_ | assumption

theorem State.finishDesc_keeps {ks : List Kind} {s₀ s : State} (hk : Keeps ks s₀ s) (hs : Kind.Sub [.regs, .mem, .ecc, .progs, .yards, .fabric, .strm, .events, .queue, .hyper, .power] ks)
    {line : Nat} : Keeps ks s₀ (State.finishDesc s line) := by
  unfold State.finishDesc
  try dsimp only
  repeat' with_reducible first
      | exact hk | exact Kind.Sub.mono rfl hs | apply State.put_keeps | apply State.setPctx_keeps | apply State.endsOf_keeps | assumption
      | apply Keeps.other | exact Or.inl (Kind.Sub.mem hs rfl) | exact Or.inr rfl

theorem State.burstIn_keeps {ks : List Kind} {s₀ s : State} (hk : Keeps ks s₀ s) (hs : Kind.Sub [.regs, .mem, .ecc, .progs, .yards, .fabric, .events, .hyper, .power] ks)
    {line : Nat} {d : List Byte} {half : Bool} {n : Nat} {k0 : Nat} {vals : List Nat} : Keeps ks s₀ (State.burstIn s line d half n k0 vals) := by
  unfold State.burstIn
  try dsimp only
  repeat' with_reducible first
      | exact hk | exact Kind.Sub.mono rfl hs | apply Keeps.ite | apply State.looseWrite_keeps
      | refine Keeps.foldl (fun s x hk => ?_) _ ?_ | assumption | split

theorem State.moveBurst_keeps {ks : List Kind} {s₀ s : State} (hk : Keeps ks s₀ s) (hs : Kind.Sub [.regs, .mem, .ecc, .progs, .yards, .fabric, .strm, .events, .queue, .hyper, .power] ks)
    {line : Nat} {data : List Byte} : Keeps ks s₀ (State.moveBurst s line data) := by
  unfold State.moveBurst
  try dsimp only
  repeat' with_reducible first
      | exact hk | exact Kind.Sub.mono rfl hs | apply Keeps.ite | apply State.put_keeps | apply State.windowFault_keeps
      | apply State.setPctx_keeps | apply State.looseRead_keeps | apply State.clearLeft_keeps | apply State.endDesc_keeps
      | apply State.abortDesc_keeps | apply State.finishDesc_keeps | apply State.burstIn_keeps
      | refine Keeps.foldl (fun s x hk => ?_) _ ?_ | assumption | split | apply Keeps.other | exact Or.inl (Kind.Sub.mem hs rfl)
      | exact Or.inr rfl

theorem State.periphBurst_keeps {ks : List Kind} {s₀ s : State} (hk : Keeps ks s₀ s) (hs : Kind.Sub [.regs, .mem, .ecc, .progs, .yards, .fabric, .strm, .events, .queue, .hyper, .power] ks)
    {line : Nat} {data : List Byte} : Keeps ks s₀ (State.periphBurst s line data) := by
  unfold State.periphBurst
  try dsimp only
  repeat' with_reducible first
      | exact hk | exact Kind.Sub.mono rfl hs | apply Keeps.ite | apply State.bump_keeps | apply State.dropBurst_keeps
      | apply State.startDesc_keeps | apply State.moveBurst_keeps | assumption

theorem State.feedFuel_keeps {ks : List Kind} {s₀ s : State} (hk : Keeps ks s₀ s) (hs : Kind.Sub [.regs, .mem, .ecc, .progs, .yards, .fabric, .strm, .events, .queue, .hyper, .power] ks)
    {line : Nat} {k : Nat} : Keeps ks s₀ (State.feedFuel line k s) := by
  induction k generalizing s with
  | zero => exact hk
  | succ k ih =>
    rw [State.feedFuel]
    dsimp only
    repeat' with_reducible first | exact hk | exact Kind.Sub.mono rfl hs | apply Keeps.ite | apply ih | apply State.periphBurst_keeps | apply State.setPctx_keeps

theorem State.feedLine_keeps {ks : List Kind} {s₀ s : State} (hk : Keeps ks s₀ s) (hs : Kind.Sub [.regs, .mem, .ecc, .progs, .yards, .fabric, .strm, .events, .queue, .hyper, .power] ks)
    {line : Nat} {bs : List Byte} : Keeps ks s₀ (State.feedLine s line bs) := by
  unfold State.feedLine
  try dsimp only
  repeat' with_reducible first
      | exact hk | exact Kind.Sub.mono rfl hs | apply State.setPctx_keeps | apply State.feedFuel_keeps | assumption | apply Keeps.other
      | exact Or.inl (Kind.Sub.mem hs rfl) | exact Or.inr rfl

theorem execPeripheralRequest_keeps {ks : List Kind} {s₀ s s₁ : State} (hk : Keeps ks s₀ s) (hs : Kind.Sub [.regs, .mem, .ecc, .progs, .yards, .fabric, .strm, .events, .queue, .hyper, .power] ks) {line : Nat} {data : List (BitVec 8)}
    (hx : execPeripheralRequest line data s = .next s₁) : Keeps ks s₀ s₁ := by
  unfold execPeripheralRequest at hx
  injection hx with hx
  subst hx
  try dsimp only
  repeat' with_reducible first
      | exact hk | exact Kind.Sub.mono rfl hs | apply Keeps.ite | apply State.periphBurst_keeps | assumption

end Sys2Proof.Machine
end

