-- ==== Sys2Proof/Laws/KeepsMedia.lean ====
section
/-! SUPPORT. The operations of Sys2Proof/Machine/Media.lean keep (see Sys2Proof/Laws/KeepsBase.lean). -/

namespace Sys2Proof.Machine

theorem State.mediaRecord_keeps {ks : List Kind} {s₀ s : State} (hk : Keeps ks s₀ s) (hs : Kind.Sub [.regs, .mem, .ecc, .events, .queue] ks)
    {q : Nat} {status : Nat} {unit : Nat} {ses : Nat} {pic : Nat} {seq : Nat} {time : Nat} {off : Nat} {len : Nat} : Keeps ks s₀ (State.mediaRecord s q status unit ses pic seq time off len) := by
  unfold State.mediaRecord
  try dsimp only
  repeat' with_reducible first
      | exact hk | exact Kind.Sub.mono rfl hs | apply State.qProduce_keeps | assumption
      | exact Keeps.ofFst (State.qProduce_keeps hk (Kind.Sub.mono rfl hs)) (by assumption)

theorem State.nextSeq_keeps {ks : List Kind} {s₀ s : State} (hk : Keeps ks s₀ s) (hs : Kind.Sub [.media] ks)
    {unit : Nat} {ses : Nat} : Keeps ks s₀ (State.nextSeq s unit ses).1 := by
  unfold State.nextSeq
  try dsimp only
  repeat' with_reducible first
      | exact hk | exact Kind.Sub.mono rfl hs | assumption | split | dsimp only | apply Keeps.other | exact Or.inl (Kind.Sub.mem hs rfl)
      | exact Or.inr rfl

theorem State.ringWrite_keeps {ks : List Kind} {s₀ s : State} (hk : Keeps ks s₀ s) (hs : Kind.Sub [.regs, .mem, .ecc] ks)
    {base : Nat} {size : Nat} {wp : Nat} {bs : List Byte} : Keeps ks s₀ (State.ringWrite s base size wp bs) := by
  unfold State.ringWrite
  try dsimp only
  repeat' with_reducible first
      | exact hk | exact Kind.Sub.mono rfl hs | apply State.store_keeps | assumption

theorem State.keepFrame_keeps {ks : List Kind} {s₀ s : State} (hk : Keeps ks s₀ s) (hs : Kind.Sub [.regs, .mem, .ecc, .media] ks)
    {n : Nat} {area : Nat} {bs : List Byte} : Keeps ks s₀ (State.keepFrame s n area bs) := by
  unfold State.keepFrame
  try dsimp only
  repeat' with_reducible first
      | exact hk | exact Kind.Sub.mono rfl hs | apply State.store_keeps | assumption | apply Keeps.other
      | exact Or.inl (Kind.Sub.mem hs rfl) | exact Or.inr rfl

theorem State.encoderFrame_keeps {ks : List Kind} {s₀ s : State} (hk : Keeps ks s₀ s) (hs : Kind.Sub [.regs, .mem, .ecc, .events, .queue, .media] ks)
    {n : Nat} {bs : List Byte} : Keeps ks s₀ (State.encoderFrame s n bs) := by
  unfold State.encoderFrame
  try dsimp only
  repeat' with_reducible first
      | exact hk | exact Kind.Sub.mono rfl hs | apply Keeps.ite | apply State.put_keeps | apply State.raise_keeps
      | apply State.mediaRecord_keeps | apply State.nextSeq_keeps | apply State.keepFrame_keeps | assumption
      | exact Keeps.ofFst (State.nextSeq_keeps hk (Kind.Sub.mono rfl hs)) (by assumption) | split | apply Keeps.other
      | exact Or.inl (Kind.Sub.mem hs rfl) | exact Or.inr rfl

theorem State.sourceFrame_keeps {ks : List Kind} {s₀ s : State} (hk : Keeps ks s₀ s) (hs : Kind.Sub [.regs, .mem, .ecc, .progs, .yards, .fabric, .strm, .events, .queue, .media, .hyper, .power] ks)
    {src : Nat} {line : Nat} {bs : List Byte} : Keeps ks s₀ (State.sourceFrame s src line bs) := by
  unfold State.sourceFrame
  try dsimp only
  repeat' with_reducible first
      | exact hk | exact Kind.Sub.mono rfl hs | apply Keeps.ite | apply State.feedLine_keeps | apply State.keepFrame_keeps
      | apply State.encoderFrame_keeps | assumption | split | apply Keeps.other | exact Or.inl (Kind.Sub.mem hs rfl) | exact Or.inr rfl

theorem State.sofBefore_keeps {ks : List Kind} {s₀ s : State} (hk : Keeps ks s₀ s) (hs : Kind.Sub [.regs, .free] ks)
    {st : Nat} : Keeps ks s₀ (State.sofBefore s st) := by
  unfold State.sofBefore
  try dsimp only
  repeat' with_reducible first
      | exact hk | exact Kind.Sub.mono rfl hs | apply State.setReg_keeps | apply State.takeFree_keeps | assumption

theorem State.wholeFrame_keeps {ks : List Kind} {s₀ s : State} (hk : Keeps ks s₀ s) (hs : Kind.Sub [.regs, .mem, .ecc, .progs, .yards, .fabric, .strm, .events, .queue, .media, .hyper, .power] ks)
    {st : Nat} {b : List Byte} {data : List Byte} : Keeps ks s₀ (State.wholeFrame s st b data) := by
  unfold State.wholeFrame
  try dsimp only
  repeat' with_reducible first
      | exact hk | exact Kind.Sub.mono rfl hs | apply Keeps.ite | apply State.bump_keeps | apply State.sourceFrame_keeps
      | refine Keeps.foldl (fun s x hk => ?_) _ ?_ | assumption

theorem State.cutLine_keeps {ks : List Kind} {s₀ s : State} (hk : Keeps ks s₀ s) (hs : Kind.Sub [.regs, .mem, .ecc, .progs, .fabric, .strm, .events, .queue] ks)
    {line : Nat} : Keeps ks s₀ (State.cutLine s line) := by
  unfold State.cutLine
  try dsimp only
  repeat' with_reducible first
      | exact hk | exact Kind.Sub.mono rfl hs | apply Keeps.ite | apply State.abortDesc_keeps | apply State.startDesc_keeps | assumption

theorem State.dropFrame_keeps {ks : List Kind} {s₀ s : State} (hk : Keeps ks s₀ s) (hs : Kind.Sub [.regs, .mem, .ecc, .progs, .yards, .fabric, .strm, .events, .queue, .media, .hyper, .power] ks)
    {st : Nat} {b : List Byte} {data : List Byte} : Keeps ks s₀ (State.dropFrame s st b data) := by
  unfold State.dropFrame
  try dsimp only
  repeat' with_reducible first
      | exact hk | exact Kind.Sub.mono rfl hs | apply Keeps.ite | apply State.bump_keeps | apply State.raise_keeps
      | apply State.abortDesc_keeps | apply State.feedLine_keeps | apply State.cutLine_keeps | refine Keeps.foldl (fun s x hk => ?_) _ ?_
      | assumption | apply Keeps.other | exact Or.inl (Kind.Sub.mem hs rfl) | exact Or.inr rfl

theorem State.ringUnit_keeps {ks : List Kind} {s₀ s : State} (hk : Keeps ks s₀ s) (hs : Kind.Sub [.regs, .mem, .ecc, .events, .queue, .media] ks)
    {wp : RegId} {rp : RegId} {stat : RegId} {ovf : Nat} {base : Nat} {size : Nat} {q : Nat} {unit : Nat} {ses : Nat} {pic : Nat} {time : Nat} {bs : List Byte} : Keeps ks s₀ (State.ringUnit s wp rp stat ovf base size q unit ses pic time bs).1 := by
  unfold State.ringUnit
  try dsimp only
  repeat' with_reducible first
      | exact hk | exact Kind.Sub.mono rfl hs | apply State.put_keeps | apply State.raise_keeps | apply State.mediaRecord_keeps
      | apply State.nextSeq_keeps | apply State.ringWrite_keeps | assumption
      | exact Keeps.ofFst (State.nextSeq_keeps hk (Kind.Sub.mono rfl hs)) (by assumption) | split | split | dsimp only

theorem State.accessUnit_keeps {ks : List Kind} {s₀ s : State} (hk : Keeps ks s₀ s) (hs : Kind.Sub [.regs, .mem, .ecc, .events, .queue, .media] ks)
    {n : Nat} {b : List Byte} {src : List Byte} {time : Nat} {rest : List (List Byte × BitVec 64)} : Keeps ks s₀ (State.accessUnit s n b src time rest) := by
  unfold State.accessUnit
  try dsimp only
  repeat' with_reducible first
      | exact hk | exact Kind.Sub.mono rfl hs | apply Keeps.ite | apply State.put_keeps | apply State.ringUnit_keeps | assumption
      | exact Keeps.ofFst (State.ringUnit_keeps hk (Kind.Sub.mono rfl hs)) (by assumption) | split | apply Keeps.other
      | exact Or.inl (Kind.Sub.mem hs rfl) | exact Or.inr rfl

theorem State.drain_keeps {ks : List Kind} {s₀ s : State} (hk : Keeps ks s₀ s) (hs : Kind.Sub [.regs] ks)
    {wp : RegId} {rp : RegId} {size : Nat} {off : Nat} : Keeps ks s₀ (State.drain s wp rp size off) := by
  unfold State.drain
  try dsimp only
  repeat' with_reducible first
      | exact hk | exact Kind.Sub.mono rfl hs | apply Keeps.ite | apply State.put_keeps | assumption

theorem State.audioCapture_keeps {ks : List Kind} {s₀ s : State} (hk : Keeps ks s₀ s) (hs : Kind.Sub [.regs, .mem, .ecc, .progs, .yards, .fabric, .strm, .events, .queue, .media, .hyper, .power] ks)
    {b : List Byte} {xs : List Word} : Keeps ks s₀ (State.audioCapture s b xs) := by
  unfold State.audioCapture
  try dsimp only
  repeat' with_reducible first
      | exact hk | exact Kind.Sub.mono rfl hs | apply Keeps.ite | apply State.setBits_keeps | apply State.bump_keeps
      | apply State.feedLine_keeps | refine Keeps.foldl (fun s x hk => ?_) _ ?_ | assumption | apply Keeps.other
      | exact Or.inl (Kind.Sub.mem hs rfl) | exact Or.inr rfl

theorem State.sendFrame_keeps {ks : List Kind} {s₀ s : State} (hk : Keeps ks s₀ s) (hs : Kind.Sub [.media] ks)
    {o : Nat} {slots : Nat} {ws : List Word} : Keeps ks s₀ (State.sendFrame s o slots ws) := by
  unfold State.sendFrame
  try dsimp only
  repeat' with_reducible first
      | exact hk | exact Kind.Sub.mono rfl hs | refine Keeps.foldl (fun s x hk => ?_) _ ?_ | assumption | apply Keeps.other
      | exact Or.inl (Kind.Sub.mem hs rfl) | exact Or.inr rfl

theorem execCameraFrame_keeps {ks : List Kind} {s₀ s s₁ : State} (hk : Keeps ks s₀ s) (hs : Kind.Sub [.regs, .mem, .ecc, .progs, .yards, .fabric, .strm, .events, .queue, .media, .hyper, .power, .free] ks) {stream : Nat} {fin_ : FrameEnd} {data : List (BitVec 8)}
    (hx : execCameraFrame stream fin_ data s = .next s₁) : Keeps ks s₀ s₁ := by
  unfold execCameraFrame at hx
  injection hx with hx
  subst hx
  try dsimp only
  repeat' with_reducible first
      | exact hk | exact Kind.Sub.mono rfl hs | apply Keeps.ite | apply State.setReg_keeps | apply State.setBits_keeps
      | apply State.bump_keeps | apply State.sofBefore_keeps | apply State.wholeFrame_keeps | apply State.dropFrame_keeps | assumption
      | split

theorem execVdecWpWrite_keeps {ks : List Kind} {s₀ s s₁ : State} (hk : Keeps ks s₀ s) (hs : Kind.Sub [.regs] ks) {n : Nat} {off : BitVec 32}
    (hx : execVdecWpWrite n off s = .next s₁) : Keeps ks s₀ s₁ := by
  unfold execVdecWpWrite at hx
  injection hx with hx
  subst hx
  try dsimp only
  repeat' with_reducible first
      | exact hk | exact Kind.Sub.mono rfl hs | apply Keeps.ite | apply State.put_keeps
      | refine State.viaHost_keeps ?_ (Kind.Sub.mono rfl hs) (fun s hk => ?_) | assumption | split

theorem execVdecFrameDecoded_keeps {ks : List Kind} {s₀ s s₁ : State} (hk : Keeps ks s₀ s) (hs : Kind.Sub [.regs, .mem, .ecc, .progs, .yards, .fabric, .strm, .events, .queue, .media, .hyper, .power] ks) {n : Nat} {damaged : Bool} {pic : PicKind} {used : BitVec 32}
    (hx : execVdecFrameDecoded n damaged pic used s = .next s₁) : Keeps ks s₀ s₁ := by
  unfold execVdecFrameDecoded at hx
  injection hx with hx
  subst hx
  try dsimp only
  repeat' with_reducible first
      | exact hk | exact Kind.Sub.mono rfl hs | apply Keeps.ite | apply State.put_keeps | apply State.setBits_keeps
      | apply State.raise_keeps | apply State.store_keeps | apply State.feedLine_keeps | apply State.mediaRecord_keeps
      | apply State.nextSeq_keeps | assumption | exact Keeps.ofFst (State.nextSeq_keeps hk (Kind.Sub.mono rfl hs)) (by assumption)
      | split | apply Keeps.other | exact Or.inl (Kind.Sub.mem hs rfl) | exact Or.inr rfl

theorem execVencAccessUnit_keeps {ks : List Kind} {s₀ s s₁ : State} (hk : Keeps ks s₀ s) (hs : Kind.Sub [.regs, .mem, .ecc, .events, .queue, .media] ks) {n : Nat}
    (hx : execVencAccessUnit n s = .next s₁) : Keeps ks s₀ s₁ := by
  unfold execVencAccessUnit at hx
  injection hx with hx
  subst hx
  try dsimp only
  repeat' with_reducible first
      | exact hk | exact Kind.Sub.mono rfl hs | apply Keeps.ite | apply State.accessUnit_keeps | assumption | split

theorem execVencRpWrite_keeps {ks : List Kind} {s₀ s s₁ : State} (hk : Keeps ks s₀ s) (hs : Kind.Sub [.regs] ks) {n : Nat} {off : BitVec 32}
    (hx : execVencRpWrite n off s = .next s₁) : Keeps ks s₀ s₁ := by
  unfold execVencRpWrite at hx
  injection hx with hx
  subst hx
  try dsimp only
  repeat' with_reducible first
      | exact hk | exact Kind.Sub.mono rfl hs | refine State.viaHost_keeps ?_ (Kind.Sub.mono rfl hs) (fun s hk => ?_)
      | apply State.drain_keeps | assumption | split

theorem execVencJpgTrig_keeps {ks : List Kind} {s₀ s s₁ : State} (hk : Keeps ks s₀ s) (hs : Kind.Sub [.regs, .media] ks) {n : Nat}
    (hx : execVencJpgTrig n s = .next s₁) : Keeps ks s₀ s₁ := by
  unfold execVencJpgTrig at hx
  injection hx with hx
  subst hx
  try dsimp only
  repeat' with_reducible first
      | exact hk | exact Kind.Sub.mono rfl hs | apply Keeps.ite | apply State.setBits_keeps
      | refine State.viaHost_keeps ?_ (Kind.Sub.mono rfl hs) (fun s hk => ?_) | assumption | split | apply Keeps.other
      | exact Or.inl (Kind.Sub.mem hs rfl) | exact Or.inr rfl

theorem execJpegImageDone_keeps {ks : List Kind} {s₀ s s₁ : State} (hk : Keeps ks s₀ s) (hs : Kind.Sub [.regs, .mem, .ecc, .events, .queue, .media] ks) {n : Nat}
    (hx : execJpegImageDone n s = .next s₁) : Keeps ks s₀ s₁ := by
  unfold execJpegImageDone at hx
  injection hx with hx
  subst hx
  try dsimp only
  repeat' with_reducible first
      | exact hk | exact Kind.Sub.mono rfl hs | apply Keeps.ite | apply State.clearBits_keeps | apply State.ringUnit_keeps | assumption
      | exact Keeps.ofFst (State.ringUnit_keeps hk (Kind.Sub.mono rfl hs)) (by assumption) | split

theorem execVencJpgRpWrite_keeps {ks : List Kind} {s₀ s s₁ : State} (hk : Keeps ks s₀ s) (hs : Kind.Sub [.regs] ks) {n : Nat} {off : BitVec 32}
    (hx : execVencJpgRpWrite n off s = .next s₁) : Keeps ks s₀ s₁ := by
  unfold execVencJpgRpWrite at hx
  injection hx with hx
  subst hx
  try dsimp only
  repeat' with_reducible first
      | exact hk | exact Kind.Sub.mono rfl hs | refine State.viaHost_keeps ?_ (Kind.Sub.mono rfl hs) (fun s hk => ?_)
      | apply State.drain_keeps | assumption | split

theorem execAudioBlock_keeps {ks : List Kind} {s₀ s s₁ : State} (hk : Keeps ks s₀ s) (hs : Kind.Sub [.regs, .mem, .ecc, .progs, .yards, .fabric, .strm, .events, .queue, .media, .hyper, .power] ks) {line : Nat} {samples : List (BitVec 32)}
    (hx : execAudioBlock line samples s = .next s₁) : Keeps ks s₀ s₁ := by
  unfold execAudioBlock at hx
  injection hx with hx
  subst hx
  try dsimp only
  repeat' with_reducible first
      | exact hk | exact Kind.Sub.mono rfl hs | apply Keeps.ite | apply State.feedLine_keeps | apply State.audioCapture_keeps
      | assumption | split

theorem execTdmOutputFrame_keeps {ks : List Kind} {s₀ s s₁ : State} (hk : Keeps ks s₀ s) (hs : Kind.Sub [.regs, .strm, .events, .media] ks) {o : Nat}
    (hx : execTdmOutputFrame o s = .next s₁) : Keeps ks s₀ s₁ := by
  unfold execTdmOutputFrame at hx
  injection hx with hx
  subst hx
  try dsimp only
  repeat' with_reducible first
      | exact hk | exact Kind.Sub.mono rfl hs | apply Keeps.ite | apply State.setBits_keeps | apply State.bump_keeps
      | apply State.raise_keeps | apply State.sendFrame_keeps | assumption | split | apply Keeps.other
      | exact Or.inl (Kind.Sub.mem hs rfl) | exact Or.inr rfl

end Sys2Proof.Machine
end

