-- ==== Sys2Proof/Laws/KeepsTimedIO.lean ====
section
/-! SUPPORT. The operations of Sys2Proof/Machine/TimedIO.lean keep (see Sys2Proof/Laws/KeepsBase.lean). -/

namespace Sys2Proof.Machine

theorem State.drive_keeps {ks : List Kind} {s₀ s : State} (hk : Keeps ks s₀ s) (hs : Kind.Sub [.regs, .gpio] ks)
    {b : Nat} {v : Option Bool} : Keeps ks s₀ (State.drive s b v) := by
  unfold State.drive
  try dsimp only
  repeat' with_reducible first
      | exact hk | exact Kind.Sub.mono rfl hs | apply Keeps.ite | apply State.put_keeps | assumption | split | apply Keeps.other
      | exact Or.inl (Kind.Sub.mem hs rfl) | exact Or.inr rfl

theorem State.ballToDefault_keeps {ks : List Kind} {s₀ s : State} (hk : Keeps ks s₀ s) (hs : Kind.Sub [.regs, .gpio] ks)
    {b : Nat} : Keeps ks s₀ (State.ballToDefault s b) := by
  unfold State.ballToDefault
  try dsimp only
  repeat' with_reducible first
      | exact hk | exact Kind.Sub.mono rfl hs | apply Keeps.ite | apply State.put_keeps | apply State.drive_keeps | assumption

theorem State.toqShow_keeps {ks : List Kind} {s₀ s : State} (hk : Keeps ks s₀ s) (hs : Kind.Sub [.regs] ks)
     : Keeps ks s₀ (State.toqShow s) := by
  unfold State.toqShow
  try dsimp only
  repeat' with_reducible first
      | exact hk | exact Kind.Sub.mono rfl hs | apply State.setReg_keeps | apply State.put_keeps
      | refine Keeps.foldl (fun s x hk => ?_) _ ?_ | assumption

theorem State.toqDrop_keeps {ks : List Kind} {s₀ s : State} (hk : Keeps ks s₀ s) (hs : Kind.Sub [.regs, .events] ks)
    {ball : Nat} {statBit : Nat} {code : Nat} {once : Bool} : Keeps ks s₀ (State.toqDrop s ball statBit code once) := by
  unfold State.toqDrop
  try dsimp only
  repeat' with_reducible first
      | exact hk | exact Kind.Sub.mono rfl hs | apply Keeps.ite | apply State.put_keeps | apply State.bump_keeps
      | apply State.raise_keeps | assumption

theorem State.toqEnter_keeps {ks : List Kind} {s₀ s : State} (hk : Keeps ks s₀ s) (hs : Kind.Sub [.regs, .events, .gpio] ks)
    {b : List Byte} : Keeps ks s₀ (State.toqEnter s b) := by
  unfold State.toqEnter
  try dsimp only
  repeat' with_reducible first
      | exact hk | exact Kind.Sub.mono rfl hs | apply Keeps.ite | apply State.toqDrop_keeps | assumption | apply Keeps.other
      | exact Or.inl (Kind.Sub.mem hs rfl) | exact Or.inr rfl

theorem State.toqRows_keeps {ks : List Kind} {s₀ s : State} (hk : Keeps ks s₀ s) (hs : Kind.Sub [.regs, .events, .gpio] ks)
    {b : List Byte} : Keeps ks s₀ (State.toqRows s b) := by
  unfold State.toqRows
  try dsimp only
  repeat' with_reducible first
      | exact hk | exact Kind.Sub.mono rfl hs | apply State.toqEnter_keeps | refine Keeps.foldl (fun s x hk => ?_) _ ?_ | assumption

theorem State.toqSupplied_keeps {ks : List Kind} {s₀ s : State} (hk : Keeps ks s₀ s) (hs : Kind.Sub [.regs, .strm, .events, .gpio] ks)
     : Keeps ks s₀ (State.toqSupplied s) := by
  unfold State.toqSupplied
  try dsimp only
  repeat' with_reducible first
      | exact hk | exact Kind.Sub.mono rfl hs | apply State.toqRows_keeps | assumption | apply Keeps.other
      | exact Or.inl (Kind.Sub.mem hs rfl) | exact Or.inr rfl

theorem State.toqArm_keeps {ks : List Kind} {s₀ s : State} (hk : Keeps ks s₀ s) (hs : Kind.Sub [.gpio] ks)
     : Keeps ks s₀ (State.toqArm s) := by
  unfold State.toqArm
  try dsimp only
  repeat' with_reducible first
      | exact hk | exact Kind.Sub.mono rfl hs | apply Keeps.ite | assumption | apply Keeps.other | exact Or.inl (Kind.Sub.mem hs rfl)
      | exact Or.inr rfl

theorem State.toqApply_keeps {ks : List Kind} {s₀ s : State} (hk : Keeps ks s₀ s) (hs : Kind.Sub [.regs, .gpio] ks)
    {e : ToqEntry} {t : Nat} : Keeps ks s₀ (State.toqApply s e t) := by
  unfold State.toqApply
  try dsimp only
  repeat' with_reducible first
      | exact hk | exact Kind.Sub.mono rfl hs | apply State.setReg_keeps | apply State.drive_keeps | assumption | split
      | apply Keeps.other | exact Or.inl (Kind.Sub.mem hs rfl) | exact Or.inr rfl

theorem State.toqRun_keeps {ks : List Kind} {s₀ s : State} (hk : Keeps ks s₀ s) (hs : Kind.Sub [.regs, .gpio] ks)
    {k : Nat} : Keeps ks s₀ (State.toqRun  k s) := by
  induction k generalizing s with
  | zero => exact hk
  | succ k ih =>
    unfold State.toqRun
    try dsimp only
    repeat' with_reducible first | exact hk | apply Keeps.ite | apply ih | exact hk | exact Kind.Sub.mono rfl hs | apply State.toqApply_keeps | assumption | split | apply Keeps.other | exact Or.inl (Kind.Sub.mem hs rfl) | exact Or.inr rfl

theorem State.toqDownhaul_keeps {ks : List Kind} {s₀ s : State} (hk : Keeps ks s₀ s) (hs : Kind.Sub [.regs, .gpio] ks)
     : Keeps ks s₀ (State.toqDownhaul s) := by
  unfold State.toqDownhaul
  try dsimp only
  repeat' with_reducible first
      | exact hk | exact Kind.Sub.mono rfl hs | apply Keeps.ite | apply State.ballToDefault_keeps | apply State.toqShow_keeps
      | refine Keeps.foldl (fun s x hk => ?_) _ ?_ | assumption | apply Keeps.other | exact Or.inl (Kind.Sub.mem hs rfl)
      | exact Or.inr rfl

theorem State.fillShadow_keeps {ks : List Kind} {s₀ s : State} (hk : Keeps ks s₀ s) (hs : Kind.Sub [.regs, .mem, .ecc, .progs] ks)
    {b : Bound} {src : Nat} {bs : List Byte} : Keeps ks s₀ (State.fillShadow s b src bs) := by
  unfold State.fillShadow
  try dsimp only
  repeat' with_reducible first
      | exact hk | exact Kind.Sub.mono rfl hs | apply Keeps.ite | apply State.store_keeps | apply State.setInput_keeps
      | refine Keeps.foldl (fun s x hk => ?_) _ ?_ | assumption | apply Keeps.other | exact Or.inl (Kind.Sub.mem hs rfl)
      | exact Or.inr rfl

theorem State.deliverEdges_keeps {ks : List Kind} {s₀ s : State} (hk : Keeps ks s₀ s) (hs : Kind.Sub [.regs, .mem, .ecc, .progs, .events, .gpio] ks)
    {at_ : Nat} : Keeps ks s₀ (State.deliverEdges s at_) := by
  unfold State.deliverEdges
  try dsimp only
  repeat' with_reducible first
      | exact hk | exact Kind.Sub.mono rfl hs | apply Keeps.ite | apply State.bump_keeps | apply State.raise_keeps
      | apply State.fillShadow_keeps | refine Keeps.foldl (fun s x hk => ?_) _ ?_ | assumption | split | apply Keeps.other
      | exact Or.inl (Kind.Sub.mem hs rfl) | exact Or.inr rfl

theorem execGpioEdge_keeps {ks : List Kind} {s₀ s s₁ : State} (hk : Keeps ks s₀ s) (hs : Kind.Sub [.regs, .mem, .ecc, .progs, .yards, .fabric, .strm, .events, .queue, .gpio, .hyper, .power] ks) {ball : Nat} {level : Bool}
    (hx : execGpioEdge ball level s = .next s₁) : Keeps ks s₀ s₁ := by
  unfold execGpioEdge at hx
  injection hx with hx
  subst hx
  try dsimp only
  repeat' with_reducible first
      | exact hk | exact Kind.Sub.mono rfl hs | apply Keeps.ite | apply State.put_keeps | apply State.feedLine_keeps | assumption
      | apply Keeps.other | exact Or.inl (Kind.Sub.mem hs rfl) | exact Or.inr rfl

theorem execTimedOutputDue_keeps {ks : List Kind} {s₀ s s₁ : State} (hk : Keeps ks s₀ s) (hs : Kind.Sub [.regs, .gpio] ks) 
    (hx : execTimedOutputDue s = .next s₁) : Keeps ks s₀ s₁ := by
  unfold execTimedOutputDue at hx
  injection hx with hx
  subst hx
  try dsimp only
  repeat' with_reducible first
      | exact hk | exact Kind.Sub.mono rfl hs | apply Keeps.ite | apply State.toqShow_keeps | apply State.toqRun_keeps | assumption

theorem execTimedPulseEnd_keeps {ks : List Kind} {s₀ s s₁ : State} (hk : Keeps ks s₀ s) (hs : Kind.Sub [.regs, .gpio] ks) {ball : Nat}
    (hx : execTimedPulseEnd ball s = .next s₁) : Keeps ks s₀ s₁ := by
  unfold execTimedPulseEnd at hx
  injection hx with hx
  subst hx
  try dsimp only
  repeat' with_reducible first
      | exact hk | exact Kind.Sub.mono rfl hs | apply State.setReg_keeps | apply State.drive_keeps | apply State.toqShow_keeps
      | assumption | split | apply Keeps.other | exact Or.inl (Kind.Sub.mem hs rfl) | exact Or.inr rfl

theorem execGpioOutWrite_keeps {ks : List Kind} {s₀ s s₁ : State} (hk : Keeps ks s₀ s) (hs : Kind.Sub [.regs, .gpio] ks) {value : BitVec 32}
    (hx : execGpioOutWrite value s = .next s₁) : Keeps ks s₀ s₁ := by
  unfold execGpioOutWrite at hx
  injection hx with hx
  subst hx
  try dsimp only
  repeat' with_reducible first
      | exact hk | exact Kind.Sub.mono rfl hs | apply Keeps.ite | apply State.put_keeps
      | refine State.viaHost_keeps ?_ (Kind.Sub.mono rfl hs) (fun s hk => ?_) | apply State.drive_keeps
      | refine Keeps.foldl (fun s x hk => ?_) _ ?_ | assumption

end Sys2Proof.Machine
end

