-- ==== Sys2Proof/Laws/KeepsHyperRam.lean ====
section
/-! SUPPORT. The operations of Sys2Proof/Machine/HyperRam.lean keep (see Sys2Proof/Laws/KeepsBase.lean). -/

namespace Sys2Proof.Machine

theorem State.setHrReqs_keeps {ks : List Kind} {s₀ s : State} (hk : Keeps ks s₀ s) (hs : Kind.Sub [.hyper] ks)
    {c : Nat} {l : List HrReq} : Keeps ks s₀ (State.setHrReqs s c l) := by
  unfold State.setHrReqs
  try dsimp only
  repeat' with_reducible first
      | exact hk | exact Kind.Sub.mono rfl hs | assumption | apply Keeps.other | exact Or.inl (Kind.Sub.mem hs rfl) | exact Or.inr rfl

theorem State.setHrRetries_keeps {ks : List Kind} {s₀ s : State} (hk : Keeps ks s₀ s) (hs : Kind.Sub [.hyper] ks)
    {c : Nat} {l : List HrReq} : Keeps ks s₀ (State.setHrRetries s c l) := by
  unfold State.setHrRetries
  try dsimp only
  repeat' with_reducible first
      | exact hk | exact Kind.Sub.mono rfl hs | assumption | apply Keeps.other | exact Or.inl (Kind.Sub.mem hs rfl) | exact Or.inr rfl

theorem State.hrFault_keeps {ks : List Kind} {s₀ s : State} (hk : Keeps ks s₀ s) (hs : Kind.Sub [.regs, .progs] ks)
    {r : HrReq} : Keeps ks s₀ (State.hrFault s r) := by
  unfold State.hrFault
  try dsimp only
  repeat' with_reducible first
      | exact hk | exact Kind.Sub.mono rfl hs | apply State.unitFault_keeps | assumption | split | apply Keeps.other
      | exact Or.inl (Kind.Sub.mem hs rfl) | exact Or.inr rfl

theorem State.dropLate_keeps {ks : List Kind} {s₀ s : State} (hk : Keeps ks s₀ s) (hs : Kind.Sub [.regs, .progs, .events, .hyper] ks)
    {c : Nat} : Keeps ks s₀ (State.dropLate s c) := by
  unfold State.dropLate
  try dsimp only
  repeat' with_reducible first
      | exact hk | exact Kind.Sub.mono rfl hs | apply State.raise_keeps | apply State.setHrReqs_keeps | apply State.hrFault_keeps
      | refine Keeps.foldl (fun s x hk => ?_) _ ?_ | assumption

theorem State.hrCorrected_keeps {ks : List Kind} {s₀ s : State} (hk : Keeps ks s₀ s) (hs : Kind.Sub [.regs, .events] ks)
    {c : Nat} {r : HrReq} {n : Nat} : Keeps ks s₀ (State.hrCorrected s c r n) := by
  unfold State.hrCorrected
  try dsimp only
  repeat' with_reducible first
      | exact hk | exact Kind.Sub.mono rfl hs | apply Keeps.ite | apply State.setBits_keeps | apply State.bump_keeps
      | apply State.raise_keeps | assumption

theorem State.hrReturn_keeps {ks : List Kind} {s₀ s : State} (hk : Keeps ks s₀ s) (hs : Kind.Sub [.fabric] ks)
    {r : HrReq} : Keeps ks s₀ (State.hrReturn s r) := by
  unfold State.hrReturn
  try dsimp only
  repeat' with_reducible first
      | exact hk | exact Kind.Sub.mono rfl hs | apply Keeps.ite | apply State.post_keeps | assumption

theorem State.hrRead_keeps {ks : List Kind} {s₀ s : State} (hk : Keeps ks s₀ s) (hs : Kind.Sub [.regs, .fabric, .events, .hyper] ks)
    {c : Nat} {r : HrReq} {badWord : Option Nat} : Keeps ks s₀ (State.hrRead s c r badWord) := by
  unfold State.hrRead
  try dsimp only
  repeat' with_reducible first
      | exact hk | exact Kind.Sub.mono rfl hs | apply Keeps.ite | apply State.setHrRetries_keeps | apply State.hrCorrected_keeps
      | apply State.hrReturn_keeps | assumption | split | apply Keeps.other | exact Or.inl (Kind.Sub.mem hs rfl) | exact Or.inr rfl

theorem State.hrWriteBurst_keeps {ks : List Kind} {s₀ s : State} (hk : Keeps ks s₀ s) (hs : Kind.Sub [.regs, .mem, .ecc, .events, .hyper] ks)
    {c : Nat} {r : HrReq} {bs : List Byte} : Keeps ks s₀ (State.hrWriteBurst s c r bs) := by
  unfold State.hrWriteBurst
  try dsimp only
  repeat' with_reducible first
      | exact hk | exact Kind.Sub.mono rfl hs | apply Keeps.ite | apply State.store_keeps | apply State.setHrReqs_keeps
      | apply State.hrCorrected_keeps | assumption | apply Keeps.other | exact Or.inl (Kind.Sub.mem hs rfl) | exact Or.inr rfl

theorem State.hrServe_keeps {ks : List Kind} {s₀ s : State} (hk : Keeps ks s₀ s) (hs : Kind.Sub [.regs, .mem, .ecc, .fabric, .events, .hyper] ks)
    {c : Nat} {j : Nat} {badWord : Option Nat} : Keeps ks s₀ (State.hrServe s c j badWord) := by
  unfold State.hrServe
  try dsimp only
  repeat' with_reducible first
      | exact hk | exact Kind.Sub.mono rfl hs | apply State.setHrReqs_keeps | apply State.hrRead_keeps | apply State.hrWriteBurst_keeps
      | assumption | split

theorem State.hrCountRetry_keeps {ks : List Kind} {s₀ s : State} (hk : Keeps ks s₀ s) (hs : Kind.Sub [.regs, .progs, .events, .hyper] ks)
    {c : Nat} {r : HrReq} : Keeps ks s₀ (State.hrCountRetry s c r) := by
  unfold State.hrCountRetry
  try dsimp only
  repeat' with_reducible first
      | exact hk | exact Kind.Sub.mono rfl hs | apply Keeps.ite | apply State.bump_keeps | apply State.raise_keeps
      | apply State.setCond_keeps | assumption | split | apply Keeps.other | exact Or.inl (Kind.Sub.mem hs rfl) | exact Or.inr rfl

theorem State.hrUncorr_keeps {ks : List Kind} {s₀ s : State} (hk : Keeps ks s₀ s) (hs : Kind.Sub [.regs, .progs, .events, .hyper] ks)
    {c : Nat} {r : HrReq} : Keeps ks s₀ (State.hrUncorr s c r) := by
  unfold State.hrUncorr
  try dsimp only
  repeat' with_reducible first
      | exact hk | exact Kind.Sub.mono rfl hs | apply Keeps.ite | apply State.put_keeps | apply State.bump_keeps
      | apply State.raise_keeps | refine State.firstRecord_keeps ?_ (Kind.Sub.mono rfl hs) (fun s hk => ?_) | apply State.hrFault_keeps
      | assumption | apply Keeps.other | exact Or.inl (Kind.Sub.mem hs rfl) | exact Or.inr rfl

theorem State.abortHyper_keeps {ks : List Kind} {s₀ s : State} (hk : Keeps ks s₀ s) (hs : Kind.Sub [.regs, .mem, .ecc, .strm, .events, .queue, .hyper] ks)
     : Keeps ks s₀ (State.abortHyper s) := by
  unfold State.abortHyper
  try dsimp only
  repeat' with_reducible first
      | exact hk | exact Kind.Sub.mono rfl hs | apply Keeps.ite | apply State.setPctx_keeps | apply State.setChan_keeps
      | apply State.abortDesc_keeps | apply State.setHrReqs_keeps | refine Keeps.foldl (fun s x hk => ?_) _ ?_ | assumption
      | apply Keeps.other | exact Or.inl (Kind.Sub.mem hs rfl) | exact Or.inr rfl

theorem State.hrDown_keeps {ks : List Kind} {s₀ s : State} (hk : Keeps ks s₀ s) (hs : Kind.Sub [.regs, .mem, .ecc, .progs, .strm, .events, .queue, .hyper, .power] ks)
    {c : Nat} : Keeps ks s₀ (State.hrDown s c) := by
  unfold State.hrDown
  try dsimp only
  repeat' with_reducible first
      | exact hk | exact Kind.Sub.mono rfl hs | apply Keeps.ite | apply State.put_keeps | apply State.raise_keeps
      | apply State.unitFaults_keeps | apply State.askOut_keeps | apply State.abortHyper_keeps | assumption | apply Keeps.other
      | exact Or.inl (Kind.Sub.mem hs rfl) | exact Or.inr rfl

theorem State.recalibrate_keeps {ks : List Kind} {s₀ s : State} (hk : Keeps ks s₀ s) (hs : Kind.Sub [.regs, .mem, .ecc, .progs, .strm, .events, .queue, .hyper, .power, .free] ks)
    {c : Nat} : Keeps ks s₀ (State.recalibrate s c) := by
  unfold State.recalibrate
  try dsimp only
  repeat' with_reducible first
      | exact hk | exact Kind.Sub.mono rfl hs | apply Keeps.ite | apply State.put_keeps | apply State.bump_keeps
      | apply State.takeFree_keeps | apply State.hrDown_keeps | assumption

theorem State.recalStep_keeps {ks : List Kind} {s₀ s : State} (hk : Keeps ks s₀ s) (hs : Kind.Sub [.regs, .mem, .ecc, .progs, .strm, .events, .queue, .hyper, .power, .free] ks)
     : Keeps ks s₀ (State.recalStep s) := by
  unfold State.recalStep
  try dsimp only
  repeat' with_reducible first
      | exact hk | exact Kind.Sub.mono rfl hs | apply Keeps.ite | apply State.recalibrate_keeps
      | refine Keeps.foldl (fun s x hk => ?_) _ ?_ | assumption

theorem State.hrTickStart_keeps {ks : List Kind} {s₀ s : State} (hk : Keeps ks s₀ s) (hs : Kind.Sub [.regs, .progs, .events, .hyper] ks)
     : Keeps ks s₀ (State.hrTickStart s) := by
  unfold State.hrTickStart
  try dsimp only
  repeat' with_reducible first
      | exact hk | exact Kind.Sub.mono rfl hs | apply Keeps.ite | apply State.put_keeps | apply State.raise_keeps
      | apply State.unitFaults_keeps | refine Keeps.foldl (fun s x hk => ?_) _ ?_ | assumption | apply Keeps.other
      | exact Or.inl (Kind.Sub.mem hs rfl) | exact Or.inr rfl

theorem execHrSlot_keeps {ks : List Kind} {s₀ s s₁ : State} (hk : Keeps ks s₀ s) (hs : Kind.Sub [.regs, .mem, .ecc, .progs, .fabric, .events, .hyper] ks) {ch : Nat} {badWord : Option Nat}
    (hx : execHrSlot ch badWord s = .next s₁) : Keeps ks s₀ s₁ := by
  unfold execHrSlot at hx
  injection hx with hx
  subst hx
  try dsimp only
  repeat' with_reducible first
      | exact hk | exact Kind.Sub.mono rfl hs | apply State.dropLate_keeps | apply State.hrServe_keeps | assumption | split

theorem execHrRetry_keeps {ks : List Kind} {s₀ s s₁ : State} (hk : Keeps ks s₀ s) (hs : Kind.Sub [.regs, .progs, .fabric, .events, .hyper] ks) {ch : Nat} {fails : Bool}
    (hx : execHrRetry ch fails s = .next s₁) : Keeps ks s₀ s₁ := by
  unfold execHrRetry at hx
  injection hx with hx
  subst hx
  try dsimp only
  repeat' with_reducible first
      | exact hk | exact Kind.Sub.mono rfl hs | apply Keeps.ite | apply State.setHrRetries_keeps | apply State.hrReturn_keeps
      | apply State.hrCountRetry_keeps | apply State.hrUncorr_keeps | assumption | split

theorem execHrChannelUp_keeps {ks : List Kind} {s₀ s s₁ : State} (hk : Keeps ks s₀ s) (hs : Kind.Sub [.regs, .mem, .ecc, .progs, .strm, .events, .queue, .hyper, .power] ks) {ch : Nat} {ok : Bool}
    (hx : execHrChannelUp ch ok s = .next s₁) : Keeps ks s₀ s₁ := by
  unfold execHrChannelUp at hx
  injection hx with hx
  subst hx
  try dsimp only
  repeat' with_reducible first
      | exact hk | exact Kind.Sub.mono rfl hs | apply Keeps.ite | apply State.hrDown_keeps | assumption | apply Keeps.other
      | exact Or.inl (Kind.Sub.mem hs rfl) | exact Or.inr rfl

end Sys2Proof.Machine
end

