-- ==== Sys2Proof/Laws/KeepsPrograms.lean ====
section
/-! SUPPORT. The operations of Sys2Proof/Machine/Programs.lean keep (see Sys2Proof/Laws/KeepsBase.lean). -/

namespace Sys2Proof.Machine

theorem State.respond_keeps {ks : List Kind} {s₀ s : State} (hk : Keeps ks s₀ s) (hs : Kind.Sub [.regs, .events] ks)
    {n : Nat} {r : Resp} : Keeps ks s₀ (State.respond s n r) := by
  unfold State.respond
  try dsimp only
  repeat' with_reducible first
      | exact hk | exact Kind.Sub.mono rfl hs | apply State.setReg_keeps | apply State.put_keeps | apply State.raise_keeps
      | refine Keeps.foldl (fun s x hk => ?_) _ ?_ | assumption

theorem State.showStruck_keeps {ks : List Kind} {s₀ s : State} (hk : Keeps ks s₀ s) (hs : Kind.Sub [.regs] ks)
     : Keeps ks s₀ (State.showStruck s) := by
  unfold State.showStruck
  try dsimp only
  repeat' with_reducible first
      | exact hk | exact Kind.Sub.mono rfl hs | apply Keeps.ite | apply State.put_keeps | assumption

theorem State.dropWork_keeps {ks : List Kind} {s₀ s : State} (hk : Keeps ks s₀ s) (hs : Kind.Sub [.regs, .progs, .yards, .flags, .fabric, .strm, .hyper] ks)
    {p : Nat} : Keeps ks s₀ (State.dropWork s p) := by
  unfold State.dropWork
  try dsimp only
  repeat' with_reducible first
      | exact hk | exact Kind.Sub.mono rfl hs | apply State.setYard_keeps | apply State.leaveChan_keeps | apply State.stopYard_keeps
      | refine State.onYards_keeps ?_ (Kind.Sub.mono rfl hs) (fun s x y hk => ?_) | apply State.setHrReqs_keeps
      | apply State.setHrRetries_keeps | refine Keeps.foldl (fun s x hk => ?_) _ ?_ | assumption | apply Keeps.other
      | exact Or.inl (Kind.Sub.mem hs rfl) | exact Or.inr rfl

theorem State.clearSource_keeps {ks : List Kind} {s₀ s : State} (hk : Keeps ks s₀ s) (hs : Kind.Sub [.regs, .mem, .ecc, .strm, .events, .queue] ks)
    {n : Nat} : Keeps ks s₀ (State.clearSource s n) := by
  unfold State.clearSource
  try dsimp only
  repeat' with_reducible first
      | exact hk | exact Kind.Sub.mono rfl hs | apply State.setReg_keeps | apply State.abortDesc_keeps
      | refine Keeps.foldl (fun s x hk => ?_) _ ?_ | assumption

theorem State.clearTable_keeps {ks : List Kind} {s₀ s : State} (hk : Keeps ks s₀ s) (hs : Kind.Sub [.regs] ks)
    {m : Nat} {y : Nat} {t : Nat} : Keeps ks s₀ (State.clearTable s m y t) := by
  unfold State.clearTable
  try dsimp only
  repeat' with_reducible first
      | exact hk | exact Kind.Sub.mono rfl hs | apply State.setReg_keeps | assumption

theorem State.clearContexts_keeps {ks : List Kind} {s₀ s : State} (hk : Keeps ks s₀ s) (hs : Kind.Sub [.regs] ks)
    {p : Nat} : Keeps ks s₀ (State.clearContexts s p) := by
  unfold State.clearContexts
  try dsimp only
  repeat' with_reducible first
      | exact hk | exact Kind.Sub.mono rfl hs | apply State.setReg_keeps | apply State.put_keeps
      | refine Keeps.foldl (fun s x hk => ?_) _ ?_ | assumption

theorem State.copyDigest_keeps {ks : List Kind} {s₀ s : State} (hk : Keeps ks s₀ s) (hs : Kind.Sub [.progs] ks)
    {p : Nat} {tid : Nat} {v : View} {bs : List Byte} : Keeps ks s₀ (State.copyDigest s p tid v bs) := by
  unfold State.copyDigest
  try dsimp only
  repeat' with_reducible first
      | exact hk | exact Kind.Sub.mono rfl hs | apply Keeps.ite | apply State.setInput_keeps | assumption | apply Keeps.other
      | exact Or.inl (Kind.Sub.mem hs rfl) | exact Or.inr rfl

theorem State.copyInput_keeps {ks : List Kind} {s₀ s : State} (hk : Keeps ks s₀ s) (hs : Kind.Sub [.regs, .mem, .ecc, .progs] ks)
    {p : Nat} {tid : Nat} : Keeps ks s₀ (State.copyInput s p tid) := by
  unfold State.copyInput
  try dsimp only
  repeat' with_reducible first
      | exact hk | exact Kind.Sub.mono rfl hs | apply Keeps.ite | apply State.store_keeps | apply State.copyDigest_keeps
      | refine Keeps.foldl (fun s x hk => ?_) _ ?_ | assumption | split

theorem State.startCopyIn_keeps {ks : List Kind} {s₀ s : State} (hk : Keeps ks s₀ s) (hs : Kind.Sub [.regs, .progs, .yards, .fabric, .strm, .events, .hyper, .power, .free] ks)
    {p : Nat} {tid : Nat} : Keeps ks s₀ (State.startCopyIn s p tid) := by
  unfold State.startCopyIn
  try dsimp only
  repeat' with_reducible first
      | exact hk | exact Kind.Sub.mono rfl hs | apply Keeps.ite | apply State.takeFree_keeps | apply State.setCtx_keeps
      | apply State.nameWrites_keeps | apply State.beginStrm_keeps | apply State.copyDigest_keeps | assumption
      | exact Keeps.ofFst (State.nameWrites_keeps hk (Kind.Sub.mono rfl hs)) (by assumption) | split | apply Keeps.other
      | exact Or.inl (Kind.Sub.mem hs rfl) | exact Or.inr rfl

theorem State.leaveBound_keeps {ks : List Kind} {s₀ s : State} (hk : Keeps ks s₀ s) (hs : Kind.Sub [.regs, .mem, .ecc, .progs] ks)
    {p : Nat} : Keeps ks s₀ (State.leaveBound s p) := by
  unfold State.leaveBound
  try dsimp only
  repeat' with_reducible first
      | exact hk | exact Kind.Sub.mono rfl hs | apply Keeps.ite | apply State.setInput_keeps | apply State.copyInput_keeps
      | refine Keeps.foldl (fun s x hk => ?_) _ ?_ | assumption | apply Keeps.other | exact Or.inl (Kind.Sub.mem hs rfl)
      | exact Or.inr rfl

theorem State.release_keeps {ks : List Kind} {s₀ s : State} (hk : Keeps ks s₀ s) (hs : Kind.Sub [.regs, .mem, .ecc, .progs, .yards, .flags, .fabric, .strm, .events, .queue, .hyper] ks)
    {p : Nat} : Keeps ks s₀ (State.release s p) := by
  unfold State.release
  try dsimp only
  repeat' with_reducible first
      | exact hk | exact Kind.Sub.mono rfl hs | apply State.setReg_keeps | apply State.setProg_keeps | apply State.showStruck_keeps
      | apply State.dropWork_keeps | apply State.clearSource_keeps | apply State.clearTable_keeps | apply State.clearContexts_keeps
      | apply State.leaveBound_keeps | refine Keeps.foldl (fun s x hk => ?_) _ ?_ | assumption

theorem State.leave_keeps {ks : List Kind} {s₀ s : State} (hk : Keeps ks s₀ s) (hs : Kind.Sub [.regs, .mem, .ecc, .progs, .yards, .flags, .fabric, .strm, .events, .queue, .hyper] ks)
    {p : Nat} {code : Nat} {mbox : Nat} {tag : Nat} : Keeps ks s₀ (State.leave s p code mbox tag) := by
  unfold State.leave
  try dsimp only
  repeat' with_reducible first
      | exact hk | exact Kind.Sub.mono rfl hs | apply State.raise_keeps | apply State.release_keeps | assumption

theorem State.revoke_keeps {ks : List Kind} {s₀ s : State} (hk : Keeps ks s₀ s) (hs : Kind.Sub [.regs, .mem, .ecc, .progs, .yards, .flags, .fabric, .strm, .events, .queue, .hyper] ks)
    {ps : List Nat} : Keeps ks s₀ (State.revoke s ps) := by
  unfold State.revoke
  try dsimp only
  repeat' with_reducible first
      | exact hk | exact Kind.Sub.mono rfl hs | apply State.leave_keeps | refine Keeps.foldl (fun s x hk => ?_) _ ?_ | assumption

end Sys2Proof.Machine
end

