-- ==== Sys2Proof/Laws/KeepsDomains.lean ====
section
/-! SUPPORT. The operations of Sys2Proof/Machine/Domains.lean keep (see Sys2Proof/Laws/KeepsBase.lean). -/

namespace Sys2Proof.Machine

theorem State.showCode_keeps {ks : List Kind} {s₀ s : State} (hk : Keeps ks s₀ s) (hs : Kind.Sub [.regs] ks)
    {c : Nat} : Keeps ks s₀ (State.showCode s c) := by
  unfold State.showCode
  try dsimp only
  repeat' with_reducible first
      | exact hk | exact Kind.Sub.mono rfl hs | apply Keeps.ite | apply State.put_keeps | assumption

theorem State.showPower_keeps {ks : List Kind} {s₀ s : State} (hk : Keeps ks s₀ s) (hs : Kind.Sub [.regs] ks)
     : Keeps ks s₀ (State.showPower s) := by
  unfold State.showPower
  try dsimp only
  repeat' with_reducible first
      | exact hk | exact Kind.Sub.mono rfl hs | apply Keeps.ite | apply State.put_keeps | apply State.showCode_keeps | assumption

theorem State.domsOff_keeps {ks : List Kind} {s₀ s : State} (hk : Keeps ks s₀ s) (hs : Kind.Sub [.regs] ks)
    {ds : List Nat} : Keeps ks s₀ (State.domsOff s ds) := by
  unfold State.domsOff
  try dsimp only
  repeat' with_reducible first
      | exact hk | exact Kind.Sub.mono rfl hs | apply State.setDom_keeps | refine Keeps.foldl (fun s x hk => ?_) _ ?_ | assumption

theorem State.fillYard_keeps {ks : List Kind} {s₀ s : State} (hk : Keeps ks s₀ s) (hs : Kind.Sub [.regs, .mem, .ecc, .yards] ks)
    {m : Nat} {y : Nat} : Keeps ks s₀ (State.fillYard s m y) := by
  unfold State.fillYard
  try dsimp only
  repeat' with_reducible first
      | exact hk | exact Kind.Sub.mono rfl hs | apply Keeps.ite | apply State.put_keeps | apply State.zeroFill_keeps
      | apply State.setYard_keeps | assumption | apply Keeps.other | exact Or.inl (Kind.Sub.mem hs rfl) | exact Or.inr rfl

theorem State.bringDom_keeps {ks : List Kind} {s₀ s : State} (hk : Keeps ks s₀ s) (hs : Kind.Sub [.regs, .mem, .ecc, .yards] ks)
    {d : Nat} {en : Bool} {kept : Bool} : Keeps ks s₀ (State.bringDom s d en kept) := by
  unfold State.bringDom
  try dsimp only
  repeat' with_reducible first
      | exact hk | exact Kind.Sub.mono rfl hs | apply Keeps.ite | apply State.setDom_keeps | apply State.fillYard_keeps | assumption
      | split | apply Keeps.other | exact Or.inl (Kind.Sub.mem hs rfl) | exact Or.inr rfl

theorem State.applyDoms_keeps {ks : List Kind} {s₀ s : State} (hk : Keeps ks s₀ s) (hs : Kind.Sub [.regs, .mem, .ecc, .yards] ks)
    {rig : List Byte} : Keeps ks s₀ (State.applyDoms s rig) := by
  unfold State.applyDoms
  try dsimp only
  repeat' with_reducible first
      | exact hk | exact Kind.Sub.mono rfl hs | apply Keeps.ite | apply State.put_keeps | apply State.bringDom_keeps
      | refine Keeps.foldl (fun s x hk => ?_) _ ?_ | assumption

theorem State.shedUnit_keeps {ks : List Kind} {s₀ s : State} (hk : Keeps ks s₀ s) (hs : Kind.Sub [.regs, .mem, .ecc, .progs, .yards, .flags, .fabric, .strm, .events, .queue, .media, .hyper] ks)
    {e : List Byte} : Keeps ks s₀ (State.shedUnit s e) := by
  unfold State.shedUnit
  try dsimp only
  repeat' with_reducible first
      | exact hk | exact Kind.Sub.mono rfl hs | apply State.revoke_keeps | apply State.domsOff_keeps | assumption | split
      | apply Keeps.other | exact Or.inl (Kind.Sub.mem hs rfl) | exact Or.inr rfl

theorem State.sampleHot_keeps {ks : List Kind} {s₀ s : State} (hk : Keeps ks s₀ s) (hs : Kind.Sub [.power] ks)
     : Keeps ks s₀ (State.sampleHot s) := by
  unfold State.sampleHot
  try dsimp only
  repeat' with_reducible first
      | exact hk | exact Kind.Sub.mono rfl hs | apply Keeps.ite | assumption | apply Keeps.other | exact Or.inl (Kind.Sub.mem hs rfl)
      | exact Or.inr rfl

theorem State.shedStep_keeps {ks : List Kind} {s₀ s : State} (hk : Keeps ks s₀ s) (hs : Kind.Sub [.regs, .mem, .ecc, .progs, .yards, .flags, .fabric, .strm, .events, .queue, .media, .hyper, .power] ks)
     : Keeps ks s₀ (State.shedStep s) := by
  unfold State.shedStep
  try dsimp only
  repeat' with_reducible first
      | exact hk | exact Kind.Sub.mono rfl hs | apply Keeps.ite | apply State.setReg_keeps | apply State.put_keeps
      | apply State.bump_keeps | apply State.raise_keeps | apply State.showPower_keeps | apply State.shedUnit_keeps | assumption | split
      | apply Keeps.other | exact Or.inl (Kind.Sub.mem hs rfl) | exact Or.inr rfl

theorem State.endShed_keeps {ks : List Kind} {s₀ s : State} (hk : Keeps ks s₀ s) (hs : Kind.Sub [.regs, .power] ks)
     : Keeps ks s₀ (State.endShed s) := by
  unfold State.endShed
  try dsimp only
  repeat' with_reducible first
      | exact hk | exact Kind.Sub.mono rfl hs | apply State.put_keeps | apply State.showPower_keeps | assumption | apply Keeps.other
      | exact Or.inl (Kind.Sub.mem hs rfl) | exact Or.inr rfl

theorem State.restoreShed_keeps {ks : List Kind} {s₀ s : State} (hk : Keeps ks s₀ s) (hs : Kind.Sub [.regs, .mem, .ecc, .yards, .media, .power] ks)
     : Keeps ks s₀ (State.restoreShed s) := by
  unfold State.restoreShed
  try dsimp only
  repeat' with_reducible first
      | exact hk | exact Kind.Sub.mono rfl hs | apply Keeps.ite | apply State.showPower_keeps | apply State.bringDom_keeps
      | refine Keeps.foldl (fun s x hk => ?_) _ ?_ | assumption | apply Keeps.other | exact Or.inl (Kind.Sub.mem hs rfl)
      | exact Or.inr rfl

theorem State.yardOut_keeps {ks : List Kind} {s₀ s : State} (hk : Keeps ks s₀ s) (hs : Kind.Sub [.regs, .mem, .ecc, .progs, .yards, .flags, .fabric, .strm, .events, .queue, .hyper] ks)
    {m : Nat} {y : Nat} : Keeps ks s₀ (State.yardOut s m y) := by
  unfold State.yardOut
  try dsimp only
  repeat' with_reducible first
      | exact hk | exact Kind.Sub.mono rfl hs | apply State.put_keeps | apply State.setYard_keeps | apply State.revoke_keeps
      | apply State.domsOff_keeps | assumption | apply Keeps.other | exact Or.inl (Kind.Sub.mem hs rfl) | exact Or.inr rfl

theorem State.mastOut_keeps {ks : List Kind} {s₀ s : State} (hk : Keeps ks s₀ s) (hs : Kind.Sub [.regs, .mem, .ecc, .progs, .yards, .flags, .fabric, .strm, .events, .queue, .hyper] ks)
    {m : Nat} : Keeps ks s₀ (State.mastOut s m) := by
  unfold State.mastOut
  try dsimp only
  repeat' with_reducible first
      | exact hk | exact Kind.Sub.mono rfl hs | apply State.put_keeps | apply State.revoke_keeps | apply State.domsOff_keeps
      | apply State.yardOut_keeps | refine Keeps.foldl (fun s x hk => ?_) _ ?_ | assumption

theorem State.takeOut_keeps {ks : List Kind} {s₀ s : State} (hk : Keeps ks s₀ s) (hs : Kind.Sub [.regs, .mem, .ecc, .progs, .yards, .flags, .fabric, .strm, .events, .queue, .hyper, .power] ks)
    {u : Nat} : Keeps ks s₀ (State.takeOut s u) := by
  unfold State.takeOut
  try dsimp only
  repeat' with_reducible first
      | exact hk | exact Kind.Sub.mono rfl hs | apply Keeps.ite | apply State.put_keeps | apply State.raise_keeps
      | apply State.revoke_keeps | apply State.showPower_keeps | apply State.domsOff_keeps | apply State.yardOut_keeps
      | apply State.mastOut_keeps | assumption | apply Keeps.other | exact Or.inl (Kind.Sub.mem hs rfl) | exact Or.inr rfl

theorem State.hrTrain_keeps {ks : List Kind} {s₀ s : State} (hk : Keeps ks s₀ s) (hs : Kind.Sub [.regs, .mem, .ecc, .progs, .strm, .events, .queue, .hyper, .power, .free] ks)
    {c : Nat} {density : Nat} : Keeps ks s₀ (State.hrTrain s c density) := by
  unfold State.hrTrain
  try dsimp only
  repeat' with_reducible first
      | exact hk | exact Kind.Sub.mono rfl hs | apply Keeps.ite | apply State.put_keeps | apply State.takeFree_keeps
      | apply State.raise_keeps | apply State.hrDown_keeps | assumption

theorem State.hrSleep_keeps {ks : List Kind} {s₀ s : State} (hk : Keeps ks s₀ s) (hs : Kind.Sub [.regs] ks)
     : Keeps ks s₀ (State.hrSleep s) := by
  unfold State.hrSleep
  try dsimp only
  repeat' with_reducible first
      | exact hk | exact Kind.Sub.mono rfl hs | apply Keeps.ite | apply State.put_keeps | refine Keeps.foldl (fun s x hk => ?_) _ ?_
      | assumption

theorem State.hrWake_keeps {ks : List Kind} {s₀ s : State} (hk : Keeps ks s₀ s) (hs : Kind.Sub [.regs, .mem, .ecc, .progs, .strm, .events, .queue, .hyper, .power, .free] ks)
     : Keeps ks s₀ (State.hrWake s) := by
  unfold State.hrWake
  try dsimp only
  repeat' with_reducible first
      | exact hk | exact Kind.Sub.mono rfl hs | apply Keeps.ite | apply State.put_keeps | apply State.recalibrate_keeps
      | refine Keeps.foldl (fun s x hk => ?_) _ ?_ | assumption

theorem execPwrShedClr_keeps {ks : List Kind} {s₀ s s₁ : State} (hk : Keeps ks s₀ s) (hs : Kind.Sub [.regs, .mem, .ecc, .yards, .media, .power] ks) 
    (hx : execPwrShedClr s = .next s₁) : Keeps ks s₀ s₁ := by
  unfold execPwrShedClr at hx
  injection hx with hx
  subst hx
  try dsimp only
  repeat' with_reducible first
      | exact hk | exact Kind.Sub.mono rfl hs | apply Keeps.ite | refine State.viaHost_keeps ?_ (Kind.Sub.mono rfl hs) (fun s hk => ?_)
      | apply State.endShed_keeps | apply State.restoreShed_keeps | assumption

theorem execUnitOut_keeps {ks : List Kind} {s₀ s s₁ : State} (hk : Keeps ks s₀ s) (hs : Kind.Sub [.regs, .mem, .ecc, .progs, .yards, .flags, .fabric, .strm, .events, .queue, .hyper, .power] ks) {unit : Nat}
    (hx : execUnitOut unit s = .next s₁) : Keeps ks s₀ s₁ := by
  unfold execUnitOut at hx
  injection hx with hx
  subst hx
  try dsimp only
  repeat' with_reducible first
      | exact hk | exact Kind.Sub.mono rfl hs | apply Keeps.ite | apply State.takeOut_keeps | assumption

end Sys2Proof.Machine
end

