-- ==== Sys2Proof/Laws/KeepsCommit.lean ====
section
/-! SUPPORT. The operations of Sys2Proof/Machine/Commit.lean keep (see Sys2Proof/Laws/KeepsBase.lean). -/

namespace Sys2Proof.Machine

theorem State.overrun_keeps {ks : List Kind} {s₀ s : State} (hk : Keeps ks s₀ s) (hs : Kind.Sub [.regs, .progs, .yards, .flags, .fabric, .strm, .events, .hyper] ks)
    {p : Nat} : Keeps ks s₀ (State.overrun s p) := by
  unfold State.overrun
  try dsimp only
  repeat' with_reducible first
      | exact hk | exact Kind.Sub.mono rfl hs | apply State.bump_keeps | apply State.raise_keeps | apply State.setCtx_keeps
      | apply State.setCond_keeps | apply State.squashAll_keeps | apply State.dropWork_keeps | assumption | apply Keeps.other
      | exact Or.inl (Kind.Sub.mem hs rfl) | exact Or.inr rfl

theorem State.stopSails_keeps {ks : List Kind} {s₀ s : State} (hk : Keeps ks s₀ s) (hs : Kind.Sub [.regs, .yards] ks)
    {m : Nat} {y : Nat} : Keeps ks s₀ (State.stopSails s m y) := by
  unfold State.stopSails
  try dsimp only
  repeat' with_reducible first
      | exact hk | exact Kind.Sub.mono rfl hs | apply State.setSail_keeps | apply State.squashSail_keeps
      | refine Keeps.foldl (fun s x hk => ?_) _ ?_ | assumption | apply Keeps.other | exact Or.inl (Kind.Sub.mem hs rfl)
      | exact Or.inr rfl

theorem State.fenceProg_keeps {ks : List Kind} {s₀ s : State} (hk : Keeps ks s₀ s) (hs : Kind.Sub [.regs, .progs, .yards, .flags, .fabric, .strm, .events, .hyper] ks)
    {p : Nat} : Keeps ks s₀ (State.fenceProg s p) := by
  unfold State.fenceProg
  try dsimp only
  repeat' with_reducible first
      | exact hk | exact Kind.Sub.mono rfl hs | apply Keeps.ite | apply State.setCtx_keeps | apply State.expireWait_keeps
      | refine State.onYards_keeps ?_ (Kind.Sub.mono rfl hs) (fun s x y hk => ?_) | apply State.overrun_keeps
      | apply State.stopSails_keeps | assumption | split | apply Keeps.other | exact Or.inl (Kind.Sub.mem hs rfl) | exact Or.inr rfl

theorem State.fence_keeps {ks : List Kind} {s₀ s : State} (hk : Keeps ks s₀ s) (hs : Kind.Sub [.regs, .progs, .yards, .flags, .fabric, .strm, .events, .hyper] ks)
     : Keeps ks s₀ (State.fence s) := by
  unfold State.fence
  try dsimp only
  repeat' with_reducible first
      | exact hk | exact Kind.Sub.mono rfl hs | apply State.fenceProg_keeps | refine Keeps.foldl (fun s x hk => ?_) _ ?_ | assumption

theorem State.flipAll_keeps {ks : List Kind} {s₀ s : State} (hk : Keeps ks s₀ s) (hs : Kind.Sub [.progs] ks)
     : Keeps ks s₀ (State.flipAll s) := by
  unfold State.flipAll
  try dsimp only
  repeat' with_reducible first
      | exact hk | exact Kind.Sub.mono rfl hs | apply State.setInput_keeps | refine Keeps.foldl (fun s x hk => ?_) _ ?_ | assumption

theorem State.satLimit_keeps {ks : List Kind} {s₀ s : State} (hk : Keeps ks s₀ s) (hs : Kind.Sub [.regs, .progs, .events] ks)
    {p : Nat} {tid : Nat} {slot : Nat} {first : Bool} : Keeps ks s₀ (State.satLimit s p tid slot first).1 := by
  unfold State.satLimit
  try dsimp only
  repeat' with_reducible first
      | exact hk | exact Kind.Sub.mono rfl hs | apply State.setReg_keeps | apply State.raise_keeps | apply State.setCond_keeps
      | assumption | split | dsimp only

theorem State.satLimits_keeps {ks : List Kind} {s₀ s : State} (hk : Keeps ks s₀ s) (hs : Kind.Sub [.regs, .progs, .events] ks)
    {p : Nat} : Keeps ks s₀ (State.satLimits s p) := by
  unfold State.satLimits
  try dsimp only
  repeat' with_reducible first
      | exact hk | exact Kind.Sub.mono rfl hs | apply Keeps.ite | apply State.satLimit_keeps | refine Keeps.foldl (fun s x hk => ?_) _ ?_
      | refine Keeps.foldlFst (fun q x hk => ?_) _ ?_ | assumption
      | exact Keeps.ofFst (State.satLimit_keeps hk (Kind.Sub.mono rfl hs)) (by assumption)

theorem State.fixStatus_keeps {ks : List Kind} {s₀ s : State} (hk : Keeps ks s₀ s) (hs : Kind.Sub [.regs, .progs, .events] ks)
    {p : Nat} : Keeps ks s₀ (State.fixStatus s p) := by
  unfold State.fixStatus
  try dsimp only
  repeat' with_reducible first
      | exact hk | exact Kind.Sub.mono rfl hs | apply Keeps.ite | apply State.put_keeps | apply State.setCtx_keeps
      | apply State.setCond_keeps | apply State.satLimits_keeps | refine Keeps.foldl (fun s x hk => ?_) _ ?_ | assumption
      | apply Keeps.other | exact Or.inl (Kind.Sub.mem hs rfl) | exact Or.inr rfl

theorem State.readResults_keeps {ks : List Kind} {s₀ s : State} (hk : Keeps ks s₀ s) (hs : Kind.Sub [.regs, .yards, .events, .power] ks)
    {p : Nat} : Keeps ks s₀ (State.readResults s p) := by
  unfold State.readResults
  try dsimp only
  repeat' with_reducible first
      | exact hk | exact Kind.Sub.mono rfl hs | apply Keeps.ite | apply State.readCheck_keeps
      | refine Keeps.foldl (fun s x hk => ?_) _ ?_ | assumption

theorem State.commitProg_keeps {ks : List Kind} {s₀ s : State} (hk : Keeps ks s₀ s) (hs : Kind.Sub [.progs] ks)
    {p : Nat} : Keeps ks s₀ (State.commitProg s p) := by
  unfold State.commitProg
  try dsimp only
  repeat' with_reducible first
      | exact hk | exact Kind.Sub.mono rfl hs | apply Keeps.ite | apply State.setProg_keeps | refine Keeps.foldl (fun s x hk => ?_) _ ?_
      | assumption | apply Keeps.other | exact Or.inl (Kind.Sub.mem hs rfl) | exact Or.inr rfl

theorem State.toqResult_keeps {ks : List Kind} {s₀ s : State} (hk : Keeps ks s₀ s) (hs : Kind.Sub [.regs, .events, .gpio] ks)
    {r : Result} : Keeps ks s₀ (State.toqResult s r) := by
  unfold State.toqResult
  try dsimp only
  repeat' with_reducible first
      | exact hk | exact Kind.Sub.mono rfl hs | apply Keeps.ite | apply State.toqRows_keeps | assumption

theorem State.commitPoint_keeps {ks : List Kind} {s₀ s : State} (hk : Keeps ks s₀ s) (hs : Kind.Sub [.regs, .progs, .yards, .strm, .events, .queue, .gpio, .power] ks)
    {digests : List (Nat × List Byte)} : Keeps ks s₀ (State.commitPoint s digests) := by
  unfold State.commitPoint
  try dsimp only
  repeat' with_reducible first
      | exact hk | exact Kind.Sub.mono rfl hs | apply State.toqSupplied_keeps | apply State.readResults_keeps
      | apply State.commitProg_keeps | apply State.toqResult_keeps | refine Keeps.foldl (fun s x hk => ?_) _ ?_ | assumption
      | apply Keeps.other | exact Or.inl (Kind.Sub.mem hs rfl) | exact Or.inr rfl

theorem State.rewriteImem_keeps {ks : List Kind} {s₀ s : State} (hk : Keeps ks s₀ s) (hs : Kind.Sub [.progs] ks)
    {p : Nat} : Keeps ks s₀ (State.rewriteImem s p) := by
  unfold State.rewriteImem
  try dsimp only
  repeat' with_reducible first
      | exact hk | exact Kind.Sub.mono rfl hs | apply Keeps.ite | apply State.setProg_keeps | assumption | apply Keeps.other
      | exact Or.inl (Kind.Sub.mem hs rfl) | exact Or.inr rfl

theorem State.reloadCopies_keeps {ks : List Kind} {s₀ s : State} (hk : Keeps ks s₀ s) (hs : Kind.Sub [.tick] ks)
     : Keeps ks s₀ (State.reloadCopies s) := by
  unfold State.reloadCopies
  try dsimp only
  repeat' with_reducible first
      | exact hk | exact Kind.Sub.mono rfl hs | refine Keeps.foldl (fun s x hk => ?_) _ ?_ | assumption | apply Keeps.other
      | exact Or.inl (Kind.Sub.mem hs rfl) | exact Or.inr rfl

theorem State.armStep_keeps {ks : List Kind} {s₀ s : State} (hk : Keeps ks s₀ s) (hs : Kind.Sub [.regs, .mem, .ecc, .tick, .progs, .yards, .flags, .fabric, .strm, .events, .queue, .media, .hyper, .power] ks)
     : Keeps ks s₀ (State.armStep s) := by
  unfold State.armStep
  try dsimp only
  repeat' with_reducible first
      | exact hk | exact Kind.Sub.mono rfl hs | apply State.rewriteFlags_keeps | apply State.toqShow_keeps | apply State.shedStep_keeps
      | apply State.rewriteImem_keeps | apply State.reloadCopies_keeps | refine Keeps.foldl (fun s x hk => ?_) _ ?_ | assumption

theorem State.guardFence_keeps {ks : List Kind} {s₀ s : State} (hk : Keeps ks s₀ s) (hs : Kind.Sub [.regs, .tick, .progs, .yards, .flags, .fabric, .strm, .events, .gpio, .hyper, .power] ks)
     : Keeps ks s₀ (State.guardFence s) := by
  unfold State.guardFence
  try dsimp only
  repeat' with_reducible first
      | exact hk | exact Kind.Sub.mono rfl hs | apply State.sampleHot_keeps | apply State.fence_keeps | assumption | apply Keeps.other
      | exact Or.inl (Kind.Sub.mem hs rfl) | exact Or.inr rfl

theorem State.guardFlip_keeps {ks : List Kind} {s₀ s : State} (hk : Keeps ks s₀ s) (hs : Kind.Sub [.regs, .mem, .ecc, .tick, .progs, .events, .gpio] ks)
     : Keeps ks s₀ (State.guardFlip s) := by
  unfold State.guardFlip
  try dsimp only
  repeat' with_reducible first
      | exact hk | exact Kind.Sub.mono rfl hs | apply State.deliverEdges_keeps | apply State.flipAll_keeps | assumption
      | apply Keeps.other | exact Or.inl (Kind.Sub.mem hs rfl) | exact Or.inr rfl

theorem State.guardCommit_keeps {ks : List Kind} {s₀ s : State} (hk : Keeps ks s₀ s) (hs : Kind.Sub [.regs, .mem, .ecc, .tick, .progs, .yards, .flags, .fabric, .strm, .events, .queue, .media, .gpio, .hyper, .power] ks)
     : Keeps ks s₀ (State.guardCommit s) := by
  unfold State.guardCommit
  try dsimp only
  repeat' with_reducible first
      | exact hk | exact Kind.Sub.mono rfl hs | apply State.setCtx_keeps | apply State.fixStatus_keeps | apply State.commitPoint_keeps
      | apply State.armStep_keeps | refine Keeps.foldl (fun s x hk => ?_) _ ?_ | assumption | apply Keeps.other
      | exact Or.inl (Kind.Sub.mem hs rfl) | exact Or.inr rfl

theorem State.guardRecal_keeps {ks : List Kind} {s₀ s : State} (hk : Keeps ks s₀ s) (hs : Kind.Sub [.regs, .mem, .ecc, .tick, .progs, .strm, .events, .queue, .hyper, .power, .free] ks)
     : Keeps ks s₀ (State.guardRecal s) := by
  unfold State.guardRecal
  try dsimp only
  repeat' with_reducible first
      | exact hk | exact Kind.Sub.mono rfl hs | apply State.recalStep_keeps | assumption | apply Keeps.other
      | exact Or.inl (Kind.Sub.mem hs rfl) | exact Or.inr rfl

theorem State.guardStep_keeps {ks : List Kind} {s₀ s : State} (hk : Keeps ks s₀ s) (hs : Kind.Sub [.regs, .mem, .ecc, .tick, .progs, .yards, .flags, .fabric, .strm, .events, .queue, .media, .gpio, .hyper, .power, .free] ks)
     : Keeps ks s₀ (State.guardStep s) := by
  unfold State.guardStep
  try dsimp only
  repeat' with_reducible first
      | exact hk | exact Kind.Sub.mono rfl hs | apply Keeps.ite | apply State.guardFlip_keeps | apply State.guardCommit_keeps
      | apply State.guardRecal_keeps | assumption

end Sys2Proof.Machine
end

