-- ==== Sys2Proof/Laws/KeepsTickGen.lean ====
section
/-! SUPPORT. The operations of Sys2Proof/Machine/TickGen.lean keep (see Sys2Proof/Laws/KeepsBase.lean). -/

namespace Sys2Proof.Machine

theorem State.advanceT48_keeps {ks : List Kind} {s₀ s : State} (hk : Keeps ks s₀ s) (hs : Kind.Sub [.regs, .tick, .events] ks)
     : Keeps ks s₀ (State.advanceT48 s) := by
  unfold State.advanceT48
  try dsimp only
  repeat' with_reducible first
      | exact hk | exact Kind.Sub.mono rfl hs | apply Keeps.ite | apply State.put_keeps | apply State.raise_keeps | assumption
      | apply Keeps.other | exact Or.inl (Kind.Sub.mem hs rfl) | exact Or.inr rfl

theorem State.clearOnce_keeps {ks : List Kind} {s₀ s : State} (hk : Keeps ks s₀ s) (hs : Kind.Sub [.yards, .fabric, .strm, .queue, .media, .gpio] ks)
     : Keeps ks s₀ (State.clearOnce s) := by
  unfold State.clearOnce
  try dsimp only
  repeat' with_reducible first
      | exact hk | exact Kind.Sub.mono rfl hs | assumption | apply Keeps.other | exact Or.inl (Kind.Sub.mem hs rfl) | exact Or.inr rfl

theorem State.zeroFlags_keeps {ks : List Kind} {s₀ s : State} (hk : Keeps ks s₀ s) (hs : Kind.Sub [.regs, .flags] ks)
     : Keeps ks s₀ (State.zeroFlags s) := by
  unfold State.zeroFlags
  try dsimp only
  repeat' with_reducible first
      | exact hk | exact Kind.Sub.mono rfl hs | apply State.clearAll_keeps | apply State.maskAll_keeps | assumption | apply Keeps.other
      | exact Or.inl (Kind.Sub.mem hs rfl) | exact Or.inr rfl

theorem State.freshYard_keeps {ks : List Kind} {s₀ s : State} (hk : Keeps ks s₀ s) (hs : Kind.Sub [.regs, .yards] ks)
    {m : Nat} {y : Nat} : Keeps ks s₀ (State.freshYard s m y) := by
  unfold State.freshYard
  try dsimp only
  repeat' with_reducible first
      | exact hk | exact Kind.Sub.mono rfl hs | apply State.setYard_keeps | apply State.setSail_keeps | apply State.putSail_keeps
      | apply State.mapBooms_keeps | refine Keeps.foldl (fun s x hk => ?_) _ ?_ | assumption | apply Keeps.other
      | exact Or.inl (Kind.Sub.mem hs rfl) | exact Or.inr rfl

theorem State.zeroCounters_keeps {ks : List Kind} {s₀ s : State} (hk : Keeps ks s₀ s) (hs : Kind.Sub [.regs] ks)
    {p : Nat} : Keeps ks s₀ (State.zeroCounters s p) := by
  unfold State.zeroCounters
  try dsimp only
  repeat' with_reducible first
      | exact hk | exact Kind.Sub.mono rfl hs | apply State.setReg_keeps
      | refine State.onYards_keeps ?_ (Kind.Sub.mono rfl hs) (fun s x y hk => ?_) | refine Keeps.foldl (fun s x hk => ?_) _ ?_
      | assumption

theorem State.copyCarried_keeps {ks : List Kind} {s₀ s : State} (hk : Keeps ks s₀ s) (hs : Kind.Sub [.regs, .mem, .ecc, .progs] ks)
    {p : Nat} : Keeps ks s₀ (State.copyCarried s p) := by
  unfold State.copyCarried
  try dsimp only
  repeat' with_reducible first
      | exact hk | exact Kind.Sub.mono rfl hs | apply Keeps.ite | apply State.copyPlace_keeps
      | refine Keeps.foldl (fun s x hk => ?_) _ ?_ | assumption

theorem State.freshProg_keeps {ks : List Kind} {s₀ s : State} (hk : Keeps ks s₀ s) (hs : Kind.Sub [.regs, .mem, .ecc, .progs, .yards] ks)
    {p : Nat} : Keeps ks s₀ (State.freshProg s p) := by
  unfold State.freshProg
  try dsimp only
  repeat' with_reducible first
      | exact hk | exact Kind.Sub.mono rfl hs | apply Keeps.ite | apply State.setProg_keeps | apply State.setCtx_keeps
      | refine State.onYards_keeps ?_ (Kind.Sub.mono rfl hs) (fun s x y hk => ?_) | apply State.freshYard_keeps
      | apply State.zeroCounters_keeps | apply State.copyCarried_keeps | assumption | apply Keeps.other
      | exact Or.inl (Kind.Sub.mem hs rfl) | exact Or.inr rfl

theorem State.skewCheck_keeps {ks : List Kind} {s₀ s : State} (hk : Keeps ks s₀ s) (hs : Kind.Sub [.regs, .tick, .progs, .flags, .events, .power] ks)
    {m : Nat} : Keeps ks s₀ (State.skewCheck s m) := by
  unfold State.skewCheck
  try dsimp only
  repeat' with_reducible first
      | exact hk | exact Kind.Sub.mono rfl hs | apply Keeps.ite | apply State.put_keeps | apply State.raise_keeps
      | apply State.unitFaults_keeps | apply State.askOut_keeps | assumption | apply Keeps.other | exact Or.inl (Kind.Sub.mem hs rfl)
      | exact Or.inr rfl

theorem State.boundInputs_keeps {ks : List Kind} {s₀ s : State} (hk : Keeps ks s₀ s) (hs : Kind.Sub [.regs, .progs, .yards, .fabric, .strm, .events, .hyper, .power, .free] ks)
     : Keeps ks s₀ (State.boundInputs s) := by
  unfold State.boundInputs
  try dsimp only
  repeat' with_reducible first
      | exact hk | exact Kind.Sub.mono rfl hs | apply Keeps.ite | apply State.setProg_keeps | apply State.setInput_keeps
      | apply State.startCopyIn_keeps | refine Keeps.foldl (fun s x hk => ?_) _ ?_ | assumption | apply Keeps.other
      | exact Or.inl (Kind.Sub.mem hs rfl) | exact Or.inr rfl

theorem State.linksAtTick_keeps {ks : List Kind} {s₀ s : State} (hk : Keeps ks s₀ s) (hs : Kind.Sub [.regs, .progs, .fabric] ks)
     : Keeps ks s₀ (State.linksAtTick s) := by
  unfold State.linksAtTick
  try dsimp only
  repeat' with_reducible first
      | exact hk | exact Kind.Sub.mono rfl hs | apply Keeps.ite | apply State.put_keeps | apply State.unitFaults_keeps
      | refine Keeps.foldl (fun s x hk => ?_) _ ?_ | assumption | apply Keeps.other | exact Or.inl (Kind.Sub.mem hs rfl)
      | exact Or.inr rfl

theorem State.startGenerator_keeps {ks : List Kind} {s₀ s : State} (hk : Keeps ks s₀ s) (hs : Kind.Sub [.regs, .tick, .events] ks)
    {at_ : Nat} : Keeps ks s₀ (State.startGenerator s at_) := by
  unfold State.startGenerator
  try dsimp only
  repeat' with_reducible first
      | exact hk | exact Kind.Sub.mono rfl hs | apply Keeps.ite | apply State.setReg_keeps | apply State.put_keeps
      | apply State.advanceT48_keeps | assumption | apply Keeps.other | exact Or.inl (Kind.Sub.mem hs rfl) | exact Or.inr rfl

theorem State.putTick_keeps {ks : List Kind} {s₀ s : State} (hk : Keeps ks s₀ s) (hs : Kind.Sub [.regs] ks)
    {rig : List Byte} : Keeps ks s₀ (State.putTick s rig) := by
  unfold State.putTick
  try dsimp only
  repeat' with_reducible first
      | exact hk | exact Kind.Sub.mono rfl hs | apply Keeps.ite | apply State.put_keeps | assumption

theorem State.takeTick_keeps {ks : List Kind} {s₀ s : State} (hk : Keeps ks s₀ s) (hs : Kind.Sub [.regs, .tick] ks)
     : Keeps ks s₀ (State.takeTick s) := by
  unfold State.takeTick
  try dsimp only
  repeat' with_reducible first
      | exact hk | exact Kind.Sub.mono rfl hs | apply Keeps.ite | apply State.putTick_keeps | assumption | apply Keeps.other
      | exact Or.inl (Kind.Sub.mem hs rfl) | exact Or.inr rfl

theorem State.startTick_keeps {ks : List Kind} {s₀ s : State} (hk : Keeps ks s₀ s) (hs : Kind.Sub [.regs, .mem, .ecc, .tick, .progs, .yards, .flags, .fabric, .strm, .events, .queue, .media, .gpio, .hyper, .power, .free] ks)
    {at_ : Nat} : Keeps ks s₀ (State.startTick s at_) := by
  unfold State.startTick
  try dsimp only
  repeat' with_reducible first
      | exact hk | exact Kind.Sub.mono rfl hs | apply State.maskAll_keeps | apply State.toqShow_keeps | apply State.toqArm_keeps
      | apply State.hrTickStart_keeps | apply State.clearOnce_keeps | apply State.zeroFlags_keeps | apply State.freshProg_keeps
      | apply State.skewCheck_keeps | apply State.boundInputs_keeps | apply State.linksAtTick_keeps | apply State.startGenerator_keeps
      | refine Keeps.foldl (fun s x hk => ?_) _ ?_ | assumption

theorem State.acceptEdge_keeps {ks : List Kind} {s₀ s : State} (hk : Keeps ks s₀ s) (hs : Kind.Sub [.regs, .tick, .events] ks)
     : Keeps ks s₀ (State.acceptEdge s) := by
  unfold State.acceptEdge
  try dsimp only
  repeat' with_reducible first
      | exact hk | exact Kind.Sub.mono rfl hs | apply Keeps.ite | apply State.setReg_keeps | apply State.put_keeps
      | apply State.raise_keeps | assumption | apply Keeps.other | exact Or.inl (Kind.Sub.mem hs rfl) | exact Or.inr rfl

theorem State.earlyEdge_keeps {ks : List Kind} {s₀ s : State} (hk : Keeps ks s₀ s) (hs : Kind.Sub [.regs, .tick, .events] ks)
     : Keeps ks s₀ (State.earlyEdge s) := by
  unfold State.earlyEdge
  try dsimp only
  repeat' with_reducible first
      | exact hk | exact Kind.Sub.mono rfl hs | apply State.raise_keeps | assumption | apply Keeps.other
      | exact Or.inl (Kind.Sub.mem hs rfl) | exact Or.inr rfl

theorem State.tickInAt_keeps {ks : List Kind} {s₀ s : State} (hk : Keeps ks s₀ s) (hs : Kind.Sub [.regs, .tick, .events] ks)
     : Keeps ks s₀ (State.tickInAt s) := by
  unfold State.tickInAt
  try dsimp only
  repeat' with_reducible first
      | exact hk | exact Kind.Sub.mono rfl hs | apply Keeps.ite | apply State.acceptEdge_keeps | apply State.earlyEdge_keeps | assumption
      | split | apply Keeps.other | exact Or.inl (Kind.Sub.mem hs rfl) | exact Or.inr rfl

theorem State.setRun_keeps {ks : List Kind} {s₀ s : State} (hk : Keeps ks s₀ s) (hs : Kind.Sub [.regs, .tick, .events] ks)
     : Keeps ks s₀ (State.setRun s) := by
  unfold State.setRun
  try dsimp only
  repeat' with_reducible first
      | exact hk | exact Kind.Sub.mono rfl hs | apply Keeps.ite | apply State.put_keeps | apply State.raise_keeps | assumption
      | apply Keeps.other | exact Or.inl (Kind.Sub.mem hs rfl) | exact Or.inr rfl

theorem State.fsyncDrive_keeps {ks : List Kind} {s₀ s : State} (hk : Keeps ks s₀ s) (hs : Kind.Sub [.regs, .gpio] ks)
    {n : Nat} {active : Bool} : Keeps ks s₀ (State.fsyncDrive s n active) := by
  unfold State.fsyncDrive
  try dsimp only
  repeat' with_reducible first
      | exact hk | exact Kind.Sub.mono rfl hs | apply Keeps.ite | apply State.drive_keeps | assumption

theorem State.fsyncRest_keeps {ks : List Kind} {s₀ s : State} (hk : Keeps ks s₀ s) (hs : Kind.Sub [.regs, .gpio] ks)
    {n : Nat} : Keeps ks s₀ (State.fsyncRest s n) := by
  unfold State.fsyncRest
  try dsimp only
  repeat' with_reducible first
      | exact hk | exact Kind.Sub.mono rfl hs | apply Keeps.ite | apply State.fsyncDrive_keeps | assumption

theorem State.fsyncEnds_keeps {ks : List Kind} {s₀ s : State} (hk : Keeps ks s₀ s) (hs : Kind.Sub [.regs, .gpio] ks)
     : Keeps ks s₀ (State.fsyncEnds s) := by
  unfold State.fsyncEnds
  try dsimp only
  repeat' with_reducible first
      | exact hk | exact Kind.Sub.mono rfl hs | apply Keeps.ite | apply State.fsyncDrive_keeps
      | refine Keeps.foldl (fun s x hk => ?_) _ ?_ | assumption

theorem State.stopGenerator_keeps {ks : List Kind} {s₀ s : State} (hk : Keeps ks s₀ s) (hs : Kind.Sub [.regs, .tick, .gpio] ks)
     : Keeps ks s₀ (State.stopGenerator s) := by
  unfold State.stopGenerator
  try dsimp only
  repeat' with_reducible first
      | exact hk | exact Kind.Sub.mono rfl hs | apply State.put_keeps | apply State.fsyncRest_keeps
      | refine Keeps.foldl (fun s x hk => ?_) _ ?_ | assumption | apply Keeps.other | exact Or.inl (Kind.Sub.mem hs rfl)
      | exact Or.inr rfl

theorem execTimebaseLock_keeps {ks : List Kind} {s₀ s s₁ : State} (hk : Keeps ks s₀ s) (hs : Kind.Sub [.gcnt, .timebase] ks) 
    (hx : execTimebaseLock s = .next s₁) : Keeps ks s₀ s₁ := by
  unfold execTimebaseLock at hx
  injection hx with hx
  subst hx
  try dsimp only
  repeat' with_reducible first
      | exact hk | exact Kind.Sub.mono rfl hs | apply Keeps.ite | assumption | apply Keeps.other | exact Or.inl (Kind.Sub.mem hs rfl)
      | exact Or.inr rfl

theorem execGcntSaturated_keeps {ks : List Kind} {s₀ s s₁ : State} (hk : Keeps ks s₀ s) (hs : Kind.Sub [.regs, .events] ks) 
    (hx : execGcntSaturated s = .next s₁) : Keeps ks s₀ s₁ := by
  unfold execGcntSaturated at hx
  injection hx with hx
  subst hx
  try dsimp only
  repeat' with_reducible first
      | exact hk | exact Kind.Sub.mono rfl hs | apply Keeps.ite | apply State.put_keeps | apply State.raise_keeps | assumption

theorem execCounterAlignment_keeps {ks : List Kind} {s₀ s s₁ : State} (hk : Keeps ks s₀ s) (hs : Kind.Sub [.tick] ks) {m : Nat} {value : BitVec 64} {loadAt : BitVec 64}
    (hx : execCounterAlignment m value loadAt s = .next s₁) : Keeps ks s₀ s₁ := by
  unfold execCounterAlignment at hx
  injection hx with hx
  subst hx
  try dsimp only
  repeat' with_reducible first
      | exact hk | exact Kind.Sub.mono rfl hs | apply Keeps.ite | assumption | apply Keeps.other | exact Or.inl (Kind.Sub.mem hs rfl)
      | exact Or.inr rfl

theorem execTickStart_keeps {ks : List Kind} {s₀ s s₁ : State} (hk : Keeps ks s₀ s) (hs : Kind.Sub [.regs, .mem, .ecc, .tick, .progs, .yards, .flags, .fabric, .strm, .events, .queue, .media, .gpio, .hyper, .power, .free] ks) 
    (hx : execTickStart s = .next s₁) : Keeps ks s₀ s₁ := by
  unfold execTickStart at hx
  injection hx with hx
  subst hx
  try dsimp only
  repeat' with_reducible first
      | exact hk | exact Kind.Sub.mono rfl hs | apply Keeps.ite | apply State.takeTick_keeps | apply State.startTick_keeps
      | apply State.stopGenerator_keeps | assumption | split

theorem execTickOutPulse_keeps {ks : List Kind} {s₀ s s₁ : State} (hk : Keeps ks s₀ s) (hs : Kind.Sub [.tick] ks) 
    (hx : execTickOutPulse s = .next s₁) : Keeps ks s₀ s₁ := by
  unfold execTickOutPulse at hx
  injection hx with hx
  subst hx
  try dsimp only
  repeat' with_reducible first
      | exact hk | exact Kind.Sub.mono rfl hs | apply Keeps.ite | assumption | apply Keeps.other | exact Or.inl (Kind.Sub.mem hs rfl)
      | exact Or.inr rfl

theorem execFsyncPulse_keeps {ks : List Kind} {s₀ s s₁ : State} (hk : Keeps ks s₀ s) (hs : Kind.Sub [.regs, .tick, .gpio] ks) {n : Nat}
    (hx : execFsyncPulse n s = .next s₁) : Keeps ks s₀ s₁ := by
  unfold execFsyncPulse at hx
  injection hx with hx
  subst hx
  try dsimp only
  repeat' with_reducible first
      | exact hk | exact Kind.Sub.mono rfl hs | apply Keeps.ite | apply State.fsyncDrive_keeps | assumption | apply Keeps.other
      | exact Or.inl (Kind.Sub.mem hs rfl) | exact Or.inr rfl

theorem execGuardStart_keeps {ks : List Kind} {s₀ s s₁ : State} (hk : Keeps ks s₀ s) (hs : Kind.Sub [.regs, .tick, .progs, .yards, .flags, .fabric, .strm, .events, .gpio, .hyper, .power] ks) 
    (hx : execGuardStart s = .next s₁) : Keeps ks s₀ s₁ := by
  unfold execGuardStart at hx
  injection hx with hx
  subst hx
  try dsimp only
  repeat' with_reducible first
      | exact hk | exact Kind.Sub.mono rfl hs | apply Keeps.ite | apply State.guardFence_keeps | assumption

theorem execTickInEdge_keeps {ks : List Kind} {s₀ s s₁ : State} (hk : Keeps ks s₀ s) (hs : Kind.Sub [.regs, .tick, .events] ks) {falling : Bool}
    (hx : execTickInEdge falling s = .next s₁) : Keeps ks s₀ s₁ := by
  unfold execTickInEdge at hx
  injection hx with hx
  subst hx
  try dsimp only
  repeat' with_reducible first
      | exact hk | exact Kind.Sub.mono rfl hs | apply Keeps.ite | apply State.tickInAt_keeps | assumption

theorem execTickInLost_keeps {ks : List Kind} {s₀ s s₁ : State} (hk : Keeps ks s₀ s) (hs : Kind.Sub [.regs, .tick, .events] ks) 
    (hx : execTickInLost s = .next s₁) : Keeps ks s₀ s₁ := by
  unfold execTickInLost at hx
  injection hx with hx
  subst hx
  try dsimp only
  repeat' with_reducible first
      | exact hk | exact Kind.Sub.mono rfl hs | apply Keeps.ite | apply State.put_keeps | apply State.raise_keeps | assumption
      | apply Keeps.other | exact Or.inl (Kind.Sub.mem hs rfl) | exact Or.inr rfl

theorem execHoldoverRelock_keeps {ks : List Kind} {s₀ s s₁ : State} (hk : Keeps ks s₀ s) (hs : Kind.Sub [.tick] ks) 
    (hx : execHoldoverRelock s = .next s₁) : Keeps ks s₀ s₁ := by
  unfold execHoldoverRelock at hx
  injection hx with hx
  subst hx
  try dsimp only
  repeat' with_reducible first
      | exact hk | exact Kind.Sub.mono rfl hs | apply Keeps.ite | assumption | apply Keeps.other | exact Or.inl (Kind.Sub.mem hs rfl)
      | exact Or.inr rfl

theorem execTickRunSet_keeps {ks : List Kind} {s₀ s s₁ : State} (hk : Keeps ks s₀ s) (hs : Kind.Sub [.regs, .tick, .events] ks) 
    (hx : execTickRunSet s = .next s₁) : Keeps ks s₀ s₁ := by
  unfold execTickRunSet at hx
  injection hx with hx
  subst hx
  try dsimp only
  repeat' with_reducible first
      | exact hk | exact Kind.Sub.mono rfl hs | apply Keeps.ite | apply State.put_keeps | apply State.setRun_keeps | assumption
      | apply Keeps.other | exact Or.inl (Kind.Sub.mem hs rfl) | exact Or.inr rfl

theorem execTickRunClear_keeps {ks : List Kind} {s₀ s s₁ : State} (hk : Keeps ks s₀ s) (hs : Kind.Sub [.regs, .tick] ks) 
    (hx : execTickRunClear s = .next s₁) : Keeps ks s₀ s₁ := by
  unfold execTickRunClear at hx
  injection hx with hx
  subst hx
  try dsimp only
  repeat' with_reducible first
      | exact hk | exact Kind.Sub.mono rfl hs | apply Keeps.ite | apply State.put_keeps | assumption | apply Keeps.other
      | exact Or.inl (Kind.Sub.mem hs rfl) | exact Or.inr rfl

theorem execGcntCapture_keeps {ks : List Kind} {s₀ s s₁ : State} (hk : Keeps ks s₀ s) (hs : Kind.Sub [.regs] ks) {value : BitVec 32}
    (hx : execGcntCapture value s = .next s₁) : Keeps ks s₀ s₁ := by
  unfold execGcntCapture at hx
  injection hx with hx
  subst hx
  try dsimp only
  repeat' with_reducible first
      | exact hk | exact Kind.Sub.mono rfl hs | apply Keeps.ite | apply State.setReg_keeps
      | refine State.viaHost_keeps ?_ (Kind.Sub.mono rfl hs) (fun s hk => ?_) | assumption

end Sys2Proof.Machine
end

