-- ==== Sys2Proof/Laws/KeepsHostLink.lean ====
section
/-! SUPPORT. The operations of Sys2Proof/Machine/HostLink.lean keep (see Sys2Proof/Laws/KeepsBase.lean). -/

namespace Sys2Proof.Machine

theorem State.strike_keeps {ks : List Kind} {s₀ s : State} (hk : Keeps ks s₀ s) (hs : Kind.Sub [.regs, .progs, .yards, .flags, .fabric, .strm, .hyper] ks)
    {p : Nat} : Keeps ks s₀ (State.strike s p) := by
  unfold State.strike
  try dsimp only
  repeat' with_reducible first
      | exact hk | exact Kind.Sub.mono rfl hs | apply State.put_keeps | apply State.setCtx_keeps
      | refine State.onYards_keeps ?_ (Kind.Sub.mono rfl hs) (fun s x y hk => ?_) | apply State.squashAll_keeps
      | apply State.dropWork_keeps | apply State.stopSails_keeps | assumption | apply Keeps.other | exact Or.inl (Kind.Sub.mem hs rfl)
      | exact Or.inr rfl

theorem State.refuseLaunches_keeps {ks : List Kind} {s₀ s : State} (hk : Keeps ks s₀ s) (hs : Kind.Sub [.regs, .events, .queue] ks)
     : Keeps ks s₀ (State.refuseLaunches s) := by
  unfold State.refuseLaunches
  try dsimp only
  repeat' with_reducible first
      | exact hk | exact Kind.Sub.mono rfl hs | apply State.respond_keeps | refine Keeps.foldl (fun s x hk => ?_) _ ?_ | assumption
      | apply Keeps.other | exact Or.inl (Kind.Sub.mem hs rfl) | exact Or.inr rfl

theorem State.downhaul_keeps {ks : List Kind} {s₀ s : State} (hk : Keeps ks s₀ s) (hs : Kind.Sub [.regs, .progs, .yards, .flags, .fabric, .strm, .events, .queue, .gpio, .hyper] ks)
    {source : Nat} : Keeps ks s₀ (State.downhaul s source) := by
  unfold State.downhaul
  try dsimp only
  repeat' with_reducible first
      | exact hk | exact Kind.Sub.mono rfl hs | apply Keeps.ite | apply State.setReg_keeps | apply State.put_keeps
      | apply State.raise_keeps | apply State.toqDownhaul_keeps | apply State.showStruck_keeps | apply State.strike_keeps
      | apply State.refuseLaunches_keeps | refine Keeps.foldl (fun s x hk => ?_) _ ?_ | assumption

theorem State.qDisable_keeps {ks : List Kind} {s₀ s : State} (hk : Keeps ks s₀ s) (hs : Kind.Sub [.regs, .mem, .ecc] ks)
    {q : Nat} : Keeps ks s₀ (State.qDisable s q) := by
  unfold State.qDisable
  try dsimp only
  repeat' with_reducible first
      | exact hk | exact Kind.Sub.mono rfl hs | apply State.qSet_keeps | assumption

theorem State.stopChan_keeps {ks : List Kind} {s₀ s : State} (hk : Keeps ks s₀ s) (hs : Kind.Sub [.regs, .strm] ks)
    {ch : Nat} : Keeps ks s₀ (State.stopChan s ch) := by
  unfold State.stopChan
  try dsimp only
  repeat' with_reducible first
      | exact hk | exact Kind.Sub.mono rfl hs | apply State.setChan_keeps | apply State.setChState_keeps | assumption

theorem State.hostReset_keeps {ks : List Kind} {s₀ s : State} (hk : Keeps ks s₀ s) (hs : Kind.Sub [.regs, .mem, .ecc, .strm, .events, .queue] ks)
     : Keeps ks s₀ (State.hostReset s) := by
  unfold State.hostReset
  try dsimp only
  repeat' with_reducible first
      | exact hk | exact Kind.Sub.mono rfl hs | apply State.put_keeps | apply State.bump_keeps | apply State.raise_keeps
      | apply State.qDisable_keeps | apply State.stopChan_keeps | refine Keeps.foldl (fun s x hk => ?_) _ ?_ | assumption
      | apply Keeps.other | exact Or.inl (Kind.Sub.mem hs rfl) | exact Or.inr rfl

theorem State.linkGen_keeps {ks : List Kind} {s₀ s : State} (hk : Keeps ks s₀ s) (hs : Kind.Sub [.regs] ks)
    {gen : Nat} : Keeps ks s₀ (State.linkGen s gen) := by
  unfold State.linkGen
  try dsimp only
  repeat' with_reducible first
      | exact hk | exact Kind.Sub.mono rfl hs | apply Keeps.ite | apply State.put_keeps | assumption

theorem State.apertureCheck_keeps {ks : List Kind} {s₀ s : State} (hk : Keeps ks s₀ s) (hs : Kind.Sub [.regs, .yards, .events, .power] ks)
    {a : Nat} : Keeps ks s₀ (State.apertureCheck s a) := by
  unfold State.apertureCheck
  try dsimp only
  repeat' with_reducible first
      | exact hk | exact Kind.Sub.mono rfl hs | apply Keeps.ite | apply State.readCheck_keeps | assumption | split

theorem State.qFlags_keeps {ks : List Kind} {s₀ s : State} (hk : Keeps ks s₀ s) (hs : Kind.Sub [.regs, .mem, .ecc, .events, .queue] ks)
    {q : Nat} {en : Bool} {irq : Bool} : Keeps ks s₀ (State.qFlags s q en irq) := by
  unfold State.qFlags
  try dsimp only
  repeat' with_reducible first
      | exact hk | exact Kind.Sub.mono rfl hs | apply Keeps.ite | apply State.qSet_keeps | apply State.irqReset_keeps
      | apply State.doorbellBad_keeps | assumption

theorem State.ring_keeps {ks : List Kind} {s₀ s : State} (hk : Keeps ks s₀ s) (hs : Kind.Sub [.regs, .mem, .ecc, .events] ks)
    {q : Nat} {w : Nat} : Keeps ks s₀ (State.ring s q w) := by
  unfold State.ring
  try dsimp only
  repeat' with_reducible first
      | exact hk | exact Kind.Sub.mono rfl hs | apply Keeps.ite | apply State.qSet_keeps | apply State.doorbellBad_keeps | assumption

theorem State.resultLost_keeps {ks : List Kind} {s₀ s : State} (hk : Keeps ks s₀ s) (hs : Kind.Sub [.regs, .mem, .ecc] ks)
    {q : Nat} : Keeps ks s₀ (State.resultLost s q) := by
  unfold State.resultLost
  try dsimp only
  repeat' with_reducible first
      | exact hk | exact Kind.Sub.mono rfl hs | apply State.bump_keeps | apply State.qDrop_keeps | assumption

theorem State.resultDropEvent_keeps {ks : List Kind} {s₀ s : State} (hk : Keeps ks s₀ s) (hs : Kind.Sub [.regs, .events, .queue] ks)
    {q : Nat} {r : Result} : Keeps ks s₀ (State.resultDropEvent s q r) := by
  unfold State.resultDropEvent
  try dsimp only
  repeat' with_reducible first
      | exact hk | exact Kind.Sub.mono rfl hs | apply Keeps.ite | apply State.raise_keeps | apply State.dropMark_keeps | assumption

theorem State.writePayload_keeps {ks : List Kind} {s₀ s : State} (hk : Keeps ks s₀ s) (hs : Kind.Sub [.regs, .mem, .ecc] ks)
    {q : Nat} {e : Nat} {r : Result} : Keeps ks s₀ (State.writePayload s q e r) := by
  unfold State.writePayload
  try dsimp only
  repeat' with_reducible first
      | exact hk | exact Kind.Sub.mono rfl hs | apply State.pkgStore_keeps | assumption | split

theorem State.publish_keeps {ks : List Kind} {s₀ s : State} (hk : Keeps ks s₀ s) (hs : Kind.Sub [.regs, .mem, .ecc, .events, .queue] ks)
    {r : Result} : Keeps ks s₀ (State.publish s r) := by
  unfold State.publish
  try dsimp only
  repeat' with_reducible first
      | exact hk | exact Kind.Sub.mono rfl hs | apply Keeps.ite | apply State.bump_keeps | apply State.hostTouch_keeps
      | apply State.qLand_keeps | apply State.resultLost_keeps | apply State.resultDropEvent_keeps | apply State.writePayload_keeps
      | assumption

theorem State.takeEvent_keeps {ks : List Kind} {s₀ s : State} (hk : Keeps ks s₀ s) (hs : Kind.Sub [.regs, .mem, .ecc, .events, .queue] ks)
    {key : Nat} {e : Event} : Keeps ks s₀ (State.takeEvent s key e) := by
  unfold State.takeEvent
  try dsimp only
  repeat' with_reducible first
      | exact hk | exact Kind.Sub.mono rfl hs | apply State.setReg_keeps | apply State.qProduce_keeps
      | refine Keeps.foldl (fun s x hk => ?_) _ ?_ | refine Keeps.foldlFst (fun q x hk => ?_) _ ?_ | assumption
      | exact Keeps.ofFst (State.qProduce_keeps hk (Kind.Sub.mono rfl hs)) (by assumption) | apply Keeps.other
      | exact Or.inl (Kind.Sub.mem hs rfl) | exact Or.inr rfl

theorem execUsb4Disconnect_keeps {ks : List Kind} {s₀ s s₁ : State} (hk : Keeps ks s₀ s) (hs : Kind.Sub [.regs, .mem, .ecc, .strm, .events, .queue] ks) 
    (hx : execUsb4Disconnect s = .next s₁) : Keeps ks s₀ s₁ := by
  unfold execUsb4Disconnect at hx
  injection hx with hx
  subst hx
  try dsimp only
  repeat' with_reducible first
      | exact hk | exact Kind.Sub.mono rfl hs | apply Keeps.ite | apply State.put_keeps | apply State.hostReset_keeps
      | apply State.linkGen_keeps | assumption

theorem execPcieTunnelLoss_keeps {ks : List Kind} {s₀ s s₁ : State} (hk : Keeps ks s₀ s) (hs : Kind.Sub [.regs, .mem, .ecc, .strm, .events, .queue] ks) 
    (hx : execPcieTunnelLoss s = .next s₁) : Keeps ks s₀ s₁ := by
  unfold execPcieTunnelLoss at hx
  injection hx with hx
  subst hx
  try dsimp only
  repeat' with_reducible first
      | exact hk | exact Kind.Sub.mono rfl hs | apply Keeps.ite | apply State.put_keeps | apply State.hostReset_keeps | assumption

theorem execHotReset_keeps {ks : List Kind} {s₀ s s₁ : State} (hk : Keeps ks s₀ s) (hs : Kind.Sub [.regs, .mem, .ecc, .strm, .events, .queue] ks) 
    (hx : execHotReset s = .next s₁) : Keeps ks s₀ s₁ := by
  unfold execHotReset at hx
  injection hx with hx
  subst hx
  try dsimp only
  repeat' with_reducible first
      | exact hk | exact Kind.Sub.mono rfl hs | apply Keeps.ite | apply State.hostReset_keeps | assumption

theorem execFunctionLevelReset_keeps {ks : List Kind} {s₀ s s₁ : State} (hk : Keeps ks s₀ s) (hs : Kind.Sub [.regs, .mem, .ecc, .progs, .yards, .flags, .fabric, .strm, .events, .queue, .gpio, .hyper] ks) 
    (hx : execFunctionLevelReset s = .next s₁) : Keeps ks s₀ s₁ := by
  unfold execFunctionLevelReset at hx
  injection hx with hx
  subst hx
  try dsimp only
  repeat' with_reducible first
      | exact hk | exact Kind.Sub.mono rfl hs | apply Keeps.ite | apply State.downhaul_keeps | apply State.hostReset_keeps | assumption

theorem execHostLinkUp_keeps {ks : List Kind} {s₀ s s₁ : State} (hk : Keeps ks s₀ s) (hs : Kind.Sub [.regs, .events] ks) {gen3 : Bool}
    (hx : execHostLinkUp gen3 s = .next s₁) : Keeps ks s₀ s₁ := by
  unfold execHostLinkUp at hx
  injection hx with hx
  subst hx
  try dsimp only
  repeat' with_reducible first
      | exact hk | exact Kind.Sub.mono rfl hs | apply Keeps.ite | apply State.put_keeps | apply State.raise_keeps
      | apply State.linkGen_keeps | assumption

theorem execD3hotEntry_keeps {ks : List Kind} {s₀ s s₁ : State} (hk : Keeps ks s₀ s) (hs : Kind.Sub [.regs] ks) 
    (hx : execD3hotEntry s = .next s₁) : Keeps ks s₀ s₁ := by
  unfold execD3hotEntry at hx
  injection hx with hx
  subst hx
  try dsimp only
  repeat' with_reducible first
      | exact hk | exact Kind.Sub.mono rfl hs | apply Keeps.ite | apply State.put_keeps | assumption

theorem execD0Return_keeps {ks : List Kind} {s₀ s s₁ : State} (hk : Keeps ks s₀ s) (hs : Kind.Sub [.regs] ks) 
    (hx : execD0Return s = .next s₁) : Keeps ks s₀ s₁ := by
  unfold execD0Return at hx
  injection hx with hx
  subst hx
  try dsimp only
  repeat' with_reducible first
      | exact hk | exact Kind.Sub.mono rfl hs | apply State.put_keeps | assumption

theorem execBar2Access_keeps {ks : List Kind} {s₀ s s₁ : State} (hk : Keeps ks s₀ s) (hs : Kind.Sub [.regs, .mem, .ecc, .progs, .yards, .fabric, .events, .queue, .hyper, .power] ks) {off : Nat} {write : Option (BitVec 32)}
    (hx : execBar2Access off write s = .next s₁) : Keeps ks s₀ s₁ := by
  unfold execBar2Access at hx
  injection hx with hx
  subst hx
  try dsimp only
  repeat' with_reducible first
      | exact hk | exact Kind.Sub.mono rfl hs | apply Keeps.ite | refine State.viaHost_keeps ?_ (Kind.Sub.mono rfl hs) (fun s hk => ?_)
      | apply State.looseWrite_keeps | apply State.apertureCheck_keeps | assumption | split | apply Keeps.other
      | exact Or.inl (Kind.Sub.mem hs rfl) | exact Or.inr rfl

theorem execQueueEnable_keeps {ks : List Kind} {s₀ s s₁ : State} (hk : Keeps ks s₀ s) (hs : Kind.Sub [.regs, .mem, .ecc, .events, .queue] ks) {q : Nat} {irqEn : Bool}
    (hx : execQueueEnable q irqEn s = .next s₁) : Keeps ks s₀ s₁ := by
  unfold execQueueEnable at hx
  injection hx with hx
  subst hx
  try dsimp only
  repeat' with_reducible first
      | exact hk | exact Kind.Sub.mono rfl hs | refine State.viaHost_keeps ?_ (Kind.Sub.mono rfl hs) (fun s hk => ?_)
      | apply State.qFlags_keeps | assumption

theorem execQueueDisable_keeps {ks : List Kind} {s₀ s s₁ : State} (hk : Keeps ks s₀ s) (hs : Kind.Sub [.regs, .mem, .ecc, .events, .queue] ks) {q : Nat} {irqEn : Bool}
    (hx : execQueueDisable q irqEn s = .next s₁) : Keeps ks s₀ s₁ := by
  unfold execQueueDisable at hx
  injection hx with hx
  subst hx
  try dsimp only
  repeat' with_reducible first
      | exact hk | exact Kind.Sub.mono rfl hs | refine State.viaHost_keeps ?_ (Kind.Sub.mono rfl hs) (fun s hk => ?_)
      | apply State.qFlags_keeps | assumption

theorem execIrqEnableChange_keeps {ks : List Kind} {s₀ s s₁ : State} (hk : Keeps ks s₀ s) (hs : Kind.Sub [.regs, .mem, .ecc, .events, .queue] ks) {q : Nat} {irqEn : Bool}
    (hx : execIrqEnableChange q irqEn s = .next s₁) : Keeps ks s₀ s₁ := by
  unfold execIrqEnableChange at hx
  injection hx with hx
  subst hx
  try dsimp only
  repeat' with_reducible first
      | exact hk | exact Kind.Sub.mono rfl hs | refine State.viaHost_keeps ?_ (Kind.Sub.mono rfl hs) (fun s hk => ?_)
      | apply State.qFlags_keeps | assumption

theorem execDoorbell_keeps {ks : List Kind} {s₀ s s₁ : State} (hk : Keeps ks s₀ s) (hs : Kind.Sub [.regs, .mem, .ecc, .events] ks) {q : Nat} {value : BitVec 64}
    (hx : execDoorbell q value s = .next s₁) : Keeps ks s₀ s₁ := by
  unfold execDoorbell at hx
  injection hx with hx
  subst hx
  try dsimp only
  repeat' with_reducible first
      | exact hk | exact Kind.Sub.mono rfl hs | refine State.viaHost_keeps ?_ (Kind.Sub.mono rfl hs) (fun s hk => ?_)
      | apply State.ring_keeps | assumption

theorem execResultPublish_keeps {ks : List Kind} {s₀ s s₁ : State} (hk : Keeps ks s₀ s) (hs : Kind.Sub [.regs, .mem, .ecc, .events, .queue] ks) 
    (hx : execResultPublish s = .next s₁) : Keeps ks s₀ s₁ := by
  unfold execResultPublish at hx
  injection hx with hx
  subst hx
  try dsimp only
  repeat' with_reducible first
      | exact hk | exact Kind.Sub.mono rfl hs | apply State.publish_keeps | assumption | split | apply Keeps.other
      | exact Or.inl (Kind.Sub.mem hs rfl) | exact Or.inr rfl

theorem execIrqTimeThreshold_keeps {ks : List Kind} {s₀ s s₁ : State} (hk : Keeps ks s₀ s) (hs : Kind.Sub [.queue] ks) {q : Nat}
    (hx : execIrqTimeThreshold q s = .next s₁) : Keeps ks s₀ s₁ := by
  unfold execIrqTimeThreshold at hx
  injection hx with hx
  subst hx
  try dsimp only
  repeat' with_reducible first
      | exact hk | exact Kind.Sub.mono rfl hs | apply Keeps.ite | apply State.signal_keeps | apply State.irqReset_keeps | assumption

theorem execEventTaken_keeps {ks : List Kind} {s₀ s s₁ : State} (hk : Keeps ks s₀ s) (hs : Kind.Sub [.regs, .mem, .ecc, .events, .queue] ks) 
    (hx : execEventTaken s = .next s₁) : Keeps ks s₀ s₁ := by
  unfold execEventTaken at hx
  injection hx with hx
  subst hx
  try dsimp only
  repeat' with_reducible first
      | exact hk | exact Kind.Sub.mono rfl hs | apply State.takeEvent_keeps | assumption | split

theorem execEvtLost_keeps {ks : List Kind} {s₀ s s₁ : State} (hk : Keeps ks s₀ s) (hs : Kind.Sub [.events] ks) {die : Nat} {group : Nat}
    (hx : execEvtLost die group s = .next s₁) : Keeps ks s₀ s₁ := by
  unfold execEvtLost at hx
  injection hx with hx
  subst hx
  try dsimp only
  repeat' with_reducible first
      | exact hk | exact Kind.Sub.mono rfl hs | apply State.placeLost_keeps | assumption

theorem execQmDownhaul_keeps {ks : List Kind} {s₀ s s₁ : State} (hk : Keeps ks s₀ s) (hs : Kind.Sub [.regs, .progs, .yards, .flags, .fabric, .strm, .events, .queue, .gpio, .hyper] ks) {rq : Requester} {value : BitVec 32}
    (hx : execQmDownhaul rq value s = .next s₁) : Keeps ks s₀ s₁ := by
  unfold execQmDownhaul at hx
  injection hx with hx
  subst hx
  try dsimp only
  repeat' with_reducible first
      | exact hk | exact Kind.Sub.mono rfl hs | apply Keeps.ite | refine State.viaHost_keeps ?_ (Kind.Sub.mono rfl hs) (fun s hk => ?_)
      | apply State.downhaul_keeps | assumption | split

theorem execDownhaulN_keeps {ks : List Kind} {s₀ s s₁ : State} (hk : Keeps ks s₀ s) (hs : Kind.Sub [.regs, .progs, .yards, .flags, .fabric, .strm, .events, .queue, .gpio, .hyper, .power] ks) 
    (hx : execDownhaulN s = .next s₁) : Keeps ks s₀ s₁ := by
  unfold execDownhaulN at hx
  injection hx with hx
  subst hx
  try dsimp only
  repeat' with_reducible first
      | exact hk | exact Kind.Sub.mono rfl hs | apply Keeps.ite | apply State.put_keeps | apply State.downhaul_keeps | assumption
      | apply Keeps.other | exact Or.inl (Kind.Sub.mem hs rfl) | exact Or.inr rfl

theorem execDownhaulNRelease_keeps {ks : List Kind} {s₀ s s₁ : State} (hk : Keeps ks s₀ s) (hs : Kind.Sub [.regs, .power] ks) 
    (hx : execDownhaulNRelease s = .next s₁) : Keeps ks s₀ s₁ := by
  unfold execDownhaulNRelease at hx
  injection hx with hx
  subst hx
  try dsimp only
  repeat' with_reducible first
      | exact hk | exact Kind.Sub.mono rfl hs | apply State.put_keeps | assumption | apply Keeps.other
      | exact Or.inl (Kind.Sub.mem hs rfl) | exact Or.inr rfl

end Sys2Proof.Machine
end

