-- ==== Sys2Proof/Laws/KeepsSecurity.lean ====
section
/-! SUPPORT. The operations of Sys2Proof/Machine/Security.lean keep (see Sys2Proof/Laws/KeepsBase.lean). -/

namespace Sys2Proof.Machine

theorem State.flashStore_keeps {ks : List Kind} {s₀ s : State} (hk : Keeps ks s₀ s) (hs : Kind.Sub [.sec] ks)
    {a : Nat} {bs : List Byte} : Keeps ks s₀ (State.flashStore s a bs) := by
  unfold State.flashStore
  try dsimp only
  repeat' with_reducible first
      | exact hk | exact Kind.Sub.mono rfl hs | assumption | apply Keeps.other | exact Or.inl (Kind.Sub.mem hs rfl) | exact Or.inr rfl

theorem State.flashErase_keeps {ks : List Kind} {s₀ s : State} (hk : Keeps ks s₀ s) (hs : Kind.Sub [.sec] ks)
    {a : Nat} {n : Nat} : Keeps ks s₀ (State.flashErase s a n) := by
  unfold State.flashErase
  try dsimp only
  repeat' with_reducible first
      | exact hk | exact Kind.Sub.mono rfl hs | assumption | apply Keeps.other | exact Or.inl (Kind.Sub.mem hs rfl) | exact Or.inr rfl

theorem State.showSlotState_keeps {ks : List Kind} {s₀ s : State} (hk : Keeps ks s₀ s) (hs : Kind.Sub [.regs] ks)
     : Keeps ks s₀ (State.showSlotState s) := by
  unfold State.showSlotState
  try dsimp only
  repeat' with_reducible first
      | exact hk | exact Kind.Sub.mono rfl hs | apply State.put_keeps | assumption

theorem State.slotAppend_keeps {ks : List Kind} {s₀ s : State} (hk : Keeps ks s₀ s) (hs : Kind.Sub [.regs, .sec] ks)
    {st : Nat} : Keeps ks s₀ (State.slotAppend s st) := by
  unfold State.slotAppend
  try dsimp only
  repeat' with_reducible first
      | exact hk | exact Kind.Sub.mono rfl hs | apply State.flashStore_keeps | apply State.showSlotState_keeps | assumption

theorem State.showExam_keeps {ks : List Kind} {s₀ s : State} (hk : Keeps ks s₀ s) (hs : Kind.Sub [.regs] ks)
    {upd : Bool} {e : Exam} : Keeps ks s₀ (State.showExam s upd e) := by
  unfold State.showExam
  try dsimp only
  repeat' with_reducible first
      | exact hk | exact Kind.Sub.mono rfl hs | apply Keeps.ite | apply State.setReg_keeps | apply State.put_keeps
      | apply State.showSlotState_keeps | refine Keeps.foldl (fun s x hk => ?_) _ ?_ | assumption

theorem State.showSec_keeps {ks : List Kind} {s₀ s : State} (hk : Keeps ks s₀ s) (hs : Kind.Sub [.regs] ks)
     : Keeps ks s₀ (State.showSec s) := by
  unfold State.showSec
  try dsimp only
  repeat' with_reducible first
      | exact hk | exact Kind.Sub.mono rfl hs | apply State.setReg_keeps | apply State.showSlotState_keeps | assumption

theorem State.burned_keeps {ks : List Kind} {s₀ s : State} (hk : Keeps ks s₀ s) (hs : Kind.Sub [.regs, .events] ks)
     : Keeps ks s₀ (State.burned s) := by
  unfold State.burned
  try dsimp only
  repeat' with_reducible first
      | exact hk | exact Kind.Sub.mono rfl hs | apply State.raise_keeps | assumption

theorem State.burnSvn_keeps {ks : List Kind} {s₀ s : State} (hk : Keeps ks s₀ s) (hs : Kind.Sub [.regs, .events, .sec] ks)
    {n : Nat} : Keeps ks s₀ (State.burnSvn s n) := by
  unfold State.burnSvn
  try dsimp only
  repeat' with_reducible first
      | exact hk | exact Kind.Sub.mono rfl hs | apply Keeps.ite | apply State.burned_keeps | assumption | apply Keeps.other
      | exact Or.inl (Kind.Sub.mem hs rfl) | exact Or.inr rfl

theorem State.burnRevoke_keeps {ks : List Kind} {s₀ s : State} (hk : Keeps ks s₀ s) (hs : Kind.Sub [.regs, .mem, .ecc, .progs, .yards, .flags, .fabric, .strm, .events, .queue, .hyper, .sec] ks)
    {m : BitVec 8} : Keeps ks s₀ (State.burnRevoke s m) := by
  unfold State.burnRevoke
  try dsimp only
  repeat' with_reducible first
      | exact hk | exact Kind.Sub.mono rfl hs | apply Keeps.ite | apply State.revoke_keeps | apply State.burned_keeps | assumption
      | apply Keeps.other | exact Or.inl (Kind.Sub.mem hs rfl) | exact Or.inr rfl

theorem State.commitSlot_keeps {ks : List Kind} {s₀ s : State} (hk : Keeps ks s₀ s) (hs : Kind.Sub [.regs, .mem, .ecc, .progs, .yards, .flags, .fabric, .strm, .events, .queue, .hyper, .sec] ks)
     : Keeps ks s₀ (State.commitSlot s) := by
  unfold State.commitSlot
  try dsimp only
  repeat' with_reducible first
      | exact hk | exact Kind.Sub.mono rfl hs | apply State.raise_keeps | apply State.slotAppend_keeps | apply State.showSec_keeps
      | apply State.burnSvn_keeps | apply State.burnRevoke_keeps | assumption

theorem State.drawNonce_keeps {ks : List Kind} {s₀ s : State} (hk : Keeps ks s₀ s) (hs : Kind.Sub [.regs, .free] ks)
     : Keeps ks s₀ (State.drawNonce s) := by
  unfold State.drawNonce
  try dsimp only
  repeat' with_reducible first
      | exact hk | exact Kind.Sub.mono rfl hs | apply State.setReg_keeps | apply State.takeFree_keeps
      | refine Keeps.foldl (fun s x hk => ?_) _ ?_ | assumption

theorem State.takeIndex_keeps {ks : List Kind} {s₀ s : State} (hk : Keeps ks s₀ s) (hs : Kind.Sub [.regs, .sec] ks)
     : Keeps ks s₀ (State.takeIndex s) := by
  unfold State.takeIndex
  try dsimp only
  repeat' with_reducible first
      | exact hk | exact Kind.Sub.mono rfl hs | apply State.showSec_keeps | assumption | apply Keeps.other
      | exact Or.inl (Kind.Sub.mem hs rfl) | exact Or.inr rfl

theorem State.daxa_keeps {ks : List Kind} {s₀ s : State} (hk : Keeps ks s₀ s) (hs : Kind.Sub [.regs, .events, .sec] ks)
    {nonce : List Byte} : Keeps ks s₀ (State.daxa s nonce).1 := by
  unfold State.daxa
  try dsimp only
  repeat' with_reducible first
      | exact hk | exact Kind.Sub.mono rfl hs | apply State.raise_keeps | apply State.takeIndex_keeps | assumption | split | dsimp only
      | apply Keeps.other | exact Or.inl (Kind.Sub.mem hs rfl) | exact Or.inr rfl

end Sys2Proof.Machine
end

