-- ==== Sys2Proof/Laws/KeepsUpdate.lean ====
section
/-! SUPPORT. The operations of Sys2Proof/Machine/Update.lean keep (see Sys2Proof/Laws/KeepsBase.lean). -/

namespace Sys2Proof.Machine

theorem State.haltFetch_keeps {ks : List Kind} {s₀ s : State} (hk : Keeps ks s₀ s) (hs : Kind.Sub [.regs, .events] ks)
    {ch : Nat} {a : Nat} {write : Bool} : Keeps ks s₀ (State.haltFetch s ch a write) := by
  unfold State.haltFetch
  try dsimp only
  repeat' with_reducible first
      | exact hk | exact Kind.Sub.mono rfl hs | apply Keeps.ite | apply State.setReg_keeps | apply State.raise_keeps
      | apply State.setChState_keeps | apply State.dattFault_keeps | assumption

theorem State.setUpd_keeps {ks : List Kind} {s₀ s : State} (hk : Keeps ks s₀ s) (hs : Kind.Sub [.regs, .sec] ks)
    {u : UpdState} : Keeps ks s₀ (State.setUpd s u) := by
  unfold State.setUpd
  try dsimp only
  repeat' with_reducible first
      | exact hk | exact Kind.Sub.mono rfl hs | apply State.put_keeps | assumption | apply Keeps.other
      | exact Or.inl (Kind.Sub.mem hs rfl) | exact Or.inr rfl

theorem State.setDeferred_keeps {ks : List Kind} {s₀ s : State} (hk : Keeps ks s₀ s) (hs : Kind.Sub [.regs] ks)
    {b : Bool} : Keeps ks s₀ (State.setDeferred s b) := by
  unfold State.setDeferred
  try dsimp only
  repeat' with_reducible first
      | exact hk | exact Kind.Sub.mono rfl hs | apply Keeps.ite | apply State.put_keeps | assumption

theorem State.eraseSlot_keeps {ks : List Kind} {s₀ s : State} (hk : Keeps ks s₀ s) (hs : Kind.Sub [.regs, .sec] ks)
     : Keeps ks s₀ (State.eraseSlot s) := by
  unfold State.eraseSlot
  try dsimp only
  repeat' with_reducible first
      | exact hk | exact Kind.Sub.mono rfl hs | apply State.flashErase_keeps | apply State.showSlotState_keeps | assumption

theorem State.beginStage_keeps {ks : List Kind} {s₀ s : State} (hk : Keeps ks s₀ s) (hs : Kind.Sub [.regs, .sec] ks)
     : Keeps ks s₀ (State.beginStage s) := by
  unfold State.beginStage
  try dsimp only
  repeat' with_reducible first
      | exact hk | exact Kind.Sub.mono rfl hs | apply State.slotAppend_keeps | apply State.setUpd_keeps | apply State.eraseSlot_keeps
      | assumption

theorem State.finishStage_keeps {ks : List Kind} {s₀ s : State} (hk : Keeps ks s₀ s) (hs : Kind.Sub [.regs, .events, .sec] ks)
     : Keeps ks s₀ (State.finishStage s).1 := by
  unfold State.finishStage
  try dsimp only
  repeat' with_reducible first
      | exact hk | exact Kind.Sub.mono rfl hs | apply State.raise_keeps | apply State.slotAppend_keeps | apply State.showExam_keeps
      | apply State.setUpd_keeps | apply State.eraseSlot_keeps | assumption | split | dsimp only | apply Keeps.other
      | exact Or.inl (Kind.Sub.mem hs rfl) | exact Or.inr rfl

theorem State.stageFrom_keeps {ks : List Kind} {s₀ s : State} (hk : Keeps ks s₀ s) (hs : Kind.Sub [.regs, .events, .sec] ks)
    {a : Nat} {n : Nat} : Keeps ks s₀ (State.stageFrom s a n).1 := by
  unfold State.stageFrom
  try dsimp only
  repeat' with_reducible first
      | exact hk | exact Kind.Sub.mono rfl hs | apply State.flashStore_keeps | apply State.finishStage_keeps | assumption
      | exact Keeps.ofFst (State.finishStage_keeps hk (Kind.Sub.mono rfl hs)) (by assumption) | split | dsimp only

theorem State.startActivation_keeps {ks : List Kind} {s₀ s : State} (hk : Keeps ks s₀ s) (hs : Kind.Sub [.regs, .sec] ks)
     : Keeps ks s₀ (State.startActivation s) := by
  unfold State.startActivation
  try dsimp only
  repeat' with_reducible first
      | exact hk | exact Kind.Sub.mono rfl hs | apply State.slotAppend_keeps | apply State.setUpd_keeps | apply State.setDeferred_keeps
      | assumption

theorem State.deferUpd_keeps {ks : List Kind} {s₀ s : State} (hk : Keeps ks s₀ s) (hs : Kind.Sub [.regs, .events] ks)
     : Keeps ks s₀ (State.deferUpd s) := by
  unfold State.deferUpd
  try dsimp only
  repeat' with_reducible first
      | exact hk | exact Kind.Sub.mono rfl hs | apply State.raise_keeps | apply State.setDeferred_keeps | assumption

theorem State.emergencyMoved_keeps {ks : List Kind} {s₀ s : State} (hk : Keeps ks s₀ s) (hs : Kind.Sub [.regs, .events, .sec] ks)
    {was : Bool} : Keeps ks s₀ (State.emergencyMoved s was) := by
  unfold State.emergencyMoved
  try dsimp only
  repeat' with_reducible first
      | exact hk | exact Kind.Sub.mono rfl hs | apply Keeps.ite | apply State.showPower_keeps | apply State.slotAppend_keeps
      | apply State.setUpd_keeps | apply State.deferUpd_keeps | assumption | apply Keeps.other | exact Or.inl (Kind.Sub.mem hs rfl)
      | exact Or.inr rfl

theorem State.activate_keeps {ks : List Kind} {s₀ s : State} (hk : Keeps ks s₀ s) (hs : Kind.Sub [.regs, .events, .sec] ks)
     : Keeps ks s₀ (State.activate s).1 := by
  unfold State.activate
  try dsimp only
  repeat' with_reducible first
      | exact hk | exact Kind.Sub.mono rfl hs | apply State.startActivation_keeps | apply State.deferUpd_keeps | assumption | split
      | dsimp only

theorem State.dropToken_keeps {ks : List Kind} {s₀ s : State} (hk : Keeps ks s₀ s) (hs : Kind.Sub [.mgmt] ks)
     : Keeps ks s₀ (State.dropToken s) := by
  unfold State.dropToken
  try dsimp only
  repeat' with_reducible first
      | exact hk | exact Kind.Sub.mono rfl hs | assumption | apply Keeps.other | exact Or.inl (Kind.Sub.mem hs rfl) | exact Or.inr rfl

theorem State.dropXfer_keeps {ks : List Kind} {s₀ s : State} (hk : Keeps ks s₀ s) (hs : Kind.Sub [.regs, .mgmt, .sec] ks)
     : Keeps ks s₀ (State.dropXfer s) := by
  unfold State.dropXfer
  try dsimp only
  repeat' with_reducible first
      | exact hk | exact Kind.Sub.mono rfl hs | apply Keeps.ite | apply State.setUpd_keeps | apply State.eraseSlot_keeps | assumption
      | split | apply Keeps.other | exact Or.inl (Kind.Sub.mem hs rfl) | exact Or.inr rfl

theorem State.newTranslator_keeps {ks : List Kind} {s₀ s : State} (hk : Keeps ks s₀ s) (hs : Kind.Sub [.regs, .free] ks)
     : Keeps ks s₀ (State.newTranslator s) := by
  unfold State.newTranslator
  try dsimp only
  repeat' with_reducible first
      | exact hk | exact Kind.Sub.mono rfl hs | apply State.setReg_keeps | apply State.takeFree_keeps | assumption

theorem State.rollback_keeps {ks : List Kind} {s₀ s : State} (hk : Keeps ks s₀ s) (hs : Kind.Sub [.regs, .events, .mgmt, .sec, .free] ks)
    {cause : Nat} : Keeps ks s₀ (State.rollback s cause) := by
  unfold State.rollback
  try dsimp only
  repeat' with_reducible first
      | exact hk | exact Kind.Sub.mono rfl hs | apply Keeps.ite | apply State.raise_keeps | apply State.slotAppend_keeps
      | apply State.setUpd_keeps | apply State.setDeferred_keeps | apply State.dropToken_keeps | apply State.dropXfer_keeps
      | apply State.newTranslator_keeps | assumption | apply Keeps.other | exact Or.inl (Kind.Sub.mem hs rfl) | exact Or.inr rfl

theorem State.writeHoff_keeps {ks : List Kind} {s₀ s : State} (hk : Keeps ks s₀ s) (hs : Kind.Sub [.regs, .mem, .ecc, .sec, .free] ks)
    {proc : Nat} : Keeps ks s₀ (State.writeHoff s proc) := by
  unfold State.writeHoff
  try dsimp only
  repeat' with_reducible first
      | exact hk | exact Kind.Sub.mono rfl hs | apply State.takeFree_keeps | apply State.store_keeps | assumption | apply Keeps.other
      | exact Or.inl (Kind.Sub.mem hs rfl) | exact Or.inr rfl

theorem State.enterTrial_keeps {ks : List Kind} {s₀ s : State} (hk : Keeps ks s₀ s) (hs : Kind.Sub [.regs, .events, .sec] ks)
     : Keeps ks s₀ (State.enterTrial s) := by
  unfold State.enterTrial
  try dsimp only
  repeat' with_reducible first
      | exact hk | exact Kind.Sub.mono rfl hs | apply State.raise_keeps | apply State.slotAppend_keeps | apply State.setUpd_keeps
      | assumption | apply Keeps.other | exact Or.inl (Kind.Sub.mem hs rfl) | exact Or.inr rfl

theorem State.commitTrial_keeps {ks : List Kind} {s₀ s : State} (hk : Keeps ks s₀ s) (hs : Kind.Sub [.regs, .mem, .ecc, .progs, .yards, .flags, .fabric, .strm, .events, .queue, .hyper, .sec] ks)
     : Keeps ks s₀ (State.commitTrial s) := by
  unfold State.commitTrial
  try dsimp only
  repeat' with_reducible first
      | exact hk | exact Kind.Sub.mono rfl hs | apply State.revoke_keeps | apply State.slotAppend_keeps | apply State.commitSlot_keeps
      | apply State.setUpd_keeps | assumption | apply Keeps.other | exact Or.inl (Kind.Sub.mem hs rfl) | exact Or.inr rfl

theorem State.cancelUpd_keeps {ks : List Kind} {s₀ s s₁ : State} (hk : Keeps ks s₀ s) (hs : Kind.Sub [.regs, .events, .mgmt, .sec, .free] ks) 
    (hx : State.cancelUpd s = some s₁) : Keeps ks s₀ s₁ := by
  unfold State.cancelUpd at hx
  split at hx
  · cases hx
    exact State.setDeferred_keeps (State.setUpd_keeps (State.eraseSlot_keeps hk (Kind.Sub.mono rfl hs)) (Kind.Sub.mono rfl hs)) (Kind.Sub.mono rfl hs)
  · cases hx; exact State.rollback_keeps hk (Kind.Sub.mono rfl hs)
  · cases hx

theorem State.updRespond_keeps {ks : List Kind} {s₀ s : State} (hk : Keeps ks s₀ s) (hs : Kind.Sub [.regs, .events] ks)
    {status : Nat} {code : Nat} {told : Bool} : Keeps ks s₀ (State.updRespond s status code told) := by
  unfold State.updRespond
  try dsimp only
  repeat' with_reducible first
      | exact hk | exact Kind.Sub.mono rfl hs | apply Keeps.ite | apply State.setReg_keeps | apply State.put_keeps
      | apply State.raise_keeps | assumption

theorem State.serveStage_keeps {ks : List Kind} {s₀ s : State} (hk : Keeps ks s₀ s) (hs : Kind.Sub [.regs, .events, .sec] ks)
     : Keeps ks s₀ (State.serveStage s) := by
  unfold State.serveStage
  try dsimp only
  repeat' with_reducible first
      | exact hk | exact Kind.Sub.mono rfl hs | apply Keeps.ite | apply State.haltFetch_keeps | apply State.setUpd_keeps
      | apply State.setDeferred_keeps | apply State.eraseSlot_keeps | apply State.beginStage_keeps | apply State.stageFrom_keeps
      | apply State.updRespond_keeps | assumption | exact Keeps.ofFst (State.stageFrom_keeps hk (Kind.Sub.mono rfl hs)) (by assumption)
      | split

theorem State.serveUpd_keeps {ks : List Kind} {s₀ s : State} (hk : Keeps ks s₀ s) (hs : Kind.Sub [.regs, .mem, .ecc, .progs, .yards, .flags, .fabric, .strm, .events, .queue, .hyper, .mgmt, .sec, .free] ks)
     : Keeps ks s₀ (State.serveUpd s) := by
  unfold State.serveUpd
  try dsimp only
  repeat' with_reducible first
      | exact hk | exact Kind.Sub.mono rfl hs | apply Keeps.ite | apply State.activate_keeps | apply State.commitTrial_keeps
      | exact State.cancelUpd_keeps (by assumption) (Kind.Sub.mono rfl hs) (by assumption) | apply State.updRespond_keeps
      | apply State.serveStage_keeps | assumption | exact Keeps.ofFst (State.activate_keeps hk (Kind.Sub.mono rfl hs)) (by assumption)
      | split

theorem State.updDoorbell_keeps {ks : List Kind} {s₀ s : State} (hk : Keeps ks s₀ s) (hs : Kind.Sub [.regs, .mem, .ecc, .progs, .yards, .flags, .fabric, .strm, .events, .queue, .hyper, .mgmt, .sec, .free] ks)
    {cmd : Nat} : Keeps ks s₀ (State.updDoorbell s cmd) := by
  unfold State.updDoorbell
  try dsimp only
  repeat' with_reducible first
      | exact hk | exact Kind.Sub.mono rfl hs | apply Keeps.ite | apply State.put_keeps | apply State.serveUpd_keeps | assumption
      | apply Keeps.other | exact Or.inl (Kind.Sub.mem hs rfl) | exact Or.inr rfl

theorem State.fuseDone_keeps {ks : List Kind} {s₀ s : State} (hk : Keeps ks s₀ s) (hs : Kind.Sub [.regs, .free] ks)
    {status : Nat} : Keeps ks s₀ (State.fuseDone s status) := by
  unfold State.fuseDone
  try dsimp only
  repeat' with_reducible first
      | exact hk | exact Kind.Sub.mono rfl hs | apply State.put_keeps | apply State.drawNonce_keeps | assumption

theorem State.fuseServe_keeps {ks : List Kind} {s₀ s : State} (hk : Keeps ks s₀ s) (hs : Kind.Sub [.regs, .mem, .ecc, .progs, .yards, .flags, .fabric, .strm, .events, .queue, .hyper, .sec] ks)
    {b : List Byte} : Keeps ks s₀ (State.fuseServe s b).1 := by
  unfold State.fuseServe
  try dsimp only
  repeat' with_reducible first
      | exact hk | exact Kind.Sub.mono rfl hs | apply State.revoke_keeps | apply State.showSec_keeps | apply State.burned_keeps
      | assumption | split | dsimp only | apply Keeps.other | exact Or.inl (Kind.Sub.mem hs rfl) | exact Or.inr rfl

theorem State.serveFuse_keeps {ks : List Kind} {s₀ s : State} (hk : Keeps ks s₀ s) (hs : Kind.Sub [.regs, .mem, .ecc, .progs, .yards, .flags, .fabric, .strm, .events, .queue, .hyper, .sec, .free] ks)
     : Keeps ks s₀ (State.serveFuse s) := by
  unfold State.serveFuse
  try dsimp only
  repeat' with_reducible first
      | exact hk | exact Kind.Sub.mono rfl hs | apply State.haltFetch_keeps | apply State.fuseDone_keeps | apply State.fuseServe_keeps
      | assumption | exact Keeps.ofFst (State.fuseServe_keeps hk (Kind.Sub.mono rfl hs)) (by assumption) | split

theorem State.attDone_keeps {ks : List Kind} {s₀ s : State} (hk : Keeps ks s₀ s) (hs : Kind.Sub [.regs] ks)
    {result : Nat} {len : Nat} : Keeps ks s₀ (State.attDone s result len) := by
  unfold State.attDone
  try dsimp only
  repeat' with_reducible first
      | exact hk | exact Kind.Sub.mono rfl hs | apply State.put_keeps | assumption

theorem State.serveAtt_keeps {ks : List Kind} {s₀ s : State} (hk : Keeps ks s₀ s) (hs : Kind.Sub [.regs, .mem, .ecc, .progs, .yards, .fabric, .events, .hyper, .sec, .power] ks)
     : Keeps ks s₀ (State.serveAtt s) := by
  unfold State.serveAtt
  try dsimp only
  repeat' with_reducible first
      | exact hk | exact Kind.Sub.mono rfl hs | apply Keeps.ite | apply State.looseWrite_keeps | apply State.daxa_keeps
      | apply State.haltFetch_keeps | apply State.attDone_keeps | assumption
      | exact Keeps.ofFst (State.daxa_keeps hk (Kind.Sub.mono rfl hs)) (by assumption) | split

theorem State.serveSp_keeps {ks : List Kind} {s₀ s : State} (hk : Keeps ks s₀ s) (hs : Kind.Sub [.regs, .mem, .ecc, .progs, .yards, .flags, .fabric, .strm, .events, .queue, .hyper, .mgmt, .sec, .power, .free] ks)
     : Keeps ks s₀ (State.serveSp s) := by
  unfold State.serveSp
  try dsimp only
  repeat' with_reducible first
      | exact hk | exact Kind.Sub.mono rfl hs | apply Keeps.ite | apply State.serveUpd_keeps | apply State.serveFuse_keeps
      | apply State.serveAtt_keeps | assumption

theorem execUpdStage_keeps {ks : List Kind} {s₀ s s₁ : State} (hk : Keeps ks s₀ s) (hs : Kind.Sub [.regs, .mem, .ecc, .progs, .yards, .flags, .fabric, .strm, .events, .queue, .hyper, .mgmt, .sec, .free] ks) 
    (hx : execUpdStage s = .next s₁) : Keeps ks s₀ s₁ := by
  unfold execUpdStage at hx
  injection hx with hx
  subst hx
  try dsimp only
  repeat' with_reducible first
      | exact hk | exact Kind.Sub.mono rfl hs | refine State.viaHost_keeps ?_ (Kind.Sub.mono rfl hs) (fun s hk => ?_)
      | apply State.updDoorbell_keeps | assumption

theorem execUpdActivate_keeps {ks : List Kind} {s₀ s s₁ : State} (hk : Keeps ks s₀ s) (hs : Kind.Sub [.regs, .mem, .ecc, .progs, .yards, .flags, .fabric, .strm, .events, .queue, .hyper, .mgmt, .sec, .free] ks) 
    (hx : execUpdActivate s = .next s₁) : Keeps ks s₀ s₁ := by
  unfold execUpdActivate at hx
  injection hx with hx
  subst hx
  try dsimp only
  repeat' with_reducible first
      | exact hk | exact Kind.Sub.mono rfl hs | refine State.viaHost_keeps ?_ (Kind.Sub.mono rfl hs) (fun s hk => ?_)
      | apply State.updDoorbell_keeps | assumption

theorem execActivationResume_keeps {ks : List Kind} {s₀ s s₁ : State} (hk : Keeps ks s₀ s) (hs : Kind.Sub [.regs, .sec] ks) 
    (hx : execActivationResume s = .next s₁) : Keeps ks s₀ s₁ := by
  unfold execActivationResume at hx
  injection hx with hx
  subst hx
  try dsimp only
  repeat' with_reducible first
      | exact hk | exact Kind.Sub.mono rfl hs | apply Keeps.ite | apply State.startActivation_keeps | assumption | split

theorem execActivationHandoff_keeps {ks : List Kind} {s₀ s s₁ : State} (hk : Keeps ks s₀ s) (hs : Kind.Sub [.regs, .mem, .ecc, .events, .mgmt, .sec, .free] ks) {accepted : Bool}
    (hx : execActivationHandoff accepted s = .next s₁) : Keeps ks s₀ s₁ := by
  unfold execActivationHandoff at hx
  injection hx with hx
  subst hx
  try dsimp only
  repeat' with_reducible first
      | exact hk | exact Kind.Sub.mono rfl hs | apply Keeps.ite | apply State.rollback_keeps | apply State.writeHoff_keeps | assumption
      | apply Keeps.other | exact Or.inl (Kind.Sub.mem hs rfl) | exact Or.inr rfl

theorem execComponentReplacement_keeps {ks : List Kind} {s₀ s s₁ : State} (hk : Keeps ks s₀ s) (hs : Kind.Sub [.regs, .mem, .ecc, .events, .mgmt, .sec, .free] ks) {proc : Nat} {accepted : Bool}
    (hx : execComponentReplacement proc accepted s = .next s₁) : Keeps ks s₀ s₁ := by
  unfold execComponentReplacement at hx
  injection hx with hx
  subst hx
  try dsimp only
  repeat' with_reducible first
      | exact hk | exact Kind.Sub.mono rfl hs | apply Keeps.ite | apply State.newTranslator_keeps | apply State.rollback_keeps
      | apply State.writeHoff_keeps | apply State.enterTrial_keeps | assumption | apply Keeps.other | exact Or.inl (Kind.Sub.mem hs rfl)
      | exact Or.inr rfl

theorem execUpdCommit_keeps {ks : List Kind} {s₀ s s₁ : State} (hk : Keeps ks s₀ s) (hs : Kind.Sub [.regs, .mem, .ecc, .progs, .yards, .flags, .fabric, .strm, .events, .queue, .hyper, .mgmt, .sec, .free] ks) 
    (hx : execUpdCommit s = .next s₁) : Keeps ks s₀ s₁ := by
  unfold execUpdCommit at hx
  injection hx with hx
  subst hx
  try dsimp only
  repeat' with_reducible first
      | exact hk | exact Kind.Sub.mono rfl hs | refine State.viaHost_keeps ?_ (Kind.Sub.mono rfl hs) (fun s hk => ?_)
      | apply State.updDoorbell_keeps | assumption

theorem execUpdCancel_keeps {ks : List Kind} {s₀ s s₁ : State} (hk : Keeps ks s₀ s) (hs : Kind.Sub [.regs, .mem, .ecc, .progs, .yards, .flags, .fabric, .strm, .events, .queue, .hyper, .mgmt, .sec, .free] ks) 
    (hx : execUpdCancel s = .next s₁) : Keeps ks s₀ s₁ := by
  unfold execUpdCancel at hx
  injection hx with hx
  subst hx
  try dsimp only
  repeat' with_reducible first
      | exact hk | exact Kind.Sub.mono rfl hs | refine State.viaHost_keeps ?_ (Kind.Sub.mono rfl hs) (fun s hk => ?_)
      | apply State.updDoorbell_keeps | assumption

theorem execTrialTimeout_keeps {ks : List Kind} {s₀ s s₁ : State} (hk : Keeps ks s₀ s) (hs : Kind.Sub [.regs, .events, .mgmt, .sec, .free] ks) 
    (hx : execTrialTimeout s = .next s₁) : Keeps ks s₀ s₁ := by
  unfold execTrialTimeout at hx
  injection hx with hx
  subst hx
  try dsimp only
  repeat' with_reducible first
      | exact hk | exact Kind.Sub.mono rfl hs | apply Keeps.ite | apply State.rollback_keeps | assumption

theorem execAttestRequest_keeps {ks : List Kind} {s₀ s s₁ : State} (hk : Keeps ks s₀ s) (hs : Kind.Sub [.regs, .mem, .ecc, .progs, .yards, .fabric, .events, .hyper, .sec, .power] ks) 
    (hx : execAttestRequest s = .next s₁) : Keeps ks s₀ s₁ := by
  unfold execAttestRequest at hx
  injection hx with hx
  subst hx
  try dsimp only
  repeat' with_reducible first
      | exact hk | exact Kind.Sub.mono rfl hs | apply Keeps.ite | apply State.put_keeps
      | refine State.viaHost_keeps ?_ (Kind.Sub.mono rfl hs) (fun s hk => ?_) | apply State.serveAtt_keeps | assumption

theorem execFuseRequest_keeps {ks : List Kind} {s₀ s s₁ : State} (hk : Keeps ks s₀ s) (hs : Kind.Sub [.regs, .mem, .ecc, .progs, .yards, .flags, .fabric, .strm, .events, .queue, .hyper, .sec, .free] ks) 
    (hx : execFuseRequest s = .next s₁) : Keeps ks s₀ s₁ := by
  unfold execFuseRequest at hx
  injection hx with hx
  subst hx
  try dsimp only
  repeat' with_reducible first
      | exact hk | exact Kind.Sub.mono rfl hs | apply Keeps.ite | apply State.put_keeps
      | refine State.viaHost_keeps ?_ (Kind.Sub.mono rfl hs) (fun s hk => ?_) | apply State.serveFuse_keeps | assumption

theorem execNonceNew_keeps {ks : List Kind} {s₀ s s₁ : State} (hk : Keeps ks s₀ s) (hs : Kind.Sub [.regs, .free] ks) 
    (hx : execNonceNew s = .next s₁) : Keeps ks s₀ s₁ := by
  unfold execNonceNew at hx
  injection hx with hx
  subst hx
  try dsimp only
  repeat' with_reducible first
      | exact hk | exact Kind.Sub.mono rfl hs | apply Keeps.ite | refine State.viaHost_keeps ?_ (Kind.Sub.mono rfl hs) (fun s hk => ?_)
      | apply State.drawNonce_keeps | assumption

end Sys2Proof.Machine
end

