-- ==== Sys2Proof/Laws/KeepsRigApply.lean ====
section
/-! SUPPORT. The operations of Sys2Proof/Machine/RigApply.lean keep (see Sys2Proof/Laws/KeepsBase.lean). -/

namespace Sys2Proof.Machine

theorem State.putSails_keeps {ks : List Kind} {s₀ s : State} (hk : Keeps ks s₀ s) (hs : Kind.Sub [.regs] ks)
    {rig : List Byte} : Keeps ks s₀ (State.putSails s rig) := by
  unfold State.putSails
  try dsimp only
  repeat' with_reducible first
      | exact hk | exact Kind.Sub.mono rfl hs | apply State.put_keeps | refine Keeps.foldl (fun s x hk => ?_) _ ?_ | assumption

theorem State.putXtree_keeps {ks : List Kind} {s₀ s : State} (hk : Keeps ks s₀ s) (hs : Kind.Sub [.regs, .fabric] ks)
    {rig : List Byte} : Keeps ks s₀ (State.putXtree s rig) := by
  unfold State.putXtree
  try dsimp only
  repeat' with_reducible first
      | exact hk | exact Kind.Sub.mono rfl hs | apply State.setReg_keeps | apply State.put_keeps | apply State.clearAll_keeps
      | refine Keeps.foldl (fun s x hk => ?_) _ ?_ | assumption | apply Keeps.other | exact Or.inl (Kind.Sub.mem hs rfl)
      | exact Or.inr rfl

theorem State.putHyper_keeps {ks : List Kind} {s₀ s : State} (hk : Keeps ks s₀ s) (hs : Kind.Sub [.regs] ks)
    {rig : List Byte} : Keeps ks s₀ (State.putHyper s rig) := by
  unfold State.putHyper
  try dsimp only
  repeat' with_reducible first
      | exact hk | exact Kind.Sub.mono rfl hs | apply State.setReg_keeps | apply State.put_keeps | apply State.clearAll_keeps
      | refine Keeps.foldl (fun s x hk => ?_) _ ?_ | assumption

theorem State.putWindow_keeps {ks : List Kind} {s₀ s : State} (hk : Keeps ks s₀ s) (hs : Kind.Sub [.regs, .fabric] ks)
    {rig : List Byte} {i : Nat} {n : Nat} : Keeps ks s₀ (State.putWindow s rig i n) := by
  unfold State.putWindow
  try dsimp only
  repeat' with_reducible first
      | exact hk | exact Kind.Sub.mono rfl hs | apply State.setReg_keeps | apply State.setWin_keeps | assumption

theorem State.putWindows_keeps {ks : List Kind} {s₀ s : State} (hk : Keeps ks s₀ s) (hs : Kind.Sub [.regs, .fabric] ks)
    {rig : List Byte} : Keeps ks s₀ (State.putWindows s rig) := by
  unfold State.putWindows
  try dsimp only
  repeat' with_reducible first
      | exact hk | exact Kind.Sub.mono rfl hs | apply State.putWindow_keeps | refine Keeps.foldl (fun s x hk => ?_) _ ?_ | assumption

theorem State.putFsync_keeps {ks : List Kind} {s₀ s : State} (hk : Keeps ks s₀ s) (hs : Kind.Sub [.regs] ks)
    {rig : List Byte} : Keeps ks s₀ (State.putFsync s rig) := by
  unfold State.putFsync
  try dsimp only
  repeat' with_reducible first
      | exact hk | exact Kind.Sub.mono rfl hs | apply State.setReg_keeps | refine Keeps.foldl (fun s x hk => ?_) _ ?_ | assumption

theorem State.tickSection_keeps {ks : List Kind} {s₀ s : State} (hk : Keeps ks s₀ s) (hs : Kind.Sub [.regs, .tick] ks)
    {rig : List Byte} : Keeps ks s₀ (State.tickSection s rig) := by
  unfold State.tickSection
  try dsimp only
  repeat' with_reducible first
      | exact hk | exact Kind.Sub.mono rfl hs | apply Keeps.ite | apply State.putTick_keeps | assumption | apply Keeps.other
      | exact Or.inl (Kind.Sub.mem hs rfl) | exact Or.inr rfl

theorem State.driveVsel_keeps {ks : List Kind} {s₀ s : State} (hk : Keeps ks s₀ s) (hs : Kind.Sub [.power] ks)
    {rig : List Byte} : Keeps ks s₀ (State.driveVsel s rig) := by
  unfold State.driveVsel
  try dsimp only
  repeat' with_reducible first
      | exact hk | exact Kind.Sub.mono rfl hs | apply Keeps.ite | assumption | apply Keeps.other | exact Or.inl (Kind.Sub.mem hs rfl)
      | exact Or.inr rfl

theorem State.raisePoint_keeps {ks : List Kind} {s₀ s : State} (hk : Keeps ks s₀ s) (hs : Kind.Sub [.power] ks)
    {rig : List Byte} : Keeps ks s₀ (State.raisePoint s rig) := by
  unfold State.raisePoint
  try dsimp only
  repeat' with_reducible first
      | exact hk | exact Kind.Sub.mono rfl hs | apply Keeps.ite | apply State.driveVsel_keeps | assumption

theorem State.putPoint_keeps {ks : List Kind} {s₀ s : State} (hk : Keeps ks s₀ s) (hs : Kind.Sub [.regs, .power] ks)
    {rig : List Byte} : Keeps ks s₀ (State.putPoint s rig) := by
  unfold State.putPoint
  try dsimp only
  repeat' with_reducible first
      | exact hk | exact Kind.Sub.mono rfl hs | apply State.put_keeps | apply State.driveVsel_keeps | assumption

theorem State.putBalls_keeps {ks : List Kind} {s₀ s : State} (hk : Keeps ks s₀ s) (hs : Kind.Sub [.regs, .gpio] ks)
    {rig : List Byte} : Keeps ks s₀ (State.putBalls s rig) := by
  unfold State.putBalls
  try dsimp only
  repeat' with_reducible first
      | exact hk | exact Kind.Sub.mono rfl hs | apply State.put_keeps | apply State.ballToDefault_keeps
      | refine Keeps.foldl (fun s x hk => ?_) _ ?_ | assumption

theorem State.putMedia_keeps {ks : List Kind} {s₀ s : State} (hk : Keeps ks s₀ s) (hs : Kind.Sub [.regs] ks)
    {rig : List Byte} : Keeps ks s₀ (State.putMedia s rig) := by
  unfold State.putMedia
  try dsimp only
  repeat' with_reducible first
      | exact hk | exact Kind.Sub.mono rfl hs | apply State.setReg_keeps | apply State.put_keeps
      | refine Keeps.foldl (fun s x hk => ?_) _ ?_ | refine Keeps.foldlFst (fun q x hk => ?_) _ ?_ | assumption | split
      | apply Keeps.other | exact Or.inl (Kind.Sub.mem hs rfl) | exact Or.inr rfl

theorem State.putLines_keeps {ks : List Kind} {s₀ s : State} (hk : Keeps ks s₀ s) (hs : Kind.Sub [.regs, .mem, .ecc, .strm, .events, .queue] ks)
    {rig : List Byte} : Keeps ks s₀ (State.putLines s rig) := by
  unfold State.putLines
  try dsimp only
  repeat' with_reducible first
      | exact hk | exact Kind.Sub.mono rfl hs | apply Keeps.ite | apply State.setReg_keeps | apply State.put_keeps
      | apply State.store_keeps | apply State.abortDesc_keeps | refine Keeps.foldl (fun s x hk => ?_) _ ?_ | assumption | split

theorem State.putChannels_keeps {ks : List Kind} {s₀ s : State} (hk : Keeps ks s₀ s) (hs : Kind.Sub [.regs, .mem, .ecc, .progs, .strm, .events, .queue, .hyper, .power, .free] ks)
    {old : Nat} {rig : List Byte} : Keeps ks s₀ (State.putChannels s old rig) := by
  unfold State.putChannels
  try dsimp only
  repeat' with_reducible first
      | exact hk | exact Kind.Sub.mono rfl hs | apply Keeps.ite | apply State.put_keeps | apply State.hrTrain_keeps
      | refine Keeps.foldl (fun s x hk => ?_) _ ?_ | assumption

theorem State.putListen_keeps {ks : List Kind} {s₀ s : State} (hk : Keeps ks s₀ s) (hs : Kind.Sub [.regs, .mem, .ecc, .progs, .strm, .events, .queue, .hyper, .power, .free] ks)
    {rig : List Byte} : Keeps ks s₀ (State.putListen s rig) := by
  unfold State.putListen
  try dsimp only
  repeat' with_reducible first
      | exact hk | exact Kind.Sub.mono rfl hs | apply Keeps.ite | apply State.put_keeps | apply State.raise_keeps
      | apply State.hrSleep_keeps | apply State.hrWake_keeps | assumption

theorem State.showStore_keeps {ks : List Kind} {s₀ s : State} (hk : Keeps ks s₀ s) (hs : Kind.Sub [.regs] ks)
     : Keeps ks s₀ (State.showStore s) := by
  unfold State.showStore
  try dsimp only
  repeat' with_reducible first
      | exact hk | exact Kind.Sub.mono rfl hs | apply Keeps.ite | apply State.setReg_keeps | apply State.put_keeps
      | refine Keeps.foldl (fun s x hk => ?_) _ ?_ | assumption

theorem State.backup_keeps {ks : List Kind} {s₀ s : State} (hk : Keeps ks s₀ s) (hs : Kind.Sub [.sec] ks)
    {rig : List Byte} : Keeps ks s₀ (State.backup s rig) := by
  unfold State.backup
  try dsimp only
  repeat' with_reducible first
      | exact hk | exact Kind.Sub.mono rfl hs | apply State.flashStore_keeps | apply State.flashErase_keeps | assumption

theorem State.putRig_keeps {ks : List Kind} {s₀ s : State} (hk : Keeps ks s₀ s) (hs : Kind.Sub [.regs, .mem, .ecc, .tick, .progs, .yards, .fabric, .strm, .events, .queue, .media, .gpio, .hyper, .power, .free] ks)
    {rig : List Byte} : Keeps ks s₀ (State.putRig s rig) := by
  unfold State.putRig
  try dsimp only
  repeat' with_reducible first
      | exact hk | exact Kind.Sub.mono rfl hs | apply State.applyDoms_keeps | apply State.endShed_keeps | apply State.putSails_keeps
      | apply State.putXtree_keeps | apply State.putHyper_keeps | apply State.putWindows_keeps | apply State.putFsync_keeps
      | apply State.tickSection_keeps | apply State.putPoint_keeps | apply State.putBalls_keeps | apply State.putMedia_keeps
      | apply State.putLines_keeps | apply State.putChannels_keeps | apply State.putListen_keeps | apply State.showStore_keeps
      | assumption | apply Keeps.other | exact Or.inl (Kind.Sub.mem hs rfl) | exact Or.inr rfl

theorem State.swapRig_keeps {ks : List Kind} {s₀ s : State} (hk : Keeps ks s₀ s) (hs : Kind.Sub [.regs, .rig] ks)
    {cur : List Byte} {prev : List Byte} : Keeps ks s₀ (State.swapRig s cur prev) := by
  unfold State.swapRig
  try dsimp only
  repeat' with_reducible first
      | exact hk | exact Kind.Sub.mono rfl hs | apply State.put_keeps | assumption | apply Keeps.other
      | exact Or.inl (Kind.Sub.mem hs rfl) | exact Or.inr rfl

theorem State.applyRig_keeps {ks : List Kind} {s₀ s : State} (hk : Keeps ks s₀ s) (hs : Kind.Sub [.regs, .mem, .ecc, .tick, .progs, .yards, .fabric, .strm, .rig, .events, .queue, .media, .gpio, .hyper, .sec, .power, .free] ks)
    {rig : List Byte} : Keeps ks s₀ (State.applyRig s rig) := by
  unfold State.applyRig
  try dsimp only
  repeat' with_reducible first
      | exact hk | exact Kind.Sub.mono rfl hs | apply State.putRig_keeps | apply State.swapRig_keeps | assumption | apply Keeps.other
      | exact Or.inl (Kind.Sub.mem hs rfl) | exact Or.inr rfl

theorem State.revertRig_keeps {ks : List Kind} {s₀ s : State} (hk : Keeps ks s₀ s) (hs : Kind.Sub [.regs, .mem, .ecc, .tick, .progs, .yards, .flags, .fabric, .strm, .rig, .events, .queue, .media, .gpio, .hyper, .power, .free] ks)
     : Keeps ks s₀ (State.revertRig s) := by
  unfold State.revertRig
  try dsimp only
  repeat' with_reducible first
      | exact hk | exact Kind.Sub.mono rfl hs | apply State.revoke_keeps | apply State.putRig_keeps | apply State.swapRig_keeps
      | assumption

theorem State.afterRig_keeps {ks : List Kind} {s₀ s : State} (hk : Keeps ks s₀ s) (hs : Kind.Sub [.regs, .tick, .events] ks)
     : Keeps ks s₀ (State.afterRig s) := by
  unfold State.afterRig
  try dsimp only
  repeat' with_reducible first
      | exact hk | exact Kind.Sub.mono rfl hs | apply Keeps.ite | apply State.setRun_keeps | assumption

end Sys2Proof.Machine
end

