-- ==== Sys2Proof/Laws/KeepsAdmission.lean ====
section
/-! SUPPORT. The operations of Sys2Proof/Machine/Admission.lean keep (see Sys2Proof/Laws/KeepsBase.lean). -/

namespace Sys2Proof.Machine

theorem State.viaMbox_keeps {ks : List Kind} {s₀ s : State} (hk : Keeps ks s₀ s) (hs : Kind.Sub [.regs] ks)
    {n : Nat} {f : State → State} (hf : ∀ s, Keeps ks s₀ s → Keeps ks s₀ (f s)) : Keeps ks s₀ (State.viaMbox s n f) := by
  unfold State.viaMbox
  try dsimp only
  repeat' with_reducible first
      | exact hk | exact Kind.Sub.mono rfl hs | apply hf | apply Keeps.ite
      | refine State.viaHost_keeps ?_ (Kind.Sub.mono rfl hs) (fun s hk => ?_) | assumption

theorem State.slipped_keeps {ks : List Kind} {s₀ s : State} (hk : Keeps ks s₀ s) (hs : Kind.Sub [.regs, .events] ks)
    {h : Nat} {first : Nat} : Keeps ks s₀ (State.slipped s h first) := by
  unfold State.slipped
  try dsimp only
  repeat' with_reducible first
      | exact hk | exact Kind.Sub.mono rfl hs | apply State.raise_keeps | assumption

theorem State.acceptLaunch_keeps {ks : List Kind} {s₀ s : State} (hk : Keeps ks s₀ s) (hs : Kind.Sub [.regs, .events, .queue] ks)
    {n : Nat} : Keeps ks s₀ (State.acceptLaunch s n) := by
  unfold State.acceptLaunch
  try dsimp only
  repeat' with_reducible first
      | exact hk | exact Kind.Sub.mono rfl hs | apply Keeps.ite | apply State.respond_keeps | apply State.slipped_keeps | assumption
      | split | apply Keeps.other | exact Or.inl (Kind.Sub.mem hs rfl) | exact Or.inr rfl

theorem State.armLaunch_keeps {ks : List Kind} {s₀ s : State} (hk : Keeps ks s₀ s) (hs : Kind.Sub [.regs, .events, .queue] ks)
    {l : LaunchReq} {t : Nat} : Keeps ks s₀ (State.armLaunch s l t) := by
  unfold State.armLaunch
  try dsimp only
  repeat' with_reducible first
      | exact hk | exact Kind.Sub.mono rfl hs | apply Keeps.ite | apply State.setReg_keeps | apply State.put_keeps
      | apply State.respond_keeps | apply State.showStruck_keeps | apply State.slipped_keeps | refine Keeps.foldl (fun s x hk => ?_) _ ?_
      | assumption | split | apply Keeps.other | exact Or.inl (Kind.Sub.mem hs rfl) | exact Or.inr rfl

theorem State.fetchImage_keeps {ks : List Kind} {s₀ s s₁ : State} (hk : Keeps ks s₀ s) (hs : Kind.Sub [.regs, .events] ks) {n : Nat} {ch : Nat}
    (hx : State.fetchImage s n ch = .waits s₁) : Keeps ks s₀ s₁ := by
  unfold State.fetchImage at hx
  dsimp only at hx
  split at hx
  · split at hx <;> cases hx
  · split at hx
    · cases hx; exact hk
    · split at hx
      · cases hx; exact State.haltFetch_keeps hk (Kind.Sub.mono rfl hs)
      · cases hx
      · split at hx <;> cases hx

theorem State.refuseLoad_keeps {ks : List Kind} {s₀ s : State} (hk : Keeps ks s₀ s) (hs : Kind.Sub [.regs, .events] ks)
    {n : Nat} {r : Resp} : Keeps ks s₀ (State.refuseLoad s n r) := by
  unfold State.refuseLoad
  try dsimp only
  repeat' with_reducible first
      | exact hk | exact Kind.Sub.mono rfl hs | apply State.raise_keeps | apply State.respond_keeps | assumption

theorem State.awaitDomains_keeps {ks : List Kind} {s₀ s : State} (hk : Keeps ks s₀ s) (hs : Kind.Sub [.regs, .tick, .rig, .events] ks)
    {old : State} {n : Nat} : Keeps ks s₀ (State.awaitDomains s old n) := by
  unfold State.awaitDomains
  try dsimp only
  repeat' with_reducible first
      | exact hk | exact Kind.Sub.mono rfl hs | apply State.afterRig_keeps | assumption | apply Keeps.other
      | exact Or.inl (Kind.Sub.mem hs rfl) | exact Or.inr rfl

theorem State.finishRig_keeps {ks : List Kind} {s₀ s : State} (hk : Keeps ks s₀ s) (hs : Kind.Sub [.regs, .mem, .ecc, .tick, .progs, .yards, .fabric, .strm, .rig, .events, .queue, .media, .gpio, .hyper, .sec, .power, .free] ks)
    {n : Nat} {img : List Byte} : Keeps ks s₀ (State.finishRig s n img) := by
  unfold State.finishRig
  try dsimp only
  repeat' with_reducible first
      | exact hk | exact Kind.Sub.mono rfl hs | apply Keeps.ite | apply State.raise_keeps | apply State.backup_keeps
      | apply State.applyRig_keeps | apply State.awaitDomains_keeps | assumption

theorem State.finishRevert_keeps {ks : List Kind} {s₀ s : State} (hk : Keeps ks s₀ s) (hs : Kind.Sub [.regs, .mem, .ecc, .tick, .progs, .yards, .flags, .fabric, .strm, .rig, .events, .queue, .media, .gpio, .hyper, .sec, .power, .free] ks)
    {n : Nat} {persist : Bool} : Keeps ks s₀ (State.finishRevert s n persist) := by
  unfold State.finishRevert
  try dsimp only
  repeat' with_reducible first
      | exact hk | exact Kind.Sub.mono rfl hs | apply Keeps.ite | apply State.raise_keeps | apply State.backup_keeps
      | apply State.revertRig_keeps | apply State.awaitDomains_keeps | assumption

theorem State.rigSettled_keeps {ks : List Kind} {s₀ s : State} (hk : Keeps ks s₀ s) (hs : Kind.Sub [.regs, .rig, .events] ks)
     : Keeps ks s₀ (State.rigSettled s).1 := by
  unfold State.rigSettled
  try dsimp only
  repeat' with_reducible first
      | exact hk | exact Kind.Sub.mono rfl hs | apply State.respond_keeps | assumption | split | split | dsimp only | apply Keeps.other
      | exact Or.inl (Kind.Sub.mem hs rfl) | exact Or.inr rfl

theorem State.serveRig_keeps {ks : List Kind} {s₀ s : State} (hk : Keeps ks s₀ s) (hs : Kind.Sub [.regs, .mem, .ecc, .tick, .progs, .yards, .fabric, .strm, .rig, .events, .queue, .media, .gpio, .hyper, .sec, .power, .free] ks)
    {n : Nat} : Keeps ks s₀ (State.serveRig s n).1 := by
  unfold State.serveRig
  try dsimp only
  repeat' with_reducible first
      | exact hk | exact Kind.Sub.mono rfl hs | apply State.put_keeps | apply State.raisePoint_keeps
      | exact State.fetchImage_keeps (by assumption) (Kind.Sub.mono rfl hs) (by assumption) | apply State.refuseLoad_keeps
      | apply State.finishRig_keeps | apply State.rigSettled_keeps | assumption
      | exact Keeps.ofFst (State.rigSettled_keeps hk (Kind.Sub.mono rfl hs)) (by assumption) | split | split | dsimp only
      | apply Keeps.other | exact Or.inl (Kind.Sub.mem hs rfl) | exact Or.inr rfl

theorem State.serveRevert_keeps {ks : List Kind} {s₀ s : State} (hk : Keeps ks s₀ s) (hs : Kind.Sub [.regs, .mem, .ecc, .tick, .progs, .yards, .flags, .fabric, .strm, .rig, .events, .queue, .media, .gpio, .hyper, .sec, .power, .free] ks)
    {n : Nat} : Keeps ks s₀ (State.serveRevert s n).1 := by
  unfold State.serveRevert
  try dsimp only
  repeat' with_reducible first
      | exact hk | exact Kind.Sub.mono rfl hs | apply State.put_keeps | apply State.respond_keeps | apply State.raisePoint_keeps
      | apply State.finishRevert_keeps | apply State.rigSettled_keeps | assumption
      | exact Keeps.ofFst (State.rigSettled_keeps hk (Kind.Sub.mono rfl hs)) (by assumption) | split | dsimp only | apply Keeps.other
      | exact Or.inl (Kind.Sub.mem hs rfl) | exact Or.inr rfl

theorem State.writeReport_keeps {ks : List Kind} {s₀ s : State} (hk : Keeps ks s₀ s) (hs : Kind.Sub [.regs, .mem, .ecc, .progs, .yards, .fabric, .events, .hyper, .power] ks)
    {n : Nat} {c : Container} {pl : Placement} {h : Nat} {gcnt : Nat} : Keeps ks s₀ (State.writeReport s n c pl h gcnt) := by
  unfold State.writeReport
  try dsimp only
  repeat' with_reducible first
      | exact hk | exact Kind.Sub.mono rfl hs | apply Keeps.ite | apply State.looseWrite_keeps | assumption

theorem State.fillTensor_keeps {ks : List Kind} {s₀ s : State} (hk : Keeps ks s₀ s) (hs : Kind.Sub [.regs, .mem, .ecc] ks)
    {t : Tensor} {pl : TensorPlace} {store : List Byte} : Keeps ks s₀ (State.fillTensor s t pl store) := by
  unfold State.fillTensor
  try dsimp only
  repeat' with_reducible first
      | exact hk | exact Kind.Sub.mono rfl hs | apply State.store_keeps | refine Keeps.foldl (fun s x hk => ?_) _ ?_ | assumption

theorem State.fillTensors_keeps {ks : List Kind} {s₀ s : State} (hk : Keeps ks s₀ s) (hs : Kind.Sub [.regs, .mem, .ecc] ks)
    {c : Container} {pl : Placement} : Keeps ks s₀ (State.fillTensors s c pl) := by
  unfold State.fillTensors
  try dsimp only
  repeat' with_reducible first
      | exact hk | exact Kind.Sub.mono rfl hs | apply Keeps.ite | apply State.fillTensor_keeps
      | refine Keeps.foldl (fun s x hk => ?_) _ ?_ | assumption

theorem State.fillSource_keeps {ks : List Kind} {s₀ s : State} (hk : Keeps ks s₀ s) (hs : Kind.Sub [.regs, .free] ks)
    {t : Tensor} {pl : TensorPlace} {prov : Bool} : Keeps ks s₀ (State.fillSource s t pl prov) := by
  unfold State.fillSource
  try dsimp only
  repeat' with_reducible first
      | exact hk | exact Kind.Sub.mono rfl hs | apply State.setReg_keeps | apply State.put_keeps | apply State.takeFree_keeps
      | assumption

theorem State.fillSources_keeps {ks : List Kind} {s₀ s : State} (hk : Keeps ks s₀ s) (hs : Kind.Sub [.regs, .free] ks)
    {c : Container} {pl : Placement} {prov : Bool} : Keeps ks s₀ (State.fillSources s c pl prov) := by
  unfold State.fillSources
  try dsimp only
  repeat' with_reducible first
      | exact hk | exact Kind.Sub.mono rfl hs | apply Keeps.ite | apply State.fillSource_keeps
      | refine Keeps.foldl (fun s x hk => ?_) _ ?_ | assumption

theorem State.fillContexts_keeps {ks : List Kind} {s₀ s : State} (hk : Keeps ks s₀ s) (hs : Kind.Sub [.regs] ks)
    {pl : Placement} : Keeps ks s₀ (State.fillContexts s pl) := by
  unfold State.fillContexts
  try dsimp only
  repeat' with_reducible first
      | exact hk | exact Kind.Sub.mono rfl hs | apply State.setReg_keeps | apply State.put_keeps
      | refine Keeps.foldl (fun s x hk => ?_) _ ?_ | assumption

theorem State.fillTables_keeps {ks : List Kind} {s₀ s : State} (hk : Keeps ks s₀ s) (hs : Kind.Sub [.regs] ks)
    {c : Container} {pl : Placement} : Keeps ks s₀ (State.fillTables s c pl) := by
  unfold State.fillTables
  try dsimp only
  repeat' with_reducible first
      | exact hk | exact Kind.Sub.mono rfl hs | apply Keeps.ite | apply State.setReg_keeps | refine Keeps.foldl (fun s x hk => ?_) _ ?_
      | assumption

theorem State.fillFlags_keeps {ks : List Kind} {s₀ s : State} (hk : Keeps ks s₀ s) (hs : Kind.Sub [.regs] ks)
    {c : Container} {pl : Placement} : Keeps ks s₀ (State.fillFlags s c pl) := by
  unfold State.fillFlags
  try dsimp only
  repeat' with_reducible first
      | exact hk | exact Kind.Sub.mono rfl hs | apply State.put_keeps | refine Keeps.foldl (fun s x hk => ?_) _ ?_ | assumption

theorem State.fillAdm_keeps {ks : List Kind} {s₀ s : State} (hk : Keeps ks s₀ s) (hs : Kind.Sub [.regs] ks)
    {p : Nat} {h : Nat} {c : Container} {pl : Placement} : Keeps ks s₀ (State.fillAdm s p h c pl) := by
  unfold State.fillAdm
  try dsimp only
  repeat' with_reducible first
      | exact hk | exact Kind.Sub.mono rfl hs | apply State.setReg_keeps | apply State.put_keeps
      | refine Keeps.foldl (fun s x hk => ?_) _ ?_ | assumption

theorem State.admitProg_keeps {ks : List Kind} {s₀ s : State} (hk : Keeps ks s₀ s) (hs : Kind.Sub [.regs, .mem, .ecc, .progs, .serials, .events, .free] ks)
    {n : Nat} {p : Nat} {c : Container} {pl : Placement} : Keeps ks s₀ (State.admitProg s n p c pl) := by
  unfold State.admitProg
  try dsimp only
  repeat' with_reducible first
      | exact hk | exact Kind.Sub.mono rfl hs | apply State.raise_keeps | apply State.setProg_keeps | apply State.fillTensors_keeps
      | apply State.fillSources_keeps | apply State.fillContexts_keeps | apply State.fillTables_keeps | apply State.fillFlags_keeps
      | apply State.fillAdm_keeps | assumption | apply Keeps.other | exact Or.inl (Kind.Sub.mem hs rfl) | exact Or.inr rfl

theorem State.loadProg_keeps {ks : List Kind} {s₀ s : State} (hk : Keeps ks s₀ s) (hs : Kind.Sub [.regs, .mem, .ecc, .progs, .serials, .yards, .fabric, .events, .hyper, .power, .free] ks)
    {n : Nat} {img : List Byte} : Keeps ks s₀ (State.loadProg s n img).1 := by
  unfold State.loadProg
  try dsimp only
  repeat' with_reducible first
      | exact hk | exact Kind.Sub.mono rfl hs | apply State.respond_keeps | apply State.refuseLoad_keeps | apply State.writeReport_keeps
      | apply State.admitProg_keeps | assumption | split | split | dsimp only

theorem State.serveProg_keeps {ks : List Kind} {s₀ s : State} (hk : Keeps ks s₀ s) (hs : Kind.Sub [.regs, .mem, .ecc, .progs, .serials, .yards, .fabric, .events, .hyper, .power, .free] ks)
    {n : Nat} : Keeps ks s₀ (State.serveProg s n).1 := by
  unfold State.serveProg
  try dsimp only
  repeat' with_reducible first
      | exact hk | exact Kind.Sub.mono rfl hs | exact State.fetchImage_keeps (by assumption) (Kind.Sub.mono rfl hs) (by assumption)
      | apply State.refuseLoad_keeps | apply State.loadProg_keeps | assumption
      | exact Keeps.ofFst (State.loadProg_keeps hk (Kind.Sub.mono rfl hs)) (by assumption) | split | split | dsimp only

theorem State.serveUnload_keeps {ks : List Kind} {s₀ s : State} (hk : Keeps ks s₀ s) (hs : Kind.Sub [.regs, .events] ks)
    {n : Nat} : Keeps ks s₀ (State.serveUnload s n).1 := by
  unfold State.serveUnload
  try dsimp only
  repeat' with_reducible first
      | exact hk | exact Kind.Sub.mono rfl hs | apply State.respond_keeps | assumption | split | split | dsimp only

theorem State.serveHead_keeps {ks : List Kind} {s₀ s : State} (hk : Keeps ks s₀ s) (hs : Kind.Sub [.regs, .mem, .ecc, .tick, .progs, .serials, .yards, .flags, .fabric, .strm, .rig, .events, .queue, .media, .gpio, .hyper, .sec, .power, .free] ks)
    {n : Nat} : Keeps ks s₀ (State.serveHead s n).1 := by
  unfold State.serveHead
  try dsimp only
  repeat' with_reducible first
      | exact hk | exact Kind.Sub.mono rfl hs | apply State.rigSettled_keeps | apply State.serveRig_keeps | apply State.serveRevert_keeps
      | apply State.serveProg_keeps | apply State.serveUnload_keeps | assumption
      | exact Keeps.ofFst (State.rigSettled_keeps hk (Kind.Sub.mono rfl hs)) (by assumption)
      | exact Keeps.ofFst (State.serveRig_keeps hk (Kind.Sub.mono rfl hs)) (by assumption)
      | exact Keeps.ofFst (State.serveRevert_keeps hk (Kind.Sub.mono rfl hs)) (by assumption)
      | exact Keeps.ofFst (State.serveProg_keeps hk (Kind.Sub.mono rfl hs)) (by assumption)
      | exact Keeps.ofFst (State.serveUnload_keeps hk (Kind.Sub.mono rfl hs)) (by assumption) | split | split | dsimp only

theorem State.serveFuel_keeps {ks : List Kind} {s₀ s : State} (hk : Keeps ks s₀ s) (hs : Kind.Sub [.regs, .mem, .ecc, .tick, .progs, .serials, .yards, .flags, .fabric, .strm, .rig, .events, .queue, .media, .gpio, .hyper, .sec, .power, .free] ks)
    {k : Nat} : Keeps ks s₀ (State.serveFuel  k s) := by
  induction k generalizing s with
  | zero => exact hk
  | succ k ih =>
    unfold State.serveFuel
    try dsimp only
    repeat' with_reducible first | exact hk | apply Keeps.ite | apply ih | exact hk | exact Kind.Sub.mono rfl hs | apply Keeps.ite | apply State.put_keeps | apply State.serveHead_keeps | assumption | exact Keeps.ofFst (State.serveHead_keeps hk (Kind.Sub.mono rfl hs)) (by assumption) | split | apply Keeps.other | exact Or.inl (Kind.Sub.mem hs rfl) | exact Or.inr rfl

theorem State.serveAll_keeps {ks : List Kind} {s₀ s : State} (hk : Keeps ks s₀ s) (hs : Kind.Sub [.regs, .mem, .ecc, .tick, .progs, .serials, .yards, .flags, .fabric, .strm, .rig, .events, .queue, .media, .gpio, .hyper, .sec, .power, .free] ks)
     : Keeps ks s₀ (State.serveAll s) := by
  unfold State.serveAll
  try dsimp only
  repeat' with_reducible first
      | exact hk | exact Kind.Sub.mono rfl hs | apply State.serveFuel_keeps | assumption

theorem State.nextLoad_keeps {ks : List Kind} {s₀ s : State} (hk : Keeps ks s₀ s) (hs : Kind.Sub [.regs, .mem, .ecc, .tick, .progs, .serials, .yards, .flags, .fabric, .strm, .rig, .events, .queue, .media, .gpio, .hyper, .sec, .power, .free] ks)
     : Keeps ks s₀ (State.nextLoad s) := by
  unfold State.nextLoad
  try dsimp only
  repeat' with_reducible first
      | exact hk | exact Kind.Sub.mono rfl hs | apply State.serveAll_keeps | assumption | apply Keeps.other
      | exact Or.inl (Kind.Sub.mem hs rfl) | exact Or.inr rfl

theorem State.joinLoads_keeps {ks : List Kind} {s₀ s : State} (hk : Keeps ks s₀ s) (hs : Kind.Sub [.rig] ks)
    {n : Nat} : Keeps ks s₀ (State.joinLoads s n) := by
  unfold State.joinLoads
  try dsimp only
  repeat' with_reducible first
      | exact hk | exact Kind.Sub.mono rfl hs | assumption | apply Keeps.other | exact Or.inl (Kind.Sub.mem hs rfl) | exact Or.inr rfl

theorem State.removeProg_keeps {ks : List Kind} {s₀ s : State} (hk : Keeps ks s₀ s) (hs : Kind.Sub [.regs, .mem, .ecc, .tick, .progs, .serials, .yards, .flags, .fabric, .strm, .rig, .events, .queue, .media, .gpio, .hyper, .sec, .power, .free] ks)
    {p : Nat} : Keeps ks s₀ (State.removeProg s p) := by
  unfold State.removeProg
  try dsimp only
  repeat' with_reducible first
      | exact hk | exact Kind.Sub.mono rfl hs | apply State.leave_keeps | apply State.serveAll_keeps | assumption | split

theorem State.acceptUnload_keeps {ks : List Kind} {s₀ s : State} (hk : Keeps ks s₀ s) (hs : Kind.Sub [.regs, .mem, .ecc, .tick, .progs, .serials, .yards, .flags, .fabric, .strm, .rig, .events, .queue, .media, .gpio, .hyper, .sec, .power, .free] ks)
    {n : Nat} : Keeps ks s₀ (State.acceptUnload s n) := by
  unfold State.acceptUnload
  try dsimp only
  repeat' with_reducible first
      | exact hk | exact Kind.Sub.mono rfl hs | apply Keeps.ite | apply State.put_keeps | apply State.respond_keeps
      | apply State.serveAll_keeps | apply State.joinLoads_keeps | apply State.removeProg_keeps | assumption | split

theorem State.accept_keeps {ks : List Kind} {s₀ s : State} (hk : Keeps ks s₀ s) (hs : Kind.Sub [.regs, .mem, .ecc, .tick, .progs, .serials, .yards, .flags, .fabric, .strm, .rig, .events, .queue, .media, .gpio, .hyper, .sec, .power, .free] ks)
    {n : Nat} : Keeps ks s₀ (State.accept s n) := by
  unfold State.accept
  try dsimp only
  repeat' with_reducible first
      | exact hk | exact Kind.Sub.mono rfl hs | apply Keeps.ite | apply State.put_keeps | apply State.respond_keeps
      | apply State.acceptLaunch_keeps | apply State.serveAll_keeps | apply State.joinLoads_keeps | apply State.acceptUnload_keeps
      | assumption | split

theorem State.submit_keeps {ks : List Kind} {s₀ s : State} (hk : Keeps ks s₀ s) (hs : Kind.Sub [.regs, .mem, .ecc, .tick, .progs, .serials, .yards, .flags, .fabric, .strm, .rig, .events, .queue, .media, .gpio, .hyper, .sec, .power, .free] ks)
    {n : Nat} {cmd : Nat} : Keeps ks s₀ (State.submit s n cmd) := by
  unfold State.submit
  try dsimp only
  repeat' with_reducible first
      | exact hk | exact Kind.Sub.mono rfl hs | apply Keeps.ite | refine State.viaMbox_keeps ?_ (Kind.Sub.mono rfl hs) (fun s hk => ?_)
      | apply State.accept_keeps | assumption

theorem State.finishProg_keeps {ks : List Kind} {s₀ s : State} (hk : Keeps ks s₀ s) (hs : Kind.Sub [.regs, .mem, .ecc, .tick, .progs, .serials, .yards, .flags, .fabric, .strm, .rig, .events, .queue, .media, .gpio, .hyper, .sec, .power, .free] ks)
    {p : Nat} {n : Nat} : Keeps ks s₀ (State.finishProg s p n) := by
  unfold State.finishProg
  try dsimp only
  repeat' with_reducible first
      | exact hk | exact Kind.Sub.mono rfl hs | apply State.setProg_keeps | apply State.respond_keeps | apply State.writeReport_keeps
      | apply State.nextLoad_keeps | assumption | apply Keeps.other | exact Or.inl (Kind.Sub.mem hs rfl) | exact Or.inr rfl

theorem execLaunch_keeps {ks : List Kind} {s₀ s s₁ : State} (hk : Keeps ks s₀ s) (hs : Kind.Sub [.regs, .mem, .ecc, .tick, .progs, .serials, .yards, .flags, .fabric, .strm, .rig, .events, .queue, .media, .gpio, .hyper, .sec, .power, .free] ks) {mbox : Nat}
    (hx : execLaunch mbox s = .next s₁) : Keeps ks s₀ s₁ := by
  unfold execLaunch at hx
  injection hx with hx
  subst hx
  try dsimp only
  repeat' with_reducible first
      | exact hk | exact Kind.Sub.mono rfl hs | apply State.submit_keeps | assumption

theorem execRestart_keeps {ks : List Kind} {s₀ s s₁ : State} (hk : Keeps ks s₀ s) (hs : Kind.Sub [.regs, .mem, .ecc, .tick, .progs, .serials, .yards, .flags, .fabric, .strm, .rig, .events, .queue, .media, .gpio, .hyper, .sec, .power, .free] ks) {mbox : Nat}
    (hx : execRestart mbox s = .next s₁) : Keeps ks s₀ s₁ := by
  unfold execRestart at hx
  injection hx with hx
  subst hx
  try dsimp only
  repeat' with_reducible first
      | exact hk | exact Kind.Sub.mono rfl hs | apply State.submit_keeps | assumption

theorem execLoadRig_keeps {ks : List Kind} {s₀ s s₁ : State} (hk : Keeps ks s₀ s) (hs : Kind.Sub [.regs, .mem, .ecc, .tick, .progs, .serials, .yards, .flags, .fabric, .strm, .rig, .events, .queue, .media, .gpio, .hyper, .sec, .power, .free] ks) {mbox : Nat}
    (hx : execLoadRig mbox s = .next s₁) : Keeps ks s₀ s₁ := by
  unfold execLoadRig at hx
  injection hx with hx
  subst hx
  try dsimp only
  repeat' with_reducible first
      | exact hk | exact Kind.Sub.mono rfl hs | apply State.submit_keeps | assumption

theorem execLoadProg_keeps {ks : List Kind} {s₀ s s₁ : State} (hk : Keeps ks s₀ s) (hs : Kind.Sub [.regs, .mem, .ecc, .tick, .progs, .serials, .yards, .flags, .fabric, .strm, .rig, .events, .queue, .media, .gpio, .hyper, .sec, .power, .free] ks) {mbox : Nat}
    (hx : execLoadProg mbox s = .next s₁) : Keeps ks s₀ s₁ := by
  unfold execLoadProg at hx
  injection hx with hx
  subst hx
  try dsimp only
  repeat' with_reducible first
      | exact hk | exact Kind.Sub.mono rfl hs | apply State.submit_keeps | assumption

theorem execUnload_keeps {ks : List Kind} {s₀ s s₁ : State} (hk : Keeps ks s₀ s) (hs : Kind.Sub [.regs, .mem, .ecc, .tick, .progs, .serials, .yards, .flags, .fabric, .strm, .rig, .events, .queue, .media, .gpio, .hyper, .sec, .power, .free] ks) {mbox : Nat}
    (hx : execUnload mbox s = .next s₁) : Keeps ks s₀ s₁ := by
  unfold execUnload at hx
  injection hx with hx
  subst hx
  try dsimp only
  repeat' with_reducible first
      | exact hk | exact Kind.Sub.mono rfl hs | apply State.submit_keeps | assumption

theorem execRevert_keeps {ks : List Kind} {s₀ s s₁ : State} (hk : Keeps ks s₀ s) (hs : Kind.Sub [.regs, .mem, .ecc, .tick, .progs, .serials, .yards, .flags, .fabric, .strm, .rig, .events, .queue, .media, .gpio, .hyper, .sec, .power, .free] ks) {mbox : Nat}
    (hx : execRevert mbox s = .next s₁) : Keeps ks s₀ s₁ := by
  unfold execRevert at hx
  injection hx with hx
  subst hx
  try dsimp only
  repeat' with_reducible first
      | exact hk | exact Kind.Sub.mono rfl hs | apply State.submit_keeps | assumption

theorem execLaunchArmed_keeps {ks : List Kind} {s₀ s s₁ : State} (hk : Keeps ks s₀ s) (hs : Kind.Sub [.regs, .events, .queue] ks) {mbox : Nat}
    (hx : execLaunchArmed mbox s = .next s₁) : Keeps ks s₀ s₁ := by
  unfold execLaunchArmed at hx
  injection hx with hx
  subst hx
  try dsimp only
  repeat' with_reducible first
      | exact hk | exact Kind.Sub.mono rfl hs | apply Keeps.ite | apply State.armLaunch_keeps | assumption | split

theorem execProgRemoved_keeps {ks : List Kind} {s₀ s s₁ : State} (hk : Keeps ks s₀ s) (hs : Kind.Sub [.regs, .mem, .ecc, .tick, .progs, .serials, .yards, .flags, .fabric, .strm, .rig, .events, .queue, .media, .gpio, .hyper, .sec, .power, .free] ks) {p : Nat}
    (hx : execProgRemoved p s = .next s₁) : Keeps ks s₀ s₁ := by
  unfold execProgRemoved at hx
  injection hx with hx
  subst hx
  try dsimp only
  repeat' with_reducible first
      | exact hk | exact Kind.Sub.mono rfl hs | apply Keeps.ite | apply State.removeProg_keeps | assumption

theorem execRigApplied_keeps {ks : List Kind} {s₀ s s₁ : State} (hk : Keeps ks s₀ s) (hs : Kind.Sub [.regs, .mem, .ecc, .tick, .progs, .serials, .yards, .flags, .fabric, .strm, .rig, .events, .queue, .media, .gpio, .hyper, .sec, .power, .free] ks) 
    (hx : execRigApplied s = .next s₁) : Keeps ks s₀ s₁ := by
  unfold execRigApplied at hx
  injection hx with hx
  subst hx
  try dsimp only
  repeat' with_reducible first
      | exact hk | exact Kind.Sub.mono rfl hs | apply Keeps.ite | apply State.finishRig_keeps | apply State.serveAll_keeps | assumption
      | split

theorem execRigReverted_keeps {ks : List Kind} {s₀ s s₁ : State} (hk : Keeps ks s₀ s) (hs : Kind.Sub [.regs, .mem, .ecc, .tick, .progs, .serials, .yards, .flags, .fabric, .strm, .rig, .events, .queue, .media, .gpio, .hyper, .sec, .power, .free] ks) 
    (hx : execRigReverted s = .next s₁) : Keeps ks s₀ s₁ := by
  unfold execRigReverted at hx
  injection hx with hx
  subst hx
  try dsimp only
  repeat' with_reducible first
      | exact hk | exact Kind.Sub.mono rfl hs | apply Keeps.ite | apply State.finishRevert_keeps | apply State.serveAll_keeps
      | assumption | split

theorem execImemCopyDone_keeps {ks : List Kind} {s₀ s s₁ : State} (hk : Keeps ks s₀ s) (hs : Kind.Sub [.regs, .mem, .ecc, .tick, .progs, .serials, .yards, .flags, .fabric, .strm, .rig, .events, .queue, .media, .gpio, .hyper, .sec, .power, .free] ks) {p : Nat}
    (hx : execImemCopyDone p s = .next s₁) : Keeps ks s₀ s₁ := by
  unfold execImemCopyDone at hx
  injection hx with hx
  subst hx
  try dsimp only
  repeat' with_reducible first
      | exact hk | exact Kind.Sub.mono rfl hs | apply Keeps.ite | apply State.finishProg_keeps | assumption | split

end Sys2Proof.Machine
end

