-- ==== Sys2Proof/Laws/KeepsNet.lean ====
section
/-! SUPPORT. The operations of Sys2Proof/Machine/Net.lean keep (see Sys2Proof/Laws/KeepsBase.lean). -/

namespace Sys2Proof.Machine

theorem State.showNet_keeps {ks : List Kind} {s₀ s : State} (hk : Keeps ks s₀ s) (hs : Kind.Sub [.regs] ks)
     : Keeps ks s₀ (State.showNet s) := by
  unfold State.showNet
  try dsimp only
  repeat' with_reducible first
      | exact hk | exact Kind.Sub.mono rfl hs | apply Keeps.ite | apply State.setReg_keeps | apply State.put_keeps | assumption

theorem State.startNet_keeps {ks : List Kind} {s₀ s : State} (hk : Keeps ks s₀ s) (hs : Kind.Sub [.regs] ks)
    {tail : List Byte} : Keeps ks s₀ (State.startNet s tail) := by
  unfold State.startNet
  try dsimp only
  repeat' with_reducible first
      | exact hk | exact Kind.Sub.mono rfl hs | apply State.setReg_keeps | apply State.put_keeps | apply State.showNet_keeps | assumption

theorem State.startNetKeyed_keeps {ks : List Kind} {s₀ s : State} (hk : Keeps ks s₀ s) (hs : Kind.Sub [.regs] ks)
     : Keeps ks s₀ (State.startNetKeyed s) := by
  unfold State.startNetKeyed
  try dsimp only
  repeat' with_reducible first
      | exact hk | exact Kind.Sub.mono rfl hs | apply State.startNet_keeps | assumption

theorem State.startNetFree_keeps {ks : List Kind} {s₀ s : State} (hk : Keeps ks s₀ s) (hs : Kind.Sub [.regs, .free] ks)
     : Keeps ks s₀ (State.startNetFree s) := by
  unfold State.startNetFree
  try dsimp only
  repeat' with_reducible first
      | exact hk | exact Kind.Sub.mono rfl hs | apply State.takeFree_keeps | apply State.startNet_keeps | assumption

theorem State.netDrop_keeps {ks : List Kind} {s₀ s : State} (hk : Keeps ks s₀ s) (hs : Kind.Sub [.regs] ks)
     : Keeps ks s₀ (State.netDrop s) := by
  unfold State.netDrop
  try dsimp only
  repeat' with_reducible first
      | exact hk | exact Kind.Sub.mono rfl hs | apply State.bump_keeps | assumption

theorem State.send_keeps {ks : List Kind} {s₀ s : State} (hk : Keeps ks s₀ s) (hs : Kind.Sub [.mgmt] ks)
    {fs : List (List Byte)} : Keeps ks s₀ (State.send s fs) := by
  unfold State.send
  try dsimp only
  repeat' with_reducible first
      | exact hk | exact Kind.Sub.mono rfl hs | assumption | apply Keeps.other | exact Or.inl (Kind.Sub.mem hs rfl) | exact Or.inr rfl

theorem State.netSecond_keeps {ks : List Kind} {s₀ s : State} (hk : Keeps ks s₀ s) (hs : Kind.Sub [.mgmt] ks)
     : Keeps ks s₀ (State.netSecond s) := by
  unfold State.netSecond
  try dsimp only
  repeat' with_reducible first
      | exact hk | exact Kind.Sub.mono rfl hs | apply Keeps.ite | assumption | apply Keeps.other | exact Or.inl (Kind.Sub.mem hs rfl)
      | exact Or.inr rfl

theorem execEthLink_keeps {ks : List Kind} {s₀ s s₁ : State} (hk : Keeps ks s₀ s) (hs : Kind.Sub [.regs, .events] ks) {speed : EthSpeed}
    (hx : execEthLink speed s = .next s₁) : Keeps ks s₀ s₁ := by
  unfold execEthLink at hx
  injection hx with hx
  subst hx
  try dsimp only
  repeat' with_reducible first
      | exact hk | exact Kind.Sub.mono rfl hs | apply Keeps.ite | apply State.put_keeps | apply State.raise_keeps | assumption

theorem execArpRequest_keeps {ks : List Kind} {s₀ s s₁ : State} (hk : Keeps ks s₀ s) (hs : Kind.Sub [.mgmt] ks) {target : BitVec 32}
    (hx : execArpRequest target s = .next s₁) : Keeps ks s₀ s₁ := by
  unfold execArpRequest at hx
  injection hx with hx
  subst hx
  try dsimp only
  repeat' with_reducible first
      | exact hk | exact Kind.Sub.mono rfl hs | apply Keeps.ite | apply State.send_keeps | assumption

theorem execIcmpv4Echo_keeps {ks : List Kind} {s₀ s s₁ : State} (hk : Keeps ks s₀ s) (hs : Kind.Sub [.mgmt] ks) {target : BitVec 32} {payload : List (BitVec 8)}
    (hx : execIcmpv4Echo target payload s = .next s₁) : Keeps ks s₀ s₁ := by
  unfold execIcmpv4Echo at hx
  injection hx with hx
  subst hx
  try dsimp only
  repeat' with_reducible first
      | exact hk | exact Kind.Sub.mono rfl hs | apply Keeps.ite | apply State.send_keeps | assumption

theorem execIcmpv6Echo_keeps {ks : List Kind} {s₀ s s₁ : State} (hk : Keeps ks s₀ s) (hs : Kind.Sub [.mgmt] ks) {target : Nat} {payload : List (BitVec 8)}
    (hx : execIcmpv6Echo target payload s = .next s₁) : Keeps ks s₀ s₁ := by
  unfold execIcmpv6Echo at hx
  injection hx with hx
  subst hx
  try dsimp only
  repeat' with_reducible first
      | exact hk | exact Kind.Sub.mono rfl hs | apply Keeps.ite | apply State.send_keeps | assumption

theorem execNdpMessage_keeps {ks : List Kind} {s₀ s s₁ : State} (hk : Keeps ks s₀ s) (hs : Kind.Sub [.regs, .mgmt] ks) {msg : NdpMsg}
    (hx : execNdpMessage msg s = .next s₁) : Keeps ks s₀ s₁ := by
  unfold execNdpMessage at hx
  injection hx with hx
  subst hx
  try dsimp only
  repeat' with_reducible first
      | exact hk | exact Kind.Sub.mono rfl hs | apply Keeps.ite | apply State.showNet_keeps | apply State.send_keeps | assumption | split
      | apply Keeps.other | exact Or.inl (Kind.Sub.mem hs rfl) | exact Or.inr rfl

theorem execDhcpv4Message_keeps {ks : List Kind} {s₀ s s₁ : State} (hk : Keeps ks s₀ s) (hs : Kind.Sub [.regs, .mgmt] ks) {msg : DhcpMsg}
    (hx : execDhcpv4Message msg s = .next s₁) : Keeps ks s₀ s₁ := by
  unfold execDhcpv4Message at hx
  injection hx with hx
  subst hx
  try dsimp only
  repeat' with_reducible first
      | exact hk | exact Kind.Sub.mono rfl hs | apply Keeps.ite | apply State.showNet_keeps | assumption | split | apply Keeps.other
      | exact Or.inl (Kind.Sub.mem hs rfl) | exact Or.inr rfl

theorem execEthFrameDiscard_keeps {ks : List Kind} {s₀ s s₁ : State} (hk : Keeps ks s₀ s) (hs : Kind.Sub [.regs, .mgmt] ks) {why : EthDrop}
    (hx : execEthFrameDiscard why s = .next s₁) : Keeps ks s₀ s₁ := by
  unfold execEthFrameDiscard at hx
  injection hx with hx
  subst hx
  try dsimp only
  repeat' with_reducible first
      | exact hk | exact Kind.Sub.mono rfl hs | apply Keeps.ite | apply State.netDrop_keeps | apply State.netSecond_keeps | assumption
      | split

end Sys2Proof.Machine
end

