-- ==== Sys2Proof/Laws/KeepsBoot.lean ====
section
/-! SUPPORT. The operations of Sys2Proof/Machine/Boot.lean keep (see Sys2Proof/Laws/KeepsBase.lean). -/

namespace Sys2Proof.Machine

theorem State.resetPart_keeps {ks : List Kind} {s₀ s : State} (hk : Keeps ks s₀ s) (hs : Kind.Sub [.gcnt, .timebase, .regs, .was, .latch, .hold, .mem, .ecc, .tick, .progs, .serials, .yards, .flags, .fabric, .strm, .rig, .events, .queue, .media, .gpio, .hyper, .mgmt, .sec, .power, .free] ks)
    {wake : Bool} {cause : Nat} : Keeps ks s₀ (State.resetPart s wake cause) := by
  have all : ∀ k : Kind, k ∈ ks := fun k => hs k (by cases k <;> decide)
  unfold State.resetPart
  dsimp only
  refine State.showSec_keeps (State.put_keeps (State.put_keeps (State.put_keeps (State.put_keeps (State.setReg_keeps ?_ ?_) ?_) ?_) ?_) ?_) ?_
  · exact ⟨hk.part, hk.pending, fun _ => rfl,
      fun w => SMap.wf_restrict (hk.mem w) fun a => decide (2 ^ 64 ≤ a) || (wake && decide (0x200000000 ≤ a ∧ a < 0x240000000)),
      fun w => SMap.wf_restrict (hk.ecc w) fun k => wake && decide (0x200000000 ≤ 8 * k ∧ 8 * k < 0x240000000),
      fun k hn => absurd (all k) hn⟩
  all_goals exact fun k _ => all k

theorem State.haltBoot_keeps {ks : List Kind} {s₀ s : State} (hk : Keeps ks s₀ s) (hs : Kind.Sub [.regs, .power] ks)
    {code : Nat} : Keeps ks s₀ (State.haltBoot s code) := by
  unfold State.haltBoot
  try dsimp only
  repeat' with_reducible first
      | exact hk | exact Kind.Sub.mono rfl hs | apply State.showCode_keeps | assumption | apply Keeps.other
      | exact Or.inl (Kind.Sub.mem hs rfl) | exact Or.inr rfl

theorem State.enterRecovery_keeps {ks : List Kind} {s₀ s : State} (hk : Keeps ks s₀ s) (hs : Kind.Sub [.regs, .power, .free] ks)
     : Keeps ks s₀ (State.enterRecovery s) := by
  unfold State.enterRecovery
  try dsimp only
  repeat' with_reducible first
      | exact hk | exact Kind.Sub.mono rfl hs | apply State.put_keeps | apply State.setDom_keeps | apply State.showCode_keeps
      | apply State.startNetFree_keeps | refine Keeps.foldl (fun s x hk => ?_) _ ?_ | assumption | apply Keeps.other
      | exact Or.inl (Kind.Sub.mem hs rfl) | exact Or.inr rfl

theorem State.enterTest_keeps {ks : List Kind} {s₀ s : State} (hk : Keeps ks s₀ s) (hs : Kind.Sub [.regs, .power, .free] ks)
     : Keeps ks s₀ (State.enterTest s) := by
  unfold State.enterTest
  try dsimp only
  repeat' with_reducible first
      | exact hk | exact Kind.Sub.mono rfl hs | apply State.put_keeps | apply State.takeFree_keeps | apply State.showCode_keeps
      | assumption | apply Keeps.other | exact Or.inl (Kind.Sub.mem hs rfl) | exact Or.inr rfl

theorem State.countBoot_keeps {ks : List Kind} {s₀ s : State} (hk : Keeps ks s₀ s) (hs : Kind.Sub [.regs, .sec] ks)
     : Keeps ks s₀ (State.countBoot s) := by
  unfold State.countBoot
  try dsimp only
  repeat' with_reducible first
      | exact hk | exact Kind.Sub.mono rfl hs | apply State.showSec_keeps | assumption | apply Keeps.other
      | exact Or.inl (Kind.Sub.mem hs rfl) | exact Or.inr rfl

theorem State.bootExam_keeps {ks : List Kind} {s₀ s : State} (hk : Keeps ks s₀ s) (hs : Kind.Sub [.regs, .events] ks)
    {upd : Bool} {e : Exam} : Keeps ks s₀ (State.bootExam s upd e) := by
  unfold State.bootExam
  try dsimp only
  repeat' with_reducible first
      | exact hk | exact Kind.Sub.mono rfl hs | apply Keeps.ite | apply State.raise_keeps | apply State.showExam_keeps | assumption

theorem State.runBist_keeps {ks : List Kind} {s₀ s : State} (hk : Keeps ks s₀ s) (hs : Kind.Sub [.regs, .mem, .ecc, .progs, .yards, .flags, .fabric, .strm, .events, .queue, .hyper, .power, .free] ks)
     : Keeps ks s₀ (State.runBist s) := by
  unfold State.runBist
  try dsimp only
  repeat' with_reducible first
      | exact hk | exact Kind.Sub.mono rfl hs | apply Keeps.ite | apply State.takeFree_keeps | apply State.takeOut_keeps
      | refine Keeps.foldl (fun s x hk => ?_) _ ?_ | assumption

theorem State.startUnits_keeps {ks : List Kind} {s₀ s : State} (hk : Keeps ks s₀ s) (hs : Kind.Sub [.regs, .mem, .ecc, .progs, .yards, .flags, .fabric, .strm, .events, .queue, .hyper, .power, .free] ks)
     : Keeps ks s₀ (State.startUnits s) := by
  unfold State.startUnits
  try dsimp only
  repeat' with_reducible first
      | exact hk | exact Kind.Sub.mono rfl hs | apply Keeps.ite | apply State.put_keeps | apply State.setDom_keeps
      | apply State.runBist_keeps | refine Keeps.foldl (fun s x hk => ?_) _ ?_ | assumption | apply Keeps.other
      | exact Or.inl (Kind.Sub.mem hs rfl) | exact Or.inr rfl

theorem State.applyBackup_keeps {ks : List Kind} {s₀ s : State} (hk : Keeps ks s₀ s) (hs : Kind.Sub [.regs, .mem, .ecc, .tick, .progs, .yards, .fabric, .strm, .rig, .events, .queue, .media, .gpio, .hyper, .sec, .power, .free] ks)
    {fast : Bool} {prepare : State → List Byte → State} (hf : ∀ s x, Keeps ks s₀ s → Keeps ks s₀ (prepare s x)) : Keeps ks s₀ (State.applyBackup s fast prepare) := by
  unfold State.applyBackup
  try dsimp only
  repeat' with_reducible first
      | exact hk | exact Kind.Sub.mono rfl hs | apply hf | apply Keeps.ite | apply State.put_keeps | apply State.raise_keeps
      | apply State.setRun_keeps | apply State.putRig_keeps | apply State.swapRig_keeps | assumption | apply Keeps.other
      | exact Or.inl (Kind.Sub.mem hs rfl) | exact Or.inr rfl

theorem State.startImage_keeps {ks : List Kind} {s₀ s : State} (hk : Keeps ks s₀ s) (hs : Kind.Sub [.timebase, .regs, .mem, .ecc, .tick, .progs, .yards, .flags, .fabric, .strm, .rig, .events, .queue, .media, .gpio, .hyper, .sec, .power, .free] ks)
    {upd : Bool} {e : Exam} {fast : Bool} {prepare : State → List Byte → State} (hf : ∀ s x, Keeps ks s₀ s → Keeps ks s₀ (prepare s x)) : Keeps ks s₀ (State.startImage s upd e fast prepare) := by
  unfold State.startImage
  try dsimp only
  repeat' with_reducible first
      | exact hk | exact Kind.Sub.mono rfl hs | apply hf | apply Keeps.ite | apply State.put_keeps | apply State.raise_keeps
      | apply State.showCode_keeps | apply State.showPower_keeps | apply State.showSec_keeps | apply State.drawNonce_keeps
      | apply State.newTranslator_keeps | apply State.startNetKeyed_keeps | apply State.startUnits_keeps
      | refine State.applyBackup_keeps ?_ (Kind.Sub.mono rfl hs) (fun s x hk => ?_) | assumption | apply Keeps.other
      | exact Or.inl (Kind.Sub.mem hs rfl) | exact Or.inr rfl

theorem State.rejectHalfway_keeps {ks : List Kind} {s₀ s : State} (hk : Keeps ks s₀ s) (hs : Kind.Sub [.regs, .sec] ks)
     : Keeps ks s₀ (State.rejectHalfway s) := by
  unfold State.rejectHalfway
  try dsimp only
  repeat' with_reducible first
      | exact hk | exact Kind.Sub.mono rfl hs | apply Keeps.ite | apply State.slotAppend_keeps | assumption

theorem State.noSlot_keeps {ks : List Kind} {s₀ s : State} (hk : Keeps ks s₀ s) (hs : Kind.Sub [.regs, .power, .free] ks)
    {g : Exam} {u : Option Exam} {recover : Bool} : Keeps ks s₀ (State.noSlot s g u recover) := by
  unfold State.noSlot
  try dsimp only
  repeat' with_reducible first
      | exact hk | exact Kind.Sub.mono rfl hs | apply Keeps.ite | apply State.put_keeps | apply State.haltBoot_keeps
      | apply State.enterRecovery_keeps | assumption

theorem State.bootSlots_keeps {ks : List Kind} {s₀ s : State} (hk : Keeps ks s₀ s) (hs : Kind.Sub [.timebase, .regs, .mem, .ecc, .tick, .progs, .yards, .flags, .fabric, .strm, .rig, .events, .queue, .media, .gpio, .hyper, .sec, .power, .free] ks)
    {recover : Bool} : Keeps ks s₀ (State.bootSlots s recover) := by
  unfold State.bootSlots
  try dsimp only
  repeat' with_reducible first
      | exact hk | exact Kind.Sub.mono rfl hs | apply Keeps.ite | apply State.commitSlot_keeps | apply State.bootExam_keeps
      | refine State.startImage_keeps ?_ (Kind.Sub.mono rfl hs) (fun s x hk => ?_) | apply State.rejectHalfway_keeps
      | apply State.noSlot_keeps | assumption | split

theorem State.boot_keeps {ks : List Kind} {s₀ s : State} (hk : Keeps ks s₀ s) (hs : Kind.Sub [.timebase, .regs, .mem, .ecc, .tick, .progs, .yards, .flags, .fabric, .strm, .rig, .events, .queue, .media, .gpio, .hyper, .sec, .power, .free] ks)
     : Keeps ks s₀ (State.boot s) := by
  unfold State.boot
  try dsimp only
  repeat' with_reducible first
      | exact hk | exact Kind.Sub.mono rfl hs | apply Keeps.ite | apply State.haltBoot_keeps | apply State.enterRecovery_keeps
      | apply State.enterTest_keeps | apply State.countBoot_keeps | apply State.bootSlots_keeps | assumption | split

theorem State.writeRetention_keeps {ks : List Kind} {s₀ s : State} (hk : Keeps ks s₀ s) (hs : Kind.Sub [.sec] ks)
     : Keeps ks s₀ (State.writeRetention s) := by
  unfold State.writeRetention
  try dsimp only
  repeat' with_reducible first
      | exact hk | exact Kind.Sub.mono rfl hs | apply Keeps.ite | assumption | apply Keeps.other | exact Or.inl (Kind.Sub.mem hs rfl)
      | exact Or.inr rfl

theorem State.enterSleep_keeps {ks : List Kind} {s₀ s : State} (hk : Keeps ks s₀ s) (hs : Kind.Sub [.timebase, .regs, .mem, .ecc, .tick, .strm, .events, .queue, .gpio, .sec, .power] ks)
     : Keeps ks s₀ (State.enterSleep s) := by
  unfold State.enterSleep
  try dsimp only
  repeat' with_reducible first
      | exact hk | exact Kind.Sub.mono rfl hs | apply Keeps.ite | apply State.put_keeps | apply State.showCode_keeps
      | apply State.domsOff_keeps | apply State.hrSleep_keeps | apply State.stopGenerator_keeps | apply State.hostReset_keeps
      | apply State.linkGen_keeps | apply State.writeRetention_keeps | assumption | apply Keeps.other
      | exact Or.inl (Kind.Sub.mem hs rfl) | exact Or.inr rfl

theorem State.trySleep_keeps {ks : List Kind} {s₀ s : State} (hk : Keeps ks s₀ s) (hs : Kind.Sub [.timebase, .regs, .mem, .ecc, .tick, .strm, .events, .queue, .gpio, .sec, .power] ks)
     : Keeps ks s₀ (State.trySleep s) := by
  unfold State.trySleep
  try dsimp only
  repeat' with_reducible first
      | exact hk | exact Kind.Sub.mono rfl hs | apply Keeps.ite | apply State.put_keeps | apply State.enterSleep_keeps | assumption
      | apply Keeps.other | exact Or.inl (Kind.Sub.mem hs rfl) | exact Or.inr rfl

theorem State.wakeChannels_keeps {ks : List Kind} {s₀ s : State} (hk : Keeps ks s₀ s) (hs : Kind.Sub [.regs, .mem, .ecc, .progs, .strm, .events, .queue, .hyper, .power, .free] ks)
    {block : List Byte} {rig : List Byte} : Keeps ks s₀ (State.wakeChannels s block rig) := by
  unfold State.wakeChannels
  try dsimp only
  repeat' with_reducible first
      | exact hk | exact Kind.Sub.mono rfl hs | apply Keeps.ite | apply State.put_keeps | apply State.recalibrate_keeps
      | refine Keeps.foldl (fun s x hk => ?_) _ ?_ | assumption

theorem State.fastStart_keeps {ks : List Kind} {s₀ s : State} (hk : Keeps ks s₀ s) (hs : Kind.Sub [.timebase, .regs, .mem, .ecc, .tick, .progs, .yards, .flags, .fabric, .strm, .rig, .events, .queue, .media, .gpio, .hyper, .sec, .power, .free] ks)
     : Keeps ks s₀ (State.fastStart s) := by
  unfold State.fastStart
  try dsimp only
  repeat' with_reducible first
      | exact hk | exact Kind.Sub.mono rfl hs | apply State.countBoot_keeps
      | refine State.startImage_keeps ?_ (Kind.Sub.mono rfl hs) (fun s x hk => ?_) | apply State.wakeChannels_keeps | assumption

theorem State.wake_keeps {ks : List Kind} {s₀ s : State} (hk : Keeps ks s₀ s) (hs : Kind.Sub [.gcnt, .timebase, .regs, .was, .latch, .hold, .mem, .ecc, .tick, .progs, .serials, .yards, .flags, .fabric, .strm, .rig, .events, .queue, .media, .gpio, .hyper, .mgmt, .sec, .power, .free] ks)
     : Keeps ks s₀ (State.wake s) := by
  unfold State.wake
  try dsimp only
  repeat' with_reducible first
      | exact hk | exact Kind.Sub.mono rfl hs | apply Keeps.ite | apply State.raise_keeps | apply State.resetPart_keeps
      | apply State.boot_keeps | apply State.fastStart_keeps | assumption | apply Keeps.other | exact Or.inl (Kind.Sub.mem hs rfl)
      | exact Or.inr rfl

theorem execPowerOnReset_keeps {ks : List Kind} {s₀ s s₁ : State} (hk : Keeps ks s₀ s) (hs : Kind.Sub [.gcnt, .timebase, .regs, .was, .latch, .hold, .mem, .ecc, .tick, .progs, .serials, .yards, .flags, .fabric, .strm, .rig, .events, .queue, .media, .gpio, .hyper, .mgmt, .sec, .power, .free] ks) 
    (hx : execPowerOnReset s = .next s₁) : Keeps ks s₀ s₁ := by
  unfold execPowerOnReset at hx
  injection hx with hx
  subst hx
  try dsimp only
  repeat' with_reducible first
      | exact hk | exact Kind.Sub.mono rfl hs | apply State.resetPart_keeps | assumption

theorem execColdBoot_keeps {ks : List Kind} {s₀ s s₁ : State} (hk : Keeps ks s₀ s) (hs : Kind.Sub [.timebase, .regs, .mem, .ecc, .tick, .progs, .yards, .flags, .fabric, .strm, .rig, .events, .queue, .media, .gpio, .hyper, .sec, .power, .free] ks) 
    (hx : execColdBoot s = .next s₁) : Keeps ks s₀ s₁ := by
  unfold execColdBoot at hx
  injection hx with hx
  subst hx
  try dsimp only
  repeat' with_reducible first
      | exact hk | exact Kind.Sub.mono rfl hs | apply Keeps.ite | apply State.boot_keeps | assumption

theorem execMpReadyTimeout_keeps {ks : List Kind} {s₀ s s₁ : State} (hk : Keeps ks s₀ s) (hs : Kind.Sub [.regs, .sec, .power] ks) 
    (hx : execMpReadyTimeout s = .next s₁) : Keeps ks s₀ s₁ := by
  unfold execMpReadyTimeout at hx
  injection hx with hx
  subst hx
  try dsimp only
  repeat' with_reducible first
      | exact hk | exact Kind.Sub.mono rfl hs | apply Keeps.ite | apply State.haltBoot_keeps | apply State.countBoot_keeps | assumption
      | apply Keeps.other | exact Or.inl (Kind.Sub.mem hs rfl) | exact Or.inr rfl

theorem execInternalReset_keeps {ks : List Kind} {s₀ s s₁ : State} (hk : Keeps ks s₀ s) (hs : Kind.Sub [.gcnt, .timebase, .regs, .was, .latch, .hold, .mem, .ecc, .tick, .progs, .serials, .yards, .flags, .fabric, .strm, .rig, .events, .queue, .media, .gpio, .hyper, .mgmt, .sec, .power, .free] ks) 
    (hx : execInternalReset s = .next s₁) : Keeps ks s₀ s₁ := by
  unfold execInternalReset at hx
  injection hx with hx
  subst hx
  try dsimp only
  repeat' with_reducible first
      | exact hk | exact Kind.Sub.mono rfl hs | apply Keeps.ite | apply State.resetPart_keeps | assumption

theorem execPwrSleep_keeps {ks : List Kind} {s₀ s s₁ : State} (hk : Keeps ks s₀ s) (hs : Kind.Sub [.timebase, .regs, .mem, .ecc, .tick, .strm, .events, .queue, .gpio, .sec, .power] ks) {value : BitVec 32}
    (hx : execPwrSleep value s = .next s₁) : Keeps ks s₀ s₁ := by
  unfold execPwrSleep at hx
  injection hx with hx
  subst hx
  try dsimp only
  repeat' with_reducible first
      | exact hk | exact Kind.Sub.mono rfl hs | apply Keeps.ite | refine State.viaHost_keeps ?_ (Kind.Sub.mono rfl hs) (fun s hk => ?_)
      | apply State.trySleep_keeps | assumption

theorem execHeldSleepProceed_keeps {ks : List Kind} {s₀ s s₁ : State} (hk : Keeps ks s₀ s) (hs : Kind.Sub [.timebase, .regs, .mem, .ecc, .tick, .strm, .events, .queue, .gpio, .sec, .power] ks) 
    (hx : execHeldSleepProceed s = .next s₁) : Keeps ks s₀ s₁ := by
  unfold execHeldSleepProceed at hx
  injection hx with hx
  subst hx
  try dsimp only
  repeat' with_reducible first
      | exact hk | exact Kind.Sub.mono rfl hs | apply Keeps.ite | apply State.trySleep_keeps | assumption

theorem execWakeN_keeps {ks : List Kind} {s₀ s s₁ : State} (hk : Keeps ks s₀ s) (hs : Kind.Sub [.gcnt, .timebase, .regs, .was, .latch, .hold, .mem, .ecc, .tick, .progs, .serials, .yards, .flags, .fabric, .strm, .rig, .events, .queue, .media, .gpio, .hyper, .mgmt, .sec, .power, .free] ks) 
    (hx : execWakeN s = .next s₁) : Keeps ks s₀ s₁ := by
  unfold execWakeN at hx
  injection hx with hx
  subst hx
  try dsimp only
  repeat' with_reducible first
      | exact hk | exact Kind.Sub.mono rfl hs | apply Keeps.ite | apply State.wake_keeps | assumption

end Sys2Proof.Machine
end

