-- ==== Sys2Proof/Laws/KeepsHealth.lean ====
section
/-! SUPPORT. The operations of Sys2Proof/Machine/Health.lean keep (see Sys2Proof/Laws/KeepsBase.lean). -/

namespace Sys2Proof.Machine

theorem State.trip_keeps {ks : List Kind} {s₀ s : State} (hk : Keeps ks s₀ s) (hs : Kind.Sub [.timebase, .regs, .tick, .gpio, .power] ks)
    {d : Nat} : Keeps ks s₀ (State.trip s d) := by
  unfold State.trip
  try dsimp only
  repeat' with_reducible first
      | exact hk | exact Kind.Sub.mono rfl hs | apply State.put_keeps | apply State.showCode_keeps | apply State.stopGenerator_keeps
      | apply State.linkGen_keeps | assumption | apply Keeps.other | exact Or.inl (Kind.Sub.mem hs rfl) | exact Or.inr rfl

theorem State.thermWarn_keeps {ks : List Kind} {s₀ s : State} (hk : Keeps ks s₀ s) (hs : Kind.Sub [.regs, .events] ks)
    {d : Nat} {t : Int} : Keeps ks s₀ (State.thermWarn s d t) := by
  unfold State.thermWarn
  try dsimp only
  repeat' with_reducible first
      | exact hk | exact Kind.Sub.mono rfl hs | apply Keeps.ite | apply State.put_keeps | apply State.raise_keeps | assumption

theorem State.sampleTherm_keeps {ks : List Kind} {s₀ s : State} (hk : Keeps ks s₀ s) (hs : Kind.Sub [.timebase, .regs, .tick, .events, .gpio, .sec, .power] ks)
    {d : Nat} {temp : BitVec 12} : Keeps ks s₀ (State.sampleTherm s d temp) := by
  unfold State.sampleTherm
  try dsimp only
  repeat' with_reducible first
      | exact hk | exact Kind.Sub.mono rfl hs | apply Keeps.ite | apply State.put_keeps | apply State.emergencyMoved_keeps
      | apply State.trip_keeps | apply State.thermWarn_keeps | assumption

theorem State.supplyLow_keeps {ks : List Kind} {s₀ s : State} (hk : Keeps ks s₀ s) (hs : Kind.Sub [.regs, .tick, .events, .sec] ks)
     : Keeps ks s₀ (State.supplyLow s) := by
  unfold State.supplyLow
  try dsimp only
  repeat' with_reducible first
      | exact hk | exact Kind.Sub.mono rfl hs | apply State.setReg_keeps | apply State.put_keeps | apply State.bump_keeps
      | apply State.raise_keeps | apply State.emergencyMoved_keeps | assumption | apply Keeps.other | exact Or.inl (Kind.Sub.mem hs rfl)
      | exact Or.inr rfl

theorem State.supplyBack_keeps {ks : List Kind} {s₀ s : State} (hk : Keeps ks s₀ s) (hs : Kind.Sub [.regs, .events, .sec] ks)
     : Keeps ks s₀ (State.supplyBack s) := by
  unfold State.supplyBack
  try dsimp only
  repeat' with_reducible first
      | exact hk | exact Kind.Sub.mono rfl hs | apply State.put_keeps | apply State.raise_keeps | apply State.emergencyMoved_keeps
      | assumption

theorem State.resetChan_keeps {ks : List Kind} {s₀ s : State} (hk : Keeps ks s₀ s) (hs : Kind.Sub [.regs, .strm] ks)
    {ch : Nat} : Keeps ks s₀ (State.resetChan s ch) := by
  unfold State.resetChan
  try dsimp only
  repeat' with_reducible first
      | exact hk | exact Kind.Sub.mono rfl hs | apply State.setChan_keeps | apply State.setChState_keeps | assumption

theorem State.abortLoad_keeps {ks : List Kind} {s₀ s : State} (hk : Keeps ks s₀ s) (hs : Kind.Sub [.regs, .mem, .ecc, .tick, .progs, .serials, .yards, .flags, .fabric, .strm, .rig, .events, .queue, .media, .gpio, .hyper, .sec, .power, .free] ks)
     : Keeps ks s₀ (State.abortLoad s) := by
  unfold State.abortLoad
  try dsimp only
  repeat' with_reducible first
      | exact hk | exact Kind.Sub.mono rfl hs | apply Keeps.ite | apply State.put_keeps | apply State.raise_keeps
      | apply State.respond_keeps | apply State.release_keeps | apply State.serveAll_keeps | assumption | split | apply Keeps.other
      | exact Or.inl (Kind.Sub.mem hs rfl) | exact Or.inr rfl

theorem State.crashEffects_keeps {ks : List Kind} {s₀ s : State} (hk : Keeps ks s₀ s) (hs : Kind.Sub [.regs, .mem, .ecc, .tick, .progs, .serials, .yards, .flags, .fabric, .strm, .rig, .events, .queue, .media, .gpio, .hyper, .mgmt, .sec, .power, .free] ks)
    {p : Nat} : Keeps ks s₀ (State.crashEffects s p) := by
  unfold State.crashEffects
  try dsimp only
  repeat' with_reducible first
      | exact hk | exact Kind.Sub.mono rfl hs | apply State.dropToken_keeps | apply State.dropXfer_keeps | apply State.resetChan_keeps
      | apply State.abortLoad_keeps | assumption | split

theorem State.crash_keeps {ks : List Kind} {s₀ s : State} (hk : Keeps ks s₀ s) (hs : Kind.Sub [.regs, .mem, .ecc, .tick, .progs, .serials, .yards, .flags, .fabric, .strm, .rig, .events, .queue, .media, .gpio, .hyper, .mgmt, .sec, .power, .free] ks)
    {p : Nat} {cause : Nat} : Keeps ks s₀ (State.crash s p cause) := by
  unfold State.crash
  try dsimp only
  repeat' with_reducible first
      | exact hk | exact Kind.Sub.mono rfl hs | apply Keeps.ite | apply State.put_keeps | apply State.raise_keeps
      | apply State.showPower_keeps | apply State.rollback_keeps | apply State.crashEffects_keeps | assumption | apply Keeps.other
      | exact Or.inl (Kind.Sub.mem hs rfl) | exact Or.inr rfl

theorem State.resumeWork_keeps {ks : List Kind} {s₀ s : State} (hk : Keeps ks s₀ s) (hs : Kind.Sub [.regs, .mem, .ecc, .tick, .progs, .serials, .yards, .flags, .fabric, .strm, .rig, .events, .queue, .media, .gpio, .hyper, .sec, .power, .free] ks)
    {p : Nat} : Keeps ks s₀ (State.resumeWork s p) := by
  unfold State.resumeWork
  try dsimp only
  repeat' with_reducible first
      | exact hk | exact Kind.Sub.mono rfl hs | apply State.restoreShed_keeps | apply State.serveAll_keeps | assumption | split

theorem State.restartFw_keeps {ks : List Kind} {s₀ s : State} (hk : Keeps ks s₀ s) (hs : Kind.Sub [.regs, .mem, .ecc, .tick, .progs, .serials, .yards, .flags, .fabric, .strm, .rig, .events, .queue, .media, .gpio, .hyper, .sec, .power, .free] ks)
    {p : Nat} : Keeps ks s₀ (State.restartFw s p) := by
  unfold State.restartFw
  try dsimp only
  repeat' with_reducible first
      | exact hk | exact Kind.Sub.mono rfl hs | apply State.put_keeps | apply State.bump_keeps | apply State.raise_keeps
      | apply State.resumeWork_keeps | assumption | apply Keeps.other | exact Or.inl (Kind.Sub.mem hs rfl) | exact Or.inr rfl

theorem execThermalSample_keeps {ks : List Kind} {s₀ s s₁ : State} (hk : Keeps ks s₀ s) (hs : Kind.Sub [.timebase, .regs, .tick, .events, .gpio, .sec, .power] ks) {die : Nat} {temp : BitVec 12}
    (hx : execThermalSample die temp s = .next s₁) : Keeps ks s₀ s₁ := by
  unfold execThermalSample at hx
  injection hx with hx
  subst hx
  try dsimp only
  repeat' with_reducible first
      | exact hk | exact Kind.Sub.mono rfl hs | apply Keeps.ite | apply State.sampleTherm_keeps | assumption

theorem execPwrwarnAssert_keeps {ks : List Kind} {s₀ s s₁ : State} (hk : Keeps ks s₀ s) (hs : Kind.Sub [.regs, .tick, .events, .sec] ks) 
    (hx : execPwrwarnAssert s = .next s₁) : Keeps ks s₀ s₁ := by
  unfold execPwrwarnAssert at hx
  injection hx with hx
  subst hx
  try dsimp only
  repeat' with_reducible first
      | exact hk | exact Kind.Sub.mono rfl hs | apply Keeps.ite | apply State.supplyLow_keeps | assumption

theorem execPwrwarnRelease_keeps {ks : List Kind} {s₀ s s₁ : State} (hk : Keeps ks s₀ s) (hs : Kind.Sub [.regs, .events, .sec] ks) 
    (hx : execPwrwarnRelease s = .next s₁) : Keeps ks s₀ s₁ := by
  unfold execPwrwarnRelease at hx
  injection hx with hx
  subst hx
  try dsimp only
  repeat' with_reducible first
      | exact hk | exact Kind.Sub.mono rfl hs | apply Keeps.ite | apply State.supplyBack_keeps | assumption

theorem execPwrThermClr_keeps {ks : List Kind} {s₀ s s₁ : State} (hk : Keeps ks s₀ s) (hs : Kind.Sub [.regs] ks) {die : Nat}
    (hx : execPwrThermClr die s = .next s₁) : Keeps ks s₀ s₁ := by
  unfold execPwrThermClr at hx
  injection hx with hx
  subst hx
  try dsimp only
  repeat' with_reducible first
      | exact hk | exact Kind.Sub.mono rfl hs | apply Keeps.ite | apply State.put_keeps
      | refine State.viaHost_keeps ?_ (Kind.Sub.mono rfl hs) (fun s hk => ?_) | assumption

theorem execPwrWdogKick_keeps {ks : List Kind} {s₀ s s₁ : State} (hk : Keeps ks s₀ s) (hs : Kind.Sub [.power] ks) {p : Nat}
    (hx : execPwrWdogKick p s = .next s₁) : Keeps ks s₀ s₁ := by
  unfold execPwrWdogKick at hx
  injection hx with hx
  subst hx
  try dsimp only
  repeat' with_reducible first
      | exact hk | exact Kind.Sub.mono rfl hs | apply Keeps.ite | assumption | apply Keeps.other | exact Or.inl (Kind.Sub.mem hs rfl)
      | exact Or.inr rfl

theorem execWatchdogExpiry_keeps {ks : List Kind} {s₀ s s₁ : State} (hk : Keeps ks s₀ s) (hs : Kind.Sub [.regs, .mem, .ecc, .tick, .progs, .serials, .yards, .flags, .fabric, .strm, .rig, .events, .queue, .media, .gpio, .hyper, .mgmt, .sec, .power, .free] ks) {p : Nat}
    (hx : execWatchdogExpiry p s = .next s₁) : Keeps ks s₀ s₁ := by
  unfold execWatchdogExpiry at hx
  injection hx with hx
  subst hx
  try dsimp only
  repeat' with_reducible first
      | exact hk | exact Kind.Sub.mono rfl hs | apply Keeps.ite | apply State.crash_keeps | assumption

theorem execFwTrap_keeps {ks : List Kind} {s₀ s s₁ : State} (hk : Keeps ks s₀ s) (hs : Kind.Sub [.regs, .mem, .ecc, .tick, .progs, .serials, .yards, .flags, .fabric, .strm, .rig, .events, .queue, .media, .gpio, .hyper, .mgmt, .sec, .power, .free] ks) {p : Nat}
    (hx : execFwTrap p s = .next s₁) : Keeps ks s₀ s₁ := by
  unfold execFwTrap at hx
  injection hx with hx
  subst hx
  try dsimp only
  repeat' with_reducible first
      | exact hk | exact Kind.Sub.mono rfl hs | apply State.crash_keeps | assumption

theorem execFwEccError_keeps {ks : List Kind} {s₀ s s₁ : State} (hk : Keeps ks s₀ s) (hs : Kind.Sub [.regs, .mem, .ecc, .tick, .progs, .serials, .yards, .flags, .fabric, .strm, .rig, .events, .queue, .media, .gpio, .hyper, .mgmt, .sec, .power, .free] ks) {p : Nat}
    (hx : execFwEccError p s = .next s₁) : Keeps ks s₀ s₁ := by
  unfold execFwEccError at hx
  injection hx with hx
  subst hx
  try dsimp only
  repeat' with_reducible first
      | exact hk | exact Kind.Sub.mono rfl hs | apply State.crash_keeps | assumption

theorem execFwRestart_keeps {ks : List Kind} {s₀ s s₁ : State} (hk : Keeps ks s₀ s) (hs : Kind.Sub [.regs, .mem, .ecc, .tick, .progs, .serials, .yards, .flags, .fabric, .strm, .rig, .events, .queue, .media, .gpio, .hyper, .sec, .power, .free] ks) {p : Nat}
    (hx : execFwRestart p s = .next s₁) : Keeps ks s₀ s₁ := by
  unfold execFwRestart at hx
  injection hx with hx
  subst hx
  try dsimp only
  repeat' with_reducible first
      | exact hk | exact Kind.Sub.mono rfl hs | apply Keeps.ite | apply State.restartFw_keeps | assumption

end Sys2Proof.Machine
end

