-- ==== Sys2Proof/Laws/KeepsMgmt.lean ====
section
/-! SUPPORT. The operations of Sys2Proof/Machine/Mgmt.lean keep (see Sys2Proof/Laws/KeepsBase.lean). -/

namespace Sys2Proof.Machine

theorem State.hmpReply_keeps {ks : List Kind} {s₀ s : State} (hk : Keeps ks s₀ s) (hs : Kind.Sub [.mgmt] ks)
    {op : Nat} {rid : BitVec 32} {status : Nat} {body : List Byte} : Keeps ks s₀ (State.hmpReply s op rid status body) := by
  unfold State.hmpReply
  try dsimp only
  repeat' with_reducible first
      | exact hk | exact Kind.Sub.mono rfl hs | apply State.send_keeps | assumption

theorem State.hmpRefused_keeps {ks : List Kind} {s₀ s : State} (hk : Keeps ks s₀ s) (hs : Kind.Sub [.regs, .events] ks)
    {status : Nat} : Keeps ks s₀ (State.hmpRefused s status) := by
  unfold State.hmpRefused
  try dsimp only
  repeat' with_reducible first
      | exact hk | exact Kind.Sub.mono rfl hs | apply Keeps.ite | apply State.raise_keeps | assumption

theorem State.hmpDeny_keeps {ks : List Kind} {s₀ s : State} (hk : Keeps ks s₀ s) (hs : Kind.Sub [.regs, .events, .mgmt] ks)
    {op : Nat} {rid : BitVec 32} : Keeps ks s₀ (State.hmpDeny s op rid) := by
  unfold State.hmpDeny
  try dsimp only
  repeat' with_reducible first
      | exact hk | exact Kind.Sub.mono rfl hs | apply State.hmpReply_keeps | apply State.hmpRefused_keeps | assumption

theorem State.hmpRefuse_keeps {ks : List Kind} {s₀ s : State} (hk : Keeps ks s₀ s) (hs : Kind.Sub [.regs, .events, .mgmt] ks)
    {op : Nat} {rid : BitVec 32} {reason : Nat} : Keeps ks s₀ (State.hmpRefuse s op rid reason) := by
  unfold State.hmpRefuse
  try dsimp only
  repeat' with_reducible first
      | exact hk | exact Kind.Sub.mono rfl hs | apply State.hmpReply_keeps | apply State.hmpRefused_keeps | assumption

theorem State.hmpRefuseFree_keeps {ks : List Kind} {s₀ s : State} (hk : Keeps ks s₀ s) (hs : Kind.Sub [.regs, .events, .mgmt, .free] ks)
    {op : Nat} {rid : BitVec 32} : Keeps ks s₀ (State.hmpRefuseFree s op rid) := by
  unfold State.hmpRefuseFree
  try dsimp only
  repeat' with_reducible first
      | exact hk | exact Kind.Sub.mono rfl hs | apply State.takeFree_keeps | apply State.hmpReply_keeps | apply State.hmpRefused_keeps
      | assumption

theorem State.hmpTake_keeps {ks : List Kind} {s₀ s : State} (hk : Keeps ks s₀ s) (hs : Kind.Sub [.regs, .mgmt] ks)
    {f : State → State} (hf : ∀ s, Keeps ks s₀ s → Keeps ks s₀ (f s)) : Keeps ks s₀ (State.hmpTake s f) := by
  unfold State.hmpTake
  try dsimp only
  repeat' with_reducible first
      | exact hk | exact Kind.Sub.mono rfl hs | apply hf | apply Keeps.ite | apply State.netDrop_keeps | apply State.netSecond_keeps
      | assumption | apply Keeps.other | exact Or.inl (Kind.Sub.mem hs rfl) | exact Or.inr rfl

theorem State.needNonce_keeps {ks : List Kind} {s₀ s : State} (hk : Keeps ks s₀ s) (hs : Kind.Sub [.mgmt, .free] ks)
     : Keeps ks s₀ (State.needNonce s) := by
  unfold State.needNonce
  try dsimp only
  repeat' with_reducible first
      | exact hk | exact Kind.Sub.mono rfl hs | apply Keeps.ite | apply State.takeFree_keeps | assumption | apply Keeps.other
      | exact Or.inl (Kind.Sub.mem hs rfl) | exact Or.inr rfl

theorem State.useToken_keeps {ks : List Kind} {s₀ s : State} (hk : Keeps ks s₀ s) (hs : Kind.Sub [.mgmt] ks)
     : Keeps ks s₀ (State.useToken s) := by
  unfold State.useToken
  try dsimp only
  repeat' with_reducible first
      | exact hk | exact Kind.Sub.mono rfl hs | assumption | apply Keeps.other | exact Or.inl (Kind.Sub.mem hs rfl) | exact Or.inr rfl

theorem State.withPerm_keeps {ks : List Kind} {s₀ s : State} (hk : Keeps ks s₀ s) (hs : Kind.Sub [.regs, .events, .mgmt] ks)
    {op : Nat} {src : NetAddr} {rid : BitVec 32} {perm : Nat} {f : State → State} (hf : ∀ s, Keeps ks s₀ s → Keeps ks s₀ (f s)) : Keeps ks s₀ (State.withPerm s op src rid perm f) := by
  unfold State.withPerm
  try dsimp only
  repeat' with_reducible first
      | exact hk | exact Kind.Sub.mono rfl hs | apply hf | apply Keeps.ite | apply State.hmpReply_keeps | apply State.hmpDeny_keeps
      | apply State.useToken_keeps | assumption

theorem State.openDebug_keeps {ks : List Kind} {s₀ s : State} (hk : Keeps ks s₀ s) (hs : Kind.Sub [.regs, .events] ks)
     : Keeps ks s₀ (State.openDebug s) := by
  unfold State.openDebug
  try dsimp only
  repeat' with_reducible first
      | exact hk | exact Kind.Sub.mono rfl hs | apply Keeps.ite | apply State.put_keeps | apply State.raise_keeps | assumption

theorem State.takeToken_keeps {ks : List Kind} {s₀ s : State} (hk : Keeps ks s₀ s) (hs : Kind.Sub [.regs, .events, .mgmt, .free] ks)
    {src : NetAddr} {rid : BitVec 32} : Keeps ks s₀ (State.takeToken s src rid) := by
  unfold State.takeToken
  try dsimp only
  repeat' with_reducible first
      | exact hk | exact Kind.Sub.mono rfl hs | apply Keeps.ite | apply State.hmpReply_keeps | apply State.hmpRefuseFree_keeps
      | apply State.needNonce_keeps | apply State.openDebug_keeps | assumption | apply Keeps.other | exact Or.inl (Kind.Sub.mem hs rfl)
      | exact Or.inr rfl

theorem State.tokenPiece_keeps {ks : List Kind} {s₀ s : State} (hk : Keeps ks s₀ s) (hs : Kind.Sub [.regs, .events, .mgmt, .free] ks)
    {src : NetAddr} {rid : BitVec 32} {off : Nat} {data : List Byte} : Keeps ks s₀ (State.tokenPiece s src rid off data) := by
  unfold State.tokenPiece
  try dsimp only
  repeat' with_reducible first
      | exact hk | exact Kind.Sub.mono rfl hs | apply Keeps.ite | apply State.hmpReply_keeps | apply State.takeToken_keeps | assumption
      | apply Keeps.other | exact Or.inl (Kind.Sub.mem hs rfl) | exact Or.inr rfl

theorem State.wrongState_keeps {ks : List Kind} {s₀ s : State} (hk : Keeps ks s₀ s) (hs : Kind.Sub [.regs, .events, .mgmt, .free] ks)
    {op : Nat} {rid : BitVec 32} : Keeps ks s₀ (State.wrongState s op rid) := by
  unfold State.wrongState
  try dsimp only
  repeat' with_reducible first
      | exact hk | exact Kind.Sub.mono rfl hs | apply State.raise_keeps | apply State.hmpRefuseFree_keeps | assumption

theorem State.finishFirmware_keeps {ks : List Kind} {s₀ s : State} (hk : Keeps ks s₀ s) (hs : Kind.Sub [.regs, .events, .mgmt, .sec, .free] ks)
    {x : Xfer} {rid : BitVec 32} : Keeps ks s₀ (State.finishFirmware s x rid) := by
  unfold State.finishFirmware
  try dsimp only
  repeat' with_reducible first
      | exact hk | exact Kind.Sub.mono rfl hs | apply Keeps.ite | apply State.flashStore_keeps | apply State.finishStage_keeps
      | apply State.hmpReply_keeps | apply State.hmpRefuse_keeps | apply State.wrongState_keeps | assumption
      | exact Keeps.ofFst (State.finishStage_keeps hk (Kind.Sub.mono rfl hs)) (by assumption)

theorem State.finishRecovery_keeps {ks : List Kind} {s₀ s : State} (hk : Keeps ks s₀ s) (hs : Kind.Sub [.regs, .events, .mgmt, .sec] ks)
    {x : Xfer} {rid : BitVec 32} : Keeps ks s₀ (State.finishRecovery s x rid) := by
  unfold State.finishRecovery
  try dsimp only
  repeat' with_reducible first
      | exact hk | exact Kind.Sub.mono rfl hs | apply Keeps.ite | apply State.showCode_keeps | apply State.flashStore_keeps
      | apply State.slotAppend_keeps | apply State.showExam_keeps | apply State.setUpd_keeps | apply State.eraseSlot_keeps
      | apply State.hmpReply_keeps | apply State.hmpRefuse_keeps | assumption | apply Keeps.other | exact Or.inl (Kind.Sub.mem hs rfl)
      | exact Or.inr rfl

theorem State.serveHmp_keeps {ks : List Kind} {s₀ s : State} (hk : Keeps ks s₀ s) (hs : Kind.Sub [.regs, .mem, .ecc, .progs, .yards, .flags, .fabric, .strm, .events, .queue, .hyper, .mgmt, .sec, .free] ks)
    {w : HmpWait} : Keeps ks s₀ (State.serveHmp s w) := by
  unfold State.serveHmp
  try dsimp only
  repeat' with_reducible first
      | exact hk | exact Kind.Sub.mono rfl hs | apply Keeps.ite | apply State.daxa_keeps | apply State.activate_keeps
      | apply State.commitTrial_keeps | exact State.cancelUpd_keeps (by assumption) (Kind.Sub.mono rfl hs) (by assumption)
      | apply State.send_keeps | apply State.hmpReply_keeps | apply State.hmpRefuseFree_keeps | apply State.wrongState_keeps
      | apply State.finishFirmware_keeps | assumption | exact Keeps.ofFst (State.daxa_keeps hk (Kind.Sub.mono rfl hs)) (by assumption)
      | exact Keeps.ofFst (State.activate_keeps hk (Kind.Sub.mono rfl hs)) (by assumption) | split | apply Keeps.other
      | exact Or.inl (Kind.Sub.mem hs rfl) | exact Or.inr rfl

theorem State.hmpWait_keeps {ks : List Kind} {s₀ s : State} (hk : Keeps ks s₀ s) (hs : Kind.Sub [.mgmt] ks)
    {w : HmpWait} : Keeps ks s₀ (State.hmpWait s w) := by
  unfold State.hmpWait
  try dsimp only
  repeat' with_reducible first
      | exact hk | exact Kind.Sub.mono rfl hs | assumption | apply Keeps.other | exact Or.inl (Kind.Sub.mem hs rfl) | exact Or.inr rfl

theorem State.askSp_keeps {ks : List Kind} {s₀ s : State} (hk : Keeps ks s₀ s) (hs : Kind.Sub [.regs, .mem, .ecc, .progs, .yards, .flags, .fabric, .strm, .events, .queue, .hyper, .mgmt, .sec, .free] ks)
    {w : HmpWait} : Keeps ks s₀ (State.askSp s w) := by
  unfold State.askSp
  try dsimp only
  repeat' with_reducible first
      | exact hk | exact Kind.Sub.mono rfl hs | apply Keeps.ite | apply State.serveHmp_keeps | apply State.hmpWait_keeps | assumption

theorem State.writeReq_keeps {ks : List Kind} {s₀ s : State} (hk : Keeps ks s₀ s) (hs : Kind.Sub [.regs] ks)
    {n : Nat} {b : List Byte} : Keeps ks s₀ (State.writeReq s n b) := by
  unfold State.writeReq
  try dsimp only
  repeat' with_reducible first
      | exact hk | exact Kind.Sub.mono rfl hs | apply State.setReg_keeps | refine Keeps.foldl (fun s x hk => ?_) _ ?_ | assumption

theorem State.mboxReply_keeps {ks : List Kind} {s₀ s : State} (hk : Keeps ks s₀ s) (hs : Kind.Sub [.regs, .rig, .events, .mgmt] ks)
    {w : HmpWait} : Keeps ks s₀ (State.mboxReply s w) := by
  unfold State.mboxReply
  try dsimp only
  repeat' with_reducible first
      | exact hk | exact Kind.Sub.mono rfl hs | apply Keeps.ite | apply State.put_keeps | apply State.hmpReply_keeps
      | apply State.hmpRefuse_keeps | assumption | apply Keeps.other | exact Or.inl (Kind.Sub.mem hs rfl) | exact Or.inr rfl

theorem State.hmpSettleOne_keeps {ks : List Kind} {s₀ s : State} (hk : Keeps ks s₀ s) (hs : Kind.Sub [.regs, .mem, .ecc, .progs, .yards, .flags, .fabric, .strm, .rig, .events, .queue, .hyper, .mgmt, .sec, .free] ks)
    {w : HmpWait} : Keeps ks s₀ (State.hmpSettleOne s w) := by
  unfold State.hmpSettleOne
  try dsimp only
  repeat' with_reducible first
      | exact hk | exact Kind.Sub.mono rfl hs | apply Keeps.ite | apply State.hmpWait_keeps | apply State.askSp_keeps
      | apply State.mboxReply_keeps | assumption

theorem State.hmpSettle_keeps {ks : List Kind} {s₀ s : State} (hk : Keeps ks s₀ s) (hs : Kind.Sub [.regs, .mem, .ecc, .progs, .yards, .flags, .fabric, .strm, .rig, .events, .queue, .hyper, .mgmt, .sec, .free] ks)
     : Keeps ks s₀ (State.hmpSettle s) := by
  unfold State.hmpSettle
  try dsimp only
  repeat' with_reducible first
      | exact hk | exact Kind.Sub.mono rfl hs | apply Keeps.ite | apply State.hmpSettleOne_keeps
      | refine Keeps.foldl (fun s x hk => ?_) _ ?_ | assumption | apply Keeps.other | exact Or.inl (Kind.Sub.mem hs rfl)
      | exact Or.inr rfl

theorem State.serveOlder_keeps {ks : List Kind} {s₀ s : State} (hk : Keeps ks s₀ s) (hs : Kind.Sub [.regs, .mem, .ecc, .progs, .yards, .flags, .fabric, .strm, .events, .queue, .hyper, .mgmt, .sec, .free] ks)
     : Keeps ks s₀ (State.serveOlder s) := by
  unfold State.serveOlder
  try dsimp only
  repeat' with_reducible first
      | exact hk | exact Kind.Sub.mono rfl hs | apply Keeps.ite | apply State.serveHmp_keeps | refine Keeps.foldl (fun s x hk => ?_) _ ?_
      | assumption | apply Keeps.other | exact Or.inl (Kind.Sub.mem hs rfl) | exact Or.inr rfl

theorem State.serveWaiting_keeps {ks : List Kind} {s₀ s : State} (hk : Keeps ks s₀ s) (hs : Kind.Sub [.regs, .mem, .ecc, .progs, .yards, .flags, .fabric, .strm, .rig, .events, .queue, .hyper, .mgmt, .sec, .power, .free] ks)
     : Keeps ks s₀ (State.serveWaiting s) := by
  unfold State.serveWaiting
  try dsimp only
  repeat' with_reducible first
      | exact hk | exact Kind.Sub.mono rfl hs | apply State.serveSp_keeps | apply State.hmpSettle_keeps | apply State.serveOlder_keeps
      | assumption

theorem State.askMbox_keeps {ks : List Kind} {s₀ s : State} (hk : Keeps ks s₀ s) (hs : Kind.Sub [.regs, .mem, .ecc, .tick, .progs, .serials, .yards, .flags, .fabric, .strm, .rig, .events, .queue, .media, .gpio, .hyper, .mgmt, .sec, .power, .free] ks)
    {w : HmpWait} {b : List Byte} : Keeps ks s₀ (State.askMbox s w b) := by
  unfold State.askMbox
  try dsimp only
  repeat' with_reducible first
      | exact hk | exact Kind.Sub.mono rfl hs | apply State.accept_keeps | apply State.hmpWait_keeps | apply State.writeReq_keeps
      | apply State.hmpSettle_keeps | assumption

theorem State.viaMbox3_keeps {ks : List Kind} {s₀ s : State} (hk : Keeps ks s₀ s) (hs : Kind.Sub [.regs, .mem, .ecc, .tick, .progs, .serials, .yards, .flags, .fabric, .strm, .rig, .events, .queue, .media, .gpio, .hyper, .mgmt, .sec, .power, .free] ks)
    {src : NetAddr} {rid : BitVec 32} {op : Nat} {perm : Nat} {b : List Byte} : Keeps ks s₀ (State.viaMbox3 s src rid op perm b) := by
  unfold State.viaMbox3
  try dsimp only
  repeat' with_reducible first
      | exact hk | exact Kind.Sub.mono rfl hs | apply Keeps.ite | apply State.hmpReply_keeps | apply State.hmpDeny_keeps
      | refine State.withPerm_keeps ?_ (Kind.Sub.mono rfl hs) (fun s hk => ?_) | apply State.askMbox_keeps | assumption

theorem State.startXfer_keeps {ks : List Kind} {s₀ s : State} (hk : Keeps ks s₀ s) (hs : Kind.Sub [.regs, .mgmt, .sec] ks)
    {target : Nat} {size : Nat} {chunks : Nat} {h0 : List Byte} : Keeps ks s₀ (State.startXfer s target size chunks h0) := by
  unfold State.startXfer
  try dsimp only
  repeat' with_reducible first
      | exact hk | exact Kind.Sub.mono rfl hs | apply Keeps.ite | apply State.setDeferred_keeps | apply State.beginStage_keeps
      | assumption | apply Keeps.other | exact Or.inl (Kind.Sub.mem hs rfl) | exact Or.inr rfl

theorem State.beginXfer_keeps {ks : List Kind} {s₀ s : State} (hk : Keeps ks s₀ s) (hs : Kind.Sub [.regs, .events, .mgmt, .sec, .free] ks)
    {src : NetAddr} {rid : BitVec 32} {target : Nat} {size : Nat} {chunks : Nat} {h0 : List Byte} : Keeps ks s₀ (State.beginXfer s src rid target size chunks h0) := by
  unfold State.beginXfer
  try dsimp only
  repeat' with_reducible first
      | exact hk | exact Kind.Sub.mono rfl hs | apply Keeps.ite | apply State.showCode_keeps | apply State.hmpReply_keeps
      | apply State.hmpDeny_keeps | apply State.hmpRefuse_keeps | apply State.useToken_keeps | apply State.wrongState_keeps
      | apply State.startXfer_keeps | assumption

theorem State.badChunk_keeps {ks : List Kind} {s₀ s : State} (hk : Keeps ks s₀ s) (hs : Kind.Sub [.mgmt] ks)
    {rid : BitVec 32} {i : Nat} : Keeps ks s₀ (State.badChunk s rid i) := by
  unfold State.badChunk
  try dsimp only
  repeat' with_reducible first
      | exact hk | exact Kind.Sub.mono rfl hs | apply State.hmpReply_keeps | assumption

theorem State.takeChunk_keeps {ks : List Kind} {s₀ s : State} (hk : Keeps ks s₀ s) (hs : Kind.Sub [.regs, .events, .mgmt] ks)
    {src : NetAddr} {rid : BitVec 32} {index : Nat} {data : List Byte} {next : List Byte} : Keeps ks s₀ (State.takeChunk s src rid index data next) := by
  unfold State.takeChunk
  try dsimp only
  repeat' with_reducible first
      | exact hk | exact Kind.Sub.mono rfl hs | apply Keeps.ite | apply State.hmpReply_keeps | apply State.hmpDeny_keeps
      | apply State.badChunk_keeps | assumption | split | apply Keeps.other | exact Or.inl (Kind.Sub.mem hs rfl) | exact Or.inr rfl

theorem State.endXfer_keeps {ks : List Kind} {s₀ s : State} (hk : Keeps ks s₀ s) (hs : Kind.Sub [.regs, .mem, .ecc, .tick, .progs, .serials, .yards, .flags, .fabric, .strm, .rig, .events, .queue, .media, .gpio, .hyper, .mgmt, .sec, .power, .free] ks)
    {src : NetAddr} {rid : BitVec 32} : Keeps ks s₀ (State.endXfer s src rid) := by
  unfold State.endXfer
  try dsimp only
  repeat' with_reducible first
      | exact hk | exact Kind.Sub.mono rfl hs | apply Keeps.ite | apply State.hmpReply_keeps | apply State.hmpDeny_keeps
      | apply State.hmpRefuseFree_keeps | apply State.finishRecovery_keeps | apply State.askSp_keeps | apply State.askMbox_keeps
      | assumption | split | apply Keeps.other | exact Or.inl (Kind.Sub.mem hs rfl) | exact Or.inr rfl

theorem execUsb2GetStatus_keeps {ks : List Kind} {s₀ s s₁ : State} (hk : Keeps ks s₀ s) (hs : Kind.Sub [.queue] ks) 
    (hx : execUsb2GetStatus s = .next s₁) : Keeps ks s₀ s₁ := by
  unfold execUsb2GetStatus at hx
  injection hx with hx
  subst hx
  try dsimp only
  repeat' with_reducible first
      | exact hk | exact Kind.Sub.mono rfl hs | apply Keeps.ite | assumption | apply Keeps.other | exact Or.inl (Kind.Sub.mem hs rfl)
      | exact Or.inr rfl

theorem execUsb2InterruptPoll_keeps {ks : List Kind} {s₀ s s₁ : State} (hk : Keeps ks s₀ s) (hs : Kind.Sub [.queue] ks) 
    (hx : execUsb2InterruptPoll s = .next s₁) : Keeps ks s₀ s₁ := by
  unfold execUsb2InterruptPoll at hx
  injection hx with hx
  subst hx
  try dsimp only
  repeat' with_reducible first
      | exact hk | exact Kind.Sub.mono rfl hs | apply Keeps.ite | assumption | apply Keeps.other | exact Or.inl (Kind.Sub.mem hs rfl)
      | exact Or.inr rfl

theorem execHmpHello_keeps {ks : List Kind} {s₀ s s₁ : State} (hk : Keeps ks s₀ s) (hs : Kind.Sub [.regs, .mgmt, .free] ks) {_src : NetAddr} {rid : BitVec 32}
    (hx : execHmpHello _src rid s = .next s₁) : Keeps ks s₀ s₁ := by
  unfold execHmpHello at hx
  injection hx with hx
  subst hx
  try dsimp only
  repeat' with_reducible first
      | exact hk | exact Kind.Sub.mono rfl hs | apply State.takeFree_keeps | apply State.hmpReply_keeps
      | refine State.hmpTake_keeps ?_ (Kind.Sub.mono rfl hs) (fun s hk => ?_) | apply State.needNonce_keeps | assumption

theorem execHmpStatus_keeps {ks : List Kind} {s₀ s s₁ : State} (hk : Keeps ks s₀ s) (hs : Kind.Sub [.regs, .mgmt] ks) {_src : NetAddr} {rid : BitVec 32}
    (hx : execHmpStatus _src rid s = .next s₁) : Keeps ks s₀ s₁ := by
  unfold execHmpStatus at hx
  injection hx with hx
  subst hx
  try dsimp only
  repeat' with_reducible first
      | exact hk | exact Kind.Sub.mono rfl hs | apply State.hmpReply_keeps
      | refine State.hmpTake_keeps ?_ (Kind.Sub.mono rfl hs) (fun s hk => ?_) | assumption

theorem execHmpTokenPut_keeps {ks : List Kind} {s₀ s s₁ : State} (hk : Keeps ks s₀ s) (hs : Kind.Sub [.regs, .events, .mgmt, .free] ks) {src : NetAddr} {rid : BitVec 32} {off : BitVec 16} {data : List (BitVec 8)}
    (hx : execHmpTokenPut src rid off data s = .next s₁) : Keeps ks s₀ s₁ := by
  unfold execHmpTokenPut at hx
  injection hx with hx
  subst hx
  try dsimp only
  repeat' with_reducible first
      | exact hk | exact Kind.Sub.mono rfl hs | refine State.hmpTake_keeps ?_ (Kind.Sub.mono rfl hs) (fun s hk => ?_)
      | apply State.tokenPiece_keeps | assumption

theorem execHmpXferBegin_keeps {ks : List Kind} {s₀ s s₁ : State} (hk : Keeps ks s₀ s) (hs : Kind.Sub [.regs, .events, .mgmt, .sec, .free] ks) {src : NetAddr} {rid : BitVec 32} {target : BitVec 8} {size : BitVec 32} {chunks : BitVec 32} {h0 : List (BitVec 8)}
    (hx : execHmpXferBegin src rid target size chunks h0 s = .next s₁) : Keeps ks s₀ s₁ := by
  unfold execHmpXferBegin at hx
  injection hx with hx
  subst hx
  try dsimp only
  repeat' with_reducible first
      | exact hk | exact Kind.Sub.mono rfl hs | refine State.hmpTake_keeps ?_ (Kind.Sub.mono rfl hs) (fun s hk => ?_)
      | apply State.beginXfer_keeps | assumption

theorem execHmpXferChunk_keeps {ks : List Kind} {s₀ s s₁ : State} (hk : Keeps ks s₀ s) (hs : Kind.Sub [.regs, .events, .mgmt] ks) {src : NetAddr} {rid : BitVec 32} {index : BitVec 32} {data : List (BitVec 8)} {next : List (BitVec 8)}
    (hx : execHmpXferChunk src rid index data next s = .next s₁) : Keeps ks s₀ s₁ := by
  unfold execHmpXferChunk at hx
  injection hx with hx
  subst hx
  try dsimp only
  repeat' with_reducible first
      | exact hk | exact Kind.Sub.mono rfl hs | refine State.hmpTake_keeps ?_ (Kind.Sub.mono rfl hs) (fun s hk => ?_)
      | apply State.takeChunk_keeps | assumption

theorem execHmpXferEnd_keeps {ks : List Kind} {s₀ s s₁ : State} (hk : Keeps ks s₀ s) (hs : Kind.Sub [.regs, .mem, .ecc, .tick, .progs, .serials, .yards, .flags, .fabric, .strm, .rig, .events, .queue, .media, .gpio, .hyper, .mgmt, .sec, .power, .free] ks) {src : NetAddr} {rid : BitVec 32}
    (hx : execHmpXferEnd src rid s = .next s₁) : Keeps ks s₀ s₁ := by
  unfold execHmpXferEnd at hx
  injection hx with hx
  subst hx
  try dsimp only
  repeat' with_reducible first
      | exact hk | exact Kind.Sub.mono rfl hs | refine State.hmpTake_keeps ?_ (Kind.Sub.mono rfl hs) (fun s hk => ?_)
      | apply State.endXfer_keeps | assumption

theorem execHmpActivate_keeps {ks : List Kind} {s₀ s s₁ : State} (hk : Keeps ks s₀ s) (hs : Kind.Sub [.regs, .mem, .ecc, .progs, .yards, .flags, .fabric, .strm, .events, .queue, .hyper, .mgmt, .sec, .free] ks) {src : NetAddr} {rid : BitVec 32}
    (hx : execHmpActivate src rid s = .next s₁) : Keeps ks s₀ s₁ := by
  unfold execHmpActivate at hx
  injection hx with hx
  subst hx
  try dsimp only
  repeat' with_reducible first
      | exact hk | exact Kind.Sub.mono rfl hs | refine State.hmpTake_keeps ?_ (Kind.Sub.mono rfl hs) (fun s hk => ?_)
      | refine State.withPerm_keeps ?_ (Kind.Sub.mono rfl hs) (fun s hk => ?_) | apply State.askSp_keeps | assumption

theorem execHmpCommit_keeps {ks : List Kind} {s₀ s s₁ : State} (hk : Keeps ks s₀ s) (hs : Kind.Sub [.regs, .mem, .ecc, .progs, .yards, .flags, .fabric, .strm, .events, .queue, .hyper, .mgmt, .sec, .free] ks) {src : NetAddr} {rid : BitVec 32}
    (hx : execHmpCommit src rid s = .next s₁) : Keeps ks s₀ s₁ := by
  unfold execHmpCommit at hx
  injection hx with hx
  subst hx
  try dsimp only
  repeat' with_reducible first
      | exact hk | exact Kind.Sub.mono rfl hs | refine State.hmpTake_keeps ?_ (Kind.Sub.mono rfl hs) (fun s hk => ?_)
      | refine State.withPerm_keeps ?_ (Kind.Sub.mono rfl hs) (fun s hk => ?_) | apply State.askSp_keeps | assumption

theorem execHmpCancel_keeps {ks : List Kind} {s₀ s s₁ : State} (hk : Keeps ks s₀ s) (hs : Kind.Sub [.regs, .mem, .ecc, .progs, .yards, .flags, .fabric, .strm, .events, .queue, .hyper, .mgmt, .sec, .free] ks) {src : NetAddr} {rid : BitVec 32}
    (hx : execHmpCancel src rid s = .next s₁) : Keeps ks s₀ s₁ := by
  unfold execHmpCancel at hx
  injection hx with hx
  subst hx
  try dsimp only
  repeat' with_reducible first
      | exact hk | exact Kind.Sub.mono rfl hs | refine State.hmpTake_keeps ?_ (Kind.Sub.mono rfl hs) (fun s hk => ?_)
      | refine State.withPerm_keeps ?_ (Kind.Sub.mono rfl hs) (fun s hk => ?_) | apply State.askSp_keeps | assumption

theorem execHmpRevert_keeps {ks : List Kind} {s₀ s s₁ : State} (hk : Keeps ks s₀ s) (hs : Kind.Sub [.regs, .mem, .ecc, .tick, .progs, .serials, .yards, .flags, .fabric, .strm, .rig, .events, .queue, .media, .gpio, .hyper, .mgmt, .sec, .power, .free] ks) {src : NetAddr} {rid : BitVec 32} {persist : BitVec 8}
    (hx : execHmpRevert src rid persist s = .next s₁) : Keeps ks s₀ s₁ := by
  unfold execHmpRevert at hx
  injection hx with hx
  subst hx
  try dsimp only
  repeat' with_reducible first
      | exact hk | exact Kind.Sub.mono rfl hs | apply Keeps.ite | apply State.hmpReply_keeps
      | refine State.hmpTake_keeps ?_ (Kind.Sub.mono rfl hs) (fun s hk => ?_) | apply State.viaMbox3_keeps | assumption

theorem execHmpDownhaul_keeps {ks : List Kind} {s₀ s s₁ : State} (hk : Keeps ks s₀ s) (hs : Kind.Sub [.regs, .progs, .yards, .flags, .fabric, .strm, .events, .queue, .gpio, .hyper, .mgmt] ks) {src : NetAddr} {rid : BitVec 32}
    (hx : execHmpDownhaul src rid s = .next s₁) : Keeps ks s₀ s₁ := by
  unfold execHmpDownhaul at hx
  injection hx with hx
  subst hx
  try dsimp only
  repeat' with_reducible first
      | exact hk | exact Kind.Sub.mono rfl hs | apply State.downhaul_keeps | apply State.hmpReply_keeps
      | refine State.hmpTake_keeps ?_ (Kind.Sub.mono rfl hs) (fun s hk => ?_)
      | refine State.withPerm_keeps ?_ (Kind.Sub.mono rfl hs) (fun s hk => ?_) | assumption

theorem execHmpRestart_keeps {ks : List Kind} {s₀ s s₁ : State} (hk : Keeps ks s₀ s) (hs : Kind.Sub [.regs, .mem, .ecc, .tick, .progs, .serials, .yards, .flags, .fabric, .strm, .rig, .events, .queue, .media, .gpio, .hyper, .mgmt, .sec, .power, .free] ks) {src : NetAddr} {rid : BitVec 32} {body : List (BitVec 8)}
    (hx : execHmpRestart src rid body s = .next s₁) : Keeps ks s₀ s₁ := by
  unfold execHmpRestart at hx
  injection hx with hx
  subst hx
  try dsimp only
  repeat' with_reducible first
      | exact hk | exact Kind.Sub.mono rfl hs | apply Keeps.ite | apply State.hmpReply_keeps
      | refine State.hmpTake_keeps ?_ (Kind.Sub.mono rfl hs) (fun s hk => ?_) | apply State.viaMbox3_keeps | assumption

theorem execHmpSetNet_keeps {ks : List Kind} {s₀ s s₁ : State} (hk : Keeps ks s₀ s) (hs : Kind.Sub [.regs, .events, .mgmt, .sec] ks) {src : NetAddr} {rid : BitVec 32} {body : List (BitVec 8)}
    (hx : execHmpSetNet src rid body s = .next s₁) : Keeps ks s₀ s₁ := by
  unfold execHmpSetNet at hx
  injection hx with hx
  subst hx
  try dsimp only
  repeat' with_reducible first
      | exact hk | exact Kind.Sub.mono rfl hs | apply Keeps.ite | apply State.showNet_keeps | apply State.hmpReply_keeps
      | refine State.hmpTake_keeps ?_ (Kind.Sub.mono rfl hs) (fun s hk => ?_)
      | refine State.withPerm_keeps ?_ (Kind.Sub.mono rfl hs) (fun s hk => ?_) | assumption | apply Keeps.other
      | exact Or.inl (Kind.Sub.mem hs rfl) | exact Or.inr rfl

theorem execHmpReadLog_keeps {ks : List Kind} {s₀ s s₁ : State} (hk : Keeps ks s₀ s) (hs : Kind.Sub [.regs, .events, .mgmt, .free] ks) {src : NetAddr} {rid : BitVec 32} {off : BitVec 32}
    (hx : execHmpReadLog src rid off s = .next s₁) : Keeps ks s₀ s₁ := by
  unfold execHmpReadLog at hx
  injection hx with hx
  subst hx
  try dsimp only
  repeat' with_reducible first
      | exact hk | exact Kind.Sub.mono rfl hs | apply State.takeFree_keeps | apply State.hmpReply_keeps
      | refine State.hmpTake_keeps ?_ (Kind.Sub.mono rfl hs) (fun s hk => ?_)
      | refine State.withPerm_keeps ?_ (Kind.Sub.mono rfl hs) (fun s hk => ?_) | assumption

theorem execHmpAttest_keeps {ks : List Kind} {s₀ s s₁ : State} (hk : Keeps ks s₀ s) (hs : Kind.Sub [.regs, .mem, .ecc, .progs, .yards, .flags, .fabric, .strm, .events, .queue, .hyper, .mgmt, .sec, .free] ks) {src : NetAddr} {rid : BitVec 32} {nonce : List (BitVec 8)}
    (hx : execHmpAttest src rid nonce s = .next s₁) : Keeps ks s₀ s₁ := by
  unfold execHmpAttest at hx
  injection hx with hx
  subst hx
  try dsimp only
  repeat' with_reducible first
      | exact hk | exact Kind.Sub.mono rfl hs | apply Keeps.ite | apply State.hmpReply_keeps
      | refine State.hmpTake_keeps ?_ (Kind.Sub.mono rfl hs) (fun s hk => ?_)
      | refine State.withPerm_keeps ?_ (Kind.Sub.mono rfl hs) (fun s hk => ?_) | apply State.askSp_keeps | assumption

end Sys2Proof.Machine
end

