-- ==== Sys2Proof/Laws/KeepsRegAccess.lean ====
section
/-! SUPPORT. The operations of Sys2Proof/Machine/RegAccess.lean keep (see Sys2Proof/Laws/KeepsBase.lean). -/

namespace Sys2Proof.Machine

theorem State.viaAny_keeps {ks : List Kind} {s₀ s : State} (hk : Keeps ks s₀ s) (hs : Kind.Sub [.regs] ks)
    {rq : Requester} {f : State → State} (hf : ∀ s, Keeps ks s₀ s → Keeps ks s₀ (f s)) : Keeps ks s₀ (State.viaAny s rq f) := by
  unfold State.viaAny
  try dsimp only
  repeat' with_reducible first
      | exact hk | exact Kind.Sub.mono rfl hs | apply hf | apply Keeps.ite
      | refine State.viaHost_keeps ?_ (Kind.Sub.mono rfl hs) (fun s hk => ?_) | assumption | split

theorem State.msixWrite_keeps {ks : List Kind} {s₀ s : State} (hk : Keeps ks s₀ s) (hs : Kind.Sub [.queue] ks)
    {k_ : Nat} {v : BitVec 32} : Keeps ks s₀ (State.msixWrite s k_ v) := by
  unfold State.msixWrite
  try dsimp only
  repeat' with_reducible first
      | exact hk | exact Kind.Sub.mono rfl hs | apply Keeps.ite | apply State.signal_keeps | assumption | apply Keeps.other
      | exact Or.inl (Kind.Sub.mem hs rfl) | exact Or.inr rfl

theorem State.descWrite_keeps {ks : List Kind} {s₀ s : State} (hk : Keeps ks s₀ s) (hs : Kind.Sub [.regs, .mem, .ecc, .events, .queue] ks)
    {q : Nat} {w : Nat} {v : BitVec 32} : Keeps ks s₀ (State.descWrite s q w v) := by
  unfold State.descWrite
  try dsimp only
  repeat' with_reducible first
      | exact hk | exact Kind.Sub.mono rfl hs | apply Keeps.ite | apply State.qSet_keeps | apply State.qFlags_keeps | assumption

theorem State.readAt_keeps {ks : List Kind} {s₀ s : State} (hk : Keeps ks s₀ s) (hs : Kind.Sub [.latch, .queue, .free] ks)
    {rq : Requester} {off : Nat} : Keeps ks s₀ (State.readAt s rq off) := by
  unfold State.readAt
  try dsimp only
  repeat' with_reducible first
      | exact hk | exact Kind.Sub.mono rfl hs | apply Keeps.ite | apply State.takeFree_keeps | apply State.setLatched_keeps | assumption
      | split | apply Keeps.other | exact Or.inl (Kind.Sub.mem hs rfl) | exact Or.inr rfl

theorem State.codeWrite_keeps {ks : List Kind} {s₀ s : State} (hk : Keeps ks s₀ s) (hs : Kind.Sub [.regs] ks)
    {rq : Requester} {r : RegId} {v : BitVec 64} : Keeps ks s₀ (State.codeWrite s rq r v) := by
  unfold State.codeWrite
  try dsimp only
  repeat' with_reducible first
      | exact hk | exact Kind.Sub.mono rfl hs | apply Keeps.ite | apply State.setReg_keeps | assumption

theorem State.nextOr_keeps {ks : List Kind} {s₀ s : State} (hk : Keeps ks s₀ s) {o : Host.Outcome State Fault Refusal}
    (ho : ∀ t, o = .next t → Keeps ks s₀ t) : Keeps ks s₀ (State.nextOr s o) := by
  unfold State.nextOr
  split
  · exact ho _ rfl
  · exact hk

theorem State.mboxGo_keeps {ks : List Kind} {s₀ s : State} (hk : Keeps ks s₀ s) (hs : Kind.Sub [.regs, .mem, .ecc, .tick, .progs, .serials, .yards, .flags, .fabric, .strm, .rig, .events, .queue, .media, .gpio, .hyper, .sec, .power, .free] ks)
    {n : Nat} : Keeps ks s₀ (State.mboxGo s n) := by
  unfold State.mboxGo
  try dsimp only
  repeat' with_reducible first
      | exact hk | exact Kind.Sub.mono rfl hs | apply Keeps.ite | apply State.accept_keeps | assumption | apply Keeps.other
      | exact Or.inl (Kind.Sub.mem hs rfl) | exact Or.inr rfl

theorem State.runWrite_keeps {ks : List Kind} {s₀ s : State} (hk : Keeps ks s₀ s) (hs : Kind.Sub [.regs, .tick, .events] ks)
    {run : Bool} : Keeps ks s₀ (State.runWrite s run) := by
  unfold State.runWrite
  try dsimp only
  repeat' with_reducible first
      | exact hk | exact Kind.Sub.mono rfl hs | apply Keeps.ite | apply State.put_keeps | refine State.nextOr_keeps hk (fun t ht => ?_)
      | assumption | exact execTickRunSet_keeps hk (Kind.Sub.mono rfl hs) (by assumption)
      | exact execTickRunClear_keeps hk (Kind.Sub.mono rfl hs) (by assumption)

theorem State.trigger_keeps {ks : List Kind} {s₀ s : State} (hk : Keeps ks s₀ s) (hs : Kind.Sub [.timebase, .regs, .mem, .ecc, .tick, .progs, .serials, .yards, .flags, .fabric, .strm, .rig, .events, .queue, .media, .gpio, .hyper, .mgmt, .sec, .power, .free] ks)
    {rq : Requester} {r : RegId} {v : BitVec 32} : Keeps ks s₀ (State.trigger s rq r v) := by
  unfold State.trigger
  try dsimp only
  repeat' with_reducible first
      | exact hk | exact Kind.Sub.mono rfl hs | apply Keeps.ite | apply State.updDoorbell_keeps
      | refine State.nextOr_keeps hk (fun t ht => ?_) | apply State.mboxGo_keeps | apply State.runWrite_keeps | assumption
      | exact execYardInit_keeps hk (Kind.Sub.mono rfl hs) (by assumption)
      | exact execYardPerfClr_keeps hk (Kind.Sub.mono rfl hs) (by assumption)
      | exact execReefStatusClr_keeps hk (Kind.Sub.mono rfl hs) (by assumption)
      | exact execVuStatusClr_keeps hk (Kind.Sub.mono rfl hs) (by assumption)
      | exact execStrmPeakClr_keeps hk (Kind.Sub.mono rfl hs) (by assumption)
      | exact execStrmResume_keeps hk (Kind.Sub.mono rfl hs) (by assumption)
      | exact execStrmAbort_keeps hk (Kind.Sub.mono rfl hs) (by assumption)
      | exact execVdecWpWrite_keeps hk (Kind.Sub.mono rfl hs) (by assumption)
      | exact execVencRpWrite_keeps hk (Kind.Sub.mono rfl hs) (by assumption)
      | exact execVencJpgTrig_keeps hk (Kind.Sub.mono rfl hs) (by assumption)
      | exact execVencJpgRpWrite_keeps hk (Kind.Sub.mono rfl hs) (by assumption)
      | exact execGpioOutWrite_keeps hk (Kind.Sub.mono rfl hs) (by assumption)
      | exact execPwrShedClr_keeps hk (Kind.Sub.mono rfl hs) (by assumption)
      | exact execGcntCapture_keeps hk (Kind.Sub.mono rfl hs) (by assumption)
      | exact execQmDownhaul_keeps hk (Kind.Sub.mono rfl hs) (by assumption)
      | exact execAttestRequest_keeps hk (Kind.Sub.mono rfl hs) (by assumption)
      | exact execFuseRequest_keeps hk (Kind.Sub.mono rfl hs) (by assumption)
      | exact execNonceNew_keeps hk (Kind.Sub.mono rfl hs) (by assumption)
      | exact execPwrSleep_keeps hk (Kind.Sub.mono rfl hs) (by assumption)
      | exact execPwrThermClr_keeps hk (Kind.Sub.mono rfl hs) (by assumption)
      | exact execPwrWdogKick_keeps hk (Kind.Sub.mono rfl hs) (by assumption) | cases ht | split

theorem State.lowWrite_keeps {ks : List Kind} {s₀ s : State} (hk : Keeps ks s₀ s) (hs : Kind.Sub [.hold] ks)
    {rq : Requester} {r : RegId} {off : Nat} {v : BitVec 32} : Keeps ks s₀ (State.lowWrite s rq r off v) := by
  unfold State.lowWrite
  try dsimp only
  repeat' with_reducible first
      | exact hk | exact Kind.Sub.mono rfl hs | apply Keeps.ite | apply State.setHeld_keeps | assumption

theorem State.highWrite_keeps {ks : List Kind} {s₀ s : State} (hk : Keeps ks s₀ s) (hs : Kind.Sub [.regs, .hold, .mem, .ecc, .strm] ks)
    {rq : Requester} {r : RegId} {off : Nat} {v : BitVec 32} : Keeps ks s₀ (State.highWrite s rq r off v) := by
  unfold State.highWrite
  try dsimp only
  repeat' with_reducible first
      | exact hk | exact Kind.Sub.mono rfl hs | apply Keeps.ite | apply State.setHeld_keeps | apply State.codeWrite_keeps
      | refine State.nextOr_keeps hk (fun t ht => ?_) | assumption | exact execDattUpdate_keeps hk (Kind.Sub.mono rfl hs) (by assumption)

theorem State.writeAt_keeps {ks : List Kind} {s₀ s : State} (hk : Keeps ks s₀ s) (hs : Kind.Sub [.timebase, .regs, .hold, .mem, .ecc, .tick, .progs, .serials, .yards, .flags, .fabric, .strm, .rig, .events, .queue, .media, .gpio, .hyper, .mgmt, .sec, .power, .free] ks)
    {rq : Requester} {off : Nat} {v : BitVec 32} : Keeps ks s₀ (State.writeAt s rq off v) := by
  unfold State.writeAt
  try dsimp only
  repeat' with_reducible first
      | exact hk | exact Kind.Sub.mono rfl hs | apply Keeps.ite | apply State.msixWrite_keeps | apply State.descWrite_keeps
      | apply State.codeWrite_keeps | apply State.trigger_keeps | apply State.lowWrite_keeps | apply State.highWrite_keeps | assumption
      | split

theorem execLowWordRead_keeps {ks : List Kind} {s₀ s s₁ : State} (hk : Keeps ks s₀ s) (hs : Kind.Sub [.regs, .latch, .queue, .free] ks) {rq : Requester} {off : Nat}
    (hx : execLowWordRead rq off s = .next s₁) : Keeps ks s₀ s₁ := by
  unfold execLowWordRead at hx
  injection hx with hx
  subst hx
  try dsimp only
  repeat' with_reducible first
      | exact hk | exact Kind.Sub.mono rfl hs | refine State.viaAny_keeps ?_ (Kind.Sub.mono rfl hs) (fun s hk => ?_)
      | apply State.readAt_keeps | assumption

theorem execLowWordWrite_keeps {ks : List Kind} {s₀ s s₁ : State} (hk : Keeps ks s₀ s) (hs : Kind.Sub [.regs, .hold] ks) {rq : Requester} {off : Nat} {value : BitVec 32}
    (hx : execLowWordWrite rq off value s = .next s₁) : Keeps ks s₀ s₁ := by
  unfold execLowWordWrite at hx
  injection hx with hx
  subst hx
  try dsimp only
  repeat' with_reducible first
      | exact hk | exact Kind.Sub.mono rfl hs | refine State.viaAny_keeps ?_ (Kind.Sub.mono rfl hs) (fun s hk => ?_)
      | apply State.lowWrite_keeps | assumption | split

theorem execHighWordWrite_keeps {ks : List Kind} {s₀ s s₁ : State} (hk : Keeps ks s₀ s) (hs : Kind.Sub [.regs, .hold, .mem, .ecc, .strm] ks) {rq : Requester} {off : Nat} {value : BitVec 32}
    (hx : execHighWordWrite rq off value s = .next s₁) : Keeps ks s₀ s₁ := by
  unfold execHighWordWrite at hx
  injection hx with hx
  subst hx
  try dsimp only
  repeat' with_reducible first
      | exact hk | exact Kind.Sub.mono rfl hs | refine State.viaAny_keeps ?_ (Kind.Sub.mono rfl hs) (fun s hk => ?_)
      | apply State.highWrite_keeps | assumption | split

theorem execRegisterWrite_keeps {ks : List Kind} {s₀ s s₁ : State} (hk : Keeps ks s₀ s) (hs : Kind.Sub [.timebase, .regs, .hold, .mem, .ecc, .tick, .progs, .serials, .yards, .flags, .fabric, .strm, .rig, .events, .queue, .media, .gpio, .hyper, .mgmt, .sec, .power, .free] ks) {rq : Requester} {off : Nat} {value : BitVec 32}
    (hx : execRegisterWrite rq off value s = .next s₁) : Keeps ks s₀ s₁ := by
  unfold execRegisterWrite at hx
  injection hx with hx
  subst hx
  try dsimp only
  repeat' with_reducible first
      | exact hk | exact Kind.Sub.mono rfl hs | refine State.viaAny_keeps ?_ (Kind.Sub.mono rfl hs) (fun s hk => ?_)
      | apply State.writeAt_keeps | assumption

end Sys2Proof.Machine
end

