-- ==== Sys2Proof/Laws/KeepsScalar.lean ====
section
/-! SUPPORT. The operations of Sys2Proof/Machine/Scalar.lean keep (see Sys2Proof/Laws/KeepsBase.lean). -/

namespace Sys2Proof.Machine

theorem State.scalar2_keeps {ks : List Kind} {s₀ s s₁ : State} (hk : Keeps ks s₀ s) (hs : Kind.Sub [.regs, .progs, .events] ks) {p : Nat} {g : Guard} {i : Instr} {rd : BitVec 5} {ra : BitVec 5} {b : Operand} {f : Word → Word → Word}
    (hx : State.scalar2 s p g i rd ra b f = .next s₁) : Keeps ks s₀ s₁ := by
  unfold State.scalar2 at hx
  injection hx with hx
  subst hx
  try dsimp only
  repeat' with_reducible first
      | exact hk | exact Kind.Sub.mono rfl hs | apply State.setSc_keeps
      | refine State.issue_keeps ?_ (Kind.Sub.mono rfl hs) (fun s hk => ?_) | assumption

theorem State.scalar1_keeps {ks : List Kind} {s₀ s s₁ : State} (hk : Keeps ks s₀ s) (hs : Kind.Sub [.regs, .progs, .events] ks) {p : Nat} {g : Guard} {i : Instr} {rd : BitVec 5} {ra : BitVec 5} {f : Word → Word}
    (hx : State.scalar1 s p g i rd ra f = .next s₁) : Keeps ks s₀ s₁ := by
  unfold State.scalar1 at hx
  injection hx with hx
  subst hx
  try dsimp only
  repeat' with_reducible first
      | exact hk | exact Kind.Sub.mono rfl hs | apply State.setSc_keeps
      | refine State.issue_keeps ?_ (Kind.Sub.mono rfl hs) (fun s hk => ?_) | assumption

theorem execNop_keeps {ks : List Kind} {s₀ s s₁ : State} (hk : Keeps ks s₀ s) (hs : Kind.Sub [.regs, .progs, .events] ks) {p : Nat} {g : Guard}
    (hx : execNop p g s = .next s₁) : Keeps ks s₀ s₁ := by
  unfold execNop at hx
  injection hx with hx
  subst hx
  try dsimp only
  repeat' with_reducible first
      | exact hk | exact Kind.Sub.mono rfl hs | refine State.issue_keeps ?_ (Kind.Sub.mono rfl hs) (fun s hk => ?_) | assumption

theorem execLi_keeps {ks : List Kind} {s₀ s s₁ : State} (hk : Keeps ks s₀ s) (hs : Kind.Sub [.regs, .progs, .events] ks) {p : Nat} {g : Guard} {rd : BitVec 5} {imm : BitVec 32}
    (hx : execLi p g rd imm s = .next s₁) : Keeps ks s₀ s₁ := by
  unfold execLi at hx
  injection hx with hx
  subst hx
  try dsimp only
  repeat' with_reducible first
      | exact hk | exact Kind.Sub.mono rfl hs | apply State.setSc_keeps
      | refine State.issue_keeps ?_ (Kind.Sub.mono rfl hs) (fun s hk => ?_) | assumption

theorem execMov_keeps {ks : List Kind} {s₀ s s₁ : State} (hk : Keeps ks s₀ s) (hs : Kind.Sub [.regs, .progs, .events] ks) {p : Nat} {g : Guard} {rd : BitVec 5} {ra : BitVec 5}
    (hx : execMov p g rd ra s = .next s₁) : Keeps ks s₀ s₁ := by
  exact State.scalar1_keeps hk hs hx

theorem execAdd_keeps {ks : List Kind} {s₀ s s₁ : State} (hk : Keeps ks s₀ s) (hs : Kind.Sub [.regs, .progs, .events] ks) {p : Nat} {g : Guard} {rd : BitVec 5} {ra : BitVec 5} {b : Operand}
    (hx : execAdd p g rd ra b s = .next s₁) : Keeps ks s₀ s₁ := by
  exact State.scalar2_keeps hk hs hx

theorem execSub_keeps {ks : List Kind} {s₀ s s₁ : State} (hk : Keeps ks s₀ s) (hs : Kind.Sub [.regs, .progs, .events] ks) {p : Nat} {g : Guard} {rd : BitVec 5} {ra : BitVec 5} {b : Operand}
    (hx : execSub p g rd ra b s = .next s₁) : Keeps ks s₀ s₁ := by
  exact State.scalar2_keeps hk hs hx

theorem execMul_keeps {ks : List Kind} {s₀ s s₁ : State} (hk : Keeps ks s₀ s) (hs : Kind.Sub [.regs, .progs, .events] ks) {p : Nat} {g : Guard} {rd : BitVec 5} {ra : BitVec 5} {b : Operand}
    (hx : execMul p g rd ra b s = .next s₁) : Keeps ks s₀ s₁ := by
  exact State.scalar2_keeps hk hs hx

theorem execAnd_keeps {ks : List Kind} {s₀ s s₁ : State} (hk : Keeps ks s₀ s) (hs : Kind.Sub [.regs, .progs, .events] ks) {p : Nat} {g : Guard} {rd : BitVec 5} {ra : BitVec 5} {b : Operand}
    (hx : execAnd p g rd ra b s = .next s₁) : Keeps ks s₀ s₁ := by
  exact State.scalar2_keeps hk hs hx

theorem execOr_keeps {ks : List Kind} {s₀ s s₁ : State} (hk : Keeps ks s₀ s) (hs : Kind.Sub [.regs, .progs, .events] ks) {p : Nat} {g : Guard} {rd : BitVec 5} {ra : BitVec 5} {b : Operand}
    (hx : execOr p g rd ra b s = .next s₁) : Keeps ks s₀ s₁ := by
  exact State.scalar2_keeps hk hs hx

theorem execXor_keeps {ks : List Kind} {s₀ s s₁ : State} (hk : Keeps ks s₀ s) (hs : Kind.Sub [.regs, .progs, .events] ks) {p : Nat} {g : Guard} {rd : BitVec 5} {ra : BitVec 5} {b : Operand}
    (hx : execXor p g rd ra b s = .next s₁) : Keeps ks s₀ s₁ := by
  exact State.scalar2_keeps hk hs hx

theorem execShl_keeps {ks : List Kind} {s₀ s s₁ : State} (hk : Keeps ks s₀ s) (hs : Kind.Sub [.regs, .progs, .events] ks) {p : Nat} {g : Guard} {rd : BitVec 5} {ra : BitVec 5} {b : Operand}
    (hx : execShl p g rd ra b s = .next s₁) : Keeps ks s₀ s₁ := by
  exact State.scalar2_keeps hk hs hx

theorem execShr_keeps {ks : List Kind} {s₀ s s₁ : State} (hk : Keeps ks s₀ s) (hs : Kind.Sub [.regs, .progs, .events] ks) {p : Nat} {g : Guard} {rd : BitVec 5} {ra : BitVec 5} {b : Operand}
    (hx : execShr p g rd ra b s = .next s₁) : Keeps ks s₀ s₁ := by
  exact State.scalar2_keeps hk hs hx

theorem execSra_keeps {ks : List Kind} {s₀ s s₁ : State} (hk : Keeps ks s₀ s) (hs : Kind.Sub [.regs, .progs, .events] ks) {p : Nat} {g : Guard} {rd : BitVec 5} {ra : BitVec 5} {b : Operand}
    (hx : execSra p g rd ra b s = .next s₁) : Keeps ks s₀ s₁ := by
  exact State.scalar2_keeps hk hs hx

theorem execMin_keeps {ks : List Kind} {s₀ s s₁ : State} (hk : Keeps ks s₀ s) (hs : Kind.Sub [.regs, .progs, .events] ks) {p : Nat} {g : Guard} {rd : BitVec 5} {ra : BitVec 5} {b : Operand}
    (hx : execMin p g rd ra b s = .next s₁) : Keeps ks s₀ s₁ := by
  exact State.scalar2_keeps hk hs hx

theorem execMax_keeps {ks : List Kind} {s₀ s s₁ : State} (hk : Keeps ks s₀ s) (hs : Kind.Sub [.regs, .progs, .events] ks) {p : Nat} {g : Guard} {rd : BitVec 5} {ra : BitVec 5} {b : Operand}
    (hx : execMax p g rd ra b s = .next s₁) : Keeps ks s₀ s₁ := by
  exact State.scalar2_keeps hk hs hx

theorem execFAdd_keeps {ks : List Kind} {s₀ s s₁ : State} (hk : Keeps ks s₀ s) (hs : Kind.Sub [.regs, .progs, .events] ks) {p : Nat} {g : Guard} {rd : BitVec 5} {ra : BitVec 5} {b : Operand}
    (hx : execFAdd p g rd ra b s = .next s₁) : Keeps ks s₀ s₁ := by
  exact State.scalar2_keeps hk hs hx

theorem execFMul_keeps {ks : List Kind} {s₀ s s₁ : State} (hk : Keeps ks s₀ s) (hs : Kind.Sub [.regs, .progs, .events] ks) {p : Nat} {g : Guard} {rd : BitVec 5} {ra : BitVec 5} {b : Operand}
    (hx : execFMul p g rd ra b s = .next s₁) : Keeps ks s₀ s₁ := by
  exact State.scalar2_keeps hk hs hx

theorem execFCvtI_keeps {ks : List Kind} {s₀ s s₁ : State} (hk : Keeps ks s₀ s) (hs : Kind.Sub [.regs, .progs, .events] ks) {p : Nat} {g : Guard} {rd : BitVec 5} {ra : BitVec 5}
    (hx : execFCvtI p g rd ra s = .next s₁) : Keeps ks s₀ s₁ := by
  exact State.scalar1_keeps hk hs hx

theorem execFCvtF_keeps {ks : List Kind} {s₀ s s₁ : State} (hk : Keeps ks s₀ s) (hs : Kind.Sub [.regs, .progs, .events] ks) {p : Nat} {g : Guard} {rd : BitVec 5} {ra : BitVec 5}
    (hx : execFCvtF p g rd ra s = .next s₁) : Keeps ks s₀ s₁ := by
  exact State.scalar1_keeps hk hs hx

theorem execCmp_keeps {ks : List Kind} {s₀ s s₁ : State} (hk : Keeps ks s₀ s) (hs : Kind.Sub [.regs, .progs, .events] ks) {p : Nat} {g : Guard} {rd : BitVec 3} {cond : Cond} {ra : BitVec 5} {b : Operand}
    (hx : execCmp p g rd cond ra b s = .next s₁) : Keeps ks s₀ s₁ := by
  unfold execCmp at hx
  injection hx with hx
  subst hx
  try dsimp only
  repeat' with_reducible first
      | exact hk | exact Kind.Sub.mono rfl hs | apply State.setPd_keeps
      | refine State.issue_keeps ?_ (Kind.Sub.mono rfl hs) (fun s hk => ?_) | assumption

theorem execPAnd_keeps {ks : List Kind} {s₀ s s₁ : State} (hk : Keeps ks s₀ s) (hs : Kind.Sub [.regs, .progs, .events] ks) {p : Nat} {g : Guard} {rd : BitVec 3} {ra : BitVec 3} {rb : BitVec 3}
    (hx : execPAnd p g rd ra rb s = .next s₁) : Keeps ks s₀ s₁ := by
  unfold execPAnd at hx
  injection hx with hx
  subst hx
  try dsimp only
  repeat' with_reducible first
      | exact hk | exact Kind.Sub.mono rfl hs | apply State.setPd_keeps
      | refine State.issue_keeps ?_ (Kind.Sub.mono rfl hs) (fun s hk => ?_) | assumption

theorem execPOr_keeps {ks : List Kind} {s₀ s s₁ : State} (hk : Keeps ks s₀ s) (hs : Kind.Sub [.regs, .progs, .events] ks) {p : Nat} {g : Guard} {rd : BitVec 3} {ra : BitVec 3} {rb : BitVec 3}
    (hx : execPOr p g rd ra rb s = .next s₁) : Keeps ks s₀ s₁ := by
  unfold execPOr at hx
  injection hx with hx
  subst hx
  try dsimp only
  repeat' with_reducible first
      | exact hk | exact Kind.Sub.mono rfl hs | apply State.setPd_keeps
      | refine State.issue_keeps ?_ (Kind.Sub.mono rfl hs) (fun s hk => ?_) | assumption

theorem execPNot_keeps {ks : List Kind} {s₀ s s₁ : State} (hk : Keeps ks s₀ s) (hs : Kind.Sub [.regs, .progs, .events] ks) {p : Nat} {g : Guard} {rd : BitVec 3} {ra : BitVec 3}
    (hx : execPNot p g rd ra s = .next s₁) : Keeps ks s₀ s₁ := by
  unfold execPNot at hx
  injection hx with hx
  subst hx
  try dsimp only
  repeat' with_reducible first
      | exact hk | exact Kind.Sub.mono rfl hs | apply State.setPd_keeps
      | refine State.issue_keeps ?_ (Kind.Sub.mono rfl hs) (fun s hk => ?_) | assumption

theorem execAdLi_keeps {ks : List Kind} {s₀ s s₁ : State} (hk : Keeps ks s₀ s) (hs : Kind.Sub [.regs, .progs, .events] ks) {p : Nat} {g : Guard} {rd : BitVec 4} {imm : BitVec 32}
    (hx : execAdLi p g rd imm s = .next s₁) : Keeps ks s₀ s₁ := by
  unfold execAdLi at hx
  injection hx with hx
  subst hx
  try dsimp only
  repeat' with_reducible first
      | exact hk | exact Kind.Sub.mono rfl hs | apply State.setAd_keeps
      | refine State.issue_keeps ?_ (Kind.Sub.mono rfl hs) (fun s hk => ?_) | assumption

theorem execAdMov_keeps {ks : List Kind} {s₀ s s₁ : State} (hk : Keeps ks s₀ s) (hs : Kind.Sub [.regs, .progs, .events] ks) {p : Nat} {g : Guard} {rd : BitVec 4} {ra : BitVec 5}
    (hx : execAdMov p g rd ra s = .next s₁) : Keeps ks s₀ s₁ := by
  unfold execAdMov at hx
  injection hx with hx
  subst hx
  try dsimp only
  repeat' with_reducible first
      | exact hk | exact Kind.Sub.mono rfl hs | apply State.setAd_keeps
      | refine State.issue_keeps ?_ (Kind.Sub.mono rfl hs) (fun s hk => ?_) | assumption

theorem execAdAdd_keeps {ks : List Kind} {s₀ s s₁ : State} (hk : Keeps ks s₀ s) (hs : Kind.Sub [.regs, .progs, .events] ks) {p : Nat} {g : Guard} {rd : BitVec 4} {ra : BitVec 4} {imm : BitVec 32}
    (hx : execAdAdd p g rd ra imm s = .next s₁) : Keeps ks s₀ s₁ := by
  unfold execAdAdd at hx
  injection hx with hx
  subst hx
  try dsimp only
  repeat' with_reducible first
      | exact hk | exact Kind.Sub.mono rfl hs | apply State.setAd_keeps
      | refine State.issue_keeps ?_ (Kind.Sub.mono rfl hs) (fun s hk => ?_) | assumption

theorem execSpRd_keeps {ks : List Kind} {s₀ s s₁ : State} (hk : Keeps ks s₀ s) (hs : Kind.Sub [.regs, .progs, .events] ks) {p : Nat} {g : Guard} {rd : BitVec 5} {imm : BitVec 32}
    (hx : execSpRd p g rd imm s = .next s₁) : Keeps ks s₀ s₁ := by
  unfold execSpRd at hx
  split at hx
  · cases hx
  · cases hx; exact State.issue_keeps hk (Kind.Sub.mono rfl hs) fun s hk => State.setSc_keeps hk (Kind.Sub.mono rfl hs)

theorem execScAge_keeps {ks : List Kind} {s₀ s s₁ : State} (hk : Keeps ks s₀ s) (hs : Kind.Sub [.regs, .progs, .events] ks) {p : Nat} {g : Guard} {rd : BitVec 5} {input : TOp}
    (hx : execScAge p g rd input s = .next s₁) : Keeps ks s₀ s₁ := by
  unfold execScAge at hx
  injection hx with hx
  subst hx
  try dsimp only
  repeat' with_reducible first
      | exact hk | exact Kind.Sub.mono rfl hs | apply State.setSc_keeps
      | refine State.issue_keeps ?_ (Kind.Sub.mono rfl hs) (fun s hk => ?_) | assumption

end Sys2Proof.Machine
end

