-- ==== Sys2Proof/Laws/KeepsDispatch.lean ====
section
/-! SUPPORT. The operations of Sys2Proof/Machine/Dispatch.lean keep (see Sys2Proof/Laws/KeepsBase.lean). -/

namespace Sys2Proof.Machine

/-- Every command changes at most the kinds of state that `Instr.touches` lists for it. -/
theorem exec_keeps {s t : State} {i : Instr} (hx : exec i s = .next t) : Keeps i.touches s t := by
  cases i
  case hmpHello src rid => exact execHmpHello_keeps (_src := src) (Keeps.refl _ _) (Kind.Sub.mono rfl (Kind.Sub.refl _)) hx
  case hmpStatus src rid => exact execHmpStatus_keeps (_src := src) (Keeps.refl _ _) (Kind.Sub.mono rfl (Kind.Sub.refl _)) hx
  case timebaseLock => exact execTimebaseLock_keeps (Keeps.refl _ _) (Kind.Sub.mono rfl (Kind.Sub.refl _)) hx
  case gcntSaturated => exact execGcntSaturated_keeps (Keeps.refl _ _) (Kind.Sub.mono rfl (Kind.Sub.refl _)) hx
  case counterAlignment => exact execCounterAlignment_keeps (Keeps.refl _ _) (Kind.Sub.mono rfl (Kind.Sub.refl _)) hx
  case tickStart => exact execTickStart_keeps (Keeps.refl _ _) (Kind.Sub.mono rfl (Kind.Sub.refl _)) hx
  case tickOutPulse => exact execTickOutPulse_keeps (Keeps.refl _ _) (Kind.Sub.mono rfl (Kind.Sub.refl _)) hx
  case fsyncPulse => exact execFsyncPulse_keeps (Keeps.refl _ _) (Kind.Sub.mono rfl (Kind.Sub.refl _)) hx
  case guardStart => exact execGuardStart_keeps (Keeps.refl _ _) (Kind.Sub.mono rfl (Kind.Sub.refl _)) hx
  case tickInEdge => exact execTickInEdge_keeps (Keeps.refl _ _) (Kind.Sub.mono rfl (Kind.Sub.refl _)) hx
  case tickInLost => exact execTickInLost_keeps (Keeps.refl _ _) (Kind.Sub.mono rfl (Kind.Sub.refl _)) hx
  case holdoverRelock => exact execHoldoverRelock_keeps (Keeps.refl _ _) (Kind.Sub.mono rfl (Kind.Sub.refl _)) hx
  case tickRunSet => exact execTickRunSet_keeps (Keeps.refl _ _) (Kind.Sub.mono rfl (Kind.Sub.refl _)) hx
  case tickRunClear => exact execTickRunClear_keeps (Keeps.refl _ _) (Kind.Sub.mono rfl (Kind.Sub.refl _)) hx
  case gcntCapture => exact execGcntCapture_keeps (Keeps.refl _ _) (Kind.Sub.mono rfl (Kind.Sub.refl _)) hx
  case lowWordRead => exact execLowWordRead_keeps (Keeps.refl _ _) (Kind.Sub.mono rfl (Kind.Sub.refl _)) hx
  case lowWordWrite => exact execLowWordWrite_keeps (Keeps.refl _ _) (Kind.Sub.mono rfl (Kind.Sub.refl _)) hx
  case highWordWrite => exact execHighWordWrite_keeps (Keeps.refl _ _) (Kind.Sub.mono rfl (Kind.Sub.refl _)) hx
  case registerWrite => exact execRegisterWrite_keeps (Keeps.refl _ _) (Kind.Sub.mono rfl (Kind.Sub.refl _)) hx
  case launch => exact execLaunch_keeps (Keeps.refl _ _) (Kind.Sub.mono rfl (Kind.Sub.refl _)) hx
  case restart => exact execRestart_keeps (Keeps.refl _ _) (Kind.Sub.mono rfl (Kind.Sub.refl _)) hx
  case launchArmed => exact execLaunchArmed_keeps (Keeps.refl _ _) (Kind.Sub.mono rfl (Kind.Sub.refl _)) hx
  case loadRig => exact execLoadRig_keeps (Keeps.refl _ _) (Kind.Sub.mono rfl (Kind.Sub.refl _)) hx
  case loadProg => exact execLoadProg_keeps (Keeps.refl _ _) (Kind.Sub.mono rfl (Kind.Sub.refl _)) hx
  case unload => exact execUnload_keeps (Keeps.refl _ _) (Kind.Sub.mono rfl (Kind.Sub.refl _)) hx
  case progRemoved => exact execProgRemoved_keeps (Keeps.refl _ _) (Kind.Sub.mono rfl (Kind.Sub.refl _)) hx
  case revert => exact execRevert_keeps (Keeps.refl _ _) (Kind.Sub.mono rfl (Kind.Sub.refl _)) hx
  case rigApplied => exact execRigApplied_keeps (Keeps.refl _ _) (Kind.Sub.mono rfl (Kind.Sub.refl _)) hx
  case rigReverted => exact execRigReverted_keeps (Keeps.refl _ _) (Kind.Sub.mono rfl (Kind.Sub.refl _)) hx
  case imemCopyDone => exact execImemCopyDone_keeps (Keeps.refl _ _) (Kind.Sub.mono rfl (Kind.Sub.refl _)) hx
  case nop => exact execNop_keeps (Keeps.refl _ _) (Kind.Sub.mono rfl (Kind.Sub.refl _)) hx
  case li => exact execLi_keeps (Keeps.refl _ _) (Kind.Sub.mono rfl (Kind.Sub.refl _)) hx
  case mov => exact execMov_keeps (Keeps.refl _ _) (Kind.Sub.mono rfl (Kind.Sub.refl _)) hx
  case add => exact execAdd_keeps (Keeps.refl _ _) (Kind.Sub.mono rfl (Kind.Sub.refl _)) hx
  case sub => exact execSub_keeps (Keeps.refl _ _) (Kind.Sub.mono rfl (Kind.Sub.refl _)) hx
  case mul => exact execMul_keeps (Keeps.refl _ _) (Kind.Sub.mono rfl (Kind.Sub.refl _)) hx
  case and => exact execAnd_keeps (Keeps.refl _ _) (Kind.Sub.mono rfl (Kind.Sub.refl _)) hx
  case or => exact execOr_keeps (Keeps.refl _ _) (Kind.Sub.mono rfl (Kind.Sub.refl _)) hx
  case xor => exact execXor_keeps (Keeps.refl _ _) (Kind.Sub.mono rfl (Kind.Sub.refl _)) hx
  case shl => exact execShl_keeps (Keeps.refl _ _) (Kind.Sub.mono rfl (Kind.Sub.refl _)) hx
  case shr => exact execShr_keeps (Keeps.refl _ _) (Kind.Sub.mono rfl (Kind.Sub.refl _)) hx
  case sra => exact execSra_keeps (Keeps.refl _ _) (Kind.Sub.mono rfl (Kind.Sub.refl _)) hx
  case min => exact execMin_keeps (Keeps.refl _ _) (Kind.Sub.mono rfl (Kind.Sub.refl _)) hx
  case max => exact execMax_keeps (Keeps.refl _ _) (Kind.Sub.mono rfl (Kind.Sub.refl _)) hx
  case fAdd => exact execFAdd_keeps (Keeps.refl _ _) (Kind.Sub.mono rfl (Kind.Sub.refl _)) hx
  case fMul => exact execFMul_keeps (Keeps.refl _ _) (Kind.Sub.mono rfl (Kind.Sub.refl _)) hx
  case fCvtI => exact execFCvtI_keeps (Keeps.refl _ _) (Kind.Sub.mono rfl (Kind.Sub.refl _)) hx
  case fCvtF => exact execFCvtF_keeps (Keeps.refl _ _) (Kind.Sub.mono rfl (Kind.Sub.refl _)) hx
  case cmp => exact execCmp_keeps (Keeps.refl _ _) (Kind.Sub.mono rfl (Kind.Sub.refl _)) hx
  case pAnd => exact execPAnd_keeps (Keeps.refl _ _) (Kind.Sub.mono rfl (Kind.Sub.refl _)) hx
  case pOr => exact execPOr_keeps (Keeps.refl _ _) (Kind.Sub.mono rfl (Kind.Sub.refl _)) hx
  case pNot => exact execPNot_keeps (Keeps.refl _ _) (Kind.Sub.mono rfl (Kind.Sub.refl _)) hx
  case adLi => exact execAdLi_keeps (Keeps.refl _ _) (Kind.Sub.mono rfl (Kind.Sub.refl _)) hx
  case adMov => exact execAdMov_keeps (Keeps.refl _ _) (Kind.Sub.mono rfl (Kind.Sub.refl _)) hx
  case adAdd => exact execAdAdd_keeps (Keeps.refl _ _) (Kind.Sub.mono rfl (Kind.Sub.refl _)) hx
  case spRd => exact execSpRd_keeps (Keeps.refl _ _) (Kind.Sub.mono rfl (Kind.Sub.refl _)) hx
  case scAge => exact execScAge_keeps (Keeps.refl _ _) (Kind.Sub.mono rfl (Kind.Sub.refl _)) hx
  case br => exact execBr_keeps (Keeps.refl _ _) (Kind.Sub.mono rfl (Kind.Sub.refl _)) hx
  case brEq => exact execBrEq_keeps (Keeps.refl _ _) (Kind.Sub.mono rfl (Kind.Sub.refl _)) hx
  case brNe => exact execBrNe_keeps (Keeps.refl _ _) (Kind.Sub.mono rfl (Kind.Sub.refl _)) hx
  case brLt => exact execBrLt_keeps (Keeps.refl _ _) (Kind.Sub.mono rfl (Kind.Sub.refl _)) hx
  case brGe => exact execBrGe_keeps (Keeps.refl _ _) (Kind.Sub.mono rfl (Kind.Sub.refl _)) hx
  case brLtu => exact execBrLtu_keeps (Keeps.refl _ _) (Kind.Sub.mono rfl (Kind.Sub.refl _)) hx
  case brGeu => exact execBrGeu_keeps (Keeps.refl _ _) (Kind.Sub.mono rfl (Kind.Sub.refl _)) hx
  case brFlt => exact execBrFlt_keeps (Keeps.refl _ _) (Kind.Sub.mono rfl (Kind.Sub.refl _)) hx
  case brFge => exact execBrFge_keeps (Keeps.refl _ _) (Kind.Sub.mono rfl (Kind.Sub.refl _)) hx
  case brP => exact execBrP_keeps (Keeps.refl _ _) (Kind.Sub.mono rfl (Kind.Sub.refl _)) hx
  case mmI8 => exact execMmI8_keeps (Keeps.refl _ _) (Kind.Sub.mono rfl (Kind.Sub.refl _)) hx
  case mmW4a8 => exact execMmW4a8_keeps (Keeps.refl _ _) (Kind.Sub.mono rfl (Kind.Sub.refl _)) hx
  case mmC4 => exact execMmC4_keeps (Keeps.refl _ _) (Kind.Sub.mono rfl (Kind.Sub.refl _)) hx
  case conv => exact execConv_keeps (Keeps.refl _ _) (Kind.Sub.mono rfl (Kind.Sub.refl _)) hx
  case tconv => exact execTconv_keeps (Keeps.refl _ _) (Kind.Sub.mono rfl (Kind.Sub.refl _)) hx
  case redSum => exact execRedSum_keeps (Keeps.refl _ _) (Kind.Sub.mono rfl (Kind.Sub.refl _)) hx
  case redSumsq => exact execRedSumsq_keeps (Keeps.refl _ _) (Kind.Sub.mono rfl (Kind.Sub.refl _)) hx
  case redMax => exact execRedMax_keeps (Keeps.refl _ _) (Kind.Sub.mono rfl (Kind.Sub.refl _)) hx
  case redMin => exact execRedMin_keeps (Keeps.refl _ _) (Kind.Sub.mono rfl (Kind.Sub.refl _)) hx
  case redMaxabs => exact execRedMaxabs_keeps (Keeps.refl _ _) (Kind.Sub.mono rfl (Kind.Sub.refl _)) hx
  case redNz => exact execRedNz_keeps (Keeps.refl _ _) (Kind.Sub.mono rfl (Kind.Sub.refl _)) hx
  case argmaxC => exact execArgmaxC_keeps (Keeps.refl _ _) (Kind.Sub.mono rfl (Kind.Sub.refl _)) hx
  case argminC => exact execArgminC_keeps (Keeps.refl _ _) (Kind.Sub.mono rfl (Kind.Sub.refl _)) hx
  case vopAdd => exact execVopAdd_keeps (Keeps.refl _ _) (Kind.Sub.mono rfl (Kind.Sub.refl _)) hx
  case vopSub => exact execVopSub_keeps (Keeps.refl _ _) (Kind.Sub.mono rfl (Kind.Sub.refl _)) hx
  case vopMul => exact execVopMul_keeps (Keeps.refl _ _) (Kind.Sub.mono rfl (Kind.Sub.refl _)) hx
  case vopMax => exact execVopMax_keeps (Keeps.refl _ _) (Kind.Sub.mono rfl (Kind.Sub.refl _)) hx
  case vopMin => exact execVopMin_keeps (Keeps.refl _ _) (Kind.Sub.mono rfl (Kind.Sub.refl _)) hx
  case vopAbs => exact execVopAbs_keeps (Keeps.refl _ _) (Kind.Sub.mono rfl (Kind.Sub.refl _)) hx
  case vopNeg => exact execVopNeg_keeps (Keeps.refl _ _) (Kind.Sub.mono rfl (Kind.Sub.refl _)) hx
  case vopSel => exact execVopSel_keeps (Keeps.refl _ _) (Kind.Sub.mono rfl (Kind.Sub.refl _)) hx
  case vopFma => exact execVopFma_keeps (Keeps.refl _ _) (Kind.Sub.mono rfl (Kind.Sub.refl _)) hx
  case vopCvt => exact execVopCvt_keeps (Keeps.refl _ _) (Kind.Sub.mono rfl (Kind.Sub.refl _)) hx
  case vopRcp => exact execVopRcp_keeps (Keeps.refl _ _) (Kind.Sub.mono rfl (Kind.Sub.refl _)) hx
  case vopSqrt => exact execVopSqrt_keeps (Keeps.refl _ _) (Kind.Sub.mono rfl (Kind.Sub.refl _)) hx
  case vopFtab => exact execVopFtab_keeps (Keeps.refl _ _) (Kind.Sub.mono rfl (Kind.Sub.refl _)) hx
  case vopSoftmax => exact execVopSoftmax_keeps (Keeps.refl _ _) (Kind.Sub.mono rfl (Kind.Sub.refl _)) hx
  case vopLnorm => exact execVopLnorm_keeps (Keeps.refl _ _) (Kind.Sub.mono rfl (Kind.Sub.refl _)) hx
  case vopRmsnorm => exact execVopRmsnorm_keeps (Keeps.refl _ _) (Kind.Sub.mono rfl (Kind.Sub.refl _)) hx
  case vopMaxpool => exact execVopMaxpool_keeps (Keeps.refl _ _) (Kind.Sub.mono rfl (Kind.Sub.refl _)) hx
  case vopAvgpool => exact execVopAvgpool_keeps (Keeps.refl _ _) (Kind.Sub.mono rfl (Kind.Sub.refl _)) hx
  case vopRszNear => exact execVopRszNear_keeps (Keeps.refl _ _) (Kind.Sub.mono rfl (Kind.Sub.refl _)) hx
  case vopRszBil => exact execVopRszBil_keeps (Keeps.refl _ _) (Kind.Sub.mono rfl (Kind.Sub.refl _)) hx
  case vopGather => exact execVopGather_keeps (Keeps.refl _ _) (Kind.Sub.mono rfl (Kind.Sub.refl _)) hx
  case mvStrm => exact execMvStrm_keeps (Keeps.refl _ _) (Kind.Sub.mono rfl (Kind.Sub.refl _)) hx
  case flagSet => exact execFlagSet_keeps (Keeps.refl _ _) (Kind.Sub.mono rfl (Kind.Sub.refl _)) hx
  case flagWait => exact execFlagWait_keeps (Keeps.refl _ _) (Kind.Sub.mono rfl (Kind.Sub.refl _)) hx
  case hubFlagOperation => exact execHubFlagOperation_keeps (Keeps.refl _ _) (Kind.Sub.mono rfl (Kind.Sub.refl _)) hx
  case flagWaitSatisfied => exact execFlagWaitSatisfied_keeps (Keeps.refl _ _) (Kind.Sub.mono rfl (Kind.Sub.refl _)) hx
  case waitTimeout => exact execWaitTimeout_keeps (Keeps.refl _ _) (Kind.Sub.mono rfl (Kind.Sub.refl _)) hx
  case tickEnd => exact execTickEnd_keeps (Keeps.refl _ _) (Kind.Sub.mono rfl (Kind.Sub.refl _)) hx
  case sailRun => exact execSailRun_keeps (Keeps.refl _ _) (Kind.Sub.mono rfl (Kind.Sub.refl _)) hx
  case sailLoad => exact execSailLoad_keeps (Keeps.refl _ _) (Kind.Sub.mono rfl (Kind.Sub.refl _)) hx
  case sailTld => exact execSailTld_keeps (Keeps.refl _ _) (Kind.Sub.mono rfl (Kind.Sub.refl _)) hx
  case sailTcp => exact execSailTcp_keeps (Keeps.refl _ _) (Kind.Sub.mono rfl (Kind.Sub.refl _)) hx
  case boomEpi => exact execBoomEpi_keeps (Keeps.refl _ _) (Kind.Sub.mono rfl (Kind.Sub.refl _)) hx
  case boomChout => exact execBoomChout_keeps (Keeps.refl _ _) (Kind.Sub.mono rfl (Kind.Sub.refl _)) hx
  case boomChin => exact execBoomChin_keeps (Keeps.refl _ _) (Kind.Sub.mono rfl (Kind.Sub.refl _)) hx
  case boomPre => exact execBoomPre_keeps (Keeps.refl _ _) (Kind.Sub.mono rfl (Kind.Sub.refl _)) hx
  case boomCnt => exact execBoomCnt_keeps (Keeps.refl _ _) (Kind.Sub.mono rfl (Kind.Sub.refl _)) hx
  case engineQueueStall => exact execEngineQueueStall_keeps (Keeps.refl _ _) (Kind.Sub.mono rfl (Kind.Sub.refl _)) hx
  case engineCommandStart => exact execEngineCommandStart_keeps (Keeps.refl _ _) (Kind.Sub.mono rfl (Kind.Sub.refl _)) hx
  case sailLoadComplete => exact execSailLoadComplete_keeps (Keeps.refl _ _) (Kind.Sub.mono rfl (Kind.Sub.refl _)) hx
  case scalarDelivery => exact execScalarDelivery_keeps (Keeps.refl _ _) (Kind.Sub.mono rfl (Kind.Sub.refl _)) hx
  case epochResolve => exact execEpochResolve_keeps (Keeps.refl _ _) (Kind.Sub.mono rfl (Kind.Sub.refl _)) hx
  case squashPenaltyEnd => exact execSquashPenaltyEnd_keeps (Keeps.refl _ _) (Kind.Sub.mono rfl (Kind.Sub.refl _)) hx
  case commandCompletionSet => exact execCommandCompletionSet_keeps (Keeps.refl _ _) (Kind.Sub.mono rfl (Kind.Sub.refl _)) hx
  case xtreeFlitArrival => exact execXtreeFlitArrival_keeps (Keeps.refl _ _) (Kind.Sub.mono rfl (Kind.Sub.refl _)) hx
  case linkReplay => exact execLinkReplay_keeps (Keeps.refl _ _) (Kind.Sub.mono rfl (Kind.Sub.refl _)) hx
  case xtreeLinkRetrained => exact execXtreeLinkRetrained_keeps (Keeps.refl _ _) (Kind.Sub.mono rfl (Kind.Sub.refl _)) hx
  case ratlineErr => exact execRatlineErr_keeps (Keeps.refl _ _) (Kind.Sub.mono rfl (Kind.Sub.refl _)) hx
  case landingCycle => exact execLandingCycle_keeps (Keeps.refl _ _) (Kind.Sub.mono rfl (Kind.Sub.refl _)) hx
  case yardInit => exact execYardInit_keeps (Keeps.refl _ _) (Kind.Sub.mono rfl (Kind.Sub.refl _)) hx
  case yardInitDone => exact execYardInitDone_keeps (Keeps.refl _ _) (Kind.Sub.mono rfl (Kind.Sub.refl _)) hx
  case yardPerfClr => exact execYardPerfClr_keeps (Keeps.refl _ _) (Kind.Sub.mono rfl (Kind.Sub.refl _)) hx
  case reefStatusClr => exact execReefStatusClr_keeps (Keeps.refl _ _) (Kind.Sub.mono rfl (Kind.Sub.refl _)) hx
  case vuStatusClr => exact execVuStatusClr_keeps (Keeps.refl _ _) (Kind.Sub.mono rfl (Kind.Sub.refl _)) hx
  case strmPeakClr => exact execStrmPeakClr_keeps (Keeps.refl _ _) (Kind.Sub.mono rfl (Kind.Sub.refl _)) hx
  case bulkDescriptorStart => exact execBulkDescriptorStart_keeps (Keeps.refl _ _) (Kind.Sub.mono rfl (Kind.Sub.refl _)) hx
  case streamCompletion => exact execStreamCompletion_keeps (Keeps.refl _ _) (Kind.Sub.mono rfl (Kind.Sub.refl _)) hx
  case bulkRecordWaitEnd => exact execBulkRecordWaitEnd_keeps (Keeps.refl _ _) (Kind.Sub.mono rfl (Kind.Sub.refl _)) hx
  case strmResume => exact execStrmResume_keeps (Keeps.refl _ _) (Kind.Sub.mono rfl (Kind.Sub.refl _)) hx
  case strmAbort => exact execStrmAbort_keeps (Keeps.refl _ _) (Kind.Sub.mono rfl (Kind.Sub.refl _)) hx
  case peripheralRequest => exact execPeripheralRequest_keeps (Keeps.refl _ _) (Kind.Sub.mono rfl (Kind.Sub.refl _)) hx
  case dattUpdate => exact execDattUpdate_keeps (Keeps.refl _ _) (Kind.Sub.mono rfl (Kind.Sub.refl _)) hx
  case cameraFrame => exact execCameraFrame_keeps (Keeps.refl _ _) (Kind.Sub.mono rfl (Kind.Sub.refl _)) hx
  case vdecWpWrite => exact execVdecWpWrite_keeps (Keeps.refl _ _) (Kind.Sub.mono rfl (Kind.Sub.refl _)) hx
  case vdecFrameDecoded => exact execVdecFrameDecoded_keeps (Keeps.refl _ _) (Kind.Sub.mono rfl (Kind.Sub.refl _)) hx
  case vencAccessUnit => exact execVencAccessUnit_keeps (Keeps.refl _ _) (Kind.Sub.mono rfl (Kind.Sub.refl _)) hx
  case vencRpWrite => exact execVencRpWrite_keeps (Keeps.refl _ _) (Kind.Sub.mono rfl (Kind.Sub.refl _)) hx
  case vencJpgTrig => exact execVencJpgTrig_keeps (Keeps.refl _ _) (Kind.Sub.mono rfl (Kind.Sub.refl _)) hx
  case jpegImageDone => exact execJpegImageDone_keeps (Keeps.refl _ _) (Kind.Sub.mono rfl (Kind.Sub.refl _)) hx
  case vencJpgRpWrite => exact execVencJpgRpWrite_keeps (Keeps.refl _ _) (Kind.Sub.mono rfl (Kind.Sub.refl _)) hx
  case audioBlock => exact execAudioBlock_keeps (Keeps.refl _ _) (Kind.Sub.mono rfl (Kind.Sub.refl _)) hx
  case tdmOutputFrame => exact execTdmOutputFrame_keeps (Keeps.refl _ _) (Kind.Sub.mono rfl (Kind.Sub.refl _)) hx
  case gpioEdge => exact execGpioEdge_keeps (Keeps.refl _ _) (Kind.Sub.mono rfl (Kind.Sub.refl _)) hx
  case timedOutputDue => exact execTimedOutputDue_keeps (Keeps.refl _ _) (Kind.Sub.mono rfl (Kind.Sub.refl _)) hx
  case timedPulseEnd => exact execTimedPulseEnd_keeps (Keeps.refl _ _) (Kind.Sub.mono rfl (Kind.Sub.refl _)) hx
  case gpioOutWrite => exact execGpioOutWrite_keeps (Keeps.refl _ _) (Kind.Sub.mono rfl (Kind.Sub.refl _)) hx
  case usb4Disconnect => exact execUsb4Disconnect_keeps (Keeps.refl _ _) (Kind.Sub.mono rfl (Kind.Sub.refl _)) hx
  case pcieTunnelLoss => exact execPcieTunnelLoss_keeps (Keeps.refl _ _) (Kind.Sub.mono rfl (Kind.Sub.refl _)) hx
  case hotReset => exact execHotReset_keeps (Keeps.refl _ _) (Kind.Sub.mono rfl (Kind.Sub.refl _)) hx
  case functionLevelReset => exact execFunctionLevelReset_keeps (Keeps.refl _ _) (Kind.Sub.mono rfl (Kind.Sub.refl _)) hx
  case hostLinkUp => exact execHostLinkUp_keeps (Keeps.refl _ _) (Kind.Sub.mono rfl (Kind.Sub.refl _)) hx
  case d3hotEntry => exact execD3hotEntry_keeps (Keeps.refl _ _) (Kind.Sub.mono rfl (Kind.Sub.refl _)) hx
  case d0Return => exact execD0Return_keeps (Keeps.refl _ _) (Kind.Sub.mono rfl (Kind.Sub.refl _)) hx
  case bar2Access => exact execBar2Access_keeps (Keeps.refl _ _) (Kind.Sub.mono rfl (Kind.Sub.refl _)) hx
  case queueEnable => exact execQueueEnable_keeps (Keeps.refl _ _) (Kind.Sub.mono rfl (Kind.Sub.refl _)) hx
  case queueDisable => exact execQueueDisable_keeps (Keeps.refl _ _) (Kind.Sub.mono rfl (Kind.Sub.refl _)) hx
  case irqEnableChange => exact execIrqEnableChange_keeps (Keeps.refl _ _) (Kind.Sub.mono rfl (Kind.Sub.refl _)) hx
  case doorbell => exact execDoorbell_keeps (Keeps.refl _ _) (Kind.Sub.mono rfl (Kind.Sub.refl _)) hx
  case resultPublish => exact execResultPublish_keeps (Keeps.refl _ _) (Kind.Sub.mono rfl (Kind.Sub.refl _)) hx
  case irqTimeThreshold => exact execIrqTimeThreshold_keeps (Keeps.refl _ _) (Kind.Sub.mono rfl (Kind.Sub.refl _)) hx
  case eventTaken => exact execEventTaken_keeps (Keeps.refl _ _) (Kind.Sub.mono rfl (Kind.Sub.refl _)) hx
  case evtLost => exact execEvtLost_keeps (Keeps.refl _ _) (Kind.Sub.mono rfl (Kind.Sub.refl _)) hx
  case qmDownhaul => exact execQmDownhaul_keeps (Keeps.refl _ _) (Kind.Sub.mono rfl (Kind.Sub.refl _)) hx
  case downhaulN => exact execDownhaulN_keeps (Keeps.refl _ _) (Kind.Sub.mono rfl (Kind.Sub.refl _)) hx
  case usb2GetStatus => exact execUsb2GetStatus_keeps (Keeps.refl _ _) (Kind.Sub.mono rfl (Kind.Sub.refl _)) hx
  case usb2InterruptPoll => exact execUsb2InterruptPoll_keeps (Keeps.refl _ _) (Kind.Sub.mono rfl (Kind.Sub.refl _)) hx
  case ethLink => exact execEthLink_keeps (Keeps.refl _ _) (Kind.Sub.mono rfl (Kind.Sub.refl _)) hx
  case arpRequest => exact execArpRequest_keeps (Keeps.refl _ _) (Kind.Sub.mono rfl (Kind.Sub.refl _)) hx
  case icmpv4Echo => exact execIcmpv4Echo_keeps (Keeps.refl _ _) (Kind.Sub.mono rfl (Kind.Sub.refl _)) hx
  case icmpv6Echo => exact execIcmpv6Echo_keeps (Keeps.refl _ _) (Kind.Sub.mono rfl (Kind.Sub.refl _)) hx
  case ndpMessage => exact execNdpMessage_keeps (Keeps.refl _ _) (Kind.Sub.mono rfl (Kind.Sub.refl _)) hx
  case dhcpv4Message => exact execDhcpv4Message_keeps (Keeps.refl _ _) (Kind.Sub.mono rfl (Kind.Sub.refl _)) hx
  case hmpTokenPut => exact execHmpTokenPut_keeps (Keeps.refl _ _) (Kind.Sub.mono rfl (Kind.Sub.refl _)) hx
  case hmpXferBegin => exact execHmpXferBegin_keeps (Keeps.refl _ _) (Kind.Sub.mono rfl (Kind.Sub.refl _)) hx
  case hmpXferChunk => exact execHmpXferChunk_keeps (Keeps.refl _ _) (Kind.Sub.mono rfl (Kind.Sub.refl _)) hx
  case hmpXferEnd => exact execHmpXferEnd_keeps (Keeps.refl _ _) (Kind.Sub.mono rfl (Kind.Sub.refl _)) hx
  case hmpActivate => exact execHmpActivate_keeps (Keeps.refl _ _) (Kind.Sub.mono rfl (Kind.Sub.refl _)) hx
  case hmpCommit => exact execHmpCommit_keeps (Keeps.refl _ _) (Kind.Sub.mono rfl (Kind.Sub.refl _)) hx
  case hmpCancel => exact execHmpCancel_keeps (Keeps.refl _ _) (Kind.Sub.mono rfl (Kind.Sub.refl _)) hx
  case hmpRevert => exact execHmpRevert_keeps (Keeps.refl _ _) (Kind.Sub.mono rfl (Kind.Sub.refl _)) hx
  case hmpDownhaul => exact execHmpDownhaul_keeps (Keeps.refl _ _) (Kind.Sub.mono rfl (Kind.Sub.refl _)) hx
  case hmpRestart => exact execHmpRestart_keeps (Keeps.refl _ _) (Kind.Sub.mono rfl (Kind.Sub.refl _)) hx
  case hmpSetNet => exact execHmpSetNet_keeps (Keeps.refl _ _) (Kind.Sub.mono rfl (Kind.Sub.refl _)) hx
  case hmpReadLog => exact execHmpReadLog_keeps (Keeps.refl _ _) (Kind.Sub.mono rfl (Kind.Sub.refl _)) hx
  case hmpAttest => exact execHmpAttest_keeps (Keeps.refl _ _) (Kind.Sub.mono rfl (Kind.Sub.refl _)) hx
  case hrSlot => exact execHrSlot_keeps (Keeps.refl _ _) (Kind.Sub.mono rfl (Kind.Sub.refl _)) hx
  case hrRetry => exact execHrRetry_keeps (Keeps.refl _ _) (Kind.Sub.mono rfl (Kind.Sub.refl _)) hx
  case hrChannelUp => exact execHrChannelUp_keeps (Keeps.refl _ _) (Kind.Sub.mono rfl (Kind.Sub.refl _)) hx
  case powerOnReset => exact execPowerOnReset_keeps (Keeps.refl _ _) (Kind.Sub.mono rfl (Kind.Sub.refl _)) hx
  case coldBoot => exact execColdBoot_keeps (Keeps.refl _ _) (Kind.Sub.mono rfl (Kind.Sub.refl _)) hx
  case mpReadyTimeout => exact execMpReadyTimeout_keeps (Keeps.refl _ _) (Kind.Sub.mono rfl (Kind.Sub.refl _)) hx
  case internalReset => exact execInternalReset_keeps (Keeps.refl _ _) (Kind.Sub.mono rfl (Kind.Sub.refl _)) hx
  case updStage => exact execUpdStage_keeps (Keeps.refl _ _) (Kind.Sub.mono rfl (Kind.Sub.refl _)) hx
  case updActivate => exact execUpdActivate_keeps (Keeps.refl _ _) (Kind.Sub.mono rfl (Kind.Sub.refl _)) hx
  case activationResume => exact execActivationResume_keeps (Keeps.refl _ _) (Kind.Sub.mono rfl (Kind.Sub.refl _)) hx
  case activationHandoff => exact execActivationHandoff_keeps (Keeps.refl _ _) (Kind.Sub.mono rfl (Kind.Sub.refl _)) hx
  case componentReplacement => exact execComponentReplacement_keeps (Keeps.refl _ _) (Kind.Sub.mono rfl (Kind.Sub.refl _)) hx
  case updCommit => exact execUpdCommit_keeps (Keeps.refl _ _) (Kind.Sub.mono rfl (Kind.Sub.refl _)) hx
  case updCancel => exact execUpdCancel_keeps (Keeps.refl _ _) (Kind.Sub.mono rfl (Kind.Sub.refl _)) hx
  case trialTimeout => exact execTrialTimeout_keeps (Keeps.refl _ _) (Kind.Sub.mono rfl (Kind.Sub.refl _)) hx
  case attestRequest => exact execAttestRequest_keeps (Keeps.refl _ _) (Kind.Sub.mono rfl (Kind.Sub.refl _)) hx
  case fuseRequest => exact execFuseRequest_keeps (Keeps.refl _ _) (Kind.Sub.mono rfl (Kind.Sub.refl _)) hx
  case nonceNew => exact execNonceNew_keeps (Keeps.refl _ _) (Kind.Sub.mono rfl (Kind.Sub.refl _)) hx
  case pwrSleep => exact execPwrSleep_keeps (Keeps.refl _ _) (Kind.Sub.mono rfl (Kind.Sub.refl _)) hx
  case heldSleepProceed => exact execHeldSleepProceed_keeps (Keeps.refl _ _) (Kind.Sub.mono rfl (Kind.Sub.refl _)) hx
  case wakeN => exact execWakeN_keeps (Keeps.refl _ _) (Kind.Sub.mono rfl (Kind.Sub.refl _)) hx
  case thermalSample => exact execThermalSample_keeps (Keeps.refl _ _) (Kind.Sub.mono rfl (Kind.Sub.refl _)) hx
  case pwrwarnAssert => exact execPwrwarnAssert_keeps (Keeps.refl _ _) (Kind.Sub.mono rfl (Kind.Sub.refl _)) hx
  case pwrwarnRelease => exact execPwrwarnRelease_keeps (Keeps.refl _ _) (Kind.Sub.mono rfl (Kind.Sub.refl _)) hx
  case pwrShedClr => exact execPwrShedClr_keeps (Keeps.refl _ _) (Kind.Sub.mono rfl (Kind.Sub.refl _)) hx
  case pwrThermClr => exact execPwrThermClr_keeps (Keeps.refl _ _) (Kind.Sub.mono rfl (Kind.Sub.refl _)) hx
  case pwrWdogKick => exact execPwrWdogKick_keeps (Keeps.refl _ _) (Kind.Sub.mono rfl (Kind.Sub.refl _)) hx
  case watchdogExpiry => exact execWatchdogExpiry_keeps (Keeps.refl _ _) (Kind.Sub.mono rfl (Kind.Sub.refl _)) hx
  case fwTrap => exact execFwTrap_keeps (Keeps.refl _ _) (Kind.Sub.mono rfl (Kind.Sub.refl _)) hx
  case fwEccError => exact execFwEccError_keeps (Keeps.refl _ _) (Kind.Sub.mono rfl (Kind.Sub.refl _)) hx
  case fwRestart => exact execFwRestart_keeps (Keeps.refl _ _) (Kind.Sub.mono rfl (Kind.Sub.refl _)) hx
  case unitOut => exact execUnitOut_keeps (Keeps.refl _ _) (Kind.Sub.mono rfl (Kind.Sub.refl _)) hx
  case downhaulNRelease => exact execDownhaulNRelease_keeps (Keeps.refl _ _) (Kind.Sub.mono rfl (Kind.Sub.refl _)) hx
  case completionTimeout => exact execCompletionTimeout_keeps (Keeps.refl _ _) (Kind.Sub.mono rfl (Kind.Sub.refl _)) hx
  case ethFrameDiscard => exact execEthFrameDiscard_keeps (Keeps.refl _ _) (Kind.Sub.mono rfl (Kind.Sub.refl _)) hx

end Sys2Proof.Machine
end

