-- ==== Sys2Proof/Laws/KeepsClock.lean ====
section
/-! SUPPORT. The operations of Sys2Proof/Machine/Clock.lean keep (see Sys2Proof/Laws/KeepsBase.lean). -/

namespace Sys2Proof.Machine

theorem State.ctxCycle_keeps {ks : List Kind} {s₀ s : State} (hk : Keeps ks s₀ s) (hs : Kind.Sub [.regs, .progs] ks)
    {p : Nat} : Keeps ks s₀ (State.ctxCycle s p) := by
  unfold State.ctxCycle
  try dsimp only
  repeat' with_reducible first
      | exact hk | exact Kind.Sub.mono rfl hs | apply Keeps.ite | apply State.setCtx_keeps | apply State.countStall_keeps | assumption
      | apply Keeps.other | exact Or.inl (Kind.Sub.mem hs rfl) | exact Or.inr rfl

theorem State.cycleWork_keeps {ks : List Kind} {s₀ s : State} (hk : Keeps ks s₀ s) (hs : Kind.Sub [.regs, .mem, .ecc, .progs, .yards, .fabric, .strm, .events, .power, .free] ks)
     : Keeps ks s₀ (State.cycleWork s) := by
  unfold State.cycleWork
  try dsimp only
  repeat' with_reducible first
      | exact hk | exact Kind.Sub.mono rfl hs | apply State.yardStep_keeps | apply State.slotsStep_keeps | apply State.drainBacklog_keeps
      | apply State.ctxCycle_keeps | refine Keeps.foldl (fun s x hk => ?_) _ ?_ | assumption

theorem State.clockWork_keeps {ks : List Kind} {s₀ s : State} (hk : Keeps ks s₀ s) (hs : Kind.Sub [.regs, .mem, .ecc, .tick, .progs, .serials, .yards, .flags, .fabric, .strm, .rig, .events, .queue, .media, .gpio, .hyper, .mgmt, .sec, .power, .free] ks)
     : Keeps ks s₀ (State.clockWork s) := by
  unfold State.clockWork
  try dsimp only
  repeat' with_reducible first
      | exact hk | exact Kind.Sub.mono rfl hs | apply Keeps.ite | apply State.arriveLocal_keeps | apply State.arriveShown_keeps
      | apply State.periphEnds_keeps | apply State.guardStep_keeps | apply State.fsyncEnds_keeps | apply State.serveAll_keeps
      | apply State.serveWaiting_keeps | apply State.cycleWork_keeps | assumption

theorem State.count_keeps {ks : List Kind} {s₀ s : State} (hk : Keeps ks s₀ s) (hs : Kind.Sub [.gcnt] ks)
     : Keeps ks s₀ (State.count s) := by
  unfold State.count
  try dsimp only
  repeat' with_reducible first
      | exact hk | exact Kind.Sub.mono rfl hs | apply Keeps.ite | assumption | apply Keeps.other | exact Or.inl (Kind.Sub.mem hs rfl)
      | exact Or.inr rfl

theorem State.snap_keeps {ks : List Kind} {s₀ s : State} (hk : Keeps ks s₀ s) (hs : Kind.Sub [.was] ks)
     : Keeps ks s₀ (State.snap s) := by
  unfold State.snap
  try dsimp only
  repeat' with_reducible first
      | exact hk | exact Kind.Sub.mono rfl hs | assumption | apply Keeps.other | exact Or.inl (Kind.Sub.mem hs rfl) | exact Or.inr rfl

/-- Cycle 0 keeps all but the queue, which it fills. -/
theorem State.cycleZero_keeps {ks : List Kind} {s₀ s : State} (hk : Keeps ks s₀ s) (hs : Kind.Sub [.gcnt, .regs, .was, .mem, .ecc, .tick, .progs, .serials, .yards, .flags, .fabric, .strm, .rig, .events, .queue, .media, .gpio, .hyper, .mgmt, .sec, .power, .free] ks) :
    Keeps ks s₀ { State.cycleZero s with pending := s₀.pending } := by
  unfold State.cycleZero
  dsimp only
  have h0 : Keeps ks s₀ { s with tick := { s.tick with fresh := false, trail := true } } := (by apply Keeps.other hk <;> first | exact Or.inl (Kind.Sub.mem hs rfl) | exact Or.inr rfl)
  have h1 := State.cycleWork_keeps (State.snap_keeps h0 (Kind.Sub.mono rfl hs)) (Kind.Sub.mono rfl hs)
  revert h1
  generalize State.cycleWork _ = u
  intro h1
  exact ⟨h1.part, rfl, h1.regs, h1.mem, h1.ecc, fun k hn => by have := h1.outside k hn; cases k <;> exact this⟩

/-- The streams' part of a cycle keeps all but the queue, which it fills. -/
theorem State.cycleTrail_keeps {ks : List Kind} {s₀ s : State} (hk : Keeps ks s₀ s) (hs : Kind.Sub [.gcnt, .regs, .was, .mem, .ecc, .tick, .progs, .serials, .yards, .flags, .fabric, .strm, .rig, .events, .queue, .media, .gpio, .hyper, .mgmt, .sec, .power, .free] ks) :
    Keeps ks s₀ { State.cycleTrail s with pending := s₀.pending } := by
  unfold State.cycleTrail
  dsimp only
  have h0 : Keeps ks s₀ { s with tick := { s.tick with trail := false } } := (by apply Keeps.other hk <;> first | exact Or.inl (Kind.Sub.mem hs rfl) | exact Or.inr rfl)
  have h1 := State.strmsStep_keeps h0 (Kind.Sub.mono rfl hs)
  revert h1
  generalize State.strmsStep _ = u
  intro h1
  exact ⟨h1.part, rfl, h1.regs, h1.mem, h1.ecc, fun k hn => by have := h1.outside k hn; cases k <;> exact this⟩

/-- The next nanosecond keeps all but the queue, which it fills. -/
theorem State.advance1_keeps {ks : List Kind} {s₀ s : State} (hk : Keeps ks s₀ s) (hs : Kind.Sub [.gcnt, .regs, .was, .mem, .ecc, .tick, .progs, .serials, .yards, .flags, .fabric, .strm, .rig, .events, .queue, .media, .gpio, .hyper, .mgmt, .sec, .power, .free] ks) :
    Keeps ks s₀ { State.advance1 s with pending := s₀.pending } := by
  unfold State.advance1
  dsimp only
  have h0 := State.snap_keeps (State.count_keeps hk (Kind.Sub.mono rfl hs)) (Kind.Sub.mono rfl hs)
  split
  · have h2 := State.clockWork_keeps h0 (Kind.Sub.mono rfl hs)
    revert h2
    generalize State.clockWork _ = u
    intro h2
    have h1 : Keeps ks s₀ { u with tick := { u.tick with trail := u.cycleHere } } := by
      apply Keeps.other h2 <;> first | exact Or.inl (Kind.Sub.mem hs rfl) | exact Or.inr rfl
    exact ⟨h1.part, rfl, h1.regs, h1.mem, h1.ecc, fun k hn => by have := h1.outside k hn; cases k <;> exact this⟩
  · have h1 := h0
    revert h1
    generalize State.snap _ = u
    intro h1
    exact ⟨h1.part, rfl, h1.regs, h1.mem, h1.ecc, fun k hn => by have := h1.outside k hn; cases k <;> exact this⟩

/-- The part's own time keeps all but the queue, which it fills. -/
theorem State.nanosecond_keeps {ks : List Kind} {s₀ s : State} (hk : Keeps ks s₀ s) (hs : Kind.Sub [.gcnt, .regs, .was, .mem, .ecc, .tick, .progs, .serials, .yards, .flags, .fabric, .strm, .rig, .events, .queue, .media, .gpio, .hyper, .mgmt, .sec, .power, .free] ks) :
    Keeps ks s₀ { State.nanosecond s with pending := s₀.pending } := by
  unfold State.nanosecond
  split
  · exact State.cycleZero_keeps hk hs
  · split
    · exact State.cycleTrail_keeps hk hs
    · exact State.advance1_keeps hk hs

end Sys2Proof.Machine
end

