-- ==== Sys2Proof/Laws/KeepsStep.lean ====
section
/-! SUPPORT. The operations of Sys2Proof/Machine/Step.lean keep (see Sys2Proof/Laws/KeepsBase.lean). -/

namespace Sys2Proof.Machine

/-- What a step keeps: the queue is another (it loses its front, or fills). -/
theorem step_keeps {s t : State} (hx : step s = .next t) :
    ∃ ks, Keeps ks s { t with pending := s.pending } ∧
      (s.pending = [] → ks = [.gcnt, .regs, .was, .mem, .ecc, .tick, .progs, .serials, .yards, .flags, .fabric, .strm, .rig, .events, .queue, .media, .gpio, .hyper, .mgmt, .sec, .power, .free]) ∧ (∀ i is, s.pending = i :: is → ks = i.touches) := by
  unfold step at hx
  split at hx
  · next hp => cases hx; exact ⟨_, State.nanosecond_keeps (Keeps.refl _ s) (Kind.Sub.refl _), fun _ => rfl, fun i is h => by simp [hp] at h⟩
  · next c rest hp =>
    have h1 := exec_keeps hx
    refine ⟨c.touches, ⟨h1.part, rfl, h1.regs, h1.mem, h1.ecc, fun k hn => ?_⟩, fun h => by simp [hp] at h, fun i is h => by
      rw [hp] at h; injection h with h; rw [h]⟩
    have := h1.outside k hn
    cases k <;> exact this

theorem State.withFetchWord_keeps {ks : List Kind} {s₀ s : State} (hk : Keeps ks s₀ s) (hs : Kind.Sub [] ks)
    {_nbits : Nat} {_w : Nat} : Keeps ks s₀ (State.withFetchWord s _nbits _w) := by
  unfold State.withFetchWord
  try dsimp only
  repeat' with_reducible first
      | exact hk | exact Kind.Sub.mono rfl hs | assumption

end Sys2Proof.Machine
end

