-- ==== Sys2Proof/Laws/Steady.lean ====
section
/-! SUPPORT. `Steady s t`: every program's registers, instruction index and epochs are in `t` as they are in `s`, and so is where
its tensors lie. The operations of kernels keep them. -/

set_option linter.unreachableTactic false
set_option linter.unusedTactic false

namespace Sys2Proof.Machine

/-- What the memory operations of a kernel leave of every context. -/
structure Steady (s t : State) : Prop where
  regs : ∀ p, t.regsOf p = s.regsOf p
  idx : ∀ p, (t.ctx p).idx = (s.ctx p).idx
  epochs : ∀ p, (t.ctx p).epochs = (s.ctx p).epochs
  place : ∀ p, (t.prog p).place = (s.prog p).place
  box : ∀ p, (t.prog p).box = (s.prog p).box

theorem Steady.refl (s : State) : Steady s s := ⟨fun _ => rfl, fun _ => rfl, fun _ => rfl, fun _ => rfl, fun _ => rfl⟩

variable {s₀ s : State}

theorem Steady.progs {t : State} (h : Steady s₀ s) (hp : t.progs = s.progs) : Steady s₀ t := by
  have hc := fun p => State.prog_congr hp p
  exact ⟨fun p => by simp only [State.regsOf, State.ctx, hc]; exact h.regs p, fun p => by simp only [State.ctx, hc]; exact h.idx p,
    fun p => by simp only [State.ctx, hc]; exact h.epochs p,
    fun p => by rw [hc]; exact h.place p, fun p => by rw [hc]; exact h.box p⟩

theorem Steady.outside {t : State} {ks : List Kind} (h : Steady s₀ s) (hk : Keeps ks s t) (hn : decide (Kind.progs ∈ ks) = false) :
    Steady s₀ t := h.progs (hk.outside .progs (of_decide_eq_false hn))

theorem Steady.setProg (h : Steady s₀ s) (p : Nat) (g : Prog)
    (hg : g.ctx.regs = (s.ctx p).regs ∧ g.ctx.idx = (s.ctx p).idx ∧ g.ctx.epochs = (s.ctx p).epochs ∧
      g.place = (s.prog p).place ∧ g.box = (s.prog p).box) : Steady s₀ (s.setProg p g) := by
  obtain ⟨h1, h2, h3, h5, h6⟩ := hg
  refine ⟨fun q => ?_, fun q => ?_, fun q => ?_, fun q => ?_, fun q => ?_⟩ <;> by_cases hq : q = p
  · subst hq; simp only [State.regsOf, State.ctx, State.prog_setProg_same]; exact h1.trans (h.regs q)
  · simp only [State.regsOf, State.ctx, State.prog_setProg_ne s g hq]; exact h.regs q
  · subst hq; simp only [State.ctx, State.prog_setProg_same]; exact h2.trans (h.idx q)
  · simp only [State.ctx, State.prog_setProg_ne s g hq]; exact h.idx q
  · subst hq; simp only [State.ctx, State.prog_setProg_same]; exact h3.trans (h.epochs q)
  · simp only [State.ctx, State.prog_setProg_ne s g hq]; exact h.epochs q
  · subst hq; simp only [State.prog_setProg_same]; exact h5.trans (h.place q)
  · simp only [State.prog_setProg_ne s g hq]; exact h.place q
  · subst hq; simp only [State.prog_setProg_same]; exact h6.trans (h.box q)
  · simp only [State.prog_setProg_ne s g hq]; exact h.box q

theorem Steady.setCtx (h : Steady s₀ s) (p : Nat) (c : Ctx)
    (hc : c.regs = (s.ctx p).regs ∧ c.idx = (s.ctx p).idx ∧ c.epochs = (s.ctx p).epochs) :
    Steady s₀ (s.setCtx p c) := h.setProg p _ ⟨hc.1, hc.2.1, hc.2.2, rfl, rfl⟩

/-- The context of a state from which `s` came, some other fields of it changed. -/
theorem Steady.setFrom {u : State} {p : Nat} {c : Ctx} (h : Steady s₀ s) (hu : Steady s₀ u)
    (hc : c.regs = (u.ctx p).regs ∧ c.idx = (u.ctx p).idx ∧ c.epochs = (u.ctx p).epochs) :
    Steady s₀ (s.setCtx p c) :=
  h.setCtx p c ⟨hc.1.trans ((hu.regs p).trans (h.regs p).symm), hc.2.1.trans ((hu.idx p).trans (h.idx p).symm),
    hc.2.2.trans ((hu.epochs p).trans (h.epochs p).symm)⟩

theorem Steady.ite {c : Prop} [Decidable c] {a b : State} (ha : Steady s₀ a) (hb : Steady s₀ b) : Steady s₀ (if c then a else b) := by
  split <;> assumption

theorem Steady.foldl {α : Type} {f : State → α → State} (hf : ∀ s x, Steady s₀ s → Steady s₀ (f s x)) (l : List α) (h : Steady s₀ s) :
    Steady s₀ (l.foldl f s) := by
  induction l generalizing s with
  | nil => exact h
  | cons x l ih => exact ih (hf s x h)

theorem Steady.firstRecord (h : Steady s₀ s) {r : RegId} {n : Nat} {w : State → State} (hw : (w s).progs = s.progs) :
    Steady s₀ (s.firstRecord r n w) := by
  unfold State.firstRecord; split
  · exact h
  · exact h.progs hw

theorem Steady.ofFst {β : Type} {t : State} {x : β} {r : State × β} (h : Steady s₀ r.1) (e : r = (t, x)) : Steady s₀ t := by rw [e] at h; exact h

theorem Steady.foldlFst {α β : Type} {f : State × β → α → State × β} {r : State × β} (hf : ∀ r x, Steady s₀ r.1 → Steady s₀ (f r x).1)
    (l : List α) (h : Steady s₀ r.1) : Steady s₀ (l.foldl f r).1 := by
  induction l generalizing r with
  | nil => exact h
  | cons x l ih => exact ih (hf r x h)

theorem State.setReg_steady {s₀ s : State} (hk : Steady s₀ s)
    {r : RegId} {v : BitVec 64} : Steady s₀ (State.setReg s r v) :=
  hk.outside (State.setReg_keeps (Keeps.refl _ s) (Kind.Sub.refl _)) rfl

theorem State.put_steady {s₀ s : State} (hk : Steady s₀ s)
    {r : RegId} {lo : Nat} {w : Nat} {x : Nat} : Steady s₀ (State.put s r lo w x) :=
  hk.outside (State.put_keeps (Keeps.refl _ s) (Kind.Sub.refl _)) rfl

theorem State.bump_steady {s₀ s : State} (hk : Steady s₀ s)
    {r : RegId} {n : Nat} {lo : Nat} {w : Nat} : Steady s₀ (State.bump s r n lo w) :=
  hk.outside (State.bump_keeps (Keeps.refl _ s) (Kind.Sub.refl _)) rfl

theorem State.setBits_steady {s₀ s : State} (hk : Steady s₀ s)
    {r : RegId} {m : BitVec 64} : Steady s₀ (State.setBits s r m) :=
  hk.outside (State.setBits_keeps (Keeps.refl _ s) (Kind.Sub.refl _)) rfl

theorem State.enterFifo_steady {s₀ s : State} (hk : Steady s₀ s)
    {key : Nat} {e : Event} : Steady s₀ (State.enterFifo s key e) :=
  hk.outside (State.enterFifo_keeps (Keeps.refl _ s) (Kind.Sub.refl _)) rfl

theorem State.placeLost_steady {s₀ s : State} (hk : Steady s₀ s)
    {key : Nat} : Steady s₀ (State.placeLost s key) :=
  hk.outside (State.placeLost_keeps (Keeps.refl _ s) (Kind.Sub.refl _)) rfl

theorem State.raise_steady {s₀ s : State} (hk : Steady s₀ s)
    {code : Nat} {die : Nat} {unit : Nat} {handle : Nat} {arg16 : Nat} {arg64 : Nat} : Steady s₀ (State.raise s code die unit handle arg16 arg64) :=
  hk.outside (State.raise_keeps (Keeps.refl _ s) (Kind.Sub.refl _)) rfl

theorem State.setCond_steady {s₀ s : State} (hk : Steady s₀ s)
    {p : Nat} {n : Nat} : Steady s₀ (State.setCond s p n) := by
  unfold State.setCond
  try dsimp only
  repeat' with_reducible first
      | exact hk | assumption | refine Steady.setFrom ?_ ?_ ⟨rfl, rfl, rfl⟩

theorem State.faultOn_steady {s₀ s : State} (hk : Steady s₀ s)
    {p : Nat} {m : Nat} {kind : Nat} {idx : Nat} : Steady s₀ (State.faultOn s p m kind idx) := by
  unfold State.faultOn
  try dsimp only
  repeat' with_reducible first
      | exact hk | apply State.put_steady | apply State.setCond_steady | assumption | refine Steady.firstRecord ?_ rfl

theorem State.unitFault_steady {s₀ s : State} (hk : Steady s₀ s)
    {p : Nat} : Steady s₀ (State.unitFault s p) := by
  unfold State.unitFault
  try dsimp only
  repeat' with_reducible first
      | exact hk | apply State.setCond_steady | apply State.faultOn_steady | refine Steady.foldl (fun s x hk => ?_) _ ?_ | assumption

theorem State.setYard_steady {s₀ s : State} (hk : Steady s₀ s)
    {m : Nat} {y : Nat} {v : YardSt} : Steady s₀ (State.setYard s m y v) :=
  hk.outside (State.setYard_keeps (Keeps.refl _ s) (Kind.Sub.refl _)) rfl

theorem State.raiseTrip_steady {s₀ s : State} (hk : Steady s₀ s)
    {t : Trip} : Steady s₀ (State.raiseTrip s t) := by
  unfold State.raiseTrip
  try dsimp only
  repeat' with_reducible first
      | exact hk | apply Steady.ite | apply State.put_steady | apply State.raise_steady | apply State.setYard_steady
      | apply State.unitFault_steady | assumption | refine Steady.firstRecord ?_ rfl

theorem State.onBlock_steady {s₀ s : State} (hk : Steady s₀ s)
    {k_ : Nat} {f : YardSt → YardSt} : Steady s₀ (State.onBlock s k_ f) :=
  hk.outside (State.onBlock_keeps (Keeps.refl _ s) (Kind.Sub.refl _)) rfl

theorem State.tagTrip_steady {s₀ s : State} (hk : Steady s₀ s)
    {p : Nat} {spec : Nat} {port : Nat} {kind : Nat} {u : TagUse} : Steady s₀ (State.tagTrip s p spec port kind u) := by
  unfold State.tagTrip
  try dsimp only
  repeat' with_reducible first
      | exact hk | apply Steady.ite | apply State.onBlock_steady | apply State.raiseTrip_steady | assumption

theorem State.tagOpen_steady {s₀ s : State} (hk : Steady s₀ s)
    {p : Nat} {spec : Nat} {seq : Nat} {port : Nat} {u : TagUse} : Steady s₀ (State.tagOpen s p spec seq port u) := by
  unfold State.tagOpen
  try dsimp only
  repeat' with_reducible first
      | exact hk | apply Steady.ite | apply State.put_steady | apply State.onBlock_steady | apply State.tagTrip_steady | assumption

theorem State.setFill_steady {s₀ s : State} (hk : Steady s₀ s)
    {k_ : Nat} {f : Fill} : Steady s₀ (State.setFill s k_ f) :=
  hk.outside (State.setFill_keeps (Keeps.refl _ s) (Kind.Sub.refl _)) rfl

theorem State.tagDone_steady {s₀ s : State} (hk : Steady s₀ s)
    {k_ : Nat} : Steady s₀ (State.tagDone s k_) :=
  hk.outside (State.tagDone_keeps (Keeps.refl _ s) (Kind.Sub.refl _)) rfl

theorem State.tagClose_steady {s₀ s : State} (hk : Steady s₀ s)
    {p : Nat} {seq : Nat} {k_ : Nat} : Steady s₀ (State.tagClose s p seq k_) :=
  hk.outside (State.tagClose_keeps (Keeps.refl _ s) (Kind.Sub.refl _)) rfl

theorem State.tagWrite_steady {s₀ s : State} (hk : Steady s₀ s)
    {p : Nat} {spec : Nat} {seq : Nat} {port : Nat} {us : List TagUse} : Steady s₀ (State.tagWrite s p spec seq port us) := by
  unfold State.tagWrite
  try dsimp only
  repeat' with_reducible first
      | exact hk | apply State.tagOpen_steady | apply State.tagClose_steady | refine Steady.foldl (fun s x hk => ?_) _ ?_ | assumption

theorem State.tagCheck_steady {s₀ s : State} (hk : Steady s₀ s)
    {p : Nat} {spec : Nat} {port : Nat} {kind : Nat} {u : TagUse} : Steady s₀ (State.tagCheck s p spec port kind u) := by
  unfold State.tagCheck
  try dsimp only
  repeat' with_reducible first
      | exact hk | apply Steady.ite | apply State.tagTrip_steady | assumption

theorem State.tripChecks_steady {s₀ s : State} (hk : Steady s₀ s)
    {p : Nat} {spec : Nat} {seq : Nat} {k_ : Kernel} {tags : Tags} : Steady s₀ (State.tripChecks s p spec seq k_ tags) := by
  unfold State.tripChecks
  try dsimp only
  repeat' with_reducible first
      | exact hk | apply State.tagCheck_steady | apply State.tagWrite_steady | refine Steady.foldl (fun s x hk => ?_) _ ?_ | assumption

theorem State.askOut_steady {s₀ s : State} (hk : Steady s₀ s)
    {unit : Nat} : Steady s₀ (State.askOut s unit) :=
  hk.outside (State.askOut_keeps (Keeps.refl _ s) (Kind.Sub.refl _)) rfl

theorem State.uncorrAt_steady {s₀ s : State} (hk : Steady s₀ s)
    {w : Nat} {handle : Nat} {port : Nat} {n : Nat} : Steady s₀ (State.uncorrAt s w handle port n) :=
  hk.outside (State.uncorrAt_keeps (Keeps.refl _ s) (Kind.Sub.refl _)) rfl

theorem State.corrAt_steady {s₀ s : State} (hk : Steady s₀ s)
    {w : Nat} {n : Nat} : Steady s₀ (State.corrAt s w n) :=
  hk.outside (State.corrAt_keeps (Keeps.refl _ s) (Kind.Sub.refl _)) rfl

theorem State.readCheck_steady {s₀ s : State} (hk : Steady s₀ s)
    {a : Nat} {n : Nat} {handle : Nat} {port : Nat} : Steady s₀ (State.readCheck s a n handle port) :=
  hk.outside (State.readCheck_keeps (Keeps.refl _ s) (Kind.Sub.refl _)) rfl

theorem State.progRead_steady {s₀ s : State} (hk : Steady s₀ s)
    {p : Nat} {a : Nat} {n : Nat} {port : Nat} : Steady s₀ (State.progRead s p a n port) := by
  unfold State.progRead
  try dsimp only
  repeat' with_reducible first
      | exact hk | apply Steady.ite | apply State.unitFault_steady | apply State.readCheck_steady | assumption

theorem State.readWhere_steady {s₀ s : State} (hk : Steady s₀ s)
    {p : Nat} {port : Nat} {v : View} {need : Nat → Nat → Bool} : Steady s₀ (State.readWhere s p port v need) := by
  unfold State.readWhere
  try dsimp only
  repeat' with_reducible first
      | exact hk | apply Steady.ite | apply State.progRead_steady | refine Steady.foldl (fun s x hk => ?_) _ ?_ | assumption

theorem State.setBoom_steady {s₀ s : State} (hk : Steady s₀ s)
    {m : Nat} {y : Nat} {n : Nat} {v : BoomSt} : Steady s₀ (State.setBoom s m y n v) :=
  hk.outside (State.setBoom_keeps (Keeps.refl _ s) (Kind.Sub.refl _)) rfl

theorem State.takeFree_steady {s₀ s : State} (hk : Steady s₀ s)
    {n : Nat} : Steady s₀ (State.takeFree s n) :=
  hk.outside (State.takeFree_keeps (Keeps.refl _ s) (Kind.Sub.refl _)) rfl

theorem State.loadOcbk_steady {s₀ s : State} (hk : Steady s₀ s)
    {m : Nat} {y : Nat} {n : Nat} {es : List Int} : Steady s₀ (State.loadOcbk s m y n es) :=
  hk.outside (State.loadOcbk_keeps (Keeps.refl _ s) (Kind.Sub.refl _)) rfl

theorem State.boomConfig_steady {s₀ s : State} (hk : Steady s₀ s)
    {m : Nat} {y : Nat} {n : Nat} {gsz : Nat} {c : EpiCfg} {bias : Bool} {slot : Option Nat} : Steady s₀ (State.boomConfig s m y n gsz c bias slot) :=
  hk.outside (State.boomConfig_keeps (Keeps.refl _ s) (Kind.Sub.refl _)) rfl

theorem State.kernelConfig_steady {s₀ s : State} (hk : Steady s₀ s)
    {p : Nat} {d : View} {a : View} {rec : Nat} {bias : Bool} : Steady s₀ (State.kernelConfig s p d a rec bias) :=
  hk.outside (State.kernelConfig_keeps (Keeps.refl _ s) (Kind.Sub.refl _)) rfl

theorem State.readAll_steady {s₀ s : State} (hk : Steady s₀ s)
    {p : Nat} {port : Nat} {v : View} : Steady s₀ (State.readAll s p port v) := by
  unfold State.readAll
  try dsimp only
  repeat' with_reducible first
      | exact hk | apply State.readWhere_steady | assumption

theorem State.partialCheck_steady {s₀ s : State} (hk : Steady s₀ s)
    {a : Nat} {n : Nat} {port : Nat} {prog : Option Nat} : Steady s₀ (State.partialCheck s a n port prog) := by
  unfold State.partialCheck
  try dsimp only
  repeat' with_reducible first
      | exact hk | apply State.unitFault_steady | apply State.uncorrAt_steady | assumption | split

theorem State.poke_steady {s₀ s : State} (hk : Steady s₀ s)
    {a : Nat} {bs : List Byte} : Steady s₀ (State.poke s a bs) :=
  hk.outside (State.poke_keeps (Keeps.refl _ s) (Kind.Sub.refl _)) rfl

theorem State.store_steady {s₀ s : State} (hk : Steady s₀ s)
    {a : Nat} {bs : List Byte} : Steady s₀ (State.store s a bs) :=
  hk.outside (State.store_keeps (Keeps.refl _ s) (Kind.Sub.refl _)) rfl

theorem State.checkedStore_steady {s₀ s : State} (hk : Steady s₀ s)
    {a : Nat} {bs : List Byte} {port : Nat} {prog : Option Nat} : Steady s₀ (State.checkedStore s a bs port prog) := by
  unfold State.checkedStore
  try dsimp only
  repeat' with_reducible first
      | exact hk | apply State.store_steady | apply State.partialCheck_steady | assumption

theorem State.putRow_steady {s₀ s : State} (hk : Steady s₀ s)
    {p : Nat} {port : Nat} {v : View} {r : Nat} {es : List Nat} : Steady s₀ (State.putRow s p port v r es) := by
  unfold State.putRow
  try dsimp only
  repeat' with_reducible first
      | exact hk | apply State.checkedStore_steady | assumption

theorem State.countInto_steady {s₀ s : State} (hk : Steady s₀ s)
    {m : Nat} {y : Nat} {slot : Nat} {sat : Nat} {rtz : Nat} : Steady s₀ (State.countInto s m y slot sat rtz) :=
  hk.outside (State.countInto_keeps (Keeps.refl _ s) (Kind.Sub.refl _)) rfl

theorem State.holdBack_steady {s₀ s : State} (hk : Steady s₀ s)
    {m : Nat} {y : Nat} {h : Held} : Steady s₀ (State.holdBack s m y h) :=
  hk.outside (State.holdBack_keeps (Keeps.refl _ s) (Kind.Sub.refl _)) rfl

theorem State.scaleFirst_steady {s₀ s : State} (hk : Steady s₀ s)
    {p : Nat} {m : Nat} {y : Nat} {sl : Nat} {slot : Nat} {causes : Nat} : Steady s₀ (State.scaleFirst s p m y sl slot causes) := by
  unfold State.scaleFirst
  try dsimp only
  repeat' with_reducible first
      | exact hk | apply State.raise_steady | refine Steady.outside ?_ (State.bumpLast_keeps (Keeps.refl _ _) (Kind.Sub.refl _)) rfl
      | assumption | refine Steady.setFrom ?_ ?_ ⟨rfl, rfl, rfl⟩

theorem State.scaleJoin_steady {s₀ s : State} (hk : Steady s₀ s)
    {p : Nat} {m : Nat} {y : Nat} {sl : Nat} {slot : Nat} {causes : Nat} {e : ScaleMark} : Steady s₀ (State.scaleJoin s p m y sl slot causes e) := by
  unfold State.scaleJoin
  try dsimp only
  repeat' with_reducible first
      | exact hk | apply Steady.ite | refine Steady.outside ?_ (State.amend_keeps (Keeps.refl _ _) (Kind.Sub.refl _)) rfl
      | refine Steady.outside ?_ (State.bumpLast_keeps (Keeps.refl _ _) (Kind.Sub.refl _)) rfl | assumption
      | refine Steady.setFrom ?_ ?_ ⟨rfl, rfl, rfl⟩

theorem State.scaleRange_steady {s₀ s : State} (hk : Steady s₀ s)
    {p : Nat} {m : Nat} {y : Nat} {sl : Nat} {slot : Nat} {causes : Nat} : Steady s₀ (State.scaleRange s p m y sl slot causes) := by
  unfold State.scaleRange
  try dsimp only
  repeat' with_reducible first
      | exact hk | apply Steady.ite | apply State.scaleFirst_steady | apply State.scaleJoin_steady | assumption | split

theorem State.meetCauses_steady {s₀ s : State} (hk : Steady s₀ s)
    {p : Nat} {m : Nat} {y : Nat} {sl : Nat} {slot : Nat} {causes : Nat} : Steady s₀ (State.meetCauses s p m y sl slot causes) := by
  unfold State.meetCauses
  try dsimp only
  repeat' with_reducible first
      | exact hk | apply Steady.ite | apply State.setBits_steady | apply State.scaleRange_steady | assumption

theorem State.specCounts_steady {s₀ s : State} (hk : Steady s₀ s)
    {p : Nat} {m : Nat} {y : Nat} {n : Nat} {spec : Nat} {slot : Nat} {sat : Nat} {rtz : Nat} {causes : Nat} : Steady s₀ (State.specCounts s p m y n spec slot sat rtz causes) := by
  unfold State.specCounts
  try dsimp only
  repeat' with_reducible first
      | exact hk | apply Steady.ite | apply State.meetCauses_steady | apply State.countInto_steady | apply State.holdBack_steady
      | assumption

theorem State.tallyRow_steady {s₀ s : State} (hk : Steady s₀ s)
    {p : Nat} {spec : Nat} {v : View} {r : Nat} {t : Tally} : Steady s₀ (State.tallyRow s p spec v r t) := by
  unfold State.tallyRow
  try dsimp only
  repeat' with_reducible first
      | exact hk | apply State.specCounts_steady | assumption | split

theorem State.writeRows_steady {s₀ s : State} (hk : Steady s₀ s)
    {p : Nat} {port : Nat} {spec : Nat} {v : View} {rows : List (Nat × List Nat × Tally)} : Steady s₀ (State.writeRows s p port spec v rows) := by
  unfold State.writeRows
  try dsimp only
  repeat' with_reducible first
      | exact hk | apply State.tallyRow_steady | apply State.putRow_steady | refine Steady.foldl (fun s x hk => ?_) _ ?_ | assumption

theorem State.runMat_steady {s₀ s : State} (hk : Steady s₀ s)
    {p : Nat} {dst : Slice} {a : Slice} {b : Slice} {c : Slice} {bias : Bool} {rec : Nat} {need : View → View → Nat → Nat → Bool} {rows : State → Prog → View → View → View → View → List (Nat × List Nat × Tally)} : Steady s₀ (State.runMat s p dst a b c bias rec need rows) := by
  unfold State.runMat
  try dsimp only
  repeat' with_reducible first
      | exact hk | apply Steady.ite | apply State.readWhere_steady | apply State.readAll_steady | apply State.writeRows_steady
      | apply State.kernelConfig_steady | assumption

theorem State.runConv_steady {s₀ s : State} (hk : Steady s₀ s)
    {p : Nat} {tr : Bool} {dst : Slice} {a : Slice} {b : Slice} {c : Slice} {bias : Bool} {count : Nat} {rec : Nat} : Steady s₀ (State.runConv s p tr dst a b c bias count rec) := by
  unfold State.runConv
  try dsimp only
  repeat' with_reducible first
      | exact hk | apply Steady.ite | apply State.runMat_steady | assumption

theorem State.runMm_steady {s₀ s : State} (hk : Steady s₀ s)
    {p : Nat} {dst : Slice} {a : Slice} {b : Slice} {c : Slice} {bias : Bool} {count : Nat} {rec : Nat} : Steady s₀ (State.runMm s p dst a b c bias count rec) := by
  unfold State.runMm
  try dsimp only
  repeat' with_reducible first
      | exact hk | apply State.runMat_steady | assumption

theorem State.deliver_steady {s₀ s : State} (hk : Steady s₀ s)
    {p : Nat} {seq : Nat} {v : Word} {due : Nat} {reef : Option Nat} : Steady s₀ (State.deliver s p seq v due reef) := by
  unfold State.deliver
  try dsimp only
  repeat' with_reducible first
      | exact hk | apply Steady.ite | assumption | refine Steady.setFrom ?_ ?_ ⟨rfl, rfl, rfl⟩

theorem State.runBoomCnt_steady {s₀ s : State} (hk : Steady s₀ s)
    {p : Nat} {seq : Nat} {rtz : Bool} {tid : Nat} : Steady s₀ (State.runBoomCnt s p seq rtz tid) := by
  unfold State.runBoomCnt
  try dsimp only
  repeat' with_reducible first
      | exact hk | apply Steady.ite | apply State.deliver_steady | refine Steady.foldl (fun s x hk => ?_) _ ?_ | assumption

theorem State.gatherRange_steady {s₀ s : State} (hk : Steady s₀ s)
    {p : Nat} {m : Nat} {y : Nat} : Steady s₀ (State.gatherRange s p m y) := by
  unfold State.gatherRange
  try dsimp only
  repeat' with_reducible first
      | exact hk | apply Steady.ite | apply State.raise_steady | assumption | refine Steady.setFrom ?_ ?_ ⟨rfl, rfl, rfl⟩

theorem State.perf_steady {s₀ s : State} (hk : Steady s₀ s)
    {r : RegId} {n : Nat} : Steady s₀ (State.perf s r n) :=
  hk.outside (State.perf_keeps (Keeps.refl _ s) (Kind.Sub.refl _)) rfl

theorem State.vuRecord_steady {s₀ s : State} (hk : Steady s₀ s)
    {p : Nat} {m : Nat} {y : Nat} {op : Nat} {dtype : Nat} {n : Nat} {status : Nat} {oob : Nat} : Steady s₀ (State.vuRecord s p m y op dtype n status oob) :=
  hk.outside (State.vuRecord_keeps (Keeps.refl _ s) (Kind.Sub.refl _)) rfl

theorem State.vuShow_steady {s₀ s : State} (hk : Steady s₀ s)
    {p : Nat} {m : Nat} {y : Nat} {spec : Nat} {op : Nat} {dtype : Nat} {n : Nat} {status : Nat} {oob : Nat} : Steady s₀ (State.vuShow s p m y spec op dtype n status oob) := by
  unfold State.vuShow
  try dsimp only
  repeat' with_reducible first
      | exact hk | apply Steady.ite | apply State.setYard_steady | apply State.vuRecord_steady | apply State.gatherRange_steady
      | assumption

theorem State.takeUnit_steady {s₀ s : State} (hk : Steady s₀ s)
    {m : Nat} {y : Nat} {code : Nat} {cycles : Nat} : Steady s₀ (State.takeUnit s m y code cycles) :=
  hk.outside (State.takeUnit_keeps (Keeps.refl _ s) (Kind.Sub.refl _)) rfl

theorem State.setDerived_steady {s₀ s : State} (hk : Steady s₀ s)
    {p : Nat} {v : View} {row : Nat} {k_ : Nat} {d : BitVec 16} : Steady s₀ (State.setDerived s p v row k_ d) := by
  unfold State.setDerived
  try dsimp only
  repeat' with_reducible first
      | exact hk | assumption | refine Steady.setProg ?_ _ _ ⟨rfl, rfl, rfl, rfl, rfl⟩

theorem State.copyPlace_steady {s₀ s : State} (hk : Steady s₀ s)
    {p : Nat} {tid : Nat} {i : Nat} {j : Nat} : Steady s₀ (State.copyPlace s p tid i j) := by
  unfold State.copyPlace
  try dsimp only
  repeat' with_reducible first
      | exact hk | apply Steady.ite | apply State.store_steady | apply State.setDerived_steady
      | refine Steady.foldl (fun s x hk => ?_) _ ?_ | assumption

theorem State.openShadow_steady {s₀ s : State} (hk : Steady s₀ s)
    {p : Nat} {tid : Nat} {spec : Nat} : Steady s₀ (State.openShadow s p tid spec) := by
  unfold State.openShadow
  try dsimp only
  repeat' with_reducible first
      | exact hk | apply Steady.ite | apply State.copyPlace_steady | assumption | refine Steady.setProg ?_ _ _ ⟨rfl, rfl, rfl, rfl, rfl⟩

theorem State.runVec_steady {s₀ s : State} (hk : Steady s₀ s)
    {p : Nat} {spec : Nat} {op : Nat} {cond : Cond} {dst : Slice} {a : Slice} {b : Slice} {c : Slice} {imm : Option Word} {count : Nat} {rec : Nat} : Steady s₀ (State.runVec s p spec op cond dst a b c imm count rec) := by
  unfold State.runVec
  try dsimp only
  repeat' with_reducible first
      | exact hk | apply Steady.ite | apply State.readWhere_steady | apply State.openShadow_steady | apply State.writeRows_steady
      | apply State.takeUnit_steady | apply State.vuShow_steady | refine Steady.foldl (fun s x hk => ?_) _ ?_ | assumption | split

theorem State.reefRecord_steady {s₀ s : State} (hk : Steady s₀ s)
    {p : Nat} {m : Nat} {y : Nat} {op : Nat} {dtype : Nat} {dest : RedDest} {n : Nat} {status : Nat} : Steady s₀ (State.reefRecord s p m y op dtype dest n status) :=
  hk.outside (State.reefRecord_keeps (Keeps.refl _ s) (Kind.Sub.refl _)) rfl

theorem State.scaleConfig_steady {s₀ s : State} (hk : Steady s₀ s)
    {m : Nat} {y : Nat} {n : Nat} {t : Tensor} : Steady s₀ (State.scaleConfig s m y n t) :=
  hk.outside (State.scaleConfig_keeps (Keeps.refl _ s) (Kind.Sub.refl _)) rfl

theorem State.derivedConfig_steady {s₀ s : State} (hk : Steady s₀ s)
    {p : Nat} {d : View} : Steady s₀ (State.derivedConfig s p d) :=
  hk.outside (State.derivedConfig_keeps (Keeps.refl _ s) (Kind.Sub.refl _)) rfl

theorem State.deriveRows_steady {s₀ s : State} (hk : Steady s₀ s)
    {p : Nat} {d : View} {per : Nat} {res : List RedVal} : Steady s₀ (State.deriveRows s p d per res) := by
  unfold State.deriveRows
  try dsimp only
  repeat' with_reducible first
      | exact hk | apply State.setDerived_steady | apply State.tallyRow_steady | apply State.derivedConfig_steady
      | refine Steady.foldl (fun s x hk => ?_) _ ?_ | assumption | split

theorem State.runArg_steady {s₀ s : State} (hk : Steady s₀ s)
    {p : Nat} {seq : Nat} {m : Nat} {y : Nat} {op : Nat} {va : View} {d : View} {vb : View} {dest : RedDest} {valueOut : Bool} {count : Nat} {res : List (Nat × Nat × Tally)} : Steady s₀ (State.runArg s p seq m y op va d vb dest valueOut count res) := by
  unfold State.runArg
  try dsimp only
  repeat' with_reducible first
      | exact hk | apply Steady.ite | apply State.writeRows_steady | apply State.deliver_steady | apply State.reefRecord_steady
      | apply State.takeUnit_steady | refine Steady.foldl (fun s x hk => ?_) _ ?_ | refine Steady.foldlFst (fun q x hk => ?_) _ ?_
      | assumption | split

theorem State.runRed_steady {s₀ s : State} (hk : Steady s₀ s)
    {p : Nat} {seq : Nat} {op : Nat} {dst : Slice} {a : Slice} {b : Slice} {dest : RedDest} {group : Nat} {axes : Nat} {valueOut : Bool} {count : Nat} : Steady s₀ (State.runRed s p seq op dst a b dest group axes valueOut count) := by
  unfold State.runRed
  try dsimp only
  repeat' with_reducible first
      | exact hk | apply Steady.ite | apply State.readWhere_steady | apply State.writeRows_steady | apply State.deliver_steady
      | apply State.reefRecord_steady | apply State.deriveRows_steady | apply State.takeUnit_steady | apply State.runArg_steady
      | refine Steady.foldl (fun s x hk => ?_) _ ?_ | refine Steady.foldlFst (fun q x hk => ?_) _ ?_ | assumption | split

theorem State.showTick_steady {s₀ s : State} (hk : Steady s₀ s)
    {t : TickStrm} {desc : List Byte} : Steady s₀ (State.showTick s t desc) :=
  hk.outside (State.showTick_keeps (Keeps.refl _ s) (Kind.Sub.refl _)) rfl

theorem State.touchPeak_steady {s₀ s : State} (hk : Steady s₀ s)
    {engine : Nat} : Steady s₀ (State.touchPeak s engine) :=
  hk.outside (State.touchPeak_keeps (Keeps.refl _ s) (Kind.Sub.refl _)) rfl

theorem State.takeSerial_steady {s₀ s : State} (hk : Steady s₀ s)
     : Steady s₀ (State.takeSerial s) :=
  hk.outside (State.takeSerial_keeps (Keeps.refl _ s) (Kind.Sub.refl _)) rfl

theorem State.post_steady {s₀ s : State} (hk : Steady s₀ s)
    {fs : List Flit} : Steady s₀ (State.post s fs) :=
  hk.outside (State.post_keeps (Keeps.refl _ s) (Kind.Sub.refl _)) rfl

theorem State.hrRequest_steady {s₀ s : State} (hk : Steady s₀ s)
    {r : HrReq} : Steady s₀ (State.hrRequest s r) :=
  hk.outside (State.hrRequest_keeps (Keeps.refl _ s) (Kind.Sub.refl _)) rfl

theorem State.farRead_steady {s₀ s : State} (hk : Steady s₀ s)
    {t : TickStrm} {q : Nat × Nat} : Steady s₀ (State.farRead s t q) := by
  unfold State.farRead
  try dsimp only
  repeat' with_reducible first
      | exact hk | apply State.progRead_steady | apply State.hrRequest_steady | apply State.post_steady
      | refine Steady.foldl (fun s x hk => ?_) _ ?_ | assumption | split

theorem State.windowFault_steady {s₀ s : State} (hk : Steady s₀ s)
    {i : Nat} {chan : Nat} {handle : Nat} {a : Nat} {write : Bool} : Steady s₀ (State.windowFault s i chan handle a write) :=
  hk.outside (State.windowFault_keeps (Keeps.refl _ s) (Kind.Sub.refl _)) rfl

theorem State.mapTick_steady {s₀ s : State} (hk : Steady s₀ s)
    {id : Nat} {f : TickStrm → TickStrm} : Steady s₀ (State.mapTick s id f) :=
  hk.outside (State.mapTick_keeps (Keeps.refl _ s) (Kind.Sub.refl _)) rfl

theorem State.stopStrm_steady {s₀ s : State} (hk : Steady s₀ s)
    {id : Nat} {a : Nat} {write : Bool} : Steady s₀ (State.stopStrm s id a write) := by
  unfold State.stopStrm
  split
  · exact hk
  · refine State.unitFault_steady (State.windowFault_steady (State.mapTick_steady ?_))
    exact hk.progs rfl

theorem State.beginStrm_steady {s₀ s : State} (hk : Steady s₀ s)
    {t : TickStrm} {desc : List Byte} {reads : List (Nat × Nat)} : Steady s₀ (State.beginStrm s t desc reads) := by
  unfold State.beginStrm
  extract_lets near far u s1 v s2 w
  have h1 : Steady s₀ s1 := by
    refine Steady.setFrom (State.takeSerial_steady hk) hk ?_
    exact ⟨rfl, rfl, rfl⟩
  have h2 : Steady s₀ s2 := by
    refine State.showTick_steady ?_
    exact h1.progs rfl
  clear_value s2
  split
  · exact State.stopStrm_steady h2
  · have h3 : Steady s₀ w := Steady.ite h2 (State.touchPeak_steady h2)
    refine Steady.foldl (fun s x hk => ?_) _ h3
    split
    · exact State.farRead_steady hk
    · exact Steady.foldl (fun s x hk => State.farRead_steady hk) _ hk

theorem State.startStrm_steady {s₀ s : State} (hk : Steady s₀ s)
    {p : Nat} {seq : Nat} {dst : Slice} {a : Slice} {count : Nat} {xform : Nat} {chans : Nat} {tap : Bool} {flag : Nat} {tags : Tags} : Steady s₀ (State.startStrm s p seq dst a count xform chans tap flag tags) := by
  unfold State.startStrm
  try dsimp only
  repeat' with_reducible first
      | exact hk | apply Steady.ite | apply State.takeFree_steady | apply State.beginStrm_steady | assumption | split
      | refine Steady.setProg ?_ _ _ ⟨rfl, rfl, rfl, rfl, rfl⟩

theorem State.runKernel_steady {s₀ s : State} (hk : Steady s₀ s)
    {p : Nat} {spec : Nat} {seq : Nat} {k_ : Kernel} {tags : Tags} : Steady s₀ (State.runKernel s p spec seq k_ tags) := by
  unfold State.runKernel
  try dsimp only
  repeat' with_reducible first
      | exact hk | apply State.runRed_steady | apply State.runMm_steady | apply State.runConv_steady | apply State.runVec_steady
      | apply State.startStrm_steady | apply State.tripChecks_steady | apply State.runBoomCnt_steady | assumption | split

theorem State.markBlock_steady {s₀ s : State} (hk : Steady s₀ s)
    {p : Nat} {spec : Nat} {k_ : Nat} : Steady s₀ (State.markBlock s p spec k_) :=
  hk.outside (State.markBlock_keeps (Keeps.refl _ s) (Kind.Sub.refl _)) rfl

theorem State.nameWrite_steady {s₀ s : State} (hk : Steady s₀ s)
    {p : Nat} {spec : Nat} {seq : Nat} {others : List Nat} {k_ : Nat} : Steady s₀ (State.nameWrite s p spec seq others k_).1 :=
  hk.outside (State.nameWrite_keeps (Keeps.refl _ s) (Kind.Sub.refl _)) rfl

theorem State.nameWrites_steady {s₀ s : State} (hk : Steady s₀ s)
    {p : Nat} {spec : Nat} {seq : Nat} {others : Nat → List Nat} {l : List Nat} : Steady s₀ (State.nameWrites s p spec seq others l).1 :=
  hk.outside (State.nameWrites_keeps (Keeps.refl _ s) (Kind.Sub.refl _)) rfl

theorem State.nameTags_steady {s₀ s : State} (hk : Steady s₀ s)
    {m : Nat} {y : Nat} {c : EngCmd} : Steady s₀ (State.nameTags s m y c).1 :=
  hk.outside (State.nameTags_keeps (Keeps.refl _ s) (Kind.Sub.refl _)) rfl

theorem State.setQueue_steady {s₀ s : State} (hk : Steady s₀ s)
    {m : Nat} {y : Nat} {q : UnitQ} {l : List EngCmd} : Steady s₀ (State.setQueue s m y q l) :=
  hk.outside (State.setQueue_keeps (Keeps.refl _ s) (Kind.Sub.refl _)) rfl

theorem State.takeHead_steady {s₀ s : State} (hk : Steady s₀ s)
    {m : Nat} {y : Nat} {q : UnitQ} {c : EngCmd} {rest : List EngCmd} : Steady s₀ (State.takeHead s m y q c rest).1 :=
  hk.outside (State.takeHead_keeps (Keeps.refl _ s) (Kind.Sub.refl _)) rfl

end Sys2Proof.Machine
end

