-- ==== Sys2Proof/Laws/KernelMemory.lean ====
section
/-! SUPPORT. Memory and contexts after a kernel: it stores what `Kernel.stores` lists, and keeps every context's registers, index and
epochs. -/

namespace Sys2Proof.Machine

theorem mem_of {ks} {s t : State} (h : Keeps ks s t) (hn : decide (Kind.mem ∈ ks) = false) : t.mem = s.mem := h.outside .mem (of_decide_eq_false hn)
theorem mem_store (s : State) (a : Nat) (bs : List Byte) : (s.store a bs).mem = (s.poke a bs).mem := by
  unfold State.store; split
  · next h => simp [List.isEmpty_iff.mp h, State.poke, SMap.setRange]
  · exact mem_of (State.eccWrites_keeps (Keeps.refl _ _) (Kind.Sub.refl _)) rfl
theorem mem_tallyRow (s : State) (p spec v r t) : (s.tallyRow p spec v r t).mem = s.mem := mem_of (State.tallyRow_keeps (Keeps.refl _ _) (Kind.Sub.refl _)) rfl
theorem mem_readWhere (s : State) (p q v n) : (s.readWhere p q v n).mem = s.mem := mem_of (State.readWhere_keeps (Keeps.refl _ _) (Kind.Sub.refl _)) rfl
theorem mem_readAll (s : State) (p q v) : (s.readAll p q v).mem = s.mem := mem_of (State.readAll_keeps (Keeps.refl _ _) (Kind.Sub.refl _)) rfl
theorem mem_tripChecks (s : State) (p spec q k t) : (s.tripChecks p spec q k t).mem = s.mem := mem_of (State.tripChecks_keeps (Keeps.refl _ _) (Kind.Sub.refl _)) rfl
theorem mem_kernelConfig (s : State) (p d va rec b) : (s.kernelConfig p d va rec b).mem = s.mem := mem_of (State.kernelConfig_keeps (Keeps.refl _ _) (Kind.Sub.refl _)) rfl
theorem mem_partialCheck (s : State) (a n port prog) : (s.partialCheck a n port prog).mem = s.mem := mem_of (State.partialCheck_keeps (Keeps.refl _ _) (Kind.Sub.refl _)) rfl
theorem mem_deliver (s : State) (p q v d r) : (s.deliver p q v d r).mem = s.mem := mem_of (State.deliver_keeps (Keeps.refl _ _) (Kind.Sub.refl _)) rfl
theorem mem_takeUnit (s : State) (m y c n) : (s.takeUnit m y c n).mem = s.mem := mem_of (State.takeUnit_keeps (Keeps.refl _ _) (Kind.Sub.refl _)) rfl
theorem mem_vuShow (s : State) (p m y spec op dt n st oob) : (s.vuShow p m y spec op dt n st oob).mem = s.mem := mem_of (State.vuShow_keeps (Keeps.refl _ _) (Kind.Sub.refl _)) rfl
theorem mem_reefRecord (s : State) (a b c d e f g h) : (s.reefRecord a b c d e f g h).mem = s.mem := mem_of (State.reefRecord_keeps (Keeps.refl _ _) (Kind.Sub.refl _)) rfl
theorem mem_deriveRows (s : State) (a b c d) : (s.deriveRows a b c d).mem = s.mem := mem_of (State.deriveRows_keeps (Keeps.refl _ _) (Kind.Sub.refl _)) rfl
theorem mem_takeHead (s : State) (m y q c rest) : (s.takeHead m y q c rest).1.mem = s.mem := mem_of (State.takeHead_keeps (Keeps.refl _ _) (Kind.Sub.refl _)) rfl
theorem openShadow_firm (s : State) (p t : Nat) : s.openShadow p t 0 = s := by unfold State.openShadow; simp

theorem storeAll_congr {s t : State} (h : t.mem = s.mem) (l) : (storeAll t l).mem = (storeAll s l).mem := by
  induction l generalizing s t with
  | nil => exact h
  | cons x l ih => exact ih (by simp [State.poke, h])
theorem storeAll_append (s : State) (a b) : storeAll s (a ++ b) = storeAll (storeAll s a) b := by simp [storeAll, List.foldl_append]
theorem mem_writeRows (s : State) (p port spec v rows) : (s.writeRows p port spec v rows).mem = (storeAll s (rowStores v rows)).mem := by
  unfold State.writeRows rowStores storeAll
  induction rows generalizing s with
  | nil => rfl
  | cons r rows ih =>
    rw [List.foldl_cons, ih, List.map_cons, List.foldl_cons]
    refine storeAll_congr ?_ _
    rw [mem_tallyRow, State.putRow, State.checkedStore, mem_store, State.poke, State.poke, mem_partialCheck]

theorem mem_runMat (s : State) (p d a b c bias rec need rows) : (s.runMat p d a b c bias rec need rows).mem =
   (storeAll s (rowStores ((s.prog p).view d true) (rows s (s.prog p) ((s.prog p).view d true) ((s.prog p).view a false) ((s.prog p).view b false) ((s.prog p).view c false)))).mem := by
  unfold State.runMat; dsimp only
  rw [mem_writeRows]; refine storeAll_congr ?_ _
  rw [mem_kernelConfig]
  split
  · rw [mem_readAll, mem_readAll, mem_readWhere]
  · rw [mem_readAll, mem_readWhere]

theorem mem_runVec (s : State) (p spec op cond d a b c imm count rec) :
    (s.runVec p spec op cond d a b c imm count rec).mem = (storeAll (s.openShadow p d.tid spec)
      (Kernel.stores (s.openShadow p d.tid spec) p spec (.vec op cond d a b c imm count rec))).mem := by
  unfold State.runVec Kernel.stores
  generalize s.openShadow p d.tid spec = u
  dsimp only
  rw [mem_vuShow, mem_takeUnit, mem_writeRows]
  refine storeAll_congr ?_ _
  exact mem_of (Keeps.foldl (fun s x hk => State.readWhere_keeps hk (Kind.Sub.refl _)) _ (State.readWhere_keeps (Keeps.refl _ u) (Kind.Sub.refl _))) rfl

theorem mem_runArg (s : State) (p seq m y op va d vb dest vo count res) : (s.runArg p seq m y op va d vb dest vo count res).mem =
    (storeAll s ((if vo then rowStores vb (layRows vb count (res.map fun r => (argValue va.t vb.t r.2.1, {}))) else []) ++
      (match dest with
       | .scalar _ => []
       | _ => rowStores d (layRows d count (res.map fun r => (r.1, {})))))).mem := by
  unfold State.runArg
  dsimp only
  generalize hs1 : (State.takeUnit _ _ _ _ _) = s1
  have h1 : s1.mem = s.mem := by rw [← hs1, mem_takeUnit, mem_reefRecord]
  generalize hs2 : (if vo = true then _ else s1 : State) = s2
  have h2 : s2.mem = (storeAll s (if vo = true then rowStores vb (layRows vb count
      (res.map fun r => (argValue va.t vb.t r.2.1, {}))) else [])).mem := by
    rw [← hs2]; split
    · rw [mem_writeRows]; exact storeAll_congr h1 _
    · exact h1
  rw [storeAll_append]
  cases dest
  · rw [mem_writeRows]; exact storeAll_congr h2 _
  · dsimp only; rw [mem_deliver]; exact h2
  · rw [mem_writeRows]; exact storeAll_congr h2 _

theorem mem_runRed (s : State) (p seq op d a b dest group axes vo count) : (s.runRed p seq op d a b dest group axes vo count).mem =
    (storeAll s (Kernel.stores s p 0 (.red op d a b dest group axes vo count))).mem := by
  unfold State.runRed Kernel.stores
  dsimp only
  split
  · rw [mem_runArg]; exact storeAll_congr (mem_readWhere ..) _
  · cases dest
    · rw [mem_writeRows]; exact storeAll_congr (by rw [mem_takeUnit, mem_reefRecord, mem_readWhere]) _
    · dsimp only; rw [mem_deliver, mem_takeUnit, mem_reefRecord, mem_readWhere]; rfl
    · dsimp only; rw [mem_deriveRows, mem_takeUnit, mem_reefRecord, mem_readWhere]; rfl

/-- The state from which a kernel computes, once its accesses have passed the tripwires. -/
theorem mem_runKernel (s : State) (p spec seq : Nat) (k : Kernel) (tags : Tags) (v : State)
    (hv : v = (match k with
      | .vec _ _ d _ _ _ _ _ _ => (s.tripChecks p spec seq k tags).openShadow p d.tid spec
      | _ => s.tripChecks p spec seq k tags)) :
    (s.runKernel p spec seq k tags).mem = (storeAll v (Kernel.stores v p spec k)).mem := by
  cases k
  case mat => subst hv; exact mem_runMat ..
  case conv tr d a b c bias count rec => subst hv; cases tr <;> exact mem_runMat ..
  case vec => subst hv; exact mem_runVec ..
  case red => subst hv; exact mem_runRed ..
  case strm =>
    have hv : v = s.tripChecks p spec seq _ tags := hv
    rw [hv]
    simp only [State.runKernel, Kernel.stores, storeAll, List.foldl_nil]
    generalize State.tripChecks _ _ _ _ _ _ = u
    exact mem_of (ks := [.regs, .progs, .yards, .fabric, .strm, .events, .hyper, .power, .free]) (State.startStrm_keeps (Keeps.refl _ u) (Kind.Sub.refl _)) rfl
  case boomCnt =>
    have hv : v = s.tripChecks p spec seq _ tags := hv
    rw [hv]
    simp only [State.runKernel, Kernel.stores, storeAll, List.foldl_nil]
    generalize State.tripChecks _ _ _ _ _ _ = u
    exact mem_of (ks := [.progs]) (State.runBoomCnt_keeps (Keeps.refl _ u) (Kind.Sub.refl _)) rfl

theorem storeAll_byte_outside (s : State) (l : List (Nat × List Byte)) {a : Nat} (h : ∀ r ∈ l, a < r.1 ∨ r.1 + r.2.length ≤ a) :
    (storeAll s l).byte a = s.byte a := by
  induction l generalizing s with
  | nil => rfl
  | cons x l ih =>
    have hx := h x (List.mem_cons_self ..)
    show (storeAll (s.poke x.1 x.2) l).byte a = _
    rw [ih _ fun r hr => h r (List.mem_cons_of_mem _ hr)]
    simp only [State.byte, State.poke, SMap.get_setRange]
    rw [if_neg (by omega)]

theorem byte_congr {s t : State} (h : t.mem = s.mem) (a : Nat) : t.byte a = s.byte a := by simp only [State.byte, h]

theorem takeHead_steady {s₀ s : State} (h : Steady s₀ s) (m y q c rest) : Steady s₀ (s.takeHead m y q c rest).1 := State.takeHead_steady h

/-- A kernel at the head of a queue that starts has run. -/
theorem startHead_kernel (s : State) (m y : Nat) (q : UnitQ) (c : EngCmd) (rest : List EngCmd) (k : Kernel) (hk : c.op = .kernel k) :
    KernelRan s (s.startHead m y q c rest) m y q c rest k := by
  have he : s.startHead m y q c rest =
      (s.takeHead m y q c rest).1.runKernel c.prog c.spec c.seq k (s.takeHead m y q c rest).2 := by
    unfold State.startHead
    simp only [State.startCmd, hk]
  have hm : (s.startHead m y q c rest).mem = (storeAll (kernelAt s m y q c rest k) (Kernel.stores (kernelAt s m y q c rest k) c.prog c.spec k)).mem := by
    rw [he]; exact mem_runKernel _ _ _ _ _ _ _ (by unfold kernelAt; cases k <;> rfl)
  have hb : c.spec = 0 → ∀ a, (kernelAt s m y q c rest k).byte a = s.byte a := by
    intro h0 a
    have h1 := mem_tripChecks (s.takeHead m y q c rest).1 c.prog c.spec c.seq k (s.takeHead m y q c rest).2
    have h2 := h1.trans (mem_takeHead s m y q c rest)
    unfold kernelAt
    cases k <;> first | exact byte_congr h2 a | (dsimp only; rw [h0, openShadow_firm, ← h0]; exact byte_congr h2 a)
  refine ⟨byte_congr hm, hb, fun h0 a ha => (byte_congr hm a).trans ((storeAll_byte_outside _ _ ha).trans (hb h0 a)), fun p => ?_⟩
  have hs : Steady s (s.startHead m y q c rest) := by
    rw [he]; exact State.runKernel_steady (State.takeHead_steady (Steady.refl s))
  exact ⟨hs.regs p, hs.idx p, hs.epochs p⟩

end Sys2Proof.Machine
end

