-- ==== Sys2Proof/Laws/Sha384.lean ====
section
/-! SUPPORT. A SHA-384 digest has 48 bytes. -/

namespace Sys2Proof.Machine

@[simp] theorem beBytes_length (n v : Nat) : (beBytes n v).length = n := by
  induction n with
  | zero => rfl
  | succ n ih => simp [beBytes, ih]

theorem shaRound_length (k : BitVec 64) (v w : List (BitVec 64)) (h : v.length = 8) : (shaRound k v w).1.length = 8 := by
  unfold shaRound
  split
  · rfl
  · exact h

theorem shaBlock_length (h : List (BitVec 64)) (b : List Byte) (hl : h.length = 8) : (shaBlock h b).length = 8 := by
  have rounds : ∀ (ks : List (BitVec 64)) (p : List (BitVec 64) × List (BitVec 64)), p.1.length = 8 →
      (ks.foldl (fun p k => shaRound k p.1 p.2) p).1.length = 8 := by
    intro ks
    induction ks with
    | nil => exact fun _ hp => hp
    | cons k ks ih => exact fun p hp => ih _ (shaRound_length k p.1 p.2 hp)
  simp only [shaBlock, List.length_zipWith, rounds _ (h, shaWords 16 b) hl, hl, Nat.min_self]

theorem shaBlocks_length (n : Nat) (h : List (BitVec 64)) (b : List Byte) (hl : h.length = 8) : (shaBlocks n h b).length = 8 := by
  induction n generalizing h b with
  | zero => exact hl
  | succ n ih => exact ih _ _ (shaBlock_length h _ hl)

theorem flatMap_beBytes_length (l : List (BitVec 64)) : (l.flatMap fun w => beBytes 8 w.toNat).length = 8 * l.length := by
  induction l with
  | nil => rfl
  | cons w l ih => simp only [List.flatMap_cons, List.length_append, beBytes_length, ih, List.length_cons]; omega

@[simp] theorem sha384_length (m : List Byte) : (sha384 m).length = 48 := by
  simp only [sha384, flatMap_beBytes_length, List.length_take, shaBlocks_length _ shaInit _ rfl]; rfl

end Sys2Proof.Machine
end

