-- ==== Sys2Proof/Tests/Slice0.lean ====
section
/-! SUPPORT. The model's own tests: ill-formed commands, single steps of small states, and for each statement concrete states and operands
that meet its hypotheses. -/

namespace Sys2Proof.Tests
open Sys2Proof Sys2Proof.Machine

/-! ### Ill-formed commands: one for each check of WellFormed.lean, which the check refuses -/

/-- The guard that is always on. -/
abbrev g0 : Guard := ⟨0, false⟩
abbrev op0 : TOp := ⟨0, 0⟩
abbrev mat0 : MatOps := ⟨op0, op0, op0, op0, false, 1, 0⟩
abbrev red0 : RedOps := ⟨op0, op0, op0, .scalar 3, 0, 1, false, 1⟩
abbrev vec0 : VecOps := ⟨op0, op0, op0, op0, none, 1, 0⟩
abbrev eng0 : EngAt := ⟨0, 0⟩

theorem test_wf_program : (Instr.nop 64 g0).wf = false ∧ (Instr.nop 63 g0).wf = true ∧ (Instr.progRemoved 64).wf = false := by decide
theorem test_wf_requester : (Instr.lowWordRead (.ms 7) 0).wf = false ∧ (Instr.lowWordRead (.ms 6) 0).wf = true := by decide
theorem test_wf_offset : (Instr.registerWrite .host 0x4000000 0).wf = false ∧ (Instr.lowWordWrite .host 2 0).wf = false ∧
    (Instr.highWordWrite .host 0x4000000 0).wf = false ∧ (Instr.highWordWrite .host 0x3FFFFFC 0).wf = true := by decide
theorem test_wf_masts : (Instr.counterAlignment 7 0 0).wf = false ∧ (Instr.ratlineErr 7 true).wf = false ∧ (Instr.ratlineErr 6 true).wf = true := by
  decide
theorem test_wf_mailbox : (Instr.launch 4).wf = false ∧ (Instr.launch 3).wf = true := by decide
theorem test_wf_branch : (Instr.br 0 g0 ⟨0, true, 0⟩).wf = false ∧ (Instr.br 0 g0 ⟨1, true, 1⟩).wf = false ∧
    (Instr.br 0 g0 ⟨-1, true, 0⟩).wf = false ∧ (Instr.br 0 g0 ⟨-1, true, 1⟩).wf = true ∧ (Instr.br 0 g0 ⟨1, true, 0⟩).wf = true := by decide
theorem test_wf_spRd : (Instr.spRd 0 g0 0 5).wf = false ∧ (Instr.spRd 0 g0 0 4).wf = true := by decide
theorem test_wf_reduction : (Instr.redSum 0 g0 { red0 with axes := 7 }).wf = false ∧ (Instr.redSum 0 g0 { red0 with axes := 3 }).wf = true := by
  decide
theorem test_wf_select : (Instr.vopSel 0 g0 .ltu vec0).wf = false ∧ (Instr.vopSel 0 g0 .geu vec0).wf = false ∧
    (Instr.vopSel 0 g0 .lt { vec0 with imm := some 1 }).wf = false ∧ (Instr.vopFma 0 g0 { vec0 with imm := some 1 }).wf = false ∧
    (Instr.vopSel 0 g0 .lt vec0).wf = true := by decide
theorem test_wf_flag : (Instr.flagSet 0 g0 true 256 1).wf = false ∧ (Instr.flagSet 0 g0 true 255 1).wf = true ∧
    (Instr.flagWait 0 g0 false 0 0 0).wf = false := by decide
theorem test_wf_yard : (Instr.yardInit 0 8).wf = false ∧ (Instr.yardInit 7 0).wf = false ∧ (Instr.sailLoadComplete 0 0 4).wf = false ∧
    (Instr.yardPerfClr .host 0 8).wf = false ∧ (Instr.yardInit 6 7).wf = true := by decide
theorem test_wf_engine : (Instr.strmPeakClr .host 8).wf = false ∧ (Instr.strmPeakClr .host 7).wf = true := by decide
theorem test_wf_ports : (Instr.xtreeFlitArrival 8 0).wf = false ∧ (Instr.xtreeFlitArrival 3 3).wf = false ∧ (Instr.linkReplay 8 true).wf = false ∧
    (Instr.xtreeFlitArrival 7 0).wf = true := by decide
theorem test_wf_channel : (Instr.bulkDescriptorStart 32).wf = false ∧ (Instr.strmAbort .host 32).wf = false ∧ (Instr.strmAbort .host 31).wf = true := by
  decide
theorem test_wf_line : (Instr.peripheralRequest 110 []).wf = false ∧ (Instr.peripheralRequest 109 []).wf = true ∧
    (Instr.peripheralRequest 0 [1]).wf = false ∧ (Instr.peripheralRequest 0 (List.replicate 528 0)).wf = false := by
  simp only [Instr.wf, List.length_replicate, List.length_cons, List.length_nil]; decide
theorem test_wf_media : (Instr.cameraFrame 16 .complete []).wf = false ∧ (Instr.vdecWpWrite 8 0).wf = false ∧ (Instr.vencRpWrite 8 0).wf = false ∧
    (Instr.vencJpgTrig 4).wf = false ∧ (Instr.vdecFrameDecoded 8 false .p 0).wf = false ∧ (Instr.audioBlock 85 []).wf = false ∧
    (Instr.audioBlock 79 []).wf = false ∧ (Instr.tdmOutputFrame 2).wf = false := by decide
theorem test_wf_ball : (Instr.gpioEdge 32 true).wf = false ∧ (Instr.timedPulseEnd 32).wf = false ∧ (Instr.gpioEdge 31 true).wf = true := by decide
theorem test_wf_queue : (Instr.doorbell 32768 0).wf = false ∧ (Instr.doorbell 32767 0).wf = true := by decide
theorem test_wf_bar2 : (Instr.bar2Access 0x40000000 none).wf = false ∧ (Instr.bar2Access 1 none).wf = false ∧
    (Instr.bar2Access 0x3FFFFFFC none).wf = true := by decide
theorem test_wf_fifo : (Instr.evtLost 8 1).wf = false ∧ (Instr.evtLost 0 0).wf = false ∧ (Instr.evtLost 0 11).wf = false ∧
    (Instr.evtLost 7 10).wf = true := by decide
theorem test_wf_halyard : (Instr.hmpTokenPut ⟨1, 1⟩ 0 0 (List.replicate 1025 0)).wf = false ∧ (Instr.hmpXferBegin ⟨1, 1⟩ 0 1 1 1 []).wf = false ∧
    (Instr.hmpXferChunk ⟨1, 1⟩ 0 0 [] []).wf = false ∧ (Instr.hmpAttest ⟨1, 1⟩ 0 []).wf = false := by
  simp only [Instr.wf, List.length_replicate, List.length_nil]; decide
theorem test_wf_hyper : (Instr.hrSlot 8 none).wf = false ∧ (Instr.hrSlot 0 (some 32)).wf = false ∧ (Instr.hrSlot 7 (some 31)).wf = true ∧
    (Instr.hrRetry 8 true).wf = false := by decide
theorem test_wf_processor : (Instr.fwRestart 10).wf = false ∧ (Instr.fwRestart 9).wf = true := by decide
theorem test_wf_die : (Instr.thermalSample 8 0).wf = false ∧ (Instr.pwrThermClr 8).wf = false ∧ (Instr.unitOut 256).wf = false := by decide
theorem test_wf_fsync : (Instr.fsyncPulse 16).wf = false ∧ (Instr.fsyncPulse 15).wf = true := by decide

/-! ### Witnesses: issue, scalars, branches -/

/-- A part in the work window of a tick, with one program record, whose context owns every cycle of its mast. -/
def run1 (c : Ctx) (pl : Placement := {}) (box : Container := {}) : State :=
  ({ State.reset with tick := { phase := .work }, progs := [(0, { box := box, place := pl, ctx := c })] } : State).setReg (mreg .ccWheel 0)
    0x8888888888888888
/-- A context that issues. -/
def live : Ctx := { run := .issuing, active := true }
/-- The same with a delivery on its way to sc[1]. -/
def pend : Ctx := { live with dels := [⟨1, 5, some 100, 0, none, 0⟩] }
def brF : BrTail := ⟨4, false, 0⟩
def brB : BrTail := ⟨-2, true, 1⟩

theorem wit_StepRunsFront : ∃ s : State, s.pending = [.tickStart] := ⟨{ State.reset with pending := [.tickStart] }, rfl⟩
theorem wit_IdleNanosecond : State.reset.pending = [] ∧ State.reset.timebase = false ∧
    ({ State.reset with timebase := true } : State).gcnt ≠ BitVec.allOnes 64 ∧
    ({ State.reset with timebase := true, gcnt := BitVec.allOnes 64 } : State).pending = [] := by decide
theorem wit_StepKeepsCanonical : Memory.wf State.reset = true ∧ Registers.wf State.reset = true ∧
    step { State.reset with pending := [.nop 0 g0] } = .next State.reset ∧
    ∃ t, step { State.reset with pending := [.timebaseLock] } = .next t ∧ t.timebase = true := by
  refine ⟨rfl, rfl, rfl, _, rfl, rfl⟩
theorem wit_CommandsAnswer : (Instr.spRd 0 g0 31 4).wf = true ∧ (∃ t, exec (.li 0 g0 31 7) (run1 live) = .next t) ∧
    Kind.mem ∉ (Instr.li 0 g0 31 7).touches ∧ Kind.regs ∉ (Instr.tickOutPulse).touches ∧ Kind.progs ∉ (Instr.tickInLost).touches := by
  refine ⟨rfl, ⟨_, rfl⟩, by decide, by decide, by decide⟩

theorem wit_InstructionsHeld_still : (Instr.nop 63 g0).wf = true ∧ (Instr.nop 63 g0).fenja = some ⟨63, g0⟩ ∧
    State.reset.canIssue 63 (.nop 63 g0) = false := by decide
theorem wit_InstructionsHeld_off : (Instr.li 0 ⟨1, false⟩ 2 9).fenja = some ⟨0, ⟨1, false⟩⟩ ∧ (run1 live).canIssue 0 (.li 0 ⟨1, false⟩ 2 9) = true ∧
    (run1 live).fetchEcc 0 ≠ 2 ∧ (Instr.li 0 ⟨1, false⟩ 2 9).scRegs.any ((run1 live).ctx 0).pendingReg = false ∧
    (⟨1, false⟩ : Guard).on ((run1 live).regsOf 0) = false := by decide
theorem wit_InstructionsHeld_pending : (Instr.mov 0 g0 2 1).isBranch = false ∧ (run1 pend).canIssue 0 (.mov 0 g0 2 1) = true ∧
    (Instr.mov 0 g0 2 1).scRegs.any ((run1 pend).ctx 0).pendingReg = true := by decide
theorem wit_InstructionsHeld_imem : ∀ s n, s = { run1 live with progs := [(0, { ctx := live, imemEcc := [(0, n)] })] } → n < 3 →
    s.canIssue 0 (.nop 0 g0) = true ∧ s.fetchEcc 0 = n ∧ (s.ctx 0).blocked = none := by
  rintro s n rfl h; match n, h with | 0, _ | 1, _ | 2, _ => decide
theorem wit_InstructionsHeld_reserved : 5 ≤ (5 : BitVec 32).toNat ∧ 5 ≤ (0xFFFFFFFF : BitVec 32).toNat := by decide

/-- Instruction `i` of program 0 issues on the state of `run1 live` and takes effect. -/
def issuesB (s : State) (i : Instr) : Bool :=
  s.canIssue 0 i && decide (s.fetchEcc 0 ≠ 2) && !i.scRegs.any (s.ctx 0).pendingReg && g0.on (s.regsOf 0) && decide (i.fenja = some ⟨0, g0⟩)
theorem issuesB_iff {s : State} {i : Instr} (h : issuesB s i = true) : Issues s 0 g0 i ∧ i.fenja = some ⟨0, g0⟩ := by
  simp only [issuesB, Bool.and_eq_true, Bool.not_eq_true', decide_eq_true_eq] at h
  exact ⟨⟨h.1.1.1.1, h.1.1.1.2, h.1.1.2, h.1.2⟩, h.2⟩

theorem wit_ScalarInteger : ∀ i ∈ [Instr.add 0 g0 31 1 (.imm 1), .sub 0 g0 0 1 (.reg 2), .mul 0 g0 1 1 (.reg 1), .and 0 g0 1 2 (.reg 3),
    .or 0 g0 1 2 (.reg 3), .xor 0 g0 1 2 (.reg 3), .shl 0 g0 1 2 (.imm 32), .shr 0 g0 1 2 (.imm 31), .sra 0 g0 1 2 (.imm 31),
    .min 0 g0 1 2 (.reg 3), .max 0 g0 1 2 (.reg 3), .li 0 g0 31 0xFFFFFFFF, .mov 0 g0 0 31, .nop 0 g0], Issues (run1 live) 0 g0 i :=
  fun i h => (issuesB_iff (List.all_eq_true.1 (by decide : List.all _ (issuesB (run1 live)) = true) i h)).1
theorem wit_ScalarFloat : (∀ i ∈ [Instr.fAdd 0 g0 1 2 (.imm 0x7FC00000), .fMul 0 g0 1 2 (.reg 3), .fCvtI 0 g0 1 2, .fCvtF 0 g0 1 2],
    Issues (run1 live) 0 g0 i) ∧ Fp.isFinite 0x7F7FFFFF = true ∧ Fp.isFinite 0 = true :=
  ⟨fun i h => (issuesB_iff (List.all_eq_true.1 (by decide : List.all _ (issuesB (run1 live)) = true) i h)).1, by decide, by decide⟩
theorem wit_PredicateOps : (∀ i ∈ [Instr.cmp 0 g0 0 .ltu 1 (.imm 5), .pAnd 0 g0 7 1 2, .pOr 0 g0 0 1 2, .pNot 0 g0 1 0],
    Issues (run1 live) 0 g0 i) ∧ Fp.isNan 0x7FC00000 = true ∧ Fp.isNan 0x3F800000 = false :=
  ⟨fun i h => (issuesB_iff (List.all_eq_true.1 (by decide : List.all _ (issuesB (run1 live)) = true) i h)).1, by decide, by decide⟩
theorem wit_AddressOps : ∀ i ∈ [Instr.adLi 0 g0 0 1, .adMov 0 g0 15 1, .adAdd 0 g0 1 2 0xFFFFFFFF, .spRd 0 g0 1 4, .spRd 0 g0 1 0,
    .scAge 0 g0 1 op0], Issues (run1 live) 0 g0 i :=
  fun i h => (issuesB_iff (List.all_eq_true.1 (by decide : List.all _ (issuesB (run1 live)) = true) i h)).1

theorem wit_Branches_resolve : ∀ i ∈ [Instr.br 0 g0 brF, .brP 0 g0 1 brB, .brEq 0 g0 1 (.imm 0) brB, .brNe 0 g0 1 (.imm 0) brB,
    .brLt 0 g0 1 (.imm 1) brF, .brGe 0 g0 1 (.imm 0) brF, .brLtu 0 g0 1 (.reg 2) brF, .brGeu 0 g0 1 (.reg 2) brF,
    .brFlt 0 g0 1 (.imm 0) brF, .brFge 0 g0 1 (.imm 0) brF], Issues (run1 live) 0 g0 i :=
  fun i h => (issuesB_iff (List.all_eq_true.1 (by decide : List.all _ (issuesB (run1 live)) = true) i h)).1
theorem wit_Branches_count : 0 ≤ brF.disp.toInt ∧ brB.disp.toInt < 0 ∧ SMap.get 0 ((run1 live).ctx 0).taken 0 < brB.bound.toNat ∧
    Cond.holds .eq (((run1 live).regsOf 0).getSc 1) 0 = true ∧ Cond.holds .ne (((run1 live).regsOf 0).getSc 1) 0 = false := by decide
theorem wit_Branches_loop : Issues (run1 { live with taken := [(0, 1)] }) 0 g0 (.brEq 0 g0 1 (.imm 0) brB) ∧
    brB.bound.toNat ≤ SMap.get 0 ((run1 { live with taken := [(0, 1)] }).ctx 0).taken 0 ∧
    ((run1 { live with taken := [(0, 1)] }).ctx 0).epochs = [] := ⟨(issuesB_iff (by decide)).1, by decide, by decide⟩

/-- An epoch that expects its branch not taken; `x` decides it. -/
def ep (x : Word) (e : Bool) : Epoch :=
  { regs := {}, taken := [], idx := 3, disp := 4, bound := 0, expect := e, cond := .eq, a := .imm x, b := .imm 0, cmds := 0 }
theorem wit_RunAhead_opens : (run1 pend { raBranches := 1 }).canIssue 0 (.brEq 0 g0 1 (.imm 0) brF) = true ∧
    ((1 : BitVec 5).toNat :: (Operand.imm 0).uses).any ((run1 pend { raBranches := 1 }).ctx 0).pendingReg = true ∧
    (run1 pend { raBranches := 1 }).depth 0 < ((run1 pend { raBranches := 1 }).prog 0).place.raBranches ∧ 0 ≤ brF.disp.toInt ∧
    brB.expect = true ∧ SMap.get 0 ((run1 pend { raBranches := 1 }).ctx 0).taken 0 < brB.bound.toNat := by decide
theorem wit_RunAhead_squashes : ((run1 { live with epochs := [ep 0 false] }).ctx 0).epochs = [ep 0 false] ∧
    (ep 0 false).cond.holds 0 0 ≠ (ep 0 false).expect ∧ 0 ≤ (ep 0 false).disp ∧ (ep 1 true).cond.holds 1 0 ≠ (ep 1 true).expect := by decide
theorem wit_RunAhead_commits : ((run1 { live with epochs := [ep 1 false] }).ctx 0).epochs = [ep 1 false] ∧
    (ep 1 false).cond.holds 1 0 = (ep 1 false).expect ∧ (ep 0 true).cond.holds 0 0 = (ep 0 true).expect := by decide
theorem wit_RunAhead_merges : ∀ e f, e = ep 1 false → f = { ep 0 false with a := .reg 1 } →
    ((run1 { live with epochs := [e, f] }).ctx 0).epochs = [e, f] ∧ f.a = .reg 1 ∧ e.cond.holds 1 0 = e.expect ∧
    ((run1 live).ctx 0).epochs = [] := by rintro e f rfl rfl; decide

/-! ### Witnesses: kernels, deliveries, flags -/

/-- Every kernel, with a scalar destination where it has one. -/
def kernelSample : List Instr :=
  [.mmI8 0 g0 mat0, .mmW4a8 0 g0 mat0, .mmC4 0 g0 mat0, .conv 0 g0 mat0, .tconv 0 g0 mat0, .redSum 0 g0 red0, .redSumsq 0 g0 red0,
   .redMax 0 g0 red0, .redMin 0 g0 red0, .redMaxabs 0 g0 { red0 with dest := .scale }, .redNz 0 g0 { red0 with dest := .tensor }, .argmaxC 0 g0 red0,
   .argminC 0 g0 { red0 with valueOut := true }, .vopAdd 0 g0 vec0, .vopSub 0 g0 vec0, .vopMul 0 g0 vec0, .vopMax 0 g0 vec0, .vopMin 0 g0 vec0,
   .vopAbs 0 g0 vec0, .vopNeg 0 g0 vec0, .vopSel 0 g0 .lt vec0, .vopFma 0 g0 vec0, .vopCvt 0 g0 vec0, .vopRcp 0 g0 vec0, .vopSqrt 0 g0 vec0,
   .vopFtab 0 g0 vec0, .vopSoftmax 0 g0 vec0, .vopLnorm 0 g0 vec0, .vopRmsnorm 0 g0 vec0, .vopMaxpool 0 g0 vec0, .vopAvgpool 0 g0 vec0,
   .vopRszNear 0 g0 vec0, .vopRszBil 0 g0 vec0, .vopGather 0 g0 vec0, .mvStrm 0 g0 op0 op0 1 0 0 false 0, .boomCnt 0 g0 false 3 op0]
/-- The engine commands, of virtual yard 0. -/
def engineSample : List Instr :=
  [.sailRun 0 g0 eng0 .c4 2 true true false op0 0xFFFF 511, .sailLoad 0 g0 eng0 true op0, .sailTld 0 g0 eng0 true 0, .sailTcp 0 g0 eng0 false,
   .boomEpi 0 g0 eng0 true op0 511 0 0 0, .boomChout 0 g0 eng0 511, .boomChin 0 g0 eng0 0, .boomPre 0 g0 eng0 op0 0 511]
/-- A part whose yard 0 of mast 0 is `v` and belongs to program 0, with a context `c`. -/
def yard0 (v : YardSt) (c : Ctx := live) : State :=
  ({ run1 c { yards := [0] } with yards := [(0, v)] } : State).setReg (rid .admProgA 0) 0x0001000A
def cmd (op : EngOp) (spec : Nat := 0) (seq : Nat := 0) : EngCmd := ⟨op, 0, spec, seq⟩
def run0 : EngOp := .run .i8 0 false false true ⟨0, 0⟩ 1 511
/-- A queue of yard 0 with two commands. -/
def headQ (q : UnitQ) (op : EngOp) (spec : Nat := 0) : State := yard0 { queues := [(unitCode q, [cmd op spec, cmd run0 0 1])] }
/-- Some instruction that enters queues goes to a queue with room `b`. -/
def roomB (s : State) (b : Bool) (i : Instr) : Bool :=
  match entersQueue ((s.issued 0).countCmd 0) 0 i with
  | some x => ((s.issued 0).countCmd 0).queueRoom x.1 x.2.1 x.2.2.1 == b
  | none => false
theorem roomB_iff {s : State} {b : Bool} {i : Instr} (h : roomB s b i = true) : ∃ x, entersQueue ((s.issued 0).countCmd 0) 0 i = some x ∧
    ((s.issued 0).countCmd 0).queueRoom x.1 x.2.1 x.2.2.1 = b := by
  unfold roomB at h; split at h
  · exact ⟨_, ‹_›, by simpa using h⟩
  · cases h

theorem wit_KernelsRun_issue : ∀ i ∈ kernelSample ++ engineSample, Issues (yard0 {}) 0 g0 i ∧ i.fenja = some ⟨0, g0⟩ ∧ (yard0 {}).depth 0 = 0 ∧
    ∃ x, entersQueue (((yard0 {}).issued 0).countCmd 0) 0 i = some x ∧ (((yard0 {}).issued 0).countCmd 0).queueRoom x.1 x.2.1 x.2.2.1 = true :=
  fun i h =>
  have := issuesB_iff (List.all_eq_true.1 (by decide : List.all _ (issuesB (yard0 {})) = true) i h)
  ⟨this.1, this.2, by decide, roomB_iff (List.all_eq_true.1 (by decide : List.all _ (roomB (yard0 {}) true) = true) i h)⟩
/-- A kernel of one element on scalars of the container. -/
def kern0 : Kernel := RedOps.kernel red0 0 {}
theorem wit_KernelsRun_start : (headQ .reef (.kernel kern0)).queueOf 0 0 .reef = [cmd (.kernel kern0), cmd run0 0 1] ∧
    (headQ .reef (.kernel kern0)).canStart 0 0 .reef (cmd (.kernel kern0)) = true := by decide
/-- A context under one open epoch. -/
def spec1 : State := run1 { live with epochs := [ep 0 false] } { raCmds := 1 }
theorem wit_KernelsHeld_counts : (spec1.ctx 0).epochs = [ep 0 false] ∧ spec1.specCmds 0 < (spec1.prog 0).place.raCmds := by decide
theorem wit_KernelsHeld_holds : (∀ op ∈ [EngOp.run .i8 0 true false true ⟨0, 0⟩ 1 0, .kernel kern0], (headQ (.sail 3) op 1).queueOf 0 0 (.sail 3) =
      [cmd op 1, cmd run0 0 1] ∧ (cmd op 1).spec ≠ 0) ∧
    (∀ op ∈ [EngOp.chout 0, .chin 0, .kernel (.boomCnt true 1 ⟨0, 0⟩)], (headQ (.boom 0) op 1).queueOf 0 0 (.boom 0) = [cmd op 1, cmd run0 0 1]) := by
  decide
theorem wit_KernelsHeld_spent : ∀ s, s = run1 { live with epochs := [ep 0 false] } → s.depth 0 ≠ 0 ∧ (s.prog 0).place.raCmds ≤ s.specCmds 0 ∧
    issuesB s (.mmI8 0 g0 mat0) = true ∧ issuesB s (.sailTcp 0 g0 eng0 true) = true ∧ engineOf (.sailTcp 0 g0 eng0 true) = true ∧
    issuesB s (.tickEnd 0 g0) = true ∧ firmOf (.tickEnd 0 g0) = true ∧ firmOf (.flagSet 0 g0 true 0 1) = true := by rintro s rfl; decide
theorem wit_ScalarDeliveries_starts : ∀ s k, k = Kernel.boomCnt true 31 ⟨0, 0⟩ → s = headQ (.boom 3) (.kernel k) →
    s.queueOf 0 0 (.boom 3) = [cmd (.kernel k), cmd run0 0 1] ∧ s.canStart 0 0 (.boom 3) (cmd (.kernel k)) = true := by
  rintro s k rfl rfl; decide
theorem wit_ScalarDeliveries_due : ∀ s, s = { run1 pend with gcnt := 100 } → (s.ctx 0).dels = [⟨1, 5, some 100, 0, none, 0⟩] ∧ 100 ≤ s.now ∧
    (run1 pend).now < 100 ∧ (∀ d ∈ ((run1 pend).ctx 0).dels, ∀ at_, d.due = some at_ → (run1 pend).now < at_) := by
  rintro s rfl; refine ⟨by decide, by decide, by decide, ?_⟩; intro d hd a; rcases List.mem_singleton.1 hd with rfl; intro e; cases e; decide
theorem wit_ScalarDeliveries_resume : ((run1 { live with resumeAt := some 0 }).ctx 0).resumeAt = some 0 ∧ 0 ≤ (run1 live).now ∧
    ((run1 { live with resumeAt := some 1 }).ctx 0).resumeAt = some 1 ∧ (run1 live).now < 1 := by decide

theorem wit_FlagSets_set : Issues (run1 live) 0 g0 (.flagSet 0 g0 true 255 0xFFFF) ∧ Issues (run1 live) 0 g0 (.flagSet 0 g0 false 1023 1) ∧
    (run1 live).depth 0 = 0 := ⟨(issuesB_iff (by decide)).1, (issuesB_iff (by decide)).1, by decide⟩
def hubSet : HubOp := ⟨true, 7, 0xFFFF, 0, 0, 0, 0⟩
def hubWt : HubOp := ⟨false, 7, 2, 0, 0, 0, 0⟩
def pkgWait : Wait := ⟨true, 7, 2, 0, 100, 0, none⟩
theorem wit_FlagSets_hub : ∀ s, s = { State.reset with flags := { hub := [hubSet, hubSet, { hubWt with reach := 9 }] } } → s.flags.hubWaits = [] ∧
    (∀ o ∈ s.flags.hub, o.isSet = false → s.now < o.reach) := by rintro s rfl; decide
theorem wit_FlagSets_wait : ∀ s n, s = { run1 { live with wait := some pkgWait } with flags := { pkg := [(7, n)], hubWaits := [hubWt] } } →
    s.flags.hubWaits = [hubWt] ∧ (∀ x ∈ s.flags.hub, s.now < x.reach) ∧ (s.ctx hubWt.prog).wait = some pkgWait ∧
    (n = 2 → hubWt.count ≤ s.hubVal hubWt.flag ∧ s.afterCycles 3 < pkgWait.expiry) ∧ (n = 1 → s.hubVal hubWt.flag < hubWt.count) := by
  rintro s n rfl; refine ⟨rfl, by simp, rfl, ?_, ?_⟩ <;> rintro rfl <;> decide

theorem wit_ContextsWait_issue : Issues (run1 live) 0 g0 (.flagWait 0 g0 true 255 1 0) ∧ Issues (run1 live) 0 g0 (.flagWait 0 g0 false 0 1 9) ∧
    Issues (run1 live) 0 g0 (.tickEnd 0 g0) := ⟨(issuesB_iff (by decide)).1, (issuesB_iff (by decide)).1, (issuesB_iff (by decide)).1⟩
def locWait : Wait := ⟨false, 1, 1, 0, 100, 0, none⟩
/-- A context that waits for local flag 1, which is the mast flag 5 of mast 0; that flag holds `n`. -/
def waits (w : Wait) (n : BitVec 64 := 0) : State :=
  (run1 { live with run := .waiting, wait := some w } { localFlags := [(1, 0, 5)] }).setReg (mreg .flagLocal 0 5) n
theorem wit_ContextsWait_atOnce : ∀ s : State, s = (run1 live { localFlags := [(1, 0, 5)] }).setReg (mreg .flagLocal 0 5) 2 →
    Issues s 0 g0 (.flagWait 0 g0 false 1 2 9) ∧ s.localFlag 0 1 = some (0, 5) ∧ 2 ≤ s.flagVal 0 5 ∧ s.now < s.afterCycles 9 := by
  rintro s rfl; exact ⟨(issuesB_iff (by decide)).1, by decide, by decide, by decide⟩
theorem wit_ContextsWait_local : ((waits locWait 1).ctx 0).wait = some locWait ∧ (waits locWait 1).localFlag 0 1 = some (0, 5) ∧
    locWait.count ≤ (waits locWait 1).flagVal 0 5 ∧ (waits locWait 1).now < locWait.expiry := by decide
theorem wit_ContextsWait_granted : ((waits { pkgWait with grant := some 0 }).ctx 0).wait = some { pkgWait with grant := some 0 } ∧
    0 ≤ (waits pkgWait).now := by decide
theorem wit_ContextsWait_goesOn : (waits locWait).localFlag 0 1 = some (0, 5) ∧ (waits locWait).flagVal 0 5 < locWait.count := by decide
theorem wit_ContextsWait_expired : ∀ s, s = { waits locWait with gcnt := 100 } → (s.ctx 0).wait = some locWait ∧ locWait.grant = none ∧
    locWait.expiry ≤ s.now ∧ (waits locWait).now < locWait.expiry := by rintro s rfl; decide

/-! ### Witnesses: streams and engines -/

/-- A stream with nothing left to do. -/
def strm0 : TickStrm := ⟨1, 0, 0, 0, 0, some 5, none, false, [], [], {}, [], none, 8, 0, true, false⟩
def flit0 : Flit := { src := 0, dst := 1, addr := 2 ^ 22, data := [7], prog := some 0, strm := 1 }
theorem wit_StreamsComplete_starts : ∀ k, k = Kernel.strm ⟨0, 0⟩ ⟨1, 0⟩ 1 0 1 false 5 →
    (headQ .strm (.kernel k)).queueOf 0 0 .strm = [cmd (.kernel k), cmd run0 0 1] ∧
    (headQ .strm (.kernel k)).canStart 0 0 .strm (cmd (.kernel k)) = true := by rintro k rfl; decide
theorem wit_StreamsComplete_done : ∀ s, s = { run1 { live with strms := 1 } with strm := { ticks := [strm0, strm0] } } →
    s.strm.ticks = strm0 :: [strm0] ∧ strm0.prog = 0 ∧ s.strmDone strm0 = true := by rintro s rfl; decide
theorem wit_StreamsComplete_underWay : ∀ s, s = { run1 live with strm := { ticks := [strm0] }, fabric := { flits := [flit0] } } →
    ∀ x ∈ s.strm.ticks, x.prog = 0 → s.strmDone x = false := by
  rintro s rfl x h; rcases List.mem_singleton.1 h with rfl; decide

/-- The same with more of the yard given. -/
def qYard (q : UnitQ) (op : EngOp) (spec : Nat) (v : YardSt) : State := yard0 { v with queues := [(unitCode q, [cmd op spec, cmd run0 0 1])] }
/-- Queues of yard 0 that each hold `n` commands. -/
def fullQ (n : Nat) (c : Ctx := live) : State :=
  yard0 { queues := [(0, List.replicate n (cmd run0)), (4, List.replicate n (cmd run0)), (8, List.replicate n (cmd run0)),
    (9, List.replicate n (cmd run0)), (10, List.replicate n (cmd run0))] } c
theorem wit_EngineQueues_full : ∀ i ∈ engineSample ++ [.mmI8 0 g0 mat0, .redSum 0 g0 red0], Issues (fullQ 16) 0 g0 i ∧
    ∃ x, entersQueue (((fullQ 16).issued 0).countCmd 0) 0 i = some x ∧ (((fullQ 16).issued 0).countCmd 0).queueRoom x.1 x.2.1 x.2.2.1 = false :=
  fun i h => ⟨(issuesB_iff (List.all_eq_true.1 (by decide : List.all _ (issuesB (fullQ 16)) = true) i h)).1,
    roomB_iff (List.all_eq_true.1 (by decide : List.all _ (roomB (fullQ 16) false) = true) i h)⟩
theorem wit_EngineQueues_noYard : Issues (run1 live) 0 g0 (.sailTcp 0 g0 eng0 true) ∧ engineOf (.sailTcp 0 g0 eng0 true) = true ∧
    entersQueue (((run1 live).issued 0).countCmd 0) 0 (.sailTcp 0 g0 eng0 true) = none := ⟨(issuesB_iff (by decide)).1, rfl, by decide⟩
theorem wit_EngineQueues_stall : ∀ c, c = { live with run := .stalled, stalled := some (0, 0, .sail 0, cmd run0) } →
    ((fullQ 15 c).ctx 0).stalled = some (0, 0, .sail 0, cmd run0) ∧ (fullQ 15 c).queueRoom 0 0 (.sail 0) = true ∧
    (fullQ 15 c).ownsCycle 0 = true ∧ (fullQ 15 c).inWork = true ∧ ((fullQ 15 c).ctx 0).ready ≤ (fullQ 15 c).cycle ∧
    (fullQ 16 c).queueRoom 0 0 (.sail 0) = false ∧ ((fullQ 16).ctx 0).stalled = none := by rintro c rfl; decide
/-- A run that has issued `n` of its two vectors. -/
def running (n : Nat) : SailRun := ⟨0, 0, 0, 0, 2, n, .i8, 0, false, true, ⟨0, 0⟩, 511, 0, false, []⟩
def loadNow : SailLoad := ⟨.tile false 0 0, 0, 0, 0, 1, 0, [[1, 2]], 0, []⟩
theorem wit_EngineQueues_waits :
    (qYard (.sail 3) run0 0 { started := [(3, 1)] }).canStart 0 0 (.sail 3) (cmd run0) = false ∧
    (headQ (.sail 3) (.run .i8 0 true false true ⟨0, 0⟩ 1 0) 1).released (cmd (.run .i8 0 true false true ⟨0, 0⟩ 1 0) 1) = false ∧
    (qYard (.sail 3) run0 0 { sails := [(3, { run := some (running 1) })] }).canStart 0 0 (.sail 3) (cmd run0) = false ∧
    (∀ op ∈ [EngOp.load false ⟨0, 0⟩, .tld true 0, .tcp true],
      (qYard (.sail 3) op 0 { sails := [(3, { load := some loadNow })] }).canStart 0 0 (.sail 3) (cmd op) = false) ∧
    (qYard (.boom 3) (.chout 0) 0 { booms := [(3, { job := some ⟨.pre ⟨0, 0⟩ 0 1, 0, 0, 0, 0, {}⟩ })] }).canStart 0 0 (.boom 3) (cmd (.chout 0)) =
      false ∧
    (headQ (.sail 3) (.pre ⟨0, 0⟩ 0 1)).queueOf 0 0 (.boom 3) = [] := by decide

theorem wit_SailLoads_start : (∀ op ∈ [EngOp.load true ⟨0, 0⟩, .load false ⟨0, 0⟩, .tcp true, .tcp false, .tld true 0, .tld false 0],
    (headQ (.sail 3) op).queueOf 0 0 (.sail 3) = [cmd op, cmd run0 0 1] ∧ (headQ (.sail 3) op).canStart 0 0 (.sail 3) (cmd op) = true) ∧
    (∀ b ∈ ((headQ (.sail 3) (.load true ⟨0, 0⟩)).yard 0 0).access, b.made = none) := by decide
/-- A container with one codebook. -/
def cbk1 : List Int := [-128, 127]
theorem wit_SailLoads_codebook : cbk1[1]? = some 127 ∧ cbk1[0]? = some (-128) := by decide
theorem wit_SailLoads_complete : ((qYard (.sail 3) run0 0 { sails := [(3, { load := some loadNow })] }).sail 0 0 3).load = some loadNow ∧
    loadNow.done ≤ (headQ (.sail 3) run0).now ∧ loadNow.kind = .tile false 0 0 ∧ loadNow.set < 2 ∧
    (qYard (.sail 3) run0 0 { sails := [(3, { load := some loadNow })] }).liveSet 0 0 3 ≠ loadNow.set := by decide
theorem wit_SailLoads_early : ∀ l : SailLoad, l = { loadNow with done := 1 } →
    ((qYard (.sail 3) run0 0 { sails := [(3, { load := some l })] }).sail 0 0 3).load = some l ∧ (headQ (.sail 3) run0).now < l.done := by
  rintro l rfl; decide

theorem wit_SailsAndBooms_run : ∀ s, s = (headQ (.sail 3) run0).setReg (yreg .sailState 0 0 3) 2 →
    s.queueOf 0 0 (.sail 3) = [cmd run0, cmd run0 0 1] ∧ s.canStart 0 0 (.sail 3) (cmd run0) = true ∧ s.suitShape 0 0 = 0 ∧
    s.liveEmpty 0 0 3 = false ∧ (∀ b ∈ (s.yard 0 0).access, b.made = none) := by rintro s rfl; decide
theorem wit_SailsAndBooms_flip : ∀ op, op = EngOp.run .c4 0 true false true ⟨0, 0⟩ 1 0 →
    (headQ (.sail 3) op).queueOf 0 0 (.sail 3) = [cmd op, cmd run0 0 1] ∧ (headQ (.sail 3) op).canStart 0 0 (.sail 3) (cmd op) = true := by
  rintro op rfl; decide
/-- A vector of it, at stage F. -/
def vec32 : SailVec := ⟨running 1, 0, 0, 0, List.replicate 32 1, 0, 1, 1, 8, false⟩
theorem wit_SailsAndBooms_join : vec32.run.spec = 0 ∧ SMap.get 0 ((headQ (.sail 3) run0).boom 0 0 3).pending ((vec32.run.entry + vec32.idx) % 512) = 0 ∧
    vec32.ps.length = 32 := by decide
theorem wit_SailsAndBooms_boom : ∀ op ∈ [EngOp.epi true ⟨0, 0⟩ 511 1 0 0, .pre ⟨0, 0⟩ 511 1, .chout 511, .chin 511],
    (headQ (.boom 3) op).queueOf 0 0 (.boom 3) = [cmd op, cmd run0 0 1] ∧ (headQ (.boom 3) op).canStart 0 0 (.boom 3) (cmd op) = true ∧
    (∀ b ∈ ((headQ (.boom 3) op).yard 0 0).access, b.made = none) := by decide
theorem wit_SailsAndBooms_chout : ∀ s, s = ((headQ (.boom 3) (.chout 511)).setReg (yreg .yardChain 0 0) 1).setReg (yreg .yardChain 0 1) 2 →
    bit (s.reg (yreg .yardChain 0 0)) 0 = true ∧ bit (s.reg (yreg .yardChain 0 1)) 1 = true ∧ s.yardIn 0 1 = true := by rintro s rfl; decide
theorem wit_SailsAndBooms_chin : ∀ s, s = qYard (.boom 3) (.chin 511) 0 { chain := [([1], 0)] } → (s.yard 0 0).chain = ([1], s.cycle) :: [] ∧
    SMap.get 0 (s.boom 0 0 3).pending 511 = 0 ∧ s.canStart 0 0 (.boom 3) (cmd (.chin 511)) = true ∧
    (∀ v ∈ ((headQ (.boom 3) (.chin 511)).yard 0 0).chain, v.2 ≠ s.cycle) := by rintro s rfl; decide
theorem wit_SailsAndBooms_pre : ∀ o : BoomPre, o = ⟨0, 0, 4, 511, [1], 0⟩ → o.spec = 0 ∧ SMap.get 0 ((headQ .reef run0).boom 0 0 3).pending o.entry = 0 := by
  rintro o rfl; decide
theorem wit_SailsAndBooms_out : ∀ a, a = yardAddr 0 0 0x7FFFF8 → regionOf a = .yard 0 0 0x7FFFF8 ∧ lineSplit a (List.replicate 8 7) = [(a, List.replicate 8 7)] ∧
    State.partWords a 8 = [] ∧ (∀ b ∈ ((headQ .reef run0).yard 0 0).access, b.cycle ≠ (headQ .reef run0).cycle) := by rintro a rfl; decide

/-! ### Witnesses: crosstree, ratlines and yards -/

/-- A flit of `n` bytes to address `a` from port 0. -/
def flitTo (port a n : Nat) (rank : Nat := 0) : Flit := { src := 0, dst := port, addr := a, data := List.replicate n 7, prog := some 0, rank := rank }
/-- It is on the crosstree. -/
def flying (f : Flit) (s : State := run1 live) : State := { s with gcnt := 1000, fabric := { flits := [f] } }
theorem wit_FlitsArrive_due : ∀ f, f = flitTo 7 0x12FFFFF8 8 → (flying f).fabric.flits = f :: [] ∧ (flying f).flitDue f ≤ (flying f).now ∧
    (flying f).linkUp f.src = true ∧ (flying f).linkUp f.dst = true ∧ regionOf f.addr = .stay 0x2FFFFF8 ∧ regionOf 0x200000000 = .hyper 0 := by
  rintro f rfl; decide
theorem wit_FlitsArrive_yard : ∀ r ∈ [0, 1], ∀ (f : Flit) (s : State), f = flitTo 1 (yardAddr 1 7 0x7FFFC0) 64 r → s = (flying f).setDom 35 true →
    s.fabric.flits = f :: [] ∧ s.flitDue f ≤ s.now ∧ s.linkUp 0 = true ∧ s.linkUp 1 = true ∧ regionOf f.addr = .yard 1 7 0x7FFFC0 ∧ f.rank = r ∧
    f.read = false ∧ f.dst ≠ 7 ∧ s.targetIn f.addr = true ∧ (s.yard 1 7).access = [] ∧ 0x7FFFC0 % 8 = 0 ∧ f.data.length % 8 = 0 := by
  intro r h f s hf hs; subst hf; subst hs; revert r; decide
theorem wit_FlitsArrive_gone : ∀ f s, f = flitTo 1 (yardAddr 1 7 0) 1 → s = (flying f).setReg (rid .pwrInsvc) 0 →
    s.fabric.flits = f :: [] ∧ s.flitDue f ≤ s.now ∧ regionOf f.addr = .yard 1 7 0 ∧ s.targetIn f.addr = false := by rintro f s rfl rfl; decide
theorem wit_FlitsArrive_waits : State.now { flying (flitTo 7 0x10000000 8) with gcnt := 0 } <
      State.flitDue { flying (flitTo 7 0x10000000 8) with gcnt := 0 } (flitTo 7 0x10000000 8) ∧
    State.linkUp { run1 live with fabric := { down := [(7, true)] } } 7 = false := by decide

theorem wit_Links_replay : (run1 live).linkUp 7 = true ∧ SMap.get 0 (run1 live).fabric.fails (dirKey 7 true) < 8 ∧
    SMap.get 0 ({ fails := [(dirKey 7 true, 7)] } : FabricSt).fails (dirKey 7 true) < 8 := by decide
/-- A program admitted in the tick, its record `g`; `links` of it use port 0 both ways. -/
def admitted1 (g : Prog) : State := { State.reset with tick := { phase := .work }, progs := [(0, g)] }.setReg (rid .admProgA 0) 0x0001000A
theorem wit_Links_users : ∀ s, s = { flying (flitTo 7 0x10000000 8) with fabric := { flits := [flitTo 7 0x10000000 8], users := [(dirKey 7 true, [0])] } } →
    (0 : Nat) ∈ SMap.get [] s.fabric.users (dirKey 7 true) ∧ s.failing 7 true = some (flitTo 7 0x10000000 8) ∧
    s.fabric.flits[0]? = some (flitTo 7 0x10000000 8) := by rintro s rfl; decide
theorem wit_Links_ninth : ∀ s, s = { run1 live with fabric := { fails := [(dirKey 7 true, 8)], flits := [flit0] } } → s.linkUp 7 = true ∧
    8 ≤ SMap.get 0 s.fabric.fails (dirKey 7 true) := by rintro s rfl; decide
theorem wit_Links_down : ∀ s, s = { run1 live with fabric := { down := [(6, true)] } } → s.linkUp 6 = false ∧ s.fwRuns 1 = true ∧
    (s.setReg (rid .pwrFw 1) 1).fwRuns 1 = false := by rintro s rfl; decide
/-- The word of a package flag.set. -/
def pkgWord : BitVec 128 := 0x10008
theorem wit_Links_ratline : ∀ s, s = admitted1 { box := { code := [pkgWord] }, ctx := live } → s.mastIn 6 = true ∧ s.mastIn 7 = false ∧
    s.admitted 0 = true ∧ 0 ∈ s.progMasts 0 ∧ (s.prog 0).box.usesPkg = true ∧ (s.ctx 0).active = true := by rintro s rfl; decide

theorem wit_YardMemory_landing : ∀ s w, s = yard0 { landing := [⟨1, 64, none, 8, 0, 1⟩, ⟨0, 0, some [5], 1, 0, 1⟩, ⟨0, 2048, w, 1, 0, 1⟩] } →
    (s.yard 0 0).landing = [⟨1, 64, none, 8, 0, 1⟩] ++ ⟨0, 0, some [5], 1, 0, 1⟩ :: [⟨0, 2048, w, 1, 0, 1⟩] ∧
    (∀ e ∈ [(⟨1, 64, none, 8, 0, 1⟩ : Landing)], e.bank ≠ 0) ∧ State.reset.cycle % 32 = 0 ∧ State.reset.cycle % 32 ≠ 31 := by
  rintro s w rfl; refine ⟨rfl, ?_, by decide, by decide⟩; simp
theorem wit_YardMemory_init : (run1 live).yardBusy 0 7 = false ∧ ((run1 live).setDom 7 true).yardOn 0 7 = true ∧ ((run1 live).setDom 7 true).yardBusy 0 7 = false ∧
    (admitted1 { place := { yards := [0] } }).yardBusy 0 0 = true ∧ (((run1 live).setDom 7 true).setReg (rid .pwrInsvc) 0).yardOn 0 7 = false := by decide
theorem wit_YardMemory_done : ∀ s, s = yard0 { initUntil := some 5 } → (s.yard 0 0).initUntil = some 5 ∧ s.now < 5 ∧
    ({ s with gcnt := 5 } : State).now = 5 := by rintro s rfl; decide

/-- The host's tunnel is up. -/
def hostOn : State := State.reset.setReg (rid .usb4Link) 4
theorem wit_ClearBits : Reaches .mp State.reset ∧ Reaches .host hostOn ∧ (hostOn.setDom 127 true).yardOn 6 7 = true ∧ State.reset.hostUp = false ∧
    hostOn.mastIn 6 = true ∧ hostOn.mastIn 7 = false := ⟨.inl rfl, .inr (.inr ⟨rfl, by decide⟩), by decide, by decide, by decide, by decide⟩

/-! ### Witnesses: streams, media and timed I/O -/

/-- Little-endian bytes of numbers, each with its width. -/
def fields (l : List (Nat × Nat)) : List Byte := l.flatMap fun e => leN e.1 e.2
/-- The descriptor of a queue: its ring, kind, log2 of its entries, vector, flags, producer and consumer indexes. -/
def queueAt (q base kind prod : Nat) (s : State) : State :=
  s.store (qDesc q) (fields [(8, base), (1, kind), (1, 4), (2, 3), (2, 1), (2, 0), (4, prod), (4, 0)])
/-- Channel 5 bound to queue 2, in state `st`, its descriptor in hand `c`. -/
def channel5 (c : ChanSt) (st : Nat) : State :=
  ({ State.reset with strm := { chans := [(5, c)] } }.setReg (sreg .strmChCtrl 5) 1).setReg (sreg .strmChSq 5) (BitVec.ofNat 64 (0x8002 + 2 ^ 31))
    |>.setReg (sreg .strmChStat 5) (BitVec.ofNat 64 st)
theorem wit_BulkChannels_takes : ∀ s, s = queueAt 2 0x11200000 1 1 (channel5 {} 0) → 2 = s.get (sreg .strmChSq 5) 0 15 ∧
    bit (s.reg (sreg .strmChCtrl 5)) 0 = true ∧ bit (s.reg (sreg .strmChSq 5)) 15 = true ∧ s.chState 5 = 0 ∧ s.qOn 2 = true ∧ s.qKind 2 = 1 ∧
    s.qOcc 2 ≠ 0 ∧ State.inHost (s.qEntryAddr 2 (s.qCons 2)) = false ∧ (queueAt 2 0x11200000 1 0 (channel5 {} 4)).qOcc 2 = 0 ∧
    (queueAt 2 0x11200000 1 0 (channel5 {} 4)).chState 5 = 4 := by rintro s rfl; decide
/-- The header of a bulk descriptor whose records go to queue 3. -/
def header : List Byte := fields [(1, 2), (1, 0), (1, 0), (1, 0), (2, 2), (2, 3), (4, 0), (4, 9)]
def ends5 (st : Nat) (e : ChanSt) : State := queueAt 3 0x11200000 4 0 (channel5 { e with desc := header } st)
theorem wit_BulkChannels_ends : ∀ s, s = ends5 1 { ending := some (0, 0, 0) } → (s.chan 5).ending = some (0, 0, 0) ∧ s.bulkLanded 5 = true ∧
    s.readsBack 5 = false ∧ s.qTakes (dCq (s.chan 5).desc) 4 = true ∧ s.qFull (dCq (s.chan 5).desc) = false := by rintro s rfl; decide
theorem wit_BulkChannels_halts : ∀ s, s = ends5 1 { ending := some (1, 7, 4) } → (s.chan 5).ending = some (1, 7, 4) ∧ s.bulkLanded 5 = true ∧
    s.qTakes (dCq (s.chan 5).desc) 4 = true ∧ s.qFull (dCq (s.chan 5).desc) = false := by rintro s rfl; decide
theorem wit_BulkChannels_pending : (yard0 { landing := [⟨0, 0, none, 8, 0, 1⟩] }).bulkLanded 5 = false ∧ (State.reset.chan 0).ending = none := by decide
/-- A completion record. -/
def record0 : List Byte := fields [(1, 0), (1, 2), (1, 7), (1, 5), (4, 9), (8, 0), (8, 0), (4, 0), (4, 0)]
theorem wit_BulkChannels_waits : ∀ s, s = ends5 3 { record := some (3, record0) } → (s.chan 5).record = some (3, record0) ∧ s.qTakes 3 4 = true ∧
    s.qFull 3 = false ∧ record0.length = 32 ∧ leAt record0 0 1 ≠ 1 ∧ (queueAt 3 0x11200000 4 16 s).qTakes 3 4 = true ∧
    (queueAt 3 0x11200000 4 16 s).qFull 3 = true := by rintro s rfl; decide
theorem wit_BulkChannels_halted : ∀ s, s = ((ends5 2 {}).setReg (sreg .strmChStat 30) 2).setChan 30 { desc := header } →
    State.ownsCh .mp 30 = true ∧ s.chState 30 = 2 ∧ (s.chan 30).desc ≠ [] ∧ s.qTakes (dCq (s.chan 30).desc) 4 = true ∧
    s.qFull (dCq (s.chan 30).desc) = false ∧ State.ownsCh .mp 29 = false ∧ State.ownsCh .sp 29 = true ∧ State.ownsCh .tp 31 = true := by
  rintro s rfl; decide
theorem wit_BulkChannels_timeout : ((ends5 1 { ending := some (0, 0, 0) }).chan 5).ending ≠ none := by decide

theorem wit_DattAndPeripherals_datt : ∀ s, s = hostOn.setHeld .host 0x300008 (some 0x1001) → s.hostUp = true ∧
    s.held .host 0x300008 = some 0x1001 := by rintro s rfl; decide
/-- A peripheral descriptor: bursts of 16 bytes of 4-byte elements, `flags`, 32 elements at the start of Stay SRAM's media area. -/
def periphDesc (flags : Nat) : List Byte :=
  fields [(1, 1), (1, 2), (1, 0), (1, 0), (2, flags), (2, 3), (4, 0), (4, 9), (1, 0), (1, 1), (1, 0), (1, 0), (4, 0), (8, 0x11200000),
    (4, 32), (4, 4), (4, 1), (4, 0), (4, 1), (4, 0), (8, 0)]
/-- Line 109, enabled, with a descriptor in hand and a window over the media area. -/
def line109 (flags : Nat) : State :=
  (({ State.reset with strm := { pctx := [(109, { desc := periphDesc flags })] } } : State).setReg (State.pstat 109) 1).setWin 7 0
    (0x11200000, 1, 0xB)
theorem wit_DattAndPeripherals_burst : ∀ flags ∈ [2, 18], ∀ s c, s = line109 flags → c = s.pctx 109 → c.desc ≠ [] ∧
    bit (s.reg (State.pstat 109)) 0 = true ∧ bit (s.reg (State.pstat 109)) 3 = false ∧ State.srcSided c.desc = false ∧
    4 = State.burstBytes c.desc / dEsize c.desc ∧ c.elem + 4 < s.dElems c.desc ∧ State.toDevice c.desc = decide (flags = 18) ∧
    (∀ x ∈ s.burstAddrs c.desc c.half (s.dElems c.desc) c.elem 4, s.windowOk 7 x (dEsize c.desc) (!State.toDevice c.desc) = true ∧ s.hyperDown x = false) := by
  rintro flags hf s c rfl rfl; revert flags; decide
theorem wit_DattAndPeripherals_drop : bit (State.reset.reg (State.pstat 109)) 0 = false ∧ (State.reset.pctx 109).desc = [] ∧
    State.reset.get (sreg .strmPctxNext 109) 0 40 = 0 ∧ bit ((State.reset.setReg (State.pstat 0) 8).reg (State.pstat 0)) 3 = true := by decide

/-- A rig with one MEDIA record. -/
def mediaRig (kind : Nat) (body : List Byte) : List Byte :=
  List.replicate 14 0 ++ [1] ++ List.replicate 81 0 ++ fields [(4, 9), (4, 0x70), (4, body.length + 4), (4, 0), (2, kind), (2, body.length + 4)] ++ body
def rigged (kind : Nat) (body : List Byte) (s : State := hostOn) : State := { s with rig := { cur := mediaRig kind body } }
/-- Camera stream 1 on port 0, with no raw source. -/
def cam1 : List Byte := fields [(1, 1), (1, 0), (1, 0), (1, 0), (2, 8), (2, 4), (1, 0), (1, 0), (1, 0), (1, 0xFF)]
theorem wit_CamerasAndAudio_frames : (rigged 2 cam1).streamRec 1 = some cam1 ∧ leAt cam1 1 1 < (rigged 2 cam1).part.csiPorts ∧
    (rigged 2 cam1).scalers 1 = [] ∧ leAt cam1 11 1 = 0xFF ∧ SMap.get false (rigged 2 cam1).media.onceCsi 1 = false ∧
    (rigged 2 cam1).streamRec 0 = none := by decide
theorem wit_CamerasAndAudio_noPort : ∀ b, b = fields [(1, 1), (1, 200)] → (rigged 2 b).streamRec 1 = some b ∧ (rigged 2 b).part.csiPorts ≤ leAt b 1 1 := by
  rintro b rfl; decide
def audio48 : List Byte := fields [(1, 3), (1, 1), (1, 0), (5, 0), (1, 128)]
/-- TDM line `n` with two slots. -/
def tdm (n : Nat) : List Byte := fields [(1, n), (1, 2), (1, 0), (1, 2)]
theorem wit_CamerasAndAudio_blocks : ((rigged 4 audio48).setDom 158 true).blockOn 158 5 = true ∧ (rigged 4 audio48).media_ 4 = audio48 :: [] ∧
    (rigged 5 (tdm 3)).mediaOf 5 (84 - 81) = some (tdm 3) ∧ leAt (tdm 3) 3 1 ≠ 0xFF ∧ State.reset.blockOn 158 5 = false := by decide
theorem wit_CamerasAndAudio_gathers : ((line109 2).pctx 109).fifo.length + 4 * [(1 : BitVec 32)].length < (line109 2).lineBurst 109 := by decide
theorem wit_CamerasAndAudio_tdm : ∀ s, s = { rigged 5 (tdm 7) with strm := { outBytes := [(88, List.replicate 8 1)] } } →
    s.mediaOf 5 (4 + 3) = some (tdm 7) ∧ SMap.get [] s.strm.outBytes (85 + 3) = List.replicate 8 1 ∧
    4 * leAt (tdm 7) 1 1 ≤ (List.replicate 8 (1 : Byte)).length ∧ 7 < 4 * leAt (tdm 7) 1 1 := by rintro s rfl; decide

/-- Session 0 with a ring of 64 bytes at offset `o` of its record. -/
def ses (o : Nat) : List Byte := List.replicate o 0 ++ fields [(4, 64)]
theorem wit_Codecs_rings : (rigged 6 (ses 12)).hostUp = true ∧ (rigged 6 (ses 12)).mediaOf 6 0 = some (ses 12) ∧
    (rigged 7 (ses 16)).mediaOf 7 0 = some (ses 16) ∧ (rigged 8 (ses 8)).mediaOf 8 0 = some (ses 8) ∧ leAt (ses 12) 12 4 = 64 ∧
    bit ((rigged 8 (ses 8)).reg (rid .vencJpgStat 0)) 0 = false ∧
    bit (((rigged 8 (ses 8)).setReg (rid .vencJpgStat 0) 1).reg (rid .vencJpgStat 0)) 0 = true := by decide
theorem wit_Codecs_decode : ∀ s, s = (rigged 6 (ses 12)).setDom 155 true → s.blockOn 155 2 = true ∧ s.mediaOf 6 0 = some (ses 12) ∧
    (0 : BitVec 32).toNat ≤ ringHeld (s.get (rid .vdecSesWp 0) 0 32) (s.get (rid .vdecSesRp 0) 0 32) (leAt (ses 12) 12 4) ∧
    ringHeld (s.get (rid .vdecSesWp 0) 0 32) (s.get (rid .vdecSesRp 0) 0 32) (leAt (ses 12) 12 4) < (1 : BitVec 32).toNat := by rintro s rfl; decide
theorem wit_Codecs_encode : ∀ s, s = { (rigged 7 (ses 16)).setDom 156 true with media := { vencSrc := [(0, [([1], 5)])] } } → s.blockOn 156 3 = true ∧
    s.mediaOf 7 0 = some (ses 16) ∧ SMap.get [] s.media.vencSrc 0 = ([1], 5) :: [] ∧ SMap.get [] s.media.vencSrc 1 = [] := by rintro s rfl; decide
theorem wit_Codecs_jpeg : ∀ s, s = ((rigged 8 (ses 8)).setDom 157 true).setReg (rid .vencJpgStat 0) 1 → s.blockOn 157 4 = true ∧
    s.mediaOf 8 0 = some (ses 8) ∧ bit (s.reg (rid .vencJpgStat 0)) 0 = true := by rintro s rfl; decide

theorem wit_TimedIO_edge : SMap.get false State.reset.gpio.seen 31 ≠ true ∧ State.reset.ballMode 31 ≠ 1 ∧ SMap.get false State.reset.gpio.seen 0 = false ∧
    ((rigged 9 [3]).setReg (rid .gpioBallCfg 31) 1).ballMode 31 = 1 ∧ (rigged 9 [3]).media_ 9 ≠ [] := by decide
theorem wit_TimedIO_out : hostOn.hostUp = true ∧ (hostOn.setReg (rid .gpioBallCfg 31) 2).ballMode 31 = 2 ∧ hostOn.ballMode 31 ≠ 2 := by decide
/-- An entry of the timed-output queue, due at 100 ns. -/
def toq (action : Nat) : ToqEntry := ⟨0, 31, action, 100, 4, 9, some 100⟩
theorem wit_TimedIO_due : ∀ a ∈ [0, 1, 2, 3, 4], ∀ s, s = { State.reset with gcnt := 100, gpio := { toq := [toq a] } } →
    s.gpio.toq = [toq a] ∧ (toq a).due = some 100 ∧ 100 ≤ s.now ∧ bit (s.reg (rid .gpioBallCfg (toq a).ball)) 4 = false := by
  rintro a ha s rfl; revert a; decide
theorem wit_TimedIO_early : ∀ s, s = { State.reset with gcnt := 99, gpio := { toq := [toq 2] } } → ∀ e ∈ s.gpio.toq, ∀ at_, e.due = some at_ → s.now < at_ := by
  rintro s rfl e h a d; rcases List.mem_singleton.1 h with rfl; cases d; decide
theorem wit_TimedIO_pulse : ∀ s q, q = ⟨31, 104, false, 9⟩ → s = { State.reset with gcnt := 104, gpio := { pulses := [q] } } → s.gpio.pulses = q :: [] ∧
    q.ends ≤ s.now ∧ bit (s.reg (rid .gpioBallCfg q.ball)) 4 = false ∧ (∀ x ∈ s.gpio.pulses, x.ball = 30 → s.now < x.ends) := by
  rintro s q rfl rfl; decide

/-! ### Witnesses: time, the tick and the registers -/

def awakeAt (t : Nat) (k : TickSt) : State := { State.reset with timebase := true, gcnt := BitVec.ofNat 64 t, tick := k }
theorem wit_Timebase : State.reset.timebase = false ∧ State.reset.power.life = .booting ∧ hostOn.hostUp = true ∧
    (1 : BitVec 32).getLsbD 0 = true ∧ bit (State.reset.reg (rid .gcntStatus)) 0 = false ∧ (awakeAt 0 {}).mastIn 6 = true ∧
    (awakeAt 0 {}).timebase = true ∧ ({ State.reset with gcnt := BitVec.allOnes 64 } : State).gcnt = BitVec.allOnes 64 := by decide

theorem wit_TickStarts : ∀ b s, s = { admitted1 { ctx := live } with gcnt := 8, tick := { phase := .guard, next := some 8, stopping := b } } →
    s.tick.next = some 8 ∧ 8 ≤ s.now ∧ s.tick.phase = .guard ∧ s.tick.stopping = b ∧ s.admitted 0 = true ∧ s.progState 0 = 2 ∧
    s.get (rid .admProgFirst 0) 0 48 = 0 := by rintro b s rfl; revert b; decide
theorem wit_TickStarts_held : State.reset.tick.phase = .stopped ∧ (awakeAt 7 { phase := .guard, next := some 8 }).now < 8 := by decide
theorem wit_GuardStarts : ∀ s, s = { admitted1 { ctx := live } with gcnt := 980000 } → s.tick.phase = .work ∧ s.guardTime ≤ s.now ∧
    s.admitted 0 = true ∧ (s.ctx 0).active = true ∧ (s.ctx 0).ended = false ∧ ({ s with gcnt := 979999 } : State).now < s.guardTime := by
  rintro s rfl; decide

theorem wit_TickStarts_retick : ∀ b s, s = { admitted1 { ctx := live } with gcnt := 8, tick := { phase := .guard, next := some 8, retick := b } } →
    s.tick.next = some 8 ∧ 8 ≤ s.now ∧ s.tick.stopping = false ∧ s.tick.retick = b := by rintro b s rfl; revert b; decide
/-- A guard that began at 980,000 ns, at time `t` with `n` of its steps done; the program has one captured input. -/
def inGuard (t n : Nat) : State :=
  { admitted1 { ctx := live, box := { tensors := [{ (default : Tensor) with kind := 1 }] } } with gcnt := BitVec.ofNat 64 t, tick := { phase := .guard, guardAt := 980000, stage := n } }
theorem wit_GuardStarts_steps : ∀ q ∈ [(980200, 0, 200), (980700, 1, 700), (980900, 2, 900)], ∀ s, s = inGuard q.1 q.2.1 → s.tick.phase = .guard ∧
    s.tick.stage = q.2.1 ∧ s.tick.guardAt + q.2.2 ≤ s.now ∧ s.media_ 9 = [] ∧ s.admitted 0 = true ∧ s.captureInputs 0 = [0] ∧
    (inGuard (q.1 - 1) q.2.1).now < s.tick.guardAt + q.2.2 := by rintro q h s rfl; revert q; decide

/-- A tick that TICK_IN ends: the period is 1000 µs and the guard 20 µs, so E is 1,000,000 ns and an edge is accepted 5,000 ns about it. -/
def edged (t : Nat) (k : TickSt := { phase := .guard }) : State := (awakeAt t k).setReg (rid .tickCtrl) 3
theorem wit_TickInput_edge : ∀ t ∈ [994999, 995000, 1005000, 1005001], ∀ s, s = edged t → bit (s.reg (rid .tickCtrl)) 1 = true ∧
    false = bit (s.reg (rid .tickInCfg)) 0 ∧ s.tick.phase = .guard ∧ s.tick.accepted = false ∧ s.tick.relockFrom = none ∧
    decide (4 * s.expected ≤ 4 * s.now + s.guardLen ∧ 4 * s.now ≤ 4 * s.expected + s.guardLen) = decide (t = 995000 ∨ t = 1005000) ∧
    decide (4 * s.now + s.guardLen < 4 * s.expected) = decide (t = 994999) ∧
    decide (4 * s.expected + s.guardLen < 4 * s.now) = decide (t = 1005001) := by rintro t ht s rfl; revert t; decide
theorem wit_TickInput_notHeld : (edged 0).tick.held = false := rfl
theorem wit_TickInput_lost : bit ((edged 0).reg (rid .tickStatus)) 2 = false ∧ (edged 0).expected + (edged 0).guardLen / 4 = 1005000 ∧
    (edged 1004999).now < 1005000 ∧ (edged 1005000).now = 1005000 := by decide
theorem wit_TickInput_relock : ∀ n ∈ [14, 15], ∀ s, s = (edged 0 { phase := .work, held := true, earlySeen := true, earlyRun := n }).setReg (rid .tickStatus) 4 →
    bit (s.reg (rid .tickStatus)) 2 = true ∧ s.tick.held = true ∧ s.tick.earlySeen = true ∧ s.tick.accepted = false ∧ s.tick.relockFrom = none ∧
    s.tick.phase = .work ∧ decide (15 ≤ s.tick.earlyRun) = decide (n = 15) := by rintro n hn s rfl; revert n; decide

theorem wit_RunAndPulses_run : ∀ s, s = State.reset.setReg (rid .admRigStat) 1 → s.fwRuns 1 = true ∧ s.rigValid = true ∧
    s.tick.phase = .stopped ∧ bit (s.reg (rid .tickCtrl)) 1 = false ∧ State.reset.rigValid = false := by rintro s rfl; decide
theorem wit_RunAndPulses_clear : ∀ s, s = edged 0 → s.fwRuns 1 = true ∧ s.anyAdmitted = false ∧ s.tick.phase ≠ .stopped := by rintro s rfl; decide
theorem wit_RunAndPulses_out : ∀ s, s = (awakeAt 20 { phase := .work }).setReg (rid .tickCtrl) 4 → bit (s.reg (rid .tickCtrl)) 2 = true ∧
    s.tick.phase = .work ∧ s.tickStart + 20 ≤ s.now ∧ s.tick.outPulse.map (·.1) ≠ some (s.tickStart + 20) ∧ (awakeAt 19 {}).now < 20 := by
  rintro s rfl; decide
theorem wit_RunAndPulses_fsync : ∀ s, s = ((awakeAt 100 { phase := .guard }).setReg (rid .tickFsyncA 15) 0x200000).setReg (rid .tickFsyncB 15) 100 →
    s.fsyncTick 15 = true ∧ s.tick.phase = .guard ∧ s.tickStart + s.get (rid .tickFsyncB 15) 0 27 ≤ s.now ∧
    (SMap.get (0, 0) s.tick.fsync 15).1 ≠ s.tickStart + s.get (rid .tickFsyncB 15) 0 27 ∧ s.fsyncTick 14 = false := by rintro s rfl; decide
theorem wit_RunAndPulses_ball : ∀ s, s = (((awakeAt 100 { phase := .guard }).setReg (rid .tickFsyncA 15) 0x3F0000).setReg (rid .gpioBallCfg 31) 4) →
    s.ballMode (s.fsyncBall 15) = 4 ∧ bit (s.reg (rid .gpioBallCfg (s.fsyncBall 15))) 4 = false := by rintro s rfl; decide

theorem wit_WideRegisters : ∀ s u r, s = hostOn → u = hostOn.hostTouch → r = rid .tickStartAt → Enters .host s u ∧
    regAt 0x10018 = some (r, 0) ∧ regAt (0x10018 + 4) = some (r, 1) ∧ r.name.desc.bytes = 8 ∧ State.specialAt 0x10018 = none ∧
    State.specialAt (0x10018 + 4) = none ∧ u.answers r = true ∧ u.mayHold .host r = true ∧ r.name ≠ .dattUpdEntry ∧ u.mayHold .tp r = false := by
  rintro s u r rfl rfl rfl; exact ⟨⟨by decide, rfl⟩, by decide⟩
theorem wit_RegisterWrites : ∀ s u r, s = hostOn → u = hostOn.hostTouch → r = rid .tickOutCfg → Enters .host s u ∧ regAt 0x10040 = some (r, 0) ∧
    State.specialAt 0x10040 = none ∧ r.name.desc.bytes ≠ 8 ∧ r.name ∉ ownRows ∧ r.name ∉ [RegName.pwrDomEn, .pwrDomRet] ∧ u.answers r = true ∧
    regAt 0xF00000 = none ∧ State.specialAt 0xF00000 = none := by
  rintro s u r rfl rfl rfl; exact ⟨⟨by decide, rfl⟩, by decide⟩
theorem wit_RegisterWrites_away : ∀ u, ¬ Enters .host State.reset u := fun _ h => absurd h.1 (by decide)

/-! ### Witnesses: mailboxes, launches and loads -/

/-- A part that runs. -/
def going : State := { State.reset with power := { State.reset.power with life := .running } }
/-- Mailbox `n` holds a request. -/
def boxed (n : Nat) (b : List Byte) (s : State := going) : State :=
  (List.range 16).foldl (fun s w => s.setReg (rid .admMboxReq n w) (BitVec.ofNat 64 (leAt b (4 * w) 4))) s
theorem enters2 {n : Nat} {s : State} (h : (decide (2 ≤ n ∧ n < 4) && s.up 1) = true) : EntersMbox n s s := by
  simp only [Bool.and_eq_true, decide_eq_true_eq] at h; exact .inr ⟨h.1.1, h.1.2, h.2, rfl⟩
theorem wit_Mailboxes : ∀ c ∈ mailboxCommands, ∀ s, s = boxed 3 (fields [(1, c.2), (1, 255)]) → EntersMbox 3 s s ∧ s.mboxBusy 3 = false ∧
    s.mboxCmd 3 = c.2 ∧ commandFault (s.mboxReq 3) = some 1 ∧ (s.setReg (rid .admMboxStat 3) 1).mboxBusy 3 = true := by
  rintro c hc s rfl
  exact ⟨enters2 (by revert c; decide), by revert c; decide⟩
theorem wit_Mailboxes_host : EntersMbox 1 hostOn hostOn.hostTouch ∧ ∀ u, ¬ EntersMbox 4 hostOn u := by
  refine ⟨.inl ⟨by decide, by decide, rfl⟩, fun u h => ?_⟩
  rcases h with h | h
  · exact absurd h.1 (by decide)
  · exact absurd h.2.1 (by decide)

/-- Program 0, with handle 64, in state `st` (1 admitted, 3 struck), its image copied. -/
def held0 (st : Nat) (s : State := going) : State :=
  { s with progs := [(0, { copied := true })] }.setReg (rid .admProgA 0) (BitVec.ofNat 64 (0x400008 + st))
def launchReq (cmd h : Nat) : List Byte := fields [(8, cmd), (8, 0), (1, 1), (1, 1), (2, 0), (2, h)]
theorem wit_Launches_accepts : ∀ cmd ∈ [3, 6], ∀ u v, u = boxed 2 (launchReq cmd 64) (held0 (if cmd = 6 then 3 else 1)) →
    v = u.put (rid .admMboxStat 2) 0 1 1 → EntersMbox 2 u u ∧ u.mboxBusy 2 = false ∧ u.mboxCmd 2 = cmd ∧ commandFault (u.mboxReq 2) = none ∧
    v.launchHandles (v.mboxReq 2) = [64] ∧ (∀ h ∈ v.launchHandles (v.mboxReq 2), v.launchBad cmd h = none) ∧ leAt (v.mboxReq 2) 0x10 1 ≠ 2 := by
  rintro cmd hc u v rfl rfl
  exact ⟨enters2 (by revert cmd; decide), by revert cmd; decide⟩
theorem wit_Launches_noProgram : ∀ u v, u = boxed 2 (launchReq 3 65) (held0 1) → v = u.put (rid .admMboxStat 2) 0 1 1 → u.mboxCmd 2 = 3 ∧
    commandFault (u.mboxReq 2) = none ∧ v.launchHandles (v.mboxReq 2) = 65 :: [] ∧ v.ofHandle 65 = none := by rintro u v rfl rfl; decide
theorem wit_Launches_armed : ∀ l s, l = ⟨2, [64], 0⟩ → s = { boxed 2 (launchReq 3 64) (held0 1) with
      tick := { phase := .guard, guardAt := 10, stage := 2 }, gcnt := 710, queue := { launches := [l] } } →
    s.queue.launches = l :: [] ∧ s.ofHandle 64 = some 0 ∧ s.launchable (s.mboxCmd 2) 0 = true ∧ l.first = s.nextT48 ∧ s.tick.phase = .guard ∧
    s.step6Now = true ∧ s.leavesDone = true ∧ s.rigDone = true ∧ ({ s with gcnt := 711 } : State).step6Now = false := by rintro l s rfl rfl; decide

/-- LOAD_PROG, or LOAD_RIG, of `n` bytes at the media area. -/
def loadReq (cmd n : Nat) : List Byte := fields [(8, cmd), (8, 0x11200000), (4, n)]
/-- A mailbox with a load request whose image stands in memory. -/
def loading (cmd : Nat) (img : List Byte) (s : State := going) : State := (boxed 2 (loadReq cmd img.length) s).poke 0x11200000 img
/-- A file of 32 bytes that no loader takes. -/
def noFile : List Byte := List.replicate 16 0 ++ fields [(4, 32), (12, 0)]
theorem wit_Loads_idle : ∀ cmd ∈ [1, 2], ∀ u, u = loading cmd noFile → EntersMbox 2 u u ∧ u.mboxBusy 2 = false ∧ u.rig.queue = [] ∧
    u.rig.settle = none ∧ commandFault (u.mboxReq 2) = none ∧ u.mboxCmd 2 = cmd := by
  rintro cmd hc u rfl
  exact ⟨enters2 (by revert cmd; decide), by revert cmd; decide⟩
theorem wit_Loads_refused : ∀ v, v = taken (loading 2 noFile (going.setReg (rid .admRigStat) 1)) 2 → v.up 2 = true ∧ v.copying = none ∧
    v.fetchImage 2 31 = .got noFile ∧ v.wantsSp ((sectAt noFile (boxSects noFile) 8).isSome || v.fuse 1 || v.policy 0) = false ∧
    (v.verdict noFile (parseBox noFile) 0).bad = some (State.refuse 3 3 0xFFFF 0) := by rintro v rfl; decide +kernel
theorem wit_Loads_rig : ∀ v, v = taken (loading 1 noFile) 2 → v.up 1 = true ∧ v.rig.staged = none ∧ v.fetchImage 2 30 = .got noFile ∧
    v.wantsSp (decide (rigSects noFile = 13) || v.fuse 0) = false ∧ v.rigChecks noFile = some (State.refuse 0x20 2 0xFFFF 0) := by rintro v rfl; decide +kernel
theorem wit_Loads_others : ∀ cmd ∈ [4, 5], ∀ u, u = { boxed 2 (fields [(1, cmd), (19, 0), (2, if cmd = 4 then 64 else 0)]) (held0 1) with
      tick := { phase := .work }, rig := { prev := noFile } } → EntersMbox 2 u u ∧
    u.mboxBusy 2 = false ∧ u.rig.queue = [] ∧ u.rig.settle = none ∧ commandFault (u.mboxReq 2) = none ∧ u.mboxCmd 2 = cmd ∧ u.ofHandle 64 = some 0 ∧
    u.leaving 0 = false ∧ (taken u 2).up 1 = true ∧ (taken u 2).rig.revert = none ∧ (taken u 2).rig.prev ≠ [] ∧ u.tick.phase ≠ .stopped ∧
    u.ofHandle 65 = none ∧ (taken (boxed 2 []) 2).rig.prev = [] := by
  rintro cmd hc u rfl
  exact ⟨enters2 (by revert cmd; decide), by revert cmd; decide⟩
/-- The container of a program of one tick.end: header, digest, section table, CODE and TENS. -/
def endFile : List Byte := fields [(4, 0x414A4E46), (2, 0x100), (2, 0x60), (4, 0), (2, 1), (2, 2), (4, 160), (4, 7), (8, 0),
  (48, 0xc5b122167f857f86c2729b7e23dcfaeb655d916251b86cc400b232223b8d6a342acc36e477f61493618aae98d8cd21f4), (16, 0),
  (4, 1), (4, 128), (8, 16), (4, 2), (4, 144), (8, 16), (16, 9), (16, 0)]
/-- Mast 0 is powered. -/
def ready : State := taken (loading 2 endFile ((going.setReg (rid .admRigStat) 1).setReg (rid .pwrDomOn 0) 0x70000)) 2
theorem wit_Loads_image : ready.up 2 = true ∧ ready.copying = none ∧ ready.fetchImage 2 31 = .got endFile ∧
    ready.wantsSp ((sectAt endFile (boxSects endFile) 8).isSome || ready.fuse 1 || ready.policy 0) = false ∧ ready.freeNumber = some 0 ∧
    leAt (ready.mboxReq 2) 1 1 % 2 = 0 ∧ leAt (ready.mboxReq 2) 0x24 1 = 0 := by decide +kernel
theorem endFile_passes : ready.staticChecks endFile (parseBox endFile) = none := by decide +kernel
/-- A placement of it: context 0, one region of instruction memory and one wheel position of mast 0. -/
def fit0 : Placement := { slots := [(0, 0)], positions := [0], imemSize := 1 }
theorem endFile_placed : ready.progLimit (ready.candidate fit0) = none ∧ State.tableAbsent (parseBox endFile) = none ∧
    ready.resourceShort (parseBox endFile) (ready.candidate fit0) = none ∧ ready.budgetShort (ready.candidate fit0) = none := by decide +kernel
/-- Whether a placement is found is the translator's answer, and what the Stay blocks draw is the part's: neither has a body (log entry 12).
Where the container fits, it is admitted. -/
theorem wit_Loads_admits (hp : ready.powerShort (ready.candidate fit0) = none)
    (h : Config.translate endFile (rigDigest ready.rig.cur) ((ready.reg (rid .admTpVer)).setWidth 32) ready.freeUnits 0 = .fits fit0) :
    ready.verdict endFile (parseBox endFile) 0 = ⟨none, ready.candidate fit0⟩ := by
  simp only [State.verdict, endFile_passes, h, endFile_placed.1, endFile_placed.2.1, endFile_placed.2.2.1, endFile_placed.2.2.2, hp]; rfl

theorem wit_StepSix_leaves : ∀ s, s = (held0 1).put (rid .admProgA 0) 2 1 1 → s.admitted 0 = true ∧ s.leaving 0 = true ∧ s.step6Now = true ∧
    s.rig.queue = [] ∧ s.admitted 1 = false ∧ (held0 1).leaving 0 = false := by rintro s rfl; decide
theorem wit_StepSix_rig : ∀ s, s = { boxed 2 (loadReq 1 32) with rig := { staged := some (noFile, 2), queue := [2] } } →
    s.rig.staged = some (noFile, 2) ∧ s.step6Now = true ∧ s.rigHands noFile = true ∧ s.leavesDone = true ∧ s.rig.queue = [2] ∧
    going.rig.staged = none := by rintro s rfl; decide
theorem wit_StepSix_revert : ∀ s, s = { boxed 2 (fields [(1, 5)]) with rig := { revert := some (2, false), prev := noFile, queue := [2] } } →
    s.rig.revert = some (2, false) ∧ s.step6Now = true ∧ s.revertHands = true ∧ s.leavesDone = true ∧ s.rig.queue = [2] ∧
    going.rig.revert = none := by rintro s rfl; decide
theorem wit_StepSix_copied : ∀ s, s = boxed 2 (loadReq 2 160) ({ going with progs := [(0, { imemEcc := [(0, 2)] })], rig := { queue := [2] } }.setReg (rid .admProgA 0) 0x400009) →
    s.rig.queue = [2] ∧ s.copying = some 0 ∧ s.mboxCmd 2 = 2 ∧ s.up 2 = true ∧ (∀ m ∈ s.progMasts 0, s.fwRuns (3 + m) = true) ∧ s.copying ≠ some 1 := by
  rintro s rfl; decide

/-! ### Witnesses: the host side -/

theorem wit_HostLink_resets : ∀ s, s = queueAt 2 0x1000000000 1 1 (hostOn.put (rid .usb4Link) 0 2 3) → s.get (rid .usb4Link) 0 2 ≠ 0 ∧ s.tunnelUp = true ∧
    2 ∈ s.listedQueues ∧ s.qHost 2 = true ∧ s.qOn 2 = true ∧ State.reset.tunnelUp = false ∧ State.reset.get (rid .usb4Link) 0 2 = 0 := by rintro s rfl; decide
theorem wit_HostLink_up : going.tunnelUp = false ∧ going.power.life = .running ∧ hostOn.tunnelUp = true := by decide
/-- The host's window 0 grants accesses of 8 KiB of the media area. -/
def window0 (s : State := hostOn) : State :=
  s.setWin 7 0 (0x11200000, 2, 0xB)
theorem wit_HostLink_aperture : ∀ s u, s = window0 → u = s.hostTouch → s.hostUp = true ∧
    0x11201FFC = u.get (rid .usb4ApBase) 30 10 * 2 ^ 30 + 0x11201FFC ∧ u.accessStatus 0 0x11201FFC 4 true = 0 ∧
    regionOf 0x11201FFC = .stay 0x1201FFC ∧ u.accessStatus 0 0x11201FFC 4 false = 0 ∧ State.inHost 0x11201FFC = false ∧
    u.accessStatus 0 0x11202000 4 true ≠ 0 ∧ u.accessStatus 0 0x11202000 4 false ≠ 0 ∧ s.unlanded = [] := by
  rintro s u rfl rfl; decide
theorem wit_HostLink_yard : ∀ s u, s = ((hostOn.setWin 7 0 (0x100000000, 1, 0xB)).setReg (rid .usb4ApBase) 0x100000000).setDom 8 true → u = s.hostTouch →
    s.hostUp = true ∧ 0x100000FFC = u.get (rid .usb4ApBase) 30 10 * 2 ^ 30 + 0xFFC ∧ u.accessStatus 0 0x100000FFC 4 true = 0 ∧
    regionOf 0x100000FFC = .yard 0 0 0xFFC := by rintro s u rfl rfl; decide

theorem wit_QueueControl : ∀ s, s = queueAt 2 0x11200000 1 16 hostOn → s.hostUp = true ∧ s.qOn 2 = true ∧ s.qKind 2 = 1 ∧ s.qEntries 2 = 16 ∧
    s.qOccAfter 2 ((0xFFFFFFFF00000010 : BitVec 64).toNat % 2 ^ 32) ≤ s.qEntries 2 ∧ s.qEntries 2 < s.qOccAfter 2 ((17 : BitVec 64).toNat % 2 ^ 32) ∧
    (s.qDisable 2).qOn 2 = false ∧ (s.qDisable 2).qProd 2 ≠ (s.qDisable 2).qCons 2 := by rintro s rfl; decide

/-- A result of head 0 of program 0, bound to queue 4 or to none. -/
def result (bind : BitVec 16) : Result := ⟨0, 0, 0, 64, 7, 1, 0, 0, 0, [1], none, bind⟩
theorem wit_QueueManager_publish (b : BitVec 16) : ∀ s, s = { State.reset with queue := { results := [result b] } } → s.queue.results = result b :: [] := by
  rintro s rfl; rfl
theorem wit_QueueManager_unbound : (result 4).bind.getLsbD 15 = false ∧ (result 0x8004).bind.getLsbD 15 = true := by decide
theorem wit_QueueManager_timer : ∀ s, s = ({ queueAt 2 0x11200000 1 0 hostOn with queue := { timers := [(2, 6)], msix := [(15, 0)] }, gcnt := 5 } : State).qSet 2 12 2 3 →
    s.qIrq 2 = true ∧ SMap.get 0 s.queue.timers 2 ≠ 0 ∧ SMap.get 0 s.queue.timers 2 - 1 + 1000 * s.qField 2 0x1A 2 ≤ s.now ∧ s.hostUp = true ∧
    (SMap.get 1 s.queue.msix (4 * s.qField 2 10 2 + 3)).getLsbD 0 = false ∧ State.reset.qIrq 2 = false := by rintro s rfl; decide +kernel
def event (t : BitVec 64) : Event := ⟨0x0101, 7, 0xFF, 0xFFFF, 0, 0, t⟩
theorem wit_QueueManager_events : ∀ s, s = { State.reset with gcnt := 9, events := { fifos := [(7 * 256 + 1, [event 9])], lost := [(7 * 256 + 2, 3)] } } →
    s.events.fifos = [(7 * 256 + 1, [event 9])] ∧ (event 9).time ≤ s.gcnt ∧ 7 * 256 + 1 ≠ State.fifoKey 7 0x0705 ∧
    SMap.get 0 s.events.lost (7 * 256 + 2) ≠ 0 ∧ (SMap.get [] s.events.fifos (7 * 256 + 2)).length < 16 ∧
    State.reset.events.fifos = [] ∧ State.reset.queue.results = [] := by rintro s rfl; decide
theorem wit_QueueManager_full : ∀ s, s = { State.reset with events := { fifos := [(1, List.replicate 16 (event 0))] } } →
    16 ≤ (SMap.get [] s.events.fifos (0 * 256 + 1)).length := by rintro s rfl; decide

theorem wit_Downhauls : going.fwRuns 1 = true ∧ hostOn.hostUp = true ∧ going.power.downhaulLow = false ∧ going.power.life = .running ∧
    (held0 2).admitted 0 = true ∧ (held0 2).progState 0 = 2 ∧ (0xD0A10000 : BitVec 32) ≠ 0xD0A10001 := by decide

/-! ### Witnesses: the management port -/

/-- A part that runs, its management port's MAC on, with what `m` holds. -/
def port (m : MgmtSt := {}) : State :=
  (({ State.reset with mgmt := m, power := { State.reset.power with life := .running } } : State).setDom 159 true).put (rid .ethCtrl) 0 1 1
/-- The same with its link up. -/
def netUp (m : MgmtSt := {}) : State := (port m).put (rid .ethStat) 0 1 1
/-- What a Halyard message that reaches `s` is served in. -/
def heard (s : State) : State := { s.netSecond with mgmt := { s.netSecond.mgmt with rate := s.netSecond.mgmt.rate + 1 } }
theorem hears {s : State} (h : (s.netOn && decide (s.netSecond.mgmt.rate < 2000)) = true) : Hears s (heard s) := by
  simp only [Bool.and_eq_true, decide_eq_true_eq] at h; exact ⟨h.1, h.2, rfl⟩
def from1 : NetAddr := ⟨1, 2⟩
def token1 : Token := ⟨from1, 1, 0x7FF, List.replicate 48 7⟩

theorem wit_NetworkStack_status : going.usb2Live = true ∧ going.statusBlock.take 4 ≠ going.queue.usbSent.take 4 ∧
    State.usb2Live { going with power := { going.power with life := .deepSleep } } = false := by decide
theorem wit_NetworkStack_link : port.domOn 159 = true ∧ port.stackUp = true ∧ port.power.life = .running ∧ bit (port.reg (rid .ethStat)) 0 = false ∧
    State.reset.domOn 159 = false ∧ netUp.domOn 159 = true ∧ bit (netUp.reg (rid .ethStat)) 0 = true ∧ (netUp.put (rid .ethCtrl) 3 2 3).get (rid .ethCtrl) 3 2 ≠ 0 := by decide
theorem wit_NetworkStack_v4 : ∀ s, s = netUp { dhcpAddr := 0xC0A80001 } → s.netOn = true ∧ s.netV4 ≠ 0 ∧ (0xC0A80001 : BitVec 32).toNat = s.netV4 ∧
    netUp.netV4 = 0 ∧ s.netStatic = false ∧ State.reset.netOn = false ∧ State.netStatic { s with sec := { s.sec with setNet := [1] } } = true := by
  rintro s rfl; decide
theorem wit_NetworkStack_v6 : ∀ s, s = netUp { slaacPfx := some 5 } → (0xFE80 * 2 ^ 112 + s.ifaceId) ∈ s.ownV6 ∧ (5 * 2 ^ 64 + s.ifaceId) ∈ s.ownV6 ∧ 0 ∉ s.ownV6 := by
  rintro s rfl; decide

theorem wit_HalyardGate_rate : netUp.netOn = true ∧ (netUp { rate := 2000 }).netOn = true ∧ 2000 ≤ (netUp { rate := 2000 }).netSecond.mgmt.rate ∧
    hmpOf (.hmpStatus from1 0) = true ∧ (netUp { rate := 1999 }).netSecond.mgmt.rate < 2000 := by decide
theorem wit_HalyardGate_refused : Hears netUp (heard netUp) ∧ (heard netUp).power.life ≠ .recovery ∧ (∀ p ∈ [2, 3, 4, 6, 9, 10], (heard netUp).permits from1 p = false) ∧
    (heard (netUp { token := some { token1 with uses := 0 } })).permits from1 2 = false ∧ (heard (netUp { token := some token1 })).permits ⟨1, 3⟩ 2 = false ∧
    (heard (netUp { token := some token1 })).permits from1 2 = true := ⟨hears (by decide), by decide⟩
/-- Recovery serves the port. -/
def recovering (m : MgmtSt := {}) : State := { netUp m with power := { State.reset.power with life := .recovery } }
theorem wit_HalyardGate_recovery : Hears recovering (heard recovering) ∧ (heard recovering).power.life = .recovery := ⟨hears (by decide), by decide⟩
/-- The body of SET_NET. -/
def settings : List Byte := fields [(4, 1), (4, 0xC0A80002), (25, 0)]
theorem wit_HalyardGate_queries : Hears (netUp { token := some token1 }) (heard (netUp { token := some token1 })) ∧
    (heard (netUp { token := some token1 })).power.life ≠ .recovery ∧ (heard (netUp { token := some token1 })).permits from1 8 = true ∧
    (heard (netUp { token := some token1 })).permits from1 9 = true ∧ State.netShape settings = true ∧ leAt settings 0 1 = 1 ∧ State.netShape [] = false ∧
    (heard (netUp { nonce := [1] })).mgmt.nonce ≠ [] ∧ (heard netUp).mgmt.nonce = [] := ⟨hears (by decide), by decide⟩

theorem wit_HalyardTokens_pieces : ∀ s u, s = netUp { gathering := [1, 2] } → u = heard s → Hears s u ∧ u.power.life ≠ .recovery ∧ u.fwRuns 0 = true ∧
    (2 : BitVec 16).toNat = u.mgmt.gathering.length ∧ (u.mgmt.gathering ++ [3]).length < 3216 ∧ (3 : BitVec 16).toNat ≠ u.mgmt.gathering.length ∧
    State.fwRuns (heard ((netUp {}).put (rid .pwrFw 0) 0 2 1)) 0 = false := by
  rintro s u rfl rfl; exact ⟨hears (by decide), by decide⟩
/-- The last piece of a token of zeros, which is refused for its shape. -/
theorem wit_HalyardTokens_whole : ∀ s u, s = netUp { gathering := List.replicate 3215 0 } → u = heard s → Hears s u ∧ u.power.life ≠ .recovery ∧
    u.fwRuns 0 = true ∧ (3215 : BitVec 16).toNat = u.mgmt.gathering.length ∧ (u.mgmt.gathering ++ [0]).length = 3216 ∧
    ∀ ok, ok = (u.tokenShape (u.mgmt.gathering ++ [0]) && sigShape (sliceAt (u.mgmt.gathering ++ [0]) 128 3088) &&
      decide (u.ownerCode (sliceAt (u.mgmt.gathering ++ [0]) 128 3088) (sha384 ((u.mgmt.gathering ++ [0]).take 128)) = 0)) → ok = false := by
  rintro s u rfl rfl
  refine ⟨hears (by decide), by decide, by decide, ?_, ?_, ?_⟩
  · rw [show (heard (netUp { gathering := List.replicate 3215 0 })).mgmt.gathering = List.replicate 3215 0 from rfl, List.length_replicate]; rfl
  · rw [show (heard (netUp { gathering := List.replicate 3215 0 })).mgmt.gathering = List.replicate 3215 0 from rfl, List.length_append, List.length_replicate]; rfl
  rintro ok rfl
  have : State.tokenShape (heard (netUp { gathering := List.replicate 3215 0 })) (List.replicate 3215 0 ++ [0]) = false := by decide +kernel
  rw [show (heard (netUp { gathering := List.replicate 3215 0 })).mgmt.gathering = List.replicate 3215 0 from rfl, this, Bool.false_and, Bool.false_and]

/-- A transfer of one chunk of three bytes whose hash is `h`. -/
def xfer1 (target index : Nat) (h : List Byte) (data last : List Byte) : Xfer := ⟨target, 3, 1, index, h, data, last⟩
def h48 : List Byte := List.replicate 48 7
theorem wit_HalyardTransfers_begin : ∀ target ∈ [(1 : BitVec 8), 2], ∀ s u, s = netUp { token := some token1 } → u = heard s → Hears s u ∧
    State.xferShape target.toNat (3 : BitVec 32).toNat (1 : BitVec 32).toNat h48 = true ∧ (3 : BitVec 32).toNat ≤ 0x1FF000 ∧ u.updBusy = false ∧
    u.sec.upd ≠ .activating ∧ u.sec.upd ≠ .trial ∧ u.power.life ≠ .recovery ∧ u.permits from1 (State.xferPerm target.toNat) = true ∧ u.objectIs h48 = true ∧
    u.objectIs [] = false ∧ (heard recovering).power.life = .recovery := by
  rintro target ht s u rfl rfl; exact ⟨hears (by decide), by revert target; decide⟩
theorem wit_HalyardTransfers_chunk : ∀ x s u, x = xfer1 1 0 (sha384 ([1, 2, 3] ++ h48)) [] [] → s = netUp { token := some token1, xfer := some x } → u = heard s →
    Hears s u ∧ u.mgmt.xfer = some x ∧ u.mayXfer from1 = true ∧ h48.length = 48 ∧ (0 : BitVec 32).toNat = x.index ∧ x.index < x.chunks ∧
    sha384 ([1, 2, 3] ++ h48) = x.expect := by
  rintro x s u rfl rfl rfl; exact ⟨hears (by decide), rfl, rfl, by decide, rfl, Nat.zero_lt_one, by simp only [xfer1]⟩
theorem wit_HalyardTransfers_others : ∀ x s u, x = xfer1 1 1 h48 [1, 2, 3] ([1, 2, 3] ++ h48) → s = netUp { token := some token1, xfer := some x } → u = heard s →
    Hears s u ∧ u.mgmt.xfer = some x ∧ u.mayXfer from1 = true ∧ (0 : BitVec 32).toNat + 1 = x.index ∧ x.lastChunk = [1, 2, 3] ++ h48 ∧ x.index = x.chunks ∧
    x.data.length = x.size ∧ x.target = 1 ∧ u.power.life ≠ .recovery ∧ u.spTaken 0x12 = false ∧ (heard recovering).power.life = .recovery := by
  rintro x s u rfl rfl rfl; exact ⟨hears (by decide), rfl, by decide, by decide, rfl, by decide⟩
theorem wit_HalyardTransfers_badHash : sha384 ([1] ++ h48) ≠ h48 := by decide +kernel
/-- The port of a part whose update state is `u`. -/
def updating (u : UpdState) (m : MgmtSt := { token := some token1 }) : State := { netUp m with sec := { State.reset.sec with upd := u } }
/-- An accepted image would need signatures that verify (log entry 63); this one is refused. -/
theorem wit_HalyardTransfers_refused : ∀ u w b, u = heard (updating .receiving) → w = u.flashStore (State.slotBase true) (List.replicate 20 0) → b = w.slotImage true →
    u.sec.upd = .receiving ∧ (w.examine b).result ≠ 0 := by rintro u w b rfl rfl rfl; decide +kernel

theorem wit_HalyardCommands : ∀ v ∈ [UpdState.none, .staged, .trial], ∀ s u, s = updating v → u = heard s → Hears s u ∧ u.power.life = .running ∧
    (∀ c ∈ hmpCommands, u.permits from1 c.2.2 = true ∧ u.spTaken c.2.1 = false) ∧ u.sec.upd = v ∧ u.permits from1 10 = true ∧ u.spTaken 0x28 = false ∧
    u.debugOpen = false ∧ u.sec.lastNonce ≠ h48.take 32 ∧ u.sec.hssNext < 1048576 := by
  rintro v hv s u rfl rfl; exact ⟨hears (by revert v; decide), by revert v; decide⟩
theorem wit_HalyardCommands_waits : ∀ s, s = (netUp { token := some token1 }).put (rid .pwrFw 0) 0 2 1 → Hears s (heard s) ∧ (heard s).power.life = .running ∧
    ∀ c ∈ hmpCommands, (heard s).permits from1 c.2.2 = true ∧ (heard s).spTaken c.2.1 = true := by
  rintro s rfl; exact ⟨hears (by decide), by decide⟩
theorem wit_HalyardCommands_reports : ∀ s, s = { netUp { token := some token1 } with sec := { State.reset.sec with lastNonce := h48.take 32, lastReport := [1], hssNext := 1048576 } } →
    Hears s (heard s) ∧ (heard s).sec.lastNonce = h48.take 32 ∧ (heard s).sec.lastReport ≠ [] ∧ (h48.take 32).length = 32 ∧
    1048576 ≤ (heard s).sec.hssNext ∧ (heard s).sec.lastNonce ≠ List.replicate 32 0 := by
  rintro s rfl; exact ⟨hears (by decide), by decide⟩
theorem wit_HalyardCommands_revert : ∀ s u, s = { netUp { token := some token1 } with rig := { prev := noFile }, tick := { phase := .work } } → u = heard s →
    Hears s u ∧ u.power.life = .running ∧ u.permits from1 5 = true ∧ u.mboxBusy 3 = false ∧ u.mgmt.waiting = [] ∧ u.rig.queue = [] ∧ u.rig.settle = none ∧
    u.rig.revert = none ∧ u.rig.prev ≠ [] ∧ u.tick.phase ≠ .stopped ∧ (1 : BitVec 8).toNat ≤ 1 ∧ u.holds from1 5 = true ∧ u.holds from1 7 = true ∧
    (heard (s.put (rid .admMboxStat 3) 0 1 1)).mboxBusy 3 = true ∧ 1 < (2 : BitVec 8).toNat := by
  rintro s u rfl rfl; exact ⟨hears (by decide), by decide⟩
/-- The body of a RESTART of handle 64 in the next tick. -/
def restartBody : List Byte := fields [(2, 0x0101), (2, 0), (2, 64), (30, 0)]
theorem wit_HalyardCommands_restart : ∀ u v, u = held0 3 (heard (netUp { token := some token1 })) →
    v = (u.writeReq 3 ([6] ++ List.replicate 15 0 ++ restartBody)).put (rid .admMboxStat 3) 0 1 1 → restartBody.length = 36 ∧ u.permits from1 7 = true ∧
    u.mboxBusy 3 = false ∧ u.mgmt.waiting = [] ∧ commandFault (v.mboxReq 3) = none ∧ v.launchHandles (v.mboxReq 3) ≠ [] ∧
    (∀ h ∈ v.launchHandles (v.mboxReq 3), v.launchBad 6 h = none) ∧ leAt (v.mboxReq 3) 0x10 1 ≠ 2 := by rintro u v rfl rfl; decide

/-! ### Witnesses: external memory, boot, update, health -/

/-- Channel 0 of HyperRAM serves, with inline ECC or not, in the first slot of a tick; the line holds what `h` says. -/
def slot0 (ecc : Bool) (h : HyperSt) (t : Nat := 0) : State :=
  ({ State.reset with gcnt := BitVec.ofNat 64 t, tick := { phase := .work, next := some 100000 }, hyper := h }.setReg (rid .hrcCtrl) (if ecc then 0x301 else 0x201)).setReg
    (rid .hrcStatus) 1
def request (w : Option (List Byte)) (merged : Bool := false) : HrReq := { addr := 0x200000004, len := 4, write := w, prog := none, merged := merged }
theorem wit_HyperRam_slots : ∀ ecc, ∀ w ∈ [none, some [1, 2, 3, 4]], ∀ m, ∀ s, s = slot0 ecc { reqs := [(0, [request w m])] } → s.hrSlotNow 0 = some 0 ∧
    (∀ q ∈ s.hrReqs 0, q.late = false) ∧ (s.hrReqs 0).find? (s.hrServed 0 0) = some (request w m) ∧ s.hrEcc = ecc ∧ (request w m).addr % 8 ≠ 0 ∧
    (slot0 ecc {}).hrSlotNow 0 = some 0 ∧ ((slot0 ecc {}).hrReqs 0).find? ((slot0 ecc {}).hrServed 0 0) = none ∧ s.hrSlotNow 1 = none := by
  rintro ecc w hw m s rfl; revert m w ecc; decide
theorem wit_HyperRam_retry : ∀ s, s = (slot0 true { retries := [(0, [request none])] } 2835).setReg (rid .hrcFrame) 8 → s.hrSlotNow 0 = some 7 ∧
    s.hrRecovery 7 = true ∧ s.hrRetries 0 = request none :: [] ∧ (slot0 true {}).hrRecovery 0 = false := by rintro s rfl; decide
theorem wit_HyperRam_up : ∀ s, s = ({ State.reset with gcnt := 5, hyper := { downTimes := [(7, [5])] } } : State).setReg (rid .hrcCtrl) 0x80 → s.hrIsDown 7 = true ∧
    s.fwRuns 1 = true ∧ bit (s.reg (rid .hrcChCfg 7)) 2 = false ∧ (∃ at_ ∈ SMap.get [] s.hyper.downTimes 7, s.now < at_ + 10000000000) ∧ s.hrIsDown 0 = false := by
  rintro s rfl; decide

/-- A part at the start of its boot, in a mode, with a live vendor key or none. -/
def booting (mode : BitVec 2) (key : Bool) (policy : BitVec 16 := 0) : State :=
  { State.reset with sec := { State.reset.sec with
    bootMode := mode, policy := policy, keyHash := if key then [(0, [1])] else [], flash := (List.range 20).map fun i => (0x10000 + i, 0) } }
theorem wit_ColdBoot_reset : Memory.wf State.reset = true := by decide
theorem wit_ColdBoot_internal : ∃ s : State, s.power.life = .recovery ∧ s.sec.bootMode = 1 ∧ s.sec.recovered = true :=
  ⟨{ State.reset with power := { State.reset.power with life := .recovery }, sec := { State.reset.sec with bootMode := 1, recovered := true } }, rfl, rfl, rfl⟩
theorem wit_ColdBoot_modes : (booting 0 false).power.life = .booting ∧ (List.range 4).any (booting 0 false).liveKey = false ∧
    (List.range 4).any (booting 3 true).liveKey = true ∧ (booting 2 true).fuse 4 = false ∧ (booting 2 true 0x10).fuse 4 = true ∧ going.power.life ≠ .booting := by decide
/-- A golden image that runs needs signatures that verify (log entry 63); this one does not. -/
theorem wit_ColdBoot_slots : ∀ s, s = booting 0 true → s.updExamined = false ∧ s.slotState true ≠ 3 ∧ s.slotState true ≠ 4 ∧
    (s.examine (s.slotImage false)).result ≠ 0 := by intro s h; subst h; decide +kernel
theorem wit_ColdBoot_tries : (booting 0 true).sec.mpTries < 2 ∧ 2 ≤ ({ State.reset with sec := { State.reset.sec with mpTries := 2 } } : State).sec.mpTries := by decide

/-- A part that runs, the host's tunnel up. -/
def hostGoing : State := going.setReg (rid .usb4Link) 4
theorem wit_DeepSleep_enters : (0x5EE90001 : BitVec 32).toNat / 65536 = 0x5EE9 ∧ (0x5EE90001 : BitVec 32).getLsbD 0 = true ∧ hostGoing.hostUp = true ∧
    hostGoing.anyAdmitted = false ∧ hostGoing.sec.upd = .none ∧ hostGoing.fwRuns 0 = true ∧ hostGoing.sec.revokedNow = false ∧ hostGoing.debugOpen = false ∧
    bit (hostGoing.reg (rid .secStatus)) 12 = false ∧ bit (hostGoing.reg (rid .secStatus)) 13 = false ∧ (held0 1).anyAdmitted = true ∧
    (going.put (rid .pwrFw 0) 0 2 1).fwRuns 0 = false := by decide
/-- A part in deep sleep, its slots and its backup rig without content, before its retention block is written. -/
def sleepy : State :=
  let s : State := { State.reset with power := { State.reset.power with life := .deepSleep }, sec := { State.reset.sec with
    flash := ((List.range 20).map fun i => (0x10000 + i, 0)) ++ ((List.range 20).map fun i => (0x410000 + i, 0)), runDigest := sha384 [] } }
  (List.range 12).foldl (fun s w => s.setReg (rid .admRigDigest w) ((leWord (sha384 []) w).setWidth 64)) s
def slept : State := sleepy.writeRetention
theorem sleepy_may : (sleepy.sec.upd = .none ∧ sleepy.sec.revokedNow = false) ∧ sleepy.debugOpen = false ∧
    bit (sleepy.reg (rid .secStatus)) 12 = false ∧ bit (sleepy.reg (rid .secStatus)) 13 = false := by decide +kernel
theorem reset_retention (s : State) : (s.resetPart true 2).sec.retention = s.sec.retention := by
  have h : ∀ (s : State) (r : RegId) (v : BitVec 64), (s.setReg r v).sec = s.sec := fun _ _ _ => rfl
  simp only [State.resetPart, State.showSec, State.showSlotState, State.keptSec, State.put, h, if_true]
theorem body_length (s : State) : s.retentionBody.length = 0xFD0 := by simp only [State.retentionBody, State.fit, List.length_map, List.length_range]
theorem slept_block : (slept.resetPart true 2).sec.retention = sleepy.retentionBody ++ sha384 sleepy.retentionBody := by
  have h := sleepy_may
  rw [reset_retention]
  simp [slept, State.writeRetention, h.1.1, h.1.2, h.2.1, h.2.2.1, h.2.2.2]
theorem slept_checks : ∀ t b, t = slept.resetPart true 2 → b = t.sec.retention → b.take 4 = [0x4C, 0x52, 0x45, 0x54] ∧
    leAt b 9 1 = t.sec.bootMode.toNat + 4 * State.bitOf t.sec.forceGolden ∧ leAt b 0x80 8 = t.sec.svn.toNat ∧ leAt b 0x88 1 = t.sec.revoke.toNat ∧
    t.slotDigest (decide (leAt b 8 1 = 1)) = sliceAt b 0x10 48 ∧ rigDigest t.backupRig = sliceAt b 0x40 48 := by
  intro t b ht hb; subst hb; subst ht; decide +kernel
theorem wit_DeepSleep_fast : slept.power.life = .deepSleep ∧ (slept.resetPart true 2).fastOk = true := by
  have hb := body_length sleepy
  have c := slept_checks (slept.resetPart true 2) (slept.resetPart true 2).sec.retention rfl rfl
  refine ⟨rfl, ?_⟩
  simp only [State.fastOk, Bool.and_eq_true, decide_eq_true_eq]
  refine ⟨⟨⟨⟨⟨?_, c.1, ?_⟩, c.2.1⟩, c.2.2.1, c.2.2.2.1⟩, c.2.2.2.2.1⟩, c.2.2.2.2.2⟩
  · rw [slept_block, List.length_append, hb, sha384_length]
  · rw [slept_block, List.drop_left' hb, List.take_left' hb]
theorem wit_DeepSleep_slow : State.fastOk (State.resetPart { State.reset with power := { State.reset.power with life := .deepSleep } } true 2) = false := by decide +kernel

/-- The host asks for `cmd` in update state `u`. -/
def mailbox (cmd : Nat) (u : UpdState) (policy : BitVec 16 := 0) : State :=
  ((({ hostGoing with sec := { State.reset.sec with upd := u, policy := policy } } : State).setReg (rid .secUpdReq 0) (BitVec.ofNat 64 cmd)).setReg
    (rid .secUpdReq 1) 0x11200000).setReg (rid .secUpdReq 3) 20
theorem wit_FirmwareUpdate_mailbox : ∀ c ∈ updateCommands, ∀ u ∈ [UpdState.none, .staged, .activating, .trial], ∀ s, s = mailbox c.2 u → s.hostUp = true ∧
    s.updBusy = false ∧ s.updReq 0 % 256 = c.2 ∧ s.fwRuns 0 = true ∧ s.fuse 3 = false ∧ s.sec.upd = u := by
  rintro c hc u hu s rfl; revert u; revert c; decide
theorem wit_FirmwareUpdate_off : (mailbox 1 .none 8).fuse 3 = true ∧ ((mailbox 2 .none).put (rid .pwrFw 0) 0 2 1).fwRuns 0 = false ∧
    ((mailbox 2 .none).put (rid .secUpdStat) 4 1 1).updBusy = true ∧ (mailbox 2 .none).updReq 0 % 256 ≠ 1 ∧ (mailbox 2 .staged).emergency = false ∧
    ((mailbox 2 .staged).put (rid .pwrSupply) 0 1 1).emergency = true := by decide
/-- An image that is staged needs signatures that verify (log entry 63); this one is refused. -/
theorem wit_FirmwareUpdate_stage : ∀ s w b, s = mailbox 1 .none → w = (s.hostTouch.put (rid .secUpdStat) 4 1 1).beginStage.flashStore (State.slotBase true) (s.pkgBytes 0x11200000 20) →
    b = w.slotImage true → 0x11200000 = s.updReq 1 + 2 ^ 32 * (s.updReq 2 % 256) ∧ 20 = s.updReq 3 ∧
    (s.hostTouch.put (rid .secUpdStat) 4 1 1).beginStage.fetchStop 29 0x11200000 20 false = none ∧ s.chState 29 ≠ 2 ∧ (w.examine b).result ≠ 0 := by
  intro s w b hs hw hb; subst hb; subst hw; subst hs; decide +kernel
/-- An activation in hand, with the components replaced so far. -/
def activating (r : List Nat) (u : UpdState := .activating) : State :=
  { going with sec := { State.reset.sec with
    upd := u, replaced := r.map (fun p => (p, true)), stagedD := sha384 [], flash := (List.range 28).map fun i => (0x210000 + i, 0) } }
theorem wit_FirmwareUpdate_resume : ∀ t ∈ [249999999, 250000000], ∀ s, s = ({ activating [] .staged with gcnt := BitVec.ofNat 64 t, sec := { (activating [] .staged).sec with clearSince := some 0 } } : State).setDeferred true → s.sec.clearSince = some 0 ∧ s.deferred = true ∧
    s.sec.upd = .staged ∧ s.emergency = false ∧ s.fwRuns 0 = true ∧ s.now = t := by rintro t ht s rfl; revert t; decide
theorem wit_FirmwareUpdate_handoff : ∀ s, s = activating [] → s.sec.upd = .activating ∧ s.handedOff = false ∧ s.fwRuns 0 = true ∧ s.fwRuns 1 = true ∧
    s.atStep6 = true ∧ s.slotDigest true = s.sec.stagedD ∧ s.schemaRead = true ∧
    State.schemaRead { s with sec := { s.sec with runHo := 1 } } = false := by intro s h; subst h; decide +kernel
theorem wit_FirmwareUpdate_replace : ∀ s, s = activating [1] → s.sec.upd = .activating ∧ s.handedOff = true ∧ s.nextReplaced = some 2 ∧ s.fwRuns 2 = true ∧
    s.rig.queue = [] ∧ (∃ q, q ≠ 2 ∧ 2 ≤ q ∧ q < 3 + s.part.masts ∧ SMap.get false s.sec.replaced q = false) := by
  rintro s rfl; exact ⟨by decide, by decide, by decide, by decide, by decide, 3, by decide⟩
theorem wit_FirmwareUpdate_last : ∀ s, s = activating [1, 2, 3, 4, 5, 6, 7, 8] → s.handedOff = true ∧ s.nextReplaced = some 9 ∧ s.fwRuns 9 = true ∧
    s.part.masts + 2 = 9 ∧ s.schemaRead = true ∧ (∀ q, q < 9 → 2 ≤ q → SMap.get false s.sec.replaced q = true) ∧ s.nextReplaced ≠ some 2 := by rintro s rfl; decide
theorem wit_FirmwareUpdate_trial : ∀ s, s = ({ activating [] .trial with gcnt := 30000000000 } : State) → s.sec.upd = .trial ∧ s.sec.trialAt + 30000000000 ≤ s.now ∧
    ({ s with gcnt := 29999999999 } : State).now < s.sec.trialAt + 30000000000 := by rintro s rfl; decide

/-! ### Witnesses: fuses, reports, health, numbers -/

/-- A fuse request at the media area: operation `op` on owner slot `k`; the rest of it, and the nonce, are zero. -/
def fuseBytes (op k : Nat) : List Byte := fields [(4, 0x53554648), (1, 1), (1, op), (1, k)]
def fusing (op k : Nat) (keys : SMap (List Byte) := []) : State :=
  ({ hostGoing with sec := { State.reset.sec with keyHash := keys } } : State).poke 0x11200000 (fuseBytes op k) |>.setReg (rid .secFuseAddr) 0x11200000
theorem wit_FusesAndReports_idle : ∀ s u, s = fusing 1 0 → u = s.hostTouch → s.hostUp = true ∧ u.fuseBusy = false ∧ u.fwRuns 0 = true ∧
    0x11200000 = u.get (rid .secFuseAddr) 0 40 ∧ u.fetchStop 29 0x11200000 3248 false = none ∧ (s.put (rid .secFuseStat) 0 1 1).fuseBusy = true ∧
    State.reset.hostUp = false := by intro s u h h'; subst h'; subst h; decide +kernel
/-- What a request for owner slot 3 is served in, and its bytes: to program it, or to revoke it. -/
def served (op : Nat) : State := (fusing op 3 (if op = 1 then [] else [(6, [1]), (7, [1])])).hostTouch
def asked (op : Nat) : List Byte := (served op).pkgBytes 0x11200000 3248
/-- A request that is accepted needs signatures that verify (log entry 63): its shape and its slot are as they must be. -/
theorem wit_FusesAndReports_shape : ∀ op ∈ [1, 2], (served op).fuseShape (asked op) = true ∧ leAt (asked op) 5 1 = op ∧ 4 + leAt (asked op) 6 1 = 7 ∧
    (served op).programmed 7 = decide (op = 2) ∧ (served op).sec.revoke.getLsbD 7 = false ∧
    (op = 2 → ∃ j ∈ List.range 4, 4 + j ≠ 7 ∧ (served op).liveKey (4 + j) = true) := by decide +kernel
theorem wit_FusesAndReports_refused : ∀ s u, s = fusing 3 0 → u = s.hostTouch → u.fuseShape (u.pkgBytes 0x11200000 3248) = false := by
  intro s u h h'; subst h'; subst h; decide +kernel
theorem wit_FusesAndReports_report : ∀ s u, s = (hostGoing.setReg (rid .secAttDst) 0x11200000).setReg (rid .secAttCap) 5796 → u = s.hostTouch → u.attBusy = false ∧
    u.fwRuns 0 = true ∧ u.debugOpen = false ∧ u.daxaLen = 5796 ∧ u.daxaLen ≤ u.get (rid .secAttCap) 0 16 ∧
    u.fetchStop 29 (u.get (rid .secAttDst) 0 40) u.daxaLen true = none ∧ u.sec.lastNonce ≠ u.attNonce ∧ u.sec.hssNext < 1048576 ∧
    regionOf (u.get (rid .secAttDst) 0 40) = .stay 0x1200000 ∧ (s.setReg (rid .secAttCap) 5795).get (rid .secAttCap) 0 16 < u.daxaLen ∧
    (s.put (rid .secStatus) 14 1 1).debugOpen = true := by intro s u h h'; subst h'; subst h; decide +kernel

theorem wit_HeatAndSupply : going.hasDie 7 = true ∧ going.hasDie 6 = true ∧ going.hasDie 8 = false ∧ going.awake = true ∧ going.get (rid .pwrSupply) 0 1 = 0 ∧
    (going.setReg (rid .pwrSupply) 1).get (rid .pwrSupply) 0 1 = 1 ∧ (864 : BitVec 12).toInt = 864 ∧ (0xFFF : BitVec 12).toInt < 720 ∧
    State.awake { going with power := { going.power with life := .tripped } } = false ∧ hostGoing.hostUp = true ∧ hostGoing.emergency = false ∧
    (hostGoing.setReg (rid .pwrSupply) 1).emergency = true := by decide
theorem wit_FirmwareHealth_crash : ∀ p ∈ [0, 1, 2, 9], SMap.get 0 going.power.wdog p ≤ going.now ∧ p ∈ going.processors ∧ going.fwRuns p = true ∧
    going.power.life = .running ∧ going.crashRolls p = false ∧ going.rig.queue = [] ∧
    ((SMap.get [] going.power.crashes p).filter fun at_ => decide (going.now < at_ + 60000000000)).length < 2 := by decide
theorem wit_FirmwareHealth_third : ∀ s, s = { going with power := { going.power with crashes := [(2, [0, 1])], wdog := [(2, 5)] } } →
    2 ≤ ((SMap.get [] s.power.crashes 2).filter fun at_ => decide (s.now < at_ + 60000000000)).length ∧ s.now < SMap.get 0 s.power.wdog 2 := by rintro s rfl; decide
theorem wit_FirmwareHealth_restart : ∀ p ∈ [0, 1, 2, 9], ∀ s, s = going.put (rid .pwrFw p) 0 2 1 → p ∈ s.processors ∧ s.get (rid .pwrFw p) 0 2 = 1 ∧
    (p = 0 ∨ s.fwRuns 0 = true) ∧ s.rig.queue = [] ∧ s.updBusy = false ∧ s.fuseBusy = false ∧ s.attBusy = false ∧ s.power.restore = false ∧
    s.up p = false ∧ going.up p = true ∧ 10 ∉ s.processors := by rintro p hp s rfl; revert p; decide
theorem wit_FirmwareHealth_out : ∀ u ∈ [0, 55, 56, 62, 64, 71], ∀ s, s = { going with power := { going.power with outPending := [u] } } →
    s.power.outPending.contains u = true ∧ s.unitIn u = true ∧ s.fwRuns 1 = true ∧ s.atStep6 = true ∧ s.power.outPending.contains 63 = false := by
  rintro u hu s rfl; revert u; decide

theorem wit_PartialsExact : (-128 : Int) ≤ -128 ∧ (127 : Int) ≤ 127 ∧ (∀ x ∈ [(-128 : Int), 127], -128 ≤ x ∧ x ≤ 127) ∧ [(-128 : Int), 127].length ≤ 128 ∧
    partialSum [-128] [-128] = 16384 ∧ partialSum [-128] [127] = -16256 := by decide
theorem wit_BoomFinite : (-2097152 : Int).natAbs ≤ 2 ^ 21 ∧ Fp.isFinite 0x7F7FFFFF = true ∧ Fp.isFinite 0x80000000 = true ∧ ([1, 2] : List Int) ≠ [] := by decide
theorem wit_StorageLayout : ∀ t : Tensor, t = { (default : Tensor) with dims := [33, 32] } → 32 < t.dims.getD 0 1 ∧ 31 < t.dims.getD 1 1 ∧
    t.tileIdx 32 31 = 1024 + 31 ∧ t.tileIdx 0 0 = 0 := by rintro t rfl; decide


/-! ### Single steps: values from the spec's tables -/

/-- A property of the state that a command answers. -/
def after (o : Host.Outcome State Fault Refusal) (f : State → Bool) : Bool := match o with
  | .next t => f t
  | _ => false
/-- Program 0 issues, with sc[1] and sc[2]. -/
def with12 (a b : Word) : State := run1 { live with regs := { sc := [(1, a), (2, b)] } }
def sc3 (i : Instr) (a b : Word) : Word := match exec i (with12 a b) with
  | .next t => (t.regsOf 0).getSc 3
  | _ => 0xDEAD

/-- Table 7.12: add wraps at 32 bits; a shift takes bits [4:0] of its second operand; min is signed. -/
theorem test_add_wraps : sc3 (.add 0 g0 3 1 (.reg 2)) 0xFFFFFFFF 2 = 1 := by decide
theorem test_sub_order : sc3 (.sub 0 g0 3 1 (.reg 2)) 5 7 = 0xFFFFFFFE := by decide
theorem test_shl_by_33 : sc3 (.shl 0 g0 3 1 (.imm 33)) 5 0 = 10 := by decide
theorem test_sra_sign : sc3 (.sra 0 g0 3 1 (.imm 4)) 0x80000000 0 = 0xF8000000 := by decide
theorem test_min_signed : sc3 (.min 0 g0 3 1 (.reg 2)) 0xFFFFFFFF 1 = 0xFFFFFFFF := by decide
/-- 1.5 + 2.25 = 3.75. -/
theorem test_fadd : sc3 (.fAdd 0 g0 3 1 (.reg 2)) 0x3FC00000 0x40100000 = 0x40700000 := by decide
/-- R185: a predicate that is off leaves the destination. -/
theorem test_predicate_off : after (exec (.li 0 ⟨1, false⟩ 3 9) (with12 0 0)) (fun t => decide ((t.regsOf 0).getSc 3 = 0)) = true := by decide
/-- Table 7.14: 0xFFFFFFFF is below 1 as a signed number only. -/
theorem test_cmp_lt : after (exec (.cmp 0 g0 3 .lt 1 (.reg 2)) (with12 0xFFFFFFFF 1)) (fun t => (t.regsOf 0).getPd 3) = true := by decide
theorem test_cmp_ltu : after (exec (.cmp 0 g0 3 .ltu 1 (.reg 2)) (with12 0xFFFFFFFF 1)) (fun t => !(t.regsOf 0).getPd 3) = true := by decide
/-- R71: INT8 rounds half to even and is held in its range. -/
theorem test_quantise : (quantise 0x40200000 0 []).1 = 2 ∧ (quantise 0x40600000 0 []).1 = 4 ∧ (quantise 0x43000000 0 []).1 = 127 ∧
    (quantise 0xC3010000 0 []).1 = 0x80 := by decide
/-- R7: ID_DEVICE of the part, and ID_CONFIG of a Q8 of grade C. -/
theorem test_id : after (exec (.lowWordRead .host 0) hostOn) (fun t => decide (t.queue.readData = 0x0A510101)) = true ∧
    after (exec (.lowWordRead .host 4) hostOn) (fun t => decide (t.queue.readData % 8 = 7)) = true := by decide +kernel
/-- R417, R418: 92 °C warns, 98 °C is the emergency, 108 °C trips. -/
theorem test_heat : after (exec (.thermalSample 7 736) going) (fun t => !t.emergency && bit (t.reg (rid .pwrTherm 7)) 12) = true ∧
    after (exec (.thermalSample 7 784) going) (fun t => t.emergency && decide (t.power.life = .running)) = true ∧
    after (exec (.thermalSample 7 864) going) (fun t => decide (t.power.life = .tripped)) = true := by decide
/-- FIPS 180-4: SHA-384 of "abc" begins CB 00 75 3F and ends 34 C8 25 A7. -/
theorem test_sha384 : (sha384 [0x61, 0x62, 0x63]).take 4 = [0xCB, 0x00, 0x75, 0x3F] ∧ (sha384 [0x61, 0x62, 0x63]).drop 44 = [0x34, 0xC8, 0x25, 0xA7] := by decide +kernel

/-! ### Code words, written out from Tables 7.12 to 7.16 -/

/-- Scalar add: sc[3] := sc[1] + 7. -/
theorem test_code_add : decodeFenja 5 0x00000000_00000007_00008023_00000030 = some (.add 5 g0 3 1 (.imm 7)) := by decide
/-- cmp pd2 := sc[1] < sc[2]. -/
theorem test_code_cmp : decodeFenja 0 0x00000000_00000000_00000822_00020180 = some (.cmp 0 g0 2 .lt 1 (.reg 2)) := by decide
/-- br.eq sc[1], 0, two back, bound 1, expected taken, when pd3 is 0. -/
theorem test_code_br : decodeFenja 0 0x000FFFFE_00000000_00010C01_00002C11 = some (.brEq 0 ⟨3, true⟩ 1 (.imm 0) ⟨-2, true, 1⟩) := by decide
/-- mm.w4a8 of dst 5 (ad2), a 6, b 7, bias 8, 16 slices, record 9. -/
theorem test_code_mm : decodeFenja 0 0x00090010_00080007_00062005_00010012 =
    some (.mmW4a8 0 g0 ⟨⟨5, 2⟩, ⟨6, 0⟩, ⟨7, 0⟩, ⟨8, 0⟩, true, 16, 9⟩) := by decide
/-- red.max of a 6 into sc[4] over axes 0 and 2. -/
theorem test_code_red : decodeFenja 0 0x00000001_00000000_00060004_00510025 =
    some (.redMax 0 g0 ⟨⟨4, 0⟩, ⟨6, 0⟩, ⟨0, 0⟩, .scalar 4, 0, 5, false, 1⟩) := by decide
/-- vop.sel where a ≥ b. -/
theorem test_code_sel : decodeFenja 0 0x00000001_00040003_00020001_00060076 =
    some (.vopSel 0 g0 .ge ⟨⟨1, 0⟩, ⟨2, 0⟩, ⟨3, 0⟩, ⟨4, 0⟩, none, 1, 0⟩) := by decide
/-- mv.strm of 2 into 1, planar to interleaved of 4 channels, tapped, flag 1,023. -/
theorem test_code_strm : decodeFenja 0 0x00000001_000003FF_00020001_021B0007 = some (.mvStrm 0 g0 ⟨1, 0⟩ ⟨2, 0⟩ 1 3 3 true 1023) := by decide
/-- flag.wait of package flag 255 for 2, bound 100; tick.end. -/
theorem test_code_flag : decodeFenja 0 0x00000064_00000002_000000FF_00010018 = some (.flagWait 0 g0 true 255 2 100) ∧
    decodeFenja 0 9 = some (.tickEnd 0 g0) := by decide
/-- sail.run on sail 2 of virtual yard 3: c4, atype 1, flip, first, operand 6, 10 vectors from entry 511. -/
theorem test_code_run : decodeFenja 0 0x00000000_01FF0009_00060083_0056000A =
    some (.sailRun 0 g0 ⟨3, 2⟩ .c4 1 true false true ⟨6, 0⟩ 9 511) := by decide
/-- Class 11, and an op that its class does not have. -/
theorem test_code_none : decodeFenja 0 0xB = none ∧ decodeFenja 0 0xE0 = none ∧ decodeFenja 0 0x4A = none := by decide

end Sys2Proof.Tests
end

section
/-! SUPPORT. Register accesses (R11, R12, R15, R16): whose accesses reach the registers, the latches and holding registers of the requesters,
and what a read and a write by access code leave; then the statements on canonical form, reset and register access. -/

namespace Sys2Proof.Machine

/-! ### Canonical form -/

section Canonical
variable {ks : List Kind} {s t : State}

/-- What an operation keeps has canonical memory where it had. -/
theorem Keeps.memory_wf (h : Keeps ks s t) (hm : Memory.wf s = true) : Memory.wf t = true := by
  obtain ⟨hmem, hecc⟩ := Bool.and_eq_true_iff.mp hm
  exact Bool.and_eq_true_iff.mpr ⟨h.mem hmem, h.ecc hecc⟩

/-- What an operation keeps has canonical registers where it had. -/
theorem Keeps.registers_wf (h : Keeps ks s t) (hr : Registers.wf s = true) : Registers.wf t = true := h.regs hr

end Canonical

/-- Settles O4: a step changes the sparse contents through operations that keep them canonical (`step_keeps`), and the queue, in which `t` may
differ, is no part of the canonical form. -/
theorem stepKeepsCanonical : Obligations.StepKeepsCanonical := by
  unfold Obligations.StepKeepsCanonical
  intro s t hm hr hstep
  obtain ⟨ks, hk, -, -⟩ := step_keeps hstep
  have hmem : Memory.wf { t with pending := s.pending } = true := hk.memory_wf hm
  have hregs : Registers.wf { t with pending := s.pending } = true := hk.registers_wf hr
  exact ⟨hmem, hregs, hk.part⟩

/-! ### Reset (R14) -/

/-- Nothing is listed at reset, so every register reads its reset value. -/
@[simp] theorem State.reg_reset (r : RegId) : State.reset.reg r = resetVal State.reset.part r := BitVec.zero_xor

/-- ADM_PROGn_A reads 0 at reset: no number has a program. -/
theorem State.admitted_reset (p : Nat) : State.reset.admitted p = false := by
  have hstate : State.reset.progState p = 0 := by
    have hreg : State.reset.reg (rid .admProgA p) = 0 := State.reg_reset _
    simp [State.progState, State.get, hreg, fld]
  simp [State.admitted, hstate]

theorem State.anyAdmitted_reset : State.reset.anyAdmitted = false := by
  have hnone : State.reset.admittedList = [] := List.filter_eq_nil_iff.mpr fun p _ => by simp [State.admitted_reset]
  simp [State.anyAdmitted, hnone]

/-- PWR_FWp.state reads 0, running, at reset. -/
theorem State.fwRuns_reset (p : Nat) : State.reset.fwRuns p = true := by
  have hreg : State.reset.reg (rid .pwrFw p) = 0 := State.reg_reset _
  simp [State.fwRuns, State.get, hreg, fld]

/-- Settles O3: the tables are empty, and each register is stored as its difference from its reset value; where the tables give none, the zero
is the choice of log entry 5. -/
theorem resetValues : Obligations.ResetValues := by
  unfold Obligations.ResetValues
  exact ⟨rfl, State.anyAdmitted_reset, rfl, rfl, rfl, rfl, State.fwRuns_reset 1, State.reg_reset, rfl, rfl⟩

end Sys2Proof.Machine

namespace Sys2Proof

theorem Requester.code_inj {p q : Requester} (h : p.code = q.code) : p = q := by
  cases p <;> cases q <;> simp [Requester.code] at h ⊢ <;> omega

end Sys2Proof

namespace Sys2Proof.Machine

/-! ### Latches and holding registers (R15, R16) -/

/-- Two requesters never share a latch or a holding register. -/
theorem holdKey_ne {p q : Requester} (h : p ≠ q) (a b : Nat) : holdKey p a ≠ holdKey q b :=
  fun e => h (Requester.code_inj (key2_inj e).1)

namespace State

section
variable (s : State) (rq : Requester) (off : Nat)

@[simp] theorem latched_setLatched_same (v : BitVec 32) : (s.setLatched rq off v).latched rq off = v := SMap.get_set_same ..

theorem latched_setLatched_ne {q : Requester} (v : BitVec 32) (h : q ≠ rq) (o : Nat) : (s.setLatched rq off v).latched q o = s.latched q o :=
  SMap.get_set_ne _ _ (holdKey_ne h o off)

@[simp] theorem held_setHeld_same (v : Option (BitVec 32)) : (s.setHeld rq off v).held rq off = v := SMap.get_set_same ..

theorem held_setHeld_ne {q : Requester} (v : Option (BitVec 32)) (h : q ≠ rq) (o : Nat) : (s.setHeld rq off v).held q o = s.held q o :=
  SMap.get_set_ne _ _ (holdKey_ne h o off)

end

/-! ### Whose accesses reach the registers -/

section
variable {rq : Requester} {s u : State}

/-- An access that reaches the registers acts on the state in which it does. -/
theorem viaAny_of_enters (h : Enters rq s u) (f : State → State) : s.viaAny rq f = f u := by
  cases rq with
  | host => obtain ⟨hup, rfl⟩ := h; simp [viaAny, viaHost, hup]
  | mp | sp | tp => obtain ⟨hup, rfl⟩ := h; simp [viaAny, hup]
  | ms m => obtain ⟨hup, rfl⟩ := h; simp [viaAny, hup]

/-- One that does not changes nothing. -/
theorem viaAny_of_away (h : ∀ u, ¬ Enters rq s u) (f : State → State) : s.viaAny rq f = s := by
  cases rq with
  | host => exact if_neg fun hup => h _ ⟨hup, rfl⟩
  | mp | sp | tp => exact if_neg fun hup => h _ ⟨hup, rfl⟩
  | ms m => exact if_neg fun hup => h _ ⟨hup, rfl⟩

/-- Reaching the registers writes no memory: the host's access wakes its link at most. -/
theorem byte_of_enters (h : Enters rq s u) (a : Nat) : u.byte a = s.byte a := by
  refine State.byte_congr ?_ a
  cases rq <;> obtain ⟨-, rfl⟩ := h <;> rfl

end

/-! ### Reads (R15) -/

section
variable {s : State} {r : RegId} {off : Nat} (rq : Requester)

/-- A read of the low word returns it and latches the high word for its requester. -/
theorem readAt_low (hr : regAt off = some (r, 0)) (hb : r.name.desc.bytes = 8) (hs : specialAt off = none) (ha : s.answers r = true) :
    s.readAt rq off = { s with queue := { s.queue with readData := (s.view r).setWidth 32 } }.setLatched rq off ((s.view r >>> 32).setWidth 32) := by
  have hname : r.name ≠ .strmStatus := fun e => by rw [e] at hb; exact absurd hb (by decide)
  simp [readAt, readWord, hs, hr, ha, hb, hname]

/-- A read of the high word returns what its requester has latched. -/
theorem readAt_high (hr : regAt (off + 4) = some (r, 1)) (hs : specialAt (off + 4) = none) (ha : s.answers r = true) :
    s.readAt rq (off + 4) = { s with queue := { s.queue with readData := s.latched rq off } } := by
  simp [readAt, readWord, hs, hr, ha]

/-- A read of an offset that holds no register returns zero. -/
theorem readAt_nowhere (hr : regAt off = none) (hs : specialAt off = none) :
    s.readAt rq off = { s with queue := { s.queue with readData := 0 } } := by
  simp [readAt, readWord, hs, hr]

end

/-! ### Writes by access code (R11, R12, Table 0.5) -/

/-- Bits set to those of `v` under a mask `m`, and then cleared under a mask `c`. -/
theorem getLsbD_set_clear {w : Nat} (old v m c : BitVec w) (n : Nat) : (((old &&& ~~~m) ||| (v &&& m)) &&& ~~~c).getLsbD n =
    if c.getLsbD n then false else if m.getLsbD n then v.getLsbD n else old.getLsbD n := by
  by_cases hn : n < w
  · simp only [BitVec.getLsbD_and, BitVec.getLsbD_or, BitVec.getLsbD_not, hn, decide_true, Bool.true_and]
    cases c.getLsbD n <;> cases m.getLsbD n <;> simp
  · simp [BitVec.getLsbD_of_ge _ n (Nat.le_of_not_lt hn)]

section
variable (s : State) (rq : Requester) (r : RegId)

/-- Each bit of a register after a write: cleared where it is W1C, written as 1 and not set by hardware in this nanosecond; else the value
written where the requester may set it; else as it was. -/
theorem bit_codeWrite (v : BitVec 64) (n : Nat) : bit ((s.codeWrite rq r v).reg r) n =
    if s.w1cOk rq r && (BitVec.ofNat 64 r.name.desc.w1c).getLsbD n && v.getLsbD n && bit (s.regWas r) n then false
    else if (s.setMask rq r v).getLsbD n then v.getLsbD n else bit (s.reg r) n := by
  unfold codeWrite
  rw [reg_setReg_same, bit, getLsbD_set_clear]
  cases s.w1cOk rq r <;> simp [bit]

/-- A write by access code changes its register and nothing else. -/
theorem codeWrite_onlyRegs (v : BitVec 64) : OnlyRegs s (s.codeWrite rq r v) [r] where
  outside := (codeWrite_keeps (Keeps.refl [.regs] s) (Kind.Sub.refl _)).outside
  others _ hq := reg_setReg_ne s _ (List.ne_of_not_mem_cons hq)

/-- A register that no command stands for has no effect of its own beside its access codes. -/
theorem trigger_of_not_ownRows (v : BitVec 32) (h : r.name ∉ ownRows) : s.trigger rq r v = s := by
  unfold trigger
  split
  on_goal 24 => rfl
  all_goals next hname => exact absurd (by rw [hname]; decide) h

end

section
variable {s : State} {rq : Requester} {r : RegId} {off : Nat}

theorem lowWrite_of_mayHold (v : BitVec 32) (h : s.mayHold rq r = true) : s.lowWrite rq r off v = s.setHeld rq off (some v) := if_pos h

theorem lowWrite_of_not_mayHold (v : BitVec 32) (h : s.mayHold rq r = false) : s.lowWrite rq r off v = s := by simp [lowWrite, h]

theorem highWrite_of_mayHold (v : BitVec 32) (h : s.mayHold rq r = true) (hr : r.name ≠ .dattUpdEntry) :
    s.highWrite rq r off v = (s.codeWrite rq r (v ++ (s.held rq off).getD ((s.reg r).setWidth 32))).setHeld rq off none := by
  simp [highWrite, h, hr]

theorem highWrite_of_not_mayHold (v : BitVec 32) (h : s.mayHold rq r = false) : s.highWrite rq r off v = s := by simp [highWrite, h]

/-- A write of a 32-bit register that no command stands for is a write by access code. -/
theorem writeAt_of_narrow (v : BitVec 32) (hr : regAt off = some (r, 0)) (hs : specialAt off = none) (hb : r.name.desc.bytes ≠ 8)
    (hrow : r.name ∉ ownRows) (ha : s.answers r = true) : s.writeAt rq off v = s.codeWrite rq r (v.setWidth 64) := by
  simp [writeAt, hs, hr, ha, hb, trigger_of_not_ownRows _ rq r v hrow]

theorem writeAt_nowhere (v : BitVec 32) (hr : regAt off = none) (hs : specialAt off = none) : s.writeAt rq off v = s := by
  simp [writeAt, hs, hr]

end
end State

/-! ### The commands that access registers -/

section
variable {rq : Requester} {s u : State} {r : RegId} {off : Nat}

theorem exec_lowWordRead (h : Enters rq s u) : exec (.lowWordRead rq off) s = .next (u.readAt rq off) :=
  congrArg Host.Outcome.next (State.viaAny_of_enters h _)

theorem exec_registerWrite (v : BitVec 32) (h : Enters rq s u) : exec (.registerWrite rq off v) s = .next (u.writeAt rq off v) :=
  congrArg Host.Outcome.next (State.viaAny_of_enters h _)

theorem exec_lowWordWrite (v : BitVec 32) (h : Enters rq s u) (hr : regAt off = some (r, 0)) :
    exec (.lowWordWrite rq off v) s = .next (u.lowWrite rq r off v) := by
  have hgo : exec (.lowWordWrite rq off v) s = .next (s.viaAny rq _) := rfl
  rw [hgo, State.viaAny_of_enters h]
  simp only [hr]

theorem exec_highWordWrite (v : BitVec 32) (h : Enters rq s u) (hr : regAt (off + 4) = some (r, 1)) :
    exec (.highWordWrite rq (off + 4) v) s = .next (u.highWrite rq r off v) := by
  have hgo : exec (.highWordWrite rq (off + 4) v) s = .next (s.viaAny rq _) := rfl
  rw [hgo, State.viaAny_of_enters h]
  simp only [hr, Nat.add_sub_cancel]

/-- An access that does not reach the registers changes nothing. -/
theorem exec_access_of_away (v : BitVec 32) (h : ∀ u, ¬ Enters rq s u) :
    exec (.registerWrite rq off v) s = .next s ∧ exec (.lowWordRead rq off) s = .next s ∧
      exec (.lowWordWrite rq off v) s = .next s ∧ exec (.highWordWrite rq off v) s = .next s := by
  have hgo (f : State → State) : Host.Outcome.next (s.viaAny rq f) = (.next s : Host.Outcome State Fault Refusal) := by
    rw [State.viaAny_of_away h]
  exact ⟨hgo _, hgo _, hgo _, hgo _⟩

end

/-- Settles O36: a read is `readAt_low` or `readAt_high`, a write `lowWrite` or `highWrite`, and the keys of two requesters' latches and holding
registers are never one (`holdKey_ne`). -/
theorem wideRegisters : Obligations.WideRegisters := by
  unfold Obligations.WideRegisters
  intro rq off r s u hin hlow hhigh hwide
  have hbyte : ∀ a, u.byte a = s.byte a := State.byte_of_enters hin
  refine ⟨fun hs ha => ?readLow, fun hs ha => ?readHigh, rfl, rfl, fun v hmay => ?writeLow, fun v low hmay hname hheld => ?writeHigh,
    fun v hmay => ?refused⟩
  case readLow =>
    refine ⟨_, exec_lowWordRead hin, ?_⟩
    rw [State.readAt_low rq hlow hwide hs ha]
    exact ⟨rfl, State.latched_setLatched_same .., fun q o hq => State.latched_setLatched_ne _ _ _ _ hq o, fun _ => rfl, hbyte⟩
  case readHigh =>
    refine ⟨_, exec_lowWordRead hin, ?_⟩
    rw [State.readAt_high rq hhigh hs ha]
    exact ⟨rfl, fun _ _ => rfl, fun _ => rfl⟩
  case writeLow =>
    refine ⟨_, exec_lowWordWrite v hin hlow, ?_⟩
    rw [State.lowWrite_of_mayHold v hmay]
    exact ⟨State.held_setHeld_same .., fun q o hq => State.held_setHeld_ne _ _ _ _ hq o, fun _ => rfl, hbyte⟩
  case writeHigh =>
    refine ⟨_, exec_highWordWrite v hin hhigh, ?_⟩
    rw [State.highWrite_of_mayHold v hmay hname, ← hheld]
    refine ⟨State.held_setHeld_same .., fun q o hq => ?_, fun q hq => State.reg_setReg_ne u _ hq, State.bit_codeWrite u rq r _⟩
    exact State.held_setHeld_ne (u.codeWrite rq r (v ++ low)) _ _ _ hq o
  case refused =>
    rw [exec_lowWordWrite v hin hlow, exec_highWordWrite v hin hhigh, State.lowWrite_of_not_mayHold v hmay,
      State.highWrite_of_not_mayHold v hmay]
    exact ⟨rfl, rfl⟩

/-- Settles O37: a register that no command stands for takes the write by its access codes, whose bits `State.bit_codeWrite` gives. -/
theorem registerWrites : Obligations.RegisterWrites := by
  unfold Obligations.RegisterWrites
  refine ⟨fun rq off v r s u hin hr hs hb hrow ha => ?narrow, fun rq off v s u hin hr hs => ?nowhere, fun rq off v s haway => ?away⟩
  case narrow =>
    refine ⟨_, exec_registerWrite v hin, ?_⟩
    rw [State.writeAt_of_narrow v hr hs hb hrow ha]
    refine ⟨State.codeWrite_onlyRegs u rq r _, fun n hn => ?_⟩
    have hv : (v.setWidth 64).getLsbD n = v.getLsbD n := by
      rw [BitVec.getLsbD_setWidth]; simp; omega
    rw [State.bit_codeWrite, hv]
  case nowhere =>
    rw [exec_registerWrite v hin, exec_lowWordRead hin, State.writeAt_nowhere v hr hs, State.readAt_nowhere rq hr hs]
    exact ⟨rfl, _, rfl, rfl⟩
  case away => exact exec_access_of_away v haway

end Sys2Proof.Machine
end

section
/-! SUPPORT. The timebase and the tick generator (R27 to R57): one-bit fields, what an event leaves of the registers, and what each command of
the timebase, of TICK_IN, of run and of the pulses does; then the statements on them. -/

namespace Sys2Proof.Machine

/-! ### One-bit fields -/

namespace State

section
variable (s : State) (r : RegId)

theorem get_one (n : Nat) : s.get r n 1 = if bit (s.reg r) n then 1 else 0 := fld_one _ _

theorem bit_put_one {n : Nat} (x : Nat) (h : n < 64) : bit ((s.put r n 1 x).reg r) n = decide (x % 2 = 1) := by
  rw [reg_put_same, bit_setFld_one _ _ h]

theorem bit_put_ne {lo w n : Nat} (x : Nat) (h : n < lo ∨ lo + w ≤ n) : bit ((s.put r lo w x).reg r) n = bit (s.reg r) n := by
  rw [reg_put_same, bit_setFld_ne _ _ h]

/-- An event leaves the fields of every register but its own two. -/
theorem get_raise (c d u h a b lo w : Nat) (h1 : r ≠ rid .evtLostCnt) (h2 : r ≠ rid .evtStat) :
    (s.raise c d u h a b).get r lo w = s.get r lo w := by
  unfold get
  rw [reg_raise _ _ _ _ _ _ _ h1 h2]

end
end State

/-- Writing a field changes that field and nothing else. -/
theorem SetsField.put (s : State) (r : RegId) {lo w x : Nat} (h : lo + w ≤ 64) (hx : x < 2 ^ w) : SetsField s (s.put r lo w x) r lo w x where
  only := ⟨(State.put_keeps (Keeps.refl [.regs] s) (Kind.Sub.refl _)).outside, fun _ hq => State.reg_put_ne s _ _ _ (List.ne_of_not_mem_cons hq)⟩
  value := (State.get_put_same s r x h).trans (Nat.mod_eq_of_lt hx)
  bits _ hn := State.bit_put_ne s r x hn

/-! ### The global counter (R27 to R30, R57, R59) -/

section
variable {ks : List Kind} {s t : State}

/-- An operation that cannot change the counter leaves it. -/
theorem Keeps.gcnt (h : Keeps ks s t) (hn : Kind.gcnt ∉ ks) : t.gcnt = s.gcnt := h.outside .gcnt hn

end

namespace State

theorem gcnt_cycleZero (s : State) : s.cycleZero.gcnt = s.gcnt := (cycleWork_keeps (Keeps.refl _ _) (Kind.Sub.refl _)).gcnt (by decide)

theorem gcnt_cycleTrail (s : State) : s.cycleTrail.gcnt = s.gcnt := (strmsStep_keeps (Keeps.refl _ _) (Kind.Sub.refl _)).gcnt (by decide)

/-- The next nanosecond counts, and nothing else in it changes the counter. -/
theorem gcnt_advance1 (s : State) : s.advance1.gcnt = s.count.gcnt := by
  unfold advance1
  dsimp only
  split
  · exact (clockWork_keeps (Keeps.refl _ s.count.snap) (Kind.Sub.refl _)).gcnt (by decide)
  · rfl

/-- What is still to come of the nanosecond in hand does not count. -/
theorem gcnt_nanosecond_within {s : State} (h : s.tick.fresh = true ∨ s.tick.trail = true ∧ s.strm.ticks ≠ []) :
    s.nanosecond.gcnt = s.gcnt := by
  unfold nanosecond
  split
  · exact gcnt_cycleZero s
  · next hf =>
    obtain ⟨ht, hs⟩ := h.resolve_left hf
    rw [if_pos (by simp [ht, hs])]
    exact gcnt_cycleTrail s

theorem nanosecond_advances {s : State} (hf : s.tick.fresh = false) (ht : s.tick.trail = false ∨ s.strm.ticks = []) :
    s.nanosecond = s.advance1 := by
  rcases ht with ht | ht <;> simp [nanosecond, hf, ht]

end State

/-- Settles O2: a step on an empty queue is `State.nanosecond`, of which only `State.count` touches the counter. -/
theorem idleNanosecond : Obligations.IdleNanosecond := by
  unfold Obligations.IdleNanosecond
  intro s hp
  have hstep : step s = .next s.nanosecond := by simp [step, hp]
  obtain ⟨_, hkeeps, -, -⟩ := step_keeps hstep
  refine ⟨_, hstep, hkeeps.part, State.gcnt_nanosecond_within, fun hf ht => ?_⟩
  rw [State.nanosecond_advances hf ht, State.gcnt_advance1]
  unfold State.count
  refine ⟨fun hoff => ?_, fun hon hmax => ?_, fun hon hmax => ?_⟩
  · rw [if_neg (by simp [hoff])]
  · rw [if_pos hon]; exact if_neg hmax
  · rw [if_pos hon]; exact if_pos hmax

section
variable (s : State)

/-- R57: the counter that stands at its largest value is reported. -/
theorem exec_gcntSaturated_first {s : State} (h : s.gcnt = BitVec.allOnes 64) (hb : bit (s.reg (rid .gcntStatus)) 0 = false) :
    exec .gcntSaturated s = .next ((s.put (rid .gcntStatus) 0 1 1).raise 0x0106 7 0xFF 0xFFFF 0 0) :=
  congrArg Host.Outcome.next (if_pos ⟨h, by simp [hb]⟩)

/-- R29: a mast's copy stands apart by what it was loaded with, and is aligned from then on. -/
theorem exec_counterAlignment_of_in {s : State} {m : Nat} (value loadAt : BitVec 64) (hin : s.mastIn m = true) (hon : s.timebase = true) :
    exec (.counterAlignment m value loadAt) s =
      .next { s with tick := { s.tick with mastOff := SMap.set 0 s.tick.mastOff m (value - loadAt)
                                           aligned := SMap.set false s.tick.aligned m true } } :=
  congrArg Host.Outcome.next (if_neg (by simp [hin, hon]))

/-- R59: the host's write latches the counter where bit 0 is set, and wakes the host's link. -/
theorem exec_gcntCapture_of_hostUp {s : State} (v : BitVec 32) (h : s.hostUp = true) :
    exec (.gcntCapture v) s = .next (if v.getLsbD 0 then s.hostTouch.setReg (rid .gcntCap) s.gcnt else s.hostTouch) :=
  congrArg Host.Outcome.next (if_pos h)

theorem exec_gcntCapture_of_hostDown {s : State} (v : BitVec 32) (h : s.hostUp = false) : exec (.gcntCapture v) s = .next s :=
  congrArg Host.Outcome.next (if_neg (by simp [h]))

/-- The host's access wakes its link and does nothing else. -/
theorem hostTouch_onlyRegs : OnlyRegs s s.hostTouch [rid .usb4Link] where
  outside := (State.put_keeps (Keeps.refl [.regs] s) (Kind.Sub.refl _)).outside
  others _ hq := State.reg_put_ne s _ _ _ (List.ne_of_not_mem_cons hq)

theorem OnlyRegs.refl (rs : List RegId) : OnlyRegs s s rs := ⟨fun k _ => k.same_refl s, fun _ _ => rfl⟩

/-- A register more. -/
theorem OnlyRegs.setReg {s t : State} {rs : List RegId} (h : OnlyRegs s t rs) (r : RegId) (v : BitVec 64) :
    OnlyRegs s (t.setReg r v) (rs ++ [r]) where
  outside k hk := Kind.same_trans (h.outside k hk) ((State.setReg_keeps (Keeps.refl [.regs] t) (Kind.Sub.refl _)).outside k hk)
  others q hq := by
    obtain ⟨hrs, hr⟩ := not_or.mp (mt List.mem_append.mpr hq)
    exact (State.reg_setReg_ne t v (List.ne_of_not_mem_cons hr)).trans (h.others q hrs)

end

/-- Settles O31: each command acts under its own condition and is no change without it. -/
theorem timebase : Obligations.Timebase := by
  unfold Obligations.Timebase
  refine ⟨fun s hoff hsleep htrip => ?locks, fun s h => ?locked, fun s hmax hb => ?saturates, fun s h => ?counts,
    fun m value loadAt s hin hon => ?aligns, fun m value loadAt s h => ?unaligned, fun v s hup hv => ?captures, fun v s h => ?ignored⟩
  case locks => exact congrArg Host.Outcome.next (if_neg (by simp [hoff, hsleep, htrip]))
  case locked => exact congrArg Host.Outcome.next (if_pos (by simpa [or_assoc] using h))
  case saturates =>
    refine ⟨_, exec_gcntSaturated_first hmax hb, ?_, rfl, State.gcnt_raise ..⟩
    rw [State.get_raise _ _ _ _ _ _ _ _ _ _ (by decide) (by decide)]
    exact State.get_put_same s _ 1 (by decide)
  case counts =>
    refine congrArg Host.Outcome.next (if_neg fun hc => ?_)
    obtain ⟨hmax, hb⟩ := hc
    rcases h with h | h
    · exact h hmax
    · simp [h] at hb
  case aligns =>
    exact ⟨_, exec_counterAlignment_of_in value loadAt hin hon, SMap.get_set_same s.tick.mastOff .., SMap.get_set_same (d := false) s.tick.aligned m true,
      fun k hk => SMap.get_set_ne s.tick.mastOff _ hk, (exec_keeps (exec_counterAlignment_of_in value loadAt hin hon)).outside⟩
  case unaligned => exact congrArg Host.Outcome.next (if_pos (by simpa using h))
  case captures =>
    refine ⟨_, exec_gcntCapture_of_hostUp v hup, ?_⟩
    rw [if_pos hv]
    exact ⟨State.reg_setReg_same .., (hostTouch_onlyRegs s).setReg _ _⟩
  case ignored =>
    by_cases hup : s.hostUp = true
    · have hv : v.getLsbD 0 = false := h.resolve_right (by simp [hup])
      refine ⟨_, exec_gcntCapture_of_hostUp v hup, ?_⟩
      rw [if_neg (by rw [hv]; decide)]
      exact hostTouch_onlyRegs s
    · exact ⟨s, exec_gcntCapture_of_hostDown v (by simpa using hup), OnlyRegs.refl s _⟩

end Sys2Proof.Machine
end

section
/-! SUPPORT. The tick generator between tick starts: edges on TICK_IN and their loss (R40, R43), run (R50), TICK_OUT and frame sync (R55, R56);
then the statements on them. -/

namespace Sys2Proof.Machine

namespace State

/-! ### What the generator's own state leaves -/

section
variable (s : State) (k : TickSt) (r : RegId)

@[simp] theorem reg_withTick : ({ s with tick := k } : State).reg r = s.reg r := rfl
@[simp] theorem get_withTick (lo w : Nat) : ({ s with tick := k } : State).get r lo w = s.get r lo w := rfl
@[simp] theorem now_withTick : ({ s with tick := k } : State).now = s.now := rfl
@[simp] theorem now_setReg (v : BitVec 64) : (s.setReg r v).now = s.now := rfl

end

/-! ### TICK_IN (R40, R43) -/

/-- No tick has been ended by an edge, and no relock is awaited: the edge is held against the expected boundary. -/
abbrev AwaitsEdge (s : State) : Prop := (s.tick.phase = .work ∨ s.tick.phase = .guard) ∧ s.tick.accepted = false ∧ s.tick.relockFrom = none

section
variable {s : State} (h : AwaitsEdge s)
include h

theorem tickInAt_of_awaits : s.tickInAt = if 4 * s.now + s.guardLen < 4 * s.expected then s.earlyEdge
    else if 4 * s.now ≤ 4 * s.expected + s.guardLen then s.acceptEdge else s := by
  obtain ⟨hphase, hopen, hlocked⟩ := h
  rcases hphase with hphase | hphase <;> simp [tickInAt, hphase, hopen, hlocked]

theorem tickInAt_in_window (hfrom : 4 * s.expected ≤ 4 * s.now + s.guardLen) (hto : 4 * s.now ≤ 4 * s.expected + s.guardLen) :
    s.tickInAt = s.acceptEdge := by
  rw [tickInAt_of_awaits h, if_neg (Nat.not_lt.mpr hfrom), if_pos hto]

theorem tickInAt_before (hlt : 4 * s.now + s.guardLen < 4 * s.expected) : s.tickInAt = s.earlyEdge := by
  rw [tickInAt_of_awaits h, if_pos hlt]

theorem tickInAt_after (hlt : 4 * s.expected + s.guardLen < 4 * s.now) : s.tickInAt = s := by
  rw [tickInAt_of_awaits h, if_neg (by omega), if_neg (by omega)]

end

theorem tickInAt_stopped {s : State} (h : s.tick.phase = .stopped) : s.tickInAt = s := by simp [tickInAt, h]

/-- An edge after the one that has ended the tick. -/
theorem tickInAt_accepted {s : State} (hw : s.tick.phase ≠ .waiting) (ha : s.tick.accepted = true) : s.tickInAt = s := by
  cases hphase : s.tick.phase with
  | stopped => exact tickInAt_stopped hphase
  | waiting => exact absurd hphase hw
  | work | guard => simp [tickInAt, hphase, ha]

section
variable (s : State)

theorem acceptEdge_tick : s.acceptEdge.tick.next = some (s.now + 8) ∧ s.acceptEdge.tick.accepted = true := by
  unfold acceptEdge
  dsimp only
  split
  · simp
  · simp

theorem acceptEdge_error : s.acceptEdge.reg (rid .tickInErr) = (BitVec.ofInt 32 ((s.now : Int) - s.expected)).setWidth 64 := by
  unfold acceptEdge
  dsimp only
  split
  · rw [reg_raise _ _ _ _ _ _ _ (by decide) (by decide), reg_withTick, reg_put_ne _ _ _ _ (by decide), reg_withTick, reg_setReg_same]
  · rw [reg_withTick, reg_setReg_same]

/-- The edge ends a holdover. -/
theorem acceptEdge_holdover (h : s.tick.relockFrom = none) : s.acceptEdge.get (rid .tickStatus) 2 1 = 0 := by
  unfold acceptEdge
  dsimp only
  split
  · rw [get_raise _ _ _ _ _ _ _ _ _ _ (by decide) (by decide), get_withTick, get_put_same _ _ _ (by decide), Nat.zero_mod]
  · next hheld =>
    rw [get_withTick, get_setReg_ne _ _ _ _ (by decide), get_one, if_neg (by simpa [h] using hheld)]

end
end State

section
variable {s : State}

theorem exec_tickInEdge_counted {f : Bool} (hsrc : bit (s.reg (rid .tickCtrl)) 1 = true) (hf : f = bit (s.reg (rid .tickInCfg)) 0) :
    exec (.tickInEdge f) s = .next s.tickInAt := congrArg Host.Outcome.next (if_pos (by simp [hsrc, hf]))

theorem exec_tickInEdge_ignored {f : Bool} (h : bit (s.reg (rid .tickCtrl)) 1 = false ∨ f ≠ bit (s.reg (rid .tickInCfg)) 0) :
    exec (.tickInEdge f) s = .next s := by
  refine congrArg Host.Outcome.next (if_neg fun hc => ?_)
  obtain ⟨hsrc, hf⟩ := Bool.and_eq_true_iff.mp hc
  rcases h with h | h
  · simp [h] at hsrc
  · exact h (of_decide_eq_true hf)

/-- R40: with no edge by E + G/4 the next tick starts there, in holdover. -/
theorem exec_tickInLost_late (hsrc : bit (s.reg (rid .tickCtrl)) 1 = true) (hphase : s.tick.phase = .guard) (hopen : s.tick.accepted = false)
    (hlocked : s.tick.relockFrom = none) (hb : bit (s.reg (rid .tickStatus)) 2 = false) (hlate : s.expected + s.guardLen / 4 ≤ s.now) :
    exec .tickInLost s = .next (({ s.put (rid .tickStatus) 2 1 1 with
      tick := { s.tick with next := some (s.expected + s.guardLen / 4) } }).raise 0x0103 7 0xFF 0xFFFF 0 s.t48) :=
  congrArg Host.Outcome.next (if_pos (by simp [hsrc, hphase, hopen, hlocked, hb, State.quarterGuard, hlate]))

theorem exec_tickInLost_early (h : s.now < s.expected + s.guardLen / 4) : exec .tickInLost s = .next s :=
  congrArg Host.Outcome.next (if_neg fun hc => Nat.not_le.mpr h (of_decide_eq_true (Bool.and_eq_true_iff.mp hc).2))

/-- R43: the sixteenth holdover tick in a row with an early edge places no boundary. -/
theorem exec_holdoverRelock_due (hb : bit (s.reg (rid .tickStatus)) 2 = true) (hheld : s.tick.held = true) (hearly : s.tick.earlySeen = true)
    (h : State.AwaitsEdge s) (hrun : 15 ≤ s.tick.earlyRun) : exec .holdoverRelock s =
      .next { s with tick := { s.tick with next := none, relockFrom := some (s.expected - s.guardLen / 4) } } := by
  obtain ⟨hticking, hopen, hlocked⟩ := h
  exact congrArg Host.Outcome.next (if_pos (by simp [hb, hheld, hearly, hrun, hopen, hlocked, hticking]))

theorem exec_holdoverRelock_not (h : s.tick.held = false ∨ s.tick.earlyRun < 15) : exec .holdoverRelock s = .next s := by
  refine congrArg Host.Outcome.next (if_neg fun hc => ?_)
  simp only [Bool.and_eq_true, decide_eq_true_eq] at hc
  obtain ⟨⟨⟨⟨⟨⟨-, hheld⟩, -⟩, hrun⟩, -⟩, -⟩, -⟩ := hc
  rcases h with h | h
  · simp [h] at hheld
  · omega

end

/-- Settles O34: an edge that counts is `State.acceptEdge` or `State.earlyEdge` by where it lies about E (`State.tickInAt_of_awaits`). G/4 is in
whole nanoseconds, rounded down (log entry 65). -/
theorem tickInput : Obligations.TickInput := by
  unfold Obligations.TickInput
  refine ⟨fun f s hsrc hf hphase hopen hlocked => ?edge, fun f s h => ?noEdge, fun s hsrc hphase hopen hlocked hb => ?lost,
    fun s hb hheld hearly hopen hlocked hphase => ?relock, fun s h => exec_holdoverRelock_not (.inl h)⟩
  case edge =>
    have hawaits : State.AwaitsEdge s := ⟨hphase, hopen, hlocked⟩
    rw [exec_tickInEdge_counted hsrc hf]
    refine ⟨fun hfrom hto => ⟨_, rfl, ?_⟩, fun hlt => ⟨_, rfl, ?_⟩, fun hlt => by rw [State.tickInAt_after hawaits hlt]⟩
    · rw [State.tickInAt_in_window hawaits hfrom hto]
      obtain ⟨hnext, haccepted⟩ := State.acceptEdge_tick s
      exact ⟨hnext, haccepted, State.acceptEdge_error s, State.acceptEdge_holdover s hlocked⟩
    · rw [State.tickInAt_before hawaits hlt]
      simp [State.earlyEdge]
  case noEdge =>
    by_cases hcounts : bit (s.reg (rid .tickCtrl)) 1 = true ∧ f = bit (s.reg (rid .tickInCfg)) 0
    · rw [exec_tickInEdge_counted hcounts.1 hcounts.2]
      rcases h with h | h | h | ⟨hw, ha⟩
      · simp [h] at hcounts
      · exact absurd hcounts.2 h
      · rw [State.tickInAt_stopped h]
      · rw [State.tickInAt_accepted hw ha]
    · exact exec_tickInEdge_ignored (by simpa [or_iff_not_imp_left] using hcounts)
  case lost =>
    refine ⟨fun hlate => ⟨_, exec_tickInLost_late hsrc hphase hopen hlocked hb hlate, ?_, rfl, ?_⟩, exec_tickInLost_early⟩
    · rw [State.get_raise _ _ _ _ _ _ _ _ _ _ (by decide) (by decide)]
      exact State.get_put_same s _ 1 (by decide)
    · rw [State.tick_raise]
  case relock =>
    have hawaits : State.AwaitsEdge s := ⟨hphase, hopen, hlocked⟩
    refine ⟨fun hrun => ?_, fun hrun => exec_holdoverRelock_not (.inr hrun)⟩
    have hexec := exec_holdoverRelock_due hb hheld hearly hawaits hrun
    exact ⟨_, hexec, rfl, rfl, (exec_keeps hexec).outside⟩

/-! ### Run (R50) -/

namespace State

/-- The registers of a generator that runs: run, running and started read 1. -/
def runBits (s : State) : State := ((s.put (rid .tickCtrl) 0 1 1).put (rid .tickStatus) 0 1 1).put (rid .tickStatus) 5 1 1

/-- The first tick of a generator that starts by itself: at TICK_START_AT, or 1,000 ns from now where that names no instant still to come. -/
def firstStart (s : State) : Nat :=
  if (s.reg (rid .tickStartAt)).toNat ≠ 0 ∧ s.now ≤ (s.reg (rid .tickStartAt)).toNat then (s.reg (rid .tickStartAt)).toNat else s.now + 1000

section
variable (s : State)

theorem get_tickCtrl_runBits : s.runBits.get (rid .tickCtrl) 0 1 = 1 := by
  unfold runBits
  rw [get_put_ne _ _ _ _ _ _ (by decide), get_put_ne _ _ _ _ _ _ (by decide), get_put_same _ _ _ (by decide), Nat.one_mod_two_pow_eq_one.mpr Nat.one_pos]

theorem get_tickStatus_runBits : s.runBits.get (rid .tickStatus) 0 1 = 1 := by
  unfold runBits
  rw [get_put_field _ _ _ (by decide), get_put_same _ _ _ (by decide), Nat.one_mod_two_pow_eq_one.mpr Nat.one_pos]

theorem bit_tickCtrl_runBits : bit (s.runBits.reg (rid .tickCtrl)) 1 = bit (s.reg (rid .tickCtrl)) 1 := by
  unfold runBits
  rw [reg_put_ne _ _ _ _ (by decide), reg_put_ne _ _ _ _ (by decide), bit_put_ne _ _ _ (by decide)]

theorem reg_runBits_ne {q : RegId} (h1 : q ≠ rid .tickCtrl) (h2 : q ≠ rid .tickStatus) : s.runBits.reg q = s.reg q := by
  unfold runBits
  rw [reg_put_ne _ _ _ _ h2, reg_put_ne _ _ _ _ h2, reg_put_ne _ _ _ _ h1]

/-- A generator that starts by itself places its first tick. -/
theorem setRun_of_internal (hsrc : bit (s.reg (rid .tickCtrl)) 1 = false) :
    s.setRun.tick.phase = .waiting ∧ s.setRun.get (rid .tickCtrl) 0 1 = 1 ∧ s.setRun.get (rid .tickStatus) 0 1 = 1 ∧
      s.setRun.tick.next = some s.firstStart := by
  have hrun : ((s.put (rid .tickCtrl) 0 1 1).put (rid .tickStatus) 0 1 1).put (rid .tickStatus) 5 1 1 = s.runBits := rfl
  have hnow : s.runBits.now = s.now := rfl
  have hstart := reg_runBits_ne s (q := rid .tickStartAt) (by decide) (by decide)
  unfold setRun firstStart
  dsimp only
  rw [hrun]
  simp only [reg_withTick, now_withTick, bit_tickCtrl_runBits, hsrc, hstart, hnow, Bool.false_eq_true, if_false]
  split
  · next h0 => exact ⟨rfl, get_tickCtrl_runBits s, get_tickStatus_runBits s, by simp [h0]⟩
  · next h0 =>
    split
    · next hle => exact ⟨rfl, get_tickCtrl_runBits s, get_tickStatus_runBits s, by simp [h0, hle]⟩
    · next hle =>
      rw [tick_raise, get_raise _ _ _ _ _ _ _ _ _ _ (by decide) (by decide), get_raise _ _ _ _ _ _ _ _ _ _ (by decide) (by decide),
        get_put_ne _ _ _ _ _ _ (by decide), get_put_field _ _ _ (by decide)]
      exact ⟨rfl, get_tickCtrl_runBits s, get_tickStatus_runBits s, by simp [hle]⟩

end
end State

section
variable {s : State}

theorem exec_tickRunSet_held (h : s.fwRuns 1 = false ∨ s.rigValid = false) : exec .tickRunSet s = .next s :=
  congrArg Host.Outcome.next (if_pos (by simpa using h))

theorem exec_tickRunSet_stopped (hmp : s.fwRuns 1 = true) (hrig : s.rigValid = true) (hphase : s.tick.phase = .stopped) :
    exec .tickRunSet s = .next s.setRun :=
  congrArg Host.Outcome.next ((if_neg (by simp [hmp, hrig])).trans (if_pos hphase))

theorem exec_tickRunClear_held (h : s.fwRuns 1 = false ∨ s.anyAdmitted = true ∨ s.tick.phase = .stopped) : exec .tickRunClear s = .next s :=
  congrArg Host.Outcome.next (if_pos (by simpa [or_assoc] using h))

theorem exec_tickRunClear_free (hmp : s.fwRuns 1 = true) (hnone : s.anyAdmitted = false) (hphase : s.tick.phase ≠ .stopped) :
    exec .tickRunClear s = .next { s.put (rid .tickCtrl) 0 1 0 with tick := { s.tick with stopping := true } } :=
  congrArg Host.Outcome.next (if_neg (by simp [hmp, hnone, hphase]))

end

/-! ### TICK_OUT and frame sync (R55, R56) -/

section
variable {s : State}

theorem exec_tickOutPulse_rises (hon : bit (s.reg (rid .tickCtrl)) 2 = true) (hphase : s.tick.phase = .work) (hdue : s.tickStart + 20 ≤ s.now)
    (hnew : s.tick.outPulse.map (·.1) ≠ some (s.tickStart + 20)) : exec .tickOutPulse s = .next { s with tick := { s.tick with
      outPulse := some (s.tickStart + 20, s.tickStart + 20 + 10 * s.get (rid .tickOutCfg) 0 10) } } :=
  congrArg Host.Outcome.next (if_pos (by rw [hon, decide_eq_true hphase, decide_eq_true hdue, decide_eq_true hnew]; rfl))

theorem exec_tickOutPulse_held (h : bit (s.reg (rid .tickCtrl)) 2 = false ∨ s.tick.phase ≠ .work ∨ s.now < s.tickStart + 20 ∨
    s.tick.outPulse.map (·.1) = some (s.tickStart + 20)) : exec .tickOutPulse s = .next s := by
  refine congrArg Host.Outcome.next (if_neg fun hc => ?_)
  simp only [Bool.and_eq_true, decide_eq_true_eq] at hc
  obtain ⟨⟨⟨hon, hphase⟩, hdue⟩, hnew⟩ := hc
  rcases h with h | h | h | h
  · simp [h] at hon
  · exact h hphase
  · omega
  · exact hnew h

end

namespace State

section
variable (s : State) (n : Nat)

/-- A push-pull ball takes the level that is driven, and shows it. -/
theorem drive_pushPull {b : Nat} (l : Bool) (h : bit (s.reg (rid .gpioBallCfg b)) 4 = false) (hb : b < 64) :
    SMap.get none (s.drive b (some l)).gpio.driven b = some l ∧ bit ((s.drive b (some l)).reg (rid .gpioIn)) b = l := by
  unfold drive
  simp only [h, Bool.false_and, Bool.false_eq_true, if_false]
  refine ⟨SMap.get_set_same (d := none) s.gpio.driven b (some l), ?_⟩
  rw [bit_put_one _ _ _ hb]
  cases l <;> rfl

theorem fsyncDrive_frameSync (active : Bool) (hmode : s.ballMode (s.fsyncBall n) = 4) (hon : bit (s.reg (rid .tickFsyncA n)) 21 = true) :
    s.fsyncDrive n active = s.drive (s.fsyncBall n) (some (xor active (bit (s.reg (rid .tickFsyncA n)) 22))) := if_pos ⟨hmode, hon⟩

theorem fsyncDrive_otherMode (active : Bool) (hmode : s.ballMode (s.fsyncBall n) ≠ 4) : s.fsyncDrive n active = s := if_neg fun h => hmode h.1

theorem fsyncBall_lt : s.fsyncBall n < 64 := (Nat.mod_lt _ (by decide)).trans (by decide : 2 ^ 5 < 64)

/-- The pulse of generator `n` in the current tick, before its ball is driven. -/
def fsyncPulsed (s : State) (n : Nat) : State :=
  { s with tick := { s.tick with fsync := SMap.set (0, 0) s.tick.fsync n (s.fsyncRise n, s.fsyncRise n + 1000 * s.get (rid .tickFsyncA n) 24 8) } }

theorem fsyncPulsed_outside : Outside [.tick] s (s.fsyncPulsed n) := fun k hk => by
  cases k
  case tick => exact absurd (List.mem_singleton_self _) hk
  all_goals rfl

end
end State

section
variable {s : State} {n : Nat}

theorem exec_fsyncPulse_rises (hn : n < 16) (hon : s.fsyncTick n = true) (hphase : s.tick.phase = .work ∨ s.tick.phase = .guard)
    (hdue : s.fsyncRise n ≤ s.now) (hnew : (SMap.get (0, 0) s.tick.fsync n).1 ≠ s.fsyncRise n) :
    exec (.fsyncPulse n) s = .next ((s.fsyncPulsed n).fsyncDrive n true) :=
  congrArg Host.Outcome.next (if_pos (by rw [hon, decide_eq_true hn, decide_eq_true hdue, decide_eq_true hnew]; simpa using hphase))

theorem exec_fsyncPulse_held (h : 16 ≤ n ∨ s.fsyncTick n = false ∨ s.now < s.fsyncRise n) : exec (.fsyncPulse n) s = .next s := by
  refine congrArg Host.Outcome.next (if_neg fun hc => ?_)
  simp only [Bool.and_eq_true, decide_eq_true_eq] at hc
  obtain ⟨⟨⟨⟨hn, hon⟩, -⟩, hdue⟩, -⟩ := hc
  rcases h with h | h | h
  · omega
  · simp [h] at hon
  · omega

end

/-- Settles O35: run, TICK_OUT and frame sync each act under their own condition. A ball that is driven shows its level in GPIO_IN (log entry
46). -/
theorem runAndPulses : Obligations.RunAndPulses := by
  unfold Obligations.RunAndPulses
  refine ⟨fun s hmp hrig hphase hsrc => ?runSet, fun s h => exec_tickRunSet_held h, fun s hmp hnone hphase => ?runClear,
    fun s h => exec_tickRunClear_held h, fun s hon hphase hdue hnew => ?out, fun s h => ?outHeld,
    fun n s hn hon hphase hdue hnew => ?fsync, fun n s h => exec_fsyncPulse_held h⟩
  case runSet =>
    obtain ⟨hwaiting, hctrl, hstatus, hnext⟩ := State.setRun_of_internal s hsrc
    exact ⟨_, exec_tickRunSet_stopped hmp hrig hphase, hwaiting, hctrl, hstatus, hnext⟩
  case runClear => exact ⟨_, exec_tickRunClear_free hmp hnone hphase, rfl, SetsField.put _ _ (by decide) (by decide)⟩
  case out =>
    have hexec := exec_tickOutPulse_rises hon hphase hdue hnew
    exact ⟨_, hexec, (exec_keeps hexec).outside, rfl, exec_tickOutPulse_held (.inr (.inr (.inr rfl)))⟩
  case outHeld =>
    rcases h with h | h | h
    · exact exec_tickOutPulse_held (.inl h)
    · exact exec_tickOutPulse_held (.inr (.inl h))
    · exact exec_tickOutPulse_held (.inr (.inr (.inl h)))
  case fsync =>
    have hexec := exec_fsyncPulse_rises hn hon hphase hdue hnew
    have henabled : bit (s.reg (rid .tickFsyncA n)) 21 = true := (Bool.and_eq_true_iff.mp hon).1
    have hkeeps : Keeps [.tick, .regs, .gpio] s ((s.fsyncPulsed n).fsyncDrive n true) := (exec_keeps hexec).mono (Kind.Sub.mono rfl (Kind.Sub.refl _))
    refine ⟨_, hexec, hkeeps.outside, ?_, fun hmode hpush => ?_, fun hmode => ?_⟩
    · rw [(State.fsyncDrive_keeps (Keeps.refl [.regs, .gpio] (s.fsyncPulsed n)) (Kind.Sub.refl _)).outside .tick (by decide)]
      exact SMap.get_set_same s.tick.fsync n _
    · have hdrive : (s.fsyncPulsed n).fsyncDrive n true =
          (s.fsyncPulsed n).drive (s.fsyncBall n) (some !bit (s.reg (rid .tickFsyncA n)) 22) :=
        (State.fsyncDrive_frameSync (s.fsyncPulsed n) n true hmode henabled).trans (by rw [Bool.true_xor]; rfl)
      rw [hdrive]
      exact State.drive_pushPull (s.fsyncPulsed n) _ hpush (s.fsyncBall_lt n)
    · rw [State.fsyncDrive_otherMode (s.fsyncPulsed n) n true hmode]
      exact s.fsyncPulsed_outside n

end Sys2Proof.Machine
end

section
/-! SUPPORT. Mailboxes (R254), and LAUNCH and RESTART at them (R47, R49, R255 to R257): what a response leaves of the registers, when a doorbell
is accepted, and what an armed launch writes; then the statement on them. -/

namespace Sys2Proof.Machine

/-! ### Bytes of a word -/

/-- The first of a list of little-endian bytes is the lowest. -/
theorem leFold_cons (x : Byte) (xs : List Byte) : (x :: xs).reverse.foldl (fun a b => a * 256 + b.toNat) 0 =
    xs.reverse.foldl (fun a b => a * 256 + b.toNat) 0 * 256 + x.toNat := by
  simp [List.foldl_append]

section
variable {bs xs : List Byte} {i : Nat} {x y : Byte}

theorem fld_leWord_first (h : bs.drop (4 * i) = x :: xs) : fld ((leWord bs i).setWidth 64) 0 8 = x.toNat := by
  have hx : x.toNat < 256 := x.isLt
  unfold fld leWord
  rw [h, List.take_succ_cons, leFold_cons, BitVec.toNat_setWidth, BitVec.toNat_ofNat]
  omega

theorem fld_leWord_second (h : bs.drop (4 * i) = x :: y :: xs) : fld ((leWord bs i).setWidth 64) 8 8 = y.toNat := by
  have hx : x.toNat < 256 := x.isLt
  have hy : y.toNat < 256 := y.isLt
  unfold fld leWord
  rw [h, List.take_succ_cons, List.take_succ_cons, leFold_cons, leFold_cons, BitVec.toNat_setWidth, BitVec.toNat_ofNat]
  omega

end

namespace State

/-! ### Responses (R254) -/

section
variable (s : State) (n : Nat) (r : Resp)

/-- The bytes of a response up to its handle. -/
theorem respBytes_eq : s.respBytes n r = BitVec.ofNat 8 (s.mboxCmd n) :: BitVec.ofNat 8 r.status :: BitVec.ofNat 8 (s.mboxTag n) ::
    BitVec.ofNat 8 (s.mboxTag n / 256) :: BitVec.ofNat 8 r.reason :: BitVec.ofNat 8 r.step ::
    (leN 2 r.handle ++ leN 8 r.detail ++ leN 4 r.detail2 ++ leN 4 r.detail3 ++ le64 s.now) := by
  simp [respBytes, leN, List.range_succ]

theorem reg_respWords_ne (f : Nat → BitVec 64) (k : Nat) {q : RegId} (h : q.name ≠ .admMboxResp) :
    ((List.range k).foldl (fun s w => s.setReg (rid .admMboxResp n w) (f w)) s).reg q = s.reg q := by
  induction k with
  | zero => rfl
  | succ k ih =>
    rw [List.range_succ, List.foldl_append, List.foldl_cons, List.foldl_nil, reg_setReg_ne _ _ fun e => h (congrArg RegId.name e), ih]

theorem reg_respWords (f : Nat → BitVec 64) {k w : Nat} (h : w < k) :
    ((List.range k).foldl (fun s w => s.setReg (rid .admMboxResp n w) (f w)) s).reg (rid .admMboxResp n w) = f w := by
  induction k with
  | zero => exact absurd h (Nat.not_lt_zero w)
  | succ k ih =>
    rw [List.range_succ, List.foldl_append, List.foldl_cons, List.foldl_nil]
    by_cases hw : w = k
    · rw [hw, reg_setReg_same]
    · rw [reg_setReg_ne _ _ fun e => hw (congrArg RegId.l e), ih (by omega)]

/-- A response leaves every register but those of its mailbox and of its event. -/
theorem reg_respond_ne {q : RegId} (h1 : q.name ≠ .admMboxResp) (h2 : q.name ≠ .admMboxStat) (h3 : q.name ≠ .evtLostCnt)
    (h4 : q.name ≠ .evtStat) : (s.respond n r).reg q = s.reg q := by
  unfold respond
  dsimp only
  rw [reg_raise _ _ _ _ _ _ _ (fun e => h3 (congrArg RegId.name e)) (fun e => h4 (congrArg RegId.name e)),
    reg_put_ne _ _ _ _ (fun e => h2 (congrArg RegId.name e)), reg_put_ne _ _ _ _ (fun e => h2 (congrArg RegId.name e)),
    reg_respWords_ne _ _ _ _ h1]

theorem reg_respond_word {w : Nat} (h : w < 8) :
    (s.respond n r).reg (rid .admMboxResp n w) = (leWord (s.respBytes n r) w).setWidth 64 := by
  unfold respond
  dsimp only
  rw [reg_raise _ _ _ _ _ _ _ (by simp [rid]) (by simp [rid]), reg_put_ne _ _ _ _ (by simp [rid]), reg_put_ne _ _ _ _ (by simp [rid]),
    reg_respWords _ _ _ h]

theorem mboxBusy_respond : (s.respond n r).mboxBusy n = false := by
  unfold mboxBusy respond
  dsimp only
  rw [reg_raise _ _ _ _ _ _ _ (by simp [rid]) (by simp [rid]), bit_put_ne _ _ _ (by decide), bit_put_one _ _ _ (by decide)]
  rfl

theorem get_done_respond : (s.respond n r).get (rid .admMboxStat n) 1 1 = 1 := by
  unfold respond
  dsimp only
  rw [get_raise _ _ _ _ _ _ _ _ _ _ (by simp [rid]) (by simp [rid]), get_put_same _ _ _ (by decide), Nat.one_mod_two_pow_eq_one.mpr Nat.one_pos]

theorem get_status_respond : (s.respond n r).get (rid .admMboxResp n 0) 8 8 = r.status % 256 := by
  unfold get
  rw [reg_respond_word _ _ _ (by decide), fld_leWord_second (congrArg (List.drop (4 * 0)) (respBytes_eq s n r)), BitVec.toNat_ofNat]

theorem get_reason_respond : (s.respond n r).get (rid .admMboxResp n 1) 0 8 = r.reason % 256 := by
  unfold get
  rw [reg_respond_word _ _ _ (by decide), fld_leWord_first (congrArg (List.drop (4 * 1)) (respBytes_eq s n r)), BitVec.toNat_ofNat]

@[simp] theorem queue_respond : (s.respond n r).queue = s.queue :=
  (respond_keeps (Keeps.refl [.regs, .events] s) (Kind.Sub.refl _)).outside .queue (by decide)

end

theorem refused_respond (s : State) (n reason step handle detail : Nat) (h : reason < 256) :
    Refused (s.respond n (refuse reason step handle detail)) n reason where
  idle := mboxBusy_respond ..
  done := get_done_respond ..
  status := get_status_respond ..
  reason := (get_reason_respond ..).trans (Nat.mod_eq_of_lt h)

/-! ### Doorbells (R254, R262) -/

section
variable {n : Nat} {s u : State}

theorem viaMbox_of_enters (h : EntersMbox n s u) (f : State → State) : s.viaMbox n f = f u := by
  unfold viaMbox
  rcases h with ⟨hn, hup, rfl⟩ | ⟨hlo, hhi, hup, rfl⟩
  · rw [if_pos hn]; exact if_pos hup
  · rw [if_neg (by omega), if_pos ⟨hhi, hup⟩]

/-- The doorbell of an idle mailbox that holds the request. -/
theorem submit_of_idle {cmd : Nat} (h : EntersMbox n s u) (hcmd : u.mboxCmd n = cmd) : s.submit n cmd = u.accept n :=
  (viaMbox_of_enters h _).trans (if_pos (by simp [hcmd]))

/-- Taking a request changes the mailbox's status and not its request. -/
theorem mboxReq_put_stat (u : State) (n k lo w x : Nat) : (u.put (rid .admMboxStat k) lo w x).mboxReq n = u.mboxReq n := by
  unfold mboxReq
  simp only [get_put_ne u lo w x 0 32 (show rid .admMboxReq n _ ≠ rid .admMboxStat k by simp [rid])]

/-- A LAUNCH or RESTART with no bad field is taken, and served at once (R255). -/
theorem accept_launch (hidle : u.mboxBusy n = false) (hfault : commandFault (u.mboxReq n) = none) (hcmd : u.mboxCmd n = 3 ∨ u.mboxCmd n = 6) :
    u.accept n = (u.put (rid .admMboxStat n) 0 1 1).acceptLaunch n := by
  have hreq := mboxReq_put_stat u n n 0 1 1
  have hsame : (u.put (rid .admMboxStat n) 0 1 1).mboxCmd n = u.mboxCmd n := congrArg (leAt · 0 1) hreq
  unfold accept
  simp only [hidle, hreq, hfault, hsame]
  rcases hcmd with hcmd | hcmd <;> rw [hcmd] <;> rfl

end

/-! ### LAUNCH and RESTART (R255 to R257) -/

section
variable {v : State} {n : Nat}

/-- A launch accepted: it waits for its first tick, and its mailbox stays as it is. -/
theorem acceptLaunch_of_launchable (hsome : v.launchHandles (v.mboxReq n) ≠ [])
    (hgood : ∀ h ∈ v.launchHandles (v.mboxReq n), v.launchBad (v.mboxCmd n) h = none) (hwhen : leAt (v.mboxReq n) 0x10 1 ≠ 2) :
    (v.acceptLaunch n).queue.launches = v.queue.launches ++
        [⟨n, v.launchHandles (v.mboxReq n), v.launchFirst (v.mboxReq n) (v.launchHandles (v.mboxReq n))⟩] ∧
      (v.acceptLaunch n).mboxBusy n = v.mboxBusy n := by
  unfold acceptLaunch
  dsimp only
  rw [List.findSome?_eq_none_iff.mpr hgood]
  simp only [List.isEmpty_eq_false_iff.mpr hsome, hwhen, false_and, if_false, Bool.false_eq_true]
  split
  · unfold slipped mboxBusy
    rw [queue_raise, reg_raise _ _ _ _ _ _ _ (by simp [rid]) (by simp [rid])]
    exact ⟨rfl, rfl⟩
  · exact ⟨rfl, rfl⟩

/-- A launch whose first handle names no admitted program is answered NO_PROGRAM. -/
theorem acceptLaunch_noProgram {h : Nat} {hs : List Nat} (hhs : v.launchHandles (v.mboxReq n) = h :: hs) (hnone : v.ofHandle h = none) :
    v.acceptLaunch n = v.respond n (refuse 0x30 0 0xFFFF h) := by
  have hbad : v.launchBad (v.mboxCmd n) h = some (refuse 0x30 0 0xFFFF h) := by simp [launchBad, hnone]
  simp [acceptLaunch, hhs, hbad]

end

/-- A handle names the program of its number. -/
theorem ofHandle_number {s : State} {h p : Nat} (hp : s.ofHandle h = some p) : h % 64 = p := by
  unfold ofHandle at hp
  dsimp only at hp
  split at hp
  · exact Option.some.inj hp
  · cases hp

/-- Programs run from tick `t` on: what an armed launch of one handle writes. -/
def launchedAt (s : State) (p t : Nat) : State := (s.put (rid .admProgA p) 0 2 2).setReg (rid .admProgFirst p) (BitVec.ofNat 64 t)

/-- A launch of one program that may be launched, in its first tick, is armed. -/
theorem armLaunch_one {s : State} {l : LaunchReq} {h p t : Nat} (hl : l.handles = [h]) (hp : s.ofHandle h = some p)
    (hok : s.launchable (s.mboxCmd l.mbox) p = true) (hfirst : l.first = t) :
    s.armLaunch l t = (({ s with queue := { s.queue with launches := s.queue.launches.filter fun x => decide (x ≠ l) } }.launchedAt p
      t).showStruck).respond l.mbox { handle := h, detail := t } := by
  have hnum := ofHandle_number hp
  generalize hw : ({ s with queue := { s.queue with launches := s.queue.launches.filter fun x => decide (x ≠ l) } } : State) = w
  have hp' : w.ofHandle h = some p := by rw [← hw]; exact hp
  have hok' : w.launchable (w.mboxCmd l.mbox) p = true := by rw [← hw]; exact hok
  unfold armLaunch
  dsimp only
  rw [hw]
  simp [hl, hp', hok', hfirst, hnum, launchedAt]

section
variable (s : State) (p t : Nat)

theorem progState_launchedAt : (s.launchedAt p t).progState p = 2 := by
  unfold progState launchedAt
  rw [get_setReg_ne _ _ _ _ (by simp [rid]), get_put_same _ _ _ (by decide), Nat.mod_eq_of_lt (by decide)]

theorem get_first_launchedAt : (s.launchedAt p t).get (rid .admProgFirst p) 0 48 = t % 2 ^ 48 := by
  unfold get launchedAt fld
  rw [reg_setReg_same, BitVec.toNat_ofNat]
  omega

/-- Answering shows which programs are struck, and leaves the programs' registers. -/
theorem get_answered (n : Nat) (r : Resp) {q : RegId} (lo w : Nat) (hq : q.name = .admProgA ∨ q.name = .admProgFirst) :
    ((s.showStruck).respond n r).get q lo w = s.get q lo w := by
  have hname : ∀ m, m ≠ .admProgA → m ≠ .admProgFirst → q.name ≠ m := fun m h1 h2 e => by rcases hq with hq | hq <;> simp_all
  unfold get showStruck
  rw [reg_respond_ne _ _ _ (hname _ (by decide) (by decide)) (hname _ (by decide) (by decide)) (hname _ (by decide) (by decide))
    (hname _ (by decide) (by decide)), reg_put_ne _ _ _ _ fun e => hname .qmDhStat (by decide) (by decide) (congrArg RegId.name e)]

end
end State

/-- Each doorbell command submits the request that it names. -/
theorem exec_mailboxCommand {c : (Nat → Instr) × Nat} (hc : c ∈ mailboxCommands) (n : Nat) (s : State) :
    exec (c.1 n) s = .next (s.submit n c.2) := by
  simp only [mailboxCommands, List.mem_cons, List.not_mem_nil, or_false] at hc
  rcases hc with rfl | rfl | rfl | rfl | rfl | rfl <;> rfl

/-- R258: step 6 of a guard, with all that comes before launches done. -/
abbrev ArmsNow (s : State) : Prop := s.tick.phase = .guard ∧ s.step6Now = true ∧ s.leavesDone = true ∧ s.rigDone = true

section
variable {s : State} {n : Nat}

theorem exec_launchArmed_front {l : LaunchReq} {ls : List LaunchReq} (hls : s.queue.launches = l :: ls) (hn : l.mbox = n)
    (hnow : ArmsNow s) (hfirst : l.first ≤ s.nextT48) : exec (.launchArmed n) s = .next (s.armLaunch l s.nextT48) := by
  obtain ⟨hguard, hstep, hleaves, hrig⟩ := hnow
  refine congrArg Host.Outcome.next ?_
  split
  · next l' hfind =>
    obtain rfl : l = l' := by simpa [hls, hn] using hfind
    exact if_pos ⟨hguard, hstep, hfirst, hleaves, hrig⟩
  · next hfind => simp [hls, hn] at hfind

theorem exec_launchArmed_not (h : ¬ ArmsNow s) : exec (.launchArmed n) s = .next s := by
  refine congrArg Host.Outcome.next ?_
  split
  · exact if_neg fun ⟨hguard, hstep, _, hleaves, hrig⟩ => h ⟨hguard, hstep, hleaves, hrig⟩
  · rfl

theorem exec_launchArmed_none (h : s.queue.launches = []) : exec (.launchArmed n) s = .next s := by
  refine congrArg Host.Outcome.next ?_
  rw [h]
  rfl

end

/-- Settles O39: a request that names programs that may be launched is taken (`State.acceptLaunch_of_launchable`), and step 6 arms the one in
front (`State.armLaunch_one`). -/
theorem launches : Obligations.Launches := by
  unfold Obligations.Launches
  refine ⟨fun c n s u hc hstart hin hidle hcmd hfault => ?rings, fun n h p l ls s hls hnew hn hh hp hok hfirst hguard hstep hleaves hrig => ?armed,
    fun n s h => ?held⟩
  case rings =>
    intro v
    have hexec : exec (c.1 n) s = .next (v.acceptLaunch n) := by
      rw [exec_mailboxCommand hc, State.submit_of_idle hin hcmd, State.accept_launch hidle hfault (by rw [hcmd]; exact hstart)]
    have hvcmd : v.mboxCmd n = c.2 := (congrArg (leAt · 0 1) (State.mboxReq_put_stat u n n 0 1 1)).trans hcmd
    have hbusy : v.mboxBusy n = true := (State.bit_put_one u _ 1 (by decide)).trans rfl
    refine ⟨fun hsome hgood hwhen => ⟨_, hexec, ?_⟩, fun h hs hhs hnone => ⟨_, hexec, ?_⟩⟩
    · obtain ⟨hqueue, hkeeps⟩ := State.acceptLaunch_of_launchable hsome (by rwa [hvcmd]) hwhen
      exact ⟨hkeeps.trans hbusy, hqueue⟩
    · rw [State.acceptLaunch_noProgram hhs hnone]
      exact ⟨State.refused_respond _ _ _ _ _ _ (by decide), State.queue_respond ..⟩
  case armed =>
    have hnow : ArmsNow s := ⟨hguard, hstep, hleaves, hrig⟩
    refine ⟨_, exec_launchArmed_front hls hn hnow hfirst.le, ?_⟩
    rw [State.armLaunch_one hh hp (by rwa [hn]) hfirst, hn]
    refine ⟨?_, ?_, ?_, State.mboxBusy_respond .., State.get_status_respond ..⟩
    · rw [State.queue_respond]
      show s.queue.launches.filter (fun x => decide (x ≠ l)) = ls
      rw [hls, List.filter_cons_of_neg (by simp)]
      exact List.filter_eq_self.mpr fun x hx => decide_eq_true fun e => hnew (e ▸ hx)
    · exact (State.get_answered _ _ _ _ _ (.inl rfl)).trans (State.progState_launchedAt ..)
    · exact (State.get_answered _ _ _ _ _ (.inr rfl)).trans (State.get_first_launchedAt ..)
  case held =>
    by_cases hnone : s.queue.launches = []
    · exact exec_launchArmed_none hnone
    · refine exec_launchArmed_not fun ⟨hguard, hstep, hleaves, hrig⟩ => ?_
      simp [hguard, hstep, hleaves, hrig, hnone] at h

end Sys2Proof.Machine
end

section
/-! SUPPORT. What the start of a tick does to the generator's registers and to the programs' contexts. `Calm P s t`: the registers that a tick
start rests on, the generator's phase, the flags, and where the contexts of the programs of `P` stand, are in `t` as they are in `s`. -/

namespace Sys2Proof.Machine

/-! ### Calm -/

/-- The registers that a tick start rests on: the tick's value, instant, period and guard, and the states and first ticks of the programs. -/
def isTickRow : RegName → Bool
  | .tickNum | .tickLast | .tickPeriod | .tickGuard | .admProgA | .admProgFirst => true
  | _ => false

/-- Where a context stands: whether it runs in the tick, at which instruction, with which registers, whether it has ended, and its epochs. -/
def Ctx.standing (c : Ctx) : Bool × Nat × ProgRegs × Bool × List Epoch := (c.active, c.idx, c.regs, c.ended, c.epochs)

/-- The hub's values, what is on its way to it and waits there, and the local sets in flight. -/
def FlagSt.values (f : FlagSt) : SMap (BitVec 16) × List HubOp × List HubOp × List (Nat × Nat × Nat × Nat × Nat) :=
  (f.pkg, f.hub, f.hubWaits, f.localSets)

/-- A tick start's registers and phase, the flags, and where the contexts of the programs of `P` stand, are kept. -/
def Calm (P : Nat → Prop) (s t : State) : Prop :=
  (∀ r, isTickRow r.name = true → t.reg r = s.reg r) ∧ (∀ p, P p → (t.ctx p).standing = (s.ctx p).standing) ∧
    t.tick.phase = s.tick.phase ∧ t.flags.values = s.flags.values

theorem ne_of_tickRow {r q : RegId} (hr : isTickRow r.name = false) (hq : isTickRow q.name = true) : q ≠ r := fun e => by
  rw [e, hr] at hq
  exact absurd hq Bool.false_ne_true

section
variable {P : Nat → Prop} {s₀ s t : State}

theorem Calm.intro (hrows : ∀ r, isTickRow r.name = true → t.reg r = s.reg r) (hctx : ∀ p, P p → (t.ctx p).standing = (s.ctx p).standing)
    (hphase : t.tick.phase = s.tick.phase) (hflags : t.flags.values = s.flags.values) : Calm P s t := ⟨hrows, hctx, hphase, hflags⟩

section
variable (h : Calm P s t)
include h

theorem Calm.reg (r : RegId) (hr : isTickRow r.name = true) : t.reg r = s.reg r := h.1 r hr

theorem Calm.ctx (p : Nat) (hp : P p) : (t.ctx p).standing = (s.ctx p).standing := h.2.1 p hp

theorem Calm.phase : t.tick.phase = s.tick.phase := h.2.2.1

theorem Calm.flags : t.flags.values = s.flags.values := h.2.2.2

end

theorem Calm.refl (P : Nat → Prop) (s : State) : Calm P s s := .intro (fun _ _ => rfl) (fun _ _ => rfl) rfl rfl

theorem Calm.trans (h : Calm P s₀ s) (k : Calm P s t) : Calm P s₀ t :=
  .intro (fun r hr => (k.reg r hr).trans (h.reg r hr)) (fun p hp => (k.ctx p hp).trans (h.ctx p hp)) (k.phase.trans h.phase) (k.flags.trans h.flags)

/-- An update of fields that are no part of it. -/
theorem Calm.other (h : Calm P s₀ s) (hregs : t.regs = s.regs) (hpart : t.part = s.part) (hprogs : t.progs = s.progs)
    (hphase : t.tick.phase = s.tick.phase) (hflags : t.flags.values = s.flags.values) : Calm P s₀ t :=
  h.trans (.intro (fun r _ => State.reg_congr hregs hpart r) (fun p _ => by rw [State.ctx_congr hprogs]) hphase hflags)

/-- An operation that changes neither registers, programs, the generator nor flags. -/
theorem Calm.outside {ks : List Kind} (h : Calm P s₀ s) (hk : Keeps ks s t)
    (hn : Kind.regs ∉ ks ∧ Kind.progs ∉ ks ∧ Kind.tick ∉ ks ∧ Kind.flags ∉ ks) : Calm P s₀ t := by
  obtain ⟨hregs, hprogs, htick, hflags⟩ := hn
  exact h.other (hk.outside .regs hregs) hk.part (hk.outside .progs hprogs) (congrArg TickSt.phase (hk.outside .tick htick))
    (congrArg FlagSt.values (hk.outside .flags hflags))

theorem Calm.setReg (h : Calm P s₀ s) {r : RegId} {v : BitVec 64} (hr : isTickRow r.name = false) : Calm P s₀ (s.setReg r v) :=
  h.trans (.intro (fun _ hq => State.reg_setReg_ne s v (ne_of_tickRow hr hq)) (fun _ _ => rfl) rfl rfl)

theorem Calm.put (h : Calm P s₀ s) {r : RegId} {lo w x : Nat} (hr : isTickRow r.name = false) : Calm P s₀ (s.put r lo w x) := h.setReg hr

theorem Calm.setProg (h : Calm P s₀ s) {q : Nat} {g : Prog} (hg : P q → g.ctx.standing = (s.ctx q).standing) : Calm P s₀ (s.setProg q g) := by
  refine h.trans (.intro (fun _ _ => rfl) (fun p hp => ?_) rfl rfl)
  by_cases hpq : p = q
  · subst hpq
    simpa [State.ctx] using hg hp
  · simp [State.ctx, State.prog_setProg_ne s g hpq]

theorem Calm.setCtx (h : Calm P s₀ s) {q : Nat} {c : Ctx} (hc : P q → c.standing = (s.ctx q).standing) : Calm P s₀ (s.setCtx q c) := h.setProg hc

theorem Calm.ite {c : Prop} [Decidable c] {a b : State} (ha : Calm P s₀ a) (hb : Calm P s₀ b) : Calm P s₀ (if c then a else b) := by
  split <;> assumption

theorem Calm.foldl {α : Type} {f : State → α → State} (hf : ∀ s x, Calm P s₀ s → Calm P s₀ (f s x)) (l : List α) (h : Calm P s₀ s) :
    Calm P s₀ (l.foldl f s) := by
  induction l generalizing s with
  | nil => exact h
  | cons x l ih => exact ih (hf s x h)

namespace State

/-! ### Events and faults -/

theorem raise_calm (h : Calm P s₀ s) {c d u hd a b : Nat} : Calm P s₀ (s.raise c d u hd a b) := by
  refine h.trans (.intro (fun q hq => ?_) (fun p _ => by rw [ctx_congr (progs_raise ..)]) (by rw [tick_raise]) (by rw [flags_raise]))
  exact reg_raise s _ _ _ _ _ _ (ne_of_tickRow rfl hq) (ne_of_tickRow rfl hq)

theorem firstRecord_calm {r : RegId} {n : Nat} {w : State → State} (h : Calm P s₀ s) (hr : isTickRow r.name = false)
    (hw : Calm P s₀ s → Calm P s₀ (w s)) : Calm P s₀ (s.firstRecord r n w) := Calm.ite h ((hw h).setReg hr)

theorem setCond_calm (h : Calm P s₀ s) {p n : Nat} : Calm P s₀ (s.setCond p n) := h.setCtx fun _ => rfl

theorem faultOn_calm (h : Calm P s₀ s) {p m kind idx : Nat} : Calm P s₀ (s.faultOn p m kind idx) := by
  unfold faultOn
  refine firstRecord_calm (setCond_calm h) rfl fun h => ?_
  exact ((h.put rfl).put rfl).put rfl

theorem unitFault_calm (h : Calm P s₀ s) {p : Nat} : Calm P s₀ (s.unitFault p) :=
  Calm.foldl (fun _ _ h => faultOn_calm h) _ (setCond_calm h)

theorem unitFaults_calm (h : Calm P s₀ s) {ps : List Nat} : Calm P s₀ (s.unitFaults ps) := Calm.foldl (fun _ _ h => unitFault_calm h) _ h

theorem askOut_calm (h : Calm P s₀ s) {unit : Nat} : Calm P s₀ (s.askOut unit) :=
  h.outside (askOut_keeps (Keeps.refl [.power] s) (Kind.Sub.refl _)) (by decide)

theorem setYard_calm (h : Calm P s₀ s) {m y : Nat} {v : YardSt} : Calm P s₀ (s.setYard m y v) := h.other rfl rfl rfl rfl rfl

/-! ### Memory errors met by reads -/

theorem corrAt_calm (h : Calm P s₀ s) {w n : Nat} : Calm P s₀ (s.corrAt w n) := by
  unfold corrAt
  split
  · exact Calm.ite (h.put rfl) (raise_calm ((h.put rfl).setReg rfl))
  · exact raise_calm h
  · exact h

theorem uncorrAt_calm (h : Calm P s₀ s) {w handle port n : Nat} : Calm P s₀ (s.uncorrAt w handle port n) := by
  unfold uncorrAt
  split
  · extract_lets s1 s2 ts _ s3 s4
    have h2 : Calm P s₀ s2 := firstRecord_calm (h.put rfl) rfl fun h => h.put rfl
    have h4 : Calm P s₀ s4 := Calm.ite (askOut_calm (setYard_calm h2)) (setYard_calm h2)
    exact Calm.ite h4 (raise_calm (setYard_calm h4))
  · exact Calm.ite h (raise_calm (setYard_calm h))
  · exact h

theorem readCheck_calm (h : Calm P s₀ s) {a n handle port : Nat} : Calm P s₀ (s.readCheck a n handle port) := by
  unfold readCheck
  extract_lets s1
  have h1 : Calm P s₀ s1 := by
    unfold s1
    split
    · exact h
    · exact corrAt_calm h
  split
  · exact h1
  · exact uncorrAt_calm h1

theorem progRead_calm (h : Calm P s₀ s) {p a n port : Nat} : Calm P s₀ (s.progRead p a n port) :=
  Calm.ite (readCheck_calm h) (unitFault_calm (readCheck_calm h))

/-! ### Copies within a program -/

/-- Only a yard's injection register is written with the check state of a word (R141). -/
theorem injectAt_name {s : State} {a e : Nat} {r : RegId} (h : s.injectAt a = some (e, r)) : r.name = .yardEccInj := by
  unfold injectAt at h
  split at h
  · dsimp only at h
    split at h
    · cases h; rfl
    · cases h
  · cases h

theorem eccWrite_calm (h : Calm P s₀ s) {a n w : Nat} : Calm P s₀ (s.eccWrite a n w) := by
  unfold eccWrite
  extract_lets whole old
  split
  · next hinj =>
    refine Calm.put ?_ (by rw [injectAt_name hinj]; rfl)
    exact h.other rfl rfl rfl rfl rfl
  · exact h.other rfl rfl rfl rfl rfl

theorem eccWrites_calm (h : Calm P s₀ s) {a n w k : Nat} : Calm P s₀ (s.eccWrites a n w k) := by
  induction k with
  | zero => exact h
  | succ k ih => exact eccWrite_calm ih

theorem poke_calm (h : Calm P s₀ s) {a : Nat} {bs : List Byte} : Calm P s₀ (s.poke a bs) := h.other rfl rfl rfl rfl rfl

theorem store_calm (h : Calm P s₀ s) {a : Nat} {bs : List Byte} : Calm P s₀ (s.store a bs) := Calm.ite h (eccWrites_calm (poke_calm h))

theorem setDerived_calm (h : Calm P s₀ s) {p row k : Nat} {v : View} {d : BitVec 16} : Calm P s₀ (s.setDerived p v row k d) :=
  h.setProg fun _ => rfl

theorem copyPlace_calm (h : Calm P s₀ s) {p tid i j : Nat} : Calm P s₀ (s.copyPlace p tid i j) := by
  unfold copyPlace
  extract_lets x z s1
  have h1 : Calm P s₀ s1 := Calm.foldl (fun _ _ h => store_calm h) _ h
  exact Calm.ite h1 (Calm.foldl (fun _ _ h => Calm.foldl (fun _ _ h => setDerived_calm h) _ h) _ h1)

theorem copyCarried_calm (h : Calm P s₀ s) {p : Nat} : Calm P s₀ (s.copyCarried p) := Calm.foldl (fun _ _ h => copyPlace_calm h) _ h

/-! ### A program at cycle 0 -/

theorem onYards_calm {p : Nat} {f : State → Nat → Nat → State} (hf : ∀ s m y, Calm P s₀ s → Calm P s₀ (f s m y)) (h : Calm P s₀ s) :
    Calm P s₀ (s.onYards p f) := Calm.foldl (fun s q h => hf s q.1 q.2 h) _ h

theorem zeroCounters_calm (h : Calm P s₀ s) {p : Nat} : Calm P s₀ (s.zeroCounters p) :=
  onYards_calm (fun _ _ _ h => Calm.foldl (fun _ _ h => (h.setReg rfl).setReg rfl) _ h) h

theorem setSail_calm (h : Calm P s₀ s) {m y n : Nat} {v : SailSt} : Calm P s₀ (s.setSail m y n v) := h.other rfl rfl rfl rfl rfl

theorem setBoom_calm (h : Calm P s₀ s) {m y n : Nat} {v : BoomSt} : Calm P s₀ (s.setBoom m y n v) := h.other rfl rfl rfl rfl rfl

theorem mapBooms_calm (h : Calm P s₀ s) {m y : Nat} {f : BoomSt → BoomSt} : Calm P s₀ (s.mapBooms m y f) :=
  Calm.foldl (fun _ _ h => setBoom_calm h) _ h

theorem freshYard_calm (h : Calm P s₀ s) {m y : Nat} : Calm P s₀ (s.freshYard m y) := by
  unfold freshYard
  refine setYard_calm (mapBooms_calm (Calm.foldl (fun s n h => setSail_calm ?_) _ h))
  exact ((h.put rfl).put rfl).put rfl

/-- What a program is at cycle 0 once its context has been set up. -/
theorem freshProg_rest_calm (h : Calm P s₀ s) {p : Nat} {on : Bool} :
    Calm P s₀ (if on then ((s.copyCarried p).zeroCounters p).onYards p freshYard else s.onYards p freshYard) :=
  Calm.ite (onYards_calm (fun _ _ _ h => freshYard_calm h) (zeroCounters_calm (copyCarried_calm h)))
    (onYards_calm (fun _ _ _ h => freshYard_calm h) h)

/-- A program that comes to cycle 0 disturbs no other. -/
theorem freshProg_calm (h : Calm P s₀ s) {q : Nat} (hq : ¬ P q) : Calm P s₀ (s.freshProg q) := by
  unfold freshProg
  extract_lets first on c s1 _ _ s2
  have h1 : Calm P s₀ s1 := h.setCtx fun hp => absurd hp hq
  have h2 : Calm P s₀ s2 := h1.setProg fun hp => absurd hp hq
  exact freshProg_rest_calm h2

/-- The program's first tick has come. -/
abbrev Starts (s : State) (p : Nat) : Prop := s.progState p = 2 ∧ s.get (rid .admProgFirst p) 0 48 ≤ s.t48

/-- At its first instruction, with its registers zero. -/
def atFirst : Bool × Nat × ProgRegs × Bool × List Epoch := (true, 0, {}, false, [])

theorem freshProg_self {s : State} {p : Nat} (h : Starts s p) : ((s.freshProg p).ctx p).standing = atFirst := by
  unfold freshProg
  extract_lets first on c s1 g _ s2
  have hon : on = true := by simp [on, first, h]
  have hrest : Calm (fun _ => True) s2 (if on then ((s2.copyCarried p).zeroCounters p).onYards p freshYard else s2.onYards p freshYard) :=
    freshProg_rest_calm (Calm.refl _ s2)
  rw [hrest.ctx p trivial]
  simp [s2, g, s1, hon, ctx, Ctx.standing, atFirst]

end State

theorem Calm.get (h : Calm P s t) (r : RegId) (lo w : Nat) (hr : isTickRow r.name = true) : t.get r lo w = s.get r lo w := by
  unfold State.get
  rw [h.reg r hr]

theorem State.Starts.of_calm {p : Nat} (hs : Starts s p) (h : Calm P s t) : Starts t p := by
  obtain ⟨hrunning, hfirst⟩ := hs
  refine ⟨(h.get _ _ _ rfl).trans hrunning, ?_⟩
  unfold State.t48
  rw [h.get _ _ _ rfl, h.get _ _ _ rfl]
  exact hfirst

namespace State

theorem foldl_freshProg_calm (h : Calm P s₀ s) {l : List Nat} (hl : ∀ q ∈ l, ¬ P q) : Calm P s₀ (l.foldl freshProg s) := by
  induction l generalizing s with
  | nil => exact h
  | cons q l ih => exact ih (freshProg_calm h (hl q (List.mem_cons_self ..))) fun x hx => hl x (List.mem_cons_of_mem _ hx)

/-- Each program of the list that starts stands at its first instruction, whatever programs come to cycle 0 after it. -/
theorem foldl_freshProg_self {s : State} {p : Nat} {l : List Nat} (hs : Starts s p) (hp : p ∈ l) :
    ((l.foldl freshProg s).ctx p).standing = atFirst := by
  induction l generalizing s with
  | nil => cases hp
  | cons q l ih =>
    have hq : Calm (fun x => x ≠ q) s (s.freshProg q) := freshProg_calm (Calm.refl _ s) fun h => h rfl
    by_cases hl : p ∈ l
    · exact ih (hs.of_calm hq) hl
    · obtain rfl : p = q := (List.mem_cons.mp hp).resolve_right hl
      have hrest : Calm (· = p) (s.freshProg p) (l.foldl freshProg (s.freshProg p)) :=
        foldl_freshProg_calm (Calm.refl _ _) fun x hx hxp => hl (hxp ▸ hx)
      exact (hrest.ctx p rfl).trans (freshProg_self hs)

/-! ### Counter copies, links and channels at a tick start -/

theorem skewCheck_calm (h : Calm P s₀ s) {m : Nat} : Calm P s₀ (s.skewCheck m) := by
  unfold skewCheck
  split
  · exact h
  · extract_lets ts _ s1 _ s2 s3 s4
    have h1 : Calm P s₀ s1 := h.other rfl rfl rfl rfl rfl
    clear_value s1
    have h2 : Calm P s₀ s2 := h1.other rfl rfl rfl rfl rfl
    clear_value s2
    have h3 : Calm P s₀ s3 := raise_calm (h2.put rfl)
    have h4 : Calm P s₀ s4 := unitFaults_calm h3
    exact Calm.ite (askOut_calm h4) h4

theorem linksAtTick_calm (h : Calm P s₀ s) : Calm P s₀ s.linksAtTick := by
  unfold linksAtTick
  refine Calm.foldl (fun _ _ h => Calm.ite h (unitFaults_calm h)) _ (Calm.foldl (fun s p h => Calm.put ?_ rfl) _ h)
  exact h.other rfl rfl rfl rfl rfl

theorem hrTickStart_calm (h : Calm P s₀ s) : Calm P s₀ s.hrTickStart := by
  unfold hrTickStart
  extract_lets s1 _ s2
  have h1 : Calm P s₀ s1 := by
    refine Calm.foldl (fun s c h => Calm.ite (raise_calm (Calm.put ?_ rfl)) h) _ h
    exact h.other rfl rfl rfl rfl rfl
  clear_value s1
  have h2 : Calm P s₀ s2 := h1.other rfl rfl rfl rfl rfl
  exact Calm.ite (unitFaults_calm h2) h2

/-! ### Streams that start with the tick -/

theorem setInput_calm (h : Calm P s₀ s) {b : Bound} {v : InputSt} : Calm P s₀ (s.setInput b v) := h.setProg fun _ => rfl

theorem copyDigest_calm (h : Calm P s₀ s) {p tid : Nat} {v : View} {bs : List Byte} : Calm P s₀ (s.copyDigest p tid v bs) :=
  Calm.ite (setInput_calm h) h

theorem showTick_calm (h : Calm P s₀ s) {t : TickStrm} {desc : List Byte} : Calm P s₀ (s.showTick t desc) :=
  Calm.setReg (Calm.put (Calm.foldl (fun _ _ h => h.setReg rfl) _ h) rfl) rfl

theorem windowFault_calm (h : Calm P s₀ s) {i chan handle a : Nat} {write : Bool} : Calm P s₀ (s.windowFault i chan handle a write) := by
  unfold windowFault
  refine raise_calm (firstRecord_calm h rfl fun h => ?_)
  exact ((h.put rfl).put rfl).put rfl

theorem stopStrm_calm (h : Calm P s₀ s) {id a : Nat} {write : Bool} : Calm P s₀ (s.stopStrm id a write) := by
  unfold stopStrm
  split
  · exact h
  · refine unitFault_calm (windowFault_calm ?_)
    exact h.other rfl rfl rfl rfl rfl

theorem touchPeak_calm (h : Calm P s₀ s) {engine : Nat} : Calm P s₀ (s.touchPeak engine) := by
  unfold touchPeak
  refine Calm.put ?_ rfl
  exact h.other rfl rfl rfl rfl rfl

theorem hrRequest_calm (h : Calm P s₀ s) {r : HrReq} : Calm P s₀ (s.hrRequest r) := h.other rfl rfl rfl rfl rfl

theorem post_calm (h : Calm P s₀ s) {fs : List Flit} : Calm P s₀ (s.post fs) := h.other rfl rfl rfl rfl rfl

theorem farRead_calm (h : Calm P s₀ s) {t : TickStrm} {q : Nat × Nat} : Calm P s₀ (s.farRead t q) := by
  unfold farRead
  split
  · exact Calm.foldl (fun _ _ h => hrRequest_calm h) _ h
  · exact post_calm (progRead_calm h)

theorem beginStrm_calm (h : Calm P s₀ s) {t : TickStrm} {desc : List Byte} {reads : List (Nat × Nat)} :
    Calm P s₀ (s.beginStrm t desc reads) := by
  unfold beginStrm
  extract_lets near far _ s1 _ s2 s3
  have hserial : Calm P s₀ s.takeSerial := h.other rfl rfl rfl rfl rfl
  have h1 : Calm P s₀ s1 := hserial.setCtx fun _ => rfl
  have h2 : Calm P s₀ s2 := by
    refine showTick_calm ?_
    exact h1.other rfl rfl rfl rfl rfl
  clear_value s2
  split
  · exact stopStrm_calm h2
  · have h3 : Calm P s₀ s3 := Calm.ite h2 (touchPeak_calm h2)
    refine Calm.foldl (fun s x h => ?_) _ h3
    split
    · exact farRead_calm h
    · exact Calm.foldl (fun _ _ h => farRead_calm h) _ h

theorem nameWrites_calm (h : Calm P s₀ s) {p spec seq : Nat} {others : Nat → List Nat} {l : List Nat} :
    Calm P s₀ (s.nameWrites p spec seq others l).1 := h.outside (nameWrites_keeps (Keeps.refl [.yards] s) (Kind.Sub.refl _)) (by decide)

theorem takeFree_calm (h : Calm P s₀ s) {n : Nat} : Calm P s₀ (s.takeFree n) := h.other rfl rfl rfl rfl rfl

theorem startCopyIn_calm (h : Calm P s₀ s) {p tid : Nat} : Calm P s₀ (s.startCopyIn p tid) := by
  unfold startCopyIn
  split
  · split
    · exact h
    · extract_lets v src reads bs rows seq rd
      have hnamed : Calm P s₀ (s.nameWrites p 0 seq (fun _ => []) (viewBlocks v)).1 := nameWrites_calm h
      clear_value v src reads bs rows seq rd
      generalize s.nameWrites p 0 seq (fun _ => []) (viewBlocks v) = named at hnamed
      obtain ⟨u, wr⟩ := named
      refine beginStrm_calm (takeFree_calm (copyDigest_calm ?_))
      exact hnamed.setCtx fun _ => rfl
  · exact h

theorem boundInputs_calm (h : Calm P s₀ s) : Calm P s₀ s.boundInputs := by
  unfold boundInputs
  dsimp only
  refine Calm.foldl (fun s p h => ?aged) _ (Calm.foldl (fun s p h => ?copied) _ h)
  case aged => exact h.setProg fun _ => rfl
  case copied =>
    refine Calm.ite (Calm.foldl (fun _ _ h => startCopyIn_calm h) _ ?ages) ?ages
    exact Calm.foldl (fun _ _ h => setInput_calm h) _ h

/-! ### Timed outputs -/

theorem toqArm_calm (h : Calm P s₀ s) : Calm P s₀ s.toqArm := h.other rfl rfl rfl rfl rfl

theorem toqShow_calm (h : Calm P s₀ s) : Calm P s₀ s.toqShow := (h.put rfl).setReg rfl

end State
end

end Sys2Proof.Machine
end

section
/-! SUPPORT. The start and the stop of the generator at a boundary (R32, R33, R44, R45, R50, R185, R213); then the statement on them. -/

namespace Sys2Proof.Machine

/-! ### Registers of one name -/

theorem SMap.get_filterMap {α : Type} {d : α} {k : Nat} (f : Nat × α → Option (Nat × α)) (hsame : ∀ e, e.1 = k → f e = some e)
    (hkey : ∀ e e', f e = some e' → e'.1 = e.1) (m : SMap α) : SMap.get d (m.filterMap f) k = SMap.get d m k := by
  induction m with
  | nil => rfl
  | cons e m ih =>
    rw [List.filterMap_cons]
    by_cases he : e.1 = k
    · rw [hsame e he]
      simp [SMap.get, he]
    · have hskip : SMap.get d (e :: m) k = SMap.get d m k := by simp [SMap.get, he]
      rw [hskip]
      split
      · exact ih
      · next e' hfe =>
        have hne : e'.1 ≠ k := by rw [hkey e e' hfe]; exact he
        simp [SMap.get, hne, ih]

theorem SMap.get_restrict {α : Type} {d : α} {k : Nat} (keep : Nat → Bool) (hk : keep k = true) (m : SMap α) :
    SMap.get d (m.restrict keep) k = SMap.get d m k := by
  rw [SMap.restrict, ← List.filterMap_eq_filter]
  refine SMap.get_filterMap _ (fun e he => ?_) (fun e e' h => ?_) m
  · simp [Option.guard, he, hk]
  · rw [(Option.guard_eq_some_iff.mp h).1]

theorem isKeyOf_ne {q : RegId} {n : RegName} (h : q.name ≠ n) : isKeyOf n q.key = false := by
  have h1 := RegName.ctorIdx_lt q.name
  refine decide_eq_false fun e => h (RegName.ctorIdx_inj ?_)
  rw [← e, RegId.key]
  omega

namespace State

section
variable (s : State) {n : RegName} {q : RegId}

theorem reg_clearAll_ne (h : q.name ≠ n) : (s.clearAll n).reg q = s.reg q := by
  unfold reg clearAll
  rw [SMap.get_restrict _ (by simp [isKeyOf_ne h])]

theorem reg_maskAll_ne (m : BitVec 64) (h : q.name ≠ n) : (s.maskAll n m).reg q = s.reg q := by
  unfold reg maskAll
  dsimp only
  rw [SMap.get_filterMap]
  · intro e he
    rw [he, isKeyOf_ne h]
    rfl
  · intro e e' hfe
    split at hfe
    · split at hfe
      · cases hfe
      · cases hfe; rfl
    · cases hfe; rfl

end
end State

/-- A register of another name than these. -/
theorem ne_rid_of_name {q : RegId} {ns : List RegName} (h : q.name ∉ ns) {n : RegName} (hn : n ∈ ns) : q ≠ rid n := fun e => h (by rw [e]; exact hn)

namespace State

/-! ### The generator's registers (R31, R33, R44, R45) -/

section
variable (s : State)

theorem nextT48_lt : s.nextT48 < 2 ^ 48 := by
  unfold nextT48
  split
  · exact fld_lt _ _ _
  · exact Nat.lt_of_le_of_lt (Nat.min_le_right ..) (by decide)

theorem t48_advanceT48 : s.advanceT48.t48 = s.nextT48 := by
  have hput : (s.put (rid .tickNum) 0 48 s.nextT48).get (rid .tickNum) 0 48 = s.nextT48 := by
    rw [get_put_same _ _ _ (by decide), Nat.mod_eq_of_lt (nextT48_lt s)]
  unfold advanceT48 t48
  extract_lets stops s1 s2
  split
  · rw [get_raise _ _ _ _ _ _ _ _ _ _ (by decide) (by decide), get_put_ne _ _ _ _ _ _ (by decide)]
    exact hput
  · exact hput

theorem reg_advanceT48 {q : RegId} (h : q.name ∉ [.tickNum, .tickStatus, .evtLostCnt, .evtStat]) : s.advanceT48.reg q = s.reg q := by
  have hne : ∀ {n}, n ∈ [RegName.tickNum, .tickStatus, .evtLostCnt, .evtStat] → q ≠ rid n := ne_rid_of_name h
  have hput : (s.put (rid .tickNum) 0 48 s.nextT48).reg q = s.reg q := reg_put_ne _ _ _ _ (hne (by decide))
  unfold advanceT48
  extract_lets stops s1 s2
  split
  · rw [reg_raise _ _ _ _ _ _ _ (hne (by decide)) (hne (by decide)), reg_put_ne _ _ _ _ (hne (by decide))]
    exact hput
  · exact hput

variable (at_ : Nat)

theorem phase_startGenerator : (s.startGenerator at_).tick.phase = .work := rfl

theorem tickStart_startGenerator (h : at_ < 2 ^ 64) : (s.startGenerator at_).tickStart = at_ := by
  have hreg : (s.startGenerator at_).reg (rid .tickLast) = BitVec.ofNat 64 at_ := by
    unfold startGenerator
    extract_lets src first holdover run s1 s2
    rw [reg_withTick, reg_put_ne _ _ _ _ (by decide), reg_put_ne _ _ _ _ (by decide), reg_put_ne _ _ _ _ (by decide), reg_setReg_same]
  unfold tickStart
  rw [hreg, BitVec.toNat_ofNat, Nat.mod_eq_of_lt h]

theorem t48_startGenerator : (s.startGenerator at_).t48 = s.nextT48 := by
  rw [← t48_advanceT48]
  unfold startGenerator t48
  extract_lets src first holdover run s1 s2
  rw [get_withTick, get_put_ne _ _ _ _ _ _ (by decide), get_put_ne _ _ _ _ _ _ (by decide), get_put_ne _ _ _ _ _ _ (by decide),
    get_setReg_ne _ _ _ _ (by decide)]

/-- The registers that the generator and its events write at a tick start. -/
def generatorRegs : List RegName := [.tickNum, .tickLast, .tickWork, .tickStatus, .evtLostCnt, .evtStat]

theorem reg_startGenerator {q : RegId} (h : q.name ∉ generatorRegs) :
    (s.startGenerator at_).reg q = s.reg q := by
  have hne : ∀ {n}, n ∈ generatorRegs → q ≠ rid n := ne_rid_of_name h
  have hsub : [RegName.tickNum, .tickStatus, .evtLostCnt, .evtStat] ⊆ generatorRegs := by decide
  have hadvance : s.advanceT48.reg q = s.reg q := reg_advanceT48 s fun hmem => h (hsub hmem)
  unfold startGenerator
  extract_lets src first holdover run s1 s2
  rw [reg_withTick, reg_put_ne _ _ _ _ (hne (by decide)), reg_put_ne _ _ _ _ (hne (by decide)), reg_put_ne _ _ _ _ (hne (by decide)),
    reg_setReg_ne _ _ (hne (by decide)), hadvance]

theorem takeTick_standing (h : s.tick.retick = false) : s.takeTick = s := if_neg (by simp [h])

/-- The registers of the TICK section. -/
def tickSectionRegs : List RegName := [.tickPeriod, .tickGuard, .tickCtrl, .tickInCfg, .tickOutCfg, .tickNumBase]

theorem reg_putTick (rig : List Byte) {q : RegId} (h : q.name ∉ tickSectionRegs) : (s.putTick rig).reg q = s.reg q := by
  have hne : ∀ {n}, n ∈ tickSectionRegs → q ≠ rid n := ne_rid_of_name h
  unfold putTick
  extract_lets m s1 s2 s3
  have h3 : s3.reg q = s.reg q := by
    rw [reg_put_ne _ _ _ _ (hne (by decide)), reg_put_ne _ _ _ _ (hne (by decide)), reg_put_ne _ _ _ _ (hne (by decide)),
      reg_put_ne _ _ _ _ (hne (by decide)), reg_put_ne _ _ _ _ (hne (by decide)), reg_put_ne _ _ _ _ (hne (by decide)),
      reg_put_ne _ _ _ _ (hne (by decide))]
  split
  · rw [reg_put_ne _ _ _ _ (hne (by decide)), h3]
  · exact h3

theorem get_tickPeriod_putTick (rig : List Byte) : (s.putTick rig).get (rid .tickPeriod) 0 17 = rigPeriod rig % 2 ^ 17 := by
  unfold putTick
  extract_lets m s1 s2 s3
  have h3 : s3.get (rid .tickPeriod) 0 17 = rigPeriod rig % 2 ^ 17 := by
    rw [get_put_ne _ _ _ _ _ _ (by decide), get_put_ne _ _ _ _ _ _ (by decide), get_put_ne _ _ _ _ _ _ (by decide),
      get_put_ne _ _ _ _ _ _ (by decide), get_put_ne _ _ _ _ _ _ (by decide), get_put_ne _ _ _ _ _ _ (by decide), get_put_same _ _ _ (by decide)]
  split
  · rw [get_put_ne _ _ _ _ _ _ (by decide), h3]
  · exact h3

theorem reg_takeTick {q : RegId} (h : q.name ∉ tickSectionRegs) : s.takeTick.reg q = s.reg q := by
  unfold takeTick
  split
  · exact reg_putTick s _ h
  · rfl

theorem get_takeTick {q : RegId} (lo w : Nat) (h : q.name ∉ tickSectionRegs) : s.takeTick.get q lo w = s.get q lo w := by
  unfold get
  rw [reg_takeTick s h]

theorem get_tickPeriod_takeTick (h : s.tick.retick = true) : s.takeTick.get (rid .tickPeriod) 0 17 = rigPeriod s.rig.cur % 2 ^ 17 := by
  unfold takeTick
  rw [if_pos h]
  exact get_tickPeriod_putTick s _

theorem tick_putTick (rig : List Byte) : (s.putTick rig).tick = s.tick :=
  (putTick_keeps (Keeps.refl [.regs] s) (Kind.Sub.refl _)).outside .tick (by decide)

theorem begun_takeTick : s.takeTick.tick.begun = s.tick.begun := by
  unfold takeTick
  split
  · show (s.putTick s.rig.cur).tick.begun = _
    rw [tick_putTick]
  · rfl

theorem nextT48_takeTick :
    s.takeTick.nextT48 = if s.tick.begun then min (s.t48 + 1) (2 ^ 48 - 1) else s.takeTick.get (rid .tickNumBase) 0 48 := by
  have ht48 : s.takeTick.t48 = s.t48 := get_takeTick s 0 48 (by decide)
  unfold nextT48
  rw [begun_takeTick, ht48]
  cases s.tick.begun <;> rfl

/-! ### The start of a tick (R32) -/

/-- A tick start once the generator has gone on and what is counted once per tick and the flags are afresh; no program has come to cycle 0. -/
def afreshAt : State := ((s.startGenerator at_).clearOnce.zeroFlags).maskAll .yardTag 0x80

/-- What follows the programs at a tick start. -/
def tickOthers : State := (((((List.range 7).foldl skewCheck s).linksAtTick.hrTickStart).boundInputs.toqArm).toqShow)

theorem startTick_eq : s.startTick at_ = ((s.afreshAt at_).admittedList.foldl freshProg (s.afreshAt at_)).tickOthers := rfl

theorem reg_afreshAt {q : RegId} (h : isTickRow q.name = true) : (s.afreshAt at_).reg q = (s.startGenerator at_).reg q := by
  have hne : ∀ n, isTickRow n = false → q.name ≠ n := fun n hn e => by simp [e, hn] at h
  have honce : (s.startGenerator at_).clearOnce.reg q = (s.startGenerator at_).reg q := rfl
  unfold afreshAt
  rw [reg_maskAll_ne _ _ (hne _ rfl), ← honce, ← reg_maskAll_ne (s.startGenerator at_).clearOnce 0xF0000 (hne .flagLocal rfl),
    ← reg_clearAll_ne (((s.startGenerator at_).clearOnce).maskAll .flagLocal 0xF0000) (hne .flagPkg rfl)]
  rfl

theorem values_afreshAt : (s.afreshAt at_).flags.values = ([], [], [], []) := rfl

end

section
variable {P : Nat → Prop} {s₀ s : State}

theorem tickOthers_calm (h : Calm P s₀ s) : Calm P s₀ s.tickOthers :=
  toqShow_calm (toqArm_calm (boundInputs_calm (hrTickStart_calm (linksAtTick_calm (Calm.foldl (fun _ _ h => skewCheck_calm h) _ h)))))

end

section
variable (s : State) (at_ : Nat)

/-- The programs that come to cycle 0 and all that follows them keep the tick's registers and the flags. -/
theorem startTick_calm : Calm (fun _ => False) (s.afreshAt at_) (s.startTick at_) :=
  tickOthers_calm (foldl_freshProg_calm (Calm.refl _ _) fun _ _ => id)

/-- A register of the tick or of a program's row that the generator does not write. -/
theorem reg_startTick {q : RegId} (hrow : isTickRow q.name = true) (h : q.name ≠ .tickNum ∧ q.name ≠ .tickLast) :
    (s.startTick at_).reg q = s.reg q := by
  have hwritten : ∀ n ∈ generatorRegs, isTickRow n = true → n = .tickNum ∨ n = .tickLast := by decide
  have hnames : q.name ∉ generatorRegs := fun hmem => (hwritten _ hmem hrow).elim h.1 h.2
  rw [(startTick_calm s at_).reg q hrow, reg_afreshAt s at_ hrow, reg_startGenerator s at_ hnames]

theorem get_startTick {q : RegId} (lo w : Nat) (hrow : isTickRow q.name = true) (h : q.name ≠ .tickNum ∧ q.name ≠ .tickLast) :
    (s.startTick at_).get q lo w = s.get q lo w := by
  unfold get
  rw [reg_startTick s at_ hrow h]

theorem phase_startTick : (s.startTick at_).tick.phase = .work := (startTick_calm s at_).phase.trans (phase_startGenerator s at_)

theorem tickStart_startTick (h : at_ < 2 ^ 64) : (s.startTick at_).tickStart = at_ := by
  unfold tickStart
  rw [(startTick_calm s at_).reg _ rfl, reg_afreshAt s at_ rfl]
  exact tickStart_startGenerator s at_ h

theorem t48_startTick : (s.startTick at_).t48 = s.nextT48 := by
  unfold t48 get
  rw [(startTick_calm s at_).reg _ rfl, reg_afreshAt s at_ rfl]
  exact t48_startGenerator s at_

theorem period_startTick : (s.startTick at_).period = s.period := congrArg (· * 1000) (get_startTick s at_ 0 17 rfl (by decide))

theorem guardLen_startTick : (s.startTick at_).guardLen = s.guardLen := by
  unfold guardLen
  rw [period_startTick, get_startTick s at_ 0 4 rfl (by decide)]

theorem values_startTick : (s.startTick at_).flags.values = ([], [], [], []) := (startTick_calm s at_).flags.trans (values_afreshAt s at_)

/-- A program that runs and whose first tick has come begins at its first instruction. -/
theorem ctx_startTick {p : Nat} (hp : p < 64) (hrunning : s.progState p = 2)
    (hfirst : s.get (rid .admProgFirst p) 0 48 ≤ (s.startTick at_).t48) : ((s.startTick at_).ctx p).standing = atFirst := by
  have hcalm := startTick_calm s at_
  have hstate : (s.afreshAt at_).progState p = 2 := by
    unfold progState at hrunning ⊢
    rw [← hcalm.get _ _ _ rfl, get_startTick s at_ 0 2 rfl (by simp [rid]), hrunning]
  have hstarts : Starts (s.afreshAt at_) p := by
    refine ⟨hstate, ?_⟩
    unfold t48 at hfirst ⊢
    rw [← hcalm.get _ _ _ rfl, ← hcalm.get _ _ _ rfl, get_startTick s at_ 0 48 rfl (by simp [rid])]
    exact hfirst
  have hlisted : p ∈ (s.afreshAt at_).admittedList := by simp [admittedList, admitted, hp, hstate]
  rw [startTick_eq, (tickOthers_calm (Calm.refl (fun _ => True) _)).ctx p trivial]
  exact foldl_freshProg_self hstarts hlisted

/-! ### The generator stops (R50) -/

/-- Ending a pulse shows its ball's level in GPIO_IN, and writes no other register. -/
theorem reg_drive (b : Nat) (v : Option Bool) {q : RegId} (h : q ≠ rid .gpioIn) : (s.drive b v).reg q = s.reg q := by
  unfold drive
  extract_lets level _ s1 _
  clear_value level
  cases level with
  | none => rfl
  | some l => exact reg_put_ne _ _ _ _ h

theorem reg_fsyncRest (n : Nat) {q : RegId} (h : q ≠ rid .gpioIn) : (s.fsyncRest n).reg q = s.reg q := by
  unfold fsyncRest fsyncDrive
  split
  · split
    · exact reg_drive s _ _ h
    · rfl
  · rfl

theorem reg_fsyncRests (l : List Nat) {q : RegId} (h : q ≠ rid .gpioIn) : (l.foldl fsyncRest s).reg q = s.reg q := by
  induction l generalizing s with
  | nil => rfl
  | cons n l ih => exact (ih (s.fsyncRest n)).trans (reg_fsyncRest s n h)

theorem reg_stopGenerator {q : RegId} (hctrl : q ≠ rid .tickCtrl) (hstatus : q ≠ rid .tickStatus) (hin : q ≠ rid .gpioIn) :
    s.stopGenerator.reg q = s.reg q := by
  unfold stopGenerator
  extract_lets s1 s2
  rw [reg_withTick, reg_put_ne _ _ _ _ hctrl, reg_put_ne _ _ _ _ hstatus, reg_fsyncRests s _ hin]

theorem get_tickCtrl_stopGenerator : s.stopGenerator.get (rid .tickCtrl) 0 1 = 0 := by
  unfold stopGenerator
  extract_lets s1 s2
  rw [get_withTick, get_put_same _ _ _ (by decide), Nat.zero_mod]

theorem get_tickStatus_stopGenerator : s.stopGenerator.get (rid .tickStatus) 0 3 = 0 := by
  unfold stopGenerator
  extract_lets s1 s2
  rw [get_withTick, get_put_ne _ _ _ _ _ _ (by decide), get_put_same _ _ _ (by decide), Nat.zero_mod]

end
end State

/-! ### Settled -/

section
variable {s : State} {at_ : Nat}

/-- A tick's instant has come in a phase that a tick may end. -/
abbrev State.TickDue (s : State) (at_ : Nat) : Prop :=
  s.tick.next = some at_ ∧ at_ ≤ s.now ∧ (s.tick.phase = .waiting ∨ s.tick.phase = .guard)

theorem exec_tickStart_due (h : s.TickDue at_) :
    exec .tickStart s = .next (if s.tick.stopping then s.takeTick.stopGenerator else s.takeTick.startTick at_) := by
  obtain ⟨hplaced, hcome, hready⟩ := h
  refine congrArg Host.Outcome.next ?_
  rw [hplaced]
  refine if_neg fun hc => ?_
  rcases hc with hc | hc | hc
  · rcases hready with hr | hr <;> simp [hr] at hc
  · rcases hready with hr | hr <;> simp [hr] at hc
  · exact Nat.not_lt.mpr hcome hc

theorem exec_tickStart_not (h : s.tick.phase = .stopped ∨ s.tick.phase = .work ∨ s.tick.next = none ∨
    ∃ at_, s.tick.next = some at_ ∧ s.now < at_) : exec .tickStart s = .next s := by
  refine congrArg Host.Outcome.next ?_
  split
  · next t ht =>
    refine if_pos ?_
    rcases h with h | h | h | ⟨at_, hat, hlt⟩
    · exact .inl h
    · exact .inr (.inl h)
    · simp [h] at ht
    · rw [ht] at hat
      cases hat
      exact .inr (.inr hlt)
  · rfl

end

/-- Settles O32: the generator's registers at the start (`State.startGenerator`) and the flags stand through all else that a tick start does
(`State.startTick_calm`), and each program that starts stands at its first instruction (`State.ctx_startTick`). -/
theorem tickStarts : Obligations.TickStarts := by
  unfold Obligations.TickStarts
  refine ⟨fun at_ s hplaced hcome hready => ?due, fun s h => exec_tickStart_not h⟩
  have hexec := exec_tickStart_due ⟨hplaced, hcome, hready⟩
  refine ⟨fun hgoing => ?starts, fun hstops => ?stops⟩
  case stops =>
    rw [if_pos hstops] at hexec
    exact ⟨_, hexec, rfl, rfl, State.get_tickCtrl_stopGenerator _, State.get_tickStatus_stopGenerator _, fun r => State.reg_stopGenerator _⟩
  case starts =>
    rw [if_neg (by simp [hgoing])] at hexec
    have hinstant : at_ < 2 ^ 64 := Nat.lt_of_le_of_lt hcome s.gcnt.isLt
    have hvalue := (State.t48_startTick s.takeTick at_).trans (State.nextT48_takeTick s)
    have hflags := State.values_startTick s.takeTick at_
    simp only [FlagSt.values, Prod.mk.injEq] at hflags
    obtain ⟨hpkg, hhub, hwaits, hsets⟩ := hflags
    refine ⟨_, hexec, State.phase_startTick _ _, State.tickStart_startTick _ _ hinstant, hvalue, fun hretick => ?period, fun hretick => ?standing,
      hpkg, hhub, hwaits, hsets, fun p hadm hrunning hfirst => ?program⟩
    case period => rw [State.get_startTick _ _ _ _ rfl (by decide), State.get_tickPeriod_takeTick s hretick]
    case standing =>
      rw [State.period_startTick, State.guardLen_startTick, State.takeTick_standing s hretick]
      exact ⟨rfl, rfl⟩
    case program =>
      obtain ⟨hp, -⟩ := Bool.and_eq_true_iff.mp hadm
      have hrunning' : s.takeTick.progState p = 2 := (State.get_takeTick s 0 2 (by simp [rid, State.tickSectionRegs])).trans hrunning
      have hfirst' : s.takeTick.get (rid .admProgFirst p) 0 48 ≤ (s.takeTick.startTick at_).t48 := by
        rw [State.get_takeTick s 0 48 (by simp [rid, State.tickSectionRegs])]
        exact hfirst
      have hstanding := State.ctx_startTick s.takeTick at_ (of_decide_eq_true hp) hrunning' hfirst'
      simp only [Ctx.standing, State.atFirst, Prod.mk.injEq] at hstanding
      exact hstanding

end Sys2Proof.Machine
end

section
/-! SUPPORT. The FP32 arithmetic of Sys2Proof/Machine/Fp32.lean (R62, R71): what a word of a sign and a magnitude reads as, what one rounding
can give, and when it is exact. -/

namespace Sys2Proof.Machine.Fp

/-! ### Words by sign and magnitude -/

/-- The word of a sign and 31 bits of magnitude. -/
def pack (s : Bool) (b : Nat) : Word := BitVec.ofNat 32 (if s then 2 ^ 31 + b else b)

section
variable {s : Bool} {b : Nat}

theorem expo_pack (h : b < 2 ^ 31) : expo (pack s b) = b / 2 ^ 23 := by
  unfold expo pack
  rw [BitVec.toNat_ofNat]
  split <;> omega

theorem frac_pack : frac (pack s b) = b % 2 ^ 23 := by
  unfold frac pack
  rw [BitVec.toNat_ofNat]
  split <;> omega

theorem neg_pack (h : b < 2 ^ 31) : neg (pack s b) = s := by
  unfold neg pack
  rw [BitVec.getLsbD_ofNat, Nat.testBit_eq_decide_div_mod_eq]
  cases s <;> simp <;> omega

theorem isNan_pack (h : b ≤ 0x7F800000) : isNan (pack s b) = false := by
  unfold isNan
  rw [expo_pack (by omega), frac_pack]
  by_cases hb : b = 0x7F800000
  · simp [hb]
  · rw [beq_eq_false_iff_ne.mpr (show b / 2 ^ 23 ≠ 255 by omega), Bool.false_and]

theorem isFinite_pack (h : b < 0x7F800000) : isFinite (pack s b) = true := by
  unfold isFinite
  rw [expo_pack (by omega)]
  exact bne_iff_ne.mpr (by omega)

end

theorem zeroOf_eq_pack (s : Bool) : zeroOf s = pack s 0 := by cases s <;> rfl
theorem fmaxOf_eq_pack (s : Bool) : fmaxOf s = pack s 0x7F7FFFFF := by cases s <;> rfl

/-! ### The kinds of words -/

section
variable {x y z : Word}

theorem isFinite_iff : isFinite x = true ↔ isNan x = false ∧ isInf x = false := by
  unfold isFinite isNan isInf bne
  cases expo x == 255 <;> cases frac x == 0 <;> decide

/-- What R71 asks of an accumulator value: neither NaN nor infinite nor subnormal. -/
def Normal (x : Word) : Prop := isFinite x = true ∧ isSubnormal x = false

theorem normal_zeroOf (s : Bool) : Normal (zeroOf s) := by cases s <;> exact ⟨rfl, rfl⟩
theorem normal_fmaxOf (s : Bool) : Normal (fmaxOf s) := by cases s <;> exact ⟨rfl, rfl⟩

theorem normal_flush (h : isFinite x = true) : Normal (flush x) := by
  unfold flush
  split
  · exact normal_zeroOf _
  · next he => exact ⟨h, by simp [isSubnormal, he]⟩

theorem isFinite_flush (h : isFinite x = true) : isFinite (flush x) = true := (normal_flush h).1

/-- R71, fin: what is not NaN becomes finite and normal. -/
theorem normal_fin (h : isNan x = false) : Normal (fin x).1 := by
  unfold fin
  split
  · exact normal_fmaxOf _
  · next hi => exact normal_flush (isFinite_iff.mpr ⟨h, by simpa using hi⟩)

/-! ### Rounding -/

/-- The exponent of the last bit kept of a magnitude `m · 2^e`. -/
def quantum (m : Nat) (e : Int) : Int := max (e + (Nat.log2 m : Int) - 23) (-149)

/-- A magnitude `m · 2^e` as a multiple of `2^q`, rounded to nearest even. -/
def multiple (m : Nat) (e q : Int) (sticky : Bool) : Nat :=
  if q ≤ e then m * 2 ^ (e - q).toNat
  else
    let sh := (q - e).toNat
    let h := m / 2 ^ sh
    let r := m % 2 ^ sh
    let half := 2 ^ (sh - 1)
    if half < r || (r == half && (sticky || h % 2 == 1)) then h + 1 else h

theorem roundMag_eq_pack (s : Bool) {m : Nat} (e : Int) (st : Bool) (hm : m ≠ 0) : roundMag s m e st =
    pack s (min ((quantum m e + 149).toNat * 2 ^ 23 + multiple m e (quantum m e) st) 0x7F800000) := by
  unfold roundMag
  rw [if_neg hm]
  show pack s (if (quantum m e + 149).toNat * 2 ^ 23 + multiple m e (quantum m e) st < 0x7F800000 then
    (quantum m e + 149).toNat * 2 ^ 23 + multiple m e (quantum m e) st else 0x7F800000) = _
  congr 1
  split <;> omega

theorem isNan_roundMag (s : Bool) (m : Nat) (e : Int) (st : Bool) : isNan (roundMag s m e st) = false := by
  by_cases hm : m = 0
  · rw [roundMag, if_pos hm]
    exact (isFinite_iff.mp (normal_zeroOf s).1).1
  · rw [roundMag_eq_pack s e st hm]
    exact isNan_pack (Nat.min_le_right _ _)

theorem isNan_round (d : Dyadic) (zs : Bool) : isNan (round d zs) = false := by
  unfold round
  split
  · exact (isFinite_iff.mp (normal_zeroOf zs).1).1
  · exact isNan_roundMag ..

/-- R71: of finite operands the fused multiply-add is a rounded value. -/
theorem isNan_fmaRne (hx : isFinite x = true) (hy : isFinite y = true) (hz : isFinite z = true) : isNan (fmaRne x y z) = false := by
  obtain ⟨hxn, hxi⟩ := isFinite_iff.mp hx
  obtain ⟨hyn, hyi⟩ := isFinite_iff.mp hy
  obtain ⟨hzn, hzi⟩ := isFinite_iff.mp hz
  unfold fmaRne
  simp only [hxn, hxi, hyn, hyi, hzn, hzi, Bool.or_self, Bool.false_eq_true, if_false]
  exact isNan_round ..

end

/-! ### Rounding below FMAX -/

/-- The magnitude `m · 2^e` is at most FMAX. -/
def UpToFmax (m : Nat) (e : Int) : Prop := m * 2 ^ (e - min 104 e).toNat ≤ (2 ^ 24 - 1) * 2 ^ (104 - min 104 e).toNat

section
variable {m k : Nat} {e q : Int} {st : Bool}

/-- A rounded multiple does not pass a multiple that the magnitude does not pass. -/
theorem multiple_le_of_le (hq : q ≤ e) (h : m * 2 ^ (e - q).toNat ≤ k) : multiple m e q st ≤ k := by
  rwa [multiple, if_pos hq]

theorem multiple_le_of_le_mul (hq : e < q) (h : m ≤ k * 2 ^ (q - e).toNat) : multiple m e q st ≤ k := by
  have hpos : 0 < 2 ^ (q - e).toNat := by positivity
  have hdiv : m / 2 ^ (q - e).toNat ≤ k := Nat.div_le_of_le_mul (by rwa [Nat.mul_comm])
  have hsplit := Nat.div_add_mod m (2 ^ (q - e).toNat)
  rw [multiple, if_neg (by omega)]
  dsimp only
  split
  · next hup =>
    -- a remainder that rounds up is not zero, so the whole part stands below the bound
    have hhalf : 0 < 2 ^ ((q - e).toNat - 1) := by positivity
    have hrem : 0 < m % 2 ^ (q - e).toNat := by
      simp only [Bool.or_eq_true, decide_eq_true_eq, Bool.and_eq_true, beq_iff_eq] at hup
      omega
    have hlt : m / 2 ^ (q - e).toNat < k := by
      refine lt_of_le_of_ne hdiv fun heq => ?_
      rw [heq, Nat.mul_comm] at hsplit
      omega
    omega
  · exact hdiv

theorem multiple_quantum_le : multiple m e (quantum m e) st ≤ 2 ^ 24 := by
  have hlog : m < 2 ^ (m.log2 + 1) := Nat.lt_log2_self
  have hq : e + (m.log2 : Int) - 23 ≤ quantum m e := le_max_left _ _
  by_cases h : quantum m e ≤ e
  · refine multiple_le_of_le h ?_
    calc m * 2 ^ (e - quantum m e).toNat ≤ 2 ^ (m.log2 + 1) * 2 ^ (23 - m.log2) :=
          Nat.mul_le_mul hlog.le (Nat.pow_le_pow_right (by omega) (by omega))
      _ = 2 ^ 24 := by rw [← pow_add]; congr 1; omega
  · refine multiple_le_of_le_mul (by omega) ?_
    calc m ≤ 2 ^ (24 + (quantum m e - e).toNat) := hlog.le.trans (Nat.pow_le_pow_right (by omega) (by omega))
      _ = _ := pow_add ..

theorem quantum_le_of_le_fmax (hm : m ≠ 0) (h : UpToFmax m e) :
    quantum m e ≤ 104 := by
  have hself := Nat.log2_self_le hm
  have hpow : 2 ^ (m.log2 + (e - min 104 e).toNat) < 2 ^ (24 + (104 - min 104 e).toNat) := by
    calc 2 ^ (m.log2 + (e - min 104 e).toNat) ≤ m * 2 ^ (e - min 104 e).toNat := by
          rw [pow_add]; exact Nat.mul_le_mul_right _ hself
      _ ≤ (2 ^ 24 - 1) * 2 ^ (104 - min 104 e).toNat := h
      _ < 2 ^ 24 * 2 ^ (104 - min 104 e).toNat := Nat.mul_lt_mul_of_pos_right (by norm_num) (by positivity)
      _ = _ := (pow_add ..).symm
  have := (Nat.pow_lt_pow_iff_right (by omega)).mp hpow
  unfold quantum
  omega

theorem multiple_le_of_le_fmax (h : UpToFmax m e) :
    multiple m e 104 st ≤ 2 ^ 24 - 1 := by
  unfold UpToFmax at h
  by_cases he : 104 ≤ e
  · refine multiple_le_of_le he ?_
    rw [min_eq_left he] at h
    simpa using h
  · refine multiple_le_of_le_mul (by omega) ?_
    rw [min_eq_right (by omega)] at h
    simpa using h

theorem isFinite_roundMag (s : Bool) (h : UpToFmax m e) :
    isFinite (roundMag s m e st) = true := by
  by_cases hm : m = 0
  · rw [roundMag, if_pos hm]
    exact (normal_zeroOf s).1
  · rw [roundMag_eq_pack s e st hm]
    refine isFinite_pack ((Nat.min_le_left _ _).trans_lt ?_)
    have hq := quantum_le_of_le_fmax hm h
    rcases hq.lt_or_eq with hlt | heq
    · have := multiple_quantum_le (m := m) (e := e) (st := st)
      omega
    · have := multiple_le_of_le_fmax (st := st) h
      rw [heq]
      omega

end

/-- A magnitude that FMAX is not below rounds to a finite word. -/
theorem isFinite_round {d : Dyadic} (hpos : 0 < d.m) (h : (val fmax).lt d = false) : isFinite (round d) = true := by
  obtain ⟨m, e⟩ := d
  lift m to Nat using hpos.le
  unfold round
  rw [if_neg hpos.ne']
  refine isFinite_roundMag _ ?_
  rw [show val fmax = ⟨2 ^ 24 - 1, 104⟩ by decide] at h
  simp only [Dyadic.lt, decide_eq_false_iff_not, not_lt] at h
  rw [Int.natAbs_natCast]
  unfold UpToFmax
  zify
  exact h

/-! ### Whole numbers -/

section
variable {i : Int}

theorem quantum_zero {m : Nat} (h : m.log2 ≤ 23) : quantum m 0 = (m.log2 : Int) - 23 := by unfold quantum; omega

/-- A whole number of at most 24 bits is a word of its own: its leading bit at place 23. -/
theorem ofInt_eq_pack (hi : i ≠ 0) (h : i.natAbs < 2 ^ 24) :
    ofInt i = pack (decide (i < 0)) ((i.natAbs.log2 + 126) * 2 ^ 23 + i.natAbs * 2 ^ (23 - i.natAbs.log2)) ∧
      2 ^ 23 ≤ i.natAbs * 2 ^ (23 - i.natAbs.log2) ∧ i.natAbs * 2 ^ (23 - i.natAbs.log2) < 2 ^ 24 ∧ i.natAbs.log2 ≤ 23 := by
  have hm : i.natAbs ≠ 0 := by omega
  have hlog : i.natAbs.log2 ≤ 23 := Nat.lt_succ_iff.mp ((Nat.log2_lt hm).mpr h)
  have hlow : 2 ^ 23 ≤ i.natAbs * 2 ^ (23 - i.natAbs.log2) := by
    calc 2 ^ 23 = 2 ^ i.natAbs.log2 * 2 ^ (23 - i.natAbs.log2) := by rw [← pow_add]; congr 1; omega
      _ ≤ _ := Nat.mul_le_mul_right _ (Nat.log2_self_le hm)
  have hhigh : i.natAbs * 2 ^ (23 - i.natAbs.log2) < 2 ^ 24 := by
    calc i.natAbs * 2 ^ (23 - i.natAbs.log2) < 2 ^ (i.natAbs.log2 + 1) * 2 ^ (23 - i.natAbs.log2) :=
          Nat.mul_lt_mul_of_pos_right Nat.lt_log2_self (by positivity)
      _ = 2 ^ 24 := by rw [← pow_add]; congr 1; omega
  refine ⟨?_, hlow, hhigh, hlog⟩
  unfold ofInt round
  rw [if_neg hi, roundMag_eq_pack _ _ _ hm, quantum_zero hlog, multiple, if_pos (by dsimp only; omega)]
  have hsh : ((0 : Int) - ((i.natAbs.log2 : Int) - 23)).toNat = 23 - i.natAbs.log2 := by omega
  have hexp : (((i.natAbs.log2 : Int) - 23) + 149).toNat = i.natAbs.log2 + 126 := by omega
  rw [hsh, hexp, Nat.min_eq_left (by omega)]

theorem isFinite_ofInt (h : i.natAbs < 2 ^ 24) : isFinite (ofInt i) = true := by
  by_cases hi : i = 0
  · subst hi; rfl
  · obtain ⟨heq, -, hhigh, hlog⟩ := ofInt_eq_pack hi h
    rw [heq]
    exact isFinite_pack (by omega)

/-- The exact value of the word of a whole number. -/
theorem val_ofInt (hi : i ≠ 0) (h : i.natAbs < 2 ^ 24) :
    val (ofInt i) = ⟨i * 2 ^ (23 - i.natAbs.log2), (i.natAbs.log2 : Int) - 23⟩ := by
  obtain ⟨heq, hlow, hhigh, hlog⟩ := ofInt_eq_pack hi h
  have hword : (i.natAbs.log2 + 126) * 2 ^ 23 + i.natAbs * 2 ^ (23 - i.natAbs.log2) < 2 ^ 31 := by omega
  unfold val
  rw [heq, expo_pack hword, frac_pack, neg_pack hword]
  have hexp : ((i.natAbs.log2 + 126) * 2 ^ 23 + i.natAbs * 2 ^ (23 - i.natAbs.log2)) / 2 ^ 23 = i.natAbs.log2 + 127 := by omega
  have hfrac : ((i.natAbs.log2 + 126) * 2 ^ 23 + i.natAbs * 2 ^ (23 - i.natAbs.log2)) % 2 ^ 23 + 2 ^ 23 =
      i.natAbs * 2 ^ (23 - i.natAbs.log2) := by omega
  have hmag : (2 : Int) ^ 23 + (((i.natAbs.log2 + 126) * 2 ^ 23 + i.natAbs * 2 ^ (23 - i.natAbs.log2)) % 2 ^ 23 : Nat) =
      |i| * 2 ^ (23 - i.natAbs.log2) := by
    rw [add_comm, Int.abs_eq_natAbs]
    exact_mod_cast hfrac
  have hplace : ((i.natAbs.log2 + 127 : Nat) : Int) - 150 = (i.natAbs.log2 : Int) - 23 := by omega
  rw [hexp, if_neg (by omega), if_neg (by omega), hmag, hplace]
  rcases lt_or_ge i 0 with hneg | hpos
  · simp [hneg, abs_of_neg hneg]
  · simp [hpos.not_gt, abs_of_nonneg hpos]

/-- A whole number of at most 24 bits is exact in FP32. -/
theorem roundInt_ofInt (h : i.natAbs < 2 ^ 24) : roundInt (ofInt i) = i := by
  by_cases hi : i = 0
  · subst hi; decide
  · obtain ⟨-, -, -, hlog⟩ := ofInt_eq_pack hi h
    unfold roundInt
    rw [val_ofInt hi h]
    dsimp only
    rcases hlog.lt_or_eq with hlt | htop
    · have hsh : (-((i.natAbs.log2 : Int) - 23)).toNat = 23 - i.natAbs.log2 := by omega
      have hpos : 0 < 2 ^ (23 - i.natAbs.log2) := by positivity
      have hhalf : 2 ^ (23 - i.natAbs.log2 - 1) ≠ 0 := by positivity
      have hsign : i * 2 ^ (23 - i.natAbs.log2) < 0 ↔ i < 0 := by
        constructor
        · intro hlt; by_contra hc; have := Int.mul_nonneg (not_lt.mp hc) (show (0 : Int) ≤ 2 ^ (23 - i.natAbs.log2) by positivity); omega
        · intro hlt; exact Int.mul_neg_of_neg_of_pos hlt (by positivity)
      have habs : (i * 2 ^ (23 - i.natAbs.log2)).natAbs = i.natAbs * 2 ^ (23 - i.natAbs.log2) := by
        rw [Int.natAbs_mul, Int.natAbs_pow]; rfl
      rw [if_neg (by omega), hsh, habs, Nat.mul_mod_left, Nat.mul_div_cancel _ hpos]
      simp only [Nat.not_lt_zero, decide_false, beq_eq_false_iff_ne.mpr hhalf.symm, Bool.false_and, Bool.or_self, Bool.false_eq_true,
        if_false, hsign]
      split <;> omega
    · rw [htop]
      simp

end

end Sys2Proof.Machine.Fp
end

section
/-! SUPPORT. The numbers of the sails and the booms (R67, R68, R71 to R74, R95): bounds of partials, what joins an accumulator, what the quantiser
and a derived scale can give; then the statements on them. -/

namespace Sys2Proof.Machine

/-! ### Partials (R67, R68) -/

theorem partialSum_nil_left (w : List Int) : partialSum [] w = 0 := rfl
theorem partialSum_nil_right (a : List Int) : partialSum a [] = 0 := by simp [partialSum]

/-- A sum from `z` on is `z` and the sum. -/
theorem foldl_products (l : List (Int × Int)) (z : Int) : l.foldl (fun s e => s + e.1 * e.2) z = z + l.foldl (fun s e => s + e.1 * e.2) 0 := by
  induction l generalizing z with
  | nil => simp
  | cons e l ih =>
    rw [List.foldl_cons, List.foldl_cons, ih, ih (0 + e.1 * e.2)]
    ring

theorem partialSum_cons (x y : Int) (a w : List Int) : partialSum (x :: a) (y :: w) = x * y + partialSum a w := by
  unfold partialSum
  rw [List.zip_cons_cons, List.foldl_cons, foldl_products, zero_add]

theorem partialSum_append {a w : List Int} (h : a.length = w.length) (a' w' : List Int) :
    partialSum (a ++ a') (w ++ w') = partialSum a w + partialSum a' w' := by
  unfold partialSum
  rw [List.zip_append h, List.foldl_append, foldl_products]

/-- A level: what an INT8 element, or an entry of a table, can be. -/
def IsLevel (x : Int) : Prop := -128 ≤ x ∧ x ≤ 127

theorem product_bounds {x y : Int} (hx : IsLevel x) (hy : IsLevel y) : -16256 ≤ x * y ∧ x * y ≤ 16384 := by
  obtain ⟨hx1, hx2⟩ := hx
  obtain ⟨hy1, hy2⟩ := hy
  constructor <;> nlinarith

theorem partialSum_bounds {a w : List Int} (ha : ∀ x ∈ a, IsLevel x) (hw : ∀ x ∈ w, IsLevel x) :
    -16384 * (a.length : Int) ≤ partialSum a w ∧ partialSum a w ≤ 16384 * (a.length : Int) := by
  induction a generalizing w with
  | nil => simp [partialSum_nil_left]
  | cons x a ih =>
    cases w with
    | nil =>
      rw [partialSum_nil_right]
      constructor <;> omega
    | cons y w =>
      have hxy := product_bounds (List.forall_mem_cons.mp ha).1 (List.forall_mem_cons.mp hw).1
      have hrest := ih (List.forall_mem_cons.mp ha).2 (List.forall_mem_cons.mp hw).2
      rw [partialSum_cons, List.length_cons]
      push_cast
      constructor <;> omega

/-- Settles O58: the bounds by induction on the rows (`partialSum_bounds`); a partial of 22 bits is a word of FP32 (`Fp.roundInt_ofInt`). -/
theorem partialsExact : Obligations.PartialsExact := by
  unfold Obligations.PartialsExact
  refine ⟨fun a w ha1 ha2 hw1 hw2 => ?product, fun a w ha hw => partialSum_bounds ha hw, fun a a' w w' h => partialSum_append h a' w',
    fun a w ha hw hlen => ?exact⟩
  case product =>
    rw [partialSum_cons, partialSum_nil_left, add_zero]
    exact product_bounds ⟨ha1, ha2⟩ ⟨hw1, hw2⟩
  case exact =>
    obtain ⟨hlow, hhigh⟩ := partialSum_bounds ha hw
    have hbits : (partialSum a w).natAbs ≤ 2 ^ 21 := by omega
    exact ⟨hbits, Fp.isFinite_ofInt (by omega), Fp.roundInt_ofInt (by omega)⟩

/-! ### Accumulators (R71, R95) -/

theorem normal_preloadFilter (x : Word) : Fp.Normal (preloadFilter x).1 := by
  unfold preloadFilter
  split
  · exact Fp.normal_zeroOf false
  · next hn =>
    split
    · exact Fp.normal_fmaxOf _
    · next hi => exact Fp.normal_flush (Fp.isFinite_iff.mpr ⟨by simpa using hn, by simpa using hi⟩)

/-- A product not below the least normal number is positive. -/
theorem pos_of_not_lt_normal {d : Fp.Dyadic} (h : d.lt (Fp.val 0x00800000) = false) : 0 < d.m := by
  rw [show Fp.val 0x00800000 = ⟨2 ^ 23, -149⟩ by decide] at h
  simp only [Fp.Dyadic.lt, decide_eq_false_iff_not, not_lt] at h
  exact pos_of_mul_pos_left (lt_of_lt_of_le (by positivity) h) (by positivity)

/-- R71, comb_scale: held between zero and FMAX. -/
theorem isFinite_combScale (sa sw : BitVec 16) : Fp.isFinite (combScale sa sw).1 = true := by
  unfold combScale
  dsimp only
  split
  · rfl
  · next hover =>
    split
    · rfl
    · next hunder => exact Fp.isFinite_round (pos_of_not_lt_normal (by simpa using hunder)) (by simpa using hover)

theorem normal_rescale {p : Int} (sa sw : BitVec 16) (first : Bool) {acc : Word} (hp : p.natAbs ≤ 2 ^ 21) (hacc : Fp.isFinite acc = true) :
    Fp.Normal (rescale p sa sw first acc).1 := by
  have hz : Fp.isFinite (if first then Fp.zero else acc) = true := by
    split
    · rfl
    · exact hacc
  exact Fp.normal_fin (Fp.isNan_fmaRne (Fp.isFinite_ofInt (by omega)) (isFinite_combScale sa sw) hz)

/-! ### The quantiser (R64, R71) -/

theorem intBits_lt (w : Nat) (i : Int) : intBits w i < 2 ^ w := (BitVec.ofInt w i).isLt

/-- The bits of an INT8 give the whole number again. -/
theorem toInt_intBits {i : Int} (h : IsLevel i) : (BitVec.ofNat 8 (intBits 8 i)).toInt = i := by
  obtain ⟨h1, h2⟩ := h
  unfold intBits
  rw [BitVec.ofNat_toNat, BitVec.setWidth_eq, BitVec.toInt_ofInt, Int.bmod_def]
  omega

theorem isLevel_clampInt (i : Int) : IsLevel (Fp.clampInt (-128) 127 i) := by
  unfold Fp.clampInt IsLevel
  split
  · omega
  · split <;> omega

/-- INT8: the bits of the whole number held within its range. -/
theorem quantise_int8 (z : Word) (e : List Int) : (quantise z 0 e).1 = intBits 8 (Fp.clampInt (-128) 127 (Fp.roundInt z)) := by
  unfold quantise Fp.clampInt
  rw [if_pos rfl]
  dsimp only
  split
  · rw [if_neg (by omega)]
  · split <;> rfl

theorem codeOf_lt (z : Fp.Dyadic) {e : List Int} (h : e ≠ []) : codeOf z e < e.length := by
  induction e with
  | nil => exact absurd rfl h
  | cons a e ih =>
    cases e with
    | nil => simp [codeOf]
    | cons b e =>
      have := ih (List.cons_ne_nil b e)
      unfold codeOf
      split <;> simp only [List.length_cons] at this ⊢ <;> omega

theorem quantise_code (z : Word) (e : List Int) : (quantise z 1 e).1 = codeOf (Fp.val z) e ∧ (quantise z 2 e).1 = codeOf (Fp.val z) e := ⟨rfl, rfl⟩

/-- The magnitude of a finite word. -/
theorem toNat_mod_of_isFinite {x : Word} (h : Fp.isFinite x = true) : x.toNat % 2 ^ 31 < 0x7F800000 := by
  have he : x.toNat / 2 ^ 23 % 256 ≠ 255 := by simpa [Fp.isFinite, Fp.expo] using h
  omega

/-- All but the sign of a BF16 cleared. -/
theorem and_sign (b : BitVec 16) : b &&& 0x8000 = 0 ∨ b &&& 0x8000 = 0x8000 := by
  have h : (b &&& 0x8000).toNat = (b.toNat.testBit 15).toNat * 2 ^ 15 := by
    rw [BitVec.toNat_and]
    exact Nat.and_two_pow b.toNat 15
  rcases hs : b.toNat.testBit 15
  · exact .inl (BitVec.eq_of_toNat_eq (by rw [h, hs]; rfl))
  · exact .inr (BitVec.eq_of_toNat_eq (by rw [h, hs]; rfl))

/-- The sign of a BF16 cleared. -/
theorem toNat_and_magnitude (b : BitVec 16) : (b &&& 0x7FFF).toNat = b.toNat % 2 ^ 15 := by
  rw [BitVec.toNat_and]
  exact Nat.and_two_pow_sub_one_eq_mod b.toNat 15

/-- R62: the flush of a BF16 leaves its magnitude or none. -/
theorem bf16Flush_magnitude {r n : Nat} (h : r % 2 ^ 15 ≤ n) :
    (if BitVec.ofNat 16 r &&& 0x7F80 = 0 then BitVec.ofNat 16 r &&& 0x8000 else BitVec.ofNat 16 r).toNat % 2 ^ 15 ≤ n := by
  split
  · rcases and_sign (BitVec.ofNat 16 r) with hs | hs <;> rw [hs] <;> exact Nat.zero_le n
  · rw [BitVec.toNat_ofNat]
    omega

/-- Rounding to BF16 passes no infinity. -/
theorem toBf16_magnitude {x : Word} (h : Fp.isFinite x = true) : (Fp.toBf16 x).toNat % 2 ^ 15 ≤ 0x7F80 := by
  have hmag := toNat_mod_of_isFinite (Fp.isFinite_flush h)
  unfold Fp.toBf16
  rw [if_neg (by simp [(Fp.isFinite_iff.mp h).1])]
  refine bf16Flush_magnitude ?_
  split <;> omega

/-- BF16: below the infinities. -/
theorem quantise_bf16 {z : Word} (e : List Int) (h : Fp.isFinite z = true) :
    (quantise z 3 e).1 < 65536 ∧ (quantise z 3 e).1 % 32768 < 0x7F80 := by
  have hmag := toBf16_magnitude h
  unfold quantise
  simp only [OfNat.ofNat_ne_zero, OfNat.ofNat_ne_one, if_false, if_true, or_self, Nat.reduceEqDiff]
  split
  · rcases and_sign (Fp.toBf16 z) with hs | hs <;> rw [hs] <;> decide
  · next hinf =>
    have hne : (Fp.toBf16 z).toNat % 2 ^ 15 ≠ 0x7F80 := fun heq =>
      hinf (BitVec.eq_of_toNat_eq (by rw [toNat_and_magnitude, heq]; rfl))
    exact ⟨(Fp.toBf16 z).isLt, by omega⟩

/-! ### Derived scales (R74) -/

theorem deriveScale_range (m k : Word) (fb : BitVec 16) : (deriveScale m k fb).1 = fb ∨
    (0x0080 ≤ (deriveScale m k fb).1.toNat ∧ (deriveScale m k fb).1.toNat ≤ 0x7E80) := by
  unfold deriveScale
  dsimp only
  split
  · exact .inl rfl
  split
  · exact .inl rfl
  split
  · exact .inl rfl
  split
  · exact .inl rfl
  split
  · exact .inl rfl
  next hlow hhigh => exact .inr ⟨not_lt.mp hlow, not_lt.mp hhigh⟩

/-- Settles O59: the preload filter and the rescale give finite normal words (`normal_preloadFilter`, `normal_rescale`); each quantiser and the
derived scale by the bound of its own. -/
theorem boomFinite : Obligations.BoomFinite := by
  unfold Obligations.BoomFinite
  refine ⟨normal_preloadFilter, fun p sa sw first acc hp hacc => normal_rescale sa sw first hp hacc, fun z e hz => ?quantised, deriveScale_range⟩
  refine ⟨?int8, ?range, fun he => ?code, quantise_bf16 e hz⟩
  case int8 => rw [quantise_int8, toInt_intBits (isLevel_clampInt _)]
  case range => rw [quantise_int8]; exact intBits_lt 8 _
  case code =>
    obtain ⟨h1, h2⟩ := quantise_code z e
    rw [h1, h2]
    exact ⟨codeOf_lt _ he, codeOf_lt _ he⟩

end Sys2Proof.Machine
end

section
/-! SUPPORT. Rows in memory (R61) and the places of weight tiles (R180): what a packed row reads as, element by element, and when two elements of
a weight tensor have one place; then the statement on them. -/

namespace Sys2Proof.Machine

/-! ### Little-endian bytes -/

theorem leN_succ (n x : Nat) : leN (n + 1) x = BitVec.ofNat 8 x :: leN n (x / 256) := by
  unfold leN
  rw [List.range_succ_eq_map, List.map_cons, List.map_map, pow_zero, Nat.div_one]
  refine congrArg _ (List.map_congr_left fun i _ => ?_)
  rw [Function.comp_apply, pow_succ', Nat.div_div_eq_div_mul]

@[simp] theorem length_leN (n x : Nat) : (leN n x).length = n := by simp [leN]

/-- The bytes of a number read as the number, as far as they reach. -/
theorem leFold_leN (n x : Nat) : (leN n x).reverse.foldl (fun a b => a * 256 + b.toNat) 0 = x % 256 ^ n := by
  induction n generalizing x with
  | zero => simp [leN, Nat.mod_one]
  | succ n ih =>
    rw [leN_succ, leFold_cons, ih, BitVec.toNat_ofNat, pow_succ' 256, Nat.mod_mul, Nat.mul_comm, Nat.add_comm]

theorem leAt_append_right {xs : List Byte} (ys : List Byte) {o n k : Nat} (h : xs.length = k) : leAt (xs ++ ys) (k + o) n = leAt ys o n := by
  unfold leAt
  rw [← List.drop_drop, List.drop_left' h]

theorem leAt_append_left {xs : List Byte} (ys : List Byte) {n : Nat} (h : xs.length = n) : leAt (xs ++ ys) 0 n =
    xs.reverse.foldl (fun a b => a * 256 + b.toNat) 0 := by
  unfold leAt
  rw [List.drop_zero, List.take_left' h]

/-! ### Elements of whole bytes (R61) -/

theorem packRow_bytes (n : Nat) (es : List Nat) : packRow (8 * n) es = es.flatMap (leN n) := by
  have hbits : 8 * n ≠ 4 := by omega
  have hdiv : 8 * n / 8 = n := by omega
  induction es with
  | nil => rfl
  | cons a es ih =>
    cases es with
    | nil =>
      rw [packRow, if_neg hbits, hdiv, List.flatMap_singleton]
      rfl
    | cons b es =>
      rw [packRow, if_neg hbits, hdiv, ih, List.flatMap_cons]
      rfl

theorem length_flatMap_leN (n : Nat) (es : List Nat) : (es.flatMap (leN n)).length = n * es.length := by
  simp [List.length_flatMap, Nat.mul_comm]

theorem leAt_flatMap_leN (n : Nat) {es : List Nat} {i : Nat} (h : i < es.length) :
    leAt (es.flatMap (leN n)) (n * i) n = es.getD i 0 % 256 ^ n := by
  induction es generalizing i with
  | nil => simp at h
  | cons a es ih =>
    rw [List.flatMap_cons]
    cases i with
    | zero =>
      rw [Nat.mul_zero, leAt_append_left _ (length_leN n a), leFold_leN]
      rfl
    | succ i =>
      rw [Nat.mul_succ, Nat.add_comm, leAt_append_right _ (length_leN n a), ih (Nat.lt_of_succ_lt_succ h)]
      rfl

/-! ### Elements two to a byte (R61) -/

theorem length_packRow_nibbles : ∀ es : List Nat, (packRow 4 es).length = (es.length + 1) / 2
  | [] => rfl
  | [a] => by simp [packRow]
  | a :: b :: es => by
    rw [packRow, if_pos rfl, List.length_cons, length_packRow_nibbles es, List.length_cons, List.length_cons]
    omega

/-- Element `i` stands in byte `i / 2`, an even one in its low half. -/
theorem packRow_nibble : ∀ (es : List Nat) (i : Nat), i < es.length →
    ((packRow 4 es).getD (i / 2) 0).toNat / 16 ^ (i % 2) % 16 = es.getD i 0 % 16
  | [], i, h => by simp at h
  | [a], i, h => by
    obtain rfl : i = 0 := by simpa using h
    simp [packRow]
  | a :: b :: es, 0, _ => by
    simp [packRow]
  | a :: b :: es, 1, _ => by
    simp [packRow]
    omega
  | a :: b :: es, i + 2, h => by
    have hrest := packRow_nibble es i (by simpa using h)
    have hbyte : (i + 2) / 2 = i / 2 + 1 := by omega
    have hhalf : (i + 2) % 2 = i % 2 := by omega
    rw [hbyte, hhalf, packRow, if_pos rfl, List.getD_cons_succ, hrest, List.getD_cons_succ, List.getD_cons_succ]

/-! ### Tiles (R180) -/

theorem lt_cdiv_of_lt {k d : Nat} (h : k < d) : k / 32 < cdiv d 32 := by unfold cdiv; omega

/-- The place of a weight: its tile, and its row and column in it. -/
theorem tileIdx_eq (t : Tensor) (k n : Nat) :
    t.tileIdx k n = (n / 32 * cdiv (t.dims.getD 0 1) 32 + k / 32) * 1024 + (k % 32 * 32 + n % 32) := Nat.add_assoc ..

theorem tileIdx_inj {t : Tensor} {k n k' n' : Nat} (hk : k < t.dims.getD 0 1) (hk' : k' < t.dims.getD 0 1)
    (h : t.tileIdx k n = t.tileIdx k' n') : k = k' ∧ n = n' := by
  have hrow := lt_cdiv_of_lt hk
  have hrow' := lt_cdiv_of_lt hk'
  rw [tileIdx_eq, tileIdx_eq] at h
  generalize cdiv (t.dims.getD 0 1) 32 = c at h hrow hrow'
  have htile : n / 32 * c + k / 32 = n' / 32 * c + k' / 32 := by omega
  have hcol : n / 32 = n' / 32 := by
    have := congrArg (· / c) htile
    simpa [Nat.mul_comm _ c, Nat.mul_add_div (Nat.zero_lt_of_lt hrow), Nat.div_eq_of_lt hrow, Nat.div_eq_of_lt hrow'] using this
  rw [hcol] at htile h
  omega

theorem tileIdx_lt {t : Tensor} {k n : Nat} (hk : k < t.dims.getD 0 1) (hn : n < t.dims.getD 1 1) :
    t.tileIdx k n < cdiv (t.dims.getD 0 1) 32 * cdiv (t.dims.getD 1 1) 32 * 1024 := by
  have htile : n / 32 * cdiv (t.dims.getD 0 1) 32 + k / 32 < cdiv (t.dims.getD 0 1) 32 * cdiv (t.dims.getD 1 1) 32 := by
    calc n / 32 * cdiv (t.dims.getD 0 1) 32 + k / 32 < (n / 32 + 1) * cdiv (t.dims.getD 0 1) 32 := by
          rw [Nat.succ_mul]; exact Nat.add_lt_add_left (lt_cdiv_of_lt hk) _
      _ ≤ cdiv (t.dims.getD 1 1) 32 * cdiv (t.dims.getD 0 1) 32 := Nat.mul_le_mul_right _ (lt_cdiv_of_lt hn)
      _ = _ := Nat.mul_comm ..
  rw [tileIdx_eq]
  omega

/-- Settles O60: rows of whole bytes are the bytes of their elements one after the other (`packRow_bytes`), nibbles by the recursion of
`packRow`, and a tile's number gives its row and its column of tiles (`tileIdx_inj`). -/
theorem storageLayout : Obligations.StorageLayout := by
  unfold Obligations.StorageLayout
  refine ⟨fun es => ⟨length_packRow_nibbles es, packRow_nibble es⟩, fun n es _ => ?bytes, fun t k n k' n' hk hk' h => tileIdx_inj hk hk' h,
    fun t k n hk hn => tileIdx_lt hk hn⟩
  case bytes =>
    rw [packRow_bytes]
    exact ⟨length_flatMap_leN n es, fun i hi => leAt_flatMap_leN n hi⟩

end Sys2Proof.Machine
end

section
/-! SUPPORT. What the checks of reads, bank accesses, fill tags, hazards, faults and events leave alone of the units that make them (R99, R109,
R113, R120 to R123, R232). `Still reads m y s t`: the sails, booms, queues and chain links of `t` are those of `s`, and so are the clock, the
registers that the units go by, the programs but for their contexts, and memory; a yard (m, y) that only reads takes back no write. -/

namespace Sys2Proof.Machine

/-! ### Still -/

/-- The registers that units go by: the operating point, the tick's start, the sails' sets and the yard's shape. -/
def isUnitRow : RegName → Bool
  | .pwrState | .tickLast | .sailState | .yardSuit => true
  | _ => false

/-- A program but for its context. -/
def Prog.outer (g : Prog) : Prog := { g with ctx := {} }

/-- A sail but for the mark that its hazard has been raised. -/
def SailSt.body (sl : SailSt) : SailSt := { sl with hazTick := false }

/-- A boom but for the codebook that its last command loaded (R82). -/
def BoomSt.body (b : BoomSt) : BoomSt := { b with ocbk := [] }

/-- No access of the list is a write that another could take back (R109). -/
def Unmade (l : List Access) : Prop := ∀ b ∈ l, b.made = none

/-- What stays as it is; with `reads`, yard (m, y) may have made further reads. -/
structure Still (reads : Bool) (m y : Nat) (s t : State) : Prop where
  gcnt : t.gcnt = s.gcnt
  reg : ∀ r, isUnitRow r.name = true → t.reg r = s.reg r
  prog : ∀ p, (t.prog p).outer = (s.prog p).outer
  queues : ∀ i j, (t.yard i j).queues = (s.yard i j).queues
  chain : ∀ i j, (t.yard i j).chain = (s.yard i j).chain
  sail : ∀ i j n, (t.sail i j n).body = (s.sail i j n).body
  boom : ∀ i j n, (t.boom i j n).body = (s.boom i j n).body
  access : ∀ b ∈ (t.yard m y).access, b ∈ (s.yard m y).access ∨ reads = true ∧ b.made = none
  mem : (reads = true → Unmade (s.yard m y).access) → t.mem = s.mem

theorem ne_of_unitRow {r q : RegId} (hr : isUnitRow r.name = false) (hq : isUnitRow q.name = true) : q ≠ r := fun e => by
  rw [e, hr] at hq
  exact absurd hq Bool.false_ne_true

namespace State

variable (s : State)

theorem yard_setYard (m y i j : Nat) (v : YardSt) : (s.setYard m y v).yard i j = if 8 * i + j = 8 * m + y then v else s.yard i j := by
  simp only [yard, setYard, SMap.get_set]

@[simp] theorem yard_setYard_same (m y : Nat) (v : YardSt) : (s.setYard m y v).yard m y = v := by rw [yard_setYard, if_pos rfl]

theorem yard_setYard_ne {m y i j : Nat} (v : YardSt) (h : 8 * i + j ≠ 8 * m + y) : (s.setYard m y v).yard i j = s.yard i j := by
  rw [yard_setYard, if_neg h]

theorem yard_congr {s t : State} (h : t.yards = s.yards) (m y : Nat) : t.yard m y = s.yard m y := by simp only [yard, h]
theorem sail_congr {s t : State} (h : t.yards = s.yards) (m y n : Nat) : t.sail m y n = s.sail m y n := by simp only [sail, yard_congr h]
theorem boom_congr {s t : State} (h : t.yards = s.yards) (m y n : Nat) : t.boom m y n = s.boom m y n := by simp only [boom, yard_congr h]

@[simp] theorem yard_put (r : RegId) (lo w x m y : Nat) : (s.put r lo w x).yard m y = s.yard m y := yard_congr (yards_put s r lo w x) m y

/-- A field of the yards that an update of one of them leaves as it is. -/
theorem yard_setYard_field {β : Type} (f : YardSt → β) {i j : Nat} {v : YardSt} (h : f v = f (s.yard i j)) (m y : Nat) :
    f ((s.setYard i j v).yard m y) = f (s.yard m y) := by
  rw [yard_setYard]
  split
  · next hk => rw [h]; simp only [yard, hk]
  · rfl

end State

section
variable {reads : Bool} {m y : Nat} {s₀ s t : State}

theorem Still.refl (reads : Bool) (m y : Nat) (s : State) : Still reads m y s s :=
  ⟨rfl, fun _ _ => rfl, fun _ => rfl, fun _ _ => rfl, fun _ _ => rfl, fun _ _ _ => rfl, fun _ _ _ => rfl, fun _ hb => .inl hb, fun _ => rfl⟩

/-- Where no write could be taken back, none can after it. -/
theorem Still.unmade (h : Still reads m y s t) (hs : Unmade (s.yard m y).access) : Unmade (t.yard m y).access := fun b hb =>
  (h.access b hb).elim (hs b) And.right

theorem Still.trans (h : Still reads m y s₀ s) (k : Still reads m y s t) : Still reads m y s₀ t where
  gcnt := k.gcnt.trans h.gcnt
  reg r hr := (k.reg r hr).trans (h.reg r hr)
  prog p := (k.prog p).trans (h.prog p)
  queues i j := (k.queues i j).trans (h.queues i j)
  chain i j := (k.chain i j).trans (h.chain i j)
  sail i j n := (k.sail i j n).trans (h.sail i j n)
  boom i j n := (k.boom i j n).trans (h.boom i j n)
  access b hb := (k.access b hb).elim (h.access b) .inr
  mem hs := (k.mem fun hr => h.unmade (hs hr)).trans (h.mem hs)

/-- An update of fields that are no part of it. -/
theorem Still.other (h : Still reads m y s₀ s) (hgcnt : t.gcnt = s.gcnt) (hregs : t.regs = s.regs) (hpart : t.part = s.part)
    (hprogs : t.progs = s.progs) (hyards : t.yards = s.yards) (hmem : t.mem = s.mem) : Still reads m y s₀ t :=
  h.trans ⟨hgcnt, fun r _ => State.reg_congr hregs hpart r, fun p => by rw [State.prog_congr hprogs], fun i j => by rw [State.yard_congr hyards],
    fun i j => by rw [State.yard_congr hyards], fun i j n => by rw [State.sail_congr hyards], fun i j n => by rw [State.boom_congr hyards],
    fun b hb => .inl (by rwa [State.yard_congr hyards] at hb), fun _ => hmem⟩

theorem Still.setReg (h : Still reads m y s₀ s) {r : RegId} {v : BitVec 64} (hr : isUnitRow r.name = false) : Still reads m y s₀ (s.setReg r v) :=
  h.trans ⟨rfl, fun _ hq => State.reg_setReg_ne s v (ne_of_unitRow hr hq), fun _ => rfl, fun _ _ => rfl, fun _ _ => rfl, fun _ _ _ => rfl, fun _ _ _ => rfl,
    fun _ hb => .inl hb, fun _ => rfl⟩

theorem Still.put (h : Still reads m y s₀ s) {r : RegId} {lo w x : Nat} (hr : isUnitRow r.name = false) : Still reads m y s₀ (s.put r lo w x) :=
  h.setReg hr

theorem Still.setCtx (h : Still reads m y s₀ s) {p : Nat} {c : Ctx} : Still reads m y s₀ (s.setCtx p c) := by
  refine h.trans ⟨rfl, fun _ _ => rfl, fun q => ?_, fun _ _ => rfl, fun _ _ => rfl, fun _ _ _ => rfl, fun _ _ _ => rfl, fun _ hb => .inl hb,
    fun _ => rfl⟩
  by_cases hq : q = p
  · subst hq
    rw [State.prog_setCtx_same]
    rfl
  · rw [State.prog_setCtx_ne s c hq]

/-- An update of a yard that leaves its units, its queues and the link into it as they are, and whose accesses are the ones that stood or,
with `reads`, reads of yard (m, y). -/
theorem Still.setYardWith (h : Still reads m y s₀ s) {i j : Nat} {v : YardSt} (hqueues : v.queues = (s.yard i j).queues)
    (hchain : v.chain = (s.yard i j).chain) (hsails : ∀ n, (SMap.get {} v.sails n : SailSt).body = (s.sail i j n).body)
    (hbooms : ∀ n, (SMap.get {} v.booms n : BoomSt).body = (s.boom i j n).body)
    (haccess : 8 * m + y = 8 * i + j → ∀ b ∈ v.access, b ∈ (s.yard i j).access ∨ reads = true ∧ b.made = none) :
    Still reads m y s₀ (s.setYard i j v) := by
  refine h.trans ⟨rfl, fun _ _ => rfl, fun _ => rfl, fun k l => s.yard_setYard_field YardSt.queues hqueues k l,
    fun k l => s.yard_setYard_field YardSt.chain hchain k l, fun k l n => ?sail, fun k l n => ?boom, fun b hb => ?access, fun _ => rfl⟩
  case sail => exact s.yard_setYard_field (fun u => (SMap.get {} u.sails n : SailSt).body) (hsails n) k l
  case boom => exact s.yard_setYard_field (fun u => (SMap.get {} u.booms n : BoomSt).body) (hbooms n) k l
  case access =>
    rw [State.yard_setYard] at hb
    split at hb
    · next hk =>
      have hsame : s.yard m y = s.yard i j := by simp only [State.yard, hk]
      rw [hsame]
      exact haccess hk b hb
    · exact .inl hb

theorem Still.setYard (h : Still reads m y s₀ s) {i j : Nat} {v : YardSt} (hbooms : v.booms = (s.yard i j).booms := by rfl)
    (hqueues : v.queues = (s.yard i j).queues := by rfl) (hchain : v.chain = (s.yard i j).chain := by rfl)
    (hsails : v.sails = (s.yard i j).sails := by rfl) (haccess : v.access = (s.yard i j).access := by rfl) :
    Still reads m y s₀ (s.setYard i j v) :=
  h.setYardWith hqueues hchain (fun n => by rw [hsails]; rfl) (fun n => by rw [hbooms]; rfl) fun _ b hb => .inl (haccess ▸ hb)

theorem Still.setSail (h : Still reads m y s₀ s) {i j n : Nat} {v : SailSt} (hv : v.body = (s.sail i j n).body := by rfl) :
    Still reads m y s₀ (s.setSail i j n v) := by
  refine h.setYardWith rfl rfl (fun k => ?_) (fun _ => rfl) fun _ b hb => .inl hb
  rw [SMap.get_set]
  split
  · next hk => rw [hk, hv]
  · rfl

theorem Still.setBoom (h : Still reads m y s₀ s) {i j n : Nat} {v : BoomSt} (hv : v.body = (s.boom i j n).body := by rfl) :
    Still reads m y s₀ (s.setBoom i j n v) := by
  refine h.setYardWith rfl rfl (fun _ => rfl) (fun k => ?_) fun _ b hb => .inl hb
  rw [SMap.get_set]
  split
  · next hk => rw [hk, hv]
  · rfl

/-- An operation that changes neither the clock, registers, programs nor yards. -/
theorem Still.outside {ks : List Kind} (h : Still reads m y s₀ s) (hk : Keeps ks s t)
    (hn : Kind.gcnt ∉ ks ∧ Kind.regs ∉ ks ∧ Kind.progs ∉ ks ∧ Kind.yards ∉ ks)
    (hmem : (reads = true → Unmade (s.yard m y).access) → t.mem = s.mem) : Still reads m y s₀ t := by
  obtain ⟨hgcnt, hregs, hprogs, hyards⟩ := hn
  have hy := hk.outside .yards hyards
  exact h.trans ⟨hk.outside .gcnt hgcnt, fun r _ => State.reg_congr (hk.outside .regs hregs) hk.part r,
    fun p => by rw [State.prog_congr (hk.outside .progs hprogs)], fun i j => by rw [State.yard_congr hy], fun i j => by rw [State.yard_congr hy],
    fun i j n => by rw [State.sail_congr hy], fun i j n => by rw [State.boom_congr hy],
    fun b hb => .inl (by rwa [State.yard_congr hy] at hb), hmem⟩

theorem Still.ite {c : Prop} [Decidable c] {a b : State} (ha : Still reads m y s₀ a) (hb : Still reads m y s₀ b) :
    Still reads m y s₀ (if c then a else b) := by
  split <;> assumption

theorem Still.foldl {α : Type} {f : State → α → State} (hf : ∀ s x, Still reads m y s₀ s → Still reads m y s₀ (f s x)) (l : List α)
    (h : Still reads m y s₀ s) : Still reads m y s₀ (l.foldl f s) := by
  induction l generalizing s with
  | nil => exact h
  | cons x l ih => exact ih (hf s x h)

namespace State

/-! ### Events and faults (R232) -/

theorem raise_still (h : Still reads m y s₀ s) {c d u hd a b : Nat} : Still reads m y s₀ (s.raise c d u hd a b) := by
  refine h.trans ⟨gcnt_raise .., fun q hq => ?_, fun p => by rw [prog_congr (progs_raise ..)], fun i j => by rw [yard_congr (yards_raise ..)],
    fun i j => by rw [yard_congr (yards_raise ..)], fun i j n => by rw [sail_congr (yards_raise ..)],
    fun i j n => by rw [boom_congr (yards_raise ..)], fun b hb => .inl (by rwa [yard_congr (yards_raise ..)] at hb), fun _ => mem_raise ..⟩
  exact reg_raise s _ _ _ _ _ _ (ne_of_unitRow rfl hq) (ne_of_unitRow rfl hq)

theorem amend_still (h : Still reads m y s₀ s) {c d : Nat} {sel : Event → Bool} {f : Event → Event} : Still reads m y s₀ (s.amend c d sel f) :=
  h.outside (amend_keeps (Keeps.refl [.events] s) (Kind.Sub.refl _)) (by decide)
    fun _ => mem_of (amend_keeps (Keeps.refl [.events] s) (Kind.Sub.refl _)) rfl

theorem firstRecord_still {r : RegId} {n : Nat} {w : State → State} (h : Still reads m y s₀ s) (hr : isUnitRow r.name = false)
    (hw : Still reads m y s₀ s → Still reads m y s₀ (w s)) : Still reads m y s₀ (s.firstRecord r n w) := Still.ite h ((hw h).setReg hr)

theorem faultOn_still (h : Still reads m y s₀ s) {p k kind idx : Nat} : Still reads m y s₀ (s.faultOn p k kind idx) := by
  unfold faultOn
  exact firstRecord_still h.setCtx rfl fun h => ((h.put rfl).put rfl).put rfl

theorem unitFault_still (h : Still reads m y s₀ s) {p : Nat} : Still reads m y s₀ (s.unitFault p) :=
  Still.foldl (fun _ _ h => faultOn_still h) _ h.setCtx

theorem unitFaults_still (h : Still reads m y s₀ s) {ps : List Nat} : Still reads m y s₀ (s.unitFaults ps) :=
  Still.foldl (fun _ _ h => unitFault_still h) _ h

theorem askOut_still (h : Still reads m y s₀ s) {unit : Nat} : Still reads m y s₀ (s.askOut unit) :=
  h.outside (askOut_keeps (Keeps.refl [.power] s) (Kind.Sub.refl _)) (by decide)
    fun _ => mem_of (askOut_keeps (Keeps.refl [.power] s) (Kind.Sub.refl _)) rfl

/-! ### Check bits met by reads (R113, R115) -/

theorem corrAt_still (h : Still reads m y s₀ s) {w n : Nat} : Still reads m y s₀ (s.corrAt w n) := by
  unfold corrAt
  split
  · exact Still.ite (h.put rfl) (raise_still ((h.put rfl).setReg rfl))
  · exact raise_still h
  · exact h

theorem uncorrAt_still (h : Still reads m y s₀ s) {w handle port n : Nat} : Still reads m y s₀ (s.uncorrAt w handle port n) := by
  unfold uncorrAt
  split
  · extract_lets s1 s2 ts _ s3 s4
    have h2 : Still reads m y s₀ s2 := firstRecord_still (h.put rfl) rfl fun h => h.put rfl
    clear_value s2
    have h3 : Still reads m y s₀ s3 := h2.setYard
    clear_value s3
    have h4 : Still reads m y s₀ s4 := Still.ite (askOut_still h3) h3
    clear_value s4
    exact Still.ite h4 (raise_still (h4.setYard))
  · exact Still.ite h (raise_still (h.setYard))
  · exact h

theorem readCheck_still (h : Still reads m y s₀ s) {a n handle port : Nat} : Still reads m y s₀ (s.readCheck a n handle port) := by
  unfold readCheck
  extract_lets s1
  have h1 : Still reads m y s₀ s1 := by
    unfold s1
    split
    · exact h
    · exact corrAt_still h
  split
  · exact h1
  · exact uncorrAt_still h1

theorem progRead_still (h : Still reads m y s₀ s) {p a n port : Nat} : Still reads m y s₀ (s.progRead p a n port) :=
  Still.ite (readCheck_still h) (unitFault_still (readCheck_still h))

/-! ### Bank accesses (R109) -/

theorem conflictRecord_still (h : Still reads m y s₀ s) {i j : Nat} {won lost : Access} : Still reads m y s₀ (s.conflictRecord i j won lost) := by
  unfold conflictRecord
  extract_lets lp slot r s1 s2
  have h1 : Still reads m y s₀ s1 := ((((h.put rfl).put rfl).put rfl).put rfl).put rfl
  clear_value s1
  have h2 : Still reads m y s₀ s2 := (h1.put rfl).put rfl
  clear_value s2
  refine Still.setYard (h2.put rfl) ?_ ?_ ?_ ?_ ?_ <;> rw [yard_put]

theorem conflictEvent_still (h : Still reads m y s₀ s) {i j : Nat} {lost : Access} : Still reads m y s₀ (s.conflictEvent i j lost) := by
  unfold conflictEvent
  extract_lets hd x
  exact Still.ite (Still.ite (amend_still h) h) (raise_still (h.setYard))

theorem bankConflict_still (h : Still reads m y s₀ s) {i j : Nat} {won : Access} {all : List Access} :
    Still reads m y s₀ (s.bankConflict i j won all) := by
  unfold bankConflict
  extract_lets lost l here s1
  exact unitFaults_still (conflictEvent_still (Still.ite (conflictRecord_still h) h))

/-- A yard's own accesses are the ones that stood, and reads. -/
theorem setAccess_still (h : Still true m y s₀ s) {l : List Access} (hl : ∀ b ∈ l, b ∈ (s.yard m y).access ∨ b.made = none) :
    Still true m y s₀ (s.setYard m y { s.yard m y with access := l }) :=
  h.setYardWith rfl rfl (fun _ => rfl) (fun _ => rfl) fun _ b hb => (hl b hb).imp_right fun hb => ⟨rfl, hb⟩

theorem undo_unmade {i j : Nat} {b : Access} (h : b.made = none) : s.undo i j b = s := by
  unfold undo
  rw [h]

theorem foldl_undo_unmade {i j : Nat} {l : List Access} (h : Unmade l) : l.foldl (fun s b => s.undo i j b) s = s := by
  induction l with
  | nil => rfl
  | cons b l ih => rw [List.foldl_cons, undo_unmade (h b (by simp)), ih fun c hc => h c (by simp [hc])]

theorem foldl_undo_still (h : Still true m y s₀ s) {l : List Access} (hl : ∀ b ∈ l, b ∈ (s.yard m y).access) :
    Still true m y s₀ (l.foldl (fun s b => s.undo m y b) s) := by
  refine h.outside (Keeps.foldl (fun s b hk => undo_keeps hk (Kind.Sub.refl _)) l (Keeps.refl [.mem, .ecc] s)) (by decide) fun hs => ?_
  rw [foldl_undo_unmade fun b hb => hs rfl b (hl b hb)]

/-- A read comes to its bank. -/
theorem bankAccess_read_still (h : Still true m y s₀ s) {a : Access} (ha : a.made = none) : Still true m y s₀ (s.bankAccess m y a none).1 := by
  unfold bankAccess
  extract_lets met won _ s1
  have hmet : ∀ b ∈ met, b ∈ (s.yard m y).access := fun b hb => (List.mem_filter.mp hb).1
  have h1 : Still true m y s₀ s1 := foldl_undo_still h hmet
  split
  · refine bankConflict_still (setAccess_still h fun b hb => ?_)
    rcases List.mem_cons.mp hb with rfl | hb
    · exact .inr ha
    · exact .inl hb
  · dsimp only [makeWrite]
    refine Still.ite ?served (bankConflict_still ?served)
    refine setAccess_still h1 fun b hb => ?_
    rcases List.mem_cons.mp hb with rfl | hb
    · exact .inr ha
    · obtain ⟨c, hc, rfl⟩ := List.mem_map.mp hb
      split
      · exact .inr rfl
      · exact .inl hc

theorem bankReads_still (h : Still true m y s₀ s) {as : List Access} (ha : Unmade as) : Still true m y s₀ (s.bankReads m y as) := by
  unfold bankReads
  induction as generalizing s with
  | nil => exact h
  | cons a as ih => exact ih (bankAccess_read_still h (ha a (by simp))) fun b hb => ha b (by simp [hb])

theorem lineReads_still (h : Still true m y s₀ s) {p port a n : Nat} : Still true m y s₀ (s.lineReads p m y port a n) := by
  refine bankReads_still (progRead_still h) fun b hb => ?_
  obtain ⟨i, -, hi⟩ := List.mem_filterMap.mp hb
  split at hi
  · split at hi
    · cases hi; rfl
    · cases hi
  · cases hi

/-! ### Fill tags (R120 to R123) -/

theorem setFill_still (h : Still reads m y s₀ s) {k : Nat} {f : Fill} : Still reads m y s₀ (s.setFill k f) := h.setYard

theorem markBlock_still (h : Still reads m y s₀ s) {p spec k : Nat} : Still reads m y s₀ (s.markBlock p spec k) := by
  unfold markBlock onBlock
  refine Still.setYard h ?_ ?_ ?_ ?_ ?_ <;> dsimp only <;> split <;> rfl

theorem nameWrite_still (h : Still reads m y s₀ s) {p spec seq k : Nat} {others : List Nat} :
    Still reads m y s₀ (s.nameWrite p spec seq others k).1 := by
  unfold nameWrite
  dsimp only
  split
  · exact h
  · exact setFill_still (markBlock_still h)

theorem nameWrites_still (h : Still reads m y s₀ s) {p spec seq : Nat} {others : Nat → List Nat} {l : List Nat} :
    Still reads m y s₀ (s.nameWrites p spec seq others l).1 := by
  induction l generalizing s with
  | nil => exact h
  | cons k l ih => exact ih (nameWrite_still h)

theorem nameTags_still (h : Still reads m y s₀ s) {i j : Nat} {c : EngCmd} : Still reads m y s₀ (s.nameTags i j c).1 := nameWrites_still h

theorem raiseTrip_still (h : Still reads m y s₀ s) {t : Trip} : Still reads m y s₀ (s.raiseTrip t) := by
  unfold raiseTrip
  extract_lets i j r s1 _ s2
  have h1 : Still reads m y s₀ s1 := firstRecord_still h rfl fun h => ((((h.put rfl).put rfl).put rfl).put rfl).put rfl |>.put rfl |>.put rfl
  clear_value s1
  have h2 : Still reads m y s₀ s2 := Still.ite h1 (raise_still h1.setYard)
  exact unitFault_still h2

theorem tagTrip_still (h : Still reads m y s₀ s) {p spec port kind : Nat} {u : TagUse} : Still reads m y s₀ (s.tagTrip p spec port kind u) :=
  Still.ite (raiseTrip_still h) h.setYard

theorem tagCheck_still (h : Still reads m y s₀ s) {p spec port kind : Nat} {u : TagUse} : Still reads m y s₀ (s.tagCheck p spec port kind u) :=
  Still.ite h (tagTrip_still h)

theorem tagAccess_still (h : Still reads m y s₀ s) {p spec port k : Nat} {us : List TagUse} {first last : Bool} :
    Still reads m y s₀ (s.tagAccess p spec port us k first last) := by
  unfold tagAccess
  split
  · exact Still.ite (tagCheck_still h) (Still.ite (tagCheck_still h) h)
  · exact h

theorem seqAccess_still (h : Still reads m y s₀ s) {p spec port count j : Nat} {us : List TagUse} {addr : Nat → Nat} :
    Still reads m y s₀ (s.seqAccess p spec port us addr count j) := by
  unfold seqAccess
  refine Still.ite h ?_
  split
  · exact tagAccess_still h
  · exact h

theorem tagOpen_still (h : Still reads m y s₀ s) {p spec seq port : Nat} {u : TagUse} : Still reads m y s₀ (s.tagOpen p spec seq port u) := by
  unfold tagOpen
  extract_lets r t join
  have hjoin : ∀ {v : State}, Still reads m y s₀ v → Still reads m y s₀ (join v) := fun h => h.setYard
  clear_value join
  exact Still.ite h (Still.ite (hjoin ((h.put rfl).put rfl)) (Still.ite (hjoin h) (tagTrip_still h)))

/-! ### Hazards of sails (R99) -/

theorem sailHazard_still (h : Still reads m y s₀ s) {p i j n cause : Nat} : Still reads m y s₀ (s.sailHazard p i j n cause) := by
  unfold sailHazard
  extract_lets s1 s2 sl s3
  have h1 : Still reads m y s₀ s1 := firstRecord_still h rfl fun h => ((h.put rfl).put rfl).put rfl
  clear_value s1
  have h2 : Still reads m y s₀ s2 := h1.setReg rfl
  clear_value s2
  have h3 : Still reads m y s₀ s3 := Still.ite h2 (raise_still h2.setSail)
  exact unitFault_still h3

end State

/-! ### What follows from it -/

section
variable (h : Still reads m y s t)
include h

theorem Still.get (r : RegId) (lo w : Nat) (hr : isUnitRow r.name = true) : t.get r lo w = s.get r lo w := by
  unfold State.get
  rw [h.reg r hr]

theorem Still.cycle : t.cycle = s.cycle := by
  unfold State.cycle State.opPoint State.tickStart State.now
  rw [h.gcnt, h.get _ _ _ rfl, h.reg _ rfl]

theorem Still.suitShape (i j : Nat) : t.suitShape i j = s.suitShape i j := h.get _ _ _ rfl

theorem Still.liveSet (i j n : Nat) : t.liveSet i j n = s.liveSet i j n := h.get _ _ _ rfl

theorem Still.liveEmpty (i j n : Nat) : t.liveEmpty i j n = s.liveEmpty i j n := congrArg (bit · 3) (h.reg _ rfl)

theorem Still.queueOf (i j : Nat) (q : UnitQ) : t.queueOf i j q = s.queueOf i j q := by
  unfold State.queueOf
  rw [h.queues]

end

end
end Sys2Proof.Machine
end

section
/-! SUPPORT. Commands at the head of a sail's queue that start (R87 to R89, R99, R209): what is left when the head is gone from its queue, what
a run issues in its first cycle, and what a flip does to the sets. -/

namespace Sys2Proof.Machine
namespace State

/-! ### The head of a queue (R209) -/

/-- A queue without its head, which starts none in this cycle any more. -/
def popHead (s : State) (m y : Nat) (q : UnitQ) (rest : List EngCmd) : State :=
  let s := s.setQueue m y q rest
  s.setYard m y { s.yard m y with started := SMap.set 0 (s.yard m y).started (unitCode q) (s.cycle + 1) }

section
variable (s : State) (m y : Nat) (q : UnitQ) (rest : List EngCmd)

theorem yard_popHead : (s.popHead m y q rest).yard m y = { s.yard m y with
    queues := SMap.set [] (s.yard m y).queues (unitCode q) rest
    started := SMap.set 0 (s.yard m y).started (unitCode q) (s.cycle + 1) } := by
  simp only [popHead, setQueue, yard_setYard_same]
  rfl

theorem yard_popHead_ne {i j : Nat} (h : 8 * i + j ≠ 8 * m + y) : (s.popHead m y q rest).yard i j = s.yard i j := by
  simp only [popHead, setQueue, yard_setYard_ne _ _ h]

@[simp] theorem queueOf_popHead : (s.popHead m y q rest).queueOf m y q = rest := by
  simp only [queueOf, yard_popHead, SMap.get_set_same]

@[simp] theorem sail_popHead (n : Nat) : (s.popHead m y q rest).sail m y n = s.sail m y n := by simp only [sail, yard_popHead]
@[simp] theorem boom_popHead (n : Nat) : (s.popHead m y q rest).boom m y n = s.boom m y n := by simp only [boom, yard_popHead]
@[simp] theorem chain_popHead : ((s.popHead m y q rest).yard m y).chain = (s.yard m y).chain := by simp only [yard_popHead]
@[simp] theorem access_popHead : ((s.popHead m y q rest).yard m y).access = (s.yard m y).access := by simp only [yard_popHead]
@[simp] theorem cycle_popHead : (s.popHead m y q rest).cycle = s.cycle := rfl
@[simp] theorem prog_popHead (p : Nat) : (s.popHead m y q rest).prog p = s.prog p := rfl
@[simp] theorem mem_popHead : (s.popHead m y q rest).mem = s.mem := rfl

end

section
variable {s : State} {m y : Nat} {q : UnitQ} {c : EngCmd} {rest : List EngCmd}

theorem takeHead_still (reads : Bool) : Still reads m y (s.popHead m y q rest) (s.takeHead m y q c rest).1 := nameTags_still (Still.refl ..)

/-- A head that starts leaves its queue, and its command takes its effect. -/
theorem exec_engineCommandStart (hq : s.queueOf m y q = c :: rest) (hs : s.canStart m y q c = true) :
    exec (.engineCommandStart m y q) s =
      .next ((s.takeHead m y q c rest).1.startCmd m y (unitNo q) c (s.takeHead m y q c rest).2) := by
  show execEngineCommandStart m y q s = _
  unfold execEngineCommandStart
  rw [hq]
  exact congrArg Host.Outcome.next (if_pos hs)

end

/-! ### What the sails' own updates leave -/

/-- A sail with a run in hand. -/
def giveRun (s : State) (m y n : Nat) (r : SailRun) : State := s.setSail m y n { s.sail m y n with run := some r }

/-- A sail with one more vector in its pipeline. -/
def addVector (s : State) (m y n : Nat) (v : SailVec) : State := s.setSail m y n { s.sail m y n with pipe := (s.sail m y n).pipe ++ [v] }

section
variable (s : State) (m y n : Nat)

@[simp] theorem sail_setSail_same (v : SailSt) : (s.setSail m y n v).sail m y n = v := by
  simp only [sail, setSail, yard_setYard_same, SMap.get_set_same]

@[simp] theorem queueOf_setSail (v : SailSt) (q : UnitQ) : (s.setSail m y n v).queueOf m y q = s.queueOf m y q := by
  simp only [queueOf, setSail, yard_setYard_same]

@[simp] theorem sail_giveRun (r : SailRun) : (s.giveRun m y n r).sail m y n = { s.sail m y n with run := some r } := sail_setSail_same ..
@[simp] theorem queueOf_giveRun (r : SailRun) (q : UnitQ) : (s.giveRun m y n r).queueOf m y q = s.queueOf m y q := queueOf_setSail ..
@[simp] theorem sail_addVector (v : SailVec) : (s.addVector m y n v).sail m y n =
    { s.sail m y n with pipe := (s.sail m y n).pipe ++ [v] } := sail_setSail_same ..
@[simp] theorem queueOf_addVector (v : SailVec) (q : UnitQ) : (s.addVector m y n v).queueOf m y q = s.queueOf m y q := queueOf_setSail ..

theorem cycle_put {r : RegId} (lo w x : Nat) (h1 : rid .pwrState ≠ r) (h2 : rid .tickLast ≠ r) : (s.put r lo w x).cycle = s.cycle := by
  unfold cycle opPoint tickStart now
  rw [get_put_ne _ _ _ _ _ _ h1, reg_put_ne _ _ _ _ h2, gcnt_put]

end

/-! ### A run (R86 to R89) -/

section
variable {s : State} {m y n : Nat} {r : SailRun}

/-- A yard whose sails stand alone takes one vector a cycle. -/
theorem twoSlot_alone (n : Nat) (mode : Mode) : twoSlot 0 n mode = false := by
  have habove : ∀ k, sailAbove 0 k = none := fun k => by simp [sailAbove]
  simp [twoSlot, suitHeight, sailIsFoot, sailBelow, habove]

/-- R67: the partials of a run's own vector from a set that is not EMPTY. -/
theorem pushVector_own (hb : r.bcast = false) (hu : r.undef = false) (j : Nat) : ∃ v : SailVec,
    s.pushVector m y n r j = s.addVector m y n v ∧ v.idx = j ∧
      v.due = stageF s.cycle r.mode r.atype ∧ v.dead = false ∧
      v.ps = vectorPartials (s.sail m y n) r.mode r.set (decodeActs (s.sail m y n) r.set r.atype (s.actRaw r j)) := by
  unfold pushVector vecSource
  simp only [hb, hu, Bool.false_eq_true, if_false, Option.map_some, Option.isSome_some, Bool.not_false, Bool.and_self, if_true,
    Option.getD_some]
  exact ⟨_, rfl, rfl, rfl, rfl, rfl⟩

theorem queueOf_pushVector (j : Nat) (q : UnitQ) : (s.pushVector m y n r j).queueOf m y q = s.queueOf m y q := by
  unfold pushVector
  dsimp only
  split
  · exact queueOf_setSail ..
  · exact queueOf_setSail ..

theorem reg_pushVector (j : Nat) (g : RegId) : (s.pushVector m y n r j).reg g = s.reg g := by
  have hk := pushVector_keeps (m := m) (y := y) (n := n) (r := r) (j := j) (Keeps.refl [.yards, .free] s) (Kind.Sub.refl _)
  exact reg_congr (hk.outside .regs (by decide)) hk.part g

/-- The reads of one cycle disturb nothing. -/
theorem issueVectors_reads (s : State) (m y n : Nat) (r : SailRun) : ∃ (w : State) (k : Nat), Still true m y s w ∧
    k = min (if twoSlot (s.suitShape m y) n r.mode then 2 else 1) (r.count - r.issued) ∧
    s.issueVectors m y n r =
      ((List.range k).foldl (fun s i => s.pushVector m y n r (r.issued + i)) w).giveRun m y n { r with issued := r.issued + k } := by
  unfold issueVectors
  dsimp only
  refine ⟨_, _, ?_, rfl, rfl⟩
  refine Still.ite (Still.refl ..) (Still.foldl (fun _ _ h => seqAccess_still h) _ (lineReads_still (Still.refl ..)))

/-- A run issues its vectors: what becomes of its queue, and of the registers that units go by. -/
theorem issueVectors_frame (s : State) (m y n : Nat) (r : SailRun) (q : UnitQ) : (s.issueVectors m y n r).queueOf m y q = s.queueOf m y q ∧
    (∀ g, isUnitRow g.name = true → (s.issueVectors m y n r).reg g = s.reg g) ∧
    ∃ k, ((s.issueVectors m y n r).sail m y n).run = some { r with issued := k } := by
  obtain ⟨w, k, hw, -, heq⟩ := issueVectors_reads s m y n r
  have hpush : ∀ (l : List Nat) (u : State), (l.foldl (fun s i => s.pushVector m y n r (r.issued + i)) u).queueOf m y q = u.queueOf m y q ∧
      ∀ g, (l.foldl (fun s i => s.pushVector m y n r (r.issued + i)) u).reg g = u.reg g := by
    intro l
    induction l with
    | nil => exact fun u => ⟨rfl, fun _ => rfl⟩
    | cons i l ih =>
      intro u
      obtain ⟨hqueue, hreg⟩ := ih (u.pushVector m y n r (r.issued + i))
      exact ⟨hqueue.trans (queueOf_pushVector ..), fun g => (hreg g).trans (reg_pushVector ..)⟩
  obtain ⟨hqueue, hreg⟩ := hpush (List.range k) w
  rw [heq]
  refine ⟨(queueOf_giveRun ..).trans (hqueue.trans (hw.queueOf m y q)), fun g hg => ?_, _, by rw [sail_giveRun]⟩
  exact (hreg g).trans (hw.reg g hg)

/-- A run on a sail of its own issues its first vector (R86). -/
theorem issueVectors_first (s : State) (n : Nat) (hshape : s.suitShape m y = 0) (h0 : r.issued = 0) (hc : 0 < r.count) :
    ∃ w : State, Still true m y s w ∧ s.issueVectors m y n r =
      (w.pushVector m y n r 0).giveRun m y n { r with issued := 1 } := by
  obtain ⟨w, k, hw, hk, heq⟩ := issueVectors_reads s m y n r
  rw [hshape, twoSlot_alone, h0] at hk
  have hone : k = 1 := by
    simp only [Bool.false_eq_true, if_false] at hk
    omega
  rw [hone, h0] at heq
  exact ⟨w, hw, heq⟩

/-! ### A run starts (R88, R89, R99) -/

/-- SAIL_RUN shows a run that starts, and SAIL_STATE holds it back no longer (R100). -/
def shownRun (s : State) (m y n : Nat) (r : SailRun) (flip : Bool) : State := (s.showRun m y n r flip).putSail m y n 8 1 0

theorem showRun_still {reads : Bool} {m' y' : Nat} {s₀ : State} (h : Still reads m' y' s₀ s) {flip : Bool} :
    Still reads m' y' s₀ (s.showRun m y n r flip) := by
  unfold showRun
  extract_lets g md s1
  have h1 : Still reads m' y' s₀ s1 := ((h.put rfl).put rfl).put rfl
  clear_value s1
  exact ((h1.put rfl).put rfl).put rfl

theorem cycle_shownRun (s : State) (m y n : Nat) (r : SailRun) (flip : Bool) : (s.shownRun m y n r flip).cycle = s.cycle :=
  (cycle_put _ _ _ _ (by simp [rid, yreg]) (by simp [rid, yreg])).trans (showRun_still (Still.refl true m y s)).cycle

theorem suitShape_shownRun (s : State) (m y n : Nat) (r : SailRun) (flip : Bool) : (s.shownRun m y n r flip).suitShape m y = s.suitShape m y :=
  (get_put_ne _ _ _ _ _ _ (by simp [yreg])).trans ((showRun_still (Still.refl true m y s)).suitShape m y)

theorem shownRun_outside (s : State) (m y n : Nat) (r : SailRun) (flip : Bool) : Outside [.regs] s (s.shownRun m y n r flip) :=
  (putSail_keeps (showRun_keeps (Keeps.refl [.regs] s) (Kind.Sub.refl _)) (Kind.Sub.refl _)).outside

/-- A run that does not flip, from a set that is not EMPTY, meets no hazard. -/
theorem startRun_firm {c : EngCmd} {mode : Mode} {atype count entry : Nat} {first : Bool} {act : Slice} {tags : List TagUse}
    (h : s.liveEmpty m y n = false) (hr : r = ⟨c.prog, c.spec, c.seq, s.cycle, count, 0, mode, atype, false, first, act, entry, s.liveSet m y n,
      false, tags⟩) :
    s.startRun c m y n mode atype false false first act count entry tags = (s.shownRun m y n r false).issueVectors m y n r := by
  subst hr
  unfold startRun shownRun
  simp only [h, Bool.false_eq_true, if_false, Bool.false_and]

/-! ### What a run computes with (R67) -/

theorem elem_congr {s t : State} (h : t.mem = s.mem) (v : View) (e : Nat) : t.elem v e = s.elem v e := by
  simp only [elem, load, bytes, byte_congr h]

theorem viewAt_congr {g g' : Prog} (h : g'.outer = g.outer) (o : Slice) (write : Bool) (spec : Nat) : g'.viewAt o write spec = g.viewAt o write spec :=
  (congrArg (fun g : Prog => g.viewAt o write spec) h : g'.outer.viewAt o write spec = g.outer.viewAt o write spec)

theorem actRaw_congr {s t : State} (hmem : t.mem = s.mem) (hprog : ∀ p, (t.prog p).outer = (s.prog p).outer) {r q : SailRun}
    (hp : q.prog = r.prog) (ha : q.act = r.act) (hs : q.spec = r.spec) (j : Nat) : t.actRaw q j = s.actRaw r j := by
  unfold actRaw
  dsimp only
  rw [hp, ha, hs, viewAt_congr (hprog r.prog)]
  simp only [elem_congr hmem]

theorem vectorPartials_congr {a b : SailSt} (h : a.body = b.body) (mode : Mode) (set : Nat) (acts : List Int) :
    vectorPartials a mode set acts = vectorPartials b mode set acts :=
  (congrArg (fun x : SailSt => vectorPartials x mode set acts) h : vectorPartials a.body mode set acts = vectorPartials b.body mode set acts)

theorem decodeActs_congr {a b : SailSt} (h : a.body = b.body) (set atype : Nat) (raw : List Nat) :
    decodeActs a set atype raw = decodeActs b set atype raw :=
  (congrArg (fun x : SailSt => decodeActs x set atype raw) h : decodeActs a.body set atype raw = decodeActs b.body set atype raw)

end

section
variable {s u : State} {m y n : Nat} {rest : List EngCmd} {r : SailRun}

/-- R67, R86 to R88: a run on a sail of its own, from a set that is not EMPTY, shows itself and issues its first vector. -/
theorem shownRun_first (hu : Still true m y (s.popHead m y (.sail n) rest) u) (hshape : s.suitShape m y = 0) (hb : r.bcast = false)
    (hundef : r.undef = false) (h0 : r.issued = 0) (hc : 0 < r.count) : ∃ (w : State) (v : SailVec),
      (u.shownRun m y n r false).issueVectors m y n r = (w.addVector m y n v).giveRun m y n { r with issued := 1 } ∧
      w.queueOf m y (.sail n) = rest ∧ (w.sail m y n).body = (s.sail m y n).body ∧
      v.idx = 0 ∧ v.due = stageF s.cycle r.mode r.atype ∧ v.dead = false ∧ (Unmade (s.yard m y).access → w.mem = s.mem ∧
        v.ps = vectorPartials (s.sail m y n) r.mode r.set (decodeActs (s.sail m y n) r.set r.atype (s.actRaw r 0))) := by
  have hshown := shownRun_outside u m y n r false
  have hyards : (u.shownRun m y n r false).yards = u.yards := hshown .yards (by decide)
  have hmem : (u.shownRun m y n r false).mem = u.mem := hshown .mem (by decide)
  have hprogs : (u.shownRun m y n r false).progs = u.progs := hshown .progs (by decide)
  obtain ⟨w, hw, hissue⟩ := issueVectors_first (u.shownRun m y n r false) n
    ((suitShape_shownRun ..).trans ((hu.suitShape m y).trans hshape)) h0 hc
  obtain ⟨v, hpush, hidx, hdue, hdead, hps⟩ := pushVector_own (s := w) (m := m) (y := y) (n := n) hb hundef 0
  have hbody : (w.sail m y n).body = (s.sail m y n).body := by rw [hw.sail, sail_congr hyards, hu.sail, sail_popHead]
  have hcycle : w.cycle = s.cycle := by rw [hw.cycle, cycle_shownRun, hu.cycle, cycle_popHead]
  have hprog : ∀ p, (w.prog p).outer = (s.prog p).outer := fun p => by rw [hw.prog, prog_congr hprogs, hu.prog, prog_popHead]
  refine ⟨w, v, by rw [hissue, hpush], ?queue, hbody, hidx, by rw [hdue, hcycle], hdead, fun hunmade => ?reads⟩
  case queue =>
    rw [hw.queueOf]
    simp only [queueOf, yard_congr hyards]
    exact (hu.queueOf m y (.sail n)).trans (queueOf_popHead ..)
  case reads =>
    have hu' : Unmade (u.yard m y).access := hu.unmade (by rwa [access_popHead])
    have hw' : w.mem = s.mem := by
      rw [hw.mem fun _ => by rwa [yard_congr hyards], hmem, hu.mem fun _ => by rwa [access_popHead], mem_popHead]
    exact ⟨hw', by rw [hps, vectorPartials_congr hbody, decodeActs_congr hbody, actRaw_congr hw' hprog rfl rfl rfl]⟩

end

/-! ### A run that flips (R89, Table 4.1) -/

section
variable {s u : State} {m y n : Nat}

theorem flipSail_sets (s : State) (m y n : Nat) : (s.flipSail m y n).liveSet m y n = 1 - s.liveSet m y n ∧
    (s.flipSail m y n).shadowState m y n = 2 := by
  have hbound : 1 - fld (s.reg (yreg .sailState m y n)) 0 1 < 2 := by omega
  unfold flipSail putSail liveSet shadowState
  dsimp only
  constructor
  · rw [get_put_field _ _ _ (by decide), get_put_field _ _ _ (by decide), get_put_field _ _ _ (by decide), get_put_field _ _ _ (by decide),
      get_put_same _ _ _ (by decide)]
    exact Nat.mod_eq_of_lt hbound
  · rw [get_put_field _ _ _ (by decide), get_put_field _ _ _ (by decide), get_put_field _ _ _ (by decide), get_put_same _ _ _ (by decide)]
    rfl

theorem yards_flipSail (s : State) (m y n : Nat) : (s.flipSail m y n).yards = s.yards :=
  (flipSail_keeps (Keeps.refl [.regs] s) (Kind.Sub.refl _)).outside .yards (by decide)

/-- Showing a run does not change its sets. -/
theorem shownRun_sets (s : State) (m y n : Nat) (r : SailRun) (flip : Bool) : (s.shownRun m y n r flip).liveSet m y n = s.liveSet m y n ∧
    (s.shownRun m y n r flip).shadowState m y n = s.shadowState m y n := by
  have hshow := showRun_still (m := m) (y := y) (r := r) (n := n) (flip := flip) (Still.refl true m y s)
  exact ⟨(get_put_field _ _ _ (by decide)).trans (hshow.get _ _ _ rfl), (get_put_field _ _ _ (by decide)).trans (hshow.get _ _ _ rfl)⟩

/-- R88, R89: a run that flips, whatever hazards it meets (R99). -/
theorem startRun_flip {c : EngCmd} {mode : Mode} {atype count entry : Nat} {bcast first : Bool} {act : Slice} {tags : List TagUse} :
    ∃ r, (∀ q, (u.startRun c m y n mode atype true bcast first act count entry tags).queueOf m y q = u.queueOf m y q) ∧
      (u.startRun c m y n mode atype true bcast first act count entry tags).liveSet m y n = 1 - u.liveSet m y n ∧
      (u.startRun c m y n mode atype true bcast first act count entry tags).shadowState m y n = 2 ∧
      ((u.startRun c m y n mode atype true bcast first act count entry tags).sail m y n).run = some r ∧ r.set = 1 - u.liveSet m y n := by
  unfold startRun
  extract_lets st s1 s2 s3 r
  have h1 : Still true m y u s1 := Still.ite (sailHazard_still (Still.refl ..)) (Still.refl ..)
  have h2 : Still true m y u s2 := Still.ite (sailHazard_still h1) h1
  have h3 : s3 = s2.flipSail m y n := if_pos rfl
  obtain ⟨hlive, hshadow⟩ := flipSail_sets s2 m y n
  obtain ⟨hlive', hshadow'⟩ := shownRun_sets s3 m y n r true
  rw [h3, hlive, h2.liveSet] at hlive'
  rw [h3, hshadow] at hshadow'
  have hissue := issueVectors_frame (s3.shownRun m y n r true) m y n r
  obtain ⟨-, hreg, k, hrun⟩ := hissue (.sail n)
  refine ⟨_, fun q => ?queue, ?live, ?shadow, hrun, ?set⟩
  case queue =>
    refine (hissue q).1.trans ?_
    have hyards : (s3.shownRun m y n r true).yards = s3.yards := shownRun_outside s3 m y n r true .yards (by decide)
    rw [queueOf, yard_congr hyards, h3, yard_congr (yards_flipSail ..)]
    exact h2.queueOf m y q
  case live => exact (congrArg (fld · 0 1) (hreg _ rfl)).trans hlive'
  case shadow => exact (congrArg (fld · 1 2) (hreg _ rfl)).trans hshadow'
  case set => exact (congrArg (liveSet · m y n) h3).trans (hlive.trans (by rw [h2.liveSet]))

end

end State
end Sys2Proof.Machine
end

section
/-! SUPPORT. The booms (R71, R87, R94, R95, R109): what an accumulator entry reads as after a write, what joins it, what an epilogue and a
preload take in their first cycle, the chain, and outputs that leave. -/

namespace Sys2Proof.Machine

/-! ### Accumulator entries (R73, R226) -/

theorem BoomSt.entry_getD (b : BoomSt) (e : Nat) {l : Nat} (h : l < 32) : (b.entry e).getD l 0 = SMap.get 0 b.acc (accKey (b.readBank e) e l) := by
  simp [BoomSt.entry, h]

@[simp] theorem BoomSt.length_entry (b : BoomSt) (e : Nat) : (b.entry e).length = 32 := by simp [BoomSt.entry]

/-- What does not read the loaded codebook reads the same of two booms that are the same but for it. -/
theorem BoomSt.field_congr {β : Type} {a b : BoomSt} (h : a.body = b.body) (f : BoomSt → β) (hf : ∀ b, f b.body = f b := by exact fun _ => rfl) :
    f a = f b := by
  rw [← hf a, h, hf b]

/-- An entry that no epoch has written reads what a command under none writes into it. -/
theorem BoomSt.entry_setEntry {b : BoomSt} {e : Nat} (hp : SMap.get 0 b.pending e = 0) (v : List Word) {l : Nat} (h : l < 32) :
    ((b.setEntry e 0 v).entry e).getD l 0 = v.getD l 0 := by
  have hbank : (b.setEntry e 0 v).readBank e = b.writeBank e 0 := by
    simp [BoomSt.readBank, BoomSt.writeBank, BoomSt.setEntry, hp]
  rw [BoomSt.entry_getD _ _ h, hbank]
  simp only [BoomSt.setEntry, accKey, SMap.get_setRange]
  rw [if_pos (by omega)]
  congr 1
  omega

namespace State

section
variable (s : State) (m y n : Nat)

@[simp] theorem boom_setBoom_same (b : BoomSt) : (s.setBoom m y n b).boom m y n = b := by
  simp only [boom, setBoom, yard_setYard_same, SMap.get_set_same]

@[simp] theorem queueOf_setBoom (b : BoomSt) (q : UnitQ) : (s.setBoom m y n b).queueOf m y q = s.queueOf m y q := by
  simp only [queueOf, setBoom, yard_setYard_same]

@[simp] theorem boom_putEntry (e spec : Nat) (v : List Word) : (s.putEntry m y n e spec v).boom m y n = (s.boom m y n).setEntry e spec v := by
  unfold putEntry
  rw [boom_congr (yards_put _ _ _ _ _), boom_setBoom_same]

/-- Causes met under no epoch are met at once (R75): no unit holds them back. -/
theorem yards_specCauses (p slot causes : Nat) : (s.specCauses p m y n 0 slot causes).yards = s.yards := by
  rw [specCauses, if_pos rfl]
  exact (meetCauses_keeps (Keeps.refl [.regs, .progs, .events] s) (Kind.Sub.refl _)).outside .yards (by decide)

end

section
variable {s : State} {m y n : Nat}

/-- R95: the vector read is written into its entry. -/
theorem writePre_entry {o : BoomPre} (hs : o.spec = 0) (hp : SMap.get 0 (s.boom m y n).pending o.entry = 0) {l : Nat} (hl : l < 32) :
    (((s.writePre m y n o).boom m y n).entry o.entry).getD l 0 = o.lanes.getD l 0 := by
  unfold writePre
  rw [hs, boom_congr (yards_specCauses ..), boom_putEntry, BoomSt.entry_setEntry hp _ hl]

/-- R71, R87: each partial of a vector joins its lane by a rescale. -/
theorem joinPartials_entry {v : SailVec} (hs : v.run.spec = 0)
    (hp : SMap.get 0 (s.boom m y n).pending ((v.run.entry + v.idx) % 512) = 0) (hv : v.ps.length = 32) {l : Nat} (hl : l < 32) :
    let g := s.prog v.run.prog
    let va := g.view v.run.act false
    let gs := groupSize va.t.gsz
    let at_ := (v.run.act.off + v.idx) * 32
    let wt := g.tensor (v.tid - 1)
    let kt := cdiv (wt.dims.getD 0 1) 32
    (((s.joinPartials m y n v).boom m y n).entry ((v.run.entry + v.idx) % 512)).getD l 0 = (rescale (v.ps.getD l 0)
       (s.actScale g va (at_ / va.t.width) (at_ % va.t.width / gs))
       (wtScale g wt ((v.tile - 1) % kt * 32 / gs) ((v.tile - 1) / kt * 32 + l)) v.run.first
       (((s.boom m y n).entry ((v.run.entry + v.idx) % 512)).getD l 0)).1 := by
  intro g va gs at_ wt kt
  have hpartial : v.ps.getD l 0 = v.ps[l] := List.getD_eq_getElem _ _ (by rwa [hv])
  have hlane : ((s.boom m y n).entry ((v.run.entry + v.idx) % 512)).getD l 0 = ((s.boom m y n).entry ((v.run.entry + v.idx) % 512))[l] :=
    List.getD_eq_getElem _ _ (by simpa using hl)
  rw [hpartial, hlane]
  unfold joinPartials tallied
  dsimp only
  rw [hs, boom_congr (yards_specCauses ..), boom_putEntry, BoomSt.entry_setEntry hp _ hl, List.getD_eq_getElem _ _ (by simp [hv, hl]),
    List.getElem_map, List.getElem_zip, List.getElem_mapIdx]
  rfl

end

/-! ### An epilogue takes its first entry (R71, R82) -/

section
variable {reads : Bool} {m y : Nat} {s₀ s : State}

theorem loadOcbk_still (h : Still reads m y s₀ s) {i j n : Nat} {es : List Int} : Still reads m y s₀ (s.loadOcbk i j n es) := by
  unfold loadOcbk
  extract_lets f
  exact Still.ite h (h.setBoom.other rfl rfl rfl rfl rfl rfl)

theorem boomConfig_still (h : Still reads m y s₀ s) {i j n gsz : Nat} {c : EpiCfg} {bias : Bool} {slot : Option Nat} :
    Still reads m y s₀ (s.boomConfig i j n gsz c bias slot) := by
  unfold boomConfig
  extract_lets r s1 s2 s3 s4
  have h1 : Still reads m y s₀ s1 := ((h.put rfl).put rfl).put rfl
  clear_value s1
  have h2 : Still reads m y s₀ s2 := ((h1.put rfl).put rfl).put rfl
  clear_value s2
  have h3 : Still reads m y s₀ s3 := (h2.setReg rfl).setReg rfl
  clear_value s3
  have h4 : Still reads m y s₀ s4 := (h3.setReg rfl).setReg rfl
  exact Still.ite (loadOcbk_still h4) h4

theorem scaleConfig_still (h : Still reads m y s₀ s) {i j n : Nat} {t : Tensor} : Still reads m y s₀ (s.scaleConfig i j n t) :=
  (h.setReg rfl).setReg rfl

end

/-- The elements of a row that the first entry of an epilogue gives. -/
def epiLanes (s : State) (g : Prog) (b : BoomSt) (bias : Bool) (dst : Slice) (entry biasTid rec : Nat) : List Nat :=
  let d := g.view dst true
  let w := d.t.width
  let col := dst.off * w % w
  ((b.entry (entry % 512)).take (min 32 (w - col))).mapIdx fun l a =>
    (epilogue (s.outCfg g d (g.box.epiCfg rec) (dst.off * w / w) (col + l)) a
      (if bias then some (s.elemFp g (g.view ⟨biasTid, 0⟩ false) (col + l)) else none)).1

theorem elemFp_congr {s t : State} (h : t.mem = s.mem) (g : Prog) (v : View) (e : Nat) : t.elemFp g v e = s.elemFp g v e := by
  simp only [elemFp, elemVu, elemInt, elemScale, elem_congr h]
  rfl

theorem epiLanes_congr {s t : State} {g g' : Prog} {b b' : BoomSt} (hmem : t.mem = s.mem) (hg : g'.outer = g.outer) (hb : ∀ e, b'.entry e = b.entry e)
    (bias : Bool) (dst : Slice) (entry biasTid rec : Nat) :
    t.epiLanes g' b' bias dst entry biasTid rec = s.epiLanes g b bias dst entry biasTid rec := by
  have hprog : t.epiLanes g' b' bias dst entry biasTid rec = t.epiLanes g b' bias dst entry biasTid rec :=
    (congrArg (fun g : Prog => t.epiLanes g b' bias dst entry biasTid rec) hg :
      t.epiLanes g'.outer b' bias dst entry biasTid rec = t.epiLanes g.outer b' bias dst entry biasTid rec)
  rw [hprog]
  unfold epiLanes
  simp only [hb, elemFp_congr hmem]
  rfl

/-- The members of a list with their places, some of them taken. -/
theorem map_take_mapIdx {α β : Type} (f : α × Nat → β) (l : List α) (k : Nat) :
    ((l.mapIdx fun i a => (a, i)).take k).map f = (l.take k).mapIdx fun i a => f (a, i) := by
  apply List.ext_getElem
  · simp
  · intro i h1 h2
    simp

/-- A boom with one more output on its way. -/
def addOut (s : State) (m y n : Nat) (o : BoomOut) : State := s.setBoom m y n { s.boom m y n with outs := (s.boom m y n).outs ++ [o] }

/-- A boom with a job in hand. -/
def giveJob (s : State) (m y n : Nat) (j : BoomJob) : State := s.setBoom m y n { s.boom m y n with job := some j }

section
variable {s : State} {m y n : Nat}

@[simp] theorem boom_addOut (o : BoomOut) : (s.addOut m y n o).boom m y n = { s.boom m y n with outs := (s.boom m y n).outs ++ [o] } :=
  boom_setBoom_same ..
@[simp] theorem queueOf_addOut (o : BoomOut) (q : UnitQ) : (s.addOut m y n o).queueOf m y q = s.queueOf m y q := queueOf_setBoom ..
@[simp] theorem boom_giveJob (j : BoomJob) : (s.giveJob m y n j).boom m y n = { s.boom m y n with job := some j } := boom_setBoom_same ..
@[simp] theorem queueOf_giveJob (j : BoomJob) (q : UnitQ) : (s.giveJob m y n j).queueOf m y q = s.queueOf m y q := queueOf_setBoom ..

theorem mem_epiEntry {j : BoomJob} {bias : Bool} {dst : Slice} {entry biasTid rec : Nat} :
    (s.epiEntry j m y n bias dst entry biasTid rec).mem = s.mem :=
  mem_of (epiEntry_keeps (Keeps.refl [.regs, .yards] s) (Kind.Sub.refl _)) rfl

/-- The first entry of an epilogue: its output is on its way to the row's elements. -/
theorem epiEntry_first {j : BoomJob} (h0 : j.taken = 0) (hs : j.spec = 0) (bias : Bool) (dst : Slice) (entry biasTid rec : Nat) :
    ∃ o : BoomOut, (s.epiEntry j m y n bias dst entry biasTid rec).yards = (s.addOut m y n o).yards ∧ o.prog = j.prog ∧
      o.addr = ((s.prog j.prog).view dst true).elemAddr (dst.off * ((s.prog j.prog).view dst true).t.width) ∧
      o.data = packRow (typeBits ((s.prog j.prog).view dst true).t.type)
        (s.epiLanes (s.prog j.prog) (s.boom m y n) bias dst entry biasTid rec) ∧
      o.due = s.cycle + epiLatency ((s.prog j.prog).box.epiCfg rec).qmode := by
  unfold epiEntry tallied
  dsimp only
  rw [h0, hs]
  simp only [Nat.mul_zero, Nat.add_zero, map_take_mapIdx]
  rw [apply_ite State.yards, yards_setReg, ite_self]
  exact ⟨_, rfl, rfl, rfl, rfl, rfl⟩

/-- A job in hand takes its first entry. -/
theorem jobStep_epi {j : BoomJob} {bias : Bool} {dst : Slice} {entry count biasTid rec : Nat} (hj : j.op = .epi bias dst entry (count + 1) biasTid rec)
    (h0 : j.taken = 0) : (s.giveJob m y n j).jobStep m y n =
      ((s.giveJob m y n j).epiEntry j m y n bias dst entry biasTid rec).giveJob m y n { j with taken := 1 } := by
  unfold jobStep giveJob
  rw [boom_setBoom_same]
  dsimp only
  rw [if_neg (by simp [hj, h0, EngOp.entries]), hj, h0]

/-- What stands before the first entry of an epilogue under no epoch: the configuration registers show it, and its reads pass the tripwires. -/
theorem startJob_epi {c : EngCmd} {bias : Bool} {dst : Slice} {entry count biasTid rec : Nat} (hc : c.op = .epi bias dst entry count biasTid rec)
    (hs : c.spec = 0) (tags : Tags) : ∃ w, Still false m y s w ∧
      s.startJob c m y n tags = (w.giveJob m y n ⟨c.op, c.prog, c.spec, c.seq, 0, tags⟩).jobStep m y n := by
  unfold startJob
  simp only [hc, hs, openShadow_firm]
  refine ⟨_, ?_, rfl⟩
  refine Still.foldl (fun _ _ h => tagCheck_still h) _ (Still.ite (scaleConfig_still ?_) ?_) <;> exact boomConfig_still (Still.refl ..)

theorem startJob_pre {c : EngCmd} {src : Slice} {entry count : Nat} (hc : c.op = .pre src entry count) (tags : Tags) :
    s.startJob c m y n tags = (s.giveJob m y n ⟨c.op, c.prog, c.spec, c.seq, 0, tags⟩).jobStep m y n := by
  unfold startJob
  simp only [hc]
  rfl

/-- R71: boom.epi starts. -/
theorem epi_first {u : State} {c : EngCmd} {rest : List EngCmd} {bias : Bool} {dst : Slice} {entry count biasTid rec : Nat}
    (hu : Still false m y (s.popHead m y (.boom n) rest) u) (hc : c.op = .epi bias dst entry (count + 1) biasTid rec) (hs : c.spec = 0)
    (tags : Tags) :
    let t := u.startJob c m y n tags
    let d := (s.prog c.prog).view dst true
    ∃ (o : BoomOut) (j : BoomJob), t.queueOf m y (.boom n) = rest ∧ (t.boom m y n).job = some j ∧ j.op = c.op ∧ j.taken = 1 ∧
      (t.boom m y n).outs = (s.boom m y n).outs ++ [o] ∧ o.prog = c.prog ∧ o.addr = d.elemAddr (dst.off * d.t.width) ∧
      o.data = packRow (typeBits d.t.type) (s.epiLanes (s.prog c.prog) (s.boom m y n) bias dst entry biasTid rec) ∧
      o.due = s.cycle + epiLatency ((s.prog c.prog).box.epiCfg rec).qmode ∧ t.mem = s.mem := by
  intro t d
  obtain ⟨w, hw, hstart⟩ := startJob_epi (n := n) hc hs tags
  have h := hu.trans hw
  obtain ⟨o, hyards, hprog, haddr, hdata, hdue⟩ := epiEntry_first (s := w.giveJob m y n ⟨c.op, c.prog, c.spec, c.seq, 0, tags⟩) (m := m) (y := y)
    (n := n) (j := ⟨c.op, c.prog, c.spec, c.seq, 0, tags⟩) rfl hs bias dst entry biasTid rec
  have ht : t = _ := hstart.trans (jobStep_epi hc rfl)
  have hbody : (w.boom m y n).body = (s.boom m y n).body := by rw [h.boom, boom_popHead]
  have hmem : w.mem = s.mem := h.mem (fun h => Bool.noConfusion h)
  have hg : (w.prog c.prog).outer = (s.prog c.prog).outer := h.prog c.prog
  have hview : (w.prog c.prog).view dst true = d := viewAt_congr hg dst true 0
  have hbox : (w.prog c.prog).box = (s.prog c.prog).box :=
    (congrArg Prog.box hg : (w.prog c.prog).outer.box = (s.prog c.prog).outer.box)
  refine ⟨o, _, ?queue, by rw [ht, boom_giveJob], rfl, rfl, ?outs, hprog, haddr.trans (by rw [← hview]; rfl), ?data, ?due, ?mem⟩
  case queue =>
    rw [ht, queueOf_giveJob, queueOf, yard_congr hyards]
    exact (queueOf_addOut ..).trans ((queueOf_giveJob ..).trans ((h.queueOf m y _).trans (queueOf_popHead ..)))
  case outs =>
    rw [ht, boom_giveJob, boom_congr hyards, boom_addOut, boom_giveJob]
    exact congrArg (· ++ [o]) (BoomSt.field_congr hbody BoomSt.outs)
  case data =>
    rw [hdata, ← hview]
    refine congrArg (packRow _) (epiLanes_congr hmem hg (fun e => ?_) ..)
    rw [boom_giveJob]
    exact BoomSt.field_congr hbody (·.entry e)
  case due =>
    rw [hdue, ← hbox, ← cycle_popHead s m y (.boom n) rest, ← h.cycle]
    rfl
  case mem =>
    rw [ht]
    exact mem_epiEntry.trans hmem

end

end State
end Sys2Proof.Machine
end

section
/-! SUPPORT. Preloads in their first cycle, the chain, and outputs that leave (R94, R95, R99, R109). -/

namespace Sys2Proof.Machine
namespace State

/-! ### A preload reads its first vector (R95) -/

/-- A boom with one more preloaded vector on its way. -/
def addPre (s : State) (m y n : Nat) (o : BoomPre) : State := s.setBoom m y n { s.boom m y n with pres := (s.boom m y n).pres ++ [o] }

/-- The first 32 elements of a preload's source as the filter lets them in. -/
def preLanes (s : State) (v : View) (src : Slice) : List Word :=
  (List.range 32).map fun l => (preloadFilter (BitVec.ofNat 32 (s.elem v (src.off * v.t.width + l)))).1

section
variable {s : State} {m y n : Nat}

@[simp] theorem boom_addPre (o : BoomPre) : (s.addPre m y n o).boom m y n = { s.boom m y n with pres := (s.boom m y n).pres ++ [o] } :=
  boom_setBoom_same ..
@[simp] theorem queueOf_addPre (o : BoomPre) (q : UnitQ) : (s.addPre m y n o).queueOf m y q = s.queueOf m y q := queueOf_setBoom ..

theorem preLanes_congr {t : State} (h : t.mem = s.mem) (v : View) (src : Slice) : t.preLanes v src = s.preLanes v src := by
  simp only [preLanes, elem_congr h]

theorem getD_preLanes (s : State) (v : View) (src : Slice) {l : Nat} (h : l < 32) :
    (s.preLanes v src).getD l 0 = (preloadFilter (BitVec.ofNat 32 (s.elem v (src.off * v.t.width + l)))).1 := by
  simp [preLanes, h]

/-- The first vector of a preload passes the filter and is on its way; its read disturbs nothing. -/
theorem preEntry_first (s : State) (n : Nat) {j : BoomJob} (h0 : j.taken = 0) (src : Slice) (entry : Nat) : ∃ (v : State) (o : BoomPre),
    Still true m y s v ∧ s.preEntry j m y n src entry = v.addPre m y n o ∧ o.entry = entry % 512 ∧ o.spec = j.spec ∧ o.due = v.cycle + 4 ∧
      o.lanes = s.preLanes ((s.prog j.prog).viewAt src false j.spec) src := by
  unfold preEntry tallied
  dsimp only
  rw [h0]
  exact ⟨_, _, seqAccess_still (lineReads_still (Still.refl ..)), rfl, rfl, rfl, rfl, rfl⟩

/-- A job in hand reads its first vector. -/
theorem jobStep_pre {j : BoomJob} {src : Slice} {entry count : Nat} (hj : j.op = .pre src entry (count + 1)) (h0 : j.taken = 0) :
    (s.giveJob m y n j).jobStep m y n = ((s.giveJob m y n j).preEntry j m y n src entry).giveJob m y n { j with taken := 1 } := by
  unfold jobStep giveJob
  rw [boom_setBoom_same]
  dsimp only
  rw [if_neg (by simp [hj, h0, EngOp.entries]), hj, h0]

/-- R95: boom.pre starts. -/
theorem pre_first {u : State} {c : EngCmd} {rest : List EngCmd} {src : Slice} {entry count : Nat}
    (hu : Still true m y (s.popHead m y (.boom n) rest) u) (hc : c.op = .pre src entry (count + 1)) (tags : Tags) :
    let t := u.startJob c m y n tags
    ∃ (o : BoomPre) (j : BoomJob), t.queueOf m y (.boom n) = rest ∧ (t.boom m y n).job = some j ∧ j.op = c.op ∧ j.taken = 1 ∧
      (t.boom m y n).pres = (s.boom m y n).pres ++ [o] ∧ o.entry = entry % 512 ∧ o.spec = c.spec ∧ o.due = s.cycle + 4 ∧
      (Unmade (s.yard m y).access → t.mem = s.mem ∧ o.lanes = s.preLanes ((s.prog c.prog).viewAt src false c.spec) src) := by
  intro t
  obtain ⟨v, o, hv, hentry, hnum, hspec, hdue, hlanes⟩ :=
    preEntry_first (m := m) (y := y) (u.giveJob m y n ⟨c.op, c.prog, c.spec, c.seq, 0, tags⟩) n
      (j := ⟨c.op, c.prog, c.spec, c.seq, 0, tags⟩) rfl src entry
  have ht : t = (v.addPre m y n o).giveJob m y n ⟨c.op, c.prog, c.spec, c.seq, 1, tags⟩ :=
    (startJob_pre hc tags).trans ((jobStep_pre hc rfl).trans (by rw [hentry]))
  have hbody : (u.boom m y n).body = (s.boom m y n).body := by rw [hu.boom, boom_popHead]
  have hpres : (v.boom m y n).pres = (s.boom m y n).pres := by
    have h : (v.boom m y n).body.pres = (u.boom m y n).body.pres := by rw [hv.boom, boom_giveJob]; rfl
    exact h.trans (BoomSt.field_congr hbody BoomSt.pres)
  refine ⟨o, _, ?queue, by rw [ht, boom_giveJob], rfl, rfl, by rw [ht, boom_giveJob, boom_addPre, ← hpres], hnum, hspec, ?due, fun hunmade => ?reads⟩
  case queue => rw [ht, queueOf_giveJob, queueOf_addPre, hv.queueOf, queueOf_giveJob, hu.queueOf, queueOf_popHead]
  case due =>
    rw [hdue, hv.cycle]
    exact congrArg (· + 4) hu.cycle
  case reads =>
    have hunmade' : Unmade ((s.popHead m y (.boom n) rest).yard m y).access := by rwa [access_popHead]
    have hmem : u.mem = s.mem := hu.mem fun _ => hunmade'
    have haccess : ((u.giveJob m y n ⟨c.op, c.prog, c.spec, c.seq, 0, tags⟩).yard m y).access = (u.yard m y).access := by
      rw [giveJob, setBoom, yard_setYard_same]
    refine ⟨?_, ?_⟩
    · rw [ht]
      exact (hv.mem fun _ => haccess ▸ hu.unmade hunmade').trans hmem
    · rw [hlanes]
      exact (preLanes_congr hmem _ src).trans (congrArg (s.preLanes · src) (viewAt_congr (hu.prog c.prog) src false c.spec))

end

/-! ### The chain (R94, R99) -/

section
variable {s u : State} {m y n : Nat} {q : UnitQ} {rest : List EngCmd}

/-- A queue of its own yard stands when the next yard is given a vector. -/
theorem queueOf_startChout (s : State) (m y n entry : Nat) (q : UnitQ) : (s.startChout m y n entry).queueOf m y q = s.queueOf m y q := by
  unfold startChout
  split
  · rw [queueOf, yard_setYard_ne s _ (by omega)]
    rfl
  · rfl

/-- R94: boom.chout sends its entry, where both ends of the link are enabled. -/
theorem chain_startChout (hk : Keeps [.yards] s u) (hu : Still false m y (s.popHead m y q rest) u)
    (hout : bit (s.reg (yreg .yardChain m y)) 0 = true) (hin : bit (s.reg (yreg .yardChain m (y + 1))) 1 = true) (hy : y < 7)
    (hyard : s.yardIn m (y + 1) = true) (entry : Nat) :
    ((u.startChout m y n entry).yard m (y + 1)).chain = (s.yard m (y + 1)).chain ++ [((s.boom m y n).entry entry, s.cycle + 3)] := by
  have hreg : ∀ r, u.reg r = s.reg r := reg_congr (hk.outside .regs (by decide)) hk.part
  have hcond : (bit (u.reg (yreg .yardChain m y)) 0 && bit (u.reg (yreg .yardChain m (y + 1))) 1 && decide (y < 7) &&
      u.yardIn m (y + 1)) = true := by
    simp only [yardIn, hreg, hk.part] at hyard ⊢
    simp [hout, hin, hy, hyard]
  have hchain : (u.yard m (y + 1)).chain = (s.yard m (y + 1)).chain := by rw [hu.chain, yard_popHead_ne _ _ _ _ _ (by omega)]
  have hentry : (u.boom m y n).entry entry = (s.boom m y n).entry entry :=
    BoomSt.field_congr (by rw [hu.boom, boom_popHead]) (·.entry entry)
  unfold startChout
  rw [if_pos hcond, yard_setYard_same, hchain, hentry, hu.cycle, cycle_popHead]

/-- R94: boom.chin takes the vector that arrives in its cycle. -/
theorem startChin_arrival (p n entry : Nat) {v : List Word} {ch : List (List Word × Nat)} (hu : (u.yard m y).chain = (v, u.cycle) :: ch) :
    u.startChin p m y n entry = (u.setYard m y { u.yard m y with chain := ch }).putEntry m y n entry 0 v := by
  unfold startChin
  rw [hu]
  simp

theorem chain_putEntry (s : State) (m y n e spec : Nat) (v : List Word) : ((s.putEntry m y n e spec v).yard m y).chain = (s.yard m y).chain := by
  unfold putEntry setBoom
  rw [yard_put, yard_setYard_same]

theorem queueOf_putEntry (s : State) (m y n e spec : Nat) (v : List Word) (q : UnitQ) :
    (s.putEntry m y n e spec v).queueOf m y q = s.queueOf m y q := by
  unfold putEntry
  rw [queueOf, yard_put]
  exact queueOf_setBoom ..

theorem mem_putEntry (s : State) (m y n e spec : Nat) (v : List Word) : (s.putEntry m y n e spec v).mem = s.mem := rfl

/-- What boom.chin leaves in its entry, its queue and the link. -/
theorem startChin_takes (p entry : Nat) {v : List Word} {ch : List (List Word × Nat)} (hu : Still false m y (s.popHead m y q rest) u)
    (hchain : (s.yard m y).chain = (v, s.cycle) :: ch) (hp : SMap.get 0 (s.boom m y n).pending entry = 0) :
    let t := u.startChin p m y n entry
    t.queueOf m y q = rest ∧ (t.yard m y).chain = ch ∧ t.mem = s.mem ∧ ∀ l, l < 32 → ((t.boom m y n).entry entry).getD l 0 = v.getD l 0 := by
  intro t
  have hlink : (u.yard m y).chain = (v, u.cycle) :: ch := by rw [hu.chain, chain_popHead, hchain, hu.cycle, cycle_popHead]
  have ht : t = _ := startChin_arrival p n entry hlink
  have hbody : (u.boom m y n).body = (s.boom m y n).body := by rw [hu.boom, boom_popHead]
  have hpending : (u.boom m y n).pending = (s.boom m y n).pending := BoomSt.field_congr hbody BoomSt.pending
  have hboom : (u.setYard m y { u.yard m y with chain := ch }).boom m y n = u.boom m y n := by rw [boom, yard_setYard_same]; rfl
  refine ⟨?queue, by rw [ht, chain_putEntry, yard_setYard_same], ?mem, fun l hl => ?lane⟩
  case queue =>
    rw [ht, queueOf_putEntry, queueOf, yard_setYard_same]
    exact (hu.queueOf m y q).trans (queueOf_popHead ..)
  case mem =>
    rw [ht, mem_putEntry]
    exact hu.mem (fun h => Bool.noConfusion h)
  case lane =>
    rw [ht, boom_putEntry, hboom]
    exact BoomSt.entry_setEntry (by rw [hpending, hp]) v hl

/-- R99: boom.chin with no vector arriving is a hazard. -/
theorem startChin_none (p n entry : Nat) (hu : ∀ e ∈ (u.yard m y).chain, e.2 ≠ u.cycle) : u.startChin p m y n entry = u.sailHazard p m y n 4 := by
  have hnone : (u.yard m y).chain.find? (fun e => decide (e.2 = u.cycle)) = none := by
    rw [List.find?_eq_none]
    intro e he
    simpa using hu e he
  unfold startChin
  rw [hnone]

/-- A fault that another unit raises invalidates the program's tick (R232). -/
theorem unitFault_invalid (s : State) (p : Nat) : ((s.unitFault p).ctx p).conds.getLsbD 4 = true := by
  unfold unitFault
  have hstart : ((s.setCond p 4).ctx p).conds.getLsbD 4 = true := by simp
  generalize s.setCond p 4 = u at hstart
  generalize s.progMasts p = masts
  induction masts generalizing u with
  | nil => exact hstart
  | cons m masts ih => exact ih _ (by simp)

end

/-! ### An output leaves (R109) -/

section
variable {s : State} {m y : Nat}

/-- A write that no other access of its bank and cycle meets is made. -/
theorem mem_bankAccess_alone {a : Access} {bs : List Byte} (h : ∀ b ∈ (s.yard m y).access, b.cycle ≠ a.cycle) :
    (s.bankAccess m y a (some bs)).1.mem = (s.store (yardAddr m y a.off) bs).mem := by
  have hmet : s.meeting m y a = [] := by
    unfold meeting
    rw [List.filter_eq_nil_iff]
    intro b hb
    simp [h b hb]
  unfold bankAccess makeWrite
  simp [hmet, firstServed]

/-- A write of whole words within one line of a yard. -/
theorem mem_portWrite_alone {p port a off : Nat} {bs : List Byte} (hregion : regionOf a = .yard m y off) (hline : lineSplit a bs = [(a, bs)])
    (hparts : partWords a bs.length = []) (haddr : yardAddr m y off = a) (haccess : ∀ b ∈ (s.yard m y).access, b.cycle ≠ s.cycle) :
    (s.portWrite p port a bs).mem = (s.poke a bs).mem := by
  unfold portWrite yardWrite
  rw [hline, List.foldl_cons, List.foldl_nil, hregion]
  simp only [haddr, hparts, List.isEmpty_nil, if_true]
  rw [mem_bankAccess_alone haccess, haddr, mem_store]

/-- R109: an output of whole words that stands alone in its bank is stored, and nothing else. -/
theorem mem_writeOut_alone {n off : Nat} {o : BoomOut} (hregion : regionOf o.addr = .yard m y off) (hline : lineSplit o.addr o.data = [(o.addr, o.data)])
    (hparts : partWords o.addr o.data.length = []) (haddr : yardAddr m y off = o.addr) (haccess : ∀ b ∈ (s.yard m y).access, b.cycle ≠ s.cycle) :
    (s.writeOut m y n o).mem = (storeAll s [(o.addr, o.data)]).mem := by
  unfold writeOut
  extract_lets s1 s2 s3
  have h1 : Still false m y s s1 := by
    unfold s1
    split
    · exact Still.ite (tagOpen_still (Still.refl ..)) (Still.refl ..)
    · exact Still.refl ..
  clear_value s1
  have hmem1 : s1.mem = s.mem := h1.mem (fun h => Bool.noConfusion h)
  have haccess1 : ∀ b ∈ (s1.yard m y).access, b.cycle ≠ s1.cycle := fun b hb => by
    rw [h1.cycle]
    exact (h1.access b hb).elim (haccess b) (fun h => Bool.noConfusion h.1)
  have h3 : s3.mem = s2.mem := by
    unfold s3
    split
    · split
      · exact mem_of (tagClose_keeps (Keeps.refl [.regs, .yards] s2) (Kind.Sub.refl _)) rfl
      · rfl
    · rfl
  rw [mem_of (specCounts_keeps (Keeps.refl [.regs, .progs, .yards, .events] s3) (Kind.Sub.refl _)) rfl, h3]
  exact (mem_portWrite_alone hregion hline hparts haddr haccess1).trans (storeAll_congr hmem1 [(o.addr, o.data)])

end
end State
end Sys2Proof.Machine
end

section
/-! SUPPORT. Heads of sails' and booms' queues that start, and the obligation on them (O21). -/

namespace Sys2Proof.Machine
namespace State

section
variable {s : State} {m y n : Nat} {c : EngCmd} {rest : List EngCmd}

theorem unitNo_sail (h : n < 4) : unitNo (.sail n) = n := Nat.mod_eq_of_lt h
theorem unitNo_boom (h : n < 4) : unitNo (.boom n) = n := Nat.mod_eq_of_lt h

/-- A head that starts: its command takes its effect on a state that has it no longer and is otherwise as it was. -/
theorem head_starts (reads : Bool) {q : UnitQ} (hq : s.queueOf m y q = c :: rest) (hno : unitNo q = n) (hstart : s.canStart m y q c = true) :
    ∃ u tags, Still reads m y (s.popHead m y q rest) u ∧ Keeps [.yards] s u ∧
      exec (.engineCommandStart m y q) s = .next (u.startCmd m y n c tags) :=
  ⟨(s.takeHead m y q c rest).1, (s.takeHead m y q c rest).2, takeHead_still reads, takeHead_keeps (Keeps.refl [.yards] s) (Kind.Sub.refl _),
    hno ▸ exec_engineCommandStart hq hstart⟩

/-- R67, R86 to R88: a run on a sail of its own starts and issues its first vector. -/
theorem sailRun_starts {mode : Mode} {atype count entry : Nat} {first : Bool} {act : Slice} (hq : s.queueOf m y (.sail n) = c :: rest) (hn : n < 4)
    (hop : c.op = .run mode atype false false first act (count + 1) entry) (hstart : s.canStart m y (.sail n) c = true)
    (hshape : s.suitShape m y = 0) (hlive : s.liveEmpty m y n = false) :
    ∃ t r v, exec (.engineCommandStart m y (.sail n)) s = .next t ∧ t.queueOf m y (.sail n) = rest ∧ (t.sail m y n).run = some r ∧
      r.prog = c.prog ∧ r.spec = c.spec ∧ r.start = s.cycle ∧ r.count = count + 1 ∧ r.issued = 1 ∧ r.mode = mode ∧ r.act = act ∧
      r.entry = entry ∧ r.first = first ∧ r.set = s.liveSet m y n ∧
      (t.sail m y n).pipe = (s.sail m y n).pipe ++ [v] ∧ v.idx = 0 ∧ v.due = stageF s.cycle mode atype ∧ v.dead = false ∧
      (t.sail m y n).cells = (s.sail m y n).cells ∧ ((∀ b ∈ (s.yard m y).access, b.made = none) → (∀ a, t.byte a = s.byte a) ∧
        v.ps = vectorPartials (s.sail m y n) mode (s.liveSet m y n)
          (decodeActs (s.sail m y n) (s.liveSet m y n) atype (s.actRaw r 0))) := by
  obtain ⟨u, tags, hu, -, hexec⟩ := head_starts true hq (unitNo_sail hn) hstart
  have hcycle : u.cycle = s.cycle := hu.cycle
  have hset : u.liveSet m y n = s.liveSet m y n := hu.liveSet ..
  have hempty : u.liveEmpty m y n = false := (hu.liveEmpty ..).trans hlive
  let r : SailRun := ⟨c.prog, c.spec, c.seq, s.cycle, count + 1, 0, mode, atype, false, first, act, entry, s.liveSet m y n, false, tags.rd⟩
  obtain ⟨w, v, hissue, hqueue, hbody, hidx, hdue, hdead, hreads⟩ := shownRun_first (r := r) hu hshape rfl rfl rfl (Nat.succ_pos count)
  have hcmd : u.startCmd m y n c tags = (w.addVector m y n v).giveRun m y n { r with issued := 1 } := by
    rw [← hissue]
    simp only [startCmd, hop]
    exact startRun_firm hempty (by rw [hcycle, hset])
  have hpipe : (w.sail m y n).pipe = (s.sail m y n).pipe :=
    (congrArg SailSt.pipe hbody : (w.sail m y n).body.pipe = (s.sail m y n).body.pipe)
  have hcells : (w.sail m y n).cells = (s.sail m y n).cells :=
    (congrArg SailSt.cells hbody : (w.sail m y n).body.cells = (s.sail m y n).body.cells)
  refine ⟨_, { r with issued := 1 }, v, hexec.trans (congrArg Host.Outcome.next hcmd), by rw [queueOf_giveRun, queueOf_addVector, hqueue],
    by rw [sail_giveRun], rfl, rfl, rfl, rfl, rfl, rfl, rfl, rfl, rfl, rfl, ?_, hidx, hdue, hdead, ?_, fun hunmade => ?_⟩
  · rw [sail_giveRun, sail_addVector, ← hpipe]
  · rw [sail_giveRun, sail_addVector, ← hcells]
  · obtain ⟨hmem, hps⟩ := hreads hunmade
    exact ⟨byte_congr hmem, hps⟩

/-- R88, R89: a run that flips starts. -/
theorem sailRun_flips {mode : Mode} {atype count entry : Nat} {bcast first : Bool} {act : Slice} (hq : s.queueOf m y (.sail n) = c :: rest)
    (hn : n < 4) (hop : c.op = .run mode atype true bcast first act count entry) (hstart : s.canStart m y (.sail n) c = true) :
    ∃ t r, exec (.engineCommandStart m y (.sail n)) s = .next t ∧ t.queueOf m y (.sail n) = rest ∧ t.liveSet m y n = 1 - s.liveSet m y n ∧
      t.shadowState m y n = 2 ∧ (t.sail m y n).run = some r ∧ r.set = 1 - s.liveSet m y n := by
  obtain ⟨u, tags, hu, -, hexec⟩ := head_starts true hq (unitNo_sail hn) hstart
  have hset : u.liveSet m y n = s.liveSet m y n := hu.liveSet ..
  obtain ⟨r, hqueue, hlive, hshadow, hrun, hrset⟩ := startRun_flip (u := u) (m := m) (y := y) (n := n) (c := c) (mode := mode) (atype := atype)
    (count := count) (entry := entry) (bcast := bcast) (first := first) (act := act) (tags := tags.rd)
  have hcmd : u.startCmd m y n c tags = u.startRun c m y n mode atype true bcast first act count entry tags.rd := by
    simp only [startCmd, hop]
  rw [hset] at hlive hrset
  exact ⟨_, r, hexec.trans (congrArg Host.Outcome.next hcmd), (hqueue _).trans ((hu.queueOf ..).trans (queueOf_popHead ..)), hlive, hshadow, hrun,
    hrset⟩

end
end State

open State

/-- Settles O21: a head that starts leaves its queue and little else (`takeHead_still`), its checks and reads disturb nothing (`Still`), and
what its command then does to its sail or boom is read off. -/
theorem sailsAndBooms : Obligations.SailsAndBooms := by
  unfold Obligations.SailsAndBooms
  refine ⟨⟨?run, ?flip, ?join⟩, fun m y n c rest s hq hn hstart => ⟨?epi, ?pre, ?chout, ?chin, ?hazard⟩, ?writePre, ?writeOut⟩
  case run =>
    intro m y n c rest mode atype count entry first act s hq hn hop hstart hshape hlive
    exact sailRun_starts hq hn hop hstart hshape hlive
  case flip =>
    intro m y n c rest mode atype count entry bcast first act s hq hn hop hstart
    exact sailRun_flips hq hn hop hstart
  case join =>
    intro m y n v s hspec hpending hlen g va gs at_ wt kt l hl
    exact joinPartials_entry hspec hpending hlen hl
  case epi =>
    intro bias dst entry count biasTid rec hop hspec g d w col es
    obtain ⟨u, tags, hu, -, hexec⟩ := head_starts false hq (unitNo_boom hn) hstart
    obtain ⟨o, j, hqueue, hjob, hj, htaken, houts, hprog, haddr, hdata, hdue, hmem⟩ := epi_first hu hop hspec tags
    have hcmd : u.startCmd m y n c tags = u.startJob c m y n tags := by simp only [startCmd, hop]
    exact ⟨_, o, j, hexec.trans (congrArg Host.Outcome.next hcmd), hqueue, hjob, hj, htaken, houts, hprog, haddr, hdata, hdue, byte_congr hmem⟩
  case pre =>
    intro src entry count hop
    obtain ⟨u, tags, hu, -, hexec⟩ := head_starts true hq (unitNo_boom hn) hstart
    obtain ⟨o, j, hqueue, hjob, hj, htaken, hpres, hentry, hspec, hdue, hreads⟩ := pre_first hu hop tags
    have hcmd : u.startCmd m y n c tags = u.startJob c m y n tags := by simp only [startCmd, hop]
    refine ⟨_, o, j, hexec.trans (congrArg Host.Outcome.next hcmd), hqueue, hjob, hj, htaken, hpres, hentry, hspec, hdue, fun hunmade => ?_⟩
    obtain ⟨hmem, hlanes⟩ := hreads hunmade
    exact ⟨byte_congr hmem, fun l hl => by rw [hlanes, getD_preLanes _ _ _ hl]⟩
  case chout =>
    intro entry hop
    obtain ⟨u, tags, hu, hkeeps, hexec⟩ := head_starts false hq (unitNo_boom hn) hstart
    have hcmd : u.startCmd m y n c tags = u.startChout m y n entry := by simp only [startCmd, hop]
    refine ⟨_, hexec.trans (congrArg Host.Outcome.next hcmd), ?_, (startChout_keeps hkeeps (Kind.Sub.refl _)).outside, fun hout hin hy hyard => ?_⟩
    · rw [queueOf_startChout, hu.queueOf, queueOf_popHead]
    · exact chain_startChout hkeeps hu hout hin hy hyard entry
  case chin =>
    intro entry v ch hop hchain hpending
    obtain ⟨u, tags, hu, -, hexec⟩ := head_starts false hq (unitNo_boom hn) hstart
    have hcmd : u.startCmd m y n c tags = u.startChin c.prog m y n entry := by simp only [startCmd, hop]
    obtain ⟨hqueue, hlink, hmem, hlanes⟩ := startChin_takes c.prog entry hu hchain hpending
    exact ⟨_, hexec.trans (congrArg Host.Outcome.next hcmd), hqueue, hlink, byte_congr hmem, hlanes⟩
  case hazard =>
    intro entry hop hnone
    obtain ⟨u, tags, hu, -, hexec⟩ := head_starts false hq (unitNo_boom hn) hstart
    have hnone' : ∀ e ∈ (u.yard m y).chain, e.2 ≠ u.cycle := by
      rw [hu.chain, chain_popHead, hu.cycle, cycle_popHead]
      exact hnone
    have hcmd : u.startCmd m y n c tags = u.sailHazard c.prog m y n 4 := by simp only [startCmd, hop, startChin_none c.prog n entry hnone']
    have ht := sailHazard_still hu (p := c.prog) (i := m) (j := y) (n := n) (cause := 4)
    exact ⟨_, hexec.trans (congrArg Host.Outcome.next hcmd), (ht.queueOf ..).trans (queueOf_popHead ..), unitFault_invalid ..,
      byte_congr (ht.mem fun h => Bool.noConfusion h)⟩
  case writePre =>
    intro m y n o s hspec hpending l hl
    exact writePre_entry hspec hpending hl
  case writeOut =>
    intro m y n off o s hregion hline hparts haddr haccess
    exact byte_congr (mem_writeOut_alone hregion hline hparts haddr haccess)

end Sys2Proof.Machine
end

section
/-! SUPPORT. The clear bits (R106, R171, R292, R430): registers that read zero, accesses whose requester reaches them, and the obligation on
them (O25). -/

namespace Sys2Proof.Machine

/-! ### Counters that read zero -/

/-- The registers of a list read zero. -/
def State.zeroRegs (s : State) (rs : List RegId) : State := rs.foldl (fun s r => s.setReg r 0) s

/-- The counters that YARD_PERF_CLR clears (R106). -/
def sailCounters (m y : Nat) : List RegId := (List.range 4).flatMap fun n => [yreg .sailVecCnt m y n, yreg .sailRowgateCnt m y n]

section
variable {s t u : State} {rs qs : List RegId} {r : RegId}

/-- Registers of one list change, and then registers of another. -/
theorem OnlyRegs.trans (h : OnlyRegs s t rs) (k : OnlyRegs t u qs) : OnlyRegs s u (rs ++ qs) where
  outside x hx := Kind.same_trans (h.outside x hx) (k.outside x hx)
  others q hq := by
    obtain ⟨hrs, hqs⟩ := not_or.mp (mt List.mem_append.mpr hq)
    exact (k.others q hqs).trans (h.others q hrs)

theorem State.put_onlyRegs (s : State) (r : RegId) (lo w x : Nat) : OnlyRegs s (s.put r lo w x) [r] :=
  (OnlyRegs.refl s []).setReg r _

theorem State.zeroRegs_onlyRegs (s : State) (rs : List RegId) : OnlyRegs s (s.zeroRegs rs) rs := by
  induction rs generalizing s with
  | nil => exact OnlyRegs.refl s []
  | cons r rs ih => exact ((OnlyRegs.refl s []).setReg r 0).trans (ih (s.setReg r 0))

theorem State.reg_zeroRegs (s : State) (h : r ∈ rs) : (s.zeroRegs rs).reg r = 0 := by
  induction rs generalizing s with
  | nil => exact absurd h List.not_mem_nil
  | cons q rs ih =>
    by_cases hr : r ∈ rs
    · exact ih (s.setReg q 0) hr
    · obtain rfl : r = q := (List.mem_cons.mp h).resolve_right hr
      exact ((State.zeroRegs_onlyRegs _ rs).others r hr).trans (State.reg_setReg_same s r 0)

theorem mem_sailCounters {m y n : Nat} (h : n < 4) : yreg .sailVecCnt m y n ∈ sailCounters m y ∧ yreg .sailRowgateCnt m y n ∈ sailCounters m y := by
  constructor <;> exact List.mem_flatMap.mpr ⟨n, List.mem_range.mpr h, by simp⟩

end

/-! ### Whose accesses reach the clear bits -/

/-- The state in which an access of a requester takes its effect: the host's has woken its link (R324). -/
def State.entered (s : State) (rq : Requester) : State := if rq = .host then s.hostTouch else s

section
variable {rq : Requester} {s : State}

theorem State.entered_onlyRegs (s : State) (rq : Requester) : OnlyRegs s (s.entered rq) [rid .usb4Link] := by
  unfold State.entered
  split
  · exact hostTouch_onlyRegs s
  · exact OnlyRegs.refl s _

theorem State.part_entered (s : State) (rq : Requester) : (s.entered rq).part = s.part := by
  unfold State.entered
  split <;> rfl

/-- Waking the link leaves what is present, in service and powered. -/
theorem State.yardOn_entered (s : State) (rq : Requester) (m y : Nat) : (s.entered rq).yardOn m y = s.yardOn m y := by
  have hreg := (s.entered_onlyRegs rq).others
  unfold State.yardOn State.yardIn State.domOn
  rw [s.part_entered, hreg (rid .pwrInsvc) (by decide), hreg (rid .pwrDomOn ((20 * m + y) / 32)) (by simp [rid])]

theorem State.mastIn_entered (s : State) (rq : Requester) (m : Nat) : (s.entered rq).mastIn m = s.mastIn m := by
  unfold State.mastIn
  rw [s.part_entered, (s.entered_onlyRegs rq).others (rid .pwrInsvc) (by decide)]

theorem State.clears_of_reaches (h : Reaches rq s) : State.clears rq = true := by
  rcases h with rfl | rfl | ⟨rfl, -⟩ <;> rfl

theorem State.viaHost_of_up (h : s.hostUp = true) (f : State → State) : s.viaHost f = f (s.entered .host) := if_pos h

theorem State.viaHost_of_down (h : s.hostUp = false) (f : State → State) : s.viaHost f = s := if_neg (by simp [h])

theorem State.viaReq_of_reaches (h : Reaches rq s) (f : State → State) : s.viaReq rq f = f (s.entered rq) := by
  rcases h with rfl | rfl | ⟨rfl, hup⟩
  · rfl
  · rfl
  · exact State.viaHost_of_up hup f

/-- An access that the tunnel does not carry, or that does nothing for a requester without clear bits, changes nothing. -/
theorem State.viaReq_of_away (h : rq = .sp ∨ (∃ k, rq = .ms k) ∨ rq = .host ∧ s.hostUp = false) {f : State → State}
    (hf : State.clears rq = false → f s = s) : s.viaReq rq f = s := by
  rcases h with rfl | ⟨k, rfl⟩ | ⟨rfl, hdown⟩
  · exact hf rfl
  · exact hf rfl
  · exact State.viaHost_of_down hdown f

end

/-! ### The clear bits of a yard (R106, R171) -/

/-- A clear bit of a yard: for the requesters that have it, counters of a yard that is on read zero. -/
def State.yardClear (s : State) (rq : Requester) (m y : Nat) (rs : List RegId) : State :=
  s.viaReq rq fun u => if State.clears rq && u.yardOn m y then u.zeroRegs rs else u

section
variable (rq : Requester) (m y : Nat) (s : State)

theorem exec_yardPerfClr : exec (.yardPerfClr rq m y) s = .next (s.yardClear rq m y (sailCounters m y)) := rfl
theorem exec_reefStatusClr : exec (.reefStatusClr rq m y) s = .next (s.yardClear rq m y [yreg .reefElemCnt m y]) := rfl
theorem exec_vuStatusClr : exec (.vuStatusClr rq m y) s = .next (s.yardClear rq m y [yreg .vuOobCnt m y, yreg .vuElemCnt m y]) := rfl

end

section
variable {rq : Requester} {m y : Nat} {s : State}

theorem State.yardClear_of_reaches (h : Reaches rq s) (hon : s.yardOn m y = true) (rs : List RegId) :
    s.yardClear rq m y rs = (s.entered rq).zeroRegs rs :=
  (State.viaReq_of_reaches h _).trans (if_pos (by rw [State.clears_of_reaches h, s.yardOn_entered, hon]; rfl))

/-- Its counters read zero, and nothing else changes but the link that the host's access wakes. -/
theorem State.yardClear_clears (h : Reaches rq s) (hon : s.yardOn m y = true) (rs : List RegId) :
    (∀ r ∈ rs, (s.yardClear rq m y rs).reg r = 0) ∧ OnlyRegs s (s.yardClear rq m y rs) (rid .usb4Link :: rs) := by
  rw [State.yardClear_of_reaches h hon]
  exact ⟨fun _ hr => State.reg_zeroRegs _ hr, (s.entered_onlyRegs rq).trans (State.zeroRegs_onlyRegs _ rs)⟩

theorem State.yardClear_of_away (h : rq = .sp ∨ (∃ k, rq = .ms k) ∨ rq = .host ∧ s.hostUp = false) (rs : List RegId) :
    s.yardClear rq m y rs = s :=
  State.viaReq_of_away h fun hc => if_neg (by simp [hc])

end

/-! ### The host's own clear bits (R292, R430) -/

section
variable {s : State}

theorem exec_strmPeakClr_host {engine : Nat} (hup : s.hostUp = true) (hin : engine = 7 ∨ s.mastIn engine = true) :
    exec (.strmPeakClr .host engine) s = .next ((s.entered .host).put (mreg .strmPeak engine) 0 10 0) :=
  congrArg Host.Outcome.next ((State.viaReq_of_reaches (.inr (.inr ⟨rfl, hup⟩)) _).trans (if_pos (by simpa [s.mastIn_entered] using hin)))

theorem exec_pwrThermClr_up {die : Nat} (hup : s.hostUp = true) (hdie : die < 8) : exec (.pwrThermClr die) s =
    .next ((s.entered .host).put (rid .pwrTherm die) 16 12 ((s.entered .host).get (rid .pwrTherm die) 0 12)) :=
  congrArg Host.Outcome.next ((State.viaHost_of_up hup _).trans (if_pos hdie))

theorem exec_strmPeakClr_of_away {rq : Requester} (h : rq = .sp ∨ (∃ k, rq = .ms k) ∨ rq = .host ∧ s.hostUp = false) (engine : Nat) :
    exec (.strmPeakClr rq engine) s = .next s := by
  refine congrArg Host.Outcome.next (State.viaReq_of_away h fun hc => if_neg ?_)
  have hrq : rq ≠ .host := fun e => by simp [e, State.clears] at hc
  simp [hrq]

end

/-- Settles O25: a clear bit of a yard is `State.yardClear`, and each of the host's own two is one field written in the state that its access
has entered. -/
theorem clearBits : Obligations.ClearBits := by
  unfold Obligations.ClearBits
  refine ⟨fun rq m y s hin hon => ⟨?sails, ?reef, ?vector⟩, fun engine s hup hin => ?peak, fun die s hup hdie => ?therm, fun rq m y s haway => ?away⟩
  case sails =>
    obtain ⟨hzero, honly⟩ := State.yardClear_clears hin hon (sailCounters m y)
    exact ⟨_, exec_yardPerfClr rq m y s, fun n hn => ⟨hzero _ (mem_sailCounters hn).1, hzero _ (mem_sailCounters hn).2⟩, honly⟩
  case reef =>
    obtain ⟨hzero, honly⟩ := State.yardClear_clears hin hon [yreg .reefElemCnt m y]
    exact ⟨_, exec_reefStatusClr rq m y s, hzero _ (by simp), honly⟩
  case vector =>
    obtain ⟨hzero, honly⟩ := State.yardClear_clears hin hon [yreg .vuOobCnt m y, yreg .vuElemCnt m y]
    exact ⟨_, exec_vuStatusClr rq m y s, hzero _ (by simp), hzero _ (by simp), honly⟩
  case peak =>
    exact ⟨_, exec_strmPeakClr_host hup hin, State.get_put_same _ _ 0 (by decide), (s.entered_onlyRegs .host).trans (State.put_onlyRegs ..)⟩
  case therm =>
    have htemp : (s.entered .host).get (rid .pwrTherm die) 0 12 = s.get (rid .pwrTherm die) 0 12 :=
      congrArg (fld · 0 12) ((s.entered_onlyRegs .host).others _ (by simp [rid]))
    refine ⟨_, exec_pwrThermClr_up hup hdie, ?_, (s.entered_onlyRegs .host).trans (State.put_onlyRegs ..)⟩
    rw [State.get_put_same _ _ _ (by decide), htemp]
    exact Nat.mod_eq_of_lt (fld_lt _ 0 12)
  case away =>
    have hyard : ∀ rs, s.yardClear rq m y rs = s := State.yardClear_of_away haway
    rw [exec_yardPerfClr, exec_reefStatusClr, exec_vuStatusClr, hyard, hyard, hyard]
    exact ⟨rfl, rfl, rfl, exec_strmPeakClr_of_away haway m⟩

end Sys2Proof.Machine
end

section
/-! SUPPORT. Loads of the sails (R97, R98, R100): what a load leaves when it begins, what it reads in its first cycle, the cells and table
entries that it writes, and what it leaves when it completes. -/

namespace Sys2Proof.Machine

/-- What does not read the mark of a raised hazard reads the same of two sails that are the same but for it. -/
theorem SailSt.field_congr {β : Type} {a b : SailSt} (h : a.body = b.body) (f : SailSt → β) (hf : ∀ b, f b.body = f b := by exact fun _ => rfl) :
    f a = f b := by
  rw [← hf a, h, hf b]

section
variable {reads : Bool} {m y : Nat} {s t : State} (h : Still reads m y s t)
include h

theorem Still.shadowState (i j n : Nat) : t.shadowState i j n = s.shadowState i j n := h.get _ _ _ rfl

theorem Still.afterCycles (c : Nat) : t.afterCycles c = s.afterCycles c := by
  unfold State.afterCycles State.atCycle State.opPoint State.tickStart
  rw [h.cycle, h.get _ _ _ rfl, h.reg _ rfl]

end

/-- A field of SAIL_STATE more. -/
theorem OnlyRegs.putSail {s t : State} {m y n : Nat} (h : OnlyRegs s t [yreg .sailState m y n]) (lo w x : Nat) :
    OnlyRegs s (t.putSail m y n lo w x) [yreg .sailState m y n] where
  outside k hk := Kind.same_trans (h.outside k hk) ((State.putSail_keeps (Keeps.refl [.regs] t) (Kind.Sub.refl _)).outside k hk)
  others q hq := (State.reg_put_ne t _ _ _ (List.ne_of_not_mem_cons hq)).trans (h.others q hq)

namespace State

/-! ### SAIL_STATE -/

section
variable (s : State) (m y n lo w v : Nat)

@[simp] theorem yard_putSail (i j : Nat) : (s.putSail m y n lo w v).yard i j = s.yard i j := yard_put ..
@[simp] theorem sail_putSail (i j k : Nat) : (s.putSail m y n lo w v).sail i j k = s.sail i j k := by simp only [sail, yard_putSail]
@[simp] theorem queueOf_putSail (i j : Nat) (q : UnitQ) : (s.putSail m y n lo w v).queueOf i j q = s.queueOf i j q := by
  simp only [queueOf, yard_putSail]
@[simp] theorem cycle_putSail : (s.putSail m y n lo w v).cycle = s.cycle := cycle_put _ _ _ _ (by simp [rid, yreg]) (by simp [rid, yreg])

/-- Which set is live is bit 0. -/
theorem liveSet_putSail {lo : Nat} (h : 0 < lo) : (s.putSail m y n lo w v).liveSet m y n = s.liveSet m y n := get_put_field _ _ _ (.inl h)

/-- The state of the shadow set is the field [2:1]. -/
theorem shadowState_putSail {lo : Nat} (h : 3 ≤ lo) : (s.putSail m y n lo w v).shadowState m y n = s.shadowState m y n :=
  get_put_field _ _ _ (.inl h)

theorem shadowState_putSail_same : (s.putSail m y n 1 2 v).shadowState m y n = v % 4 := get_put_same _ _ _ (by decide)

end

/-! ### A load begins -/

/-- The load that a command begins: its target is the set that is shadow. -/
def newLoad (s : State) (c : EngCmd) (m y n : Nat) (kind : LoadKind) (base cycles : Nat) (tags : List TagUse) : SailLoad :=
  ⟨kind, c.prog, c.spec, s.cycle, 1 - s.liveSet m y n, base, [], s.afterCycles cycles, tags⟩

/-- A sail with a load in hand. -/
def giveLoad (s : State) (m y n : Nat) (ld : SailLoad) : State := s.setSail m y n { s.sail m y n with load := some ld }

section
variable (s : State) (m y n : Nat)

@[simp] theorem sail_giveLoad (ld : SailLoad) : (s.giveLoad m y n ld).sail m y n = { s.sail m y n with load := some ld } := sail_setSail_same ..
@[simp] theorem queueOf_giveLoad (ld : SailLoad) (q : UnitQ) : (s.giveLoad m y n ld).queueOf m y q = s.queueOf m y q := queueOf_setSail ..
@[simp] theorem access_giveLoad (ld : SailLoad) : ((s.giveLoad m y n ld).yard m y).access = (s.yard m y).access := by
  rw [giveLoad, setSail, yard_setYard_same]
@[simp] theorem mem_giveLoad (ld : SailLoad) : (s.giveLoad m y n ld).mem = s.mem := rfl
@[simp] theorem cycle_giveLoad (ld : SailLoad) : (s.giveLoad m y n ld).cycle = s.cycle := rfl
theorem shadowState_giveLoad (ld : SailLoad) : (s.giveLoad m y n ld).shadowState m y n = s.shadowState m y n := rfl

end

section
variable (s : State) (c : EngCmd) (m y n : Nat) (kind : LoadKind) (base cycles : Nat) (tags : List TagUse)

theorem beginLoad_eq : s.beginLoad c m y n kind base cycles tags =
    (s.giveLoad m y n (s.newLoad c m y n kind base cycles tags)).putSail m y n 7 1 1 := rfl

@[simp] theorem sail_beginLoad : (s.beginLoad c m y n kind base cycles tags).sail m y n =
    { s.sail m y n with load := some (s.newLoad c m y n kind base cycles tags) } := by
  simp [beginLoad_eq]

@[simp] theorem queueOf_beginLoad (q : UnitQ) : (s.beginLoad c m y n kind base cycles tags).queueOf m y q = s.queueOf m y q := by
  simp [beginLoad_eq]

@[simp] theorem access_beginLoad : ((s.beginLoad c m y n kind base cycles tags).yard m y).access = (s.yard m y).access := by
  simp [beginLoad_eq]

@[simp] theorem cycle_beginLoad : (s.beginLoad c m y n kind base cycles tags).cycle = s.cycle := by simp [beginLoad_eq]

theorem liveSet_beginLoad : (s.beginLoad c m y n kind base cycles tags).liveSet m y n = s.liveSet m y n := liveSet_putSail _ _ _ _ _ _ (by decide)

theorem reg_beginLoad {r : RegId} (h : r ≠ yreg .sailState m y n) : (s.beginLoad c m y n kind base cycles tags).reg r = s.reg r :=
  reg_put_ne _ _ _ _ h

end

/-- The load that a weight load begins (R97). -/
def newTile (s : State) (c : EngCmd) (m y n : Nat) (c4 : Bool) (wt : Slice) (tags : List TagUse) : SailLoad :=
  s.newLoad c m y n (.tile c4 wt.tid wt.off) (tileAddr (s.prog c.prog) wt c4 c.spec) 40 tags

/-- A weight load has begun, and SAIL_STATE shows its target LOADING. -/
def beginTile (s : State) (c : EngCmd) (m y n : Nat) (c4 : Bool) (wt : Slice) (tags : List TagUse) : State :=
  ((s.beginLoad c m y n (.tile c4 wt.tid wt.off) (tileAddr (s.prog c.prog) wt c4 c.spec) 40 tags).putSail m y n 1 2 1).putSail
    m y n 5 1 (if c4 then 1 else 0)

section
variable (s : State) (c : EngCmd) (m y n : Nat) (c4 : Bool) (wt : Slice) (tags : List TagUse)

theorem startLoad_eq : s.startLoad c m y n c4 wt tags = (s.beginTile c m y n c4 wt tags).loadStep m y n := rfl

theorem sail_beginTile : (s.beginTile c m y n c4 wt tags).sail m y n =
    { s.sail m y n with load := some (s.newTile c m y n c4 wt tags) } := by
  simp [beginTile, newTile]

theorem queueOf_beginTile (q : UnitQ) : (s.beginTile c m y n c4 wt tags).queueOf m y q = s.queueOf m y q := by simp [beginTile]

theorem access_beginTile : ((s.beginTile c m y n c4 wt tags).yard m y).access = (s.yard m y).access := by simp [beginTile]

theorem cycle_beginTile : (s.beginTile c m y n c4 wt tags).cycle = s.cycle := by simp [beginTile]

theorem mem_beginTile : (s.beginTile c m y n c4 wt tags).mem = s.mem := rfl

theorem shadowState_beginTile : (s.beginTile c m y n c4 wt tags).shadowState m y n = 1 :=
  (shadowState_putSail _ _ _ _ _ _ (by decide)).trans (shadowState_putSail_same ..)

end

/-! ### A load in its first cycle -/

section
variable {s : State} {m y n : Nat} {ld : SailLoad}

/-- A load works in the cycle in which it has begun. -/
theorem loadStep_first (hld : (s.sail m y n).load = some ld) (hs : ld.start = s.cycle) : s.loadStep m y n = s.loadWork m y n 0 ld := by
  unfold loadStep
  rw [hld]
  dsimp only
  rw [hs, Nat.sub_self]

theorem loadStep_beginLoad (s : State) (c : EngCmd) (m y n : Nat) (kind : LoadKind) (base cycles : Nat) (tags : List TagUse) :
    (s.beginLoad c m y n kind base cycles tags).loadStep m y n =
      (s.beginLoad c m y n kind base cycles tags).loadWork m y n 0 (s.newLoad c m y n kind base cycles tags) :=
  loadStep_first (by rw [sail_beginLoad]) (cycle_beginLoad ..).symm

/-- R97: a weight load reads its first row, and writes none. -/
theorem loadWork_tile_first {c4 : Bool} {tid tile : Nat} (hk : ld.kind = .tile c4 tid tile) :
    s.loadWork m y n 0 ld = s.readTileRow m y n ld c4 0 := by
  simp [loadWork, hk]

/-- The first row read: its reads disturb nothing. -/
theorem readTileRow_first (s : State) (m y n : Nat) (ld : SailLoad) (c4 : Bool) : ∃ w : State, Still true m y s w ∧
    s.readTileRow m y n ld c4 0 = w.giveLoad m y n { ld with rows := ld.rows ++ [w.bytes ld.base (if c4 then 16 else 32)] } := by
  unfold readTileRow
  dsimp only
  rw [Nat.zero_mul, Nat.add_zero]
  exact ⟨_, seqAccess_still (lineReads_still (Still.refl ..)), rfl⟩

/-- R98: a table load reads the first line of its codebook, and writes none. -/
theorem loadWork_table_first {weight : Bool} {cbk : Nat} (hk : ld.kind = .table weight cbk) : Still true m y s (s.loadWork m y n 0 ld) := by
  unfold loadWork
  rw [hk]
  dsimp only
  rw [if_neg (by omega : ¬ (4 ≤ 0 ∧ _))]
  exact Still.ite (seqAccess_still (lineReads_still (Still.refl ..))) (Still.refl ..)

/-- R98: a table copy is done in its first cycle. -/
theorem loadWork_copy_first {weight : Bool} (hk : ld.kind = .copy weight) : s.loadWork m y n 0 ld = s.copyTable m y n weight := by
  simp [loadWork, hk]

end

/-! ### Weight loads, table loads and table copies start -/

theorem tileAddr_congr {g g' : Prog} (h : g'.outer = g.outer) (wt : Slice) (c4 : Bool) (spec : Nat) :
    tileAddr g' wt c4 spec = tileAddr g wt c4 spec := by
  unfold tileAddr
  rw [viewAt_congr h]

theorem cbk_congr {g g' : Prog} (h : g'.outer = g.outer) (cbk : Nat) : g'.box.cbk cbk = g.box.cbk cbk :=
  (congrArg (fun g : Prog => g.box.cbk cbk) h : g'.outer.box.cbk cbk = g.outer.box.cbk cbk)

theorem bytes_congr {s t : State} (h : t.mem = s.mem) (a n : Nat) : t.bytes a n = s.bytes a n := by simp only [bytes, byte_congr h]

section
variable {s u : State} {m y n : Nat} {c : EngCmd} {rest : List EngCmd}

/-- What a command whose head has left its queue begins, said of the state in which the head stood. -/
theorem newLoad_popHead (hu : Still true m y (s.popHead m y (.sail n) rest) u) (kind : LoadKind) (base cycles : Nat) (tags : List TagUse) :
    u.newLoad c m y n kind base cycles tags =
      ⟨kind, c.prog, c.spec, s.cycle, 1 - s.liveSet m y n, base, [], s.afterCycles cycles, tags⟩ := by
  unfold newLoad
  rw [hu.cycle, hu.liveSet, hu.afterCycles]
  rfl

/-- R97: a weight load starts: its target is LOADING, and its first row is read. -/
theorem startLoad_first (hu : Still true m y (s.popHead m y (.sail n) rest) u) (c4 : Bool) (wt : Slice) (tags : List TagUse) :
    let t := u.startLoad c m y n c4 wt tags
    ∃ ld, t.queueOf m y (.sail n) = rest ∧ (t.sail m y n).load = some ld ∧ ld.kind = .tile c4 wt.tid wt.off ∧ ld.start = s.cycle ∧
      ld.done = s.afterCycles 40 ∧ ld.set = 1 - s.liveSet m y n ∧ ld.spec = c.spec ∧ ld.rows.length = 1 ∧ t.shadowState m y n = 1 ∧
      (t.sail m y n).cells = (s.sail m y n).cells ∧ (Unmade (s.yard m y).access →
        ld.rows = [s.bytes (tileAddr (s.prog c.prog) wt c4 c.spec) (if c4 then 16 else 32)] ∧ t.mem = s.mem) := by
  intro t
  have hld : u.newTile c m y n c4 wt tags = _ := newLoad_popHead hu ..
  obtain ⟨w, hw, hrow⟩ := readTileRow_first (u.beginTile c m y n c4 wt tags) m y n (u.newTile c m y n c4 wt tags) c4
  have ht : t = _ := (startLoad_eq ..).trans ((loadStep_first (by rw [sail_beginTile]) (cycle_beginTile ..).symm).trans
    ((loadWork_tile_first rfl).trans hrow))
  refine ⟨_, ?queue, by rw [ht, sail_giveLoad], by rw [hld], by rw [hld], by rw [hld], by rw [hld], by rw [hld], by rw [hld]; rfl, ?shadow, ?cells,
    fun hunmade => ?reads⟩
  case queue => rw [ht, queueOf_giveLoad, hw.queueOf, queueOf_beginTile, hu.queueOf, queueOf_popHead]
  case shadow => rw [ht, shadowState_giveLoad, hw.shadowState, shadowState_beginTile]
  case cells =>
    rw [ht, sail_giveLoad]
    dsimp only
    rw [SailSt.field_congr (hw.sail m y n) SailSt.cells, sail_beginTile]
    dsimp only
    rw [SailSt.field_congr (hu.sail m y n) SailSt.cells, sail_popHead]
  case reads =>
    have hunmade' : Unmade ((s.popHead m y (.sail n) rest).yard m y).access := by rwa [access_popHead]
    have hmem : w.mem = s.mem := by
      rw [hw.mem fun _ => (access_beginTile u c m y n c4 wt tags).symm ▸ hu.unmade hunmade', mem_beginTile]
      exact hu.mem fun _ => hunmade'
    refine ⟨?_, by rw [ht, mem_giveLoad, hmem]⟩
    rw [bytes_congr hmem, hld]
    dsimp only
    rw [tileAddr_congr (hu.prog c.prog)]
    rfl

/-- R98: a table load starts: it reads the first line of its codebook, and has written no entry yet. -/
theorem startTable_first (hu : Still true m y (s.popHead m y (.sail n) rest) u) (weight : Bool) (cbk : Nat) (tags : List TagUse) :
    let t := u.startTable c m y n weight cbk tags
    ∃ ld, t.queueOf m y (.sail n) = rest ∧ (t.sail m y n).load = some ld ∧ ld.kind = .table weight cbk ∧
      ld.done = s.afterCycles (4 + tableLines ((s.prog c.prog).box.cbk cbk).length) ∧ ld.set = 1 - s.liveSet m y n ∧
      (t.sail m y n).cells = (s.sail m y n).cells ∧ (t.sail m y n).wtbl = (s.sail m y n).wtbl ∧
      (t.sail m y n).atbl = (s.sail m y n).atbl := by
  intro t
  let ld := u.newLoad c m y n (.table weight cbk) (cbkAt (u.prog c.prog) (8 * m + y) cbk)
    (4 + tableLines ((u.prog c.prog).box.cbk cbk).length) tags
  have hld : ld = _ := newLoad_popHead hu ..
  let v := u.beginLoad c m y n (.table weight cbk) (cbkAt (u.prog c.prog) (8 * m + y) cbk)
    (4 + tableLines ((u.prog c.prog).box.cbk cbk).length) tags
  have ht : t = v.loadWork m y n 0 ld := loadStep_beginLoad ..
  have hw : Still true m y v t := ht ▸ loadWork_table_first rfl
  have hsail : (t.sail m y n).body = ({ s.sail m y n with load := some ld } : SailSt).body := by
    rw [hw.sail, sail_beginLoad]
    exact congrArg (fun b : SailSt => { b with load := some ld }) (by rw [hu.sail, sail_popHead] : (u.sail m y n).body = (s.sail m y n).body)
  exact ⟨ld, by rw [hw.queueOf, queueOf_beginLoad, hu.queueOf, queueOf_popHead], SailSt.field_congr hsail SailSt.load, by rw [hld],
    by rw [hld, cbk_congr (hu.prog c.prog)]; rfl, by rw [hld], SailSt.field_congr hsail SailSt.cells, SailSt.field_congr hsail SailSt.wtbl,
    SailSt.field_congr hsail SailSt.atbl⟩

/-- A table of the live set copied into the other set's. -/
def copied (live : Nat) (t : SMap Byte) : SMap Byte := SMap.setRange 0 (fun i => SMap.get 0 t (live * 256 + i)) ((1 - live) * 256) 256 t

theorem get_copied (live : Nat) (t : SMap Byte) {k : Nat} (hk : k < 256) :
    SMap.get 0 (copied live t) ((1 - live) * 256 + k) = SMap.get 0 t (live * 256 + k) := by
  rw [copied, SMap.get_setRange, if_pos (by omega), Nat.add_sub_cancel_left]

theorem sail_copyTable (s : State) (m y n : Nat) (weight : Bool) : (s.copyTable m y n weight).sail m y n = { s.sail m y n with
    wtbl := if weight then copied (s.liveSet m y n) (s.sail m y n).wtbl else (s.sail m y n).wtbl
    atbl := if weight then (s.sail m y n).atbl else copied (s.liveSet m y n) (s.sail m y n).atbl } := by
  cases weight <;> simp only [copyTable, copied, sail_setSail_same, if_true, Bool.false_eq_true, if_false]

/-- R98: a table copy starts, and has copied. -/
theorem startCopy_copies (hu : Still true m y (s.popHead m y (.sail n) rest) u) (weight : Bool) :
    let t := u.startCopy c m y n weight
    t.queueOf m y (.sail n) = rest ∧ (t.sail m y n).cells = (s.sail m y n).cells ∧
      (t.sail m y n).wtbl = (if weight then copied (s.liveSet m y n) (s.sail m y n).wtbl else (s.sail m y n).wtbl) ∧
      (t.sail m y n).atbl = (if weight then (s.sail m y n).atbl else copied (s.liveSet m y n) (s.sail m y n).atbl) ∧
      ∀ r, r ≠ yreg .sailState m y n → t.reg r = u.reg r := by
  intro t
  have ht : t = (u.beginLoad c m y n (.copy weight) 0 1 []).copyTable m y n weight :=
    (loadStep_beginLoad ..).trans (loadWork_copy_first rfl)
  have hbody : (u.sail m y n).body = (s.sail m y n).body := by rw [hu.sail, sail_popHead]
  have hlive : (u.beginLoad c m y n (.copy weight) 0 1 []).liveSet m y n = s.liveSet m y n := (liveSet_beginLoad ..).trans (hu.liveSet ..)
  have hwtbl : (u.sail m y n).wtbl = (s.sail m y n).wtbl := SailSt.field_congr hbody SailSt.wtbl
  have hatbl : (u.sail m y n).atbl = (s.sail m y n).atbl := SailSt.field_congr hbody SailSt.atbl
  refine ⟨?queue, ?cells, ?wtbl, ?atbl, fun r hr => ?reg⟩
  case queue =>
    rw [ht]
    exact (queueOf_setSail ..).trans ((queueOf_beginLoad ..).trans ((hu.queueOf ..).trans (queueOf_popHead ..)))
  case cells =>
    rw [ht, sail_copyTable, sail_beginLoad]
    exact SailSt.field_congr hbody SailSt.cells
  case wtbl => rw [ht, sail_copyTable, sail_beginLoad, hlive, hwtbl]
  case atbl => rw [ht, sail_copyTable, sail_beginLoad, hlive, hatbl]
  case reg =>
    rw [ht]
    exact reg_beginLoad u c m y n (.copy weight) 0 1 [] hr

end

/-! ### What a load writes -/

/-- C4 codes unpacked, two of a byte, the low one first (R97). -/
theorem getD_unpacked (bs : List Byte) (j : Nat) : (bs.flatMap fun b => [b &&& 0xF, b >>> 4] : List Byte).getD j 0 =
    if j / 2 < bs.length then (if j % 2 = 0 then bs.getD (j / 2) 0 &&& 0xF else bs.getD (j / 2) 0 >>> 4) else 0 := by
  induction bs generalizing j with
  | nil => rfl
  | cons b bs ih =>
    match j with
    | 0 => rfl
    | 1 => rfl
    | j + 2 =>
      have hdiv : (j + 2) / 2 = j / 2 + 1 := by omega
      have hmod : (j + 2) % 2 = j % 2 := by omega
      rw [hdiv, hmod]
      simpa using ih j

/-- Each cell of a row of a tile that is not of C8 codes. -/
theorem getD_rowCells (sl : SailSt) (set : Nat) (c4 : Bool) (bs : List Byte) (j : Nat) : (rowCells sl set c4 false bs).getD j 0 =
    if c4 then (if j / 2 < bs.length then (if j % 2 = 0 then bs.getD (j / 2) 0 &&& 0xF else bs.getD (j / 2) 0 >>> 4) else 0)
    else bs.getD j 0 := by
  cases c4
  · rfl
  · exact getD_unpacked bs j

/-- R97: a row is written, and no other cell. -/
theorem cells_writeTileRow (s : State) (m y n : Nat) (ld : SailLoad) (c4 c8 : Bool) (r k : Nat) :
    SMap.get 0 ((s.writeTileRow m y n ld c4 c8 r).sail m y n).cells k =
      if ld.set * 1024 + r * 32 ≤ k ∧ k < ld.set * 1024 + r * 32 + 32 then
        (rowCells (s.sail m y n) ld.set c4 c8 (ld.rows.getD r [])).getD (k - (ld.set * 1024 + r * 32)) 0
      else SMap.get 0 (s.sail m y n).cells k := by
  unfold writeTileRow
  rw [sail_setSail_same]
  exact SMap.get_setRange ..

/-- R98: an entry of a codebook is in the line of its number divided by 64, and that line's write puts it in its place. -/
theorem get_codebookLine {es : List Int} {i : Nat} {x : Int} (h : es[i]? = some x) (set : Nat) (t : SMap Byte) :
    let row := (es.drop (64 * (i / 64))).take 64
    SMap.get 0 (SMap.setRange 0 (fun j => BitVec.ofInt 8 (row.getD j 0)) (set * 256 + 64 * (i / 64)) row.length t) (set * 256 + i) =
      BitVec.ofInt 8 x := by
  intro row
  obtain ⟨hi, -⟩ := List.getElem?_eq_some_iff.mp h
  have hlen : row.length = min 64 (es.length - 64 * (i / 64)) := by simp [row]
  have hsub : set * 256 + i - (set * 256 + 64 * (i / 64)) = i % 64 := by omega
  have hentry : row[(i % 64 : Nat)]? = some x := by
    rw [List.getElem?_take_of_lt (by omega), List.getElem?_drop, Nat.div_add_mod, h]
  rw [SMap.get_setRange, if_pos (by omega), hsub, List.getD_eq_getElem?_getD, hentry]
  rfl

/-- R98: the table that a load writes. -/
theorem table_writeTable (s : State) (m y n : Nat) (ld : SailLoad) (weight : Bool) (cbk k : Nat) :
    let line := ((s.prog ld.prog).box.cbk cbk).drop (64 * k) |>.take 64
    let sl := (s.writeTable m y n ld weight cbk k).sail m y n
    (if weight then sl.wtbl else sl.atbl) = SMap.setRange 0 (fun j => BitVec.ofInt 8 (line.getD j 0)) (ld.set * 256 + 64 * k) line.length
      (if weight then (s.sail m y n).wtbl else (s.sail m y n).atbl) := by
  unfold writeTable
  dsimp only
  rw [sail_setSail_same]
  cases weight <;> rfl

/-! ### A load completes -/

section
variable {s : State} {m y n : Nat} {ld : SailLoad}

theorem exec_sailLoadComplete_done (hld : (s.sail m y n).load = some ld) (hdone : ld.done ≤ s.now) :
    exec (.sailLoadComplete m y n) s = .next (s.finishLoad m y n ld) := by
  show execSailLoadComplete m y n s = _
  unfold execSailLoadComplete
  rw [hld]
  exact congrArg Host.Outcome.next (if_pos hdone)

theorem exec_sailLoadComplete_early (hld : ∀ ld, (s.sail m y n).load = some ld → s.now < ld.done) :
    exec (.sailLoadComplete m y n) s = .next s := by
  show execSailLoadComplete m y n s = _
  unfold execSailLoadComplete
  split
  · next ld h => exact congrArg Host.Outcome.next (if_neg (Nat.not_le.mpr (hld ld h)))
  · rfl

/-- A sail whose weight load has completed. -/
def tileLoaded (sl : SailSt) (ld : SailLoad) (tid tile : Nat) : SailSt :=
  { sl with load := none, tid := SMap.set 0 sl.tid ld.set (tid + 1), tile := SMap.set 0 sl.tile ld.set (tile + 1), setSpec := ld.spec }

theorem tid_tileLoaded (sl : SailSt) (ld : SailLoad) (tid tile : Nat) : SMap.get 0 (tileLoaded sl ld tid tile).tid ld.set = tid + 1 := by
  simp [tileLoaded]

theorem tile_tileLoaded (sl : SailSt) (ld : SailLoad) (tid tile : Nat) : SMap.get 0 (tileLoaded sl ld tid tile).tile ld.set = tile + 1 := by
  simp [tileLoaded]

/-- A sail whose table load or table copy has completed. -/
def tableLoaded (sl : SailSt) (ld : SailLoad) : SailSt := { sl with load := none, setSpec := if ld.spec = 0 then sl.setSpec else ld.spec }

/-- A tile completes in the set that is shadow (R97, R100). -/
theorem finishLoad_tile_shadow {c4 : Bool} {tid tile : Nat} (hk : ld.kind = .tile c4 tid tile) (hset : s.liveSet m y n ≠ ld.set) :
    s.finishLoad m y n ld = ((s.setSail m y n (tileLoaded (s.sail m y n) ld tid tile)).putSail m y n 1 2 (if ld.spec = 0 then 2 else 3)).putSail
      m y n 7 1 0 := by
  simp [finishLoad, hk, hset, tileLoaded]

/-- A tile completes in a set that a run has flipped to. -/
theorem finishLoad_tile_live {c4 : Bool} {tid tile : Nat} (hk : ld.kind = .tile c4 tid tile) (hset : s.liveSet m y n = ld.set) :
    s.finishLoad m y n ld = ((s.setSail m y n (tileLoaded (s.sail m y n) ld tid tile)).putSail m y n 3 1 0).putSail m y n 7 1 0 := by
  simp [finishLoad, hk, hset, tileLoaded]

/-- A table completes (R98, R100). -/
theorem finishLoad_table (hk : ∀ c4 tid tile, ld.kind ≠ .tile c4 tid tile) : s.finishLoad m y n ld =
    if ld.spec = 0 ∨ s.liveSet m y n = ld.set then (s.setSail m y n (tableLoaded (s.sail m y n) ld)).putSail m y n 7 1 0
    else ((s.setSail m y n (tableLoaded (s.sail m y n) ld)).putSail m y n 7 1 0).putSail m y n 1 2 3 := by
  unfold finishLoad
  split
  · next c4 tid tile h => exact absurd h (hk c4 tid tile)
  · simp [tableLoaded]

/-- A weight load completes (R97, R100). -/
theorem finishLoad_tile {c4 : Bool} {tid tile : Nat} (hk : ld.kind = .tile c4 tid tile) :
    let t := s.finishLoad m y n ld
    OnlyRegs (s.setSail m y n (tileLoaded (s.sail m y n) ld tid tile)) t [yreg .sailState m y n] ∧
      (s.liveSet m y n ≠ ld.set → t.shadowState m y n = if ld.spec = 0 then 2 else 3) ∧
      (s.liveSet m y n = ld.set → t.liveEmpty m y n = false ∧ t.shadowState m y n = s.shadowState m y n) := by
  intro t
  by_cases hset : s.liveSet m y n = ld.set
  · have ht : t = _ := finishLoad_tile_live hk hset
    rw [ht]
    refine ⟨((OnlyRegs.refl _ _).putSail 3 1 0).putSail 7 1 0, fun h => absurd hset h, fun _ => ⟨?empty, ?shadow⟩⟩
    case empty => exact (bit_put_ne _ _ _ (by decide)).trans (bit_put_one _ _ 0 (by decide))
    case shadow => exact (shadowState_putSail _ _ _ _ _ _ (by decide)).trans (shadowState_putSail _ _ _ _ _ _ (by decide))
  · have ht : t = _ := finishLoad_tile_shadow hk hset
    rw [ht]
    refine ⟨((OnlyRegs.refl _ _).putSail 1 2 _).putSail 7 1 0, fun _ => ?_, fun h => absurd h hset⟩
    rw [shadowState_putSail _ _ _ _ _ _ (by decide), shadowState_putSail_same]
    split <;> rfl

/-- A load of a table completes: only under an open epoch, in the set that is shadow, does it change the set's state (R98, R100). -/
theorem finishLoad_noTile (hk : ∀ c4 tid tile, ld.kind ≠ .tile c4 tid tile) :
    let t := s.finishLoad m y n ld
    OnlyRegs (s.setSail m y n (tableLoaded (s.sail m y n) ld)) t [yreg .sailState m y n] ∧
      t.shadowState m y n = if ld.spec = 0 ∨ s.liveSet m y n = ld.set then s.shadowState m y n else 3 := by
  intro t
  have ht : t = _ := finishLoad_table hk
  rw [ht]
  split
  · exact ⟨(OnlyRegs.refl _ _).putSail 7 1 0, shadowState_putSail _ _ _ _ _ _ (by decide)⟩
  · exact ⟨((OnlyRegs.refl _ _).putSail 7 1 0).putSail 1 2 3, shadowState_putSail_same ..⟩

/-- Where a sail has been given and only registers have changed, it is that sail, and its yard is all of the yards that has changed. -/
theorem setSail_only {t : State} {v : SailSt} {rs : List RegId} (h : OnlyRegs (s.setSail m y n v) t rs) :
    t.sail m y n = v ∧ OnlyRegs (s.setYard m y (t.yard m y)) t rs := by
  have hyards : t.yards = (s.setSail m y n v).yards := h.outside .yards (by decide)
  have hset : s.setYard m y (t.yard m y) = s.setSail m y n v := by rw [yard_congr hyards, setSail, yard_setYard_same]
  exact ⟨(sail_congr hyards ..).trans (sail_setSail_same ..), hset ▸ h⟩

end
end State

open State

/-- Settles O20: a head that starts leaves its queue and little else (`takeHead_still`), its load begins and does the work of its first cycle
(`startLoad_first`, `startTable_first`, `startCopy_copies`), and a load that completes gives its sail and fields of SAIL_STATE
(`finishLoad_tile`, `finishLoad_noTile`). -/
theorem sailLoads : Obligations.SailLoads := by
  unfold Obligations.SailLoads
  refine ⟨⟨fun m y n c rest s hq hn hstart => ⟨fun c4 wt hop => ?load, fun weight hop => ?copy, fun weight cbk hop => ?table⟩,
    fun m y n r ld c4 s _ _ k => ?row, fun m y n i ld weight cbk x s hx => ?entry⟩, fun m y n ld s hld hdone => ?done, fun m y n s hld => ?early⟩
  case load =>
    obtain ⟨u, tags, hu, -, hexec⟩ := head_starts true hq (unitNo_sail hn) hstart
    have hcmd : u.startCmd m y n c tags = u.startLoad c m y n c4 wt tags.rd := by simp only [startCmd, hop]
    obtain ⟨ld, hqueue, hload, hkind, hfrom, hdone, hset, hspec, hrows, hshadow, hcells, hreads⟩ := startLoad_first (c := c) hu c4 wt tags.rd
    refine ⟨_, ld, hexec.trans (congrArg Host.Outcome.next hcmd), hqueue, hload, hkind, hfrom, hdone, hset, hspec, hrows, hshadow, hcells,
      fun hunmade => ?_⟩
    obtain ⟨hrow, hmem⟩ := hreads hunmade
    exact ⟨hrow, byte_congr hmem⟩
  case copy =>
    obtain ⟨u, tags, hu, hkeeps, hexec⟩ := head_starts true hq (unitNo_sail hn) hstart
    have hcmd : u.startCmd m y n c tags = u.startCopy c m y n weight := by simp only [startCmd, hop]
    obtain ⟨hqueue, hcells, hwtbl, hatbl, hreg⟩ := startCopy_copies (c := c) hu weight
    refine ⟨_, hexec.trans (congrArg Host.Outcome.next hcmd), hqueue, fun k hk => ?_, hcells, fun r hr => ?_⟩
    · rw [hwtbl, hatbl]
      cases weight <;> simp only [if_true, Bool.false_eq_true, if_false, get_copied _ _ hk]
    · exact (hreg r hr).trans (reg_congr (hkeeps.outside .regs (by decide)) hkeeps.part r)
  case table =>
    obtain ⟨u, tags, hu, -, hexec⟩ := head_starts true hq (unitNo_sail hn) hstart
    have hcmd : u.startCmd m y n c tags = u.startTable c m y n weight cbk tags.rd := by simp only [startCmd, hop]
    obtain ⟨ld, hload⟩ := startTable_first (c := c) hu weight cbk tags.rd
    exact ⟨_, ld, hexec.trans (congrArg Host.Outcome.next hcmd), hload⟩
  case row => rw [cells_writeTileRow, getD_rowCells]
  case entry =>
    intro t
    rw [table_writeTable]
    exact get_codebookLine hx ..
  case done =>
    refine ⟨_, exec_sailLoadComplete_done hld hdone, ?_⟩
    by_cases htile : ∃ c4 tid tile, ld.kind = .tile c4 tid tile
    · obtain ⟨c4, tid, tile, hk⟩ := htile
      obtain ⟨honly, hshadow, hlive⟩ := finishLoad_tile (s := s) (m := m) (y := y) (n := n) hk
      obtain ⟨hsail, honly⟩ := setSail_only honly
      rw [hsail]
      refine ⟨rfl, rfl, fun c4' tid' tile' hk' => ?_, fun hnone => absurd hk (hnone c4 tid tile), honly⟩
      obtain ⟨-, rfl, rfl⟩ := LoadKind.tile.inj (hk.symm.trans hk')
      exact ⟨tid_tileLoaded .., tile_tileLoaded .., hshadow, hlive⟩
    · have hk : ∀ c4 tid tile, ld.kind ≠ .tile c4 tid tile := fun c4 tid tile h => htile ⟨c4, tid, tile, h⟩
      obtain ⟨honly, hshadow⟩ := finishLoad_noTile (s := s) (m := m) (y := y) (n := n) hk
      obtain ⟨hsail, honly⟩ := setSail_only honly
      rw [hsail]
      exact ⟨rfl, rfl, fun c4 tid tile h => absurd h (hk c4 tid tile), fun _ => hshadow, honly⟩
  case early => exact exec_sailLoadComplete_early hld

end Sys2Proof.Machine
end

section
/-! SUPPORT. Flits that arrive (R128, R276): which one an arrival takes, what an access of a tick-class stream leaves of the units before it is
made, and what a flit writes at its destination; then the statement on them (O22). -/

namespace Sys2Proof.Machine
namespace State

/-! ### Places in yards (R107, R110) -/

/-- A region's mast, yard and offset give its address back. -/
theorem yardAddr_of_regionOf {a m y off : Nat} (h : regionOf a = .yard m y off) : yardAddr m y off = a := by
  unfold regionOf at h
  split at h
  · next hyards =>
    obtain ⟨hfrom, -⟩ := hyards
    dsimp only at h
    split at h
    · obtain ⟨rfl, rfl, rfl⟩ := Region.yard.inj h
      unfold yardAddr
      omega
    · cases h
  · split_ifs at h

/-- Whole words at a whole word's address cover none in part. -/
theorem partWords_whole {a n : Nat} (ha : a % 8 = 0) (hn : n % 8 = 0) : partWords a n = [] := by
  unfold partWords
  rw [List.filter_eq_nil_iff]
  intro w hw
  obtain ⟨i, hi, rfl⟩ := List.mem_map.mp hw
  have hlt : i < (a + n + 7) / 8 - a / 8 := List.mem_range.mp hi
  have hin : a ≤ 8 * (a / 8 + i) ∧ 8 * (a / 8 + i) + 8 ≤ a + n := by omega
  simp [hin]

section
variable {s : State}

/-- R109: a write of whole words that no other access of its cycle meets is stored. -/
theorem mem_yardWrite_alone {m y off port : Nat} {bs : List Byte} {prog remote : Option Nat} (hparts : partWords (yardAddr m y off) bs.length = [])
    (haccess : ∀ b ∈ (s.yard m y).access, b.cycle ≠ s.cycle) :
    (s.yardWrite m y off bs port prog remote).mem = (s.poke (yardAddr m y off) bs).mem := by
  unfold yardWrite
  simp only [hparts, List.isEmpty_nil, if_true]
  rw [mem_bankAccess_alone haccess, mem_store]

theorem mem_checkedStore (s : State) (a : Nat) (bs : List Byte) (port : Nat) (prog : Option Nat) :
    (s.checkedStore a bs port prog).mem = (storeAll s [(a, bs)]).mem := by
  unfold checkedStore
  rw [mem_store]
  exact storeAll_congr (mem_partialCheck ..) [(a, bs)]

/-- A write of a tick-class stream stores what it stores from a state whose units and memory are as they were: its stream's registers and the
tags of its block are all that changes about it (R120). -/
theorem mem_strmPiece {id a n : Nat} {gen : Bool} {write : State → State} {l : List (Nat × List Byte)}
    (hwrite : ∀ u, (∀ m y, Still false m y s u) → (write u).mem = (storeAll u l).mem) :
    (s.strmPiece id a n gen write).mem = (storeAll s l).mem := by
  have hstored : ∀ u, (∀ m y, Still false m y s u) → (write u).mem = (storeAll s l).mem := fun u hu =>
    (hwrite u hu).trans (storeAll_congr ((hu 0 0).mem nofun) l)
  unfold strmPiece
  split
  · exact hstored s fun m y => Still.refl false m y s
  · next t _ =>
    have hshow : ∀ m y, Still false m y s (s.showElems t n) := fun m y => by
      have hticks : Still false m y s (s.mapTick t.id fun x => { x with elems := t.elems + n * 8 / t.esize }) :=
        (Still.refl false m y s).other rfl rfl rfl rfl rfl rfl
      exact hticks.setReg rfl
    extract_lets v
    split
    · exact hstored v hshow
    · next k _ =>
      extract_lets u w
      have hopen : ∀ m y, Still false m y s u := fun m y =>
        Still.ite (hshow m y) ((tagOpen_still (hshow m y)).other rfl rfl rfl rfl rfl rfl)
      have hclose : Keeps [.regs, .yards] w (if w.moreIn t k.block then w else w.tagClose t.prog t.seq k.block) :=
        Keeps.ite (Keeps.refl _ w) (tagClose_keeps (Keeps.refl _ w) (Kind.Sub.refl _))
      exact (mem_of hclose rfl).trans (hstored u hopen)

/-! ### An arrival takes the oldest flit -/

section
variable {f : Flit} {rest : List Flit}

theorem oldestFlit_head (h : s.fabric.flits = f :: rest) : s.oldestFlit f.src f.dst = some f := by
  unfold oldestFlit
  rw [h]
  simp

theorem flits_takeFlit (h : s.fabric.flits = f :: rest) : (s.takeFlit f).fabric.flits = rest := by
  unfold takeFlit endFails
  simp [h]

theorem mem_takeFlit (s : State) (f : Flit) : (s.takeFlit f).mem = s.mem := rfl
theorem yard_takeFlit (s : State) (f : Flit) (m y : Nat) : (s.takeFlit f).yard m y = s.yard m y := rfl
theorem targetIn_takeFlit (s : State) (f : Flit) (a : Nat) : (s.takeFlit f).targetIn a = s.targetIn a := rfl

theorem fabric_landFlit (s : State) (f : Flit) : (s.landFlit f).fabric = s.fabric :=
  (landFlit_keeps (Keeps.refl _ s) (Kind.Sub.refl _)).outside .fabric (by decide)

theorem exec_xtreeFlitArrival_due (hf : s.oldestFlit f.src f.dst = some f) (hdue : s.flitDue f ≤ s.now) (hsrc : s.linkUp f.src = true)
    (hdst : s.linkUp f.dst = true) : exec (.xtreeFlitArrival f.src f.dst) s = .next ((s.takeFlit f).landFlit f) := by
  refine congrArg Host.Outcome.next ?_
  rw [hf]
  exact if_pos (by simp [hdue, hsrc, hdst])

theorem exec_xtreeFlitArrival_early (hf : s.oldestFlit f.src f.dst = some f) (hearly : s.now < s.flitDue f) :
    exec (.xtreeFlitArrival f.src f.dst) s = .next s := by
  refine congrArg Host.Outcome.next ?_
  rw [hf]
  exact if_neg (by simp [hearly])

/-- R133: no flit arrives over a link that is down. -/
theorem exec_xtreeFlitArrival_down {i o : Nat} (h : s.linkUp i = false ∨ s.linkUp o = false) : exec (.xtreeFlitArrival i o) s = .next s := by
  refine congrArg Host.Outcome.next ?_
  split
  · exact if_neg (by rcases h with h | h <;> simp [h])
  · rfl

end

/-! ### What a flit writes (R128, R276) -/

/-- How a flit of the tick class is written into a yard. -/
def yardFlit (f : Flit) (m y off : Nat) (s : State) : State :=
  s.yardWrite m y off f.data 16 f.prog (if f.src < 7 then some f.src else none)

/-- How a flit is written to HyperRAM: the slots that have gone since it was due without replays are known (R361). -/
def hyperFlit (f : Flit) (s : State) : State := s.hrWrite f.addr f.data f.prog f.strm fun c =>
  s.hrMissed c f.src (f.base + nsOf s.opPoint (f.sent + 28)) s.now

section
variable {f : Flit} {m y off : Nat}

theorem landFlit_stay (hregion : regionOf f.addr = .stay off) (hwrite : f.read = false) : s.landFlit f =
    s.strmPiece f.strm f.addr f.data.length false fun s => s.checkedStore f.addr f.data 16 f.prog := by
  simp only [landFlit, hregion, hwrite, Bool.false_eq_true, if_false]

theorem landFlit_yard (hregion : regionOf f.addr = .yard m y off) (hrank : f.rank = 0) (hwrite : f.read = false) (hin : s.targetIn f.addr = true) :
    s.landFlit f = s.strmPiece f.strm f.addr f.data.length f.gen (yardFlit f m y off) := by
  simp only [landFlit, hregion, hrank, hwrite, hin, ne_eq, not_true_eq_false, if_false, Bool.not_true, Bool.or_self, Bool.false_eq_true]
  rfl

theorem landFlit_hyper (hregion : regionOf f.addr = .hyper off) (hwrite : f.read = false) :
    s.landFlit f = s.strmPiece f.strm f.addr f.data.length false (hyperFlit f) := by
  simp only [landFlit, hregion, hwrite, Bool.false_eq_true, if_false]
  rfl

theorem mem_hyperFlit (f : Flit) (s : State) : (hyperFlit f s).mem = s.mem :=
  mem_of (hrWrite_keeps (Keeps.refl [.hyper] s) (Kind.Sub.refl _)) rfl

/-- R109: where nothing else stands in the yard's banks, a flit of whole words is stored. -/
theorem mem_yardFlit (hregion : regionOf f.addr = .yard m y off) (haccess : ∀ b ∈ (s.yard m y).access, b.cycle ≠ s.cycle) (hoff : off % 8 = 0)
    (hlen : f.data.length % 8 = 0) : (yardFlit f m y off s).mem = (storeAll s [(f.addr, f.data)]).mem := by
  have haddr : yardAddr m y off = f.addr := yardAddr_of_regionOf hregion
  have hparts : partWords (yardAddr m y off) f.data.length = [] := partWords_whole (by unfold yardAddr; omega) hlen
  rw [yardFlit, mem_yardWrite_alone hparts haccess, haddr]
  rfl

theorem mem_landFlit_stay (hregion : regionOf f.addr = .stay off) (hwrite : f.read = false) :
    (s.landFlit f).mem = (storeAll s [(f.addr, f.data)]).mem :=
  (congrArg State.mem (landFlit_stay hregion hwrite)).trans (mem_strmPiece fun u _ => mem_checkedStore u ..)

theorem mem_landFlit_yard (hregion : regionOf f.addr = .yard m y off) (hrank : f.rank = 0) (hwrite : f.read = false)
    (hin : s.targetIn f.addr = true) (haccess : (s.yard m y).access = []) (hoff : off % 8 = 0) (hlen : f.data.length % 8 = 0) :
    (s.landFlit f).mem = (storeAll s [(f.addr, f.data)]).mem := by
  have hland := congrArg State.mem (landFlit_yard hregion hrank hwrite hin)
  refine hland.trans (mem_strmPiece fun u hstill => mem_yardFlit hregion (fun b hb => ?_) hoff hlen)
  exact ((hstill m y).access b hb).elim (fun hs => absurd (haccess ▸ hs) List.not_mem_nil) fun hreads => Bool.noConfusion hreads.1

/-- R276: one of unscheduled traffic waits in the yard's landing buffer. -/
theorem landFlit_buffered (hregion : regionOf f.addr = .yard m y off) (hrank : f.rank ≠ 0) (hdst : f.dst ≠ 7) (hin : s.targetIn f.addr = true) :
    s.landFlit f = s.bufferLanding m y ⟨bankOf off, off, if f.read then none else some f.data, f.data.length, f.strm, f.rank⟩ := by
  simp [landFlit, hregion, hrank, hdst, hin]

theorem landFlit_gone (hregion : regionOf f.addr = .yard m y off) (hout : s.targetIn f.addr = false) : s.landFlit f = s := by
  simp [landFlit, hregion, hout]

/-- The data of a read has come to its engine: at most it waits in a landing buffer. -/
theorem mem_landFlit_read (hread : f.read = true) : (s.landFlit f).mem = s.mem := by
  unfold landFlit
  split
  · rw [hread]
    split
    · split <;> rfl
    · rfl
  · rw [if_pos hread]
  · rw [if_pos hread]
  · rfl

/-- R361: a write to HyperRAM becomes requests that wait for their slots. -/
theorem mem_landFlit_hyper (hregion : regionOf f.addr = .hyper off) : (s.landFlit f).mem = s.mem := by
  cases hread : f.read with
  | true => exact mem_landFlit_read hread
  | false =>
    exact (congrArg State.mem (landFlit_hyper hregion hread)).trans (mem_strmPiece (l := []) fun u _ => mem_hyperFlit f u)

end
end
end State

open State

/-- Settles O22: the flit at the head is the oldest between its ports (`oldestFlit_head`), and what it writes goes by its destination's
region. -/
theorem flitsArrive : Obligations.FlitsArrive := by
  unfold Obligations.FlitsArrive
  intro f rest s hflits
  have hhead := oldestFlit_head hflits
  refine ⟨fun hdue hsrc hdst => ⟨_, exec_xtreeFlitArrival_due hhead hdue hsrc hdst, ?flits, ?stay, ?yard, ?landing, ?gone, ?kept⟩, ?held⟩
  case flits => rw [fabric_landFlit, flits_takeFlit hflits]
  case stay =>
    intro off hregion hwrite
    exact byte_congr ((mem_landFlit_stay hregion hwrite).trans (storeAll_congr (mem_takeFlit s f) _))
  case yard =>
    intro m y off hregion hrank hwrite hin haccess hoff hlen
    exact byte_congr ((mem_landFlit_yard (s := s.takeFlit f) hregion hrank hwrite hin haccess hoff hlen).trans (storeAll_congr (mem_takeFlit s f) _))
  case landing =>
    intro m y off hregion hrank hport hin
    rw [landFlit_buffered (s := s.takeFlit f) hregion hrank hport hin, bufferLanding, yard_setYard_same, yard_takeFlit]
    exact ⟨rfl, byte_congr (mem_takeFlit s f)⟩
  case gone =>
    intro m y off hregion hout
    rw [landFlit_gone (s := s.takeFlit f) hregion hout]
    exact byte_congr (mem_takeFlit s f)
  case kept =>
    rintro (⟨off, hregion⟩ | hread)
    · exact byte_congr ((mem_landFlit_hyper hregion).trans (mem_takeFlit s f))
    · exact byte_congr ((mem_landFlit_read hread).trans (mem_takeFlit s f))
  case held =>
    rintro (hearly | hdown)
    · exact exec_xtreeFlitArrival_early hhead hearly
    · exact exec_xtreeFlitArrival_down hdown

end Sys2Proof.Machine
end

section
/-! SUPPORT. Links and ratlines (R129, R133, R136): conditions of a tick that stand whatever is raised after them, registers that faults and
events leave, what a replay does to its direction and to the flits on it, and what a link that goes down leaves; then the statement on them
(O23). -/

namespace Sys2Proof.Machine

/-- What every step of a fold keeps, and the step at a member of its list gives, holds at the end. -/
theorem foldl_of_mem {α β : Type} {P : β → Prop} {f : β → α → β} {x : α} {l : List α} (hx : x ∈ l) (hkeep : ∀ b a, P b → P (f b a))
    (hgive : ∀ b, P (f b x)) (b : β) : P (l.foldl f b) := by
  obtain ⟨before, after, rfl⟩ := List.append_of_mem hx
  rw [List.foldl_append, List.foldl_cons]
  exact List.foldlRecOn after f (hgive _) fun b hb a _ => hkeep b a hb

/-! ### Single bits -/

theorem getLsbD_two_pow {n j : Nat} : (BitVec.ofNat 64 (2 ^ n)).getLsbD j = (decide (j < 64) && decide (n = j)) := by
  rw [BitVec.getLsbD_ofNat, Nat.testBit_two_pow]

namespace State

section
variable (s : State) (r : RegId)

theorem bit_setBits_two_pow (n j : Nat) :
    bit ((s.setBits r (BitVec.ofNat 64 (2 ^ n))).reg r) j = (bit (s.reg r) j || decide (j < 64) && decide (n = j)) := by
  rw [setBits, reg_setReg_same, bit, BitVec.getLsbD_or, getLsbD_two_pow]
  rfl

theorem bit_clearBits_two_pow (n j : Nat) :
    bit ((s.clearBits r (BitVec.ofNat 64 (2 ^ n))).reg r) j = (bit (s.reg r) j && !decide (n = j)) := by
  rw [clearBits, reg_setReg_same, bit, BitVec.getLsbD_and, BitVec.getLsbD_not, getLsbD_two_pow, bit]
  by_cases hj : j < 64
  · simp [hj]
  · simp [BitVec.getLsbD_of_ge _ _ (Nat.le_of_not_lt hj)]

/-- Table 2.2: a counter field counts once, up to its largest value. -/
theorem get_bump_same {lo w : Nat} (n : Nat) (h : lo + w ≤ 64) : (s.bump r n lo w).get r lo w = min (s.get r lo w + n) (2 ^ w - 1) := by
  have hpos : 0 < 2 ^ w := Nat.two_pow_pos w
  rw [bump, get_put_same _ _ _ h, satAdd]
  exact Nat.mod_eq_of_lt (by omega)

end

/-! ### Conditions of a tick (R131, R232) -/

section
variable {s : State} {p n : Nat}

/-- Conditions are only added to. -/
theorem conds_setCond_of_stands (q k : Nat) (h : (s.ctx p).conds.getLsbD n = true) : ((s.setCond q k).ctx p).conds.getLsbD n = true := by
  by_cases hpq : p = q
  · subst hpq
    simp [h]
  · rw [setCond, ctx_setCtx_ne _ _ hpq]
    exact h

theorem conds_setCond_zero (s : State) (p : Nat) : ((s.setCond p 0).ctx p).conds.getLsbD 0 = true := by simp

theorem conds_faultOn_of_stands (q m kind idx : Nat) (h : (s.ctx p).conds.getLsbD n = true) :
    ((s.faultOn q m kind idx).ctx p).conds.getLsbD n = true := by
  rw [ctx_congr (progs_faultOn s q m kind idx)]
  exact conds_setCond_of_stands q 4 h

theorem conds_unitFault_of_stands (q : Nat) (h : (s.ctx p).conds.getLsbD n = true) : ((s.unitFault q).ctx p).conds.getLsbD n = true := by
  unfold unitFault
  refine List.foldlRecOn (motive := fun u : State => (u.ctx p).conds.getLsbD n = true) _ _ (conds_setCond_of_stands q 4 h) fun u hu m _ => ?_
  exact conds_faultOn_of_stands q m _ _ hu

/-- R232: each program of the list that runs in the tick gives INVALID_FAULT. -/
theorem unitFaults_invalid {ps : List Nat} (hp : p ∈ ps) (hactive : (s.ctx p).active = true) :
    ((s.unitFaults ps).ctx p).conds.getLsbD 4 = true :=
  foldl_of_mem (P := fun u => (u.ctx p).conds.getLsbD 4 = true) (List.mem_filter.mpr ⟨hp, hactive⟩)
    (fun _ q h => conds_unitFault_of_stands q h) (fun u => unitFault_invalid u p) s

end

/-! ### Registers that faults leave (R232) -/

section
variable {q : RegId} (hrecord : q.name ≠ .ccCtxFault) (hcycle : q.name ≠ .ccCtxFaultCyc)
include hrecord hcycle

theorem reg_unitFault (s : State) (p : Nat) : (s.unitFault p).reg q = s.reg q :=
  List.foldlRecOn (motive := fun u : State => u.reg q = s.reg q) _ _ rfl fun _ hb _ _ =>
    (reg_faultOn _ _ _ _ _ (fun e => hrecord (congrArg RegId.name e)) fun e => hcycle (congrArg RegId.name e)).trans hb

theorem reg_unitFaults (s : State) (ps : List Nat) : (s.unitFaults ps).reg q = s.reg q :=
  List.foldlRecOn (motive := fun u : State => u.reg q = s.reg q) _ _ rfl fun _ hb _ _ => (reg_unitFault hrecord hcycle _ _).trans hb

end

/-! ### Replays (R129, R131) -/

theorem linkUp_congr {s t : State} (h : t.fabric.down = s.fabric.down) (k : Nat) : t.linkUp k = s.linkUp k := by simp only [linkUp, h]

theorem lateBy_replay (g : Flit) (away : Bool) :
    lateBy g away 64 = if away then { g with lateDn := g.lateDn + 64 } else { g with lateUp := g.lateUp + 64 } := rfl

section
variable (s : State) (port : Nat) (away : Bool)

/-- The register that counts the replays of a direction. -/
def replayReg : RegId := rid (if away then .xtreeReplayDn else .xtreeReplayUp) port

theorem replayReg_ne {r : RegName} (hdn : r ≠ .xtreeReplayDn) (hup : r ≠ .xtreeReplayUp) : replayReg port away ≠ rid r := fun e => by
  cases away
  · exact hup (congrArg RegId.name e).symm
  · exact hdn (congrArg RegId.name e).symm

/-- A replay, counted, with the flits of its direction later. -/
def replayCounted : State :=
  let u := (s.bump (replayReg port away)).delayFrom port away
  let k := dirKey port away
  { u with fabric := { u.fabric with
      replays := SMap.set 0 u.fabric.replays k (SMap.get 0 s.fabric.replays k + 1)
      fails := SMap.set 0 u.fabric.fails k (SMap.get 0 u.fabric.fails k + 1)
      delay := SMap.set 0 u.fabric.delay k (SMap.get 0 u.fabric.delay k + 64) } }

/-- The programs that have used a direction in the tick are marked retried. -/
def markRetried (k : Nat) : State := (SMap.get [] s.fabric.users k).foldl (fun s p => s.setCond p 0) s

/-- A direction over its budget: raised once in the tick. -/
def replayBudget (n : Nat) : State :=
  if s.get (rid .xtreeBudget) 0 4 < n && !SMap.get false s.fabric.onceExcess (dirKey port away) then
    { s with fabric := { s.fabric with onceExcess := SMap.set false s.fabric.onceExcess (dirKey port away) true } }.raise 0x0506 7 port 0xFFFF
      (if away then 1 else 0) s.t48
  else s

theorem replay_eq : s.replay port away = ((s.replayCounted port away).markRetried (dirKey port away)).replayBudget port away
    (SMap.get 0 s.fabric.replays (dirKey port away) + 1) := rfl

/-- The event leaves the counts, the flits and the programs. -/
theorem replayBudget_leaves (n : Nat) : ∃ once, (s.replayBudget port away n).fabric = { s.fabric with onceExcess := once } ∧
    (s.replayBudget port away n).progs = s.progs ∧
    ∀ r, r ≠ rid .evtLostCnt → r ≠ rid .evtStat → (s.replayBudget port away n).reg r = s.reg r := by
  unfold replayBudget
  split
  · exact ⟨_, fabric_raise .., progs_raise .., fun r h1 h2 => reg_raise _ _ _ _ _ _ _ h1 h2⟩
  · exact ⟨_, rfl, rfl, fun _ _ _ => rfl⟩

theorem markRetried_keeps (k : Nat) : Keeps [.progs] s (s.markRetried k) :=
  Keeps.foldl (fun _ _ h => setCond_keeps h (Kind.Sub.refl _)) _ (Keeps.refl _ s)

theorem markRetried_retried {k p : Nat} (hp : p ∈ SMap.get [] s.fabric.users k) : ((s.markRetried k).ctx p).conds.getLsbD 0 = true :=
  foldl_of_mem (P := fun u => (u.ctx p).conds.getLsbD 0 = true) hp (fun _ q h => conds_setCond_of_stands q 0 h) (fun u => conds_setCond_zero u p) s

/-- A failed flit makes flits late, and is the one in hand; nothing else of the fabric changes. -/
theorem delayFrom_leaves : ∃ flits failed, (s.delayFrom port away).fabric = { s.fabric with flits := flits, failed := failed } := by
  unfold delayFrom
  split
  · exact ⟨_, _, rfl⟩
  · exact ⟨_, _, rfl⟩

theorem flits_delayFrom_none (h : s.failing port away = none) : (s.delayFrom port away).fabric.flits = s.fabric.flits := by
  unfold delayFrom
  rw [h]

/-- The failed flit and those behind it on the direction are 64 cycles later. -/
theorem flits_delayFrom_some {f : Flit} (h : s.failing port away = some f) {j : Nat} {g : Flit} (hg : s.fabric.flits[j]? = some g) :
    (s.delayFrom port away).fabric.flits[j]? = some (if s.fabric.flits.idxOf f ≤ j ∧ crosses g port away = true then
      (if away then { g with lateDn := g.lateDn + 64 } else { g with lateUp := g.lateUp + 64 }) else g) := by
  unfold delayFrom
  rw [h]
  simp only [List.getElem?_mapIdx, hg, Option.map_some, Bool.and_eq_true, decide_eq_true_eq, lateBy_replay]

theorem reg_delayFrom (r : RegId) : (s.delayFrom port away).reg r = s.reg r :=
  have hkeeps : Keeps [.fabric] s (s.delayFrom port away) := delayFrom_keeps (Keeps.refl _ s) (Kind.Sub.refl _)
  reg_congr (hkeeps.outside .regs (by decide)) hkeeps.part r

/-- What a counted replay leaves of its fabric, and the counts of its direction. -/
theorem fabric_replayCounted :
    let u := s.replayCounted port away
    let k := dirKey port away
    u.fabric.users = s.fabric.users ∧ u.fabric.down = s.fabric.down ∧ SMap.get 0 u.fabric.fails k = SMap.get 0 s.fabric.fails k + 1 ∧
      SMap.get 0 u.fabric.delay k = SMap.get 0 s.fabric.delay k + 64 := by
  intro u k
  obtain ⟨flits, failed, hlate⟩ := (s.bump (replayReg port away)).delayFrom_leaves port away
  simp only [u, k, replayCounted, hlate, SMap.get_set_same, fabric_bump]
  trivial

theorem get_replayCounted : (s.replayCounted port away).get (replayReg port away) 0 32 = min (s.get (replayReg port away) 0 32 + 1) (2 ^ 32 - 1) := by
  have hreg : (s.replayCounted port away).reg (replayReg port away) = (s.bump (replayReg port away)).reg (replayReg port away) :=
    reg_delayFrom ..
  rw [get, hreg]
  exact get_bump_same s _ 1 (by decide)

/-- A replay, but for its event. -/
theorem replay_leaves :
    let u := s.replayCounted port away
    let t := s.replay port away
    (∃ once, t.fabric = { u.fabric with onceExcess := once }) ∧
      (∀ r, r ≠ rid .evtLostCnt → r ≠ rid .evtStat → t.reg r = u.reg r) ∧
      ∀ p ∈ SMap.get [] u.fabric.users (dirKey port away), (t.ctx p).conds.getLsbD 0 = true := by
  intro u t
  have hmarked := u.markRetried_keeps (dirKey port away)
  obtain ⟨once, hfabric, hprogs, hreg⟩ := (u.markRetried (dirKey port away)).replayBudget_leaves port away
    (SMap.get 0 s.fabric.replays (dirKey port away) + 1)
  have ht : t = (u.markRetried (dirKey port away)).replayBudget port away (SMap.get 0 s.fabric.replays (dirKey port away) + 1) :=
    s.replay_eq port away
  rw [ht]
  refine ⟨⟨once, hfabric.trans ?_⟩, fun r h1 h2 => (hreg r h1 h2).trans ?_, fun p hp => ?_⟩
  · rw [hmarked.outside .fabric (by decide)]
  · exact reg_congr (hmarked.outside .regs (by decide)) hmarked.part r
  · rw [ctx_congr hprogs]
    exact u.markRetried_retried hp

end

/-! ### Links that go down and come back (R133, R425) -/

section
variable (s : State) (port : Nat) (away : Bool)

/-- R133: what a link that goes down leaves of the links, of XTREE_STATUS, and as the last event. -/
theorem dropLink_leaves :
    let t := s.dropLink port away
    t.linkUp port = false ∧ (∀ k, k ≠ port → t.linkUp k = s.linkUp k) ∧ t.events.last = 0x0507 ∧
      (port < 8 → bit (t.reg (rid .xtreeStatus)) port = false ∧ bit (t.reg (rid .xtreeStatus)) (8 + port) = true) := by
  unfold dropLink
  extract_lets ts _ u v w x t
  have hasked : Keeps [.power] x t := Keeps.ite (askOut_keeps (Keeps.refl _ x) (Kind.Sub.refl _)) (Keeps.refl _ x)
  have hfaults : Keeps [.regs, .progs] w x := unitFaults_keeps (Keeps.refl _ w) (Kind.Sub.refl _)
  have hfabric : t.fabric = u.fabric :=
    calc t.fabric = x.fabric := hasked.outside .fabric (by decide)
      _ = w.fabric := hfaults.outside .fabric (by decide)
      _ = v.fabric := fabric_raise ..
      _ = u.fabric := rfl
  have hlink : ∀ k, t.linkUp k = !if k = port then true else SMap.get false s.fabric.down k := fun k => by
    rw [linkUp, hfabric, SMap.get_set]
  have hstatus : t.reg (rid .xtreeStatus) = v.reg (rid .xtreeStatus) :=
    calc t.reg (rid .xtreeStatus) = x.reg (rid .xtreeStatus) := reg_congr (hasked.outside .regs (by decide)) hasked.part _
      _ = w.reg (rid .xtreeStatus) := reg_unitFaults (by decide) (by decide) _ _
      _ = v.reg (rid .xtreeStatus) := reg_raise _ _ _ _ _ _ _ (by decide) (by decide)
  refine ⟨(hlink port).trans (by simp), fun k hk => (hlink k).trans (by simp [hk, linkUp]), ?event, fun hport => ?bits⟩
  case event =>
    calc t.events.last = x.events.last := by rw [hasked.outside .events (by decide)]
      _ = w.events.last := by rw [hfaults.outside .events (by decide)]
      _ = 0x0507 := last_raise ..
  case bits =>
    have hlt : 8 + port < 64 := by omega
    rw [hstatus, bit_setBits_two_pow, bit_setBits_two_pow, bit_clearBits_two_pow]
    simp [hlt]

theorem exec_linkReplay_counted (hup : s.linkUp port = true) (hfails : SMap.get 0 s.fabric.fails (dirKey port away) < 8) :
    exec (.linkReplay port away) s = .next (s.replay port away) :=
  congrArg Host.Outcome.next ((if_neg (by simp [hup])).trans (if_neg (Nat.not_le.mpr hfails)))

theorem exec_linkReplay_ninth (hup : s.linkUp port = true) (hfails : 8 ≤ SMap.get 0 s.fabric.fails (dirKey port away)) :
    exec (.linkReplay port away) s = .next (s.dropLink port away) :=
  congrArg Host.Outcome.next ((if_neg (by simp [hup])).trans (if_pos hfails))

theorem exec_linkReplay_down (hdown : s.linkUp port = false) : exec (.linkReplay port away) s = .next s :=
  congrArg Host.Outcome.next (if_pos (by simp [hdown]))

theorem exec_xtreeLinkRetrained_trained (hdown : s.linkUp port = false) (hmp : s.fwRuns 1 = true) : exec (.xtreeLinkRetrained port true) s =
    .next { s with fabric := { s.fabric with retrained := SMap.set false s.fabric.retrained port true } } :=
  congrArg Host.Outcome.next ((if_neg (by simp [hdown, hmp])).trans (if_pos rfl))

theorem exec_xtreeLinkRetrained_failed (hdown : s.linkUp port = false) (hmp : s.fwRuns 1 = true) (hmast : port < 7) :
    exec (.xtreeLinkRetrained port false) s = .next (s.askOut (56 + port)) :=
  congrArg Host.Outcome.next ((if_neg (by simp [hdown, hmp])).trans ((if_neg Bool.false_ne_true).trans (if_pos hmast)))

theorem exec_xtreeLinkRetrained_held (ok : Bool) (h : s.linkUp port = true ∨ s.fwRuns 1 = false) :
    exec (.xtreeLinkRetrained port ok) s = .next s :=
  congrArg Host.Outcome.next (if_pos (by rcases h with h | h <;> simp [h]))

theorem fabric_outside (x : FabricSt) : Outside [.fabric] s { s with fabric := x } := fun k hk => by
  cases k
  case fabric => exact absurd (List.mem_singleton.mpr rfl) hk
  all_goals rfl

/-- R427: a unit asked out is among those that step 6 takes out, with those asked before. -/
theorem askOut_pending (unit : Nat) :
    unit ∈ (s.askOut unit).power.outPending ∧ ∀ u ∈ s.power.outPending, u ∈ (s.askOut unit).power.outPending := by
  unfold askOut
  split
  · next h => exact ⟨List.contains_iff_mem.mp h, fun _ hu => hu⟩
  · exact ⟨by simp, fun _ hu => List.mem_append_left _ hu⟩

end

/-! ### Ratlines (R136) -/

section
variable (s : State) (m : Nat) (fromHub : Bool)

theorem ratError_leaves (hm : m < 64) :
    let t := s.ratError m fromHub
    bit (t.reg (rid .xtreeRatlineErr)) m = true ∧ t.events.last = 0x0508 ∧
      ∀ p, s.admitted p = true → m ∈ s.progMasts p → (s.prog p).box.usesPkg = true → (s.ctx p).active = true →
        (t.ctx p).conds.getLsbD 4 = true := by
  unfold ratError
  extract_lets ts _ _ u v w t
  have hasked : Keeps [.power] w t := Keeps.ite (askOut_keeps (Keeps.refl _ w) (Kind.Sub.refl _)) (Keeps.refl _ w)
  have hfaults : Keeps [.regs, .progs] v w := unitFaults_keeps (Keeps.refl _ v) (Kind.Sub.refl _)
  have hreg : ∀ r, r ≠ rid .evtLostCnt → r ≠ rid .evtStat → v.reg r = (u.setBits (rid .xtreeRatlineErr) (BitVec.ofNat 64 (2 ^ m))).reg r :=
    fun r h1 h2 => reg_raise _ _ _ _ _ _ _ h1 h2
  have hprogs : v.progs = s.progs := progs_raise ..
  refine ⟨?shown, ?event, fun p hadmitted hmast hpkg hactive => ?invalid⟩
  case shown =>
    have hshown : t.reg (rid .xtreeRatlineErr) = (u.setBits (rid .xtreeRatlineErr) (BitVec.ofNat 64 (2 ^ m))).reg (rid .xtreeRatlineErr) :=
      calc t.reg (rid .xtreeRatlineErr) = w.reg (rid .xtreeRatlineErr) := reg_congr (hasked.outside .regs (by decide)) hasked.part _
        _ = v.reg (rid .xtreeRatlineErr) := reg_unitFaults (by decide) (by decide) _ _
        _ = _ := hreg _ (by decide) (by decide)
    rw [hshown, bit_setBits_two_pow]
    simp [hm]
  case event =>
    calc t.events.last = w.events.last := by rw [hasked.outside .events (by decide)]
      _ = v.events.last := by rw [hfaults.outside .events (by decide)]
      _ = 0x0508 := last_raise ..
  case invalid =>
    have hrow : v.reg (rid .admProgA p) = s.reg (rid .admProgA p) :=
      (hreg _ (by simp [rid]) (by simp [rid])).trans (reg_setReg_ne _ _ (by simp [rid]))
    have hadmitted' : v.admitted p = true := by
      rw [← hadmitted, admitted, progState, get, hrow]
      rfl
    have hmast' : m ∈ v.progMasts p := by
      rw [progMasts, hrow]
      exact hmast
    have hlt : p < 64 := by
      have h := hadmitted
      simp only [admitted, Bool.and_eq_true, decide_eq_true_eq] at h
      exact h.1
    have hlisted : p ∈ v.admittedList.filter fun p => (v.progMasts p).contains m && (v.prog p).box.usesPkg := by
      simp [admittedList, hlt, hadmitted', hmast', prog_congr hprogs, hpkg]
    rw [ctx_congr (hasked.outside .progs (by decide))]
    exact unitFaults_invalid hlisted ((congrArg Ctx.active (ctx_congr hprogs p)).trans hactive)

theorem exec_ratlineErr_in (hin : s.mastIn m = true) : exec (.ratlineErr m fromHub) s = .next (s.ratError m fromHub) :=
  congrArg Host.Outcome.next (if_pos hin)

theorem exec_ratlineErr_out (hout : s.mastIn m = false) : exec (.ratlineErr m fromHub) s = .next s :=
  congrArg Host.Outcome.next (if_neg (by simp [hout]))

/-- A mast in service has its bit in PWR_INSVC. -/
theorem lt_of_mastIn {s : State} {m : Nat} (hin : s.mastIn m = true) : m < 64 := by
  unfold mastIn at hin
  have hbit : bit (s.reg (rid .pwrInsvc)) (56 + m) = true := (Bool.and_eq_true_iff.mp hin).2
  have hlt : 56 + m < 64 := BitVec.lt_of_getLsbD hbit
  omega

end
end State

open State

/-- Settles O23: a replay is counted, its flits made late and its users marked (`replay_leaves`), a link goes down in place of the ninth
(`dropLink_leaves`), and a ratline error faults the programs of its mast (`ratError_leaves`). -/
theorem links : Obligations.Links := by
  unfold Obligations.Links
  refine ⟨fun port away s => ⟨fun hup hfails => ?replay, fun hup hfails => ?ninth, exec_linkReplay_down s port away⟩,
    fun port s => ⟨fun hdown hmp => ?trained, fun hdown hmp hmast => ?failed, fun h ok => exec_xtreeLinkRetrained_held s port ok h⟩,
    fun m fromHub s => ⟨fun hin => ?ratline, exec_ratlineErr_out s m fromHub⟩⟩
  case replay =>
    obtain ⟨⟨once, hfabric⟩, hreg, husers⟩ := s.replay_leaves port away
    obtain ⟨hsame, hdown, hcount, hdelay⟩ := s.fabric_replayCounted port away
    have hflits : (s.replay port away).fabric.flits = ((s.bump (replayReg port away)).delayFrom port away).fabric.flits := by
      rw [hfabric]
      rfl
    refine ⟨_, exec_linkReplay_counted s port away hup hfails, ?up, ?count, ?delay, ?register, ?retried, fun f hf j g hg => ?late,
      fun hnone => ?alone, ?memory⟩
    case up => exact (linkUp_congr ((congrArg FabricSt.down hfabric).trans hdown) port).trans hup
    case count =>
      rw [hfabric]
      exact hcount
    case delay =>
      rw [hfabric]
      exact hdelay
    case register =>
      intro r
      have hcounted : (s.replay port away).reg r = (s.replayCounted port away).reg r :=
        hreg r (replayReg_ne port away (by decide) (by decide)) (replayReg_ne port away (by decide) (by decide))
      exact (congrArg (fld · 0 32) hcounted).trans (s.get_replayCounted port away)
    case retried =>
      rw [← hsame]
      exact husers
    case late =>
      rw [hflits]
      exact flits_delayFrom_some (s.bump (replayReg port away)) port away hf hg
    case alone =>
      rw [hflits]
      exact flits_delayFrom_none (s.bump (replayReg port away)) port away hnone
    case memory => exact byte_congr (mem_of (replay_keeps (Keeps.refl [.regs, .progs, .fabric, .events] s) (Kind.Sub.refl _)) rfl)
  case ninth =>
    obtain ⟨hdown, hothers, hevent, hstatus⟩ := s.dropLink_leaves port away
    refine ⟨_, exec_linkReplay_ninth s port away hup hfails, hdown, hevent, hothers, hstatus, fun f _ hport => exec_xtreeFlitArrival_down ?_⟩
    exact hport.imp (fun h => by rw [h, hdown]) fun h => by rw [h, hdown]
  case trained =>
    exact ⟨_, exec_xtreeLinkRetrained_trained s port hdown hmp, hdown, SMap.get_set_same s.fabric.retrained port true, fabric_outside s _⟩
  case failed =>
    obtain ⟨hin, hkept⟩ := s.askOut_pending (56 + port)
    exact ⟨_, exec_xtreeLinkRetrained_failed s port hdown hmp hmast, hin, hkept,
      (askOut_keeps (Keeps.refl [.power] s) (Kind.Sub.refl _)).outside⟩
  case ratline =>
    obtain ⟨hshown, hevent, hinvalid⟩ := s.ratError_leaves m fromHub (lt_of_mastIn hin)
    have hmem : (s.ratError m fromHub).mem = s.mem := mem_of (ratError_keeps (Keeps.refl _ s) (Kind.Sub.refl _)) rfl
    exact ⟨_, exec_ratlineErr_in s m fromHub hin, hshown, hevent, byte_congr hmem, hinvalid⟩

end Sys2Proof.Machine
end

section
/-! SUPPORT. The address registers, sp.rd and sc.age (Table 7.13, R186), and the branches (R189, R190): where a branch that has issued leads, and
what stops its context; then the obligations on them (O10, O11). -/

namespace Sys2Proof.Machine

/-! ### Special values (Table 7.11) -/

/-- The special value of each immediate that is not reserved. -/
theorem specialValue_named (s : State) (p : Nat) {imm : BitVec 32} (h : imm.toNat < 5) : specialValue s p imm = some (BitVec.ofNat 32 (
    if imm = 0 then s.t48 else if imm = 1 then s.t48 / 2 ^ 32 % 65536 else if imm = 2 then s.t48 % (s.prog p).box.phases
    else if imm = 3 then (s.prog p).box.phases else (s.ctx p).outcome)) := by
  obtain ⟨n, hn⟩ : ∃ n : Fin 5, imm = BitVec.ofNat 32 n := ⟨⟨imm.toNat, h⟩, by simp⟩
  subst hn
  fin_cases n <;> rfl

theorem exec_spRd {s : State} {p : Nat} {g : Guard} {rd : BitVec 5} {imm : BitVec 32} {v : Word} (h : Issues s p g (.spRd p g rd imm))
    (hv : specialValue s p imm = some v) : exec (.spRd p g rd imm) s = .next (((s.issued p).setSc p rd v).advance p) := by
  show execSpRd p g rd imm s = _
  unfold execSpRd
  rw [hv]
  exact congrArg Host.Outcome.next (State.issue_on h h.ready)

/-- Settles O10: each of them writes one register of its program and passes (`WritesAd.setAd`, `WritesSc.setSc`). -/
theorem addressOps : Obligations.AddressOps := by
  unfold Obligations.AddressOps
  refine ⟨⟨fun p g rd imm s h => ?adLi, fun p g rd ra s h => ?adMov, fun p g rd ra imm s h => ?adAdd⟩,
    fun p g rd imm s h himm => ?spRd, fun p g rd input s h => ?scAge⟩
  case adLi => exact ⟨_, congrArg Host.Outcome.next (State.issue_on h h.ready), WritesAd.setAd ..⟩
  case adMov =>
    refine ⟨_, congrArg Host.Outcome.next (State.issue_on h h.ready), ?_⟩
    rw [State.regsOf_issued]
    exact WritesAd.setAd ..
  case adAdd =>
    refine ⟨_, congrArg Host.Outcome.next (State.issue_on h h.ready), ?_⟩
    rw [State.regsOf_issued]
    exact WritesAd.setAd ..
  case spRd => exact ⟨_, exec_spRd h (specialValue_named s p himm), WritesSc.setSc ..⟩
  case scAge =>
    refine ⟨_, congrArg Host.Outcome.next (State.issue_on h h.ready), ?_⟩
    rw [State.inputs_issued]
    exact WritesSc.setSc ..

/-! ### Where a branch leads (R189, R190) -/

namespace State

section
variable (s : State) (p : Nat) (b : Branch)

theorem follow_not_taken : s.follow p b false = s.setCtx p { s.ctx p with idx := b.idx + 1 } := rfl

theorem follow_forward (h : 0 ≤ b.disp) : s.follow p b true = s.setCtx p { s.ctx p with idx := (b.idx + b.disp).toNat } :=
  if_neg (Int.not_lt.mpr h)

theorem follow_backward (h : b.disp < 0) (hn : SMap.get 0 (s.ctx p).taken b.idx < b.bound) : s.follow p b true = s.setCtx p
    { s.ctx p with
      taken := SMap.set 0 (s.ctx p).taken b.idx (SMap.get 0 (s.ctx p).taken b.idx + 1), idx := (b.idx + b.disp).toNat } :=
  (if_pos h).trans (if_neg (Nat.not_le.mpr hn))

theorem follow_bound (h : b.disp < 0) (hn : b.bound ≤ SMap.get 0 (s.ctx p).taken b.idx) (he : (s.ctx p).epochs = []) :
    s.follow p b true = s.loopBound p b.idx :=
  (if_pos h).trans ((if_pos hn).trans (if_pos (List.isEmpty_iff.mpr he)))

end

section
variable (s : State) (p idx : Nat)

/-- The fault stops the context and adds its condition; its registers and index stand. -/
theorem ctx_loopBound : (s.loopBound p idx).ctx p = { s.ctx p with
    conds := (s.ctx p).conds ||| 16, run := .stopped, blocked := none, specStop := false, specBound := false } := by
  unfold loopBound
  rw [ctx_stopIssue, ctx_congr (progs_raise ..), ctx_faultOn]

theorem last_loopBound : (s.loopBound p idx).events.last = 0x0310 := rfl

theorem mem_loopBound : (s.loopBound p idx).mem = s.mem := by
  unfold loopBound
  rw [mem_stopIssue, mem_raise, mem_faultOn]

end

end State

/-! ### Branches that issue -/

/-- A branch that issues with no register pending is followed, in the state in which it takes effect, from its own index. -/
def Followed (i : Instr) (p : Nat) (g : Guard) (t : BrTail) (taken : State → Bool) : Prop :=
  ∀ s : State, Issues s p g i → ∃ b : Branch, b.idx = (s.ctx p).idx ∧ b.disp = t.disp.toInt ∧ b.bound = t.bound.toNat ∧
    exec i s = .next ((s.issued p).follow p b (taken s))

/-- What follows from one property of a branch holds of each branch of which that property holds. -/
theorem EachBranch.imp {P Q : Instr → Nat → Guard → BrTail → (State → Bool) → Prop} (h : EachBranch P)
    (hpq : ∀ {i p g t taken}, P i p g t taken → Q i p g t taken) : EachBranch Q := by
  obtain ⟨hbr, hpred, hreg⟩ := h
  exact ⟨fun p g t => hpq (hbr p g t), fun p g pr t => hpq (hpred p g pr t), fun m hm p g ra b t => hpq (hreg m hm p g ra b t)⟩

namespace State
variable {s : State} {p : Nat} {g : Guard} {i : Instr}

/-- A branch that tests registers, none of them pending. -/
theorem branchOn_ready {ra : BitVec 5} {b : Operand} (h : Issues s p g i)
    (hready : (ra.toNat :: b.uses).any (s.ctx p).pendingReg = false) (c : Cond) (t : BrTail) :
    s.branchOn p g i c ra b t = (s.issued p).follow p
      ⟨(s.ctx p).idx, t.disp.toInt, t.bound.toNat, t.expect, c, (s.imemCorrect p).readAtIssue p (.reg ra), (s.imemCorrect p).readAtIssue p b⟩
      (c.holds ((s.regsOf p).getSc ra) (b.value (s.regsOf p))) := by
  have hregs : (s.imemCorrect p).regsOf p = s.regsOf p := congrArg Ctx.regs (s.ctx_imemCorrect p p)
  unfold branchOn
  simp only [h.can, h.sound, hregs, h.on, ctx_imemCorrect, hready]
  rfl

/-- A branch that tests no scalar register. -/
theorem branchAt_on (h : Issues s p g i) (t : BrTail) (taken : ProgRegs → Bool) : s.branchAt p g i t taken =
    (s.issued p).follow p ⟨(s.ctx p).idx, t.disp.toInt, t.bound.toNat, t.expect, .eq, .imm 0, .imm 0⟩ (taken (s.regsOf p)) := by
  unfold branchAt
  rw [issueAt_on h rfl, ctx_issued, regsOf_issued]

end State

theorem eachBranch_followed : EachBranch Followed := by
  refine ⟨fun p g t s h => ⟨_, rfl, rfl, rfl, congrArg Host.Outcome.next (State.branchAt_on h t _)⟩,
    fun p g pr t s h => ⟨_, rfl, rfl, rfl, congrArg Host.Outcome.next (State.branchAt_on h t _)⟩, fun m hm p g ra b t s h => ?_⟩
  have hform : exec (m.1 p g ra b t) s = .next (s.branchOn p g (m.1 p g ra b t) m.2 ra b t) ∧ (m.1 p g ra b t).scRegs = ra.toNat :: b.uses := by
    simp only [registerBranches, List.mem_cons, List.not_mem_nil, or_false] at hm
    rcases hm with rfl | rfl | rfl | rfl | rfl | rfl | rfl | rfl <;> exact ⟨rfl, rfl⟩
  obtain ⟨hexec, huses⟩ := hform
  exact ⟨_, rfl, rfl, rfl, hexec.trans (congrArg Host.Outcome.next (State.branchOn_ready h (huses ▸ h.ready) m.2 t))⟩

section
variable {i : Instr} {p : Nat} {g : Guard} {t : BrTail} {taken : State → Bool}

/-- R189. -/
theorem Followed.resolves (h : Followed i p g t taken) : BranchResolves i p g t taken := by
  intro s hi
  obtain ⟨b, hidx, hdisp, hbound, hexec⟩ := h s hi
  have htaken : ((s.issued p).ctx p).taken = (s.ctx p).taken := by rw [State.ctx_issued]
  refine ⟨_, hexec, fun hno => ?passes, fun hyes hdir => ?forward, fun hyes hdir hn => ?backward⟩
  case passes =>
    rw [hno, State.follow_not_taken, hidx]
    exact ⟨OnlyCtx.setCtx .., State.ctx_setCtx_same ..⟩
  case forward =>
    rw [hyes, State.follow_forward _ _ _ (hdisp ▸ hdir), hidx, hdisp]
    exact ⟨OnlyCtx.setCtx .., State.ctx_setCtx_same ..⟩
  case backward =>
    rw [hyes, State.follow_backward _ _ _ (hdisp ▸ hdir) (by rw [htaken, hidx, hbound]; exact hn), htaken, hidx, hdisp]
    refine ⟨OnlyCtx.setCtx .., ?_⟩
    simp only [State.ctx_setCtx_same]
    exact ⟨SMap.get_set_same .., fun j hj => SMap.get_set_ne _ _ hj, rfl⟩

/-- R190. -/
theorem Followed.stops (h : Followed i p g t taken) : LoopStops i p g t taken := by
  intro s hi hyes hdir hepochs hn
  obtain ⟨b, hidx, hdisp, hbound, hexec⟩ := h s hi
  have hctx : ((s.issued p).loopBound p b.idx).ctx p = _ := State.ctx_loopBound ..
  rw [State.ctx_issued] at hctx
  rw [hyes, State.follow_bound _ _ _ (hdisp ▸ hdir) (by rw [State.ctx_issued, hidx, hbound]; exact hn) (by rw [State.ctx_issued]; exact hepochs)]
    at hexec
  have hrun : (((s.issued p).loopBound p b.idx).ctx p).run = .stopped := by rw [hctx]
  have hblocked : (((s.issued p).loopBound p b.idx).ctx p).blocked = none := by rw [hctx]
  refine ⟨_, hexec, State.last_loopBound .., hrun, by rw [hctx], by simp [hctx], fun j => State.canIssue_stopped j hrun hblocked, fun a => ?byte,
    by unfold State.regsOf; rw [hctx]⟩
  exact (State.byte_congr (State.mem_loopBound ..) a).trans (s.byte_issued p a)

end

/-- Settles O11: every branch that issues is followed from its index (`eachBranch_followed`), which either moves its index or, at the bound, raises
LOOP_BOUND and stops its context. -/
theorem branches : Obligations.Branches :=
  ⟨eachBranch_followed.imp Followed.resolves, eachBranch_followed.imp Followed.stops⟩

end Sys2Proof.Machine
end

section
/-! SUPPORT. Kernels and engine commands that issue (R183, R191, R199, R203, R209, R223): every one of them enters a queue by `State.enterQueue`, or
passes where its program has no such yard; then the obligation on kernels (O13). -/

namespace Sys2Proof.Machine

/-! ### A command enters its queue (R209) -/

namespace State

/-- Queues with one yard and one place in it are one. -/
theorem queueOf_setQueue (s : State) (m y m' y' : Nat) (q q' : UnitQ) (l : List EngCmd) : (s.setQueue m y q l).queueOf m' y' q' =
    if 8 * m' + y' = 8 * m + y ∧ unitCode q' = unitCode q then l else s.queueOf m' y' q' := by
  unfold setQueue queueOf
  rw [yard_setYard]
  by_cases hyard : 8 * m' + y' = 8 * m + y
  · have hsame : s.yard m' y' = s.yard m y := by simp only [yard, hyard]
    rw [if_pos hyard, SMap.get_set, hsame]
    simp only [hyard, true_and]
  · rw [if_neg hyard, if_neg fun h => hyard h.1]

section
variable (s : State) (m y : Nat) (q : UnitQ) (c : EngCmd)

theorem queueOf_issueInto (m' y' : Nat) (q' : UnitQ) : (s.issueInto m y q c).queueOf m' y' q' =
    if 8 * m' + y' = 8 * m + y ∧ unitCode q' = unitCode q then s.queueOf m y q ++ [c] else s.queueOf m' y' q' := by
  have hyards : (s.issueInto m y q c).yards = (s.enqueue m y q c).yards := rfl
  unfold queueOf
  rw [yard_congr hyards]
  exact s.queueOf_setQueue m y m' y' q q' _

theorem ctx_issueInto : (s.issueInto m y q c).ctx c.prog = { s.ctx c.prog with
    seq := (s.ctx c.prog).seq + 1, idx := (s.ctx c.prog).idx + 1
    dels := (s.ctx c.prog).dels ++ c.op.dest.toList.map fun r => ⟨r, 0, none, c.seq, none, c.spec⟩ } := by
  have hctx : (s.enqueue m y q c).ctx c.prog = s.ctx c.prog := rfl
  unfold issueInto
  cases c.op.dest <;> simp [advance, hctx]

theorem prog_issueInto_ne {p : Nat} (h : p ≠ c.prog) : (s.issueInto m y q c).prog p = s.prog p := by
  unfold issueInto advance
  rw [prog_setCtx_ne _ _ h, prog_setCtx_ne _ _ h]
  rfl

end

/-- A command whose queue has room enters it. -/
theorem enterQueue_queued {s : State} {p m y : Nat} {q : UnitQ} (op : EngOp) (h : s.queueRoom m y q = true) :
    Queued s (s.enterQueue p m y q op) p (m, y, q, op) := by
  have hinto : s.enterQueue p m y q op = s.issueInto m y q ⟨op, p, s.depth p, (s.ctx p).seq⟩ := if_pos h
  rw [hinto]
  refine ⟨?queue, fun m' y' q' hne => ?queues, ctx_issueInto .., ?outside, fun r hr => prog_issueInto_ne _ _ _ _ _ hr⟩
  case queue => exact (queueOf_issueInto ..).trans (if_pos ⟨rfl, rfl⟩)
  case queues => exact (queueOf_issueInto ..).trans (if_neg fun hsame => hne.elim (· hsame.1) (· hsame.2))
  case outside => exact (issueInto_keeps (Keeps.refl _ s) (Kind.Sub.refl _)).outside

end State

/-! ### What kernels and engine commands do as they issue -/

section
variable {i : Instr} {f : Fenja} {s : State}

/-- A kernel's instruction issues its kernel, and its one scalar register is the one that the kernel delivers into. -/
theorem exec_kernel (hf : i.fenja = some f) {k : ProgRegs → Kernel} (hk : kernelOf i = some k) (s : State) :
    exec i s = .next (s.issueKernel f.prog f.guard i k) ∧ ∀ r, (k r).dest.toList = i.scRegs := by
  cases i <;> cases hk <;> cases hf
  case redSum | redSumsq | redMax | redMin | redMaxabs | redNz | argmaxC | argminC => exact ⟨rfl, redOps_dest _ _⟩
  all_goals exact ⟨rfl, fun _ => rfl⟩

/-- An engine instruction issues its command into the yard that its program has. -/
theorem exec_engine (hf : i.fenja = some f) {e : EngineCmd} (he : engineCmd i = some e) (s : State) :
    exec i s = .next (s.issueCmd f.prog f.guard i [] fun s => match s.physYard f.prog e.vyard with
      | some q => s.enterQueue f.prog q.1 q.2 e.unit (e.op (s.regsOf f.prog))
      | none => s.advance f.prog) := by
  cases i <;> cases he <;> cases hf <;> rfl

variable {u : State} {x : Nat × Nat × UnitQ × EngOp}

/-- A command that issues under its allowance enters the queue that `entersQueue` names, in the state in which it takes effect and counts. -/
theorem exec_entersQueue (hf : i.fenja = some f) (h : Issues s f.prog f.guard i)
    (hd : s.depth f.prog = 0 ∨ s.specCmds f.prog < (s.prog f.prog).place.raCmds) (hu : u = (s.issued f.prog).countCmd f.prog)
    (hx : entersQueue u f.prog i = some x) : exec i s = .next (u.enterQueue f.prog x.1 x.2.1 x.2.2.1 x.2.2.2) := by
  unfold entersQueue at hx
  split at hx
  case h_1 k hk =>
    obtain ⟨hexec, hdest⟩ := exec_kernel hf hk s
    have hissue := State.issueCmd_on (uses := (k (s.regsOf f.prog)).dest.toList) (eff := fun s =>
      let q := s.kernelQueue f.prog (s.depth f.prog) (k (s.regsOf f.prog))
      s.enterQueue f.prog q.1 q.2.1 q.2.2 (.kernel (k (s.regsOf f.prog)))) h (hdest _ ▸ h.ready) hd
    rw [← hu] at hissue
    cases hx
    exact hexec.trans (congrArg Host.Outcome.next hissue)
  case h_2 e _ he =>
    obtain ⟨q, hq, rfl⟩ := Option.map_eq_some_iff.mp hx
    rw [exec_engine hf he s, State.issueCmd_on h rfl hd, ← hu, hq]
  case h_3 => exact absurd hx (by simp)

end

/-- Settles O13: a command that issues enters its queue (`exec_entersQueue`, `State.enterQueue_queued`), and a kernel that starts has run
(`startHead_kernel`). -/
theorem kernelsRun : Obligations.KernelsRun := by
  unfold Obligations.KernelsRun
  refine ⟨fun i f u s x hf h hd hu hx hroom => ?issues, fun m y q c rest k s hq hk hstart => ?starts⟩
  case issues => exact ⟨_, exec_entersQueue hf h hd hu hx, State.enterQueue_queued x.2.2.2 hroom⟩
  case starts => exact ⟨_, State.exec_engineCommandStart hq hstart, startHead_kernel s m y q c rest k hk⟩

end Sys2Proof.Machine
end

section
/-! SUPPORT. Tick-class streams (R138, R196, R209, R216): what a kernel's checks and a stream's reads leave of the programs' contexts, the stream
that mv.strm starts, and the one that completes; then the obligation on them (O18). -/

namespace Sys2Proof.Machine

/-! ### Contexts but for their conditions (R232) -/

/-- A context but for the conditions of its tick. -/
def Ctx.calmed (c : Ctx) : Ctx := { c with conds := 0 }

/-- From `s` to `t` the contexts meet faults at most, which add to their conditions. -/
def Faulted (s t : State) : Prop := ∀ p, (t.ctx p).calmed = (s.ctx p).calmed

section
variable {s₀ s t : State}

theorem Faulted.refl (s : State) : Faulted s s := fun _ => rfl

theorem Faulted.progs (h : Faulted s₀ s) (hp : t.progs = s.progs) : Faulted s₀ t := fun p => by rw [State.ctx_congr hp, h p]

theorem Faulted.outside {ks : List Kind} (h : Faulted s₀ s) (hk : Keeps ks s t) (hn : Kind.progs ∉ ks) : Faulted s₀ t :=
  h.progs (hk.outside .progs hn)

theorem Faulted.ite {c : Prop} [Decidable c] {a b : State} (ha : Faulted s₀ a) (hb : Faulted s₀ b) : Faulted s₀ (if c then a else b) := by
  split <;> assumption

theorem Faulted.foldl {α : Type} {f : State → α → State} (hf : ∀ s x, Faulted s₀ s → Faulted s₀ (f s x)) (l : List α)
    (h : Faulted s₀ s) : Faulted s₀ (l.foldl f s) := by
  induction l generalizing s with
  | nil => exact h
  | cons x l ih => exact ih (hf s x h)

/-- The streams that a program has under way are no matter of faults. -/
theorem Faulted.strms (h : Faulted s t) (p : Nat) : (t.ctx p).strms = (s.ctx p).strms := by
  show (t.ctx p).calmed.strms = (s.ctx p).calmed.strms
  rw [h p]

end

namespace State

section
variable {s₀ s : State} (h : Faulted s₀ s)
include h

theorem setCond_faulted {p n : Nat} : Faulted s₀ (s.setCond p n) := fun q => by
  by_cases hq : q = p
  · subst hq
    rw [ctx_setCond]
    exact h q
  · exact (congrArg Ctx.calmed (ctx_setCtx_ne s _ hq)).trans (h q)

theorem faultOn_faulted {p m kind idx : Nat} : Faulted s₀ (s.faultOn p m kind idx) := (setCond_faulted h).progs (progs_faultOn ..)

theorem unitFault_faulted {p : Nat} : Faulted s₀ (s.unitFault p) := Faulted.foldl (fun _ _ h => faultOn_faulted h) _ (setCond_faulted h)

theorem raiseTrip_faulted {t : Trip} : Faulted s₀ (s.raiseTrip t) := by
  unfold raiseTrip
  extract_lets m y r s1 _ s2
  have h1 : Faulted s₀ s1 := h.progs (firstRecord_field _ (·.progs) (fun _ _ _ => rfl) _ _ (by simp only [progs_put]))
  clear_value s1
  have h2 : Faulted s₀ s2 := Faulted.ite h1 (h1.progs (progs_raise ..))
  exact unitFault_faulted h2

theorem tagTrip_faulted {p spec port kind : Nat} {u : TagUse} : Faulted s₀ (s.tagTrip p spec port kind u) :=
  Faulted.ite (raiseTrip_faulted h) (h.progs rfl)

theorem tagCheck_faulted {p spec port kind : Nat} {u : TagUse} : Faulted s₀ (s.tagCheck p spec port kind u) :=
  Faulted.ite h (tagTrip_faulted h)

theorem tagOpen_faulted {p spec seq port : Nat} {u : TagUse} : Faulted s₀ (s.tagOpen p spec seq port u) :=
  Faulted.ite h (Faulted.ite (h.progs rfl) (Faulted.ite (h.progs rfl) (tagTrip_faulted h)))

theorem tagWrite_faulted {p spec seq port : Nat} {us : List TagUse} : Faulted s₀ (s.tagWrite p spec seq port us) :=
  Faulted.foldl (fun _ _ h => (tagOpen_faulted h).outside (tagClose_keeps (Keeps.refl [.regs, .yards] _) (Kind.Sub.refl _)) (by decide)) _ h

theorem tripChecks_faulted {p spec seq : Nat} {k : Kernel} {tags : Tags} : Faulted s₀ (s.tripChecks p spec seq k tags) :=
  Faulted.foldl (fun _ _ h => tagWrite_faulted h) _ (Faulted.foldl (fun _ _ h => Faulted.foldl (fun _ _ h => tagCheck_faulted h) _ h) _ h)

theorem progRead_faulted {p a n port : Nat} : Faulted s₀ (s.progRead p a n port) := by
  have hread : Faulted s₀ (s.readCheck a n (s.handle p) port) :=
    h.outside (readCheck_keeps (Keeps.refl [.regs, .yards, .events, .power] s) (Kind.Sub.refl _)) (by decide)
  exact Faulted.ite hread (unitFault_faulted hread)

theorem farRead_faulted {t : TickStrm} {q : Nat × Nat} : Faulted s₀ (s.farRead t q) := by
  unfold farRead
  split
  · exact Faulted.foldl (fun _ _ h => h.outside (hrRequest_keeps (Keeps.refl [.hyper] _) (Kind.Sub.refl _)) (by decide)) _ h
  · exact (progRead_faulted h).progs rfl

theorem stopStrm_faulted {id a : Nat} {write : Bool} : Faulted s₀ (s.stopStrm id a write) := by
  unfold stopStrm
  split
  · exact h
  · extract_lets fabric s1 s2
    have h2 : Faulted s₀ s2 := h.progs rfl
    exact unitFault_faulted (h2.outside (windowFault_keeps (Keeps.refl [.regs, .events] s2) (Kind.Sub.refl _)) (by decide))

end

end State

/-! ### A stream starts (R196) -/

/-- A stream that has failed a window check: it sends nothing further (R138). -/
def TickStrm.failed (t : TickStrm) : TickStrm := { t with faulted := true, reads := [], out := [] }

/-- Stream `x` is `t` as it starts: with its reads before it, or failed at once. -/
def TickStrm.Begun (t x : TickStrm) : Prop := (∃ reads, x = { t with reads := reads }) ∨ x = t.failed

/-- From `s` to `t` every stream stands as it is, and the contexts meet faults at most. -/
structure StreamsStand (s t : State) : Prop where
  strm : t.strm = s.strm
  faulted : Faulted s t

theorem StreamsStand.refl (s : State) : StreamsStand s s := ⟨rfl, Faulted.refl s⟩

section
variable {s₀ s : State}

theorem StreamsStand.ite {c : Prop} [Decidable c] {a b : State} (ha : StreamsStand s₀ a) (hb : StreamsStand s₀ b) :
    StreamsStand s₀ (if c then a else b) := by
  split <;> assumption

theorem StreamsStand.foldl {α : Type} {f : State → α → State} (hf : ∀ s x, StreamsStand s₀ s → StreamsStand s₀ (f s x)) (l : List α)
    (h : StreamsStand s₀ s) : StreamsStand s₀ (l.foldl f s) := by
  induction l generalizing s with
  | nil => exact h
  | cons x l ih => exact ih (hf s x h)

end

namespace State

theorem touchPeak_stands {s₀ s : State} (h : StreamsStand s₀ s) {engine : Nat} : StreamsStand s₀ (s.touchPeak engine) :=
  have hkeep : Keeps [.regs, .free] s (s.touchPeak engine) := touchPeak_keeps (Keeps.refl _ s) (Kind.Sub.refl _)
  ⟨(hkeep.outside .strm (by decide)).trans h.strm, h.faulted.outside hkeep (by decide)⟩

theorem farRead_stands {s₀ s : State} (h : StreamsStand s₀ s) {t : TickStrm} {q : Nat × Nat} : StreamsStand s₀ (s.farRead t q) :=
  ⟨((farRead_keeps (Keeps.refl _ s) (Kind.Sub.refl _)).outside .strm (by decide)).trans h.strm, farRead_faulted h.faulted⟩

/-- The stream whose window check fails is the last to have started. -/
theorem ticks_stopStrm {s : State} {ts : List TickStrm} {t : TickStrm} (h : s.strm.ticks = ts ++ [t]) (a : Nat) (write : Bool) :
    (s.stopStrm t.id a write).strm.ticks = (ts.map fun x => if x.id = t.id then x.failed else x) ++ [t.failed] := by
  unfold stopStrm
  split
  next hnone =>
    have hmem : t ∈ s.strm.ticks := h ▸ List.mem_append_right ts (List.mem_singleton.mpr rfl)
    exact absurd (List.find?_eq_none.mp hnone t hmem) (by simp)
  next x hsome =>
    have hkeep : ∀ {u : State}, ((u.windowFault x.engine x.chan (u.handle x.prog) a write).unitFault x.prog).strm = u.strm := fun {u} =>
      (unitFault_keeps (windowFault_keeps (Keeps.refl [.regs, .progs, .events] u) (Kind.Sub.mono rfl (Kind.Sub.refl _)))
        (Kind.Sub.mono rfl (Kind.Sub.refl _))).outside .strm (by decide)
    refine (congrArg StrmSt.ticks hkeep).trans ?_
    show s.strm.ticks.map (fun x => if x.id = t.id then x.failed else x) = _
    rw [h, List.map_append, List.map_singleton, if_pos rfl]

/-- A stream that starts is the last to have started, and its program has one more under way. -/
theorem beginStrm_joins (s : State) (t : TickStrm) (desc : List Byte) (reads : List (Nat × Nat)) : ∃ x, t.Begun x ∧
    (s.beginStrm t desc reads).strm.ticks.getLast? = some x ∧ (s.beginStrm t desc reads).strm.ticks.length = s.strm.ticks.length + 1 ∧
      ((s.beginStrm t desc reads).ctx t.prog).strms = (s.ctx t.prog).strms + 1 := by
  unfold beginStrm
  extract_lets near far c s1 strm s2 s3
  have hshow : Keeps [.regs] { s1 with strm := { strm with ticks := strm.ticks ++ [{ t with reads := near }] } } s2 :=
    showTick_keeps (Keeps.refl _ _) (Kind.Sub.refl _)
  have hticks : s2.strm.ticks = s.strm.ticks ++ [{ t with reads := near }] := congrArg StrmSt.ticks (hshow.outside .strm (by decide))
  have hstrms : (s2.ctx t.prog).strms = (s.ctx t.prog).strms + 1 := by
    rw [ctx_congr (hshow.outside .progs (by decide))]
    exact congrArg Ctx.strms (ctx_setCtx_same s.takeSerial t.prog _)
  clear_value s2
  split
  next q hq =>
    have hstop := ticks_stopStrm hticks q.1 false
    exact ⟨t.failed, .inr rfl, (congrArg List.getLast? hstop).trans List.getLast?_concat, (congrArg List.length hstop).trans (by simp),
      ((stopStrm_faulted (Faulted.refl s2)).strms t.prog).trans hstrms⟩
  next hok =>
    generalize hread : List.foldl _ s3 _ = u
    have hstand : StreamsStand s2 u := by
      rw [← hread]
      refine StreamsStand.foldl (fun v r hv => ?_) _ (StreamsStand.ite (StreamsStand.refl s2) (touchPeak_stands (StreamsStand.refl s2)))
      split
      · exact farRead_stands hv
      · exact StreamsStand.foldl (fun _ _ hv => farRead_stands hv) _ hv
    have hsame : u.strm.ticks = s.strm.ticks ++ [{ t with reads := near }] := (congrArg StrmSt.ticks hstand.strm).trans hticks
    exact ⟨_, .inl ⟨near, rfl⟩, hsame ▸ List.getLast?_concat, (congrArg List.length hsame).trans (by simp),
      (hstand.faulted.strms t.prog).trans hstrms⟩

/-- mv.strm begins a stream of its own, with what stands in its source to write. -/
theorem startStrm_begins (s : State) (p seq : Nat) (dst a : Slice) (count xform chans : Nat) (tap : Bool) (flag : Nat) (tags : Tags) :
    ∃ (v : State) (t : TickStrm) (desc : List Byte) (reads : List (Nat × Nat)),
      s.startStrm p seq dst a count xform chans tap flag tags = v.beginStrm t desc reads ∧ v.strm = s.strm ∧ v.ctx p = s.ctx p ∧
      t.prog = p ∧ t.seq = seq ∧ t.flag = some flag ∧ t.tap = tap ∧ t.copy = none ∧
      t.out = (s.strmRows (s.prog p) dst a count xform chans).flatMap fun r => lineSplit r.1 r.2 := by
  refine ⟨_, _, _, _, rfl, ?_, ?_, rfl, rfl, rfl, rfl, rfl, rfl⟩
  · split <;> rfl
  · split
    · simp only [ctx, prog_setProg_same]
    · rfl

/-! ### A stream completes (R216) -/

section
variable (s : State) (t : TickStrm)

theorem ctx_leaveChan : (s.leaveChan t).ctx t.prog = { s.ctx t.prog with strms := (s.ctx t.prog).strms - 1 } := ctx_setCtx_same ..

theorem prog_leaveChan_ne {q : Nat} (h : q ≠ t.prog) : (s.leaveChan t).prog q = s.prog q := prog_setCtx_ne _ _ h

/-- The end of a copy touches the digest of the input that it fills, and nothing else of its program. -/
theorem endCopy_inputs : ∃ inputs, ((s.endCopy t).prog t.prog) = { s.prog t.prog with inputs := inputs } := by
  unfold endCopy
  split
  · split
    · exact ⟨_, prog_setProg_same ..⟩
    · exact ⟨_, rfl⟩
  · exact ⟨_, rfl⟩

theorem prog_endCopy_ne {q : Nat} (h : q ≠ t.prog) : (s.endCopy t).prog q = s.prog q := by
  unfold endCopy
  split
  · split
    · exact prog_setProg_ne _ _ h
    · rfl
  · rfl

theorem ctx_endCopy : (s.endCopy t).ctx t.prog = s.ctx t.prog := by
  obtain ⟨inputs, hinputs⟩ := s.endCopy_inputs t
  simp only [ctx, hinputs]

theorem localFlag_endCopy (n : Nat) : (s.endCopy t).localFlag t.prog n = s.localFlag t.prog n := by
  obtain ⟨inputs, hinputs⟩ := s.endCopy_inputs t
  simp only [localFlag, hinputs]

theorem localFlag_leaveChan (n : Nat) : (s.leaveChan t).localFlag t.prog n = s.localFlag t.prog n := by
  simp only [localFlag, leaveChan, prog_setCtx_same]
  rfl

/-- Its channel is free (R292). -/
theorem stat_leaveChan : (s.leaveChan t).get (tickReg .strmChStat t) 0 3 = 0 := by
  unfold leaveChan get
  rw [reg_setCtx, reg_put_same, fld_setFld_same _ _ (by decide)]
  rfl

/-- The registers of the part's clock are no stream's. -/
theorem afterCycles_leaveChan (c : Nat) : (s.leaveChan t).afterCycles c = s.afterCycles c := by
  have hleft : Still false 0 0 s { s with strm := { s.strm with ticks := s.strm.ticks.filter fun x => decide (x.id ≠ t.id) } } :=
    (Still.refl false 0 0 s).other rfl rfl rfl rfl rfl rfl
  exact (hleft.put rfl).setCtx.afterCycles c

theorem afterCycles_endCopy (c : Nat) : (s.endCopy t).afterCycles c = s.afterCycles c := by
  unfold endCopy
  split
  · split <;> rfl
  · rfl

/-- A local flag that the program has takes the set on its way. -/
theorem setMapped_eq (p n count at_ : Nat) : s.setMapped p n count at_ = { s with flags := { s.flags with
    localSets := s.flags.localSets ++ (s.localFlag p n).toList.map fun q => (q.1, q.2, count, p, at_) } } := by
  unfold setMapped
  cases s.localFlag p n with
  | some q => rfl
  | none => simp

/-- A stream that completes leaves its channel, ends its copy, and sets its flag where its program has it. -/
theorem endStrm_eq : s.endStrm t = { (s.leaveChan t).endCopy t with flags := { s.flags with
    localSets := s.flags.localSets ++ (t.flag.bind (s.localFlag t.prog)).toList.map fun q => (q.1, q.2, 1, t.prog, s.afterCycles 3) } } := by
  have hflags : ((s.leaveChan t).endCopy t).flags = s.flags :=
    (endCopy_keeps (leaveChan_keeps (Keeps.refl [.regs, .progs, .strm] s) (Kind.Sub.refl _)) (Kind.Sub.mono rfl (Kind.Sub.refl _))).outside
      .flags (by decide)
  unfold endStrm
  cases t.flag with
  | none => simp [← hflags]
  | some n =>
    refine (setMapped_eq ..).trans ?_
    rw [hflags, localFlag_endCopy, localFlag_leaveChan, afterCycles_endCopy, afterCycles_leaveChan]
    rfl

theorem ctx_endStrm : (s.endStrm t).ctx t.prog = { s.ctx t.prog with strms := (s.ctx t.prog).strms - 1 } := by
  rw [endStrm_eq]
  exact (ctx_endCopy ..).trans (ctx_leaveChan s t)

theorem prog_endStrm_ne {q : Nat} (h : q ≠ t.prog) : (s.endStrm t).prog q = s.prog q := by
  rw [endStrm_eq]
  exact (prog_endCopy_ne _ t h).trans (s.prog_leaveChan_ne t h)

theorem ticks_endStrm : (s.endStrm t).strm.ticks = s.strm.ticks.filter fun x => decide (x.id ≠ t.id) := by
  rw [endStrm_eq]
  exact congrArg StrmSt.ticks ((endCopy_keeps (Keeps.refl [.progs] (s.leaveChan t)) (Kind.Sub.refl _)).outside .strm (by decide))

theorem stat_endStrm : (s.endStrm t).get (tickReg .strmChStat t) 0 3 = 0 := by
  have hregs : (s.endStrm t).regs = (s.leaveChan t).regs := by
    rw [endStrm_eq]
    exact (endCopy_keeps (Keeps.refl [.progs] (s.leaveChan t)) (Kind.Sub.refl _)).outside .regs (by decide)
  have hpart : (s.endStrm t).part = (s.leaveChan t).part :=
    (endStrm_keeps (Keeps.refl [.regs, .progs, .flags, .strm] s) (Kind.Sub.refl _)).part
  exact (congrArg (fld · 0 3) (reg_congr hregs hpart _)).trans (stat_leaveChan s t)

variable {s t}

/-- The oldest stream of a program of which all has landed completes. -/
theorem exec_commandCompletionSet_done {xs : List TickStrm} (hticks : s.strm.ticks = t :: xs) (hdone : s.strmDone t = true) :
    exec (.commandCompletionSet t.prog) s = .next (s.endStrm t) := by
  show execCommandCompletionSet t.prog s = _
  unfold execCommandCompletionSet
  rw [hticks, List.find?_cons_of_pos (by simp [hdone])]

theorem exec_commandCompletionSet_none {p : Nat} (h : ∀ x ∈ s.strm.ticks, x.prog = p → s.strmDone x = false) :
    exec (.commandCompletionSet p) s = .next s := by
  have hnone : (s.strm.ticks.find? fun t => decide (t.prog = p) && s.strmDone t) = none :=
    List.find?_eq_none.mpr fun x hx => by simpa using h x hx
  show execCommandCompletionSet p s = _
  unfold execCommandCompletionSet
  rw [hnone]

end

end State

open State

/-- Settles O18: a stream that mv.strm starts joins its engine's (`startStrm_begins`, `beginStrm_joins`), and one of which all has landed leaves
them (`endStrm_eq`). -/
theorem streamsComplete : Obligations.StreamsComplete := by
  unfold Obligations.StreamsComplete
  refine ⟨fun m y c rest d a count xform chans tap flag s hq hop hstart => ?starts,
    fun p x xs s hticks hp hdone => ?completes, fun p s hnone => ?waits⟩
  case starts =>
    intro u
    obtain ⟨v, t, desc, reads, hbegin, hstrm, hctx, hprog, hseq, hflag, htap, hcopy, hout⟩ :=
      u.startStrm_begins c.prog c.seq d a count xform chans tap flag (s.takeHead m y .strm c rest).2
    obtain ⟨x, hx, hlast, hlength, hstrms⟩ := v.beginStrm_joins t desc reads
    have hexec : exec (.engineCommandStart m y .strm) s = .next (v.beginStrm t desc reads) := by
      rw [exec_engineCommandStart hq hstart, ← hbegin]
      simp only [startCmd, hop]
      rfl
    have hhead : Keeps [.yards] s (s.takeHead m y .strm c rest).1 := takeHead_keeps (Keeps.refl _ s) (Kind.Sub.refl _)
    have hkeep : Keeps [.regs, .progs, .yards, .events] s u := tripChecks_keeps (hhead.mono (Kind.Sub.mono rfl (Kind.Sub.refl _))) (Kind.Sub.refl _)
    have hfault : Faulted s u := tripChecks_faulted ((Faulted.refl s).outside hhead (by decide))
    have hmem : (v.beginStrm t desc reads).mem = s.mem := by
      rw [← hbegin]
      exact (mem_of (startStrm_keeps (Keeps.refl _ u) (Kind.Sub.refl _)) rfl).trans (mem_of hkeep rfl)
    rw [hstrm, hkeep.outside .strm (by decide)] at hlength
    rw [hprog, hctx, hfault.strms] at hstrms
    refine ⟨_, x, hexec, hlast, hlength, ?_⟩
    rcases hx with ⟨near, rfl⟩ | rfl
    · exact ⟨hprog, hseq, hflag, htap, hcopy, fun _ => hout, hstrms, byte_congr hmem⟩
    · exact ⟨hprog, hseq, hflag, htap, hcopy, fun h => absurd h (by simp [TickStrm.failed]), hstrms, byte_congr hmem⟩
  case completes =>
    subst hp
    have hkeep : Keeps [.regs, .progs, .flags, .strm] s (s.endStrm x) := endStrm_keeps (Keeps.refl _ s) (Kind.Sub.refl _)
    refine ⟨_, exec_commandCompletionSet_done hticks hdone, ?left, ?count, stat_endStrm s x, byte_congr (mem_of hkeep rfl), ?regs,
      fun q hq => prog_endStrm_ne s x hq, ?flag⟩
    case left => rw [ticks_endStrm, hticks, List.filter_cons_of_neg (by simp)]
    case count => rw [ctx_endStrm]
    case regs => rw [regsOf, ctx_endStrm, regsOf]
    case flag => rw [endStrm_eq]
  case waits => exact exec_commandCompletionSet_none hnone

end Sys2Proof.Machine
end

section
/-! SUPPORT. Instructions that take no effect (R187, R202, R204, R208, R211, R212, R224): when a context issues nothing, what is held back, what a
predicate that is off or an uncorrectable word leaves, and what stands as an instruction is issued; then the obligations on them (O6, O14). -/

namespace Sys2Proof.Machine

/-! ### A context that issues nothing (R202, R204, R212) -/

/-- What holds of program `p` and its context in a cycle in which it issues. -/
structure Unhindered (s : State) (p : Nat) : Prop where
  work : s.inWork = true
  owns : s.ownsCycle p = true
  ready : (s.ctx p).ready ≤ s.cycle
  active : (s.ctx p).active = true
  ended : (s.ctx p).ended = false
  wait : (s.ctx p).wait = none
  stalled : (s.ctx p).stalled = none
  penalty : (s.ctx p).resumeAt = none

namespace State

section
variable {s : State} {p : Nat} {i : Instr}

theorem unhindered_of_canIssue (h : s.canIssue p i = true) : Unhindered s p := by
  simp only [canIssue, Bool.and_eq_true, Bool.not_eq_true', decide_eq_true_eq, Option.isNone_iff_eq_none] at h
  obtain ⟨⟨⟨⟨⟨⟨⟨⟨⟨⟨-, hwork⟩, howns⟩, hready⟩, hactive⟩, hended⟩, -⟩, hwait⟩, hstalled⟩, hpenalty⟩, -⟩ := h
  exact ⟨hwork, howns, hready, hactive, hended, hwait, hstalled, hpenalty⟩

/-- What an issuing context holds back is the instruction that issues. -/
theorem blocked_of_canIssue (h : s.canIssue p i = true) : (s.ctx p).blocked = none ∨ (s.ctx p).blocked = some i := by
  simp only [canIssue, Bool.and_eq_true] at h
  obtain ⟨-, hblocked⟩ := h
  cases hb : (s.ctx p).blocked with
  | none => exact .inl rfl
  | some j =>
    rw [hb] at hblocked
    exact .inr (congrArg some (of_decide_eq_true hblocked))

theorem canIssue_hindered (i : Instr) (h : ¬Unhindered s p) : s.canIssue p i = false :=
  Bool.eq_false_iff.mpr fun hc => h (unhindered_of_canIssue hc)

end

/-! ### What stands as an instruction is issued (R208) -/

section
variable (s : State) (p : Nat)

theorem imemCorrect_still : Still false 0 0 s (s.imemCorrect p) := by
  unfold imemCorrect
  exact Still.ite (((Still.refl false 0 0 s).setReg rfl).put rfl) (Still.refl ..)

theorem issued_still : Still false 0 0 s (s.issued p) := (imemCorrect_still s p).setCtx

@[simp] theorem cycle_issued : (s.issued p).cycle = s.cycle := (issued_still s p).cycle

theorem canIssue_issued (i : Instr) : (s.issued p).canIssue p i = false :=
  canIssue_hindered i fun h => by simpa using h.ready

theorem imemCorrect_counts (hecc : s.fetchEcc p = 1) (hb : (s.ctx p).blocked = none) :
    s.imemCorrect p = (s.setBits (mreg .ccImemStat (s.firstMast p)) 1).bump (mreg .ccImemCeCnt (s.firstMast p)) := by
  simp [imemCorrect, hecc, hb]

/-- A word is corrected once: an instruction that was held back has been fetched. -/
theorem imemCorrect_blocked (hb : (s.ctx p).blocked ≠ none) : s.imemCorrect p = s := by
  simp [imemCorrect, hb]

@[simp] theorem regsOf_imemCorrect (q : Nat) : (s.imemCorrect p).regsOf q = s.regsOf q := congrArg Ctx.regs (s.ctx_imemCorrect p q)

theorem reg_issued (r : RegId) : (s.issued p).reg r = (s.imemCorrect p).reg r := rfl

theorem reg_issued_ne {r : RegId} (hstat : r ≠ mreg .ccImemStat (s.firstMast p)) (hcount : r ≠ mreg .ccImemCeCnt (s.firstMast p)) :
    (s.issued p).reg r = s.reg r := by
  rw [reg_issued]
  unfold imemCorrect
  split
  · exact (reg_put_ne _ _ _ _ hcount).trans (reg_setReg_ne s _ hstat)
  · rfl

end

/-! ### An instruction that is held back (R211, R224) -/

end State

/-- Program `p` holds instruction `i` back: issue stays at it, and of the state before nothing but the context's record of that changes. -/
structure HeldBack (s t : State) (p : Nat) (i : Instr) : Prop where
  only : OnlyCtx s t p
  blocked : (t.ctx p).blocked = some i
  idx : (t.ctx p).idx = (s.ctx p).idx
  epochs : (t.ctx p).epochs = (s.ctx p).epochs
  regs : t.regsOf p = s.regsOf p

namespace State

section
variable {s : State} {p : Nat} {i : Instr}

theorem block_none (spec : Bool) (h : (s.ctx p).blocked = none) :
    s.block p i spec = s.setCtx p { s.ctx p with blocked := some i, run := .stalled, specStop := spec } := by
  simp [block, h]

theorem block_some {j : Instr} (spec : Bool) (h : (s.ctx p).blocked = some j) : s.block p i spec = s := by
  simp [block, h]

theorem block_heldBack (spec : Bool) (h : (s.ctx p).blocked = none ∨ (s.ctx p).blocked = some i) : HeldBack s (s.block p i spec) p i := by
  rcases h with h | h
  · rw [block_none spec h]
    exact ⟨OnlyCtx.setCtx .., by simp, by simp, by simp, by simp [regsOf]⟩
  · rw [block_some spec h]
    exact ⟨OnlyCtx.refl .., h, rfl, rfl, rfl⟩

/-- What issue holds back it holds back as the corrected word leaves it. -/
theorem block_imemCorrect (spec : Bool) (h : s.canIssue p i = true) : HeldBack (s.imemCorrect p) ((s.imemCorrect p).block p i spec) p i :=
  block_heldBack spec (by rw [ctx_imemCorrect]; exact blocked_of_canIssue h)

end

/-! ### Branches that test registers (R187, R208) -/

section
variable {s : State} {p : Nat} {g : Guard} {i : Instr} {c : Cond} {ra : BitVec 5} {b : Operand} {t : BrTail}

theorem branchOn_no (h : s.canIssue p i = false) : s.branchOn p g i c ra b t = s := by simp [branchOn, h]

theorem branchOn_bad (hc : s.canIssue p i = true) (hecc : s.fetchEcc p = 2) : s.branchOn p g i c ra b t = s.imemFault p := by
  simp [branchOn, hc, hecc]

theorem branchOn_off (hc : s.canIssue p i = true) (hecc : s.fetchEcc p ≠ 2) (hg : g.on (s.regsOf p) = false) :
    s.branchOn p g i c ra b t = (s.issued p).advance p := by
  simp only [branchOn, hc, hecc, regsOf_imemCorrect, hg]
  rfl

end
end State

/-! ### The forms of the instructions -/

/-- Whether an instruction is a branch (R189), of the engine class (R199), or one that no epoch lets issue (R224). -/
def ownClass (i : Instr) : Bool × Bool × Bool := (i.isBranch, engineOf i, firmOf i)

/-- How the instructions of these classes issue. -/
inductive OwnForm (i : Instr) : Prop
  | branch {f t taken} : ownClass i = (true, false, false) → i.fenja = some f → i.scRegs = [] →
      (∀ s, exec i s = .next (s.branchAt f.prog f.guard i t taken)) → OwnForm i
  | test {f c ra b t} : ownClass i = (true, false, false) → i.fenja = some f →
      (∀ s, exec i s = .next (s.branchOn f.prog f.guard i c ra b t)) → OwnForm i
  | engine {e} : ownClass i = (false, true, false) → engineCmd i = some e → OwnForm i
  | firm {f eff} : ownClass i = (false, false, true) → i.fenja = some f → (∀ s, exec i s = .next (s.issueFirm f.prog f.guard i eff)) → OwnForm i
  | other : ownClass i = (false, false, false) → OwnForm i

theorem ownForm (i : Instr) : OwnForm i := by
  cases i
  case br | brP => exact .branch rfl rfl rfl fun _ => rfl
  case brEq | brNe | brLt | brGe | brLtu | brGeu | brFlt | brFge => exact .test rfl rfl fun _ => rfl
  case sailRun | sailLoad | sailTld | sailTcp | boomEpi | boomChout | boomChin | boomPre => exact .engine rfl rfl
  case flagSet | flagWait | tickEnd => exact .firm rfl rfl fun _ => rfl
  all_goals exact .other rfl

section
variable {i : Instr} {f : Fenja} (hf : i.fenja = some f)
include hf

/-- Every Fenja instruction is issued by `State.issueAt`, with the scalar registers that `Instr.scRegs` lists, or is a branch that tests
registers. -/
theorem fenja_form (hw : i.wf = true) (s : State) : (∃ eff, exec i s = .next (s.issueAt f.prog f.guard i i.scRegs eff)) ∨
    ∃ c ra b t, exec i s = .next (s.branchOn f.prog f.guard i c ra b t) := by
  cases hb : i.isBranch with
  | false => exact .inl (exec_issueAt hw hf hb)
  | true =>
    rcases ownForm i with ⟨-, hf', huses, hexec⟩ | ⟨-, hf', hexec⟩ | ⟨hclass, -⟩ | ⟨hclass, -, -⟩ | hclass
    · cases hf.symm.trans hf'
      rw [huses]
      exact .inl ⟨_, hexec s⟩
    · cases hf.symm.trans hf'
      exact .inr ⟨_, _, _, _, hexec s⟩
    all_goals exact absurd (hb.symm.trans (congrArg Prod.fst hclass)) (by decide)

variable {s : State}

theorem exec_no (hw : i.wf = true) (hc : s.canIssue f.prog i = false) : exec i s = .next s := by
  rcases fenja_form hf hw s with ⟨eff, hexec⟩ | ⟨c, ra, b, t, hexec⟩
  · rw [hexec, State.issueAt_no hc]
  · rw [hexec, State.branchOn_no hc]

theorem exec_bad (hw : i.wf = true) (hc : s.canIssue f.prog i = true) (hecc : s.fetchEcc f.prog = 2) : exec i s = .next (s.imemFault f.prog) := by
  rcases fenja_form hf hw s with ⟨eff, hexec⟩ | ⟨c, ra, b, t, hexec⟩
  · rw [hexec, State.issueAt_bad hc hecc]
  · rw [hexec, State.branchOn_bad hc hecc]

theorem exec_off (hw : i.wf = true) (hc : s.canIssue f.prog i = true) (hecc : s.fetchEcc f.prog ≠ 2)
    (hready : i.scRegs.any (s.ctx f.prog).pendingReg = false) (hg : f.guard.on (s.regsOf f.prog) = false) :
    exec i s = .next ((s.issued f.prog).advance f.prog) := by
  rcases fenja_form hf hw s with ⟨eff, hexec⟩ | ⟨c, ra, b, t, hexec⟩
  · rw [hexec, State.issueAt_off hc hecc hready hg]
  · rw [hexec, State.branchOn_off hc hecc hg]

theorem exec_pending (hw : i.wf = true) (hb : i.isBranch = false) (hc : s.canIssue f.prog i = true) (hecc : s.fetchEcc f.prog ≠ 2)
    (hpending : i.scRegs.any (s.ctx f.prog).pendingReg = true) : exec i s = .next ((s.imemCorrect f.prog).block f.prog i false) := by
  obtain ⟨eff, hexec⟩ := exec_issueAt (s := s) hw hf hb
  rw [hexec, State.issueAt_wait hc hecc hpending]

end

/-- Table 7.11: the immediates from 5 on are reserved. -/
theorem specialValue_reserved (s : State) (p : Nat) {imm : BitVec 32} (h : 5 ≤ imm.toNat) : specialValue s p imm = none := by
  obtain ⟨n, hn⟩ := Nat.exists_eq_add_of_le' h
  unfold specialValue
  rw [hn]
  rfl

/-- Settles O6: the instructions are issued in two forms (`fenja_form`), each of which says what becomes of one that takes no effect; a word
corrected changes the two registers that count it (`State.reg_issued_ne`). -/
theorem instructionsHeld : Obligations.InstructionsHeld := by
  unfold Obligations.InstructionsHeld
  refine ⟨⟨fun i f s hw hf hc => exec_no hf hw hc, fun p i s => ⟨fun h => ?hindered, s.canIssue_issued p i⟩⟩,
    fun i f s hw hf hc hecc hready hg => ⟨_, exec_off hf hw hc hecc hready hg, OnlyCtx.setCtx .., ?index, ?regs⟩,
    fun i f s hw hf hb hc hecc hpending => ?pending,
    ⟨fun i f s hw hf hc hecc => ?bad, fun p s => ⟨fun hecc hb => ?counted, fun r => s.reg_issued_ne p, fun hecc r => ?sound, s.byte_issued p,
      s.regsOf_issued p⟩⟩,
    fun p g rd imm s h => ?reserved⟩
  case hindered =>
    refine State.canIssue_hindered i fun hu => ?_
    simp [hu.owns, hu.work, hu.ended, hu.active, hu.wait, hu.stalled, hu.penalty] at h
  case index => rw [State.advance, State.ctx_setCtx_same, State.ctx_issued]
  case regs => rw [State.regsOf_advance, State.regsOf_issued]
  case pending =>
    have hheld := State.block_imemCorrect false hc
    refine ⟨_, exec_pending hf hw hb hc hecc hpending, hheld.only, hheld.blocked, hheld.idx.trans (by simp), hheld.regs.trans (by simp),
      fun hnone => ?_, fun hsame => ?_⟩
    · rw [State.block_none false (by simpa using hnone), State.ctx_setCtx_same]
    · rw [s.imemCorrect_blocked f.prog (by simp [hsame]), State.block_some false hsame]
  case bad =>
    obtain ⟨c, hctx, hrun, hconds, hregs, -, hlast, hmem, hstat⟩ := s.imemFault_spec f.prog
    exact ⟨_, exec_bad hf hw hc hecc, by rw [hctx, hrun], by simp [hctx, hconds], by simp [hstat, bit], hlast,
      by rw [State.regsOf, hctx, hregs, State.regsOf], State.byte_congr hmem⟩
  case counted =>
    rw [State.get, State.reg_issued, State.reg_issued, s.imemCorrect_counts p hecc hb]
    constructor
    · rw [State.bump, State.reg_put_ne _ _ _ _ (by simp [mreg])]
      exact (State.bit_setBits_two_pow s _ 0 0).trans (by simp)
    · refine (State.get_bump_same _ _ 1 (by decide)).trans ?_
      rw [State.setBits, State.get_setReg_ne _ _ _ _ (by simp [mreg])]
      rfl
  case sound => rw [State.reg_issued, s.imemCorrect_sound p hecc]
  case reserved =>
    show execSpRd p g rd imm s = _
    rw [execSpRd, specialValue_reserved s p h]

section
variable {i : Instr} {f : Fenja}

theorem engineCmd_of_engineOf (h : engineOf i = true) : ∃ e, engineCmd i = some e := by
  rcases ownForm i with ⟨hclass, -, -⟩ | ⟨hclass, -⟩ | ⟨-, he⟩ | ⟨hclass, -, -⟩ | hclass
  case engine => exact ⟨_, he⟩
  all_goals exact absurd (h.symm.trans (congrArg (·.2.1) hclass)) (by decide)

theorem exec_firm (hf : i.fenja = some f) (h : firmOf i = true) : ∃ eff, ∀ s, exec i s = .next (s.issueFirm f.prog f.guard i eff) := by
  rcases ownForm i with ⟨hclass, -, -⟩ | ⟨hclass, -⟩ | ⟨hclass, -⟩ | ⟨-, hf', hexec⟩ | hclass
  case firm =>
    cases hf.symm.trans hf'
    exact ⟨_, hexec⟩
  all_goals exact absurd (h.symm.trans (congrArg (·.2.2) hclass)) (by decide)

end

/-! ### What an open epoch counts, holds and stops (R223 to R225) -/

namespace State

section
variable {s : State} {p : Nat} {g : Guard} {i : Instr}

theorem countCmd_open {e : Epoch} {es : List Epoch} (h : (s.ctx p).epochs = e :: es) :
    s.countCmd p = s.setCtx p { s.ctx p with epochs := { e with cmds := e.cmds + 1 } :: es } := by
  simp only [countCmd, h]

/-- A firm instruction under an open epoch. -/
theorem issueFirm_open {eff : State → State} (h : Issues s p g i) (hd : s.depth p ≠ 0) :
    s.issueFirm p g i eff = (s.imemCorrect p).block p i true :=
  (issueAt_on h rfl).trans (if_neg hd)

/-- An engine command or kernel under an open epoch whose allowance is spent. -/
theorem issueCmd_spent {uses : List Nat} {eff : State → State} (h : Issues s p g i) (huses : uses.any (s.ctx p).pendingReg = false)
    (hd : s.depth p ≠ 0) (hspent : (s.prog p).place.raCmds ≤ s.specCmds p) :
    s.issueCmd p g i uses eff = (s.imemCorrect p).block p i true :=
  (issueAt_on h huses).trans (if_pos ⟨hd, hspent⟩)

end

section
variable {s : State} {m y : Nat} {q : UnitQ} {c : EngCmd} {rest : List EngCmd}

theorem canStart_held (h : s.released c = false) : s.canStart m y q c = false := by simp [canStart, h]

/-- A head that may not start stays; SAIL_STATE may show that an epoch holds it (R100). -/
theorem exec_engineCommandStart_waits (hq : s.queueOf m y q = c :: rest) (hs : s.canStart m y q c = false) :
    ∃ t, exec (.engineCommandStart m y q) s = .next t ∧ t.queueOf m y q = c :: rest ∧ Outside [.regs] s t := by
  have hshown : ∀ n, (s.putSail m y n 8 1 1).queueOf m y q = c :: rest ∧ Outside [.regs] s (s.putSail m y n 8 1 1) := fun n =>
    ⟨(queueOf_putSail ..).trans hq, (putSail_keeps (Keeps.refl [.regs] s) (Kind.Sub.refl _)).outside⟩
  have hstays : s.queueOf m y q = c :: rest ∧ Outside [.regs] s s := ⟨hq, (Keeps.refl [.regs] s).outside⟩
  refine ⟨_, rfl, ?_⟩
  rw [hq]
  dsimp only
  rw [if_neg (Bool.eq_false_iff.mp hs)]
  cases q with
  | sail n =>
    cases c.op with
    | run _ _ flip =>
      cases flip
      · exact hstays
      · dsimp only
        split
        · exact hshown _
        · exact hstays
    | _ => exact hstays
  | _ => exact hstays

end

end State

section
variable {i : Instr} {f : Fenja} {s : State}

/-- R224: an instruction that an open epoch stops is held back. -/
theorem exec_stopped (hf : i.fenja = some f) (h : Issues s f.prog f.guard i) (hd : s.depth f.prog ≠ 0)
    (hstop : ((s.prog f.prog).place.raCmds ≤ s.specCmds f.prog ∧ ((kernelOf i).isSome = true ∨ engineOf i = true)) ∨ firmOf i = true) :
    exec i s = .next ((s.imemCorrect f.prog).block f.prog i true) := by
  rcases hstop with ⟨hspent, hkernel | hengine⟩ | hfirm
  · obtain ⟨k, hk⟩ := Option.isSome_iff_exists.mp hkernel
    obtain ⟨hexec, hdest⟩ := exec_kernel hf hk s
    exact hexec.trans (congrArg Host.Outcome.next (State.issueCmd_spent h (hdest _ ▸ h.ready) hd hspent))
  · obtain ⟨e, he⟩ := engineCmd_of_engineOf hengine
    exact (exec_engine hf he s).trans (congrArg Host.Outcome.next (State.issueCmd_spent h rfl hd hspent))
  · obtain ⟨eff, hexec⟩ := exec_firm hf hfirm
    exact (hexec s).trans (congrArg Host.Outcome.next (State.issueFirm_open h hd))

end

/-- Settles O14: a command that an epoch holds has not been released and waits at its head (`State.exec_engineCommandStart_waits`); an instruction
that an epoch stops is held back (`exec_stopped`). -/
theorem kernelsHeld : Obligations.KernelsHeld := by
  unfold Obligations.KernelsHeld
  refine ⟨⟨fun p e es s h => ?counts, fun m y q c rest s hq hspec hop => State.exec_engineCommandStart_waits hq (State.canStart_held ?held),
    fun c s hop => ?released⟩, fun i f s hf h hd hstop => ?stops⟩
  case counts =>
    rw [State.countCmd_open h]
    exact ⟨OnlyCtx.setCtx .., State.ctx_setCtx_same ..⟩
  case held =>
    rw [State.released, decide_eq_false hspec, Bool.false_or]
    cases hc : c.op with
    | run => rw [hc] at hop; exact congrArg Bool.not hop
    | kernel k =>
      rw [hc] at hop
      cases k with
      | vec => exact hop.elim
      | _ => rfl
    | chout | chin => rfl
    | _ => rw [hc] at hop; exact hop.elim
  case released =>
    rw [State.released]
    cases hc : c.op with
    | run => rw [hc] at hop; exact Bool.or_eq_true_iff.mpr (.inr (congrArg Bool.not hop))
    | load | tld | tcp | pre => exact Bool.or_true _
    | epi | chout | chin | kernel => rw [hc] at hop; rw [decide_eq_true hop]; rfl
  case stops =>
    have hheld := State.block_imemCorrect true h.can
    exact ⟨_, exec_stopped hf h hd hstop, hheld.only, hheld.blocked, hheld.idx.trans (by simp), hheld.epochs.trans (by simp),
      hheld.regs.trans (by simp)⟩

end Sys2Proof.Machine
end

section
/-! SUPPORT. Flags (R135, R198, R213 to R218): what flag.set puts on its way, and the sets of a cycle and the waits at
the hub; then the obligation on them (O16). -/

namespace Sys2Proof.Machine

/-- A list without its repetitions. -/
theorem nodup_eraseDups {α : Type} [BEq α] [LawfulBEq α] : ∀ l : List α, l.eraseDups.Nodup
  | [] => by simp
  | a :: l => by
    rw [List.eraseDups_cons, List.nodup_cons]
    exact ⟨by simp [List.mem_eraseDups], nodup_eraseDups _⟩
termination_by l => l.length
decreasing_by exact Nat.lt_succ_of_le (List.length_filter_le _ l)

namespace State

/-! ### What an instruction that is issued reads as it stood (R213) -/

section
variable (s : State) (p : Nat)

theorem afterCycles_issued (c : Nat) : (s.issued p).afterCycles c = s.afterCycles c := (issued_still s p).afterCycles c

theorem now_issued : (s.issued p).now = s.now := by rw [now, gcnt_issued, now]

/-- The registers that count corrected words are none of the others. -/
theorem reg_issued_name {r : RegId} (hstat : r.name ≠ .ccImemStat) (hcount : r.name ≠ .ccImemCeCnt) : (s.issued p).reg r = s.reg r :=
  s.reg_imemCorrect p hstat hcount

theorem firstMast_issued : (s.issued p).firstMast p = s.firstMast p := by
  simp only [firstMast, progMasts, s.reg_issued_name p (r := rid .admProgA p) (by simp [rid]) (by simp [rid])]

theorem slotOn_issued (m : Nat) : (s.issued p).slotOn p m = s.slotOn p m := by simp only [slotOn, place_issued]

theorem localFlag_issued (n : Nat) : (s.issued p).localFlag p n = s.localFlag p n := by simp only [localFlag, place_issued]

theorem flagVal_issued (m n : Nat) : (s.issued p).flagVal m n = s.flagVal m n := by
  simp only [flagVal, get, s.reg_issued_name p (r := mreg .flagLocal m n) (by simp [mreg]) (by simp [mreg])]

theorem guardTime_issued : (s.issued p).guardTime = s.guardTime := by
  simp only [guardTime, tickStart, period, guardLen, get, s.reg_issued_name p (r := rid .tickLast) (by decide) (by decide),
    s.reg_issued_name p (r := rid .tickPeriod) (by decide) (by decide), s.reg_issued_name p (r := rid .tickGuard) (by decide) (by decide)]

theorem expiryOf_issued (pkg : Bool) (b : Nat) : (s.issued p).expiryOf pkg b = s.expiryOf pkg b := by
  simp only [expiryOf, guardTime_issued, afterCycles_issued]

/-- An operation of program `p` on its way to the hub. -/
def hubOp (isSet : Bool) (flag count : Nat) : HubOp :=
  ⟨isSet, flag, count, p, s.firstMast p, s.slotOn p (s.firstMast p), s.afterCycles 2⟩

/-- R215: it sets out from the program's first mast. -/
theorem sendHub_eq (flag count : Nat) (isSet : Bool) : s.sendHub p flag count (s.afterCycles 2) isSet =
    { s with flags := { s.flags with hub := s.flags.hub ++ [s.hubOp p isSet flag count] } } := rfl

theorem hubOp_issued (isSet : Bool) (flag count : Nat) : (s.issued p).hubOp p isSet flag count = s.hubOp p isSet flag count := by
  simp only [hubOp, firstMast_issued, slotOn_issued, afterCycles_issued]

end

/-! ### The hub (R135) -/

/-- A state but for what it holds of flags beside their registers. -/
def withFlags (s : State) (fl : FlagSt) : State := { s with flags := fl }

section
variable (s : State) (fl : FlagSt)

@[simp] theorem flags_withFlags : (s.withFlags fl).flags = fl := rfl
@[simp] theorem reg_withFlags (r : RegId) : (s.withFlags fl).reg r = s.reg r := rfl
@[simp] theorem prog_withFlags (p : Nat) : (s.withFlags fl).prog p = s.prog p := rfl
@[simp] theorem ctx_withFlags (p : Nat) : (s.withFlags fl).ctx p = s.ctx p := rfl

end

section
variable (s : State)

theorem hubVal_le (f : Nat) : s.hubVal f ≤ 0xFFFF := Nat.le_of_lt_succ (SMap.get 0 s.flags.pkg f).isLt

theorem hubVal_setHub (f v g : Nat) : (s.setHub f v).hubVal g = if g = f then v % 2 ^ 16 else s.hubVal g := by
  simp only [hubVal, setHub, SMap.get_set]
  split <;> simp

theorem hubVal_congr {s t : State} (h : t.flags.pkg = s.flags.pkg) (f : Nat) : t.hubVal f = s.hubVal f := by simp only [hubVal, h]

@[simp] theorem hubVal_setCtx (p : Nat) (c : Ctx) (f : Nat) : (s.setCtx p c).hubVal f = s.hubVal f := rfl

/-- The flags after the sets to one of them: its value. -/
theorem flags_hubSets (f : Nat) (ops : List HubOp) :
    (s.hubSets f ops).flags = (s.setHub f (min (s.hubVal f + (ops.map HubOp.count).sum) 0xFFFF)).flags := by
  have hsum : ops.foldl (fun k o => k + o.count) 0 = (ops.map HubOp.count).sum := by rw [List.sum_eq_foldl, List.foldl_map]
  unfold hubSets
  rw [hsum]
  have hkeeps : ∀ {u : State} {l : List (Nat × Nat)}, Keeps [.regs, .progs, .events] u (l.foldl (fun s q => s.flagOverflow q.1 q.2 f true) u) :=
    fun {u l} => Keeps.foldl (fun _ _ h => flagOverflow_keeps h (Kind.Sub.refl _)) _ (Keeps.refl _ u)
  exact (Keeps.ite hkeeps (Keeps.refl _ _)).outside .flags (by decide)

/-- R135: the sets to a flag are summed, to at most 0xFFFF. -/
theorem hubVal_hubSets (f : Nat) (ops : List HubOp) (g : Nat) :
    (s.hubSets f ops).hubVal g = if g = f then min (s.hubVal f + (ops.map HubOp.count).sum) 0xFFFF else s.hubVal g := by
  rw [hubVal_congr (congrArg FlagSt.pkg (flags_hubSets ..)), hubVal_setHub, Nat.mod_eq_of_lt (by omega)]

/-- The sets `ops` to the flags `fs`, one flag after the other. -/
def hubApply (fs : List Nat) (ops : List HubOp) : State :=
  fs.foldl (fun s f => s.hubSets f (ops.filter fun o => decide (o.flag = f))) s

theorem flags_hubApply (fs : List Nat) (ops : List HubOp) : ∃ pkg, (s.hubApply fs ops).flags = { s.flags with pkg := pkg } := by
  induction fs generalizing s with
  | nil => exact ⟨_, rfl⟩
  | cons f fs ih =>
    obtain ⟨pkg, hpkg⟩ := ih (s.hubSets f (ops.filter fun o => decide (o.flag = f)))
    refine ⟨pkg, hpkg.trans ?_⟩
    rw [flags_hubSets]
    rfl

theorem hubVal_hubApply {fs : List Nat} (hnodup : fs.Nodup) (ops : List HubOp) (hfs : ∀ o ∈ ops, o.flag ∈ fs) (f : Nat) :
    (s.hubApply fs ops).hubVal f = min (s.hubVal f + ((ops.filter fun o => decide (o.flag = f)).map HubOp.count).sum) 0xFFFF := by
  have happly : ∀ (gs : List Nat) (u : State), gs.Nodup → (u.hubApply gs ops).hubVal f = if f ∈ gs then
      min (u.hubVal f + ((ops.filter fun o => decide (o.flag = f)).map HubOp.count).sum) 0xFFFF else u.hubVal f := by
    intro gs
    induction gs with
    | nil => exact fun u _ => rfl
    | cons g gs ih =>
      intro u hgs
      obtain ⟨hg, hgs⟩ := List.nodup_cons.mp hgs
      refine (ih (u.hubSets g (ops.filter fun o => decide (o.flag = g))) hgs).trans ?_
      rw [hubVal_hubSets]
      by_cases hfg : f = g
      · subst hfg
        rw [if_neg hg, if_pos rfl, if_pos List.mem_cons_self]
      · simp only [hfg, if_false, List.mem_cons, false_or]
  rw [happly fs s hnodup]
  split
  · rfl
  · next hf =>
    have hnone : (ops.filter fun o => decide (o.flag = f)) = [] :=
      List.filter_eq_nil_iff.mpr fun o ho => by
        simpa using fun (e : o.flag = f) => hf (e ▸ hfs o ho)
    have hle := s.hubVal_le f
    rw [hnone]
    simp only [List.map_nil, List.sum_nil]
    omega

/-- The operations that have reached the hub. -/
def hubArrived : List HubOp := s.flags.hub.filter fun o => decide (o.reach ≤ s.now)

/-- They are no longer on their way, and the waits that stood at the hub are in hand. -/
def hubTaken : State :=
  s.withFlags { s.flags with hub := s.flags.hub.filter fun o => decide (s.now < o.reach), hubWaits := [] }

theorem hubVal_hubTaken (f : Nat) : s.hubTaken.hubVal f = s.hubVal f := rfl

theorem filter_hubArrived (f : Nat) : (s.hubArrived.filter fun o => decide (o.flag = f)) =
    s.flags.hub.filter fun o => decide (o.flag = f ∧ o.reach ≤ s.now) := by
  simp only [hubArrived, List.filter_filter, Bool.decide_and]

/-- R135: a cycle of the hub: the sets that have arrived, and then the waits. -/
theorem hubCycle_eq : ∃ shown, s.hubCycle =
    let v := (s.flags.hubWaits ++ hubOrder (s.hubArrived.filter fun o => !o.isSet)).foldl hubWait
      (s.hubTaken.hubApply (s.hubArrived.map HubOp.flag).eraseDups (s.hubArrived.filter (·.isSet)))
    v.withFlags { v.flags with shown := shown } :=
  ⟨_, rfl⟩

/-- A cycle in which no wait stands or arrives. -/
theorem hubCycle_sets (hwaits : s.flags.hubWaits = []) (hsets : ∀ o ∈ s.flags.hub, o.isSet = false → s.now < o.reach) : ∃ shown, s.hubCycle =
    let v := s.hubTaken.hubApply (s.hubArrived.map HubOp.flag).eraseDups s.hubArrived
    v.withFlags { v.flags with shown := shown } := by
  have hset : ∀ o ∈ s.hubArrived, o.isSet = true := fun o ho => by
    obtain ⟨hmem, hreach⟩ := List.mem_filter.mp ho
    by_contra hwait
    exact absurd (of_decide_eq_true hreach) (Nat.not_le.mpr (hsets o hmem (Bool.eq_false_iff.mpr hwait)))
  have hall : s.hubArrived.filter (·.isSet) = s.hubArrived := List.filter_eq_self.mpr hset
  have hnone : (s.hubArrived.filter fun o => !o.isSet) = [] := List.filter_eq_nil_iff.mpr fun o ho => by simp [hset o ho]
  obtain ⟨shown, hcycle⟩ := s.hubCycle_eq
  rw [hwaits, hall, hnone] at hcycle
  exact ⟨shown, hcycle⟩

/-- A cycle in which one wait stands, and nothing arrives. -/
theorem hubCycle_wait {o : HubOp} (hwaits : s.flags.hubWaits = [o]) (hnone : ∀ x ∈ s.flags.hub, s.now < x.reach) : ∃ shown, s.hubCycle =
    let v := s.hubTaken.hubWait o
    v.withFlags { v.flags with shown := shown } := by
  have harrived : s.hubArrived = [] := List.filter_eq_nil_iff.mpr fun x hx => by simpa using hnone x hx
  obtain ⟨shown, hcycle⟩ := s.hubCycle_eq
  rw [hwaits, harrived] at hcycle
  exact ⟨shown, hcycle⟩

variable {s} {o : HubOp} {w : Wait} (hwait : (s.ctx o.prog).wait = some w)
include hwait

/-- R135: a wait that finds its count in time takes it, and is granted three cycles later. -/
theorem hubWait_granted (hcount : o.count ≤ s.hubVal o.flag) (htime : s.afterCycles 3 < w.expiry) :
    (∀ f, (s.hubWait o).hubVal f = if f = o.flag then s.hubVal o.flag - o.count else s.hubVal f) ∧
      ((s.hubWait o).ctx o.prog).wait = some { w with grant := some (s.afterCycles 3) } ∧ (s.hubWait o).flags.hubWaits = s.flags.hubWaits := by
  have heq : s.hubWait o = (s.setHub o.flag (s.hubVal o.flag - o.count)).setCtx o.prog
      { s.ctx o.prog with wait := some { w with grant := some (s.afterCycles 3) } } := by
    simp only [hubWait, hwait, hcount, htime, and_self, if_true]
    rfl
  have hle := s.hubVal_le o.flag
  rw [heq]
  refine ⟨fun f => ?_, by rw [ctx_setCtx_same], rfl⟩
  rw [hubVal_setCtx, hubVal_setHub, Nat.mod_eq_of_lt (by omega)]

/-- R135: one that does not stays at the hub. -/
theorem hubWait_stays (h : ¬(o.count ≤ s.hubVal o.flag ∧ s.afterCycles 3 < w.expiry)) :
    s.hubWait o = s.withFlags { s.flags with hubWaits := s.flags.hubWaits ++ [o] } := by
  simp only [hubWait, hwait, h, if_false, withFlags]

end
end State

/-! ### flag.set (R214, R215) -/

section
variable (s : State) (p : Nat)

theorem State.ctx_advance : (s.advance p).ctx p = { s.ctx p with idx := (s.ctx p).idx + 1 } := State.ctx_setCtx_same ..
theorem State.reg_advance (r : RegId) : (s.advance p).reg r = s.reg r := State.reg_setCtx ..
theorem State.prog_advance_ne {q : Nat} (h : q ≠ p) : (s.advance p).prog q = s.prog q := State.prog_setCtx_ne _ _ h

end

section
variable {s : State} {p : Nat} {g : Guard} {pkg : Bool} {flag : BitVec 10} {count : BitVec 16}

/-- One set is on its way, and issue goes on. -/
theorem exec_flagSet (h : Issues s p g (.flagSet p g pkg flag count)) (hd : s.depth p = 0) :
    exec (.flagSet p g pkg flag count) s = .next (((s.issued p).withFlags (
      if pkg then { s.flags with hub := s.flags.hub ++ [s.hubOp p true flag.toNat count.toNat] }
      else { s.flags with localSets := s.flags.localSets ++
        (s.localFlag p flag.toNat).toList.map fun q => (q.1, q.2, count.toNat, p, s.afterCycles 2) })).advance p) := by
  refine congrArg Host.Outcome.next ((State.issueFirm_on h hd).trans ?_)
  cases pkg with
  | false =>
    simp only [Bool.false_eq_true, if_false, State.setMapped_eq, State.localFlag_issued, State.afterCycles_issued, State.flags_issued, State.withFlags]
  | true => simp only [if_true, State.sendHub_eq, State.hubOp_issued, State.flags_issued, State.withFlags]

end

/-- Settles O16: flag.set leaves one set on its way (`exec_flagSet`); a cycle of the hub is `State.hubCycle_eq`, whose sets to one flag are summed
(`State.hubVal_hubApply`), and a wait there is granted (`State.hubWait_granted`) or stays (`State.hubWait_stays`). -/
theorem flagSets : Obligations.FlagSets := by
  unfold Obligations.FlagSets
  refine ⟨fun p g pkg flag count s h hd => ⟨_, exec_flagSet h hd, fun r => ?reg, ?ctx, fun q hq => ?others, ?pkg, ?toLocal, ?toHub⟩,
    fun s hwaits hsets => ?sets, fun o w s hwaits hnone hwait => ?wait⟩
  case reg => rw [State.reg_advance, State.reg_withFlags]
  case ctx =>
    rw [State.ctx_advance, State.ctx_withFlags, State.ctx_issued]
  case others => rw [State.prog_advance_ne _ _ hq, State.prog_withFlags, s.prog_issued_ne hq]
  case pkg => cases pkg <;> rfl
  case toLocal =>
    rintro rfl
    exact ⟨rfl, rfl⟩
  case toHub =>
    rintro rfl
    exact ⟨rfl, rfl⟩
  case sets =>
    obtain ⟨shown, hcycle⟩ := s.hubCycle_sets hwaits hsets
    obtain ⟨vals, hflags⟩ := s.hubTaken.flags_hubApply (s.hubArrived.map HubOp.flag).eraseDups s.hubArrived
    refine ⟨_, congrArg Host.Outcome.next hcycle, congrArg FlagSt.hub hflags, congrArg FlagSt.hubWaits hflags, fun f => ?_⟩
    have hval := s.hubTaken.hubVal_hubApply (nodup_eraseDups (s.hubArrived.map HubOp.flag)) s.hubArrived
      (fun o ho => List.mem_eraseDups.mpr (List.mem_map_of_mem ho)) f
    rw [s.hubVal_hubTaken, s.filter_hubArrived] at hval
    exact hval
  case wait =>
    obtain ⟨shown, hcycle⟩ := s.hubCycle_wait hwaits hnone
    have htaken : (s.hubTaken.ctx o.prog).wait = some w := hwait
    by_cases hgrant : o.count ≤ s.hubVal o.flag ∧ s.afterCycles 3 < w.expiry
    case pos =>
      obtain ⟨hval, hgranted, hleft⟩ := State.hubWait_granted htaken hgrant.1 hgrant.2
      exact ⟨_, congrArg Host.Outcome.next hcycle, fun f hf => (hval f).trans (if_neg hf),
        fun _ _ => ⟨(hval o.flag).trans (if_pos rfl), hgranted, hleft⟩, fun hlt => absurd hgrant.1 (Nat.not_le.mpr hlt)⟩
    case neg =>
      rw [State.hubWait_stays htaken hgrant] at hcycle
      exact ⟨_, congrArg Host.Outcome.next hcycle, fun f _ => rfl, fun hcount htime => absurd ⟨hcount, htime⟩ hgrant,
        fun _ => ⟨rfl, rfl, fun q => rfl⟩⟩

end Sys2Proof.Machine
end

section
/-! SUPPORT. Waits of contexts (R198, R214, R215, R218): how a wait begins, when a local one takes its count, how it expires, and tick.end; then
the obligation on them (O17). -/

namespace Sys2Proof.Machine
namespace State

/-! ### A wait begins (R214, R215) -/

/-- A context that waits. -/
def waiting (s : State) (p : Nat) (w : Wait) : State := s.setCtx p { s.ctx p with wait := some w, run := .waiting }

section
variable (s : State) (p : Nat) (w : Wait)

@[simp] theorem ctx_waiting : (s.waiting p w).ctx p = { s.ctx p with wait := some w, run := .waiting } := ctx_setCtx_same ..
theorem prog_waiting_ne {q : Nat} (h : q ≠ p) : (s.waiting p w).prog q = s.prog q := prog_setCtx_ne _ _ h
@[simp] theorem reg_waiting (r : RegId) : (s.waiting p w).reg r = s.reg r := rfl
@[simp] theorem flags_waiting : (s.waiting p w).flags = s.flags := rfl
@[simp] theorem flagVal_waiting (m n : Nat) : (s.waiting p w).flagVal m n = s.flagVal m n := rfl
@[simp] theorem now_waiting : (s.waiting p w).now = s.now := rfl

@[simp] theorem localFlag_waiting (n : Nat) : (s.waiting p w).localFlag p n = s.localFlag p n := by
  simp only [localFlag, waiting, prog_setCtx_same]

theorem hubOp_waiting (isSet : Bool) (flag count : Nat) : (s.waiting p w).hubOp p isSet flag count = s.hubOp p isSet flag count := by
  have hmast : (s.waiting p w).firstMast p = s.firstMast p := rfl
  have htime : (s.waiting p w).afterCycles 2 = s.afterCycles 2 := rfl
  have hslot : (s.waiting p w).slotOn p (s.firstMast p) = s.slotOn p (s.firstMast p) := by simp only [slotOn, waiting, prog_setCtx_same]
  rw [hubOp, hmast, htime, hslot, hubOp]

/-- A context that waits issues nothing. -/
theorem canIssue_waiting (i : Instr) (h : (s.ctx p).wait = some w) : s.canIssue p i = false :=
  canIssue_hindered i fun hu => by simp [hu.wait] at h

/-- The wait that begins, and what is done with it at once. -/
theorem startWait_eq (pkg : Bool) (flag count bound : Nat) : ∃ planned, s.startWait p pkg flag count bound =
    let w : Wait := ⟨pkg, flag, count, s.now, s.expiryOf pkg bound, planned, none⟩
    if pkg then (s.waiting p w).sendHub p flag count ((s.waiting p w).afterCycles 2) false else (s.waiting p w).testLocal p w :=
  ⟨_, rfl⟩

end

/-! ### A local wait is tested (R214) -/

section
variable {s : State} {p m n : Nat} {w : Wait}

theorem testLocal_waits (h : ∀ q, s.localFlag p w.flag = some q → s.flagVal q.1 q.2 < w.count ∨ w.expiry ≤ s.now) : s.testLocal p w = s := by
  cases hq : s.localFlag p w.flag with
  | none => simp only [testLocal, hq]
  | some q =>
    have := h q hq
    simp only [testLocal, hq]
    exact if_neg (by omega)

variable (hflag : s.localFlag p w.flag = some (m, n)) (hcount : w.count ≤ s.flagVal m n) (htime : s.now < w.expiry)
include hflag hcount htime

/-- One that finds its count in time takes it, and issue goes on in the next cycle. -/
theorem testLocal_takes :
    let t := s.testLocal p w
    t.flagVal m n = s.flagVal m n - w.count ∧ (∀ r, r ≠ mreg .flagLocal m n → t.reg r = s.reg r) ∧ (∀ q, q ≠ p → t.prog q = s.prog q) ∧
      t.ctx p = { s.ctx p with wait := none, run := .issuing, idx := (s.ctx p).idx + 1, late := (s.ctx p).late + (s.cycle - w.planned)
                               ready := s.cycle + 1 } := by
  have hput := (Still.refl false 0 0 s).put (r := mreg .flagLocal m n) (lo := 0) (w := 16) (x := s.flagVal m n - w.count) rfl
  have hlt : s.flagVal m n < 2 ^ 16 := fld_lt ..
  intro t
  have ht : t = (s.put (mreg .flagLocal m n) 0 16 (s.flagVal m n - w.count)).endWait p w s.cycle := by
    simp only [t, testLocal, hflag]
    exact if_pos ⟨hcount, htime⟩
  rw [ht]
  refine ⟨?_, fun r hr => reg_put_ne s 0 16 _ hr, fun q hq => prog_setCtx_ne _ _ hq, ?_⟩
  · exact (get_put_same s _ _ (by decide)).trans (Nat.mod_eq_of_lt (Nat.lt_of_le_of_lt (Nat.sub_le ..) hlt))
  · rw [endWait, ctx_setCtx_same, hput.cycle]
    rfl

end

/-! ### A wait expires (R218) -/

section
variable (s : State) (p : Nat) (w : Wait)

/-- What the hub has of the program's waits is dropped, and FLAG_TIMEOUT is recorded on the program's first mast. -/
def timedOut : State :=
  let n := if w.pkg then w.flag else ((s.localFlag p w.flag).map (·.2)).getD w.flag
  (s.withFlags { s.flags with hub := s.flags.hub.filter fun o => o.isSet || decide (o.prog ≠ p)
                              hubWaits := s.flags.hubWaits.filter fun o => decide (o.prog ≠ p) }).firstRecord (mreg .flagStatus (s.firstMast p)) 1
    fun u =>
      let r := mreg .flagToRec (s.firstMast p)
      let u := (u.put r 0 1 (if w.pkg then 1 else 0)).put r 1 10 n
      (u.put r 11 3 (s.slotOn p (s.firstMast p))).put r 16 16 w.count

/-- … and the fault and the event are raised. -/
def timeoutRaised : State :=
  ((s.timedOut p w).faultOn p (s.firstMast p) 1 (s.ctx p).idx).ctlEvent p 0x0301 (s.ctx p).idx

theorem expireWait_eq : s.expireWait p w =
    ((s.timeoutRaised p w).setCtx p { (s.timeoutRaised p w).ctx p with wait := none }).stopIssue p := rfl

theorem progs_timedOut : (s.timedOut p w).progs = s.progs := firstRecord_field _ (·.progs) (fun _ _ _ => rfl) _ _ rfl

theorem flags_timedOut : (s.timedOut p w).flags.hubWaits = s.flags.hubWaits.filter fun o => decide (o.prog ≠ p) :=
  congrArg FlagSt.hubWaits (firstRecord_field _ (·.flags) (fun _ _ _ => rfl) _ _ rfl)

theorem reg_timedOut {r : RegId} (hstat : r.name ≠ .flagStatus) (hrec : r.name ≠ .flagToRec) : (s.timedOut p w).reg r = s.reg r := by
  have hne : r ≠ mreg .flagToRec (s.firstMast p) := fun e => hrec (congrArg RegId.name e)
  refine reg_firstRecord_ne _ 1 (fun e => hstat (congrArg RegId.name e)) ?_
  dsimp only
  rw [reg_put_ne _ _ _ _ hne, reg_put_ne _ _ _ _ hne, reg_put_ne _ _ _ _ hne, reg_put_ne _ _ _ _ hne]

theorem reg_timeoutRaised {r : RegId} (hfault : r.name ≠ .ccCtxFault) (hcyc : r.name ≠ .ccCtxFaultCyc) (hlost : r.name ≠ .evtLostCnt)
    (hstat : r.name ≠ .evtStat) : (s.timeoutRaised p w).reg r = (s.timedOut p w).reg r :=
  (reg_ctlEvent _ _ _ _ (fun e => hlost (congrArg RegId.name e)) fun e => hstat (congrArg RegId.name e)).trans
    (reg_faultOn _ _ _ _ _ (fun e => hfault (congrArg RegId.name e)) fun e => hcyc (congrArg RegId.name e))

theorem ctx_timeoutRaised : (s.timeoutRaised p w).ctx p = { s.ctx p with conds := (s.ctx p).conds ||| 16 } := by
  rw [timeoutRaised, ctx_congr (progs_ctlEvent ..), ctx_faultOn, ctx_congr (s.progs_timedOut p w)]

theorem prog_timeoutRaised_ne {q : Nat} (h : q ≠ p) : (s.timeoutRaised p w).prog q = s.prog q := by
  rw [timeoutRaised, prog_congr (progs_ctlEvent ..), prog_congr (progs_faultOn ..), setCond, prog_setCtx_ne _ _ h,
    prog_congr (s.progs_timedOut p w)]

theorem hubWaits_timeoutRaised : (s.timeoutRaised p w).flags.hubWaits = s.flags.hubWaits.filter fun o => decide (o.prog ≠ p) := by
  have hkeeps : Keeps [.regs, .progs, .events] (s.timedOut p w) (s.timeoutRaised p w) :=
    ctlEvent_keeps (faultOn_keeps (Keeps.refl _ _) (Kind.Sub.mono rfl (Kind.Sub.refl _))) (Kind.Sub.mono rfl (Kind.Sub.refl _))
  exact (congrArg FlagSt.hubWaits (hkeeps.outside .flags (by decide))).trans (s.flags_timedOut p w)

theorem hubWaits_expireWait : (s.expireWait p w).flags.hubWaits = s.flags.hubWaits.filter fun o => decide (o.prog ≠ p) :=
  s.hubWaits_timeoutRaised p w

theorem ctx_expireWait : (s.expireWait p w).ctx p = { s.ctx p with
    conds := (s.ctx p).conds ||| 16, wait := none, run := .stopped, blocked := none, specStop := false, specBound := false } := by
  rw [expireWait_eq, ctx_stopIssue, ctx_setCtx_same, ctx_timeoutRaised]

theorem prog_expireWait_ne {q : Nat} (h : q ≠ p) : (s.expireWait p w).prog q = s.prog q := by
  rw [expireWait_eq, stopIssue, prog_setCtx_ne _ _ h, prog_setCtx_ne _ _ h, prog_timeoutRaised_ne _ _ _ h]

theorem reg_expireWait (r : RegId) : (s.expireWait p w).reg r = (s.timeoutRaised p w).reg r := by
  rw [expireWait_eq, reg_stopIssue, reg_setCtx]

theorem last_timeoutRaised : (s.timeoutRaised p w).events.last = 0x0301 := last_ctlEvent ..

theorem last_expireWait : (s.expireWait p w).events.last = 0x0301 := by
  rw [expireWait_eq, events_stopIssue, events_setCtx, last_timeoutRaised]

theorem timeout_flagged : bit ((s.expireWait p w).reg (mreg .flagStatus (s.firstMast p))) 1 = true := by
  rw [reg_expireWait, reg_timeoutRaised _ _ _ (by simp [mreg]) (by simp [mreg]) (by simp [mreg]) (by simp [mreg])]
  exact bit_firstRecord _ _ (by decide) _

theorem flagVal_expireWait (m n : Nat) : (s.expireWait p w).flagVal m n = s.flagVal m n := by
  simp only [flagVal, get, reg_expireWait]
  rw [reg_timeoutRaised _ _ _ (by simp [mreg]) (by simp [mreg]) (by simp [mreg]) (by simp [mreg]),
    reg_timedOut _ _ _ (by simp [mreg]) (by simp [mreg])]

end
end State

/-! ### flag.wait and tick.end -/

section
variable {s : State} {p : Nat} {g : Guard} {pkg : Bool} {flag : BitVec 10} {count : BitVec 16} {bound : BitVec 32}

/-- The context waits; the wait is on its way to the hub, or is tested at once. -/
theorem exec_flagWait (h : Issues s p g (.flagWait p g pkg flag count bound)) (hd : s.depth p = 0) :
    ∃ planned, let w : Wait := ⟨pkg, flag.toNat, count.toNat, s.now, s.expiryOf pkg bound.toNat, planned, none⟩
      exec (.flagWait p g pkg flag count bound) s = .next (if pkg then ((s.issued p).waiting p w).withFlags
        { s.flags with hub := s.flags.hub ++ [s.hubOp p false flag.toNat count.toNat] } else ((s.issued p).waiting p w).testLocal p w) := by
  obtain ⟨planned, hstart⟩ := (s.issued p).startWait_eq p pkg flag.toNat count.toNat bound.toNat
  rw [State.now_issued, State.expiryOf_issued] at hstart
  refine ⟨planned, congrArg Host.Outcome.next ((State.issueFirm_on h hd).trans (hstart.trans ?_))⟩
  cases pkg with
  | false => rfl
  | true =>
    simp only [if_true, State.sendHub_eq, State.hubOp_waiting, State.hubOp_issued]
    rw [State.flags_waiting, State.flags_issued]
    rfl

/-- What a context that has just begun to wait shows. -/
theorem waits_begun {t : State} {w : Wait} (ht : t.ctx p = ((s.issued p).waiting p w).ctx p) : (t.ctx p).wait = some w ∧
    (t.ctx p).run = .waiting ∧ (t.ctx p).idx = (s.ctx p).idx ∧ (∀ i, t.canIssue p i = false) ∧ t.regsOf p = s.regsOf p := by
  rw [State.ctx_waiting] at ht
  have hwait : (t.ctx p).wait = some w := congrArg Ctx.wait ht
  have hidx : (t.ctx p).idx = ((s.issued p).ctx p).idx := by rw [ht]
  have hregs : t.regsOf p = (s.issued p).regsOf p := by rw [State.regsOf, ht, State.regsOf]
  exact ⟨hwait, congrArg Ctx.run ht, hidx.trans (by rw [State.ctx_issued]), fun i => t.canIssue_waiting p w i hwait,
    hregs.trans (s.regsOf_issued p)⟩

/-- A package wait has set out for the hub. -/
theorem exec_flagWait_pkg (h : Issues s p g (.flagWait p g true flag count bound)) (hd : s.depth p = 0) :
    ∃ t planned, exec (.flagWait p g true flag count bound) s = .next t ∧
      t.ctx p = ((s.issued p).waiting p ⟨true, flag.toNat, count.toNat, s.now, s.expiryOf true bound.toNat, planned, none⟩).ctx p ∧
      (∀ r, t.reg r = (s.issued p).reg r) ∧ t.flags.hub = s.flags.hub ++ [s.hubOp p false flag.toNat count.toNat] := by
  obtain ⟨planned, hexec⟩ := exec_flagWait h hd
  exact ⟨_, planned, hexec.trans (congrArg Host.Outcome.next (if_pos rfl)), State.ctx_withFlags .., fun r => by
    rw [State.reg_withFlags, State.reg_waiting], congrArg FlagSt.hub (State.flags_withFlags ..)⟩

/-- A local wait whose flag does not hold the count in time. -/
theorem exec_flagWait_local (h : Issues s p g (.flagWait p g false flag count bound)) (hd : s.depth p = 0)
    (hwaits : ∀ q, s.localFlag p flag.toNat = some q → s.flagVal q.1 q.2 < count.toNat ∨ s.expiryOf false bound.toNat ≤ s.now) :
    ∃ t planned, exec (.flagWait p g false flag count bound) s = .next t ∧
      t.ctx p = ((s.issued p).waiting p ⟨false, flag.toNat, count.toNat, s.now, s.expiryOf false bound.toNat, planned, none⟩).ctx p ∧
      (∀ r, t.reg r = (s.issued p).reg r) ∧ t.flags.hub = s.flags.hub := by
  obtain ⟨planned, hexec⟩ := exec_flagWait h hd
  dsimp only at hexec
  rw [if_neg Bool.false_ne_true, State.testLocal_waits] at hexec
  · refine ⟨_, planned, hexec, rfl, fun r => State.reg_waiting .., ?_⟩
    rw [State.flags_waiting, State.flags_issued]
  · intro q hq
    rw [State.localFlag_waiting, State.localFlag_issued] at hq
    rw [State.flagVal_waiting, State.flagVal_issued, State.now_waiting, State.now_issued]
    exact hwaits q hq

/-- A local wait that finds its count at once. -/
theorem exec_flagWait_takes {q : Nat × Nat} (h : Issues s p g (.flagWait p g false flag count bound)) (hd : s.depth p = 0)
    (hq : s.localFlag p flag.toNat = some q) (hcount : count.toNat ≤ s.flagVal q.1 q.2) (htime : s.now < s.expiryOf false bound.toNat) :
    ∃ t, exec (.flagWait p g false flag count bound) s = .next t ∧ (t.ctx p).wait = none ∧ (t.ctx p).idx = (s.ctx p).idx + 1 ∧
      (t.ctx p).run = .issuing ∧ t.flagVal q.1 q.2 = s.flagVal q.1 q.2 - count.toNat ∧ t.regsOf p = s.regsOf p ∧
      (∀ r, r ≠ mreg .flagLocal q.1 q.2 → t.reg r = (s.issued p).reg r) ∧ ∀ q, q ≠ p → t.prog q = s.prog q := by
  obtain ⟨planned, hexec⟩ := exec_flagWait h hd
  dsimp only at hexec
  rw [if_neg Bool.false_ne_true] at hexec
  obtain ⟨hval, hregs, hprogs, hctx⟩ := State.testLocal_takes (s := (s.issued p).waiting p
      ⟨false, flag.toNat, count.toNat, s.now, s.expiryOf false bound.toNat, planned, none⟩) (p := p)
    (w := ⟨false, flag.toNat, count.toNat, s.now, s.expiryOf false bound.toNat, planned, none⟩)
    (by rw [State.localFlag_waiting, State.localFlag_issued]; exact hq)
    (by rw [State.flagVal_waiting, State.flagVal_issued]; exact hcount)
    (by rw [State.now_waiting, State.now_issued]; exact htime)
  rw [State.flagVal_waiting, State.flagVal_issued] at hval
  rw [State.ctx_waiting] at hctx
  generalize State.testLocal _ p _ = t at hexec hval hregs hprogs hctx
  have hidx : (t.ctx p).idx = ((s.issued p).ctx p).idx + 1 := by rw [hctx]
  have hsame : t.regsOf p = (s.issued p).regsOf p := by rw [State.regsOf, hctx, State.regsOf]
  exact ⟨t, hexec, congrArg Ctx.wait hctx, hidx.trans (by rw [State.ctx_issued]), congrArg Ctx.run hctx, hval, hsame.trans (s.regsOf_issued p),
    fun r hr => (hregs r hr).trans (by rw [State.reg_waiting]),
    fun q hq => (hprogs q hq).trans ((State.prog_waiting_ne _ _ _ hq).trans (s.prog_issued_ne hq))⟩

end

/-- Settles O17: a wait that begins is `exec_flagWait`; a local one takes its count (`State.testLocal_takes`) or waits (`State.testLocal_waits`), and
one whose bound has passed expires (`State.expireWait_eq`). -/
theorem contextsWait : Obligations.ContextsWait := by
  unfold Obligations.ContextsWait
  refine ⟨⟨fun p g pkg flag count bound s h hd => ⟨fun hwaits => ?waits, fun q hpkg hq hcount htime => ?atOnce⟩, fun p g s h hd => ?ends⟩,
    ⟨fun p w m n s hw hpkg hq hcount htime => ⟨_, ?satisfied, State.testLocal_takes hq hcount htime⟩, fun p w at_ s hw hpkg hgrant hat => ?granted,
      fun p s h => ?stays⟩,
    fun p w s hw hgrant hexp => ?expires, fun p s h => ?waitsOn⟩
  case waits =>
    cases pkg with
    | true =>
      obtain ⟨t, planned, hexec, hctx, hregs, hhub⟩ := exec_flagWait_pkg h hd
      obtain ⟨hwait, hrun, hidx, hcan, hsame⟩ := waits_begun hctx
      exact ⟨t, _, hexec, hwait, rfl, rfl, rfl, rfl, rfl, hrun, hidx, hcan, hsame, hregs, hhub⟩
    | false =>
      obtain ⟨t, planned, hexec, hctx, hregs, hhub⟩ := exec_flagWait_local h hd (hwaits.resolve_left Bool.false_ne_true)
      obtain ⟨hwait, hrun, hidx, hcan, hsame⟩ := waits_begun hctx
      exact ⟨t, _, hexec, hwait, rfl, rfl, rfl, rfl, rfl, hrun, hidx, hcan, hsame, hregs, hhub.trans (List.append_nil _).symm⟩
  case atOnce =>
    subst hpkg
    exact exec_flagWait_takes h hd hq hcount htime
  case ends =>
    refine ⟨_, congrArg Host.Outcome.next (State.issueFirm_on h hd), OnlyCtx.setCtx .., State.ctx_setCtx_same .., fun i => ?_⟩
    exact State.canIssue_hindered i fun hu => by simpa using hu.ended
  case satisfied =>
    refine congrArg Host.Outcome.next ?_
    simp only [hw, hpkg, Bool.false_eq_true, if_false]
  case granted =>
    refine ⟨s.endWait p w (s.cycle - 3), congrArg Host.Outcome.next ?_, OnlyCtx.setCtx .., State.ctx_setCtx_same ..⟩
    simp only [hw, hpkg, hgrant, hat, if_true]
  case stays =>
    refine congrArg Host.Outcome.next ?_
    cases hw : (s.ctx p).wait with
    | none => rfl
    | some w =>
      have hleft := h w hw
      cases hpkg : w.pkg with
      | true =>
        rw [hpkg, if_pos rfl] at hleft
        cases hgrant : w.grant with
        | none => simp only [hpkg, hgrant, if_true]
        | some at_ => simp only [hpkg, hgrant, if_true, Nat.not_le.mpr (hleft at_ hgrant), if_false]
      | false =>
        rw [hpkg, if_neg Bool.false_ne_true] at hleft
        simp only [hpkg, Bool.false_eq_true, if_false]
        exact State.testLocal_waits fun q hq => hleft.symm.imp_left fun hlt => hlt q hq
  case expires =>
    have hctx := s.ctx_expireWait p w
    refine ⟨s.expireWait p w, congrArg Host.Outcome.next ?_, congrArg Ctx.wait hctx, congrArg Ctx.run hctx, by rw [hctx], ?_,
      s.last_expireWait p w, s.timeout_flagged p w, fun i => State.canIssue_stopped i (congrArg Ctx.run hctx) (congrArg Ctx.blocked hctx),
      by simp only [State.regsOf, hctx], fun q hq => s.prog_expireWait_ne p w hq, fun o ho => ?_, s.flagVal_expireWait p w⟩
    · simp only [hw, hgrant, hexp, Option.isNone_none, and_self, if_true]
    · simp [hctx]
    · rw [s.hubWaits_expireWait p w] at ho
      exact of_decide_eq_true (List.mem_filter.mp ho).2
  case waitsOn =>
    refine congrArg Host.Outcome.next ?_
    cases hw : (s.ctx p).wait with
    | none => rfl
    | some w =>
      refine if_neg fun ⟨hgrant, hexp⟩ => ?_
      exact (h w hw).elim (fun hne => hne (Option.isNone_iff_eq_none.mp hgrant)) fun hlt => absurd hexp (Nat.not_le.mpr hlt)

end Sys2Proof.Machine
end

section
/-! SUPPORT. The engine queues (R88, R98, R209, R210, R225): a command that finds its queue full, the context that stalls with it, and the head that
may not start; then the obligation on them (O19). -/

namespace Sys2Proof.Machine
namespace State

section
variable (s : State) (p : Nat)

/-- A command counts in the innermost epoch, and nothing else of its context changes. -/
theorem ctx_countCmd : ∃ es, (s.countCmd p).ctx p = { s.ctx p with epochs := es } ∧ es.length = (s.ctx p).epochs.length := by
  cases h : (s.ctx p).epochs with
  | nil => exact ⟨[], by rw [countCmd, h]; simp only [← h], rfl⟩
  | cons e es => exact ⟨{ e with cmds := e.cmds + 1 } :: es, by rw [countCmd_open h, ctx_setCtx_same], rfl⟩

/-- A command that takes effect finds the epochs, the sequence number and the index of its context as they were. -/
theorem command_counts {u : State} (hu : u = (s.issued p).countCmd p) :
    u.depth p = s.depth p ∧ (u.ctx p).seq = (s.ctx p).seq ∧ (u.ctx p).idx = (s.ctx p).idx := by
  obtain ⟨es, hctx, hlen⟩ := (s.issued p).ctx_countCmd p
  rw [ctx_issued] at hctx hlen
  rw [hu, depth, hctx]
  exact ⟨hlen, rfl, rfl⟩

end

section
variable {s : State} {p m y : Nat} {q : UnitQ} {c : EngCmd}

/-- R209: the queue is full. -/
theorem enterQueue_full (op : EngOp) (h : s.queueRoom m y q = false) : s.enterQueue p m y q op =
    s.setCtx p { s.ctx p with stalled := some (m, y, q, ⟨op, p, s.depth p, (s.ctx p).seq⟩), run := .stalled } :=
  if_neg (Bool.eq_false_iff.mp h)

/-- R210: the context that stalled with a command goes on in a cycle of its own in which there is room. -/
theorem exec_engineQueueStall (h : (s.ctx p).stalled = some (m, y, q, c)) : exec (.engineQueueStall p) s =
    .next (if s.queueRoom m y q && s.ownsCycle p && s.inWork && decide ((s.ctx p).ready ≤ s.cycle) then
      (s.setCtx p { s.ctx p with stalled := none, run := .issuing, ready := s.cycle + 1 }).issueInto m y q c else s) := by
  refine congrArg Host.Outcome.next ?_
  rw [h]

/-! ### What holds the head of a queue back -/

/-- Its queue has started a command in this cycle. -/
theorem canStart_started (h : s.cycle < SMap.get 0 (s.yard m y).started (unitCode q)) : s.canStart m y q c = false := by
  simp [canStart, Nat.not_le.mpr h]

/-- Its unit's rule. -/
theorem canStart_unit (h : s.unitReady m y q c = false) : s.canStart m y q c = false := by simp [canStart, h]

/-- R88: its sail still reads a run. -/
theorem unitReady_reads {n : Nat} {r : SailRun}
    (hop : ∃ mode atype flip bcast first act count entry, c.op = .run mode atype flip bcast first act count entry)
    (hrun : (s.sail m y (n % 4)).run = some r) (h : r.issued < r.count) : s.unitReady m y (.sail n) c = false := by
  obtain ⟨mode, atype, flip, bcast, first, act, count, entry, hop⟩ := hop
  unfold unitReady
  rw [hop]
  show s.sailFree m y (n % 4) = false
  rw [sailFree, hrun]
  exact decide_eq_false (Nat.not_le.mpr h)

/-- Its sail loads. -/
theorem unitReady_loads {n : Nat}
    (hop : (∃ c4 wt, c.op = .load c4 wt) ∨ (∃ weight cbk, c.op = .tld weight cbk) ∨ ∃ weight, c.op = .tcp weight)
    (h : (s.sail m y (n % 4)).load ≠ none) : s.unitReady m y (.sail n) c = false := by
  have hload : (s.sail m y (n % 4)).load.isNone = false := Option.isNone_eq_false_iff.mpr (Option.isSome_iff_ne_none.mpr h)
  unfold unitReady
  rcases hop with ⟨c4, wt, hop⟩ | ⟨weight, cbk, hop⟩ | ⟨weight, hop⟩
  all_goals rw [hop]; exact hload

/-- Its boom has a command in hand. -/
theorem unitReady_boom {n : Nat} (h : (s.boom m y (n % 4)).job ≠ none) : s.unitReady m y (.boom n) c = false := by
  have hjob : (s.boom m y (n % 4)).job.isNone = false := Option.isNone_eq_false_iff.mpr (Option.isSome_iff_ne_none.mpr h)
  unfold unitReady
  cases c.op with
  | epi | chout => exact (congrArg (· && _) hjob).trans (Bool.false_and _)
  | _ => exact hjob

/-- An earlier command of its program that it clashes with waits in a queue. -/
theorem canStart_clash (h : ∃ v ∈ s.yards, ∃ l ∈ v.2.queues, ∃ d ∈ l.2, d.prog = c.prog ∧ d.seq < c.seq ∧ c.op.clash d.op = true) :
    s.canStart m y q c = false := by
  obtain ⟨v, hv, l, hl, d, hd, hprog, hseq, hclash⟩ := h
  have hwaits : s.waitsFor c = true := by
    rw [waitsFor, Bool.or_assoc, Bool.or_eq_true]
    left
    rw [List.any_eq_true]
    refine ⟨v, hv, List.any_eq_true.mpr ⟨l, hl, List.any_eq_true.mpr ⟨d, hd, ?_⟩⟩⟩
    rw [decide_eq_true ⟨hprog, hseq⟩, Bool.true_and, hclash]
  simp [canStart, hwaits]

end
end State

/-- An engine instruction that enters no queue is of a virtual yard that the program does not have. -/
theorem physYard_of_entersQueue {s : State} {p : Nat} {i : Instr} {e : EngineCmd} (hx : entersQueue s p i = none) (he : engineCmd i = some e) :
    s.physYard p e.vyard = none := by
  cases hk : kernelOf i with
  | some k => simp only [entersQueue, hk, reduceCtorEq] at hx
  | none => simpa only [entersQueue, hk, he, Option.map_eq_none_iff] using hx

/-- Settles O19: a command finds its queue full (`State.enterQueue_full`) or has no yard (`physYard_of_entersQueue`), a stalled context goes on
(`State.exec_engineQueueStall`), and a head that may not start waits (`State.exec_engineCommandStart_waits`). -/
theorem engineQueues : Obligations.EngineQueues := by
  unfold Obligations.EngineQueues
  refine ⟨⟨fun i f u s x hf h hd hu hx hfull => ?full, fun i f u s hf h heng hd hu hx => ?absent⟩,
    ⟨fun p m y q c s hstall hprog hroom howns hwork hready => ?resumes, fun p m y q c s hstall hheld => ?stays, fun p s hstall => ?free⟩,
    fun m y q c rest s hq hs => State.exec_engineCommandStart_waits hq hs, fun m y q c s hheld => ?held, fun m y q s hq => ?idle⟩
  case full =>
    obtain ⟨hdepth, hseq, -⟩ := s.command_counts f.prog hu
    rw [exec_entersQueue hf h hd hu hx, State.enterQueue_full _ hfull, hdepth, hseq]
    refine ⟨_, rfl, OnlyCtx.setCtx .., State.ctx_setCtx_same .., fun j => State.canIssue_hindered j fun hun => ?_⟩
    simpa using hun.stalled
  case absent =>
    obtain ⟨-, -, hidx⟩ := s.command_counts f.prog hu
    obtain ⟨e, he⟩ := engineCmd_of_engineOf heng
    rw [exec_engine hf he s, State.issueCmd_on h rfl hd, ← hu, physYard_of_entersQueue hx he]
    exact ⟨_, rfl, OnlyCtx.setCtx .., by rw [State.ctx_advance, hidx]⟩
  case resumes =>
    subst hprog
    rw [State.exec_engineQueueStall hstall, if_pos (by simp [hroom, howns, hwork, hready])]
    refine ⟨_, rfl, (State.queueOf_issueInto ..).trans (if_pos ⟨rfl, rfl⟩), ?outside, ?ctx⟩
    case outside =>
      exact (State.issueInto_keeps (State.setCtx_keeps (Keeps.refl _ s) (Kind.Sub.mono rfl (Kind.Sub.refl _))) (Kind.Sub.refl _)).outside
    case ctx => rw [State.ctx_issueInto, State.ctx_setCtx_same]
  case stays =>
    rw [State.exec_engineQueueStall hstall, if_neg]
    rcases hheld with hroom | howns | hwork | hready
    · simp [hroom]
    · simp [howns]
    · simp [hwork]
    · simp [Nat.not_le.mpr hready]
  case free =>
    refine congrArg Host.Outcome.next ?_
    rw [hstall]
  case held =>
    rcases hheld with hstarted | hreleased | ⟨n, r, rfl, hop, hrun, hlt⟩ | ⟨n, rfl, ⟨c4, wt, hop⟩, hload⟩ |
      ⟨n, rfl, ⟨weight, cbk, hop⟩, hload⟩ | ⟨n, rfl, ⟨weight, hop⟩, hload⟩ | ⟨n, rfl, hjob⟩ | hclash
    · exact State.canStart_started hstarted
    · exact State.canStart_held hreleased
    · exact State.canStart_unit (State.unitReady_reads hop hrun hlt)
    · exact State.canStart_unit (State.unitReady_loads (.inl ⟨c4, wt, hop⟩) hload)
    · exact State.canStart_unit (State.unitReady_loads (.inr (.inl ⟨weight, cbk, hop⟩)) hload)
    · exact State.canStart_unit (State.unitReady_loads (.inr (.inr ⟨weight, hop⟩)) hload)
    · exact State.canStart_unit (State.unitReady_boom hjob)
    · exact State.canStart_clash hclash
  case idle =>
    refine congrArg Host.Outcome.next ?_
    rw [hq]

end Sys2Proof.Machine
end

section
/-! SUPPORT. Run-ahead (R223, R228 to R230): a state whose queue table holds one queue twice; then the obligation on epochs (O12). -/

namespace Sys2Proof.Machine

/-- An epoch whose branch is known to have gone as expected. -/
def knownEpoch : Epoch :=
  { regs := {}, taken := [], idx := 0, disp := 0, bound := 0, expect := true, cond := .eq, a := .imm 0, b := .imm 0, cmds := 0 }

/-- A command that two epochs of program 0 hold. -/
def heldCopy : EngCmd := ⟨.tcp true, 0, 2, 0⟩

/-- A yard whose table of queues names the queue of sail 0 twice: first without a command, then with the one that is held. -/
def twiceNamed : YardSt := { queues := [(0, []), (0, [heldCopy])] }

/-- Program 0 with one epoch open, whose branch is known, in yard 0. -/
def twiceNamedPart : State :=
  { State.reset with progs := [(0, { place := { yards := [0] }, ctx := { epochs := [knownEpoch] } })], yards := [(0, twiceNamed)] }

/-- Before the commit the queue is empty. -/
theorem queueOf_twiceNamedPart : twiceNamedPart.queueOf 0 0 (.sail 0) = [] := rfl

/-- The commit leaves empty queues out of the table, and the command that stood behind the first entry is in the queue. -/
theorem queueOf_commit_twiceNamedPart : (twiceNamedPart.resolve 0).queueOf 0 0 (.sail 0) = [{ heldCopy with spec := 1 }] := by decide

/-- Refutes O12: the clause on the outermost epoch's commit speaks of every state, and in one whose queue table is not canonical it fails.
`twiceNamedPart` reads the queue of sail 0 as empty, so none of its commands is held by more than one epoch; its commit drops the empty entry, and
a command that an epoch still holds stands in the queue (`queueOf_commit_twiceNamedPart`). A hypothesis that a
yard's table names no queue twice would exclude it. -/
theorem not_runAhead : ¬ Obligations.RunAhead := by
  unfold Obligations.RunAhead
  rintro ⟨-, -, hcommits, -, -⟩
  obtain ⟨t, hexec, -, -, -, -, -, hfree⟩ := hcommits 0 knownEpoch 0 0 twiceNamedPart rfl rfl rfl (by decide)
  have ht : twiceNamedPart.resolve 0 = t := Host.Outcome.next.inj hexec
  have hnone : ∀ c ∈ twiceNamedPart.queueOf 0 0 (.sail 0), c.prog = 0 → c.spec ≤ 1 := by simp [queueOf_twiceNamedPart]
  have hleft := hfree 0 (List.mem_singleton_self 0) (.sail 0) hnone { heldCopy with spec := 1 }
  rw [← ht, queueOf_commit_twiceNamedPart] at hleft
  exact absurd (hleft (List.mem_singleton_self _) rfl) (by decide)

end Sys2Proof.Machine
end

section
/-! SUPPORT. The doorbells of the load mailboxes (R254, R260): what a busy mailbox, a bad field, another request and a requester without
reach come to; then the statement on them. -/

namespace Sys2Proof.Machine
namespace State

section
variable {n cmd : Nat} {s u : State}

/-- A doorbell that its requester cannot reach changes nothing (R262). -/
theorem viaMbox_of_unreached (h : ∀ u, ¬ EntersMbox n s u) (f : State → State) : s.viaMbox n f = s := by
  by_cases hn : n < 2
  · exact (if_pos hn).trans (if_neg fun hup => h _ (.inl ⟨hn, hup, rfl⟩))
  · exact (if_neg hn).trans (if_neg fun ⟨hlt, hup⟩ => h _ (.inr ⟨Nat.le_of_not_lt hn, hlt, hup, rfl⟩))

/-- The doorbell of a busy mailbox sets the drop bit, whatever the mailbox holds. -/
theorem submit_of_busy (h : EntersMbox n s u) (hbusy : u.mboxBusy n = true) : s.submit n cmd = u.put (rid .admMboxStat n) 2 1 1 :=
  (viaMbox_of_enters h _).trans ((if_pos (Bool.or_eq_true_iff.mpr (.inl hbusy))).trans (if_pos hbusy))

/-- The doorbell command of a request that the mailbox does not hold. -/
theorem submit_of_other (h : EntersMbox n s u) (hidle : u.mboxBusy n = false) (hother : u.mboxCmd n ≠ cmd) : s.submit n cmd = u :=
  (viaMbox_of_enters h _).trans (if_neg fun hholds =>
    (Bool.or_eq_true_iff.mp hholds).elim (Bool.eq_false_iff.mp hidle) fun hcmd => hother (of_decide_eq_true hcmd))

/-- A request with a bad field is answered with its offset. -/
theorem accept_of_fault {o : Nat} (hidle : u.mboxBusy n = false) (hfault : commandFault (u.mboxReq n) = some o) :
    u.accept n = (u.put (rid .admMboxStat n) 0 1 1).respond n (refuse 0x33 0 0xFFFF o) := by
  refine (if_neg (Bool.eq_false_iff.mp hidle)).trans ?_
  dsimp only
  rw [mboxReq_put_stat, hfault]

end

theorem fld_setWidth_mod (x : Nat) : fld ((BitVec.ofNat 32 (x % 2 ^ 32)).setWidth 64) 0 32 = x % 2 ^ 32 := by
  have hlt : x % 2 ^ 32 < 2 ^ 32 := Nat.mod_lt _ (Nat.two_pow_pos 32)
  unfold fld
  rw [BitVec.toNat_setWidth, BitVec.toNat_ofNat, Nat.mod_mod, Nat.mod_eq_of_lt (hlt.trans (by decide)), pow_zero, Nat.div_one, Nat.mod_mod]

section
variable (s : State) (n : Nat) (r : Resp)

theorem get_detail_respond : (s.respond n r).get (rid .admMboxResp n 2) 0 32 = r.detail % 2 ^ 32 := by
  have hbytes : leAt (s.respBytes n r) 8 4 = leAt (leN 4 r.detail) 0 4 := congrArg (leAt · 8 4) (respBytes_eq s n r)
  have hword : leWord (s.respBytes n r) 2 = BitVec.ofNat 32 (r.detail % 2 ^ 32) :=
    congrArg (BitVec.ofNat 32) (hbytes.trans (leFold_leN 4 r.detail))
  exact (congrArg (fld · 0 32) ((reg_respond_word _ _ _ (by decide)).trans (congrArg (BitVec.setWidth 64) hword))).trans (fld_setWidth_mod r.detail)

theorem last_respond : (s.respond n r).events.last = 0x0927 := last_raise ..

@[simp] theorem rig_respond : (s.respond n r).rig = s.rig := (respond_keeps (Keeps.refl [.regs, .events] s) (Kind.Sub.refl _)).outside .rig (by decide)

@[simp] theorem progs_respond : (s.respond n r).progs = s.progs :=
  (respond_keeps (Keeps.refl [.regs, .events] s) (Kind.Sub.refl _)).outside .progs (by decide)

end
end State

theorem exec_of_submit {c : (Nat → Instr) × Nat} (hc : c ∈ mailboxCommands) {n : Nat} {s t : State} (h : s.submit n c.2 = t) :
    exec (c.1 n) s = .next t := (exec_mailboxCommand hc n s).trans (congrArg Host.Outcome.next h)

/-- Settles O38: a doorbell that reaches its mailbox submits the request, and what comes of it rests on the busy bit, the command that the
mailbox holds, and the first bad field. -/
theorem mailboxes : Obligations.Mailboxes := by
  unfold Obligations.Mailboxes
  intro c hc n s
  refine ⟨fun u hin => ⟨fun hbusy => ?busy, fun o hidle hcmd hfault => ?fault, fun hidle hother => ?other⟩, fun h => ?unreached⟩
  case busy => exact ⟨_, exec_of_submit hc (State.submit_of_busy hin hbusy), SetsField.put _ _ (by decide) (by decide)⟩
  case fault =>
    exact ⟨_, exec_of_submit hc ((State.submit_of_idle hin hcmd).trans (State.accept_of_fault hidle hfault)),
      State.refused_respond _ _ _ _ _ _ (by decide), State.get_detail_respond .., State.last_respond .., State.rig_respond ..,
      State.progs_respond .., State.queue_respond ..⟩
  case other => exact exec_of_submit hc (State.submit_of_other hin hidle hother)
  case unreached => exact exec_of_submit hc (State.viaMbox_of_unreached h _)

end Sys2Proof.Machine
end

section
/-! SUPPORT. `AdmRows s t`: the registers of the programs' states and of the mailboxes are in `t` as they are in `s`. What admits a program or
answers another mailbox leaves them; one lemma for each operation, in the order of the definitions. The helper definitions here and below are for
proofs alone, and `noncomputable` keeps code for them out. -/

namespace Sys2Proof.Machine

/-- The registers of the programs' states, and those in which a mailbox holds its request, its status and its response. -/
noncomputable def isAdmRow (n : RegName) : Bool := [RegName.admProgA, .admMboxReq, .admMboxStat, .admMboxResp].contains n

/-- The programs' states and the mailboxes are kept. -/
def AdmRows (s t : State) : Prop := ∀ r, isAdmRow r.name = true → t.reg r = s.reg r

theorem ne_of_admRow {r q : RegId} (hr : isAdmRow r.name = false) (hq : isAdmRow q.name = true) : q ≠ r := fun e => by
  rw [e, hr] at hq
  exact absurd hq Bool.false_ne_true

section
variable {s₀ s t : State}

theorem State.mboxReq_congr {n : Nat} (h : ∀ w, t.reg (rid .admMboxReq n w) = s.reg (rid .admMboxReq n w)) : t.mboxReq n = s.mboxReq n :=
  List.flatMap_congr fun w _ => congrArg (fun v => leN 4 (fld v 0 32)) (h w)

theorem AdmRows.refl (s : State) : AdmRows s s := fun _ _ => rfl

theorem AdmRows.trans (h : AdmRows s₀ s) (k : AdmRows s t) : AdmRows s₀ t := fun r hr => (k r hr).trans (h r hr)

/-- An update of fields other than the registers. -/
theorem AdmRows.other (h : AdmRows s₀ s) (hregs : t.regs = s.regs) (hpart : t.part = s.part) : AdmRows s₀ t :=
  h.trans fun r _ => State.reg_congr hregs hpart r

/-- An operation that changes no register. -/
theorem AdmRows.outside {ks : List Kind} (h : AdmRows s₀ s) (hk : Keeps ks s t) (hn : Kind.regs ∉ ks) : AdmRows s₀ t :=
  h.other (hk.outside .regs hn) hk.part

theorem AdmRows.setReg (h : AdmRows s₀ s) {r : RegId} {v : BitVec 64} (hr : isAdmRow r.name = false) : AdmRows s₀ (s.setReg r v) :=
  h.trans fun _ hq => State.reg_setReg_ne s v (ne_of_admRow hr hq)

theorem AdmRows.put (h : AdmRows s₀ s) {r : RegId} {lo w x : Nat} (hr : isAdmRow r.name = false) : AdmRows s₀ (s.put r lo w x) := h.setReg hr

theorem AdmRows.ite {c : Prop} [Decidable c] {a b : State} (ha : AdmRows s₀ a) (hb : AdmRows s₀ b) : AdmRows s₀ (if c then a else b) := by
  split <;> assumption

theorem AdmRows.foldl {α : Type} {f : State → α → State} (hf : ∀ s x, AdmRows s₀ s → AdmRows s₀ (f s x)) (l : List α) (h : AdmRows s₀ s) :
    AdmRows s₀ (l.foldl f s) :=
  List.foldlRecOn (motive := AdmRows s₀) l f h fun s hs x _ => hf s x hs

section
variable (h : AdmRows s t)
include h

theorem AdmRows.get {r : RegId} (lo w : Nat) (hr : isAdmRow r.name = true) : t.get r lo w = s.get r lo w := congrArg (fld · lo w) (h r hr)

theorem AdmRows.progState (p : Nat) : t.progState p = s.progState p := h.get 0 2 rfl

theorem AdmRows.mboxBusy (n : Nat) : t.mboxBusy n = s.mboxBusy n := congrArg (bit · 0) (h (rid .admMboxStat n) rfl)

theorem AdmRows.mboxReq (n : Nat) : t.mboxReq n = s.mboxReq n := State.mboxReq_congr fun _ => h _ rfl

theorem AdmRows.refused {n reason : Nat} (hr : Refused s n reason) : Refused t n reason where
  idle := (h.mboxBusy n).trans hr.idle
  done := (h.get 1 1 rfl).trans hr.done
  status := (h.get 8 8 rfl).trans hr.status
  reason := (h.get 0 8 rfl).trans hr.reason

end

namespace State

/-! ### Events and memory -/

theorem raise_rows (h : AdmRows s₀ s) {c d u hd a b : Nat} : AdmRows s₀ (s.raise c d u hd a b) :=
  h.trans fun _ hq => reg_raise s _ _ _ _ _ _ (ne_of_admRow rfl hq) (ne_of_admRow rfl hq)

theorem eccWrite_rows (h : AdmRows s₀ s) {a n w : Nat} : AdmRows s₀ (s.eccWrite a n w) := by
  unfold eccWrite
  extract_lets whole old
  clear_value whole old
  cases hinj : s.injectAt (8 * w) with
  | none => exact h.other rfl rfl
  | some q => exact AdmRows.put (h.trans fun _ _ => rfl) (congrArg isAdmRow (injectAt_name hinj))

theorem eccWrites_rows (h : AdmRows s₀ s) {a n w k : Nat} : AdmRows s₀ (s.eccWrites a n w k) := by
  induction k with
  | zero => exact h
  | succ k ih => exact eccWrite_rows ih

theorem store_rows (h : AdmRows s₀ s) {a : Nat} {bs : List Byte} : AdmRows s₀ (s.store a bs) := by
  have hpoke : AdmRows s₀ (s.poke a bs) := h.other rfl rfl
  exact AdmRows.ite h (eccWrites_rows hpoke)

theorem takeFree_rows (h : AdmRows s₀ s) {n : Nat} : AdmRows s₀ (s.takeFree n) := h.other rfl rfl

/-! ### What an admitted program's tables are filled with (R118, R164, R203, R281) -/

theorem fillContexts_rows (h : AdmRows s₀ s) {pl : Placement} : AdmRows s₀ (s.fillContexts pl) :=
  AdmRows.foldl (fun _ _ h => AdmRows.foldl (fun _ _ h => h.put rfl) _ (h.setReg rfl)) _ h

theorem fillFlags_rows (h : AdmRows s₀ s) {c : Container} {pl : Placement} : AdmRows s₀ (s.fillFlags c pl) :=
  AdmRows.foldl (fun _ _ h => h.put rfl) _ (AdmRows.foldl (fun _ _ h => h.put rfl) _ h)

theorem fillTables_rows (h : AdmRows s₀ s) {c : Container} {pl : Placement} : AdmRows s₀ (s.fillTables c pl) :=
  AdmRows.foldl (fun _ _ h => ((((h.setReg rfl).setReg rfl).setReg rfl).setReg rfl).setReg rfl) _ h

theorem fillSource_rows (h : AdmRows s₀ s) {t : Tensor} {pl : TensorPlace} {prov : Bool} : AdmRows s₀ (s.fillSource t pl prov) := by
  unfold fillSource
  exact takeFree_rows (AdmRows.put (((((h.setReg rfl).setReg rfl).setReg rfl).setReg rfl).setReg rfl) rfl)

theorem fillSources_rows (h : AdmRows s₀ s) {c : Container} {pl : Placement} {prov : Bool} : AdmRows s₀ (s.fillSources c pl prov) :=
  AdmRows.foldl (fun _ _ h => AdmRows.ite (fillSource_rows h) h) _ h

theorem fillTensor_rows (h : AdmRows s₀ s) {t : Tensor} {pl : TensorPlace} {b : List Byte} : AdmRows s₀ (s.fillTensor t pl b) :=
  AdmRows.foldl (fun _ _ h => store_rows h) _ h

theorem fillTensors_rows (h : AdmRows s₀ s) {c : Container} {pl : Placement} : AdmRows s₀ (s.fillTensors c pl) :=
  AdmRows.foldl (fun _ _ h => AdmRows.ite (fillTensor_rows h) (AdmRows.ite (fillTensor_rows h) h)) _ h

end State
end
end Sys2Proof.Machine
end

section
/-! SUPPORT. Load-type requests at an idle mailbox with nothing before them (R239, R240, R243, R247, R255): what the head of the queue comes to for
each request, and what an admitted program's registers and record say; then the statement on them. -/

namespace Sys2Proof.Machine

/-- What waits for a unit that is up and for nothing in hand does not wait. -/
theorem not_waiting {α : Type} {up : Bool} {o : Option α} (hup : up = true) (ho : o = none) : ¬ (!up || o.isSome) = true := by
  subst hup ho
  exact Bool.false_ne_true

theorem rid_ne {a b : RegName} {k l k' l' : Nat} (h : a ≠ b) : rid a k l ≠ rid b k' l' := fun e => h (congrArg RegId.name e)

namespace State

/-! ### The only request in the queue -/

/-- What is left of the queue's only request: it leaves the queue where it is complete, and the TP is idle again. -/
noncomputable def onlyServed (r : State × Bool) : State :=
  if r.2 then ({ r.1 with rig := { r.1.rig with queue := [] } }).put (rid .admTpStat) 0 1 0 else r.1

/-- A request of command `c` that is taken. -/
noncomputable def take (s : State) (n c : Nat) : State :=
  match c with
  | 3 | 6 => s.acceptLaunch n
  | 4 => s.acceptUnload n
  | _ => (s.joinLoads n).serveAll

/-- The service of a request of command `c`. -/
noncomputable def serve (s : State) (n c : Nat) : State × Bool :=
  match c with
  | 1 => s.serveRig n
  | 2 => s.serveProg n
  | 4 => s.serveUnload n
  | _ => s.serveRevert n

section
variable {s u : State} {n c : Nat}

theorem queue_joinLoads (h : s.rig.queue = []) : (s.joinLoads n).rig.queue = [n] := by
  unfold joinLoads
  dsimp only
  rw [h]
  rfl

theorem serveAll_one (h : s.rig.queue = [n]) : s.serveAll = onlyServed ((s.put (rid .admTpStat) 0 1 1).serveHead n) := by
  unfold serveAll serveFuel
  rw [h]
  rfl

theorem mboxCmd_put_stat (k lo w x : Nat) : (u.put (rid .admMboxStat k) lo w x).mboxCmd n = u.mboxCmd n := congrArg (leAt · 0 1) (mboxReq_put_stat ..)

/-- A request with no bad field is taken by its command. -/
theorem accept_of_valid (hidle : u.mboxBusy n = false) (hfault : commandFault (u.mboxReq n) = none) (hcmd : u.mboxCmd n = c) :
    u.accept n = (u.put (rid .admMboxStat n) 0 1 1).take n c := by
  refine (if_neg (Bool.eq_false_iff.mp hidle)).trans ?_
  dsimp only
  rw [mboxReq_put_stat, hfault]
  exact congrArg (take _ n) ((mboxCmd_put_stat ..).trans hcmd)

/-- With no rig to settle, a request is served by its command. -/
theorem serveHead_of_cmd (hsettle : s.rig.settle = none) (hcmd : s.mboxCmd n = c) : s.serveHead n = s.serve n c :=
  (if_neg (by rw [hsettle]; exact Bool.false_ne_true)).trans (congrArg (s.serve n) hcmd)

/-- What is complete leaves the queue empty, and the mailboxes as its service left them. -/
theorem onlyServed_rows (s : State) : AdmRows s (onlyServed (s, true)) := (AdmRows.other (AdmRows.refl s) rfl rfl).put rfl

theorem cur_onlyServed (s : State) : (onlyServed (s, true)).rig.cur = s.rig.cur := rfl

theorem staged_onlyServed (s : State) : (onlyServed (s, true)).rig.staged = s.rig.staged := rfl

theorem progs_onlyServed (s : State) : (onlyServed (s, true)).progs = s.progs := rfl

/-- Taking a request changes its mailbox's status only. -/
theorem taken_rows (u : State) (n : Nat) : AdmRows (u.put (rid .admMboxStat n) 0 1 1) (taken u n) :=
  ((AdmRows.refl _).outside (joinLoads_keeps (Keeps.refl [.rig] _) (Kind.Sub.refl _)) (by decide)).put rfl

theorem mboxReq_taken : (taken u n).mboxReq n = u.mboxReq n := ((taken_rows u n).mboxReq n).trans (mboxReq_put_stat ..)

theorem mboxBusy_taken : (taken u n).mboxBusy n = true := ((taken_rows u n).mboxBusy n).trans (bit_put_one u _ 1 (by decide))

/-- A load-type request other than UNLOAD, at an idle mailbox with nothing before it, comes to what its service comes to. -/
theorem exec_load {q : (Nat → Instr) × Nat} (hq : q ∈ mailboxCommands) (htake : ∀ t : State, t.take n q.2 = (t.joinLoads n).serveAll)
    (hin : EntersMbox n s u) (hidle : u.mboxBusy n = false) (hqueue : u.rig.queue = []) (hsettle : u.rig.settle = none)
    (hfault : commandFault (u.mboxReq n) = none) (hcmd : u.mboxCmd n = q.2) {r : State × Bool} (hserve : (taken u n).serve n q.2 = r) :
    exec (q.1 n) s = .next (onlyServed r) := by
  have hhead : (taken u n).serveHead n = r :=
    (serveHead_of_cmd (s := taken u n) hsettle ((congrArg (leAt · 0 1) mboxReq_taken).trans hcmd)).trans hserve
  have hjoined : ((u.put (rid .admMboxStat n) 0 1 1).joinLoads n).rig.queue = [n] := queue_joinLoads hqueue
  have hserved : u.accept n = onlyServed ((taken u n).serveHead n) :=
    (accept_of_valid hidle hfault hcmd).trans ((htake _).trans (serveAll_one hjoined))
  exact exec_of_submit hq ((submit_of_idle hin hcmd).trans (hserved.trans (congrArg onlyServed hhead)))

section
variable (hin : EntersMbox n s u) (hidle : u.mboxBusy n = false) (hqueue : u.rig.queue = []) (hsettle : u.rig.settle = none)
    (hfault : commandFault (u.mboxReq n) = none) {r : State × Bool}
include hin hidle hqueue hsettle hfault

theorem exec_loadRig (hcmd : u.mboxCmd n = 1) (hserve : (taken u n).serveRig n = r) : exec (.loadRig n) s = .next (onlyServed r) :=
  exec_load (q := (.loadRig, 1)) (.head _) (fun _ => rfl) hin hidle hqueue hsettle hfault hcmd hserve

theorem exec_loadProg (hcmd : u.mboxCmd n = 2) (hserve : (taken u n).serveProg n = r) : exec (.loadProg n) s = .next (onlyServed r) :=
  exec_load (q := (.loadProg, 2)) (.tail _ (.head _)) (fun _ => rfl) hin hidle hqueue hsettle hfault hcmd hserve

theorem exec_revert (hcmd : u.mboxCmd n = 5) (hserve : (taken u n).serveRevert n = r) : exec (.revert n) s = .next (onlyServed r) :=
  exec_load (q := (.revert, 5)) (.tail _ (.tail _ (.tail _ (.tail _ (.head _))))) (fun _ => rfl) hin hidle hqueue hsettle hfault hcmd hserve

end

/-- The rig store of a request taken differs in its queue only. -/
theorem cur_of_taken {g : RigSt} (hg : g = (taken u n).rig) : g.cur = u.rig.cur := hg ▸ rfl

end

/-! ### Refusals (R239, R247) -/

section
variable (s : State) (n : Nat)

theorem refuseLoad_keepsRest (r : Resp) : Keeps [.regs, .events] s (s.refuseLoad n r) := refuseLoad_keeps (Keeps.refl _ s) (Kind.Sub.refl _)

theorem rig_refuseLoad (r : Resp) : (s.refuseLoad n r).rig = s.rig := (refuseLoad_keepsRest s n r).outside .rig (by decide)

theorem progs_refuseLoad (r : Resp) : (s.refuseLoad n r).progs = s.progs := (refuseLoad_keepsRest s n r).outside .progs (by decide)

/-- A refused request is complete. -/
theorem refused_refuseLoad {r : Resp} (h : r.status = 1) : Refused (onlyServed (s.refuseLoad n r, true)) n (r.reason % 256) :=
  (onlyServed_rows _).refused
    { idle := mboxBusy_respond .., done := get_done_respond .., status := (get_status_respond ..).trans (by rw [h]), reason := get_reason_respond .. }

end

/-! ### LOAD_PROG (R244, R247, R253, R256) -/

section
variable {v : State} {n p : Nat} {img : List Byte}

theorem serveProg_waits (h : v.up 2 = false ∨ v.copying ≠ none) : v.serveProg n = (v, false) :=
  if_pos (Bool.or_eq_true_iff.mpr (h.imp (congrArg Bool.not) Option.isSome_iff_ne_none.mpr))

theorem serveProg_got (hup : v.up 2 = true) (hcopy : v.copying = none) (hfetch : v.fetchImage n 31 = .got img)
    (hsp : v.wantsSp ((sectAt img (boxSects img) 8).isSome || v.fuse 1 || v.policy 0) = false) : v.serveProg n = v.loadProg n img := by
  refine (if_neg (not_waiting hup hcopy)).trans ?_
  rw [hfetch]
  exact if_neg (Bool.eq_false_iff.mp hsp)

theorem loadProg_refused {r : Resp} (hbad : (v.verdict img (parseBox img) (leAt (v.mboxReq n) 0x24 1)).bad = some r) (hstep : r.step < 14) :
    v.loadProg n img = (v.refuseLoad n r, true) := by
  unfold loadProg
  dsimp only
  rw [hbad]
  exact congrArg (fun t : State => (t.refuseLoad n r, true)) (if_neg (Nat.not_le_of_lt hstep))

theorem loadProg_admits (hgood : (v.verdict img (parseBox img) (leAt (v.mboxReq n) 0x24 1)).bad = none) (hload : leAt (v.mboxReq n) 1 1 % 2 = 0)
    (hfree : v.freeNumber = some p) :
    v.loadProg n img = (v.admitProg n p (parseBox img) (v.verdict img (parseBox img) (leAt (v.mboxReq n) 0x24 1)).place, false) := by
  unfold loadProg
  dsimp only
  rw [hgood, hfree]
  exact if_neg fun h => Nat.zero_ne_one (hload.symm.trans h)

end

/-! ### An admitted program (R253, R256) -/

/-- The masts of a placement, one bit each. -/
noncomputable def mastMask (pl : Placement) : Nat := (pl.slots.map (·.1)).eraseDups.foldl (fun n m => n + 2 ^ m) 0

theorem mastMask_lt {pl : Placement} (h : ∀ q ∈ pl.slots, q.1 < 7) : mastMask pl < 2 ^ 7 := by
  have hsum : mastMask pl = ∑ m ∈ (pl.slots.map (·.1)).eraseDups.toFinset, 2 ^ m := by
    rw [List.sum_toFinset _ (nodup_eraseDups _), List.sum_eq_foldl, List.foldl_map]
    rfl
  rw [hsum]
  exact Nat.geomSum_lt (by decide) fun m hm => by
    obtain ⟨q, hq, rfl⟩ := List.mem_map.mp (List.mem_eraseDups.mp (List.mem_toFinset.mp hm))
    exact h q hq

/-- The register of the state of a program: admitted and not launched, its masts, and its handle. -/
noncomputable def admitWord (m h : Nat) : BitVec 64 := BitVec.ofNat 64 (1 + m * 8 + h * 2 ^ 16)

theorem fld_state_ofNat (x : Nat) : fld (BitVec.ofNat 64 x) 0 2 = x % 4 := by
  unfold fld
  rw [BitVec.toNat_ofNat, pow_zero, Nat.div_one]
  exact Nat.mod_mod_of_dvd x (by decide)

theorem fld_number_ofNat (x : Nat) : fld (BitVec.ofNat 64 x) 16 16 % 64 = x / 2 ^ 16 % 64 := by
  unfold fld
  rw [BitVec.toNat_ofNat, Nat.mod_mod_of_dvd _ (by decide), show (2 ^ 64 : Nat) = 2 ^ 16 * 2 ^ 48 from rfl, Nat.mod_mul_right_div_self]
  exact Nat.mod_mod_of_dvd _ (by decide)

theorem state_admitWord (m h : Nat) : fld (admitWord m h) 0 2 = 1 := by
  have hrest : 4 ∣ m * 8 + h * 2 ^ 16 := (Dvd.dvd.mul_left (by decide) m).add (Dvd.dvd.mul_left (by decide) h)
  exact (fld_state_ofNat _).trans ((congrArg (· % 4) (Nat.add_assoc ..)).trans
    (Nat.add_mod_eq_add_mod_left (b := 0) 1 (Nat.mod_eq_zero_of_dvd hrest)))

theorem number_admitWord {m p : Nat} (hm : m < 2 ^ 7) (hp : p < 64) (k : Nat) : fld (admitWord m (p + 64 * k)) 16 16 % 64 = p := by
  have hlow : 1 + m * 8 < 2 ^ 16 := (Nat.add_lt_add_left (Nat.mul_lt_mul_of_pos_right hm (by decide)) 1).trans (by decide)
  refine (fld_number_ofNat _).trans ?_
  rw [Nat.add_mul_div_right _ _ (by decide), Nat.div_eq_of_lt hlow, Nat.zero_add, Nat.add_mul_mod_self_left, Nat.mod_eq_of_lt hp]

section
variable (s : State) (n p : Nat) (c : Container) (pl : Placement)

/-- An admission writes one program's state and no mailbox. -/
theorem admitProg_rows : AdmRows (s.setReg (rid .admProgA p) (admitWord (mastMask pl) (p + 64 * SMap.get 1 s.serials p))) (s.admitProg n p c pl) := by
  unfold admitProg
  extract_lets serial h prov g s1 s2 s3
  have hrecord : AdmRows (s.setReg (rid .admProgA p) (admitWord (mastMask pl) h))
      ((s1.setProg p g).setReg (rid .admProgA p) (admitWord (mastMask pl) h)) := (AdmRows.refl _).other rfl rfl
  have hadm : AdmRows (s.setReg (rid .admProgA p) (admitWord (mastMask pl) h)) ((s1.setProg p g).fillAdm p h c pl) :=
    AdmRows.put (AdmRows.put (AdmRows.put (hrecord.setReg rfl) rfl) rfl) rfl
  exact raise_rows (fillTensors_rows (fillSources_rows (fillTables_rows (fillFlags_rows (fillContexts_rows hadm)))))

theorem progState_admitProg : (s.admitProg n p c pl).progState p = 1 :=
  ((admitProg_rows s n p c pl).progState p).trans ((congrArg (fld · 0 2) (reg_setReg_same ..)).trans (state_admitWord ..))

theorem number_admitProg (hmasts : ∀ q ∈ pl.slots, q.1 < 7) (hp : p < 64) : (s.admitProg n p c pl).get (rid .admProgA p) 16 16 % 64 = p :=
  (congrArg (fld · 16 16 % 64) ((admitProg_rows s n p c pl _ rfl).trans (reg_setReg_same ..))).trans (number_admitWord (mastMask_lt hmasts) hp _)

theorem mboxBusy_admitProg : (s.admitProg n p c pl).mboxBusy n = s.mboxBusy n :=
  ((admitProg_rows s n p c pl).mboxBusy n).trans (congrArg (bit · 0) (reg_setReg_ne _ _ (rid_ne (by decide))))

/-- Filling an admitted program's tables changes no program. -/
theorem progs_filled (h : Nat) (prov : Bool) :
    ((((((s.fillAdm p h c pl).fillContexts pl).fillFlags c pl).fillTables c pl).fillSources c pl prov).fillTensors c pl).progs = s.progs := by
  have hregs : Kind.Sub [.regs] [.regs, .mem, .ecc, .free] := Kind.Sub.mono rfl (Kind.Sub.refl _)
  exact (fillTensors_keeps (fillSources_keeps (fillTables_keeps (fillFlags_keeps (fillContexts_keeps (fillAdm_keeps (Keeps.refl _ _) hregs) hregs)
    hregs) hregs) (Kind.Sub.mono rfl (Kind.Sub.refl _))) (Kind.Sub.mono rfl (Kind.Sub.refl _))).outside .progs (by decide)

/-- The record of a program admitted now holds its image, and its context does not run. -/
theorem box_admitProg : ((s.admitProg n p c pl).prog p).box = c :=
  congrArg Prog.box ((prog_congr ((progs_raise ..).trans (progs_filled ..)) p).trans (prog_setProg_same ..))

theorem ctx_admitProg : ((s.admitProg n p c pl).ctx p).active = false :=
  congrArg (·.ctx.active) ((prog_congr ((progs_raise ..).trans (progs_filled ..)) p).trans (prog_setProg_same ..))

end

/-! ### LOAD_RIG and REVERT (R240, R243) -/

/-- A rig change that has been accepted and waits for its step 6 (R240, R243). -/
noncomputable def awaitsStep6 (s : State) (g : RigSt) : State := ({ s with rig := g }).put (rid .admRigStat) 2 1 1

section
variable (v : State) (rig : List Byte)

theorem raisePoint_keepsRest : Keeps [.power] v (v.raisePoint rig) := raisePoint_keeps (Keeps.refl _ _) (Kind.Sub.refl _)

theorem tick_raisePoint : (v.raisePoint rig).tick = v.tick := (raisePoint_keepsRest v rig).outside .tick (by decide)

theorem rig_raisePoint : (v.raisePoint rig).rig = v.rig := (raisePoint_keepsRest v rig).outside .rig (by decide)

theorem mboxBusy_awaitsStep6 (n : Nat) (g : RigSt) : ((v.raisePoint rig).awaitsStep6 g).mboxBusy n = v.mboxBusy n :=
  AdmRows.mboxBusy ((AdmRows.other ((AdmRows.refl v).outside (raisePoint_keepsRest v rig) (by decide)) rfl rfl).put rfl) n

end

section
variable {v : State} {n : Nat} {img : List Byte}

theorem serveRig_down (h : v.up 1 = false) : v.serveRig n = (v, false) := if_pos (Bool.or_eq_true_iff.mpr (.inl (congrArg Bool.not h)))

section
variable (hup : v.up 1 = true) (hstaged : v.rig.staged = none) (hfetch : v.fetchImage n 30 = .got img)
    (hsp : v.wantsSp (decide (rigSects img = 13) || v.fuse 0) = false)
include hup hstaged hfetch hsp

theorem serveRig_refused {r : Resp} (hbad : v.rigChecks img = some r) : v.serveRig n = (v.refuseLoad n r, true) := by
  refine (if_neg (not_waiting hup hstaged)).trans ?_
  rw [hfetch]
  refine (if_neg (Bool.eq_false_iff.mp hsp)).trans ?_
  rw [hbad]

theorem serveRig_staged (hgood : v.rigChecks img = none) (hrun : v.tick.phase ≠ .stopped) :
    v.serveRig n = ((v.raisePoint img).awaitsStep6 { v.rig with staged := some (img, n) }, false) := by
  refine (if_neg (not_waiting hup hstaged)).trans ?_
  rw [hfetch]
  refine (if_neg (Bool.eq_false_iff.mp hsp)).trans ?_
  rw [hgood, ← rig_raisePoint v img]
  exact if_neg fun h => hrun (tick_raisePoint v img ▸ h.1)

end

section
variable (hup : v.up 1 = true) (hrevert : v.rig.revert = none)
include hup hrevert

theorem serveRevert_noPrev (hprev : v.rig.prev = []) : v.serveRevert n = (v.respond n (refuse 0x31 0 0xFFFF 0xFFFF), true) :=
  (if_neg (not_waiting hup hrevert)).trans (if_pos (List.isEmpty_iff.mpr hprev))

theorem serveRevert_waits (hprev : v.rig.prev ≠ []) (hrun : v.tick.phase ≠ .stopped) : v.serveRevert n =
    ((v.raisePoint v.rig.prev).awaitsStep6 { v.rig with revert := some (n, decide (leAt (v.mboxReq n) 1 1 / 2 % 2 = 1)) }, false) :=
  (if_neg (not_waiting hup hrevert)).trans ((if_neg fun h => hprev (List.isEmpty_iff.mp h)).trans
    ((if_neg fun h => hrun (tick_raisePoint v v.rig.prev ▸ h.1)).trans (congrArg (fun g : RigSt => ((v.raisePoint v.rig.prev).awaitsStep6
      { g with revert := some (n, decide (leAt (v.mboxReq n) 1 1 / 2 % 2 = 1)) }, false)) (rig_raisePoint v v.rig.prev))))

end
end

/-! ### UNLOAD (R255) -/

section
variable {s t u : State} {n h p : Nat}

/-- A handle names the same program where the programs' states and handles are the same. -/
theorem ofHandle_congr (hstate : t.progState (h % 64) = s.progState (h % 64))
    (hhandle : t.get (rid .admProgA (h % 64)) 16 16 = s.get (rid .admProgA (h % 64)) 16 16) : t.ofHandle h = s.ofHandle h := by
  have hadmitted : t.admitted (h % 64) = s.admitted (h % 64) := congrArg (fun x => decide (h % 64 < 64) && decide (x ≠ 0)) hstate
  have hsame : t.handle (h % 64) = s.handle (h % 64) := by
    unfold handle
    rw [hadmitted, hhandle]
  unfold ofHandle
  dsimp only
  rw [hadmitted, hsame]

theorem ofHandle_rows (hrows : AdmRows s t) : t.ofHandle h = s.ofHandle h := ofHandle_congr (hrows.progState _) (hrows.get 16 16 rfl)

theorem ofHandle_put_stat (k lo w x : Nat) : (u.put (rid .admMboxStat k) lo w x).ofHandle h = u.ofHandle h :=
  ofHandle_congr (get_put_ne _ _ _ _ _ _ (rid_ne (by decide))) (get_put_ne _ _ _ _ _ _ (rid_ne (by decide)))

/-- Marking a program to leave changes no handle. -/
theorem ofHandle_mark : (s.put (rid .admProgA p) 2 1 1).ofHandle h = s.ofHandle h := by
  have hfield : ∀ q lo w : Nat, lo + w ≤ 2 ∨ 2 + 1 ≤ lo →
      (s.put (rid .admProgA p) 2 1 1).get (rid .admProgA q) lo w = s.get (rid .admProgA q) lo w := by
    intro q lo w hapart
    by_cases hq : q = p
    · exact hq ▸ get_put_field _ _ _ hapart
    · exact get_put_ne _ _ _ _ _ _ fun e => hq (congrArg RegId.k e)
  exact ofHandle_congr (hfield _ 0 2 (by decide)) (hfield _ 16 16 (by decide))

/-- The state in which an UNLOAD has marked its program, with nothing before it. -/
noncomputable def unloading (u : State) (n p : Nat) : State :=
  (((u.put (rid .admMboxStat n) 0 1 1).put (rid .admProgA p) 2 1 1).joinLoads n).put (rid .admTpStat) 0 1 1

theorem unloading_rows (u : State) (n p : Nat) :
    AdmRows ((u.put (rid .admMboxStat n) 0 1 1).put (rid .admProgA p) 2 1 1) (unloading u n p) :=
  ((AdmRows.refl _).outside (joinLoads_keeps (Keeps.refl [.rig] _) (Kind.Sub.refl _)) (by decide)).put rfl

theorem mboxReq_unloading : (unloading u n p).mboxReq n = u.mboxReq n :=
  ((unloading_rows u n p).mboxReq n).trans ((mboxReq_congr fun _ => reg_put_ne _ _ _ _ (rid_ne (by decide))).trans (mboxReq_put_stat ..))

theorem mboxBusy_unloading : (unloading u n p).mboxBusy n = true :=
  ((unloading_rows u n p).mboxBusy n).trans ((congrArg (bit · 0) (reg_put_ne _ _ _ _ (rid_ne (by decide)))).trans (bit_put_one u _ 1 (by decide)))

theorem leaving_unloading : (unloading u n p).leaving p = true :=
  (congrArg (bit · 2) (unloading_rows u n p _ rfl)).trans (bit_put_one _ _ 1 (by decide))

theorem ofHandle_unloading : (unloading u n p).ofHandle h = u.ofHandle h :=
  (ofHandle_rows (unloading_rows u n p)).trans (ofHandle_mark.trans (ofHandle_put_stat ..))

/-- The handle of an UNLOAD that is taken names what it named. -/
theorem ofHandle_taken {o : Option Nat} (hh : h = leAt (u.mboxReq n) 0x14 2) (ho : u.ofHandle h = o) :
    (u.put (rid .admMboxStat n) 0 1 1).ofHandle (leAt ((u.put (rid .admMboxStat n) 0 1 1).mboxReq n) 0x14 2) = o := by
  rw [mboxReq_put_stat, ofHandle_put_stat, ← hh, ho]

theorem exec_unload (hin : EntersMbox n s u) (hidle : u.mboxBusy n = false) (hfault : commandFault (u.mboxReq n) = none) (hcmd : u.mboxCmd n = 4)
    (ht : (u.put (rid .admMboxStat n) 0 1 1).acceptUnload n = t) : exec (.unload n) s = .next t :=
  exec_of_submit (c := (.unload, 4)) (.tail _ (.tail _ (.tail _ (.head _)))) ((submit_of_idle hin hcmd).trans
    ((accept_of_valid hidle hfault hcmd).trans ht))

theorem acceptUnload_noProgram (hnone : s.ofHandle (leAt (s.mboxReq n) 0x14 2) = none) :
    s.acceptUnload n = s.respond n (refuse 0x30 0 0xFFFF (leAt (s.mboxReq n) 0x14 2)) := by
  unfold acceptUnload
  dsimp only
  rw [hnone]

/-- An UNLOAD waits as long as its handle names a program. -/
theorem serveUnload_waits (hp : s.ofHandle (leAt (s.mboxReq n) 0x14 2) = some p) : s.serveUnload n = (s, false) := by
  unfold serveUnload
  dsimp only
  rw [hp]

/-- While the generator runs, the program is marked and the request stays. -/
theorem acceptUnload_marks (hh : h = leAt (u.mboxReq n) 0x14 2) (hp : u.ofHandle h = some p) (hstays : u.leaving p = false)
    (hrun : u.tick.phase ≠ .stopped) (hqueue : u.rig.queue = []) (hsettle : u.rig.settle = none) (hcmd : u.mboxCmd n = 4) :
    (u.put (rid .admMboxStat n) 0 1 1).acceptUnload n = unloading u n p := by
  have hstat : (u.put (rid .admMboxStat n) 0 1 1).leaving p = false := (congrArg (bit · 2) (reg_put_ne _ _ _ _ (rid_ne (by decide)))).trans hstays
  have hwaits : (unloading u n p).ofHandle (leAt ((unloading u n p).mboxReq n) 0x14 2) = some p :=
    by rw [mboxReq_unloading, ofHandle_unloading, ← hh, hp]
  have hserve : (unloading u n p).serveHead n = (unloading u n p, false) :=
    (serveHead_of_cmd (s := unloading u n p) hsettle ((congrArg (leAt · 0 1) mboxReq_unloading).trans hcmd)).trans (serveUnload_waits hwaits)
  have hjoined : (((u.put (rid .admMboxStat n) 0 1 1).put (rid .admProgA p) 2 1 1).joinLoads n).rig.queue = [n] := queue_joinLoads hqueue
  unfold acceptUnload
  dsimp only
  rw [ofHandle_taken hh hp]
  exact (if_neg (Bool.eq_false_iff.mp hstat)).trans ((if_neg hrun).trans ((serveAll_one hjoined).trans (congrArg onlyServed hserve)))

end
end State

/-- Settles O40: the request is the queue's only one (`State.exec_load`, `State.acceptUnload_marks`), so it comes to what its service comes to: it
waits, is refused, is admitted, or stands until step 6. -/
theorem loads : Obligations.Loads := by
  unfold Obligations.Loads
  intro n s u hin hidle hqueue hsettle hfault v
  refine ⟨fun hcmd => ⟨fun hwait => ?progWaits, fun img hup hcopy hfetch hsp =>
      ⟨fun p hgood hreal hfree => ?progAdmits, fun r hbad hstep hstatus => ?progRefused⟩⟩,
    fun hcmd => ⟨fun hdown => ?rigWaits, fun img hup hstaged hfetch hsp => ⟨fun r hbad hstatus => ?rigRefused, fun hgood hrun => ?rigStaged⟩⟩,
    fun hcmd hup hrevert => ⟨fun hprev => ?revertRefused, fun hprev hrun => ?revertStaged⟩,
    fun hcmd h hh => ⟨fun hnone => ?unloadRefused, fun p hp hstays hrun => ?unloadMarks⟩⟩
  case progWaits => exact State.exec_loadProg hin hidle hqueue hsettle hfault hcmd (State.serveProg_waits hwait)
  case progAdmits =>
    have hp : p < 64 := List.mem_range.mp (List.mem_of_find?_eq_some hfree)
    exact ⟨_, State.exec_loadProg hin hidle hqueue hsettle hfault hcmd
        ((State.serveProg_got hup hcopy hfetch hsp).trans (State.loadProg_admits hgood hreal hfree)),
      State.progState_admitProg .., State.box_admitProg .., State.ctx_admitProg .., fun hmasts => State.number_admitProg _ _ _ _ _ hmasts hp,
      State.last_raise .., (State.mboxBusy_admitProg ..).trans State.mboxBusy_taken⟩
  case progRefused =>
    exact ⟨_, State.exec_loadProg hin hidle hqueue hsettle hfault hcmd
        ((State.serveProg_got hup hcopy hfetch hsp).trans (State.loadProg_refused hbad hstep)),
      State.refused_refuseLoad _ _ hstatus, (State.progs_onlyServed _).trans (State.progs_refuseLoad ..), rfl⟩
  case rigWaits => exact State.exec_loadRig hin hidle hqueue hsettle hfault hcmd (State.serveRig_down hdown)
  case rigRefused =>
    exact ⟨_, State.exec_loadRig hin hidle hqueue hsettle hfault hcmd (State.serveRig_refused hup hstaged hfetch hsp hbad),
      State.refused_refuseLoad _ _ hstatus, (State.cur_onlyServed _).trans (State.cur_of_taken (State.rig_refuseLoad ..)),
      (State.staged_onlyServed _).trans ((congrArg RigSt.staged (State.rig_refuseLoad ..)).trans hstaged)⟩
  case rigStaged =>
    exact ⟨_, State.exec_loadRig hin hidle hqueue hsettle hfault hcmd (State.serveRig_staged hup hstaged hfetch hsp hgood hrun), rfl, rfl,
      (State.mboxBusy_awaitsStep6 ..).trans State.mboxBusy_taken⟩
  case revertRefused =>
    exact ⟨_, State.exec_revert hin hidle hqueue hsettle hfault hcmd (State.serveRevert_noPrev hup hrevert hprev),
      (State.onlyServed_rows _).refused (State.refused_respond _ _ _ _ _ _ (by decide)),
      (State.cur_onlyServed _).trans (State.cur_of_taken (State.rig_respond ..))⟩
  case revertStaged =>
    exact ⟨_, State.exec_revert hin hidle hqueue hsettle hfault hcmd (State.serveRevert_waits hup hrevert hprev hrun), rfl, rfl,
      (State.mboxBusy_awaitsStep6 ..).trans State.mboxBusy_taken⟩
  case unloadRefused =>
    exact ⟨_, State.exec_unload hin hidle hfault hcmd (State.acceptUnload_noProgram (State.ofHandle_taken hh hnone)),
      State.refused_respond _ _ _ _ _ _ (by decide), State.progs_respond ..⟩
  case unloadMarks =>
    exact ⟨_, State.exec_unload hin hidle hfault hcmd (State.acceptUnload_marks hh hp hstays hrun hqueue hsettle hcmd), State.leaving_unloading, rfl,
      State.queue_joinLoads hqueue, State.mboxBusy_unloading⟩

end Sys2Proof.Machine
end

section
/-! SUPPORT. The landing buffers and the zero fill of a yard (R117, R276), and the statement on them (O24). The terms are kept small: the
memory that the compile of the whole text may take bounds what stands here. -/

namespace Sys2Proof.Machine

theorem SMap.get_absent {α : Type} {d : α} {k : Nat} {m : SMap α} (h : ∀ e ∈ m, e.1 ≠ k) : SMap.get d m k = d := by
  induction m with
  | nil => rfl
  | cons e m ih => exact (if_neg (h e List.mem_cons_self)).trans (ih fun x hx => h x (List.mem_cons_of_mem _ hx))

/-- The landing buffers of `t` are those of `s`. -/
def SameLanding (s t : State) : Prop := ∀ i j, (t.yard i j).landing = (s.yard i j).landing

section
variable {s t u : State}

theorem SameLanding.yards (h : SameLanding s t) (hu : u.yards = t.yards) : SameLanding s u := fun i j =>
  (congrArg YardSt.landing (State.yard_congr hu i j)).trans (h i j)

theorem SameLanding.setYard (h : SameLanding s t) {m y : Nat} {v : YardSt} (hv : v.landing = (t.yard m y).landing) :
    SameLanding s (t.setYard m y v) := fun i j => (t.yard_setYard_field YardSt.landing hv i j).trans (h i j)

theorem SameLanding.ite {c : Prop} [Decidable c] (ht : SameLanding s t) (hu : SameLanding s u) :
    SameLanding s (if c then t else u) :=
  iteInduction (fun _ => ht) fun _ => hu

theorem SameLanding.ite_askOut {c : Prop} [Decidable c] (h : SameLanding s t) {unit : Nat} :
    SameLanding s (if c then t.askOut unit else t) :=
  SameLanding.ite (h.yards ((State.askOut_keeps (Keeps.refl [.power] t) (Kind.Sub.refl _)).outside .yards (of_decide_eq_false rfl))) h

theorem SameLanding.ite_raise {c : Prop} [Decidable c] (h : SameLanding s t) {m y : Nat} {v : YardSt}
    (hv : v.landing = (t.yard m y).landing) {k d n p q r : Nat} :
    SameLanding s (if c then t else (t.setYard m y v).raise k d n p q r) :=
  SameLanding.ite h ((h.setYard hv).yards (State.yards_raise ..))

theorem SameLanding.match_list {l : List Nat} {f : Nat → List Nat → State} (ht : SameLanding s t) (hf : ∀ w ws, SameLanding s (f w ws)) :
    SameLanding s (match l with | [] => t | w :: ws => f w ws) := by
  cases l with
  | nil => exact ht
  | cons w ws => exact hf w ws

end

namespace State

section
variable {s t : State} (h : SameLanding s t)
include h

theorem uncorrAt_sameLanding (w handle port n : Nat) : SameLanding s (t.uncorrAt w handle port n) := by
  unfold uncorrAt
  induction regionOf (8 * w) with
  | yard =>
    exact SameLanding.ite_raise
      (SameLanding.ite_askOut (SameLanding.setYard (SameLanding.ite (h.yards (by rfl)) (h.yards (by rfl))) (by rfl))) (by rfl)
  | stay => exact SameLanding.ite_raise h (by rfl)
  | _ => exact h

theorem readCheck_sameLanding (a n handle port : Nat) : SameLanding s (t.readCheck a n handle port) := by
  have hcorr (l : List Nat) := SameLanding.match_list (l := l) (f := fun w ws => t.corrAt w (ws.length + 1)) h fun w ws =>
    h.yards ((corrAt_keeps (Keeps.refl [.regs, .events] t) (Kind.Sub.refl _)).outside .yards (of_decide_eq_false rfl))
  exact SameLanding.match_list (hcorr _) fun w ws => uncorrAt_sameLanding (hcorr _) _ _ _ _

/-- A write of no program. -/
theorem checkedStore_sameLanding (a : Nat) (bs : List Byte) (port : Nat) : SameLanding s (t.checkedStore a bs port none) :=
  SameLanding.yards (SameLanding.match_list h fun _ _ => uncorrAt_sameLanding h _ _ _ _)
    ((store_keeps (Keeps.refl [.regs, .mem, .ecc] _) (Kind.Sub.refl _)).outside .yards (of_decide_eq_false rfl))

end

section
variable {s : State} {m y bank : Nat} {e : Landing} {pre : List Landing}

theorem takeLanding_skip {o : Option (Landing × List Landing)} {l : List Landing} (h : e.bank ≠ bank) (hl : takeLanding bank l = o) :
    takeLanding bank (e :: l) = o.map fun q => (q.1, e :: q.2) := by
  subst hl
  refine (if_neg h).trans ?_
  induction takeLanding bank l with
  | none => rfl
  | some => rfl

theorem takeLanding_append (hpre : ∀ x ∈ pre, x.bank ≠ e.bank) (post : List Landing) :
    takeLanding e.bank (pre ++ e :: post) = some (e, pre ++ post) := by
  induction pre with
  | nil => exact if_pos rfl
  | cons x pre ih => exact takeLanding_skip (hpre x List.mem_cons_self) (ih fun z hz => hpre z (List.mem_cons_of_mem _ hz))

theorem takeLanding_none {l : List Landing} (h : ∀ e ∈ l, e.bank ≠ bank) : takeLanding bank l = none := by
  induction l with
  | nil => rfl
  | cons x l ih => exact takeLanding_skip (h x List.mem_cons_self) (ih fun z hz => h z (List.mem_cons_of_mem _ hz))

/-- A write is stored through the check; the tag of the block that it writes is in registers. -/
theorem landNow_write {bs : List Byte} (h : e.data = some bs) :
    Keeps [.regs] (s.checkedStore (yardAddr m y e.off) bs 16 none) (s.landNow m y e) := by
  have hserved : s.serveLanding m y e = s.checkedStore (yardAddr m y e.off) bs 16 none :=
    congrArg (fun d => s.serveLanding m y ⟨e.bank, e.off, d, e.len, e.strm, e.rank⟩) h
  exact hserved ▸ Keeps.ite (markLanded_keeps (Keeps.refl _ _) (Kind.Sub.refl _)) (Keeps.refl _ _)

/-- The data of a read, on its way to the Stay engine. -/
noncomputable def landingReply (s : State) (m y : Nat) (e : Landing) : Flit :=
  { src := m, dst := 7, addr := yardAddr m y e.off, data := s.bytes (yardAddr m y e.off) e.len, prog := none, strm := e.strm,
    rank := e.rank, read := true, ready := s.now }

theorem landNow_read (h : e.data = none) :
    s.landNow m y e = (s.readCheck (yardAddr m y e.off) e.len 0xFFFF 15).post [landingReply s m y e] :=
  congrArg (fun d => s.landNow m y ⟨e.bank, e.off, d, e.len, e.strm, e.rank⟩) h

theorem landNow_sameLanding {d : Option (List Byte)} (h : e.data = d) : SameLanding s (s.landNow m y e) := by
  induction d with
  | none => exact SameLanding.yards (readCheck_sameLanding (fun _ _ => rfl) _ _ _ _) (congrArg State.yards (landNow_read h) :)
  | some bs =>
    exact SameLanding.yards (checkedStore_sameLanding (fun _ _ => rfl) _ _ _) ((landNow_write h).outside .yards (of_decide_eq_false rfl))

noncomputable def setLanding (s : State) (m y : Nat) (l : List Landing) : State := s.setYard m y { s.yard m y with landing := l }

theorem landing_setLanding (s : State) (m y : Nat) (l : List Landing) : ((s.setLanding m y l).yard m y).landing = l :=
  congrArg YardSt.landing (yard_setYard_same ..)

/-- What a landing cycle of a bank does with the access that it takes. -/
noncomputable def landTaken (s : State) (m y bank : Nat) : Option (Landing × List Landing) → State
  | some (e, l) => if s.cycle % 32 = bank then (s.setLanding m y l).landNow m y e else s
  | none => s

/-- The zero fill of a yard is to end at an instant, or is over. -/
noncomputable def setFillEnd (s : State) (m y : Nat) (u : Option Nat) : State := s.setYard m y { s.yard m y with initUntil := u }

theorem yard_setFillEnd (s : State) (m y : Nat) (u : Option Nat) :
    (s.setFillEnd m y u).yard m y = { s.yard m y with initUntil := u } := yard_setYard_same ..

/-- The yard's bytes read zero, and YARD_INIT shows that the fill is over. -/
noncomputable def endFill (s : State) (m y : Nat) : State :=
  (((s.setFillEnd m y none).zeroFill (yardAddr m y 0) 0x800000).put (yreg .yardInit m y) 1 1 0).put (yreg .yardInit m y) 2 1 1

/-- The fill ends at its instant. -/
noncomputable def fillDue (s : State) (m y : Nat) : Option Nat → State
  | some u => if u ≤ s.now then s.endFill m y else s
  | none => s

theorem byte_zeroFill_in {a n b : Nat} (h : a ≤ b) (h' : b < a + n) : (s.zeroFill a n).byte b = 0 :=
  SMap.get_absent fun e he heq => by
    have hout : e.1 < a ∨ a + n ≤ e.1 := of_decide_eq_true (List.of_mem_filter he :)
    exact hout.elim (Nat.not_lt.mpr (heq.symm ▸ h)) (Nat.not_le.mpr (heq.symm ▸ h'))

theorem eq_of_none_of_some {α : Type} {f : Option α → State} {o : Option α} (hnone : f none = s)
    (h : ∀ a, o = some a → f (some a) = s) : f o = s := by
  induction o with
  | none => exact hnone
  | some a => exact h a rfl

end
end State

open State

/-- Settles O24: a landing cycle takes the oldest access for its bank (`takeLanding_append`), serving it leaves the buffers as they are
(`SameLanding`), and the fill of a yard is a restriction of memory to the other bytes. -/
theorem yardMemory : Obligations.YardMemory := by
  refine ⟨⟨fun m y e pre post s hlanding hpre hcycle => ?served, fun m y bank s h => ?idle⟩,
    fun m y s => ⟨fun hfree hon => ?begins, fun h => ?held, fun u hfill hdue => ?done, fun h => ?early⟩⟩
  case served =>
    refine ⟨(s.setLanding m y (pre ++ post)).landNow m y e, ?taken,
      (landNow_sameLanding rfl m y).trans (landing_setLanding ..), fun bs h => ⟨?waiting, byte_congr ?mem⟩,
      fun h => ⟨byte_congr ?unread, landingReply (s.setLanding m y (pre ++ post)) m y e, ?reply, rfl, rfl, rfl, rfl, rfl, rfl⟩⟩
    case taken =>
      exact (congrArg Host.Outcome.next ((congrArg (s.landTaken m y e.bank)
        ((congrArg (takeLanding e.bank) hlanding).trans (takeLanding_append hpre post))).trans (if_pos hcycle)) :)
    case waiting =>
      exact congrArg FabricSt.waiting (((landNow_write h).outside .fabric (of_decide_eq_false rfl)).trans
        ((checkedStore_keeps (Keeps.refl [.regs, .mem, .ecc, .progs, .yards, .events, .power] _) (Kind.Sub.refl _)).outside .fabric
          (of_decide_eq_false rfl)))
    case mem => exact ((landNow_write h).outside .mem (of_decide_eq_false rfl)).trans (mem_checkedStore ..)
    case unread =>
      exact (congrArg State.mem (landNow_read h)).trans
        ((readCheck_keeps (Keeps.refl [.regs, .yards, .events, .power] _) (Kind.Sub.refl _)).outside .mem (of_decide_eq_false rfl))
    case reply =>
      exact (congrArg (fun u : State => u.fabric.waiting) (landNow_read h)).trans (congrArg (fun f : FabricSt => f.waiting ++ [_])
        ((readCheck_keeps (Keeps.refl [.regs, .yards, .events, .power] _) (Kind.Sub.refl _)).outside .fabric (of_decide_eq_false rfl)))
  case idle =>
    have hsame : s.landTaken m y bank (takeLanding bank (s.yard m y).landing) = s :=
      h.elim (fun haway => eq_of_none_of_some rfl fun _ _ => if_neg haway) fun hnone => congrArg _ (takeLanding_none hnone)
    exact (congrArg Host.Outcome.next hsame :)
  case begins =>
    refine ⟨(s.setFillEnd m y (some (s.afterCycles 4096))).put (yreg .yardInit m y) 1 1 1, ?started,
      congrArg YardSt.initUntil (yard_setFillEnd ..), get_put_same _ _ _ (by decide), ?frame⟩
    case started =>
      exact congrArg Host.Outcome.next (if_neg (ne_true_of_eq_false (congrArg₂ (fun busy on => busy || !on) hfree hon)))
    case frame => exact (yard_setFillEnd s m y _).symm ▸ put_onlyRegs ..
  case held =>
    exact congrArg Host.Outcome.next (if_pos (Bool.or_eq_true_iff.mpr (h.imp_right fun hoff => congrArg Bool.not hoff)))
  case done =>
    refine ⟨s.endFill m y, (congrArg Host.Outcome.next ((congrArg (s.fillDue m y) hfill).trans (if_pos hdue)) :),
      congrArg YardSt.initUntil (yard_setFillEnd ..), fun off hoff => ?zero,
      fun b hb => SMap.get_restrict (fun k => decide (k < _ ∨ _ ≤ k)) (decide_eq_true hb) s.mem,
      (get_put_field _ _ _ (by decide)).trans (get_put_same _ _ _ (by decide)), get_put_same _ _ _ (by decide),
      fun r hr => (reg_put_ne _ _ _ _ hr).trans (reg_put_ne _ _ _ _ hr)⟩
    case zero =>
      have haddr : yardAddr m y off = yardAddr m y 0 + off := congrArg (· + off) (Nat.add_zero _).symm
      exact (congrArg (State.byte _) haddr).trans (byte_zeroFill_in (Nat.le_add_right _ off) (Nat.add_lt_add_left hoff _))
  case early =>
    exact (congrArg Host.Outcome.next
      (eq_of_none_of_some (f := s.fillDue m y) rfl fun u hu => if_neg (Nat.not_le.mpr (h u hu))) :)

end Sys2Proof.Machine
end
